-- ==== Sys2Proof/Word.lean ====
section
/-! DEFINITION. The word types of the machine (R8, R50) and their plainest arithmetic. -/

namespace Sys2Proof

/-- A byte. -/
abbrev W8 := BitVec 8
/-- A halfword. -/
abbrev W16 := BitVec 16
/-- A 32-bit word, the width of a general register and of every device register (R29, R50). -/
abbrev W32 := BitVec 32
/-- A 64-bit value: a LOC64, a mask register, a wide counter. -/
abbrev W64 := BitVec 64

/-- The word of a natural number, modulo 2^32. -/
abbrev w32 (n : Nat) : W32 := BitVec.ofNat 32 n

/-- One bit as a word. -/
def b2w (b : Bool) : W32 := if b then 1 else 0

end Sys2Proof
end

