-- ==== Sys2Proof/Syntax.lean ====
section
/-! DEFINITION. The commands of the block, whole: one constructor per row of spec/opcode_table.json, with the row's
operands. A command is a register access with an effect of its own, an instruction a sequencer executes, a frame or an
edge that arrives, or the end of a bounded wait, as 95_what_each_step_holds.md lists them. -/

namespace Sys2Proof

/-- Who performs a register access (R37, R329): a sequencer, the host port or the debug port. -/
inductive Master where
  | seq (q : Fin 48)
  | host
  | debug
deriving DecidableEq, Repr

/-- Erroneous cells of a memory word (R321, R325, R326, R334, R477): one data bit, one check bit, two cells, or more
than two. -/
inductive CellErr where
  | single (bit : Nat)
  | checkBit (bit : Nat)
  | double
  | multi
deriving DecidableEq, Repr

/-- The shutter a command register acts on (R272): the global one, a bar's, or a tile's through SHUT_TCMD. -/
inductive Shutter where
  | global
  | bar (b : Fin 8)
  | tile
deriving DecidableEq, Repr

/-- What a serial-encoder frame delivered (R97, R98): the data bits as sampled, the parity bit (SSI), the error and
warning bits and the CRC as received (BiSS-C), and the line delay measured. -/
structure SerialFrame where
  data : W32
  parity : Bool
  nE : Bool
  nW : Bool
  crc : BitVec 6
  ldly : W8
deriving DecidableEq, Repr

/-- What a sense sequence delivered (R284, R287): the raw codes of the four pairs, in the order they are converted, and
what the HFI demodulator tracks: the angle modulo 180° (0x8000 = 180°) and its residual. -/
structure SenseCodes where
  ia : BitVec 12
  ib : BitVec 12
  ic : BitVec 12
  vdc : BitVec 12
  va : BitVec 12
  vb : BitVec 12
  vc : BitVec 12
  hfi : BitVec 15
  hfiConf : W16
deriving DecidableEq, Repr

/-- Which register of a tile a write names (R156): its list entry or a pair of row offsets. -/
inductive TileReg where
  | cfg
  | row01
  | row23
deriving DecidableEq, Repr

/-- A 66-bit block as LRXn delivers it after descrambling: control or data, and its 64 payload bits (R208). -/
structure LinkBlock where
  control : Bool
  bits : W64
deriving DecidableEq, Repr

/-- What comes back for the response grant of a ring position: its blocks as LRXn received them (R212, R215, R229). -/
structure MgmtReturn where
  pos : Fin 16
  blocks : List LinkBlock
deriving DecidableEq, Repr

/-- How a sideband transaction ends (R231, R233). -/
inductive SbResult where
  | data (bytes : List W8)
  | nack
  | timeout
  | busLow
deriving DecidableEq, Repr

/-- One telemetry read of a poll (R232, R233): raw thermistor code, status and sample sequence, or a failure. -/
inductive SbReading where
  | sample (code : W16) (status seq : W8)
  | nack
  | timeout
  | busLow
deriving DecidableEq, Repr

/-- A change of the masks of MSI-X: a vector's mask bit is cleared, or Function Mask is written (R383). -/
inductive MaskChange where
  | vector (v : Fin 64)
  | function (masked : Bool)
deriving DecidableEq, Repr

/-- Widths the host port trains to (R380). -/
inductive LinkWidth where
  | x1 | x2 | x4
deriving DecidableEq, Repr

/-- What an instruction of the IEEE 1149.1 test access does (R420); `other` stands for every private one. -/
inductive TapInstr where
  | bypass | idcode | sample | extest | other
deriving DecidableEq, Repr

/-- A GSP packet that reaches the boot ROM (R374, R396): its sender and its header fields, type included. -/
structure BootPacket where
  ip : List W8
  udp : W16
  type : W8
  stream : W16
  seq : W32
  flags : W8
  line : W32
  offset : W32
  length : W32
  crc : W32
  payload : List W8
deriving DecidableEq, Repr


/-- The commands of the block, one constructor per row of spec/opcode_table.json (its mnemonic and rule in each docstring). -/
inductive Instr where
  /-- REGISTER_WRITE (R29). A write to a register that has no row of its own; it is stored, refused or ignored as its field rules say, and takes effect in its home domain. -/
  | registerWrite (m : Master) (addr : W32) (value : W32)
  /-- READ_CLEAR (R10). A read of an RC register returns the value and clears it in the same access. -/
  | readClear (m : Master) (addr : W32)
  /-- SNAPSHOT_CAPTURE (R37). A read of a capture register latches its snapshot group on one home-domain edge into the reader's holding set, clearing RC members. -/
  | snapshotCapture (m : Master) (addr : W32)
  /-- ELOG_READ (R341). A read of MEM_ELOG0 or MEM_MFAIL0 latches the matching high word. -/
  | elogRead (m : Master) (march : Bool)
  /-- LREF_SEL_WRITE (R32). A write that changes SYS_CLK_CTL.lref_sel is refused, or relocks P_FIRE and the link PLLs and puts every axis in lull. -/
  | lrefSelWrite (value : Bool)
  /-- PLL_LOCK (R35). A PLL reaches lock after enable or relock; for a link group, lane skew is measured. -/
  | pllLock (p : Fin 16) (s0 : W8) (s1 : W8) (s2 : W8) (s3 : W8)
  /-- PLL_LOCK_LOSS (R35). A lock detector reports loss of lock; the lost flag is set, PLL_LOSS is posted and the actions of the PLL's row are taken. -/
  | pllLockLoss (p : Fin 16)
  /-- PLL_LOSS_RESET_TIMER (R35). 1 ms after loss of lock of P_FAB, P_CTRL or P_DRAM, a system reset is taken. -/
  | pllLossResetTimer (p : Fin 3)
  /-- SEQ_RUN (R44). A write of run starts a HALTED sequencer at SYS_SEQn_ENTRY. -/
  | seqRun (q : Fin 48)
  /-- SEQ_HALT (R44). A write of halt stops the sequencer at the next instruction boundary, abandoning a waiting instruction. -/
  | seqHalt (q : Fin 48)
  /-- SEQ_RST (R45). A write of rst resets the sequencer's CLU domain, or both cores of a pair written through the primary. -/
  | seqRst (q : Fin 48)
  /-- SPLIT_WRITE (R49). A write that changes split is accepted only with both cores HALTED and splitting permitted, otherwise ignored with split_err. -/
  | splitWrite (q : Fin 48) (value : W32)
  /-- SWI_SET (R45). A write of set makes the software interrupt pending on line 1. -/
  | swiSet (q : Fin 48)
  /-- SWI_CLR (R45). A write of clr clears the pending software interrupt. -/
  | swiClr (q : Fin 48)
  /-- SIG_SET_REG (R80). A write to SYS_SIG_SETk sets the selected hardware signals. -/
  | sigSetReg (k : Fin 8) (value : W32)
  /-- SIG_CLR_REG (R80). A write to SYS_SIG_CLRk clears the selected hardware signals. -/
  | sigClrReg (k : Fin 8) (value : W32)
  /-- DEBUG_HALT (R44). A debug halt request moves a HALTED or RUNNING sequencer to DEBUG. -/
  | debugHalt (q : Fin 48)
  /-- DEBUG_RESUME (R44). A debug resume returns a sequencer from DEBUG to RUNNING. -/
  | debugResume (q : Fin 48)
  /-- LOCKSTEP_MISMATCH (R48). The pair comparator finds diverging outputs; both cores enter FAULTED and the pair's safe actions are taken. -/
  | lockstepMismatch (pair : Fin 4)
  /-- INTERRUPT_TAKE (R75). A pending enabled interrupt line is taken at an instruction boundary as a trap to VBASE plus its line offset. -/
  | interruptTake (q : Fin 48)
  /-- TIMECMP_MATCH (R59). CYCLE reaches TIMECMP and interrupt line 0 becomes pending. -/
  | timecmpMatch (q : Fin 48)
  /-- ADD (R53). Register add modulo 2^32. -/
  | add (q : Fin 48) (rd rs1 rs2 : BitVec 5)
  /-- SUB (R53). Register subtract modulo 2^32. -/
  | sub (q : Fin 48) (rd rs1 rs2 : BitVec 5)
  /-- AND (R53). Bitwise AND of two registers. -/
  | and (q : Fin 48) (rd rs1 rs2 : BitVec 5)
  /-- OR (R53). Bitwise OR of two registers. -/
  | or (q : Fin 48) (rd rs1 rs2 : BitVec 5)
  /-- XOR (R53). Bitwise XOR of two registers. -/
  | xor (q : Fin 48) (rd rs1 rs2 : BitVec 5)
  /-- SLL (R53). Shift left logical by rs2[4:0]. -/
  | sll (q : Fin 48) (rd rs1 rs2 : BitVec 5)
  /-- SRL (R53). Shift right logical by rs2[4:0]. -/
  | srl (q : Fin 48) (rd rs1 rs2 : BitVec 5)
  /-- SRA (R53). Shift right arithmetic by rs2[4:0]. -/
  | sra (q : Fin 48) (rd rs1 rs2 : BitVec 5)
  /-- SLT (R53). Signed set-less-than. -/
  | slt (q : Fin 48) (rd rs1 rs2 : BitVec 5)
  /-- SLTU (R53). Unsigned set-less-than. -/
  | sltu (q : Fin 48) (rd rs1 rs2 : BitVec 5)
  /-- MUL (R53). Low 32 bits of the product. -/
  | mul (q : Fin 48) (rd rs1 rs2 : BitVec 5)
  /-- MULH (R53). High 32 bits of the signed product. -/
  | mulh (q : Fin 48) (rd rs1 rs2 : BitVec 5)
  /-- MULHU (R53). High 32 bits of the unsigned product. -/
  | mulhu (q : Fin 48) (rd rs1 rs2 : BitVec 5)
  /-- DIV (R53). Signed division rounded toward zero. -/
  | div (q : Fin 48) (rd rs1 rs2 : BitVec 5)
  /-- DIVU (R53). Unsigned division. -/
  | divu (q : Fin 48) (rd rs1 rs2 : BitVec 5)
  /-- REM (R53). Signed remainder. -/
  | rem (q : Fin 48) (rd rs1 rs2 : BitVec 5)
  /-- REMU (R53). Unsigned remainder. -/
  | remu (q : Fin 48) (rd rs1 rs2 : BitVec 5)
  /-- MIN (R53). Signed minimum. -/
  | min (q : Fin 48) (rd rs1 rs2 : BitVec 5)
  /-- MAX (R53). Signed maximum. -/
  | max (q : Fin 48) (rd rs1 rs2 : BitVec 5)
  /-- MINU (R53). Unsigned minimum. -/
  | minu (q : Fin 48) (rd rs1 rs2 : BitVec 5)
  /-- MAXU (R53). Unsigned maximum. -/
  | maxu (q : Fin 48) (rd rs1 rs2 : BitVec 5)
  /-- SLLI (R53). Shift left logical by the rs2 field value. -/
  | slli (q : Fin 48) (rd rs1 sh : BitVec 5)
  /-- SRLI (R53). Shift right logical by the rs2 field value. -/
  | srli (q : Fin 48) (rd rs1 sh : BitVec 5)
  /-- SRAI (R53). Shift right arithmetic by the rs2 field value. -/
  | srai (q : Fin 48) (rd rs1 sh : BitVec 5)
  /-- CLZ (R53). Count leading zeros of rs1. -/
  | clz (q : Fin 48) (rd rs1 : BitVec 5)
  /-- POPC (R53). Count one bits of rs1. -/
  | popc (q : Fin 48) (rd rs1 : BitVec 5)
  /-- ADDI (R54). Add sign-extended immediate. -/
  | addi (q : Fin 48) (rd rs1 : BitVec 5) (imm : W16)
  /-- ANDI (R54). AND with zero-extended immediate. -/
  | andi (q : Fin 48) (rd rs1 : BitVec 5) (imm : W16)
  /-- ORI (R54). OR with zero-extended immediate. -/
  | ori (q : Fin 48) (rd rs1 : BitVec 5) (imm : W16)
  /-- XORI (R54). XOR with zero-extended immediate. -/
  | xori (q : Fin 48) (rd rs1 : BitVec 5) (imm : W16)
  /-- SLTI (R54). Signed compare with sign-extended immediate. -/
  | slti (q : Fin 48) (rd rs1 : BitVec 5) (imm : W16)
  /-- SLTIU (R54). Unsigned compare with sign-extended immediate. -/
  | sltiu (q : Fin 48) (rd rs1 : BitVec 5) (imm : W16)
  /-- LUI (R54). Writes imm16 × 2^16 to rd. -/
  | lui (q : Fin 48) (rd : BitVec 5) (imm : W16)
  /-- LW (R55). Loads an aligned word from rs1 + imm16. -/
  | lw (q : Fin 48) (rd rs1 : BitVec 5) (imm : W16) (found : Option CellErr)
  /-- LH (R55). Loads a sign-extended halfword. -/
  | lh (q : Fin 48) (rd rs1 : BitVec 5) (imm : W16)
  /-- LHU (R55). Loads a zero-extended halfword. -/
  | lhu (q : Fin 48) (rd rs1 : BitVec 5) (imm : W16)
  /-- LB (R55). Loads a sign-extended byte. -/
  | lb (q : Fin 48) (rd rs1 : BitVec 5) (imm : W16)
  /-- LBU (R55). Loads a zero-extended byte. -/
  | lbu (q : Fin 48) (rd rs1 : BitVec 5) (imm : W16)
  /-- SW (R55). Stores an aligned word. -/
  | sw (q : Fin 48) (rd rs1 : BitVec 5) (imm : W16)
  /-- SH (R55). Stores a halfword by read, merge and write. -/
  | sh (q : Fin 48) (rd rs1 : BitVec 5) (imm : W16)
  /-- SB (R55). Stores a byte by read, merge and write. -/
  | sb (q : Fin 48) (rd rs1 : BitVec 5) (imm : W16)
  /-- AMOSWAP (R56). Atomically swaps an SRAM word with rs2. -/
  | amoswap (q : Fin 48) (rd rs1 rs2 : BitVec 5)
  /-- AMOADD (R56). Atomically adds rs2 to an SRAM word. -/
  | amoadd (q : Fin 48) (rd rs1 rs2 : BitVec 5)
  /-- AMOAND (R56). Atomically ANDs rs2 into an SRAM word. -/
  | amoand (q : Fin 48) (rd rs1 rs2 : BitVec 5)
  /-- AMOOR (R56). Atomically ORs rs2 into an SRAM word. -/
  | amoor (q : Fin 48) (rd rs1 rs2 : BitVec 5)
  /-- AMOCAS (R56). Atomically writes rs2 if the word equals rs3. -/
  | amocas (q : Fin 48) (rd rs1 rs2 rs3 : BitVec 5)
  /-- BEQ (R57). Branch if equal. -/
  | beq (q : Fin 48) (rs1 rs2 : BitVec 5) (off : W16)
  /-- BNE (R57). Branch if not equal. -/
  | bne (q : Fin 48) (rs1 rs2 : BitVec 5) (off : W16)
  /-- BLT (R57). Branch if signed less than. -/
  | blt (q : Fin 48) (rs1 rs2 : BitVec 5) (off : W16)
  /-- BGE (R57). Branch if signed greater or equal. -/
  | bge (q : Fin 48) (rs1 rs2 : BitVec 5) (off : W16)
  /-- BLTU (R57). Branch if unsigned less than. -/
  | bltu (q : Fin 48) (rs1 rs2 : BitVec 5) (off : W16)
  /-- BGEU (R57). Branch if unsigned greater or equal. -/
  | bgeu (q : Fin 48) (rs1 rs2 : BitVec 5) (off : W16)
  /-- JAL (R57). Jump relative and link. -/
  | jal (q : Fin 48) (rd : BitVec 5) (off : BitVec 21)
  /-- JALR (R57). Jump to rs1 + imm16 and link. -/
  | jalr (q : Fin 48) (rd rs1 : BitVec 5) (imm : W16)
  /-- ECALL (R71). Raises the ECALL trap. -/
  | ecall (q : Fin 48)
  /-- EBREAK (R71). Enters DEBUG when debug is open, otherwise raises the breakpoint trap. -/
  | ebreak (q : Fin 48)
  /-- ERET (R72). Returns from a trap to EPC and restores ie. -/
  | eret (q : Fin 48)
  /-- WFI (R76). Suspends the sequencer in WAITING until an interrupt line is pending. -/
  | wfi (q : Fin 48)
  /-- WFI_WAKE (R76). A pending enabled line ends WFI, with a trap if ie = 1 or continuing otherwise. -/
  | wfiWake (q : Fin 48)
  /-- CSRRW (R58). Reads a CSR and writes rs1 to it. -/
  | csrrw (q : Fin 48) (rd rs1 : BitVec 5) (csr : BitVec 12)
  /-- CSRRS (R58). Reads a CSR and sets the bits selected by rs1. -/
  | csrrs (q : Fin 48) (rd rs1 : BitVec 5) (csr : BitVec 12)
  /-- CSRRC (R58). Reads a CSR and clears the bits selected by rs1. -/
  | csrrc (q : Fin 48) (rd rs1 : BitVec 5) (csr : BitVec 12)
  /-- FENCE (R79). Completes when every earlier access of the sequencer is performed. -/
  | fence (q : Fin 48)
  /-- FENCE_I (R60). Fences, then discards the instruction prefetch buffer. -/
  | fenceI (q : Fin 48)
  /-- SIGSET (R80). Release operation that sets a hardware signal. -/
  | sigset (q : Fin 48) (rs1 : BitVec 5)
  /-- SIGCLR (R80). Release operation that clears a hardware signal. -/
  | sigclr (q : Fin 48) (rs1 : BitVec 5)
  /-- SIGWAIT (R80). Waits for a signal and consumes it. -/
  | sigwait (q : Fin 48) (rd rs1 rs2 : BitVec 5)
  /-- SIGWAITN (R80). Waits for a signal without consuming it. -/
  | sigwaitn (q : Fin 48) (rd rs1 rs2 : BitVec 5)
  /-- SIGWAIT_WAKE (R81). A set signal completes waiting SIGWAITs (one consuming winner) and SIGWAITNs with rd = 0. -/
  | sigwaitWake (sig : BitVec 8)
  /-- SIGWAIT_TIMEOUT (R80). The timeout of SIGWAIT or SIGWAITN expires and rd = 1. -/
  | sigwaitTimeout (q : Fin 48)
  /-- SIGTST (R80). Reads a signal's state. -/
  | sigtst (q : Fin 48) (rd rs1 : BitVec 5)
  /-- SIGTSTC (R80). Reads a signal's state and clears it indivisibly. -/
  | sigtstc (q : Fin 48) (rd rs1 : BitVec 5)
  /-- POST (R82). Builds a firmware event record, checks it in the order 4, 2, 3, 1 and offers it for acceptance. -/
  | post (q : Fin 48) (rd rs1 rs2 rs3 : BitVec 5)
  /-- WAITP (R142). Waits until the axis sill of a direction passes a stamp. -/
  | waitp (q : Fin 48) (rd rs1 rs2 rs3 : BitVec 5)
  /-- WAITP_PASSED (R142). The sill reaches the stamp and the waiting WAITP completes with code 0. -/
  | waitpPassed (q : Fin 48)
  /-- WAITP_TIMEOUT (R142). rs3 D4 cycles elapse and the WAITP completes with code 1. -/
  | waitpTimeout (q : Fin 48)
  /-- STAMP (R62). Computes a stamp from a reference, a pitch and a multiplier. -/
  | stamp (q : Fin 48) (rd rs1 rs2 rs3 : BitVec 5)
  /-- ARM (R138). Checks and queues a stamp-queue entry. -/
  | arm (q : Fin 48) (rd rs1 rs2 : BitVec 5)
  /-- CANCEL (R150). Removes queued entries by tag or all, sending CANCEL transoms for sent tiles. -/
  | cancel (q : Fin 48) (rd rs1 : BitVec 5)
  /-- AXRD (R123). Reads two words of an axis group captured on one D4 edge. -/
  | axrd (q : Fin 48) (rd rs1 : BitVec 5)
  /-- CLARKE (R64). Clarke transform of two phase currents. -/
  | clarke (q : Fin 48) (rd rs1 : BitVec 5)
  /-- PARK (R64). Park transform. -/
  | park (q : Fin 48) (rd rs1 rs2 : BitVec 5)
  /-- IPARK (R64). Inverse Park transform. -/
  | ipark (q : Fin 48) (rd rs1 rs2 : BitVec 5)
  /-- SVM (R64). Space-vector modulation to three duties and a sector. -/
  | svm (q : Fin 48) (rd rs1 : BitVec 5)
  /-- SINCOS (R64). Sine and cosine of an angle. -/
  | sincos (q : Fin 48) (rd rs1 : BitVec 5)
  /-- MACS (R64). Saturating multiply-accumulate. -/
  | macs (q : Fin 48) (rd rs1 rs2 : BitVec 5)
  /-- PISTEP (R65). One PI controller step with anti-windup. -/
  | pistep (q : Fin 48) (rd rs1 rs2 : BitVec 5)
  /-- VADD (R67). Vector add, residue-checked. -/
  | vadd (q : Fin 48) (m : BitVec 3) (vx : Bool) (vd vs1 vs2 : BitVec 5) (mism : Option (Fin 64))
  /-- VSUB (R67). Vector subtract, residue-checked. -/
  | vsub (q : Fin 48) (m : BitVec 3) (vx : Bool) (vd vs1 vs2 : BitVec 5) (mism : Option (Fin 64))
  /-- VMUL (R67). Vector multiply, residue-checked. -/
  | vmul (q : Fin 48) (m : BitVec 3) (vx : Bool) (vd vs1 vs2 : BitVec 5) (mism : Option (Fin 64))
  /-- VMULQ (R67). Vector Q16 multiply, residue-checked. -/
  | vmulq (q : Fin 48) (m : BitVec 3) (vx : Bool) (vd vs1 vs2 : BitVec 5) (mism : Option (Fin 64))
  /-- VMAC (R67). Vector multiply-accumulate, residue-checked. -/
  | vmac (q : Fin 48) (m : BitVec 3) (vx : Bool) (vd vs1 vs2 : BitVec 5) (mism : Option (Fin 64))
  /-- VMIN (R67). Vector signed minimum. -/
  | vmin (q : Fin 48) (m : BitVec 3) (vx : Bool) (vd vs1 vs2 : BitVec 5)
  /-- VMAX (R67). Vector signed maximum. -/
  | vmax (q : Fin 48) (m : BitVec 3) (vx : Bool) (vd vs1 vs2 : BitVec 5)
  /-- VMINU (R67). Vector unsigned minimum. -/
  | vminu (q : Fin 48) (m : BitVec 3) (vx : Bool) (vd vs1 vs2 : BitVec 5)
  /-- VMAXU (R67). Vector unsigned maximum. -/
  | vmaxu (q : Fin 48) (m : BitVec 3) (vx : Bool) (vd vs1 vs2 : BitVec 5)
  /-- VAND (R67). Vector AND. -/
  | vand (q : Fin 48) (m : BitVec 3) (vx : Bool) (vd vs1 vs2 : BitVec 5)
  /-- VOR (R67). Vector OR. -/
  | vor (q : Fin 48) (m : BitVec 3) (vx : Bool) (vd vs1 vs2 : BitVec 5)
  /-- VXOR (R67). Vector XOR. -/
  | vxor (q : Fin 48) (m : BitVec 3) (vx : Bool) (vd vs1 vs2 : BitVec 5)
  /-- VSLL (R67). Vector shift left logical. -/
  | vsll (q : Fin 48) (m : BitVec 3) (vx : Bool) (vd vs1 vs2 : BitVec 5)
  /-- VSRL (R67). Vector shift right logical. -/
  | vsrl (q : Fin 48) (m : BitVec 3) (vx : Bool) (vd vs1 vs2 : BitVec 5)
  /-- VSRA (R67). Vector shift right arithmetic. -/
  | vsra (q : Fin 48) (m : BitVec 3) (vx : Bool) (vd vs1 vs2 : BitVec 5)
  /-- VCMPEQ (R67). Vector compare equal into a mask. -/
  | vcmpeq (q : Fin 48) (m : BitVec 3) (vx : Bool) (vd vs1 vs2 : BitVec 5)
  /-- VCMPLT (R67). Vector signed compare less into a mask. -/
  | vcmplt (q : Fin 48) (m : BitVec 3) (vx : Bool) (vd vs1 vs2 : BitVec 5)
  /-- VCMPLTU (R67). Vector unsigned compare less into a mask. -/
  | vcmpltu (q : Fin 48) (m : BitVec 3) (vx : Bool) (vd vs1 vs2 : BitVec 5)
  /-- VSPLAT (R67). Copies a general register into every lane. -/
  | vsplat (q : Fin 48) (m : BitVec 3) (vd gs : BitVec 5)
  /-- VEXT (R67). Extracts one lane into a general register. -/
  | vext (q : Fin 48) (gd vs1 gi : BitVec 5)
  /-- VIOTA (R67). Writes each lane's number. -/
  | viota (q : Fin 48) (m : BitVec 3) (vd : BitVec 5)
  /-- MAND (R67). Mask AND. -/
  | mand (q : Fin 48) (md ms1 ms2 : BitVec 3)
  /-- MOR (R67). Mask OR. -/
  | mor (q : Fin 48) (md ms1 ms2 : BitVec 3)
  /-- MNOT (R67). Mask NOT. -/
  | mnot (q : Fin 48) (md ms1 : BitVec 3)
  /-- MPOP (R67). Counts the ones of a mask. -/
  | mpop (q : Fin 48) (gd : BitVec 5) (ms : BitVec 3)
  /-- VLD (R68). Strided vector load after checking every active lane. -/
  | vld (q : Fin 48) (m : BitVec 3) (vd gb gs : BitVec 5)
  /-- VST (R68). Strided vector store after checking every active lane. -/
  | vst (q : Fin 48) (m : BitVec 3) (vd gb gs : BitVec 5)
  /-- VLDX (R68). Indexed vector load. -/
  | vldx (q : Fin 48) (m : BitVec 3) (vd gb vs2 : BitVec 5)
  /-- VSTX (R68). Indexed vector store. -/
  | vstx (q : Fin 48) (m : BitVec 3) (vd gb vs2 : BitVec 5)
  /-- VLUT (R164). Tone lookup through the table buffer, loading it if needed. -/
  | vlut (q : Fin 48) (m : BitVec 3) (vd vs1 g : BitVec 5)
  /-- VNMAP (R166). Reads 64 nozzle-map entries and applies gain, state and mode. -/
  | vnmap (q : Fin 48) (m : BitVec 3) (vd vs1 g : BitVec 5) (mism : Option (Fin 64))
  /-- VSPREAD (R168). Moves the tone of missing nozzles to their neighbours. -/
  | vspread (q : Fin 48) (m : BitVec 3) (vd vs1 g : BitVec 5) (mism : Option (Fin 64))
  /-- VTHR (R169). Threshold screening against a screen descriptor. -/
  | vthr (q : Fin 48) (m : BitVec 3) (vd vs1 g : BitVec 5)
  /-- VMASK (R170). Applies a Louvre pass mask. -/
  | vmask (q : Fin 48) (m : BitVec 3) (vd vs1 g : BitVec 5)
  /-- VPACK (R171). Packs drop levels into memory indivisibly per word. -/
  | vpack (q : Fin 48) (m : BitVec 3) (ga vs1 gf : BitVec 5)
  /-- TBUF_INVALIDATE (R165). A write of RCn_CTL.tbuf_inv invalidates the table buffer. -/
  | tbufInvalidate (n : Fin 16)
  /-- RESIDUE_INJECT_ARM (R172). A write of res_inj arms a mismatch in the next residue-checked instruction. -/
  | residueInjectArm (n : Fin 16)
  /-- QUAD_EDGE (R93). An accepted A/B level change is decoded and changes the count, direction, sill, speed and confirmation state. -/
  | quadEdge (qe : Fin 8) (a b : Bool)
  /-- Z_INDEX (R95). A filtered rising Z edge captures the count and may load it according to zmode. -/
  | zIndex (qe : Fin 8) (level : Bool)
  /-- Z_ARM (R95). A write of AXn_ZCTL.arm arms a single index load. -/
  | zArm (n : Fin 8) (value : W32)
  /-- POSITION_LOAD (R106). A write of AXn_POSSET loads the count and sills, or is refused while a bar can fire. -/
  | positionLoad (n : Fin 8) (value : W32)
  /-- AXIS_ENABLE (R103). Writing AXn_CFG.en = 1 moves the axis to ACQUIRE or LULL. -/
  | axisEnable (n : Fin 8) (value : W32)
  /-- AXIS_DISABLE (R103). Writing AXn_CFG.en = 0 moves the axis to OFF and cancels its queue entries. -/
  | axisDisable (n : Fin 8) (value : W32)
  /-- AXIS_CFG_WRITE (R127). A write of other AXn_CFG fields while enabled is ignored with cfg_err, except navg, eddy and qerr_max. -/
  | axisCfgWrite (n : Fin 8) (value : W32)
  /-- LULL_DECLARED (R115). The lull time expires after the last count change; the axis enters LULL and pending WAITPs return 3. -/
  | lullDeclared (n : Fin 8) (sideB : Bool)
  /-- SE_FRAME_START (R96). The frame period expires and a serial-encoder frame starts, or is skipped. -/
  | seFrameStart (n : Fin 2) (slo : Bool)
  /-- SE_FRAME_END (R99). A serial frame completes; its value is checked and the count changes, or the frame fails. -/
  | seFrameEnd (n : Fin 2) (frame : SerialFrame)
  /-- SE_TIMEOUT (R97). The monoflop, acknowledge or BiSS timeout expires and the frame fails. -/
  | seTimeout (n : Fin 2)
  /-- MICROSTEP_HANDOVER (R101). A counting-pulse handover changes a step-paced axis count. -/
  | microstepHandover (n : Fin 8) (rev : Bool)
  /-- VRATE_UPDATE (R102). At each whole PTP microsecond the virtual-axis increment is recomputed and crossed into D4. -/
  | vrateUpdate (n : Fin 8)
  /-- VIRTUAL_CARRY (R102). A carry or borrow of the virtual-axis accumulator is a count change. -/
  | virtualCarry (n : Fin 8) (borrow : Bool)
  /-- EO_STEP (R121). With pend non-zero and spacing elapsed, an encoder output takes one quadrature step. -/
  | eoStep (n : Fin 2)
  /-- EO_CFG_WRITE (R121). A write of EOn ratio or config is refused if invalid or while enabled; enabling clears the output. -/
  | eoCfgWrite (n : Fin 2) (ratio : Bool) (value : W32)
  /-- TILE_WEIGHT_WRITE (R128). A write of AXIS_TILEWk changes both tile weights in one D4 cycle. -/
  | tileWeightWrite (k : Fin 192) (value : W32)
  /-- STAMP_PASS (R140). A tile's sill passes an ahead entry's stamp; the strobe is built, placed and sent, and the entry may retire. -/
  | stampPass (lane : Fin 24) (phase : BitVec 6) (slips : List (BitVec 4))
  /-- DATA_SEND (R143). When a slot is ready and the tile has room, the link engine governs the line and sends its DATA transom. -/
  | dataSend (lane : Fin 24) (entry : Fin 64) (pos : Fin 16) (parity : List (Fin 2048))
  /-- COMMIT_POINT (R145). A tile's sill reaches its commit point and the outcome drops or blank is fixed. -/
  | commitPoint (lane : Fin 24)
  /-- SCHED_ENABLE (R151). Writing LANEn_SCHED.en = 1 enables the stamp queue and clears the counters. -/
  | schedEnable (lane : Fin 24) (value : W32)
  /-- SCHED_DISABLE (R151). Writing LANEn_SCHED.en = 0 flushes every entry of the lane. -/
  | schedDisable (lane : Fin 24) (value : W32)
  /-- SCHED_FLUSH (R151). A write of flush cancels every entry of the lane. -/
  | schedFlush (lane : Fin 24) (value : W32)
  /-- BAR_ENABLE (R156). Writing BARn_CFG.en = 1 is refused or starts the row-phase writes to the bar's tiles. -/
  | barEnable (b : Fin 8) (value : W32)
  /-- BAR_DISABLE (R156). Writing BARn_CFG.en = 0 cancels the bar's entries and clears rdy. -/
  | barDisable (b : Fin 8) (value : W32)
  /-- TILE_CFG_WRITE (R156). A write of FIRE_TILEk_CFG or ROW words that would change an enabled bar is refused with cfg_err. -/
  | tileCfgWrite (k : Fin 384) (reg : TileReg) (value : W32)
  /-- TEQ_WRITE (R154). A write changing FIRE_EQ.teq_ns is refused unless every lane is DOWN. -/
  | teqWrite (value : W32)
  /-- MASKED_MAP_WRITE (R182). A write of HEALTH_MWDATAs performs an indivisible masked write of one map entry. -/
  | maskedMapWrite (set : Fin 2) (value : W32)
  /-- TRIM_PUSH (R185). Writing a mask to HEALTH_TPUSHn starts pushing nozzle trims to the selected tiles, or is refused while busy. -/
  | trimPush (lane : Fin 24) (value : W32)
  /-- TRIM_PUSH_DONE (R185). The push's last write and commit are answered and busy clears. -/
  | trimPushDone (lane : Fin 24)
  /-- ECHO_RECEIVE (R188). An ECHO transom arrives; it is checked for duplicates and lost windows and queued for the classifier. -/
  | echoReceive (lane : Fin 24) (pos : Fin 16) (blocks : List LinkBlock)
  /-- CLASSIFIER_UPDATE (R194). The classifier scores a group and writes its 64 entries as one block read-modify-write. -/
  | classifierUpdate
  /-- CLASSIFIER_ENABLE (R186). Writing HEALTH_ECFG.en = 1 starts the classifier and writes K to the tiles, clearing c. -/
  | classifierEnable (value : W32)
  /-- CLASSIFIER_DISABLE (R195). Writing HEALTH_ECFG.en = 0 stops classification. -/
  | classifierDisable (value : W32)
  /-- CLASS_TABLE_LOAD (R189). A write of wload requests a shadow copy of the class table. -/
  | classTableLoad (value : W32)
  /-- CLASS_LOAD_DONE (R189). The shadow copy is made between two group updates and wbusy clears. -/
  | classLoadDone
  /-- CLASSIFIER_PARITY_ERROR (R195). A parity error halts the classifier and CLASSIFIER_FAULT is posted. -/
  | classifierParityError (queue : Bool)
  /-- ECHO_TEST (R195). A write of HEALTH_ECTEST.go runs one word through the scoring path. -/
  | echoTest (value : W32)
  /-- OG_TRIGGER (R198). A non-blank strobe to the trigger tile reaches the optical gate, or is ignored in an open window. -/
  | ogTrigger (gate : Fin 2) (tag : W8)
  /-- OG_WINDOW_OPEN (R198). The start delay expires and the gate window opens. -/
  | ogWindowOpen (gate : Fin 2) (base : BitVec 10)
  /-- OG_WINDOW_CLOSE (R198). The window length expires and one result is appended to the FIFO, or discarded when full. -/
  | ogWindowClose (gate : Fin 2) (crossing : Option (BitVec 20)) (extreme : BitVec 10)
  /-- OG_RESULT_READ (R199). A read of OGn_RESA removes the oldest result and latches RESB. -/
  | ogResultRead (gate : Fin 2)
  /-- GOV_ENABLE (R202). Writing HEALTH_GOVn_CFG.en = 1 clears all counts; en = 0 is refused in scanning. -/
  | govEnable (lane : Fin 24) (value : W32)
  /-- LANE_ENABLE (R216). Writing LANEn_CTL.en = 1 starts training from LOCK. -/
  | laneEnable (lane : Fin 24) (value : W32)
  /-- LANE_DISABLE (R216). Writing en = 0 sends MARK DOWN 16 times and moves the lane to DOWN. -/
  | laneDisable (lane : Fin 24) (value : W32)
  /-- LANE_RETRAIN (R216). A write of retrain moves the lane from UP, BROKEN or OPEN to LOCK. -/
  | laneRetrain (lane : Fin 24) (value : W32)
  /-- LANE_OPEN (R236). A write of open = 1 enters OPEN from BROKEN while poll = 1, or is refused. -/
  | laneOpen (lane : Fin 24) (value : W32)
  /-- LEGACY_WRITE (R237). A write of LANEn_CTL.legacy is accepted only in DOWN. -/
  | legacyWrite (lane : Fin 24) (value : W32)
  /-- BLOCK_LOCK (R216). LRXn reaches block lock in LOCK and the lane enters ENUM. -/
  | blockLock (lane : Fin 24)
  /-- LOCK_TIMEOUT (R216). No block lock within 10 ms returns the lane to DOWN with error 1. -/
  | lockTimeout (lane : Fin 24)
  /-- ENUM_RETURN (R217). The MARK ENUM returns; its mask is checked and the lane enters DELAY or DOWN. -/
  | enumReturn (lane : Fin 24) (mask : W16) (orderErr : Bool)
  /-- ENUM_TIMEOUT (R216). No valid ENUM return within 20 µs; after three, DOWN with error 2. -/
  | enumTimeout (lane : Fin 24)
  /-- DELAY_DONE (R218). 64 MARK DELAY measurements are complete; L and spread are recorded and CONFIG starts, or error 5. -/
  | delayDone (lane : Fin 24) (first : BitVec 17) (rest : List (BitVec 17))
  /-- BLOCK_LOCK_LOSS (R235). LRXn loses block lock in UP; tile shutters close and the lane retrains or becomes BROKEN. -/
  | blockLockLoss (lane : Fin 24)
  /-- REPLY_GRANT (R215). 8 to 64 blocks after a DATA or WAVE transom, the link engine sends a REPLY grant. -/
  | replyGrant (lane : Fin 24) (pos : Fin 16)
  /-- STAT_GRANT (R215). The STAT period expires and a STAT grant is sent to a running tile. -/
  | statGrant (lane : Fin 24) (pos : Fin 16)
  /-- ECHO_GRANT (R215). 4 to 8 µs after a strobe that ends an echo window, an ECHO grant is sent. -/
  | echoGrant (lane : Fin 24) (pos : Fin 16)
  /-- MGMT_GRANT (R215). 2.0 µs after an MGMT request, a response grant is sent. -/
  | mgmtGrant (lane : Fin 24) (pos : Fin 16)
  /-- GRANT_UNFILLED (R215). A grant returns to LRXn unfilled and LANEn_NOFILL rises. -/
  | grantUnfilled (lane : Fin 24) (kind : Fin 4) (pos : Fin 16)
  /-- REPLY_RECEIVE (R220). A REPLY arrives and acknowledges the DATA or WAVE, or triggers retransmission. -/
  | replyReceive (lane : Fin 24) (granted : Fin 16) (block : W64)
  /-- REPLY_TIMEOUT (R220). Nothing returns within L + 2 block times and the transom is retransmitted. -/
  | replyTimeout (lane : Fin 24) (pos : Fin 16)
  /-- STROBE_RETURN (R224). A sent STROBE or CANCEL returns at LRXn and is compared; failures are counted and may close the lane's tiles. -/
  | strobeReturn (lane : Fin 24) (same : Bool)
  /-- STROBE_RETURN_TIMEOUT (R224). A STROBE or CANCEL does not return within L ± 2 blocks and counts as a check failure. -/
  | strobeReturnTimeout (lane : Fin 24)
  /-- STAT_RECEIVE (R226). A STAT arrives; temperature, fire count, staged tags and flags are processed and limits checked. -/
  | statReceive (lane : Fin 24) (pos : Fin 16) (blocks : List LinkBlock)
  /-- STAT_TIMEOUT (R227). No valid STAT within T_st closes the tile shutter with link fault and posts STAT_TIMEOUT. -/
  | statTimeout (lane : Fin 24) (pos : Fin 16)
  /-- MGMT_REQUEST (R229). A write of LANEn_MGCMD.go sends an MGMT request, or answers status 2 if the lane is not UP or OPEN. -/
  | mgmtRequest (lane : Fin 24) (value : W32)
  /-- MGMT_RESPONSE_RECEIVE (R229). An MGMT response arrives and is matched to its request by sequence and position. -/
  | mgmtResponseReceive (lane : Fin 24) (resp : MgmtReturn)
  /-- MGMT_RETRY_TIMEOUT (R229). An unanswered request is repeated, and after three repeats reports status 2. -/
  | mgmtRetryTimeout (lane : Fin 24) (pos : Fin 16) (seq : W8)
  /-- SB_COMMAND (R233). A write of LANEn_SBCMD.go starts a firmware sideband transaction. -/
  | sbCommand (lane : Fin 24) (value : W32)
  /-- SB_TRANSACTION_DONE (R233). A sideband transaction ends with data, NACK or error. -/
  | sbTransactionDone (lane : Fin 24) (result : SbResult)
  /-- SB_STRETCH_TIMEOUT (R231). A stretch longer than 1 ms ends the transaction with 9 SCL clocks and STOP. -/
  | sbStretchTimeout (lane : Fin 24)
  /-- SB_POLL (R233). The poll period expires and every present tile's telemetry is read, converted and compared. -/
  | sbPoll (lane : Fin 24) (readings : List SbReading)
  /-- SB_POLL_WRITE (R236). A write clearing LANEn_SBCFG.poll in OPEN moves the lane to BROKEN and closes its tiles. -/
  | sbPollWrite (lane : Fin 24) (value : W32)
  /-- WAVE_UPLOAD (R248). A write of LANEn_WVCMD.go reads 128 bytes and sends WAVE transoms, or is refused. -/
  | waveUpload (lane : Fin 24) (value : W32)
  /-- WAVE_UPLOAD_DONE (R248). All WAVEs are answered, commits written to acknowledged tiles, failures reported and busy cleared. -/
  | waveUploadDone (lane : Fin 24)
  /-- SCALE_TICK (R251). Each millisecond the link engine computes every tile's scale S and writes changes over MGMT. -/
  | scaleTick (lane : Fin 24)
  /-- BREEZE_PUSH (R258). Within 1 ms of a BARn_BREEZE or tile config write, or lane UP, WV_BREEZE is written to the bar's tiles. -/
  | breezePush (lane : Fin 24)
  /-- SENSOR_GATE_CHANGE (R266). A filtered sensor gate level change asserts or deasserts its condition and latches routed causes. -/
  | sensorGateChange (gate : Fin 8) (level : Bool)
  /-- SHUT_CLOSE_CMD (R272). A command with close = 1 sets latch bit 0 of the global, bar or tile shutter. -/
  | shutCloseCmd (sh : Shutter) (value : W32)
  /-- SHUT_OPEN_CMD (R272). A command with open = 1 clears acknowledged latch bits or is refused with a code. -/
  | shutOpenCmd (sh : Shutter) (value : W32)
  /-- LINE_BOUNDARY_CLOSE (R265). A line-boundary request sets the bar supervisor bit when no entry is half passed, or after 1 ms. -/
  | lineBoundaryClose (bar : Fin 8) (limit : Bool)
  /-- SHUT_MODE_SELECT (R268). A write of SHUT_MODE.mode selects press or scanning configuration once per reset. -/
  | shutModeSelect (mode : BitVec 2)
  /-- TLIM_PUSH (R270). Within 1 ms of a LANEn_TLIM or THYS write, the limits are sent to the tile in UP or OPEN. -/
  | tlimPush (lane : Fin 24) (pos : Fin 16)
  /-- MOTOR_START (R289). start in OFF moves the channel to OBSERVE, otherwise sets cmd_err. -/
  | motorStart (n : Fin 2) (value : W32)
  /-- MOTOR_STOP (R289). stop moves any state to OFF with outputs coasting. -/
  | motorStop (n : Fin 2)
  /-- MOTOR_DISABLE (R289). Writing MOTn_CFG.en = 0 acts as stop. -/
  | motorDisable (n : Fin 2) (value : W32)
  /-- DUTY_COMMIT (R283). A write of MOTn_DUTY1 commits the duty set for the next update point at least 8 cycles away. -/
  | dutyCommit (m : Master) (n : Fin 2) (value : W32) (late : Bool)
  /-- PWM_UPDATE (R281). The PWM counter reaches 0; the committed duty set applies and the motor watchdog is checked. -/
  | pwmUpdate (n : Fin 2)
  /-- SENSE_TRIGGER (R284). adc_dly after the update point the sense sequence is triggered, or waits for the ADCs. -/
  | senseTrigger (n : Fin 2) (wait : W16)
  /-- SENSE_DONE (R286). The four pairs are converted; observer or HFI updates, the state machine advances and a loop tick sets its signal. -/
  | senseDone (n : Fin 2) (codes : SenseCodes)
  /-- OBSERVE_WINDOW_END (R290). The OBSERVE window ends and the channel enters SYNC, BRAKE or LOCATE. -/
  | observeWindowEnd (n : Fin 2) (cycles : W32)
  /-- POLARITY_PULSE_END (R292). Each 500 µs d-axis pulse ends; after the second the polarity is chosen and STARTUP begins. -/
  | polarityPulseEnd (n : Fin 2) (peak : W16)
  /-- LOCATE_TIMEOUT (R292). LOCATE does not converge within 50 ms and the start fails. -/
  | locateTimeout (n : Fin 2)
  /-- STARTUP_TIMEOUT (R292). STARTUP does not complete a revolution within start_to and the start fails. -/
  | startupTimeout (n : Fin 2)
  /-- RETRY_COAST_END (R292). The 10 ms coast after a failed start ends and the next attempt starts at OBSERVE. -/
  | retryCoastEnd (n : Fin 2)
  /-- RECATCH_TIMEOUT (R293). 100 ms pass since a loss without RUN and the channel enters FAULT with cause 8. -/
  | recatchTimeout (n : Fin 2)
  /-- TRIP_COMPARATOR (R297). A masked comparator asserts after its filter and the channel enters FAULT with cause 4. -/
  | tripComparator (n : Fin 2) (cmp : Fin 8)
  /-- ADC_SCAN (R284). The scan period expires and selected AIN inputs are converted in idle slots. -/
  | adcScan (codes : List (BitVec 12)) (adc1 : W16)
  /-- STEPPER_ENABLE (R302). Writing STn_CFG.en = 1 is refused or moves the channel to READY with p and POS cleared. -/
  | stepperEnable (n : Fin 4) (value : W32)
  /-- STEPPER_DISABLE (R312). Writing STn_CFG.en = 0 moves the channel to OFF with bridges coasting. -/
  | stepperDisable (n : Fin 4) (value : W32)
  /-- STEP_STOP (R312). stop flushes the queue and decelerates the running entry. -/
  | stepStop (n : Fin 4)
  /-- STEP_HALT (R312). halt flushes the queue and stops generation at once. -/
  | stepHalt (n : Fin 4)
  /-- STEP_CLR (R312). clr leaves FAULT when no fault holds and re-arms the stall reference. -/
  | stepClr (n : Fin 4)
  /-- MOVE_PUSH (R311). A write of STn_QV pushes a move entry or is refused with q_err. -/
  | movePush (m : Master) (n : Fin 4) (value : W32)
  /-- PROFILE_UPDATE (R309). Every 1 µs the generator updates the speed and fixes v_end at the decision point. -/
  | profileUpdate (n : Fin 4)
  /-- MICROSTEP (R317). A whole microstep accumulates; p and POS change, step-paced axes are pulsed, and the entry may end. -/
  | microstep (n : Fin 4)
  /-- STANDSTILL_DELAY (R313). The standstill delay in READY expires and the standstill mode applies. -/
  | standstillDelay (n : Fin 4)
  /-- CHOP_ON_END (R306). An ON phase ends on comparator after blanking or at ton_max; long ONs may flag an open winding. -/
  | chopOnEnd (n : Fin 4) (bridgeB : Bool) (cycles : W16) (long : Bool)
  /-- CHOP_DECAY_END (R307). A DECAY phase ends and the adaptive offset is updated. -/
  | chopDecayEnd (n : Fin 4) (bridgeB : Bool) (cycles : W32)
  /-- STALL_CHECK (R314). Every microsecond the step deviation from the encoder is checked against win. -/
  | stallCheck (n : Fin 4)
  /-- STALL_ENABLE (R314). Writing STn_STALL.en = 1 records the references, or is refused. -/
  | stallEnable (n : Fin 4) (value : W32)
  /-- CORRECTION_WRITEBACK (R325). A corrected word is written back in the next free slot unless written since. -/
  | correctionWriteback (word : BitVec 40)
  /-- CE_WINDOW_EXPIRE (R325). The 1 ms MEM_CE window of a macro or channel closes. -/
  | ceWindowExpire (unit : Fin 772)
  /-- SCRUB_READ (R327). The scrubber reads its next word and corrects or reports errors. -/
  | scrubRead (word : BitVec 40) (found : Option CellErr)
  /-- SCRUB_PASS_END (R327). A scrub pass period ends; an unfinished pass sets late and posts SCRUB_LATE. -/
  | scrubPassEnd (dram : Bool) (finished : Bool)
  /-- STARVE (R324). An access waits starve_lim cycles; MEM_STARVE rises and DMA_STARVE is posted. -/
  | starve (unit : Fin 768) (m : Option (Fin 53))
  /-- MARCH_GO (R336). A write of MEM_MARCH.go starts a test or is refused. -/
  | marchGo
  /-- MARCH_COMPLETE (R339). A march test ends; rows are repaired or failed and MARCH_DONE is posted. -/
  | marchComplete (rows : List (Fin 832))
  /-- GUST_GO (R344). go starts a channel program or is refused with err. -/
  | gustGo (m : Master) (c : Fin 40) (value : W32)
  /-- GUST_ABORT (R362). abort moves a running channel to STOPPING. -/
  | gustAbort (m : Master) (c : Fin 40) (value : W32)
  /-- GUST_ABORT_DONE (R362). Issued bursts return; the residue is recorded and the channel STOPPED with status aborted. -/
  | gustAbortDone (c : Fin 40)
  /-- GUST_DISABLE (R363). disable makes the channel IDLE in the next cycle without record. -/
  | gustDisable (m : Master) (c : Fin 40) (value : W32)
  /-- GUST_MOVE (R348). Copies a two-dimensional block through the funnel. -/
  | gustMove (c : Fin 40)
  /-- GUST_FILL (R353). Fills destination lines with a pattern. -/
  | gustFill (c : Fin 40)
  /-- GUST_CMP (R353). Compares destination lines with a pattern or source. -/
  | gustCmp (c : Fin 40)
  /-- GUST_CRC (R354). Stores, compares and restarts the running CRC. -/
  | gustCrc (c : Fin 40)
  /-- GUST_LOOP (R355). Repeats a loop body with offset increments. -/
  | gustLoop (c : Fin 40)
  /-- GUST_WAIT (R356). Waits for a signal or a delay. -/
  | gustWait (c : Fin 40)
  /-- GUST_WAIT_DONE (R356). The awaited signal is set or the delay ends and the program continues. -/
  | gustWaitDone (c : Fin 40)
  /-- GUST_WAIT_TIMEOUT (R356). The WAIT timeout expires and the channel stops with wait timeout. -/
  | gustWaitTimeout (c : Fin 40)
  /-- GUST_SIGNAL (R357). Sets, clears or pulses after earlier writes are done. -/
  | gustSignal (c : Fin 40)
  /-- GUST_END (R358). Ends the program and writes the completion record. -/
  | gustEnd (c : Fin 40)
  /-- RING_SPACE (R359). A channel waiting on a full ring writes its record when space appears. -/
  | ringSpace (c : Fin 40)
  /-- GUST_RATE_WINDOW (R361). A 1 µs rate window ends and limited channels may issue bursts again. -/
  | gustRateWindow
  /-- AXIS_CAPTURE_PULSE (R357). An event-channel pulse arrives in D4 and captures an axis stamp and FT. -/
  | axisCapturePulse (a : Fin 8)
  /-- FRAME_RECEIVE (R368). An Ethernet frame is accepted or dropped, then steered to GSP or stored in the receive ring. -/
  | frameReceive (port : Fin 2) (sub : Fin 4) (frame : List W8) (fcsOk : Bool) (stamp : Nat)
  /-- GSP_PLACE (R375). The steering stage refuses or places a PLANE_DATA packet and sends ACK or NACK. -/
  | gspPlace
  /-- BAND_DONE (R378). All writes of an end-of-band packet return; DONE is written and the signal set. -/
  | bandDone (stream : Fin 64)
  /-- ACK_TIMER (R377). ack_us pass without an ACK while packets were placed and an ACK is sent. -/
  | ackTimer (stream : Fin 64)
  /-- FRAME_TRANSMIT (R369). The device sends the next transmit descriptor's frame, time-stamps it and advances RD. -/
  | frameTransmit (port : Fin 2) (stamp : Nat)
  /-- ETH_LINK_CHANGE (R453). A sub-port link goes up or down; at link-up TSADJ is written. -/
  | ethLinkChange (port : Fin 2) (sub : Fin 4) (up : Bool)
  /-- PTP_INC_COMMIT (R370). A write of PTP_INCH commits the new increment. -/
  | ptpIncCommit (value : W32)
  /-- PTP_SET_TIME (R370). A write of PTP_SETSECH sets the time and valid. -/
  | ptpSetTime (value : W32)
  /-- PTP_ADJUST (R370). A write of PTP_ADJ adds nanoseconds once. -/
  | ptpAdjust (value : W32)
  /-- PTP_RATIO_MEASURE (R371). Each 1,024 µs of PTP time the D4 cycle count is stored in PTP_RATIO. -/
  | ptpRatioMeasure
  /-- PTP_ALARM (R373). PTP time reaches the alarm; the signal is set and en cleared. -/
  | ptpAlarm
  /-- PPS_PULSE (R373). At each whole second the PPS ball is driven high for width µs. -/
  | ppsPulse
  /-- PCIE_MEM_WRITE (R381). A host write to BAR0 or BAR2 is checked and performed in order. -/
  | pcieMemWrite (bar2 : Bool) (addr : W32) (bytes : List W8)
  /-- PCIE_MEM_READ (R382). A host read completes after earlier writes, or with UR or CA. -/
  | pcieMemRead (bar2 : Bool) (addr : W32) (len : BitVec 13)
  /-- PCIE_DOORBELL (R383). A write of PCIE_DBELL requests an MSI-X vector. -/
  | pcieDoorbell (value : W32)
  /-- MSIX_UNMASK (R383). Unmasking a pending vector sends one message. -/
  | msixUnmask (change : MaskChange)
  /-- PERST (R384). PERST_N or link-down resets the host port domain only. -/
  | perst
  /-- POWER_ON_RESET (R389). PORST_N low or VDD_AON below threshold resets everything including POR. -/
  | powerOnReset (loss : Bool)
  /-- SYSTEM_RESET_PIN (R388). SYSRST_N low for 1 µs takes a system reset. -/
  | systemResetPin
  /-- RESET_REQUEST (R405). A write of SYS_RSTCTL with the key requests a system reset. -/
  | resetRequest (value : W32)
  /-- DEBUG_RESET (R388). A debug-port reset request takes a system reset. -/
  | debugReset
  /-- RESET_END (R391). Reset ends; fuses load, PLLs lock, SRAM initialises and CP0 starts the boot ROM. -/
  | resetEnd (straps : BitVec 5) (gates : W8) (qe : BitVec 24) (gpio : W32) (marginal : List (Fin 2048)) (flips : List (Fin 2048 × BitVec 39))
  /-- DRAM_TRAINED (R391). DRAM training completes, channels become ready and the boot port opens. -/
  | dramTrained
  /-- BOOT_GO (R395). A write of SYS_BOOTCMD.go starts the image checks, loading and release. -/
  | bootGo (m : Master) (value : W32)
  /-- BOOT_PACKET (R396). A GSP BOOT packet is placed in staging, and an end flag acts as go. -/
  | bootPacket (packet : BootPacket)
  /-- BOOT_ANNOUNCE (R396). Once per second while waiting, an announce is sent to ff02::1. -/
  | bootAnnounce
  /-- SPI_WRITE (R397). SPI WRITE stores data at staging plus offset. -/
  | spiWrite (offset : W32) (data : List W8)
  /-- SPI_STATUS (R397). SPI STATUS returns SYS_BOOTSTAT. -/
  | spiStatus
  /-- SPI_GO (R397). SPI GO starts the image checks. -/
  | spiGo (frame : List W8)
  /-- RELOAD_GO (R400). A write of SYS_RLOAD.go starts a reload of one sequencer, or is refused. -/
  | reloadGo (value : W32)
  /-- RELOAD_DONE (R400). The reload ends with status done or a hash failure posting RELOAD_FAIL. -/
  | reloadDone
  /-- SUPPLY_WARNING (R402). A rail falls below warning; the global cause is set and motors fault. -/
  | supplyWarning (rail : Fin 11) (level : W16)
  /-- RAIL_RECOVERY_CROSS (R402). A rail rises through or falls below its recovery level, starting or restarting the dwell. -/
  | railRecoveryCross (rail : Fin 11) (up : Bool) (level : W16)
  /-- SUPPLY_RECOVERED (R402). The 50 µs dwell completes for every rail; SUPPLY_RECOVER is posted. -/
  | supplyRecovered (rail : Fin 11)
  /-- SUPPLY_RESET (R403). A rail below its reset threshold takes a reset and records the rail. -/
  | supplyReset (rail : Fin 11) (level : W16)
  /-- FUSE_PROG (R414). Programs FUSE_DATA into one word. -/
  | fuseProg (value : W32) (mv : BitVec 12)
  /-- FUSE_COMMIT (R414). Programs staged words, then optionally seals and locks. -/
  | fuseCommit (value : W32) (mv : BitVec 12)
  /-- FUSE_SEAL (R414). Programs the bank's CRC seal. -/
  | fuseSeal (value : W32) (mv : BitVec 12)
  /-- FUSE_LOCK (R414). Sets lock if the bank is sealed or FORCE is honoured. -/
  | fuseLock (value : W32) (mv : BitVec 12)
  /-- FUSE_CTRL (R414). Programs revoke bits of bank 4's control word. -/
  | fuseCtrl (value : W32) (mv : BitVec 12)
  /-- FUSE_SUPERSEDE (R415). Redirects a bank to bank 14 from the next reset. -/
  | fuseSupersede (value : W32) (mv : BitVec 12)
  /-- FUSE_LCADV (R417). Programs the next lifecycle bit in bank 2 words 0 to 2. -/
  | fuseLcadv (value : W32) (mv : BitVec 12)
  /-- FUSE_RESUME (R413). Resumes a paused command if VDD_FUSE is in window. -/
  | fuseResume (value : W32) (mv : BitVec 12)
  /-- FUSE_ABORT (R413). Ends a paused or running command after the current cell. -/
  | fuseAbort (value : W32) (cells : Nat)
  /-- FUSE_REREAD (R411). Rereads every word and flags drift. -/
  | fuseReread (value : W32)
  /-- FUSE_OP_COMPLETE (R412). A fuse command ends with its result and FUSE_DONE is posted. -/
  | fuseOpComplete (failed : Option Nat) (differ : List (Fin 2048)) (marginal : List (Fin 2048))
  /-- FUSE_SUPPLY_EXIT (R413). VDD_FUSE leaves its window and the running command pauses. -/
  | fuseSupplyExit (cells : Nat) (mv : BitVec 12)
  /-- SEC_CHAL (R421). Draws a 32-byte challenge. -/
  | secChal (m : Master)
  /-- SEC_RESP (R421). Checks a challenge response and opens debug on success. -/
  | secResp (m : Master)
  /-- SEC_PWD (R421). Checks a debug password and opens debug on success. -/
  | secPwd (m : Master)
  /-- SEC_ATTEST (R423). Writes the attestation HMAC into SEC_ATT. -/
  | secAttest (m : Master)
  /-- SEC_RMA (R422). Checks the RMA response and advances the lifecycle to RMA. -/
  | secRma (m : Master) (mv : BitVec 12)
  /-- SEC_CLOSE (R421). Closes debug access at once. -/
  | secClose (m : Master)
  /-- SEC_FAIL_REPORT (R421). 1 ms after a failed attempt the result is reported, with lockout at the eighth failure. -/
  | secFailReport
  /-- EVENT_ACCEPT (R427). A record is accepted into its ring or the holding queue, numbered and time-stamped, or lost. -/
  | eventAccept (src : Fin 118)
  /-- EVENT_RING_ENABLE (R429). A ring enable is refused or resets WR and RD and starts draining held records. -/
  | eventRingEnable (r : Fin 16) (value : W32)
  /-- EVENT_RING_RD_WRITE (R430). Advancing RD frees space and resumes draining of held records. -/
  | eventRingRdWrite (r : Fin 16) (value : W16)
  /-- WATCHDOG_START (R437). Writing SUP_WDOG.en = 1 starts the watchdog until reset. -/
  | watchdogStart (period : W16)
  /-- WATCHDOG_KICK (R437). The key pair written to SUP_WDKICK services the watchdog. -/
  | watchdogKick (m : Master) (key : W16)
  /-- WATCHDOG_STAGE1 (R437). One period without service sets condition 4 and posts WDOG_STAGE1. -/
  | watchdogStage1
  /-- WATCHDOG_RESET (R437). A second period without service takes a system reset. -/
  | watchdogReset
  /-- FAULTN_ASSERT (R436). A write of assert sets latch bit 4 of SUP_FAULTN. -/
  | faultnAssert (release : Bool)
  /-- FAULTN_RELEASE (R436). A write of release clears the latch, or is refused. -/
  | faultnRelease
  /-- HEARTBEAT (R438). A write to SUP_HBs from the sequencer records a heartbeat. -/
  | heartbeat (m : Master) (q : Fin 48)
  /-- HEARTBEAT_TIMEOUT (R438). No heartbeat within the period halts the sequencer and posts STATE_MISMATCH. -/
  | heartbeatTimeout (q : Fin 48)
  /-- TILE_OUT_OF_SERVICE (R439). A write of SUP_TOOSk sets or clears tiles' supervisor conditions. -/
  | tileOutOfService (k : Fin 12) (value : W32)
  /-- LE_DUPLICATE_MISMATCH (R441). Duplicate comparator or strobe builder copies differ; the lane is taken down and LE_DUP posted. -/
  | leDuplicateMismatch (lane : Fin 24) (builder : Bool)
  /-- SELFTEST_RUN (R442). A write of SUP_STEST starts a monitor test. -/
  | selftestRun (run : BitVec 10)
  /-- SELFTEST_COMPLETE (R442). A monitor test ends; pass or fail is recorded and posted. -/
  | selftestComplete (mon : Fin 10) (passed : Bool)
  /-- ADC_CAL_START (R448). The calibration period expires or adc_en is set and an ADC calibration starts. -/
  | adcCalStart
  /-- ADC_CAL_DONE (R448). Calibration conversions complete; gain and offset become pending or active, or it fails. -/
  | adcCalDone (lo0 : BitVec 12) (hi0 : BitVec 12) (lo1 : BitVec 12) (hi1 : BitVec 12)
  /-- ADC_CAL_APPLY (R449). A write of CAL_CTL.apply makes pending ADC values active. -/
  | adcCalApply (value : W32)
  /-- CAL_STALE_TIMEOUT (R454). No ADC calibration succeeds for 4 × per_s and the stale bit sets. -/
  | calStaleTimeout (adc : Fin 2)
  /-- TEMP_SAMPLE (R451). Every 100 µs the die sensors are sampled and DIE_HOT may be posted. -/
  | tempSample (t0 : W16) (t1 : W16) (t2 : W16) (t3 : W16)
  /-- TRIM_COMMIT (R455). A write of CAL_TCOMMIT.go commits trims to a bar's tiles at the commit boundary, or is refused. -/
  | trimCommit (value : W32)
  /-- TRIM_COMMIT_DONE (R455). Every commit write is acknowledged and busy clears. -/
  | trimCommitDone
  /-- ILLEGAL_INSTRUCTION (R52). A fetched word with a reserved opcode or func, or an instruction of an extension the sequencer lacks, raises the illegal instruction trap with the word in TVAL. -/
  | illegalInstruction (q : Fin 48) (word : W32)
  /-- INSTRUCTION_ACCESS_FAULT (R42). A fetch from a DRAM aperture, register space, an unmapped or region-refused address, or a word with an uncorrectable error raises trap code 0 or 9. -/
  | instructionAccessFault (q : Fin 48) (uncorrectable : Bool)
  /-- DEBUG_PORT_ACCESS (R27). A debug-port read or write of SRAM, DRAM or the boot ROM is checked as region master 52 under the debug policy and performed or answered with an error response. -/
  | debugPortAccess (write : Bool) (addr : BitVec 40) (data : W32)
  /-- PCIE_LINK_UP (R380). The PCIe link completes training, PCIE_STAT.up, speed and width are set and PCIE_LINK is posted. -/
  | pcieLinkUp (speed : Fin 4) (width : LinkWidth)
  /-- DIE_B_INIT_DONE (R391). DRAM die B finishes its background training and check-bit initialisation and MEM_DSTAT.rdy sets for channels 2 and 3. -/
  | dieBInitDone
  /-- COMPARATOR_CHANGE (R297). A comparator CMPk output changes level and ANA_CMPSTAT.live follows, with seen set on assertion. -/
  | comparatorChange (cmp : Fin 8) (input : BitVec 10)
deriving DecidableEq, Repr

end Sys2Proof
end

