-- ==== Sys2Proof/Decode.lean ====
section
/-! DEFINITION. The words of the opcode table. -/

namespace Sys2Proof

/-- The command a table word spells. No row of spec/opcode_table.json gives its command any bits: a command is a register
access, an instruction or an occurrence, told apart by its operands, so no word spells one. -/
def decodeTableWord (_nbits _w : Nat) : Option Instr := none

end Sys2Proof
end

