-- ==== Sys2Proof/Config.lean ====
section
/-! DEFINITION. What an implementation fixes and the spec leaves open: the free values. Each is an opaque constant with
no body, so no proof can see a value of it; notes/assumptions names where each is used. -/

namespace Sys2Proof.Config

/-- A word the spec leaves undefined, the `k`-th drawn (`State.freeCount` counts the draws). -/
opaque freeWord : Nat → W32

/-- A natural number the spec leaves undefined (a choice among outcomes, a measured quantity), the `k`-th drawn. -/
opaque freeNat : Nat → Nat

/-- The byte at a memory address that nothing has written since the `gen`-th system reset (R389). -/
opaque undefByte : Nat → Nat → W8

/-- The byte of the boot ROM at an offset; the spec does not give the ROM's contents (R24, R26). -/
opaque romByte : Nat → W8

/-- Cycles of clock domain D`d` that fall in the `k`-th D4 FIRE cycle; the phase of one domain to another is not
defined (R36). -/
opaque domainCycles : Nat → Nat → Nat

/-- The unused half of the last data block of an MGMT WRITE with an odd number of words, by its sequence (R229). -/
opaque mgmtPad : Nat → W32

/-- The levels of the GPIO balls in a D4 FIRE cycle, by the count of system resets and the cycles since (R277). -/
opaque gpioLevels : Nat → Nat → W32

/-- The synchronised levels of the sensor gates' balls in a D4 FIRE cycle, before the filters (R266, R277). -/
opaque gateLevels : Nat → Nat → W8

/-- Which of the columns still left the fuse code gives the `k`-th data cell; the spec names the code as SEC-DED and gives
no matrix (R407). -/
opaque fuseColumn : Nat → Nat

end Sys2Proof.Config
end

