-- ==== Sys2Proof/Machine/RegMap.lean ====
section
/-! DEFINITION. The register map: one card per register of the spec (R9, R10, R28), its address, its bit fields, its
access codes as masks and its reset value. Every address, bit position, access code and reset value below is the one
the register's card in spec/ states; the rule named beside a card is the one its chapter gives the register under. -/

namespace Sys2Proof.Machine

/-- The registers by name, one per card of the spec; instances of one card are told apart by two indices. -/
inductive RegId where
  | SYS_ID
  | SYS_AP_BASE
  | SYS_CLK_STAT
  | SYS_CLK_CTL
  | SYS_CDC_STAT
  | SYS_SEQ_CTL
  | SYS_SEQ_ENTRY
  | SYS_SEQ_STAT
  | SYS_SEQ_SWI
  | SYS_IRQMAP
  | SYS_SIG_STAT
  | SYS_SIG_SET
  | SYS_SIG_CLR
  | AX_CFG
  | AX_LULL
  | AX_ZCTL
  | AX_ZLOAD
  | AX_POS
  | AX_IPOS
  | AX_STATE
  | AX_SPEED
  | AX_TS
  | AX_SILLF
  | AX_SILLR
  | AX_SKEW
  | AX_ZCAP
  | AX_ERRCNT
  | AX_STAT
  | AX_IEN
  | AX_POSSET
  | AX_SKEWCFG
  | AX_VRATE
  | SE_CFG
  | SE_CLK
  | SE_CYC
  | SE_TIM
  | SE_LIM
  | SE_RAW
  | SE_MEAS
  | SE_STAT
  | EO_CFG
  | EO_RATIO
  | EO_POS
  | EO_PEND
  | EO_STAT
  | QE_CFG
  | AXIS_FT
  | AXIS_TILEW
  | BAR_CFG
  | BAR_PITCH
  | BAR_REF
  | BAR_ALIGN
  | BAR_VFLOOR
  | BAR_LATE
  | BAR_STAT
  | FIRE_EQ
  | FIRE_TILE_CFG
  | FIRE_TILE_GEO
  | FIRE_TILE_ROW01
  | FIRE_TILE_ROW23
  | LANE_SCHED
  | LANE_COMMIT
  | LANE_QSTAT
  | LANE_SCHSTAT
  | LANE_SCHIEN
  | RC_LAHEAD
  | RC_CTL
  | RC_STAT
  | RC_RESCNT
  | RC_VCYC
  | RC_NMWAIT
  | RC_TBUF
  | HEALTH_ECFG
  | HEALTH_ECSTAT
  | HEALTH_ECLANE
  | HEALTH_MWIDX
  | HEALTH_MWMASK
  | HEALTH_MWDATA
  | HEALTH_MWSTAT
  | HEALTH_TCLS
  | HEALTH_TPUSH
  | HEALTH_GOV_CFG
  | HEALTH_GOV_EMAX
  | HEALTH_GOV_EW0
  | HEALTH_GOV_EW1
  | HEALTH_GOV_SUPN
  | HEALTH_GOV_SUPE
  | HEALTH_GOV_STAT
  | OG_CFG
  | OG_WSTART
  | OG_WLEN
  | OG_RESA
  | OG_RESB
  | OG_STAT
  | OG_BASE
  | HEALTH_ECTESTF
  | HEALTH_ECTEST
  | LANE_CTL
  | LANE_STATE
  | LANE_RINGCFG
  | LANE_RINGL
  | LANE_PRES
  | LANE_EXCL
  | LANE_OPEN
  | LANE_LSTAT
  | LANE_LIEN
  | LANE_SBCFG
  | LANE_SBSTALE
  | LANE_DLY
  | LANE_TEMP
  | LANE_SBCMD
  | LANE_SBDATA
  | LANE_MGCMD
  | LANE_MGLEN
  | LANE_MGDATA
  | BAR_BREEZE
  | BAR_TCP
  | FIRE_RANK
  | FIRE_WVCFG
  | LANE_WVCMD
  | LANE_WVSRC
  | LANE_WVSTAT
  | LANE_SCALE
  | SHUT_MODE
  | SHUT_GSTAT
  | SHUT_B_STAT
  | SHUT_GCOND
  | SHUT_B_COND
  | SHUT_GCMD
  | SHUT_B_CMD
  | SHUT_GERR
  | SHUT_B_ERR
  | SHUT_T
  | SHUT_TCMD
  | SHUT_TERR
  | LANE_TLIM
  | LANE_THYS
  | LANE_THOT
  | SNS_GATE
  | SNS_GLVL
  | SNS_GSTAT
  | SNS_SHUTN
  | SNS_GPIO_IN
  | SNS_GPIO_OUT
  | SNS_GPIO_OE
  | MOT_CFG
  | MOT_PWM
  | MOT_CMD
  | MOT_STATE
  | MOT_ANG
  | MOT_SPD
  | MOT_RATED
  | MOT_SPDLIM
  | MOT_OBS
  | MOT_OBSRL
  | MOT_HFI
  | MOT_START
  | MOT_BUS
  | MOT_TRIP
  | MOT_FCAUSE
  | MOT_CNT
  | ANA_CMP
  | ANA_CMPSTAT
  | ANA_SCAN
  | ANA_AIN
  | ST_CFG
  | ST_CMD
  | ST_STATE
  | ST_QD
  | ST_QV
  | ST_QSTAT
  | ST_CUR
  | ST_STBY
  | ST_CHOP
  | ST_CHOP2
  | ST_OFFS
  | ST_FCAUSE
  | STEP_TABLE
  | STEP_GSTAT
  | MEM_RGN_BASE
  | MEM_RGN_LIM
  | MEM_RGN_CTL
  | MEM_SCRUB
  | MEM_SCRSTAT
  | MEM_ARB
  | MEM_MARCH
  | MEM_MTGT
  | MEM_MRET
  | MEM_MSTAT
  | MEM_DSTAT
  | GUST_CH_CTL
  | GUST_CH_CFG
  | GUST_CH_STAT
  | GUST_CH_RES
  | GUST_CH_LRES
  | GUST_CH_CRC
  | GUST_CH_SEQ
  | GUST_CH_BYTES
  | GUST_RING_SIZE
  | GUST_RING_WR
  | GUST_RING_RD
  | GUST_RING_STAT
  | GUST_GSTAT
  | ETH_CFG
  | PCIE_WIN
  | PCIE_VECMAP
  | PCIE_DBELL
  | SYS_RSTCAUSE
  | SYS_RSTCTL
  | SYS_BOOTSTAT
  | SYS_BOOTCMD
  | SYS_BOOTALARM
  | SYS_BOOTTIME
  | SYS_RTCNT
  | SYS_RLOAD
  | SYS_SUPSTAT
  | SYS_SUPSEEN
  | FUSE_CMD
  | FUSE_DATA
  | FUSE_PSTAT
  | FUSE_VMON
  | FUSE_INTEGRITY
  | FUSE_BSTAT
  | FUSE_STAGE
  | SEC_LC
  | SEC_CMD
  | SEC_ID
  | SUP_CFG
  | SUP_FAULTN
  | SUP_GCOND
  | SUP_TOOS
  | SUP_STAGE
  | SUP_GUAR
  | SUP_FWG
  | CAL_CTL
  | CAL_STAT
  | CAL_CMP
  | CAL_TS
  | CAL_TALARM
  | CAL_LANE
  | CAL_TRIMHOLD
  | CAL_TCOMMIT
  | LANE_STROBES
  | LANE_BLANKS
  | LANE_LATE
  | LANE_UNDELIV
  | LANE_MISSED
  | LANE_SLIP
  | LANE_UNCONF
  | LANE_UNCONF_FIRST
  | LANE_UNCONF_LAST
  | HEALTH_ECUPD
  | HEALTH_ECLOST
  | HEALTH_ECTRANS
  | LANE_BLKERR
  | LANE_RETX
  | LANE_SCERR
  | LANE_UPERR
  | LANE_NOFILL
  | LANE_STATTO
  | LANE_TSN
  | MOT_DUTY0
  | MOT_DUTY1
  | MOT_IAB
  | MOT_ICV
  | MOT_VAB
  | MOT_VC
  | MOT_SENSE
  | MOT_STAT
  | MOT_IEN
  | ST_POS
  | ST_VEL
  | ST_DEV
  | ST_STALL
  | ST_SRATIO
  | ST_PROF0
  | ST_PROF1
  | ST_PROF2
  | ST_PROF3
  | ST_STAT
  | ST_IEN
  | MEM_CECNT
  | MEM_UECNT
  | MEM_ELOG0
  | MEM_ELOG1
  | MEM_STARVE
  | MEM_MFAIL0
  | MEM_MFAIL1
  | MEM_RPIDX
  | MEM_RPDATA
  | GUST_CH_PROGL
  | GUST_CH_PROGH
  | GUST_CH_FADDRL
  | GUST_CH_FADDRH
  | GUST_RING_BASEL
  | GUST_RING_BASEH
  | GUST_AXCAP
  | GUST_AXCAP_FT
  | GUST_AXCAP_CNT
  | ETH_STAT
  | ETH_IEN
  | ETH_VLAN
  | ETH_TSADJ
  | ETH_RXBASE
  | ETH_RXRING
  | ETH_RXWR
  | ETH_RXRD
  | ETH_TXBASE
  | ETH_TXRING
  | ETH_TXWR
  | ETH_TXRD
  | ETH_MACLO
  | ETH_MACHI
  | ETH_IP4
  | ETH_IP6W0
  | ETH_IP6W1
  | ETH_IP6W2
  | ETH_IP6W3
  | ETH_RXFRM
  | ETH_RXBAD
  | ETH_RXDROP
  | ETH_GSPOK
  | ETH_GSPREF
  | ETH_GSPDUP
  | ETH_NACKSUP
  | ETH_PAUSE
  | ETH_TXFRM
  | ETH_GSPCFG
  | ETH_GSPTIM
  | GSP_CFG
  | GSP_BASEL
  | GSP_BASEH
  | GSP_STRIDE
  | GSP_GEOM
  | GSP_LEN
  | GSP_EXP
  | GSP_DONE
  | PTP_NS
  | PTP_SECL
  | PTP_SECH
  | PTP_INCL
  | PTP_INCH
  | PTP_SETNS
  | PTP_SETSECL
  | PTP_SETSECH
  | PTP_ADJ
  | PTP_STAT
  | PTP_RATIO
  | PTP_ALNS
  | PTP_ALSECL
  | PTP_ALCTL
  | PTP_PPS
  | PCIE_STAT
  | PCIE_IEN
  | PCIE_UR
  | PCIE_CA
  | PCIE_WDISC
  | PCIE_MSIX
  | PCIE_PBA
  | SYS_BOOTHASH
  | SYS_RTHASH
  | FUSE_WIDX
  | FUSE_WFLAG
  | FUSE_SH
  | SEC_CHAL
  | SEC_DATA
  | SEC_ATT
  | SUP_WDOG
  | SUP_WDKICK
  | SUP_UNITSTAT0
  | SUP_UNITSTAT1
  | SUP_STEST
  | SUP_STRES
  | SUP_HBCFG
  | SUP_HB
  | SUP_RING_BASE
  | SUP_RING_CFG
  | SUP_RING_RSV
  | SUP_RING_WR
  | SUP_RING_RD
  | SUP_RING_STAT
  | SUP_HOLD
  | SUP_DROP
  | SUP_SRCMAP
  | SUP_SEV
  | CAL_ADC
  | CAL_ADC_PEND
deriving DecidableEq, Repr

/-- Reset domains of R29 and R388. -/
inductive ResetDom where
  | por | sys | clu
deriving DecidableEq, Repr

/-- One register card: `n1` instances at stride `s1`, each with `n2` sub-instances at stride `s2`; the masks of the
access codes of R10; the reset value; the reset domain of R29. -/
structure Card where
  id : RegId
  base : Nat
  n1 : Nat
  s1 : Nat
  n2 : Nat
  s2 : Nat
  rw : Nat
  w1c : Nat
  w1s : Nat
  rc : Nat
  rst : Nat
  dom : ResetDom
deriving DecidableEq, Repr

/-- A bit field of a register: bits `hi` down to `lo` of the word at `addr`. -/
structure Field where
  addr : Nat
  hi : Nat
  lo : Nat
deriving DecidableEq, Repr

namespace R
/-- SYS_ID (R29, spec/01_architecture.md). -/
def SYS_ID : Nat := 0x40000000
/-- SYS_APn_BASE (R29, spec/01_architecture.md). -/
def SYS_AP_BASE (i : Nat) (j : Nat) : Nat := 0x40001000 + i * 0x10 + j * 0x4
/-- SYS_CLK_STAT (R31, spec/01_architecture.md). -/
def SYS_CLK_STAT : Nat := 0x40000010
/-- SYS_CLK_CTL (R31, spec/01_architecture.md). -/
def SYS_CLK_CTL : Nat := 0x40000014
/-- SYS_CDC_STAT (R32, spec/01_architecture.md). -/
def SYS_CDC_STAT : Nat := 0x40000018
/-- SYS_SEQn_CTL (R44, spec/02_programming_model.md). -/
def SYS_SEQ_CTL (i : Nat) : Nat := 0x40003000 + i * 0x10
/-- SYS_SEQn_ENTRY (R44, spec/02_programming_model.md). -/
def SYS_SEQ_ENTRY (i : Nat) : Nat := 0x40003004 + i * 0x10
/-- SYS_SEQn_STAT (R44, spec/02_programming_model.md). -/
def SYS_SEQ_STAT (i : Nat) : Nat := 0x40003008 + i * 0x10
/-- SYS_SEQn_SWI (R44, spec/02_programming_model.md). -/
def SYS_SEQ_SWI (i : Nat) : Nat := 0x4000300C + i * 0x10
/-- SYS_IRQMAPs_k (R74, spec/02_programming_model.md). -/
def SYS_IRQMAP (i : Nat) (j : Nat) : Nat := 0x40004000 + i * 0x20 + j * 0x4
/-- SYS_SIG_STATk (R81, spec/02_programming_model.md). -/
def SYS_SIG_STAT (i : Nat) : Nat := 0x40002000 + i * 0x4
/-- SYS_SIG_SETk (R81, spec/02_programming_model.md). -/
def SYS_SIG_SET (i : Nat) : Nat := 0x40002020 + i * 0x4
/-- SYS_SIG_CLRk (R81, spec/02_programming_model.md). -/
def SYS_SIG_CLR (i : Nat) : Nat := 0x40002040 + i * 0x4
/-- AXn_CFG (R126, spec/03_position_axes.md). -/
def AX_CFG (i : Nat) : Nat := 0x40030000 + i * 0x100
/-- AXn_LULL (R127, spec/03_position_axes.md). -/
def AX_LULL (i : Nat) : Nat := 0x40030004 + i * 0x100
/-- AXn_ZCTL (R127, spec/03_position_axes.md). -/
def AX_ZCTL (i : Nat) : Nat := 0x40030008 + i * 0x100
/-- AXn_ZLOAD (R127, spec/03_position_axes.md). -/
def AX_ZLOAD (i : Nat) : Nat := 0x4003000C + i * 0x100
/-- AXn_POS (R127, spec/03_position_axes.md). -/
def AX_POS (i : Nat) : Nat := 0x40030010 + i * 0x100
/-- AXn_IPOS (R127, spec/03_position_axes.md). -/
def AX_IPOS (i : Nat) : Nat := 0x40030014 + i * 0x100
/-- AXn_STATE (R127, spec/03_position_axes.md). -/
def AX_STATE (i : Nat) : Nat := 0x40030018 + i * 0x100
/-- AXn_SPEED (R127, spec/03_position_axes.md). -/
def AX_SPEED (i : Nat) : Nat := 0x4003001C + i * 0x100
/-- AXn_TS (R127, spec/03_position_axes.md). -/
def AX_TS (i : Nat) : Nat := 0x40030020 + i * 0x100
/-- AXn_SILLF (R127, spec/03_position_axes.md). -/
def AX_SILLF (i : Nat) : Nat := 0x40030024 + i * 0x100
/-- AXn_SILLR (R127, spec/03_position_axes.md). -/
def AX_SILLR (i : Nat) : Nat := 0x40030028 + i * 0x100
/-- AXn_SKEW (R127, spec/03_position_axes.md). -/
def AX_SKEW (i : Nat) : Nat := 0x4003002C + i * 0x100
/-- AXn_ZCAP (R127, spec/03_position_axes.md). -/
def AX_ZCAP (i : Nat) : Nat := 0x40030030 + i * 0x100
/-- AXn_ERRCNT (R127, spec/03_position_axes.md). -/
def AX_ERRCNT (i : Nat) : Nat := 0x40030034 + i * 0x100
/-- AXn_STAT (R127, spec/03_position_axes.md). -/
def AX_STAT (i : Nat) : Nat := 0x40030040 + i * 0x100
/-- AXn_IEN (R127, spec/03_position_axes.md). -/
def AX_IEN (i : Nat) : Nat := 0x40030044 + i * 0x100
/-- AXn_POSSET (R127, spec/03_position_axes.md). -/
def AX_POSSET (i : Nat) : Nat := 0x40030048 + i * 0x100
/-- AXn_SKEWCFG (R127, spec/03_position_axes.md). -/
def AX_SKEWCFG (i : Nat) : Nat := 0x4003004C + i * 0x100
/-- AXn_VRATE (R127, spec/03_position_axes.md). -/
def AX_VRATE (i : Nat) : Nat := 0x40030050 + i * 0x100
/-- SEn_CFG (R127, spec/03_position_axes.md). -/
def SE_CFG (i : Nat) : Nat := 0x40030800 + i * 0x40
/-- SEn_CLK (R127, spec/03_position_axes.md). -/
def SE_CLK (i : Nat) : Nat := 0x40030804 + i * 0x40
/-- SEn_CYC (R127, spec/03_position_axes.md). -/
def SE_CYC (i : Nat) : Nat := 0x40030808 + i * 0x40
/-- SEn_TIM (R127, spec/03_position_axes.md). -/
def SE_TIM (i : Nat) : Nat := 0x4003080C + i * 0x40
/-- SEn_LIM (R127, spec/03_position_axes.md). -/
def SE_LIM (i : Nat) : Nat := 0x40030810 + i * 0x40
/-- SEn_RAW (R127, spec/03_position_axes.md). -/
def SE_RAW (i : Nat) : Nat := 0x40030814 + i * 0x40
/-- SEn_MEAS (R127, spec/03_position_axes.md). -/
def SE_MEAS (i : Nat) : Nat := 0x40030818 + i * 0x40
/-- SEn_STAT (R127, spec/03_position_axes.md). -/
def SE_STAT (i : Nat) : Nat := 0x4003081C + i * 0x40
/-- EOn_CFG (R127, spec/03_position_axes.md). -/
def EO_CFG (i : Nat) : Nat := 0x40030900 + i * 0x20
/-- EOn_RATIO (R127, spec/03_position_axes.md). -/
def EO_RATIO (i : Nat) : Nat := 0x40030904 + i * 0x20
/-- EOn_POS (R127, spec/03_position_axes.md). -/
def EO_POS (i : Nat) : Nat := 0x40030908 + i * 0x20
/-- EOn_PEND (R127, spec/03_position_axes.md). -/
def EO_PEND (i : Nat) : Nat := 0x4003090C + i * 0x20
/-- EOn_STAT (R127, spec/03_position_axes.md). -/
def EO_STAT (i : Nat) : Nat := 0x40030910 + i * 0x20
/-- QEn_CFG (R127, spec/03_position_axes.md). -/
def QE_CFG (i : Nat) : Nat := 0x40030A00 + i * 0x4
/-- AXIS_FT (R127, spec/03_position_axes.md). -/
def AXIS_FT : Nat := 0x40030C00
/-- AXIS_TILEWk (R127, spec/03_position_axes.md). -/
def AXIS_TILEW (i : Nat) : Nat := 0x40031000 + i * 0x4
/-- BARn_CFG (R156, spec/04_fire_scheduling.md). -/
def BAR_CFG (i : Nat) : Nat := 0x40040000 + i * 0x40
/-- BARn_PITCH (R156, spec/04_fire_scheduling.md). -/
def BAR_PITCH (i : Nat) : Nat := 0x40040004 + i * 0x40
/-- BARn_REF (R156, spec/04_fire_scheduling.md). -/
def BAR_REF (i : Nat) : Nat := 0x40040008 + i * 0x40
/-- BARn_ALIGN (R156, spec/04_fire_scheduling.md). -/
def BAR_ALIGN (i : Nat) : Nat := 0x4004000C + i * 0x40
/-- BARn_VFLOOR (R156, spec/04_fire_scheduling.md). -/
def BAR_VFLOOR (i : Nat) : Nat := 0x40040010 + i * 0x40
/-- BARn_LATE (R156, spec/04_fire_scheduling.md). -/
def BAR_LATE (i : Nat) : Nat := 0x40040014 + i * 0x40
/-- BARn_STAT (R156, spec/04_fire_scheduling.md). -/
def BAR_STAT (i : Nat) : Nat := 0x40040018 + i * 0x40
/-- FIRE_EQ (R156, spec/04_fire_scheduling.md). -/
def FIRE_EQ : Nat := 0x40040400
/-- FIRE_TILEk_CFG (R156, spec/04_fire_scheduling.md). -/
def FIRE_TILE_CFG (i : Nat) : Nat := 0x40044000 + i * 0x10
/-- FIRE_TILEk_GEO (R156, spec/04_fire_scheduling.md). -/
def FIRE_TILE_GEO (i : Nat) : Nat := 0x40044004 + i * 0x10
/-- FIRE_TILEk_ROW01 (R156, spec/04_fire_scheduling.md). -/
def FIRE_TILE_ROW01 (i : Nat) : Nat := 0x40044008 + i * 0x10
/-- FIRE_TILEk_ROW23 (R156, spec/04_fire_scheduling.md). -/
def FIRE_TILE_ROW23 (i : Nat) : Nat := 0x4004400C + i * 0x10
/-- LANEn_SCHED (R156, spec/04_fire_scheduling.md). -/
def LANE_SCHED (i : Nat) : Nat := 0x40050400 + i * 0x800
/-- LANEn_COMMIT (R156, spec/04_fire_scheduling.md). -/
def LANE_COMMIT (i : Nat) : Nat := 0x40050404 + i * 0x800
/-- LANEn_QSTAT (R156, spec/04_fire_scheduling.md). -/
def LANE_QSTAT (i : Nat) : Nat := 0x40050408 + i * 0x800
/-- LANEn_SCHSTAT (R156, spec/04_fire_scheduling.md). -/
def LANE_SCHSTAT (i : Nat) : Nat := 0x4005040C + i * 0x800
/-- LANEn_SCHIEN (R156, spec/04_fire_scheduling.md). -/
def LANE_SCHIEN (i : Nat) : Nat := 0x40050410 + i * 0x800
/-- RC_LAHEADb (R178, spec/05_rendering.md). -/
def RC_LAHEAD (i : Nat) : Nat := 0x40070000 + i * 0x4
/-- RCn_CTL (R178, spec/05_rendering.md). -/
def RC_CTL (i : Nat) : Nat := 0x40070100 + i * 0x20
/-- RCn_STAT (R178, spec/05_rendering.md). -/
def RC_STAT (i : Nat) : Nat := 0x40070104 + i * 0x20
/-- RCn_RESCNT (R178, spec/05_rendering.md). -/
def RC_RESCNT (i : Nat) : Nat := 0x40070108 + i * 0x20
/-- RCn_VCYC (R178, spec/05_rendering.md). -/
def RC_VCYC (i : Nat) : Nat := 0x4007010C + i * 0x20
/-- RCn_NMWAIT (R178, spec/05_rendering.md). -/
def RC_NMWAIT (i : Nat) : Nat := 0x40070110 + i * 0x20
/-- RCn_TBUF (R178, spec/05_rendering.md). -/
def RC_TBUF (i : Nat) : Nat := 0x40070114 + i * 0x20
/-- HEALTH_ECFG (R205, spec/06_nozzle_health.md). -/
def HEALTH_ECFG : Nat := 0x40060000
/-- HEALTH_ECSTAT (R205, spec/06_nozzle_health.md). -/
def HEALTH_ECSTAT : Nat := 0x40060004
/-- HEALTH_ECLANE (R205, spec/06_nozzle_health.md). -/
def HEALTH_ECLANE : Nat := 0x40060008
/-- HEALTH_MWIDXs (R205, spec/06_nozzle_health.md). -/
def HEALTH_MWIDX (i : Nat) : Nat := 0x40060020 + i * 0x10
/-- HEALTH_MWMASKs (R205, spec/06_nozzle_health.md). -/
def HEALTH_MWMASK (i : Nat) : Nat := 0x40060024 + i * 0x10
/-- HEALTH_MWDATAs (R205, spec/06_nozzle_health.md). -/
def HEALTH_MWDATA (i : Nat) : Nat := 0x40060028 + i * 0x10
/-- HEALTH_MWSTATs (R205, spec/06_nozzle_health.md). -/
def HEALTH_MWSTAT (i : Nat) : Nat := 0x4006002C + i * 0x10
/-- HEALTH_TCLSk (R205, spec/06_nozzle_health.md). -/
def HEALTH_TCLS (i : Nat) : Nat := 0x40060100 + i * 0x4
/-- HEALTH_TPUSHn (R205, spec/06_nozzle_health.md). -/
def HEALTH_TPUSH (i : Nat) : Nat := 0x40060200 + i * 0x4
/-- HEALTH_GOVn_CFG (R205, spec/06_nozzle_health.md). -/
def HEALTH_GOV_CFG (i : Nat) : Nat := 0x40060400 + i * 0x20
/-- HEALTH_GOVn_EMAX (R205, spec/06_nozzle_health.md). -/
def HEALTH_GOV_EMAX (i : Nat) : Nat := 0x40060404 + i * 0x20
/-- HEALTH_GOVn_EW0 (R205, spec/06_nozzle_health.md). -/
def HEALTH_GOV_EW0 (i : Nat) : Nat := 0x40060408 + i * 0x20
/-- HEALTH_GOVn_EW1 (R205, spec/06_nozzle_health.md). -/
def HEALTH_GOV_EW1 (i : Nat) : Nat := 0x4006040C + i * 0x20
/-- HEALTH_GOVn_SUPN (R205, spec/06_nozzle_health.md). -/
def HEALTH_GOV_SUPN (i : Nat) : Nat := 0x40060410 + i * 0x20
/-- HEALTH_GOVn_SUPE (R205, spec/06_nozzle_health.md). -/
def HEALTH_GOV_SUPE (i : Nat) : Nat := 0x40060414 + i * 0x20
/-- HEALTH_GOVn_STAT (R205, spec/06_nozzle_health.md). -/
def HEALTH_GOV_STAT (i : Nat) : Nat := 0x40060418 + i * 0x20
/-- OGn_CFG (R205, spec/06_nozzle_health.md). -/
def OG_CFG (i : Nat) : Nat := 0x40060800 + i * 0x40
/-- OGn_WSTART (R205, spec/06_nozzle_health.md). -/
def OG_WSTART (i : Nat) : Nat := 0x40060804 + i * 0x40
/-- OGn_WLEN (R205, spec/06_nozzle_health.md). -/
def OG_WLEN (i : Nat) : Nat := 0x40060808 + i * 0x40
/-- OGn_RESA (R205, spec/06_nozzle_health.md). -/
def OG_RESA (i : Nat) : Nat := 0x4006080C + i * 0x40
/-- OGn_RESB (R205, spec/06_nozzle_health.md). -/
def OG_RESB (i : Nat) : Nat := 0x40060810 + i * 0x40
/-- OGn_STAT (R205, spec/06_nozzle_health.md). -/
def OG_STAT (i : Nat) : Nat := 0x40060814 + i * 0x40
/-- OGn_BASE (R205, spec/06_nozzle_health.md). -/
def OG_BASE (i : Nat) : Nat := 0x40060818 + i * 0x40
/-- HEALTH_ECTESTF (R205, spec/06_nozzle_health.md). -/
def HEALTH_ECTESTF : Nat := 0x40060C00
/-- HEALTH_ECTEST (R205, spec/06_nozzle_health.md). -/
def HEALTH_ECTEST : Nat := 0x40060C04
/-- LANEn_CTL (R239, spec/07_vilhel_link.md). -/
def LANE_CTL (i : Nat) : Nat := 0x40050000 + i * 0x800
/-- LANEn_STATE (R239, spec/07_vilhel_link.md). -/
def LANE_STATE (i : Nat) : Nat := 0x40050004 + i * 0x800
/-- LANEn_RINGCFG (R239, spec/07_vilhel_link.md). -/
def LANE_RINGCFG (i : Nat) : Nat := 0x40050008 + i * 0x800
/-- LANEn_RINGL (R239, spec/07_vilhel_link.md). -/
def LANE_RINGL (i : Nat) : Nat := 0x4005000C + i * 0x800
/-- LANEn_PRES (R239, spec/07_vilhel_link.md). -/
def LANE_PRES (i : Nat) : Nat := 0x40050010 + i * 0x800
/-- LANEn_EXCL (R239, spec/07_vilhel_link.md). -/
def LANE_EXCL (i : Nat) : Nat := 0x40050014 + i * 0x800
/-- LANEn_OPEN (R239, spec/07_vilhel_link.md). -/
def LANE_OPEN (i : Nat) : Nat := 0x40050018 + i * 0x800
/-- LANEn_LSTAT (R239, spec/07_vilhel_link.md). -/
def LANE_LSTAT (i : Nat) : Nat := 0x4005001C + i * 0x800
/-- LANEn_LIEN (R239, spec/07_vilhel_link.md). -/
def LANE_LIEN (i : Nat) : Nat := 0x40050020 + i * 0x800
/-- LANEn_SBCFG (R239, spec/07_vilhel_link.md). -/
def LANE_SBCFG (i : Nat) : Nat := 0x40050024 + i * 0x800
/-- LANEn_SBSTALE (R239, spec/07_vilhel_link.md). -/
def LANE_SBSTALE (i : Nat) : Nat := 0x40050028 + i * 0x800
/-- LANEn_DLYp (R239, spec/07_vilhel_link.md). -/
def LANE_DLY (i : Nat) (j : Nat) : Nat := 0x40050040 + i * 0x800 + j * 0x4
/-- LANEn_TEMPp (R239, spec/07_vilhel_link.md). -/
def LANE_TEMP (i : Nat) (j : Nat) : Nat := 0x40050080 + i * 0x800 + j * 0x4
/-- LANEn_SBCMD (R239, spec/07_vilhel_link.md). -/
def LANE_SBCMD (i : Nat) : Nat := 0x40050180 + i * 0x800
/-- LANEn_SBDATAk (R239, spec/07_vilhel_link.md). -/
def LANE_SBDATA (i : Nat) (j : Nat) : Nat := 0x40050184 + i * 0x800 + j * 0x4
/-- LANEn_MGCMD (R239, spec/07_vilhel_link.md). -/
def LANE_MGCMD (i : Nat) : Nat := 0x400501A0 + i * 0x800
/-- LANEn_MGLEN (R239, spec/07_vilhel_link.md). -/
def LANE_MGLEN (i : Nat) : Nat := 0x400501A4 + i * 0x800
/-- LANEn_MGDATAk (R239, spec/07_vilhel_link.md). -/
def LANE_MGDATA (i : Nat) (j : Nat) : Nat := 0x400501C0 + i * 0x800 + j * 0x4
/-- BARn_BREEZE (R261, spec/08_waveforms.md). -/
def BAR_BREEZE (i : Nat) : Nat := 0x4004001C + i * 0x40
/-- BARn_TCPk (R261, spec/08_waveforms.md). -/
def BAR_TCP (i : Nat) (j : Nat) : Nat := 0x40040800 + i * 0x40 + j * 0x4
/-- FIRE_RANKk (R261, spec/08_waveforms.md). -/
def FIRE_RANK (i : Nat) : Nat := 0x40040C00 + i * 0x4
/-- FIRE_WVCFG (R261, spec/08_waveforms.md). -/
def FIRE_WVCFG : Nat := 0x40040C40
/-- LANEn_WVCMD (R261, spec/08_waveforms.md). -/
def LANE_WVCMD (i : Nat) : Nat := 0x40050480 + i * 0x800
/-- LANEn_WVSRC (R261, spec/08_waveforms.md). -/
def LANE_WVSRC (i : Nat) : Nat := 0x40050484 + i * 0x800
/-- LANEn_WVSTAT (R261, spec/08_waveforms.md). -/
def LANE_WVSTAT (i : Nat) : Nat := 0x40050488 + i * 0x800
/-- LANEn_SCALEp (R261, spec/08_waveforms.md). -/
def LANE_SCALE (i : Nat) (j : Nat) : Nat := 0x400504C0 + i * 0x800 + j * 0x4
/-- SHUT_MODE (R276, spec/09_shutters_protection.md). -/
def SHUT_MODE : Nat := 0x40042000
/-- SHUT_GSTAT (R276, spec/09_shutters_protection.md). -/
def SHUT_GSTAT : Nat := 0x40042004
/-- SHUT_Bn_STAT (R276, spec/09_shutters_protection.md). -/
def SHUT_B_STAT (i : Nat) : Nat := 0x40042100 + i * 0x10
/-- SHUT_GCOND (R276, spec/09_shutters_protection.md). -/
def SHUT_GCOND : Nat := 0x40042008
/-- SHUT_Bn_COND (R276, spec/09_shutters_protection.md). -/
def SHUT_B_COND (i : Nat) : Nat := 0x40042104 + i * 0x10
/-- SHUT_GCMD (R276, spec/09_shutters_protection.md). -/
def SHUT_GCMD : Nat := 0x4004200C
/-- SHUT_Bn_CMD (R276, spec/09_shutters_protection.md). -/
def SHUT_B_CMD (i : Nat) : Nat := 0x40042108 + i * 0x10
/-- SHUT_GERR (R276, spec/09_shutters_protection.md). -/
def SHUT_GERR : Nat := 0x40042010
/-- SHUT_Bn_ERR (R276, spec/09_shutters_protection.md). -/
def SHUT_B_ERR (i : Nat) : Nat := 0x4004210C + i * 0x10
/-- SHUT_Tk (R276, spec/09_shutters_protection.md). -/
def SHUT_T (i : Nat) : Nat := 0x40042800 + i * 0x4
/-- SHUT_TCMD (R276, spec/09_shutters_protection.md). -/
def SHUT_TCMD : Nat := 0x40042E00
/-- SHUT_TERR (R276, spec/09_shutters_protection.md). -/
def SHUT_TERR : Nat := 0x40042E04
/-- LANEn_TLIMp (R276, spec/09_shutters_protection.md). -/
def LANE_TLIM (i : Nat) (j : Nat) : Nat := 0x40050500 + i * 0x800 + j * 0x8
/-- LANEn_THYSp (R276, spec/09_shutters_protection.md). -/
def LANE_THYS (i : Nat) (j : Nat) : Nat := 0x40050504 + i * 0x800 + j * 0x8
/-- LANEn_THOT (R276, spec/09_shutters_protection.md). -/
def LANE_THOT (i : Nat) : Nat := 0x40050580 + i * 0x800
/-- SNS_GATEi (R277, spec/09_shutters_protection.md). -/
def SNS_GATE (i : Nat) : Nat := 0x40110000 + i * 0x4
/-- SNS_GLVL (R277, spec/09_shutters_protection.md). -/
def SNS_GLVL : Nat := 0x40110020
/-- SNS_GSTAT (R277, spec/09_shutters_protection.md). -/
def SNS_GSTAT : Nat := 0x40110024
/-- SNS_SHUTN (R277, spec/09_shutters_protection.md). -/
def SNS_SHUTN : Nat := 0x40110028
/-- SNS_GPIO_IN (R277, spec/09_shutters_protection.md). -/
def SNS_GPIO_IN : Nat := 0x40110100
/-- SNS_GPIO_OUT (R277, spec/09_shutters_protection.md). -/
def SNS_GPIO_OUT : Nat := 0x40110104
/-- SNS_GPIO_OE (R277, spec/09_shutters_protection.md). -/
def SNS_GPIO_OE : Nat := 0x40110108
/-- MOTn_CFG (R300, spec/10_motor_field_control.md). -/
def MOT_CFG (i : Nat) : Nat := 0x40080000 + i * 0x100
/-- MOTn_PWM (R300, spec/10_motor_field_control.md). -/
def MOT_PWM (i : Nat) : Nat := 0x40080004 + i * 0x100
/-- MOTn_CMD (R300, spec/10_motor_field_control.md). -/
def MOT_CMD (i : Nat) : Nat := 0x40080008 + i * 0x100
/-- MOTn_STATE (R300, spec/10_motor_field_control.md). -/
def MOT_STATE (i : Nat) : Nat := 0x4008000C + i * 0x100
/-- MOTn_ANG (R300, spec/10_motor_field_control.md). -/
def MOT_ANG (i : Nat) : Nat := 0x40080030 + i * 0x100
/-- MOTn_SPD (R300, spec/10_motor_field_control.md). -/
def MOT_SPD (i : Nat) : Nat := 0x40080034 + i * 0x100
/-- MOTn_RATED (R300, spec/10_motor_field_control.md). -/
def MOT_RATED (i : Nat) : Nat := 0x40080040 + i * 0x100
/-- MOTn_SPDLIM (R300, spec/10_motor_field_control.md). -/
def MOT_SPDLIM (i : Nat) : Nat := 0x40080044 + i * 0x100
/-- MOTn_OBS (R300, spec/10_motor_field_control.md). -/
def MOT_OBS (i : Nat) : Nat := 0x40080048 + i * 0x100
/-- MOTn_OBSRL (R300, spec/10_motor_field_control.md). -/
def MOT_OBSRL (i : Nat) : Nat := 0x4008004C + i * 0x100
/-- MOTn_HFI (R300, spec/10_motor_field_control.md). -/
def MOT_HFI (i : Nat) : Nat := 0x40080050 + i * 0x100
/-- MOTn_START (R300, spec/10_motor_field_control.md). -/
def MOT_START (i : Nat) : Nat := 0x40080054 + i * 0x100
/-- MOTn_BUS (R300, spec/10_motor_field_control.md). -/
def MOT_BUS (i : Nat) : Nat := 0x40080058 + i * 0x100
/-- MOTn_TRIP (R300, spec/10_motor_field_control.md). -/
def MOT_TRIP (i : Nat) : Nat := 0x40080060 + i * 0x100
/-- MOTn_FCAUSE (R300, spec/10_motor_field_control.md). -/
def MOT_FCAUSE (i : Nat) : Nat := 0x4008006C + i * 0x100
/-- MOTn_CNT (R300, spec/10_motor_field_control.md). -/
def MOT_CNT (i : Nat) : Nat := 0x40080070 + i * 0x100
/-- ANA_CMPk (R300, spec/10_motor_field_control.md). -/
def ANA_CMP (i : Nat) : Nat := 0x400A0000 + i * 0x4
/-- ANA_CMPSTAT (R300, spec/10_motor_field_control.md). -/
def ANA_CMPSTAT : Nat := 0x400A0020
/-- ANA_SCAN (R300, spec/10_motor_field_control.md). -/
def ANA_SCAN : Nat := 0x400A0040
/-- ANA_AINk (R300, spec/10_motor_field_control.md). -/
def ANA_AIN (i : Nat) : Nat := 0x400A0100 + i * 0x4
/-- STn_CFG (R319, spec/11_stepper_motion.md). -/
def ST_CFG (i : Nat) : Nat := 0x40090000 + i * 0x100
/-- STn_CMD (R319, spec/11_stepper_motion.md). -/
def ST_CMD (i : Nat) : Nat := 0x40090004 + i * 0x100
/-- STn_STATE (R319, spec/11_stepper_motion.md). -/
def ST_STATE (i : Nat) : Nat := 0x40090008 + i * 0x100
/-- STn_QD (R319, spec/11_stepper_motion.md). -/
def ST_QD (i : Nat) : Nat := 0x40090018 + i * 0x100
/-- STn_QV (R319, spec/11_stepper_motion.md). -/
def ST_QV (i : Nat) : Nat := 0x4009001C + i * 0x100
/-- STn_QSTAT (R319, spec/11_stepper_motion.md). -/
def ST_QSTAT (i : Nat) : Nat := 0x40090020 + i * 0x100
/-- STn_CUR (R319, spec/11_stepper_motion.md). -/
def ST_CUR (i : Nat) : Nat := 0x40090024 + i * 0x100
/-- STn_STBY (R319, spec/11_stepper_motion.md). -/
def ST_STBY (i : Nat) : Nat := 0x40090028 + i * 0x100
/-- STn_CHOP (R319, spec/11_stepper_motion.md). -/
def ST_CHOP (i : Nat) : Nat := 0x4009002C + i * 0x100
/-- STn_CHOP2 (R319, spec/11_stepper_motion.md). -/
def ST_CHOP2 (i : Nat) : Nat := 0x40090030 + i * 0x100
/-- STn_OFFS (R319, spec/11_stepper_motion.md). -/
def ST_OFFS (i : Nat) : Nat := 0x40090034 + i * 0x100
/-- STn_FCAUSE (R319, spec/11_stepper_motion.md). -/
def ST_FCAUSE (i : Nat) : Nat := 0x40090088 + i * 0x100
/-- STEP_TABLEk (R319, spec/11_stepper_motion.md). -/
def STEP_TABLE (i : Nat) : Nat := 0x40090800 + i * 0x4
/-- STEP_GSTAT (R319, spec/11_stepper_motion.md). -/
def STEP_GSTAT : Nat := 0x40090A00
/-- MEM_RGNm_kBASE (R341, spec/12_memory.md). -/
def MEM_RGN_BASE (i : Nat) (j : Nat) : Nat := 0x400C0000 + i * 0x100 + j * 0x10
/-- MEM_RGNm_kLIM (R341, spec/12_memory.md). -/
def MEM_RGN_LIM (i : Nat) (j : Nat) : Nat := 0x400C0004 + i * 0x100 + j * 0x10
/-- MEM_RGNm_kCTL (R341, spec/12_memory.md). -/
def MEM_RGN_CTL (i : Nat) (j : Nat) : Nat := 0x400C0008 + i * 0x100 + j * 0x10
/-- MEM_SCRUB (R341, spec/12_memory.md). -/
def MEM_SCRUB : Nat := 0x400C8000
/-- MEM_SCRSTAT (R341, spec/12_memory.md). -/
def MEM_SCRSTAT : Nat := 0x400C8004
/-- MEM_ARB (R341, spec/12_memory.md). -/
def MEM_ARB : Nat := 0x400C8020
/-- MEM_MARCH (R341, spec/12_memory.md). -/
def MEM_MARCH : Nat := 0x400C8040
/-- MEM_MTGT (R341, spec/12_memory.md). -/
def MEM_MTGT : Nat := 0x400C8044
/-- MEM_MRET (R341, spec/12_memory.md). -/
def MEM_MRET : Nat := 0x400C8048
/-- MEM_MSTAT (R341, spec/12_memory.md). -/
def MEM_MSTAT : Nat := 0x400C804C
/-- MEM_DSTAT (R341, spec/12_memory.md). -/
def MEM_DSTAT : Nat := 0x400C8080
/-- GUST_CHc_CTL (R365, spec/13_gust_dma.md). -/
def GUST_CH_CTL (i : Nat) : Nat := 0x400B0000 + i * 0x40
/-- GUST_CHc_CFG (R365, spec/13_gust_dma.md). -/
def GUST_CH_CFG (i : Nat) : Nat := 0x400B0004 + i * 0x40
/-- GUST_CHc_STAT (R365, spec/13_gust_dma.md). -/
def GUST_CH_STAT (i : Nat) : Nat := 0x400B0010 + i * 0x40
/-- GUST_CHc_RES (R365, spec/13_gust_dma.md). -/
def GUST_CH_RES (i : Nat) : Nat := 0x400B0014 + i * 0x40
/-- GUST_CHc_LRES (R365, spec/13_gust_dma.md). -/
def GUST_CH_LRES (i : Nat) : Nat := 0x400B0018 + i * 0x40
/-- GUST_CHc_CRC (R365, spec/13_gust_dma.md). -/
def GUST_CH_CRC (i : Nat) : Nat := 0x400B0024 + i * 0x40
/-- GUST_CHc_SEQ (R365, spec/13_gust_dma.md). -/
def GUST_CH_SEQ (i : Nat) : Nat := 0x400B0028 + i * 0x40
/-- GUST_CHc_BYTES (R365, spec/13_gust_dma.md). -/
def GUST_CH_BYTES (i : Nat) : Nat := 0x400B002C + i * 0x40
/-- GUST_RINGr_SIZE (R365, spec/13_gust_dma.md). -/
def GUST_RING_SIZE (i : Nat) : Nat := 0x400B1008 + i * 0x20
/-- GUST_RINGr_WR (R365, spec/13_gust_dma.md). -/
def GUST_RING_WR (i : Nat) : Nat := 0x400B100C + i * 0x20
/-- GUST_RINGr_RD (R365, spec/13_gust_dma.md). -/
def GUST_RING_RD (i : Nat) : Nat := 0x400B1010 + i * 0x20
/-- GUST_RINGr_STAT (R365, spec/13_gust_dma.md). -/
def GUST_RING_STAT (i : Nat) : Nat := 0x400B1014 + i * 0x20
/-- GUST_GSTAT (R365, spec/13_gust_dma.md). -/
def GUST_GSTAT : Nat := 0x400B2000
/-- ETHn_CFG (R386, spec/14_network_host.md). -/
def ETH_CFG (i : Nat) : Nat := 0x400D0000 + i * 0x1000
/-- PCIE_WINw (R386, spec/14_network_host.md). -/
def PCIE_WIN (i : Nat) : Nat := 0x400E0100 + i * 0x4
/-- PCIE_VECMAPk (R386, spec/14_network_host.md). -/
def PCIE_VECMAP (i : Nat) : Nat := 0x400E0200 + i * 0x4
/-- PCIE_DBELL (R386, spec/14_network_host.md). -/
def PCIE_DBELL : Nat := 0x400E0300
/-- SYS_RSTCAUSE (R406, spec/15_boot_reset_supply.md). -/
def SYS_RSTCAUSE : Nat := 0x40005000
/-- SYS_RSTCTL (R406, spec/15_boot_reset_supply.md). -/
def SYS_RSTCTL : Nat := 0x40005004
/-- SYS_BOOTSTAT (R406, spec/15_boot_reset_supply.md). -/
def SYS_BOOTSTAT : Nat := 0x40005008
/-- SYS_BOOTCMD (R406, spec/15_boot_reset_supply.md). -/
def SYS_BOOTCMD : Nat := 0x4000500C
/-- SYS_BOOTALARM (R406, spec/15_boot_reset_supply.md). -/
def SYS_BOOTALARM : Nat := 0x40005010
/-- SYS_BOOTTIME (R406, spec/15_boot_reset_supply.md). -/
def SYS_BOOTTIME : Nat := 0x40005014
/-- SYS_RTCNT (R406, spec/15_boot_reset_supply.md). -/
def SYS_RTCNT : Nat := 0x40005060
/-- SYS_RLOAD (R406, spec/15_boot_reset_supply.md). -/
def SYS_RLOAD : Nat := 0x40005064
/-- SYS_SUPSTAT (R406, spec/15_boot_reset_supply.md). -/
def SYS_SUPSTAT : Nat := 0x40006000
/-- SYS_SUPSEEN (R406, spec/15_boot_reset_supply.md). -/
def SYS_SUPSEEN : Nat := 0x40006004
/-- FUSE_CMD (R425, spec/16_fuses_access.md). -/
def FUSE_CMD : Nat := 0x40020000
/-- FUSE_DATA (R425, spec/16_fuses_access.md). -/
def FUSE_DATA : Nat := 0x40020004
/-- FUSE_PSTAT (R425, spec/16_fuses_access.md). -/
def FUSE_PSTAT : Nat := 0x40020008
/-- FUSE_VMON (R425, spec/16_fuses_access.md). -/
def FUSE_VMON : Nat := 0x4002000C
/-- FUSE_INTEGRITY (R425, spec/16_fuses_access.md). -/
def FUSE_INTEGRITY : Nat := 0x40020010
/-- FUSE_BSTATb (R425, spec/16_fuses_access.md). -/
def FUSE_BSTAT (i : Nat) : Nat := 0x40020100 + i * 0x4
/-- FUSE_STAGEk (R425, spec/16_fuses_access.md). -/
def FUSE_STAGE (i : Nat) : Nat := 0x40020800 + i * 0x4
/-- SEC_LC (R425, spec/16_fuses_access.md). -/
def SEC_LC : Nat := 0x40100000
/-- SEC_CMD (R425, spec/16_fuses_access.md). -/
def SEC_CMD : Nat := 0x40100004
/-- SEC_IDk (R425, spec/16_fuses_access.md). -/
def SEC_ID (i : Nat) : Nat := 0x40100080 + i * 0x4
/-- SUP_CFG (R447, spec/17_faults_events.md). -/
def SUP_CFG : Nat := 0x40010000
/-- SUP_FAULTN (R447, spec/17_faults_events.md). -/
def SUP_FAULTN : Nat := 0x4001000C
/-- SUP_GCOND (R447, spec/17_faults_events.md). -/
def SUP_GCOND : Nat := 0x40010010
/-- SUP_TOOSk (R447, spec/17_faults_events.md). -/
def SUP_TOOS (i : Nat) : Nat := 0x40010040 + i * 0x4
/-- SUP_STAGEk (R447, spec/17_faults_events.md). -/
def SUP_STAGE (i : Nat) : Nat := 0x40010088 + i * 0x4
/-- SUP_GUAR (R447, spec/17_faults_events.md). -/
def SUP_GUAR : Nat := 0x40010090
/-- SUP_FWGi (R447, spec/17_faults_events.md). -/
def SUP_FWG (i : Nat) : Nat := 0x40012800 + i * 0x4
/-- CAL_CTL (R457, spec/18_calibration.md). -/
def CAL_CTL : Nat := 0x40120000
/-- CAL_STAT (R457, spec/18_calibration.md). -/
def CAL_STAT : Nat := 0x40120004
/-- CAL_CMPk (R457, spec/18_calibration.md). -/
def CAL_CMP (i : Nat) : Nat := 0x40120040 + i * 0x4
/-- CAL_TSk (R457, spec/18_calibration.md). -/
def CAL_TS (i : Nat) : Nat := 0x40120080 + i * 0x4
/-- CAL_TALARM (R457, spec/18_calibration.md). -/
def CAL_TALARM : Nat := 0x40120090
/-- CAL_LANEn (R457, spec/18_calibration.md). -/
def CAL_LANE (i : Nat) : Nat := 0x40120100 + i * 0x4
/-- CAL_TRIMHOLD (R457, spec/18_calibration.md). -/
def CAL_TRIMHOLD : Nat := 0x40120200
/-- CAL_TCOMMIT (R457, spec/18_calibration.md). -/
def CAL_TCOMMIT : Nat := 0x40120204
/-- LANEn_STROBES (R156, spec/04_fire_scheduling.md). -/
def LANE_STROBES (i : Nat) : Nat := 0x40050414 + i * 0x800
/-- LANEn_BLANKS (R156, spec/04_fire_scheduling.md). -/
def LANE_BLANKS (i : Nat) : Nat := 0x40050418 + i * 0x800
/-- LANEn_LATE (R156, spec/04_fire_scheduling.md). -/
def LANE_LATE (i : Nat) : Nat := 0x4005041C + i * 0x800
/-- LANEn_UNDELIV (R156, spec/04_fire_scheduling.md). -/
def LANE_UNDELIV (i : Nat) : Nat := 0x40050420 + i * 0x800
/-- LANEn_MISSED (R156, spec/04_fire_scheduling.md). -/
def LANE_MISSED (i : Nat) : Nat := 0x40050424 + i * 0x800
/-- LANEn_SLIP (R156, spec/04_fire_scheduling.md). -/
def LANE_SLIP (i : Nat) : Nat := 0x40050428 + i * 0x800
/-- LANEn_UNCONF (R156, spec/04_fire_scheduling.md). -/
def LANE_UNCONF (i : Nat) : Nat := 0x4005042C + i * 0x800
/-- LANEn_UNCONF_FIRST (R156, spec/04_fire_scheduling.md). -/
def LANE_UNCONF_FIRST (i : Nat) : Nat := 0x40050430 + i * 0x800
/-- LANEn_UNCONF_LAST (R156, spec/04_fire_scheduling.md). -/
def LANE_UNCONF_LAST (i : Nat) : Nat := 0x40050434 + i * 0x800
/-- HEALTH_ECUPD (R205, spec/06_nozzle_health.md). -/
def HEALTH_ECUPD : Nat := 0x4006000C
/-- HEALTH_ECLOST (R205, spec/06_nozzle_health.md). -/
def HEALTH_ECLOST : Nat := 0x40060010
/-- HEALTH_ECTRANS (R205, spec/06_nozzle_health.md). -/
def HEALTH_ECTRANS : Nat := 0x40060014
/-- LANEn_BLKERR (R239, spec/07_vilhel_link.md). -/
def LANE_BLKERR (i : Nat) : Nat := 0x40050200 + i * 0x800
/-- LANEn_RETX (R239, spec/07_vilhel_link.md). -/
def LANE_RETX (i : Nat) : Nat := 0x40050204 + i * 0x800
/-- LANEn_SCERR (R239, spec/07_vilhel_link.md). -/
def LANE_SCERR (i : Nat) : Nat := 0x40050208 + i * 0x800
/-- LANEn_UPERR (R239, spec/07_vilhel_link.md). -/
def LANE_UPERR (i : Nat) : Nat := 0x4005020C + i * 0x800
/-- LANEn_NOFILL (R239, spec/07_vilhel_link.md). -/
def LANE_NOFILL (i : Nat) : Nat := 0x40050210 + i * 0x800
/-- LANEn_STATTO (R239, spec/07_vilhel_link.md). -/
def LANE_STATTO (i : Nat) : Nat := 0x40050214 + i * 0x800
/-- LANEn_TSNp_w (R239, spec/07_vilhel_link.md). -/
def LANE_TSN (i : Nat) (j : Nat) : Nat := 0x40050100 + i * 0x800 + j * 0x4
/-- MOTn_DUTY0 (R300, spec/10_motor_field_control.md). -/
def MOT_DUTY0 (i : Nat) : Nat := 0x40080010 + i * 0x100
/-- MOTn_DUTY1 (R300, spec/10_motor_field_control.md). -/
def MOT_DUTY1 (i : Nat) : Nat := 0x40080014 + i * 0x100
/-- MOTn_IAB (R300, spec/10_motor_field_control.md). -/
def MOT_IAB (i : Nat) : Nat := 0x40080020 + i * 0x100
/-- MOTn_ICV (R300, spec/10_motor_field_control.md). -/
def MOT_ICV (i : Nat) : Nat := 0x40080024 + i * 0x100
/-- MOTn_VAB (R300, spec/10_motor_field_control.md). -/
def MOT_VAB (i : Nat) : Nat := 0x40080028 + i * 0x100
/-- MOTn_VC (R300, spec/10_motor_field_control.md). -/
def MOT_VC (i : Nat) : Nat := 0x4008002C + i * 0x100
/-- MOTn_SENSE (R300, spec/10_motor_field_control.md). -/
def MOT_SENSE (i : Nat) : Nat := 0x4008005C + i * 0x100
/-- MOTn_STAT (R300, spec/10_motor_field_control.md). -/
def MOT_STAT (i : Nat) : Nat := 0x40080064 + i * 0x100
/-- MOTn_IEN (R300, spec/10_motor_field_control.md). -/
def MOT_IEN (i : Nat) : Nat := 0x40080068 + i * 0x100
/-- STn_POS (R319, spec/11_stepper_motion.md). -/
def ST_POS (i : Nat) : Nat := 0x4009000C + i * 0x100
/-- STn_VEL (R319, spec/11_stepper_motion.md). -/
def ST_VEL (i : Nat) : Nat := 0x40090010 + i * 0x100
/-- STn_DEV (R319, spec/11_stepper_motion.md). -/
def ST_DEV (i : Nat) : Nat := 0x40090014 + i * 0x100
/-- STn_STALL (R319, spec/11_stepper_motion.md). -/
def ST_STALL (i : Nat) : Nat := 0x40090038 + i * 0x100
/-- STn_SRATIO (R319, spec/11_stepper_motion.md). -/
def ST_SRATIO (i : Nat) : Nat := 0x4009003C + i * 0x100
/-- STn_PROF0 (R319, spec/11_stepper_motion.md). -/
def ST_PROF0 (i : Nat) (j : Nat) : Nat := 0x40090040 + i * 0x100 + j * 0x10
/-- STn_PROF1 (R319, spec/11_stepper_motion.md). -/
def ST_PROF1 (i : Nat) (j : Nat) : Nat := 0x40090044 + i * 0x100 + j * 0x10
/-- STn_PROF2 (R319, spec/11_stepper_motion.md). -/
def ST_PROF2 (i : Nat) (j : Nat) : Nat := 0x40090048 + i * 0x100 + j * 0x10
/-- STn_PROF3 (R319, spec/11_stepper_motion.md). -/
def ST_PROF3 (i : Nat) (j : Nat) : Nat := 0x4009004C + i * 0x100 + j * 0x10
/-- STn_STAT (R319, spec/11_stepper_motion.md). -/
def ST_STAT (i : Nat) : Nat := 0x40090080 + i * 0x100
/-- STn_IEN (R319, spec/11_stepper_motion.md). -/
def ST_IEN (i : Nat) : Nat := 0x40090084 + i * 0x100
/-- MEM_CECNT (R341, spec/12_memory.md). -/
def MEM_CECNT : Nat := 0x400C8008
/-- MEM_UECNT (R341, spec/12_memory.md). -/
def MEM_UECNT : Nat := 0x400C800C
/-- MEM_ELOG0 (R341, spec/12_memory.md). -/
def MEM_ELOG0 : Nat := 0x400C8010
/-- MEM_ELOG1 (R341, spec/12_memory.md). -/
def MEM_ELOG1 : Nat := 0x400C8014
/-- MEM_STARVE (R341, spec/12_memory.md). -/
def MEM_STARVE : Nat := 0x400C8024
/-- MEM_MFAIL0 (R341, spec/12_memory.md). -/
def MEM_MFAIL0 : Nat := 0x400C8050
/-- MEM_MFAIL1 (R341, spec/12_memory.md). -/
def MEM_MFAIL1 : Nat := 0x400C8054
/-- MEM_RPIDX (R341, spec/12_memory.md). -/
def MEM_RPIDX : Nat := 0x400C8060
/-- MEM_RPDATA (R341, spec/12_memory.md). -/
def MEM_RPDATA : Nat := 0x400C8064
/-- GUST_CHc_PROGL (R365, spec/13_gust_dma.md). -/
def GUST_CH_PROGL (i : Nat) : Nat := 0x400B0008 + i * 0x40
/-- GUST_CHc_PROGH (R365, spec/13_gust_dma.md). -/
def GUST_CH_PROGH (i : Nat) : Nat := 0x400B000C + i * 0x40
/-- GUST_CHc_FADDRL (R365, spec/13_gust_dma.md). -/
def GUST_CH_FADDRL (i : Nat) : Nat := 0x400B001C + i * 0x40
/-- GUST_CHc_FADDRH (R365, spec/13_gust_dma.md). -/
def GUST_CH_FADDRH (i : Nat) : Nat := 0x400B0020 + i * 0x40
/-- GUST_RINGr_BASEL (R365, spec/13_gust_dma.md). -/
def GUST_RING_BASEL (i : Nat) : Nat := 0x400B1000 + i * 0x20
/-- GUST_RINGr_BASEH (R365, spec/13_gust_dma.md). -/
def GUST_RING_BASEH (i : Nat) : Nat := 0x400B1004 + i * 0x20
/-- GUST_AXCAP (R365, spec/13_gust_dma.md). -/
def GUST_AXCAP (i : Nat) : Nat := 0x400B2100 + i * 0x10
/-- GUST_AXCAP_FT (R365, spec/13_gust_dma.md). -/
def GUST_AXCAP_FT (i : Nat) : Nat := 0x400B2104 + i * 0x10
/-- GUST_AXCAP_CNT (R365, spec/13_gust_dma.md). -/
def GUST_AXCAP_CNT (i : Nat) : Nat := 0x400B2108 + i * 0x10
/-- ETHn_STAT (R386, spec/14_network_host.md). -/
def ETH_STAT (i : Nat) : Nat := 0x400D0004 + i * 0x1000
/-- ETHn_IEN (R386, spec/14_network_host.md). -/
def ETH_IEN (i : Nat) : Nat := 0x400D0008 + i * 0x1000
/-- ETHn_VLAN (R386, spec/14_network_host.md). -/
def ETH_VLAN (i : Nat) : Nat := 0x400D000C + i * 0x1000
/-- ETHn_TSADJ (R386, spec/14_network_host.md). -/
def ETH_TSADJ (i : Nat) : Nat := 0x400D0010 + i * 0x1000
/-- ETHn_RXBASE (R386, spec/14_network_host.md). -/
def ETH_RXBASE (i : Nat) : Nat := 0x400D0020 + i * 0x1000
/-- ETHn_RXRING (R386, spec/14_network_host.md). -/
def ETH_RXRING (i : Nat) : Nat := 0x400D0024 + i * 0x1000
/-- ETHn_RXWR (R386, spec/14_network_host.md). -/
def ETH_RXWR (i : Nat) : Nat := 0x400D0028 + i * 0x1000
/-- ETHn_RXRD (R386, spec/14_network_host.md). -/
def ETH_RXRD (i : Nat) : Nat := 0x400D002C + i * 0x1000
/-- ETHn_TXBASE (R386, spec/14_network_host.md). -/
def ETH_TXBASE (i : Nat) : Nat := 0x400D0040 + i * 0x1000
/-- ETHn_TXRING (R386, spec/14_network_host.md). -/
def ETH_TXRING (i : Nat) : Nat := 0x400D0044 + i * 0x1000
/-- ETHn_TXWR (R386, spec/14_network_host.md). -/
def ETH_TXWR (i : Nat) : Nat := 0x400D0048 + i * 0x1000
/-- ETHn_TXRD (R386, spec/14_network_host.md). -/
def ETH_TXRD (i : Nat) : Nat := 0x400D004C + i * 0x1000
/-- ETHn_MACLO (R386, spec/14_network_host.md). -/
def ETH_MACLO (i : Nat) (j : Nat) : Nat := 0x400D0100 + i * 0x1000 + j * 0x20
/-- ETHn_MACHI (R386, spec/14_network_host.md). -/
def ETH_MACHI (i : Nat) (j : Nat) : Nat := 0x400D0104 + i * 0x1000 + j * 0x20
/-- ETHn_IP4 (R386, spec/14_network_host.md). -/
def ETH_IP4 (i : Nat) (j : Nat) : Nat := 0x400D0108 + i * 0x1000 + j * 0x20
/-- ETHn_IP6W0 (R386, spec/14_network_host.md). -/
def ETH_IP6W0 (i : Nat) (j : Nat) : Nat := 0x400D010C + i * 0x1000 + j * 0x20
/-- ETHn_IP6W1 (R386, spec/14_network_host.md). -/
def ETH_IP6W1 (i : Nat) (j : Nat) : Nat := 0x400D0110 + i * 0x1000 + j * 0x20
/-- ETHn_IP6W2 (R386, spec/14_network_host.md). -/
def ETH_IP6W2 (i : Nat) (j : Nat) : Nat := 0x400D0114 + i * 0x1000 + j * 0x20
/-- ETHn_IP6W3 (R386, spec/14_network_host.md). -/
def ETH_IP6W3 (i : Nat) (j : Nat) : Nat := 0x400D0118 + i * 0x1000 + j * 0x20
/-- ETHn_RXFRM (R386, spec/14_network_host.md). -/
def ETH_RXFRM (i : Nat) : Nat := 0x400D0200 + i * 0x1000
/-- ETHn_RXBAD (R386, spec/14_network_host.md). -/
def ETH_RXBAD (i : Nat) : Nat := 0x400D0204 + i * 0x1000
/-- ETHn_RXDROP (R386, spec/14_network_host.md). -/
def ETH_RXDROP (i : Nat) : Nat := 0x400D0208 + i * 0x1000
/-- ETHn_GSPOK (R386, spec/14_network_host.md). -/
def ETH_GSPOK (i : Nat) : Nat := 0x400D020C + i * 0x1000
/-- ETHn_GSPREF (R386, spec/14_network_host.md). -/
def ETH_GSPREF (i : Nat) : Nat := 0x400D0210 + i * 0x1000
/-- ETHn_GSPDUP (R386, spec/14_network_host.md). -/
def ETH_GSPDUP (i : Nat) : Nat := 0x400D0214 + i * 0x1000
/-- ETHn_NACKSUP (R386, spec/14_network_host.md). -/
def ETH_NACKSUP (i : Nat) : Nat := 0x400D0218 + i * 0x1000
/-- ETHn_PAUSE (R386, spec/14_network_host.md). -/
def ETH_PAUSE (i : Nat) : Nat := 0x400D021C + i * 0x1000
/-- ETHn_TXFRM (R386, spec/14_network_host.md). -/
def ETH_TXFRM (i : Nat) : Nat := 0x400D0220 + i * 0x1000
/-- ETH_GSPCFG (R386, spec/14_network_host.md). -/
def ETH_GSPCFG : Nat := 0x400D2000
/-- ETH_GSPTIM (R386, spec/14_network_host.md). -/
def ETH_GSPTIM : Nat := 0x400D2004
/-- GSP_CFG (R386, spec/14_network_host.md). -/
def GSP_CFG (i : Nat) : Nat := 0x400D4000 + i * 0x20
/-- GSP_BASEL (R386, spec/14_network_host.md). -/
def GSP_BASEL (i : Nat) : Nat := 0x400D4004 + i * 0x20
/-- GSP_BASEH (R386, spec/14_network_host.md). -/
def GSP_BASEH (i : Nat) : Nat := 0x400D4008 + i * 0x20
/-- GSP_STRIDE (R386, spec/14_network_host.md). -/
def GSP_STRIDE (i : Nat) : Nat := 0x400D400C + i * 0x20
/-- GSP_GEOM (R386, spec/14_network_host.md). -/
def GSP_GEOM (i : Nat) : Nat := 0x400D4010 + i * 0x20
/-- GSP_LEN (R386, spec/14_network_host.md). -/
def GSP_LEN (i : Nat) : Nat := 0x400D4014 + i * 0x20
/-- GSP_EXP (R386, spec/14_network_host.md). -/
def GSP_EXP (i : Nat) : Nat := 0x400D4018 + i * 0x20
/-- GSP_DONE (R386, spec/14_network_host.md). -/
def GSP_DONE (i : Nat) : Nat := 0x400D401C + i * 0x20
/-- PTP_NS (R386, spec/14_network_host.md). -/
def PTP_NS : Nat := 0x400F0000
/-- PTP_SECL (R386, spec/14_network_host.md). -/
def PTP_SECL : Nat := 0x400F0004
/-- PTP_SECH (R386, spec/14_network_host.md). -/
def PTP_SECH : Nat := 0x400F0008
/-- PTP_INCL (R386, spec/14_network_host.md). -/
def PTP_INCL : Nat := 0x400F0010
/-- PTP_INCH (R386, spec/14_network_host.md). -/
def PTP_INCH : Nat := 0x400F0014
/-- PTP_SETNS (R386, spec/14_network_host.md). -/
def PTP_SETNS : Nat := 0x400F0020
/-- PTP_SETSECL (R386, spec/14_network_host.md). -/
def PTP_SETSECL : Nat := 0x400F0024
/-- PTP_SETSECH (R386, spec/14_network_host.md). -/
def PTP_SETSECH : Nat := 0x400F0028
/-- PTP_ADJ (R386, spec/14_network_host.md). -/
def PTP_ADJ : Nat := 0x400F002C
/-- PTP_STAT (R386, spec/14_network_host.md). -/
def PTP_STAT : Nat := 0x400F0030
/-- PTP_RATIO (R386, spec/14_network_host.md). -/
def PTP_RATIO : Nat := 0x400F0034
/-- PTP_ALNS (R386, spec/14_network_host.md). -/
def PTP_ALNS : Nat := 0x400F0040
/-- PTP_ALSECL (R386, spec/14_network_host.md). -/
def PTP_ALSECL : Nat := 0x400F0044
/-- PTP_ALCTL (R386, spec/14_network_host.md). -/
def PTP_ALCTL : Nat := 0x400F0048
/-- PTP_PPS (R386, spec/14_network_host.md). -/
def PTP_PPS : Nat := 0x400F0050
/-- PCIE_STAT (R386, spec/14_network_host.md). -/
def PCIE_STAT : Nat := 0x400E0000
/-- PCIE_IEN (R386, spec/14_network_host.md). -/
def PCIE_IEN : Nat := 0x400E0004
/-- PCIE_UR (R386, spec/14_network_host.md). -/
def PCIE_UR : Nat := 0x400E0400
/-- PCIE_CA (R386, spec/14_network_host.md). -/
def PCIE_CA : Nat := 0x400E0404
/-- PCIE_WDISC (R386, spec/14_network_host.md). -/
def PCIE_WDISC : Nat := 0x400E0408
/-- PCIE_MSIX (R383, spec/14_network_host.md). -/
def PCIE_MSIX (i : Nat) (j : Nat) : Nat := 0x400E8000 + i * 0x10 + j * 0x4
/-- PCIE_PBA (R383, spec/14_network_host.md). -/
def PCIE_PBA (i : Nat) : Nat := 0x400E9000 + i * 0x4
/-- SYS_BOOTHASHk (R406, spec/15_boot_reset_supply.md). -/
def SYS_BOOTHASH (i : Nat) : Nat := 0x40005020 + i * 0x4
/-- SYS_RTHASHk (R406, spec/15_boot_reset_supply.md). -/
def SYS_RTHASH (i : Nat) : Nat := 0x40005040 + i * 0x4
/-- FUSE_WIDX (R425, spec/16_fuses_access.md). -/
def FUSE_WIDX : Nat := 0x40020014
/-- FUSE_WFLAG (R425, spec/16_fuses_access.md). -/
def FUSE_WFLAG : Nat := 0x40020018
/-- FUSE_SHw (R425, spec/16_fuses_access.md). -/
def FUSE_SH (i : Nat) (j : Nat) : Nat := 0x40021000 + i * 0x200 + j * 0x4
/-- SEC_CHALk (R425, spec/16_fuses_access.md). -/
def SEC_CHAL (i : Nat) : Nat := 0x40100020 + i * 0x4
/-- SEC_DATAk (R425, spec/16_fuses_access.md). -/
def SEC_DATA (i : Nat) : Nat := 0x40100040 + i * 0x4
/-- SEC_ATTk (R425, spec/16_fuses_access.md). -/
def SEC_ATT (i : Nat) : Nat := 0x40100060 + i * 0x4
/-- SUP_WDOG (R447, spec/17_faults_events.md). -/
def SUP_WDOG : Nat := 0x40010004
/-- SUP_WDKICK (R447, spec/17_faults_events.md). -/
def SUP_WDKICK : Nat := 0x40010008
/-- SUP_UNITSTAT0 (R447, spec/17_faults_events.md). -/
def SUP_UNITSTAT0 : Nat := 0x40010020
/-- SUP_UNITSTAT1 (R447, spec/17_faults_events.md). -/
def SUP_UNITSTAT1 : Nat := 0x40010024
/-- SUP_STEST (R447, spec/17_faults_events.md). -/
def SUP_STEST : Nat := 0x40010080
/-- SUP_STRES (R447, spec/17_faults_events.md). -/
def SUP_STRES : Nat := 0x40010084
/-- SUP_HBCFGs (R447, spec/17_faults_events.md). -/
def SUP_HBCFG (i : Nat) : Nat := 0x40011000 + i * 0x8
/-- SUP_HBs (R447, spec/17_faults_events.md). -/
def SUP_HB (i : Nat) : Nat := 0x40011004 + i * 0x8
/-- SUP_RINGr_BASE (R447, spec/17_faults_events.md). -/
def SUP_RING_BASE (i : Nat) : Nat := 0x40012000 + i * 0x20
/-- SUP_RINGr_CFG (R447, spec/17_faults_events.md). -/
def SUP_RING_CFG (i : Nat) : Nat := 0x40012004 + i * 0x20
/-- SUP_RINGr_RSV (R447, spec/17_faults_events.md). -/
def SUP_RING_RSV (i : Nat) : Nat := 0x40012008 + i * 0x20
/-- SUP_RINGr_WR (R447, spec/17_faults_events.md). -/
def SUP_RING_WR (i : Nat) : Nat := 0x4001200C + i * 0x20
/-- SUP_RINGr_RD (R447, spec/17_faults_events.md). -/
def SUP_RING_RD (i : Nat) : Nat := 0x40012010 + i * 0x20
/-- SUP_RINGr_STAT (R447, spec/17_faults_events.md). -/
def SUP_RING_STAT (i : Nat) : Nat := 0x40012014 + i * 0x20
/-- SUP_HOLD (R447, spec/17_faults_events.md). -/
def SUP_HOLD : Nat := 0x40012200
/-- SUP_DROP (R447, spec/17_faults_events.md). -/
def SUP_DROP : Nat := 0x40012204
/-- SUP_SRCMAPk (R447, spec/17_faults_events.md). -/
def SUP_SRCMAP (i : Nat) : Nat := 0x40012400 + i * 0x4
/-- SUP_SEVk (R447, spec/17_faults_events.md). -/
def SUP_SEV (i : Nat) : Nat := 0x40012C00 + i * 0x4
/-- CAL_ADCk (R457, spec/18_calibration.md). -/
def CAL_ADC (i : Nat) : Nat := 0x40120010 + i * 0x8
/-- CAL_ADCk_PEND (R457, spec/18_calibration.md). -/
def CAL_ADC_PEND (i : Nat) : Nat := 0x40120014 + i * 0x8
end R

namespace F
def SYS_ID_part : Field := ⟨R.SYS_ID, 31, 16⟩
def SYS_ID_stepping : Field := ⟨R.SYS_ID, 15, 12⟩
def SYS_ID_variant : Field := ⟨R.SYS_ID, 11, 8⟩
def SYS_AP_BASE_en (i : Nat) (j : Nat) : Field := ⟨R.SYS_AP_BASE i j, 31, 31⟩
def SYS_AP_BASE_base (i : Nat) (j : Nat) : Field := ⟨R.SYS_AP_BASE i j, 11, 0⟩
def SYS_CLK_STAT_lost : Field := ⟨R.SYS_CLK_STAT, 31, 16⟩
def SYS_CLK_STAT_lock : Field := ⟨R.SYS_CLK_STAT, 15, 0⟩
def SYS_CLK_CTL_sel_err : Field := ⟨R.SYS_CLK_CTL, 1, 1⟩
def SYS_CLK_CTL_lref_sel : Field := ⟨R.SYS_CLK_CTL, 0, 0⟩
def SYS_CDC_STAT_ovf_cnt : Field := ⟨R.SYS_CDC_STAT, 7, 0⟩
def SYS_SEQ_CTL_split_err (i : Nat) : Field := ⟨R.SYS_SEQ_CTL i, 4, 4⟩
def SYS_SEQ_CTL_split (i : Nat) : Field := ⟨R.SYS_SEQ_CTL i, 3, 3⟩
def SYS_SEQ_CTL_rst (i : Nat) : Field := ⟨R.SYS_SEQ_CTL i, 2, 2⟩
def SYS_SEQ_CTL_halt (i : Nat) : Field := ⟨R.SYS_SEQ_CTL i, 1, 1⟩
def SYS_SEQ_CTL_run (i : Nat) : Field := ⟨R.SYS_SEQ_CTL i, 0, 0⟩
def SYS_SEQ_ENTRY_entry (i : Nat) : Field := ⟨R.SYS_SEQ_ENTRY i, 31, 2⟩
def SYS_SEQ_STAT_lockstep (i : Nat) : Field := ⟨R.SYS_SEQ_STAT i, 17, 17⟩
def SYS_SEQ_STAT_irq (i : Nat) : Field := ⟨R.SYS_SEQ_STAT i, 16, 16⟩
def SYS_SEQ_STAT_cause (i : Nat) : Field := ⟨R.SYS_SEQ_STAT i, 12, 8⟩
def SYS_SEQ_STAT_state (i : Nat) : Field := ⟨R.SYS_SEQ_STAT i, 2, 0⟩
def SYS_SEQ_SWI_pend (i : Nat) : Field := ⟨R.SYS_SEQ_SWI i, 2, 2⟩
def SYS_SEQ_SWI_clr (i : Nat) : Field := ⟨R.SYS_SEQ_SWI i, 1, 1⟩
def SYS_SEQ_SWI_set (i : Nat) : Field := ⟨R.SYS_SEQ_SWI i, 0, 0⟩
def SYS_IRQMAP_src3 (i : Nat) (j : Nat) : Field := ⟨R.SYS_IRQMAP i j, 31, 24⟩
def SYS_IRQMAP_src2 (i : Nat) (j : Nat) : Field := ⟨R.SYS_IRQMAP i j, 23, 16⟩
def SYS_IRQMAP_src1 (i : Nat) (j : Nat) : Field := ⟨R.SYS_IRQMAP i j, 15, 8⟩
def SYS_IRQMAP_src0 (i : Nat) (j : Nat) : Field := ⟨R.SYS_IRQMAP i j, 7, 0⟩
def SYS_SIG_STAT_sig (i : Nat) : Field := ⟨R.SYS_SIG_STAT i, 31, 0⟩
def SYS_SIG_SET_set (i : Nat) : Field := ⟨R.SYS_SIG_SET i, 31, 0⟩
def SYS_SIG_CLR_clr (i : Nat) : Field := ⟨R.SYS_SIG_CLR i, 31, 0⟩
def AX_CFG_en (i : Nat) : Field := ⟨R.AX_CFG i, 31, 31⟩
def AX_CFG_sel_b (i : Nat) : Field := ⟨R.AX_CFG i, 26, 24⟩
def AX_CFG_sel_a (i : Nat) : Field := ⟨R.AX_CFG i, 22, 20⟩
def AX_CFG_src (i : Nat) : Field := ⟨R.AX_CFG i, 19, 16⟩
def AX_CFG_qerr_max (i : Nat) : Field := ⟨R.AX_CFG i, 15, 12⟩
def AX_CFG_navg (i : Nat) : Field := ⟨R.AX_CFG i, 11, 8⟩
def AX_CFG_eddy (i : Nat) : Field := ⟨R.AX_CFG i, 7, 4⟩
def AX_CFG_dir_inv (i : Nat) : Field := ⟨R.AX_CFG i, 1, 1⟩
def AX_CFG_bidir (i : Nat) : Field := ⟨R.AX_CFG i, 0, 0⟩
def AX_LULL_max_ms (i : Nat) : Field := ⟨R.AX_LULL i, 31, 22⟩
def AX_LULL_min_us (i : Nat) : Field := ⟨R.AX_LULL i, 21, 8⟩
def AX_LULL_mul (i : Nat) : Field := ⟨R.AX_LULL i, 3, 0⟩
def AX_ZCTL_arm (i : Nat) : Field := ⟨R.AX_ZCTL i, 31, 31⟩
def AX_ZCTL_zqual_ab (i : Nat) : Field := ⟨R.AX_ZCTL i, 5, 4⟩
def AX_ZCTL_zqual_en (i : Nat) : Field := ⟨R.AX_ZCTL i, 3, 3⟩
def AX_ZCTL_zmode (i : Nat) : Field := ⟨R.AX_ZCTL i, 1, 0⟩
def AX_ZLOAD_value (i : Nat) : Field := ⟨R.AX_ZLOAD i, 31, 0⟩
def AX_POS_count (i : Nat) : Field := ⟨R.AX_POS i, 31, 0⟩
def AX_IPOS_stamp (i : Nat) : Field := ⟨R.AX_IPOS i, 31, 0⟩
def AX_STATE_epoch (i : Nat) : Field := ⟨R.AX_STATE i, 31, 24⟩
def AX_STATE_state (i : Nat) : Field := ⟨R.AX_STATE i, 18, 16⟩
def AX_STATE_dir (i : Nat) : Field := ⟨R.AX_STATE i, 15, 15⟩
def AX_STATE_spd_valid (i : Nat) : Field := ⟨R.AX_STATE i, 14, 14⟩
def AX_STATE_skew_hold (i : Nat) : Field := ⟨R.AX_STATE i, 13, 13⟩
def AX_STATE_f (i : Nat) : Field := ⟨R.AX_STATE i, 7, 0⟩
def AX_SPEED_speed (i : Nat) : Field := ⟨R.AX_SPEED i, 31, 0⟩
def AX_TS_ft (i : Nat) : Field := ⟨R.AX_TS i, 31, 0⟩
def AX_SILLF_stamp (i : Nat) : Field := ⟨R.AX_SILLF i, 31, 0⟩
def AX_SILLR_stamp (i : Nat) : Field := ⟨R.AX_SILLR i, 31, 0⟩
def AX_SKEW_skew (i : Nat) : Field := ⟨R.AX_SKEW i, 31, 0⟩
def AX_ZCAP_count (i : Nat) : Field := ⟨R.AX_ZCAP i, 31, 0⟩
def AX_ERRCNT_rev_cnt (i : Nat) : Field := ⟨R.AX_ERRCNT i, 31, 16⟩
def AX_ERRCNT_err_cnt (i : Nat) : Field := ⟨R.AX_ERRCNT i, 15, 0⟩
def AX_STAT_cfg_err (i : Nat) : Field := ⟨R.AX_STAT i, 11, 11⟩
def AX_STAT_load_ref (i : Nat) : Field := ⟨R.AX_STAT i, 10, 10⟩
def AX_STAT_zcap (i : Nat) : Field := ⟨R.AX_STAT i, 9, 9⟩
def AX_STAT_skew (i : Nat) : Field := ⟨R.AX_STAT i, 8, 8⟩
def AX_STAT_se_warn (i : Nat) : Field := ⟨R.AX_STAT i, 7, 7⟩
def AX_STAT_src_err (i : Nat) : Field := ⟨R.AX_STAT i, 6, 6⟩
def AX_STAT_lost (i : Nat) : Field := ⟨R.AX_STAT i, 5, 5⟩
def AX_STAT_valid (i : Nat) : Field := ⟨R.AX_STAT i, 4, 4⟩
def AX_STAT_lull (i : Nat) : Field := ⟨R.AX_STAT i, 3, 3⟩
def AX_STAT_rev (i : Nat) : Field := ⟨R.AX_STAT i, 2, 2⟩
def AX_STAT_wrap_dn (i : Nat) : Field := ⟨R.AX_STAT i, 1, 1⟩
def AX_STAT_wrap_up (i : Nat) : Field := ⟨R.AX_STAT i, 0, 0⟩
def AX_IEN_ien (i : Nat) : Field := ⟨R.AX_IEN i, 11, 0⟩
def AX_POSSET_value (i : Nat) : Field := ⟨R.AX_POSSET i, 31, 0⟩
def AX_SKEWCFG_lim (i : Nat) : Field := ⟨R.AX_SKEWCFG i, 31, 24⟩
def AX_SKEWCFG_zero (i : Nat) : Field := ⟨R.AX_SKEWCFG i, 23, 0⟩
def AX_VRATE_rate (i : Nat) : Field := ⟨R.AX_VRATE i, 31, 0⟩
def SE_CFG_pen (i : Nat) : Field := ⟨R.SE_CFG i, 28, 28⟩
def SE_CFG_drop (i : Nat) : Field := ⟨R.SE_CFG i, 27, 24⟩
def SE_CFG_par (i : Nat) : Field := ⟨R.SE_CFG i, 20, 19⟩
def SE_CFG_trail (i : Nat) : Field := ⟨R.SE_CFG i, 18, 16⟩
def SE_CFG_lead (i : Nat) : Field := ⟨R.SE_CFG i, 15, 14⟩
def SE_CFG_bits (i : Nat) : Field := ⟨R.SE_CFG i, 12, 8⟩
def SE_CFG_proto (i : Nat) : Field := ⟨R.SE_CFG i, 1, 0⟩
def SE_CLK_div (i : Nat) : Field := ⟨R.SE_CLK i, 10, 0⟩
def SE_CYC_period (i : Nat) : Field := ⟨R.SE_CYC i, 19, 0⟩
def SE_TIM_lat (i : Nat) : Field := ⟨R.SE_TIM i, 31, 16⟩
def SE_TIM_samp_dly (i : Nat) : Field := ⟨R.SE_TIM i, 15, 8⟩
def SE_LIM_jlim (i : Nat) : Field := ⟨R.SE_LIM i, 31, 20⟩
def SE_LIM_tout (i : Nat) : Field := ⟨R.SE_LIM i, 19, 0⟩
def SE_RAW_raw (i : Nat) : Field := ⟨R.SE_RAW i, 31, 0⟩
def SE_MEAS_consec (i : Nat) : Field := ⟨R.SE_MEAS i, 15, 8⟩
def SE_MEAS_ldly (i : Nat) : Field := ⟨R.SE_MEAS i, 7, 0⟩
def SE_STAT_skip (i : Nat) : Field := ⟨R.SE_STAT i, 7, 7⟩
def SE_STAT_jump (i : Nat) : Field := ⟨R.SE_STAT i, 6, 6⟩
def SE_STAT_tout (i : Nat) : Field := ⟨R.SE_STAT i, 5, 5⟩
def SE_STAT_enc (i : Nat) : Field := ⟨R.SE_STAT i, 4, 4⟩
def SE_STAT_crc (i : Nat) : Field := ⟨R.SE_STAT i, 3, 3⟩
def SE_STAT_par (i : Nat) : Field := ⟨R.SE_STAT i, 2, 2⟩
def SE_STAT_nready (i : Nat) : Field := ⟨R.SE_STAT i, 1, 1⟩
def SE_STAT_warn (i : Nat) : Field := ⟨R.SE_STAT i, 0, 0⟩
def EO_CFG_en (i : Nat) : Field := ⟨R.EO_CFG i, 31, 31⟩
def EO_CFG_axis (i : Nat) : Field := ⟨R.EO_CFG i, 26, 24⟩
def EO_CFG_inv (i : Nat) : Field := ⟨R.EO_CFG i, 16, 16⟩
def EO_CFG_sp (i : Nat) : Field := ⟨R.EO_CFG i, 9, 0⟩
def EO_RATIO_n (i : Nat) : Field := ⟨R.EO_RATIO i, 31, 16⟩
def EO_RATIO_m (i : Nat) : Field := ⟨R.EO_RATIO i, 15, 0⟩
def EO_POS_count (i : Nat) : Field := ⟨R.EO_POS i, 31, 0⟩
def EO_PEND_pend (i : Nat) : Field := ⟨R.EO_PEND i, 8, 0⟩
def EO_STAT_cfg_err (i : Nat) : Field := ⟨R.EO_STAT i, 1, 1⟩
def EO_STAT_ovr (i : Nat) : Field := ⟨R.EO_STAT i, 0, 0⟩
def QE_CFG_lvl (i : Nat) : Field := ⟨R.QE_CFG i, 10, 8⟩
def QE_CFG_zinv (i : Nat) : Field := ⟨R.QE_CFG i, 3, 3⟩
def QE_CFG_filt (i : Nat) : Field := ⟨R.QE_CFG i, 2, 0⟩
def AXIS_FT_ft : Field := ⟨R.AXIS_FT, 31, 0⟩
def AXIS_TILEW_w_odd (i : Nat) : Field := ⟨R.AXIS_TILEW i, 31, 16⟩
def AXIS_TILEW_w_even (i : Nat) : Field := ⟨R.AXIS_TILEW i, 15, 0⟩
def BAR_CFG_en (i : Nat) : Field := ⟨R.BAR_CFG i, 31, 31⟩
def BAR_CFG_axis (i : Nat) : Field := ⟨R.BAR_CFG i, 26, 24⟩
def BAR_PITCH_pitch (i : Nat) : Field := ⟨R.BAR_PITCH i, 31, 0⟩
def BAR_REF_ref (i : Nat) : Field := ⟨R.BAR_REF i, 31, 0⟩
def BAR_ALIGN_rev (i : Nat) : Field := ⟨R.BAR_ALIGN i, 31, 16⟩
def BAR_ALIGN_fwd (i : Nat) : Field := ⟨R.BAR_ALIGN i, 15, 0⟩
def BAR_VFLOOR_v (i : Nat) : Field := ⟨R.BAR_VFLOOR i, 31, 0⟩
def BAR_LATE_late (i : Nat) : Field := ⟨R.BAR_LATE i, 31, 0⟩
def BAR_STAT_rdy (i : Nat) : Field := ⟨R.BAR_STAT i, 2, 2⟩
def BAR_STAT_late (i : Nat) : Field := ⟨R.BAR_STAT i, 1, 1⟩
def BAR_STAT_cfg_err (i : Nat) : Field := ⟨R.BAR_STAT i, 0, 0⟩
def FIRE_EQ_err : Field := ⟨R.FIRE_EQ, 31, 31⟩
def FIRE_EQ_teq_ns : Field := ⟨R.FIRE_EQ, 12, 0⟩
def FIRE_TILE_CFG_en (i : Nat) : Field := ⟨R.FIRE_TILE_CFG i, 31, 31⟩
def FIRE_TILE_CFG_bar (i : Nat) : Field := ⟨R.FIRE_TILE_CFG i, 26, 24⟩
def FIRE_TILE_GEO_geo (i : Nat) : Field := ⟨R.FIRE_TILE_GEO i, 31, 0⟩
def FIRE_TILE_ROW01_odd (i : Nat) : Field := ⟨R.FIRE_TILE_ROW01 i, 31, 16⟩
def FIRE_TILE_ROW01_even (i : Nat) : Field := ⟨R.FIRE_TILE_ROW01 i, 15, 0⟩
def FIRE_TILE_ROW23_odd (i : Nat) : Field := ⟨R.FIRE_TILE_ROW23 i, 31, 16⟩
def FIRE_TILE_ROW23_even (i : Nat) : Field := ⟨R.FIRE_TILE_ROW23 i, 15, 0⟩
def LANE_SCHED_en (i : Nat) : Field := ⟨R.LANE_SCHED i, 31, 31⟩
def LANE_SCHED_flush (i : Nat) : Field := ⟨R.LANE_SCHED i, 1, 1⟩
def LANE_COMMIT_lead_ns (i : Nat) : Field := ⟨R.LANE_COMMIT i, 15, 0⟩
def LANE_QSTAT_hwm (i : Nat) : Field := ⟨R.LANE_QSTAT i, 22, 16⟩
def LANE_QSTAT_occ (i : Nat) : Field := ⟨R.LANE_QSTAT i, 6, 0⟩
def LANE_SCHSTAT_lost_cancel (i : Nat) : Field := ⟨R.LANE_SCHSTAT i, 7, 7⟩
def LANE_SCHSTAT_load_cancel (i : Nat) : Field := ⟨R.LANE_SCHSTAT i, 6, 6⟩
def LANE_SCHSTAT_rev_cancel (i : Nat) : Field := ⟨R.LANE_SCHSTAT i, 5, 5⟩
def LANE_SCHSTAT_slip (i : Nat) : Field := ⟨R.LANE_SCHSTAT i, 4, 4⟩
def LANE_SCHSTAT_unconf (i : Nat) : Field := ⟨R.LANE_SCHSTAT i, 3, 3⟩
def LANE_SCHSTAT_missed (i : Nat) : Field := ⟨R.LANE_SCHSTAT i, 2, 2⟩
def LANE_SCHSTAT_undeliv (i : Nat) : Field := ⟨R.LANE_SCHSTAT i, 1, 1⟩
def LANE_SCHSTAT_late (i : Nat) : Field := ⟨R.LANE_SCHSTAT i, 0, 0⟩
def LANE_SCHIEN_ien (i : Nat) : Field := ⟨R.LANE_SCHIEN i, 7, 0⟩
def RC_LAHEAD_lines (i : Nat) : Field := ⟨R.RC_LAHEAD i, 12, 0⟩
def RC_CTL_tbuf_inv (i : Nat) : Field := ⟨R.RC_CTL i, 1, 1⟩
def RC_CTL_res_inj (i : Nat) : Field := ⟨R.RC_CTL i, 0, 0⟩
def RC_STAT_inj_done (i : Nat) : Field := ⟨R.RC_STAT i, 1, 1⟩
def RC_STAT_res_err (i : Nat) : Field := ⟨R.RC_STAT i, 0, 0⟩
def RC_RESCNT_count (i : Nat) : Field := ⟨R.RC_RESCNT i, 31, 0⟩
def RC_VCYC_cycles (i : Nat) : Field := ⟨R.RC_VCYC i, 31, 0⟩
def RC_NMWAIT_cycles (i : Nat) : Field := ⟨R.RC_NMWAIT i, 31, 0⟩
def RC_TBUF_base (i : Nat) : Field := ⟨R.RC_TBUF i, 31, 10⟩
def RC_TBUF_valid (i : Nat) : Field := ⟨R.RC_TBUF i, 0, 0⟩
def HEALTH_ECFG_en : Field := ⟨R.HEALTH_ECFG, 31, 31⟩
def HEALTH_ECFG_kcode : Field := ⟨R.HEALTH_ECFG, 10, 8⟩
def HEALTH_ECFG_wload : Field := ⟨R.HEALTH_ECFG, 1, 1⟩
def HEALTH_ECSTAT_cfg_err : Field := ⟨R.HEALTH_ECSTAT, 4, 4⟩
def HEALTH_ECSTAT_lost : Field := ⟨R.HEALTH_ECSTAT, 3, 3⟩
def HEALTH_ECSTAT_cls_err : Field := ⟨R.HEALTH_ECSTAT, 2, 2⟩
def HEALTH_ECSTAT_halt : Field := ⟨R.HEALTH_ECSTAT, 1, 1⟩
def HEALTH_ECSTAT_wbusy : Field := ⟨R.HEALTH_ECSTAT, 0, 0⟩
def HEALTH_ECLANE_lanes : Field := ⟨R.HEALTH_ECLANE, 23, 0⟩
def HEALTH_MWIDX_index (i : Nat) : Field := ⟨R.HEALTH_MWIDX i, 19, 0⟩
def HEALTH_MWMASK_mask (i : Nat) : Field := ⟨R.HEALTH_MWMASK i, 31, 0⟩
def HEALTH_MWDATA_data (i : Nat) : Field := ⟨R.HEALTH_MWDATA i, 31, 0⟩
def HEALTH_MWSTAT_err (i : Nat) : Field := ⟨R.HEALTH_MWSTAT i, 0, 0⟩
def HEALTH_TCLS_cls (i : Nat) : Field := ⟨R.HEALTH_TCLS i, 31, 0⟩
def HEALTH_TPUSH_busy (i : Nat) : Field := ⟨R.HEALTH_TPUSH i, 31, 31⟩
def HEALTH_TPUSH_err (i : Nat) : Field := ⟨R.HEALTH_TPUSH i, 30, 30⟩
def HEALTH_TPUSH_refused (i : Nat) : Field := ⟨R.HEALTH_TPUSH i, 29, 29⟩
def HEALTH_TPUSH_mask (i : Nat) : Field := ⟨R.HEALTH_TPUSH i, 15, 0⟩
def HEALTH_GOV_CFG_en (i : Nat) : Field := ⟨R.HEALTH_GOV_CFG i, 31, 31⟩
def HEALTH_GOV_CFG_wcode (i : Nat) : Field := ⟨R.HEALTH_GOV_CFG i, 26, 24⟩
def HEALTH_GOV_CFG_dmax (i : Nat) : Field := ⟨R.HEALTH_GOV_CFG i, 11, 0⟩
def HEALTH_GOV_EMAX_emax (i : Nat) : Field := ⟨R.HEALTH_GOV_EMAX i, 31, 0⟩
def HEALTH_GOV_EW0_e4 (i : Nat) : Field := ⟨R.HEALTH_GOV_EW0 i, 31, 24⟩
def HEALTH_GOV_EW0_e3 (i : Nat) : Field := ⟨R.HEALTH_GOV_EW0 i, 23, 16⟩
def HEALTH_GOV_EW0_e2 (i : Nat) : Field := ⟨R.HEALTH_GOV_EW0 i, 15, 8⟩
def HEALTH_GOV_EW0_e1 (i : Nat) : Field := ⟨R.HEALTH_GOV_EW0 i, 7, 0⟩
def HEALTH_GOV_EW1_e7 (i : Nat) : Field := ⟨R.HEALTH_GOV_EW1 i, 23, 16⟩
def HEALTH_GOV_EW1_e6 (i : Nat) : Field := ⟨R.HEALTH_GOV_EW1 i, 15, 8⟩
def HEALTH_GOV_EW1_e5 (i : Nat) : Field := ⟨R.HEALTH_GOV_EW1 i, 7, 0⟩
def HEALTH_GOV_SUPN_count (i : Nat) : Field := ⟨R.HEALTH_GOV_SUPN i, 31, 0⟩
def HEALTH_GOV_SUPE_count (i : Nat) : Field := ⟨R.HEALTH_GOV_SUPE i, 31, 0⟩
def HEALTH_GOV_STAT_cfg_err (i : Nat) : Field := ⟨R.HEALTH_GOV_STAT i, 17, 17⟩
def HEALTH_GOV_STAT_par_err (i : Nat) : Field := ⟨R.HEALTH_GOV_STAT i, 16, 16⟩
def HEALTH_GOV_STAT_sup (i : Nat) : Field := ⟨R.HEALTH_GOV_STAT i, 15, 0⟩
def OG_CFG_en (i : Nat) : Field := ⟨R.OG_CFG i, 31, 31⟩
def OG_CFG_pol (i : Nat) : Field := ⟨R.OG_CFG i, 30, 30⟩
def OG_CFG_ien (i : Nat) : Field := ⟨R.OG_CFG i, 29, 29⟩
def OG_CFG_trig_lane (i : Nat) : Field := ⟨R.OG_CFG i, 28, 24⟩
def OG_CFG_trig_pos (i : Nat) : Field := ⟨R.OG_CFG i, 23, 20⟩
def OG_CFG_hyst (i : Nat) : Field := ⟨R.OG_CFG i, 19, 18⟩
def OG_CFG_thr (i : Nat) : Field := ⟨R.OG_CFG i, 9, 0⟩
def OG_WSTART_start (i : Nat) : Field := ⟨R.OG_WSTART i, 19, 0⟩
def OG_WLEN_len (i : Nat) : Field := ⟨R.OG_WLEN i, 19, 0⟩
def OG_RESA_valid (i : Nat) : Field := ⟨R.OG_RESA i, 31, 31⟩
def OG_RESA_det (i : Nat) : Field := ⟨R.OG_RESA i, 30, 30⟩
def OG_RESA_tag (i : Nat) : Field := ⟨R.OG_RESA i, 23, 16⟩
def OG_RESA_lane (i : Nat) : Field := ⟨R.OG_RESA i, 12, 8⟩
def OG_RESA_pos (i : Nat) : Field := ⟨R.OG_RESA i, 3, 0⟩
def OG_RESB_xtime (i : Nat) : Field := ⟨R.OG_RESB i, 31, 12⟩
def OG_RESB_depth (i : Nat) : Field := ⟨R.OG_RESB i, 9, 0⟩
def OG_STAT_ovl (i : Nat) : Field := ⟨R.OG_STAT i, 9, 9⟩
def OG_STAT_ovf (i : Nat) : Field := ⟨R.OG_STAT i, 8, 8⟩
def OG_STAT_level (i : Nat) : Field := ⟨R.OG_STAT i, 6, 0⟩
def OG_BASE_base (i : Nat) : Field := ⟨R.OG_BASE i, 9, 0⟩
def HEALTH_ECTESTF_features : Field := ⟨R.HEALTH_ECTESTF, 31, 0⟩
def HEALTH_ECTEST_go : Field := ⟨R.HEALTH_ECTEST, 31, 31⟩
def HEALTH_ECTEST_done : Field := ⟨R.HEALTH_ECTEST, 30, 30⟩
def HEALTH_ECTEST_cls : Field := ⟨R.HEALTH_ECTEST, 23, 20⟩
def HEALTH_ECTEST_state : Field := ⟨R.HEALTH_ECTEST, 17, 16⟩
def HEALTH_ECTEST_z : Field := ⟨R.HEALTH_ECTEST, 15, 8⟩
def HEALTH_ECTEST_h : Field := ⟨R.HEALTH_ECTEST, 7, 0⟩
def LANE_CTL_en (i : Nat) : Field := ⟨R.LANE_CTL i, 31, 31⟩
def LANE_CTL_legacy (i : Nat) : Field := ⟨R.LANE_CTL i, 30, 30⟩
def LANE_CTL_auto (i : Nat) : Field := ⟨R.LANE_CTL i, 29, 29⟩
def LANE_CTL_open (i : Nat) : Field := ⟨R.LANE_CTL i, 28, 28⟩
def LANE_CTL_retry_max (i : Nat) : Field := ⟨R.LANE_CTL i, 27, 24⟩
def LANE_CTL_stat_per (i : Nat) : Field := ⟨R.LANE_CTL i, 23, 16⟩
def LANE_CTL_retrain (i : Nat) : Field := ⟨R.LANE_CTL i, 0, 0⟩
def LANE_STATE_err (i : Nat) : Field := ⟨R.LANE_STATE i, 31, 24⟩
def LANE_STATE_tries (i : Nat) : Field := ⟨R.LANE_STATE i, 19, 16⟩
def LANE_STATE_state (i : Nat) : Field := ⟨R.LANE_STATE i, 2, 0⟩
def LANE_RINGCFG_expect (i : Nat) : Field := ⟨R.LANE_RINGCFG i, 31, 16⟩
def LANE_RINGCFG_c0 (i : Nat) : Field := ⟨R.LANE_RINGCFG i, 15, 0⟩
def LANE_RINGL_spread (i : Nat) : Field := ⟨R.LANE_RINGL i, 31, 24⟩
def LANE_RINGL_loop (i : Nat) : Field := ⟨R.LANE_RINGL i, 23, 0⟩
def LANE_PRES_sb (i : Nat) : Field := ⟨R.LANE_PRES i, 31, 16⟩
def LANE_PRES_link (i : Nat) : Field := ⟨R.LANE_PRES i, 15, 0⟩
def LANE_EXCL_mism (i : Nat) : Field := ⟨R.LANE_EXCL i, 31, 16⟩
def LANE_EXCL_excl (i : Nat) : Field := ⟨R.LANE_EXCL i, 15, 0⟩
def LANE_OPEN_mask (i : Nat) : Field := ⟨R.LANE_OPEN i, 15, 0⟩
def LANE_LSTAT_cfg_err (i : Nat) : Field := ⟨R.LANE_LSTAT i, 11, 11⟩
def LANE_LSTAT_flags (i : Nat) : Field := ⟨R.LANE_LSTAT i, 10, 0⟩
def LANE_LIEN_ien (i : Nat) : Field := ⟨R.LANE_LIEN i, 10, 0⟩
def LANE_SBCFG_poll (i : Nat) : Field := ⟨R.LANE_SBCFG i, 31, 31⟩
def LANE_SBCFG_per_ms (i : Nat) : Field := ⟨R.LANE_SBCFG i, 27, 24⟩
def LANE_SBCFG_tdiff (i : Nat) : Field := ⟨R.LANE_SBCFG i, 23, 16⟩
def LANE_SBCFG_fm (i : Nat) : Field := ⟨R.LANE_SBCFG i, 0, 0⟩
def LANE_SBSTALE_stale (i : Nat) : Field := ⟨R.LANE_SBSTALE i, 15, 0⟩
def LANE_DLY_dp (i : Nat) (j : Nat) : Field := ⟨R.LANE_DLY i j, 31, 0⟩
def LANE_TEMP_sb (i : Nat) (j : Nat) : Field := ⟨R.LANE_TEMP i j, 31, 16⟩
def LANE_TEMP_link (i : Nat) (j : Nat) : Field := ⟨R.LANE_TEMP i j, 15, 0⟩
def LANE_SBCMD_busy (i : Nat) : Field := ⟨R.LANE_SBCMD i, 31, 31⟩
def LANE_SBCMD_nack (i : Nat) : Field := ⟨R.LANE_SBCMD i, 30, 30⟩
def LANE_SBCMD_tout (i : Nat) : Field := ⟨R.LANE_SBCMD i, 29, 29⟩
def LANE_SBCMD_go (i : Nat) : Field := ⟨R.LANE_SBCMD i, 28, 28⟩
def LANE_SBCMD_count (i : Nat) : Field := ⟨R.LANE_SBCMD i, 27, 24⟩
def LANE_SBCMD_rd (i : Nat) : Field := ⟨R.LANE_SBCMD i, 23, 23⟩
def LANE_SBCMD_offset (i : Nat) : Field := ⟨R.LANE_SBCMD i, 15, 8⟩
def LANE_SBCMD_addr (i : Nat) : Field := ⟨R.LANE_SBCMD i, 6, 0⟩
def LANE_SBDATA_data (i : Nat) (j : Nat) : Field := ⟨R.LANE_SBDATA i j, 31, 0⟩
def LANE_MGCMD_busy (i : Nat) : Field := ⟨R.LANE_MGCMD i, 31, 31⟩
def LANE_MGCMD_status (i : Nat) : Field := ⟨R.LANE_MGCMD i, 30, 28⟩
def LANE_MGCMD_go (i : Nat) : Field := ⟨R.LANE_MGCMD i, 27, 27⟩
def LANE_MGCMD_pos (i : Nat) : Field := ⟨R.LANE_MGCMD i, 23, 20⟩
def LANE_MGCMD_op (i : Nat) : Field := ⟨R.LANE_MGCMD i, 17, 16⟩
def LANE_MGCMD_addr (i : Nat) : Field := ⟨R.LANE_MGCMD i, 15, 0⟩
def LANE_MGLEN_count (i : Nat) : Field := ⟨R.LANE_MGLEN i, 6, 0⟩
def LANE_MGDATA_data (i : Nat) (j : Nat) : Field := ⟨R.LANE_MGDATA i j, 31, 0⟩
def BAR_BREEZE_en (i : Nat) : Field := ⟨R.BAR_BREEZE i, 31, 31⟩
def BAR_BREEZE_excl (i : Nat) : Field := ⟨R.BAR_BREEZE i, 30, 30⟩
def BAR_BREEZE_interval (i : Nat) : Field := ⟨R.BAR_BREEZE i, 23, 8⟩
def BAR_BREEZE_lvl (i : Nat) : Field := ⟨R.BAR_BREEZE i, 7, 0⟩
def BAR_TCP_t (i : Nat) (j : Nat) : Field := ⟨R.BAR_TCP i j, 31, 16⟩
def BAR_TCP_c (i : Nat) (j : Nat) : Field := ⟨R.BAR_TCP i j, 15, 0⟩
def FIRE_RANK_f (i : Nat) : Field := ⟨R.FIRE_RANK i, 15, 0⟩
def FIRE_WVCFG_en : Field := ⟨R.FIRE_WVCFG, 31, 31⟩
def FIRE_WVCFG_curve_err : Field := ⟨R.FIRE_WVCFG, 16, 16⟩
def FIRE_WVCFG_smax : Field := ⟨R.FIRE_WVCFG, 15, 0⟩
def LANE_WVCMD_busy (i : Nat) : Field := ⟨R.LANE_WVCMD i, 31, 31⟩
def LANE_WVCMD_go (i : Nat) : Field := ⟨R.LANE_WVCMD i, 30, 30⟩
def LANE_WVCMD_commit (i : Nat) : Field := ⟨R.LANE_WVCMD i, 29, 29⟩
def LANE_WVCMD_err (i : Nat) : Field := ⟨R.LANE_WVCMD i, 28, 28⟩
def LANE_WVCMD_index (i : Nat) : Field := ⟨R.LANE_WVCMD i, 26, 24⟩
def LANE_WVCMD_mask (i : Nat) : Field := ⟨R.LANE_WVCMD i, 15, 0⟩
def LANE_WVSRC_addr (i : Nat) : Field := ⟨R.LANE_WVSRC i, 31, 2⟩
def LANE_WVSTAT_fail (i : Nat) : Field := ⟨R.LANE_WVSTAT i, 31, 16⟩
def LANE_WVSTAT_stale (i : Nat) : Field := ⟨R.LANE_WVSTAT i, 15, 0⟩
def LANE_SCALE_s (i : Nat) (j : Nat) : Field := ⟨R.LANE_SCALE i j, 15, 0⟩
def SHUT_MODE_err : Field := ⟨R.SHUT_MODE, 2, 2⟩
def SHUT_MODE_mode : Field := ⟨R.SHUT_MODE, 1, 0⟩
def SHUT_GSTAT_closed : Field := ⟨R.SHUT_GSTAT, 31, 31⟩
def SHUT_GSTAT_latch : Field := ⟨R.SHUT_GSTAT, 15, 0⟩
def SHUT_B_STAT_closed (i : Nat) : Field := ⟨R.SHUT_B_STAT i, 31, 31⟩
def SHUT_B_STAT_latch (i : Nat) : Field := ⟨R.SHUT_B_STAT i, 15, 0⟩
def SHUT_GCOND_cond : Field := ⟨R.SHUT_GCOND, 15, 0⟩
def SHUT_B_COND_cond (i : Nat) : Field := ⟨R.SHUT_B_COND i, 15, 0⟩
def SHUT_GCMD_close : Field := ⟨R.SHUT_GCMD, 31, 31⟩
def SHUT_GCMD_open : Field := ⟨R.SHUT_GCMD, 30, 30⟩
def SHUT_GCMD_ack : Field := ⟨R.SHUT_GCMD, 15, 0⟩
def SHUT_B_CMD_close (i : Nat) : Field := ⟨R.SHUT_B_CMD i, 31, 31⟩
def SHUT_B_CMD_open (i : Nat) : Field := ⟨R.SHUT_B_CMD i, 30, 30⟩
def SHUT_B_CMD_ack (i : Nat) : Field := ⟨R.SHUT_B_CMD i, 15, 0⟩
def SHUT_GERR_err : Field := ⟨R.SHUT_GERR, 31, 31⟩
def SHUT_GERR_code : Field := ⟨R.SHUT_GERR, 3, 0⟩
def SHUT_B_ERR_err (i : Nat) : Field := ⟨R.SHUT_B_ERR i, 31, 31⟩
def SHUT_B_ERR_code (i : Nat) : Field := ⟨R.SHUT_B_ERR i, 3, 0⟩
def SHUT_T_closed (i : Nat) : Field := ⟨R.SHUT_T i, 31, 31⟩
def SHUT_T_cond (i : Nat) : Field := ⟨R.SHUT_T i, 15, 8⟩
def SHUT_T_latch (i : Nat) : Field := ⟨R.SHUT_T i, 7, 0⟩
def SHUT_TCMD_close : Field := ⟨R.SHUT_TCMD, 31, 31⟩
def SHUT_TCMD_open : Field := ⟨R.SHUT_TCMD, 30, 30⟩
def SHUT_TCMD_all : Field := ⟨R.SHUT_TCMD, 29, 29⟩
def SHUT_TCMD_tile : Field := ⟨R.SHUT_TCMD, 24, 16⟩
def SHUT_TCMD_ack : Field := ⟨R.SHUT_TCMD, 7, 0⟩
def SHUT_TERR_err : Field := ⟨R.SHUT_TERR, 31, 31⟩
def SHUT_TERR_tile : Field := ⟨R.SHUT_TERR, 24, 16⟩
def SHUT_TERR_code : Field := ⟨R.SHUT_TERR, 3, 0⟩
def LANE_TLIM_hard (i : Nat) (j : Nat) : Field := ⟨R.LANE_TLIM i j, 31, 16⟩
def LANE_TLIM_soft (i : Nat) (j : Nat) : Field := ⟨R.LANE_TLIM i j, 15, 0⟩
def LANE_THYS_hyst (i : Nat) (j : Nat) : Field := ⟨R.LANE_THYS i j, 15, 0⟩
def LANE_THOT_warm (i : Nat) : Field := ⟨R.LANE_THOT i, 31, 16⟩
def LANE_THOT_hot (i : Nat) : Field := ⟨R.LANE_THOT i, 15, 0⟩
def SNS_GATE_en (i : Nat) : Field := ⟨R.SNS_GATE i, 31, 31⟩
def SNS_GATE_inv (i : Nat) : Field := ⟨R.SNS_GATE i, 30, 30⟩
def SNS_GATE_glob (i : Nat) : Field := ⟨R.SNS_GATE i, 29, 29⟩
def SNS_GATE_bars (i : Nat) : Field := ⟨R.SNS_GATE i, 23, 16⟩
def SNS_GATE_filt (i : Nat) : Field := ⟨R.SNS_GATE i, 3, 0⟩
def SNS_GLVL_raw : Field := ⟨R.SNS_GLVL, 15, 8⟩
def SNS_GLVL_asserted : Field := ⟨R.SNS_GLVL, 7, 0⟩
def SNS_GSTAT_cfg_err : Field := ⟨R.SNS_GSTAT, 8, 8⟩
def SNS_GSTAT_seen : Field := ⟨R.SNS_GSTAT, 7, 0⟩
def SNS_SHUTN_sel : Field := ⟨R.SNS_SHUTN, 1, 0⟩
def SNS_GPIO_IN_in : Field := ⟨R.SNS_GPIO_IN, 31, 0⟩
def SNS_GPIO_OUT_out : Field := ⟨R.SNS_GPIO_OUT, 31, 0⟩
def SNS_GPIO_OE_oe : Field := ⟨R.SNS_GPIO_OE, 31, 0⟩
def MOT_CFG_en (i : Nat) : Field := ⟨R.MOT_CFG i, 31, 31⟩
def MOT_CFG_owner (i : Nat) : Field := ⟨R.MOT_CFG i, 30, 30⟩
def MOT_CFG_safe (i : Nat) : Field := ⟨R.MOT_CFG i, 29, 28⟩
def MOT_CFG_axis_en (i : Nat) : Field := ⟨R.MOT_CFG i, 27, 27⟩
def MOT_CFG_axis (i : Nat) : Field := ⟨R.MOT_CFG i, 26, 24⟩
def MOT_CFG_div (i : Nat) : Field := ⟨R.MOT_CFG i, 23, 20⟩
def MOT_CFG_wd (i : Nat) : Field := ⟨R.MOT_CFG i, 19, 16⟩
def MOT_CFG_pol_h (i : Nat) : Field := ⟨R.MOT_CFG i, 15, 15⟩
def MOT_CFG_pol_l (i : Nat) : Field := ⟨R.MOT_CFG i, 14, 14⟩
def MOT_CFG_sig (i : Nat) : Field := ⟨R.MOT_CFG i, 7, 0⟩
def MOT_PWM_period (i : Nat) : Field := ⟨R.MOT_PWM i, 31, 16⟩
def MOT_PWM_dt (i : Nat) : Field := ⟨R.MOT_PWM i, 15, 8⟩
def MOT_PWM_adc_dly (i : Nat) : Field := ⟨R.MOT_PWM i, 7, 0⟩
def MOT_CMD_start (i : Nat) : Field := ⟨R.MOT_CMD i, 31, 31⟩
def MOT_CMD_stop (i : Nat) : Field := ⟨R.MOT_CMD i, 30, 30⟩
def MOT_STATE_retries (i : Nat) : Field := ⟨R.MOT_STATE i, 31, 24⟩
def MOT_STATE_src (i : Nat) : Field := ⟨R.MOT_STATE i, 8, 8⟩
def MOT_STATE_state (i : Nat) : Field := ⟨R.MOT_STATE i, 3, 0⟩
def MOT_ANG_conf (i : Nat) : Field := ⟨R.MOT_ANG i, 31, 16⟩
def MOT_ANG_angle (i : Nat) : Field := ⟨R.MOT_ANG i, 15, 0⟩
def MOT_SPD_speed (i : Nat) : Field := ⟨R.MOT_SPD i, 31, 0⟩
def MOT_RATED_rated (i : Nat) : Field := ⟨R.MOT_RATED i, 31, 0⟩
def MOT_SPDLIM_obs_min (i : Nat) : Field := ⟨R.MOT_SPDLIM i, 25, 16⟩
def MOT_SPDLIM_brk_lim (i : Nat) : Field := ⟨R.MOT_SPDLIM i, 9, 0⟩
def MOT_OBS_rth (i : Nat) : Field := ⟨R.MOT_OBS i, 31, 16⟩
def MOT_OBS_psi0 (i : Nat) : Field := ⟨R.MOT_OBS i, 15, 0⟩
def MOT_OBSRL_rs (i : Nat) : Field := ⟨R.MOT_OBSRL i, 31, 16⟩
def MOT_OBSRL_ls (i : Nat) : Field := ⟨R.MOT_OBSRL i, 15, 0⟩
def MOT_HFI_freq (i : Nat) : Field := ⟨R.MOT_HFI i, 31, 20⟩
def MOT_HFI_amp (i : Nat) : Field := ⟨R.MOT_HFI i, 7, 0⟩
def MOT_START_start_to (i : Nat) : Field := ⟨R.MOT_START i, 31, 16⟩
def MOT_START_back_lim (i : Nat) : Field := ⟨R.MOT_START i, 15, 0⟩
def MOT_BUS_ov_trip (i : Nat) : Field := ⟨R.MOT_BUS i, 27, 16⟩
def MOT_BUS_ov_brk (i : Nat) : Field := ⟨R.MOT_BUS i, 11, 0⟩
def MOT_TRIP_filt (i : Nat) : Field := ⟨R.MOT_TRIP i, 13, 8⟩
def MOT_TRIP_mask (i : Nat) : Field := ⟨R.MOT_TRIP i, 7, 0⟩
def MOT_FCAUSE_first (i : Nat) : Field := ⟨R.MOT_FCAUSE i, 31, 28⟩
def MOT_FCAUSE_mask (i : Nat) : Field := ⟨R.MOT_FCAUSE i, 8, 1⟩
def MOT_CNT_ovp (i : Nat) : Field := ⟨R.MOT_CNT i, 31, 16⟩
def MOT_CNT_late (i : Nat) : Field := ⟨R.MOT_CNT i, 15, 0⟩
def ANA_CMP_en (i : Nat) : Field := ⟨R.ANA_CMP i, 31, 31⟩
def ANA_CMP_pol (i : Nat) : Field := ⟨R.ANA_CMP i, 30, 30⟩
def ANA_CMP_hyst (i : Nat) : Field := ⟨R.ANA_CMP i, 29, 28⟩
def ANA_CMP_thr (i : Nat) : Field := ⟨R.ANA_CMP i, 9, 0⟩
def ANA_CMPSTAT_seen : Field := ⟨R.ANA_CMPSTAT, 15, 8⟩
def ANA_CMPSTAT_live : Field := ⟨R.ANA_CMPSTAT, 7, 0⟩
def ANA_SCAN_per_us : Field := ⟨R.ANA_SCAN, 31, 24⟩
def ANA_SCAN_mask : Field := ⟨R.ANA_SCAN, 15, 0⟩
def ANA_AIN_stale (i : Nat) : Field := ⟨R.ANA_AIN i, 31, 31⟩
def ANA_AIN_code (i : Nat) : Field := ⟨R.ANA_AIN i, 11, 0⟩
def ST_CFG_en (i : Nat) : Field := ⟨R.ST_CFG i, 31, 31⟩
def ST_CFG_owner (i : Nat) : Field := ⟨R.ST_CFG i, 30, 30⟩
def ST_CFG_safe (i : Nat) : Field := ⟨R.ST_CFG i, 29, 28⟩
def ST_CFG_res (i : Nat) : Field := ⟨R.ST_CFG i, 27, 24⟩
def ST_CFG_stby (i : Nat) : Field := ⟨R.ST_CFG i, 23, 22⟩
def ST_CFG_cmp_b (i : Nat) : Field := ⟨R.ST_CFG i, 21, 19⟩
def ST_CFG_cmp_a (i : Nat) : Field := ⟨R.ST_CFG i, 18, 16⟩
def ST_CFG_decay (i : Nat) : Field := ⟨R.ST_CFG i, 15, 14⟩
def ST_CFG_adapt (i : Nat) : Field := ⟨R.ST_CFG i, 13, 13⟩
def ST_CFG_open_flt (i : Nat) : Field := ⟨R.ST_CFG i, 12, 12⟩
def ST_CMD_stop (i : Nat) : Field := ⟨R.ST_CMD i, 31, 31⟩
def ST_CMD_halt (i : Nat) : Field := ⟨R.ST_CMD i, 30, 30⟩
def ST_CMD_clr (i : Nat) : Field := ⟨R.ST_CMD i, 29, 29⟩
def ST_STATE_occ (i : Nat) : Field := ⟨R.ST_STATE i, 19, 16⟩
def ST_STATE_p (i : Nat) : Field := ⟨R.ST_STATE i, 15, 6⟩
def ST_STATE_state (i : Nat) : Field := ⟨R.ST_STATE i, 2, 0⟩
def ST_QD_dist (i : Nat) : Field := ⟨R.ST_QD i, 31, 0⟩
def ST_QV_blend (i : Nat) : Field := ⟨R.ST_QV i, 19, 19⟩
def ST_QV_prof (i : Nat) : Field := ⟨R.ST_QV i, 17, 16⟩
def ST_QV_vmax (i : Nat) : Field := ⟨R.ST_QV i, 15, 0⟩
def ST_QSTAT_done (i : Nat) : Field := ⟨R.ST_QSTAT i, 31, 16⟩
def ST_CUR_run (i : Nat) : Field := ⟨R.ST_CUR i, 25, 16⟩
def ST_CUR_hold (i : Nat) : Field := ⟨R.ST_CUR i, 9, 0⟩
def ST_STBY_delay (i : Nat) : Field := ⟨R.ST_STBY i, 15, 0⟩
def ST_CHOP_hyst (i : Nat) : Field := ⟨R.ST_CHOP i, 31, 24⟩
def ST_CHOP_tblank (i : Nat) : Field := ⟨R.ST_CHOP i, 23, 16⟩
def ST_CHOP_toff_min (i : Nat) : Field := ⟨R.ST_CHOP i, 15, 8⟩
def ST_CHOP_tdly (i : Nat) : Field := ⟨R.ST_CHOP i, 7, 0⟩
def ST_CHOP2_tfd (i : Nat) : Field := ⟨R.ST_CHOP2 i, 31, 24⟩
def ST_CHOP2_ton_max (i : Nat) : Field := ⟨R.ST_CHOP2 i, 15, 0⟩
def ST_OFFS_off_a (i : Nat) : Field := ⟨R.ST_OFFS i, 31, 16⟩
def ST_OFFS_off_b (i : Nat) : Field := ⟨R.ST_OFFS i, 15, 0⟩
def ST_FCAUSE_first (i : Nat) : Field := ⟨R.ST_FCAUSE i, 31, 28⟩
def ST_FCAUSE_mask (i : Nat) : Field := ⟨R.ST_FCAUSE i, 5, 1⟩
def STEP_TABLE_t_odd (i : Nat) : Field := ⟨R.STEP_TABLE i, 25, 16⟩
def STEP_TABLE_t_even (i : Nat) : Field := ⟨R.STEP_TABLE i, 9, 0⟩
def STEP_GSTAT_cfg_err : Field := ⟨R.STEP_GSTAT, 0, 0⟩
def MEM_RGN_BASE_base (i : Nat) (j : Nat) : Field := ⟨R.MEM_RGN_BASE i j, 27, 0⟩
def MEM_RGN_LIM_limit (i : Nat) (j : Nat) : Field := ⟨R.MEM_RGN_LIM i j, 27, 0⟩
def MEM_RGN_CTL_locked (i : Nat) (j : Nat) : Field := ⟨R.MEM_RGN_CTL i j, 31, 31⟩
def MEM_RGN_CTL_slock (i : Nat) (j : Nat) : Field := ⟨R.MEM_RGN_CTL i j, 30, 30⟩
def MEM_RGN_CTL_en (i : Nat) (j : Nat) : Field := ⟨R.MEM_RGN_CTL i j, 3, 3⟩
def MEM_RGN_CTL_x (i : Nat) (j : Nat) : Field := ⟨R.MEM_RGN_CTL i j, 2, 2⟩
def MEM_RGN_CTL_w (i : Nat) (j : Nat) : Field := ⟨R.MEM_RGN_CTL i j, 1, 1⟩
def MEM_RGN_CTL_r (i : Nat) (j : Nat) : Field := ⟨R.MEM_RGN_CTL i j, 0, 0⟩
def MEM_SCRUB_en : Field := ⟨R.MEM_SCRUB, 31, 31⟩
def MEM_SCRUB_dram_ms : Field := ⟨R.MEM_SCRUB, 19, 10⟩
def MEM_SCRUB_sram_ms : Field := ⟨R.MEM_SCRUB, 9, 0⟩
def MEM_SCRSTAT_dram_late : Field := ⟨R.MEM_SCRSTAT, 1, 1⟩
def MEM_SCRSTAT_sram_late : Field := ⟨R.MEM_SCRSTAT, 0, 0⟩
def MEM_ARB_starve_lim : Field := ⟨R.MEM_ARB, 15, 0⟩
def MEM_MARCH_go : Field := ⟨R.MEM_MARCH, 31, 31⟩
def MEM_MARCH_busy : Field := ⟨R.MEM_MARCH, 30, 30⟩
def MEM_MARCH_mode : Field := ⟨R.MEM_MARCH, 29, 28⟩
def MEM_MARCH_repair : Field := ⟨R.MEM_MARCH, 27, 27⟩
def MEM_MARCH_dram : Field := ⟨R.MEM_MARCH, 26, 26⟩
def MEM_MTGT_count : Field := ⟨R.MEM_MTGT, 25, 16⟩
def MEM_MTGT_first : Field := ⟨R.MEM_MTGT, 9, 0⟩
def MEM_MRET_ms : Field := ⟨R.MEM_MRET, 15, 0⟩
def MEM_MSTAT_done : Field := ⟨R.MEM_MSTAT, 31, 31⟩
def MEM_MSTAT_fail : Field := ⟨R.MEM_MSTAT, 30, 30⟩
def MEM_MSTAT_refused : Field := ⟨R.MEM_MSTAT, 29, 29⟩
def MEM_MSTAT_rep : Field := ⟨R.MEM_MSTAT, 23, 16⟩
def MEM_MSTAT_unrep : Field := ⟨R.MEM_MSTAT, 15, 0⟩
def MEM_DSTAT_fused : Field := ⟨R.MEM_DSTAT, 7, 4⟩
def MEM_DSTAT_rdy : Field := ⟨R.MEM_DSTAT, 3, 0⟩
def GUST_CH_CTL_go (i : Nat) : Field := ⟨R.GUST_CH_CTL i, 31, 31⟩
def GUST_CH_CTL_abort (i : Nat) : Field := ⟨R.GUST_CH_CTL i, 30, 30⟩
def GUST_CH_CTL_disable (i : Nat) : Field := ⟨R.GUST_CH_CTL i, 29, 29⟩
def GUST_CH_CTL_err (i : Nat) : Field := ⟨R.GUST_CH_CTL i, 28, 28⟩
def GUST_CH_CFG_share (i : Nat) : Field := ⟨R.GUST_CH_CFG i, 30, 24⟩
def GUST_CH_CFG_ring (i : Nat) : Field := ⟨R.GUST_CH_CFG i, 10, 8⟩
def GUST_CH_CFG_class (i : Nat) : Field := ⟨R.GUST_CH_CFG i, 1, 0⟩
def GUST_CH_STAT_status (i : Nat) : Field := ⟨R.GUST_CH_STAT i, 31, 24⟩
def GUST_CH_STAT_state (i : Nat) : Field := ⟨R.GUST_CH_STAT i, 18, 16⟩
def GUST_CH_STAT_index (i : Nat) : Field := ⟨R.GUST_CH_STAT i, 15, 0⟩
def GUST_CH_RES_bytes (i : Nat) : Field := ⟨R.GUST_CH_RES i, 23, 0⟩
def GUST_CH_LRES_lines (i : Nat) : Field := ⟨R.GUST_CH_LRES i, 31, 16⟩
def GUST_CH_CRC_v (i : Nat) : Field := ⟨R.GUST_CH_CRC i, 31, 0⟩
def GUST_CH_SEQ_seq (i : Nat) : Field := ⟨R.GUST_CH_SEQ i, 15, 0⟩
def GUST_CH_BYTES_count (i : Nat) : Field := ⟨R.GUST_CH_BYTES i, 31, 0⟩
def GUST_RING_SIZE_en (i : Nat) : Field := ⟨R.GUST_RING_SIZE i, 31, 31⟩
def GUST_RING_SIZE_size (i : Nat) : Field := ⟨R.GUST_RING_SIZE i, 3, 0⟩
def GUST_RING_WR_wr (i : Nat) : Field := ⟨R.GUST_RING_WR i, 15, 0⟩
def GUST_RING_RD_rd (i : Nat) : Field := ⟨R.GUST_RING_RD i, 15, 0⟩
def GUST_RING_STAT_waits (i : Nat) : Field := ⟨R.GUST_RING_STAT i, 31, 16⟩
def GUST_RING_STAT_err (i : Nat) : Field := ⟨R.GUST_RING_STAT i, 0, 0⟩
def GUST_GSTAT_priv_err : Field := ⟨R.GUST_GSTAT, 0, 0⟩
def ETH_CFG_en (i : Nat) : Field := ⟨R.ETH_CFG i, 31, 31⟩
def ETH_CFG_mode (i : Nat) : Field := ⟨R.ETH_CFG i, 26, 24⟩
def ETH_CFG_an (i : Nat) : Field := ⟨R.ETH_CFG i, 21, 21⟩
def ETH_CFG_fec (i : Nat) : Field := ⟨R.ETH_CFG i, 20, 20⟩
def ETH_CFG_mtu (i : Nat) : Field := ⟨R.ETH_CFG i, 13, 0⟩
def PCIE_WIN_en (i : Nat) : Field := ⟨R.PCIE_WIN i, 31, 31⟩
def PCIE_WIN_base (i : Nat) : Field := ⟨R.PCIE_WIN i, 11, 0⟩
def PCIE_VECMAP_srcs (i : Nat) : Field := ⟨R.PCIE_VECMAP i, 31, 0⟩
def PCIE_DBELL_vector : Field := ⟨R.PCIE_DBELL, 5, 0⟩
def SYS_RSTCAUSE_rail : Field := ⟨R.SYS_RSTCAUSE, 19, 16⟩
def SYS_RSTCAUSE_cause : Field := ⟨R.SYS_RSTCAUSE, 7, 0⟩
def SYS_RSTCTL_key : Field := ⟨R.SYS_RSTCTL, 31, 16⟩
def SYS_RSTCTL_sys : Field := ⟨R.SYS_RSTCTL, 0, 0⟩
def SYS_BOOTSTAT_straps : Field := ⟨R.SYS_BOOTSTAT, 28, 24⟩
def SYS_BOOTSTAT_unauth : Field := ⟨R.SYS_BOOTSTAT, 23, 23⟩
def SYS_BOOTSTAT_slot : Field := ⟨R.SYS_BOOTSTAT, 22, 22⟩
def SYS_BOOTSTAT_err : Field := ⟨R.SYS_BOOTSTAT, 19, 16⟩
def SYS_BOOTSTAT_phase : Field := ⟨R.SYS_BOOTSTAT, 1, 0⟩
def SYS_BOOTCMD_go : Field := ⟨R.SYS_BOOTCMD, 31, 31⟩
def SYS_BOOTCMD_len : Field := ⟨R.SYS_BOOTCMD, 28, 0⟩
def SYS_BOOTALARM_marg : Field := ⟨R.SYS_BOOTALARM, 31, 16⟩
def SYS_BOOTALARM_integ : Field := ⟨R.SYS_BOOTALARM, 15, 0⟩
def SYS_BOOTTIME_us : Field := ⟨R.SYS_BOOTTIME, 31, 0⟩
def SYS_RTCNT_n : Field := ⟨R.SYS_RTCNT, 9, 0⟩
def SYS_RLOAD_go : Field := ⟨R.SYS_RLOAD, 31, 31⟩
def SYS_RLOAD_busy : Field := ⟨R.SYS_RLOAD, 30, 30⟩
def SYS_RLOAD_err : Field := ⟨R.SYS_RLOAD, 29, 29⟩
def SYS_RLOAD_status : Field := ⟨R.SYS_RLOAD, 9, 8⟩
def SYS_RLOAD_seq : Field := ⟨R.SYS_RLOAD, 5, 0⟩
def SYS_SUPSTAT_dwell : Field := ⟨R.SYS_SUPSTAT, 26, 16⟩
def SYS_SUPSTAT_below : Field := ⟨R.SYS_SUPSTAT, 10, 0⟩
def SYS_SUPSEEN_seen : Field := ⟨R.SYS_SUPSEEN, 10, 0⟩
def FUSE_CMD_go : Field := ⟨R.FUSE_CMD, 31, 31⟩
def FUSE_CMD_seal : Field := ⟨R.FUSE_CMD, 30, 30⟩
def FUSE_CMD_lock : Field := ⟨R.FUSE_CMD, 29, 29⟩
def FUSE_CMD_force : Field := ⟨R.FUSE_CMD, 28, 28⟩
def FUSE_CMD_op : Field := ⟨R.FUSE_CMD, 27, 24⟩
def FUSE_CMD_word : Field := ⟨R.FUSE_CMD, 14, 8⟩
def FUSE_CMD_bank : Field := ⟨R.FUSE_CMD, 3, 0⟩
def FUSE_DATA_data : Field := ⟨R.FUSE_DATA, 31, 0⟩
def FUSE_PSTAT_busy : Field := ⟨R.FUSE_PSTAT, 31, 31⟩
def FUSE_PSTAT_paused : Field := ⟨R.FUSE_PSTAT, 30, 30⟩
def FUSE_PSTAT_result : Field := ⟨R.FUSE_PSTAT, 27, 24⟩
def FUSE_PSTAT_cell : Field := ⟨R.FUSE_PSTAT, 21, 16⟩
def FUSE_PSTAT_word : Field := ⟨R.FUSE_PSTAT, 14, 8⟩
def FUSE_PSTAT_bank : Field := ⟨R.FUSE_PSTAT, 3, 0⟩
def FUSE_VMON_inwin : Field := ⟨R.FUSE_VMON, 31, 31⟩
def FUSE_VMON_mv : Field := ⟨R.FUSE_VMON, 11, 0⟩
def FUSE_INTEGRITY_alarm : Field := ⟨R.FUSE_INTEGRITY, 15, 0⟩
def FUSE_BSTAT_drift (i : Nat) : Field := ⟨R.FUSE_BSTAT i, 7, 7⟩
def FUSE_BSTAT_alarm (i : Nat) : Field := ⟨R.FUSE_BSTAT i, 6, 6⟩
def FUSE_BSTAT_marg (i : Nat) : Field := ⟨R.FUSE_BSTAT i, 5, 5⟩
def FUSE_BSTAT_ue (i : Nat) : Field := ⟨R.FUSE_BSTAT i, 4, 4⟩
def FUSE_BSTAT_superseded (i : Nat) : Field := ⟨R.FUSE_BSTAT i, 3, 3⟩
def FUSE_BSTAT_sealed (i : Nat) : Field := ⟨R.FUSE_BSTAT i, 2, 2⟩
def FUSE_BSTAT_seal_wr (i : Nat) : Field := ⟨R.FUSE_BSTAT i, 1, 1⟩
def FUSE_BSTAT_locked (i : Nat) : Field := ⟨R.FUSE_BSTAT i, 0, 0⟩
def FUSE_STAGE_data (i : Nat) : Field := ⟨R.FUSE_STAGE i, 31, 0⟩
def SEC_LC_fails : Field := ⟨R.SEC_LC, 11, 8⟩
def SEC_LC_lockout : Field := ⟨R.SEC_LC, 7, 7⟩
def SEC_LC_dbg : Field := ⟨R.SEC_LC, 6, 6⟩
def SEC_LC_state : Field := ⟨R.SEC_LC, 2, 0⟩
def SEC_CMD_go : Field := ⟨R.SEC_CMD, 31, 31⟩
def SEC_CMD_busy : Field := ⟨R.SEC_CMD, 30, 30⟩
def SEC_CMD_status : Field := ⟨R.SEC_CMD, 27, 24⟩
def SEC_CMD_op : Field := ⟨R.SEC_CMD, 2, 0⟩
def SEC_ID_id (i : Nat) : Field := ⟨R.SEC_ID i, 31, 0⟩
def SUP_CFG_recov : Field := ⟨R.SUP_CFG, 31, 31⟩
def SUP_CFG_irq_sev : Field := ⟨R.SUP_CFG, 19, 16⟩
def SUP_FAULTN_asserted : Field := ⟨R.SUP_FAULTN, 31, 31⟩
def SUP_FAULTN_assert : Field := ⟨R.SUP_FAULTN, 30, 30⟩
def SUP_FAULTN_release : Field := ⟨R.SUP_FAULTN, 29, 29⟩
def SUP_FAULTN_err : Field := ⟨R.SUP_FAULTN, 28, 28⟩
def SUP_FAULTN_latch : Field := ⟨R.SUP_FAULTN, 5, 0⟩
def SUP_GCOND_cond : Field := ⟨R.SUP_GCOND, 5, 0⟩
def SUP_TOOS_oos (i : Nat) : Field := ⟨R.SUP_TOOS i, 31, 0⟩
def SUP_STAGE_age (i : Nat) : Field := ⟨R.SUP_STAGE i, 31, 0⟩
def SUP_GUAR_holds : Field := ⟨R.SUP_GUAR, 31, 31⟩
def SUP_GUAR_st_fail : Field := ⟨R.SUP_GUAR, 6, 6⟩
def SUP_GUAR_open : Field := ⟨R.SUP_GUAR, 5, 5⟩
def SUP_GUAR_split : Field := ⟨R.SUP_GUAR, 4, 4⟩
def SUP_GUAR_recov : Field := ⟨R.SUP_GUAR, 3, 3⟩
def SUP_GUAR_wdog : Field := ⟨R.SUP_GUAR, 2, 2⟩
def SUP_GUAR_stale : Field := ⟨R.SUP_GUAR, 1, 1⟩
def SUP_GUAR_scrub : Field := ⟨R.SUP_GUAR, 0, 0⟩
def SUP_FWG_en (i : Nat) : Field := ⟨R.SUP_FWG i, 31, 31⟩
def SUP_FWG_seq (i : Nat) : Field := ⟨R.SUP_FWG i, 5, 0⟩
def CAL_CTL_adc_en : Field := ⟨R.CAL_CTL, 31, 31⟩
def CAL_CTL_auto : Field := ⟨R.CAL_CTL, 30, 30⟩
def CAL_CTL_apply : Field := ⟨R.CAL_CTL, 29, 29⟩
def CAL_CTL_per_s : Field := ⟨R.CAL_CTL, 15, 0⟩
def CAL_STAT_tc_err : Field := ⟨R.CAL_STAT, 10, 10⟩
def CAL_STAT_adc_fail : Field := ⟨R.CAL_STAT, 9, 8⟩
def CAL_STAT_stale : Field := ⟨R.CAL_STAT, 7, 0⟩
def CAL_CMP_trim (i : Nat) : Field := ⟨R.CAL_CMP i, 5, 0⟩
def CAL_TS_temp (i : Nat) : Field := ⟨R.CAL_TS i, 31, 16⟩
def CAL_TS_off (i : Nat) : Field := ⟨R.CAL_TS i, 15, 0⟩
def CAL_TALARM_hi : Field := ⟨R.CAL_TALARM, 15, 0⟩
def CAL_LANE_sat (i : Nat) : Field := ⟨R.CAL_LANE i, 31, 31⟩
def CAL_LANE_k (i : Nat) : Field := ⟨R.CAL_LANE i, 21, 16⟩
def CAL_LANE_meas (i : Nat) : Field := ⟨R.CAL_LANE i, 15, 8⟩
def CAL_LANE_usr (i : Nat) : Field := ⟨R.CAL_LANE i, 7, 0⟩
def CAL_TRIMHOLD_hold : Field := ⟨R.CAL_TRIMHOLD, 23, 0⟩
def CAL_TCOMMIT_go : Field := ⟨R.CAL_TCOMMIT, 31, 31⟩
def CAL_TCOMMIT_busy : Field := ⟨R.CAL_TCOMMIT, 30, 30⟩
def CAL_TCOMMIT_wave : Field := ⟨R.CAL_TCOMMIT, 29, 29⟩
def CAL_TCOMMIT_bar : Field := ⟨R.CAL_TCOMMIT, 2, 0⟩
def LANE_STROBES_count (i : Nat) : Field := ⟨R.LANE_STROBES i, 31, 0⟩
def LANE_BLANKS_count (i : Nat) : Field := ⟨R.LANE_BLANKS i, 31, 0⟩
def LANE_LATE_count (i : Nat) : Field := ⟨R.LANE_LATE i, 31, 0⟩
def LANE_UNDELIV_count (i : Nat) : Field := ⟨R.LANE_UNDELIV i, 31, 0⟩
def LANE_MISSED_count (i : Nat) : Field := ⟨R.LANE_MISSED i, 31, 0⟩
def LANE_SLIP_count (i : Nat) : Field := ⟨R.LANE_SLIP i, 31, 0⟩
def LANE_UNCONF_count (i : Nat) : Field := ⟨R.LANE_UNCONF i, 31, 0⟩
def LANE_UNCONF_FIRST_count (i : Nat) : Field := ⟨R.LANE_UNCONF_FIRST i, 31, 0⟩
def LANE_UNCONF_LAST_count (i : Nat) : Field := ⟨R.LANE_UNCONF_LAST i, 31, 0⟩
def HEALTH_ECUPD_count : Field := ⟨R.HEALTH_ECUPD, 31, 0⟩
def HEALTH_ECLOST_count : Field := ⟨R.HEALTH_ECLOST, 31, 0⟩
def HEALTH_ECTRANS_count : Field := ⟨R.HEALTH_ECTRANS, 31, 0⟩
def LANE_BLKERR_count (i : Nat) : Field := ⟨R.LANE_BLKERR i, 31, 0⟩
def LANE_RETX_count (i : Nat) : Field := ⟨R.LANE_RETX i, 31, 0⟩
def LANE_SCERR_count (i : Nat) : Field := ⟨R.LANE_SCERR i, 31, 0⟩
def LANE_UPERR_count (i : Nat) : Field := ⟨R.LANE_UPERR i, 31, 0⟩
def LANE_NOFILL_count (i : Nat) : Field := ⟨R.LANE_NOFILL i, 31, 0⟩
def LANE_STATTO_count (i : Nat) : Field := ⟨R.LANE_STATTO i, 31, 0⟩
def LANE_TSN_sn (i : Nat) (j : Nat) : Field := ⟨R.LANE_TSN i j, 31, 0⟩
def MOT_DUTY0_dB (i : Nat) : Field := ⟨R.MOT_DUTY0 i, 31, 16⟩
def MOT_DUTY0_dA (i : Nat) : Field := ⟨R.MOT_DUTY0 i, 15, 0⟩
def MOT_DUTY1_sector (i : Nat) : Field := ⟨R.MOT_DUTY1 i, 18, 16⟩
def MOT_DUTY1_dC (i : Nat) : Field := ⟨R.MOT_DUTY1 i, 15, 0⟩
def MOT_IAB_hi (i : Nat) : Field := ⟨R.MOT_IAB i, 31, 16⟩
def MOT_IAB_lo (i : Nat) : Field := ⟨R.MOT_IAB i, 15, 0⟩
def MOT_ICV_hi (i : Nat) : Field := ⟨R.MOT_ICV i, 31, 16⟩
def MOT_ICV_lo (i : Nat) : Field := ⟨R.MOT_ICV i, 15, 0⟩
def MOT_VAB_hi (i : Nat) : Field := ⟨R.MOT_VAB i, 31, 16⟩
def MOT_VAB_lo (i : Nat) : Field := ⟨R.MOT_VAB i, 15, 0⟩
def MOT_VC_hi (i : Nat) : Field := ⟨R.MOT_VC i, 31, 16⟩
def MOT_VC_lo (i : Nat) : Field := ⟨R.MOT_VC i, 15, 0⟩
def MOT_SENSE_ia_vc (i : Nat) : Field := ⟨R.MOT_SENSE i, 31, 4⟩
def MOT_STAT_flags (i : Nat) : Field := ⟨R.MOT_STAT i, 8, 0⟩
def MOT_IEN_ien (i : Nat) : Field := ⟨R.MOT_IEN i, 8, 0⟩
def ST_POS_pos (i : Nat) : Field := ⟨R.ST_POS i, 31, 0⟩
def ST_VEL_vel (i : Nat) : Field := ⟨R.ST_VEL i, 31, 0⟩
def ST_DEV_dev (i : Nat) : Field := ⟨R.ST_DEV i, 31, 0⟩
def ST_STALL_en (i : Nat) : Field := ⟨R.ST_STALL i, 31, 31⟩
def ST_STALL_act (i : Nat) : Field := ⟨R.ST_STALL i, 30, 30⟩
def ST_STALL_axis (i : Nat) : Field := ⟨R.ST_STALL i, 26, 24⟩
def ST_STALL_win (i : Nat) : Field := ⟨R.ST_STALL i, 15, 0⟩
def ST_SRATIO_ratio (i : Nat) : Field := ⟨R.ST_SRATIO i, 31, 0⟩
def ST_PROF0_vstop (i : Nat) (j : Nat) : Field := ⟨R.ST_PROF0 i j, 31, 16⟩
def ST_PROF0_vstart (i : Nat) (j : Nat) : Field := ⟨R.ST_PROF0 i j, 15, 0⟩
def ST_PROF1_vbrk (i : Nat) (j : Nat) : Field := ⟨R.ST_PROF1 i j, 15, 0⟩
def ST_PROF2_a1 (i : Nat) (j : Nat) : Field := ⟨R.ST_PROF2 i j, 31, 16⟩
def ST_PROF2_a2 (i : Nat) (j : Nat) : Field := ⟨R.ST_PROF2 i j, 15, 0⟩
def ST_PROF3_d1 (i : Nat) (j : Nat) : Field := ⟨R.ST_PROF3 i j, 31, 16⟩
def ST_PROF3_d2 (i : Nat) (j : Nat) : Field := ⟨R.ST_PROF3 i j, 15, 0⟩
def ST_STAT_flags (i : Nat) : Field := ⟨R.ST_STAT i, 7, 0⟩
def ST_IEN_ien (i : Nat) : Field := ⟨R.ST_IEN i, 7, 0⟩
def MEM_CECNT_v : Field := ⟨R.MEM_CECNT, 31, 0⟩
def MEM_UECNT_v : Field := ⟨R.MEM_UECNT, 31, 0⟩
def MEM_ELOG0_v : Field := ⟨R.MEM_ELOG0, 31, 0⟩
def MEM_ELOG1_v : Field := ⟨R.MEM_ELOG1, 31, 0⟩
def MEM_STARVE_v : Field := ⟨R.MEM_STARVE, 31, 0⟩
def MEM_MFAIL0_v : Field := ⟨R.MEM_MFAIL0, 31, 0⟩
def MEM_MFAIL1_v : Field := ⟨R.MEM_MFAIL1, 31, 0⟩
def MEM_RPIDX_idx : Field := ⟨R.MEM_RPIDX, 9, 0⟩
def MEM_RPDATA_failed : Field := ⟨R.MEM_RPDATA, 8, 8⟩
def MEM_RPDATA_total : Field := ⟨R.MEM_RPDATA, 7, 4⟩
def MEM_RPDATA_used : Field := ⟨R.MEM_RPDATA, 3, 0⟩
def GUST_CH_PROGL_addr (i : Nat) : Field := ⟨R.GUST_CH_PROGL i, 31, 5⟩
def GUST_CH_PROGH_addr_hi (i : Nat) : Field := ⟨R.GUST_CH_PROGH i, 7, 0⟩
def GUST_CH_FADDRL_addr (i : Nat) : Field := ⟨R.GUST_CH_FADDRL i, 31, 0⟩
def GUST_CH_FADDRH_addr_hi (i : Nat) : Field := ⟨R.GUST_CH_FADDRH i, 7, 0⟩
def GUST_RING_BASEL_base (i : Nat) : Field := ⟨R.GUST_RING_BASEL i, 31, 4⟩
def GUST_RING_BASEH_base_hi (i : Nat) : Field := ⟨R.GUST_RING_BASEH i, 7, 0⟩
def GUST_AXCAP_v (i : Nat) : Field := ⟨R.GUST_AXCAP i, 31, 0⟩
def GUST_AXCAP_FT_v (i : Nat) : Field := ⟨R.GUST_AXCAP_FT i, 31, 0⟩
def GUST_AXCAP_CNT_v (i : Nat) : Field := ⟨R.GUST_AXCAP_CNT i, 31, 0⟩
def ETH_STAT_up (i : Nat) : Field := ⟨R.ETH_STAT i, 7, 4⟩
def ETH_STAT_flags (i : Nat) : Field := ⟨R.ETH_STAT i, 2, 0⟩
def ETH_IEN_ien (i : Nat) : Field := ⟨R.ETH_IEN i, 2, 0⟩
def ETH_VLAN_en (i : Nat) : Field := ⟨R.ETH_VLAN i, 31, 31⟩
def ETH_VLAN_pcp (i : Nat) : Field := ⟨R.ETH_VLAN i, 14, 12⟩
def ETH_VLAN_vid (i : Nat) : Field := ⟨R.ETH_VLAN i, 11, 0⟩
def ETH_TSADJ_egress (i : Nat) : Field := ⟨R.ETH_TSADJ i, 31, 16⟩
def ETH_TSADJ_ingress (i : Nat) : Field := ⟨R.ETH_TSADJ i, 15, 0⟩
def ETH_RXBASE_base (i : Nat) : Field := ⟨R.ETH_RXBASE i, 31, 5⟩
def ETH_RXRING_en (i : Nat) : Field := ⟨R.ETH_RXRING i, 31, 31⟩
def ETH_RXRING_size (i : Nat) : Field := ⟨R.ETH_RXRING i, 19, 16⟩
def ETH_RXRING_base_hi (i : Nat) : Field := ⟨R.ETH_RXRING i, 7, 0⟩
def ETH_RXWR_wr (i : Nat) : Field := ⟨R.ETH_RXWR i, 15, 0⟩
def ETH_RXRD_rd (i : Nat) : Field := ⟨R.ETH_RXRD i, 15, 0⟩
def ETH_TXBASE_base (i : Nat) : Field := ⟨R.ETH_TXBASE i, 31, 5⟩
def ETH_TXRING_en (i : Nat) : Field := ⟨R.ETH_TXRING i, 31, 31⟩
def ETH_TXRING_size (i : Nat) : Field := ⟨R.ETH_TXRING i, 19, 16⟩
def ETH_TXRING_base_hi (i : Nat) : Field := ⟨R.ETH_TXRING i, 7, 0⟩
def ETH_TXWR_wr (i : Nat) : Field := ⟨R.ETH_TXWR i, 15, 0⟩
def ETH_TXRD_rd (i : Nat) : Field := ⟨R.ETH_TXRD i, 15, 0⟩
def ETH_MACLO_mac_lo (i : Nat) (j : Nat) : Field := ⟨R.ETH_MACLO i j, 31, 0⟩
def ETH_MACHI_mac_hi (i : Nat) (j : Nat) : Field := ⟨R.ETH_MACHI i j, 15, 0⟩
def ETH_IP4_ip4 (i : Nat) (j : Nat) : Field := ⟨R.ETH_IP4 i j, 31, 0⟩
def ETH_IP6W0_ip6 (i : Nat) (j : Nat) : Field := ⟨R.ETH_IP6W0 i j, 31, 0⟩
def ETH_IP6W1_ip6 (i : Nat) (j : Nat) : Field := ⟨R.ETH_IP6W1 i j, 31, 0⟩
def ETH_IP6W2_ip6 (i : Nat) (j : Nat) : Field := ⟨R.ETH_IP6W2 i j, 31, 0⟩
def ETH_IP6W3_ip6 (i : Nat) (j : Nat) : Field := ⟨R.ETH_IP6W3 i j, 31, 0⟩
def ETH_RXFRM_count (i : Nat) : Field := ⟨R.ETH_RXFRM i, 31, 0⟩
def ETH_RXBAD_count (i : Nat) : Field := ⟨R.ETH_RXBAD i, 31, 0⟩
def ETH_RXDROP_count (i : Nat) : Field := ⟨R.ETH_RXDROP i, 31, 0⟩
def ETH_GSPOK_count (i : Nat) : Field := ⟨R.ETH_GSPOK i, 31, 0⟩
def ETH_GSPREF_count (i : Nat) : Field := ⟨R.ETH_GSPREF i, 31, 0⟩
def ETH_GSPDUP_count (i : Nat) : Field := ⟨R.ETH_GSPDUP i, 31, 0⟩
def ETH_NACKSUP_count (i : Nat) : Field := ⟨R.ETH_NACKSUP i, 31, 0⟩
def ETH_PAUSE_count (i : Nat) : Field := ⟨R.ETH_PAUSE i, 31, 0⟩
def ETH_TXFRM_count (i : Nat) : Field := ⟨R.ETH_TXFRM i, 31, 0⟩
def ETH_GSPCFG_en : Field := ⟨R.ETH_GSPCFG, 31, 31⟩
def ETH_GSPCFG_ack_every : Field := ⟨R.ETH_GSPCFG, 23, 16⟩
def ETH_GSPCFG_port : Field := ⟨R.ETH_GSPCFG, 15, 0⟩
def ETH_GSPTIM_nack_us : Field := ⟨R.ETH_GSPTIM, 31, 16⟩
def ETH_GSPTIM_ack_us : Field := ⟨R.ETH_GSPTIM, 15, 0⟩
def GSP_CFG_en (i : Nat) : Field := ⟨R.GSP_CFG i, 31, 31⟩
def GSP_CFG_ports (i : Nat) : Field := ⟨R.GSP_CFG i, 30, 29⟩
def GSP_CFG_sig_en (i : Nat) : Field := ⟨R.GSP_CFG i, 28, 28⟩
def GSP_CFG_err (i : Nat) : Field := ⟨R.GSP_CFG i, 27, 27⟩
def GSP_CFG_format (i : Nat) : Field := ⟨R.GSP_CFG i, 23, 16⟩
def GSP_CFG_sig (i : Nat) : Field := ⟨R.GSP_CFG i, 15, 8⟩
def GSP_BASEL_base (i : Nat) : Field := ⟨R.GSP_BASEL i, 31, 0⟩
def GSP_BASEH_base_hi (i : Nat) : Field := ⟨R.GSP_BASEH i, 7, 0⟩
def GSP_STRIDE_stride (i : Nat) : Field := ⟨R.GSP_STRIDE i, 31, 0⟩
def GSP_GEOM_lines (i : Nat) : Field := ⟨R.GSP_GEOM i, 31, 16⟩
def GSP_GEOM_plane (i : Nat) : Field := ⟨R.GSP_GEOM i, 15, 0⟩
def GSP_LEN_len (i : Nat) : Field := ⟨R.GSP_LEN i, 23, 0⟩
def GSP_EXP_e (i : Nat) : Field := ⟨R.GSP_EXP i, 31, 0⟩
def GSP_DONE_line (i : Nat) : Field := ⟨R.GSP_DONE i, 31, 0⟩
def PTP_NS_ns : Field := ⟨R.PTP_NS, 29, 0⟩
def PTP_SECL_secl : Field := ⟨R.PTP_SECL, 31, 0⟩
def PTP_SECH_sech : Field := ⟨R.PTP_SECH, 15, 0⟩
def PTP_INCL_incl : Field := ⟨R.PTP_INCL, 31, 0⟩
def PTP_INCH_inch : Field := ⟨R.PTP_INCH, 7, 0⟩
def PTP_SETNS_setns : Field := ⟨R.PTP_SETNS, 29, 0⟩
def PTP_SETSECL_setsecl : Field := ⟨R.PTP_SETSECL, 31, 0⟩
def PTP_SETSECH_setsech : Field := ⟨R.PTP_SETSECH, 15, 0⟩
def PTP_ADJ_adj : Field := ⟨R.PTP_ADJ, 31, 0⟩
def PTP_STAT_stat : Field := ⟨R.PTP_STAT, 0, 0⟩
def PTP_RATIO_ratio : Field := ⟨R.PTP_RATIO, 31, 0⟩
def PTP_ALNS_alns : Field := ⟨R.PTP_ALNS, 29, 0⟩
def PTP_ALSECL_alsecl : Field := ⟨R.PTP_ALSECL, 31, 0⟩
def PTP_ALCTL_en : Field := ⟨R.PTP_ALCTL, 31, 31⟩
def PTP_ALCTL_sec_hi : Field := ⟨R.PTP_ALCTL, 23, 8⟩
def PTP_ALCTL_sig : Field := ⟨R.PTP_ALCTL, 7, 0⟩
def PTP_PPS_en : Field := ⟨R.PTP_PPS, 31, 31⟩
def PTP_PPS_gpio : Field := ⟨R.PTP_PPS, 20, 16⟩
def PTP_PPS_width : Field := ⟨R.PTP_PPS, 15, 0⟩
def PCIE_STAT_up : Field := ⟨R.PCIE_STAT, 15, 15⟩
def PCIE_STAT_speed : Field := ⟨R.PCIE_STAT, 14, 12⟩
def PCIE_STAT_width : Field := ⟨R.PCIE_STAT, 11, 8⟩
def PCIE_STAT_flags : Field := ⟨R.PCIE_STAT, 2, 0⟩
def PCIE_IEN_ien : Field := ⟨R.PCIE_IEN, 2, 0⟩
def PCIE_UR_count : Field := ⟨R.PCIE_UR, 31, 0⟩
def PCIE_CA_count : Field := ⟨R.PCIE_CA, 31, 0⟩
def PCIE_WDISC_count : Field := ⟨R.PCIE_WDISC, 31, 0⟩
def PCIE_MSIX_word (i : Nat) (j : Nat) : Field := ⟨R.PCIE_MSIX i j, 31, 0⟩
def PCIE_PBA_pending_bits (i : Nat) : Field := ⟨R.PCIE_PBA i, 31, 0⟩
def SYS_BOOTHASH_h (i : Nat) : Field := ⟨R.SYS_BOOTHASH i, 31, 0⟩
def SYS_RTHASH_h (i : Nat) : Field := ⟨R.SYS_RTHASH i, 31, 0⟩
def FUSE_WIDX_bank : Field := ⟨R.FUSE_WIDX, 10, 7⟩
def FUSE_WIDX_word : Field := ⟨R.FUSE_WIDX, 6, 0⟩
def FUSE_WFLAG_prog : Field := ⟨R.FUSE_WFLAG, 4, 4⟩
def FUSE_WFLAG_drift : Field := ⟨R.FUSE_WFLAG, 3, 3⟩
def FUSE_WFLAG_ue : Field := ⟨R.FUSE_WFLAG, 2, 2⟩
def FUSE_WFLAG_ce : Field := ⟨R.FUSE_WFLAG, 1, 1⟩
def FUSE_WFLAG_marg : Field := ⟨R.FUSE_WFLAG, 0, 0⟩
def FUSE_SH_shadow_word (i : Nat) (j : Nat) : Field := ⟨R.FUSE_SH i j, 31, 0⟩
def SEC_CHAL_chal (i : Nat) : Field := ⟨R.SEC_CHAL i, 31, 0⟩
def SEC_DATA_data (i : Nat) : Field := ⟨R.SEC_DATA i, 31, 0⟩
def SEC_ATT_att (i : Nat) : Field := ⟨R.SEC_ATT i, 31, 0⟩
def SUP_WDOG_en : Field := ⟨R.SUP_WDOG, 31, 31⟩
def SUP_WDOG_stage1 : Field := ⟨R.SUP_WDOG, 30, 30⟩
def SUP_WDOG_period : Field := ⟨R.SUP_WDOG, 15, 0⟩
def SUP_WDKICK_key : Field := ⟨R.SUP_WDKICK, 15, 0⟩
def SUP_UNITSTAT0_mism : Field := ⟨R.SUP_UNITSTAT0, 31, 0⟩
def SUP_UNITSTAT1_mism : Field := ⟨R.SUP_UNITSTAT1, 15, 0⟩
def SUP_STEST_run : Field := ⟨R.SUP_STEST, 9, 0⟩
def SUP_STRES_done : Field := ⟨R.SUP_STRES, 25, 16⟩
def SUP_STRES_pass : Field := ⟨R.SUP_STRES, 9, 0⟩
def SUP_HBCFG_en (i : Nat) : Field := ⟨R.SUP_HBCFG i, 31, 31⟩
def SUP_HBCFG_period (i : Nat) : Field := ⟨R.SUP_HBCFG i, 15, 0⟩
def SUP_HB_beat (i : Nat) : Field := ⟨R.SUP_HB i, 31, 0⟩
def SUP_RING_BASE_off (i : Nat) : Field := ⟨R.SUP_RING_BASE i, 21, 5⟩
def SUP_RING_CFG_en (i : Nat) : Field := ⟨R.SUP_RING_CFG i, 31, 31⟩
def SUP_RING_CFG_host (i : Nat) : Field := ⟨R.SUP_RING_CFG i, 30, 30⟩
def SUP_RING_CFG_owner (i : Nat) : Field := ⟨R.SUP_RING_CFG i, 29, 24⟩
def SUP_RING_CFG_size (i : Nat) : Field := ⟨R.SUP_RING_CFG i, 23, 20⟩
def SUP_RING_CFG_rsv_sev (i : Nat) : Field := ⟨R.SUP_RING_CFG i, 19, 16⟩
def SUP_RING_CFG_wm (i : Nat) : Field := ⟨R.SUP_RING_CFG i, 15, 0⟩
def SUP_RING_RSV_n (i : Nat) : Field := ⟨R.SUP_RING_RSV i, 15, 0⟩
def SUP_RING_WR_wr (i : Nat) : Field := ⟨R.SUP_RING_WR i, 15, 0⟩
def SUP_RING_RD_rd (i : Nat) : Field := ⟨R.SUP_RING_RD i, 15, 0⟩
def SUP_RING_STAT_err (i : Nat) : Field := ⟨R.SUP_RING_STAT i, 31, 31⟩
def SUP_RING_STAT_lost (i : Nat) : Field := ⟨R.SUP_RING_STAT i, 15, 0⟩
def SUP_HOLD_lost : Field := ⟨R.SUP_HOLD, 15, 8⟩
def SUP_HOLD_held : Field := ⟨R.SUP_HOLD, 6, 0⟩
def SUP_DROP_count : Field := ⟨R.SUP_DROP, 31, 0⟩
def SUP_SRCMAP_ring (i : Nat) : Field := ⟨R.SUP_SRCMAP i, 31, 0⟩
def SUP_SEV_sev (i : Nat) : Field := ⟨R.SUP_SEV i, 31, 0⟩
def CAL_ADC_gain (i : Nat) : Field := ⟨R.CAL_ADC i, 31, 16⟩
def CAL_ADC_off (i : Nat) : Field := ⟨R.CAL_ADC i, 11, 0⟩
def CAL_ADC_PEND_gain (i : Nat) : Field := ⟨R.CAL_ADC_PEND i, 31, 16⟩
def CAL_ADC_PEND_off (i : Nat) : Field := ⟨R.CAL_ADC_PEND i, 11, 0⟩
end F

/-- The cards of the SYS window (R28). -/
def cardsSys : List Card := [
  ⟨.SYS_ID, 0x40000000, 1, 0x1, 1, 0x1, 0x0, 0x0, 0x0, 0x0, 0x9762000, .por⟩,
  ⟨.SYS_AP_BASE, 0x40001000, 48, 0x10, 4, 0x4, 0x80000FFF, 0x0, 0x0, 0x0, 0x0, .clu⟩,
  ⟨.SYS_CLK_STAT, 0x40000010, 1, 0x1, 1, 0x1, 0x0, 0xFFFF0000, 0x0, 0x0, 0x0, .sys⟩,
  ⟨.SYS_CLK_CTL, 0x40000014, 1, 0x1, 1, 0x1, 0x1, 0x2, 0x0, 0x0, 0x0, .sys⟩,
  ⟨.SYS_CDC_STAT, 0x40000018, 1, 0x1, 1, 0x1, 0x0, 0x0, 0x0, 0xFF, 0x0, .sys⟩,
  ⟨.SYS_SEQ_CTL, 0x40003000, 48, 0x10, 1, 0x1, 0x8, 0x10, 0x0, 0x0, 0x0, .sys⟩,
  ⟨.SYS_SEQ_ENTRY, 0x40003004, 48, 0x10, 1, 0x1, 0xFFFFFFFC, 0x0, 0x0, 0x0, 0x0, .sys⟩,
  ⟨.SYS_SEQ_STAT, 0x40003008, 48, 0x10, 1, 0x1, 0x0, 0x0, 0x0, 0x0, 0x1, .sys⟩,
  ⟨.SYS_SEQ_SWI, 0x4000300C, 48, 0x10, 1, 0x1, 0x0, 0x0, 0x0, 0x0, 0x0, .sys⟩,
  ⟨.SYS_IRQMAP, 0x40004000, 48, 0x20, 6, 0x4, 0xFFFFFFFF, 0x0, 0x0, 0x0, 0xFFFFFFFF, .clu⟩,
  ⟨.SYS_SIG_STAT, 0x40002000, 8, 0x4, 1, 0x1, 0x0, 0x0, 0x0, 0x0, 0x0, .sys⟩,
  ⟨.SYS_SIG_SET, 0x40002020, 8, 0x4, 1, 0x1, 0x0, 0x0, 0x0, 0x0, 0x0, .sys⟩,
  ⟨.SYS_SIG_CLR, 0x40002040, 8, 0x4, 1, 0x1, 0x0, 0x0, 0x0, 0x0, 0x0, .sys⟩,
  ⟨.SYS_RSTCAUSE, 0x40005000, 1, 0x1, 1, 0x1, 0x0, 0xFF, 0x0, 0x0, 0x0, .por⟩,
  ⟨.SYS_RSTCTL, 0x40005004, 1, 0x1, 1, 0x1, 0x0, 0x0, 0x0, 0x0, 0x0, .sys⟩,
  ⟨.SYS_BOOTSTAT, 0x40005008, 1, 0x1, 1, 0x1, 0x0, 0x0, 0x0, 0x0, 0x0, .sys⟩,
  ⟨.SYS_BOOTCMD, 0x4000500C, 1, 0x1, 1, 0x1, 0x1FFFFFFF, 0x0, 0x0, 0x0, 0x0, .sys⟩,
  ⟨.SYS_BOOTALARM, 0x40005010, 1, 0x1, 1, 0x1, 0x0, 0x0, 0x0, 0x0, 0x0, .sys⟩,
  ⟨.SYS_BOOTTIME, 0x40005014, 1, 0x1, 1, 0x1, 0x0, 0x0, 0x0, 0x0, 0x0, .sys⟩,
  ⟨.SYS_RTCNT, 0x40005060, 1, 0x1, 1, 0x1, 0x0, 0x0, 0x0, 0x0, 0x0, .sys⟩,
  ⟨.SYS_RLOAD, 0x40005064, 1, 0x1, 1, 0x1, 0x3F, 0x20000000, 0x0, 0x0, 0x0, .sys⟩,
  ⟨.SYS_SUPSTAT, 0x40006000, 1, 0x1, 1, 0x1, 0x0, 0x0, 0x0, 0x0, 0x0, .sys⟩,
  ⟨.SYS_SUPSEEN, 0x40006004, 1, 0x1, 1, 0x1, 0x0, 0x7FF, 0x0, 0x0, 0x0, .sys⟩,
  ⟨.SYS_BOOTHASH, 0x40005020, 8, 0x4, 1, 0x1, 0x0, 0x0, 0x0, 0x0, 0x0, .sys⟩,
  ⟨.SYS_RTHASH, 0x40005040, 8, 0x4, 1, 0x1, 0x0, 0x0, 0x0, 0x0, 0x0, .sys⟩]

/-- The cards of the SUP window (R28). -/
def cardsSup : List Card := [
  ⟨.SUP_CFG, 0x40010000, 1, 0x1, 1, 0x1, 0x800F0000, 0x0, 0x0, 0x0, 0x40000, .sys⟩,
  ⟨.SUP_FAULTN, 0x4001000C, 1, 0x1, 1, 0x1, 0x0, 0x10000000, 0x0, 0x0, 0x80000020, .sys⟩,
  ⟨.SUP_GCOND, 0x40010010, 1, 0x1, 1, 0x1, 0x0, 0x0, 0x0, 0x0, 0x0, .sys⟩,
  ⟨.SUP_TOOS, 0x40010040, 12, 0x4, 1, 0x1, 0xFFFFFFFF, 0x0, 0x0, 0x0, 0x0, .sys⟩,
  ⟨.SUP_STAGE, 0x40010088, 2, 0x4, 1, 0x1, 0x0, 0x0, 0x0, 0x0, 0xFFFFFFFF, .sys⟩,
  ⟨.SUP_GUAR, 0x40010090, 1, 0x1, 1, 0x1, 0x0, 0x40, 0x0, 0x0, 0xE, .sys⟩,
  ⟨.SUP_FWG, 0x40012800, 138, 0x4, 1, 0x1, 0x8000003F, 0x0, 0x0, 0x0, 0x0, .sys⟩,
  ⟨.SUP_WDOG, 0x40010004, 1, 0x1, 1, 0x1, 0xFFFF, 0x0, 0x80000000, 0x0, 0x64, .sys⟩,
  ⟨.SUP_WDKICK, 0x40010008, 1, 0x1, 1, 0x1, 0x0, 0x0, 0x0, 0x0, 0x0, .sys⟩,
  ⟨.SUP_UNITSTAT0, 0x40010020, 1, 0x1, 1, 0x1, 0x0, 0x0, 0x0, 0x0, 0x0, .sys⟩,
  ⟨.SUP_UNITSTAT1, 0x40010024, 1, 0x1, 1, 0x1, 0x0, 0x0, 0x0, 0x0, 0x0, .sys⟩,
  ⟨.SUP_STEST, 0x40010080, 1, 0x1, 1, 0x1, 0x0, 0x0, 0x0, 0x0, 0x0, .sys⟩,
  ⟨.SUP_STRES, 0x40010084, 1, 0x1, 1, 0x1, 0x0, 0x3FF0000, 0x0, 0x0, 0x0, .sys⟩,
  ⟨.SUP_HBCFG, 0x40011000, 48, 0x8, 1, 0x1, 0x8000FFFF, 0x0, 0x0, 0x0, 0x64, .sys⟩,
  ⟨.SUP_HB, 0x40011004, 48, 0x8, 1, 0x1, 0x0, 0x0, 0x0, 0x0, 0x0, .sys⟩,
  ⟨.SUP_RING_BASE, 0x40012000, 16, 0x20, 1, 0x1, 0x3FFFE0, 0x0, 0x0, 0x0, 0x0, .sys⟩,
  ⟨.SUP_RING_CFG, 0x40012004, 16, 0x20, 1, 0x1, 0xFFFFFFFF, 0x0, 0x0, 0x0, 0x3F040001, .sys⟩,
  ⟨.SUP_RING_RSV, 0x40012008, 16, 0x20, 1, 0x1, 0xFFFF, 0x0, 0x0, 0x0, 0x0, .sys⟩,
  ⟨.SUP_RING_WR, 0x4001200C, 16, 0x20, 1, 0x1, 0x0, 0x0, 0x0, 0x0, 0x0, .sys⟩,
  ⟨.SUP_RING_RD, 0x40012010, 16, 0x20, 1, 0x1, 0xFFFF, 0x0, 0x0, 0x0, 0x0, .sys⟩,
  ⟨.SUP_RING_STAT, 0x40012014, 16, 0x20, 1, 0x1, 0x0, 0x80000000, 0x0, 0xFFFF, 0x0, .sys⟩,
  ⟨.SUP_HOLD, 0x40012200, 1, 0x1, 1, 0x1, 0x0, 0x0, 0x0, 0xFF00, 0x0, .sys⟩,
  ⟨.SUP_DROP, 0x40012204, 1, 0x1, 1, 0x1, 0x0, 0x0, 0x0, 0xFFFFFFFF, 0x0, .sys⟩,
  ⟨.SUP_SRCMAP, 0x40012400, 32, 0x4, 1, 0x1, 0xFFFFFFFF, 0x0, 0x0, 0x0, 0x0, .sys⟩,
  ⟨.SUP_SEV, 0x40012C00, 64, 0x4, 1, 0x1, 0xFFFFFFFF, 0x0, 0x0, 0x0, 0x0, .sys⟩]

/-- The cards of the FUSE window (R28). -/
def cardsFuse : List Card := [
  ⟨.FUSE_CMD, 0x40020000, 1, 0x1, 1, 0x1, 0x7F007F0F, 0x0, 0x0, 0x0, 0x0, .sys⟩,
  ⟨.FUSE_DATA, 0x40020004, 1, 0x1, 1, 0x1, 0xFFFFFFFF, 0x0, 0x0, 0x0, 0x0, .sys⟩,
  ⟨.FUSE_PSTAT, 0x40020008, 1, 0x1, 1, 0x1, 0x0, 0x0, 0x0, 0x0, 0x0, .sys⟩,
  ⟨.FUSE_VMON, 0x4002000C, 1, 0x1, 1, 0x1, 0x0, 0x0, 0x0, 0x0, 0x0, .sys⟩,
  ⟨.FUSE_INTEGRITY, 0x40020010, 1, 0x1, 1, 0x1, 0x0, 0x0, 0x0, 0x0, 0x0, .sys⟩,
  ⟨.FUSE_BSTAT, 0x40020100, 16, 0x4, 1, 0x1, 0x0, 0x80, 0x0, 0x0, 0x0, .sys⟩,
  ⟨.FUSE_STAGE, 0x40020800, 126, 0x4, 1, 0x1, 0xFFFFFFFF, 0x0, 0x0, 0x0, 0x0, .sys⟩,
  ⟨.FUSE_WIDX, 0x40020014, 1, 0x1, 1, 0x1, 0x7FF, 0x0, 0x0, 0x0, 0x0, .sys⟩,
  ⟨.FUSE_WFLAG, 0x40020018, 1, 0x1, 1, 0x1, 0x0, 0x0, 0x0, 0x0, 0x0, .sys⟩,
  ⟨.FUSE_SH, 0x40021000, 16, 0x200, 128, 0x4, 0x0, 0x0, 0x0, 0x0, 0x0, .sys⟩]

/-- The cards of the AXIS window (R28). -/
def cardsAxis : List Card := [
  ⟨.AX_CFG, 0x40030000, 8, 0x100, 1, 0x1, 0x877FFFF3, 0x0, 0x0, 0x0, 0x1320, .sys⟩,
  ⟨.AX_LULL, 0x40030004, 8, 0x100, 1, 0x1, 0xFFFFFF0F, 0x0, 0x0, 0x0, 0xFA000102, .sys⟩,
  ⟨.AX_ZCTL, 0x40030008, 8, 0x100, 1, 0x1, 0x3B, 0x0, 0x80000000, 0x0, 0x0, .sys⟩,
  ⟨.AX_ZLOAD, 0x4003000C, 8, 0x100, 1, 0x1, 0xFFFFFFFF, 0x0, 0x0, 0x0, 0x0, .sys⟩,
  ⟨.AX_POS, 0x40030010, 8, 0x100, 1, 0x1, 0x0, 0x0, 0x0, 0x0, 0x0, .sys⟩,
  ⟨.AX_IPOS, 0x40030014, 8, 0x100, 1, 0x1, 0x0, 0x0, 0x0, 0x0, 0x0, .sys⟩,
  ⟨.AX_STATE, 0x40030018, 8, 0x100, 1, 0x1, 0x0, 0x0, 0x0, 0x0, 0x0, .sys⟩,
  ⟨.AX_SPEED, 0x4003001C, 8, 0x100, 1, 0x1, 0x0, 0x0, 0x0, 0x0, 0x0, .sys⟩,
  ⟨.AX_TS, 0x40030020, 8, 0x100, 1, 0x1, 0x0, 0x0, 0x0, 0x0, 0x0, .sys⟩,
  ⟨.AX_SILLF, 0x40030024, 8, 0x100, 1, 0x1, 0x0, 0x0, 0x0, 0x0, 0x0, .sys⟩,
  ⟨.AX_SILLR, 0x40030028, 8, 0x100, 1, 0x1, 0x0, 0x0, 0x0, 0x0, 0x0, .sys⟩,
  ⟨.AX_SKEW, 0x4003002C, 8, 0x100, 1, 0x1, 0x0, 0x0, 0x0, 0x0, 0x0, .sys⟩,
  ⟨.AX_ZCAP, 0x40030030, 8, 0x100, 1, 0x1, 0x0, 0x0, 0x0, 0x0, 0x0, .sys⟩,
  ⟨.AX_ERRCNT, 0x40030034, 8, 0x100, 1, 0x1, 0x0, 0x0, 0x0, 0x0, 0x0, .sys⟩,
  ⟨.AX_STAT, 0x40030040, 8, 0x100, 1, 0x1, 0x0, 0xFFF, 0x0, 0x0, 0x0, .sys⟩,
  ⟨.AX_IEN, 0x40030044, 8, 0x100, 1, 0x1, 0xFFF, 0x0, 0x0, 0x0, 0x0, .sys⟩,
  ⟨.AX_POSSET, 0x40030048, 8, 0x100, 1, 0x1, 0x0, 0x0, 0x0, 0x0, 0x0, .sys⟩,
  ⟨.AX_SKEWCFG, 0x4003004C, 8, 0x100, 1, 0x1, 0xFFFFFFFF, 0x0, 0x0, 0x0, 0x0, .sys⟩,
  ⟨.AX_VRATE, 0x40030050, 8, 0x100, 1, 0x1, 0xFFFFFFFF, 0x0, 0x0, 0x0, 0x0, .sys⟩,
  ⟨.SE_CFG, 0x40030800, 2, 0x40, 1, 0x1, 0x1F1FDF03, 0x0, 0x0, 0x0, 0x1700, .sys⟩,
  ⟨.SE_CLK, 0x40030804, 2, 0x40, 1, 0x1, 0x7FF, 0x0, 0x0, 0x0, 0x7A0, .sys⟩,
  ⟨.SE_CYC, 0x40030808, 2, 0x40, 1, 0x1, 0xFFFFF, 0x0, 0x0, 0x0, 0x9897, .sys⟩,
  ⟨.SE_TIM, 0x4003080C, 2, 0x40, 1, 0x1, 0xFFFFFF00, 0x0, 0x0, 0x0, 0x0, .sys⟩,
  ⟨.SE_LIM, 0x40030810, 2, 0x40, 1, 0x1, 0xFFFFFFFF, 0x0, 0x0, 0x0, 0x40003D09, .sys⟩,
  ⟨.SE_RAW, 0x40030814, 2, 0x40, 1, 0x1, 0x0, 0x0, 0x0, 0x0, 0x0, .sys⟩,
  ⟨.SE_MEAS, 0x40030818, 2, 0x40, 1, 0x1, 0x0, 0x0, 0x0, 0x0, 0x0, .sys⟩,
  ⟨.SE_STAT, 0x4003081C, 2, 0x40, 1, 0x1, 0x0, 0xFF, 0x0, 0x0, 0x0, .sys⟩,
  ⟨.EO_CFG, 0x40030900, 2, 0x20, 1, 0x1, 0x870103FF, 0x0, 0x0, 0x0, 0x27, .sys⟩,
  ⟨.EO_RATIO, 0x40030904, 2, 0x20, 1, 0x1, 0xFFFFFFFF, 0x0, 0x0, 0x0, 0x10001, .sys⟩,
  ⟨.EO_POS, 0x40030908, 2, 0x20, 1, 0x1, 0x0, 0x0, 0x0, 0x0, 0x0, .sys⟩,
  ⟨.EO_PEND, 0x4003090C, 2, 0x20, 1, 0x1, 0x0, 0x0, 0x0, 0x0, 0x0, .sys⟩,
  ⟨.EO_STAT, 0x40030910, 2, 0x20, 1, 0x1, 0x0, 0x3, 0x0, 0x0, 0x0, .sys⟩,
  ⟨.QE_CFG, 0x40030A00, 8, 0x4, 1, 0x1, 0xF, 0x0, 0x0, 0x0, 0x0, .sys⟩,
  ⟨.AXIS_FT, 0x40030C00, 1, 0x1, 1, 0x1, 0x0, 0x0, 0x0, 0x0, 0x0, .sys⟩,
  ⟨.AXIS_TILEW, 0x40031000, 192, 0x4, 1, 0x1, 0xFFFFFFFF, 0x0, 0x0, 0x0, 0x0, .sys⟩]

/-- The cards of the FIRE window (R28). -/
def cardsFire : List Card := [
  ⟨.BAR_CFG, 0x40040000, 8, 0x40, 1, 0x1, 0x87000000, 0x0, 0x0, 0x0, 0x0, .sys⟩,
  ⟨.BAR_PITCH, 0x40040004, 8, 0x40, 1, 0x1, 0xFFFFFFFF, 0x0, 0x0, 0x0, 0x0, .sys⟩,
  ⟨.BAR_REF, 0x40040008, 8, 0x40, 1, 0x1, 0xFFFFFFFF, 0x0, 0x0, 0x0, 0x0, .sys⟩,
  ⟨.BAR_ALIGN, 0x4004000C, 8, 0x40, 1, 0x1, 0xFFFFFFFF, 0x0, 0x0, 0x0, 0x0, .sys⟩,
  ⟨.BAR_VFLOOR, 0x40040010, 8, 0x40, 1, 0x1, 0xFFFFFFFF, 0x0, 0x0, 0x0, 0x6400, .sys⟩,
  ⟨.BAR_LATE, 0x40040014, 8, 0x40, 1, 0x1, 0x0, 0x0, 0x0, 0x0, 0x0, .sys⟩,
  ⟨.BAR_STAT, 0x40040018, 8, 0x40, 1, 0x1, 0x0, 0x3, 0x0, 0x0, 0x0, .sys⟩,
  ⟨.FIRE_EQ, 0x40040400, 1, 0x1, 1, 0x1, 0x1FFF, 0x80000000, 0x0, 0x0, 0x3E8, .sys⟩,
  ⟨.FIRE_TILE_CFG, 0x40044000, 384, 0x10, 1, 0x1, 0x87000000, 0x0, 0x0, 0x0, 0x0, .sys⟩,
  ⟨.FIRE_TILE_GEO, 0x40044004, 384, 0x10, 1, 0x1, 0xFFFFFFFF, 0x0, 0x0, 0x0, 0x0, .sys⟩,
  ⟨.FIRE_TILE_ROW01, 0x40044008, 384, 0x10, 1, 0x1, 0xFFFFFFFF, 0x0, 0x0, 0x0, 0x0, .sys⟩,
  ⟨.FIRE_TILE_ROW23, 0x4004400C, 384, 0x10, 1, 0x1, 0xFFFFFFFF, 0x0, 0x0, 0x0, 0x0, .sys⟩,
  ⟨.BAR_BREEZE, 0x4004001C, 8, 0x40, 1, 0x1, 0xC0FFFFFF, 0x0, 0x0, 0x0, 0x40006460, .sys⟩,
  ⟨.BAR_TCP, 0x40040800, 8, 0x40, 8, 0x4, 0xFFFFFFFF, 0x0, 0x0, 0x0, 0x4000, .sys⟩,
  ⟨.FIRE_RANK, 0x40040C00, 16, 0x4, 1, 0x1, 0xFFFF, 0x0, 0x0, 0x0, 0x4000, .sys⟩,
  ⟨.FIRE_WVCFG, 0x40040C40, 1, 0x1, 1, 0x1, 0x8000FFFF, 0x10000, 0x0, 0x0, 0x5000, .sys⟩,
  ⟨.SHUT_MODE, 0x40042000, 1, 0x1, 1, 0x1, 0x3, 0x4, 0x0, 0x0, 0x0, .sys⟩,
  ⟨.SHUT_GSTAT, 0x40042004, 1, 0x1, 1, 0x1, 0x0, 0x0, 0x0, 0x0, 0x80000001, .sys⟩,
  ⟨.SHUT_B_STAT, 0x40042100, 8, 0x10, 1, 0x1, 0x0, 0x0, 0x0, 0x0, 0x80000001, .sys⟩,
  ⟨.SHUT_GCOND, 0x40042008, 1, 0x1, 1, 0x1, 0x0, 0x0, 0x0, 0x0, 0x0, .sys⟩,
  ⟨.SHUT_B_COND, 0x40042104, 8, 0x10, 1, 0x1, 0x0, 0x0, 0x0, 0x0, 0x0, .sys⟩,
  ⟨.SHUT_GCMD, 0x4004200C, 1, 0x1, 1, 0x1, 0x0, 0x0, 0x0, 0x0, 0x0, .sys⟩,
  ⟨.SHUT_B_CMD, 0x40042108, 8, 0x10, 1, 0x1, 0x0, 0x0, 0x0, 0x0, 0x0, .sys⟩,
  ⟨.SHUT_GERR, 0x40042010, 1, 0x1, 1, 0x1, 0x0, 0x80000000, 0x0, 0x0, 0x0, .sys⟩,
  ⟨.SHUT_B_ERR, 0x4004210C, 8, 0x10, 1, 0x1, 0x0, 0x80000000, 0x0, 0x0, 0x0, .sys⟩,
  ⟨.SHUT_T, 0x40042800, 384, 0x4, 1, 0x1, 0x0, 0x0, 0x0, 0x0, 0x80000001, .sys⟩,
  ⟨.SHUT_TCMD, 0x40042E00, 1, 0x1, 1, 0x1, 0x0, 0x0, 0x0, 0x0, 0x0, .sys⟩,
  ⟨.SHUT_TERR, 0x40042E04, 1, 0x1, 1, 0x1, 0x0, 0x80000000, 0x0, 0x0, 0x0, .sys⟩]

/-- The cards of the LINK window (R28). -/
def cardsLink : List Card := [
  ⟨.LANE_SCHED, 0x40050400, 24, 0x800, 1, 0x1, 0x80000000, 0x0, 0x0, 0x0, 0x0, .sys⟩,
  ⟨.LANE_COMMIT, 0x40050404, 24, 0x800, 1, 0x1, 0xFFFF, 0x0, 0x0, 0x0, 0xFA0, .sys⟩,
  ⟨.LANE_QSTAT, 0x40050408, 24, 0x800, 1, 0x1, 0x0, 0x0, 0x0, 0x7F0000, 0x0, .sys⟩,
  ⟨.LANE_SCHSTAT, 0x4005040C, 24, 0x800, 1, 0x1, 0x0, 0xFF, 0x0, 0x0, 0x0, .sys⟩,
  ⟨.LANE_SCHIEN, 0x40050410, 24, 0x800, 1, 0x1, 0xFF, 0x0, 0x0, 0x0, 0x0, .sys⟩,
  ⟨.LANE_CTL, 0x40050000, 24, 0x800, 1, 0x1, 0xEFFF0000, 0x0, 0x10000000, 0x0, 0x23190000, .sys⟩,
  ⟨.LANE_STATE, 0x40050004, 24, 0x800, 1, 0x1, 0x0, 0x0, 0x0, 0x0, 0x0, .sys⟩,
  ⟨.LANE_RINGCFG, 0x40050008, 24, 0x800, 1, 0x1, 0xFFFFFFFF, 0x0, 0x0, 0x0, 0x0, .sys⟩,
  ⟨.LANE_RINGL, 0x4005000C, 24, 0x800, 1, 0x1, 0x0, 0x0, 0x0, 0x0, 0x0, .sys⟩,
  ⟨.LANE_PRES, 0x40050010, 24, 0x800, 1, 0x1, 0x0, 0x0, 0x0, 0x0, 0x0, .sys⟩,
  ⟨.LANE_EXCL, 0x40050014, 24, 0x800, 1, 0x1, 0x0, 0x0, 0x0, 0x0, 0x0, .sys⟩,
  ⟨.LANE_OPEN, 0x40050018, 24, 0x800, 1, 0x1, 0xFFFF, 0x0, 0x0, 0x0, 0x0, .sys⟩,
  ⟨.LANE_LSTAT, 0x4005001C, 24, 0x800, 1, 0x1, 0x0, 0xFFF, 0x0, 0x0, 0x0, .sys⟩,
  ⟨.LANE_LIEN, 0x40050020, 24, 0x800, 1, 0x1, 0x7FF, 0x0, 0x0, 0x0, 0x0, .sys⟩,
  ⟨.LANE_SBCFG, 0x40050024, 24, 0x800, 1, 0x1, 0x8FFF0001, 0x0, 0x0, 0x0, 0x5200001, .sys⟩,
  ⟨.LANE_SBSTALE, 0x40050028, 24, 0x800, 1, 0x1, 0x0, 0x0, 0x0, 0x0, 0x0, .sys⟩,
  ⟨.LANE_DLY, 0x40050040, 24, 0x800, 16, 0x4, 0x0, 0x0, 0x0, 0x0, 0x0, .sys⟩,
  ⟨.LANE_TEMP, 0x40050080, 24, 0x800, 16, 0x4, 0x0, 0x0, 0x0, 0x0, 0x80008000, .sys⟩,
  ⟨.LANE_SBCMD, 0x40050180, 24, 0x800, 1, 0x1, 0xF80FF7F, 0x60000000, 0x0, 0x0, 0x0, .sys⟩,
  ⟨.LANE_SBDATA, 0x40050184, 24, 0x800, 4, 0x4, 0xFFFFFFFF, 0x0, 0x0, 0x0, 0x0, .sys⟩,
  ⟨.LANE_MGCMD, 0x400501A0, 24, 0x800, 1, 0x1, 0xF3FFFF, 0x0, 0x0, 0x0, 0x0, .sys⟩,
  ⟨.LANE_MGLEN, 0x400501A4, 24, 0x800, 1, 0x1, 0x7F, 0x0, 0x0, 0x0, 0x1, .sys⟩,
  ⟨.LANE_MGDATA, 0x400501C0, 24, 0x800, 16, 0x4, 0xFFFFFFFF, 0x0, 0x0, 0x0, 0x0, .sys⟩,
  ⟨.LANE_WVCMD, 0x40050480, 24, 0x800, 1, 0x1, 0x2700FFFF, 0x10000000, 0x0, 0x0, 0x0, .sys⟩,
  ⟨.LANE_WVSRC, 0x40050484, 24, 0x800, 1, 0x1, 0xFFFFFFFC, 0x0, 0x0, 0x0, 0x0, .sys⟩,
  ⟨.LANE_WVSTAT, 0x40050488, 24, 0x800, 1, 0x1, 0x0, 0xFFFF0000, 0x0, 0x0, 0x0, .sys⟩,
  ⟨.LANE_SCALE, 0x400504C0, 24, 0x800, 16, 0x4, 0x0, 0x0, 0x0, 0x0, 0x4000, .sys⟩,
  ⟨.LANE_TLIM, 0x40050500, 24, 0x800, 16, 0x8, 0xFFFFFFFF, 0x0, 0x0, 0x0, 0x3C00320, .sys⟩,
  ⟨.LANE_THYS, 0x40050504, 24, 0x800, 16, 0x8, 0xFFFF, 0x0, 0x0, 0x0, 0x30, .sys⟩,
  ⟨.LANE_THOT, 0x40050580, 24, 0x800, 1, 0x1, 0x0, 0x0, 0x0, 0x0, 0x0, .sys⟩,
  ⟨.LANE_STROBES, 0x40050414, 24, 0x800, 1, 0x1, 0x0, 0x0, 0x0, 0x0, 0x0, .sys⟩,
  ⟨.LANE_BLANKS, 0x40050418, 24, 0x800, 1, 0x1, 0x0, 0x0, 0x0, 0x0, 0x0, .sys⟩,
  ⟨.LANE_LATE, 0x4005041C, 24, 0x800, 1, 0x1, 0x0, 0x0, 0x0, 0x0, 0x0, .sys⟩,
  ⟨.LANE_UNDELIV, 0x40050420, 24, 0x800, 1, 0x1, 0x0, 0x0, 0x0, 0x0, 0x0, .sys⟩,
  ⟨.LANE_MISSED, 0x40050424, 24, 0x800, 1, 0x1, 0x0, 0x0, 0x0, 0x0, 0x0, .sys⟩,
  ⟨.LANE_SLIP, 0x40050428, 24, 0x800, 1, 0x1, 0x0, 0x0, 0x0, 0x0, 0x0, .sys⟩,
  ⟨.LANE_UNCONF, 0x4005042C, 24, 0x800, 1, 0x1, 0x0, 0x0, 0x0, 0x0, 0x0, .sys⟩,
  ⟨.LANE_UNCONF_FIRST, 0x40050430, 24, 0x800, 1, 0x1, 0x0, 0x0, 0x0, 0x0, 0x0, .sys⟩,
  ⟨.LANE_UNCONF_LAST, 0x40050434, 24, 0x800, 1, 0x1, 0x0, 0x0, 0x0, 0x0, 0x0, .sys⟩,
  ⟨.LANE_BLKERR, 0x40050200, 24, 0x800, 1, 0x1, 0x0, 0x0, 0x0, 0x0, 0x0, .sys⟩]
def cardsLink2 : List Card := [
  ⟨.LANE_RETX, 0x40050204, 24, 0x800, 1, 0x1, 0x0, 0x0, 0x0, 0x0, 0x0, .sys⟩,
  ⟨.LANE_SCERR, 0x40050208, 24, 0x800, 1, 0x1, 0x0, 0x0, 0x0, 0x0, 0x0, .sys⟩,
  ⟨.LANE_UPERR, 0x4005020C, 24, 0x800, 1, 0x1, 0x0, 0x0, 0x0, 0x0, 0x0, .sys⟩,
  ⟨.LANE_NOFILL, 0x40050210, 24, 0x800, 1, 0x1, 0x0, 0x0, 0x0, 0x0, 0x0, .sys⟩,
  ⟨.LANE_STATTO, 0x40050214, 24, 0x800, 1, 0x1, 0x0, 0x0, 0x0, 0x0, 0x0, .sys⟩,
  ⟨.LANE_TSN, 0x40050100, 24, 0x800, 32, 0x4, 0x0, 0x0, 0x0, 0x0, 0x0, .por⟩]

/-- The cards of the HEALTH window (R28). -/
def cardsHealth : List Card := [
  ⟨.HEALTH_ECFG, 0x40060000, 1, 0x1, 1, 0x1, 0x80000700, 0x0, 0x0, 0x0, 0x200, .sys⟩,
  ⟨.HEALTH_ECSTAT, 0x40060004, 1, 0x1, 1, 0x1, 0x0, 0x1C, 0x0, 0x0, 0x0, .sys⟩,
  ⟨.HEALTH_ECLANE, 0x40060008, 1, 0x1, 1, 0x1, 0xFFFFFF, 0x0, 0x0, 0x0, 0x0, .sys⟩,
  ⟨.HEALTH_MWIDX, 0x40060020, 2, 0x10, 1, 0x1, 0xFFFFF, 0x0, 0x0, 0x0, 0x0, .sys⟩,
  ⟨.HEALTH_MWMASK, 0x40060024, 2, 0x10, 1, 0x1, 0xFFFFFFFF, 0x0, 0x0, 0x0, 0x0, .sys⟩,
  ⟨.HEALTH_MWDATA, 0x40060028, 2, 0x10, 1, 0x1, 0x0, 0x0, 0x0, 0x0, 0x0, .sys⟩,
  ⟨.HEALTH_MWSTAT, 0x4006002C, 2, 0x10, 1, 0x1, 0x0, 0x1, 0x0, 0x0, 0x0, .sys⟩,
  ⟨.HEALTH_TCLS, 0x40060100, 48, 0x4, 1, 0x1, 0xFFFFFFFF, 0x0, 0x0, 0x0, 0x0, .sys⟩,
  ⟨.HEALTH_TPUSH, 0x40060200, 24, 0x4, 1, 0x1, 0x0, 0x60000000, 0x0, 0x0, 0x0, .sys⟩,
  ⟨.HEALTH_GOV_CFG, 0x40060400, 24, 0x20, 1, 0x1, 0x87000FFF, 0x0, 0x0, 0x0, 0x82000FFF, .sys⟩,
  ⟨.HEALTH_GOV_EMAX, 0x40060404, 24, 0x20, 1, 0x1, 0xFFFFFFFF, 0x0, 0x0, 0x0, 0xFFFFFFFF, .sys⟩,
  ⟨.HEALTH_GOV_EW0, 0x40060408, 24, 0x20, 1, 0x1, 0xFFFFFFFF, 0x0, 0x0, 0x0, 0x4030201, .sys⟩,
  ⟨.HEALTH_GOV_EW1, 0x4006040C, 24, 0x20, 1, 0x1, 0xFFFFFF, 0x0, 0x0, 0x0, 0x70605, .sys⟩,
  ⟨.HEALTH_GOV_SUPN, 0x40060410, 24, 0x20, 1, 0x1, 0x0, 0x0, 0x0, 0xFFFFFFFF, 0x0, .sys⟩,
  ⟨.HEALTH_GOV_SUPE, 0x40060414, 24, 0x20, 1, 0x1, 0x0, 0x0, 0x0, 0xFFFFFFFF, 0x0, .sys⟩,
  ⟨.HEALTH_GOV_STAT, 0x40060418, 24, 0x20, 1, 0x1, 0x0, 0x3FFFF, 0x0, 0x0, 0x0, .sys⟩,
  ⟨.OG_CFG, 0x40060800, 2, 0x40, 1, 0x1, 0xFFFC03FF, 0x0, 0x0, 0x0, 0x200, .sys⟩,
  ⟨.OG_WSTART, 0x40060804, 2, 0x40, 1, 0x1, 0xFFFFF, 0x0, 0x0, 0x0, 0x0, .sys⟩,
  ⟨.OG_WLEN, 0x40060808, 2, 0x40, 1, 0x1, 0xFFFFF, 0x0, 0x0, 0x0, 0xFA0, .sys⟩,
  ⟨.OG_RESA, 0x4006080C, 2, 0x40, 1, 0x1, 0x0, 0x0, 0x0, 0xC0FF1F0F, 0x0, .sys⟩,
  ⟨.OG_RESB, 0x40060810, 2, 0x40, 1, 0x1, 0x0, 0x0, 0x0, 0x0, 0x0, .sys⟩,
  ⟨.OG_STAT, 0x40060814, 2, 0x40, 1, 0x1, 0x0, 0x300, 0x0, 0x0, 0x0, .sys⟩,
  ⟨.OG_BASE, 0x40060818, 2, 0x40, 1, 0x1, 0x0, 0x0, 0x0, 0x0, 0x0, .sys⟩,
  ⟨.HEALTH_ECTESTF, 0x40060C00, 1, 0x1, 1, 0x1, 0xFFFFFFFF, 0x0, 0x0, 0x0, 0x0, .sys⟩,
  ⟨.HEALTH_ECTEST, 0x40060C04, 1, 0x1, 1, 0x1, 0xF300FF, 0x0, 0x0, 0x0, 0x0, .sys⟩,
  ⟨.HEALTH_ECUPD, 0x4006000C, 1, 0x1, 1, 0x1, 0x0, 0x0, 0x0, 0xFFFFFFFF, 0x0, .sys⟩,
  ⟨.HEALTH_ECLOST, 0x40060010, 1, 0x1, 1, 0x1, 0x0, 0x0, 0x0, 0xFFFFFFFF, 0x0, .sys⟩,
  ⟨.HEALTH_ECTRANS, 0x40060014, 1, 0x1, 1, 0x1, 0x0, 0x0, 0x0, 0xFFFFFFFF, 0x0, .sys⟩]

/-- The cards of the RC window (R28). -/
def cardsRc : List Card := [
  ⟨.RC_LAHEAD, 0x40070000, 8, 0x4, 1, 0x1, 0x1FFF, 0x0, 0x0, 0x0, 0x40, .sys⟩,
  ⟨.RC_CTL, 0x40070100, 16, 0x20, 1, 0x1, 0x0, 0x0, 0x1, 0x0, 0x0, .clu⟩,
  ⟨.RC_STAT, 0x40070104, 16, 0x20, 1, 0x1, 0x0, 0x3, 0x0, 0x0, 0x0, .clu⟩,
  ⟨.RC_RESCNT, 0x40070108, 16, 0x20, 1, 0x1, 0x0, 0x0, 0x0, 0x0, 0x0, .clu⟩,
  ⟨.RC_VCYC, 0x4007010C, 16, 0x20, 1, 0x1, 0x0, 0x0, 0x0, 0xFFFFFFFF, 0x0, .clu⟩,
  ⟨.RC_NMWAIT, 0x40070110, 16, 0x20, 1, 0x1, 0x0, 0x0, 0x0, 0xFFFFFFFF, 0x0, .clu⟩,
  ⟨.RC_TBUF, 0x40070114, 16, 0x20, 1, 0x1, 0x0, 0x0, 0x0, 0x0, 0x0, .clu⟩]

/-- The cards of the MOT window (R28). -/
def cardsMot : List Card := [
  ⟨.MOT_CFG, 0x40080000, 2, 0x100, 1, 0x1, 0xFFFFC0FF, 0x0, 0x0, 0x0, 0x10040, .sys⟩,
  ⟨.MOT_PWM, 0x40080004, 2, 0x100, 1, 0x1, 0xFFFFFFFF, 0x0, 0x0, 0x0, 0x27102800, .sys⟩,
  ⟨.MOT_CMD, 0x40080008, 2, 0x100, 1, 0x1, 0x0, 0x0, 0x0, 0x0, 0x0, .sys⟩,
  ⟨.MOT_STATE, 0x4008000C, 2, 0x100, 1, 0x1, 0x0, 0x0, 0x0, 0x0, 0x0, .sys⟩,
  ⟨.MOT_ANG, 0x40080030, 2, 0x100, 1, 0x1, 0x0, 0x0, 0x0, 0x0, 0xFFFF0000, .sys⟩,
  ⟨.MOT_SPD, 0x40080034, 2, 0x100, 1, 0x1, 0x0, 0x0, 0x0, 0x0, 0x0, .sys⟩,
  ⟨.MOT_RATED, 0x40080040, 2, 0x100, 1, 0x1, 0xFFFFFFFF, 0x0, 0x0, 0x0, 0xC800, .sys⟩,
  ⟨.MOT_SPDLIM, 0x40080044, 2, 0x100, 1, 0x1, 0x3FF03FF, 0x0, 0x0, 0x0, 0x320064, .sys⟩,
  ⟨.MOT_OBS, 0x40080048, 2, 0x100, 1, 0x1, 0xFFFFFFFF, 0x0, 0x0, 0x0, 0x20001000, .sys⟩,
  ⟨.MOT_OBSRL, 0x4008004C, 2, 0x100, 1, 0x1, 0xFFFFFFFF, 0x0, 0x0, 0x0, 0x0, .sys⟩,
  ⟨.MOT_HFI, 0x40080050, 2, 0x100, 1, 0x1, 0xFFF000FF, 0x0, 0x0, 0x0, 0x3E800032, .sys⟩,
  ⟨.MOT_START, 0x40080054, 2, 0x100, 1, 0x1, 0xFFFFFFFF, 0x0, 0x0, 0x0, 0x1F41555, .sys⟩,
  ⟨.MOT_BUS, 0x40080058, 2, 0x100, 1, 0x1, 0xFFF0FFF, 0x0, 0x0, 0x0, 0xFFF0FFF, .sys⟩,
  ⟨.MOT_TRIP, 0x40080060, 2, 0x100, 1, 0x1, 0x3FFF, 0x0, 0x0, 0x0, 0x400, .sys⟩,
  ⟨.MOT_FCAUSE, 0x4008006C, 2, 0x100, 1, 0x1, 0x0, 0x1FE, 0x0, 0x0, 0x0, .sys⟩,
  ⟨.MOT_CNT, 0x40080070, 2, 0x100, 1, 0x1, 0x0, 0x0, 0x0, 0xFFFFFFFF, 0x0, .sys⟩,
  ⟨.MOT_DUTY0, 0x40080010, 2, 0x100, 1, 0x1, 0xFFFFFFFF, 0x0, 0x0, 0x0, 0x80008000, .sys⟩,
  ⟨.MOT_DUTY1, 0x40080014, 2, 0x100, 1, 0x1, 0x7FFFF, 0x0, 0x0, 0x0, 0x8000, .sys⟩,
  ⟨.MOT_IAB, 0x40080020, 2, 0x100, 1, 0x1, 0x0, 0x0, 0x0, 0x0, 0x0, .sys⟩,
  ⟨.MOT_ICV, 0x40080024, 2, 0x100, 1, 0x1, 0x0, 0x0, 0x0, 0x0, 0x0, .sys⟩,
  ⟨.MOT_VAB, 0x40080028, 2, 0x100, 1, 0x1, 0x0, 0x0, 0x0, 0x0, 0x0, .sys⟩,
  ⟨.MOT_VC, 0x4008002C, 2, 0x100, 1, 0x1, 0x0, 0x0, 0x0, 0x0, 0x0, .sys⟩,
  ⟨.MOT_SENSE, 0x4008005C, 2, 0x100, 1, 0x1, 0xFFFFFFF0, 0x0, 0x0, 0x0, 0x0, .sys⟩,
  ⟨.MOT_STAT, 0x40080064, 2, 0x100, 1, 0x1, 0x0, 0x1FF, 0x0, 0x0, 0x0, .sys⟩,
  ⟨.MOT_IEN, 0x40080068, 2, 0x100, 1, 0x1, 0x1FF, 0x0, 0x0, 0x0, 0x0, .sys⟩]

/-- The cards of the STEP window (R28). -/
def cardsStep : List Card := [
  ⟨.ST_CFG, 0x40090000, 4, 0x100, 1, 0x1, 0xFFFFF000, 0x0, 0x0, 0x0, 0x888A000, .sys⟩,
  ⟨.ST_CMD, 0x40090004, 4, 0x100, 1, 0x1, 0x0, 0x0, 0x0, 0x0, 0x0, .sys⟩,
  ⟨.ST_STATE, 0x40090008, 4, 0x100, 1, 0x1, 0x0, 0x0, 0x0, 0x0, 0x0, .sys⟩,
  ⟨.ST_QD, 0x40090018, 4, 0x100, 1, 0x1, 0xFFFFFFFF, 0x0, 0x0, 0x0, 0x0, .sys⟩,
  ⟨.ST_QV, 0x4009001C, 4, 0x100, 1, 0x1, 0x0, 0x0, 0x0, 0x0, 0x0, .sys⟩,
  ⟨.ST_QSTAT, 0x40090020, 4, 0x100, 1, 0x1, 0x0, 0x0, 0x0, 0xFFFF0000, 0x0, .sys⟩,
  ⟨.ST_CUR, 0x40090024, 4, 0x100, 1, 0x1, 0x3FF03FF, 0x0, 0x0, 0x0, 0x0, .sys⟩,
  ⟨.ST_STBY, 0x40090028, 4, 0x100, 1, 0x1, 0xFFFF, 0x0, 0x0, 0x0, 0xC8, .sys⟩,
  ⟨.ST_CHOP, 0x4009002C, 4, 0x100, 1, 0x1, 0xFFFFFFFF, 0x0, 0x0, 0x0, 0x20C82850, .sys⟩,
  ⟨.ST_CHOP2, 0x40090030, 4, 0x100, 1, 0x1, 0xFF00FFFF, 0x0, 0x0, 0x0, 0x64004E20, .sys⟩,
  ⟨.ST_OFFS, 0x40090034, 4, 0x100, 1, 0x1, 0x0, 0x0, 0x0, 0x0, 0x0, .sys⟩,
  ⟨.ST_FCAUSE, 0x40090088, 4, 0x100, 1, 0x1, 0x0, 0x3E, 0x0, 0x0, 0x0, .sys⟩,
  ⟨.STEP_TABLE, 0x40090800, 128, 0x4, 1, 0x1, 0x3FF03FF, 0x0, 0x0, 0x0, 0x0, .sys⟩,
  ⟨.STEP_GSTAT, 0x40090A00, 1, 0x1, 1, 0x1, 0x0, 0x1, 0x0, 0x0, 0x0, .sys⟩,
  ⟨.ST_POS, 0x4009000C, 4, 0x100, 1, 0x1, 0x0, 0x0, 0x0, 0x0, 0x0, .sys⟩,
  ⟨.ST_VEL, 0x40090010, 4, 0x100, 1, 0x1, 0x0, 0x0, 0x0, 0x0, 0x0, .sys⟩,
  ⟨.ST_DEV, 0x40090014, 4, 0x100, 1, 0x1, 0x0, 0x0, 0x0, 0x0, 0x0, .sys⟩,
  ⟨.ST_STALL, 0x40090038, 4, 0x100, 1, 0x1, 0xC700FFFF, 0x0, 0x0, 0x0, 0x40, .sys⟩,
  ⟨.ST_SRATIO, 0x4009003C, 4, 0x100, 1, 0x1, 0xFFFFFFFF, 0x0, 0x0, 0x0, 0x10000, .sys⟩,
  ⟨.ST_PROF0, 0x40090040, 4, 0x100, 4, 0x10, 0xFFFFFFFF, 0x0, 0x0, 0x0, 0x7D007D, .sys⟩,
  ⟨.ST_PROF1, 0x40090044, 4, 0x100, 4, 0x10, 0xFFFF, 0x0, 0x0, 0x0, 0x4E2, .sys⟩,
  ⟨.ST_PROF2, 0x40090048, 4, 0x100, 4, 0x10, 0xFFFFFFFF, 0x0, 0x0, 0x0, 0xF420F42, .sys⟩,
  ⟨.ST_PROF3, 0x4009004C, 4, 0x100, 4, 0x10, 0xFFFFFFFF, 0x0, 0x0, 0x0, 0xF420F42, .sys⟩,
  ⟨.ST_STAT, 0x40090080, 4, 0x100, 1, 0x1, 0x0, 0xFF, 0x0, 0x0, 0x0, .sys⟩,
  ⟨.ST_IEN, 0x40090084, 4, 0x100, 1, 0x1, 0xFF, 0x0, 0x0, 0x0, 0x0, .sys⟩]

/-- The cards of the ANA window (R28). -/
def cardsAna : List Card := [
  ⟨.ANA_CMP, 0x400A0000, 8, 0x4, 1, 0x1, 0xF00003FF, 0x0, 0x0, 0x0, 0x3FF, .sys⟩,
  ⟨.ANA_CMPSTAT, 0x400A0020, 1, 0x1, 1, 0x1, 0x0, 0xFF00, 0x0, 0x0, 0x0, .sys⟩,
  ⟨.ANA_SCAN, 0x400A0040, 1, 0x1, 1, 0x1, 0xFF00FFFF, 0x0, 0x0, 0x0, 0x64000000, .sys⟩,
  ⟨.ANA_AIN, 0x400A0100, 16, 0x4, 1, 0x1, 0x0, 0x0, 0x0, 0x0, 0x80000000, .sys⟩]

/-- The cards of the GUST window (R28). -/
def cardsGust : List Card := [
  ⟨.GUST_CH_CTL, 0x400B0000, 40, 0x40, 1, 0x1, 0x0, 0x10000000, 0x0, 0x0, 0x0, .sys⟩,
  ⟨.GUST_CH_CFG, 0x400B0004, 40, 0x40, 1, 0x1, 0x7F000703, 0x0, 0x0, 0x0, 0x0, .sys⟩,
  ⟨.GUST_CH_STAT, 0x400B0010, 40, 0x40, 1, 0x1, 0x0, 0x0, 0x0, 0x0, 0x0, .sys⟩,
  ⟨.GUST_CH_RES, 0x400B0014, 40, 0x40, 1, 0x1, 0x0, 0x0, 0x0, 0x0, 0x0, .sys⟩,
  ⟨.GUST_CH_LRES, 0x400B0018, 40, 0x40, 1, 0x1, 0x0, 0x0, 0x0, 0x0, 0x0, .sys⟩,
  ⟨.GUST_CH_CRC, 0x400B0024, 40, 0x40, 1, 0x1, 0x0, 0x0, 0x0, 0x0, 0x0, .sys⟩,
  ⟨.GUST_CH_SEQ, 0x400B0028, 40, 0x40, 1, 0x1, 0x0, 0x0, 0x0, 0x0, 0x0, .sys⟩,
  ⟨.GUST_CH_BYTES, 0x400B002C, 40, 0x40, 1, 0x1, 0x0, 0x0, 0x0, 0xFFFFFFFF, 0x0, .sys⟩,
  ⟨.GUST_RING_SIZE, 0x400B1008, 8, 0x20, 1, 0x1, 0x8000000F, 0x0, 0x0, 0x0, 0x0, .sys⟩,
  ⟨.GUST_RING_WR, 0x400B100C, 8, 0x20, 1, 0x1, 0x0, 0x0, 0x0, 0x0, 0x0, .sys⟩,
  ⟨.GUST_RING_RD, 0x400B1010, 8, 0x20, 1, 0x1, 0xFFFF, 0x0, 0x0, 0x0, 0x0, .sys⟩,
  ⟨.GUST_RING_STAT, 0x400B1014, 8, 0x20, 1, 0x1, 0x0, 0x1, 0x0, 0xFFFF0000, 0x0, .sys⟩,
  ⟨.GUST_GSTAT, 0x400B2000, 1, 0x1, 1, 0x1, 0x0, 0x1, 0x0, 0x0, 0x0, .sys⟩,
  ⟨.GUST_CH_PROGL, 0x400B0008, 40, 0x40, 1, 0x1, 0xFFFFFFE0, 0x0, 0x0, 0x0, 0x0, .sys⟩,
  ⟨.GUST_CH_PROGH, 0x400B000C, 40, 0x40, 1, 0x1, 0xFF, 0x0, 0x0, 0x0, 0x0, .sys⟩,
  ⟨.GUST_CH_FADDRL, 0x400B001C, 40, 0x40, 1, 0x1, 0x0, 0x0, 0x0, 0x0, 0x0, .sys⟩,
  ⟨.GUST_CH_FADDRH, 0x400B0020, 40, 0x40, 1, 0x1, 0x0, 0x0, 0x0, 0x0, 0x0, .sys⟩,
  ⟨.GUST_RING_BASEL, 0x400B1000, 8, 0x20, 1, 0x1, 0xFFFFFFF0, 0x0, 0x0, 0x0, 0x0, .sys⟩,
  ⟨.GUST_RING_BASEH, 0x400B1004, 8, 0x20, 1, 0x1, 0xFF, 0x0, 0x0, 0x0, 0x0, .sys⟩,
  ⟨.GUST_AXCAP, 0x400B2100, 8, 0x10, 1, 0x1, 0x0, 0x0, 0x0, 0x0, 0x0, .sys⟩,
  ⟨.GUST_AXCAP_FT, 0x400B2104, 8, 0x10, 1, 0x1, 0x0, 0x0, 0x0, 0x0, 0x0, .sys⟩,
  ⟨.GUST_AXCAP_CNT, 0x400B2108, 8, 0x10, 1, 0x1, 0x0, 0x0, 0x0, 0xFFFFFFFF, 0x0, .sys⟩]

/-- The cards of the MEM window (R28). -/
def cardsMem : List Card := [
  ⟨.MEM_RGN_BASE, 0x400C0000, 53, 0x100, 16, 0x10, 0xFFFFFFF, 0x0, 0x0, 0x0, 0x0, .sys⟩,
  ⟨.MEM_RGN_LIM, 0x400C0004, 53, 0x100, 16, 0x10, 0xFFFFFFF, 0x0, 0x0, 0x0, 0x0, .sys⟩,
  ⟨.MEM_RGN_CTL, 0x400C0008, 53, 0x100, 16, 0x10, 0xF, 0x0, 0x40000000, 0x0, 0x0, .sys⟩,
  ⟨.MEM_SCRUB, 0x400C8000, 1, 0x1, 1, 0x1, 0x800FFFFF, 0x0, 0x0, 0x0, 0x800FA1F4, .sys⟩,
  ⟨.MEM_SCRSTAT, 0x400C8004, 1, 0x1, 1, 0x1, 0x0, 0x3, 0x0, 0x0, 0x0, .sys⟩,
  ⟨.MEM_ARB, 0x400C8020, 1, 0x1, 1, 0x1, 0xFFFF, 0x0, 0x0, 0x0, 0x1000, .sys⟩,
  ⟨.MEM_MARCH, 0x400C8040, 1, 0x1, 1, 0x1, 0x3C000000, 0x0, 0x0, 0x0, 0x8000000, .sys⟩,
  ⟨.MEM_MTGT, 0x400C8044, 1, 0x1, 1, 0x1, 0x3FF03FF, 0x0, 0x0, 0x0, 0x10000, .sys⟩,
  ⟨.MEM_MRET, 0x400C8048, 1, 0x1, 1, 0x1, 0xFFFF, 0x0, 0x0, 0x0, 0x40, .sys⟩,
  ⟨.MEM_MSTAT, 0x400C804C, 1, 0x1, 1, 0x1, 0x0, 0xE0000000, 0x0, 0x0, 0x0, .sys⟩,
  ⟨.MEM_DSTAT, 0x400C8080, 1, 0x1, 1, 0x1, 0x0, 0x0, 0x0, 0x0, 0x0, .sys⟩,
  ⟨.MEM_CECNT, 0x400C8008, 1, 0x1, 1, 0x1, 0x0, 0x0, 0x0, 0xFFFFFFFF, 0x0, .sys⟩,
  ⟨.MEM_UECNT, 0x400C800C, 1, 0x1, 1, 0x1, 0x0, 0x0, 0x0, 0xFFFFFFFF, 0x0, .sys⟩,
  ⟨.MEM_ELOG0, 0x400C8010, 1, 0x1, 1, 0x1, 0x0, 0x0, 0x0, 0x0, 0x0, .sys⟩,
  ⟨.MEM_ELOG1, 0x400C8014, 1, 0x1, 1, 0x1, 0x0, 0x0, 0x0, 0x0, 0x0, .sys⟩,
  ⟨.MEM_STARVE, 0x400C8024, 1, 0x1, 1, 0x1, 0x0, 0x0, 0x0, 0xFFFFFFFF, 0x0, .sys⟩,
  ⟨.MEM_MFAIL0, 0x400C8050, 1, 0x1, 1, 0x1, 0x0, 0x0, 0x0, 0x0, 0x0, .sys⟩,
  ⟨.MEM_MFAIL1, 0x400C8054, 1, 0x1, 1, 0x1, 0x0, 0x0, 0x0, 0x0, 0x0, .sys⟩,
  ⟨.MEM_RPIDX, 0x400C8060, 1, 0x1, 1, 0x1, 0x3FF, 0x0, 0x0, 0x0, 0x0, .sys⟩,
  ⟨.MEM_RPDATA, 0x400C8064, 1, 0x1, 1, 0x1, 0x0, 0x0, 0x0, 0x0, 0x40, .sys⟩]

/-- The cards of the ETH window (R28). -/
def cardsEth : List Card := [
  ⟨.ETH_CFG, 0x400D0000, 2, 0x1000, 1, 0x1, 0x87303FFF, 0x0, 0x0, 0x0, 0x302400, .sys⟩,
  ⟨.ETH_STAT, 0x400D0004, 2, 0x1000, 1, 0x1, 0x0, 0x7, 0x0, 0x0, 0x0, .sys⟩,
  ⟨.ETH_IEN, 0x400D0008, 2, 0x1000, 1, 0x1, 0x7, 0x0, 0x0, 0x0, 0x0, .sys⟩,
  ⟨.ETH_VLAN, 0x400D000C, 2, 0x1000, 1, 0x1, 0x80007FFF, 0x0, 0x0, 0x0, 0x0, .sys⟩,
  ⟨.ETH_TSADJ, 0x400D0010, 2, 0x1000, 1, 0x1, 0xFFFFFFFF, 0x0, 0x0, 0x0, 0x0, .sys⟩,
  ⟨.ETH_RXBASE, 0x400D0020, 2, 0x1000, 1, 0x1, 0xFFFFFFE0, 0x0, 0x0, 0x0, 0x0, .sys⟩,
  ⟨.ETH_RXRING, 0x400D0024, 2, 0x1000, 1, 0x1, 0x800F00FF, 0x0, 0x0, 0x0, 0x0, .sys⟩,
  ⟨.ETH_RXWR, 0x400D0028, 2, 0x1000, 1, 0x1, 0x0, 0x0, 0x0, 0x0, 0x0, .sys⟩,
  ⟨.ETH_RXRD, 0x400D002C, 2, 0x1000, 1, 0x1, 0xFFFF, 0x0, 0x0, 0x0, 0x0, .sys⟩,
  ⟨.ETH_TXBASE, 0x400D0040, 2, 0x1000, 1, 0x1, 0xFFFFFFE0, 0x0, 0x0, 0x0, 0x0, .sys⟩,
  ⟨.ETH_TXRING, 0x400D0044, 2, 0x1000, 1, 0x1, 0x800F00FF, 0x0, 0x0, 0x0, 0x0, .sys⟩,
  ⟨.ETH_TXWR, 0x400D0048, 2, 0x1000, 1, 0x1, 0xFFFF, 0x0, 0x0, 0x0, 0x0, .sys⟩,
  ⟨.ETH_TXRD, 0x400D004C, 2, 0x1000, 1, 0x1, 0x0, 0x0, 0x0, 0x0, 0x0, .sys⟩,
  ⟨.ETH_MACLO, 0x400D0100, 2, 0x1000, 4, 0x20, 0xFFFFFFFF, 0x0, 0x0, 0x0, 0x0, .sys⟩,
  ⟨.ETH_MACHI, 0x400D0104, 2, 0x1000, 4, 0x20, 0xFFFF, 0x0, 0x0, 0x0, 0x0, .sys⟩,
  ⟨.ETH_IP4, 0x400D0108, 2, 0x1000, 4, 0x20, 0xFFFFFFFF, 0x0, 0x0, 0x0, 0x0, .sys⟩,
  ⟨.ETH_IP6W0, 0x400D010C, 2, 0x1000, 4, 0x20, 0xFFFFFFFF, 0x0, 0x0, 0x0, 0x0, .sys⟩,
  ⟨.ETH_IP6W1, 0x400D0110, 2, 0x1000, 4, 0x20, 0xFFFFFFFF, 0x0, 0x0, 0x0, 0x0, .sys⟩,
  ⟨.ETH_IP6W2, 0x400D0114, 2, 0x1000, 4, 0x20, 0xFFFFFFFF, 0x0, 0x0, 0x0, 0x0, .sys⟩,
  ⟨.ETH_IP6W3, 0x400D0118, 2, 0x1000, 4, 0x20, 0xFFFFFFFF, 0x0, 0x0, 0x0, 0x0, .sys⟩,
  ⟨.ETH_RXFRM, 0x400D0200, 2, 0x1000, 1, 0x1, 0x0, 0x0, 0x0, 0xFFFFFFFF, 0x0, .sys⟩,
  ⟨.ETH_RXBAD, 0x400D0204, 2, 0x1000, 1, 0x1, 0x0, 0x0, 0x0, 0xFFFFFFFF, 0x0, .sys⟩,
  ⟨.ETH_RXDROP, 0x400D0208, 2, 0x1000, 1, 0x1, 0x0, 0x0, 0x0, 0xFFFFFFFF, 0x0, .sys⟩,
  ⟨.ETH_GSPOK, 0x400D020C, 2, 0x1000, 1, 0x1, 0x0, 0x0, 0x0, 0xFFFFFFFF, 0x0, .sys⟩,
  ⟨.ETH_GSPREF, 0x400D0210, 2, 0x1000, 1, 0x1, 0x0, 0x0, 0x0, 0xFFFFFFFF, 0x0, .sys⟩,
  ⟨.ETH_GSPDUP, 0x400D0214, 2, 0x1000, 1, 0x1, 0x0, 0x0, 0x0, 0xFFFFFFFF, 0x0, .sys⟩,
  ⟨.ETH_NACKSUP, 0x400D0218, 2, 0x1000, 1, 0x1, 0x0, 0x0, 0x0, 0xFFFFFFFF, 0x0, .sys⟩,
  ⟨.ETH_PAUSE, 0x400D021C, 2, 0x1000, 1, 0x1, 0x0, 0x0, 0x0, 0xFFFFFFFF, 0x0, .sys⟩,
  ⟨.ETH_TXFRM, 0x400D0220, 2, 0x1000, 1, 0x1, 0x0, 0x0, 0x0, 0xFFFFFFFF, 0x0, .sys⟩,
  ⟨.ETH_GSPCFG, 0x400D2000, 1, 0x1, 1, 0x1, 0x80FFFFFF, 0x0, 0x0, 0x0, 0x10B7FC, .sys⟩,
  ⟨.ETH_GSPTIM, 0x400D2004, 1, 0x1, 1, 0x1, 0xFFFFFFFF, 0x0, 0x0, 0x0, 0x140032, .sys⟩,
  ⟨.GSP_CFG, 0x400D4000, 64, 0x20, 1, 0x1, 0xF0FFFF00, 0x8000000, 0x0, 0x0, 0x0, .sys⟩,
  ⟨.GSP_BASEL, 0x400D4004, 64, 0x20, 1, 0x1, 0xFFFFFFFF, 0x0, 0x0, 0x0, 0x0, .sys⟩,
  ⟨.GSP_BASEH, 0x400D4008, 64, 0x20, 1, 0x1, 0xFF, 0x0, 0x0, 0x0, 0x0, .sys⟩,
  ⟨.GSP_STRIDE, 0x400D400C, 64, 0x20, 1, 0x1, 0xFFFFFFFF, 0x0, 0x0, 0x0, 0x0, .sys⟩,
  ⟨.GSP_GEOM, 0x400D4010, 64, 0x20, 1, 0x1, 0xFFFFFFFF, 0x0, 0x0, 0x0, 0x0, .sys⟩,
  ⟨.GSP_LEN, 0x400D4014, 64, 0x20, 1, 0x1, 0xFFFFFF, 0x0, 0x0, 0x0, 0x0, .sys⟩,
  ⟨.GSP_EXP, 0x400D4018, 64, 0x20, 1, 0x1, 0xFFFFFFFF, 0x0, 0x0, 0x0, 0x0, .sys⟩,
  ⟨.GSP_DONE, 0x400D401C, 64, 0x20, 1, 0x1, 0x0, 0x0, 0x0, 0x0, 0x0, .sys⟩]

/-- The cards of the PCIE window (R28). -/
def cardsPcie : List Card := [
  ⟨.PCIE_WIN, 0x400E0100, 16, 0x4, 1, 0x1, 0x80000FFF, 0x0, 0x0, 0x0, 0x0, .sys⟩,
  ⟨.PCIE_VECMAP, 0x400E0200, 16, 0x4, 1, 0x1, 0xFFFFFFFF, 0x0, 0x0, 0x0, 0xFFFFFFFF, .sys⟩,
  ⟨.PCIE_DBELL, 0x400E0300, 1, 0x1, 1, 0x1, 0x0, 0x0, 0x0, 0x0, 0x0, .sys⟩,
  ⟨.PCIE_STAT, 0x400E0000, 1, 0x1, 1, 0x1, 0x0, 0x7, 0x0, 0x0, 0x0, .sys⟩,
  ⟨.PCIE_IEN, 0x400E0004, 1, 0x1, 1, 0x1, 0x7, 0x0, 0x0, 0x0, 0x0, .sys⟩,
  ⟨.PCIE_UR, 0x400E0400, 1, 0x1, 1, 0x1, 0x0, 0x0, 0x0, 0xFFFFFFFF, 0x0, .sys⟩,
  ⟨.PCIE_CA, 0x400E0404, 1, 0x1, 1, 0x1, 0x0, 0x0, 0x0, 0xFFFFFFFF, 0x0, .sys⟩,
  ⟨.PCIE_WDISC, 0x400E0408, 1, 0x1, 1, 0x1, 0x0, 0x0, 0x0, 0xFFFFFFFF, 0x0, .sys⟩,
  ⟨.PCIE_MSIX, 0x400E8000, 64, 0x10, 4, 0x4, 0xFFFFFFFF, 0x0, 0x0, 0x0, 0x0, .sys⟩,
  ⟨.PCIE_PBA, 0x400E9000, 2, 0x4, 1, 0x1, 0x0, 0x0, 0x0, 0x0, 0x0, .sys⟩]

/-- The cards of the PTP window (R28). -/
def cardsPtp : List Card := [
  ⟨.PTP_NS, 0x400F0000, 1, 0x1, 1, 0x1, 0x0, 0x0, 0x0, 0x0, 0x0, .sys⟩,
  ⟨.PTP_SECL, 0x400F0004, 1, 0x1, 1, 0x1, 0x0, 0x0, 0x0, 0x0, 0x0, .sys⟩,
  ⟨.PTP_SECH, 0x400F0008, 1, 0x1, 1, 0x1, 0x0, 0x0, 0x0, 0x0, 0x0, .sys⟩,
  ⟨.PTP_INCL, 0x400F0010, 1, 0x1, 1, 0x1, 0xFFFFFFFF, 0x0, 0x0, 0x0, 0x0, .sys⟩,
  ⟨.PTP_INCH, 0x400F0014, 1, 0x1, 1, 0x1, 0xFF, 0x0, 0x0, 0x0, 0x4, .sys⟩,
  ⟨.PTP_SETNS, 0x400F0020, 1, 0x1, 1, 0x1, 0x3FFFFFFF, 0x0, 0x0, 0x0, 0x0, .sys⟩,
  ⟨.PTP_SETSECL, 0x400F0024, 1, 0x1, 1, 0x1, 0xFFFFFFFF, 0x0, 0x0, 0x0, 0x0, .sys⟩,
  ⟨.PTP_SETSECH, 0x400F0028, 1, 0x1, 1, 0x1, 0xFFFF, 0x0, 0x0, 0x0, 0x0, .sys⟩,
  ⟨.PTP_ADJ, 0x400F002C, 1, 0x1, 1, 0x1, 0x0, 0x0, 0x0, 0x0, 0x0, .sys⟩,
  ⟨.PTP_STAT, 0x400F0030, 1, 0x1, 1, 0x1, 0x0, 0x0, 0x0, 0x0, 0x0, .sys⟩,
  ⟨.PTP_RATIO, 0x400F0034, 1, 0x1, 1, 0x1, 0x0, 0x0, 0x0, 0x0, 0x0, .sys⟩,
  ⟨.PTP_ALNS, 0x400F0040, 1, 0x1, 1, 0x1, 0x3FFFFFFF, 0x0, 0x0, 0x0, 0x0, .sys⟩,
  ⟨.PTP_ALSECL, 0x400F0044, 1, 0x1, 1, 0x1, 0xFFFFFFFF, 0x0, 0x0, 0x0, 0x0, .sys⟩,
  ⟨.PTP_ALCTL, 0x400F0048, 1, 0x1, 1, 0x1, 0x80FFFFFF, 0x0, 0x0, 0x0, 0x0, .sys⟩,
  ⟨.PTP_PPS, 0x400F0050, 1, 0x1, 1, 0x1, 0x801FFFFF, 0x0, 0x0, 0x0, 0x64, .sys⟩]

/-- The cards of the SEC window (R28). -/
def cardsSec : List Card := [
  ⟨.SEC_LC, 0x40100000, 1, 0x1, 1, 0x1, 0x0, 0x0, 0x0, 0x0, 0x0, .sys⟩,
  ⟨.SEC_CMD, 0x40100004, 1, 0x1, 1, 0x1, 0x7, 0x0, 0x0, 0x0, 0x0, .sys⟩,
  ⟨.SEC_ID, 0x40100080, 4, 0x4, 1, 0x1, 0x0, 0x0, 0x0, 0x0, 0x0, .sys⟩,
  ⟨.SEC_CHAL, 0x40100020, 8, 0x4, 1, 0x1, 0x0, 0x0, 0x0, 0x0, 0x0, .sys⟩,
  ⟨.SEC_DATA, 0x40100040, 8, 0x4, 1, 0x1, 0x0, 0x0, 0x0, 0x0, 0x0, .sys⟩,
  ⟨.SEC_ATT, 0x40100060, 8, 0x4, 1, 0x1, 0x0, 0x0, 0x0, 0x0, 0x0, .sys⟩]

/-- The cards of the SNS window (R28). -/
def cardsSns : List Card := [
  ⟨.SNS_GATE, 0x40110000, 8, 0x4, 1, 0x1, 0xE0FF000F, 0x0, 0x0, 0x0, 0x8, .sys⟩,
  ⟨.SNS_GLVL, 0x40110020, 1, 0x1, 1, 0x1, 0x0, 0x0, 0x0, 0x0, 0x0, .sys⟩,
  ⟨.SNS_GSTAT, 0x40110024, 1, 0x1, 1, 0x1, 0x0, 0x1FF, 0x0, 0x0, 0x0, .sys⟩,
  ⟨.SNS_SHUTN, 0x40110028, 1, 0x1, 1, 0x1, 0x3, 0x0, 0x0, 0x0, 0x0, .sys⟩,
  ⟨.SNS_GPIO_IN, 0x40110100, 1, 0x1, 1, 0x1, 0x0, 0x0, 0x0, 0x0, 0x0, .sys⟩,
  ⟨.SNS_GPIO_OUT, 0x40110104, 1, 0x1, 1, 0x1, 0xFFFFFFFF, 0x0, 0x0, 0x0, 0x0, .sys⟩,
  ⟨.SNS_GPIO_OE, 0x40110108, 1, 0x1, 1, 0x1, 0xFFFFFFFF, 0x0, 0x0, 0x0, 0x0, .sys⟩]

/-- The cards of the CAL window (R28). -/
def cardsCal : List Card := [
  ⟨.CAL_CTL, 0x40120000, 1, 0x1, 1, 0x1, 0xC000FFFF, 0x0, 0x0, 0x0, 0xC000003C, .sys⟩,
  ⟨.CAL_STAT, 0x40120004, 1, 0x1, 1, 0x1, 0x0, 0x700, 0x0, 0x0, 0x0, .sys⟩,
  ⟨.CAL_CMP, 0x40120040, 8, 0x4, 1, 0x1, 0x3F, 0x0, 0x0, 0x0, 0x0, .sys⟩,
  ⟨.CAL_TS, 0x40120080, 4, 0x4, 1, 0x1, 0xFFFF, 0x0, 0x0, 0x0, 0x80000000, .sys⟩,
  ⟨.CAL_TALARM, 0x40120090, 1, 0x1, 1, 0x1, 0xFFFF, 0x0, 0x0, 0x0, 0x690, .sys⟩,
  ⟨.CAL_LANE, 0x40120100, 24, 0x4, 1, 0x1, 0xFF, 0x80000000, 0x0, 0x0, 0x0, .sys⟩,
  ⟨.CAL_TRIMHOLD, 0x40120200, 1, 0x1, 1, 0x1, 0xFFFFFF, 0x0, 0x0, 0x0, 0x0, .sys⟩,
  ⟨.CAL_TCOMMIT, 0x40120204, 1, 0x1, 1, 0x1, 0x20000007, 0x0, 0x0, 0x0, 0x0, .sys⟩,
  ⟨.CAL_ADC, 0x40120010, 2, 0x8, 1, 0x1, 0x0, 0x0, 0x0, 0x0, 0x40000000, .sys⟩,
  ⟨.CAL_ADC_PEND, 0x40120014, 2, 0x8, 1, 0x1, 0x0, 0x0, 0x0, 0x0, 0x40000000, .sys⟩]

/-- The cards of the 64 KiB register window that an address lies in (R28). -/
def windowCards (a : Nat) : List Card :=
  match a / 0x10000 with
  | 0x4000 => cardsSys
  | 0x4001 => cardsSup
  | 0x4002 => cardsFuse
  | 0x4003 => cardsAxis
  | 0x4004 => cardsFire
  | 0x4005 => cardsLink ++ cardsLink2
  | 0x4006 => cardsHealth
  | 0x4007 => cardsRc
  | 0x4008 => cardsMot
  | 0x4009 => cardsStep
  | 0x400A => cardsAna
  | 0x400B => cardsGust
  | 0x400C => cardsMem
  | 0x400D => cardsEth
  | 0x400E => cardsPcie
  | 0x400F => cardsPtp
  | 0x4010 => cardsSec
  | 0x4011 => cardsSns
  | 0x4012 => cardsCal
  | _ => []

/-- The instance indices of address `a` on a card, if the card covers it. -/
def Card.index? (c : Card) (a : Nat) : Option (Nat × Nat) :=
  if a < c.base then none else
    let off := a - c.base
    let i := off / c.s1
    let j := off % c.s1 / c.s2
    if i < c.n1 && j < c.n2 && off == i * c.s1 + j * c.s2 then some (i, j) else none

/-- The first card of a list that covers an address, with the instance indices. -/
def findCard : List Card → Nat → Option (Card × Nat × Nat)
  | [], _ => none
  | c :: cs, a =>
    match c.index? a with
    | some (i, j) => some (c, i, j)
    | none => findCard cs a

/-- The register that an address of the register space holds, if any (R29: any other address holds no register). -/
def cardAt (a : Nat) : Option (Card × Nat × Nat) := findCard (windowCards a) a

end Sys2Proof.Machine
end

