-- ==== Sys2Proof/Machine/Tab.lean ====
section
/-! DEFINITION. Sparse tables: lists of (key, value) pairs with keys strictly rising. Memory, the register file and every
numbered family of units (axes, lanes, tiles, sequencers) are held in one, an unlisted key standing for the unit as it
is after reset. -/

namespace Sys2Proof.Machine

/-- A sparse table, keys strictly rising. -/
abbrev Tab (α : Type) := List (Nat × α)

/-- The entry of a key, if the key is listed. -/
def tabFind {α : Type} : Tab α → Nat → Option α
  | [], _ => none
  | (k, v) :: t, a => if a = k then some v else tabFind t a

/-- The entry of a key, or the default of an unlisted one. -/
def tabGet {α : Type} (d : α) (t : Tab α) (a : Nat) : α := (tabFind t a).getD d

/-- The table with one entry written. -/
def tabPut {α : Type} : Tab α → Nat → α → Tab α
  | [], a, v => [(a, v)]
  | (k, w) :: t, a, v =>
    if a = k then (a, v) :: t else if a < k then (a, v) :: (k, w) :: t else (k, w) :: tabPut t a v

/-- The table with one key unlisted. -/
def tabDel {α : Type} (t : Tab α) (a : Nat) : Tab α := t.filter (fun e => e.1 != a)

/-- The table without the keys of a set. -/
def tabDrop {α : Type} (p : Nat → Bool) (t : Tab α) : Tab α := t.filter (fun e => !p e.1)

/-- The keys rise strictly from above `lo`. -/
def tabRising {α : Type} : Nat → Tab α → Bool
  | _, [] => true
  | lo, (k, _) :: t => lo ≤ k && tabRising (k + 1) t

/-- The canonical form: keys strictly rising. -/
def tabWf {α : Type} (t : Tab α) : Bool := tabRising 0 t

end Sys2Proof.Machine
end

