-- ==== Sys2Proof/Machine/State.lean ====
section
/-! DEFINITION. The state of the GZ9-768 as plain data, its value after reset, and the reasons a step can stop. Every
register of the register space is an entry of `State.regs` (an unlisted register holds its reset value, see
`resetValue` in Ops); what the spec gives the machine beside its registers stands in the records below. -/

namespace Sys2Proof.Machine

/-- Reasons a step stops with a fault. No command of the table does: every rule gives its command an effect. -/
inductive Fault where
  /-- Raised by no command: the machine is operated outside R462 or R463, where its state is undefined. Safe. -/
  | outsideOperatingConditions
deriving DecidableEq, Repr

/-- Reasons a command has no meaning. -/
inductive Refusal where
  /-- Raised by the dispatch of a command that is not modelled; the string is its mnemonic in the table. Safe. -/
  | notModelled (mnemonic : String)
deriving DecidableEq, Repr

/-! ### Sequencers (R41 to R86) -/

/-- States of a sequencer (R44). -/
inductive RunState where
  | reset | halted | running | waiting | debug | faulted
deriving DecidableEq, Repr

/-- What a WAITING sequencer waits for (R76, R80, R142). A wait for a position holds its limit rs3 in D4 FIRE cycles, 0 for
none, and the cycle in which it was issued. -/
inductive Wait where
  | none
  | signal (sig : Nat) (consume : Bool) (rd : Nat) (timed : Bool)
  | position (axis : Nat) (rev : Bool) (stamp : W32) (rd limit issued : Nat)
  | wfi
deriving DecidableEq, Repr

/-- One sequencer's context (R43, R50, R59, R66, R165). An unlisted register holds 0. -/
structure Seq where
  run : RunState := .halted
  wait : Wait := .none
  pc : W32 := 0
  g : Tab W32 := []
  v : Tab W32 := []
  m : Tab W64 := []
  ie : Bool := false
  pie : Bool := false
  inh : Bool := false
  epc : W32 := 0
  cause : W32 := 0
  tval : W32 := 0
  vbase : W32 := 0x70000000
  ieMask : W32 := 0
  latched : W32 := 0
  scratch : W32 := 0
  cycle : W64 := 0
  cycleH : W32 := 0
  instret : W64 := 0
  instretH : W32 := 0
  timecmp : W32 := 0xFFFFFFFF
  timecmpH : W32 := 0xFFFFFFFF
  sigmask : Tab W32 := []
  swi : Bool := false
  lastCause : Nat := 0
  lastIrq : Bool := false
  mismatch : Bool := false
  tbuf : List W32 := []
  prefetch : List W32 := []
deriving DecidableEq, Repr

/-! ### Events (R426 to R432) -/

/-- A record a source has produced, before acceptance (R426). -/
structure Rec where
  src : Nat
  kind : Nat
  sev : Nat
  axis : Nat
  stamp : W32
  loc : W64
  detail : W32
  injected : Bool
deriving DecidableEq, Repr

/-- The event logic: the sources' buffers, the numbering and the gap flags (R427), and the lines held for the rings (R430,
R431). -/
structure Events where
  buf : Tab (List Rec) := []
  seqNo : Tab Nat := []
  gap : Tab Bool := []
  holding : List (Nat × Nat × List W32) := []
  /-- The hardware source whose record was taken last (R427). -/
  served : Option Nat := none
deriving DecidableEq, Repr

/-! ### Position axes (R87 to R129) -/

/-- States of an axis (R103). -/
inductive AxState where
  | off | acquire | moving | lull | lost
deriving DecidableEq, Repr

/-- One side's motion: the count, the time of its last change, and its history of changes in the current direction,
newest first, each with its time and the counts moved (R116, R118); `per` is the time and the counts of the periods averaged at
the last change. -/
structure Motion where
  count : W32 := 0
  rev : Bool := false
  te : Nat := 0
  hist : List (Nat × Nat) := []
  per : Nat × Nat := (1, 0)
  spdValid : Bool := false
  moving : Bool := false
  illegal : Nat := 0
deriving DecidableEq, Repr

/-- One axis (R88 to R120). -/
structure Axis where
  st : AxState := .off
  a : Motion := {}
  b : Motion := {}
  bLost : Bool := false
  epoch : BitVec 8 := 0
  sillF : BitVec 40 := 0
  sillR : BitVec 40 := 0
  zcap : W32 := 0
  skew : Int := 0
  skewHold : Bool := false
  rPrev : Option Nat := none
  vacc : BitVec 48 := 0
  vinc : Int := 0
  fwdPulses : Nat := 0
  revPulses : Nat := 0
deriving DecidableEq, Repr

/-- A serial-encoder input: a frame running, and its latch instant (R96). -/
structure SerialIn where
  running : Bool := false
  latch : Nat := 0
deriving DecidableEq, Repr

/-- An encoder output: accumulator, pending steps, ball levels A and B, time of the last step since it was enabled (R121). -/
structure EncOut where
  acc : Nat := 0
  pend : Int := 0
  levelA : Bool := false
  levelB : Bool := false
  lastStep : Option Nat := none
deriving DecidableEq, Repr

/-! ### Stamp queues (R137 to R152) -/

/-- A stamp-queue entry; the masks have one bit per ring position: tiles strobed, committed to drops or to blank, whose
DATA was sent, acknowledged, or can no longer be sent (R137 to R145, R220, R326). -/
structure Entry where
  stamp : W32
  mask : Nat
  tag : Nat
  bar : Nat
  rev : Bool
  ahead : Bool
  passed : Nat := 0
  drops : Nat := 0
  blank : Nat := 0
  sent : Nat := 0
  acked : Nat := 0
  dead : Nat := 0
deriving DecidableEq, Repr

/-- A provisional strobe of one tile: its axis, direction, stamp and tile (R152). -/
structure Prov where
  axis : Nat
  rev : Bool
  stamp : W32
  tile : Nat
deriving DecidableEq, Repr

/-- A STROBE ordered set as sent (R146). -/
structure StrobeSet where
  mask : Nat
  tag : Nat
  rev : Bool
  blank : Bool
  fine : Nat
  pt : Nat
deriving DecidableEq, Repr

/-! ### Motor and stepper channels (R279 to R319) -/

/-- What a field-oriented channel's outputs carry (R279, R289, R292): all commands off, the low-side brake, duties that hold
the applied voltage at the back-EMF (SYNC), HFI alone (LOCATE), a d-axis pulse with its current in Q1.15 of full scale, or the
last committed duties. -/
inductive Drive where
  | coast | brake | sync | hfi
  | pulse (target : Int)
  | duties
deriving DecidableEq, Repr

/-- A field-oriented channel beside its registers (R281 to R300): `pending` is the committed set of the next update point and
`late` the one that missed it; `high` holds the lengths in D9 cycles of the phases' high intervals in the running period, and
`sensed` those of the period a sense sequence samples; `carrier` is HFI's phase in 1/(4 × 10^8) turns; the window's fields are
the angle of the phase-voltage vector, what it has turned, the periods measured and the frequency taken at 4 ms; `ovHeld` says
that v_dc stood at or above ov_trip after the last period; `tickState` is MOTn_STATE of the last tick's period. -/
structure Motor where
  drive : Drive := .coast
  pending : Option (Nat × Nat × Nat) := none
  late : Option (Nat × Nat × Nat) := none
  duties : Nat × Nat × Nat := (0x8000, 0x8000, 0x8000)
  high : Option (Nat × Nat × Nat) := none
  sensed : Nat × Nat × Nat := (0, 0, 0)
  carrier : Nat := 0
  voltAngle : Option Nat := none
  voltTurn : Int := 0
  window : Nat := 0
  measured : Option (Option Int) := none
  ovHeld : Bool := false
  tickState : W32 := 0
  committed : Bool := false
  periods : Nat := 0
  dryTicks : Nat := 0
  tickNow : Bool := false
  psiA : Int := 0
  psiB : Int := 0
  prevIA : Int := 0
  prevIB : Int := 0
  obsAngle : Nat := 0
  obsConf : Nat := 0xFFFF
  obsTurns : List Int := []
  obsSpeed : Int := 0
  hfiAngle : Nat := 0
  hfiConf : Nat := 0xFFFF
  hfiTurns : List Int := []
  hfiSpeed : Int := 0
  obsRun : Nat := 0
  slowRun : Nat := 0
  lossRun : Nat := 0
  hfiGood : Nat := 0
  fromObserve : Bool := false
  pulse : Nat := 0
  pulsePeak : Nat := 0
  flipped : Bool := false
  travel : Int := 0
  low : Int := 0
  backRef : Int := 0
  coasting : Bool := false
  syncing : Bool := false
  attempts : Nat := 0
  knownSpeed : Option Int := none
  ovPosted : Bool := false
  ovPause : Bool := false
  vdc : Nat := 0
deriving DecidableEq, Repr

/-- A queued move (R309, R311). -/
structure Move where
  dist : Int
  prof : Nat
  vmax : Nat
  blend : Bool
deriving DecidableEq, Repr

/-- A chopping bridge: its phase, the ON length of the chop cycle running and whether it was long, and the long ONs in a
row (R306, R307). -/
structure Bridge where
  on : Bool := true
  tOn : Nat := 0
  long : Bool := false
  longOns : Nat := 0
deriving DecidableEq, Repr

/-- A stepper channel beside its registers (R304 to R315); `v6` is the speed in millionths of a microstep per second, `acc` the
position accumulated beyond the microsteps generated, in 1/(4 × 10^14) microsteps (what v6 = 1 travels in a D9 cycle), and
`forced` says that the supervisor forces coast (cause 2). -/
structure Stepper where
  queue : List Move := []
  cur : Option Move := none
  left : Nat := 0
  v6 : Nat := 0
  acc : Int := 0
  forced : Bool := false
  vEnd : Option Nat := none
  decel : Bool := false
  standstill : Bool := false
  bridgeA : Bridge := {}
  bridgeB : Bridge := {}
  m0 : W32 := 0
  e0 : W32 := 0
deriving DecidableEq, Repr


/-- An optical gate's window: none, its start delay running, or open (R198). -/
inductive GateWindow where
  | none | delay | opened
deriving DecidableEq, Repr

/-- An optical gate: its window, the strobe that triggered it, and the FIFO of results, oldest first (R198, R199). -/
structure Gate where
  window : GateWindow := .none
  tag : Nat := 0
  lane : Nat := 0
  pos : Nat := 0
  fifo : List (W32 × W32) := []
deriving DecidableEq, Repr

/-- What the last read or checked access by an initiator outside the sequencers was answered: data, a PCIe Unsupported
Request or Completer Abort, or an error response (R27, R326, R382). -/
inductive Answer where
  | none
  | done
  | data (bytes : List W8)
  | ur
  | ca
  | error
deriving DecidableEq, Repr

/-- What a WAITING Gust channel waits for (R356, R359): a signal (consuming it or not, with a timeout or without), a delay, or ring space for a record, the state to enter
and whether its interrupt request follows. -/
inductive ChWait where
  | none
  | signal (sig : Nat) (consume timed : Bool)
  | delay
  | ring (words : List W32) (next : Nat) (irq : Bool)
deriving DecidableEq, Repr

/-- A Gust channel beside its registers: instruction index, offset registers, loop counters with the instruction each
belongs to, running CRC, the words of the instruction it is in, the bytes the run has written, the bytes issued in the rate window, and how far the current
memory instruction has come (R344 to R361). `orig` holds the original values of source bytes that the running MOVE has
overwritten (R348). -/
structure Chan where
  idx : Int := 0
  os : BitVec 40 := 0
  od : BitVec 40 := 0
  loop0 : Option (Nat × Int) := none
  loop1 : Option (Nat × Int) := none
  crc : Nat := 0xFFFFFFFF
  cur : List W32 := []
  wrote : Nat := 0
  window : Nat := 0
  line : Nat := 0
  off : Nat := 0
  orig : Tab W8 := []
  wait : ChWait := .none
deriving DecidableEq, Repr

/-- A PLANE_DATA packet at the steering stage (R374, R375): where it came from, its header and its payload. -/
structure GspPkt where
  port : Nat
  sub : Nat
  srcIp : List W8
  srcPort : Nat
  stream : Nat
  seq : W32
  plane : Nat
  format : Nat
  flags : Nat
  line : Nat
  offset : Nat
  length : Nat
  crc : Nat
  payload : List W8
deriving DecidableEq, Repr

/-- A GSP stream beside its registers (R377, R378, R385): packets placed since its last ACK, the times of its last NACK
and GSP_REFUSED, the lines of bands not yet done, and where its last packet came from. -/
structure Stream where
  placed : Nat := 0
  lastNack : Option Nat := none
  lastRefused : Option Nat := none
  bands : List Nat := []
  port : Nat := 0
  sub : Nat := 0
  ip : List W8 := []
  udp : Nat := 0
deriving DecidableEq, Repr

/-- What leaves on Ethernet: a frame of a transmit ring, an ACK (reason 0) or NACK of a stream, a boot announce, or
the code of an image by the boot port, or the answer to a neighbour solicitation (R369, R377, R396). -/
inductive WireOut where
  | frame (port sub : Nat) (bytes : List W8)
  | reply (port sub : Nat) (tag : Option Nat) (ip : List W8) (udp : Nat) (nack : Bool) (reason stream : Nat) (seq line : W32)
  | announce (payload : List W8)
  | bootResult (ip : List W8) (udp code : Nat)
  | advertise (ip : List W8)
deriving DecidableEq, Repr


/-- A fuse command that runs (R412 to R414): its operation and bank, the cells still to be programmed in order, each with
its word, and the result if every cell verifies. -/
structure FuseJob where
  op : Nat
  bank : Nat
  cells : List (Nat × Nat)
  result : Nat
deriving DecidableEq, Repr
/-- What a lane's transmitter sends besides IDLE and the gaps of grants (R209 to R212): an ordered set, or a transom as its
HEAD block and payload bytes. -/
inductive LinkOut where
  | set (block : W64)
  | transom (head : W64) (payload : List W8)
deriving DecidableEq, Repr

/-- What the sideband controller does on a lane's bus (R231, R232): a transaction with the 7-bit address, the offset and the
bytes written, none for a read, at 1 MHz (fast) or 400 kHz; and after a stretch that ran out the 9 clocks with the STOP. -/
inductive SbOut where
  | start (address offset : Nat) (written : List W8) (fast : Bool)
  | release
deriving DecidableEq, Repr

/-- A GRANT on the ring: its kind, ring position and length in blocks (R210, R215). -/
structure Grant where
  kind : Nat
  pos : Nat
  len : Nat
deriving DecidableEq, Repr

/-- A transom received whole, whose CRC-32C holds (R211, R212); `spec` is header bits [15:8]. -/
structure Transom where
  type : Nat
  pos : Nat
  tag : Nat
  spec : Nat
  payload : List W8
deriving DecidableEq, Repr

/-- The fields of a REPLY ordered set (R210): sender, code, tag or sequence, type answered, and lines staged. -/
structure Reply where
  pos : Nat
  code : Nat
  tag : Nat
  type : Nat
  staged : Nat
deriving DecidableEq, Repr

/-- The words of a STAT the device processes (R226). -/
structure StatMsg where
  code : W16
  flags : W16
  count : W32
  tags : W32
  staged : BitVec 3
deriving DecidableEq, Repr

/-- An MGMT response (R212, R229): sender, sequence, status and payload words. -/
structure MgResponse where
  pos : Nat
  seq : Nat
  status : Nat
  data : List W32
deriving DecidableEq, Repr

/-- An ECHO transom (R187, R212): echo group, window sequence and the 64 feature words. -/
structure EchoMsg where
  group : BitVec 5
  seq : W8
  words : List W32
deriving DecidableEq, Repr

/-- An ordered set the link engine keeps until it returns (R224): a STROBE, or a CANCEL with its tile mask, tag and the
times it was sent again. -/
inductive SentSet where
  | strobe (x : StrobeSet)
  | cancel (mask tag tries : Nat)
deriving DecidableEq, Repr

/-- A DATA or WAVE transom not yet answered (R220): ring position, type, tag or sequence, retransmissions so far, whether it
waits for a strobe after NAK full, and the transom itself. -/
structure Tx where
  pos : Nat
  wave : Bool
  tag : Nat
  tries : Nat
  full : Bool
  out : LinkOut
deriving DecidableEq, Repr

/-- A waveform upload: index, commit, the 32 segment words, and the positions acknowledged (R248). -/
structure Upload where
  index : Nat
  commit : Bool
  words : List W32
  acked : Nat
deriving DecidableEq, Repr

/-- Why the link engine sends an MGMT request. -/
inductive MgWhy where
  | firmware
  | identity
  | record (k : Nat)
  | config (step : Nat)
  | run
  | rowPhase (bar : Nat)
  | trim (k : Nat)
  | trimCommit
  | echo
  | waveCommit (index : Nat)
  | scale (s : Nat)
  | breeze
  | cutTag
  | limits
  | calCommit
deriving DecidableEq, Repr

/-- An MGMT request not yet answered (R229): op 0 READ, 1 WRITE, 2 HMREAD, and the repeats so far. -/
structure MgReq where
  pos : Nat
  seq : Nat
  op : Nat
  addr : Nat
  count : Nat
  data : List W32
  why : MgWhy
  tries : Nat
deriving DecidableEq, Repr

/-- Why the sideband controller runs a transaction (R217, R218, R233). -/
inductive SbWhy where
  | firmware
  | probe (pos : Nat)
  | hop (pos : Nat)
  | bypass (pos : Nat)
deriving DecidableEq, Repr

/-- A lane and its link engine beside their registers. -/
structure Lane where
  /-- The queue of the bar engine on this lane, oldest first (R140). -/
  queue : List Entry := []
  /-- Strobes not yet confirmed (R152). -/
  prov : List Prov := []
  /-- Strobe and cancel sets on the lane (R146, R150). -/
  sets : List SentSet := []
  /-- Transoms that await a REPLY, and their attempts (R143, R220). -/
  txs : List Tx := []
  /-- Grants given (R215). -/
  grants : List Grant := []
  /-- By position, the tags of the lines in flight when its STAT grant was given (R215, R226). -/
  grantLines : Tab (List Nat) := []
  /-- The waveform upload (R248). -/
  upload : Option Upload := none
  /-- The sequence of the WAVE transoms (R248). -/
  waveSeq : Nat := 0
  /-- MGMT requests, oldest first (R229). -/
  mgmt : List MgReq := []
  /-- The sequence of the MGMT requests (R229). -/
  mgSeq : Nat := 0
  /-- The sideband's transactions, the running one first (R231). -/
  sbq : List SbWhy := []
  /-- Attempts of ENUM (R216). -/
  enumTries : Nat := 0
  /-- When the automatic retrains of the last second started (R235). -/
  retrains : List Nat := []
  /-- The training is an automatic one (R235). -/
  auto : Bool := false
  /-- The tile CONFIG is at (R219). -/
  configPos : Option Nat := none
  /-- When the lane's last strobe check failed (R224). -/
  checkFail : Option Nat := none
  /-- Tiles whose WV_BREEZE is due to be written, as a mask (R258). -/
  breezeDue : Nat := 0
  /-- When a line slot was last written (R39, R136). -/
  slotTimes : Tab Nat := []
  /-- What has left on the lane: the model's own record of what R208 to R229 send. -/
  out : List LinkOut := []
  /-- What has left on the sideband: the model's own record of what R231 sends. -/
  sbOut : List SbOut := []
  /-- Tiles whose TLIM and THYS words are due to be written, as a mask (R270). -/
  limitsDue : Nat := 0
  /-- Tiles whose scale is above smax, as a mask (R253). -/
  limited : Nat := 0
deriving DecidableEq, Repr

/-- What the device keeps of one tile beside its registers: the copy of its fire count, its head-memory values, the
reasons of its link fault (R35, R156, R219, R224, R227, R235, R236), the mismatches in force (R234), its last STAT flags
and sideband sample, the expected echo windows (R188), the echo windows due for a grant (R215) and the governor's counts
(R200). -/
structure Tile where
  fireCount : W32 := 0
  echoDue : Nat := 0
  echoSeq : Tab Nat := []
  tid : W32 := 0
  hop : Option Nat := none
  record : List W8 := []
  rank : Nat := 0
  therm : List (Nat × Int) := []
  faults : Nat := 0
  mism : Nat := 0
  runDiff : Nat := 0
  flags : Nat := 0
  silent : Bool := false
  sbStatus : Nat := 0
  sbOk : Bool := false
  sbSeq : Option Nat := none
  sbSince : Nat := 0
  half : Nat := 0
  prevDrops : Tab Nat := []
  curDrops : Tab Nat := []
  prevEnergy : Nat := 0
  curEnergy : Nat := 0
deriving DecidableEq, Repr

/-- A class record of the classifier's shadow table (R189, R190). -/
structure ClassRec where
  w0 : Int := 0
  w1 : Int := 0
  w2 : Int := 0
  w3 : Int := 0
  bias : Int := 0
  thWeak : Nat := 0
  thMiss : Nat := 0
  hyst : Nat := 0
  en : Bool := false
  a : Nat := 0
deriving DecidableEq, Repr


/-- A running march test as its go found the registers: mode, repair, and its targets, `count` from `first` (R336, R341). -/
structure March where
  mode : Nat
  repair : Bool
  dram : Bool
  first : Nat
  count : Nat
deriving DecidableEq, Repr

/-! ### The whole block -/

/-- The state. Each table's unlisted entries stand for units as they are after reset. -/
structure State where
  /-- Commands waiting, first in, first out: the model's own queue. -/
  pending : List Instr := []
  /-- SYS_ID.variant: 0 GZ9-768-FE, 1 GZ9-384-FE, 2 GZ9-768-LE (R2, R3). -/
  variant : Nat := 0
  /-- Lanes, render clusters and DRAM die B that bank 5 disables (R3, R408, R418). -/
  lanesOff : Nat := 0
  clustersOff : Nat := 0
  dieBOff : Bool := false
  /-- D4 FIRE cycles since the last system reset; the free-running counter FT is its low 40 bits (R87). -/
  uptime : Nat := 0
  /-- Draws of free values so far: the model's own field. -/
  freeCount : Nat := 0
  /-- System resets so far: the generation of undefined memory contents, the model's own field (R389). -/
  memGen : Nat := 0
  /-- Written bytes of SRAM and DRAM by fabric address (R24); unlisted bytes have no defined contents. -/
  mem : List Host.Cell := []
  /-- March targets whose unlisted bytes read 0, cleared by a destructive test (R336). -/
  memZero : Tab Unit := []
  /-- The march test that runs, if one does (R336). -/
  march : Option March := none
  /-- Erroneous cells of memory words by word address (R321, R334, R477). -/
  cells : Tab CellErr := []
  /-- Corrections per macro or channel since its last MEM_CE, and the units with a window open (R325). -/
  ceCount : Tab Nat := []
  ceOpen : Tab Unit := []
  /-- High halves of the error log and of the first failed row, before the latching read (R341). -/
  elogHi : W32 := 0
  mfailHi : W32 := 0
  /-- Spare rows used and failed targets (R339): index as MEM_RPIDX. -/
  sparesUsed : Tab Nat := []
  failedTargets : Tab Unit := []
  /-- The register file: written registers by address (R28, R29). -/
  regs : Tab W32 := []
  /-- The holding sets of snapshot groups, by master and register address (R37). -/
  held : Tab W32 := []
  seqs : Tab Seq := []
  /-- Pairs that have left lockstep (R49), by primary. -/
  splitPairs : Tab Unit := []
  /-- Hardware signals (R80) and the last consuming winner of each (R81). -/
  signals : BitVec 256 := 0
  sigWinner : Tab Nat := []
  ev : Events := {}
  /-- When each monitor last passed, in `uptime` (R442). -/
  monPassed : Tab Nat := []
  /-- MSI-X messages sent per vector and the Function Mask bit (R383). -/
  msixSent : Tab Nat := []
  msixFnMask : Bool := false
  axes : Tab Axis := []
  serials : Tab SerialIn := []
  encOuts : Tab EncOut := []
  /-- Line-boundary requests of each bar by requesting unit, and the bars where one is in force (R265). -/
  lbUnits : Tab Nat := []
  lbForce : Tab Unit := []
  lanes : Tab Lane := []
  motors : Tab Motor := []
  steppers : Tab Stepper := []
  /-- The inputs of CMP0 to CMP7, as codes of the threshold DAC's scale (R297). -/
  cmpIn : Vector Nat 8 := Vector.replicate 8 0
  /-- The motor channel whose sense sequence the ADCs run, and those that wait (R284). -/
  adcRun : Option Nat := none
  adcWait : List Nat := []
  /-- The gain and offset words of ADC0 and ADC1 that the running sense sequence converts with (R449). -/
  adcCal : W32 × W32 := (0x40000000, 0x40000000)
  /-- Tiles by id, lane × 16 + ring position (R158, R206). -/
  tiles : Tab Tile := []
  /-- The classifier's shadow of the class table (R189). -/
  classes : Tab ClassRec := []
  /-- ECHO transoms waiting for the classifier, each with its tile (R188, R194). -/
  echoes : List (Nat × EchoMsg) := []
  gates : Tab Gate := []
  /-- The answer to the last command that reads: it goes to the initiator. -/
  answer : Answer := .none
  /-- The Gust channels (R344). -/
  chans : Tab Chan := []
  /-- Event-channel pulses on their way into D4, by axis (R36, R357). -/
  capPulses : Tab Nat := []
  /-- Packets at the steering stage, in order of arrival (R376), and the streams beside their registers. -/
  steer : List GspPkt := []
  streams : Tab Stream := []
  /-- What has left on Ethernet, newest first. -/
  wire : List WireOut := []
  /-- The timebase's fraction of a nanosecond, its committed increment, and when the D4 count of PTP_RATIO started (R370,
  R371). -/
  ptpFrac : Nat := 0
  ptpInc : Nat := 0x400000000
  ratioFrom : Nat := 0
  /-- The PPS ball is high until this time, in `uptime` (R373). -/
  ppsUntil : Nat := 0
  /-- An ADC calibration runs (R448), and DIE_HOT waits for every sensor to cool before it posts again (R451). -/
  adcCalRun : Bool := false
  dieHot : Bool := false
  /-- Loss of lock of P_FAB, P_CTRL, P_DRAM whose reset is due, one bit each (R35). -/
  pllDue : Nat := 0
  /-- The fuse array: 39 cells a word by bank × 128 + word, data low; unlisted words are blank (R407). -/
  fuse : Tab Nat := []
  /-- The shadow of the array by physical bank and word (R409), and the flags of each word: 0 MARGINAL, 1 CE, 2 UE,
  3 drift, 4 programmed since reset (R409, R411). -/
  shadow : Tab W32 := []
  wordFlags : Tab Nat := []
  fuseJob : Option FuseJob := none
  /-- The policy word in effect (R408, R418). -/
  policy : Nat := 0
  /-- No reopening of debug access until a power-on reset (R418). -/
  dbgBarred : Bool := false
  /-- A challenge is pending, and the failure waiting for its report (R421). -/
  chalPending : Bool := false
  secFailing : Bool := false
  /-- The first key of the watchdog pair has been written (R437). -/
  wdFirst : Bool := false
  /-- Sequencers that have sent a heartbeat in the running period (R438). -/
  beats : Tab Unit := []
  /-- Monitor tests that run (R442). -/
  testing : Nat := 0
  /-- Fire-path monitors whose last test failed (R435, R442). -/
  monFailed : Nat := 0
  /-- Reset is asserted: RESET_END is awaited (R388, R391). -/
  resetting : Bool := true
  /-- The cause-capture latch, and the rail index it holds (R406). -/
  capture : Nat := 1
  captureRail : Option Nat := none
  /-- The supply monitor, one bit per rail: below warning, not yet recovered, recovery dwell running; and the rails that
  were below warning during the episode (R402, R404). -/
  railBelow : Nat := 0
  railOpen : Nat := 0
  railDwell : Nat := 0
  railEpisode : Nat := 0
  /-- A scrub pass has been late since the last read of MEM_SCRSTAT (R445). -/
  scrubLate : Bool := false
  /-- The sequencer that a running reload serves (R400). -/
  reloadSeq : Nat := 0
deriving DecidableEq, Repr

/-- The block right after a power-on reset: every register at its reset value, every sequencer HALTED, every unit as its
chapter leaves it, no memory written, no command waiting (R43, R389). -/
def State.reset : State := {}

end Sys2Proof.Machine
end

