-- ==== Sys2Proof/Machine/Ops.lean ====
section
/-! DEFINITION. Named operations over the state: bit fields, the register file, raw memory, sequencer contexts, signals,
interrupt requests and event posting. Every command's meaning is written over these. -/

namespace Sys2Proof.Machine

/-! ### Bit fields (R8) -/

/-- Bits `hi` down to `lo` of a word, as a number. -/
def bitsOf (w : W32) (hi lo : Nat) : Nat := w.toNat / 2 ^ lo % 2 ^ (hi + 1 - lo)

/-- The word with bits `hi` down to `lo` replaced by the low bits of `v`. -/
def putBits (w : W32) (hi lo v : Nat) : W32 :=
  w32 (w.toNat / 2 ^ (hi + 1) * 2 ^ (hi + 1) + v % 2 ^ (hi + 1 - lo) * 2 ^ lo + w.toNat % 2 ^ lo)

/-- Bit `i` of a number. -/
def natBit (n i : Nat) : Bool := n / 2 ^ i % 2 == 1

/-- The number with bit `i` set to `b`. -/
def natSetBit (n i : Nat) (b : Bool) : Nat :=
  if natBit n i == b then n else if b then n + 2 ^ i else n - 2 ^ i

/-- A number of `bits` bits read as two's complement (R8). -/
def signedOf (bits n : Nat) : Int := if n % 2 ^ bits < 2 ^ (bits - 1) then (n % 2 ^ bits : Nat) else (n % 2 ^ bits : Nat) - (2 ^ bits : Nat)

/-- An integer as the low `bits` bits of its two's complement. -/
def unsignedOf (bits : Nat) (i : Int) : Nat := (i % (2 ^ bits : Nat)).toNat

/-- An integer held within bounds. -/
def clampInt (lo hi i : Int) : Int := if i < lo then lo else if hi < i then hi else i

/-- An integer as a 32-bit word, modulo 2^32. -/
def wordOfInt (i : Int) : W32 := w32 (unsignedOf 32 i)

/-- Number of bits set among the low `n` bits. -/
def countBits (n : Nat) (x : Nat) : Nat := ((List.range n).filter (natBit x)).length

/-! ### The register file (R9, R10, R28, R29) -/

/-- Reset severity of a hardware kind (R428). -/
def resetSeverity (kind : Nat) : Nat :=
  if kind ∈ [0x440, 0x325, 0x388, 0x380, 0x400, 0x420, 0x427, 0x3C1, 0x4A1, 0x4C3, 0x445, 0x480, 0x490, 0x300, 0x301, 0x304]
  then 1
  else if kind ∈ [0x441, 0x340, 0x368, 0x381, 0x382, 0x383, 0x401, 0x421, 0x4A0, 0x4C0,
    0x4E0, 0x4E1, 0x4E2, 0x4E3, 0x4E4, 0x4E5, 0x4E6, 0x4E8]
  then 4 else 2

/-! The quarter-wave table of R304: T[x] = round(1,023 × sin(π x / 512)), 32 entries to a row. -/
def sineTable0 : List Nat := [0, 6, 13, 19, 25, 31, 38, 44, 50, 56, 63, 69, 75, 82, 88, 94, 100, 107, 113, 119, 125, 131, 138, 144, 150, 156, 163, 169, 175, 181, 187, 193]
def sineTable1 : List Nat := [200, 206, 212, 218, 224, 230, 236, 242, 249, 255, 261, 267, 273, 279, 285, 291, 297, 303, 309, 315, 321, 327, 333, 339, 345, 351, 356, 362, 368, 374, 380, 386]
def sineTable2 : List Nat := [391, 397, 403, 409, 415, 420, 426, 432, 437, 443, 449, 454, 460, 466, 471, 477, 482, 488, 493, 499, 504, 510, 515, 521, 526, 531, 537, 542, 547, 553, 558, 563]
def sineTable3 : List Nat := [568, 574, 579, 584, 589, 594, 599, 604, 609, 614, 619, 624, 629, 634, 639, 644, 649, 654, 659, 663, 668, 673, 678, 682, 687, 692, 696, 701, 705, 710, 714, 719]
def sineTable4 : List Nat := [723, 728, 732, 737, 741, 745, 750, 754, 758, 762, 766, 771, 775, 779, 783, 787, 791, 795, 799, 803, 806, 810, 814, 818, 822, 825, 829, 833, 836, 840, 844, 847]
def sineTable5 : List Nat := [851, 854, 858, 861, 864, 868, 871, 874, 877, 881, 884, 887, 890, 893, 896, 899, 902, 905, 908, 911, 914, 917, 919, 922, 925, 927, 930, 933, 935, 938, 940, 943]
def sineTable6 : List Nat := [945, 948, 950, 952, 954, 957, 959, 961, 963, 965, 967, 969, 971, 973, 975, 977, 979, 981, 983, 984, 986, 988, 989, 991, 992, 994, 995, 997, 998, 999, 1001, 1002]
def sineTable7 : List Nat := [1003, 1005, 1006, 1007, 1008, 1009, 1010, 1011, 1012, 1013, 1014, 1015, 1015, 1016, 1017, 1017, 1018, 1019, 1019, 1020, 1020, 1021, 1021, 1021, 1022, 1022, 1022, 1023, 1023, 1023, 1023, 1023]
/-- T[x] at reset (R304). -/
def sineReset (x : Nat) : Nat :=
  let row := match x / 32 with
    | 0 => sineTable0 | 1 => sineTable1 | 2 => sineTable2 | 3 => sineTable3
    | 4 => sineTable4 | 5 => sineTable5 | 6 => sineTable6 | _ => sineTable7
  row.getD (x % 32) 0

/-- Reset values that depend on the instance, in place of the card's one value. -/
def instanceReset (id : RegId) (i j : Nat) (dflt : Nat) : Nat :=
  match id with
  | .BAR_TCP => (0x140 + 0x50 * j) * 2 ^ 16 + 0x4000
  | .SNS_GATE => if i < 3 then 0xA0000008 else 8
  | .STEP_TABLE => sineReset (2 * i + 1) * 2 ^ 16 + sineReset (2 * i)
  | .MEM_RGN_LIM => if j = 0 then 0xFFFFFFF else 0
  | .MEM_RGN_CTL => if j = 0 then 0xF else 0
  | .SUP_SEV => (List.range 8).foldl (fun acc k => acc + resetSeverity (0x300 + 8 * i + k) * 16 ^ k) 0
  | .PCIE_MSIX => if j = 3 then 1 else 0
  | .SNS_GLVL => 0x700
  | .MOT_SENSE => if i = 0 then 0x01234560 else 0x789ABCD0
  | _ => dflt

/-- The value a register holds after its reset; 0 at an address that holds no register (R29). -/
def resetValue (a : Nat) : W32 :=
  match cardAt a with
  | some (c, i, j) => w32 (instanceReset c.id i j c.rst)
  | none => 0

/-- The stored value of the register at an address. -/
def State.rd (s : State) (a : Nat) : W32 :=
  match tabFind s.regs a with
  | some v => v
  | none => resetValue a

/-- The state with a register's stored value replaced. -/
def State.wr (s : State) (a : Nat) (v : W32) : State := { s with regs := tabPut s.regs a v }

/-- The stored value of a register after a write that every field rule lets through: RW fields take the written bits, W1C
bits clear and W1S bits set where 1 is written, the rest is ignored (R10, R29). -/
def Card.written (c : Card) (old v : W32) : W32 :=
  ((((old &&& ~~~(w32 c.rw)) ||| (v &&& w32 c.rw)) &&& ~~~(v &&& w32 c.w1c)) ||| (v &&& w32 c.w1s))

/-- A write of the register at an address by its field rules; an address without a register is written to no effect
(R29). -/
def State.plainWrite (s : State) (a : Nat) (v : W32) : State :=
  match cardAt a with
  | some (c, _, _) => s.wr a (c.written (s.rd a) v)
  | none => s

/-- The value of a register field. -/
def State.get (s : State) (f : Field) : Nat := bitsOf (s.rd f.addr) f.hi f.lo

/-- The state with a register field replaced. -/
def State.set (s : State) (f : Field) (v : Nat) : State := s.wr f.addr (putBits (s.rd f.addr) f.hi f.lo v)

/-- A one-bit field as a truth value. -/
def State.flag (s : State) (f : Field) : Bool := s.get f != 0

/-- Bit `i` of a field. -/
def State.bit (s : State) (f : Field) (i : Nat) : Bool := natBit (s.get f) i

/-- The state with bit `i` of a field written. -/
def State.setBit (s : State) (f : Field) (i : Nat) (b : Bool) : State := s.set f (natSetBit (s.get f) i b)

/-- The state with a counter field raised by `n`, saturating at the field's width. -/
def State.bumpBy (s : State) (f : Field) (n : Nat) : State :=
  s.set f (min (s.get f + n) (2 ^ (f.hi + 1 - f.lo) - 1))

/-- The state with a counter field raised by one, saturating. -/
def State.bump (s : State) (f : Field) : State := s.bumpBy f 1

/-- A signed field. -/
def State.getInt (s : State) (f : Field) : Int := signedOf (f.hi + 1 - f.lo) (s.get f)

/-! ### Free values -/

/-- A fresh undefined word. -/
def State.freeW (s : State) : W32 := Config.freeWord s.freeCount

/-- A fresh undefined number. -/
def State.freeN (s : State) : Nat := Config.freeNat s.freeCount

/-- The state after a free value has been drawn. -/
def State.drawn (s : State) : State := { s with freeCount := s.freeCount + 1 }

/-! ### Variants (R2, R3, R408, R418) -/

/-- The lane is fused off by bank 5. -/
def State.laneFused (s : State) (n : Nat) : Bool := natBit s.lanesOff n
/-- The render cluster is fused off by bank 5. -/
def State.rcFused (s : State) (n : Nat) : Bool := natBit s.clustersOff n
/-- The sequencer belongs to a fused-off lane or cluster. -/
def State.seqFused (s : State) (q : Nat) : Bool :=
  (decide (8 ≤ q) && decide (q < 24) && s.rcFused (q - 8)) || (decide (24 ≤ q) && s.laneFused (q - 24))

/-- The lanes present. -/
def State.lanesHere (s : State) : List Nat := (List.range 24).filter (fun n => !s.laneFused n)

/-! ### Where an address lies (R24, R320, R333) -/

/-- A fabric address lies in SRAM. -/
def isSram (a : Nat) : Bool := decide (a < 0x06000000)
/-- A fabric address lies in the register space. -/
def isRegSpace (a : Nat) : Bool := decide (0x40000000 ≤ a) && decide (a < 0x41000000)
/-- A fabric address lies in DRAM. -/
def isDram (a : Nat) : Bool := decide (0x0100000000 ≤ a) && decide (a < 0x0300000000)
/-- A fabric address lies in the boot ROM. -/
def isRom (a : Nat) : Bool := decide (0x70000000 ≤ a) && decide (a < 0x70040000)

/-- DRAM channel of a fabric address (R333). -/
def dramChannel (a : Nat) : Nat := 2 * (a / 2 ^ 33 % 2) + a / 2 ^ 8 % 2
/-- DRAM bank of a fabric address (R333). -/
def dramBank (a : Nat) : Nat := a / 2 ^ 9 % 16
/-- 64-bit word within the DRAM bank (R333). -/
def dramWord (a : Nat) : Nat := a / 2 ^ 13 % 2 ^ 19 * 32 + a / 2 ^ 3 % 32
/-- SRAM macro of a fabric address (R320). -/
def sramMacro (a : Nat) : Nat := a / 2 ^ 17 % 2 ^ 10

/-- The march target an address lies in: macro index, or 0x300 + channel × 16 + bank (R336, R341). -/
def marchTarget (a : Nat) : Nat := if isSram a then sramMacro a else 0x300 + dramChannel a * 16 + dramBank a

/-! ### Memory, byte by byte -/

/-- What an unlisted byte reads as: 0 in a target that a destructive march has cleared (R336), else nothing defined
(R389). -/
def State.background (s : State) (a : Nat) : Option W8 := if (tabFind s.memZero (marchTarget a)).isSome then some 0 else none

/-- The byte of a line slot's header that holds its state (R135). -/
def slotStateByte (a : Nat) : Bool :=
  decide (0x2400000 ≤ a) && decide (a < 0x3000000) && decide (0x40000 ≤ a % 0x80000) && a % 1024 == 0x3F3

/-- The byte at a fabric address of SRAM or DRAM: what was last written there; where nothing was written since the last
system reset, a free value (R389), but for the state of a line slot, which reset leaves free (R136). -/
def State.rdByte (s : State) (a : Nat) : W8 :=
  match tabFind s.mem a with
  | some b => b
  | none => (s.background a).getD (if slotStateByte a then Config.undefByte s.memGen a &&& 0x3F else Config.undefByte s.memGen a)

/-- The state with one byte written, in the canonical form: no entry holds what its address would read unlisted. -/
def State.wrByte (s : State) (a : Nat) (b : W8) : State :=
  if s.background a = some b then { s with mem := tabDel s.mem a } else { s with mem := tabPut s.mem a b }

/-- Bytes written at rising addresses. -/
def State.wrBytes (s : State) (a : Nat) : List W8 → State
  | [] => s
  | b :: bs => (s.wrByte a b).wrBytes (a + 1) bs

/-- `n` bytes from an address. -/
def State.rdBytes (s : State) (a n : Nat) : List W8 := (List.range n).map (fun k => s.rdByte (a + k))

/-- A little-endian number from bytes (R8). -/
def leNat : List W8 → Nat
  | [] => 0
  | b :: bs => b.toNat + 256 * leNat bs

/-- The `n` little-endian bytes of a number. -/
def leBytes : Nat → Nat → List W8
  | 0, _ => []
  | n + 1, v => BitVec.ofNat 8 v :: leBytes n (v / 256)

/-- A big-endian number from bytes. -/
def beNat (bs : List W8) : Nat := leNat bs.reverse

/-- The `n` big-endian bytes of a number. -/
def beBytes (n v : Nat) : List W8 := (leBytes n v).reverse

def State.rdWord (s : State) (a : Nat) : W32 := w32 (leNat (s.rdBytes a 4))
def State.wrWord (s : State) (a : Nat) (v : W32) : State := s.wrBytes a (leBytes 4 v.toNat)

/-- Words written at rising addresses. -/
def State.wrWords (s : State) (a : Nat) : List W32 → State
  | [] => s
  | w :: ws => (s.wrWord a w).wrWords (a + 4) ws

/-- Base of the memory word of an address: 32 bits in SRAM (R321), 64 in DRAM (R334). -/
def memWordBase (a : Nat) : Nat := if isSram a then a / 4 * 4 else a / 8 * 8

/-- A written word carries fresh check bits (R321, R328). -/
def State.cellCleared (s : State) (a : Nat) : State := { s with cells := tabDel s.cells (memWordBase a) }

/-- Line slots that a byte range touches, as lane and slot number in the lane's bank (R135). -/
def slotsIn (a len : Nat) : List (Nat × Nat) :=
  ((List.range (len / 1024 + 2)).map (fun k => a / 1024 * 1024 + k * 1024)).filterMap (fun b =>
    if b < a + len ∧ 0x2400000 ≤ b ∧ b < 0x3000000 ∧ 0x40000 ≤ b % 0x80000 then
      some ((b - 0x2400000) / 0x80000, b % 0x80000 / 1024 - 256)
    else none)

/-- The time of a slot's last write is noted: D4 FIRE sees the line 4 of its cycles later (R39). -/
def State.slotTouched (s : State) (lane slot : Nat) : State :=
  let l := tabGet {} s.lanes lane
  { s with lanes := tabPut s.lanes lane { l with slotTimes := tabPut l.slotTimes slot s.uptime } }

/-- A master's write of a byte range reaches the line slots it touches. -/
def State.slotsTouched (s : State) (a len : Nat) : State :=
  (slotsIn a len).foldl (fun t x => t.slotTouched x.1 x.2) s

/-- All words of a range carry fresh check bits. -/
def State.cellsCleared (s : State) (a len : Nat) : State :=
  { s with cells := s.cells.filter (fun e => !(decide (memWordBase a ≤ e.1) && decide (e.1 < a + len))) }

/-- What a master's write of bytes leaves beside the bytes: fresh check bits, and the time of a line slot's write. -/
def State.written (s : State) (a len : Nat) : State := (s.cellsCleared a len).slotsTouched a len

/-! ### Sequencer contexts (R47 to R50) -/

/-- Pair `p` of the control and motion cores (primary 2p, checker 2p + 1) runs in lockstep. -/
def State.lockstep (s : State) (q : Nat) : Bool :=
  decide (q < 8) && (tabFind s.splitPairs (q / 2 * 2)).isNone

/-- The sequencer is a checker in lockstep: the pair acts through its primary (R25, R45). -/
def State.isShadow (s : State) (q : Nat) : Bool := q % 2 == 1 && s.lockstep q

/-- The sequencer whose context a number names: a checker in lockstep shares its primary's. -/
def State.ctxOf (s : State) (q : Nat) : Nat := if s.isShadow q then q - 1 else q

/-- The context of a sequencer. -/
def State.seq (s : State) (q : Nat) : Seq := tabGet {} s.seqs (s.ctxOf q)

/-- The state with a sequencer's context replaced. -/
def State.setSeq (s : State) (q : Nat) (c : Seq) : State := { s with seqs := tabPut s.seqs (s.ctxOf q) c }

/-- The sequencer executes instructions of its own: it is RUNNING, present and no lockstep checker. -/
def State.executes (s : State) (q : Nat) : Bool :=
  (s.seq q).run == .running && !s.isShadow q && !s.seqFused q

/-- General register of a context; g0 reads 0 (R50). -/
def Seq.x (c : Seq) (r : BitVec 5) : W32 := if r = 0 then 0 else tabGet 0 c.g r.toNat

/-- The context with a general register written; writes to g0 are discarded (R50). -/
def Seq.setX (c : Seq) (r : BitVec 5) (v : W32) : Seq := if r = 0 then c else { c with g := tabPut c.g r.toNat v }

/-- Lane of a vector register (R66). -/
def Seq.lane (c : Seq) (v : BitVec 5) (k : Nat) : W32 := tabGet 0 c.v (v.toNat * 64 + k)

def Seq.setLane (c : Seq) (v : BitVec 5) (k : Nat) (w : W32) : Seq := { c with v := tabPut c.v (v.toNat * 64 + k) w }

/-- Mask register; m0 reads as all ones (R66). -/
def Seq.mask (c : Seq) (m : BitVec 3) : W64 := if m = 0 then BitVec.allOnes 64 else tabGet 0 c.m m.toNat

def Seq.setMask (c : Seq) (m : BitVec 3) (w : W64) : Seq := { c with m := tabPut c.m m.toNat w }

/-- The group of a sequencer number: 0 control, 1 motion, 2 render, 3 link (R41, R59). -/
def groupOf (q : Nat) : Nat := if q < 4 then 0 else if q < 8 then 1 else if q < 24 then 2 else 3

/-! ### LOC64 (R16 to R19) -/

/-- A LOC64 from its fields (R16); the caller fills no field deeper than the level (R17). -/
def loc64 (level die cluster slice bank word bit : Nat) : W64 :=
  BitVec.ofNat 64 (level * 2 ^ 60 + die * 2 ^ 56 + cluster * 2 ^ 48 + slice * 2 ^ 40 + bank * 2 ^ 32 + word * 2 ^ 6 + bit)

/-- A location at cluster level. -/
def loc5 (cluster : Nat) : W64 := loc64 5 0 cluster 0 0 0 0

/-- A location at slice level. -/
def loc4 (cluster slice : Nat) : W64 := loc64 4 0 cluster slice 0 0 0

/-- The cluster of a sequencer (R15, R20). -/
def seqCluster (q : Nat) : Nat :=
  if q < 4 then 0x18 + q / 2 else if q < 8 then 0x1A + (q - 4) / 2 else if q < 24 then q - 8 else 0x10 + (q - 24) / 4

/-- The location of a sequencer at level 5. -/
def seqLoc (q : Nat) : W64 := loc5 (seqCluster q)

/-- The location of a lane (R19, R238). -/
def laneLoc (n : Nat) : W64 := loc4 (0x10 + n / 4) (n % 4)

/-! ### Signals, interrupt requests and MSI-X (R74, R80, R383) -/

def State.signal (s : State) (k : Nat) : Bool := s.signals.getLsbD k

/-- The state with a hardware signal set. -/
def State.setSignal (s : State) (k : Nat) : State := { s with signals := s.signals ||| BitVec.ofNat 256 (2 ^ (k % 256)) }

def State.clearSignal (s : State) (k : Nat) : State := { s with signals := s.signals &&& ~~~(BitVec.ofNat 256 (2 ^ (k % 256))) }

/-- MSI-X vector `v` is requested: a message is sent, or its pending bit set while it is masked (R383). -/
def State.msixRequest (s : State) (v : Nat) : State :=
  if s.msixFnMask || natBit (s.rd (R.PCIE_MSIX v 3)).toNat 0 then
    s.setBit ⟨R.PCIE_PBA (v / 32), 31, 0⟩ (v % 32) true
  else { s with msixSent := tabPut s.msixSent v (tabGet 0 s.msixSent v + 1) }

/-- The state with interrupt line `line` of sequencer `q` latched pending. -/
def State.latchLine (s : State) (q line : Nat) : State :=
  let c := s.seq q
  s.setSeq q { c with latched := c.latched ||| w32 (2 ^ line) }

/-- The four source ids of a routing word, from [7:0] up. -/
def routeBytes (v : W32) : List Nat := [bitsOf v 7 0, bitsOf v 15 8, bitsOf v 23 16, bitsOf v 31 24]

/-- Lines that one written routing register gives a source: register address, value, source. -/
def routedLines (a : Nat) (v : W32) (src : Nat) : List (Nat × Nat) :=
  if 0x40004000 ≤ a ∧ a < 0x40004000 + 48 * 0x20 ∧ a % 0x20 < 24 then
    ((List.range 4).filter (fun b => (routeBytes v).getD b 0xFF == src)).map
      (fun b => ((a - 0x40004000) / 0x20, 8 + 4 * (a % 0x20 / 4) + b))
  else []

/-- Vectors that one written PCIE_VECMAP register gives a source. -/
def routedVectors (a : Nat) (v : W32) (src : Nat) : List Nat :=
  if 0x400E0200 ≤ a ∧ a < 0x400E0240 then
    ((List.range 4).filter (fun b => (routeBytes v).getD b 0xFF == src)).map (fun b => a - 0x400E0200 + b)
  else []

/-- A hardware source raises its interrupt request: every routed line and vector receives it (R74, R383). Registers
not written hold 0xFF in every byte, which routes nothing. -/
def State.raiseIrq (s : State) (src : Nat) : State :=
  let lines := s.regs.flatMap (fun e => routedLines e.1 e.2 src)
  let vecs := s.regs.flatMap (fun e => routedVectors e.1 e.2 src)
  vecs.foldl State.msixRequest (lines.foldl (fun t l => t.latchLine l.1 l.2) s)

/-- Bit `b` of a flag register is set; when it was 0 and the same bit of the enable register is 1 the source raises its
interrupt request (R125, R155, R238, R299, R318, R385). -/
def State.setStatus (s : State) (stat ien b src : Nat) : State :=
  let f : Field := ⟨stat, 31, 0⟩
  let t := s.setBit f b true
  if !s.bit f b && s.bit ⟨ien, 31, 0⟩ b then t.raiseIrq src else t

/-! ### Event posting (R426 to R428) -/

/-- The severity held for a hardware kind (R428). -/
def State.severityOf (s : State) (kind : Nat) : Nat :=
  bitsOf (s.rd (R.SUP_SEV ((kind - 0x300) / 8))) ((kind - 0x300) % 8 * 4 + 3) ((kind - 0x300) % 8 * 4)

/-- The source of events is a sequencer of a fused-off cluster or lane (R3, R20). -/
def State.sourceFused (s : State) (src : Nat) : Bool := decide (src < 48) && s.seqFused src

/-- A hardware source produces a record: it enters the source's 4-entry buffer, or is lost and counted in SUP_DROP
(R427). Source 63 raises its request at a severity of SUP_CFG.irq_sev or above (R432). A fused-off resource is never a
source (R3). -/
def State.postRec (s : State) (r : Rec) : State :=
  let b := tabGet [] s.ev.buf r.src
  let s' := if b.length < 4 then { s with ev := { s.ev with buf := tabPut s.ev.buf r.src (b ++ [r]) } }
    else { s.bump F.SUP_DROP_count with ev := { s.ev with gap := tabPut s.ev.gap r.src true } }
  if s.sourceFused r.src then s
  else if r.src == 63 && decide (s.get F.SUP_CFG_irq_sev ≤ r.sev) then s'.raiseIrq 63 else s'

/-- A hardware event without an axis stamp. -/
def State.post (s : State) (src kind : Nat) (loc : W64) (detail : W32) : State :=
  s.postRec ⟨src, kind, s.severityOf kind, 0xF, 0, loc, detail, false⟩

/-- A self-test's event (R442). -/
def State.postInjected (s : State) (src kind : Nat) (loc : W64) (detail : W32) : State :=
  s.postRec ⟨src, kind, s.severityOf kind, 0xF, 0, loc, detail, true⟩

/-- A hardware event that carries an axis and a stamp. -/
def State.postAt (s : State) (src kind axis : Nat) (stamp : W32) (loc : W64) (detail : W32) : State :=
  s.postRec ⟨src, kind, s.severityOf kind, axis, stamp, loc, detail, false⟩

end Sys2Proof.Machine
end

