-- ==== Sys2Proof/Machine/Events.lean ====
section
/-! DEFINITION. The event logic: acceptance, rings, the holding queue and watermarks (R426 to R434). -/

namespace Sys2Proof.Machine

/-- PTP time modulo 2^64 ns (R370). -/
def State.ptpTime (s : State) : Nat :=
  ((s.get F.PTP_SECH_sech * 2 ^ 32 + s.get F.PTP_SECL_secl) * 10 ^ 9 + s.get F.PTP_NS_ns) % 2 ^ 64

/-- Records a ring holds (R429: size above 12 acts as 12). -/
def State.ringEntries (s : State) (r : Nat) : Nat := 2 ^ (min (s.get (F.SUP_RING_CFG_size r)) 12 + 4)

/-- Occupied entries of a ring. -/
def State.ringUsed (s : State) (r : Nat) : Nat :=
  let n := s.ringEntries r
  (s.get (F.SUP_RING_WR_wr r) + n - s.get (F.SUP_RING_RD_rd r) % n) % n

/-- Byte offset of a ring's base in the Event bank. -/
def State.ringOffset (s : State) (r : Nat) : Nat := s.get (F.SUP_RING_BASE_off r) * 32

/-- Base of the Event bank and its length (R25). -/
def eventBank : Nat := 0x03900000
def eventBankLen : Nat := 0x300000

/-- The ring refuses a record of a severity (R431). -/
def State.ringRefuses (s : State) (r sev : Nat) : Bool :=
  let free := s.ringEntries r - 1 - s.ringUsed r
  free == 0 || (decide (free ≤ s.get (F.SUP_RING_RSV_n r)) && decide (sev < s.get (F.SUP_RING_CFG_rsv_sev r)))

/-- A ring's occupancy is at or above its watermark (R432; 0 acts as 1). -/
def State.atWatermark (s : State) (r : Nat) : Bool := decide (max 1 (s.get (F.SUP_RING_CFG_wm r)) ≤ s.ringUsed r)

/-- The record is written to the ring and WR advances; a rise to the watermark with host = 1 raises source 63's
request (R429, R432). -/
def State.ringWrite (s : State) (r : Nat) (words : List W32) : State :=
  let was := s.atWatermark r
  let wr := s.get (F.SUP_RING_WR_wr r)
  let a := eventBank + s.ringOffset r + wr * 32
  let t := ((s.wrWords a words).cellsCleared a 32).set (F.SUP_RING_WR_wr r) ((wr + 1) % s.ringEntries r)
  if !was && t.atWatermark r && t.flag (F.SUP_RING_CFG_host r) then t.raiseIrq 63 else t

/-- The ring a source is mapped to (R430). -/
def State.ringOf (s : State) (src : Nat) : Nat :=
  bitsOf (s.rd (R.SUP_SRCMAP (src / 8))) (src % 8 * 4 + 3) (src % 8 * 4)

/-- The eight words of a record at acceptance (R426, R427). -/
def State.recordWords (s : State) (r : Rec) : List W32 :=
  let gap := tabGet false s.ev.gap r.src
  [w32 (r.src * 2 ^ 24 + tabGet 0 s.ev.seqNo r.src % 2 ^ 24),
   w32 (r.kind * 2 ^ 16 + r.sev * 2 ^ 12 + r.axis * 2 ^ 8 + (if r.injected then 4 else 0) + (if gap then 2 else 0)
     + s.get F.PTP_STAT_stat),
   w32 s.ptpTime, w32 (s.ptpTime / 2 ^ 32), r.stamp, r.loc.truncate 32, (r.loc >>> 32).truncate 32, r.detail]

/-- The source's next sequence number is used and its gap mark spent. -/
def State.numbered (s : State) (src : Nat) : State :=
  { s with ev := { s.ev with
      seqNo := tabPut s.ev.seqNo src ((tabGet 0 s.ev.seqNo src + 1) % 2 ^ 24), gap := tabDel s.ev.gap src } }

/-- What became of a record offered for acceptance. -/
inductive Accepted where
  | ring | held | refusedByRing | holdFull
deriving DecidableEq, Repr

/-- Acceptance of one record into its mapped ring or the holding queue (R427, R430, R431). -/
def State.accept (s : State) (r : Rec) : Accepted × State :=
  let ring := s.ringOf r.src
  let behind := s.ev.holding.any (fun h => h.1 == ring)
  if s.flag (F.SUP_RING_CFG_en ring) && !behind then
    if s.ringRefuses ring r.sev then (.refusedByRing, s)
    else (.ring, (s.ringWrite ring (s.recordWords r)).numbered r.src)
  else if 64 ≤ s.ev.holding.length then (.holdFull, s)
  else (.held, { s with ev := { s.ev with holding := s.ev.holding ++ [(ring, r.sev, s.recordWords r)] } }.numbered r.src)

/-- A hardware source's record that is not accepted is lost and counted, and leaves a gap (R430, R431). -/
def State.lostRecord (s : State) (why : Accepted) (src : Nat) : State :=
  let t := { s with ev := { s.ev with gap := tabPut s.ev.gap src true } }
  match why with
  | .refusedByRing => t.bump (F.SUP_RING_STAT_lost (s.ringOf src))
  | .holdFull => t.bump F.SUP_HOLD_lost
  | _ => s

/-- The source whose turn it is: round-robin over the sources with a record in their buffer, from the one after the source
served last, in the order of their ids (R427; DEDUCED, notes/assumptions/9). -/
def State.nextSource (s : State) : Option Nat :=
  let due := (List.range 118).filter (fun k => !(tabGet [] s.ev.buf k).isEmpty)
  match s.ev.served with
  | none => due.head?
  | some last => match due.find? (fun k => decide (last < k)) with
    | some k => some k
    | none => due.head?

/-- The event logic takes the oldest record of a hardware source's buffer (R427). -/
def State.acceptFrom (s : State) (src : Nat) : State :=
  match tabGet [] s.ev.buf src with
  | [] => s
  | r :: rest =>
    let t := { s with ev := { s.ev with buf := tabPut s.ev.buf src rest } }
    match t.accept r with
    | (.ring, u) => u
    | (.held, u) => u
    | (why, u) => u.lostRecord why src

/-- The records held for a ring drain into it in acceptance order until one does not fit (R430). -/
def drainHeld (r : Nat) : List (Nat × Nat × List W32) → State → List (Nat × Nat × List W32) × State
  | [], s => ([], s)
  | (r', sev, ws) :: rest, s =>
    if r' = r then
      if s.ringRefuses r sev then ((r', sev, ws) :: rest, s) else drainHeld r rest (s.ringWrite r ws)
    else let (q, t) := drainHeld r rest s; ((r', sev, ws) :: q, t)

def State.drainRing (s : State) (r : Nat) : State :=
  if s.flag (F.SUP_RING_CFG_en r) then
    let (q, t) := drainHeld r s.ev.holding s
    { t with ev := { t.ev with holding := q } }
  else s

/-- The event logic takes one record of a source whose turn it is (R427). -/
def State.serveSource (s : State) (src : Nat) : State :=
  if s.nextSource = some src then { s with ev := { s.ev with served := some src } }.acceptFrom src else s

/-- EVENT_ACCEPT. -/
def execEventAccept (src : Fin 118) (s : State) : Host.Outcome State Fault Refusal := .next (s.serveSource src.val)

/-- A write of SUP_RINGr_CFG (R429, R478): changing the size while en = 1 is refused; an enable needs the ring inside
the Event bank with its base a multiple of its length, sets WR and RD to 0 and drains the records held for the ring. -/
def State.ringCfgWrite (s : State) (r : Nat) (v : W32) : State :=
  let old := s.rd (R.SUP_RING_CFG r)
  let was := s.flag (F.SUP_RING_CFG_en r)
  if was && bitsOf v 23 20 != bitsOf old 23 20 then s.setBit (F.SUP_RING_STAT_err r) 0 true
  else
    let t := s.wr (R.SUP_RING_CFG r) v
    if !was && bitsOf v 31 31 == 1 then
      let len := t.ringEntries r * 32
      if eventBankLen < t.ringOffset r + len || t.ringOffset r % len != 0 then
        s.setBit (F.SUP_RING_STAT_err r) 0 true
      else ((t.set (F.SUP_RING_WR_wr r) 0).set (F.SUP_RING_RD_rd r) 0).drainRing r
    else t

/-- EVENT_RING_ENABLE: a write of SUP_RINGr_CFG with en = 1, or any other (R429, R430). -/
def execEventRingEnable (r : Fin 16) (value : W32) (s : State) : Host.Outcome State Fault Refusal :=
  .next (s.ringCfgWrite r value)

/-- A write of SUP_RINGr_RD frees entries and resumes draining (R429, R430). -/
def State.ringRdWrite (s : State) (r : Nat) (rd : W16) : State :=
  (s.set (F.SUP_RING_RD_rd r) rd.toNat).drainRing r

/-- EVENT_RING_RD_WRITE: advancing RD (R430). -/
def execEventRingRdWrite (r : Fin 16) (value : W16) (s : State) : Host.Outcome State Fault Refusal :=
  .next (s.ringRdWrite r value)

/-- The hardware records of a source that wait in its buffer are taken, so that a POST of the same source stands behind them
(R434). -/
def State.sourceDrained (s : State) (src : Nat) : State :=
  (tabGet [] s.ev.buf src).foldl (fun t _ => t.acceptFrom src) s

/-- The result of POST after its checks 4, 2 and 3 (R82): acceptance behind the earlier records of its source, with code 1
when the ring or the holding queue refuses; a refused POST uses no sequence number and is not counted as lost (R430, R431,
R434). -/
def State.postFirmware (s : State) (r : Rec) : Nat × State :=
  let u := s.sourceDrained r.src
  match u.accept r with
  | (.ring, t) => (0, t)
  | (.held, t) => (0, t)
  | _ => (1, u)

end Sys2Proof.Machine
end

