-- ==== Sys2Proof/Machine/Memory.lean ====
section
/-! DEFINITION. SRAM banks and in-package DRAM: where an address lies, who may access it, what an erroneous word does,
scrubbing and the march engine (R24, R27, R320 to R341, R477). -/

namespace Sys2Proof.Machine

/-! ### Where an address lies (R13 to R19, R24, R25, R320, R333) -/

/-- The macro or channel whose corrections an address counts under: macro index, or 0x300 + channel (R325). -/
def ceUnit (a : Nat) : Nat := if isSram a then sramMacro a else 0x300 + dramChannel a

/-- Location of the memory word of an address, with a bit where the level is 1 (R16 to R19). -/
def memLoc (level a bit : Nat) : W64 :=
  if isSram a then
    if a < 0x400000 || 0x3900000 ≤ a then loc64 level 0 0x28 (a / 2 ^ 20) (a / 2 ^ 17 % 8) (a / 4 % 2 ^ 15) bit
    else if a < 0x2400000 then
      let o := a - 0x400000
      loc64 level 0 (o / 2 ^ 21) 0xFF (o % 2 ^ 21 / 2 ^ 17) (a % 2 ^ 17 / 4) bit
    else if a < 0x3000000 then
      let n := (a - 0x2400000) / 2 ^ 19
      loc64 level 0 (0x10 + n / 4) (n % 4) (a % 2 ^ 19 / 2 ^ 17) (a % 2 ^ 17 / 4) bit
    else if a < 0x3800000 then
      let n := (a - 0x3000000) / 2 ^ 21
      loc64 level 0 (0x18 + n / 2) (n % 2) (a % 2 ^ 21 / 2 ^ 17) (a % 2 ^ 17 / 4) bit
    else loc64 level 0 0x1A 0xFF (a % 2 ^ 20 / 2 ^ 17) (a % 2 ^ 17 / 4) bit
  else loc64 level (1 + a / 2 ^ 33 % 2) 0x29 (dramChannel a) (dramBank a) (dramWord a) bit

/-- Location of a macro or DRAM bank, at level 3, by march target. -/
def targetLoc (t : Nat) : W64 :=
  if t < 0x300 then
    let a := t * 2 ^ 17
    if a < 0x400000 || 0x3900000 ≤ a then loc64 3 0 0x28 (a / 2 ^ 20) (a / 2 ^ 17 % 8) 0 0
    else if a < 0x2400000 then loc64 3 0 ((a - 0x400000) / 2 ^ 21) 0xFF ((a - 0x400000) % 2 ^ 21 / 2 ^ 17) 0 0
    else if a < 0x3000000 then
      let n := (a - 0x2400000) / 2 ^ 19
      loc64 3 0 (0x10 + n / 4) (n % 4) (a % 2 ^ 19 / 2 ^ 17) 0 0
    else if a < 0x3800000 then
      let n := (a - 0x3000000) / 2 ^ 21
      loc64 3 0 (0x18 + n / 2) (n % 2) (a % 2 ^ 21 / 2 ^ 17) 0 0
    else loc64 3 0 0x1A 0xFF (a % 2 ^ 20 / 2 ^ 17) 0 0
  else
    let c := (t - 0x300) / 16
    loc64 3 (1 + c / 2) 0x29 c (t % 16) 0 0

/-! ### Access checks (R27, R329, R330, R335, R338) -/

/-- The SRAM bank or DRAM of an address belongs to a fused-off resource (R3). -/
def State.memFused (s : State) (a : Nat) : Bool :=
  (decide (0x400000 ≤ a) && decide (a < 0x2400000) && s.rcFused ((a - 0x400000) / 0x200000)) ||
    (decide (0x2400000 ≤ a) && decide (a < 0x3000000) && s.laneFused ((a - 0x2400000) / 0x80000)) ||
    (decide (0x0200000000 ≤ a) && s.dieBOff)

/-- A march target belongs to a fused-off resource (R3). -/
def State.targetFused (s : State) (t : Nat) : Bool := if t < 0x300 then s.memFused (t * 2 ^ 17) else s.dieBOff && decide (0x320 ≤ t)

/-- Fabric address that a core address in an aperture reaches: none through one that is disabled or maps no DRAM (R30). -/
def State.aperture (s : State) (q a : Nat) : Option Nat :=
  let n := a / 2 ^ 28 % 4
  let b := s.get (F.SYS_AP_BASE_base q n)
  if s.flag (F.SYS_AP_BASE_en q n) && decide (0x10 ≤ b) && decide (b ≤ 0x2F) then some (b * 2 ^ 28 + a % 2 ^ 28) else none

/-- A core address lies in an aperture (R25, R30). -/
def inAperture (a : Nat) : Bool := decide (0x80000000 ≤ a) && decide (a < 0xC0000000)

/-- A test covers a target. -/
def March.covers (m : March) (t : Nat) : Bool := decide (m.first ≤ t) && decide (t < m.first + m.count)

/-- A march test that destroys contents covers the address (R338). -/
def State.underMarch (s : State) (a : Nat) : Bool :=
  match s.march with
  | some m => m.mode != 1 && (isSram a || isDram a) && m.covers (marchTarget a)
  | none => false

/-- A memory address is unmapped, fused off, under a destructive test or on a channel that is not ready (R27, R335,
R338). -/
def State.memAbsent (s : State) (a : Nat) : Bool :=
  !(isSram a || isDram a) || s.memFused a || s.underMarch a ||
    (isDram a && !s.bit F.MEM_DSTAT_rdy (dramChannel a))

/-- Permissions an access needs (R330). -/
structure Needs where
  r : Bool
  w : Bool
  x : Bool
deriving DecidableEq, Repr

def Needs.read : Needs := ⟨true, false, false⟩
def Needs.write : Needs := ⟨false, true, false⟩
def Needs.both : Needs := ⟨true, true, false⟩
def Needs.fetch : Needs := ⟨false, false, true⟩

/-- Region `k` of master `m` permits an access to pages `lo` to `hi` (R330). -/
def State.regionPermits (s : State) (m k lo hi : Nat) (n : Needs) : Bool :=
  s.flag (F.MEM_RGN_CTL_en m k) && decide (s.get (F.MEM_RGN_BASE_base m k) ≤ lo) &&
    decide (hi ≤ s.get (F.MEM_RGN_LIM_limit m k)) && (!n.r || s.flag (F.MEM_RGN_CTL_r m k)) &&
    (!n.w || s.flag (F.MEM_RGN_CTL_w m k)) && (!n.x || s.flag (F.MEM_RGN_CTL_x m k))

/-- Some region of the master permits the access (R330). -/
def State.permitted (s : State) (m a len : Nat) (n : Needs) : Bool :=
  (List.range 16).any (fun k => s.regionPermits m k (a / 4096) ((a + len - 1) / 4096) n)

/-- Location of an access's initiator at level 5, by region master (R27, R329). -/
def masterLoc (m : Nat) : W64 :=
  if m < 48 then seqLoc m else if m < 50 then loc5 0x28 else if m = 50 then loc5 0x20 else if m = 51 then loc5 0x21
  else loc5 0x32

/-- ACCESS_ERR is posted for an access that is not performed (R27, R446). -/
def State.accessErr (s : State) (m a : Nat) : State := s.post 63 0x4E3 (masterLoc m) (w32 (a / 256))

/-- REGION_FAULT is posted for an access the regions refuse (R330, R340). -/
def State.regionFault (s : State) (m a : Nat) (n : Needs) : State :=
  s.post 63 0x444 (masterLoc m) (w32 (m * 2 ^ 24 + a / 4096 % 2 ^ 16 * 2 ^ 8 + (if n.r then 4 else 0) +
    (if n.w then 2 else 0) + (if n.x then 1 else 0)))

/-- Addresses in every macro, DRAM channel and DRAM bank that a range touches: its first and last byte, and the starts of the
256-byte blocks between (R320, R333). -/
def touched (a len : Nat) : List Nat :=
  a :: (a + len - 1) :: ((List.range (len / 256 + 1)).map (fun k => (a / 256 + 1 + k) * 256)).filter (fun b => decide (b < a + len))

/-- The check of a memory access by a checked master, R27 before the regions: `none` when it may be performed, else the
state after the report. -/
def State.memCheck (s : State) (m a len : Nat) (n : Needs) : Option State :=
  if (touched a len).any s.memAbsent then some (s.accessErr m a)
  else if s.permitted m a len n then none else some (s.regionFault m a n)

/-! ### Erroneous words (R321, R325, R326, R477) -/

/-- What the code reports of a word that is read: the data stands, or an uncorrectable error, or wrong data. -/
inductive Ecc where
  | good | uncorrectable | wrong
deriving DecidableEq, Repr

/-- An error is logged: ELOG0 holds the low word, the high word waits for the latching read (R325, R326, R341). -/
def State.logError (s : State) (loc : W64) : State :=
  { s.wr R.MEM_ELOG0 (loc.truncate 32) with elogHi := (loc >>> 32).truncate 32 }

/-- A corrected error is counted, logged, and posted when no window of its macro or channel is open (R325). -/
def State.memCE (s : State) (a : Nat) (loc : W64) (extra : Nat) : State :=
  let u := ceUnit a
  let n := min (tabGet 0 s.ceCount u + 1) 0xFFFF
  let t := (s.bump F.MEM_CECNT_v).logError loc
  if (tabFind s.ceOpen u).isNone then
    { t.post 63 0x440 loc (w32 (extra + n)) with ceCount := tabPut s.ceCount u 0, ceOpen := tabPut s.ceOpen u () }
  else { t with ceCount := tabPut s.ceCount u n }

/-- An uncorrectable error is counted, logged and posted (R326). -/
def State.memUE (s : State) (reader a : Nat) : State :=
  ((s.bump F.MEM_UECNT_v).logError (memLoc 2 a 0)).post 63 0x441 (memLoc 2 a 0) (w32 (reader % 256))

/-- A word is read by `reader` (0xFF internal): its erroneous cells, if any, are reported. A corrected word keeps its
cell until a write-back or a write (R325). The report of three or more erroneous cells is a free choice (R477). -/
def State.eccRead (s : State) (reader a : Nat) : Ecc × State :=
  match tabFind s.cells (memWordBase a) with
  | none => (.good, s)
  | some (.single b) => (.good, s.memCE a (memLoc 1 a b) 0)
  | some (.checkBit b) =>
    if isSram a then (.good, s.memCE a (memLoc 1 a (32 + b)) 0)
    else (.good, s.memCE a (memLoc 2 a 0) (2 ^ 31 + b % 8 * 2 ^ 28))
  | some .double => (.uncorrectable, s.memUE reader a)
  | some .multi =>
    match s.freeN % 3 with
    | 0 => (.uncorrectable, s.drawn.memUE reader a)
    | 1 => (.wrong, s.drawn.memCE a (memLoc 1 a 0) 0)
    | _ => (.wrong, s.drawn)

/-- The words of a range are read in rising order until one is uncorrectable; `steps` bounds the walk. -/
def eccSpan (reader a stop : Nat) : Nat → State → Ecc × State
  | 0, s => (.good, s)
  | n + 1, s =>
    if stop ≤ a then (.good, s)
    else match s.eccRead reader a with
      | (.uncorrectable, t) => (.uncorrectable, t)
      | (e, t) =>
        let next := memWordBase a + (if isSram a then 4 else 8)
        match eccSpan reader next stop n t with
        | (.good, u) => (e, u)
        | r => r

/-- The read of a byte range finds an uncorrectable error (R326). Words without erroneous cells are passed over. -/
def State.eccRange (s : State) (reader a len : Nat) : Ecc × State :=
  if s.cells.any (fun e => decide (memWordBase a ≤ e.1) && decide (e.1 < a + len)) then eccSpan reader a (a + len) (len + 1) s
  else (.good, s)

/-- Bytes read by a reader that reports errors under a number of its own (0xFF internal): none where an uncorrectable
error is found; data the code reports wrongly is free (R326, R477). -/
def State.dataRead (s : State) (reader a len : Nat) : Option (List W8) × State :=
  match s.eccRange reader a len with
  | (.uncorrectable, t) => (none, t)
  | (.wrong, t) => (some ((t.rdBytes a len).mapIdx (fun i _ => BitVec.ofNat 8 (Config.freeNat (t.freeCount + i)))),
      { t with freeCount := t.freeCount + len })
  | (.good, t) => (some (t.rdBytes a len), t)

/-- The word has failed cells, newly found by an access. -/
def State.cellFound (s : State) (a : Nat) (found : Option CellErr) : State :=
  match found with
  | some e => { s with cells := tabPut s.cells (memWordBase a) e }
  | none => s

/-- The word of an address holds data the code has corrected wrongly: undefined bytes (R477). -/
def State.scrambled (s : State) (a : Nat) : State :=
  let n := if isSram a then 4 else 8
  ({ s with freeCount := s.freeCount + n } : State).wrBytes (memWordBase a)
    ((List.range n).map (fun i => BitVec.ofNat 8 (Config.freeNat (s.freeCount + i))))

/-- What a partial write merges with: the word as the code reports it. -/
def State.mergeOld (s : State) (e : Ecc) (a : Nat) : State := if e == .wrong then s.scrambled a else s

/-- A checked write of bytes: partial words at either end are read, merged and written, so an uncorrectable error there
refuses the write (R321, R334). `none` when refused. -/
def State.mergeWrite (s : State) (reader a : Nat) (bs : List W8) : Option State × State :=
  let len := bs.length
  let w := if isSram a then 4 else 8
  let headPartial := a % w != 0 || len < w
  let tailPartial := (a + len) % w != 0
  let r1 := if headPartial then s.eccRead reader a else (.good, s)
  let r2 := if tailPartial && memWordBase (a + len - 1) != memWordBase a then r1.2.eccRead reader (a + len - 1) else (.good, r1.2)
  if r1.1 == .uncorrectable || r2.1 == .uncorrectable then (none, r2.2)
  else (some ((((r2.2.mergeOld r1.1 a).mergeOld r2.1 (a + len - 1)).wrBytes a bs).written a len), r2.2)

/-! ### Commands of the memory chapter -/

/-- The corrected word is written back unless it has been written since (R325, R328): a word written since holds no
erroneous cell. Whether three or more erroneous cells were reported as a correction is a free choice; if so the word now
holds wrong data with valid check bits (R477). -/
def State.writeBack (s : State) (a : Nat) : State :=
  match tabFind s.cells (memWordBase a) with
  | some (.single _) => s.cellCleared a
  | some (.checkBit _) => s.cellCleared a
  | some .double => s
  | some .multi => if s.freeN % 2 = 0 then s.drawn else (s.drawn.scrambled a).cellCleared a
  | none => s

/-- CORRECTION_WRITEBACK. -/
def execCorrectionWriteback (word : BitVec 40) (s : State) : Host.Outcome State Fault Refusal := .next (s.writeBack word.toNat)

/-- CE_WINDOW_EXPIRE: the 1 ms window of a macro or channel closes (R325). -/
def execCeWindowExpire (unit : Fin 772) (s : State) : Host.Outcome State Fault Refusal :=
  .next { s with ceOpen := tabDel s.ceOpen unit.val }

/-- SCRUB_READ: the scrubber reads its next word while MEM_SCRUB.en = 1 (R327). -/
def execScrubRead (word : BitVec 40) (found : Option CellErr) (s : State) : Host.Outcome State Fault Refusal :=
  .next (if s.flag F.MEM_SCRUB_en && !s.memAbsent word.toNat then
    ((s.cellFound word.toNat found).eccRead 0xFF word.toNat).2 else s)

/-- SCRUB_PASS_END: a pass period ends; an unfinished pass is late (R327). -/
def execScrubPassEnd (dram finished : Bool) (s : State) : Host.Outcome State Fault Refusal :=
  .next (if s.flag F.MEM_SCRUB_en && !finished then
    ({ s with scrubLate := true }.set (if dram then F.MEM_SCRSTAT_dram_late else F.MEM_SCRSTAT_sram_late) 1).post 63 0x442
      (loc5 (if dram then 0x29 else 0x28)) (b2w dram) else s)

/-- The waiter's access is of group 3 to 5 of R323: every initiator but the sequencers, and the internal units (none). -/
def starves (m : Option (Fin 53)) : Bool :=
  match m with
  | some k => decide (48 ≤ k.val)
  | none => true

/-- STARVE: an access of group 3 to 5 of R323 has waited starve_lim cycles (R324). The detail names an internal unit as
MEM_UE does, by 0xFF (R340). -/
def State.starve (s : State) (unit : Nat) (m : Option (Fin 53)) : State :=
  if starves m then (s.bump F.MEM_STARVE_v).post 63 0x443 (targetLoc unit) (w32 (match m with | some k => k.val | none => 0xFF)) else s

def execStarve (unit : Fin 768) (m : Option (Fin 53)) (s : State) : Host.Outcome State Fault Refusal := .next (s.starve unit.val m)

/-- The test a go names; targets beyond the last are skipped (R341). -/
def State.marchOf (s : State) : March :=
  let dram := s.flag F.MEM_MARCH_dram
  ⟨s.get F.MEM_MARCH_mode, s.flag F.MEM_MARCH_repair, dram, s.get F.MEM_MTGT_first + (if dram then 0x300 else 0),
    min (max 1 (s.get F.MEM_MTGT_count)) ((if dram then 64 else 768) - s.get F.MEM_MTGT_first)⟩

/-- The sequencer whose bank a macro belongs to, for the banks that have one (R320). -/
def macroOwner (t : Nat) : List Nat :=
  if 0x20 ≤ t ∧ t < 0x120 then [8 + (t - 0x20) / 16]
  else if 0x120 ≤ t ∧ t < 0x180 then [24 + (t - 0x120) / 4]
  else if 0x180 ≤ t ∧ t < 0x1C0 then [(t - 0x180) / 16]
  else if 0x1C0 ≤ t ∧ t < 0x1C8 then [4, 5, 6, 7] else []

/-- A destructive go is refused while a target holds the bank of a sequencer that is not HALTED (R338). -/
def State.marchBlocked (s : State) (m : March) : Bool :=
  !m.dram && m.mode != 1 && (List.range m.count).any (fun k =>
    (macroOwner (m.first + k)).any (fun q => !s.seqFused q && (s.seq q).run != .halted))

/-- MARCH_GO: a write of MEM_MARCH.go starts a test, is ignored while busy, or is refused (R336, R338). -/
def State.marchGo (s : State) : State :=
  let m := s.marchOf
  if s.march.isSome then s
  else if m.mode = 3 || (m.mode = 1 && m.dram) || s.marchBlocked m then s.set F.MEM_MSTAT_refused 1
  else { s.set F.MEM_MARCH_busy 1 with march := some m }

def execMarchGo (s : State) : Host.Outcome State Fault Refusal := .next s.marchGo

/-- The targets of a destructive test that are present hold all 0 with valid check bits afterwards (R3, R336). -/
def State.marchCleared (s : State) (m : March) : State :=
  if m.mode = 1 then s
  else
    let hit := fun (e : Nat) => m.covers e && !s.targetFused e
    { s with mem := s.mem.filter (fun e => !hit (marchTarget e.1)),
             cells := s.cells.filter (fun e => !hit (marchTarget e.1)),
             memZero := ((List.range m.count).filter (fun k => !s.targetFused (m.first + k))).foldl
               (fun z k => tabPut z (m.first + k) ()) s.memZero }

/-- A failing row takes a spare of its target (R339). -/
def State.repairRow (s : State) (t : Nat) : State :=
  { s.bump F.MEM_MSTAT_rep with sparesUsed := tabPut s.sparesUsed t (min 4 (tabGet 0 s.sparesUsed t + 1)) }

/-- A target whose failing row finds no spare has failed (R339). -/
def State.failTarget (s : State) (mode : Nat) (first : Bool) (t : Nat) : State :=
  let u := { s.bump F.MEM_MSTAT_unrep with failedTargets := tabPut s.failedTargets t () }
  let v := if first then { u.wr R.MEM_MFAIL0 ((targetLoc t).truncate 32) with mfailHi := (targetLoc t >>> 32).truncate 32 } else u
  (v.set F.MEM_MSTAT_fail 1).post 63 0x446 (targetLoc t) (w32 mode)

/-- The failing rows of a test in the order found: with repair = 1 each takes a spare of its target while one is left;
otherwise its target has failed (R339). -/
def State.marchRows (m : March) (first : Bool) : List (Fin 832) → State → State
  | [], s => s
  | t :: ts, s =>
    if m.repair && decide (tabGet 0 s.sparesUsed t.val < 4) then marchRows m first ts (s.repairRow t.val)
    else marchRows m false ts (s.failTarget m.mode first t.val)

/-- Minutes since a monitor last passed become 0 (R442). -/
def State.monitorPassed (s : State) (mon : Nat) : State := { s with monPassed := tabPut s.monPassed mon s.uptime }

/-- MARCH_COMPLETE: the running test ends; `found` names the target of each failing row it found (R336, R339, R340); a
fused-off target is not tested and reports nothing (R3). A
preserving march of all SRAM without a failure passes monitor 8 (R442). -/
def State.marchComplete (s : State) (found : List (Fin 832)) : State :=
  match s.march with
  | none => s
  | some m =>
    let rows := found.filter (fun r => m.covers r.val && !s.targetFused r.val)
    let t := (({ s.marchCleared m with march := none }.set F.MEM_MSTAT_rep 0).set F.MEM_MSTAT_unrep 0).marchRows m true rows
    let failed := (rows.filter (fun r => (tabFind t.failedTargets r.val).isSome)).eraseDups.length
    let u := ((t.set F.MEM_MARCH_busy 0).set F.MEM_MSTAT_done 1).post 63 0x445
      (loc5 (if m.dram then 0x29 else 0x28)) (w32 (t.get F.MEM_MSTAT_rep * 256 + min 255 failed))
    if m.mode == 1 && m.first == 0 && m.count == 768 && failed == 0 then u.monitorPassed 8 else u

def execMarchComplete (rows : List (Fin 832)) (s : State) : Host.Outcome State Fault Refusal := .next (s.marchComplete rows)

end Sys2Proof.Machine
end

