-- ==== Sys2Proof/Machine/Shutters.lean ====
section
/-! DEFINITION. Shutters: causes, latches, conditions, the open protocol, sensor gates and SHUT_N (R262 to R278), and the
global supervisor conditions that close the global shutter (R435, R436). -/

namespace Sys2Proof.Machine

/-- A shutter: the global one, bar `b`'s or tile `k`'s (R262). -/
inductive Sh where
  | global
  | bar (b : Nat)
  | tile (k : Nat)
deriving DecidableEq, Repr

/-- Cause bits (R263). -/
def causeFirmware : Nat := 0
def causeSupervisor : Nat := 1
def causeSupply : Nat := 2
def causeHeadTemp : Nat := 4
def causeLinkFault : Nat := 5
def causeMismatch : Nat := 6

/-- The latch field of a shutter. -/
def Sh.latchField : Sh → Field
  | .global => F.SHUT_GSTAT_latch
  | .bar b => F.SHUT_B_STAT_latch b
  | .tile k => F.SHUT_T_latch k

/-- The closed flag of a shutter. -/
def Sh.closedField : Sh → Field
  | .global => F.SHUT_GSTAT_closed
  | .bar b => F.SHUT_B_STAT_closed b
  | .tile k => F.SHUT_T_closed k

/-- The condition field of a shutter. -/
def Sh.condField : Sh → Field
  | .global => F.SHUT_GCOND_cond
  | .bar b => F.SHUT_B_COND_cond b
  | .tile k => F.SHUT_T_cond k

def State.latchOf (s : State) (h : Sh) : Nat := s.get h.latchField
def State.condOf (s : State) (h : Sh) : Nat := s.get h.condField

/-- A shutter is closed while its latch is not 0 (R262). -/
def State.isClosed (s : State) (h : Sh) : Bool := s.latchOf h != 0

/-- The latch and with it the closed flag. -/
def State.setLatch (s : State) (h : Sh) (v : Nat) : State := (s.set h.latchField v).set h.closedField (if v = 0 then 0 else 1)

/-- Events of a shutter: source, location and detail head (R275). -/
def State.shutPost (s : State) (h : Sh) (kind low : Nat) : State :=
  match h with
  | .global => s.post 63 kind (loc4 0x39 0x18) (w32 low)
  | .bar b => (s.post (110 + b) kind (loc4 0x39 (0x10 + b)) (w32 (2 ^ 30 + b * 2 ^ 16 + low))).raiseIrq (110 + b)
  | .tile k => s.post (24 + k / 16) kind (laneLoc (k / 16)) (w32 (2 * 2 ^ 30 + k * 2 ^ 16 + low))

/-- A cause sets its latch bit, closing the shutter; SHUT_CLOSE is posted for a bit newly latched (R262, R273). -/
def State.latchCause (s : State) (h : Sh) (bit : Nat) : State :=
  if natBit (s.latchOf h) bit then s
  else (s.setLatch h (natSetBit (s.latchOf h) bit true)).shutPost h 0x3C0 (2 ^ bit)

/-- A condition becomes true or false; a true one has its latch bit set (R262). -/
def State.setCond (s : State) (h : Sh) (bit : Nat) (b : Bool) : State :=
  let t := s.set h.condField (natSetBit (s.condOf h) bit b)
  if b then t.latchCause h bit else t

/-- A tile belongs to the device: its id is below 384 and its lane is present (R3, R272). -/
def State.tileExists (s : State) (k : Nat) : Bool := decide (k < 384) && !s.laneFused (k / 16)

/-! ### The open protocol (R272, R273) -/

/-- The code for which an open command on a shutter that exists is refused, checked in the order of R272. -/
def State.openRefusal (s : State) (h : Sh) (ack : Nat) : Option Nat :=
  if h = .global && s.get F.SHUT_MODE_mode == 0 then some 3
  else if ack != s.latchOf h then some 1
  else if (s.condOf h &&& ack) != 0 then some 2
  else none

/-- A refusal is recorded in the level's error register and posted (R272, R273, R275). -/
def State.shutRefused (s : State) (h : Sh) (code ack : Nat) : State :=
  match h with
  | .global => ((s.set F.SHUT_GERR_code code).set F.SHUT_GERR_err 1).shutPost h 0x3C2 (code * 2 ^ 25 + ack)
  | .bar b => ((s.set (F.SHUT_B_ERR_code b) code).set (F.SHUT_B_ERR_err b) 1).shutPost h 0x3C2 (code * 2 ^ 25 + ack)
  | .tile k =>
    let t := ((s.set F.SHUT_TERR_code code).set F.SHUT_TERR_tile k).set F.SHUT_TERR_err 1
    if s.tileExists k then t.shutPost h 0x3C2 (code * 2 ^ 25 + ack)
    else t.post 63 0x3C2 (loc4 0x39 0x18) (w32 (2 * 2 ^ 30 + code * 2 ^ 25 + k * 2 ^ 16 + ack))

/-- An accepted open command clears the latch bits of its mask and posts SHUT_OPEN (R272). -/
def State.shutOpened (s : State) (h : Sh) (ack : Nat) : State :=
  (s.setLatch h (s.latchOf h - (s.latchOf h &&& ack))).shutPost h 0x3C1 ack

/-- A command on one shutter (R272). -/
def State.shutOne (s : State) (h : Sh) (close opn : Bool) (ack : Nat) : State :=
  if close && opn then s.shutRefused h 4 ack
  else if opn then
    match s.openRefusal h ack with
    | some c => s.shutRefused h c ack
    | none => s.shutOpened h ack
  else if close then s.latchCause h causeFirmware
  else s

/-- The tiles a SHUT_TCMD with all = 1 can reach: those of lanes present (R273). -/
def State.allTiles (s : State) : List Nat := (List.range 384).filter (fun k => !s.laneFused (k / 16))

/-- An open command with all = 1: tiles whose latch equals ack open; of those whose condition forbids it the lowest is
recorded as refused under code 2; other tiles are left as they are (R273). -/
def State.shutOpenAll (s : State) (ack : Nat) : State :=
  let named := s.allTiles.filter (fun k => s.latchOf (.tile k) == ack)
  let bad := named.filter (fun k => (s.condOf (.tile k) &&& ack) != 0)
  let t := (named.filter (fun k => (s.condOf (.tile k) &&& ack) == 0)).foldl (fun u k => u.shutOpened (.tile k) ack) s
  match bad with
  | [] => t
  | k :: _ => t.shutRefused (.tile k) 2 ack

/-- A write of SHUT_TCMD (R272, R273). -/
def State.shutTileCmd (s : State) (v : W32) : State :=
  let close := bitsOf v 31 31 == 1
  let opn := bitsOf v 30 30 == 1
  let ack := bitsOf v 7 0
  let k := bitsOf v 24 16
  if bitsOf v 29 29 == 1 then
    if close && opn then s.shutRefused (.tile 0x1FF) 4 ack
    else if opn then s.shutOpenAll ack
    else if close then s.allTiles.foldl (fun u j => u.latchCause (.tile j) causeFirmware) s
    else s
  else if close && opn then s.shutRefused (.tile k) 4 ack
  else if s.tileExists k then s.shutOne (.tile k) close opn ack
  else if opn then s.shutRefused (.tile k) 5 ack
  else s

/-- A write of a shutter command register (R272). -/
def State.shutCmd (s : State) (sh : Shutter) (v : W32) : State :=
  match sh with
  | .global => s.shutOne .global (bitsOf v 31 31 == 1) (bitsOf v 30 30 == 1) (bitsOf v 15 0)
  | .bar b => s.shutOne (.bar b.val) (bitsOf v 31 31 == 1) (bitsOf v 30 30 == 1) (bitsOf v 15 0)
  | .tile => s.shutTileCmd v

/-- SHUT_CLOSE_CMD: a write with close = 1 and open = 0 sets latch bit 0 (R272). -/
def execShutCloseCmd (sh : Shutter) (value : W32) (s : State) : Host.Outcome State Fault Refusal :=
  .next (s.shutCmd sh (putBits (putBits value 31 31 1) 30 30 0))

/-- SHUT_OPEN_CMD: a write with open = 1; with close as well it is refused under code 4 (R272). -/
def execShutOpenCmd (sh : Shutter) (value : W32) (s : State) : Host.Outcome State Fault Refusal :=
  .next (s.shutCmd sh (putBits value 30 30 1))

/-! ### Supervisor conditions (R435, R436) -/

/-- The FAULT_N cause latch and with it the asserted flag (R436). -/
def State.setFaultLatch (s : State) (v : Nat) : State :=
  (s.set F.SUP_FAULTN_latch v).set F.SUP_FAULTN_asserted (if v = 0 then 0 else 1)

/-- Latch bits of SUP_FAULTN that a set of global conditions holds set (R436). -/
def faultLatchOf (cond : Nat) : Nat :=
  (if natBit cond 0 then 1 else 0) + (if natBit cond 1 then 2 else 0) + (if natBit cond 3 then 4 else 0) +
    (if natBit cond 4 then 8 else 0)

/-- Global supervisor condition `i` becomes true or false: the global shutter's supervisor condition and the FAULT_N
latch follow (R435, R436). -/
def State.setGcond (s : State) (i : Nat) (b : Bool) : State :=
  let t := s.setBit F.SUP_GCOND_cond i b
  let c := t.get F.SUP_GCOND_cond
  (t.setFaultLatch (t.get F.SUP_FAULTN_latch ||| faultLatchOf c)).setCond .global causeSupervisor (c != 0)

/-! ### Sensor gates (R266, R267) -/

/-- A gate is asserted at a filtered level (R266). -/
def State.gateAssertedAt (s : State) (i : Nat) (level : Bool) : Bool :=
  let inv := s.flag (F.SNS_GATE_inv i) && i != 1 && i != 2
  if i < 3 then level == inv else level != inv

/-- The level a gate's filter has accepted; it is kept in the place of SNS_GLVL.raw, which a read finds before the filter
(R266, R277). -/
def State.gateFiltered (s : State) (i : Nat) : Bool := natBit (s.get F.SNS_GLVL_raw) i

/-- The condition of a gate follows its level, enable and routing (R266, R267). -/
def State.gateApply (s : State) (i : Nat) : State :=
  let a := s.gateAssertedAt i (s.gateFiltered i)
  let on := a && s.flag (F.SNS_GATE_en i)
  let t := s.setBit F.SNS_GLVL_asserted i a
  let u := if on then t.setBit F.SNS_GSTAT_seen i true else t
  let v := u.setCond .global (8 + i) (on && s.flag (F.SNS_GATE_glob i))
  (List.range 8).foldl (fun w b => w.setCond (.bar b) (8 + i) (on && natBit (s.get (F.SNS_GATE_bars i)) b)) v

/-- SENSOR_GATE_CHANGE: the filter of a gate accepts a new level (R266, R267). -/
def execSensorGateChange (gate : Fin 8) (level : Bool) (s : State) : Host.Outcome State Fault Refusal :=
  .next ((s.setBit F.SNS_GLVL_raw gate.val level).gateApply gate.val)

/-- A write of SNS_GATEi: in the press configuration a write that would clear en or glob of gates 0 to 2 is refused
for that field and sets cfg_err, its other fields being written (R268, R478); inv is reserved for gates 1 and 2. -/
def State.gateWrite (s : State) (i : Nat) (v : W32) : State :=
  let v0 := if i = 1 ∨ i = 2 then putBits v 30 30 0 else v
  let locked := s.get F.SHUT_MODE_mode == 1 && decide (i < 3)
  let badEn := locked && s.flag (F.SNS_GATE_en i) && bitsOf v 31 31 == 0
  let badGlob := locked && s.flag (F.SNS_GATE_glob i) && bitsOf v 29 29 == 0
  let bad := badEn || badGlob
  let v1 := (fun w => if badGlob then putBits w 29 29 1 else w) (if badEn then putBits v0 31 31 1 else v0)
  let t := s.wr (R.SNS_GATE i) (v1 &&& 0xE0FF000F)
  (if bad then t.set F.SNS_GSTAT_cfg_err 1 else t).gateApply i

/-- A write of SNS_GSTAT: a bit of `seen` cleared while its gate is asserted with en = 1 is set again (R277). -/
def State.gateStatWrite (s : State) (v : W32) : State :=
  ((List.range 8).filter (fun i => s.bit F.SNS_GLVL_asserted i && s.flag (F.SNS_GATE_en i))).foldl
    (fun t i => t.setBit F.SNS_GSTAT_seen i true) (s.plainWrite R.SNS_GSTAT v)

/-! ### SHUT_N (R274) -/

/-- The level of SHUT_N: low (false) while a shutter it reports is closed or P_FIRE is not locked (R274). -/
def State.shutN (s : State) : Bool :=
  let sel := min 2 (s.get F.SNS_SHUTN_sel)
  !(s.resetting || s.isClosed .global || (decide (1 ≤ sel) && (List.range 8).any (fun b => s.flag (F.BAR_CFG_en b) && s.isClosed (.bar b))) ||
    (sel == 2 && s.allTiles.any (fun k => s.flag (F.FIRE_TILE_CFG_en k) && s.isClosed (.tile k))) ||
    !s.bit F.SYS_CLK_STAT_lock 3)

end Sys2Proof.Machine
end

