-- ==== Sys2Proof/Machine/Vilhel.lean ====
section
/-! DEFINITION. The blocks of the Vilhel link above the line coding: ordered sets with their CRC-8, transoms with their
CRC-32C, and what the device reads from the blocks it receives (R209 to R212, R226, R229). -/

namespace Sys2Proof.Machine

/-! ### Checks (R209, R211) -/

/-- One bit of the CRC-8 of R209. -/
def crc8Bit (c : Nat) (b : Bool) : Nat := if natBit c 7 != b then 2 * c % 256 ^^^ 0x2F else 2 * c % 256

/-- The CRC-8 of an ordered set's bits [55:8], most significant first (R209). -/
def crc8 (fields : Nat) : Nat := (List.range 48).foldl (fun c i => crc8Bit c (natBit fields (47 - i))) 0xFF

/-- CRC-32C, reflected, one bit at a time (R211). -/
def crc32cBit (c : Nat) : Nat := if c % 2 = 1 then (c / 2) ^^^ 0x82F63B78 else c / 2
def crc32cByte (c : Nat) (b : W8) : Nat := (List.range 8).foldl (fun x _ => crc32cBit x) (c ^^^ b.toNat)
def crc32c (bs : List W8) : Nat := bs.foldl crc32cByte 0xFFFFFFFF ^^^ 0xFFFFFFFF

/-- A little-endian field of a byte list. -/
def fieldLE (bs : List W8) (off n : Nat) : Nat := leNat ((bs.drop off).take n)

/-- Little-endian words of a byte list (R211). -/
def wordsOf : List W8 → List W32
  | a :: b :: c :: d :: t => w32 (leNat [a, b, c, d]) :: wordsOf t
  | _ => []

/-- Bits `hi` to `lo` of a block. -/
def blockBits (b : W64) (hi lo : Nat) : Nat := b.toNat / 2 ^ lo % 2 ^ (hi + 1 - lo)

/-! ### Ordered sets (R209, R210) -/

/-- An ordered set from its block type and bits [55:8]. -/
def orderedSet (type fields : Nat) : W64 := BitVec.ofNat 64 (crc8 fields * 2 ^ 56 + fields % 2 ^ 48 * 2 ^ 8 + type)

def strobeBlock (x : StrobeSet) : W64 :=
  orderedSet 0x4B (x.mask * 2 ^ 32 + x.tag * 2 ^ 24 + (if x.rev then 2 ^ 23 else 0) + (if x.blank then 2 ^ 22 else 0) +
    x.fine * 2 ^ 16 + x.pt)

def cancelBlock (mask tag : Nat) : W64 := orderedSet 0x55 (mask * 2 ^ 32 + tag * 2 ^ 24)

def grantBlock (g : Grant) : W64 := orderedSet 0x2D (g.pos * 2 ^ 44 + g.kind * 2 ^ 40 + g.len * 2 ^ 32)

/-- MARK with its code: 0 ENUM, 1 DELAY with its sequence number, 3 DOWN. -/
def markBlock (code seq : Nat) : W64 := orderedSet 0x66 (code * 2 ^ 44 + seq)

/-- A strobe or cancel as it leaves (R224). -/
def SentSet.out : SentSet → LinkOut
  | .strobe x => .set (strobeBlock x)
  | .cancel m g _ => .set (cancelBlock m g)

/-- MARK DOWN, 16 times (R216). -/
def marksDown : List LinkOut := List.replicate 16 (.set (markBlock 3 0))

/-- The 64 MARK DELAY sets, numbered from 0 (R216). -/
def marksDelay : List LinkOut := (List.range 64).map (fun k => .set (markBlock 1 k))

/-- What comes back in place of a REPLY grant (R209, R220). -/
inductive GrantAnswer where
  | reply (r : Reply)
  | badCheck
  | unknown
  | other
deriving DecidableEq, Repr

/-- The block types in use (R209). -/
def blockTypes : List Nat := [0x1E, 0x2D, 0x33, 0x4B, 0x55, 0x66, 0x78]

/-- A received control block as the answer to a REPLY grant. -/
def answerOf (b : W64) : GrantAnswer :=
  if blockBits b 7 0 = 0x33 then
    if crc8 (blockBits b 55 8) = blockBits b 63 56 then
      .reply ⟨blockBits b 55 52, blockBits b 51 48, blockBits b 47 40, blockBits b 39 36, blockBits b 35 33⟩
    else .badCheck
  else if blockTypes.contains (blockBits b 7 0) then .other
  else .unknown

/-! ### Transoms (R211, R212) -/

/-- Header bits [31:0] of a HEAD block. -/
def headWord (type pos tag spec : Nat) : W32 := w32 (type * 2 ^ 28 + pos * 2 ^ 24 + tag % 256 * 2 ^ 16 + spec * 2 ^ 8 + 0x78)

/-- The CRC-32C of a transom: header bits [15:8], [23:16] and [31:24], then the payload (R211). -/
def transomCrc (head : W32) (payload : List W8) : Nat := crc32c ((leBytes 4 head.toNat).drop 1 ++ payload)

/-- A transom as it leaves. -/
def transomOut (type pos tag spec : Nat) (payload : List W8) : LinkOut :=
  let h := headWord type pos tag spec
  .transom (BitVec.ofNat 64 (transomCrc h payload * 2 ^ 32 + h.toNat)) payload

/-- The words of a payload, 2 to a block; an odd one leaves half a block that nothing states. -/
def wordBytes (pad : W32) (ws : List W32) : List W8 :=
  (if ws.length % 2 = 0 then ws else ws ++ [pad]).flatMap (fun w => leBytes 4 w.toNat)

/-- An MGMT request as it leaves (R212, R229): its descriptor block and, for a WRITE, its data. -/
def MgReq.out (r : MgReq) : LinkOut :=
  transomOut 3 r.pos r.seq r.op (leBytes 8 (r.addr % 2 ^ 16 + r.count % 128 * 2 ^ 16) ++ wordBytes (Config.mgmtPad r.seq) r.data)

/-- Payload blocks of the response to a request (R229); one out of range is answered without any. -/
def MgReq.responseBlocks (r : MgReq) : Nat :=
  if r.op = 0 then (if r.count ≤ 16 then (r.count + 1) / 2 else 0)
  else if r.op = 2 then (if r.count ≤ 64 then (r.count + 7) / 8 else 0)
  else 0

/-- Data blocks of a transom past its HEAD: a STROBE does not interrupt it, any other control block ends it (R211). -/
def bodyBlocks : List LinkBlock → List W64
  | [] => []
  | b :: t =>
    if !b.control then b.bits :: bodyBlocks t
    else if blockBits b.bits 7 0 = 0x4B then bodyBlocks t
    else []

/-- The transom that came back for a grant: its HEAD first, its CRC-32C right (R211, R212). -/
def transomIn : List LinkBlock → Option Transom
  | [] => none
  | b :: t =>
    let p := (bodyBlocks t).flatMap (fun w => leBytes 8 w.toNat)
    if b.control && blockBits b.bits 7 0 == 0x78 &&
        transomCrc (w32 (blockBits b.bits 31 0)) p == blockBits b.bits 63 32 then
      some ⟨blockBits b.bits 31 28, blockBits b.bits 27 24, blockBits b.bits 23 16, blockBits b.bits 15 8, p⟩
    else none

/-- A transom of a type with a given number of payload blocks; any other is discarded (R212). -/
def transomOf (type blocks : Nat) (bs : List LinkBlock) : Option Transom :=
  match transomIn bs with
  | some m => if m.type = type ∧ m.payload.length = 8 * blocks then some m else none
  | none => none

/-- The sender and the words of a STAT (R226). -/
def statOf (bs : List LinkBlock) : Option (Nat × StatMsg) :=
  (transomOf 8 8 bs).map (fun m =>
    (m.pos, ⟨BitVec.ofNat 16 (fieldLE m.payload 2 2), BitVec.ofNat 16 (fieldLE m.payload 0 2), w32 (fieldLE m.payload 4 4),
      w32 (fieldLE m.payload 8 4), BitVec.ofNat 3 (fieldLE m.payload 12 1)⟩))

/-- The sender and the contents of an ECHO (R187). -/
def echoOf (bs : List LinkBlock) : Option (Nat × EchoMsg) :=
  (transomOf 9 32 bs).map (fun m => (m.pos, ⟨BitVec.ofNat 5 m.spec, BitVec.ofNat 8 m.tag, wordsOf m.payload⟩))

/-- An MGMT response (R229); how many payload blocks it must have depends on its request. -/
def responseOf (bs : List LinkBlock) : Option MgResponse :=
  match transomIn bs with
  | some m => if m.type = 4 then some ⟨m.pos, m.tag, m.spec / 16 % 8, wordsOf m.payload⟩ else none
  | none => none

end Sys2Proof.Machine
end

