-- ==== Sys2Proof/Machine/Queue.lean ====
section
/-! DEFINITION. What the stamp queues of the lanes and the waiting sequencers do when an axis changes: positions and sills,
cancellation, missed stamps, provisional strobes and WAITP completion (R108 to R120, R134 to R142, R150 to R152). -/

namespace Sys2Proof.Machine

def State.axis (s : State) (n : Nat) : Axis := tabGet {} s.axes n
def State.setAxis (s : State) (n : Nat) (a : Axis) : State := { s with axes := tabPut s.axes n a }
def State.lane (s : State) (n : Nat) : Lane := tabGet {} s.lanes n
def State.setLane (s : State) (n : Nat) (l : Lane) : State := { s with lanes := tabPut s.lanes n l }

/-- State code of a lane (R216). -/
def State.laneState (s : State) (lane : Nat) : Nat := s.get (F.LANE_STATE_state lane)

/-- The lane runs: UP or OPEN (R216). -/
def State.laneRuns (s : State) (lane : Nat) : Bool := s.laneState lane == 5 || s.laneState lane == 7

/-- What a lane sends, oldest first. -/
def State.emit (s : State) (lane : Nat) (xs : List LinkOut) : State :=
  s.setLane lane { s.lane lane with out := (s.lane lane).out ++ xs }

/-- A transom that leaves twice in a row in OPEN (R236). -/
def State.copies (s : State) (lane : Nat) (x : LinkOut) : List LinkOut := if s.laneState lane = 7 then [x, x] else [x]

/-- An event of the lane's source that raises no request and sets no LSTAT bit (R204, R260, R275). -/
def State.laneEvent (s : State) (lane kind detail : Nat) : State := s.post (24 + lane) kind (laneLoc lane) (w32 detail)

/-! ### Positions (R108, R109, R110, R120, R134) -/

/-- The last `navg` periods of a history, newest first, or as many as it has: the time they span and the counts moved over
them (R116). -/
def periods (navg : Nat) : List (Nat × Nat) → Nat × Nat
  | [] => (1, 0)
  | (t0, d0) :: rest =>
    let h := (t0, d0) :: rest
    let k := min navg rest.length
    (max 1 (t0 - (h.getD k (t0, 0)).1), ((h.take k).map (fun e => e.2)).sum)

/-- The interpolated fraction f (R108), from the periods averaged at the last count change. -/
def Motion.frac (m : Motion) (now : Nat) : Nat :=
  if m.moving && m.spdValid then min 255 (256 * (now - m.te) * m.per.2 / m.per.1) else 0

/-- The interpolated position P, 40 bits, in 1/256 count (R108). -/
def Motion.pos (m : Motion) (now : Nat) : BitVec 40 :=
  let c : BitVec 40 := BitVec.ofNat 40 (m.count.toNat * 256)
  let f := BitVec.ofNat 40 (m.frac now)
  if m.rev then c - f else c + f

/-- Periods to average at the next count change (R116, R127). -/
def State.navg (s : State) (n : Nat) : Nat := s.get (F.AX_CFG_navg n) + 1

/-- P of an axis now. -/
def State.axisPos (s : State) (n : Nat) : BitVec 40 := (s.axis n).a.pos s.uptime

/-- A 40-bit position as a stamp (R109). -/
def stampOf (p : BitVec 40) : W32 := p.truncate 32

/-- Stamp `a` is at or beyond stamp `b` in a direction (R134). -/
def atOrBeyond (rev : Bool) (a b : W32) : Bool := decide (0 ≤ (if rev then b - a else a - b).toInt)

/-- The axis is a fused pair (R88). -/
def State.isFused (s : State) (n : Nat) : Bool := s.get (F.AX_CFG_src n) == 5

/-- A tile's weight (R120). -/
def State.tileWeight (s : State) (k : Nat) : Int :=
  s.getInt (if k % 2 == 0 then F.AXIS_TILEW_w_even (k / 2) else F.AXIS_TILEW_w_odd (k / 2))

/-- The correction of a tile on an axis: corr_t on a fused pair, else 0 (R120). -/
def State.tileCorr (s : State) (n k : Nat) : Int :=
  if s.isFused n then (s.tileWeight k * (s.axis n).skew + 2 ^ 13) / 2 ^ 14 else 0

/-- The sill of a direction, corrected for a tile (R110, R120). -/
def State.tileSill (s : State) (n k : Nat) (rev : Bool) : W32 :=
  let a := s.axis n
  stampOf ((if rev then a.sillR else a.sillF) + BitVec.ofInt 40 (s.tileCorr n k))

/-- The sill of a direction. -/
def State.axisSill (s : State) (n : Nat) (rev : Bool) : W32 := stampOf (if rev then (s.axis n).sillR else (s.axis n).sillF)

/-- The axis holds a valid position (R103). -/
def Axis.valid (a : Axis) : Bool := a.st == .moving || a.st == .lull

/-- A bar selects an axis: it is enabled and names it (R130). -/
def State.selects (s : State) (b n : Nat) : Bool := s.flag (F.BAR_CFG_en b) && s.get (F.BAR_CFG_axis b) == n

/-- The bars that select an axis. -/
def State.barsOn (s : State) (n : Nat) : List Nat := (List.range 8).filter (fun b => s.selects b n)

/-! ### Bar supervisor conditions (R104, R264, R265) -/

/-- The supervisor condition of a bar: enabled with its axis in OFF, ACQUIRE or LOST, or a line-boundary request in
force. -/
def State.barCondRefresh (s : State) (b : Nat) : State :=
  s.setCond (.bar b) causeSupervisor
    ((s.flag (F.BAR_CFG_en b) && !(s.axis (s.get (F.BAR_CFG_axis b))).valid) || (tabFind s.lbForce b).isSome)

/-- The conditions of the bars that name an axis follow it. -/
def State.barsRefresh (s : State) (n : Nat) : State :=
  ((List.range 8).filter (fun b => s.get (F.BAR_CFG_axis b) == n)).foldl State.barCondRefresh s

/-- A unit places a line-boundary request on the bars of an axis (R265). Units: 0, 1 motion pairs; 2 P_MOT; 3, 4 motor
channels; 5 to 8 stepper channels. -/
def State.lineRequest (s : State) (unit n : Nat) : State :=
  (s.barsOn n).foldl (fun t b => { t with lbUnits := tabPut t.lbUnits b (natSetBit (tabGet 0 t.lbUnits b) unit true) }) s

/-- A unit withdraws its requests; a bar without any has none in force (R265). -/
def State.lineWithdraw (s : State) (unit : Nat) : State :=
  (List.range 8).foldl (fun t b =>
    let u := natSetBit (tabGet 0 t.lbUnits b) unit false
    if natBit (tabGet 0 t.lbUnits b) unit then
      let v := { t with lbUnits := tabPut t.lbUnits b u }
      if u = 0 then { v with lbForce := tabDel v.lbForce b }.barCondRefresh b else v
    else t) s

/-- An ahead entry of the bar has passed some of its tiles but not all (R265). -/
def State.halfPassed (s : State) (b : Nat) : Bool :=
  s.lanes.any (fun l => l.2.queue.any (fun e => e.ahead && e.bar == b && e.passed != 0 && e.passed != e.mask))

/-- LINE_BOUNDARY_CLOSE: a requested closure takes force when no ahead entry of the bar is half passed, or 1 ms after
the request (R265). -/
def execLineBoundaryClose (bar : Fin 8) (limit : Bool) (s : State) : Host.Outcome State Fault Refusal :=
  .next (if tabGet 0 s.lbUnits bar.val != 0 && (limit || !s.halfPassed bar.val) then
    { s with lbForce := tabPut s.lbForce bar.val () }.barCondRefresh bar.val else s)

/-! ### Slots and retirement (R135, R136, R141) -/

/-- Address of the slot of a lane, ring position and tag (R135). -/
def slotAddr (lane pos tag : Nat) : Nat := 0x2400000 + lane * 0x80000 + 0x40000 + pos * 0x4000 + tag % 16 * 0x400

/-- Address of a slot's header (R135). -/
def slotHeader (lane pos tag : Nat) : Nat := slotAddr lane pos tag + 0x3F0

/-- The link engine writes a slot's header, a whole word with fresh check bits (R136, R321). -/
def State.putHeader (s : State) (lane pos tag : Nat) (h : W32) : State :=
  (s.wrWord (slotHeader lane pos tag) h).cellCleared (slotHeader lane pos tag)

/-- A slot's header as the link engine's D4 FIRE port reads it: none where it is uncorrectable (R325, R326). -/
def State.headerRead (s : State) (lane pos tag : Nat) : Option W32 × State :=
  match s.dataRead 0xFF (slotHeader lane pos tag) 4 with
  | (some bs, t) => (some (w32 (leNat bs)), t)
  | (none, t) => (none, t)

/-- A slot returns to free, if it holds the line of the tag or what it holds cannot be read (R136, R141). -/
def State.freeSlot (s : State) (lane pos tag : Nat) : State :=
  match s.headerRead lane pos tag with
  | (some h, t) => if bitsOf h 23 16 == tag then t.putHeader lane pos tag (putBits h 31 30 0) else t
  | (none, t) => t.putHeader lane pos tag (w32 (tag % 256 * 2 ^ 16))

/-- The ring positions of a mask. -/
def positions (mask : Nat) : List Nat := (List.range 16).filter (natBit mask)

/-- The slots of an entry return to free. -/
def State.freeSlots (s : State) (lane : Nat) (e : Entry) : State :=
  (positions e.mask).foldl (fun t p => t.freeSlot lane p e.tag) s

/-- An ordered set leaves on a lane that is UP or OPEN; in UP it is kept until it returns (R224, R236). In every other
state nothing is delivered (R216). -/
def State.sendSet (s : State) (lane : Nat) (x : SentSet) : State :=
  if s.laneRuns lane then
    let l := s.lane lane
    s.setLane lane { l with out := l.out ++ [x.out], sets := if s.laneState lane = 5 then l.sets ++ [x] else l.sets }
  else s

/-- A CANCEL leaves for tiles whose DATA was sent and that were not strobed (R150). -/
def State.sendCancel (s : State) (lane : Nat) (e : Entry) : State :=
  let m := e.sent - (e.sent &&& e.passed)
  if m = 0 then s else s.sendSet lane (.cancel m e.tag 0)

/-- Entries are removed from a lane's queue (R150): their slots return to free and CANCEL transoms leave. -/
def State.removeEntries (s : State) (lane : Nat) (p : Entry → Bool) : Nat × State :=
  let l := s.lane lane
  let gone := l.queue.filter p
  let t := s.setLane lane { l with queue := l.queue.filter (fun e => !p e) }
  (gone.length, gone.foldl (fun u e => (u.freeSlots lane e).sendCancel lane e) t)

/-! ### A tile is strobed (R186, R191, R200, R215, R220) -/

def State.tile (s : State) (k : Nat) : Tile := tabGet {} s.tiles k
def State.setTile (s : State) (k : Nat) (t : Tile) : State := { s with tiles := tabPut s.tiles k t }

/-- Class of a tile (R189). -/
def State.tileClass (s : State) (k : Nat) : Nat := bitsOf (s.rd (R.HEALTH_TCLS (k / 8))) (k % 8 * 4 + 3) (k % 8 * 4)

/-- A tile is classified (R191); a lane in OPEN is excluded (R236). -/
def State.classified (s : State) (k : Nat) : Bool :=
  s.flag F.HEALTH_ECFG_en && s.bit F.HEALTH_ECLANE_lanes (k / 16) && s.laneState (k / 16) != 7 &&
    (tabGet {} s.classes (s.tileClass k)).en

/-- K of R186: 7 acts as 6. -/
def State.echoK (s : State) : Nat := 64 * 2 ^ min 6 (s.get F.HEALTH_ECFG_kcode)

/-- H of R200: half the governor's window in strobes. -/
def State.govHalf (s : State) (lane : Nat) : Nat := 32 * 2 ^ min 6 (s.get (F.HEALTH_GOV_CFG_wcode lane))

/-- One strobe of a tile: the governor's half counts it and may roll (R200); a non-blank one advances the copy of the fire
count and may end an echo window of a classified tile (R186, R215). -/
def State.tileStrobed (s : State) (lane pos : Nat) (blank : Bool) : State :=
  let k := lane * 16 + pos
  let t := s.tile k
  let t1 :=
    if s.flag (F.HEALTH_GOV_CFG_en lane) then
      if s.govHalf lane ≤ t.half + 1 then
        { t with half := 0, prevDrops := t.curDrops, prevEnergy := t.curEnergy, curDrops := [], curEnergy := 0 }
      else { t with half := t.half + 1 }
    else t
  let c := t.fireCount + 1
  let ends := c.toNat % (s.echoK / 32) == 0 && s.classified k
  let t2 := if blank then t1 else { t1 with fireCount := c, echoDue := if ends then t1.echoDue + 1 else t1.echoDue }
  s.setTile k t2

/-- Every tile of a mask is strobed. -/
def State.tilesStrobed (s : State) (lane mask : Nat) (blank : Bool) : State :=
  (positions mask).foldl (fun t p => t.tileStrobed lane p blank) s

/-- A position's waveform state fails (R249): cause 0 refused, 1 no acknowledgement, 2 commit or setting write. -/
def State.waveFail (s : State) (lane pos cause index : Nat) : State :=
  (s.setBit (F.LANE_WVSTAT_fail lane) pos true).laneEvent lane 0x3A0 (cause * 2 ^ 20 + index * 2 ^ 16 + 2 ^ pos)

/-- Index of the running upload. -/
def State.uploadIndex (s : State) (lane : Nat) : Nat :=
  match (s.lane lane).upload with
  | some u => u.index
  | none => 0

/-- A transom answered NAK full is sent again after the next strobe of its tile, within retry_max; a WAVE without attempts
left fails (R220, R249). -/
def State.retryFull (s : State) (lane mask : Nat) : State :=
  let l := s.lane lane
  let due := fun (x : Tx) => x.full && natBit mask x.pos
  let again := fun (x : Tx) => due x && decide (x.tries < s.get (F.LANE_CTL_retry_max lane))
  let sent := l.txs.filter again
  let lost := l.txs.filter (fun x => due x && !again x && x.wave)
  let txs := (l.txs.filter (fun x => !due x || again x)).map
    (fun x => if due x then { x with full := false, tries := x.tries + 1 } else x)
  let t := (s.setLane lane { l with txs := txs, out := l.out ++ sent.map (fun x => x.out) }).bumpBy (F.LANE_RETX_count lane) sent.length
  lost.foldl (fun u x => u.waveFail lane x.pos 1 (u.uploadIndex lane)) t

/-! ### Lane scheduling flags and events (R155) -/

/-- A bit of LANEn_SCHSTAT is set, with the interrupt request under LANEn_SCHIEN. -/
def State.schFlag (s : State) (lane b : Nat) : State := s.setStatus (R.LANE_SCHSTAT lane) (R.LANE_SCHIEN lane) b (24 + lane)

/-- A link-engine event that carries an axis and a stamp (R155). -/
def State.lanePost (s : State) (lane kind axis : Nat) (stamp : W32) (detail : Nat) : State :=
  s.postAt (24 + lane) kind axis stamp (laneLoc lane) (w32 detail)

/-- Detail of LATE_LINE, UNDELIVERED and MISSED_STAMP (R155). -/
def entryDetail (e : Entry) (mask : Nat) : Nat :=
  e.bar * 2 ^ 29 + (if e.rev then 2 ^ 28 else 0) + e.tag * 2 ^ 16 + mask

/-- Entries of the bars on an axis are cancelled, in every lane that holds one, for a cause: 0 reversal, 1 load, 2 axis
not valid (R151). -/
def State.queueCancel (s : State) (n cause : Nat) (p : Entry → Bool) : State :=
  let bit := if cause = 0 then 5 else if cause = 1 then 6 else 7
  s.lanes.foldl (fun t l =>
    let (k, u) := t.removeEntries l.1 (fun e => t.selects e.bar n && p e)
    if k = 0 then t
    else (u.schFlag l.1 bit).lanePost l.1 0x325 n (stampOf (u.axisPos n)) (n * 2 ^ 29 + cause * 2 ^ 24 + min k 127)) s

/-! ### Provisional strobes (R152) -/

/-- Provisional strobes of an axis that the count has reached are confirmed. -/
def State.confirmStrobes (s : State) (n : Nat) : State :=
  let c := fun (k : Nat) => BitVec.ofNat 40 ((s.axis n).a.count.toNat * 256) + BitVec.ofInt 40 (s.tileCorr n k)
  { s with lanes := s.lanes.map (fun l => (l.1, { l.2 with prov := l.2.prov.filter (fun p =>
      !(p.axis == n && atOrBeyond p.rev (stampOf (c p.tile)) p.stamp)) })) }

/-- Provisional strobes of an axis still waiting become unconfirmed drops: counted, their first and last stamps kept,
and UNCONFIRMED posted by each lane. -/
def State.dropUnconfirmed (s : State) (n : Nat) : State :=
  s.lanes.foldl (fun t l =>
    let mine := (t.lane l.1).prov.filter (fun p => p.axis == n)
    match mine with
    | [] => t
    | p :: ps =>
      let k := mine.length
      let last := (ps.getLast?.getD p).stamp
      let u := t.setLane l.1 { t.lane l.1 with prov := (t.lane l.1).prov.filter (fun q => q.axis != n) }
      let v := (u.bumpBy (F.LANE_UNCONF_count l.1) k).wr (R.LANE_UNCONF_FIRST l.1) p.stamp
      ((v.wr (R.LANE_UNCONF_LAST l.1) last).schFlag l.1 3).lanePost l.1 0x323 n p.stamp (n * 2 ^ 29 + min k 0xFFFF)) s

/-! ### Pending entries at a reversal (R139) -/

/-- Some selected tile of an entry lies at or behind its sill. -/
def State.entryBehind (s : State) (n lane : Nat) (e : Entry) : Bool :=
  (positions e.mask).any (fun p => atOrBeyond e.rev (s.tileSill n (lane * 16 + p) e.rev) e.stamp)

/-- An ordered set for tiles of an entry that fire nothing (R147); it starts its block, and a reversal leaves no valid
speed, so its pixel time is 0xFFFF (R148). -/
def blankStrobe (e : Entry) (mask : Nat) : StrobeSet := ⟨mask, e.tag, e.rev, true, 0, 0xFFFF⟩

/-- A missed entry is strobed blank for all its tiles, counted and posted, and retires. -/
def State.missEntry (s : State) (n lane : Nat) (e : Entry) : State :=
  let k := countBits 16 e.mask
  let t := (s.bumpBy (F.LANE_MISSED_count lane) k).bumpBy (F.LANE_BLANKS_count lane) k
  let u := ((t.sendSet lane (.strobe (blankStrobe e e.mask))).tilesStrobed lane e.mask true).retryFull lane e.mask
  ((u.freeSlots lane e).schFlag lane 2).lanePost lane 0x322 n (stampOf (u.axisPos n)) (entryDetail e e.mask)

/-- A reversal brings an axis into the direction of pending entries: those behind the new sill are missed, the others
become ahead. -/
def State.wakePending (s : State) (n : Nat) : State :=
  let rev := (s.axis n).a.rev
  s.lanes.foldl (fun t l =>
    let mine := fun (e : Entry) => t.selects e.bar n && e.rev == rev && !e.ahead
    let missed := (t.lane l.1).queue.filter (fun e => mine e && t.entryBehind n l.1 e)
    let q := ((t.lane l.1).queue.filter (fun e => !(mine e && t.entryBehind n l.1 e))).map
      (fun e => if mine e then { e with ahead := true } else e)
    missed.foldl (fun u e => u.missEntry n l.1 e) (t.setLane l.1 { t.lane l.1 with queue := q })) s

/-! ### Waiting sequencers (R76, R142) -/

/-- A waiting instruction completes: its result is written and the sequencer runs on. -/
def State.completeWait (s : State) (q rd : Nat) (code : W32) : State :=
  let c := s.seq q
  s.setSeq q { c.setX (BitVec.ofNat 5 rd) code with run := .running, wait := .none, pc := c.pc + 4, instret := c.instret + 1 }

/-- Every WAITP waiting on an axis completes with a code (R142). -/
def State.completeWaitp (s : State) (n : Nat) (code : W32) : State :=
  s.seqs.foldl (fun t e =>
    match e.2.run, e.2.wait with
    | .waiting, .position a _ _ rd _ _ => if a = n then t.completeWait e.1 rd code else t
    | _, _ => t) s

end Sys2Proof.Machine
end

