-- ==== Sys2Proof/Machine/Axes.lean ====
section
/-! DEFINITION. Position axes: sources, counts, interpolation, sills, reversal, lull, skew and encoder outputs
(R87 to R129). -/

namespace Sys2Proof.Machine

/-- The time stamp of a level accepted now by a filter of 3 × 2^filt samples: its first sample (R92). -/
def filteredTime (now filt : Nat) : Nat := now - (3 * 2 ^ filt - 1)

/-! ### Flags and events of an axis (R124, R125) -/

/-- Location of the unit at fault, by slice of cluster 0x39 (R124). -/
def axisLoc (slice : Nat) : W64 := loc4 0x39 slice

/-- Detail of an axis event (R124). -/
def State.axisDetail (s : State) (n cause : Nat) : W32 :=
  let a := (s.axis n).a
  w32 ((if a.rev then 2 ^ 31 else 0) + cause * 2 ^ 24 + a.count.toNat % 2 ^ 24)

/-- Bit `b` of AXn_STAT is set, its event posted and its request raised under AXn_IEN; src_err, se_warn and skew post
only when the flag goes from 0 to 1 (R124, R125). -/
def State.axFlag (s : State) (n b cause slice : Nat) : State :=
  let was := s.bit ⟨R.AX_STAT n, 31, 0⟩ b
  let t := s.setStatus (R.AX_STAT n) (R.AX_IEN n) b (48 + n)
  if was && (b == 6 || b == 7 || b == 8) then t
  else t.postAt (48 + n) (0x300 + b) n (stampOf (t.axisPos n)) (axisLoc slice) (t.axisDetail n cause)

/-! ### Leaving and entering validity (R103, R104) -/

/-- The axis enters OFF, ACQUIRE or LOST: its bars' conditions hold, its queue entries are cancelled, waiting WAITPs
return 4 and provisional strobes are dropped (R104, R142, R151, R152). -/
def State.axisInvalid (s : State) (n : Nat) (st : AxState) : State :=
  let a := s.axis n
  let t := s.setAxis n { a with st := st, a := { a.a with spdValid := false, moving := false, hist := [] } }
  ((((t.dropUnconfirmed n).queueCancel n 2 (fun _ => true)).completeWaitp n 4).barsRefresh n)

/-- The axis enters LOST (R93, R100, R101, R104). -/
def State.axisLost (s : State) (n cause slice : Nat) : State :=
  if (s.axis n).valid || (s.axis n).st == .acquire then (s.axisInvalid n .lost).axFlag n 5 cause slice else s

/-- The axis enters LULL from OFF or ACQUIRE: it is valid (R103, R104). -/
def State.axisValid (s : State) (n : Nat) : State :=
  let a := s.axis n
  let t := s.setAxis n { a with st := .lull, a := { a.a with spdValid := true, moving := false, hist := [] } }
  (t.barsRefresh n).axFlag n 4 0 n

/-- A moving axis enters LULL: its own timer expires, or its source stops, which is cause 8 (R35, R101, R102, R104, R115,
R124). -/
def State.axisLull (s : State) (n cause : Nat) : State :=
  let a := s.axis n
  if a.st == .moving then
    let t := s.setAxis n { a with st := .lull, a := { a.a with spdValid := true, moving := false, hist := [] } }
    (((t.dropUnconfirmed n).completeWaitp n 3).axFlag n 3 cause n)
  else s

/-- Time-stamp continuity is lost, by a change of lref_sel or a loss of P_FIRE lock: the axis enters LULL, and the
history of a fused pair's side B restarts too (R32, R35, R104, R118). -/
def State.axisRelock (s : State) (n : Nat) : State :=
  let t := s.axisLull n 0
  let a := t.axis n
  if a.valid then t.setAxis n { a with b := { a.b with spdValid := true, moving := false, hist := [] } } else t

/-! ### Encoder outputs (R121) -/

def State.encOut (s : State) (i : Nat) : EncOut := tabGet {} s.encOuts i

/-- One source count, forward or reverse, on an encoder output. -/
def EncOut.follow (o : EncOut) (m n : Nat) (rev : Bool) : EncOut × Bool :=
  if rev then
    if o.acc < m then
      if o.pend ≤ -255 then (o, true) else ({ o with acc := o.acc + n - m, pend := o.pend - 1 }, false)
    else ({ o with acc := o.acc - m }, false)
  else
    if n ≤ o.acc + m then
      if 255 ≤ o.pend then (o, true) else ({ o with acc := o.acc + m - n, pend := o.pend + 1 }, false)
    else ({ o with acc := o.acc + m }, false)

/-- Single changes processed one after the other in the same cycle. -/
def EncOut.followMany (m n : Nat) (rev : Bool) : Nat → EncOut → EncOut × Bool
  | 0, o => (o, false)
  | k + 1, o =>
    let (o1, e1) := o.follow m n rev
    let (o2, e2) := EncOut.followMany m n rev k o1
    (o2, e1 || e2)

/-- The outputs of an axis follow a change of `d` counts; an overrun sets EOn_STAT.ovr and is posted under the source
axis (R121, R124). -/
def State.eoFollow (s : State) (n : Nat) (d : Int) : State :=
  (List.range 2).foldl (fun t i =>
    if t.flag (F.EO_CFG_en i) && t.get (F.EO_CFG_axis i) == n then
      let (o, ovr) := EncOut.followMany (t.get (F.EO_RATIO_m i)) (t.get (F.EO_RATIO_n i)) (decide (d < 0)) d.natAbs (t.encOut i)
      let u := { t with encOuts := tabPut t.encOuts i o }
      if ovr then (u.set (F.EO_STAT_ovr i) 1).postAt (48 + n) 0x306 n (stampOf (u.axisPos n)) (axisLoc (0x2A + i)) (u.axisDetail n 11)
      else u
    else t) s

/-! ### Count changes (R105, R110 to R117) -/

/-- The motion after a change of `d` counts in its direction at time `te`: the periods are averaged anew (R116, R117). -/
def Motion.step (m : Motion) (navg : Nat) (d : Int) (te : Nat) : Motion :=
  let h := ((te, d.natAbs) :: m.hist).take 17
  { m with count := m.count + BitVec.ofInt 32 d, te := te, hist := h, per := periods navg h, moving := true,
           spdValid := decide (2 ≤ h.length) }

/-- The motion after a change against its direction inside the eddy window: the history restarts with the next change
in the direction (R111, R117). -/
def Motion.stepBack (m : Motion) (d : Int) (te : Nat) : Motion :=
  { m with count := m.count + BitVec.ofInt 32 d, te := te, hist := [], moving := true, spdValid := false }

/-- The motion after a change that reverses it: the change is the first edge of a new history (R112). -/
def Motion.stepTurn (m : Motion) (d : Int) (te : Nat) : Motion :=
  { m with count := m.count + BitVec.ofInt 32 d, te := te, hist := [(te, d.natAbs)], moving := true, spdValid := false,
           rev := !m.rev }

/-- SPEED, signed, in 2^-8 counts per ms; it holds between count changes (R116, R117). -/
def Motion.speed (m : Motion) : Int :=
  if m.moving && m.spdValid then
    let v : Int := ((2 * 100000000 * m.per.2 + m.per.1) / (2 * m.per.1) : Nat)
    if m.rev then -v else v
  else 0

/-- The 40-bit position of a count. -/
def countPos (c : W32) : BitVec 40 := BitVec.ofNat 40 (c.toNat * 256)

/-- A change to count `c` declares a reversal (R111). -/
def Axis.reverses (a : Axis) (c : W32) (eddy : Nat) : Bool :=
  if a.a.rev then decide ((eddy * 256 : Int) < (countPos c - a.sillR).toInt)
  else decide ((eddy * 256 : Int) < (a.sillF - countPos c).toInt)

/-- The sill of the current direction reaches a position (R110). -/
def Axis.raiseSill (a : Axis) (p : BitVec 40) : Axis :=
  if a.a.rev then (if (p - a.sillR).toInt < 0 then { a with sillR := p } else a)
  else (if 0 < (p - a.sillF).toInt then { a with sillF := p } else a)

/-- The count wraps: epoch, flag and event (R105). -/
def State.wrapCount (s : State) (n : Nat) (old : W32) (d : Int) : State :=
  let sum := (old.toNat : Int) + d
  let a := s.axis n
  if 2 ^ 32 ≤ sum then (s.setAxis n { a with epoch := a.epoch + 1 }).axFlag n 0 0 n
  else if sum < 0 then (s.setAxis n { a with epoch := a.epoch - 1 }).axFlag n 1 0 n
  else s

/-- The skew of a fused pair follows its two positions (R119). -/
def State.updateSkew (s : State) (n : Nat) : State :=
  let a := s.axis n
  if s.isFused n && a.valid && !a.bLost then
    let raw : Int := (a.b.pos s.uptime - a.a.pos s.uptime).toInt - s.getInt (F.AX_SKEWCFG_zero n)
    let lim := s.get (F.AX_SKEWCFG_lim n)
    if lim = 0 then s.setAxis n { a with skew := clampInt (-(2 ^ 23 - 1)) (2 ^ 23 - 1) raw, skewHold := false }
    else if (lim * 256 : Int) < raw.natAbs then (s.setAxis n { a with skewHold := true }).axFlag n 8 0 n
    else s.setAxis n { a with skew := raw, skewHold := false }
  else s

/-- The tiles' positions follow the skew: what their corrected counts have reached is confirmed (R119, R120, R152). -/
def State.skewStep (s : State) (n : Nat) : State := (s.updateSkew n).confirmStrobes n

/-- A declared reversal beyond the change of direction itself: sill, flags, the skew of the cycle, cancellation, pending
tests, WAITPs (R112, R119, R139, R142, R151, R152). -/
def State.declareReversal (s : State) (n : Nat) (d : Int) (te : Nat) : State :=
  let a0 := s.axis n
  let oldRev := a0.a.rev
  let m := a0.a.stepTurn d te
  let a1 := { a0 with a := m, st := .moving }
  let a2 := if m.rev then { a1 with sillR := countPos m.count }
    else if s.flag (F.AX_CFG_bidir n) then { a1 with sillF := countPos m.count } else a1
  let t := ((s.dropUnconfirmed n).setAxis n a2).wrapCount n a0.a.count d
  let u := ((t.bump (F.AX_ERRCNT_rev_cnt n)).axFlag n 2 0 n).updateSkew n
  ((u.queueCancel n 0 (fun e => e.rev == oldRev)).wakePending n).completeWaitp n 2

/-- A change of `d` counts (after dir_inv) at time `te` on a valid axis: count, wrap, direction, sills, speed, outputs,
confirmation (R90, R103, R105, R110 to R117, R121, R152). -/
def State.countChange (s : State) (n : Nat) (d0 : Int) (te : Nat) : State :=
  let d := if s.flag (F.AX_CFG_dir_inv n) then -d0 else d0
  let a := s.axis n
  if !a.valid || d == 0 then s
  else
    let against := decide (d < 0) != a.a.rev
    let c := a.a.count + BitVec.ofInt 32 d
    let t :=
      if against then
        if a.reverses c (s.get (F.AX_CFG_eddy n)) then s.declareReversal n d te
        else (s.setAxis n { a with a := a.a.stepBack d te, st := .moving }).wrapCount n a.a.count d
      else
        let b := { a with a := a.a.step (s.navg n) d te, st := .moving }
        (s.setAxis n (b.raiseSill (countPos c))).wrapCount n a.a.count d
    (t.eoFollow n d).skewStep n

/-! ### Quadrature inputs (R89 to R95, R118, R119) -/

/-- The step of a quadrature transition: +1, −1, 0, or none when both levels change (R93). -/
def quadStep (a0 b0 a1 b1 : Bool) : Option Int :=
  if a0 != a1 && b0 != b1 then none
  else if a0 == a1 && b0 == b1 then some 0
  else if a0 != a1 then (if a1 != b1 then some 1 else some (-1))
  else (if b1 == a1 then some 1 else some (-1))

/-- An illegal transition on side A (R93). -/
def State.illegalA (s : State) (n qe : Nat) : State :=
  let a := s.axis n
  let k := a.a.illegal + 1
  let t := ((s.setAxis n { a with a := { a.a with illegal := k } }).bump (F.AX_ERRCNT_err_cnt n)).axFlag n 6 1 (0x20 + qe)
  let q := s.get (F.AX_CFG_qerr_max n)
  if q != 0 && decide (q ≤ k) then t.axisLost n (if s.isFused n then 9 else 1) (0x20 + qe) else t

/-- Side B of a fused pair is lost: the skew is held (R119). -/
def State.sideBLost (s : State) (n qe : Nat) : State :=
  let a := s.axis n
  if a.bLost then s else (s.setAxis n { a with bLost := true, skewHold := true }).axFlag n 8 10 (0x20 + qe)

/-- An illegal transition on side B (R118). -/
def State.illegalB (s : State) (n qe : Nat) : State :=
  let a := s.axis n
  let k := a.b.illegal + 1
  let t := s.setAxis n { a with b := { a.b with illegal := k } }
  let q := s.get (F.AX_CFG_qerr_max n)
  if q != 0 && decide (q ≤ k) then t.sideBLost n qe else t

/-- A count change on side B: its own count, direction and history, no window and no sills (R118). -/
def State.sideBChange (s : State) (n : Nat) (d0 : Int) (te : Nat) : State :=
  let d := if s.flag (F.AX_CFG_dir_inv n) then -d0 else d0
  let a := s.axis n
  if a.bLost || !a.valid then s
  else (s.setAxis n { a with b := if decide (d < 0) != a.b.rev then a.b.stepTurn d te else a.b.step (s.navg n) d te }).skewStep n

/-- One axis sees a transition of a quadrature input as side A or side B. -/
def State.quadOn (s : State) (qe : Nat) (st : Option Int) (te n : Nat) : State :=
  let src := s.get (F.AX_CFG_src n)
  let isA := (src == 1 || src == 5) && s.get (F.AX_CFG_sel_a n) == qe && s.flag (F.AX_CFG_en n)
  let isB := src == 5 && s.get (F.AX_CFG_sel_b n) == qe && s.get (F.AX_CFG_sel_a n) != qe && s.flag (F.AX_CFG_en n)
  let t := if isA then
      match st with
      | some d => s.countChange n d te
      | none => s.illegalA n qe
    else s
  if isB then
    match st with
    | some d => if d == 0 then t else t.sideBChange n d te
    | none => t.illegalB n qe
  else t

/-- QUAD_EDGE: an input's filtered A and B take new levels; every axis that uses the input sees the transition
(R89, R93). -/
def State.quadEdge (s : State) (qe : Nat) (a b : Bool) : State :=
  let l := s.get (F.QE_CFG_lvl qe)
  let st := quadStep (natBit l 0) (natBit l 1) a b
  let te := filteredTime s.uptime (s.get (F.QE_CFG_filt qe))
  let t := (s.setBit (F.QE_CFG_lvl qe) 0 a).setBit (F.QE_CFG_lvl qe) 1 b
  (List.range 8).foldl (fun u n => u.quadOn qe st te n) t

def execQuadEdge (qe : Fin 8) (a b : Bool) (s : State) : Host.Outcome State Fault Refusal := .next (s.quadEdge qe.val a b)

/-! ### Position loads (R95, R106, R118) -/

/-- A bar on the axis can fire: neither the global shutter nor the bar's is closed (R106). -/
def State.axisCanFire (s : State) (n : Nat) : Bool :=
  !s.isClosed .global && (s.barsOn n).any (fun b => !s.isClosed (.bar b))

/-- A position load: the count and both sills, side B by the same amount, entries cancelled and provisional strobes
dropped; or refused (R106, R118, R151, R152). The flag says whether it was accepted. -/
def State.loadPosition (s : State) (n : Nat) (v : W32) : Bool × State :=
  if s.axisCanFire n then (false, s.axFlag n 10 0 n)
  else
    let t := s.dropUnconfirmed n
    let a := t.axis n
    let b := { a with a := { a.a with count := v }, b := { a.b with count := a.b.count + (v - a.a.count) },
                      sillF := countPos v, sillR := countPos v }
    (true, (t.setAxis n b).queueCancel n 1 (fun _ => true))

/-- POSITION_LOAD: a write of AXn_POSSET (R106). -/
def execPositionLoad (n : Fin 8) (value : W32) (s : State) : Host.Outcome State Fault Refusal :=
  .next (s.loadPosition n.val value).2

/-- One axis acts on an index of its side A input (R95). -/
def State.indexOn (s : State) (qe n : Nat) : State :=
  let src := s.get (F.AX_CFG_src n)
  let a := s.axis n
  let l := s.get (F.QE_CFG_lvl qe)
  let mine := (src == 1 || src == 5) && s.get (F.AX_CFG_sel_a n) == qe && a.valid
  let qual := !s.flag (F.AX_ZCTL_zqual_en n) || l % 4 == s.get (F.AX_ZCTL_zqual_ab n)
  let mode := s.get (F.AX_ZCTL_zmode n)
  if mine && qual && mode != 0 then
    let t := (s.setAxis n { a with zcap := a.a.count }).axFlag n 9 0 n
    if mode == 3 then (t.loadPosition n (s.rd (R.AX_ZLOAD n))).2
    else if mode == 2 && s.flag (F.AX_ZCTL_arm n) then
      let (ok, u) := t.loadPosition n (s.rd (R.AX_ZLOAD n))
      if ok then u.set (F.AX_ZCTL_arm n) 0 else u
    else t
  else s

/-- Z_INDEX: the filtered Z ball level changes; a rising edge after zinv is an index (R95). -/
def State.zIndex (s : State) (qe : Nat) (level : Bool) : State :=
  let t := s.setBit (F.QE_CFG_lvl qe) 2 level
  let inv := s.flag (F.QE_CFG_zinv qe)
  if natBit (s.get (F.QE_CFG_lvl qe)) 2 != level && level != inv then (List.range 8).foldl (fun u n => u.indexOn qe n) t else t

def execZIndex (qe : Fin 8) (level : Bool) (s : State) : Host.Outcome State Fault Refusal := .next (s.zIndex qe.val level)

/-- Z_ARM: a write of AXn_ZCTL with arm = 1 (R95, R10). -/
def State.zctlWrite (s : State) (n : Nat) (v : W32) : State :=
  let arm := s.flag (F.AX_ZCTL_arm n) || bitsOf v 31 31 == 1
  s.wr (R.AX_ZCTL n) (putBits (v &&& 0x3B) 31 31 (if arm then 1 else 0))

def execZArm (n : Fin 8) (value : W32) (s : State) : Host.Outcome State Fault Refusal :=
  .next (s.zctlWrite n.val (putBits value 31 31 1))

/-! ### Enable, disable and configuration (R88, R102, R103, R112, R118, R127) -/

/-- An axis is enabled: counters cleared, the accumulator at half scale, side B at side A's count; serial sources enter
ACQUIRE, reserved ones stay OFF, others LULL (R88, R102, R103, R118). A fused pair on one input has side B lost (R89). -/
def State.enableAxis (s : State) (n : Nat) : State :=
  let src := s.get (F.AX_CFG_src n)
  let a := s.axis n
  let same := src == 5 && s.get (F.AX_CFG_sel_a n) == s.get (F.AX_CFG_sel_b n)
  let a1 : Axis := { a with
    a := { a.a with illegal := 0, hist := [] },
    b := { count := a.a.count, te := a.a.te },
    bLost := false, skew := 0, skewHold := false, rPrev := none, vacc := BitVec.ofNat 48 (2 ^ 47) }
  let t := s.wr (R.AX_ERRCNT n) 0
  if src == 2 then (t.setAxis n { a1 with st := .acquire }).barsRefresh n
  else if 6 ≤ src then t.setAxis n a1
  else
    let u := (t.setAxis n a1).axisValid n
    if same then u.sideBLost n (s.get (F.AX_CFG_sel_b n)) else u

/-- A write of AXn_CFG: while en = 1 a change of any field but en, navg, eddy and qerr_max is ignored as a whole and
sets cfg_err (R127, R478). -/
def State.axisCfgWrite (s : State) (n : Nat) (v0 : W32) : State :=
  let v := v0 &&& 0x877FFFF3
  let old := s.rd (R.AX_CFG n)
  let free : W32 := 0x8000FFF0
  let was := s.flag (F.AX_CFG_en n)
  if was && (v &&& ~~~free) != (old &&& ~~~free) then s.axFlag n 11 0 n
  else
    let t := s.wr (R.AX_CFG n) v
    if !was && bitsOf v 31 31 == 1 then t.enableAxis n
    else if was && bitsOf v 31 31 == 0 then t.axisInvalid n .off
    else t

/-- AXIS_ENABLE: a write of AXn_CFG with en = 1 (R103, R127). -/
def execAxisEnable (n : Fin 8) (value : W32) (s : State) : Host.Outcome State Fault Refusal :=
  .next (s.axisCfgWrite n.val (putBits value 31 31 1))

/-- AXIS_DISABLE: a write of AXn_CFG with en = 0 (R103, R104). -/
def execAxisDisable (n : Fin 8) (value : W32) (s : State) : Host.Outcome State Fault Refusal :=
  .next (s.axisCfgWrite n.val (putBits value 31 31 0))

/-- AXIS_CFG_WRITE: a write of other AXn_CFG fields, en as it is (R127). -/
def execAxisCfgWrite (n : Fin 8) (value : W32) (s : State) : Host.Outcome State Fault Refusal :=
  .next (s.axisCfgWrite n.val (putBits value 31 31 (s.get (F.AX_CFG_en n.val))))

/-! ### Lull (R114, R115, R118) -/

/-- The last period between successive count changes since the history restarted (R114). -/
def Motion.lastPeriod (m : Motion) : Option Nat :=
  match m.hist with
  | (t1, _) :: (t0, _) :: _ => some (t1 - t0)
  | _ => none

/-- T_lull of a motion, in D4 FIRE cycles: 390.625 to the microsecond, rounded up (R33, R114). -/
def State.lullTime (s : State) (n : Nat) (m : Motion) : Nat :=
  let tmin := (max 1 (s.get (F.AX_LULL_min_us n)) * 390625 + 999) / 1000
  let ms := s.get (F.AX_LULL_max_ms n)
  let tmax := (if ms = 0 ∨ 1000 < ms then 1000 else ms) * 390625
  match m.lastPeriod with
  | some t => min tmax (max tmin (max 1 (s.get (F.AX_LULL_mul n)) * t))
  | none => tmax

/-- The lull time since a motion's last count change has passed (R114). -/
def State.lullDue (s : State) (n : Nat) (m : Motion) : Bool := decide (m.te + s.lullTime n m ≤ s.uptime)

/-- LULL_DECLARED: the lull time of an axis in MOVING expires, or that of a fused pair's side B, which raises no flag. -/
def State.lullDeclared (s : State) (n : Nat) (sideB : Bool) : State :=
  let a := s.axis n
  if sideB then
    if s.isFused n && a.b.moving && s.lullDue n a.b then
      (s.setAxis n { a with b := { a.b with moving := false, spdValid := true, hist := [] } }).skewStep n
    else s
  else if a.st == .moving && s.lullDue n a.a then (s.axisLull n 0).skewStep n else s

def execLullDeclared (n : Fin 8) (sideB : Bool) (s : State) : Host.Outcome State Fault Refusal :=
  .next (s.lullDeclared n.val sideB)

/-! ### Serial encoders (R96 to R100) -/

def State.serial (s : State) (n : Nat) : SerialIn := tabGet {} s.serials n

/-- Axes that use a serial input (R89). -/
def State.serialAxes (s : State) (n : Nat) : List Nat :=
  (List.range 8).filter (fun k => s.flag (F.AX_CFG_en k) && s.get (F.AX_CFG_src k) == 2 && s.get (F.AX_CFG_sel_a k) == n)

/-- A frame fails: its flag in SEn_STAT, consecutive failures, and on each axis err_cnt, src_err and, at the third in a
row, LOST (R97, R98, R100). The count of consecutive failures clears on a good frame alone, not when an axis is enabled
(DESIGN CHOICE, notes/assumptions/175). -/
def State.frameFails (s : State) (n statBit cause : Nat) : State :=
  let t := ({ s with serials := tabPut s.serials n { s.serial n with running := false } }.setBit ⟨R.SE_STAT n, 31, 0⟩ statBit true).bump
    (F.SE_MEAS_consec n)
  let lose := decide (3 ≤ t.get (F.SE_MEAS_consec n))
  (s.serialAxes n).foldl (fun u k =>
    let v := (u.bump (F.AX_ERRCNT_err_cnt k)).axFlag k 6 cause (0x28 + n)
    if lose then v.axisLost k cause (0x28 + n) else v) t

/-- SE_FRAME_START: the frame period expires; a start that finds a frame running is skipped, and an SSI frame needs SLO
high (R96, R97). It starts whether an axis uses the input or not. -/
def State.frameStart (s : State) (n : Nat) (slo : Bool) : State :=
  if (s.serial n).running then s.set (F.SE_STAT_skip n) 1
  else if s.get (F.SE_CFG_proto n) ≤ 1 && !slo then s.frameFails n 1 2
  else { s with serials := tabPut s.serials n ⟨true, s.uptime + s.get (F.SE_TIM_lat n)⟩ }

def execSeFrameStart (n : Fin 2) (slo : Bool) (s : State) : Host.Outcome State Fault Refusal := .next (s.frameStart n.val slo)

/-- Bits of a Gray code converted to binary, from the top down (R97). -/
def grayToBinary : Nat → Nat → Nat → Nat
  | 0, _, acc => acc
  | k + 1, g, acc => grayToBinary k g (acc * 2 + (if natBit g k then 1 - acc % 2 else acc % 2))

/-- CRC-6 of the BiSS-C frame: x^6 + x + 1, initial value 0, over bits given most significant first (R98). -/
def crc6 : List Bool → Nat → Nat
  | [], c => c
  | b :: bs, c =>
    let fb := natBit c 5 != b
    crc6 bs ((c * 2 % 64) ^^^ (if fb then 3 else 0))

/-- The low `k` bits of a number, most significant first. -/
def msbBits (k n : Nat) : List Bool := (List.range k).reverse.map (natBit n)

/-- Data bits of a frame: SEn_CFG.bits + 1, values below 7 acting as 7. -/
def State.frameBits (s : State) (n : Nat) : Nat := max 7 (s.get (F.SE_CFG_bits n)) + 1

/-- An axis takes a good raw value: the first sets r_prev and makes the axis valid, later ones change the count by the
signed difference, unless it exceeds the jump limit (R99). -/
def State.frameValue (s : State) (n raw k : Nat) : State :=
  let a := s.axis k
  let w := s.frameBits n - s.get (F.SE_CFG_drop n)
  let r := raw / 2 ^ s.get (F.SE_CFG_drop n)
  match a.rPrev with
  | none =>
    let t := s.setAxis k { a with rPrev := some r }
    if a.st == .acquire then t.axisValid k else t
  | some p =>
    let d := signedOf w (r + 2 ^ w - p % 2 ^ w)
    (s.setAxis k { a with rPrev := some r }).countChange k d (s.serial n).latch

/-- The difference of a frame exceeds the jump limit on some axis (R99). -/
def State.frameJumps (s : State) (n raw : Nat) : Bool :=
  let w := s.frameBits n - s.get (F.SE_CFG_drop n)
  let r := raw / 2 ^ s.get (F.SE_CFG_drop n)
  let lim := s.get (F.SE_LIM_jlim n)
  lim != 0 && (s.serialAxes n).any (fun k => match (s.axis k).rPrev with
    | some p => decide (lim < (signedOf w (r + 2 ^ w - p % 2 ^ w)).natAbs)
    | none => false)

/-- SE_FRAME_END: a running frame completes and is checked (R97 to R100); nW = 0 warns, whether the frame fails or not. -/
def State.frameEnd (s : State) (n : Nat) (f : SerialFrame) : State :=
  if !(s.serial n).running then s
  else
    let bits := s.frameBits n
    let data := f.data.toNat % 2 ^ bits
    let proto := s.get (F.SE_CFG_proto n)
    let ones := countBits bits data
    let par := s.get (F.SE_CFG_par n)
    let parBad := proto ≤ 1 && ((par == 1 && (ones % 2 == 1) != f.parity) || (par == 2 && (ones % 2 == 0) != f.parity))
    let crcBad := proto == 2 && f.crc.toNat != 63 - crc6 (msbBits bits data ++ [f.nE, f.nW]) 0
    let raw := if proto == 1 then grayToBinary bits data 0 else data
    let s0 := if proto == 2 then s.set (F.SE_MEAS_ldly n) f.ldly.toNat else s
    let s1 := if proto == 2 && !f.nW then
        (s.serialAxes n).foldl (fun v k => v.axFlag k 7 0 (0x28 + n)) (s0.set (F.SE_STAT_warn n) 1)
      else s0
    if proto == 3 then s1.frameFails n 5 6
    else if parBad then s1.frameFails n 2 3
    else if crcBad then s1.frameFails n 3 5
    else if proto == 2 && !f.nE then s1.frameFails n 4 4
    else if s1.frameJumps n raw then s1.frameFails n 6 7
    else
      let t := (({ s1 with serials := tabPut s1.serials n { s1.serial n with running := false } }.wr (R.SE_RAW n) (w32 raw)).set
        (F.SE_MEAS_consec n) 0)
      (s.serialAxes n).foldl (fun v k => v.frameValue n raw k) t

def execSeFrameEnd (n : Fin 2) (frame : SerialFrame) (s : State) : Host.Outcome State Fault Refusal :=
  .next (s.frameEnd n.val frame)

/-- SE_TIMEOUT: the monoflop, acknowledge or BiSS timeout expires and the running frame fails (R97, R98). -/
def execSeTimeout (n : Fin 2) (s : State) : Host.Outcome State Fault Refusal :=
  .next (if (s.serial n.val).running then s.frameFails n.val 5 6 else s)

/-- The balls of a serial input that the device drives (R98, R100, R129): SEn_DE is high while an axis uses the input, SEn_PEN
follows its register, and SEn_MA is high but while a frame clocks it. -/
structure SerialBalls where
  ma : Option Bool
  de : Bool
  pen : Bool
deriving DecidableEq, Repr

def State.serialBalls (s : State) (n : Nat) : SerialBalls :=
  { ma := if (s.serial n).running then none else some true, de := !(s.serialAxes n).isEmpty, pen := s.flag (F.SE_CFG_pen n) }

/-! ### Step-paced and virtual axes (R36, R101, R102) -/

/-- MICROSTEP_HANDOVER: a counting pulse crossing hands over its pending pulses (R36, R101). -/
def State.handover (s : State) (n : Nat) (rev : Bool) : State :=
  let a := s.axis n
  let k := if rev then a.revPulses else a.fwdPulses
  let t := s.setAxis n (if rev then { a with revPulses := 0 } else { a with fwdPulses := 0 })
  if s.flag (F.AX_CFG_en n) && s.get (F.AX_CFG_src n) == 3 then t.countChange n (if rev then -(k : Int) else k) s.uptime else t

def execMicrostepHandover (n : Fin 8) (rev : Bool) (s : State) : Host.Outcome State Fault Refusal := .next (s.handover n.val rev)

/-- A pulse enters a step-paced axis's crossing; an eighth before a handover is lost, counted and posted (R36, R317). -/
def State.stepPulse (s : State) (n : Nat) (rev : Bool) : State :=
  let a := s.axis n
  let k := if rev then a.revPulses else a.fwdPulses
  if k < 7 then s.setAxis n (if rev then { a with revPulses := k + 1 } else { a with fwdPulses := k + 1 })
  else
    let t := s.bump F.SYS_CDC_STAT_ovf_cnt
    t.post 63 0x4E2 (axisLoc n) (w32 (t.get F.SYS_CDC_STAT_ovf_cnt))

/-- The increment per D4 cycle of a virtual axis, in units of 2^-48 count, from its clamped rate and the ratio of D4
cycles to 1,024 µs of PTP time (R102, R371). No rounding is stated: between two places the choice is a free value. -/
def State.virtualInc (s : State) (n : Nat) : Int :=
  let rate := clampInt (-12800000) 12800000 (s.getInt (F.AX_VRATE_rate n))
  let r := if s.flag (F.AX_CFG_dir_inv n) then -rate else rate
  let den : Int := 1000 * ((if s.get F.PTP_RATIO_ratio = 0 then 400000 else s.get F.PTP_RATIO_ratio : Nat) : Int)
  let num : Int := r * 2 ^ 40 * 1024
  num / den + (if num % den = 0 then 0 else ((s.freeN % 2 : Nat) : Int))

/-- VRATE_UPDATE: at a whole microsecond of PTP time the increment is computed anew (R102); an invalid timebase stops
the axis. -/
def State.vrateUpdate (s : State) (n : Nat) : State :=
  if s.get (F.AX_CFG_src n) == 4 && s.flag F.PTP_STAT_stat then
    s.drawn.setAxis n { s.axis n with vinc := s.virtualInc n } else s

def execVrateUpdate (n : Fin 8) (s : State) : Host.Outcome State Fault Refusal := .next (s.vrateUpdate n.val)

/-- VIRTUAL_CARRY: a carry or borrow of the accumulator is one count; dir_inv has already been applied to the rate
(R90, R102). -/
def State.virtualCarry (s : State) (n : Nat) (borrow : Bool) : State :=
  if s.flag (F.AX_CFG_en n) && s.get (F.AX_CFG_src n) == 4 && s.flag F.PTP_STAT_stat then
    s.countChange n (if borrow != s.flag (F.AX_CFG_dir_inv n) then -1 else 1) s.uptime
  else s

def execVirtualCarry (n : Fin 8) (borrow : Bool) (s : State) : Host.Outcome State Fault Refusal := .next (s.virtualCarry n.val borrow)

/-! ### Encoder output steps and configuration (R121) -/

/-- The spacing since the last step of an output has passed (R121; below 39 acts as 39). -/
def State.eoSpaced (s : State) (i : Nat) : Bool :=
  match (s.encOut i).lastStep with
  | some t => decide (t + max 39 (s.get (F.EO_CFG_sp i)) ≤ s.uptime)
  | none => true

/-- EO_STEP: with pending steps and the spacing elapsed the output takes one quadrature step (R121). -/
def State.eoStep (s : State) (i : Nat) : State :=
  let o := s.encOut i
  if s.flag (F.EO_CFG_en i) && o.pend != 0 && s.eoSpaced i then
    let neg := decide (o.pend < 0)
    let fwd := neg == s.flag (F.EO_CFG_inv i)
    let lv := if fwd then (if o.levelA == o.levelB then (!o.levelA, o.levelB) else (o.levelA, !o.levelB))
      else (if o.levelA == o.levelB then (o.levelA, !o.levelB) else (!o.levelA, o.levelB))
    let o' := { o with pend := if neg then o.pend + 1 else o.pend - 1, levelA := lv.1, levelB := lv.2, lastStep := some s.uptime }
    let t := { s with encOuts := tabPut s.encOuts i o' }
    t.wr (R.EO_POS i) (if neg then s.rd (R.EO_POS i) - 1 else s.rd (R.EO_POS i) + 1)
  else s

def execEoStep (n : Fin 2) (s : State) : Host.Outcome State Fault Refusal := .next (s.eoStep n.val)

/-- A write of EOn_RATIO: refused with M = 0, N = 0 or M > N, and for a change while en = 1 (R121). -/
def State.eoRatioWrite (s : State) (i : Nat) (v : W32) : State :=
  let m := bitsOf v 15 0
  let n := bitsOf v 31 16
  if m = 0 || n = 0 || n < m || (s.flag (F.EO_CFG_en i) && v != s.rd (R.EO_RATIO i)) then s.set (F.EO_STAT_cfg_err i) 1
  else s.wr (R.EO_RATIO i) v

/-- A write of EOn_CFG: changing the axis while en = 1 is refused; enabling clears the output (R121, R478). -/
def State.eoCfgWrite (s : State) (i : Nat) (v0 : W32) : State :=
  let v := v0 &&& 0x870103FF
  let was := s.flag (F.EO_CFG_en i)
  if was && bitsOf v 26 24 != s.get (F.EO_CFG_axis i) then s.set (F.EO_STAT_cfg_err i) 1
  else if !was && bitsOf v 31 31 == 1 then
    ({ s with encOuts := tabPut s.encOuts i {} }.wr (R.EO_CFG i) v).wr (R.EO_POS i) 0
  else s.wr (R.EO_CFG i) v

/-- EO_CFG_WRITE: a write of EOn_RATIO or EOn_CFG (R121). -/
def execEoCfgWrite (n : Fin 2) (ratio : Bool) (value : W32) (s : State) : Host.Outcome State Fault Refusal :=
  .next (if ratio then s.eoRatioWrite n.val value else s.eoCfgWrite n.val value)

/-- TILE_WEIGHT_WRITE: both weights of AXIS_TILEWk change together (R128). -/
def execTileWeightWrite (k : Fin 192) (value : W32) (s : State) : Host.Outcome State Fault Refusal :=
  .next (if s.tileExists (2 * k.val) then s.wr (R.AXIS_TILEW k.val) value else s)

/-! ### One D4 FIRE cycle of an axis (R102, R108, R110, R119) -/

/-- In one cycle the virtual accumulator adds its increment and the sill of the direction follows P. -/
def State.axisTick (s : State) (n : Nat) : State :=
  let a := s.axis n
  if !a.valid then s
  else
    let p := a.a.pos s.uptime
    let sum := (a.vacc.toNat : Int) + a.vinc
    let t := s.setAxis n { a.raiseSill p with vacc := BitVec.ofInt 48 (if s.get (F.AX_CFG_src n) == 4 then sum else a.vacc.toNat) }
    let u := if s.get (F.AX_CFG_src n) == 4 && s.flag F.PTP_STAT_stat && (decide (2 ^ 48 ≤ sum) || decide (sum < 0)) then
        t.virtualCarry n (decide (sum < 0))
      else t
    u.skewStep n

/-- AXIS registers that report the axis as it stands (R126). -/
def State.axisReg (s : State) (id : RegId) (n : Nat) : Option W32 :=
  let a := s.axis n
  let code : Nat := match a.st with | .off => 0 | .acquire => 1 | .moving => 2 | .lull => 3 | .lost => 4
  match id with
  | .AX_POS => some a.a.count
  | .AX_IPOS => some (stampOf (s.axisPos n))
  | .AX_STATE => some (w32 (a.epoch.toNat * 2 ^ 24 + code * 2 ^ 16 + (if a.a.rev then 2 ^ 15 else 0) +
      (if a.valid && a.a.spdValid then 2 ^ 14 else 0) + (if a.skewHold then 2 ^ 13 else 0) + a.a.frac s.uptime))
  | .AX_SPEED => some (wordOfInt a.a.speed)
  | .AX_TS => some (w32 a.a.te)
  | .AX_SILLF => some (stampOf a.sillF)
  | .AX_SILLR => some (stampOf a.sillR)
  | .AX_SKEW => some (if s.isFused n then wordOfInt a.skew else 0)
  | .AX_ZCAP => some a.zcap
  | .AXIS_FT => some (w32 s.uptime)
  | .EO_PEND => some (w32 (unsignedOf 9 (s.encOut n).pend))
  | _ => none

end Sys2Proof.Machine
end

