-- ==== Sys2Proof/Machine/Signals.lean ====
section
/-! DEFINITION. Who waits for a hardware signal, and which consuming operation wins it (R80, R81, R356). -/

namespace Sys2Proof.Machine

def State.chan (s : State) (c : Nat) : Chan := tabGet {} s.chans c
def State.setChan (s : State) (c : Nat) (x : Chan) : State := { s with chans := tabPut s.chans c x }

/-- State code of a Gust channel (R344). -/
def State.chState (s : State) (c : Nat) : Nat := s.get (F.GUST_CH_STAT_state c)

/-- The channel's program goes on with the next instruction. -/
def State.chAdvance (s : State) (c : Nat) (next : Int) : State :=
  ((s.setChan c { s.chan c with idx := next, wait := .none, cur := [], line := 0, off := 0, orig := [] }).set (F.GUST_CH_STAT_state c) 1).set
    (F.GUST_CH_STAT_index c) (unsignedOf 16 next)

/-- The sequencer waits for the signal, consuming it or not. -/
def State.seqWaits (s : State) (sig : Nat) (consume : Bool) (q : Nat) : Bool :=
  (s.seq q).run == .waiting && !s.isShadow q && match (s.seq q).wait with
    | .signal n c _ _ => n == sig && c == consume
    | _ => false

/-- The Gust channel waits for the signal, consuming it or not. -/
def State.chWaits (s : State) (sig : Nat) (consume : Bool) (c : Nat) : Bool :=
  s.chState c == 2 && match (s.chan c).wait with
    | .signal n k _ => n == sig && k == consume
    | _ => false

/-- A waiting sequencer's instruction completes with 0 (R80). -/
def State.wakeSeq (s : State) (q : Nat) : State :=
  match (s.seq q).wait with
  | .signal _ _ rd _ => s.completeWait q rd 0
  | _ => s

/-- Every waiter that does not consume completes when the signal is set, even if it is consumed in the same cycle
(R81). -/
def State.wakeWatchers (s : State) (sig : Nat) : State :=
  let t := ((List.range 48).filter (s.seqWaits sig false)).foldl State.wakeSeq s
  ((List.range 40).filter (s.chWaits sig false)).foldl (fun u c => u.chAdvance c ((u.chan c).idx + 1)) t

/-- A signal is set, and every waiter that does not consume completes (R80, R81). A set signal is set to no further effect. -/
def State.signalSet (s : State) (k : Nat) : State :=
  if s.signal (k % 256) then s else (s.setSignal k).wakeWatchers (k % 256)

/-- Positions of the round-robin whose consuming operation waits for the signal: sequencers by number, Gust channel c at
64 + c (R81, R356). -/
def State.consumers (s : State) (sig : Nat) : List Nat :=
  (List.range 48).filter (s.seqWaits sig true) ++ ((List.range 40).filter (s.chWaits sig true)).map (· + 64)

/-- The next winner: the first position after the previous winner of the signal, round-robin; the lowest position where the
signal has had no winner since reset (R81; DESIGN CHOICE, notes/assumptions/173). -/
def State.winner (s : State) (sig : Nat) : Option Nat :=
  let cs := s.consumers sig
  match tabFind s.sigWinner sig with
  | none => cs.head?
  | some last => match cs.find? (fun p => decide (last < p)) with
    | some p => some p
    | none => cs.head?

/-- A consuming operation takes the set signal: it clears, the winner is noted, and the watchers complete (R81). -/
def State.consume (s : State) (sig pos : Nat) : State :=
  ({ (s.wakeWatchers sig).clearSignal sig with sigWinner := tabPut s.sigWinner sig pos })

end Sys2Proof.Machine
end

