-- ==== Sys2Proof/Machine/Motor.lean ====
section
/-! DEFINITION. The field-oriented motor channels: duties, sensing, angle sources, the state sequencer, loss and safe
states (R279 to R300), and the ADC inputs (R284). -/

namespace Sys2Proof.Machine

def State.motor (s : State) (n : Nat) : Motor := tabGet {} s.motors n
def State.setMotor (s : State) (n : Nat) (m : Motor) : State := { s with motors := tabPut s.motors n m }

/-! ### Helpers -/

/-- A quotient whose rounding the spec does not state: the floor, or one more where a remainder is left. -/
def State.roundedFree (s : State) (num den : Int) : Int :=
  if num % den = 0 then num / den else num / den + (s.freeN % 2 : Nat)

/-- A quotient rounded to the nearest integer; of an exact half the spec names neither neighbour, so `up` chooses. -/
def nearest (up : Bool) (num : Int) (den : Nat) : Int :=
  let r := 2 * (num % (den : Int))
  if r < (den : Int) || (r == (den : Int) && !up) then num / (den : Int) else num / (den : Int) + 1

/-- The nearest integer, a half rounded by a free bit. -/
def State.nearestFree (s : State) (num : Int) (den : Nat) : Int := nearest (s.freeN % 2 == 1) num den

/-- Integer square root, rounded down, bit by bit from bit `k`. -/
def isqrtFrom : Nat → Nat → Nat → Nat
  | 0, _, r => r
  | k + 1, n, r => let c := r + 2 ^ k; isqrtFrom k n (if c * c ≤ n then c else r)

/-- Integer square root of a number below 2^(2 × 64), rounded down. -/
def isqrt (n : Nat) : Nat := isqrtFrom 64 n 0

/-- Register offset of a refused write, as CMD_ERR and CFG_ERR report it. -/
def regOffset (a : Nat) : Nat := a % 0x100

/-- Sequencer number of a writer, 0xFF for the host port (R299). -/
def writerCode : Master → Nat
  | .seq q => q.val
  | _ => 0xFF

/-- The master may write the registers of a pair's channel: it is the owning pair or the debug port (R280). -/
def isOwner (m : Master) (owner : Nat) : Bool :=
  match m with
  | .seq q => q.val / 2 == 2 + owner
  | .host => false
  | .debug => true

/-- A mismatch of the owning motion pair stands: it left the pair in FAULTED, which only rst ends (R48, R280). -/
def State.pairFaulted (s : State) (owner : Nat) : Bool := (s.seq (4 + 2 * owner)).mismatch

/-! ### Sines and angles (R64, R286) -/

/-- n / √3 with the place at its last digit free: floor or one above in magnitude. -/
def State.overRoot3 (s : State) (n : Int) : Int :=
  let f := isqrt (n.natAbs * n.natAbs / 3)
  let m := if n = 0 then 0 else f + s.freeN % 2
  if n < 0 then -(m : Int) else m

/-- √3 in units of 2^-48. -/
def root3 : Int := 487531792479446

/-- π in units of 2^-48. -/
def piFixed : Int := 884279719003555

/-- The terms of the sine series from `x^(2k+1)` on, in units of 2^-48. -/
def sinSeries (x2 : Int) : Nat → Int → Nat → Int
  | 0, _, _ => 0
  | n + 1, term, k => term + sinSeries x2 n (-(term * x2 / 2 ^ 48) / ((2 * k + 2) * (2 * k + 3) : Nat)) (k + 1)

/-- Sine of an angle in the first quadrant, 0 to 0x4000, in units of 2^-48. -/
def sinQuadrant (a : Nat) : Int :=
  if a = 0x4000 then (2 : Int) ^ 48
  else let x := (a : Int) * piFixed / 2 ^ 15; sinSeries (x * x / 2 ^ 48) 12 x 0

/-- Sine of an angle of 16 bits, in units of 2^-48. -/
def sinFixed (a : Nat) : Int :=
  let r := a % 0x8000
  let v := sinQuadrant (if r ≤ 0x4000 then r else 0x8000 - r)
  if a % 0x10000 < 0x8000 then v else -v

/-- The largest 16-bit angle of the first quadrant not past the vector (x, y), bit by bit from bit `k`. -/
def angleFrom (y x : Int) : Nat → Nat → Nat
  | 0, r => r
  | k + 1, r =>
    let c := r + 2 ^ k
    angleFrom y x k (if x * sinQuadrant c ≤ y * sinQuadrant (0x4000 - c) then c else r)

/-- An angle in the first quadrant, x > 0 and y not negative: exact, or one of the two places beside it by `up`. -/
def quadrantAngle (up : Bool) (y x : Int) : Nat :=
  let r := angleFrom y x 14 0
  if x * sinQuadrant r = y * sinQuadrant (0x4000 - r) then r else r + (if up then 1 else 0)

/-- atan2 of R286, 0x10000 = 360°: the rounding is free, and so is the angle of a vector of length 0. -/
def State.atan2 (s : State) (y x : Int) : Nat :=
  let up := s.freeN % 2 == 1
  if x = 0 ∧ y = 0 then s.freeN % 2 ^ 16
  else if 0 < x ∧ 0 ≤ y then quadrantAngle up y x % 2 ^ 16
  else if x ≤ 0 ∧ 0 < y then (0x4000 + quadrantAngle up (-x) y) % 2 ^ 16
  else if x < 0 ∧ y ≤ 0 then (0x8000 + quadrantAngle up (-y) (-x)) % 2 ^ 16
  else (0xC000 + quadrantAngle up x (-y)) % 2 ^ 16

/-! ### PWM timing (R281, R282) -/

/-- P of a channel: values below 2,000 act as 2,000 (R281). -/
def State.pwmP (s : State) (n : Nat) : Nat := max 2000 (s.get (F.MOT_PWM_period n))

/-- Length of a phase's high interval in D9 cycles: round(D × 2P) (R281). -/
def highCycles (up : Bool) (d p : Nat) : Nat := (nearest up (d * 2 * p : Nat) (2 ^ 16)).toNat

/-- On-times of the high-side and low-side commands in D9 cycles; an on-time of zero or less is none (R282). -/
def onCycles (h p dt : Nat) : Nat × Nat := (h - dt, 2 * p - h - dt)

/-- The D9 cycles of a period at which a phase's high interval of `h` cycles begins and ends: centred on the counter's peak,
the odd cycle on the down-counting side (R281). -/
def highEdges (p h : Nat) : Nat × Nat := (p - h / 2, p - h / 2 + h)

/-- A gate command of a phase is on in a D9 cycle of the period: from t_d after the complementary command has turned off until
its own part of the period ends (R282). -/
def gateOn (p dt h : Nat) (low : Bool) (cycle : Nat) : Bool :=
  let e := highEdges p h
  let past := (cycle + 2 * p - (if low then e.2 else e.1)) % (2 * p)
  decide (dt ≤ past) && decide (past < if low then 2 * p - h else h)

/-- The gate command of a ball of a channel, `cycle` D9 cycles after the update point (R279, R281, R282, R289): phase 0 U, 1 V,
2 W. Between its start and the next update point a channel that has been coasting carries no interval yet. -/
def State.gateCommand (s : State) (n phase : Nat) (low : Bool) (cycle : Nat) : Bool :=
  let m := s.motor n
  match m.drive with
  | .coast => false
  | .brake => low
  | _ =>
    match m.high with
    | none => false
    | some h => gateOn (s.pwmP n) (s.get (F.MOT_PWM_dt n)) (if phase = 0 then h.1 else if phase = 1 then h.2.1 else h.2.2) low cycle

/-- The level of a ball of a channel: a command that is on drives the level its polarity names; during a system reset every
ball drives low (R279). -/
def State.gateBall (s : State) (n phase : Nat) (low : Bool) (cycle : Nat) : Bool :=
  !s.resetting && (s.gateCommand n phase low cycle != (if low then s.flag (F.MOT_CFG_pol_l n) else s.flag (F.MOT_CFG_pol_h n)))

/-- Periods from one loop tick to the next (R298). -/
def State.loopK (s : State) (n : Nat) : Nat := max (s.get (F.MOT_CFG_div n) + 1) ((5000 + s.pwmP n - 1) / s.pwmP n)

/-! ### Flags, events and state (R289, R299) -/

def State.motState (s : State) (n : Nat) : Nat := s.get (F.MOT_STATE_state n)

/-- Bit `b` of MOTn_STAT is set and its event posted; DUTY_LATE posts only when the flag goes from 0 to 1 (R299). -/
def State.motFlag (s : State) (n b : Nat) (detail : W32) : State :=
  let was := s.bit ⟨R.MOT_STAT n, 31, 0⟩ b
  let t := s.setStatus (R.MOT_STAT n) (R.MOT_IEN n) b (56 + n)
  if was && b == 5 then t else t.post (56 + n) (0x400 + b) (loc4 0x1A (0x20 + n)) detail

/-- The channel changes state; every change posts MOT_STATE (R289). HFI is the source of LOCATE and STARTUP, the observer of
every other state but RUN, which selects one (R288, R292; DESIGN CHOICE, notes/assumptions/181). -/
def State.motEnter (s : State) (n new : Nat) : State :=
  let old := s.motState n
  if old = new then s
  else
    let u := if new = 6 then s else s.set (F.MOT_STATE_src n) (if new = 4 ∨ new = 5 then 1 else 0)
    let t := u.set (F.MOT_STATE_state n) new
    t.motFlag n 0 (w32 (t.get (F.MOT_STATE_retries n) * 2 ^ 16 + new * 2 ^ 8 + old))

/-- A command or write is refused with cmd_err (R289). -/
def State.motCmdErr (s : State) (n a : Nat) : State := s.motFlag n 6 (w32 (regOffset a))

/-- The state is one in which firmware duties apply (R289). -/
def motFirmware (st : Nat) : Bool := st == 3 || st == 5 || st == 6

/-- ω_min times 1,000 (R286). -/
def State.wMin (s : State) (n : Nat) : Nat := s.get (F.MOT_RATED_rated n) * s.get (F.MOT_SPDLIM_obs_min n)

/-- The observer is valid (R286). -/
def State.obsValid (s : State) (n : Nat) (m : Motor) : Bool :=
  decide (m.obsConf ≤ s.get (F.MOT_OBS_rth n)) && decide (s.wMin n ≤ m.obsSpeed.natAbs * 1000)

/-- The speed of the source in use. -/
def State.motSpeed (s : State) (n : Nat) : Int :=
  let m := s.motor n
  if s.flag (F.MOT_STATE_src n) then m.hfiSpeed else m.obsSpeed

/-- The speed known to the channel: of its source in BRAKE, STARTUP, SYNC and RUN, of the last window or the recorded one
in RECATCH, else none (R293, R295). -/
def State.motKnown (s : State) (n : Nat) : Option Int :=
  let st := s.motState n
  if st == 7 then (s.motor n).knownSpeed
  else if st == 2 || st == 3 then some (s.motor n).obsSpeed
  else if st == 5 then some (s.motor n).hfiSpeed
  else if st == 6 then some (s.motSpeed n)
  else none

/-! ### Faults and safe states (R294 to R296) -/

/-- A line-boundary request on the bars of the motor axis (R294). -/
def State.motLine (s : State) (n : Nat) : State :=
  if s.flag (F.MOT_CFG_axis_en n) then s.lineRequest (3 + n) (s.get (F.MOT_CFG_axis n)) else s

/-- What the outputs take at entry to FAULT (R295). -/
def State.safeDrive (s : State) (n cause : Nat) : Drive :=
  if s.get (F.MOT_CFG_safe n) == 1 && cause != 2 &&
      (match s.motKnown n with
       | some v => decide (v.natAbs * 1000 < s.get (F.MOT_RATED_rated n) * s.get (F.MOT_SPDLIM_brk_lim n))
       | none => false)
  then .brake else .coast

/-- A channel whose outputs leave the duties: nothing of a committed set, a coast, an attempt or a pulse is left. -/
def Motor.off (m : Motor) (d : Drive) : Motor :=
  { m with drive := d, pending := none, late := none, high := none, coasting := false, syncing := false, pulse := 0 }

/-- A new OBSERVE window (R290). -/
def Motor.newWindow (m : Motor) : Motor := { m with voltAngle := none, voltTurn := 0, window := 0, measured := none }

/-- A cause of R296 occurs: its mask bit, and unless the channel is in FAULT already its entry: first cause, safe state,
line-boundary requests, MOT_STATE and MOT_FAULT. -/
def State.motorFault (s : State) (n cause : Nat) : State :=
  let t := s.setBit ⟨R.MOT_FCAUSE n, 31, 0⟩ cause true
  if s.motState n = 8 then
    if cause = 2 then t.setMotor n ((t.motor n).off .coast) else t
  else
    let u := t.set (F.MOT_FCAUSE_first n) cause
    let v := u.setMotor n ((u.motor n).off (u.safeDrive n cause))
    let w := (v.motLine n).motEnter n 8
    w.motFlag n 1 (w32 (cause * 2 ^ 28 + (w.rd (R.MOT_FCAUSE n) &&& 0x1FE).toNat))

/-- The condition of some cause of R296 holds now. -/
def State.motCondition (s : State) (n : Nat) : Bool :=
  s.bit F.SHUT_GCOND_cond 2 || !s.bit F.SYS_CLK_STAT_lock 8 || !s.bit F.SYS_CLK_STAT_lock 9 ||
    s.pairFaulted (s.get (F.MOT_CFG_owner n)) ||
    (s.get (F.MOT_TRIP_mask n) &&& s.get F.ANA_CMPSTAT_live) != 0 ||
    decide (s.get (F.MOT_BUS_ov_trip n) ≤ (s.motor n).vdc)

/-! ### Commands (R289) -/

/-- stop, or en ← 0: any state moves to OFF with the outputs coasting; out of FAULT the line-boundary requests are
withdrawn (R289, R294). -/
def State.motStop (s : State) (n : Nat) : State :=
  let t := s.setMotor n ((s.motor n).off .coast)
  (if s.motState n = 8 then t.lineWithdraw (3 + n) else t).motEnter n 0

/-- The channel enters OBSERVE for an attempt to start (R290, R292). -/
def State.motObserve (s : State) (n : Nat) : State :=
  let m := ((s.motor n).off .coast).newWindow
  (s.setMotor n { m with pulsePeak := 0, flipped := false, obsRun := 0, lossRun := 0, slowRun := 0, hfiGood := 0 }).motEnter n 1

/-- start (R289): accepted in OFF while en = 1 and no cause's condition holds. -/
def State.motStart (s : State) (n : Nat) : State :=
  if !s.flag (F.MOT_CFG_en n) then s
  else if s.motState n != 0 || s.motCondition n then s.motCmdErr n (R.MOT_CMD n)
  else (s.set (F.MOT_STATE_retries n) 0).motObserve n

/-- A write of MOTn_CMD: start with stop acts as stop (R289). -/
def State.motCmdWrite (s : State) (n : Nat) (v : W32) : State :=
  if bitsOf v 30 30 == 1 then s.motStop n else if bitsOf v 31 31 == 1 then s.motStart n else s

def execMotorStart (n : Fin 2) (value : W32) (s : State) : Host.Outcome State Fault Refusal :=
  .next (s.motCmdWrite n.val (putBits value 31 31 1))

def execMotorStop (n : Fin 2) (s : State) : Host.Outcome State Fault Refusal := .next (s.motStop n.val)

/-- A write of a register whose fields hold still outside OFF: ignored with cmd_err when it would change one (R289,
R478). `keep` masks the fields that may change. -/
def State.motHeldWrite (s : State) (n a : Nat) (v keep : W32) : State :=
  if s.motState n != 0 && (v &&& keep) != (s.rd a &&& keep) then s.motCmdErr n a else s.wr a v

/-- A write of MOTn_CFG; en = 0 acts as stop (R289). -/
def State.motCfgWrite (s : State) (n : Nat) (v0 : W32) : State :=
  let v := v0 &&& 0xFFFFC0FF
  let t := s.motHeldWrite n (R.MOT_CFG n) v 0x7FFFC0FF
  if t.rd (R.MOT_CFG n) == v && bitsOf v 31 31 == 0 then t.motStop n else t

def execMotorDisable (n : Fin 2) (value : W32) (s : State) : Host.Outcome State Fault Refusal :=
  .next (s.motCfgWrite n.val (putBits value 31 31 0))

def State.motPwmWrite (s : State) (n : Nat) (v : W32) : State := s.motHeldWrite n (R.MOT_PWM n) v 0xFFFFFFFF
def State.motSenseWrite (s : State) (n : Nat) (v : W32) : State := s.motHeldWrite n (R.MOT_SENSE n) (v &&& 0xFFFFFFF0) 0xFFFFFFFF

/-! ### Duties (R280, R281, R283) -/

/-- A write of another master than the owner is ignored and sets own_err (R280). -/
def State.motOwnErr (s : State) (n : Nat) (m : Master) : State := s.motFlag n 7 (w32 (writerCode m))

def State.motDuty0Write (s : State) (m : Master) (n : Nat) (v : W32) : State :=
  if isOwner m (s.get (F.MOT_CFG_owner n)) then s.wr (R.MOT_DUTY0 n) v else s.motOwnErr n m

/-- A write of MOTn_DUTY1 commits the duty set in a firmware-driven state; `late` says that it comes less than 8 D9 cycles
before the update point, which leaves a set committed in time for that point in place (R283). -/
def State.motDuty1Write (s : State) (m : Master) (n : Nat) (v : W32) (late : Bool) : State :=
  if isOwner m (s.get (F.MOT_CFG_owner n)) then
    let t := s.wr (R.MOT_DUTY1 n) (v &&& 0x7FFFF)
    if motFirmware (t.motState n) then
      let set := (t.get (F.MOT_DUTY0_dA n), t.get (F.MOT_DUTY0_dB n), t.get (F.MOT_DUTY1_dC n))
      if late then t.setMotor n { t.motor n with late := some set, committed := true }
      else t.setMotor n { t.motor n with pending := some set, committed := true }
    else t
  else s.motOwnErr n m

def execDutyCommit (m : Master) (n : Fin 2) (value : W32) (late : Bool) (s : State) : Host.Outcome State Fault Refusal :=
  .next (s.motDuty1Write m n.val value late)

/-- The committed sets at an update point: the one in time applies; the one that missed it is counted late and waits for the
next (R283). -/
def State.dutyApply (s : State) (n : Nat) : State :=
  let m := s.motor n
  let t := s.setMotor n { m with pending := m.late, late := none, duties := m.pending.getD m.duties }
  if m.late.isSome then (t.bump (F.MOT_CNT_late n)).motFlag n 5 0 else t

/-- The watchdog of a firmware-driven state at a loop tick (R296, cause 6). -/
def State.motWatchdog (s : State) (n : Nat) : State :=
  let m := s.motor n
  let k := if m.committed then 0 else m.dryTicks + 1
  let t := s.setMotor n { m with dryTicks := k, committed := false }
  if s.get (F.MOT_CFG_wd n) + 1 ≤ k then t.motorFault n 6 else t

/-! ### High-frequency injection and the period's intervals (R281, R287, R289) -/

/-- HFI is on: LOCATE and STARTUP, and RUN while it is the source, with an amplitude above 0 (R287, R289). -/
def State.hfiOn (s : State) (n : Nat) : Bool :=
  let st := s.motState n
  s.get (F.MOT_HFI_amp n) != 0 && (st == 4 || st == 5 || (st == 6 && s.flag (F.MOT_STATE_src n)))

/-- HFI's carrier in Hz and its amplitude in 0.1 % of v_dc, clamped (R287). -/
def State.hfiFreq (s : State) (n : Nat) : Nat := max 500 (min 4000 (s.get (F.MOT_HFI_freq n)))
def State.hfiAmp (s : State) (n : Nat) : Nat := min 200 (s.get (F.MOT_HFI_amp n))

/-- What HFI adds to the duty of a phase in Q0.16: a sine of the carrier's phase along the estimated d axis, its amplitude a
fraction of v_dc (R287). The spec gives no rounding and no start of the phase; the model takes the phase at the update point. -/
def State.injection (s : State) (n phase : Nat) : Int :=
  let m := s.motor n
  let c := 2 ^ 48 * sinFixed (m.hfiAngle + 0x4000)
  let d := root3 * sinFixed m.hfiAngle
  let axis := if phase = 0 then 2 * c else if phase = 1 then d - c else -c - d
  s.roundedFree ((s.hfiAmp n * 2 ^ 16 : Nat) * sinFixed (m.carrier * 2 ^ 16 / (4 * 10 ^ 8)) * axis) (2000 * 2 ^ 144)

/-- The duties the outputs carry in the period that starts, before injection (R289): the last committed set; with HFI alone one
common duty; in SYNC and during a polarity pulse duties the channel chooses. The spec gives the chosen ones no value. -/
def State.baseDuties (s : State) (n : Nat) : Int × Int × Int :=
  let m := s.motor n
  let duty := fun (t : State) => Int.ofNat (t.freeN % 2 ^ 16)
  match m.drive with
  | .duties => (m.duties.1, m.duties.2.1, m.duties.2.2)
  | .hfi => (duty s, duty s, duty s)
  | _ => (duty s, duty s.drawn, duty s.drawn.drawn)

/-- Those duties with HFI's voltage added while it is on (R287). -/
def State.injected (s : State) (n : Nat) (d : Int × Int × Int) : Int × Int × Int :=
  if s.hfiOn n then (d.1 + s.injection n 0, d.2.1 + s.drawn.injection n 1, d.2.2 + s.drawn.drawn.injection n 2) else d

/-- The high intervals of three duties in D9 cycles (R281); a duty outside Q0.16 saturates. -/
def State.intervals (s : State) (n : Nat) (d : Int × Int × Int) : Nat × Nat × Nat :=
  let len := fun (t : State) (x : Int) => highCycles (t.freeN % 2 == 1) (clampInt 0 0xFFFF x).toNat (s.pwmP n)
  (len s d.1, len s.drawn d.2.1, len s.drawn.drawn d.2.2)

/-- The period that starts takes its high intervals; a channel that coasts or brakes has none. -/
def State.periodStart (s : State) (n : Nat) : State :=
  let m := s.motor n
  if m.drive = .coast ∨ m.drive = .brake then s.setMotor n { m with high := none }
  else
    let t := s.drawn.drawn.drawn
    let u := t.drawn.drawn.drawn
    u.drawn.drawn.drawn.setMotor n { m with high := some (u.intervals n (t.injected n (s.baseDuties n))) }

/-- PWM_UPDATE: the update point (R281, R283, R291, R296, R298). -/
def State.pwmUpdate (s : State) (n : Nat) : State :=
  let k := s.loopK n
  let m := s.motor n
  let tick := k ≤ m.periods + 1
  let carrier := if s.hfiOn n then (m.carrier + s.hfiFreq n * 2 * s.pwmP n) % (4 * 10 ^ 8) else 0
  let t := s.setMotor n { m with periods := if tick then 0 else m.periods + 1, tickNow := tick, carrier := carrier }
  if motFirmware (s.motState n) && !m.coasting then
    let u := t.dutyApply n
    let v := (u.setMotor n { u.motor n with drive := if s.motState n == 3 && m.ovPause then .coast else .duties }).periodStart n
    if tick then v.motWatchdog n else v
  else t.periodStart n

def execPwmUpdate (n : Fin 2) (s : State) : Host.Outcome State Fault Refusal := .next (s.pwmUpdate n.val)

/-! ### Sensing (R284, R285, R448, R449) -/

/-- The active gain and offset of both ADCs, kept for the sequence that starts now (R449). -/
def State.adcStart (s : State) (n : Nat) : State :=
  { s with adcRun := some n, adcCal := (s.rd (R.CAL_ADC 0), s.rd (R.CAL_ADC 1)) }

/-- SENSE_TRIGGER: the sequence starts, or waits for the one running; a wait above 400 ns (32 D10 cycles) sets sense_late. The
intervals of the sensed period are those the outputs carry now (R284, R285). -/
def State.senseTrigger (s : State) (n wait : Nat) : State :=
  let u := s.setMotor n { s.motor n with sensed := (s.motor n).high.getD (0, 0, 0) }
  match s.adcRun with
  | none => u.adcStart n
  | some _ =>
    let t := { u with adcWait := s.adcWait ++ [n] }
    if 32 < wait then t.motFlag n 4 (w32 (min wait 0xFFFF)) else t

def execSenseTrigger (n : Fin 2) (wait : W16) (s : State) : Host.Outcome State Fault Refusal :=
  .next (s.senseTrigger n.val wait.toNat)

/-- The calibrated code of a raw conversion under a gain and offset word (R448). -/
def calCode (cal : W32) (raw : Nat) : Nat :=
  (clampInt 0 4095 ((((raw : Int) - 2048 + signedOf 12 (bitsOf cal 11 0)) * ((bitsOf cal 31 16 : Nat) : Int) + 2 ^ 13) / 2 ^ 14 + 2048)).toNat

/-- i_x of a code: signed Q1.15 (R285). -/
def phaseCurrent (c : Nat) : Int := clampInt (-32768) 32767 (((c : Int) - 2048) * 16)

/-- The phases with the largest of three high intervals; where several share it the spec does not say which is replaced. -/
def largestPhases (h : Nat × Nat × Nat) : List Nat :=
  let l := [h.1, h.2.1, h.2.2]
  (List.range 3).filter (fun k => l.all (fun x => decide (x ≤ l.getD k 0)))

/-- ANA_AINk takes a calibrated code (R284). -/
def State.ainWrite (s : State) (k c : Nat) : State := s.wr (R.ANA_AIN k) (w32 c)

/-- AIN number of the `i`-th name of MOTn_SENSE, from ia (R284). -/
def State.ainOf (s : State) (n i : Nat) : Nat := bitsOf (s.rd (R.MOT_SENSE n)) (31 - 4 * i) (28 - 4 * i)

/-- Reported currents: the phase with the shortest low-side conduction is the negative sum of the others (R285). -/
def State.sensedCurrents (s : State) (n ia ib ic : Nat) : Int × Int × Int :=
  let a := phaseCurrent ia
  let b := phaseCurrent ib
  let c := phaseCurrent ic
  let ties := largestPhases (s.motor n).sensed
  match ties.getD (s.freeN % max 1 ties.length) 0 with
  | 0 => (-(b + c), b, c)
  | 1 => (a, -(a + c), c)
  | _ => (a, b, -(a + b))

/-- A value of MOTn_IAB, saturated to 16 bits. -/
def sat16 (i : Int) : Nat := unsignedOf 16 (clampInt (-32768) 32767 i)

/-! ### Angle sources (R286, R287, R288) -/

/-- Speed in 1/256 Hz from an angle turned in a number of periods. -/
def State.turnRate (s : State) (n : Nat) (turn : Int) (periods : Nat) : Int :=
  s.roundedFree (turn * 3125000) ((4 * s.pwmP n * periods : Nat) : Int)

/-- Speed in 1/256 Hz from the angle changes of up to 8 periods (R286). -/
def State.turnSpeed (s : State) (n : Nat) (turns : List Int) : Int :=
  if turns.isEmpty then 0 else s.turnRate n (turns.foldl (fun a b => a + b) 0) turns.length

/-- Three times α, and β times √3, of three phase quantities in the stationary frame of R64. -/
def stationary (a b c : Int) : Int × Int := (2 * a - b - c, b - c)

/-- The 16-bit angle of three phase quantities in the stationary frame. -/
def State.frameAngle (s : State) (a b c : Int) : Nat :=
  let v := stationary a b c
  s.atan2 (v.2 * root3) (v.1 * 2 ^ 48)

/-- The flux observer after a period with phase currents and voltages (R286): psi in units of 2^-28, in the frame of CLARKE
(R64), each division rounded by a free value. A residual against psi0 = 0 has no stated value. -/
def State.observerStep (s : State) (n : Nat) (i : Int × Int × Int) (v : Nat × Nat × Nat) : State :=
  let m := s.motor n
  let f := stationary v.1 v.2.1 v.2.2
  let vA := s.roundedFree (f.1 * 2 ^ 12) 3
  let vB := s.drawn.overRoot3 (f.2 * 2 ^ 12)
  let s1 := s.drawn.drawn
  let iB := s1.overRoot3 (i.1 + 2 * i.2.1)
  let s2 := s1.drawn
  let rs : Int := s.get (F.MOT_OBSRL_rs n)
  let ls : Int := s.get (F.MOT_OBSRL_ls n)
  let psiA := m.psiA + (vA - rs * i.1 * 2) - ls * (i.1 - m.prevIA) * 2
  let psiB := m.psiB + (vB - rs * iB * 2) - ls * (iB - m.prevIB) * 2
  let angle := s2.atan2 psiB psiA
  let s3 := s2.drawn
  let mag := isqrt (psiA * psiA + psiB * psiB).natAbs
  let psi0 : Nat := s.get (F.MOT_OBS_psi0 n) * 2 ^ 16
  let conf := if psi0 = 0 then s3.freeN % 2 ^ 16
    else min 0xFFFF (s3.roundedFree (Int.ofNat (((mag : Int) - (psi0 : Int)).natAbs * 2 ^ 16)) (Int.ofNat psi0)).toNat
  let turns := (signedOf 16 (angle + 2 ^ 16 - m.obsAngle) :: m.obsTurns).take 8
  let u := s3.drawn
  let m' := { m with psiA := psiA, psiB := psiB, prevIA := i.1, prevIB := iB, obsAngle := angle, obsConf := conf,
                     obsTurns := turns, obsSpeed := u.turnSpeed n turns }
  u.drawn.setMotor n m'

/-- HFI after a period: the angle follows the tracked one modulo 180° (R287). -/
def State.hfiStep (s : State) (n hfi conf : Nat) : State :=
  let m := s.motor n
  if s.hfiOn n then
    let d := signedOf 15 (hfi + 2 ^ 15 - m.hfiAngle % 2 ^ 15)
    let turns := (d :: m.hfiTurns).take 8
    let m' := { m with hfiAngle := unsignedOf 16 (m.hfiAngle + d), hfiConf := conf, hfiTurns := turns,
                       hfiSpeed := s.turnSpeed n turns,
                       hfiGood := if conf ≤ s.get (F.MOT_OBS_rth n) then m.hfiGood + 1 else 0,
                       travel := m.travel + d, low := min m.low (m.travel + d) }
    s.drawn.setMotor n m'
  else s.setMotor n { m with hfiGood := 0 }

/-- HFI has converged: 8 carrier periods with the residual at or below rth (R287). -/
def State.hfiConverged (s : State) (n : Nat) : Bool :=
  decide (8 * 10 ^ 9 ≤ (s.motor n).hfiGood * 5 * s.pwmP n * s.hfiFreq n)

/-! ### The state sequencer (R288 to R293) -/

/-- STARTUP is entered on the HFI angle (R292). -/
def State.motStartup (s : State) (n : Nat) : State :=
  (s.setMotor n { s.motor n with pulse := 0, travel := 0, low := 0, backRef := 0, flipped := false, dryTicks := 0,
                                 committed := false, pending := none, late := none, drive := .duties }).motEnter n 5

/-- LOCATE is entered, from OBSERVE (polarity unknown) or from BRAKE with HFI seeded by the observer (R290, R291). -/
def State.motLocate (s : State) (n : Nat) (fromObserve : Bool) : State :=
  let m := s.motor n
  (s.setMotor n { m with drive := .hfi, pending := none, late := none, fromObserve := fromObserve, pulse := 0, hfiGood := 0,
                         hfiTurns := [], hfiAngle := if fromObserve then m.hfiAngle else m.obsAngle }).motEnter n 4

/-- SYNC: the channel chooses the duties and seeds the observer, with values the spec does not give (R289). -/
def State.motSeed (s : State) (n : Nat) : State :=
  let t := s.drawn
  t.drawn.setMotor n { s.motor n with drive := .sync, obsRun := 0, lossRun := 0, obsTurns := [],
                                      psiA := s.freeW.toInt, psiB := t.freeW.toInt }

/-- RUN is reached; a line-boundary request of RECATCH is withdrawn (R289, R294). From STARTUP, itself firmware-driven, the
watchdog's count goes on (R296). -/
def State.motRun (s : State) (n src : Nat) : State :=
  let m := s.motor n
  let goesOn := s.motState n == 5
  let t := s.setMotor n { m with drive := .duties, dryTicks := if goesOn then m.dryTicks else 0,
                                 committed := goesOn && m.committed, obsRun := 0, slowRun := 0, lossRun := 0, syncing := false }
  ((if s.motState n = 7 then t.lineWithdraw (3 + n) else t).set (F.MOT_STATE_src n) src).motEnter n 6

/-- A failed attempt to start (R292): a coast of 10 ms before the next, or FAULT after three retries. -/
def State.startFails (s : State) (n reason : Nat) : State :=
  if 3 ≤ s.get (F.MOT_STATE_retries n) then s.motorFault n 7
  else
    let t := s.bump (F.MOT_STATE_retries n)
    (t.setMotor n { (t.motor n).off .coast with coasting := true }).motFlag n 8
      (w32 (reason * 16 + t.get (F.MOT_STATE_retries n) % 16))

/-- An attempt of RECATCH fails; after the third the channel enters FAULT with cause 8 (R293). -/
def State.recatchFails (s : State) (n : Nat) : State :=
  let m := s.motor n
  let t := s.setMotor n { (m.off .coast).newWindow with attempts := m.attempts + 1, obsRun := 0, lossRun := 0 }
  if 3 ≤ m.attempts + 1 then t.motorFault n 8 else t

/-- A loss is declared in SYNC or RUN (R293, R294). -/
def State.motLoss (s : State) (n : Nat) : State :=
  let v := s.motSpeed n
  let m := s.motor n
  let t := s.setMotor n { (m.off .coast).newWindow with knownSpeed := some v, attempts := 0, obsRun := 0, lossRun := 0 }
  ((t.motLine n).motFlag n 2 (wordOfInt v)).motEnter n 7

/-- SYNC, alone or inside RECATCH (R289, R293). -/
def State.inSync (s : State) (n : Nat) : Bool := s.motState n == 2 || (s.motState n == 7 && (s.motor n).syncing)

/-- Run lengths after a period: of the observer's validity, of a low speed, and of what ends in a loss: a high residual, in SYNC
an observer that is not valid (R288, R289, R293). -/
def State.motRuns (s : State) (n : Nat) : State :=
  let m := s.motor n
  let conf := if s.flag (F.MOT_STATE_src n) then m.hfiConf else m.obsConf
  s.setMotor n { m with obsRun := if s.obsValid n m then m.obsRun + 1 else 0,
                        slowRun := if m.obsSpeed.natAbs * 10000 < 8 * s.wMin n then m.slowRun + 1 else 0,
                        lossRun := if (if s.inSync n then !s.obsValid n m else decide (s.get (F.MOT_OBS_rth n) < conf)) then m.lossRun + 1 else 0 }

/-- SYNC, alone or inside RECATCH, after a period: 8 periods with the observer valid reach RUN; 8 in which it is not, its
residual or its speed being out of range, are a loss (R289, R293; DEDUCED, notes/assumptions/182). -/
def State.stepSync (s : State) (n : Nat) : State :=
  let m := s.motor n
  if 8 ≤ m.obsRun then s.motRun n 0
  else if 8 ≤ m.lossRun then (if s.motState n = 7 then s.recatchFails n else s.motLoss n)
  else s

/-- BRAKE after a period (R291). -/
def State.stepBrake (s : State) (n : Nat) : State :=
  let m := s.motor n
  if m.obsSpeed.natAbs * 1000 < s.wMin n then s.motLocate n false
  else if s.get (F.MOT_BUS_ov_brk n) ≤ m.vdc then
    let t := (s.setMotor n { m with ovPause := true, ovPosted := true, drive := .coast, high := none }).bump (F.MOT_CNT_ovp n)
    if m.ovPosted then t else t.motFlag n 3 (w32 m.vdc)
  else s.setMotor n { m with ovPause := false }

/-- LOCATE after a period: the first d-axis pulse is of +1/4 current full scale (R292). -/
def State.stepLocate (s : State) (n : Nat) : State :=
  let m := s.motor n
  if m.coasting || m.pulse != 0 || !s.hfiConverged n then s
  else if m.fromObserve then s.setMotor n { m with pulse := 1, drive := .pulse (2 ^ 13) }
  else s.motStartup n

/-- STARTUP after a period: the backward test after polarity pulses and the forward revolution (R292). -/
def State.stepStartup (s : State) (n : Nat) : State :=
  let m := s.motor n
  if m.coasting then s
  else if m.fromObserve && decide (m.travel - m.backRef < -(s.get (F.MOT_START_back_lim n) : Int)) then
    if m.flipped then s.startFails n 1
    else s.setMotor n { m with flipped := true, backRef := m.travel, hfiAngle := (m.hfiAngle + 2 ^ 15) % 2 ^ 16 }
  else if 2 ^ 16 ≤ m.travel - m.low then s.motRun n 1
  else s

/-- RUN after a period: the angle source and the loss (R288, R293). -/
def State.stepRun (s : State) (n : Nat) : State :=
  let m := s.motor n
  if 8 ≤ m.lossRun then s.motLoss n
  else if s.get (F.MOT_HFI_amp n) == 0 then s.set (F.MOT_STATE_src n) 0
  else if s.flag (F.MOT_STATE_src n) then
    if 8 ≤ m.obsRun then (s.setMotor n { m with lossRun := 0, slowRun := 0 }).set (F.MOT_STATE_src n) 0 else s
  else if 8 ≤ m.slowRun then
    (s.setMotor n { m with lossRun := 0, obsRun := 0, hfiAngle := m.obsAngle, hfiConf := 0xFFFF, hfiTurns := [] }).set
      (F.MOT_STATE_src n) 1
  else s

/-- The state machine after a period's samples. -/
def State.motAdvance (s : State) (n : Nat) : State :=
  let m := s.motor n
  match s.motState n with
  | 2 => s.stepSync n
  | 3 => s.stepBrake n
  | 4 => s.stepLocate n
  | 5 => s.stepStartup n
  | 6 => s.stepRun n
  | 7 => if m.syncing then s.stepSync n else s
  | _ => s

/-- The measured set of a loop tick: the snapshot group's registers and the signal (R298, R300). -/
def State.loopTick (s : State) (n : Nat) (i : Int × Int × Int) (c : Nat × Nat × Nat × Nat × Nat) : State :=
  let m := s.motor n
  let hfi := s.flag (F.MOT_STATE_src n)
  let t := (s.wr (R.MOT_IAB n) (w32 (sat16 i.2.1 * 2 ^ 16 + sat16 i.1))).wr (R.MOT_ICV n)
    (w32 (c.2.1 * 16 * 2 ^ 16 + sat16 (phaseCurrent c.1)))
  let u := (t.wr (R.MOT_VAB n) (w32 (c.2.2.2.1 * 16 * 2 ^ 16 + c.2.2.1 * 16))).wr (R.MOT_VC n) (w32 (c.2.2.2.2 * 16))
  let v := (u.wr (R.MOT_ANG n) (w32 ((if hfi then m.hfiConf else m.obsConf) * 2 ^ 16 + (if hfi then m.hfiAngle else m.obsAngle)))).wr
    (R.MOT_SPD n) (wordOfInt (if hfi then m.hfiSpeed else m.obsSpeed))
  (v.setMotor n { m with tickState := s.rd (R.MOT_STATE n) }).signalSet (s.get (F.MOT_CFG_sig n))

/-- The next waiting sense sequence starts (R284). -/
def State.adcNext (s : State) : State :=
  match s.adcWait with
  | [] => { s with adcRun := none }
  | n :: r => { s with adcWait := r }.adcStart n

/-- The phase-voltage vector's amplitude is at least 2 % of v_dc, in codes (R290). -/
def vectorMeasured (va vb vc : Int) (vdc : Nat) : Bool :=
  let v := stationary va vb vc
  decide (9 * ((vdc * vdc : Nat) : Int) ≤ 2500 * (v.1 * v.1 + 3 * v.2 * v.2))

/-- A period of an OBSERVE window (R290): the vector's angle is followed, and at 4 ms (800,000 counts of P) its frequency is
taken, the mean over the window, if its amplitude counts as measured. -/
def State.observePeriod (s : State) (n : Nat) (va vb vc vdc : Nat) : State :=
  let m := s.motor n
  if s.motState n = 1 ∨ (s.motState n = 7 ∧ m.syncing = false) then
    let angle := s.frameAngle va vb vc
    let turn := m.voltTurn + (match m.voltAngle with
      | some b => signedOf 16 (angle + 2 ^ 16 - b)
      | none => 0)
    let taken := if vectorMeasured va vb vc vdc then some (s.drawn.turnRate n turn (max 1 m.window)) else none
    s.drawn.drawn.setMotor n { m with
      voltAngle := some angle, voltTurn := turn, window := m.window + 1,
      measured := if m.measured.isNone && 800000 ≤ (m.window + 1) * s.pwmP n then some taken else m.measured }
  else s

/-- SENSE_DONE: the four pairs are converted (R284 to R293, R298). In OFF a v_dc that stood at or above ov_trip when stop came
keeps the channel there (R296). -/
def State.senseDone (s : State) (n : Nat) (k : SenseCodes) : State :=
  if s.adcRun != some n then s
  else
    let c0 := calCode s.adcCal.1
    let c1 := calCode s.adcCal.2
    let ia := c0 k.ia.toNat
    let ib := c1 k.ib.toNat
    let ic := c0 k.ic.toNat
    let vdc := c1 k.vdc.toNat
    let va := c0 k.va.toNat
    let vb := c1 k.vb.toNat
    let vc := c0 k.vc.toNat
    let a := ([ia, ib, ic, vdc, va, vb, vc].zipIdx).foldl (fun t e => t.ainWrite (t.ainOf n e.2) e.1) s.adcNext
    let i := a.sensedCurrents n ia ib ic
    let high := decide (s.get (F.MOT_BUS_ov_trip n) ≤ vdc)
    let stood := (a.motor n).ovHeld
    let b := a.drawn.setMotor n { a.motor n with vdc := vdc, ovHeld := high }
    let o := (b.observerStep n i (va * 16, vb * 16, vc * 16)).hfiStep n k.hfi.toNat k.hfiConf.toNat
    let r := (o.observePeriod n va vb vc vdc).motRuns n
    let u := if high && (r.motState n != 0 || !stood) then r.motorFault n 5 else r.motAdvance n
    if (u.motor n).tickNow then
      (u.setMotor n { u.motor n with tickNow := false }).loopTick n i (ic, vdc, va, vb, vc)
    else u

def execSenseDone (n : Fin 2) (codes : SenseCodes) (s : State) : Host.Outcome State Fault Refusal :=
  .next (s.senseDone n.val codes)

/-- The window is over: 4 ms, and where a frequency at or above ω_min was measured 2 / |f| (R290); a period is 2P cycles of
2.5 ns, and `cycles` more have passed since the last one ended. -/
def State.windowOver (s : State) (n cycles : Nat) : Bool :=
  let m := s.motor n
  match m.measured with
  | none => false
  | some none => true
  | some (some f) => decide (f.natAbs * 1000 < s.wMin n) || decide (512 * (4 * 10 ^ 8) ≤ (m.window * (2 * s.pwmP n) + cycles) * f.natAbs)

/-- The frequency a window measured, 1/256 Hz, positive forward. -/
def Motor.freq (m : Motor) : Option Int := m.measured.getD none

/-- OBSERVE_WINDOW_END (R290, R293). -/
def State.observeEnd (s : State) (n cycles : Nat) : State :=
  let m := s.motor n
  let f := m.freq
  let fast := match f with
    | some v => decide (s.wMin n ≤ v.natAbs * 1000)
    | none => false
  let fwd := match f with
    | some v => decide (0 < v)
    | none => false
  if !s.windowOver n cycles then s
  else if s.motState n = 1 then
    if fast && fwd then (s.motSeed n).motEnter n 2
    else if fast then
      (s.setMotor n { m with drive := .duties, ovPosted := false, ovPause := false, dryTicks := 0, committed := false,
                             obsSpeed := f.getD 0 }).motEnter n 3
    else s.motLocate n true
  else if s.motState n = 7 && !m.syncing then
    let t := s.setMotor n { m with knownSpeed := if f.isSome then f else m.knownSpeed }
    if fast && fwd then (t.motSeed n).setMotor n { (t.motSeed n).motor n with syncing := true } else t.recatchFails n
  else s

def execObserveWindowEnd (n : Fin 2) (cycles : W32) (s : State) : Host.Outcome State Fault Refusal :=
  .next (s.observeEnd n.val cycles.toNat)

/-- POLARITY_PULSE_END: the second pulse is of −1/4 current full scale; after it the one with the larger peak is taken as north
(R292); of equal peaks the spec names none. -/
def State.pulseEnd (s : State) (n peak : Nat) : State :=
  let m := s.motor n
  if s.motState n != 4 || m.pulse == 0 then s
  else if m.pulse == 1 then s.setMotor n { m with pulse := 2, pulsePeak := peak, drive := .pulse (-(2 ^ 13)) }
  else
    let south := decide (m.pulsePeak < peak) || (peak == m.pulsePeak && s.freeN % 2 == 1)
    let t := s.drawn.setMotor n { m with hfiAngle := if south then (m.hfiAngle + 2 ^ 15) % 2 ^ 16 else m.hfiAngle }
    t.motStartup n

def execPolarityPulseEnd (n : Fin 2) (peak : W16) (s : State) : Host.Outcome State Fault Refusal :=
  .next (s.pulseEnd n.val peak.toNat)

/-- LOCATE_TIMEOUT: 50 ms without convergence (R292). -/
def execLocateTimeout (n : Fin 2) (s : State) : Host.Outcome State Fault Refusal :=
  .next (if s.motState n.val = 4 ∧ (s.motor n.val).coasting = false ∧ (s.motor n.val).pulse = 0 then s.startFails n.val 0 else s)

/-- STARTUP_TIMEOUT: start_to without a forward revolution (R292). -/
def execStartupTimeout (n : Fin 2) (s : State) : Host.Outcome State Fault Refusal :=
  .next (if s.motState n.val = 5 ∧ (s.motor n.val).coasting = false then s.startFails n.val 2 else s)

/-- RETRY_COAST_END: the coast after a failed start ends (R292). -/
def execRetryCoastEnd (n : Fin 2) (s : State) : Host.Outcome State Fault Refusal :=
  .next (if (s.motor n.val).coasting then s.motObserve n.val else s)

/-- RECATCH_TIMEOUT: 100 ms since the loss (R293). -/
def execRecatchTimeout (n : Fin 2) (s : State) : Host.Outcome State Fault Refusal :=
  .next (if s.motState n.val = 7 then s.motorFault n.val 8 else s)

/-! ### Idle conversions (R284) -/

/-- ADC_SCAN: the inputs of ANA_SCAN.mask are converted; bit k of `adc1` names the ADC of input k (R284, R448). -/
def State.adcScan (s : State) (codes : List (BitVec 12)) (adc1 : Nat) : State :=
  if !s.bit F.SYS_CLK_STAT_lock 9 then s
  else (List.range 16).foldl (fun t k =>
    if s.bit F.ANA_SCAN_mask k then
      match codes[k]? with
      | some raw => t.ainWrite k (calCode (s.rd (R.CAL_ADC (if natBit adc1 k then 1 else 0))) raw.toNat)
      | none => t
    else t) s

def execAdcScan (codes : List (BitVec 12)) (adc1 : W16) (s : State) : Host.Outcome State Fault Refusal :=
  .next (s.adcScan codes adc1.toNat)

/-- Both channels when P_MOT or P_ADC loses lock; of P_ADC every ANA_AINk goes stale (R35, R284, R296). -/
def State.motorsUnlocked (s : State) : State := (List.range 2).foldl (fun t n => t.motorFault n 2) s

def State.ainStale (s : State) : State := (List.range 16).foldl (fun t k => t.set (F.ANA_AIN_stale k) 1) s

end Sys2Proof.Machine
end

