-- ==== Sys2Proof/Machine/Stepper.lean ====
section
/-! DEFINITION. The stepper channels: states, moves and profiles, microsteps, current chopping, stall detection and safe
states (R301 to R319), and the comparators they share with the trip inputs (R297, R300, R302). -/

namespace Sys2Proof.Machine

def State.stepper (s : State) (n : Nat) : Stepper := tabGet {} s.steppers n
def State.setStepper (s : State) (n : Nat) (c : Stepper) : State := { s with steppers := tabPut s.steppers n c }

/-! ### Flags, events and state (R312, R318) -/

def State.stepState (s : State) (n : Nat) : Nat := s.get (F.ST_STATE_state n)

/-- Bit `b` of STn_STAT is set and its event posted; DONE only when the flag goes from 0 to 1 (R318). -/
def State.stepFlag (s : State) (n b : Nat) (detail : W32) : State :=
  let was := s.bit ⟨R.ST_STAT n, 31, 0⟩ b
  let t := s.setStatus (R.ST_STAT n) (R.ST_IEN n) b (58 + n)
  if was && b == 7 then t else t.post (58 + n) (0x420 + b) (loc4 0x1B (0x20 + n)) detail

/-- A refused write (R312, R318). -/
def State.stepCfgErr (s : State) (n a : Nat) : State := s.stepFlag n 5 (w32 (regOffset a))

/-- The channel changes state; every change posts ST_STATE (R312). -/
def State.stepEnter (s : State) (n new : Nat) : State :=
  let old := s.stepState n
  if old = new then s else (s.set (F.ST_STATE_state n) new).stepFlag n 0 (w32 (new * 2 ^ 8 + old))

/-- The queue of a channel, with its occupancy as STn_STATE reports it: the card gives 0 to 16 a field of 4 bits, so what 16
entries read as is a free value. -/
def State.stepQueue (s : State) (n : Nat) (q : List Move) : State :=
  (s.drawn.setStepper n { s.stepper n with queue := q }).set (F.ST_STATE_occ n) (if q.length < 16 then q.length else s.freeN)

/-- The speed, with STn_VEL in microsteps per second and the sign of motion (R319). -/
def State.stepSpeed (s : State) (n v6 : Nat) : State :=
  let c := s.stepper n
  let neg := match c.cur with
    | some e => decide (e.dist < 0)
    | none => false
  (s.setStepper n { c with v6 := v6 }).wr (R.ST_VEL n) (wordOfInt (if neg then -(v6 / 10 ^ 6 : Nat) else (v6 / 10 ^ 6 : Nat)))

/-- The channel is at rest in READY: no entry, speed 0, the standstill delay counting (R312, R313). -/
def State.stepRest (s : State) (n : Nat) : State :=
  let t := s.stepSpeed n 0
  (t.setStepper n { t.stepper n with cur := none, left := 0, acc := 0, vEnd := none, decel := false, standstill := false }).stepEnter n 1

/-- Generation stops at once and the queue is flushed. -/
def State.stepFlush (s : State) (n : Nat) : State :=
  let t := (s.stepQueue n []).stepSpeed n 0
  t.setStepper n { t.stepper n with cur := none, left := 0, acc := 0, vEnd := none, decel := false }

/-! ### Thresholds (R304, R306, R307) -/

/-- T[x] as the table holds it, s(256) = 1,023 (R304). -/
def State.sine (s : State) (x : Nat) : Nat :=
  if 256 ≤ x then 1023
  else if x % 2 = 0 then s.get (F.STEP_TABLE_t_even (x / 2)) else s.get (F.STEP_TABLE_t_odd (x / 2))

/-- Magnitude and sign (true: negative) of a bridge's phase current at p (R304). -/
def State.phaseOf (s : State) (n : Nat) (bridgeB : Bool) : Nat × Bool :=
  let p := s.get (F.ST_STATE_p n)
  let q := p / 256
  let r := p % 256
  let up := if q % 2 = 0 then bridgeB else !bridgeB
  (s.sine (if up then r else 256 - r), if bridgeB then decide (2 ≤ q) else q == 1 || q == 2)

/-- Current scale I (R306, R313). -/
def State.stepCurrent (s : State) (n : Nat) : Nat :=
  if s.stepState n = 1 && (s.stepper n).standstill then s.get (F.ST_CUR_hold n) else s.get (F.ST_CUR_run n)

/-- The set code of a bridge (R306). -/
def State.setCode (s : State) (n : Nat) (bridgeB : Bool) : Nat :=
  ((s.phaseOf n bridgeB).1 * s.stepCurrent n + 512) / 2 ^ 10

/-- The adaptive offset of a bridge in 1/16 LSB (R307). -/
def State.bridgeOffset (s : State) (n : Nat) (bridgeB : Bool) : Int :=
  let w := s.rd (R.ST_OFFS n)
  signedOf 16 (if bridgeB then bitsOf w 15 0 else bitsOf w 31 16)

/-- Upper and lower threshold codes of a bridge (R306); the spec does not say how an offset's fraction enters a code. -/
def State.thresholds (s : State) (n : Nat) (bridgeB : Bool) : Nat × Nat :=
  let c : Int := s.setCode n bridgeB
  let h : Int := (s.get (F.ST_CHOP_hyst n) / 2 : Nat)
  let o := s.roundedFree (s.bridgeOffset n bridgeB) 16
  ((clampInt 0 1023 (c + h + o)).toNat, (clampInt 0 1023 (c - h + o)).toNat)

def State.bridge (s : State) (n : Nat) (bridgeB : Bool) : Bridge := if bridgeB then (s.stepper n).bridgeB else (s.stepper n).bridgeA
def State.setBridge (s : State) (n : Nat) (bridgeB : Bool) (b : Bridge) : State :=
  s.setStepper n (if bridgeB then { s.stepper n with bridgeB := b } else { s.stepper n with bridgeA := b })

/-! ### Comparators (R297, R302) -/

/-- A comparator is in use: enabled by its register, or named by an enabled stepper channel (R297, R302). -/
def State.cmpEnabled (s : State) (k : Nat) : Bool :=
  s.flag (F.ANA_CMP_en k) ||
    (List.range 4).any (fun n => s.flag (F.ST_CFG_en n) && (s.get (F.ST_CFG_cmp_a n) == k || s.get (F.ST_CFG_cmp_b n) == k))

/-- The bridge an enabled stepper channel chops against a comparator (R302). -/
def State.cmpBridge (s : State) (k : Nat) : Option (Nat × Bool) :=
  ((List.range 4).find? (fun n => s.flag (F.ST_CFG_en n) && (s.get (F.ST_CFG_cmp_a n) == k || s.get (F.ST_CFG_cmp_b n) == k))).map
    (fun n => (n, s.get (F.ST_CFG_cmp_a n) != k))

/-- A comparator's threshold code and whether it is asserted below it: of its register, or the bridge's upper threshold in an ON
phase and its lower one in a DECAY phase (R297, R302, R306). -/
def State.cmpThreshold (s : State) (k : Nat) : Nat × Bool :=
  match s.cmpBridge k with
  | some (n, b) => let t := s.thresholds n b; (if (s.bridge n b).on then t.1 else t.2, false)
  | none => (s.get (F.ANA_CMP_thr k), s.flag (F.ANA_CMP_pol k))

/-- Hysteresis of a comparator in DAC LSB. -/
def State.cmpHyst (s : State) (k : Nat) : Nat :=
  match s.get (F.ANA_CMP_hyst k) with
  | 0 => 0
  | 1 => 8
  | 2 => 16
  | _ => 32

/-- The level a comparator's output takes on its input, a code of the threshold DAC's scale: asserted beyond the threshold, and
once asserted until the input is back by the hysteresis. R297 names the hysteresis and not its side (DESIGN CHOICE,
notes/assumptions/158). A disabled comparator is never asserted. -/
def State.cmpAsserts (s : State) (k : Nat) : Bool :=
  let thr := s.cmpThreshold k
  let back := if s.bit F.ANA_CMPSTAT_live k then s.cmpHyst k else 0
  let x := (s.cmpIn[k]?).getD 0
  s.cmpEnabled k && (if thr.2 then decide (x < thr.1 + back) else decide (thr.1 < x + back))

/-- A comparator's output follows its input, threshold and enable; `seen` records an assertion (R297, R300). -/
def State.cmpFollow (s : State) (k : Nat) : State :=
  let on := s.cmpAsserts k
  let t := s.setBit F.ANA_CMPSTAT_live k on
  if on then t.setBit F.ANA_CMPSTAT_seen k true else t

/-- Every comparator follows. -/
def State.cmpRefresh (s : State) : State := (List.range 8).foldl State.cmpFollow s

/-- COMPARATOR_CHANGE: the input of a comparator takes a value, and its output with it (R297). -/
def State.cmpChange (s : State) (k x : Nat) : State := ({ s with cmpIn := s.cmpIn.setIfInBounds k x } : State).cmpFollow k

/-- A write of ANA_CMPk. -/
def State.cmpWrite (s : State) (k : Nat) (v : W32) : State := (s.plainWrite (R.ANA_CMP k) v).cmpRefresh

/-- A write of ANA_CMPSTAT: a bit of `seen` cleared while its comparator is asserted is set again (R300). -/
def State.cmpStatWrite (s : State) (v : W32) : State :=
  ((List.range 8).filter (fun k => s.bit F.ANA_CMPSTAT_live k)).foldl (fun t k => t.setBit F.ANA_CMPSTAT_seen k true)
    (s.plainWrite R.ANA_CMPSTAT v)

def execComparatorChange (cmp : Fin 8) (input : BitVec 10) (s : State) : Host.Outcome State Fault Refusal :=
  .next (s.cmpChange cmp.val input.toNat)

/-- TRIP_COMPARATOR: a masked comparator that is asserted has passed its channel's filter (R297). -/
def execTripComparator (n : Fin 2) (cmp : Fin 8) (s : State) : Host.Outcome State Fault Refusal :=
  .next (if s.bit (F.MOT_TRIP_mask n.val) cmp.val && s.bit F.ANA_CMPSTAT_live cmp.val then s.motorFault n.val 4 else s)

/-! ### Faults (R315, R316) -/

/-- The axes that count a channel's microsteps (R88, R101). -/
def State.stepAxes (s : State) (n : Nat) : List Nat :=
  (List.range 8).filter (fun k => s.flag (F.AX_CFG_en k) && s.get (F.AX_CFG_src k) == 3 && s.get (F.AX_CFG_sel_a k) == n)

/-- A cause of R315 occurs: its mask bit, and unless in FAULT already the entry, of a disabled channel too (R402): first cause,
flush, line-boundary requests, ST_STATE and ST_FAULT. Cause 2 forces coast, at the entry or in FAULT. -/
def State.stepFault (s : State) (n cause : Nat) : State :=
  let t := s.setBit ⟨R.ST_FCAUSE n, 31, 0⟩ cause true
  let w := t.setStepper n { t.stepper n with forced := cause == 2 || (s.stepState n == 4 && (t.stepper n).forced) }
  if s.stepState n = 4 then w
  else
    let u := (w.set (F.ST_FCAUSE_first n) cause).stepFlush n
    let v := ((s.stepAxes n).foldl (fun w k => w.lineRequest (5 + n) k) u).stepEnter n 4
    v.stepFlag n 1 (w32 (cause * 2 ^ 28 + (v.rd (R.ST_FCAUSE n) &&& 0x3E).toNat))

/-- A fault condition of R315 holds now: supply warning, P_MOT unlocked, or the owning pair FAULTED. -/
def State.stepCondition (s : State) (n : Nat) : Bool :=
  s.bit F.SHUT_GCOND_cond 2 || !s.bit F.SYS_CLK_STAT_lock 8 || s.pairFaulted (s.get (F.ST_CFG_owner n))

/-! ### Enable and configuration (R302, R305, R307, R312) -/

/-- en ← 1 with a configuration word is refused (R302). -/
def State.stepEnableRefused (s : State) (n : Nat) (v : W32) : Bool :=
  let a := bitsOf v 18 16
  let b := bitsOf v 21 19
  a == b ||
    (List.range 4).any (fun k => k != n && s.flag (F.ST_CFG_en k) &&
      [a, b].any (fun c => c == s.get (F.ST_CFG_cmp_a k) || c == s.get (F.ST_CFG_cmp_b k))) ||
    (List.range 2).any (fun k => s.bit (F.MOT_TRIP_mask k) a || s.bit (F.MOT_TRIP_mask k) b)

/-- en goes from 0 to 1: p, POS and both offsets are cleared, and the channel enters READY from OFF unless a fault condition
holds; FAULT is left by clr alone (R305, R307, R312). -/
def State.stepEnabled (s : State) (n : Nat) : State :=
  let t := ((s.set (F.ST_STATE_p n) 0).wr (R.ST_POS n) 0).wr (R.ST_OFFS n) 0
  let u := t.setStepper n { t.stepper n with bridgeA := {}, bridgeB := {} }
  if u.stepCondition n || s.stepState n == 4 then u else u.stepRest n

/-- en goes from 1 to 0: OFF with the bridges coasting, and the step-paced axes of the channel are lost (R101, R312). -/
def State.stepDisabled (s : State) (n : Nat) : State :=
  let t := (s.stepFlush n).stepEnter n 0
  let u := if s.stepState n = 4 then t.lineWithdraw (5 + n) else t
  (s.stepAxes n).foldl (fun v k => v.axisLost k 8 k) u

/-- Fields of STn_CFG that hold still while en = 1 (R312): all but en, stby, decay, adapt and open_flt. -/
def stepHeld : W32 := 0x7F3F0000

/-- A write of STn_CFG (R302, R307, R312, R478): any write of en = 1 may be refused by R302; the comparators follow. -/
def State.stepCfgWrite (s : State) (n : Nat) (v0 : W32) : State :=
  let v := v0 &&& 0xFFFFF000
  let old := s.rd (R.ST_CFG n)
  let was := s.flag (F.ST_CFG_en n)
  let on := bitsOf v 31 31 == 1
  if was && (v &&& stepHeld) != (old &&& stepHeld) then s.stepCfgErr n (R.ST_CFG n)
  else if on && s.stepEnableRefused n v then s.stepCfgErr n (R.ST_CFG n)
  else
    let t := s.wr (R.ST_CFG n) v
    let u := if bitsOf v 13 13 == 0 then t.wr (R.ST_OFFS n) 0 else t
    if !was && on then (u.stepEnabled n).cmpRefresh
    else if was && !on then (u.stepDisabled n).cmpRefresh
    else u

def execStepperEnable (n : Fin 4) (value : W32) (s : State) : Host.Outcome State Fault Refusal :=
  .next (s.stepCfgWrite n.val (putBits value 31 31 1))

def execStepperDisable (n : Fin 4) (value : W32) (s : State) : Host.Outcome State Fault Refusal :=
  .next (s.stepCfgWrite n.val (putBits value 31 31 0))

/-! ### Moves (R309 to R312) -/

/-- The next entry starts: it leaves the queue; the channel is MOVING, a bridge leaving standstill beginning an ON phase
(R311, R313). -/
def State.stepStart (s : State) (n : Nat) : State :=
  let c := s.stepper n
  match c.queue with
  | [] => s
  | e :: r =>
    let c' := { c with cur := some e, left := e.dist.natAbs, vEnd := none, decel := false, standstill := false,
                       bridgeA := if c.standstill then {} else c.bridgeA, bridgeB := if c.standstill then {} else c.bridgeB }
    ((s.setStepper n c').stepQueue n r).stepEnter n 2

/-- A write of another master than the owner or the debug port to STn_QD or STn_QV (R303). -/
def State.stepOwnErr (s : State) (n : Nat) (m : Master) : State := s.stepFlag n 6 (w32 (writerCode m))

def State.stepQdWrite (s : State) (m : Master) (n : Nat) (v : W32) : State :=
  if isOwner m (s.get (F.ST_CFG_owner n)) then s.wr (R.ST_QD n) v else s.stepOwnErr n m

/-- A write of STn_QV pushes an entry or is refused with q_err (R303, R311). -/
def State.movePush (s : State) (m : Master) (n : Nat) (v : W32) : State :=
  if !isOwner m (s.get (F.ST_CFG_owner n)) then s.stepOwnErr n m
  else
    let c := s.stepper n
    let st := s.stepState n
    let d := (s.rd (R.ST_QD n)).toInt
    if 16 ≤ c.queue.length || st == 3 || st == 4 || st == 0 || d == 0 then s.stepFlag n 4 0
    else
      let e : Move := ⟨d, bitsOf v 17 16, min 62500 (bitsOf v 15 0), bitsOf v 19 19 == 1⟩
      let t := s.stepQueue n (c.queue ++ [e])
      if st == 1 then t.stepStart n else t

def execMovePush (m : Master) (n : Fin 4) (value : W32) (s : State) : Host.Outcome State Fault Refusal :=
  .next (s.movePush m n.val value)

/-- stop (R312): the queue is flushed and the running entry decelerates. -/
def State.stepStop (s : State) (n : Nat) : State :=
  let st := s.stepState n
  if st == 2 || st == 3 then (s.stepQueue n []).stepEnter n 3 else s

/-- halt (R312): the queue is flushed and generation stops at once. -/
def State.stepHalt (s : State) (n : Nat) : State :=
  let st := s.stepState n
  if st == 2 || st == 3 then (s.stepFlush n).stepRest n else s

/-- The stall references are recorded: m0 and e0 (R314). -/
def State.stallArm (s : State) (n : Nat) : State :=
  s.setStepper n { s.stepper n with m0 := s.rd (R.ST_POS n), e0 := (s.axis (bitsOf (s.rd (R.ST_STALL n)) 26 24)).a.count }

/-- clr (R312, R314, R316): out of FAULT when no fault condition holds, else cfg_err. A channel with en = 0 is OFF then
(DEDUCED, notes/assumptions/157). -/
def State.stepClr (s : State) (n : Nat) : State :=
  if s.stepState n = 4 && !s.stepCondition n then
    let t := (s.lineWithdraw (5 + n)).stallArm n
    if s.flag (F.ST_CFG_en n) then t.stepRest n else t.stepEnter n 0
  else s.stepCfgErr n (R.ST_CMD n)

/-- A write of STn_CMD: halt takes precedence over stop (R312). -/
def State.stepCmdWrite (s : State) (n : Nat) (v : W32) : State :=
  let t := if bitsOf v 30 30 == 1 then s.stepHalt n else if bitsOf v 31 31 == 1 then s.stepStop n else s
  if bitsOf v 29 29 == 1 then t.stepClr n else t

def execStepStop (n : Fin 4) (s : State) : Host.Outcome State Fault Refusal := .next (s.stepStop n.val)
def execStepHalt (n : Fin 4) (s : State) : Host.Outcome State Fault Refusal := .next (s.stepHalt n.val)
def execStepClr (n : Fin 4) (s : State) : Host.Outcome State Fault Refusal := .next (s.stepClr n.val)

/-! ### Profiles (R308 to R310) -/

/-- A profile set in the units of `Stepper.v6`: speeds in millionths of a microstep per second, accelerations in the
same per update of 1 µs (R308). -/
structure Profile where
  vstart : Nat
  vstop : Nat
  vbrk : Nat
  a1 : Nat
  a2 : Nat
  d1 : Nat
  d2 : Nat
  vmax : Nat
deriving DecidableEq, Repr

/-- A speed register: above 62,500 acts as 62,500; 8 microsteps/s a unit. -/
def speedOf (x : Nat) : Nat := min 62500 x * 8 * 10 ^ 6

/-- An acceleration register: 0 acts as 1; 256 microsteps/s² a unit. -/
def accelOf (x : Nat) : Nat := max 1 x * 256

/-- The profile of an entry; v_brk is clamped to the range v_start to v_max (R308, R309). -/
def State.profileOf (s : State) (n : Nat) (e : Move) : Profile :=
  let w0 := s.rd (R.ST_PROF0 n e.prof)
  let w2 := s.rd (R.ST_PROF2 n e.prof)
  let w3 := s.rd (R.ST_PROF3 n e.prof)
  let vmax := speedOf e.vmax
  let vstart := speedOf (bitsOf w0 15 0)
  let vbrk := min (max (speedOf (bitsOf (s.rd (R.ST_PROF1 n e.prof)) 15 0)) vstart) vmax
  ⟨vstart, speedOf (bitsOf w0 31 16), vbrk, accelOf (bitsOf w2 31 16), accelOf (bitsOf w2 15 0), accelOf (bitsOf w3 31 16),
    accelOf (bitsOf w3 15 0), vmax⟩

/-- The remaining distance is no longer than the braking distance from `v` to `ve` plus one update's travel, in exact
arithmetic over the two segments (R309 step 3), the distance in the units of `Stepper.acc`. With `ve` = 0 the braking ends at
min(v_stop, v). -/
def Profile.mustBrake (p : Profile) (v ve : Nat) (left : Int) : Bool :=
  let e := if ve = 0 then min p.vstop v else ve
  let hi := v * v - max p.vbrk e * max p.vbrk e
  let m := min v (max p.vbrk e)
  let lo := m * m - e * e
  decide (left * p.d1 * p.d2 ≤ 200 * ((hi * p.d1 + lo * p.d2 + v * 2 * p.d1 * p.d2 : Nat) : Int))

/-- The largest speed from which an entry of a profile can stop within a distance (R310), in whole units of v6. -/
def Profile.stopSpeed (p : Profile) (dist : Nat) : Nat :=
  let b := max p.vbrk p.vstop
  let room := dist * 2 * 10 ^ 12
  if b * b ≤ p.vstop * p.vstop + p.d1 * room then
    isqrt (b * b + p.d2 * room - p.d2 * (b * b - p.vstop * p.vstop) / p.d1)
  else isqrt (p.vstop * p.vstop + p.d1 * room)

/-- v_end at the decision point (R310). -/
def State.endSpeed (s : State) (n : Nat) (e : Move) : Nat :=
  match (s.stepper n).queue with
  | nx :: _ =>
    if e.blend && (decide (e.dist < 0) == decide (nx.dist < 0)) && e.prof == nx.prof then
      min (min (speedOf e.vmax) (speedOf nx.vmax)) ((s.profileOf n nx).stopSpeed nx.dist.natAbs)
    else 0
  | [] => 0

/-- The speed after an update of braking towards `ve` (R309); it never rises. -/
def Profile.brake (p : Profile) (v ve : Nat) : Nat :=
  min v (max (v - (if p.vbrk < v then p.d2 else p.d1)) (if ve = 0 then p.vstop else ve))

/-- A whole microstep in the units of `Stepper.acc`. -/
def stepWhole : Int := 4 * 10 ^ 14

/-- What a channel travels in an update of 400 D9 cycles, in those units (R309). -/
def Stepper.travel (c : Stepper) : Int := 400 * (c.v6 : Int)

/-- The distance an entry has left, in those units. -/
def Stepper.distance (c : Stepper) : Int := c.left * stepWhole - c.acc

/-- The speed after an update of acceleration (R309 steps 1 and 2). -/
def Profile.rise (p : Profile) (v : Nat) : Nat :=
  if v = 0 then min p.vstart p.vmax else min p.vmax (v + (if v < p.vbrk then p.a1 else p.a2))

/-- PROFILE_UPDATE: the generator's 1 µs update: the position takes what the speed travelled in the 400 D9 cycles since the
last, then the speed changes (R309, R310, R312). -/
def State.profileUpdate (s : State) (n : Nat) : State :=
  let c0 := s.stepper n
  let c := { c0 with acc := c0.acc + c0.travel }
  match c.cur with
  | none => if s.stepState n = 3 then s.stepRest n else s
  | some e =>
    let p := s.profileOf n e
    if s.stepState n = 3 then
      if c.v6 ≤ p.vstop then s.stepRest n else (s.setStepper n c).stepSpeed n (p.brake c.v6 0)
    else if s.stepState n = 2 then
      let vend := match c.vEnd with
        | some x => some x
        | none => if c.v6 != 0 && p.mustBrake c.v6 0 c.distance then some (s.endSpeed n e) else none
      let dec := c.decel || (match vend with
        | some x => c.v6 != 0 && p.mustBrake c.v6 x c.distance
        | none => false)
      let t := s.setStepper n { c with vEnd := vend, decel := dec }
      t.stepSpeed n (if dec then p.brake c.v6 (vend.getD 0) else p.rise c.v6)
    else s

def execProfileUpdate (n : Fin 4) (s : State) : Host.Outcome State Fault Refusal := .next (s.profileUpdate n.val)

/-! ### Microsteps (R305, R309, R311, R317) -/

/-- Units of p per microstep (R305). -/
def State.stepUnit (s : State) (n : Nat) : Nat := 256 / 2 ^ min 8 (s.get (F.ST_CFG_res n))

/-- The running entry ends on its exact microstep: done, then the next entry at v_end, without a jump from a lower speed, or rest
(R309 to R312). -/
def State.stepEntryEnd (s : State) (n : Nat) : State :=
  let c := s.stepper n
  let t := s.bump (F.ST_QSTAT_done n)
  let u := t.stepFlag n 7 (w32 (t.get (F.ST_QSTAT_done n)))
  let ve := min c.v6 (c.vEnd.getD 0)
  if s.stepState n = 2 && !c.queue.isEmpty then ((u.stepSpeed n ve).stepStart n).stepSpeed n ve
  else u.stepRest n

/-- MICROSTEP: a whole microstep has accumulated, at the latest with what the speed travels to the next update; p and POS change,
every step-paced axis of the channel is pulsed, and the entry may end (R305, R309, R317). -/
def State.microstep (s : State) (n : Nat) : State :=
  let c := s.stepper n
  match c.cur with
  | none => s
  | some e =>
    if c.v6 = 0 || c.left = 0 || c.acc + c.travel < stepWhole then s
    else
      let rev := decide (e.dist < 0)
      let d := s.stepUnit n
      let p := (s.get (F.ST_STATE_p n) + (if rev then 1024 - d else d)) % 1024
      let t := (s.set (F.ST_STATE_p n) p).wr (R.ST_POS n) (if rev then s.rd (R.ST_POS n) - 1 else s.rd (R.ST_POS n) + 1)
      let u := (s.stepAxes n).foldl (fun v k => v.stepPulse k rev) (t.setStepper n { c with left := c.left - 1, acc := c.acc - stepWhole })
      (if c.left = 1 then u.stepEntryEnd n else u).cmpRefresh

def execMicrostep (n : Fin 4) (s : State) : Host.Outcome State Fault Refusal := .next (s.microstep n.val)

/-- STANDSTILL_DELAY: the standstill mode applies in READY (R313). -/
def execStandstillDelay (n : Fin 4) (s : State) : Host.Outcome State Fault Refusal :=
  .next (if s.stepState n.val = 1 then
    (s.setStepper n.val { s.stepper n.val with standstill := true }).cmpRefresh else s)

/-! ### Current chopping (R301, R306, R307) -/

/-- The bridges chop: MOVING, STOPPING, READY before the standstill mode or in standstill hold (R312, R313). -/
def State.chops (s : State) (n : Nat) : Bool :=
  let st := s.stepState n
  st == 2 || st == 3 || (st == 1 && (!(s.stepper n).standstill || decide (2 ≤ s.get (F.ST_CFG_stby n))))

/-- Patterns of a bridge (R301). -/
inductive Pattern where
  | coast | plus | minus | short
deriving DecidableEq, Repr

/-- The levels of a bridge's two balls (R301). -/
def Pattern.levels : Pattern → Bool × Bool
  | .coast => (false, false)
  | .plus => (true, false)
  | .minus => (false, true)
  | .short => (true, true)

/-- The pattern a bridge takes, `decay` D9 cycles into a DECAY phase (R301, R306, R312, R313, R315). -/
def State.bridgePattern (s : State) (n : Nat) (bridgeB : Bool) (decay : Nat) : Pattern :=
  let st := s.stepState n
  let neg := (s.phaseOf n bridgeB).2
  let drive := if neg then Pattern.minus else .plus
  let fast := if neg then Pattern.plus else .minus
  if st == 4 then
    if s.get (F.ST_CFG_safe n) == 1 && !(s.stepper n).forced then .short else .coast
  else if s.chops n then
    if s.setCode n bridgeB == 0 then .short
    else if (s.bridge n bridgeB).on then drive
    else match s.get (F.ST_CFG_decay n) with
      | 1 => fast
      | 2 => if decay < s.get (F.ST_CHOP2_tfd n) then fast else .short
      | _ => .short
  else if st == 1 && s.get (F.ST_CFG_stby n) == 1 then .short
  else .coast

/-- The comparator of a bridge (R302). -/
def State.bridgeCmp (s : State) (n : Nat) (bridgeB : Bool) : Nat := if bridgeB then s.get (F.ST_CFG_cmp_b n) else s.get (F.ST_CFG_cmp_a n)

/-- An ON phase ends after `cycles` D9 cycles: at ton_max if it is `long`, else past the blanking with the comparator asserted
(R306). -/
def State.onEnds (s : State) (n : Nat) (bridgeB : Bool) (cycles : Nat) (long : Bool) : Bool :=
  if long then decide (s.get (F.ST_CHOP2_ton_max n) ≤ cycles)
  else decide (s.get (F.ST_CHOP_tblank n) ≤ cycles) && s.cmpAsserts (s.bridgeCmp n bridgeB)

/-- CHOP_ON_END: an ON phase of `cycles` D9 cycles ends, by the comparator or, `long`, by ton_max; four long ONs in a row
set open; the comparator takes the lower threshold (R306). -/
def State.chopOnEnd (s : State) (n : Nat) (bridgeB : Bool) (cycles : Nat) (long : Bool) : State :=
  let b := s.bridge n bridgeB
  if s.chops n && b.on && s.setCode n bridgeB != 0 && s.onEnds n bridgeB cycles long then
    let k := if long then min 4 (b.longOns + 1) else 0
    let t := (s.setBridge n bridgeB ⟨false, cycles, long, k⟩).cmpFollow (s.bridgeCmp n bridgeB)
    if k = 4 then
      let u := t.stepFlag n 3 (if bridgeB then 1 else 0)
      if s.flag (F.ST_CFG_open_flt n) then u.stepFault n 5 else u
    else t
  else s

def execChopOnEnd (n : Fin 4) (bridgeB : Bool) (cycles : W16) (long : Bool) (s : State) : Host.Outcome State Fault Refusal :=
  .next (s.chopOnEnd n.val bridgeB cycles.toNat long)

/-- The adaptive offset after a chop cycle, in 1/16 LSB (R307). -/
def State.nextOffset (s : State) (n : Nat) (o : Int) (tOn tOff : Nat) : Int :=
  let h := s.get (F.ST_CHOP_hyst n)
  let e := s.roundedFree (8 * h * s.get (F.ST_CHOP_tdly n) * ((tOff : Int) - tOn)) (Int.ofNat (tOn * tOff))
  clampInt (-(16 * h : Nat)) (16 * h : Nat) (o + (-e - o) / 8)

/-- A DECAY phase ends after `cycles` D9 cycles: past toff_min, in units of 10 cycles, with the comparator not asserted (R306). -/
def State.decayEnds (s : State) (n : Nat) (bridgeB : Bool) (cycles : Nat) : Bool :=
  decide (10 * s.get (F.ST_CHOP_toff_min n) ≤ cycles) && !s.cmpAsserts (s.bridgeCmp n bridgeB)

/-- CHOP_DECAY_END: a DECAY phase of `cycles` D9 cycles ends; after a cycle without a long ON the offset is updated while
adapt = 1; the comparator takes the upper threshold (R306, R307). -/
def State.chopDecayEnd (s : State) (n : Nat) (bridgeB : Bool) (cycles : Nat) : State :=
  let b := s.bridge n bridgeB
  if s.chops n && !b.on && s.setCode n bridgeB != 0 && s.decayEnds n bridgeB cycles then
    let t := s.setBridge n bridgeB { b with on := true }
    let u := if s.flag (F.ST_CFG_adapt n) && !b.long then
        let o := unsignedOf 16 (s.nextOffset n (s.bridgeOffset n bridgeB) (max 1 b.tOn) (max 1 cycles))
        let w := t.rd (R.ST_OFFS n)
        t.drawn.wr (R.ST_OFFS n) (if bridgeB then putBits w 15 0 o else putBits w 31 16 o)
      else t
    u.cmpFollow (s.bridgeCmp n bridgeB)
  else s

def execChopDecayEnd (n : Fin 4) (bridgeB : Bool) (cycles : W32) (s : State) : Host.Outcome State Fault Refusal :=
  .next (s.chopDecayEnd n.val bridgeB cycles.toNat)

/-! ### Stall detection (R314) -/

/-- STALL_ENABLE: a write of STn_STALL with en = 1 records the references, or is refused (R314). -/
def State.stallWrite (s : State) (n : Nat) (v0 : W32) : State :=
  let v := v0 &&& 0xC700FFFF
  let k := bitsOf v 26 24
  if bitsOf v 31 31 == 1 then
    if (s.get (F.AX_CFG_src k) == 3 && s.get (F.AX_CFG_sel_a k) == n) || !(s.axis k).valid then s.stepCfgErr n (R.ST_STALL n)
    else (s.wr (R.ST_STALL n) v).stallArm n
  else s.wr (R.ST_STALL n) v

def execStallEnable (n : Fin 4) (value : W32) (s : State) : Host.Outcome State Fault Refusal :=
  .next (s.stallWrite n.val (putBits value 31 31 1))

/-- dev of R314. -/
def State.stallDev (s : State) (n : Nat) : Int :=
  let c := s.stepper n
  let k := bitsOf (s.rd (R.ST_STALL n)) 26 24
  s.nearestFree ((s.rd (R.ST_POS n) - c.m0).toInt * (s.rd (R.ST_SRATIO n)).toInt) (2 ^ 16) - ((s.axis k).a.count - c.e0).toInt

/-- STALL_CHECK: once per microsecond (R314). -/
def State.stallCheck (s : State) (n : Nat) : State :=
  let w := s.rd (R.ST_STALL n)
  let sat := fun (d : Int) => unsignedOf 31 (clampInt (-(2 ^ 30)) (2 ^ 30 - 1) d)
  if bitsOf w 31 31 == 0 then s
  else if !(s.axis (bitsOf w 26 24)).valid then
    (s.wr (R.ST_STALL n) (putBits w 31 31 0)).stepFlag n 2 (w32 (2 ^ 31 + sat (s.rd (R.ST_DEV n)).toInt))
  else
    let d := s.stallDev n
    let t := s.drawn.wr (R.ST_DEV n) (wordOfInt d)
    if bitsOf w 15 0 < d.natAbs then
      let u := t.stepFlag n 2 (w32 (sat d))
      if bitsOf w 30 30 == 1 then u.stepFault n 4 else u
    else t

def execStallCheck (n : Fin 4) (s : State) : Host.Outcome State Fault Refusal := .next (s.stallCheck n.val)

/-- A write of STEP_TABLEk is refused while any channel is enabled (R304). -/
def State.stepTableWrite (s : State) (k : Nat) (v : W32) : State :=
  if (List.range 4).any (fun n => s.flag (F.ST_CFG_en n)) then s.set F.STEP_GSTAT_cfg_err 1 else s.wr (R.STEP_TABLE k) (v &&& 0x03FF03FF)

/-- Every channel takes a fault (supply warning, loss of P_MOT). -/
def State.steppersFault (s : State) (cause : Nat) : State := (List.range 4).foldl (fun t n => t.stepFault n cause) s

end Sys2Proof.Machine
end

