-- ==== Sys2Proof/Machine/LaneOps.lean ====
section
/-! DEFINITION. What every command on a lane shares: its flags and events, the link-fault reasons of its tiles, reads by
the link engine, and MGMT requests (R216, R229, R235, R238). -/

namespace Sys2Proof.Machine

/-! ### Flags and events (R238) -/

/-- Bit `b` of LANEn_LSTAT is set, kind 0x380 + b posted, and the request raised under LANEn_LIEN (R238). -/
def State.laneFlag (s : State) (lane b : Nat) (detail : Nat) : State :=
  (s.setStatus (R.LANE_LSTAT lane) (R.LANE_LIEN lane) b (24 + lane)).post (24 + lane) (0x380 + b) (laneLoc lane) (w32 detail)

/-- A refused write of a lane register (R236, R237). -/
def State.laneCfgErr (s : State) (lane : Nat) : State := s.set (F.LANE_LSTAT_cfg_err lane) 1

/-! ### Link-fault reasons of a tile (R35, R156, R219, R224, R227, R235, R236) -/

/-- Reasons that hold a tile's link-fault condition. -/
inductive LinkReason where
  | pll | excluded | strobeCheck | silence | lockLoss | openRing
deriving DecidableEq, Repr

def LinkReason.bit : LinkReason → Nat
  | .pll => 0 | .excluded => 1 | .strobeCheck => 2 | .silence => 3 | .lockLoss => 4 | .openRing => 5

/-- A reason begins or ends; the condition holds while any does (R262, R264). -/
def State.linkFault (s : State) (k : Nat) (r : LinkReason) (b : Bool) : State :=
  let t := s.tile k
  let f := natSetBit t.faults r.bit b
  if f = t.faults then s else (s.setTile k { t with faults := f }).setCond (.tile k) causeLinkFault (f != 0)

/-- A reason begins or ends for every tile on the lane. -/
def State.laneFault (s : State) (lane mask : Nat) (r : LinkReason) (b : Bool) : State :=
  (positions mask).foldl (fun t p => t.linkFault (lane * 16 + p) r b) s

/-- The tiles on a lane: those of its ENUM mask (R217). -/
def State.present (s : State) (lane : Nat) : Nat := s.get (F.LANE_PRES_link lane)

/-- The position is excluded (R219). -/
def State.excluded (s : State) (lane pos : Nat) : Bool := s.bit (F.LANE_EXCL_excl lane) pos

/-- A tile is excluded: its bit in LANEn_EXCL is set and its shutter held closed with cause link fault (R156, R219). -/
def State.exclude (s : State) (lane pos : Nat) : State :=
  (s.setBit (F.LANE_EXCL_excl lane) pos true).linkFault (lane * 16 + pos) .excluded true

/-! ### Reads by the link engine (R326) -/

/-- Bytes read by a link engine's D4 FIRE read port: an internal unit, which the regions do not check and MEM_UE names 0xFF
(R329, R340). -/
def State.engineRead (s : State) (a len : Nat) : Option (List W8) × State := s.dataRead 0xFF a len

/-! ### MGMT requests (R229, R236) -/

/-- A request as it leaves in a lane's state: MGMT traffic runs in CONFIG, UP and OPEN, and in OPEN a WRITE leaves twice
(R216, R236). -/
def State.mgOut (s : State) (lane : Nat) (r : MgReq) : List LinkOut :=
  if s.laneState lane = 7 && r.op == 1 then [r.out, r.out] else if s.laneRuns lane || s.laneState lane == 4 then [r.out] else []

/-- An MGMT request leaves for a tile. On a lane in OPEN nothing is granted: a WRITE counts once it has left and a READ
stays unanswered (R156, R236). -/
def State.mgSend (s : State) (lane pos op addr count : Nat) (data : List W32) (why : MgWhy) : State :=
  let l := s.lane lane
  let r : MgReq := ⟨pos, l.mgSeq, op, addr, count, data, why, 0⟩
  let keep := !(s.laneState lane == 7 && op == 1)
  s.setLane lane { l with mgmt := if keep then l.mgmt ++ [r] else l.mgmt, out := l.out ++ s.mgOut lane r,
                          mgSeq := (l.mgSeq + 1) % 256 }

/-- A WRITE of words. -/
def State.mgWrite (s : State) (lane pos addr : Nat) (data : List W32) (why : MgWhy) : State :=
  s.mgSend lane pos 1 addr data.length data why

/-! ### The sideband (R217, R218, R231 to R233) -/

/-- A START on the lane's bus at the rate of LANEn_SBCFG.fm. -/
def State.sbLog (s : State) (lane address offset : Nat) (written : List W8) : State :=
  let l := s.lane lane
  s.setLane lane { l with sbOut := l.sbOut ++ [.start address offset written (s.flag (F.LANE_SBCFG_fm lane))] }

/-- Byte `i` of LANEn_SBDATA. -/
def State.sbByte (s : State) (lane i : Nat) : W8 :=
  BitVec.ofNat 8 (bitsOf (s.rd (R.LANE_SBDATA lane (i / 4))) (8 * (i % 4) + 7) (8 * (i % 4)))

/-- The transaction at the front of the lane's list starts: the status of a probed address, a hop latency of the head-memory
record, or what LANEn_SBCMD names. -/
def State.sbStart (s : State) (lane : Nat) : State :=
  match (s.lane lane).sbq with
  | [] => s
  | .firmware :: _ => s.sbLog lane (s.get (F.LANE_SBCMD_addr lane)) (s.get (F.LANE_SBCMD_offset lane))
      (if s.flag (F.LANE_SBCMD_rd lane) then [] else (List.range (s.get (F.LANE_SBCMD_count lane) + 1)).map (s.sbByte lane))
  | .probe p :: _ => s.sbLog lane (0x60 + p) 2 []
  | .hop p :: _ => s.sbLog lane (0x50 + p) 0x50 []
  | .bypass p :: _ => s.sbLog lane (0x50 + p) 0x52 []

/-- Transactions join the lane's list; on an idle bus the first of them starts. -/
def State.sbPush (s : State) (lane : Nat) (ws : List SbWhy) : State :=
  let l := s.lane lane
  let t := s.setLane lane { l with sbq := l.sbq ++ ws }
  if l.sbq.isEmpty then t.sbStart lane else t

/-! ### Row phases (R131, R156, R228) -/

/-- A row phase word for a direction: ρ of rows 0 to 3, ρ = (σ × O) AND 63 (R131, R228). -/
def State.rowPhases (s : State) (k : Nat) (rev : Bool) : W32 :=
  let o := [s.getInt (F.FIRE_TILE_ROW01_even k), s.getInt (F.FIRE_TILE_ROW01_odd k), s.getInt (F.FIRE_TILE_ROW23_even k),
    s.getInt (F.FIRE_TILE_ROW23_odd k)]
  w32 (o.zipIdx.foldl (fun acc e => acc + unsignedOf 6 (if rev then -e.1 else e.1) * 256 ^ e.2) 0)

/-- The tile is in the tile list of a bar (R130). -/
def State.inBar (s : State) (k b : Nat) : Bool := s.flag (F.FIRE_TILE_CFG_en k) && s.get (F.FIRE_TILE_CFG_bar k) == b

/-- A bar's tile list (R130). -/
def State.barTiles (s : State) (b : Nat) : List Nat := s.allTiles.filter (fun k => s.inBar k b)

/-- Some row-phase write of a bar is unanswered. -/
def State.rowPending (s : State) (b : Nat) : Bool := s.lanes.any (fun l => l.2.mgmt.any (fun r => r.why == .rowPhase b))

/-- BARn_STAT.rdy sets when every row-phase write has been acknowledged (R156). -/
def State.barReady (s : State) (b : Nat) : State :=
  if s.flag (F.BAR_CFG_en b) && !s.rowPending b then s.set (F.BAR_STAT_rdy b) 1 else s

/-- Row phases are written to the tiles of a bar on lanes in UP or OPEN that are present and not excluded (R156). -/
def State.sendRowPhases (s : State) (b : Nat) : State :=
  (s.barTiles b).foldl (fun t k =>
    if t.laneRuns (k / 16) && natBit (t.present (k / 16)) (k % 16) && !t.excluded (k / 16) (k % 16) then
      t.mgWrite (k / 16) (k % 16) 8 [t.rowPhases k false, t.rowPhases k true] (.rowPhase b)
    else t) s

end Sys2Proof.Machine
end

