-- ==== Sys2Proof/Machine/Fire.lean ====
section
/-! DEFINITION. Fire scheduling: arming, staging with the duty governor, commitment, strobes, cancellation, bars and tiles
(R130 to R156, R200 to R203). -/

namespace Sys2Proof.Machine

/-! ### Arming and cancelling (R137, R138, R141, R150) -/

/-- A strobe descriptor's entry (R137). -/
def entryOf (stamp desc : W32) : Entry :=
  { stamp := stamp, mask := bitsOf desc 31 16, tag := bitsOf desc 15 8, bar := bitsOf desc 7 5, rev := bitsOf desc 4 4 == 1,
    ahead := false }

/-- The axis of an entry's bar. -/
def State.entryAxis (s : State) (e : Entry) : Nat := s.get (F.BAR_CFG_axis e.bar)

/-- The code of R138 for an ARM. -/
def State.armCode (s : State) (lane : Nat) (stamp desc : W32) : Nat :=
  let e := entryOf stamp desc
  let n := s.entryAxis e
  let a := s.axis n
  if !s.flag (F.LANE_SCHED_en lane) || e.mask == 0 || bitsOf desc 3 0 != 0 || !s.flag (F.BAR_CFG_en e.bar) ||
      !s.flag (F.BAR_STAT_rdy e.bar) || (positions e.mask).any (fun p => !s.inBar (lane * 16 + p) e.bar) ||
      (e.rev && !s.flag (F.AX_CFG_bidir n)) then 3
  else if !a.valid then 4
  else if (s.lane lane).queue.any (fun x => x.bar == e.bar && x.tag == e.tag && (x.mask &&& e.mask) != 0) then 5
  else if 64 ≤ (s.lane lane).queue.length then 1
  else if e.rev == a.a.rev && s.entryBehind n lane e then 2
  else 0

/-- ARM: the result code and, when it is 0, the entry queued (R138). -/
def State.arm (s : State) (lane : Nat) (stamp desc : W32) : Nat × State :=
  let c := s.armCode lane stamp desc
  if c = 0 then
    let e := entryOf stamp desc
    let l := s.lane lane
    let q := l.queue ++ [{ e with ahead := e.rev == (s.axis (s.entryAxis e)).a.rev }]
    (0, (s.setLane lane { l with queue := q }).set (F.LANE_QSTAT_hwm lane) (max (s.get (F.LANE_QSTAT_hwm lane)) q.length))
  else (c, s)

/-- CANCEL: entries with a tag, or all, are removed; their number is the result (R150). -/
def State.cancelTag (s : State) (lane : Nat) (v : W32) : Nat × State :=
  s.removeEntries lane (fun e => bitsOf v 31 31 == 1 || e.tag == bitsOf v 7 0)

/-! ### Slots and staging (R135, R136, R143) -/

/-- The last write of a slot completed 4 D4 FIRE cycles ago or more, so the link engine sees it (R39). -/
def State.slotSeen (s : State) (lane pos tag : Nat) : Bool :=
  match tabFind (s.lane lane).slotTimes (pos * 16 + tag % 16) with
  | some t => decide (t + 4 ≤ s.uptime)
  | none => true

/-- A header is ready for an entry: state ready and a tag equal to the entry's (R136). -/
def headerReady (h : W32) (e : Entry) : Bool := bitsOf h 31 30 == 1 && bitsOf h 23 16 == e.tag

/-- The slot of an entry for a position as the link engine finds it (R39, R136, R326): ready, not ready, or a header that
cannot be read. -/
inductive SlotView where
  | ready (h : W32)
  | waiting
  | unreadable
deriving DecidableEq, Repr

/-- The link engine looks at the slot of an entry for a position. -/
def State.viewSlot (s : State) (lane pos : Nat) (e : Entry) : SlotView × State :=
  if !s.slotSeen lane pos e.tag then (.waiting, s)
  else
    match s.headerRead lane pos e.tag with
    | (none, t) => (.unreadable, t)
    | (some h, t) => (if headerReady h e then .ready h else .waiting, t)

/-- Replace the `i`-th entry of a lane's queue. -/
def State.setEntry (s : State) (lane i : Nat) (e : Entry) : State :=
  s.setLane lane { s.lane lane with queue := (s.lane lane).queue.set i e }

/-- DATA of the entry may leave for a position once its slot is ready (R143): its line is open, fewer than four lines are
in flight, and every earlier entry for the tile has been sent. -/
def State.maySend (s : State) (lane i pos : Nat) (e : Entry) : Bool :=
  let q := (s.lane lane).queue
  natBit e.mask pos && !natBit e.sent pos && !natBit e.dead pos && !natBit e.blank pos && !natBit e.passed pos &&
    s.laneRuns lane && decide ((q.filter (fun x => natBit x.sent pos && !natBit x.passed pos)).length < 4) &&
    (q.take i).all (fun x => !natBit x.mask pos || natBit x.sent pos)

/-! ### The duty governor (R200 to R203) -/

/-- Energy weight of a level (R201). -/
def State.energyWeight (s : State) (lane x : Nat) : Nat :=
  match x with
  | 1 => s.get (F.HEALTH_GOV_EW0_e1 lane)
  | 2 => s.get (F.HEALTH_GOV_EW0_e2 lane)
  | 3 => s.get (F.HEALTH_GOV_EW0_e3 lane)
  | 4 => s.get (F.HEALTH_GOV_EW0_e4 lane)
  | 5 => s.get (F.HEALTH_GOV_EW1_e5 lane)
  | 6 => s.get (F.HEALTH_GOV_EW1_e6 lane)
  | 7 => s.get (F.HEALTH_GOV_EW1_e7 lane)
  | _ => 0

/-- The governor's running values past one line: the tile's counts, the drops suppressed by each limit, whether the tile
limit has stopped the line, and the cause of the first suppression. -/
structure GovLine where
  tile : Tile
  supn : Nat := 0
  supe : Nat := 0
  stop : Bool := false
  first : Option Nat := none
deriving DecidableEq, Repr

/-- One nozzle of R201: its governed level and the running values. -/
def govNozzle (dmax emax : Nat) (ew : Nat → Nat) (parity : List (Fin 2048)) (j x : Nat) (g : GovLine) : Nat × GovLine :=
  let bad := parity.any (fun p => p.val == j)
  let g0 := if bad then { g with tile := { g.tile with prevDrops := tabPut g.tile.prevDrops j dmax,
                                                        curDrops := tabPut g.tile.curDrops j dmax } } else g
  if x = 0 then (0, g0)
  else
    let dp := tabGet 0 g0.tile.prevDrops j
    let dc := tabGet 0 g0.tile.curDrops j
    if bad || (dmax != 0xFFF && decide (dmax < dp + dc + 1)) then
      (0, { g0 with supn := g0.supn + 1, first := some (g0.first.getD 0) })
    else if g0.stop || (emax != 0xFFFFFFFF && decide (emax < g0.tile.prevEnergy + g0.tile.curEnergy + ew x)) then
      (0, { g0 with supe := g0.supe + 1, stop := true, first := some (g0.first.getD 1) })
    else
      (x, { g0 with tile := { g0.tile with curDrops := tabPut g0.tile.curDrops j (dc + 1), curEnergy := g0.tile.curEnergy + ew x } })

/-- The nozzles of a line in ascending order (R201). -/
def govNozzles (dmax emax : Nat) (ew : Nat → Nat) (parity : List (Fin 2048)) :
    Nat → List Nat → GovLine → List Nat × GovLine
  | _, [], g => ([], g)
  | j, x :: xs, g =>
    let (y, g1) := govNozzle dmax emax ew parity j x g
    let (ys, g2) := govNozzles dmax emax ew parity (j + 1) xs g1
    (y :: ys, g2)

/-- Levels of a packed line, `bits` bits each, from a little-endian number (R159). -/
def unpackLevels (bits : Nat) : Nat → Nat → List Nat
  | 0, _ => []
  | k + 1, v => v % 2 ^ bits :: unpackLevels bits k (v / 2 ^ bits)

/-- The little-endian number of a packed line (R159). -/
def packLevels (bits : Nat) : List Nat → Nat
  | [] => 0
  | x :: xs => x % 2 ^ bits + 2 ^ bits * packLevels bits xs

/-- GOV_LIMIT (R202, R203, R204). -/
def State.govLimit (s : State) (lane pos cause tag : Nat) : State :=
  s.laneEvent lane 0x362 (pos * 2 ^ 28 + cause * 2 ^ 24 + tag * 2 ^ 16)

/-- The governor acts on a line before its first transmission and writes the levels back into the slot (R200 to R203). -/
def State.govern (s : State) (lane pos tag bits : Nat) (parity : List (Fin 2048)) : State :=
  if !s.flag (F.HEALTH_GOV_CFG_en lane) then s
  else
    let a := slotAddr lane pos tag
    let len := 256 * bits
    let k := lane * 16 + pos
    let dmax := s.get (F.HEALTH_GOV_CFG_dmax lane)
    let levels := unpackLevels bits 2048 (leNat (s.rdBytes a len))
    let (ys, g) := govNozzles dmax (s.get (F.HEALTH_GOV_EMAX_emax lane)) (s.energyWeight lane) parity 0 levels { tile := s.tile k }
    let t := ((s.wrBytes a (leBytes len (packLevels bits ys))).cellsCleared a len).setTile k g.tile
    let u := (t.bumpBy (F.HEALTH_GOV_SUPN_count lane) g.supn).bumpBy (F.HEALTH_GOV_SUPE_count lane) g.supe
    let v := match g.first with
      | none => u
      | some c =>
        let w := u.setBit (F.HEALTH_GOV_STAT_sup lane) pos true
        if u.bit (F.HEALTH_GOV_STAT_sup lane) pos then w else w.govLimit lane pos c tag
    if parity.isEmpty then v else (v.set (F.HEALTH_GOV_STAT_par_err lane) 1).govLimit lane pos 2 tag

/-- A line whose slot is ready leaves for a tile: the governor acts, the slot is marked sent, and the DATA transom carries
the slot's levels and mode (R135, R136, R200, R212). In OPEN it leaves twice and counts as acknowledged (R236); else it
waits for its REPLY (R220). -/
def State.lineLeaves (s : State) (lane i pos : Nat) (e : Entry) (h : W32) (parity : List (Fin 2048)) : State :=
  let mode := bitsOf h 24 24
  let u := (s.govern lane pos e.tag (2 + mode) parity).putHeader lane pos e.tag (putBits h 31 30 2)
  let opn := s.laneState lane == 7
  let x := transomOut 1 pos e.tag mode (u.rdBytes (slotAddr lane pos e.tag) (256 * (2 + mode)))
  let v := (u.setEntry lane i { e with sent := natSetBit e.sent pos true,
                                       acked := if opn then natSetBit e.acked pos true else e.acked }).emit lane (s.copies lane x)
  if opn then v
  else v.setLane lane { v.lane lane with txs := (v.lane lane).txs ++ [⟨pos, false, e.tag, 0, false, x⟩] }

/-- DATA_SEND: the line of an entry leaves for a tile, once its slot is ready (R143); a slot that cannot be read whole
leaves its line undelivered (R326). -/
def State.dataSend (s : State) (lane i pos : Nat) (parity : List (Fin 2048)) : State :=
  match (s.lane lane).queue[i]? with
  | none => s
  | some e =>
    if !s.maySend lane i pos e then s
    else
      match s.viewSlot lane pos e with
      | (.waiting, t) => t
      | (.unreadable, t) => t.setEntry lane i { e with dead := natSetBit e.dead pos true }
      | (.ready h, t) =>
        match t.engineRead (slotAddr lane pos e.tag) (256 * (2 + bitsOf h 24 24)) with
        | (none, u) => u.setEntry lane i { e with dead := natSetBit e.dead pos true }
        | (some _, u) => u.lineLeaves lane i pos e h parity

def execDataSend (lane : Fin 24) (entry : Fin 64) (pos : Fin 16) (parity : List (Fin 2048)) (s : State) :
    Host.Outcome State Fault Refusal := .next (s.dataSend lane.val entry.val pos.val parity)

/-! ### Commitment (R144, R145) -/

/-- The commit distance of a bar on an axis, 1/256 count (R144). -/
def State.commitDistance (s : State) (lane b n : Nat) : Nat :=
  let a := s.axis n
  let v := max (if a.valid && a.a.spdValid then a.a.speed.natAbs else 0) (s.get (F.BAR_VFLOOR_v b))
  max 2000 (s.get (F.LANE_COMMIT_lead_ns lane)) * v / 1000000

/-- The entry's stamp moved back by a distance against its direction. -/
def Entry.back (e : Entry) (d : Nat) : W32 := if e.rev then e.stamp + w32 d else e.stamp - w32 d

/-- Positions of an ahead entry whose sill is at or beyond a stamp, among those of a mask. -/
def State.reached (s : State) (lane : Nat) (e : Entry) (x : W32) (mask : Nat) : Nat :=
  let n := s.entryAxis e
  ((positions mask).filter (fun p => atOrBeyond e.rev (s.tileSill n (lane * 16 + p) e.rev) x)).foldl (fun m p => m + 2 ^ p) 0

/-- Mask of the positions of a mask that satisfy a test. -/
def maskWhere (mask : Nat) (p : Nat → Bool) : Nat := ((positions mask).filter p).foldl (fun m q => m + 2 ^ q) 0

/-- Counters, flags and event of the positions an entry commits late (R145). -/
def State.lateLines (s : State) (lane : Nat) (e : Entry) (m : Nat) : State :=
  if m = 0 then s else
    let k := countBits 16 m
    let n := s.entryAxis e
    let t := (((s.bumpBy (F.LANE_LATE_count lane) k).bumpBy (F.BAR_LATE_late e.bar) k).set (F.BAR_STAT_late e.bar) 1).schFlag lane 0
    t.lanePost lane 0x320 n (stampOf (t.axisPos n)) (entryDetail e m)

/-- Counters, flag and event of the positions an entry commits undelivered (R145). -/
def State.undeliveredLines (s : State) (lane : Nat) (e : Entry) (m : Nat) : State :=
  if m = 0 then s else
    let n := s.entryAxis e
    let t := (s.bumpBy (F.LANE_UNDELIV_count lane) (countBits 16 m)).schFlag lane 1
    t.lanePost lane 0x321 n (stampOf (t.axisPos n)) (entryDetail e m)

/-- The positions of a list whose slots are not ready as the link engine finds them, as a mask; a slot that cannot be read is
not late but undelivered (R39, R145, R326). -/
def State.lateSlots (s : State) (lane : Nat) (e : Entry) : List Nat → Nat × State
  | [] => (0, s)
  | p :: ps =>
    let (v, t) := s.viewSlot lane p e
    let (m, u) := t.lateSlots lane e ps
    (if v = .waiting then m + 2 ^ p else m, u)

/-- Commitment of the entry at an index: the outcome of every tile whose sill reaches its commit point is fixed (R144,
R145, R216). Transmission of a blank line stops. -/
def State.commitEntry (s : State) (lane i : Nat) : State :=
  match (s.lane lane).queue[i]? with
  | none => s
  | some e =>
    if !e.ahead then s
    else
      let new := s.reached lane e (e.back (s.commitDistance lane e.bar (s.entryAxis e)))
        (maskWhere e.mask (fun p => !natBit e.drops p && !natBit e.blank p && !natBit e.passed p))
      let (late, s1) := s.lateSlots lane e ((positions new).filter (fun p => !natBit e.sent p && !natBit e.dead p))
      let drops := maskWhere (new - late) (fun p => natBit e.acked p && s.laneRuns lane)
      let t := s1.setEntry lane i { e with drops := e.drops + drops, blank := e.blank + (new - drops) }
      let l := t.lane lane
      let u := t.setLane lane { l with txs := l.txs.filter (fun x => x.wave || x.tag != e.tag || !natBit (new - drops) x.pos) }
      (u.lateLines lane e late).undeliveredLines lane e (new - late - drops)

/-- COMMIT_POINT: every ahead entry of the lane is tested (R144). -/
def State.commitPoint (s : State) (lane : Nat) : State :=
  (List.range (s.lane lane).queue.length).foldl (fun t i => t.commitEntry lane i) s

def execCommitPoint (lane : Fin 24) (s : State) : Host.Outcome State Fault Refusal := .next (s.commitPoint lane.val)

/-! ### Strobes (R140, R141, R146 to R149, R152) -/

/-- The pixel time of a bar on an axis (R148): PITCH × T × 0.64, rounded, at most 0xFFFF; 0xFFFF without a period. -/
def State.pixelTime (s : State) (b n : Nat) : Nat :=
  let a := s.axis n
  if a.st == .moving && a.a.spdValid then
    let (num, den) := a.a.per
    min 0xFFFF (s.nearestFree (s.get (F.BAR_PITCH_pitch b) * num * 64 : Nat) (65536 * max 1 den * 100)).toNat
  else 0xFFFF

/-- The overshoot of a firing strobe at its pass in 1/256 count and the period T as a quotient, while a period is held
(R149). On a fused pair the tiles of one strobe may have different sills, and the spec does not say whose counts: the
position is a free value. -/
def State.overshoot (s : State) (lane : Nat) (e : Entry) (mask : Nat) : Option (Nat × Nat × Nat) :=
  let n := s.entryAxis e
  let a := s.axis n
  if a.st == .moving && a.a.spdValid then
    let ps := positions mask
    let sill := s.tileSill n (lane * 16 + ps.getD (s.freeN % max 1 ps.length) 0) e.rev
    some ((if e.rev then e.stamp - sill else sill - e.stamp).toInt.toNat, a.a.per.1, max 1 a.a.per.2)
  else none

/-- δ of R149, at most 31 units; a D4 FIRE cycle is 1024/33 units of 82.5 ps, and 256/45 of the 450 ps units of legacy mode
(R237). -/
def State.delta (s : State) (lane : Nat) (e : Entry) (mask : Nat) : Nat :=
  match s.overshoot lane e mask with
  | none => 0
  | some (past, num, den) => min 31 (if s.flag (F.LANE_CTL_legacy lane) then past * num / (45 * den) else 4 * past * num / (33 * den))

/-- Where the strobe instant of a firing set falls, in units of 1/64 block from the start of the block that holds the instant
16 cycles after the pass, which lies in unit `phase` (R149). The skew k_n counts 82.5 ps, 11/60 of a legacy unit (R237,
R452), so on a legacy lane it matters where in its unit the instant lies, which stays free. -/
def State.strobeUnit (s : State) (lane : Nat) (e : Entry) (mask phase : Nat) : Int :=
  let k := s.getInt (F.CAL_LANE_k lane)
  if s.flag (F.LANE_CTL_legacy lane) then
    ((phase : Int) * 60 + (s.drawn.freeN % 60 : Nat) + 11 * k) / 60 - s.delta lane e mask
  else (phase : Int) + k - s.delta lane e mask

/-- A shutter above the tile is closed (R147). -/
def State.tileShut (s : State) (lane bar pos : Nat) : Bool :=
  s.isClosed .global || s.isClosed (.bar bar) || s.isClosed (.tile (lane * 16 + pos))

/-- Strobes beyond the confirmed count become provisional (R152). -/
def State.provisional (s : State) (lane : Nat) (e : Entry) (fire : Nat) : State :=
  let n := s.entryAxis e
  let c := fun (p : Nat) => stampOf (countPos (s.axis n).a.count + BitVec.ofInt 40 (s.tileCorr n (lane * 16 + p)))
  let new := (positions fire).filter (fun p => !atOrBeyond e.rev (c p) e.stamp)
  s.setLane lane { s.lane lane with prov := (s.lane lane).prov ++ new.map (fun p => ⟨n, e.rev, e.stamp, lane * 16 + p⟩) }

/-- The number of blocks a firing strobe slips: at least as many as given, and to a block that carries none of those placed in
this cycle (R149). -/
def freeBlock (used : List Int) (b : Int) (slip : Nat) : Nat :=
  ((List.range (used.length + 1)).find? (fun i => !used.contains (b + (slip + i : Nat)))).getD used.length + slip

/-- The strobe of the firing set, in the block that holds its instant or, slipped, in a later one with fine delay 0 (R146,
R149); with it the block it takes. -/
def State.fireStrobe (s : State) (lane : Nat) (e : Entry) (fire phase slip : Nat) (used : List Int) : List Int × State :=
  if fire = 0 then (used, s) else
    let n := s.entryAxis e
    let u := s.strobeUnit lane e fire phase
    let slips := freeBlock used (u / 64) slip
    let s1 := s.drawn.drawn
    let x : StrobeSet := ⟨fire, e.tag, e.rev, false, if slips = 0 then (u % 64).toNat else 0, s1.pixelTime e.bar n⟩
    let t := ((s1.drawn.sendSet lane (.strobe x)).provisional lane e fire).bumpBy (F.LANE_STROBES_count lane) (countBits 16 fire)
    ((u / 64 + (slips : Int)) :: used,
      if slips = 0 then t
      else ((t.bump (F.LANE_SLIP_count lane)).schFlag lane 4).lanePost lane 0x324 n (stampOf (t.axisPos n))
        (min slips 15 * 2 ^ 24 + e.tag * 2 ^ 16 + fire))

/-- The strobe of the blank set (R147). -/
def State.blankSet (s : State) (lane : Nat) (e : Entry) (blank : Nat) : State :=
  if blank = 0 then s else
    (s.drawn.sendSet lane (.strobe ⟨blank, e.tag, e.rev, true, 0, s.pixelTime e.bar (s.entryAxis e)⟩)).bumpBy
      (F.LANE_BLANKS_count lane) (countBits 16 blank)

/-- Passes of the entry at an index in this cycle. Given are the slips of the firing strobes to come and the blocks taken by
those already placed; a firing strobe uses up one slip and takes a block. -/
def State.passEntry (s : State) (lane i phase : Nat) (slips : List (BitVec 4)) (used : List Int) :
    (List (BitVec 4) × List Int) × State :=
  match (s.lane lane).queue[i]? with
  | none => ((slips, used), s)
  | some e =>
    let mask := if e.ahead then s.reached lane e e.stamp (e.mask - (e.mask &&& e.passed)) else 0
    if mask = 0 then ((slips, used), s)
    else
      let fire := maskWhere mask (fun p => natBit e.drops p && !s.tileShut lane e.bar p)
      let blank := mask - fire
      let (used', t1) := s.fireStrobe lane e fire phase (slips.headD 0).toNat used
      let t := t1.blankSet lane e blank
      let u := (((t.tilesStrobed lane fire false).tilesStrobed lane blank true).setEntry lane i { e with passed := e.passed + mask })
      ((if fire = 0 then slips else slips.tail, used'), u.retryFull lane mask)

/-- Every entry in ARM order. -/
def passEntries (lane phase : Nat) : Nat → Nat → List (BitVec 4) → List Int → State → State
  | 0, _, _, _, s => s
  | k + 1, i, slips, used, s =>
    let r := s.passEntry lane i phase slips used
    passEntries lane phase k (i + 1) r.1.1 r.1.2 r.2

/-- Entries whose every tile has been strobed retire; their slots return to free (R141). -/
def State.retire (s : State) (lane : Nat) : State :=
  let l := s.lane lane
  let done := l.queue.filter (fun e => e.passed == e.mask)
  done.foldl (fun t e => t.freeSlots lane e) (s.setLane lane { l with queue := l.queue.filter (fun e => e.passed != e.mask) })

/-- STAMP_PASS: one D4 FIRE cycle of the lane's comparator (R140, R141). -/
def State.stampPass (s : State) (lane phase : Nat) (slips : List (BitVec 4)) : State :=
  let t := s.commitPoint lane
  (passEntries lane phase (t.lane lane).queue.length 0 slips [] t).retire lane

def execStampPass (lane : Fin 24) (phase : BitVec 6) (slips : List (BitVec 4)) (s : State) : Host.Outcome State Fault Refusal :=
  .next (s.stampPass lane.val phase.toNat slips)

/-! ### Scheduling registers (R151) -/

/-- Counters of the scheduling window that clear when LANEn_SCHED.en goes from 0 to 1. -/
def schedCounters (lane : Nat) : List Nat :=
  [R.LANE_STROBES lane, R.LANE_BLANKS lane, R.LANE_LATE lane, R.LANE_UNDELIV lane, R.LANE_MISSED lane, R.LANE_SLIP lane,
    R.LANE_UNCONF lane, R.LANE_UNCONF_FIRST lane, R.LANE_UNCONF_LAST lane]

/-- A write of LANEn_SCHED: en = 0 or flush cancels every entry, en from 0 to 1 clears the counters (R151). -/
def State.schedWrite (s : State) (lane : Nat) (v : W32) : State :=
  let on := bitsOf v 31 31 == 1
  let t := if !on || bitsOf v 1 1 == 1 then (s.removeEntries lane (fun _ => true)).2 else s
  let u := if on && !s.flag (F.LANE_SCHED_en lane) then (schedCounters lane).foldl (fun w a => w.wr a 0) t else t
  u.wr (R.LANE_SCHED lane) (v &&& 0x80000000)

def execSchedEnable (lane : Fin 24) (value : W32) (s : State) : Host.Outcome State Fault Refusal :=
  .next (if s.laneFused lane.val then s else s.schedWrite lane.val (putBits value 31 31 1))

def execSchedDisable (lane : Fin 24) (value : W32) (s : State) : Host.Outcome State Fault Refusal :=
  .next (if s.laneFused lane.val then s else s.schedWrite lane.val (putBits value 31 31 0))

def execSchedFlush (lane : Fin 24) (value : W32) (s : State) : Host.Outcome State Fault Refusal :=
  .next (if s.laneFused lane.val then s else s.schedWrite lane.val (putBits value 1 1 1))

/-! ### Bars and tiles (R154, R156) -/

/-- Every entry of a bar is cancelled in every lane (R156). -/
def State.cancelBar (s : State) (b : Nat) : State :=
  s.lanes.foldl (fun t l => (t.removeEntries l.1 (fun e => e.bar == b)).2) s

/-- A write of BARn_CFG (R156, R478). -/
def State.barCfgWrite (s : State) (b : Nat) (v0 : W32) : State :=
  let v := v0 &&& 0x87000000
  let was := s.flag (F.BAR_CFG_en b)
  let on := bitsOf v 31 31 == 1
  if was && bitsOf v 26 24 != s.get (F.BAR_CFG_axis b) then s.set (F.BAR_STAT_cfg_err b) 1
  else if !was && on && (s.get (F.BAR_PITCH_pitch b) == 0 || (s.barTiles b).isEmpty) then s.set (F.BAR_STAT_cfg_err b) 1
  else
    let t := s.wr (R.BAR_CFG b) v
    if !was && on then (((t.set (F.BAR_LATE_late b) 0).sendRowPhases b).barReady b).barCondRefresh b
    else if was && !on then ((t.cancelBar b).set (F.BAR_STAT_rdy b) 0).barCondRefresh b
    else t

def execBarEnable (b : Fin 8) (value : W32) (s : State) : Host.Outcome State Fault Refusal :=
  .next (s.barCfgWrite b.val (putBits value 31 31 1))

def execBarDisable (b : Fin 8) (value : W32) (s : State) : Host.Outcome State Fault Refusal :=
  .next (s.barCfgWrite b.val (putBits value 31 31 0))

/-- WV_BREEZE of a tile is due (R258). -/
def State.breezeDue (s : State) (k : Nat) : State :=
  let l := s.lane (k / 16)
  s.setLane (k / 16) { l with breezeDue := natSetBit l.breezeDue (k % 16) true }

/-- A write of FIRE_TILEk_CFG (R156, R258): refused if it takes the tile out of an enabled bar or puts it into one. -/
def State.tileCfgWrite (s : State) (k : Nat) (v0 : W32) : State :=
  let v := v0 &&& 0x87000000
  let old := s.rd (R.FIRE_TILE_CFG k)
  let ob := bitsOf old 26 24
  let nb := bitsOf v 26 24
  let leaves := bitsOf old 31 31 == 1 && s.flag (F.BAR_CFG_en ob)
  let joins := bitsOf v 31 31 == 1 && s.flag (F.BAR_CFG_en nb)
  if v != old && (leaves || joins) then s.set (F.BAR_STAT_cfg_err (if leaves then ob else nb)) 1
  else (s.wr (R.FIRE_TILE_CFG k) v).breezeDue k

/-- A write of a row-offset register: a change for a tile of an enabled bar is refused (R156). -/
def State.tileRowWrite (s : State) (k a : Nat) (v : W32) : State :=
  let b := s.get (F.FIRE_TILE_CFG_bar k)
  if s.flag (F.FIRE_TILE_CFG_en k) && s.flag (F.BAR_CFG_en b) && v != s.rd a then s.set (F.BAR_STAT_cfg_err b) 1 else s.wr a v

def State.tileRegWrite (s : State) (k : Nat) (r : TileReg) (v : W32) : State :=
  match r with
  | .cfg => s.tileCfgWrite k v
  | .row01 => s.tileRowWrite k (R.FIRE_TILE_ROW01 k) v
  | .row23 => s.tileRowWrite k (R.FIRE_TILE_ROW23 k) v

def execTileCfgWrite (k : Fin 384) (reg : TileReg) (value : W32) (s : State) : Host.Outcome State Fault Refusal :=
  .next (if s.tileExists k.val then s.tileRegWrite k.val reg value else s)

/-- TEQ_WRITE: teq_ns changes only while every lane is DOWN (R154). -/
def State.teqWrite (s : State) (v : W32) : State :=
  if bitsOf v 12 0 != s.get F.FIRE_EQ_teq_ns && (List.range 24).any (fun n => s.laneState n != 0) then s.set F.FIRE_EQ_err 1
  else s.wr R.FIRE_EQ (putBits (s.rd R.FIRE_EQ &&& (if bitsOf v 31 31 == 1 then 0x7FFFFFFF else 0xFFFFFFFF)) 12 0 (bitsOf v 12 0))

def execTeqWrite (value : W32) (s : State) : Host.Outcome State Fault Refusal := .next (s.teqWrite value)

end Sys2Proof.Machine
end

