-- ==== Sys2Proof/Machine/Link.lean ====
section
/-! DEFINITION. The Vilhel link: lane states and training, grants, replies and retransmission, strobe returns, STAT,
temperature limits and open-ring mode (R206 to R227, R230, R234 to R240, R270). -/

namespace Sys2Proof.Machine

/-- D4 FIRE cycles in a millisecond (R33, R34: 2.56 ns each). -/
def cyclesPerMs : Nat := 390625

/-! ### Lane states (R216) -/

/-- Requests and sideband transactions that belong to training are dropped. -/
def Lane.dropTraining (l : Lane) : Lane :=
  { l with configPos := none,
           mgmt := l.mgmt.filter (fun r => match r.why with
             | .identity => false | .record _ => false | .config _ => false | .run => false | _ => true),
           sbq := l.sbq.filter (fun w => w == .firmware) }

/-- The expected echo windows of tiles that are no longer classified are forgotten: the first ECHO after a tile becomes
classified again sets them (R191, R236). -/
def State.forgetWindows (s : State) (p : Nat → Bool) : State :=
  { s with tiles := s.tiles.map (fun e => if p e.1 then (e.1, { e.2 with echoSeq := [] }) else e) }

/-- Row-phase writes end with the state in which their lane takes them: a bar waits only for tiles on lanes in UP or OPEN
(R156). -/
def State.dropRowPhases (s : State) (lane : Nat) : State :=
  let l := s.lane lane
  let row := fun (r : MgReq) => match r.why with
    | .rowPhase _ => true
    | _ => false
  let bars := (l.mgmt.filter row).map (fun r => match r.why with
    | .rowPhase b => b
    | _ => 0)
  bars.foldl State.barReady (s.setLane lane { l with mgmt := l.mgmt.filter (fun r => !row r) })

/-- What a lane sends on entering a state of training (R216). -/
def trainingMarks (st : Nat) : List LinkOut :=
  if st = 1 then marksDown else if st = 2 then [.set (markBlock 0 0)] else if st = 3 then marksDelay else []

/-- The lane changes state; every change sets LSTAT bit 0 and posts LANE_STATE (R216, R238). Leaving OPEN clears open
(R236); leaving CONFIG ends its transactions, leaving UP or OPEN its row-phase writes (R156). -/
def State.laneEnter (s : State) (lane new err : Nat) : State :=
  let old := s.laneState lane
  if old = new then s
  else
    let t := s.set (F.LANE_STATE_state lane) new
    let u := if err = 0 then t else t.set (F.LANE_STATE_err lane) err
    let v := if old = 7 then u.set (F.LANE_CTL_open lane) 0 else u
    let w0 := if old = 4 then v.setLane lane (v.lane lane).dropTraining else v
    let w1 := if new = 7 then w0.forgetWindows (fun k => k / 16 == lane) else w0
    let w := if (old == 5 || old == 7) && new != 5 && new != 7 then w1.dropRowPhases lane else w1
    (w.emit lane (trainingMarks new)).laneFlag lane 0 (err * 2 ^ 24 + new * 2 ^ 8 + old)

/-- RING_BREAK with the tiles whose shutters were closed (R235, R236, R238). -/
def State.ringBreak (s : State) (lane err : Nat) : State :=
  let t := (s.laneFault lane (s.present lane) .lockLoss true).laneEnter lane 6 err
  let u := t.setLane lane { t.lane lane with auto := false }
  u.laneFlag lane 2 (s.present lane)

/-- Training starts (R216). -/
def State.laneTrain (s : State) (lane : Nat) (auto : Bool) : State :=
  let t := s.setLane lane { (s.lane lane).dropTraining with enumTries := 0, auto := auto }
  t.laneEnter lane 1 0

/-- Training fails with an error; a failed automatic retrain ends in BROKEN with RING_BREAK (R216, R235). -/
def State.trainFail (s : State) (lane err : Nat) : State :=
  if (s.lane lane).auto then s.ringBreak lane err
  else s.laneEnter lane 0 err

/-- Counters of the link window that clear when en goes from 0 to 1 (R239). -/
def linkCounters (lane : Nat) : List Nat :=
  [R.LANE_BLKERR lane, R.LANE_RETX lane, R.LANE_SCERR lane, R.LANE_UPERR lane, R.LANE_NOFILL lane, R.LANE_STATTO lane]

/-! ### Open-ring mode (R236) -/

/-- Poll period as written; 0 acts as 1. Stretching (R233) changes no period above 3 ms. -/
def State.pollPeriod (s : State) (lane : Nat) : Nat := max 1 (s.get (F.LANE_SBCFG_per_ms lane))

/-- A tile may fire in OPEN (R236). -/
def State.mayFireOpen (s : State) (lane pos : Nat) : Bool :=
  s.bit (F.LANE_OPEN_mask lane) pos && !s.bit (F.LANE_SBSTALE_stale lane) pos &&
    natBit (s.tile (lane * 16 + pos)).sbStatus 0 && decide (s.pollPeriod lane ≤ 10)

/-- In OPEN every tile that may not fire is held closed with cause link fault (R236). -/
def State.openRefresh (s : State) (lane : Nat) : State :=
  if s.laneState lane = 7 then
    (positions (s.present lane)).foldl (fun t p => t.linkFault (lane * 16 + p) .openRing (!t.mayFireOpen lane p)) s
  else s

/-- The lane enters OPEN from BROKEN (R236): the break no longer holds the tiles that may fire. -/
def State.laneOpen (s : State) (lane : Nat) : State :=
  let t := (s.set (F.LANE_CTL_open lane) 1).laneEnter lane 7 0
  (t.openRefresh lane).laneFault lane 0xFFFF .lockLoss false

/-! ### Writes of LANEn_CTL (R216, R236, R237) -/

/-- en = 0, by a write or by the supervisor: the lane sends MARK DOWN 16 times, unless its TX PLL is not locked, and enters
DOWN (R35, R216). -/
def State.laneDown (s : State) (lane : Nat) : State :=
  let t := s.set (F.LANE_CTL_en lane) 0
  let marks := if s.laneState lane != 0 && s.bit F.SYS_CLK_STAT_lock (10 + lane / 4) then marksDown else []
  ((t.setLane lane { t.lane lane with auto := false }).emit lane marks).laneEnter lane 0 0

/-- A write of LANEn_CTL. -/
def State.laneCtlWrite (s : State) (lane : Nat) (v : W32) : State :=
  let st := s.laneState lane
  let on := bitsOf v 31 31 == 1
  let opn := bitsOf v 28 28 == 1
  if bitsOf v 30 30 != s.get (F.LANE_CTL_legacy lane) && st != 0 then s.laneCfgErr lane
  else if opn && !(st == 6 && s.flag (F.LANE_SBCFG_poll lane)) then s.laneCfgErr lane
  else
    let t := s.wr (R.LANE_CTL lane) (putBits (v &&& 0xEFFF0000) 28 28 (s.get (F.LANE_CTL_open lane)))
    let u := if on && !s.flag (F.LANE_CTL_en lane) then (linkCounters lane).foldl (fun w a => w.wr a 0) t else t
    if !on then u.laneDown lane
    else if st == 0 then u.laneTrain lane false
    else if bitsOf v 0 0 == 1 && 5 ≤ st then u.laneTrain lane false
    else if opn then u.laneOpen lane
    else u

def execLaneEnable (lane : Fin 24) (value : W32) (s : State) : Host.Outcome State Fault Refusal :=
  .next (if s.laneFused lane.val then s else s.laneCtlWrite lane.val (putBits value 31 31 1))

def execLaneDisable (lane : Fin 24) (value : W32) (s : State) : Host.Outcome State Fault Refusal :=
  .next (if s.laneFused lane.val then s else s.laneCtlWrite lane.val (putBits value 31 31 0))

def execLaneRetrain (lane : Fin 24) (value : W32) (s : State) : Host.Outcome State Fault Refusal :=
  .next (if s.laneFused lane.val then s else s.laneCtlWrite lane.val (putBits value 0 0 1))

def execLaneOpen (lane : Fin 24) (value : W32) (s : State) : Host.Outcome State Fault Refusal :=
  .next (if s.laneFused lane.val then s else s.laneCtlWrite lane.val (putBits value 28 28 1))

def execLegacyWrite (lane : Fin 24) (value : W32) (s : State) : Host.Outcome State Fault Refusal :=
  .next (if s.laneFused lane.val then s else s.laneCtlWrite lane.val value)

/-! ### Training up to DELAY (R216, R217, R218) -/

def execBlockLock (lane : Fin 24) (s : State) : Host.Outcome State Fault Refusal :=
  .next (if s.laneState lane.val = 1 then s.laneEnter lane.val 2 0 else s)

def execLockTimeout (lane : Fin 24) (s : State) : Host.Outcome State Fault Refusal :=
  .next (if s.laneState lane.val = 1 then s.trainFail lane.val 1 else s)

/-- ENUM_RETURN: the mask and the order error of a MARK ENUM that passed its CRC-8 (R216, R217, R237). -/
def State.enumReturn (s : State) (lane mask : Nat) (order : Bool) : State :=
  if s.laneState lane != 2 then s
  else
    let expect := s.get (F.LANE_RINGCFG_expect lane)
    if order then s.trainFail lane 3
    else if (expect != 0 && mask != expect) || (s.flag (F.LANE_CTL_legacy lane) && decide (16 ≤ mask)) then s.trainFail lane 4
    else (s.set (F.LANE_PRES_link lane) mask).laneEnter lane 3 0

def execEnumReturn (lane : Fin 24) (mask : W16) (orderErr : Bool) (s : State) : Host.Outcome State Fault Refusal :=
  .next (s.enumReturn lane.val mask.toNat orderErr)

/-- ENUM_TIMEOUT: 20 µs without a valid return; MARK ENUM is sent again, and the third ends training with error 2 (R216). -/
def State.enumTimeout (s : State) (lane : Nat) : State :=
  if s.laneState lane != 2 then s
  else
    let l := s.lane lane
    if 3 ≤ l.enumTries + 1 then s.trainFail lane 2
    else (s.setLane lane { l with enumTries := l.enumTries + 1 }).emit lane (trainingMarks 2)

def execEnumTimeout (lane : Fin 24) (s : State) : Host.Outcome State Fault Refusal := .next (s.enumTimeout lane.val)

/-- CONFIG begins: TID and HOP of every position of the link mask are read and every sideband address is probed (R217,
R219). -/
def State.configStart (s : State) (lane : Nat) : State :=
  let t := ((s.set (F.LANE_EXCL_excl lane) 0).set (F.LANE_PRES_sb lane) 0).laneEnter lane 4 0
  let u := (List.range 16).foldl (fun w p =>
    w.setTile (lane * 16 + p) { w.tile (lane * 16 + p) with hop := none, record := [], sbStatus := 0, sbOk := false }) t
  let v := u.sbPush lane ((List.range 16).map SbWhy.probe)
  (positions (s.present lane)).foldl (fun w p => w.mgSend lane p 0 0 2 [] .identity) v

/-- The mean of loop measurements of 82.5 ps in ps, rounded; of a half ps the spec names neither neighbour (R218). -/
def State.meanLoop (s : State) (units : List Nat) : Nat := (s.nearestFree ((units.sum * 825 : Nat) : Int) (10 * units.length)).toNat

/-- The largest measurement minus the smallest (R218). -/
def spreadOf (units : List Nat) : Nat := units.foldl max 0 - units.foldl min (units.headD 0)

/-- DELAY_DONE: LANEn_RINGL receives L and the spread; a spread above 2 ns is error 5 (R216, R218). What the 8-bit field
holds of a spread that does not fit it is not stated. -/
def State.delayDone (s : State) (lane : Nat) (units : List Nat) : State :=
  if s.laneState lane != 3 then s
  else
    let spread := spreadOf units
    let field := if spread < 256 then spread else s.drawn.freeN % 256
    let t := s.drawn.drawn.wr (R.LANE_RINGL lane) (w32 (field * 2 ^ 24 + s.meanLoop units % 2 ^ 24))
    if 2000000 < spread * 82500 then t.trainFail lane 5 else t.configStart lane

def execDelayDone (lane : Fin 24) (first : BitVec 17) (rest : List (BitVec 17)) (s : State) : Host.Outcome State Fault Refusal :=
  .next (s.delayDone lane.val ((first :: rest).map (fun u => u.toNat)))

/-! ### Temperatures (R226, R230, R233, R270, R271) -/

/-- Linear interpolation in a table of rising codes, clamped at its ends; the rounding is not stated (R230). -/
def State.interpolate (s : State) : List (Nat × Int) → Nat → Int
  | [], _ => 0
  | [(_, t)], _ => t
  | (c0, t0) :: (c1, t1) :: r, c =>
    if c ≤ c0 then t0
    else if c ≤ c1 then t0 + s.roundedFree ((t1 - t0) * ((c : Int) - c0)) ((c1 : Int) - c0)
    else s.interpolate ((c1, t1) :: r) c

/-- The temperature of a raw code through the tile's head-memory table, as a TEMP field; 0x8000 without a table. -/
def State.thermistor (s : State) (k code : Nat) : Nat :=
  if (s.tile k).therm.isEmpty then 0x8000 else unsignedOf 16 (s.interpolate (s.tile k).therm code)

/-- A temperature field's value; 0x8000 is none. -/
def tempValue (v : Nat) : Option Int := if v = 0x8000 then none else some (signedOf 16 v)

/-- The effective temperature of a tile (R270). -/
def State.effTemp (s : State) (lane pos : Nat) : Option Int :=
  let link := tempValue (s.get (F.LANE_TEMP_link lane pos))
  let sb := tempValue (s.get (F.LANE_TEMP_sb lane pos))
  let mism := s.bit (F.LANE_EXCL_mism lane) pos
  match link, sb with
  | some a, some b => some (if mism then max a b else a)
  | some a, none => some a
  | none, some b => if s.bit (F.LANE_SBSTALE_stale lane) pos then none else some b
  | none, none => none

/-- A temperature in whole °C, 12 bits, signed (R238, R275); one the device does not hold has no stated value. -/
def State.wholeDegrees (s : State) (t : Option Int) : Nat :=
  match t with
  | some x => unsignedOf 12 (x / 16)
  | none => s.freeN % 4096

/-- The temperature condition of a tile and its soft-limit report after a STAT or a poll (R270, R271): a newly latched
temperature bit has the tile's TCUT read. -/
def State.tempCheck (s : State) (lane pos : Nat) : State :=
  let k := lane * 16 + pos
  let t := s.effTemp lane pos
  let flags := (s.tile k).flags
  let hard := s.getInt (F.LANE_TLIM_hard lane pos)
  let soft := s.getInt (F.LANE_TLIM_soft lane pos)
  let hyst : Int := s.get (F.LANE_THYS_hyst lane pos)
  let was := s.bit (F.LANE_THOT_hot lane) pos
  let wasWarm := s.bit (F.LANE_THOT_warm lane) pos
  let hot := natBit flags 3 || (match t with
    | some x => decide (hard ≤ x) || (was && !decide (x < hard - hyst))
    | none => was)
  let warm := natBit flags 2 || (match t with
    | some x => decide (soft ≤ x) || (wasWarm && !decide (x < soft - hyst))
    | none => wasWarm)
  let latched := natBit (s.latchOf (.tile k)) causeHeadTemp
  let s1 := (s.setBit (F.LANE_THOT_hot lane) pos hot).setCond (.tile k) causeHeadTemp hot
  let s2 := if hot && !latched then s1.mgSend lane pos 0 0x26 1 [] .cutTag else s1
  let s3 := s2.setBit (F.LANE_THOT_warm lane) pos warm
  if warm && !wasWarm then s3.drawn.laneEvent lane 0x3C3 (pos * 2 ^ 28 + s3.wholeDegrees t) else s3

/-- TILE_HOT (R271, R275). -/
def State.tileHot (s : State) (lane pos : Nat) (part : Bool) (tag : Nat) : State :=
  s.drawn.laneEvent lane 0x3C4 (pos * 2 ^ 28 + (if part then 2 ^ 27 else 0) + tag * 2 ^ 16 + s.wholeDegrees (s.effTemp lane pos))

/-! ### Link and sideband views (R234) -/

/-- An item of R234 mismatches or agrees; a mismatch newly in force closes the tile and posts STATE_MISMATCH. -/
def State.mismatch (s : State) (lane pos item : Nat) (b : Bool) (link sb : Nat) : State :=
  let k := lane * 16 + pos
  let t := s.tile k
  let m := natSetBit t.mism item b
  if m = t.mism then s
  else
    let u := ((s.setTile k { t with mism := m }).setBit (F.LANE_EXCL_mism lane) pos (m != 0)).setCond (.tile k) causeMismatch (m != 0)
    if b then u.laneFlag lane 5 (pos * 2 ^ 28 + item * 2 ^ 24 + link % 4096 * 2 ^ 12 + sb % 4096) else u

/-- The comparison of a tile's two views, after training and at each poll (R234): only polls count towards the two in a row
of the run item. -/
def State.compareViews (s : State) (lane : Nat) (polled : Bool) (pos : Nat) : State :=
  let k := lane * 16 + pos
  let t := s.tile k
  let link := natBit (s.present lane) pos && !t.silent
  let sb := s.bit (F.LANE_PRES_sb lane) pos && t.sbOk
  let byp := sb && natBit t.sbStatus 1
  let differ := link && sb && natBit t.flags 0 != natBit t.sbStatus 2
  let runDiff := if !differ then 0 else if polled then t.runDiff + 1 else t.runDiff
  let s1 := s.setTile k { t with runDiff := runDiff }
  let s2 := s1.mismatch lane pos 0 (link != sb && !byp) (if link then 1 else 0) (if sb then 1 else 0)
  let s3 := s2.mismatch lane pos 1 (byp && link) (if link then 1 else 0) (if byp then 1 else 0)
  let s4 := s3.mismatch lane pos 2 (decide (2 ≤ runDiff)) (if natBit t.flags 0 then 1 else 0) (if natBit t.sbStatus 2 then 1 else 0)
  match tempValue (s4.get (F.LANE_TEMP_link lane pos)), tempValue (s4.get (F.LANE_TEMP_sb lane pos)) with
  | some a, some c =>
    if s4.bit (F.LANE_SBSTALE_stale lane) pos then s4
    else s4.mismatch lane pos 3 (decide (2 * s4.get (F.LANE_SBCFG_tdiff lane) < (a - c).natAbs)) (unsignedOf 12 (a / 16))
      (unsignedOf 12 (c / 16))
  | _, _ => s4

/-- Every position of the lane is compared. -/
def State.compareLane (s : State) (lane : Nat) (polled : Bool) : State :=
  (List.range 16).foldl (fun t p => t.compareViews lane polled p) s

/-! ### CONFIG (R218, R219, R230) -/

/-- Training completes: link-fault causes clear but for excluded tiles, and the lane enters UP (R219, R234, R235, R258). -/
def State.configDone (s : State) (lane : Nat) : State :=
  let t := (List.range 16).foldl (fun u p =>
    let k := lane * 16 + p
    ((((u.linkFault k .excluded (u.excluded lane p)).linkFault k .pll false).linkFault k .strobeCheck false).linkFault k
      .lockLoss false).linkFault k .openRing false) s
  let l := t.lane lane
  let u := t.setLane lane { l with auto := false, configPos := none, checkFail := none, breezeDue := t.present lane }
  (u.laneEnter lane 5 0).compareLane lane false

/-- The second pass goes on with the lowest position from `p` that is in the link mask and not excluded (R219). -/
def State.configNext (s : State) (lane p : Nat) : State :=
  match (positions (s.present lane)).find? (fun q => decide (p ≤ q) && !s.excluded lane q) with
  | none => s.configDone lane
  | some q => (s.setLane lane { s.lane lane with configPos := some q }).mgSend lane q 2 0 64 [] (.record 0)

/-- T_eq in ps: values below 200 ns act as 200 (R154). -/
def State.teqPs (s : State) : Nat := max 200 (s.get F.FIRE_EQ_teq_ns) * 1000

/-- D_p of every position and the delay after the last, in ps; none where a hop is not known (R218). -/
def State.ringDelays (s : State) (lane : Nat) : Nat → Nat → List Nat → Option (List Nat × Nat)
  | _, d, [] => some ([], d)
  | mask, d, p :: ps =>
    let k := lane * 16 + p
    let here := natBit mask p
    if here || natBit (s.tile k).sbStatus 1 then
      match (s.tile k).hop with
      | some h => (s.ringDelays lane mask (d + 2 * h) ps).map (fun r => (d :: r.1, r.2))
      | none => none
    else (s.ringDelays lane mask d ps).map (fun r => (d :: r.1, r.2))

/-- The first pass ends: D_p and c_ret are computed and checked, and the second pass begins (R218, R219). -/
def State.firstPassDone (s : State) (lane : Nat) : State :=
  match s.ringDelays lane (s.present lane) (s.get (F.LANE_RINGCFG_c0 lane)) (List.range 16) with
  | none => s.trainFail lane 6
  | some (ds, d) =>
    let loop := s.get (F.LANE_RINGL_loop lane)
    if loop < d || 200000 < loop - d then s.trainFail lane 6
    else
      let t := (positions (s.present lane)).foldl (fun u p => u.wr (R.LANE_DLY lane p) (w32 (ds.getD p 0))) s
      if (positions (s.present lane)).any (fun p => decide (s.teqPs < ds.getD p 0 + 50000)) then t.trainFail lane 7
      else t.configNext lane 0

/-- The first pass of CONFIG still waits for an answer. -/
def Lane.firstPass (l : Lane) : Bool := l.mgmt.any (fun r => r.why == .identity) || l.sbq.any (fun w => w != .firmware)

/-- After any answer of the first pass: go on when none is left. -/
def State.configStep (s : State) (lane : Nat) : State :=
  if s.laneState lane = 4 && (s.lane lane).configPos.isNone && !(s.lane lane).firstPass then s.firstPassDone lane else s

/-- HM_INVALID (R219, R238). -/
def State.hmInvalid (s : State) (lane pos code : Nat) : State := s.laneFlag lane 7 (pos * 2 ^ 28 + code)

/-- The first pass has TID and HOP of a position: one whose strap differs is excluded (R219). -/
def State.identityDone (s : State) (lane pos : Nat) (data : List W32) : State :=
  let tid := data.getD 0 0
  let t := s.setTile (lane * 16 + pos) { s.tile (lane * 16 + pos) with tid := tid, hop := some (bitsOf (data.getD 1 0) 15 0) }
  let u := if bitsOf tid 3 0 != pos then (t.exclude lane pos).hmInvalid lane pos 5 else t
  u.configStep lane

/-- The first pass does not have TID or HOP of a position: it is excluded and its hop is read over the sideband (R218,
R219). -/
def State.identityFails (s : State) (lane pos : Nat) : State :=
  (s.exclude lane pos).sbPush lane [.hop pos]

/-- A position fails in the second pass: it is excluded and not written further (R219). -/
def State.configFails (s : State) (lane pos : Nat) : State := (s.exclude lane pos).configNext lane (pos + 1)

/-- The thermistor table of a head-memory record (R230). -/
def recordTherm (r : List W8) : List (Nat × Int) :=
  (List.range 8).map (fun i => (fieldLE r (0x28 + 4 * i) 2, signedOf 16 (fieldLE r (0x2A + 4 * i) 2)))

/-- Codes increase strictly. -/
def risingCodes : List (Nat × Int) → Bool
  | a :: b :: t => decide (a.1 < b.1) && risingCodes (b :: t)
  | _ => true

/-- The code for which a record is invalid (R230, R238). -/
def recordError (r : List W8) : Option Nat :=
  if fieldLE r 0 4 != 0x4D485A47 then some 1
  else if fieldLE r 4 1 != 1 then some 2
  else if crc32c (r.take 0xFC) != fieldLE r 0xFC 4 then some 3
  else if !risingCodes (recordTherm r) then some 4
  else none

/-- Limits of a record: a field holding its default code gives 50 °C, 60 °C or 3 °C (R219 step 6, R230). -/
def recordLimits (r : List W8) : Nat × Nat × Nat :=
  let soft := fieldLE r 0x48 2
  let hard := fieldLE r 0x4A 2
  let hyst := fieldLE r 0x4C 2
  (if soft = 0x8000 then 800 else soft, if hard = 0x8000 then 960 else hard, if hyst = 0 then 48 else hyst)

/-- Steps 7 and 8 of the second pass: the serial number is recorded and the tile starts (R219). -/
def State.configRun (s : State) (lane pos : Nat) : State :=
  let r := (s.tile (lane * 16 + pos)).record
  let lo := w32 (fieldLE r 0x0C 4)
  let hi := w32 (fieldLE r 0x10 4)
  let oldLo := s.rd (R.LANE_TSN lane (2 * pos))
  let oldHi := s.rd (R.LANE_TSN lane (2 * pos + 1))
  let t := (s.wr (R.LANE_TSN lane (2 * pos)) lo).wr (R.LANE_TSN lane (2 * pos + 1)) hi
  let u := if (oldLo != 0 || oldHi != 0) && (oldLo != lo || oldHi != hi) then
      t.laneFlag lane 6 (pos * 2 ^ 28 + lo.toNat % 2 ^ 28) else t
  u.mgWrite lane pos 2 [1] .run

/-- Step 6: the limits of the record replace those in the copy and in the tile (R219, R270). -/
def State.configLimits (s : State) (lane pos : Nat) : State :=
  let (soft, hard, hyst) := recordLimits (s.tile (lane * 16 + pos)).record
  let tlim := w32 (hard * 2 ^ 16 + soft)
  ((s.wr (R.LANE_TLIM lane pos) tlim).wr (R.LANE_THYS lane pos) (w32 hyst)).mgWrite lane pos 0x24 [tlim, w32 hyst] (.config 6)

/-- Step 5: the row phases of a tile of an enabled bar (R219). -/
def State.configRows (s : State) (lane pos : Nat) : State :=
  let k := lane * 16 + pos
  if s.flag (F.FIRE_TILE_CFG_en k) && s.flag (F.BAR_CFG_en (s.get (F.FIRE_TILE_CFG_bar k))) then
    s.mgWrite lane pos 8 [s.rowPhases k false, s.rowPhases k true] (.config 5)
  else s.configLimits lane pos

/-- Step 4: ECHO_CTL of a tile while the classifier is enabled (R219). -/
def State.configEcho (s : State) (lane pos : Nat) : State :=
  let k := lane * 16 + pos
  if s.flag F.HEALTH_ECFG_en then
    (s.setTile k { s.tile k with fireCount := 0 }).mgWrite lane pos 4 [w32 (s.get F.HEALTH_ECFG_kcode)] (.config 4)
  else s.configRows lane pos

/-- Step 3 for a position with a valid record, whose rank and thermistor table the device keeps: FIRE_DLY (R219, R230). -/
def State.configTile (s : State) (lane pos : Nat) (r : List W8) : State :=
  let k := lane * 16 + pos
  (s.setTile k { s.tile k with rank := fieldLE r 0x14 1 / 16, therm := recordTherm r }).mgWrite lane pos 3
    [w32 (s.teqPs - (s.rd (R.LANE_DLY lane pos)).toNat)] (.config 3)

/-- A step of the second pass has been acknowledged: the next one follows (R219). -/
def State.configStepDone (s : State) (lane pos step : Nat) : State :=
  if step = 3 then s.configEcho lane pos
  else if step = 4 then s.configRows lane pos
  else if step = 5 then s.configLimits lane pos
  else s.configRun lane pos

/-- 64 bytes of a position's record have arrived (R219 step 2). -/
def State.recordDone (s : State) (lane pos k : Nat) (data : List W32) : State :=
  let t := s.tile (lane * 16 + pos)
  let r := t.record ++ (data.flatMap (fun w => leBytes 4 w.toNat)).take 64
  let u := s.setTile (lane * 16 + pos) { t with record := r }
  if k < 3 then u.mgSend lane pos 2 (64 * (k + 1)) 64 [] (.record (k + 1))
  else match recordError r with
    | some c => (u.hmInvalid lane pos c).configFails lane pos
    | none => u.configTile lane pos r

/-! ### Loss of lock (R235) -/

/-- Automatic retrains started in the last second (R235, R239). -/
def State.recentRetrains (s : State) (lane : Nat) : Nat :=
  ((s.lane lane).retrains.filter (fun t => decide (s.uptime < t + 1000 * cyclesPerMs))).length

/-- The invalid sync headers that cost block lock are block errors: at least 16, or 4 invalid blocks of a legacy lane; how
many more were met is not known (R208, R237). -/
def State.lockErrors (s : State) (lane : Nat) : State :=
  s.drawn.bumpBy (F.LANE_BLKERR_count lane) ((if s.flag (F.LANE_CTL_legacy lane) then 4 else 16) + s.freeN)

/-- BLOCK_LOCK_LOSS (R235). -/
def State.blockLockLoss (s : State) (lane : Nat) : State :=
  if s.laneState lane != 5 then s
  else
    let t := ((s.lockErrors lane).laneFlag lane 1 0).laneFault lane (s.present lane) .lockLoss true
    if s.flag (F.LANE_CTL_auto lane) && decide (s.recentRetrains lane < 3) then
      (t.setLane lane { t.lane lane with retrains := s.uptime :: (t.lane lane).retrains.take 2 }).laneTrain lane true
    else t.ringBreak lane (if s.flag (F.LANE_CTL_auto lane) then 8 else 0)

def execBlockLockLoss (lane : Fin 24) (s : State) : Host.Outcome State Fault Refusal := .next (s.blockLockLoss lane.val)

/-! ### Grants (R214, R215) -/

/-- The length of a grant in blocks, GRANT included (R210, R214, R215): the HEAD block takes the GRANT's place, and a
response has what the newest request to the tile requires. -/
def State.grantLength (s : State) (lane kind pos : Nat) : Nat :=
  if kind = 0 then 1 else if kind = 1 then 9 else if kind = 2 then 33
  else match ((s.lane lane).mgmt.filter (fun r => r.pos == pos)).getLast? with
    | some r => 1 + r.responseBlocks
    | none => 1

/-- A grant leaves for a position: kind 0 REPLY, 1 STAT, 2 ECHO, 3 MGMT response (R210). In OPEN none does (R236). -/
def State.sendGrant (s : State) (lane kind pos : Nat) : State :=
  let st := s.laneState lane
  if st == 5 || (st == 4 && kind == 3) then
    let l := s.lane lane
    let g : Grant := ⟨kind, pos, s.grantLength lane kind pos⟩
    s.setLane lane { l with grants := l.grants ++ [g], out := l.out ++ [.set (grantBlock g)] }
  else s

/-- The first grant of a kind and position has come back. -/
def State.grantBack (s : State) (lane kind pos : Nat) : State :=
  s.setLane lane { s.lane lane with grants := (s.lane lane).grants.eraseP (fun g => g.kind == kind && g.pos == pos) }

/-- Grants of a kind and position on the ring. -/
def State.grantsOut (s : State) (lane kind pos : Nat) : Nat :=
  ((s.lane lane).grants.filter (fun g => g.kind == kind && g.pos == pos)).length

/-- The tile runs: it is in the link mask and not excluded (R219). -/
def State.runs (s : State) (lane pos : Nat) : Bool := natBit (s.present lane) pos && !s.excluded lane pos

/-- REPLY_GRANT: after a DATA or WAVE transom to the tile (R215). -/
def execReplyGrant (lane : Fin 24) (pos : Fin 16) (s : State) : Host.Outcome State Fault Refusal :=
  .next (if s.grantsOut lane.val 0 pos.val < ((s.lane lane.val).txs.filter (fun x => x.pos == pos.val && !x.full)).length then
    s.sendGrant lane.val 0 pos.val else s)

/-- STAT_GRANT: once per stat_per to a running tile; the lines in flight are noted for R226 step 3 (R215). -/
def execStatGrant (lane : Fin 24) (pos : Fin 16) (s : State) : Host.Outcome State Fault Refusal :=
  .next (if s.laneState lane.val = 5 && s.runs lane.val pos.val then
    let l := s.lane lane.val
    let tags := (l.queue.filter (fun e => natBit e.sent pos.val && !natBit e.passed pos.val)).map (fun e => e.tag)
    (s.setLane lane.val { l with grantLines := tabPut l.grantLines pos.val tags }).sendGrant lane.val 1 pos.val
  else s)

/-- ECHO_GRANT: for an echo window that a strobe has ended on a classified tile (R215). -/
def execEchoGrant (lane : Fin 24) (pos : Fin 16) (s : State) : Host.Outcome State Fault Refusal :=
  let k := lane.val * 16 + pos.val
  .next (if s.laneState lane.val = 5 && s.classified k && (s.tile k).echoDue != 0 then
    (s.setTile k { s.tile k with echoDue := (s.tile k).echoDue - 1 }).sendGrant lane.val 2 pos.val
  else s)

/-- MGMT_GRANT: 2.0 µs after an MGMT request (R215). -/
def execMgmtGrant (lane : Fin 24) (pos : Fin 16) (s : State) : Host.Outcome State Fault Refusal :=
  .next (if (s.lane lane.val).mgmt.any (fun r => r.pos == pos.val) then s.sendGrant lane.val 3 pos.val else s)

/-! ### Replies and retransmission (R220, R245) -/

/-- A transom leaves the list of those unanswered. -/
def State.dropTx (s : State) (lane : Nat) (x : Tx) : State := s.setLane lane { s.lane lane with txs := (s.lane lane).txs.erase x }

/-- The transom is sent again at once, as it was sent before, or given up after retry_max (R220, R249). -/
def State.retransmit (s : State) (lane : Nat) (x : Tx) : State :=
  if x.tries < s.get (F.LANE_CTL_retry_max lane) then
    let t := (s.dropTx lane x).bump (F.LANE_RETX_count lane)
    let l := t.lane lane
    t.setLane lane { l with txs := { x with tries := x.tries + 1 } :: l.txs, out := l.out ++ [x.out] }
  else
    let t := s.dropTx lane x
    if x.wave then t.waveFail lane x.pos 1 (s.uploadIndex lane) else t

/-- The oldest unanswered transom of a position that waits for no strobe. -/
def State.oldestTx (s : State) (lane pos : Nat) : Option Tx := (s.lane lane).txs.find? (fun x => x.pos == pos && !x.full)

/-- Nothing that answers came back for the REPLY grant of a position (R220). -/
def State.noReply (s : State) (lane pos : Nat) : State :=
  match s.oldestTx lane pos with
  | some x => s.retransmit lane x
  | none => s

/-- The DATA of a tag is acknowledged by a position (R145, R220). -/
def State.ackData (s : State) (lane pos tag : Nat) : State :=
  let l := s.lane lane
  s.setLane lane { l with queue := l.queue.map (fun e =>
    if e.tag == tag && natBit e.sent pos then { e with acked := natSetBit e.acked pos true } else e) }

/-- The WAVE to a position is acknowledged (R248). -/
def State.ackWave (s : State) (lane pos : Nat) : State :=
  let l := s.lane lane
  s.setLane lane { l with upload := l.upload.map (fun u => { u with acked := natSetBit u.acked pos true }) }

/-- A REPLY that matches an unanswered transom (R210, R220, R249). -/
def State.replyTo (s : State) (lane : Nat) (x : Tx) (code : Nat) : State :=
  match code with
  | 0 => if x.wave then (s.dropTx lane x).ackWave lane x.pos else (s.dropTx lane x).ackData lane x.pos x.tag
  | 2 =>
    let t := s.dropTx lane x
    t.setLane lane { t.lane lane with txs := { x with full := true } :: (t.lane lane).txs }
  | 3 => if x.wave then (s.dropTx lane x).waveFail lane x.pos 0 (s.uploadIndex lane) else s.dropTx lane x
  | _ => s.retransmit lane x

/-- REPLY_RECEIVE: the control block that came back for the REPLY grant of a position (R209, R220): a REPLY that matches an
unanswered transom, one that fails its CRC-8, a block of no known type, or anything else. -/
def State.replyReceive (s : State) (lane granted : Nat) (block : W64) : State :=
  let t := s.grantBack lane 0 granted
  match answerOf block with
  | .badCheck => (t.bump (F.LANE_UPERR_count lane)).noReply lane granted
  | .unknown => (t.bump (F.LANE_BLKERR_count lane)).noReply lane granted
  | .other => t.noReply lane granted
  | .reply y =>
    match (t.lane lane).txs.find? (fun x => x.pos == granted && y.pos == granted && x.wave == (y.type == 2) &&
        (y.type == 2 || y.type == 1) && x.tag == y.tag && !x.full) with
    | some x => t.replyTo lane x y.code
    | none => t.noReply lane granted

def execReplyReceive (lane : Fin 24) (granted : Fin 16) (block : W64) (s : State) : Host.Outcome State Fault Refusal :=
  .next (s.replyReceive lane.val granted.val block)

/-- REPLY_TIMEOUT: nothing within L + 2 block times (R220). -/
def execReplyTimeout (lane : Fin 24) (pos : Fin 16) (s : State) : Host.Outcome State Fault Refusal :=
  .next ((s.grantBack lane.val 0 pos.val).noReply lane.val pos.val)

/-- GRANT_UNFILLED: a grant returns unfilled; of a REPLY grant the transom is sent again (R215, R220). -/
def State.grantUnfilled (s : State) (lane kind pos : Nat) : State :=
  if s.grantsOut lane kind pos = 0 then s
  else
    let t := (s.grantBack lane kind pos).bump (F.LANE_NOFILL_count lane)
    if kind = 0 then t.noReply lane pos else t

def execGrantUnfilled (lane : Fin 24) (kind : Fin 4) (pos : Fin 16) (s : State) : Host.Outcome State Fault Refusal :=
  .next (s.grantUnfilled lane.val kind.val pos.val)

/-! ### Returns of strobes and cancels (R224) -/

/-- A strobe check failure: the second within 1 ms closes every tile of the lane until training completes. -/
def State.strobeFails (s : State) (lane : Nat) (x : StrobeSet) (missing : Bool) : State :=
  let t := (s.bump (F.LANE_SCERR_count lane)).laneFlag lane 3 ((if missing then 2 ^ 31 else 0) + x.tag * 2 ^ 16 + x.mask)
  let l := t.lane lane
  let second := match l.checkFail with
    | some w => decide (s.uptime ≤ w + cyclesPerMs)
    | none => false
  let u := t.setLane lane { l with checkFail := some s.uptime }
  if second then u.laneFault lane (u.present lane) .strobeCheck true else u

/-- The oldest STROBE or CANCEL on the ring has come back, or not (R224). -/
def State.setReturned (s : State) (lane : Nat) (same missing : Bool) : State :=
  match (s.lane lane).sets with
  | [] => s
  | x :: rest =>
    let t := s.setLane lane { s.lane lane with sets := rest }
    if same then t
    else match x with
      | .strobe y => t.strobeFails lane y missing
      | .cancel m tag tries => if tries < 3 then t.sendSet lane (.cancel m tag (tries + 1)) else t

def execStrobeReturn (lane : Fin 24) (same : Bool) (s : State) : Host.Outcome State Fault Refusal :=
  .next (s.setReturned lane.val same false)

def execStrobeReturnTimeout (lane : Fin 24) (s : State) : Host.Outcome State Fault Refusal :=
  .next (s.setReturned lane.val false true)

/-! ### STAT (R226, R227) -/

/-- Tags of staged lines, oldest first (R226 word 2). -/
def stagedTags (m : StatMsg) : List Nat := (List.range (min 4 m.staged.toNat)).map (fun i => bitsOf m.tags (8 * i + 7) (8 * i))

/-- A valid STAT of a tile is processed (R226, R227, R270). -/
def State.statProcess (s : State) (lane pos : Nat) (m : StatMsg) : State :=
  let k := lane * 16 + pos
  let s1 := ((s.drawn.setTile k { s.tile k with silent := false }).linkFault k .silence false).set (F.LANE_TEMP_link lane pos)
    (s.thermistor k m.code.toNat)
  let s2 := if m.count = (s1.tile k).fireCount then s1
    else (s1.setTile k { s1.tile k with fireCount := m.count }).laneFlag lane 8 (pos * 2 ^ 28 + 2 ^ 24)
  let known := tabGet [] (s.lane lane).grantLines pos
  let s3 := ((stagedTags m).filter (fun g => !known.contains g)).foldl (fun t g =>
    (t.sendSet lane (.cancel (2 ^ pos) g 0)).laneFlag lane 8 (pos * 2 ^ 28 + g)) s2
  let old := (s3.tile k).flags
  let new := m.flags.toNat
  let s4 := s3.setTile k { s3.tile k with flags := new }
  let s5 := if (natBit new 4 && !natBit old 4) || (natBit new 5 && !natBit old 5) then
      s4.laneFlag lane 9 (pos * 2 ^ 28 + new) else s4
  s5.tempCheck lane pos

/-- STAT_RECEIVE: the blocks that came back for the STAT grant of a position; what is no sound STAT is discarded and counted
(R212, R226). -/
def State.statReceive (s : State) (lane pos : Nat) (blocks : List LinkBlock) : State :=
  let t := s.grantBack lane 1 pos
  match statOf blocks with
  | some (p, m) => t.statProcess lane p m
  | none => t.bump (F.LANE_UPERR_count lane)

def execStatReceive (lane : Fin 24) (pos : Fin 16) (blocks : List LinkBlock) (s : State) : Host.Outcome State Fault Refusal :=
  .next (s.statReceive lane.val pos.val blocks)

/-- STAT_TIMEOUT: no valid STAT of a running tile for T_st; once for each silence (R227). -/
def State.statTimeout (s : State) (lane pos : Nat) : State :=
  let k := lane * 16 + pos
  if s.laneState lane != 5 || !s.runs lane pos || (s.tile k).silent then s
  else
    let t := ((s.setTile k { s.tile k with silent := true }).bump (F.LANE_STATTO_count lane)).laneFlag lane 4 (pos * 2 ^ 28)
    (t.linkFault k .silence true).set (F.LANE_TEMP_link lane pos) 0x8000

def execStatTimeout (lane : Fin 24) (pos : Fin 16) (s : State) : Host.Outcome State Fault Refusal :=
  .next (s.statTimeout lane.val pos.val)

/-! ### Limits (R270) -/

/-- A write of LANEn_TLIMp or LANEn_THYSp takes effect at once and is due at the tile (R270). -/
def State.limitsWrite (s : State) (lane pos a : Nat) (v : W32) : State :=
  let t := s.wr a v
  let l := t.lane lane
  if t.laneRuns lane then t.setLane lane { l with limitsDue := natSetBit l.limitsDue pos true } else t

/-- TLIM_PUSH: within 1 ms the limits are sent to the tile's TLIM and THYS words (R269, R270). -/
def execTlimPush (lane : Fin 24) (pos : Fin 16) (s : State) : Host.Outcome State Fault Refusal :=
  let l := s.lane lane.val
  .next (if natBit l.limitsDue pos.val then
    let t := s.setLane lane.val { l with limitsDue := natSetBit l.limitsDue pos.val false }
    if t.laneRuns lane.val then
      t.mgWrite lane.val pos.val 0x24 [t.rd (R.LANE_TLIM lane.val pos.val), t.rd (R.LANE_THYS lane.val pos.val)] .limits
    else t
  else s)

end Sys2Proof.Machine
end

