-- ==== Sys2Proof/Machine/Health.lean ====
section
/-! DEFINITION. Nozzle map and health sensing: masked map writes, trim pushes, echo sensing, the echo classifier, the
optical gates and the enables of the duty governor (R179 to R205), and the selection of the configuration (R268). -/

namespace Sys2Proof.Machine

/-! ### The map (R179, R182) -/

/-- Fabric address of a map entry: the NMAP bank starts at 0 (R24, R179). -/
def mapAddr (i : Nat) : Nat := 4 * i

/-- MASKED_MAP_WRITE: a write of HEALTH_MWDATAs replaces the bits of HEALTH_MWMASKs in entry HEALTH_MWIDXs. An entry that
reads uncorrectable is not merged, as R321 has it of every read, merge and write. -/
def State.maskedMapWrite (s : State) (set : Nat) (v : W32) : State :=
  let i := s.get (F.HEALTH_MWIDX_index set)
  if 786431 < i then s.set (F.HEALTH_MWSTAT_err set) 1
  else
    let m := s.rd (R.HEALTH_MWMASK set)
    match s.dataRead 0xFF (mapAddr i) 4 with
    | (some bs, t) => (t.wrWord (mapAddr i) ((w32 (leNat bs) &&& ~~~m) ||| (v &&& m))).cellCleared (mapAddr i)
    | (none, t) => t

def execMaskedMapWrite (set : Fin 2) (value : W32) (s : State) : Host.Outcome State Fault Refusal :=
  .next (s.maskedMapWrite set.val value)

/-! ### Trim pushes (R185, R228, R455) -/

/-- The trim halfword of a map entry (R180, R228). -/
def trimHalf (e : W32) : Nat :=
  bitsOf e 29 24 + bitsOf e 23 19 * 64 + (if bitsOf e 31 30 = 3 then 2048 else 0)

/-- The TRIM words of consecutive entries, two to a word. -/
def trimWords : List W32 → List W32
  | a :: b :: t => w32 (trimHalf a + trimHalf b * 2 ^ 16) :: trimWords t
  | _ => []

/-- A push goes on with its `k`-th WRITE of 16 words to a position: the 32 entries are read, each once; the commit write
follows the 64th unless CAL_TRIMHOLD holds it back (R185, R455). A tile one of whose entries reads uncorrectable is skipped
(R326). In OPEN a WRITE counts once it has left, so the next follows (R236); `fuel` bounds that walk. -/
def State.trimFrom : Nat → State → Nat → Nat → Nat → State
  | 0, s, _, _, _ => s
  | fuel + 1, s, lane, pos, k =>
    if 64 ≤ k then
      if s.bit F.CAL_TRIMHOLD_hold lane then s else s.mgWrite lane pos 0x20 [1] .trimCommit
    else match s.engineRead (mapAddr ((lane * 16 + pos) * 2048 + 32 * k)) 128 with
      | (none, t) => t.set (F.HEALTH_TPUSH_err lane) 1
      | (some bs, t) =>
        let u := t.mgWrite lane pos (0x400 + 16 * k) (trimWords (wordsOf bs)) (.trim k)
        if u.laneState lane = 7 then State.trimFrom fuel u lane pos (k + 1) else u

def State.trimStep (s : State) (lane pos k : Nat) : State := State.trimFrom 65 s lane pos k

/-- A write of HEALTH_TPUSHn: refused while busy; a non-zero mask starts a push on a lane that takes MGMT traffic; on any
other lane no tile acknowledges (R185, R229). -/
def State.tpushWrite (s : State) (lane : Nat) (v : W32) : State :=
  let t := s.plainWrite (R.HEALTH_TPUSH lane) v
  let mask := bitsOf v 15 0
  if s.flag (F.HEALTH_TPUSH_busy lane) then s.set (F.HEALTH_TPUSH_refused lane) 1
  else if mask = 0 then t
  else if s.laneRuns lane then (positions mask).foldl (fun u p => u.trimStep lane p 0) (t.set (F.HEALTH_TPUSH_busy lane) 1)
  else t.set (F.HEALTH_TPUSH_err lane) 1

def execTrimPush (lane : Fin 24) (value : W32) (s : State) : Host.Outcome State Fault Refusal :=
  .next (if s.laneFused lane.val then s else s.tpushWrite lane.val value)

/-- The request belongs to a trim push. -/
def MgWhy.isTrim : MgWhy → Bool
  | .trim _ => true
  | .trimCommit => true
  | _ => false

/-- TRIM_PUSH_DONE: the last write and commit are answered (R185). -/
def execTrimPushDone (lane : Fin 24) (s : State) : Host.Outcome State Fault Refusal :=
  .next (if (s.lane lane.val).mgmt.any (fun r => r.why.isTrim) then s else s.set (F.HEALTH_TPUSH_busy lane.val) 0)

/-! ### Echo transoms (R187, R188, R191) -/

/-- Tiles that are not classified keep no expected windows (R191). -/
def State.forgetUnclassified (s : State) : State := s.forgetWindows (fun k => !s.classified k)

/-- An ECHO of a classified tile whose window sequence is new: lost windows are counted and the group queued for the
classifier (R188). -/
def State.echoTake (s : State) (lane pos : Nat) (m : EchoMsg) : State :=
  let k := lane * 16 + pos
  let g := m.group.toNat
  let t := s.setTile k { s.tile k with echoSeq := tabPut (s.tile k).echoSeq g m.seq.toNat }
  let lost := match tabFind (s.tile k).echoSeq g with
    | some last => (m.seq.toNat + 255 - last) % 256
    | none => 0
  let u := if lost = 0 then t else
    ((t.bumpBy F.HEALTH_ECLOST_count lost).set F.HEALTH_ECSTAT_lost 1).laneEvent lane 0x361 (pos * 2 ^ 28 + g * 2 ^ 23 + lost)
  { u with echoes := u.echoes ++ [(k, m)] }

/-- ECHO_RECEIVE: the blocks that came back for the ECHO grant of a position; what is no sound ECHO is discarded and counted
(R188, R212). A repeated sequence is a duplicate; a tile that is not classified, and a halted classifier (R195), take
none. -/
def State.echoReceive (s : State) (lane pos : Nat) (blocks : List LinkBlock) : State :=
  let t := s.grantBack lane 2 pos
  match echoOf blocks with
  | none => t.bump (F.LANE_UPERR_count lane)
  | some (p, m) =>
    let k := lane * 16 + p
    if !t.classified k || t.flag F.HEALTH_ECSTAT_halt then t
    else if tabFind (t.tile k).echoSeq m.group.toNat = some m.seq.toNat then t
    else t.echoTake lane p m

def execEchoReceive (lane : Fin 24) (pos : Fin 16) (blocks : List LinkBlock) (s : State) : Host.Outcome State Fault Refusal :=
  .next (s.echoReceive lane.val pos.val blocks)

/-! ### Scoring (R192) -/

/-- A nozzle as the classifier sees and leaves it: state, score, and the z computed, if one was. -/
structure Scored where
  state : Nat
  score : Nat
  z : Option Nat
deriving DecidableEq, Repr

/-- The state and score after one window whose z is given. -/
def scoreZ (c : ClassRec) (state score z : Nat) : Scored :=
  let h := unsignedOf 8 ((score : Int) + ((z : Int) - score) / (2 ^ c.a : Nat))
  if z < c.thMiss || h < c.thMiss then ⟨2, min h z, some z⟩
  else if state = 0 && h < c.thWeak then ⟨1, h, some z⟩
  else if state = 1 && min 255 (c.thWeak + c.hyst) ≤ h then ⟨0, h, some z⟩
  else ⟨state, h, some z⟩

/-- z of a feature word. -/
def scoreRaw (c : ClassRec) (w : W32) : Nat :=
  let raw := c.bias + c.w0 * bitsOf w 7 0 + c.w1 * bitsOf w 15 8 + c.w2 * bitsOf w 23 16 + c.w3 * bitsOf w 31 24
  (clampInt 0 255 ((raw + 128) / 256)).toNat

/-- R192 for one feature word of a nozzle with a state and score. -/
def scoreWord (c : ClassRec) (w : W32) (state score : Nat) : Scored :=
  if w = 0xFFFFFFFF || state = 3 || state = 2 then ⟨state, score, none⟩ else scoreZ c state score (scoreRaw c w)

/-- A map entry after scoring. -/
def scoreEntry (c : ClassRec) (w e : W32) : W32 :=
  let r := scoreWord c w (bitsOf e 31 30) (bitsOf e 7 0)
  putBits (putBits e 31 30 r.state) 7 0 r.score

/-- The transitions of a group: word, new state and z of each, in ascending word order. -/
def transitions (c : ClassRec) : Nat → List W32 → List W32 → List (Nat × Nat × Nat)
  | i, w :: ws, e :: es =>
    let r := scoreWord c w (bitsOf e 31 30) (bitsOf e 7 0)
    if r.state = bitsOf e 31 30 then transitions c (i + 1) ws es else (i, r.state, r.z.getD 0) :: transitions c (i + 1) ws es
  | _, _, _ => []

/-- One group is scored and its 64 entries written as one block (R194); a block with an uncorrectable entry is left
unwritten (R326). -/
def State.classifyGroup (s : State) (k : Nat) (m : EchoMsg) : State :=
  let c := tabGet {} s.classes (s.tileClass k)
  let a := mapAddr (k * 2048 + 64 * m.group.toNat)
  match s.dataRead 0xFF a 256 with
  | (none, t) => t
  | (some bs, t) =>
    let es := wordsOf bs
    let tr := transitions c 0 m.words es
    let new := (m.words.zip es).map (fun p => scoreEntry c p.1 p.2)
    let u := (((t.wrWords a new).cellsCleared a 256).bump F.HEALTH_ECUPD_count).bumpBy F.HEALTH_ECTRANS_count tr.length
    match tr with
    | [] => u
    | (w, st, z) :: _ => u.laneEvent (k / 16) 0x360
        (k % 16 * 2 ^ 28 + m.group.toNat * 2 ^ 23 + tr.length * 2 ^ 16 + w * 2 ^ 10 + st * 2 ^ 8 + z)

/-- CLASSIFIER_UPDATE: the classifier takes the oldest queued group (R194); halted it writes nothing (R195). -/
def State.classifierUpdate (s : State) : State :=
  match s.echoes with
  | [] => s
  | (k, m) :: rest => if s.flag F.HEALTH_ECSTAT_halt then s else { s with echoes := rest }.classifyGroup k m

def execClassifierUpdate (s : State) : Host.Outcome State Fault Refusal := .next s.classifierUpdate

/-! ### HEALTH_ECFG (R186, R189, R191, R195) -/

/-- en goes from 0 to 1: a halted classifier restarts, and K is written to every running tile with its c cleared. -/
def State.classifierStart (s : State) : State :=
  s.allTiles.foldl (fun t k =>
    if t.laneRuns (k / 16) && t.runs (k / 16) (k % 16) then
      (t.setTile k { t.tile k with fireCount := 0 }).mgWrite (k / 16) (k % 16) 4 [w32 (t.get F.HEALTH_ECFG_kcode)] .echo
    else t) (s.set F.HEALTH_ECSTAT_halt 0)

/-- A write of HEALTH_ECFG. One that changes kcode while en = 1 is ignored whole (R205, R478). -/
def State.ecfgWrite (s : State) (v : W32) : State :=
  let was := s.flag F.HEALTH_ECFG_en
  let on := bitsOf v 31 31 == 1
  if was && bitsOf v 10 8 != s.get F.HEALTH_ECFG_kcode then s.set F.HEALTH_ECSTAT_cfg_err 1
  else
    let t := s.plainWrite R.HEALTH_ECFG v
    let u := if bitsOf v 1 1 = 1 then t.set F.HEALTH_ECSTAT_wbusy 1 else t
    if on && !was then u.classifierStart
    else if !on then { u with echoes := [] }.forgetUnclassified
    else u

def execClassifierEnable (value : W32) (s : State) : Host.Outcome State Fault Refusal := .next (s.ecfgWrite (putBits value 31 31 1))
def execClassifierDisable (value : W32) (s : State) : Host.Outcome State Fault Refusal := .next (s.ecfgWrite (putBits value 31 31 0))
def execClassTableLoad (value : W32) (s : State) : Host.Outcome State Fault Refusal := .next (s.ecfgWrite (putBits value 1 1 1))

/-- A class record from its first four words (R190); one with en = 1 and th_miss at or above th_weak is loaded with
en = 0. -/
def classOf (w0 w1 w2 w3 : W32) : ClassRec × Bool :=
  let bad := bitsOf w3 7 7 == 1 && bitsOf w3 31 24 ≤ bitsOf w3 23 16
  ({ w0 := signedOf 16 (bitsOf w0 15 0), w1 := signedOf 16 (bitsOf w0 31 16), w2 := signedOf 16 (bitsOf w1 15 0),
     w3 := signedOf 16 (bitsOf w1 31 16), bias := signedOf 32 w2.toNat, thWeak := bitsOf w3 31 24, thMiss := bitsOf w3 23 16,
     hyst := bitsOf w3 15 8, en := bitsOf w3 7 7 == 1 && !bad, a := bitsOf w3 2 0 }, bad)

/-- Record `c` is copied into the shadow (R189, R190). What is loaded from words that read uncorrectable is not stated:
free words. -/
def State.loadClass (s : State) (c : Nat) : State :=
  let (ws, t) := match s.dataRead 0xFF (0x300000 + 64 * c) 16 with
    | (some bs, t) => (wordsOf bs, t)
    | (none, t) => ((List.range 4).map (fun i => Config.freeWord (t.freeCount + i)), { t with freeCount := t.freeCount + 4 })
  let (r, bad) := classOf (ws.getD 0 0) (ws.getD 1 0) (ws.getD 2 0) (ws.getD 3 0)
  let u := { t with classes := tabPut t.classes c r }
  if bad then u.set F.HEALTH_ECSTAT_cls_err 1 else u

/-- CLASS_LOAD_DONE: the requested copy is made whole, between two group updates (R189). -/
def execClassLoadDone (s : State) : Host.Outcome State Fault Refusal :=
  .next (if s.flag F.HEALTH_ECSTAT_wbusy then
    (((List.range 16).foldl State.loadClass s).set F.HEALTH_ECSTAT_wbusy 0).forgetUnclassified else s)

/-- CLASSIFIER_PARITY_ERROR: the classifier halts; what its queue holds is lost (R195, R204). -/
def execClassifierParityError (queue : Bool) (s : State) : Host.Outcome State Fault Refusal :=
  .next (({ s with echoes := [] }.set F.HEALTH_ECSTAT_halt 1).post 63 0x368 (loc4 0x28 0xFD) (b2w queue))

/-- A write of HEALTH_ECTEST: with go the word of HEALTH_ECTESTF runs through R192, and the result stands in the register
(R195). A completed test counts as a pass of monitor 7 (R442). -/
def State.ectestWrite (s : State) (v : W32) : State :=
  let t := s.plainWrite R.HEALTH_ECTEST v
  if bitsOf v 31 31 = 1 then
    let r := scoreWord (tabGet {} s.classes (bitsOf v 23 20)) (s.rd R.HEALTH_ECTESTF) (bitsOf v 17 16) (bitsOf v 7 0)
    let u := (t.set F.HEALTH_ECTEST_state r.state).set F.HEALTH_ECTEST_h r.score
    (match r.z with
      | some z => u.set F.HEALTH_ECTEST_z z
      | none => u).set F.HEALTH_ECTEST_done 1 |>.monitorPassed 7
  else t

def execEchoTest (value : W32) (s : State) : Host.Outcome State Fault Refusal := .next (s.ectestWrite (putBits value 31 31 1))

/-! ### Optical gates (R198, R199, R204) -/

def State.gate (s : State) (g : Nat) : Gate := tabGet {} s.gates g
def State.setGate (s : State) (g : Nat) (x : Gate) : State := { s with gates := tabPut s.gates g x }

/-- ovf or ovl becomes set, with its event; the request is raised when the bit was 0 (R199, R204). -/
def State.gateError (s : State) (g : Nat) (f : Field) (kind : Nat) : State :=
  let t := (s.set f 1).post 109 kind (loc4 0x38 (0x10 + g)) (w32 g)
  if s.flag f then t else t.raiseIrq 109

/-- OG_TRIGGER: a non-blank strobe of the trigger tile reaches the gate (R198); with a window open, or its delay running,
it is ignored (R199). -/
def State.gateTrigger (s : State) (g tag : Nat) : State :=
  if !s.flag (F.OG_CFG_en g) then s
  else match (s.gate g).window with
    | .none => s.setGate g { s.gate g with window := .delay, tag := tag, lane := s.get (F.OG_CFG_trig_lane g),
                                           pos := s.get (F.OG_CFG_trig_pos g) }
    | _ => s.gateError g (F.OG_STAT_ovl g) 0x371

def execOgTrigger (gate : Fin 2) (tag : W8) (s : State) : Host.Outcome State Fault Refusal :=
  .next (s.gateTrigger gate.val tag.toNat)

/-- OG_WINDOW_OPEN: the start delay ends; `base` is the mean of the 64 samples before (R198). -/
def execOgWindowOpen (gate : Fin 2) (base : BitVec 10) (s : State) : Host.Outcome State Fault Refusal :=
  .next (if (s.gate gate.val).window = .delay then
    (s.setGate gate.val { s.gate gate.val with window := .opened }).set (F.OG_BASE_base gate.val) base.toNat else s)

/-- The two words of a result (R198, R205). -/
def gateResult (x : Gate) (base : Nat) (crossing : Option (BitVec 20)) (extreme : Nat) : W32 × W32 :=
  (w32 ((if crossing.isSome then 2 ^ 30 else 0) + x.tag % 256 * 2 ^ 16 + x.lane % 32 * 2 ^ 8 + x.pos % 16),
   w32 ((match crossing with
     | some c => c.toNat
     | none => 0xFFFFF) * 2 ^ 12 + (if extreme ≤ base then base - extreme else extreme - base)))

/-- OG_WINDOW_CLOSE: one result is appended to the FIFO of 64 entries, or discarded when it is full (R198, R199). -/
def State.gateClose (s : State) (g : Nat) (crossing : Option (BitVec 20)) (extreme : Nat) : State :=
  let x := s.gate g
  if x.window = .opened then
    let t := s.setGate g { x with window := .none }
    if 64 ≤ x.fifo.length then t.gateError g (F.OG_STAT_ovf g) 0x370
    else
      let u := (t.setGate g { x with window := .none, fifo := x.fifo ++ [gateResult x (s.get (F.OG_BASE_base g)) crossing extreme] }).set
        (F.OG_STAT_level g) (x.fifo.length + 1)
      if x.fifo.isEmpty && s.flag (F.OG_CFG_ien g) then u.raiseIrq 109 else u
  else s

def execOgWindowClose (gate : Fin 2) (crossing : Option (BitVec 20)) (extreme : BitVec 10) (s : State) :
    Host.Outcome State Fault Refusal := .next (s.gateClose gate.val crossing extreme.toNat)

/-- A read of OGn_RESA: the oldest entry is removed and its second word latched into OGn_RESB; of an empty FIFO valid
reads 0 (R199). -/
def State.gateRead (s : State) (g : Nat) : W32 × State :=
  match (s.gate g).fifo with
  | [] => (0, s)
  | (a, b) :: rest =>
    (a ||| 0x80000000, ((s.setGate g { s.gate g with fifo := rest }).wr (R.OG_RESB g) b).set (F.OG_STAT_level g) rest.length)

/-- OG_RESULT_READ: the read's data goes to its initiator (R199). -/
def execOgResultRead (gate : Fin 2) (s : State) : Host.Outcome State Fault Refusal :=
  let r := s.gateRead gate.val
  .next { r.2 with answer := .data (leBytes 4 r.1.toNat) }

/-! ### Governor enables and the configuration (R200, R202, R268) -/

/-- The governor's counts of every tile of a lane are cleared (R202). -/
def State.govClear (s : State) (lane : Nat) : State :=
  (List.range 16).foldl (fun t p =>
    t.setTile (lane * 16 + p) { t.tile (lane * 16 + p) with half := 0, prevDrops := [], curDrops := [], prevEnergy := 0,
                                                            curEnergy := 0 }) s

/-- A write of HEALTH_GOVn_CFG (R202, R478). -/
def State.govWrite (s : State) (lane : Nat) (v : W32) : State :=
  let was := s.flag (F.HEALTH_GOV_CFG_en lane)
  let on := bitsOf v 31 31 == 1
  if (was && bitsOf v 26 24 != s.get (F.HEALTH_GOV_CFG_wcode lane)) || (!on && s.get F.SHUT_MODE_mode == 2) then
    s.set (F.HEALTH_GOV_STAT_cfg_err lane) 1
  else
    let t := s.plainWrite (R.HEALTH_GOV_CFG lane) v
    if on && !was then t.govClear lane else t

def execGovEnable (lane : Fin 24) (value : W32) (s : State) : Host.Outcome State Fault Refusal :=
  .next (if s.laneFused lane.val then s else s.govWrite lane.val value)

/-- Selection of the scanning configuration enables every governor, its counts cleared if it was off (R268). -/
def State.govEnableAll (s : State) : State :=
  s.lanesHere.foldl (fun t n =>
    if t.flag (F.HEALTH_GOV_CFG_en n) then t else (t.govClear n).set (F.HEALTH_GOV_CFG_en n) 1) s

/-- A write of SHUT_MODE.mode (R268, R478): once mode is not 0 a change is ignored and sets err; 3 is ignored. -/
def State.modeWrite (s : State) (m : Nat) : State :=
  if s.get F.SHUT_MODE_mode != 0 then if m = s.get F.SHUT_MODE_mode then s else s.set F.SHUT_MODE_err 1
  else if m = 2 then (s.set F.SHUT_MODE_mode 2).govEnableAll
  else if m = 1 then s.set F.SHUT_MODE_mode 1
  else s

/-- A write of SHUT_MODE: err clears unless the write is ignored. -/
def State.shutModeWrite (s : State) (v : W32) : State :=
  if s.get F.SHUT_MODE_mode != 0 && bitsOf v 1 0 != s.get F.SHUT_MODE_mode then s.set F.SHUT_MODE_err 1
  else (if bitsOf v 2 2 = 1 then s.set F.SHUT_MODE_err 0 else s).modeWrite (bitsOf v 1 0)

def execShutModeSelect (mode : BitVec 2) (s : State) : Host.Outcome State Fault Refusal := .next (s.modeWrite mode.toNat)

end Sys2Proof.Machine
end

