-- ==== Sys2Proof/Machine/Waves.lean ====
section
/-! DEFINITION. Waveform uploads, amplitude scaling and breeze settings (R247 to R261). -/

namespace Sys2Proof.Machine

/-! ### Uploads (R248, R249) -/

/-- A go of LANEn_WVCMD is refused: busy, a source outside SRAM, or a position that is not present (R248). -/
def State.uploadRefused (s : State) (lane mask : Nat) : Bool :=
  let a := (s.rd (R.LANE_WVSRC lane)).toNat
  s.flag (F.LANE_WVCMD_busy lane) || !isSram a || !isSram (a + 127) || (mask &&& s.present lane) != mask

/-- One WAVE transom with the 32 words of a waveform to each position of a mask, in ascending order, each with the lane's
next sequence (R212, R248). -/
def State.sendWaves (s : State) (lane mask index : Nat) (bytes : List W8) : State :=
  (positions mask).foldl (fun t p =>
    let l := t.lane lane
    let x := transomOut 2 p l.waveSeq index bytes
    t.setLane lane { l with txs := l.txs ++ [⟨p, true, l.waveSeq, 0, false, x⟩], waveSeq := (l.waveSeq + 1) % 256,
                            out := if t.laneRuns lane then l.out ++ [x] else l.out }) s

/-- A write of LANEn_WVCMD; with go the 128 bytes are read whole and the WAVE transoms sent (R248). A source that reads
uncorrectable sends nothing and sets err. -/
def State.wvcmdWrite (s : State) (lane : Nat) (v : W32) : State :=
  if bitsOf v 30 30 = 0 then s.plainWrite (R.LANE_WVCMD lane) v
  else if s.uploadRefused lane (bitsOf v 15 0) then s.set (F.LANE_WVCMD_err lane) 1
  else
    let t := s.plainWrite (R.LANE_WVCMD lane) v
    match t.engineRead (s.rd (R.LANE_WVSRC lane)).toNat 128 with
    | (none, u) => u.set (F.LANE_WVCMD_err lane) 1
    | (some bs, u) =>
      ((u.setLane lane { u.lane lane with upload := some ⟨bitsOf v 26 24, bitsOf v 29 29 == 1, wordsOf bs, 0⟩ }).set
        (F.LANE_WVCMD_busy lane) 1).sendWaves lane (bitsOf v 15 0) (bitsOf v 26 24) bs

def execWaveUpload (lane : Fin 24) (value : W32) (s : State) : Host.Outcome State Fault Refusal :=
  .next (if s.laneFused lane.val then s else s.wvcmdWrite lane.val (putBits value 30 30 1))

/-- WAVE_UPLOAD_DONE: every WAVE is answered or given up; the tiles that acknowledged are committed and busy clears (R248,
R249). -/
def State.uploadDone (s : State) (lane : Nat) : State :=
  match (s.lane lane).upload with
  | none => s
  | some u =>
    if (s.lane lane).txs.any (fun x => x.wave) then s
    else
      let t := (s.setLane lane { s.lane lane with upload := none }).set (F.LANE_WVCMD_busy lane) 0
      if u.commit then (positions u.acked).foldl (fun w p => w.mgWrite lane p 0x1F [1] (.waveCommit u.index)) t else t

def execWaveUploadDone (lane : Fin 24) (s : State) : Host.Outcome State Fault Refusal := .next (s.uploadDone lane.val)

/-! ### Amplitude scaling (R251, R253) -/

/-- A quotient rounded to the nearest integer, halves away from zero; `den` is positive. -/
def roundAway (num : Int) (den : Nat) : Int :=
  let q : Nat := (2 * num.natAbs + den) / (2 * den)
  if num < 0 then -(q : Int) else q

/-- The points of a bar's curve: temperature and factor. -/
def State.curve (s : State) (b : Nat) : List (Int × Nat) :=
  (List.range 8).map (fun k => (s.getInt (F.BAR_TCP_t b k), s.get (F.BAR_TCP_c b k)))

/-- A curve is valid when its temperatures rise strictly. -/
def curveValid : List (Int × Nat) → Bool
  | a :: b :: t => decide (a.1 < b.1) && curveValid (b :: t)
  | _ => true

/-- The factor of a curve at a temperature, clamped to its ends. -/
def curveAt : List (Int × Nat) → Int → Int
  | [], _ => 0x4000
  | [(_, c)], _ => c
  | (t0, c0) :: (t1, c1) :: r, t =>
    if t ≤ t0 then c0
    else if t ≤ t1 then c0 + roundAway (((c1 : Int) - c0) * (t - t0)) (t1 - t0).toNat
    else curveAt ((t1, c1) :: r) t

/-- s of R251, before the clamp to smax. -/
def State.scaleOf (s : State) (k : Nat) (t : Int) : Nat :=
  let r := s.get (F.FIRE_RANK_f (s.tile k).rank)
  let b := s.get (F.FIRE_TILE_CFG_bar k)
  let c := if s.flag (F.FIRE_TILE_CFG_en k) && curveValid (s.curve b) then curveAt (s.curve b) t else 0x4000
  (((r : Int) * c + 2 ^ 13) / 2 ^ 14).toNat

/-- S of a tile at the tick: the clamp is reported each time it starts to apply, and an S that differs from the last
acknowledged one is written to the tile (R253). -/
def State.scaleTile (s : State) (lane pos : Nat) (t : Int) : State :=
  let k := lane * 16 + pos
  let x := s.scaleOf k t
  let above := decide (s.get F.FIRE_WVCFG_smax < x)
  let l := s.lane lane
  let s1 := s.setLane lane { l with limited := natSetBit l.limited pos above }
  let s2 := if above && !natBit l.limited pos then s1.laneEvent lane 0x3A1 (pos * 2 ^ 28 + min x 0xFFFF) else s1
  let v := min x (s.get F.FIRE_WVCFG_smax)
  if v != s.get (F.LANE_SCALE_s lane pos) && s.laneRuns lane then s2.mgWrite lane pos 0x11 [w32 v] (.scale v) else s2

/-- One tile of the tick: without a temperature its S is held (R253). -/
def State.scaleStep (s : State) (lane pos : Nat) : State :=
  match tempValue (s.get (F.LANE_TEMP_link lane pos)) with
  | none =>
    if s.bit (F.LANE_WVSTAT_stale lane) pos then s
    else (s.setBit (F.LANE_WVSTAT_stale lane) pos true).laneEvent lane 0x3A2 (pos * 2 ^ 28)
  | some t => (s.setBit (F.LANE_WVSTAT_stale lane) pos false).scaleTile lane pos t

/-- SCALE_TICK: once per millisecond while FIRE_WVCFG.en = 1, for every tile of the link mask (R251). -/
def execScaleTick (lane : Fin 24) (s : State) : Host.Outcome State Fault Refusal :=
  .next (if s.flag F.FIRE_WVCFG_en then (positions (s.present lane.val)).foldl (fun t p => t.scaleStep lane.val p) s else s)

/-- A write of BARn_TCPk: one that leaves the curve invalid sets curve_err (R251). -/
def State.tcpWrite (s : State) (b k : Nat) (v : W32) : State :=
  let t := s.wr (R.BAR_TCP b k) v
  if curveValid (t.curve b) then t else t.set F.FIRE_WVCFG_curve_err 1

/-! ### Breeze settings (R258, R259) -/

/-- WV_BREEZE of a tile: its bar's setting, or en = 0 in no tile list. -/
def State.breezeWord (s : State) (k : Nat) : W32 :=
  if s.flag (F.FIRE_TILE_CFG_en k) then
    let b := s.get (F.FIRE_TILE_CFG_bar k)
    w32 (s.get (F.BAR_BREEZE_interval b) * 2 ^ 16 + s.get (F.BAR_BREEZE_lvl b) * 2 ^ 8 + s.get (F.BAR_BREEZE_excl b) * 2 +
      s.get (F.BAR_BREEZE_en b))
  else 0

/-- A write of BARn_BREEZE is due at the bar's tiles. -/
def State.breezeWrite (s : State) (b : Nat) (v : W32) : State :=
  let t := s.plainWrite (R.BAR_BREEZE b) v
  (t.barTiles b).foldl State.breezeDue t

/-- BREEZE_PUSH: the settings due are written to the running tiles of a lane in UP or OPEN (R258). -/
def State.breezePush (s : State) (lane : Nat) : State :=
  if s.laneRuns lane then
    let due := (s.lane lane).breezeDue
    (positions due).foldl (fun t p =>
      if t.runs lane p then t.mgWrite lane p 0x12 [t.breezeWord (lane * 16 + p)] .breeze else t)
      (s.setLane lane { s.lane lane with breezeDue := 0 })
  else s

def execBreezePush (lane : Fin 24) (s : State) : Host.Outcome State Fault Refusal := .next (s.breezePush lane.val)

end Sys2Proof.Machine
end

