-- ==== Sys2Proof/Machine/LinkMgmt.lean ====
section
/-! DEFINITION. MGMT requests and responses, and the sideband (R229 to R233, R236). -/

namespace Sys2Proof.Machine

/-! ### Answers to MGMT requests (R229) -/

/-- The trim commits of CAL_TCOMMIT are all answered (R455). -/
def State.commitsPending (s : State) : Bool := s.lanes.any (fun l => l.2.mgmt.any (fun r => r.why == .calCommit))

/-- Words of an MGMT response stored in LANEn_MGDATAk. -/
def State.mgData (s : State) (lane : Nat) (data : List W32) : State :=
  (data.zipIdx.take 16).foldl (fun t e => t.wr (R.LANE_MGDATA lane e.2) e.1) s

/-- A firmware request ends (LANEn_MGCMD). -/
def State.mgFirmware (s : State) (lane status : Nat) : State :=
  (s.set (F.LANE_MGCMD_status lane) status).set (F.LANE_MGCMD_busy lane) 0

/-- A request is answered with status done. -/
def State.mgDone (s : State) (lane : Nat) (r : MgReq) (data : List W32) : State :=
  match r.why with
  | .firmware => (if r.op == 1 then s else s.mgData lane data).mgFirmware lane 0
  | .identity => s.identityDone lane r.pos data
  | .record k => s.recordDone lane r.pos k data
  | .config k => s.configStepDone lane r.pos k
  | .run => s.configNext lane (r.pos + 1)
  | .rowPhase b => s.barReady b
  | .trim k => s.trimStep lane r.pos (k + 1)
  | .trimCommit => s
  | .echo => s
  | .waveCommit _ => s
  | .scale x => s.set (F.LANE_SCALE_s lane r.pos) x
  | .breeze => s
  | .cutTag => s.tileHot lane r.pos (natBit (data.getD 0 0).toNat 8) (bitsOf (data.getD 0 0) 7 0)
  | .limits => s
  | .calCommit => s

/-- A request fails: answered with another status, or not answered at all (R156, R185, R219, R229, R249, R258, R455). -/
def State.mgFails (s : State) (lane : Nat) (r : MgReq) (status : Nat) : State :=
  match r.why with
  | .firmware => s.mgFirmware lane status
  | .identity => (s.identityFails lane r.pos).configStep lane
  | .record _ => s.configFails lane r.pos
  | .config _ => s.configFails lane r.pos
  | .run => s.configFails lane r.pos
  | .rowPhase b => (s.exclude lane r.pos).barReady b
  | .trim _ => s.set (F.HEALTH_TPUSH_err lane) 1
  | .trimCommit => s.set (F.HEALTH_TPUSH_err lane) 1
  | .echo => s
  | .waveCommit i => s.waveFail lane r.pos 2 i
  | .scale _ => s
  | .breeze => s.waveFail lane r.pos 2 0
  | .cutTag => s.tileHot lane r.pos true 0
  | .limits => s
  | .calCommit => s.set (F.HEALTH_TPUSH_err lane) 1

/-- The request leaves the list of those unanswered. -/
def State.mgDrop (s : State) (lane : Nat) (r : MgReq) : State :=
  s.setLane lane { s.lane lane with mgmt := (s.lane lane).mgmt.erase r }

/-- LANEn_MGCMD.status of a response status: 0 done, 1 bad address, 2 bad request, 3 not ready (R212). -/
def mgStatus (n : Nat) : Nat := if n = 0 then 0 else if n = 1 then 1 else 3

/-- MGMT_RESPONSE_RECEIVE: the blocks that came back for the response grant of a position, matched to their request by
sequence and position (R229). What is no sound response, or an answer of done whose payload is not what its request calls
for, is discarded and counted (R212). -/
def State.mgReceive (s : State) (lane pos : Nat) (blocks : List LinkBlock) : State :=
  let t := s.grantBack lane 3 pos
  match responseOf blocks with
  | none => t.bump (F.LANE_UPERR_count lane)
  | some m =>
    match (t.lane lane).mgmt.find? (fun r => r.pos == m.pos && r.seq == m.seq) with
    | none => t
    | some r =>
      if m.status != 0 then (t.mgDrop lane r).mgFails lane r (mgStatus m.status)
      else if m.data.length = 2 * r.responseBlocks then
        (t.mgDrop lane r).mgDone lane r (m.data.take (if r.op = 0 then r.count else m.data.length))
      else t.bump (F.LANE_UPERR_count lane)

def execMgmtResponseReceive (lane : Fin 24) (resp : MgmtReturn) (s : State) : Host.Outcome State Fault Refusal :=
  .next (s.mgReceive lane.val resp.pos.val resp.blocks)

/-- Repeats of a request: three attempts where R156 and R219 say so, else up to three repeats (R229). -/
def MgWhy.repeats : MgWhy → Nat
  | .identity => 2
  | .record _ => 2
  | .config _ => 2
  | .run => 2
  | .rowPhase _ => 2
  | _ => 3

/-- MGMT_RETRY_TIMEOUT: an unanswered request is repeated, or fails with no response (R229). -/
def State.mgRetry (s : State) (lane pos seq : Nat) : State :=
  match (s.lane lane).mgmt.find? (fun r => r.pos == pos && r.seq == seq) with
  | none => s
  | some r =>
    if r.tries < r.why.repeats then
      let l := s.lane lane
      s.setLane lane { l with mgmt := l.mgmt.map (fun x => if x == r then { x with tries := x.tries + 1 } else x),
                              out := l.out ++ s.mgOut lane r }
    else (s.mgDrop lane r).mgFails lane r 2

def execMgmtRetryTimeout (lane : Fin 24) (pos : Fin 16) (seq : W8) (s : State) : Host.Outcome State Fault Refusal :=
  .next (s.mgRetry lane.val pos.val seq.toNat)

/-! ### Firmware requests (LANEn_MGCMD) -/

/-- A write of LANEn_MGCMD: one of the reserved op 3 is ignored (R11). go is ignored while busy, answered with status 2
unless the lane is UP or OPEN, and sends the request otherwise. In OPEN nothing answers: a WRITE is done once it has left, and a READ is repeated until it fails (R229,
R236). -/
def State.mgcmdWrite (s : State) (lane : Nat) (v : W32) : State :=
  let t := s.plainWrite (R.LANE_MGCMD lane) v
  if bitsOf v 17 16 = 3 then s
  else if bitsOf v 27 27 = 0 || s.flag (F.LANE_MGCMD_busy lane) then t
  else if !s.laneRuns lane then t.set (F.LANE_MGCMD_status lane) 2
  else
    let op := bitsOf v 17 16
    let n := s.get (F.LANE_MGLEN_count lane)
    let data := (List.range (min n 16)).map (fun k => s.rd (R.LANE_MGDATA lane k))
    let u := t.mgSend lane (bitsOf v 23 20) op (bitsOf v 15 0) n (if op = 1 then data else []) .firmware
    if s.laneState lane = 7 && op == 1 then u.set (F.LANE_MGCMD_status lane) 0 else u.set (F.LANE_MGCMD_busy lane) 1

def execMgmtRequest (lane : Fin 24) (value : W32) (s : State) : Host.Outcome State Fault Refusal :=
  .next (if s.laneFused lane.val then s else s.mgcmdWrite lane.val (putBits value 27 27 1))

/-! ### Sideband transactions (R231, R233) -/

/-- A write of LANEn_SBCMD: go starts a firmware transaction, and is ignored while busy. -/
def State.sbcmdWrite (s : State) (lane : Nat) (v : W32) : State :=
  let t := s.plainWrite (R.LANE_SBCMD lane) v
  if bitsOf v 28 28 = 0 || s.flag (F.LANE_SBCMD_busy lane) then t
  else (t.sbPush lane [.firmware]).set (F.LANE_SBCMD_busy lane) 1

def execSbCommand (lane : Fin 24) (value : W32) (s : State) : Host.Outcome State Fault Refusal :=
  .next (if s.laneFused lane.val then s else s.sbcmdWrite lane.val (putBits value 28 28 1))

/-- The bytes of a firmware read, laid into LANEn_SBDATAk. -/
def State.sbData (s : State) (lane : Nat) : List (W8 × Nat) → State
  | [] => s
  | (b, i) :: t => State.sbData (s.wr (R.LANE_SBDATA lane (i / 4))
      (putBits (s.rd (R.LANE_SBDATA lane (i / 4))) (8 * (i % 4) + 7) (8 * (i % 4)) b.toNat)) lane t

/-- A firmware transaction ends. -/
def State.sbFirmware (s : State) (lane : Nat) (res : SbResult) : State :=
  let t := s.set (F.LANE_SBCMD_busy lane) 0
  match res with
  | .data bs =>
    if s.flag (F.LANE_SBCMD_rd lane) then t.sbData lane (bs.zipIdx.take (s.get (F.LANE_SBCMD_count lane) + 1)) else t
  | .nack => t.set (F.LANE_SBCMD_nack lane) 1
  | _ => t.set (F.LANE_SBCMD_tout lane) 1

/-- A probe of training ends: an address that answers is in LANEn_PRES.sb; a tile in bypass has its bypass hop latency
read (R217, R218). -/
def State.sbProbed (s : State) (lane pos : Nat) (res : SbResult) : State :=
  match res with
  | .data bs =>
    let st := (bs.getD 0 0).toNat
    let k := lane * 16 + pos
    let t := (s.setTile k { s.tile k with sbStatus := st, sbOk := true }).setBit (F.LANE_PRES_sb lane) pos true
    if natBit st 1 && !natBit (s.present lane) pos then t.sbPush lane [.bypass pos] else t
  | _ => s

/-- A hop latency read over the sideband; without it the delays of the ring stay unknown (R218). -/
def State.sbHop (s : State) (lane pos : Nat) (res : SbResult) : State :=
  match res with
  | .data bs => s.setTile (lane * 16 + pos) { s.tile (lane * 16 + pos) with hop := some (fieldLE bs 0 2) }
  | _ => s

/-- The running sideband transaction ends and the next one starts. -/
def State.sbDone (s : State) (lane : Nat) (res : SbResult) : State :=
  match (s.lane lane).sbq with
  | [] => s
  | w :: rest =>
    let t := (s.setLane lane { s.lane lane with sbq := rest }).sbStart lane
    match w with
    | .firmware => t.sbFirmware lane res
    | .probe p => (t.sbProbed lane p res).configStep lane
    | .hop p => (t.sbHop lane p res).configStep lane
    | .bypass p => (t.sbHop lane p res).configStep lane

def execSbTransactionDone (lane : Fin 24) (result : SbResult) (s : State) : Host.Outcome State Fault Refusal :=
  .next (s.sbDone lane.val result)

/-- SB_STRETCH_TIMEOUT: a stretch longer than 1 ms ends the transaction with a timeout; SCL is clocked 9 times and STOP sent
(R231). -/
def execSbStretchTimeout (lane : Fin 24) (s : State) : Host.Outcome State Fault Refusal :=
  let l := s.lane lane.val
  .next ((if l.sbq.isEmpty then s else s.setLane lane.val { l with sbOut := l.sbOut ++ [.release] }).sbDone lane.val .timeout)

/-! ### Polling (R233) -/

/-- T_sb in D4 cycles. -/
def State.staleTime (s : State) (lane : Nat) : Nat := max 10 (2 * s.pollPeriod lane) * cyclesPerMs

/-- The stale bit of a tile after a poll. -/
def State.staleCheck (s : State) (lane pos : Nat) : State :=
  s.setBit (F.LANE_SBSTALE_stale lane) pos (decide ((s.tile (lane * 16 + pos)).sbSince + s.staleTime lane ≤ s.uptime))

/-- A telemetry read failed: SB_ERROR, and the address does not answer. -/
def State.pollFails (s : State) (lane pos code : Nat) : State :=
  let k := lane * 16 + pos
  ((s.setTile k { s.tile k with sbOk := false }).laneFlag lane 10 (pos * 2 ^ 28 + code)).staleCheck lane pos

/-- One tile's telemetry: a read of offsets 0 to 3 at its address. -/
def State.pollTile (s0 : State) (lane pos : Nat) (r : SbReading) : State :=
  let s := s0.sbLog lane (0x60 + pos) 0 []
  let k := lane * 16 + pos
  match r with
  | .sample code st sq =>
    let t := s.tile k
    let changed := t.sbSeq != some sq.toNat
    let t' := { t with sbStatus := st.toNat, sbOk := true, sbSeq := some sq.toNat,
                       sbSince := if changed then s.uptime else t.sbSince }
    ((s.drawn.setTile k t').set (F.LANE_TEMP_sb lane pos) (s.thermistor k code.toNat)).staleCheck lane pos
  | .nack => s.pollFails lane pos 1
  | .timeout => s.pollFails lane pos 2
  | .busLow => s.pollFails lane pos 3

/-- SB_POLL: every position of LANEn_PRES.sb is read, in ascending order; the views are compared, the limits checked, and in
OPEN the tiles that may fire follow (R233, R234, R236, R270). -/
def State.sbPoll (s : State) (lane : Nat) (readings : List SbReading) : State :=
  if s.flag (F.LANE_SBCFG_poll lane) then
    let ps := positions (s.get (F.LANE_PRES_sb lane))
    let t := (ps.zip readings).foldl (fun u e => u.pollTile lane e.1 e.2) s
    ((ps.foldl (fun u p => u.tempCheck lane p) (t.compareLane lane true)).openRefresh lane)
  else s

def execSbPoll (lane : Fin 24) (readings : List SbReading) (s : State) : Host.Outcome State Fault Refusal :=
  .next (s.sbPoll lane.val readings)

/-- A write of LANEn_SBCFG: one that clears poll in OPEN breaks the ring; a new poll period decides again who may fire
(R236). -/
def State.sbcfgWrite (s : State) (lane : Nat) (v : W32) : State :=
  let t := s.plainWrite (R.LANE_SBCFG lane) v
  if s.laneState lane = 7 && bitsOf v 31 31 == 0 then t.ringBreak lane 0 else t.openRefresh lane

def execSbPollWrite (lane : Fin 24) (value : W32) (s : State) : Host.Outcome State Fault Refusal :=
  .next (if s.laneFused lane.val then s else s.sbcfgWrite lane.val value)

end Sys2Proof.Machine
end

