-- ==== Sys2Proof/Machine/Gust.lean ====
section
/-! DEFINITION. Gust DMA: channel commands, programs, moves through the funnel, loops, waits, signals, completion records
and rings (R342 to R365). -/

namespace Sys2Proof.Machine

/-! ### Channels (R342, R343, R344) -/

/-- An event channel. -/
def isEventChannel (c : Nat) : Bool := decide (32 ≤ c)

/-- Region master of a channel. -/
def chMaster (c : Nat) : Nat := if c < 32 then 48 else 49

/-- Location of Gust's events (R364). -/
def gustLoc : W64 := loc4 0x28 0xFE

/-- The master may write an event channel's registers: the control pairs and the debug port (R343). -/
def gustPrivileged (m : Master) : Bool :=
  match m with
  | .seq q => q.val < 4
  | .host => false
  | .debug => true

/-- Bytes remaining and lines remaining are recorded. -/
def State.chResidue (s : State) (c bytes lines : Nat) : State :=
  (s.set (F.GUST_CH_RES_bytes c) bytes).set (F.GUST_CH_LRES_lines c) lines

/-- The fault address. -/
def State.chFault (s : State) (c a : Nat) : State := (s.wr (R.GUST_CH_FADDRL c) (w32 a)).wr (R.GUST_CH_FADDRH c) (w32 (a / 2 ^ 32 % 256))

/-- V of the running CRC (R354). -/
def chV (crc : Nat) : Nat := crc ^^^ 0xFFFFFFFF

/-- The running CRC and its register. -/
def State.chCrc (s : State) (c crc : Nat) : State := (s.setChan c { s.chan c with crc := crc }).wr (R.GUST_CH_CRC c) (w32 (chV crc))

/-! ### Access checks (R350) -/

/-- A burst is checked, R27 before the regions: the status that stops the channel, with the state after the report. -/
def State.gustCheck (s : State) (m a len : Nat) (n : Needs) : Option (Nat × State) :=
  match s.memCheck m a len n with
  | none => none
  | some t => some (if s.memAbsent a || s.memAbsent (a + len - 1) then 2 else 3, t)

/-- Longest burst at an address (R342). -/
def burstLen (a : Nat) : Nat := if isSram a then 64 else 256

/-- Aligned bursts that cover a range: first byte and length of each, cut to the range; `n` bounds their number. -/
def bursts (a len : Nat) : Nat → List (Nat × Nat)
  | 0 => []
  | n + 1 =>
    let k := min len (burstLen a - a % burstLen a)
    if len = 0 then [] else (a, k) :: bursts (a + k) (len - k) n

/-- The first burst of a range that fails its check: the status, the address and the state after the report. -/
def State.firstRefused (s : State) (m : Nat) (need : Needs) : List (Nat × Nat) → Option (Nat × Nat × State)
  | [] => none
  | (a, k) :: rest => match s.gustCheck m a k need with
    | some (st, t) => some (st, a, t)
    | none => s.firstRefused m need rest

/-- A checked read of a channel (R350): the bytes, or the status, fault address and state it stops with. -/
def State.gustRead (s : State) (m a len : Nat) : (Option (List W8) × Nat × Nat) × State :=
  match s.firstRefused m .read (bursts a len 5) with
  | some (st, x, t) => ((none, st, x), t)
  | none => match s.dataRead m a len with
    | (none, t) => ((none, 4, a), t)
    | (some bs, t) => ((some bs, 0, 0), t)

/-- A checked write of a channel: the state after it, or the status and state it stops with. -/
def State.gustWrite (s : State) (m a : Nat) (bs : List W8) : Option Nat × State :=
  match s.gustCheck m a bs.length .write with
  | some (st, t) => (some st, t)
  | none => match s.mergeWrite m a bs with
    | (some t, _) => (none, t)
    | (none, t) => (some 4, t)

/-! ### Completion records and rings (R358, R359, R360) -/

/-- Ring of a channel. -/
def State.chRing (s : State) (c : Nat) : Nat := s.get (F.GUST_CH_CFG_ring c)

/-- Records a ring holds. -/
def State.gringEntries (s : State) (r : Nat) : Nat := 2 ^ (min (s.get (F.GUST_RING_SIZE_size r)) 12 + 4)

/-- The ring is full. -/
def State.gringFull (s : State) (r : Nat) : Bool :=
  let n := s.gringEntries r
  (s.get (F.GUST_RING_WR_wr r) + n - s.get (F.GUST_RING_RD_rd r) % n) % n == n - 1

/-- Base of a ring. -/
def State.gringBase (s : State) (r : Nat) : Nat := (s.rd (R.GUST_RING_BASEH r)).toNat * 2 ^ 32 + (s.rd (R.GUST_RING_BASEL r)).toNat

/-- The channel ends in a state, with its interrupt request. -/
def State.chEnds (s : State) (c next : Nat) (irq : Bool) : State :=
  let t := (s.setChan c { s.chan c with wait := .none }).set (F.GUST_CH_STAT_state c) next
  if irq then t.raiseIrq (64 + c) else t

/-- Fabric address of a ring's next entry (R359). -/
def State.recordAddr (s : State) (r : Nat) : Nat := s.gringBase r + 16 * s.get (F.GUST_RING_WR_wr r)

/-- What follows the write of channel `c`'s record to ring `r`: WR and the channel's sequence number advance, or the ring is
disabled (R359, R360). -/
def ringRecorded (c r : Nat) : Option Nat × State → State
  | (none, t) =>
    (t.set (F.GUST_RING_WR_wr r) ((t.get (F.GUST_RING_WR_wr r) + 1) % t.gringEntries r)).set (F.GUST_CH_SEQ_seq c)
      (t.get (F.GUST_CH_SEQ_seq c) + 1)
  | (some _, t) =>
    ((t.set (F.GUST_RING_SIZE_en r) 0).set (F.GUST_RING_STAT_err r) 1).post (64 + c) 0x462 gustLoc (w32 (c * 2 ^ 16 + r))

/-- The record is written whole to the ring, or the ring is disabled (R359, R360). -/
def State.recordWrite (s : State) (c : Nat) (words : List W32) : State :=
  ringRecorded c (s.chRing c) (s.gustWrite 48 (s.recordAddr (s.chRing c)) (words.flatMap (fun w => leBytes 4 w.toNat)))

/-- A general channel reports: it writes its record, or waits for a full ring (R359). -/
def State.chReport (s : State) (c : Nat) (words : List W32) (next : Nat) (irq : Bool) : State :=
  if s.gringFull (s.chRing c) then
    let t := (s.setChan c { s.chan c with wait := .ring words next irq }).set (F.GUST_CH_STAT_state c) 2
    (t.bump (F.GUST_RING_STAT_waits (s.chRing c))).post (64 + c) 0x461 gustLoc (w32 (c * 2 ^ 16 + s.chRing c))
  else (s.recordWrite c words).chEnds c next irq

/-- Word 0 of a record. -/
def State.recordHead (s : State) (c status : Nat) : W32 := w32 (status * 2 ^ 24 + c * 2 ^ 16 + s.get (F.GUST_CH_SEQ_seq c))

/-- The channel stops with a status other than done: its status, its record and interrupt request, and GUST_STOP for the
statuses 2 to 8 (R358, R362, R364). `fa` is the fault address, 0 where none applies. -/
def State.chStop (s : State) (c status fa : Nat) : State :=
  let t := (s.set (F.GUST_CH_STAT_status c) status).chFault c fa
  let i := t.get (F.GUST_CH_STAT_index c)
  let u := if 2 ≤ status then t.post (if isEventChannel c then 63 else 64 + c) 0x460 gustLoc (w32 (status * 2 ^ 24 + c * 2 ^ 16 + i)) else t
  if isEventChannel c then u.chEnds c 5 false
  else u.chReport c [u.recordHead c status, w32 (i * 2 ^ 16 + u.get (F.GUST_CH_LRES_lines c)),
    w32 (fa / 2 ^ 32 % 256 * 2 ^ 24 + u.get (F.GUST_CH_RES_bytes c)), w32 fa] 5 true

/-- RING_SPACE: a channel that waited on a full ring writes its record when space appears (R359). -/
def State.ringSpace (s : State) (c : Nat) : State :=
  match (s.chan c).wait with
  | .ring words next irq =>
    if s.chState c == 2 && !s.gringFull (s.chRing c) then (s.recordWrite c words).chEnds c next irq else s
  | _ => s

def execRingSpace (c : Fin 40) (s : State) : Host.Outcome State Fault Refusal := .next (s.ringSpace c.val)

/-! ### Commands (R343, R344, R362, R363) -/

/-- A channel as it starts or is disabled: only what it has issued in the current rate window stays (R344, R361, R363). -/
def State.chFresh (s : State) (c : Nat) : State := s.setChan c { window := (s.chan c).window }

/-- The program starts: offsets, loop counters and CRC clear (R344); BYTES, undefined after a disable, counts from here
(R363). -/
def State.chGo (s : State) (c : Nat) : State :=
  let t := (s.chFresh c).wr (R.GUST_CH_CRC c) (w32 (chV 0xFFFFFFFF))
  let u := if s.chState c = 0 then t.wr (R.GUST_CH_BYTES c) 0 else t
  (((u.set (F.GUST_CH_STAT_state c) 1).set (F.GUST_CH_STAT_index c) 0).chResidue c 0 0).chFault c 0

/-- go is refused (R344, R352). -/
def State.goRefused (s : State) (c : Nat) : Bool :=
  !(s.chState c == 0 || s.chState c == 4 || s.chState c == 5) || s.get (F.GUST_CH_CFG_class c) == 3 ||
    (!isEventChannel c && !s.flag (F.GUST_RING_SIZE_en (s.chRing c)))

/-- disable: the channel is IDLE; RES, FADDR, CRC and BYTES hold undefined values until the next go (R363). -/
def State.chDisable (s : State) (c : Nat) : State :=
  let n := s.freeCount
  let t := ((({ s with freeCount := n + 5 }.chFresh c).set (F.GUST_CH_STAT_state c) 0).wr (R.GUST_CH_RES c)
    (Config.freeWord n &&& 0xFFFFFF)).wr (R.GUST_CH_CRC c) (Config.freeWord (n + 1))
  ((t.wr (R.GUST_CH_FADDRL c) (Config.freeWord (n + 2))).wr (R.GUST_CH_FADDRH c) (Config.freeWord (n + 3) &&& 0xFF)).wr
    (R.GUST_CH_BYTES c) (Config.freeWord (n + 4))

/-- A write of GUST_CHc_CTL acts as its strongest command (R344). -/
def State.gustCtl (s : State) (c : Nat) (v : W32) : State :=
  let t := s.plainWrite (R.GUST_CH_CTL c) v
  if bitsOf v 29 29 = 1 then t.chDisable c
  else if bitsOf v 30 30 = 1 then
    if s.chState c == 1 || s.chState c == 2 then t.set (F.GUST_CH_STAT_state c) 3 else t
  else if bitsOf v 31 31 = 1 then
    if s.goRefused c then t.set (F.GUST_CH_CTL_err c) 1 else t.chGo c
  else t

/-- A write of a channel register by a master (R343): an event channel's are written by the privileged masters only; CFG,
PROGL and PROGH hold still while the channel runs (R344). -/
def State.gustWriteReg (s : State) (m : Master) (c a : Nat) (v : W32) : State :=
  if isEventChannel c && !gustPrivileged m then s.set F.GUST_GSTAT_priv_err 1
  else if a = R.GUST_CH_CTL c then s.gustCtl c v
  else if s.chState c == 1 || s.chState c == 2 || s.chState c == 3 then s.set (F.GUST_CH_CTL_err c) 1
  else s.plainWrite a v

def execGustGo (m : Master) (c : Fin 40) (value : W32) (s : State) : Host.Outcome State Fault Refusal :=
  .next (s.gustWriteReg m c.val (R.GUST_CH_CTL c.val) (putBits value 31 31 1))
def execGustAbort (m : Master) (c : Fin 40) (value : W32) (s : State) : Host.Outcome State Fault Refusal :=
  .next (s.gustWriteReg m c.val (R.GUST_CH_CTL c.val) (putBits value 30 30 1))
def execGustDisable (m : Master) (c : Fin 40) (value : W32) (s : State) : Host.Outcome State Fault Refusal :=
  .next (s.gustWriteReg m c.val (R.GUST_CH_CTL c.val) (putBits value 29 29 1))

/-- GUST_ABORT_DONE: every issued burst has returned; the residue stands and the channel stops as aborted (R362). -/
def execGustAbortDone (c : Fin 40) (s : State) : Host.Outcome State Fault Refusal :=
  .next (if s.chState c.val = 3 then (s.chStop c.val 1 0) else s)

/-- A write of GUST_RINGr_SIZE: enabling sets WR to RD (R365). -/
def State.gringWrite (s : State) (r : Nat) (v : W32) : State :=
  let t := s.plainWrite (R.GUST_RING_SIZE r) v
  if bitsOf v 31 31 == 1 && !s.flag (F.GUST_RING_SIZE_en r) then t.set (F.GUST_RING_WR_wr r) (s.get (F.GUST_RING_RD_rd r)) else t

/-! ### Instructions (R345, R346, R347) -/

/-- A fetched instruction, by word. -/
abbrev GInstr := List W32

def GInstr.w (g : GInstr) (k : Nat) : W32 := g.getD k 0
def GInstr.op (g : GInstr) : Nat := bitsOf (g.w 0) 7 0
def GInstr.fl (g : GInstr) (b : Nat) : Bool := bitsOf (g.w 0) b b == 1

/-- Words from `k` up are 0. -/
def GInstr.zeroFrom (g : GInstr) (k : Nat) : Bool := (g.drop k).all (fun w => w == 0)

/-- Flag bits an opcode lists (R345). -/
def gustFlags (op : Nat) : W32 :=
  match op with
  | 1 => 0x00100000 | 2 => 0x00010000 | 3 => 0x00030000 | 4 => 0x00030000 | 5 => 0x00100000 | 6 => 0x00110000
  | 7 => 0x00170000 | 15 => 0x00010000 | _ => 0

/-- The instruction is permitted for the class and kind of channel (R345, R352). -/
def gustAllowed (op cls : Nat) : Bool :=
  match op with
  | 1 => cls == 0 || cls == 2
  | 5 => cls == 1
  | 6 => cls == 1
  | 7 => cls == 2
  | 2 => true | 3 => true | 4 => true | 15 => true
  | _ => false

/-- The fields that the tables give as 0 (R346). -/
def GInstr.zeros (g : GInstr) : Bool :=
  match g.op with
  | 1 => bitsOf (g.w 4) 15 8 == 0 && g.zeroFrom 7
  | 5 => bitsOf (g.w 2) 7 0 == 0 && bitsOf (g.w 4) 15 8 == 0 && g.w 5 == 0 && g.zeroFrom 7
  | 6 => bitsOf (g.w 4) 15 8 == 0 && g.zeroFrom 7 && (!g.fl 16 || (bitsOf (g.w 2) 7 0 == 0 && g.w 5 == 0))
  | 7 => bitsOf (g.w 2) 31 8 == 0 && bitsOf (g.w 4) 31 8 == 0 && g.zeroFrom 5
  | 2 => bitsOf (g.w 1) 31 16 == 0 && g.zeroFrom 5
  | 3 => bitsOf (g.w 1) 31 8 == 0 && g.zeroFrom 3
  | 4 => bitsOf (g.w 1) 31 8 == 0 && g.zeroFrom 2
  | _ => g.zeroFrom 2

/-- Signed instruction offset of a LOOP. -/
def GInstr.target (g : GInstr) : Int := signedOf 16 (bitsOf (g.w 1) 15 0)

/-- Source and destination of a memory instruction, with the offset registers when rel = 1 (R348). -/
def GInstr.src (g : GInstr) (x : Chan) : Nat :=
  ((g.w 1).toNat + bitsOf (g.w 2) 7 0 * 2 ^ 32 + (if g.fl 20 then x.os.toNat else 0)) % 2 ^ 40
def GInstr.dst (g : GInstr) (x : Chan) : Nat :=
  ((g.w 3).toNat + bitsOf (g.w 4) 7 0 * 2 ^ 32 + (if g.fl 20 then x.od.toNat else 0)) % 2 ^ 40

/-- The instruction is in error for a channel (R347). -/
def GInstr.bad (g : GInstr) (cls : Nat) (event : Bool) (x : Chan) : Bool :=
  !gustAllowed g.op cls || (g.w 0 &&& ~~~(gustFlags g.op ||| 0xFF)) != 0 || !g.zeros ||
  (match g.op with
    | 1 => bitsOf (g.w 4) 31 16 == 0
    | 5 => bitsOf (g.w 4) 31 16 == 0
    | 6 => bitsOf (g.w 4) 31 16 == 0
    | 7 => (g.fl 16 && g.src x % 4 != 0) || (g.fl 17 && g.dst x % 4 != 0)
    | 2 => g.w 2 == 0 || decide (0 ≤ g.target)
    | 4 => bitsOf (g.w 0) 17 16 == 3 || (bitsOf (g.w 0) 17 16 == 2 && !event)
    | _ => false)

/-- Fabric address of a channel's current instruction (R345). -/
def State.fetchAddr (s : State) (c : Nat) : Nat :=
  unsignedOf 40 (((s.rd (R.GUST_CH_PROGH c)).toNat * 2 ^ 32 + (s.rd (R.GUST_CH_PROGL c)).toNat : Nat) + 32 * (s.chan c).idx)

/-- The channel has fetched its instruction and decodes it: one in error stops the channel, and the one named is acted on
(R347). -/
def State.gustDecode (s : State) (c op : Nat) (g : GInstr) (act : GInstr → State → State) : State :=
  if g.bad (s.get (F.GUST_CH_CFG_class c)) (isEventChannel c) (s.chan c) then s.chStop c 8 0
  else if g.op = op then act g (s.setChan c { s.chan c with cur := g })
  else s

/-- A channel in RUN fetches its current instruction, unless it is in one already, and if that is the one named acts on it;
a fetch that fails stops the channel (R345, R350). -/
def State.gustStep (s : State) (c op : Nat) (act : GInstr → State → State) : State :=
  if s.chState c != 1 then s
  else match (s.chan c).cur with
    | w :: ws => if GInstr.op (w :: ws) = op then act (w :: ws) s else s
    | [] => match s.gustRead (chMaster c) (s.fetchAddr c) 32 with
      | ((none, st, fa), t) => t.chStop c st fa
      | ((some bs, _, _), t) => if GInstr.op (wordsOf bs) = op || GInstr.bad (wordsOf bs) (s.get (F.GUST_CH_CFG_class c))
          (isEventChannel c) (s.chan c) then t.gustDecode c op (wordsOf bs) act else s

/-- The instruction is done: the next one follows. -/
def State.chNext (s : State) (c : Nat) : State := (s.chResidue c 0 0).chAdvance c ((s.chan c).idx + 1)

/-! ### Memory instructions (R348 to R354, R361) -/

def GInstr.len (g : GInstr) : Nat := bitsOf (g.w 2) 31 8 + 1
def GInstr.lines (g : GInstr) : Nat := bitsOf (g.w 4) 31 16

/-- Address of byte `off` of line `k` from a base with a stride, modulo 2^40. -/
def lineAddr (base : Nat) (stride : W32) (k off : Nat) : Nat := unsignedOf 40 (base + stride.toInt * k + off)

/-- An address is a source byte of the MOVE. -/
def isSource (g : GInstr) (x : Chan) (a : Nat) : Bool :=
  (List.range g.lines).any (fun k => decide (unsignedOf 40 ((a : Int) - lineAddr (g.src x) (g.w 5) k 0) < g.len))

/-- A source byte as the MOVE reads it: one that the MOVE has overwritten is its original or its new value, a free choice
(R348). -/
def pickByte (orig : Tab W8) (a : Nat) (now : W8) (choice : Nat) : W8 :=
  match tabFind orig a with
  | some o => if choice % 2 = 0 then o else now
  | none => now

/-- Original values of source bytes about to be overwritten. -/
def State.keepOrig (s : State) (g : GInstr) (x : Chan) (d n : Nat) : Tab W8 :=
  (List.range n).foldl (fun o i =>
    if isSource g x (d + i) && (tabFind o (d + i)).isNone then tabPut o (d + i) (s.rdByte (d + i)) else o) x.orig

/-- The pattern byte of an address (R353). -/
def patternByte (p : W32) (a : Nat) : W8 := BitVec.ofNat 8 (p.toNat / 256 ^ (a % 4))

/-- The next destination burst of the current line: its address and length. -/
def GInstr.nextBurst (g : GInstr) (x : Chan) : Nat × Nat :=
  let d := lineAddr (g.dst x) (g.w 6) x.line x.off
  (d, min (g.len - x.off) (burstLen d - d % burstLen d))

/-- The bytes a MOVE copies, or a CMP without pattern compares with, for a burst. -/
def State.sourceBytes (s : State) (c : Nat) (g : GInstr) (n : Nat) : (Option (List W8) × Nat × Nat) × State :=
  let x := s.chan c
  let a := lineAddr (g.src x) (g.w 5) x.line x.off
  match s.gustRead (chMaster c) a n with
  | ((some bs, _, _), t) =>
    ((some (bs.zipIdx.map (fun e => pickByte x.orig (a + e.2) e.1 (Config.freeNat (t.freeCount + e.2)))), 0, 0),
      { t with freeCount := t.freeCount + n })
  | r => r

/-- `n` bytes of the current line are done. -/
def State.lineDone (s : State) (c : Nat) (g : GInstr) (n : Nat) : State :=
  let x := s.chan c
  let off := x.off + n
  let y := { x with window := x.window + n, line := if off = g.len then x.line + 1 else x.line, off := if off = g.len then 0 else off }
  (s.setChan c y).chResidue c (g.len - y.off) (g.lines - y.line)

/-- Bytes written by the run and since the last read of GUST_CHc_BYTES. -/
def State.bytesWritten (s : State) (c n : Nat) : State :=
  (s.setChan c { s.chan c with wrote := (s.chan c).wrote + n }).bumpBy (F.GUST_CH_BYTES_count c) n

/-- A burst's bytes are written and accounted. -/
def State.putBurst (s : State) (c : Nat) (g : GInstr) (d : Nat) (bs : List W8) : Option (Nat × Nat) × State :=
  match s.gustWrite (chMaster c) d bs with
  | (some st, t) => (some (st, d), t)
  | (none, t) => (none, (t.bytesWritten c bs.length).lineDone c g bs.length)

/-- One burst of a MOVE: read, shifted and written; in the ingest class its source bytes enter the running CRC (R349,
R354). -/
def State.moveBurst (s : State) (c : Nat) (g : GInstr) : Option (Nat × Nat) × State :=
  let (d, n) := g.nextBurst (s.chan c)
  match s.sourceBytes c g n with
  | ((none, st, fa), t) => (some (st, fa), t)
  | ((some bs, _, _), t) =>
    let u := t.setChan c { t.chan c with orig := t.keepOrig g (t.chan c) d n }
    match u.putBurst c g d bs with
    | (some e, v) => (some e, v)
    | (none, v) => (none, if v.get (F.GUST_CH_CFG_class c) = 2 then v.chCrc c (bs.foldl crc32cByte (v.chan c).crc) else v)

/-- One burst of a FILL (R353). -/
def State.fillBurst (s : State) (c : Nat) (g : GInstr) : Option (Nat × Nat) × State :=
  let (d, n) := g.nextBurst (s.chan c)
  s.putBurst c g d ((List.range n).map (fun i => patternByte (g.w 1) (d + i)))

/-- One burst of a CMP; the first byte that differs stops the channel with status 5 at that byte (R353). -/
def State.cmpBurst (s : State) (c : Nat) (g : GInstr) : Option (Nat × Nat) × State :=
  let (d, n) := g.nextBurst (s.chan c)
  match s.gustRead (chMaster c) d n with
  | ((none, st, fa), t) => (some (st, fa), t)
  | ((some bs, _, _), t) =>
    let (r, u) := if g.fl 16 then ((some ((List.range n).map (fun i => patternByte (g.w 1) (d + i))), 0, 0), t) else t.sourceBytes c g n
    match r with
    | (none, st, fa) => (some (st, fa), u)
    | (some ps, _, _) =>
      match (bs.zip ps).findIdx? (fun e => e.1 != e.2) with
      | some i => (some (5, d + i), u.lineDone c g i)
      | none => (none, u.lineDone c g n)

/-- Bytes a channel may issue in a window; none without a limit (R361). -/
def State.windowLimit (s : State) (c : Nat) : Option Nat :=
  let sh := min 64 (s.get (F.GUST_CH_CFG_share c))
  if sh = 0 then none else some (sh * 1000)

/-- The rate limit lets the channel issue a burst. -/
def State.mayIssue (s : State) (c : Nat) : Bool :=
  match s.windowLimit c with
  | some n => decide ((s.chan c).window < n)
  | none => true

/-- Bursts are issued until the instruction ends, the rate window is used up, or one fails; `fuel` bounds them. -/
def gustBursts (c : Nat) (g : GInstr) (burst : State → Option (Nat × Nat) × State) : Nat → State → State
  | 0, s => s
  | fuel + 1, s =>
    if g.lines ≤ (s.chan c).line then s.chNext c
    else if s.mayIssue c then
      match burst s with
      | (some (st, fa), t) => t.chStop c st fa
      | (none, t) => gustBursts c g burst fuel t
    else s

/-- A memory instruction runs on from where it stands. -/
def State.gustMemory (s : State) (c : Nat) (g : GInstr) (burst : State → Option (Nat × Nat) × State) : State :=
  let x := s.chan c
  gustBursts c g burst (g.lines * g.len + 1) (s.chResidue c (g.len - x.off) (g.lines - x.line))

def execGustMove (c : Fin 40) (s : State) : Host.Outcome State Fault Refusal :=
  .next (s.gustStep c.val 1 (fun g t => t.gustMemory c.val g (fun u => u.moveBurst c.val g)))
def execGustFill (c : Fin 40) (s : State) : Host.Outcome State Fault Refusal :=
  .next (s.gustStep c.val 5 (fun g t => t.gustMemory c.val g (fun u => u.fillBurst c.val g)))
def execGustCmp (c : Fin 40) (s : State) : Host.Outcome State Fault Refusal :=
  .next (s.gustStep c.val 6 (fun g t => t.gustMemory c.val g (fun u => u.cmpBurst c.val g)))

/-- A burst of GUST_CRC has been issued: it counts in the rate window, and `off` says how far the instruction is (R361). -/
def State.crcIssued (s : State) (c off : Nat) : State :=
  s.setChan c { s.chan c with window := (s.chan c).window + 4, off := off }

/-- GUST_CRC ends: the CRC restarts unless it is kept (R354). -/
def State.crcDone (s : State) (c : Nat) (g : GInstr) : State := (if g.fl 18 then s else s.chCrc c 0xFFFFFFFF).chNext c

/-- The compare of GUST_CRC. -/
def State.crcCompare (s : State) (c : Nat) (g : GInstr) : State :=
  if !g.fl 16 then s.crcDone c g
  else if !s.mayIssue c then s
  else match s.gustRead (chMaster c) (g.src (s.chan c)) 4 with
    | ((none, st, fa), t) => t.chStop c st fa
    | ((some bs, _, _), t) =>
      let u := t.crcIssued c 8
      if leNat bs = chV (s.chan c).crc then u.crcDone c g else u.chStop c 6 (g.src (s.chan c))

/-- GUST_CRC: store, compare, restart (R354), each of the two bursts within the rate limit. -/
def State.gustCrc (s : State) (c : Nat) (g : GInstr) : State :=
  if g.fl 17 && (s.chan c).off == 0 then
    if !s.mayIssue c then s
    else match s.gustWrite (chMaster c) (g.dst (s.chan c)) (leBytes 4 (chV (s.chan c).crc)) with
      | (some st, t) => t.chStop c st (g.dst (s.chan c))
      | (none, t) => ((t.bytesWritten c 4).crcIssued c 4).crcCompare c g
  else s.crcCompare c g

def execGustCrc (c : Fin 40) (s : State) : Host.Outcome State Fault Refusal := .next (s.gustStep c.val 7 (fun g t => t.gustCrc c.val g))

/-! ### Loops, waits, signals and the end (R355 to R358) -/

/-- The counter of a LOOP, and the channel with it replaced. -/
def Chan.loopOf (x : Chan) (k : Bool) : Option (Nat × Int) := if k then x.loop1 else x.loop0
def Chan.setLoop (x : Chan) (k : Bool) (v : Option (Nat × Int)) : Chan := if k then { x with loop1 := v } else { x with loop0 := v }

/-- GUST_LOOP (R355). -/
def State.gustLoop (s : State) (c : Nat) (g : GInstr) : State :=
  let x := s.chan c
  let k := g.fl 16
  let n := (g.w 2).toNat
  let incS := (g.w 3).toInt
  let incD := (g.w 4).toInt
  let start : Option Nat := match x.loopOf k with
    | none => some (n - 1)
    | some (cnt, own) => if own = x.idx then some cnt else none
  match start with
  | none => s.chStop c 8 0
  | some cnt =>
    if 0 < cnt then
      (s.setChan c { x.setLoop k (some (cnt - 1, x.idx)) with os := x.os + BitVec.ofInt 40 incS, od := x.od + BitVec.ofInt 40 incD }).chAdvance c
        (x.idx + g.target)
    else
      (s.setChan c { x.setLoop k none with os := x.os - BitVec.ofInt 40 ((n - 1 : Nat) * incS),
                                           od := x.od - BitVec.ofInt 40 ((n - 1 : Nat) * incD) }).chAdvance c (x.idx + 1)

def execGustLoop (c : Fin 40) (s : State) : Host.Outcome State Fault Refusal := .next (s.gustStep c.val 2 (fun g t => t.gustLoop c.val g))

/-- The WAIT that a channel waits in ends because its signal is set (R81, R356). -/
def State.waitEnds (s : State) (c sig : Nat) (consume : Bool) : State :=
  if consume then
    if s.winner sig = some (64 + c) then (s.consume sig (64 + c)).chAdvance c ((s.chan c).idx + 1) else s
  else s.chAdvance c ((s.chan c).idx + 1)

/-- GUST_WAIT: the channel waits for a delay or a signal; a signal that is set already ends the wait at once (R356). -/
def State.gustWait (s : State) (c : Nat) (g : GInstr) : State :=
  let sig := bitsOf (g.w 1) 7 0
  let w := if g.fl 17 then ChWait.delay else .signal sig (g.fl 16) (g.w 2 != 0)
  let t := (s.setChan c { s.chan c with wait := w }).set (F.GUST_CH_STAT_state c) 2
  if !g.fl 17 && s.signal sig then t.waitEnds c sig (g.fl 16) else t

def execGustWait (c : Fin 40) (s : State) : Host.Outcome State Fault Refusal := .next (s.gustStep c.val 3 (fun g t => t.gustWait c.val g))

/-- GUST_WAIT_DONE: the awaited signal is set, or the delay ends (R356). -/
def State.gustWaitDone (s : State) (c : Nat) : State :=
  if s.chState c != 2 then s
  else match (s.chan c).wait with
    | .delay => s.chAdvance c ((s.chan c).idx + 1)
    | .signal sig consume _ => if s.signal sig then s.waitEnds c sig consume else s
    | _ => s

def execGustWaitDone (c : Fin 40) (s : State) : Host.Outcome State Fault Refusal := .next (s.gustWaitDone c.val)

/-- GUST_WAIT_TIMEOUT: the timeout of a signal WAIT expires first (R356). -/
def State.gustWaitTimeout (s : State) (c : Nat) : State :=
  if s.chState c != 2 then s
  else match (s.chan c).wait with
    | .signal _ _ true => s.chStop c 7 0
    | _ => s

def execGustWaitTimeout (c : Fin 40) (s : State) : Host.Outcome State Fault Refusal := .next (s.gustWaitTimeout c.val)

/-- A counting pulse leaves for an axis; an eighth before a handover is lost, counted and posted (R36, R357). -/
def State.capturePulse (s : State) (a : Nat) : State :=
  let k := tabGet 0 s.capPulses a
  if k < 7 then { s with capPulses := tabPut s.capPulses a (k + 1) }
  else
    let t := s.bump F.SYS_CDC_STAT_ovf_cnt
    t.post 63 0x4E2 (axisLoc a) (w32 (t.get F.SYS_CDC_STAT_ovf_cnt))

/-- GUST_SIGNAL: set, clear, or a pulse of an event channel (R357). -/
def State.gustSignal (s : State) (c : Nat) (g : GInstr) : State :=
  let n := bitsOf (g.w 1) 7 0
  let t := match bitsOf (g.w 0) 17 16 with
    | 0 => s.signalSet n
    | 1 => s.clearSignal n
    | _ => ((List.range 8).filter (natBit n)).foldl State.capturePulse (s.raiseIrq (64 + c))
  t.chNext c

def execGustSignal (c : Fin 40) (s : State) : Host.Outcome State Fault Refusal := .next (s.gustStep c.val 4 (fun g t => t.gustSignal c.val g))

/-- AXIS_CAPTURE_PULSE: the pulses pending for an axis arrive in D4 and capture its stamp and FT in that cycle (R357). An
axis without a valid position is captured with its held count and f = 0. -/
def State.axisCapture (s : State) (a : Nat) : State :=
  let k := tabGet 0 s.capPulses a
  if k = 0 then s
  else
    let p := if (s.axis a).valid then stampOf (s.axisPos a) else stampOf (countPos (s.axis a).a.count)
    ((({ s with capPulses := tabDel s.capPulses a }).wr (R.GUST_AXCAP a) p).wr (R.GUST_AXCAP_FT a) (w32 s.uptime)).bumpBy
      (F.GUST_AXCAP_CNT_v a) k

def execAxisCapturePulse (a : Fin 8) (s : State) : Host.Outcome State Fault Refusal := .next (s.axisCapture a.val)

/-- GUST_END: a general channel writes its record and is DONE; an event channel is DONE (R358). -/
def State.gustEnd (s : State) (c : Nat) (g : GInstr) : State :=
  let t := s.set (F.GUST_CH_STAT_status c) 0
  if isEventChannel c then t.chEnds c 4 false
  else t.chReport c [t.recordHead c 0, g.w 1, w32 (t.chan c).wrote,
    if t.get (F.GUST_CH_CFG_class c) = 2 then w32 (chV (t.chan c).crc) else 0] 4 (g.fl 16)

def execGustEnd (c : Fin 40) (s : State) : Host.Outcome State Fault Refusal := .next (s.gustStep c.val 15 (fun g t => t.gustEnd c.val g))

/-- GUST_RATE_WINDOW: a window of 1,000 D1 cycles ends (R361). -/
def execGustRateWindow (s : State) : Host.Outcome State Fault Refusal :=
  .next { s with chans := s.chans.map (fun e => (e.1, { e.2 with window := 0 })) }

end Sys2Proof.Machine
end

