-- ==== Sys2Proof/Machine/Net.lean ====
section
/-! DEFINITION. The Ethernet ports, the descriptor rings, the Glizen Stream Protocol, the PTP timebase and the events of
the host port (R366 to R380, R383 to R386). -/

namespace Sys2Proof.Machine

/-! ### Ports (R366, R367, R385, R453) -/

/-- Location of an event of a port (R385). -/
def ethLoc (port sub : Nat) : W64 := loc4 0x20 (4 * port + sub)

/-- Bit `b` of ETHn_STAT becomes set: its event is posted and the request raised under ETHn_IEN (R385). -/
def State.ethFlag (s : State) (port sub b detail : Nat) : State :=
  if s.bit (F.ETH_STAT_flags port) b then s
  else (s.setStatus (R.ETH_STAT port) (R.ETH_IEN port) b (104 + port)).post (104 + port) (0x480 + b) (ethLoc port sub) (w32 detail)

/-- The sub-port exists in the port's mode (R366). -/
def State.subExists (s : State) (port sub : Nat) : Bool :=
  let m := s.get (F.ETH_CFG_mode port)
  s.flag (F.ETH_CFG_en port) && (((m == 1 || m == 2) && sub == 0) || m == 3 || m == 4)

/-- A write of ETHn_CFG: one that changes mode, fec or an while en = 1 is ignored (R366). -/
def State.ethCfgWrite (s : State) (port : Nat) (v : W32) : State :=
  let keep : W32 := 0x07300000
  if s.flag (F.ETH_CFG_en port) && (v &&& keep) != (s.rd (R.ETH_CFG port) &&& keep) then s.ethFlag port 0 2 0
  else s.plainWrite (R.ETH_CFG port) v

/-- A write of the second word of a descriptor ring: enabling sets WR and RD to 0 (R386). -/
def State.ethRingWrite (s : State) (port : Nat) (tx : Bool) (v : W32) : State :=
  let a := if tx then R.ETH_TXRING port else R.ETH_RXRING port
  let was := bitsOf (s.rd a) 31 31 == 1
  let t := s.plainWrite a v
  if bitsOf v 31 31 == 1 && !was then
    (t.wr (if tx then R.ETH_TXWR port else R.ETH_RXWR port) 0).wr (if tx then R.ETH_TXRD port else R.ETH_RXRD port) 0
  else t

/-- Latencies of a mode, ingress and egress, in 0.1 ns (R453). -/
def State.tsLatency (s : State) (port : Nat) : Nat × Nat :=
  match s.get (F.ETH_CFG_mode port) with
  | 1 => (920, 385) | 2 => (920, 385) | 4 => (160, 125)
  | 3 => if s.flag (F.ETH_CFG_fec port) then (780, 330) else (145, 120)
  | _ => (s.get (F.ETH_TSADJ_ingress port), s.get (F.ETH_TSADJ_egress port))

/-- ETH_LINK_CHANGE: a sub-port link goes up, on a sub-port that exists, or down; at link-up ETHn_TSADJ takes the mode's latencies (R385, R453). -/
def State.ethLink (s : State) (port sub : Nat) (up : Bool) : State :=
  if s.bit (F.ETH_STAT_up port) sub == up || (up && !s.subExists port sub) then s
  else
    let t := s.setBit (F.ETH_STAT_up port) sub up
    let (i, e) := s.tsLatency port
    let u := if up then t.wr (R.ETH_TSADJ port) (w32 (e * 2 ^ 16 + i)) else t
    u.ethFlag port sub 0 (u.get (F.ETH_STAT_up port) * 16 + 2 ^ sub)

def execEthLinkChange (port : Fin 2) (sub : Fin 4) (up : Bool) (s : State) : Host.Outcome State Fault Refusal :=
  .next (s.ethLink port.val sub.val up)

/-! ### Frames (R367, R368) -/

/-- A big-endian field of a byte list. -/
def fieldBE (bs : List W8) (off n : Nat) : Nat := beNat ((bs.drop off).take n)

/-- The frame carries an IEEE 802.1Q tag. -/
def tagged (f : List W8) : Bool := fieldBE f 12 2 == 0x8100

/-- Offset of the network header, and its EtherType. -/
def l3Offset (f : List W8) : Nat := if tagged f then 18 else 14
def etherType (f : List W8) : Nat := fieldBE f (l3Offset f - 2) 2

/-- The MAC accepts the tag, or its absence (R367). -/
def State.vlanOk (s : State) (port : Nat) (f : List W8) : Bool :=
  if tagged f then s.flag (F.ETH_VLAN_en port) && fieldBE f 14 2 % 4096 == s.get (F.ETH_VLAN_vid port)
  else !s.flag (F.ETH_VLAN_en port)

/-- The MAC accepts the length: 64 bytes to mtu, FCS included (R367). -/
def State.lengthOk (s : State) (port : Nat) (f : List W8) : Bool :=
  decide (64 ≤ f.length + 4) && decide (f.length + 4 ≤ min 9216 (max 1518 (s.get (F.ETH_CFG_mtu port))))

/-- Sum of the big-endian halfwords of a byte list. -/
def halfSum : List W8 → Nat
  | a :: b :: t => a.toNat * 256 + b.toNat + halfSum t
  | [a] => a.toNat * 256
  | [] => 0

/-- A UDP datagram found in a frame: addresses as bytes, ports, offset of its header in the frame, payload, checksum field
and whether the checksum is right. -/
structure Udp where
  v6 : Bool
  src : List W8
  dst : List W8
  sport : Nat
  dport : Nat
  off : Nat
  payload : List W8
  csum : Nat
  sumOk : Bool
deriving DecidableEq, Repr

/-- The UDP datagram at an offset, between two addresses. -/
def udpAt (f : List W8) (v6 : Bool) (src dst : List W8) (off room : Nat) : Option Udp :=
  let len := fieldBE f (off + 4) 2
  if len < 8 || room < len || f.length < off + len then none
  else
    let seg := (f.drop off).take len
    some { v6 := v6, src := src, dst := dst, sport := fieldBE f off 2, dport := fieldBE f (off + 2) 2, off := off,
           payload := seg.drop 8, csum := fieldBE f (off + 6) 2,
           sumOk := (halfSum src + halfSum dst + 17 + len + halfSum seg) % 65535 == 0 }

/-- The UDP datagram of a frame: IPv4 without options or fragmentation, or IPv6 without extension headers (R368). -/
def udpOf (f : List W8) : Option Udp :=
  let o := l3Offset f
  if etherType f = 0x800 && fieldBE f o 1 == 0x45 && fieldBE f (o + 6) 2 % 0x4000 == 0 && fieldBE f (o + 9) 1 == 17 then
    udpAt f false ((f.drop (o + 12)).take 4) ((f.drop (o + 16)).take 4) (o + 20) (fieldBE f (o + 2) 2 - 20)
  else if etherType f = 0x86DD && fieldBE f o 1 / 16 == 6 && fieldBE f (o + 6) 1 == 17 then
    udpAt f true ((f.drop (o + 8)).take 16) ((f.drop (o + 24)).take 16) (o + 40) (fieldBE f (o + 4) 2)
  else none

/-- The sub-port's addresses, in transmission order (R386). -/
def State.macOf (s : State) (port sub : Nat) : List W8 :=
  leBytes 4 (s.get (F.ETH_MACLO_mac_lo port sub)) ++ leBytes 2 (s.get (F.ETH_MACHI_mac_hi port sub))
def State.ipOf (s : State) (port sub : Nat) (v6 : Bool) : List W8 :=
  if v6 then
    leBytes 4 (s.get (F.ETH_IP6W0_ip6 port sub)) ++ leBytes 4 (s.get (F.ETH_IP6W1_ip6 port sub)) ++
      leBytes 4 (s.get (F.ETH_IP6W2_ip6 port sub)) ++ leBytes 4 (s.get (F.ETH_IP6W3_ip6 port sub))
  else leBytes 4 (s.get (F.ETH_IP4_ip4 port sub))

/-- The datagram is a GSP packet for the sub-port, whatever its checksum and type (R368, R374). -/
def State.gspOf (s : State) (port sub : Nat) (f : List W8) : Option Udp :=
  match udpOf f with
  | none => none
  | some u =>
    if s.flag F.ETH_GSPCFG_en && f.take 6 == s.macOf port sub && u.dst == s.ipOf port sub u.v6 &&
      u.dport == s.get F.ETH_GSPCFG_port && decide (32 ≤ u.payload.length) && fieldLE u.payload 0 1 == 1 then some u
    else none

/-- The checksum is right, or 0 under IPv4 (R368). -/
def Udp.sumFine (u : Udp) : Bool := if u.csum = 0 then !u.v6 else u.sumOk

/-- The packet of a datagram (R374). -/
def packetOf (port sub : Nat) (u : Udp) : GspPkt :=
  let p := u.payload
  { port := port, sub := sub, srcIp := u.src, srcPort := u.sport, stream := fieldLE p 2 2, seq := w32 (fieldLE p 4 4),
    plane := fieldLE p 8 2, format := fieldLE p 10 1, flags := fieldLE p 11 1, line := fieldLE p 12 4,
    offset := fieldLE p 16 4, length := fieldLE p 20 4, crc := fieldLE p 24 4, payload := p.drop 32 }

/-- The frame is a PTP event message: over Ethernet, or to UDP port 319. -/
def ptpEvent (f : List W8) : Bool :=
  (etherType f == 0x88F7 && decide (fieldBE f (l3Offset f) 1 % 16 < 4)) ||
    match udpOf f with
    | some u => u.dport == 319
    | none => false

/-- Class bits [20:16] of a receive descriptor (R369). -/
def State.rxClass (s : State) (port sub : Nat) (f : List W8) : Nat :=
  let gsp := match s.gspOf port sub f with
    | some u => if u.sumFine then
        match fieldLE u.payload 1 1 with
        | 2 => 1 | 5 => 2 | 6 => 4 | _ => 0
      else 0
    | none => 0
  gsp + (if ptpEvent f then 8 else 0)

/-! ### Timestamps (R372) -/

/-- A PTP time in tenths of a nanosecond as seconds and nanoseconds; the rounding is not stated. -/
def State.stampParts (s : State) (tenths : Int) : Nat × Nat :=
  let ns := (s.roundedFree tenths 10).toNat
  (ns / 10 ^ 9, ns % 10 ^ 9)

/-! ### Descriptor rings (R369) -/

/-- Address of a descriptor, and entries of a ring. -/
def State.descAddr (s : State) (base ring : W32) (i : Nat) : Nat := bitsOf ring 7 0 * 2 ^ 32 + (base &&& 0xFFFFFFE0).toNat + 32 * i
def ringSize (ring : W32) : Nat := 2 ^ (min (bitsOf ring 19 16) 12 + 4)

/-- Buffer address of a descriptor. -/
def bufferOf (d : List W8) : Nat := fieldLE d 0 5

/-- Checked bursts of region master 50 are written in ascending order; none where one is refused before any is issued. -/
def State.steerWrite (s : State) (a : Nat) (bs : List W8) : Option State × State :=
  match s.firstRefused 50 .write (bursts a bs.length (bs.length + 1)) with
  | some (_, _, t) => (none, t)
  | none => match s.mergeWrite 50 a bs with
    | (some t, _) => (some t, t)
    | (none, t) => (none, t)

/-- A frame for the receive ring is dropped. -/
def State.rxDrop (s : State) (port : Nat) : State := s.bump (F.ETH_RXDROP_count port)

/-- The descriptor's words 2 to 5 have been written, or not: WR advances, or the frame is dropped (R369). -/
def rxWords (port wr n : Nat) : Option State × State → State
  | (some v, _) => v.set (F.ETH_RXWR_wr port) ((wr + 1) % n)
  | (none, v) => v.rxDrop port

/-- The buffer has been written, or not: words 2 to 5 of the descriptor at `d` follow (R369). -/
def rxBuffer (port wr n d : Nat) (words : List W8) : Option State × State → State
  | (some u, _) => rxWords port wr n (u.steerWrite (d + 8) words)
  | (none, u) => u.rxDrop port

/-- Bytes of words 2 to 5 of a received frame's descriptor (R369, R372). -/
def State.rxStamp (s : State) (port sub cls len tenths : Nat) : List W8 :=
  let (sec, ns) := s.stampParts ((tenths : Int) - s.getInt (F.ETH_TSADJ_ingress port))
  leBytes 4 (2 ^ 31 + sub * 2 ^ 21 + cls * 2 ^ 16 + len % 2 ^ 16) ++ leBytes 4 ns ++ leBytes 4 sec ++
    leBytes 4 (s.get F.PTP_STAT_stat * 2 ^ 31 + sec / 2 ^ 32 % 2 ^ 16)

/-- The descriptor has been read, or not: the frame goes into its buffer (R369). -/
def rxDescribed (port sub cls wr n d tenths : Nat) (f : List W8) : (Option (List W8) × Nat × Nat) × State → State
  | ((some desc, _, _), t) => rxBuffer port wr n d (t.rxStamp port sub cls f.length tenths) (t.drawn.steerWrite (bufferOf desc) f)
  | ((none, _, _), t) => t.rxDrop port

/-- A frame is stored in the buffer of descriptor WR, words 2 to 5 are written and WR advances (R369). A frame whose
descriptor or buffer cannot be accessed is dropped. -/
def State.rxStore (s : State) (port sub : Nat) (f : List W8) (tenths : Nat) : State :=
  let ring := s.rd (R.ETH_RXRING port)
  let wr := s.get (F.ETH_RXWR_wr port)
  let n := ringSize ring
  let d := s.descAddr (s.rd (R.ETH_RXBASE port)) ring wr
  if bitsOf ring 31 31 = 0 then s.rxDrop port
  else if (wr + n - s.get (F.ETH_RXRD_rd port) % n) % n = n - 1 then (s.rxDrop port).ethFlag port sub 1 sub
  else rxDescribed port sub (s.rxClass port sub f) wr n d tenths f (s.gustRead 50 d 32)

/-- The frame is an ICMPv6 neighbour solicitation for an address. -/
def solicits (f ip : List W8) : Bool :=
  let o := l3Offset f
  etherType f == 0x86DD && fieldBE f (o + 6) 1 == 58 && fieldBE f (o + 40) 1 == 135 && (f.drop (o + 48)).take 16 == ip

/-- While the boot ROM waits on ETH0 it answers neighbour solicitations for its address (R396). -/
def State.bootAnswers (s : State) (port : Nat) (f : List W8) : Option State :=
  if s.get F.SYS_BOOTSTAT_phase == 1 && s.get F.SYS_BOOTSTAT_straps / 8 == 1 && port == 0 && solicits f (s.ipOf 0 0 true) then
    some { s.bump (F.ETH_TXFRM_count 0) with wire := .advertise ((f.drop (l3Offset f + 8)).take 16) :: s.wire }
  else none

/-- A Clause 31 PAUSE or a PFC frame: MAC control, untagged, with opcode 0x0001 or 0x0101 (R367). -/
def pauseFrame (f : List W8) : Bool := fieldBE f 12 2 == 0x8808 && (fieldBE f 14 2 == 1 || fieldBE f 14 2 == 0x101)

/-- FRAME_RECEIVE: a frame without its FCS, whether its FCS is right, and its PTP time in tenths of a nanosecond before
ETHn_TSADJ (R367, R368, R372). -/
def State.frameReceive (s : State) (port sub : Nat) (f : List W8) (fcsOk : Bool) (tenths : Nat) : State :=
  if !s.subExists port sub then s
  else if !fcsOk || !s.lengthOk port f then s.bump (F.ETH_RXBAD_count port)
  else if pauseFrame f then s.bump (F.ETH_PAUSE_count port)
  else if !s.vlanOk port f then s.bump (F.ETH_RXBAD_count port)
  else
    let t := s.bump (F.ETH_RXFRM_count port)
    match s.gspOf port sub f with
    | some u =>
      if fieldLE u.payload 1 1 = 1 then
        if u.sumFine then { t with steer := t.steer ++ [packetOf port sub u] } else t.bump (F.ETH_RXBAD_count port)
      else t.rxStore port sub f tenths
    | none => (t.bootAnswers port f).getD (t.rxStore port sub f tenths)

def execFrameReceive (port : Fin 2) (sub : Fin 4) (frame : List W8) (fcsOk : Bool) (stamp : Nat) (s : State) :
    Host.Outcome State Fault Refusal := .next (s.frameReceive port.val sub.val frame fcsOk stamp)

/-- Bytes replaced within a list. -/
def splice (f : List W8) (off : Nat) (bs : List W8) : List W8 := f.take off ++ bs ++ f.drop (off + bs.length)

/-- The UDP checksum of a frame computed anew (R369, R372). -/
def recomputeSum (f : List W8) : List W8 :=
  match udpOf f with
  | none => f
  | some u =>
    let z := splice f (u.off + 6) [0, 0]
    let len := u.payload.length + 8
    let m := (halfSum u.src + halfSum u.dst + 17 + len + halfSum ((z.drop u.off).take len)) % 65535
    splice f (u.off + 6) (beBytes 2 (if m = 0 then 0xFFFF else 65535 - m))

/-- PCP and VID of the tag that every sent frame carries exactly when ETHn_VLAN.en = 1 (R367). -/
def State.sentTag (s : State) (port : Nat) : Option Nat :=
  if s.flag (F.ETH_VLAN_en port) then some (s.get (F.ETH_VLAN_pcp port) * 2 ^ 13 + s.get (F.ETH_VLAN_vid port)) else none

/-- The frame with its tag. -/
def State.tagFrame (s : State) (port : Nat) (f : List W8) : List W8 :=
  match s.sentTag port with
  | some t => f.take 12 ++ beBytes 2 0x8100 ++ beBytes 2 t ++ f.drop 12
  | none => f

/-- The frame as it leaves: the one-step timestamp, the checksum and the tag (R369, R372). -/
def State.outFrame (s : State) (port : Nat) (w2 off sec ns : Nat) (f : List W8) : List W8 :=
  let g := if natBit w2 17 then splice f off (beBytes 6 sec ++ beBytes 4 ns) else f
  s.tagFrame port (if natBit w2 17 && natBit w2 18 then recomputeSum g else g)

/-- FRAME_TRANSMIT: the frame of descriptor RD leaves; words 2 to 5 are written back and RD advances (R369). A descriptor
or buffer that cannot be read, or a sub-port that does not exist (R366), sends nothing. -/
def State.frameTransmit (s : State) (port : Nat) (tenths : Nat) : State :=
  let ring := s.rd (R.ETH_TXRING port)
  let rdx := s.get (F.ETH_TXRD_rd port)
  if !s.flag (F.ETH_CFG_en port) || bitsOf ring 31 31 = 0 || rdx = s.get (F.ETH_TXWR_wr port) then s
  else
    let d := s.descAddr (s.rd (R.ETH_TXBASE port)) ring rdx
    match s.gustRead 50 d 32 with
    | ((none, _, _), t) => t
    | ((some desc, _, _), t) =>
      let w2 := fieldLE desc 8 4
      if !t.subExists port (w2 / 2 ^ 21 % 4) then t
      else match t.firstRefused 50 .read (bursts (bufferOf desc) (w2 % 2 ^ 16) (w2 % 2 ^ 16 + 1)) with
      | some (_, _, u) => u
      | none => match t.dataRead 50 (bufferOf desc) (w2 % 2 ^ 16) with
        | (none, u) => u
        | (some f, u) =>
          let (sec, ns) := u.stampParts ((tenths : Int) + u.getInt (F.ETH_TSADJ_egress port))
          let out := u.outFrame port w2 (fieldLE desc 24 2) sec ns f
          let back := leBytes 4 (w2 % 2 ^ 31 + 2 ^ 31) ++
            (if natBit w2 16 || natBit w2 17 then
              leBytes 4 ns ++ leBytes 4 sec ++ leBytes 4 (u.get F.PTP_STAT_stat * 2 ^ 31 + sec / 2 ^ 32 % 2 ^ 16)
            else [])
          let v := ({ u.drawn with wire := .frame port (w2 / 2 ^ 21 % 4) out :: u.wire }.bump (F.ETH_TXFRM_count port))
          ((v.steerWrite (d + 8) back).2).set (F.ETH_TXRD_rd port) ((rdx + 1) % ringSize ring)

def execFrameTransmit (port : Fin 2) (stamp : Nat) (s : State) : Host.Outcome State Fault Refusal :=
  .next (s.frameTransmit port.val stamp)

/-! ### The steering stage (R375 to R378) -/

def State.stream (s : State) (k : Nat) : Stream := tabGet {} s.streams k
def State.setStream (s : State) (k : Nat) (x : Stream) : State := { s with streams := tabPut s.streams k x }

/-- D4 cycles in `us` microseconds, rounded up. -/
def cyclesOfUs (us : Nat) : Nat := (us * cyclesPerMs + 999) / 1000

/-- Sequence E and the last line of a stream; of a stream number above 63 the spec gives neither: free words. -/
def State.streamWords (s : State) (k : Nat) : W32 × W32 :=
  if k < 64 then (s.rd (R.GSP_EXP k), s.rd (R.GSP_DONE k)) else (Config.freeWord s.freeCount, Config.freeWord (s.freeCount + 1))

/-- An ACK or NACK leaves on the sub-port of the stream's last packet, to its sender (R377). -/
def State.gspReply (s : State) (k : Nat) (nack : Bool) (reason : Nat) : State :=
  let x := s.stream k
  let (e, line) := s.streamWords k
  { s.bump (F.ETH_TXFRM_count x.port) with
      freeCount := s.freeCount + 2, wire := .reply x.port x.sub (s.sentTag x.port) x.ip x.udp nack reason k e line :: s.wire }

/-- An ACK is sent. -/
def State.gspAck (s : State) (k : Nat) : State := (s.gspReply k false 0).setStream k { s.stream k with placed := 0 }

/-- A refusal with a reason: counted, posted at most once per stream per millisecond, and answered by a NACK at most once
per nack_us (R377, R385). -/
def State.gspRefuse (s : State) (p : GspPkt) (reason : Nat) : State :=
  let k := p.stream
  let t := s.bump (F.ETH_GSPREF_count p.port)
  let quiet := match (t.stream k).lastRefused with
    | some w => decide (t.uptime < w + cyclesPerMs)
    | none => false
  let u := if quiet then t else
    (t.setStream k { t.stream k with lastRefused := some t.uptime }).post 104 0x488 (loc4 0x20 0x08) (w32 (k % 256 * 2 ^ 16 + reason))
  let held := match (u.stream k).lastNack with
    | some w => decide (u.uptime < w + cyclesOfUs (u.get F.ETH_GSPTIM_nack_us))
    | none => false
  if held then u.bump (F.ETH_NACKSUP_count p.port)
  else (u.gspReply k true reason).setStream k { u.stream k with lastNack := some u.uptime }

/-- Target address of a packet (R375). -/
def State.gspTarget (s : State) (p : GspPkt) : Nat :=
  let k := p.stream
  (s.get (F.GSP_BASEH_base_hi k) * 2 ^ 32 + s.get (F.GSP_BASEL_base k) +
    p.line % s.get (F.GSP_GEOM_lines k) * s.get (F.GSP_STRIDE_stride k) + p.offset) % 2 ^ 40

/-- A placed packet is written in bursts; a partial word that reads uncorrectable is not merged (R321, R375). -/
def steerBursts : List (Nat × Nat) → List W8 → State → State
  | [], _, s => s
  | (a, k) :: rest, bs, s => steerBursts rest (bs.drop k) (match s.mergeWrite 50 a (bs.take k) with
      | (some t, _) => t
      | (none, t) => t)

/-- A packet is placed: E advances, and the ACK counter with it (R377, R378). -/
def State.gspPlaced (s : State) (p : GspPkt) : State :=
  let k := p.stream
  let t := (s.wr (R.GSP_EXP k) (p.seq + 1)).bump (F.ETH_GSPOK_count p.port)
  let x := t.stream k
  let n := x.placed + 1
  let u := t.setStream k { x with placed := n, bands := if natBit p.flags 0 then x.bands ++ [p.line] else x.bands }
  if max 1 (s.get F.ETH_GSPCFG_ack_every) ≤ n then u.gspAck k else u

/-- The first three refusals of R375 in their order. -/
def State.gspEarlyRefusal (s : State) (p : GspPkt) : Option Nat :=
  let k := p.stream
  if 64 ≤ k || !s.flag (F.GSP_CFG_en k) || !s.bit (F.GSP_CFG_ports k) p.port then some 5
  else if p.format != s.get (F.GSP_CFG_format k) || p.plane != s.get (F.GSP_GEOM_plane k) ||
      decide (s.get (F.GSP_LEN_len k) < p.offset + p.length) then some 4
  else if p.length != p.payload.length || crc32c p.payload != p.crc then some 2
  else none

/-- One packet at the steering stage (R375, R377). -/
def State.gspSteer (s : State) (p : GspPkt) : State :=
  let k := p.stream
  let t := s.setStream k { s.stream k with port := p.port, sub := p.sub, ip := p.srcIp, udp := p.srcPort }
  match t.gspEarlyRefusal p with
  | some r => t.gspRefuse p r
  | none =>
    let ahead := (p.seq - t.rd (R.GSP_EXP k)).toInt
    if 0 < ahead then t.gspRefuse p 1
    else if ahead < 0 then (t.bump (F.ETH_GSPDUP_count p.port)).gspAck k
    else
      let bl := bursts (t.gspTarget p) p.payload.length (p.payload.length + 1)
      match t.firstRefused 50 .write bl with
      | some (_, _, u) => u.gspRefuse p 3
      | none => (steerBursts bl p.payload t).gspPlaced p

/-- GSP_PLACE: the steering stage takes its oldest packet (R376). -/
def execGspPlace (s : State) : Host.Outcome State Fault Refusal :=
  .next (match s.steer with
    | [] => s
    | p :: rest => { s with steer := rest }.gspSteer p)

/-- BAND_DONE: every write up to an end-of-band packet has returned: its line is done and the signal set (R378). -/
def State.bandDone (s : State) (k : Nat) : State :=
  match (s.stream k).bands with
  | [] => s
  | l :: rest =>
    let t := (s.setStream k { s.stream k with bands := rest }).wr (R.GSP_DONE k) (w32 l)
    if t.flag (F.GSP_CFG_sig_en k) then t.signalSet (t.get (F.GSP_CFG_sig k)) else t

def execBandDone (stream : Fin 64) (s : State) : Host.Outcome State Fault Refusal := .next (s.bandDone stream.val)

/-- ACK_TIMER: ack_us without an ACK while packets have been placed (R377). -/
def execAckTimer (stream : Fin 64) (s : State) : Host.Outcome State Fault Refusal :=
  .next (if (s.stream stream.val).placed = 0 then s else s.gspAck stream.val)

/-- A write of a word of GSP_Sk (R378): while en = 1 the words beside CFG are ignored; an enable needs lines and LEN. -/
def State.gspWrite (s : State) (k a : Nat) (v : W32) : State :=
  if a = R.GSP_CFG k then
    if bitsOf v 31 31 == 1 && (s.get (F.GSP_GEOM_lines k) == 0 || s.get (F.GSP_LEN_len k) == 0) then s.set (F.GSP_CFG_err k) 1
    else s.plainWrite a v
  else if s.flag (F.GSP_CFG_en k) then s.set (F.GSP_CFG_err k) 1
  else s.plainWrite a v

/-! ### The PTP timebase (R370, R371, R373) -/

/-- The time set to seconds, nanoseconds and a fraction. -/
def State.setPtp (s : State) (sec ns frac : Nat) : State :=
  { ((s.wr R.PTP_NS (w32 ns)).wr R.PTP_SECL (w32 sec)).wr R.PTP_SECH (w32 (sec / 2 ^ 32 % 2 ^ 16)) with ptpFrac := frac }

/-- Seconds of the timebase. -/
def State.ptpSec (s : State) : Nat := s.get F.PTP_SECH_sech * 2 ^ 32 + s.get F.PTP_SECL_secl

/-- `n` D8 cycles pass, each adding the committed increment. -/
def State.ptpAdvance (s : State) (n : Nat) : State :=
  let x := s.get F.PTP_NS_ns * 2 ^ 32 + s.ptpFrac + n * s.ptpInc
  s.setPtp (s.ptpSec + x / 2 ^ 32 / 10 ^ 9) (x / 2 ^ 32 % 10 ^ 9) (x % 2 ^ 32)

/-- A write of PTP_INCH commits the increment. -/
def State.ptpInch (s : State) (v : W32) : State :=
  let t := s.plainWrite R.PTP_INCH v
  { t with ptpInc := t.get F.PTP_INCH_inch * 2 ^ 32 + t.get F.PTP_INCL_incl }

/-- PTP_INC_COMMIT. -/
def execPtpIncCommit (value : W32) (s : State) : Host.Outcome State Fault Refusal := .next (s.ptpInch value)

/-- PTP_SET_TIME: a write of PTP_SETSECH sets the time with fraction 0, and valid. -/
def State.ptpSet (s : State) (v : W32) : State :=
  let t := s.plainWrite R.PTP_SETSECH v
  (t.setPtp (t.get F.PTP_SETSECH_setsech * 2 ^ 32 + t.get F.PTP_SETSECL_setsecl) (t.get F.PTP_SETNS_setns) 0).set F.PTP_STAT_stat 1

def execPtpSetTime (value : W32) (s : State) : Host.Outcome State Fault Refusal := .next (s.ptpSet value)

/-- PTP_ADJUST: a write of PTP_ADJ adds signed nanoseconds once. -/
def State.ptpAdjust (s : State) (v : W32) : State :=
  let total : Int := (s.ptpSec * 10 ^ 9 + s.get F.PTP_NS_ns : Nat) + v.toInt
  let m := (total % (2 ^ 48 * 10 ^ 9 : Nat)).toNat
  s.setPtp (m / 10 ^ 9) (m % 10 ^ 9) s.ptpFrac

def execPtpAdjust (value : W32) (s : State) : Host.Outcome State Fault Refusal := .next (s.ptpAdjust value)

/-- PTP_RATIO_MEASURE: 1,024 µs of PTP time have passed (R371). -/
def execPtpRatioMeasure (s : State) : Host.Outcome State Fault Refusal :=
  .next { s.wr R.PTP_RATIO (w32 (s.uptime - s.ratioFrom)) with ratioFrom := s.uptime }

/-- PTP_ALARM: the time has reached the alarm (R373). -/
def State.ptpAlarm (s : State) : State :=
  let at_ := (s.get F.PTP_ALCTL_sec_hi * 2 ^ 32 + s.get F.PTP_ALSECL_alsecl) * 10 ^ 9 + s.get F.PTP_ALNS_alns
  if s.flag F.PTP_ALCTL_en && decide (at_ ≤ s.ptpSec * 10 ^ 9 + s.get F.PTP_NS_ns) then
    (s.set F.PTP_ALCTL_en 0).signalSet (s.get F.PTP_ALCTL_sig)
  else s

def execPtpAlarm (s : State) : Host.Outcome State Fault Refusal := .next s.ptpAlarm

/-- PPS_PULSE: at a whole second the ball goes high for width µs (R373). -/
def execPpsPulse (s : State) : Host.Outcome State Fault Refusal :=
  .next (if s.flag F.PTP_PPS_en then { s with ppsUntil := s.uptime + cyclesOfUs (s.get F.PTP_PPS_width) } else s)

/-! ### The host port's events and reset (R380, R383 to R385) -/

/-- Bit `b` of PCIE_STAT becomes set (R385). -/
def State.pcieFlag (s : State) (b : Nat) (detail : W32) : State :=
  if s.bit F.PCIE_STAT_flags b then s
  else (s.setStatus R.PCIE_STAT R.PCIE_IEN b 106).post 106 (0x490 + b) (loc5 0x21) detail

/-- Key of a holding-set entry: the holder, numbered as the region masters are, and the register (R37). -/
def heldKey (holder a : Nat) : Nat := holder * 2 ^ 32 + a

/-- A holding set returns to its members' reset values (R37, R38). -/
def State.dropHeld (s : State) (holder : Nat) : State := { s with held := tabDrop (fun k => k / 2 ^ 32 == holder) s.held }

/-- PERST_N or link-down: the host port's reset domain is reset and nothing else (R384). -/
def State.pcieDown (s : State) : State :=
  let t := { s.dropHeld 51 with regs := tabDrop (fun a => decide (0x400E0000 ≤ a) && decide (a < 0x400F0000)) s.regs,
                                 msixFnMask := false }
  t.pcieFlag 1 0

def execPerst (s : State) : Host.Outcome State Fault Refusal := .next s.pcieDown

/-- Lanes of a width. -/
def lanesOf : LinkWidth → Nat
  | .x1 => 1
  | .x2 => 2
  | .x4 => 4

/-- PCIE_LINK_UP: the link has trained to a speed, 2.5 GT/s first, and a width (R380, R385). -/
def execPcieLinkUp (speed : Fin 4) (width : LinkWidth) (s : State) : Host.Outcome State Fault Refusal :=
  let v := speed.val + 1
  .next ((((s.set F.PCIE_STAT_up 1).set F.PCIE_STAT_speed v).set F.PCIE_STAT_width (lanesOf width)).pcieFlag 0
    (w32 (v * 16 + lanesOf width)))

/-- What the endpoint says of itself in its configuration space: Device ID, Revision ID and Interrupt Pin (R380). -/
structure PcieIdentity where
  device : Nat
  revision : Nat
  pin : Nat
deriving DecidableEq, Repr

def State.pcieIdentity (s : State) : PcieIdentity := ⟨s.get F.SYS_ID_part, s.get F.SYS_ID_stepping, 0⟩

/-- PCIE_DOORBELL: a write of PCIE_DBELL requests a vector (R383). -/
def execPcieDoorbell (value : W32) (s : State) : Host.Outcome State Fault Refusal := .next (s.msixRequest (bitsOf value 5 0))

/-- A pending vector that is no longer masked sends its one message (R383). -/
def State.msixRelease (s : State) (v : Nat) : State :=
  let p : Field := ⟨R.PCIE_PBA (v / 32), 31, 0⟩
  if s.bit p (v % 32) && !s.msixFnMask && !natBit (s.rd (R.PCIE_MSIX v 3)).toNat 0 then
    let u := s.setBit p (v % 32) false
    { u with msixSent := tabPut u.msixSent v (tabGet 0 u.msixSent v + 1) }
  else s

/-- A write of a word of the MSI-X table: unmasking a pending vector sends one message (R383). -/
def State.msixWrite (s : State) (v j : Nat) (w : W32) : State :=
  let t := s.wr (R.PCIE_MSIX v j) w
  if j = 3 then t.msixRelease v else t

/-- Function Mask is written: clearing it sends what it held back (R383). -/
def State.msixFunction (s : State) (masked : Bool) : State :=
  let t := { s with msixFnMask := masked }
  if masked then t else (List.range 64).foldl State.msixRelease t

/-- MSIX_UNMASK: the mask bit of a vector's control word is cleared, or Function Mask changes. -/
def execMsixUnmask (change : MaskChange) (s : State) : Host.Outcome State Fault Refusal :=
  .next (match change with
    | .vector v => s.msixWrite v.val 3 (putBits (s.rd (R.PCIE_MSIX v.val 3)) 0 0 0)
    | .function masked => s.msixFunction masked)

end Sys2Proof.Machine
end

