-- ==== Sys2Proof/Machine/Clock.lean ====
section
/-! DEFINITION. The clock: what one D4 FIRE cycle does when no command waits. The table has no row for a cycle; the block
takes one on an empty queue (notes/assumptions/1). -/

namespace Sys2Proof.Machine

/-- The clock domain a sequencer runs in (R33): D2 CTRL, D9 MOTION, D1 FABRIC, D4 FIRE. -/
def domainOf (q : Nat) : Nat :=
  match groupOf q with
  | 0 => 2
  | 1 => 9
  | 2 => 1
  | _ => 4

/-- Cycles of domain D`d` in the D4 FIRE cycle that now passes: one of D4 itself, an undefined number of another's (R36). -/
def State.cyclesIn (s : State) (d : Nat) : Nat := if d = 4 then 1 else Config.domainCycles d s.uptime

/-- CYCLE of a sequencer counts the cycles of its clock; a lockstep checker shares its primary's context (R47, R59). -/
def State.seqTick (s : State) (q : Nat) : State :=
  if s.isShadow q || s.seqFused q then s
  else
    let c := s.seq q
    s.setSeq q { c with cycle := c.cycle + BitVec.ofNat 64 (s.cyclesIn (domainOf q)) }

/-- One D4 FIRE cycle: FT rises by one, every axis moves on to it, and every sequencer's CYCLE and the PTP timebase count
(R59, R87, R102, R370). While reset is asserted nothing counts. -/
def State.tick (s : State) : State :=
  if s.resetting then s
  else
    let t := (List.range 8).foldl State.axisTick { s with uptime := s.uptime + 1 }
    let u := (List.range 48).foldl State.seqTick t
    u.ptpAdvance (u.cyclesIn 8)

end Sys2Proof.Machine
end

