-- ==== Sys2Proof/Machine/Cal.lean ====
section
/-! DEFINITION. Calibration and trimming: the ADCs, the die sensors, the lane skews and the trim commits (R448 to R457). -/

namespace Sys2Proof.Machine

/-! ### ADC offset and gain (R448, R449, R454) -/

/-- The correction of an ADC becomes stale: CAL_STALE is posted when its bit goes from 0 to 1 (R454, R456). -/
def State.calStale (s : State) (k : Nat) : State :=
  if s.bit F.CAL_STAT_stale k then s
  else
    let t := s.setBit F.CAL_STAT_stale k true
    t.post 63 0x4F0 (loc4 0x38 k) (w32 (t.get F.CAL_STAT_stale))

/-- Gain and offset of two reference codes, as a CAL_ADC word; a mean that ends in one half is rounded to either side. -/
def State.calWord (s : State) (lo hi : Nat) : W32 :=
  let span := hi - lo
  let gain := (2 * (16384 * 2048) + span) / (2 * span)
  let off : Int := 2048 - s.roundedFree ((lo + hi : Nat) : Int) 2
  w32 (gain % 2 ^ 16 * 2 ^ 16 + unsignedOf 12 off)

/-- One ADC's calibration ends with the two means. -/
def State.calOne (s : State) (k lo hi : Nat) : State :=
  if hi < lo + 1843 || lo + 2253 < hi then
    (s.setBit F.CAL_STAT_adc_fail k true).calStale k
  else
    let t := (s.drawn.wr (R.CAL_ADC_PEND k) (s.calWord lo hi)).setBit F.CAL_STAT_stale k false
    if s.flag F.CAL_CTL_auto then t.wr (R.CAL_ADC k) (s.calWord lo hi) else t

/-- ADC_CAL_START: a calibration starts while adc_en = 1 (R448). -/
def execAdcCalStart (s : State) : Host.Outcome State Fault Refusal :=
  .next (if s.flag F.CAL_CTL_adc_en then { s with adcCalRun := true } else s)

/-- ADC_CAL_DONE: the rounded means of the 64 conversions of each reference, per ADC (R448). -/
def execAdcCalDone (lo0 hi0 lo1 hi1 : BitVec 12) (s : State) : Host.Outcome State Fault Refusal :=
  .next (if s.adcCalRun then
    { (s.calOne 0 lo0.toNat hi0.toNat).calOne 1 lo1.toNat hi1.toNat with adcCalRun := false } else s)

/-- A write of CAL_CTL: adc_en going to 1 starts a calibration, apply makes the pending values of both ADCs active (R448,
R449). -/
def State.calCtlWrite (s : State) (v : W32) : State :=
  let t := s.plainWrite R.CAL_CTL v
  let u := if !s.flag F.CAL_CTL_adc_en && t.flag F.CAL_CTL_adc_en then { t with adcCalRun := true } else t
  if bitsOf v 29 29 = 1 then (u.wr (R.CAL_ADC 0) (u.rd (R.CAL_ADC_PEND 0))).wr (R.CAL_ADC 1) (u.rd (R.CAL_ADC_PEND 1)) else u

def execAdcCalApply (value : W32) (s : State) : Host.Outcome State Fault Refusal :=
  .next (s.calCtlWrite (putBits value 29 29 1))

/-- CAL_STALE_TIMEOUT: no calibration of the ADC has succeeded for 4 × per_s (R454). -/
def execCalStaleTimeout (adc : Fin 2) (s : State) : Host.Outcome State Fault Refusal := .next (s.calStale adc.val)

/-! ### Die temperature (R451, R456) -/

/-- A sensor's result: the sample corrected by its offset; a sum outside the field has no stated value. -/
def State.dieTemp (s : State) (k : Nat) (raw : W16) : State :=
  let t := raw.toInt + s.getInt (F.CAL_TS_off k)
  if t < -32768 || 32767 < t then s.drawn.set (F.CAL_TS_temp k) (s.freeN % 2 ^ 16) else s.set (F.CAL_TS_temp k) (unsignedOf 16 t)

/-- DIE_HOT of the lowest sensor at or above hi, once until every sensor is below hi − 2 °C. -/
def State.dieCheck (s : State) : State :=
  let hi := s.getInt F.CAL_TALARM_hi
  if s.dieHot then
    if (List.range 4).all (fun k => decide (s.getInt (F.CAL_TS_temp k) < hi - 32)) then { s with dieHot := false } else s
  else match (List.range 4).find? (fun k => decide (hi ≤ s.getInt (F.CAL_TS_temp k))) with
    | some k =>
      { s.post 108 0x4F1 (loc4 0x38 (0x20 + k)) (w32 (unsignedOf 12 (s.getInt (F.CAL_TS_temp k) / 16) * 2 ^ 16 + k)) with
        dieHot := true }
    | none => s

/-- TEMP_SAMPLE: the four sensors are sampled. -/
def execTempSample (t0 t1 t2 t3 : W16) (s : State) : Host.Outcome State Fault Refusal :=
  .next ((((s.dieTemp 0 t0).dieTemp 1 t1).dieTemp 2 t2).dieTemp 3 t3).dieCheck

/-! ### Lane strobe skew (R452) -/

/-- k_n follows usr and meas; the clamp sets sat. -/
def State.laneTrim (s : State) (n : Nat) : State :=
  let d := s.getInt (F.CAL_LANE_usr n) - s.getInt (F.CAL_LANE_meas n)
  let t := s.set (F.CAL_LANE_k n) (unsignedOf 6 (clampInt (-32) 31 d))
  if d < -32 || 31 < d then t.set (F.CAL_LANE_sat n) 1 else t

/-- A write of CAL_LANEn. -/
def State.calLaneWrite (s : State) (n : Nat) (v : W32) : State :=
  if s.laneFused n then s else (s.plainWrite (R.CAL_LANE n) v).laneTrim n

/-! ### Trim commits (R455) -/

/-- The commit of one tile of the bar: TRIM_CTL.commit, and with wave = 1 WV_COMMIT in the same two-word WRITE. A listed
tile that cannot be reached does not acknowledge. -/
def State.commitTile (s : State) (wave : Bool) (k : Nat) : State :=
  let lane := k / 16
  let pos := k % 16
  if s.laneRuns lane && natBit (s.present lane) pos && !s.excluded lane pos then
    if wave then s.mgWrite lane pos 0x1F [1, 1] .calCommit else s.mgWrite lane pos 0x20 [1] .calCommit
  else s.set (F.HEALTH_TPUSH_err lane) 1

/-- A write of CAL_TCOMMIT: go is ignored while busy and refused unless the bar's shutter is closed or its axis is in
LULL. -/
def State.tcommitWrite (s : State) (v : W32) : State :=
  let b := bitsOf v 2 0
  if bitsOf v 31 31 = 0 || s.flag F.CAL_TCOMMIT_busy then s.plainWrite R.CAL_TCOMMIT v
  else if !s.isClosed (.bar b) && (s.axis (s.get (F.BAR_CFG_axis b))).st != .lull then s.set F.CAL_STAT_tc_err 1
  else
    let t := (s.plainWrite R.CAL_TCOMMIT v).set F.CAL_TCOMMIT_busy 1
    (t.barTiles b).foldl (fun u k => u.commitTile (bitsOf v 29 29 == 1) k) t

def execTrimCommit (value : W32) (s : State) : Host.Outcome State Fault Refusal :=
  .next (s.tcommitWrite (putBits value 31 31 1))

/-- TRIM_COMMIT_DONE: every commit write is answered. -/
def execTrimCommitDone (s : State) : Host.Outcome State Fault Refusal :=
  .next (if s.commitsPending then s else s.set F.CAL_TCOMMIT_busy 0)

end Sys2Proof.Machine
end

