-- ==== Sys2Proof/Machine/Crypto.lean ====
section
/-! DEFINITION. The named public algorithms the boot code and the access control use: SHA-256 and HMAC-SHA-256 (R85, R393,
R421, R423) and the verification of ECDSA over P-256 (R393), as FIPS 180-4, FIPS 198-1 and FIPS 186-4 define them. -/

namespace Sys2Proof.Machine

/-! ### SHA-256 -/

/-! The round constants, eight to a row. -/
def shaK0 : List W32 := [0x428A2F98, 0x71374491, 0xB5C0FBCF, 0xE9B5DBA5, 0x3956C25B, 0x59F111F1, 0x923F82A4, 0xAB1C5ED5]
def shaK1 : List W32 := [0xD807AA98, 0x12835B01, 0x243185BE, 0x550C7DC3, 0x72BE5D74, 0x80DEB1FE, 0x9BDC06A7, 0xC19BF174]
def shaK2 : List W32 := [0xE49B69C1, 0xEFBE4786, 0x0FC19DC6, 0x240CA1CC, 0x2DE92C6F, 0x4A7484AA, 0x5CB0A9DC, 0x76F988DA]
def shaK3 : List W32 := [0x983E5152, 0xA831C66D, 0xB00327C8, 0xBF597FC7, 0xC6E00BF3, 0xD5A79147, 0x06CA6351, 0x14292967]
def shaK4 : List W32 := [0x27B70A85, 0x2E1B2138, 0x4D2C6DFC, 0x53380D13, 0x650A7354, 0x766A0ABB, 0x81C2C92E, 0x92722C85]
def shaK5 : List W32 := [0xA2BFE8A1, 0xA81A664B, 0xC24B8B70, 0xC76C51A3, 0xD192E819, 0xD6990624, 0xF40E3585, 0x106AA070]
def shaK6 : List W32 := [0x19A4C116, 0x1E376C08, 0x2748774C, 0x34B0BCB5, 0x391C0CB3, 0x4ED8AA4A, 0x5B9CCA4F, 0x682E6FF3]
def shaK7 : List W32 := [0x748F82EE, 0x78A5636F, 0x84C87814, 0x8CC70208, 0x90BEFFFA, 0xA4506CEB, 0xBEF9A3F7, 0xC67178F2]
def shaK : List W32 := shaK0 ++ shaK1 ++ shaK2 ++ shaK3 ++ shaK4 ++ shaK5 ++ shaK6 ++ shaK7

/-- The eight chaining words. -/
structure Sha where
  a : W32
  b : W32
  c : W32
  d : W32
  e : W32
  f : W32
  g : W32
  h : W32
deriving DecidableEq, Repr

def shaInit : Sha := ⟨0x6A09E667, 0xBB67AE85, 0x3C6EF372, 0xA54FF53A, 0x510E527F, 0x9B05688C, 0x1F83D9AB, 0x5BE0CD19⟩

def shaRotr (x : W32) (n : Nat) : W32 := x.rotateRight n

/-- One round with a constant and a schedule word. -/
def shaRound (s : Sha) (kw : W32) : Sha :=
  let t1 := s.h + (shaRotr s.e 6 ^^^ shaRotr s.e 11 ^^^ shaRotr s.e 25) + ((s.e &&& s.f) ^^^ (~~~s.e &&& s.g)) + kw
  let t2 := (shaRotr s.a 2 ^^^ shaRotr s.a 13 ^^^ shaRotr s.a 22) + ((s.a &&& s.b) ^^^ (s.a &&& s.c) ^^^ (s.b &&& s.c))
  ⟨t1 + t2, s.a, s.b, s.c, s.d + t1, s.e, s.f, s.g⟩

/-- The next word of the message schedule, from its window of 16 words. -/
def shaNext (w : List W32) : W32 :=
  let w1 := w.getD 1 0
  let w14 := w.getD 14 0
  (shaRotr w14 17 ^^^ shaRotr w14 19 ^^^ (w14 >>> 10)) + w.getD 9 0 + (shaRotr w1 7 ^^^ shaRotr w1 18 ^^^ (w1 >>> 3)) + w.getD 0 0

/-- The rounds of a block over the remaining constants, with the schedule's window. -/
def shaRounds : List W32 → List W32 → Sha → Sha
  | [], _, s => s
  | k :: ks, w, s => shaRounds ks (w.drop 1 ++ [shaNext w]) (shaRound s (k + w.getD 0 0))

/-- One block of 16 words. -/
def shaBlock (s : Sha) (w : List W32) : Sha :=
  let r := shaRounds shaK w s
  ⟨s.a + r.a, s.b + r.b, s.c + r.c, s.d + r.d, s.e + r.e, s.f + r.f, s.g + r.g, s.h + r.h⟩

/-- Big-endian words of a byte list. -/
def beWords : List W8 → List W32
  | a :: b :: c :: d :: t => w32 (beNat [a, b, c, d]) :: beWords t
  | _ => []

/-- Blocks of a word list; `n` bounds their number. -/
def shaBlocks : Nat → List W32 → Sha → Sha
  | 0, _, s => s
  | n + 1, w, s => if w.isEmpty then s else shaBlocks n (w.drop 16) (shaBlock s (w.take 16))

/-- The padded message. -/
def shaPad (m : List W8) : List W8 :=
  m ++ [0x80] ++ List.replicate ((119 - m.length % 64) % 64) 0 ++ beBytes 8 (8 * m.length)

/-- SHA-256 of a byte list, as 32 bytes. -/
def sha256 (m : List W8) : List W8 :=
  let s := shaBlocks (m.length / 64 + 2) (beWords (shaPad m)) shaInit
  [s.a, s.b, s.c, s.d, s.e, s.f, s.g, s.h].flatMap (fun w => beBytes 4 w.toNat)

/-- HMAC-SHA-256 under a key of at most 64 bytes. -/
def hmac256 (key m : List W8) : List W8 :=
  let k := key ++ List.replicate (64 - key.length) 0
  sha256 (k.map (fun b => b ^^^ 0x5C) ++ sha256 (k.map (fun b => b ^^^ 0x36) ++ m))

/-! ### ECDSA over P-256 -/

/-- The field's prime, the group's order, the curve's coefficient and the base point. -/
def p256P : Nat := 0xFFFFFFFF00000001000000000000000000000000FFFFFFFFFFFFFFFFFFFFFFFF
def p256N : Nat := 0xFFFFFFFF00000000FFFFFFFFFFFFFFFFBCE6FAADA7179E84F3B9CAC2FC632551
def p256B : Nat := 0x5AC635D8AA3A93E7B3EBBD55769886BC651D06B0CC53B0F63BCE3C3E27D2604B
def p256G : Nat × Nat := (0x6B17D1F2E12C4247F8BCE6E563A440F277037D812DEB33A0F4A13945D898C296,
  0x4FE342E2FE1A7F9B8EE7EB4A7C0F9E162BCE33576B315ECECBB6406837BF51F5)

/-- Power modulo `m`, by the low `n` bits of the exponent. -/
def powMod (m : Nat) : Nat → Nat → Nat → Nat
  | 0, _, _ => 1 % m
  | n + 1, x, e => let r := powMod m n (x * x % m) (e / 2); if e % 2 = 1 then r * x % m else r

/-- Inverse modulo a prime below 2^256. -/
def invMod (m x : Nat) : Nat := powMod m 256 (x % m) (m - 2)

/-- A point in Jacobian coordinates (X / Z², Y / Z³), the point at infinity where Z is 0. -/
structure P256 where
  x : Nat
  y : Nat
  z : Nat
deriving DecidableEq, Repr

/-- Difference in the field. -/
def subP (a b : Nat) : Nat := (a + p256P - b % p256P) % p256P

/-- Twice a point of the curve y² = x³ - 3x + b. -/
def P256.double (p : P256) : P256 :=
  let d := p.z * p.z % p256P
  let g := p.y * p.y % p256P
  let b := p.x * g % p256P
  let a := 3 * subP p.x d * (p.x + d) % p256P
  let x := subP (a * a) (8 * b)
  ⟨x, subP (a * subP (4 * b) x) (8 * (g * g % p256P)), 2 * p.y * p.z % p256P⟩

/-- Sum of two points. -/
def P256.add (p q : P256) : P256 :=
  if p.z = 0 then q else if q.z = 0 then p
  else
    let pz := p.z * p.z % p256P
    let qz := q.z * q.z % p256P
    let u := p.x * qz % p256P
    let s := p.y * qz % p256P * q.z % p256P
    let h := subP (q.x * pz) u
    let r := subP (q.y * pz % p256P * p.z) s
    if h = 0 then if r = 0 then p.double else ⟨1, 1, 0⟩
    else
      let h2 := h * h % p256P
      let x := subP (r * r) (h2 * h + 2 * u * h2)
      ⟨x, subP (r * subP (u * h2) x) (s * (h2 * h % p256P)), h * p.z * q.z % p256P⟩

/-- Multiple of a point, by the low `n` bits of the factor. -/
def P256.mul : Nat → Nat → P256 → P256
  | 0, _, _ => ⟨1, 1, 0⟩
  | n + 1, k, q => let r := P256.mul n (k / 2) q.double; if k % 2 = 1 then r.add q else r

/-- The point lies on the curve. -/
def p256On (x y : Nat) : Bool :=
  decide (x < p256P) && decide (y < p256P) && y * y % p256P == (x * x % p256P * x + (p256P - 3) * x + p256B) % p256P

/-- A signature (r, s) of a hash verifies under a public key. -/
def ecdsaVerify (hash : Nat) (x y r s : Nat) : Bool :=
  if r = 0 || s = 0 || p256N ≤ r || p256N ≤ s || !p256On x y then false
  else
    let w := invMod p256N s
    let p := (P256.mul 256 (hash * w % p256N) ⟨p256G.1, p256G.2, 1⟩).add (P256.mul 256 (r * w % p256N) ⟨x, y, 1⟩)
    p.z != 0 && p.x * invMod p256P (p.z * p.z) % p256P % p256N == r

end Sys2Proof.Machine
end

