-- ==== Sys2Proof/Machine/Operands.lean ====
section
/-! DEFINITION. The operand forms of PYR-32: the five formats as words, immediates and offsets, and which words a sequencer
accepts (R41, R51 to R69). -/

namespace Sys2Proof.Machine

/-! ### Formats (R51) -/

/-- Format X. -/
def xWord (op : Nat) (rd rs1 rs2 rs3 : BitVec 5) (func : Nat) : W32 :=
  w32 (op * 2 ^ 26 + rd.toNat * 2 ^ 21 + rs1.toNat * 2 ^ 16 + rs2.toNat * 2 ^ 11 + rs3.toNat * 2 ^ 6 + func)

/-- Format I, and format B with rs1 and rs2 in the first two fields. -/
def iWord (op : Nat) (rd rs1 : BitVec 5) (imm : W16) : W32 :=
  w32 (op * 2 ^ 26 + rd.toNat * 2 ^ 21 + rs1.toNat * 2 ^ 16 + imm.toNat)

/-- Format J. -/
def jWord (op : Nat) (rd : BitVec 5) (off : BitVec 21) : W32 := w32 (op * 2 ^ 26 + rd.toNat * 2 ^ 21 + off.toNat)

/-- Format V. -/
def vWord (op : Nat) (vd vs1 vs2 : BitVec 5) (m : BitVec 3) (func : Nat) : W32 :=
  w32 (op * 2 ^ 26 + vd.toNat * 2 ^ 21 + vs1.toNat * 2 ^ 16 + vs2.toNat * 2 ^ 11 + m.toNat * 2 ^ 8 + func)

/-! ### Immediates (R54, R57) -/

/-- A sign-extended immediate. -/
def sx16 (imm : W16) : W32 := imm.signExtend 32

/-- A zero-extended immediate. -/
def zx16 (imm : W16) : W32 := imm.zeroExtend 32

/-- The byte displacement of a branch. -/
def off16 (off : W16) : W32 := off.signExtend 32 * 4

/-- The byte displacement of JAL. -/
def off21 (off : BitVec 21) : W32 := off.signExtend 32 * 4

/-! ### Groups and extensions (R41) -/

/-- PYR-T is implemented in link engines. -/
def hasT (q : Nat) : Bool := groupOf q == 3
/-- PYR-M is implemented in motion cores. -/
def hasM (q : Nat) : Bool := groupOf q == 1
/-- PYR-V is implemented in render cluster sequencers. -/
def hasV (q : Nat) : Bool := groupOf q == 2

/-- A register pair: rd even, in g2 to g30 (R63). -/
def pairOk (rd : BitVec 5) : Bool := rd.toNat % 2 == 0 && rd != 0

/-- CSR numbers (R59). -/
def csrListed (n : Nat) : Bool :=
  decide (n ≤ 8) || (decide (0x10 ≤ n) && decide (n ≤ 0x15)) || (decide (0x20 ≤ n) && decide (n ≤ 0x27))

/-! ### Legal words (R52 to R69) -/

/-- The word has an opcode and func that the sequencer implements, with every field that must be 0 at 0. func[7] is legal in
funcs 0x00 to 0x12 of op 0x3C alone (DESIGN CHOICE, notes/assumptions/169). -/
def legalWord (q : Nat) (w : W32) : Bool :=
  let op := bitsOf w 31 26
  let rd := bitsOf w 25 21
  let rs1 := bitsOf w 20 16
  let rs2 := bitsOf w 15 11
  let rs3 := bitsOf w 10 6
  let fn := bitsOf w 5 0
  let vf := bitsOf w 7 0
  let pair := rd % 2 == 0 && rd != 0
  if op = 0 then decide (fn ≤ 0x19) && rs3 == 0 && (decide (fn < 0x18) || rs2 == 0)
  else if op ≤ 6 then true
  else if op = 7 then rs1 == 0
  else if 0x10 ≤ op ∧ op ≤ 0x14 then true
  else if 0x18 ≤ op ∧ op ≤ 0x1A then true
  else if op = 0x1C then decide (fn ≤ 4) && (fn == 4 || rs3 == 0)
  else if 0x20 ≤ op ∧ op ≤ 0x25 then true
  else if op = 0x28 ∨ op = 0x29 then true
  else if op = 0x30 then decide (fn ≤ 3)
  else if op = 0x31 then decide (bitsOf w 15 12 ≤ 2) && csrListed (bitsOf w 11 0)
  else if op = 0x34 then fn == 0 || fn == 1 || (decide (8 ≤ fn) && decide (fn ≤ 0xD)) || (fn == 0x10 && rs3 % 2 == 0)
  else if op = 0x35 then hasT q && decide (fn ≤ 4) && (fn != 4 || pair)
  else if op = 0x36 then hasM q && decide (fn ≤ 6) && rs3 == 0 && ((fn != 3 && fn != 6) || pair)
  else if op = 0x3C then
    hasV q && ((decide (vf % 0x80 ≤ 0x0E)) || (decide (0x10 ≤ vf % 0x80) && decide (vf % 0x80 ≤ 0x12) && rd % 8 != 0) ||
      (decide (0x18 ≤ vf) && decide (vf ≤ 0x1A)) || (decide (0x28 ≤ vf) && decide (vf ≤ 0x2A) && rd % 8 != 0) || vf == 0x2B)
  else if op = 0x3D then hasV q && decide (vf ≤ 3)
  else if op = 0x3E then hasV q && decide (vf ≤ 5)
  else false

end Sys2Proof.Machine
end

