-- ==== Sys2Proof/Machine/Sequencer.lean ====
section
/-! DEFINITION. The sequencers: traps and the return from one, interrupts, run, halt and reset, lockstep pairs, and the ends
of waiting instructions (R41 to R49, R71 to R76, R80, R81, R142). -/

namespace Sys2Proof.Machine

/-! ### Traps (R71 to R73) -/

/-- Codes of R71. -/
def trapFetch : Nat := 0
def trapTarget : Nat := 1
def trapIllegal : Nat := 2
def trapBreak : Nat := 3
def trapLoadAlign : Nat := 4
def trapLoad : Nat := 5
def trapStoreAlign : Nat := 6
def trapStore : Nat := 7
def trapCall : Nat := 8
def trapFetchUe : Nat := 9
def trapLoadUe : Nat := 10
def trapResidue : Nat := 11

/-- The context after an exception of a code: what R72 saves and where the pc goes. -/
def Seq.trapped (c : Seq) (code : Nat) (tval : W32) : Seq :=
  { c with run := .running, wait := .none, epc := c.pc, cause := w32 code, tval := tval, pie := c.ie, ie := false, inh := true,
           pc := c.vbase, lastCause := code, lastIrq := false }

/-- The context after an interrupt line is taken (R72, R76). -/
def Seq.interrupted (c : Seq) (line : Nat) : Seq :=
  { c with run := .running, wait := .none, epc := c.pc, cause := w32 (2 ^ 31 + line), tval := 0, pie := c.ie, ie := false,
           inh := true, pc := c.vbase + 0x100 + w32 (4 * line), lastCause := line, lastIrq := true,
           latched := c.latched &&& ~~~(w32 (2 ^ line)) }

/-- A double fault: the sequencer enters FAULTED and SEQ_FAULT is posted; a control pair sets its condition (R73, R435,
R446). -/
def State.doubleFault (s : State) (q : Nat) : State :=
  let t := s.setSeq q { s.seq q with run := .faulted, wait := .none }
  let u := t.post 63 0x4E0 (seqLoc q) (w32 (0x100 + q))
  if q < 4 then u.setGcond (q / 2) true else u

/-- An exception on a sequencer (R72), or a double fault (R73). -/
def State.trap (s : State) (q code : Nat) (tval : W32) : State :=
  if (s.seq q).inh then s.doubleFault q else s.setSeq q ((s.seq q).trapped code tval)

/-- The return from a trap (R72). -/
def Seq.returned (c : Seq) : Seq := { c with pc := c.epc, ie := c.pie, inh := false, instret := c.instret + 1 }

/-- An instruction retires: the pc moves past it and INSTRET counts it. -/
def Seq.retired (c : Seq) : Seq := { c with pc := c.pc + 4, instret := c.instret + 1 }

/-- ILLEGAL_INSTRUCTION: a fetched word that the sequencer does not implement (R41, R52). -/
def execIllegalInstruction (q : Fin 48) (word : W32) (s : State) : Host.Outcome State Fault Refusal :=
  .next (if s.executes q.val && !legalWord q.val word then s.trap q.val trapIllegal word else s)

/-- What a fetch at the pc reports: none where it may be performed (R24 to R27, R30, R42, R329, R330). One from DRAM or the
register space is refused by R42 alone; one through an aperture that leads nowhere, or to DRAM that is absent, is an access
error of R27 as well. -/
def State.fetchFault (s : State) (q a : Nat) : Option State :=
  if isRom a then if s.get F.SYS_BOOTSTAT_phase = 3 then some (s.accessErr q a) else none
  else if isSram a then
    if s.memAbsent a then some (s.accessErr q a)
    else if s.permitted q a 4 Needs.fetch then none else some (s.regionFault q a Needs.fetch)
  else if isRegSpace a then some s
  else if inAperture a then
    match s.aperture q a with
    | some f => some (if s.memAbsent f then s.accessErr q f else s)
    | none => some (s.accessErr q a)
  else some (s.accessErr q a)

/-- INSTRUCTION_ACCESS_FAULT: the fetch at the pc is refused, or its word has an uncorrectable error (R42, R71, R326). -/
def execInstructionAccessFault (q : Fin 48) (uncorrectable : Bool) (s : State) : Host.Outcome State Fault Refusal :=
  let c := s.seq q.val
  .next (if s.executes q.val then
    match s.fetchFault q.val c.pc.toNat with
    | some t => t.trap q.val trapFetch c.pc
    | none => if uncorrectable then
        (((s.cellFound c.pc.toNat (some .double)).eccRead q.val c.pc.toNat).2).trap q.val trapFetchUe c.pc
      else s
  else s)

/-! ### Interrupts (R59, R74 to R76) -/

/-- Line 2: a ring the sequencer owns is at its watermark (R432). -/
def State.ringLine (s : State) (q : Nat) : Bool :=
  (List.range 16).any (fun r => s.get (F.SUP_RING_CFG_owner r) == q && s.atWatermark r)

/-- Line 3: a signal that is set and selected. -/
def State.signalLine (s : State) (q : Nat) : Bool :=
  (s.seq q).sigmask.any (fun e => (w32 (s.signals.toNat / 2 ^ (32 * e.1)) &&& e.2) != 0)

/-- TIMECMP:TIMECMPH as one number. -/
def Seq.compare (c : Seq) : W64 := c.timecmpH.zeroExtend 64 <<< 32 ||| c.timecmp.zeroExtend 64

/-- IP (R59, R74). -/
def State.seqIp (s : State) (q : Nat) : W32 :=
  let c := s.seq q
  (c.latched &&& 0xFFFFFF00) ||| b2w (decide (c.compare.toNat ≤ c.cycle.toNat)) ||| b2w c.swi <<< 1 |||
    b2w (s.ringLine q) <<< 2 ||| b2w (s.signalLine q) <<< 3

/-- The lowest line that is pending and enabled. -/
def State.lineDue (s : State) (q : Nat) : Option Nat :=
  let w := (s.seqIp q &&& (s.seq q).ieMask).toNat
  (List.range 32).find? (natBit w)

/-- A line is taken between instructions or in WAITING (R75, R76). -/
def State.takeInterrupt (s : State) (q : Nat) : State :=
  match s.lineDue q with
  | some l => s.setSeq q ((s.seq q).interrupted l)
  | none => s

/-- INTERRUPT_TAKE. -/
def execInterruptTake (q : Fin 48) (s : State) : Host.Outcome State Fault Refusal :=
  let c := s.seq q.val
  .next (if (c.run == .running || c.run == .waiting) && c.ie && !s.isShadow q.val && !s.seqFused q.val then s.takeInterrupt q.val else s)

/-- TIMECMP_MATCH: CYCLE has reached TIMECMP, and line 0 is pending (R59). -/
def execTimecmpMatch (q : Fin 48) (s : State) : Host.Outcome State Fault Refusal :=
  let c := s.seq q.val
  .next (if s.isShadow q.val || s.seqFused q.val || decide (c.compare.toNat ≤ c.cycle.toNat) then s
    else s.setSeq q.val { c with cycle := c.compare })

/-- WFI_WAKE: a pending enabled line ends WFI, with a trap if ie = 1 (R76). -/
def execWfiWake (q : Fin 48) (s : State) : Host.Outcome State Fault Refusal :=
  let c := s.seq q.val
  .next (if c.run == .waiting && c.wait == .wfi && !s.isShadow q.val && (s.lineDue q.val).isSome then
    if c.ie then s.takeInterrupt q.val else s.setSeq q.val { c.retired with run := .running, wait := .none }
  else s)

/-! ### Run, halt, reset (R43 to R46, R49) -/

/-- State codes (R44). -/
def RunState.code : RunState → Nat
  | .reset => 0 | .halted => 1 | .running => 2 | .waiting => 3 | .debug => 4 | .faulted => 5

/-- SYS_SEQn_STAT.state. -/
def State.seqState (s : State) (q : Nat) : Nat := (s.seq q).run.code

/-- The sequencer's registers reach it: it is present and no checker in lockstep (R3, R45). -/
def State.seqReached (s : State) (q : Nat) : Bool := !s.isShadow q && !s.seqFused q

/-- run: a HALTED sequencer starts at its entry (R44). -/
def State.seqStart (s : State) (q : Nat) : State :=
  let c := s.seq q
  if c.run = .halted then s.setSeq q { c with run := .running, pc := s.rd (R.SYS_SEQ_ENTRY q) &&& 0xFFFFFFFC } else s

/-- halt: RUNNING and WAITING end in HALTED, a waiting instruction abandoned (R44). -/
def State.seqStop (s : State) (q : Nat) : State :=
  let c := s.seq q
  if c.run = .running ∨ c.run = .waiting then s.setSeq q { c with run := .halted, wait := .none } else s

/-- A register of the sequencer's own reset domain (R29). -/
def cluReg (q a : Nat) : Bool :=
  (decide (0x40001000 + 16 * q ≤ a) && decide (a < 0x40001010 + 16 * q)) ||
    (decide (0x40004000 + 32 * q ≤ a) && decide (a < 0x40004020 + 32 * q)) ||
    (decide (8 ≤ q) && decide (q < 24) && decide (0x40070100 + 32 * (q - 8) ≤ a) && decide (a < 0x40070120 + 32 * (q - 8)))

/-- The heartbeat mismatch bit of a sequencer (R438). -/
def State.setUnit (s : State) (q : Nat) (b : Bool) : State :=
  if q < 32 then s.setBit F.SUP_UNITSTAT0_mism q b else s.setBit F.SUP_UNITSTAT1_mism (q - 32) b

/-- One sequencer passes through RESET to HALTED: general registers, CSRs, waits and its CLU registers return to their
reset values; what its SYS registers report, a software interrupt and the last trap's cause, stays (R29, R43, R44, R45). Its
holding set keeps the values it has latched (DESIGN CHOICE, notes/assumptions/168). -/
def State.coreReset (s : State) (q : Nat) : State :=
  let c := tabGet {} s.seqs q
  let t := { s with regs := tabDrop (cluReg q) s.regs,
                    seqs := tabPut s.seqs q { swi := c.swi, lastCause := c.lastCause, lastIrq := c.lastIrq },
                    beats := tabDel s.beats q }
  t.setUnit q false

/-- The pair returns to lockstep: its checker has no context and no holding set of its own (R37, R49; DESIGN CHOICE,
notes/assumptions/172). -/
def State.rejoin (s : State) (p : Nat) : State :=
  { s with splitPairs := tabDel s.splitPairs p, seqs := tabDel s.seqs (p + 1),
           held := tabDrop (fun k => k / 2 ^ 32 == p + 1) s.held }

/-- What ends when a pair has passed through RESET: the condition of a control pair, the requests of a motion pair (R265,
R435). -/
def State.pairReset (s : State) (p : Nat) : State :=
  if p < 4 then (if s.bit F.SUP_GCOND_cond (p / 2) then s.setGcond (p / 2) false else s) else s.lineWithdraw (p / 2 - 2)

/-- rst of a sequencer (R44, R45, R49): a primary resets both cores of its pair. -/
def State.seqReset (s : State) (q : Nat) : State :=
  if q < 8 then
    if q % 2 = 0 then
      let t := (s.coreReset q).coreReset (q + 1)
      let u := if s.bit ⟨R.SYS_SEQ_CTL q, 31, 0⟩ 3 then t else t.rejoin q
      u.pairReset q
    else
      let t := s.coreReset q
      if (t.seq (q - 1)).run = .faulted then t else t.pairReset (q - 1)
  else s.coreReset q

/-- Splitting is permitted (R420). -/
def State.splitAllowed (s : State) : Bool := natBit s.policy 2 || decide (s.get F.SEC_LC_state ≤ 1)

/-- A pair whose split is accepted: the checker goes on from the primary's context, its latched lines and software
interrupt with it, as a core of its own (R49; DESIGN CHOICE, notes/assumptions/172). -/
def State.splitPair (s : State) (p : Nat) : State :=
  if (tabFind s.splitPairs p).isSome then s
  else { s with splitPairs := tabPut s.splitPairs p (), seqs := tabPut s.seqs (p + 1) (tabGet {} s.seqs p) }

/-- A write of SYS_SEQn_CTL (R44, R45, R49): one that changes split where it may not is ignored whole and sets
split_err. -/
def State.seqCtlWrite (s : State) (q : Nat) (v : W32) : State :=
  if !s.seqReached q then s
  else
    let primary := decide (q < 8) && q % 2 == 0
    let was := s.flag (F.SYS_SEQ_CTL_split q)
    let now := bitsOf v 3 3 == 1
    if primary && was != now &&
        !((s.seq q).run == .halted && (s.seq (q + 1)).run == .halted && s.splitAllowed) then
      s.set (F.SYS_SEQ_CTL_split_err q) 1
    else
      let t := s.wr (R.SYS_SEQ_CTL q) (w32 ((if primary && now then 8 else 0) +
        (if s.flag (F.SYS_SEQ_CTL_split_err q) && bitsOf v 4 4 == 0 then 16 else 0)))
      let u := if primary && now then t.splitPair q else t
      if bitsOf v 2 2 = 1 then u.seqReset q
      else if bitsOf v 1 1 = 1 then u.seqStop q
      else if bitsOf v 0 0 = 1 then u.seqStart q
      else u

/-- The value a write of SYS_SEQn_CTL carries that leaves split as it is. -/
def State.seqCtlKeep (s : State) (q : Nat) (low : W32) : W32 := (s.rd (R.SYS_SEQ_CTL q) &&& 8) ||| low

def execSeqRun (q : Fin 48) (s : State) : Host.Outcome State Fault Refusal := .next (s.seqCtlWrite q.val (s.seqCtlKeep q.val 1))

def execSeqHalt (q : Fin 48) (s : State) : Host.Outcome State Fault Refusal := .next (s.seqCtlWrite q.val (s.seqCtlKeep q.val 2))

def execSeqRst (q : Fin 48) (s : State) : Host.Outcome State Fault Refusal := .next (s.seqCtlWrite q.val (s.seqCtlKeep q.val 4))

def execSplitWrite (q : Fin 48) (value : W32) (s : State) : Host.Outcome State Fault Refusal := .next (s.seqCtlWrite q.val value)

/-! ### Software interrupt and signals by register (R45, R80) -/

/-- A write of SYS_SEQn_SWI: set prevails over clr. -/
def State.swiWrite (s : State) (q : Nat) (v : W32) : State :=
  if !s.seqReached q then s
  else if bitsOf v 0 0 = 1 then s.setSeq q { s.seq q with swi := true }
  else if bitsOf v 1 1 = 1 then s.setSeq q { s.seq q with swi := false }
  else s

def execSwiSet (q : Fin 48) (s : State) : Host.Outcome State Fault Refusal := .next (s.swiWrite q.val 1)

def execSwiClr (q : Fin 48) (s : State) : Host.Outcome State Fault Refusal := .next (s.swiWrite q.val 2)

/-- A write of SYS_SIG_SETk. -/
def State.sigSetWrite (s : State) (k : Nat) (v : W32) : State :=
  ((List.range 32).filter (fun j => v.getLsbD j)).foldl (fun t j => t.signalSet (32 * k + j)) s

/-- A write of SYS_SIG_CLRk. -/
def State.sigClrWrite (s : State) (k : Nat) (v : W32) : State :=
  { s with signals := s.signals &&& ~~~(BitVec.ofNat 256 (v.toNat * 2 ^ (32 * k))) }

def execSigSetReg (k : Fin 8) (value : W32) (s : State) : Host.Outcome State Fault Refusal := .next (s.sigSetWrite k.val value)

def execSigClrReg (k : Fin 8) (value : W32) (s : State) : Host.Outcome State Fault Refusal := .next (s.sigClrWrite k.val value)

/-! ### Debug (R44, R420) -/

/-- Debug access is open. -/
def State.dbgOpen (s : State) : Bool := s.flag F.SEC_LC_dbg

/-- DEBUG_HALT: a HALTED or RUNNING sequencer enters DEBUG. -/
def execDebugHalt (q : Fin 48) (s : State) : Host.Outcome State Fault Refusal :=
  let c := s.seq q.val
  .next (if s.dbgOpen && s.seqReached q.val && (c.run == .halted || c.run == .running) then
    s.setSeq q.val { c with run := .debug } else s)

/-- DEBUG_RESUME: DEBUG returns to RUNNING, at the pc it holds; so does a sequencer that was HALTED when the debug halt came
(DESIGN CHOICE, notes/assumptions/170). -/
def execDebugResume (q : Fin 48) (s : State) : Host.Outcome State Fault Refusal :=
  let c := s.seq q.val
  .next (if s.dbgOpen && s.seqReached q.val && c.run == .debug then s.setSeq q.val { c with run := .running } else s)

/-! ### Lockstep (R47, R48) -/

/-- The channels of a motion pair take their safe states with cause 3, and the bars their axes pace are asked to close
(R48, R265, R296, R315). -/
def State.motionMismatch (s : State) (o : Nat) : State :=
  let t := (List.range 2).foldl (fun u n =>
    if s.get (F.MOT_CFG_owner n) = o then
      let v := u.motorFault n 3
      if s.flag (F.MOT_CFG_axis_en n) then v.lineRequest o (s.get (F.MOT_CFG_axis n)) else v
    else u) s
  (List.range 4).foldl (fun u n =>
    if s.get (F.ST_CFG_owner n) = o then (s.stepAxes n).foldl (fun v k => v.lineRequest o k) (u.stepFault n 3) else u) t

/-- LOCKSTEP_MISMATCH: both cores enter FAULTED, SEQ_FAULT is posted, and the pair's safe actions are taken. R44 lists the
exit to FAULTED under RUNNING alone; a pair that is HALTED, WAITING or in DEBUG takes it too (DESIGN CHOICE,
notes/assumptions/171). -/
def State.mismatchPair (s : State) (p : Nat) : State :=
  let q := 2 * p
  let c := s.seq q
  if s.lockstep q && c.run != .faulted && c.run != .reset then
    let t := (s.setSeq q { c with run := .faulted, wait := .none, mismatch := true }).post 63 0x4E0 (seqLoc q) (w32 q)
    if p < 2 then t.setGcond p true else t.motionMismatch (p - 2)
  else s

def execLockstepMismatch (pair : Fin 4) (s : State) : Host.Outcome State Fault Refusal := .next (s.mismatchPair pair.val)

/-! ### Waits that end (R76, R80, R81, R142) -/

/-- A set signal completes every watcher, and one consuming waiter takes it (R81). -/
def State.sigWake (s : State) (sig : Nat) : State :=
  if s.signal sig then
    match s.winner sig with
    | none => s.wakeWatchers sig
    | some p =>
      let t := s.consume sig p
      if p < 64 then t.wakeSeq p else t.chAdvance (p - 64) ((t.chan (p - 64)).idx + 1)
  else s

def execSigwaitWake (sig : BitVec 8) (s : State) : Host.Outcome State Fault Refusal := .next (s.sigWake sig.toNat)

/-- SIGWAIT_TIMEOUT: the timeout expires first: rd receives 1, the signal stays (R80). -/
def execSigwaitTimeout (q : Fin 48) (s : State) : Host.Outcome State Fault Refusal :=
  .next (match (s.seq q.val).run, (s.seq q.val).wait with
    | .waiting, .signal _ _ rd true => if s.isShadow q.val then s else s.completeWait q.val rd 1
    | _, _ => s)

/-- WAITP_PASSED: the sill has reached the stamp (R142). -/
def execWaitpPassed (q : Fin 48) (s : State) : Host.Outcome State Fault Refusal :=
  .next (match (s.seq q.val).run, (s.seq q.val).wait with
    | .waiting, .position n rev stamp rd _ _ =>
      if (s.axis n).valid && atOrBeyond rev (s.axisSill n rev) stamp then s.completeWait q.val rd 0 else s
    | _, _ => s)

/-- WAITP_TIMEOUT: rs3 D4 FIRE cycles have elapsed since issue; in the cycle in which the sill reaches the stamp as well,
code 0 goes before code 1 (R142). -/
def execWaitpTimeout (q : Fin 48) (s : State) : Host.Outcome State Fault Refusal :=
  .next (match (s.seq q.val).run, (s.seq q.val).wait with
    | .waiting, .position n rev stamp rd limit issued =>
      if limit ≠ 0 ∧ issued + limit ≤ s.uptime then
        s.completeWait q.val rd (if (s.axis n).valid && atOrBeyond rev (s.axisSill n rev) stamp then 0 else 1)
      else s
    | _, _ => s)

end Sys2Proof.Machine
end

