-- ==== Sys2Proof/Machine/Fuse.lean ====
section
/-! DEFINITION. The fuse array, its shadow and its programming, the lifecycle, and debug access (R407 to R425). -/

namespace Sys2Proof.Machine

/-! ### Words (R407, R409) -/

/-- Index of a word. -/
def fuseIdx (b w : Nat) : Nat := b * 128 + w

/-- The word carries no check code: a control word, or a word 0 to 2 of bank 2. -/
def fuseBare (i : Nat) : Bool := i % 128 == 127 || i == 256 || i == 257 || i == 258

/-- The 7-bit columns of odd weight above 1: any choice of distinct ones, beside the unit columns of the check cells, makes a
code that corrects one cell and detects two (R407). -/
def oddColumns : List Nat := (List.range 128).filter (fun c => countBits 7 c % 2 == 1 && decide (1 < countBits 7 c))

/-- The columns of `n` data cells, each taken from those still left. -/
def fuseColumns : Nat → List Nat → List Nat
  | 0, _ => []
  | n + 1, left =>
    let k := Config.fuseColumn n % max 1 left.length
    left.getD k 0 :: fuseColumns n (left.eraseIdx k)

/-- The check bits of data: the sum of the columns of its set cells; a blank word is a codeword. -/
def fuseCheck (d : W32) : Nat :=
  if d = 0 then 0
  else (fuseColumns 32 oddColumns).zipIdx.foldl (fun c e => if natBit d.toNat e.2 then c ^^^ e.1 else c) 0

/-- The 39 cells of a target (R412). -/
def fuseTarget (i : Nat) (d : W32) : Nat := if fuseBare i then d.toNat else d.toNat + fuseCheck d * 2 ^ 32

/-- The cells are a codeword. -/
def fuseClean (c : Nat) : Bool := c / 2 ^ 32 == fuseCheck (w32 c)

/-- What the decoder makes of read cells: the data, whether it was corrected, and whether it is uncorrectable. -/
def fuseDecode (i c : Nat) : W32 × Bool × Bool :=
  if fuseBare i || fuseClean c then (w32 c, false, false)
  else match (List.range 39).find? (fun k => fuseClean (natSetBit c k (!natBit c k))) with
    | some k => (w32 (natSetBit c k (!natBit c k)), true, false)
    | none => (w32 c, false, true)

/-- The cells of a word of the array. -/
def State.fuseCells (s : State) (b w : Nat) : Nat := tabGet 0 s.fuse (fuseIdx b w)

/-- A word as read from the array. -/
def State.fuseRead (s : State) (b w : Nat) : W32 := (fuseDecode (fuseIdx b w) (s.fuseCells b w)).1

/-- The CRC of words 0 to 125 of data. -/
def fuseCrc (f : Nat → W32) : W32 := w32 (crc32c ((List.range 126).flatMap (fun w => leBytes 4 (f w).toNat)))

/-- The bank is sealed as the array reads. -/
def State.sealedNow (s : State) (b : Nat) : Bool := s.fuseRead b 126 == fuseCrc (s.fuseRead b)

/-- The bank's lock is set in the array, or in effect. -/
def State.lockedNow (s : State) (b : Nat) : Bool := natBit (s.fuseCells b 127) 0 || s.flag (F.FUSE_BSTAT_locked b)

/-- sup of a bank's control word. -/
def State.supNow (s : State) (b : Nat) : Nat := s.fuseCells b 127 / 16 % 16

/-! ### The shadow in effect (R410, R415) -/

/-- The bank whose shadow stands for a bank. -/
def State.bankInEffect (s : State) (b : Nat) : Nat := if s.flag (F.FUSE_BSTAT_superseded b) then 14 else b

/-- A shadow word of the bank in effect. -/
def State.shadowWord (s : State) (b w : Nat) : W32 := tabGet 0 s.shadow (fuseIdx (s.bankInEffect b) w)

/-- The bank raised its integrity alarm at this boot. -/
def State.bankAlarm (s : State) (b : Nat) : Bool := s.bit F.FUSE_INTEGRITY_alarm b

/-- Bytes of consecutive shadow words. -/
def State.shadowBytes (s : State) (b w n : Nat) : List W8 := (List.range n).flatMap (fun k => leBytes 4 (s.shadowWord b (w + k)).toNat)

/-- The device id (R408). -/
def State.deviceId (s : State) : List W8 := s.shadowBytes 1 0 4

/-- The device key, none when it is blank or bank 1 has its alarm (R418, R423). -/
def State.deviceKey (s : State) : Option (List W8) :=
  let k := s.shadowBytes 1 4 8
  if s.bankAlarm 1 || k.all (fun b => b == 0) then none else some k

/-- A key slot of bank 4 is trusted (R418). -/
def State.slotTrusted (s : State) (slot : Nat) : Bool :=
  let h := s.shadowBytes 4 (8 * slot) 8
  let ue := (List.range 8).any (fun k => natBit (tabGet 0 s.wordFlags (fuseIdx (s.bankInEffect 4) (8 * slot + k))) 2) ||
    natBit (tabGet 0 s.wordFlags (fuseIdx (s.bankInEffect 4) (16 + slot))) 2
  h.any (fun b => b != 0) && !natBit (tabGet 0 s.shadow (fuseIdx 4 127)).toNat (8 + slot) &&
    (!s.bankAlarm 4 || (s.shadowWord 4 (16 + slot) == w32 (crc32c h) && !ue))

/-! ### Events (R424) -/

/-- The fuse controller and SEC post as source 62 and raise its request. -/
def State.fusePost (s : State) (kind slice detail : Nat) : State := (s.post 62 kind (loc4 0x30 slice) (w32 detail)).raiseIrq 62

/-! ### Programming (R412 to R417) -/

/-- Cells of a word that a target asks for and the array lacks, in the order they are programmed. -/
def State.cellsFor (s : State) (b w target : Nat) : List (Nat × Nat) :=
  ((List.range 39).filter (fun k => natBit target k && !natBit (s.fuseCells b w) k)).map (fun k => (fuseIdx b w, k))

/-- The target would clear a cell (code 4). -/
def State.wouldClear (s : State) (b w target : Nat) : Bool := (s.fuseCells b w &&& target) != s.fuseCells b w

/-- One cell programmed. -/
def State.burn (s : State) (c : Nat × Nat) : State :=
  { s with fuse := tabPut s.fuse c.1 (natSetBit (tabGet 0 s.fuse c.1) c.2 true),
           wordFlags := tabPut s.wordFlags c.1 (natSetBit (tabGet 0 s.wordFlags c.1) 4 true) }

def State.burnAll (s : State) (cs : List (Nat × Nat)) : State := cs.foldl State.burn s

/-- What a command that passes its checks will do: the cells in order and its result. -/
abbrev FusePlan := List (Nat × Nat) × Nat

/-- Program one word of data. -/
def State.planWord (s : State) (b w : Nat) (d : W32) : FusePlan :=
  let t := fuseTarget (fuseIdx b w) d
  if s.wouldClear b w t then ([], 4)
  else if decide (w < 127) && (s.lockedNow b || s.sealedNow b) then ([], 5)
  else (s.cellsFor b w t, 0)

/-- SEAL: the CRC of the array goes into word 126. -/
def State.planSeal (s : State) (b : Nat) : FusePlan := s.planWord b 126 (fuseCrc (s.fuseRead b))

/-- FORCE is honoured in MANUFACTURE only (R414, R419). -/
def State.forced (s : State) : Bool := s.flag F.FUSE_CMD_force && s.get F.SEC_LC_state == 1

/-- LOCK: the lock cell, if the bank is sealed or FORCE is honoured. -/
def State.planLock (s : State) (b : Nat) : FusePlan :=
  if s.sealedNow b || s.forced then (s.cellsFor b 127 1, 0) else ([], 8)

/-- A further part of a command, planned on the array as the parts before leave it; a part that is refused ends it. -/
def State.andThen (s : State) (p : FusePlan) (go : Bool) (next : State → FusePlan) : FusePlan :=
  if p.2 != 0 || !go then p
  else
    let q := next (s.burnAll p.1)
    (p.1 ++ q.1, q.2)

/-- The words of a COMMIT: staged, not 0 and not equal to the word as read. -/
def State.commitWords (s : State) (b : Nat) : List Nat :=
  (List.range 126).filter (fun w => s.rd (R.FUSE_STAGE w) != 0 && s.rd (R.FUSE_STAGE w) != s.fuseRead b w)

/-- COMMIT. -/
def State.planCommit (s : State) (b : Nat) : FusePlan :=
  let plans := (s.commitWords b).map (fun w => s.planWord b w (s.rd (R.FUSE_STAGE w)))
  match plans.find? (fun p => p.2 != 0) with
  | some p => ([], p.2)
  | none =>
    let words : FusePlan := (plans.flatMap (fun p => p.1), 0)
    let seald := s.andThen words (s.flag F.FUSE_CMD_seal) (fun t => t.planSeal b)
    s.andThen seald (s.flag F.FUSE_CMD_lock) (fun t => t.planLock b)

/-- CTRL: the revoke bits of bank 4's control word. -/
def State.planCtrl (s : State) (b : Nat) : FusePlan :=
  let r := bitsOf (s.rd R.FUSE_DATA) 9 8
  if b != 4 || bitsOf (s.rd R.FUSE_DATA) 7 4 != 0 then ([], 7)
  else if (s.fuseCells b 127 / 256 % 4 &&& r) != s.fuseCells b 127 / 256 % 4 then ([], 4)
  else (s.cellsFor b 127 (r * 256), 0)

/-- SUPERSEDE (R415). -/
def State.planSupersede (s : State) (b : Nat) : FusePlan :=
  if b = 14 || s.supNow b != 0 || (List.range 16).any (fun c => c != b && s.supNow c == 14) ||
      !(s.sealedNow 14 && s.lockedNow 14) then ([], 9)
  else (s.cellsFor b 127 (14 * 16), 0)

/-- PROG of a control word, whose target is the data alone (R412): a reserved field is refused, a lock or a supersede set
this way answers to the checks of LOCK and SUPERSEDE. -/
def State.planControl (s : State) (b : Nat) (d : W32) : FusePlan :=
  if bitsOf d 31 10 != 0 || bitsOf d 3 1 != 0 || (b != 4 && bitsOf d 9 8 != 0) || (bitsOf d 7 4 != 0 && bitsOf d 7 4 != 14) then ([], 7)
  else if s.wouldClear b 127 d.toNat then ([], 4)
  else if bitsOf d 0 0 == 1 && !natBit (s.fuseCells b 127) 0 && (s.planLock b).2 != 0 then s.planLock b
  else if bitsOf d 7 4 == 14 && s.supNow b != 14 && (s.planSupersede b).2 != 0 then s.planSupersede b
  else (s.cellsFor b 127 d.toNat, 0)

/-- LCADV: the next bit into words 0, 1 and 2 of bank 2 (R417). -/
def State.planAdvance (s : State) (bit : Nat) : FusePlan :=
  ([0, 1, 2].flatMap (fun w => s.cellsFor 2 w (2 ^ bit)), 0)

/-- The lifecycle does not allow the bank (R419). -/
def State.lcForbids (s : State) (op b : Nat) : Bool :=
  match s.get F.SEC_LC_state with
  | 0 => false
  | 1 => false
  | 2 => b == 0 || b == 5 || b == 6
  | 3 => !(op == 4 || op == 5 || (decide (8 ≤ b) && decide (b ≤ 14)))
  | _ => true

/-- The conditions of the next lifecycle state hold, each judged on the bank in effect (R415, R419). -/
def State.advanceReady (s : State) : Bool :=
  let done := fun b => s.sealedNow (s.bankInEffect b) && s.lockedNow (s.bankInEffect b)
  match s.get F.SEC_LC_state with
  | 0 => true
  | 1 => done 1 && (s.slotTrusted 0 || s.slotTrusted 1)
  | 2 => done 1 && done 3 && done 4
  | _ => false

/-- The plan of an operation, its checks in the order 7, 3, 4, 5, 8, 9. -/
def State.fusePlan (s : State) (op b : Nat) : FusePlan :=
  if op = 6 then
    if s.get F.SEC_LC_state = 4 then ([], 7) else if s.advanceReady then s.planAdvance (s.get F.SEC_LC_state) else ([], 3)
  else if 10 ≤ op then ([], 7)
  else if b = 15 || b = 2 then ([], 7)
  else if op = 4 && (s.planCtrl b).2 == 7 then ([], 7)
  else if op = 0 && s.get F.FUSE_CMD_word == 127 && (s.planControl b (s.rd R.FUSE_DATA)).2 == 7 then ([], 7)
  else if s.lcForbids op b then ([], 3)
  else match op with
    | 0 => let w := s.get F.FUSE_CMD_word
           if w = 127 then s.planControl b (s.rd R.FUSE_DATA) else s.planWord b w (s.rd R.FUSE_DATA)
    | 1 => s.planCommit b
    | 2 => s.planSeal b
    | 3 => s.planLock b
    | 4 => s.planCtrl b
    | _ => s.planSupersede b

/-- PSTAT names the cell in progress. -/
def State.fuseAt (s : State) (b : Nat) (cs : List (Nat × Nat)) : State :=
  match cs with
  | [] => s.set F.FUSE_PSTAT_bank b
  | (i, k) :: _ => ((s.set F.FUSE_PSTAT_bank (i / 128)).set F.FUSE_PSTAT_word (i % 128)).set F.FUSE_PSTAT_cell k

/-- A command starts. -/
def State.fuseStart (s : State) (op b : Nat) (p : FusePlan) : State :=
  { (s.set F.FUSE_PSTAT_busy 1).fuseAt b p.1 with fuseJob := some ⟨op, b, p.1, p.2⟩ }

/-- A command ends: FUSE_DONE with its result. -/
def State.fuseEnd (s : State) (j : FuseJob) (result : Nat) : State :=
  (((({ s with fuseJob := none }.set F.FUSE_PSTAT_busy 0).set F.FUSE_PSTAT_paused 0).set F.FUSE_PSTAT_result result).fusePost
    0x4C3 j.bank (result * 2 ^ 24 + j.op * 16 + j.bank))

/-- A command is refused: its code is the result, and nothing is programmed. -/
def State.fuseRefused (s : State) (code : Nat) : State := s.set F.FUSE_PSTAT_result code

/-- RESUME goes on with a paused command inside the window. -/
def State.fuseResume (s : State) : State :=
  if s.flag F.FUSE_PSTAT_paused then
    if s.flag F.FUSE_VMON_inwin then s.set F.FUSE_PSTAT_paused 0 else s.fuseRefused 2
  else s

/-- ABORT after `n` further cells of the command. -/
def State.fuseAbort (s : State) (n : Nat) : State :=
  match s.fuseJob with
  | some j => (s.burnAll (if s.flag F.FUSE_PSTAT_paused then [] else j.cells.take n)).fuseEnd j 10
  | none => s

/-- A go of FUSE_CMD (R411 to R414). -/
def State.fuseGo (s : State) (n : Nat) : State :=
  let op := s.get F.FUSE_CMD_op
  let b := s.get F.FUSE_CMD_bank
  if op = 7 then s.fuseResume
  else if op = 8 then s.fuseAbort n
  else if s.fuseJob.isSome then s.fuseRefused 1
  else if op = 9 then s.fuseStart 9 b ([], 0)
  else if !s.flag F.FUSE_VMON_inwin then s.fuseRefused 2
  else
    let p := s.fusePlan op b
    if p.1.isEmpty && p.2 != 0 then s.fuseRefused p.2 else s.fuseStart op (if op = 6 then 2 else b) p

/-- A write of FUSE_CMD; `n` cells are programmed before an ABORT takes effect. -/
def State.fuseCmdWrite (s : State) (v : W32) (n : Nat) : State :=
  let t := s.plainWrite R.FUSE_CMD v
  if bitsOf v 31 31 = 1 then t.fuseGo n else t

/-- VDD_FUSE counts as inside 1.746 to 1.854 V: it leaves at the limits and is back 5 mV within them (R413). -/
def vddInside (was : Bool) (mv : Nat) : Bool :=
  if was then decide (1746 ≤ mv) && decide (mv ≤ 1854) else decide (1751 ≤ mv) && decide (mv ≤ 1849)

/-- The monitor's registers follow a measurement. -/
def State.vddMeasured (s : State) (mv : Nat) : State :=
  (s.set F.FUSE_VMON_inwin (if vddInside (s.flag F.FUSE_VMON_inwin) mv then 1 else 0)).set F.FUSE_VMON_mv mv

/-- VDD_FUSE has left its window: a running command pauses after `cells` more cells (R413). -/
def State.fusePause (s : State) (cells : Nat) : State :=
  match s.fuseJob with
  | some j =>
    if s.flag F.FUSE_PSTAT_paused || j.op == 9 then s
    else
      let rest := j.cells.drop cells
      let t := ({ s.burnAll (j.cells.take cells) with fuseJob := some { j with cells := rest } }.fuseAt j.bank rest).set
        F.FUSE_PSTAT_paused 1
      t.fusePost 0x4C2 j.bank (j.bank + t.get F.FUSE_PSTAT_word * 256 + t.get F.FUSE_PSTAT_cell * 2 ^ 16)
  | none => s

/-- The monitor of VDD_FUSE at a command: a measurement that leaves the window pauses what runs (R413). -/
def State.vddFuse (s : State) (mv : Nat) : State :=
  let t := s.vddMeasured mv
  if s.flag F.FUSE_VMON_inwin && !t.flag F.FUSE_VMON_inwin then t.fusePause 0 else t

/-- A go of one operation. -/
def State.fuseOp (s : State) (op : Nat) (value : W32) (mv : BitVec 12) : State :=
  (s.vddFuse mv.toNat).fuseCmdWrite (putBits (putBits value 27 24 op) 31 31 1) 0

def execFuseProg (value : W32) (mv : BitVec 12) (s : State) : Host.Outcome State Fault Refusal := .next (s.fuseOp 0 value mv)
def execFuseCommit (value : W32) (mv : BitVec 12) (s : State) : Host.Outcome State Fault Refusal := .next (s.fuseOp 1 value mv)
def execFuseSeal (value : W32) (mv : BitVec 12) (s : State) : Host.Outcome State Fault Refusal := .next (s.fuseOp 2 value mv)
def execFuseLock (value : W32) (mv : BitVec 12) (s : State) : Host.Outcome State Fault Refusal := .next (s.fuseOp 3 value mv)
def execFuseCtrl (value : W32) (mv : BitVec 12) (s : State) : Host.Outcome State Fault Refusal := .next (s.fuseOp 4 value mv)
def execFuseSupersede (value : W32) (mv : BitVec 12) (s : State) : Host.Outcome State Fault Refusal := .next (s.fuseOp 5 value mv)
def execFuseLcadv (value : W32) (mv : BitVec 12) (s : State) : Host.Outcome State Fault Refusal := .next (s.fuseOp 6 value mv)
def execFuseResume (value : W32) (mv : BitVec 12) (s : State) : Host.Outcome State Fault Refusal := .next (s.fuseOp 7 value mv)

def execFuseAbort (value : W32) (cells : Nat) (s : State) : Host.Outcome State Fault Refusal :=
  .next (s.fuseCmdWrite (putBits (putBits value 27 24 8) 31 31 1) cells)

def execFuseReread (value : W32) (s : State) : Host.Outcome State Fault Refusal :=
  .next (s.fuseCmdWrite (putBits (putBits value 27 24 9) 31 31 1) 0)

/-- A REREAD found words of a bank that differ from the shadow, or are newly MARGINAL: FUSE_DRIFT names the first that
differs, and the first MARGINAL one where none does (R411, R424). -/
def State.fuseDrift (s : State) (bad newly : List Nat) (b : Nat) : State :=
  let here := fun (is : List Nat) => is.filter (fun i => i / 128 == b)
  match (if (here bad).isEmpty then here newly else here bad) with
  | [] => s
  | i :: is => (s.set (F.FUSE_BSTAT_drift b) 1).fusePost 0x4C1 b (b + is.foldl min i % 128 * 256)

/-- A REREAD ends: the words that differ and those that read MARGINAL, words programmed since reset left out (R411). -/
def State.rereadDone (s : State) (differ marginal : List Nat) : State :=
  let flags := fun i => tabGet 0 s.wordFlags i
  let bad := differ.filter (fun i => !natBit (flags i) 4)
  let newly := marginal.filter (fun i => !natBit (flags i) 4 && !natBit (flags i) 0)
  let t := { s with wordFlags := s.wordFlags.map (fun e => (e.1, natSetBit e.2 3 false)) }
  let mark := fun (u : State) (i b : Nat) => { u with wordFlags := tabPut u.wordFlags i (natSetBit (tabGet 0 u.wordFlags i) b true) }
  let u := newly.foldl (fun w i => (mark w i 0).set (F.FUSE_BSTAT_marg (i / 128)) 1) (bad.foldl (fun w i => mark w i 3) t)
  (List.range 16).foldl (fun w b => w.fuseDrift bad newly b) u

/-- FUSE_OP_COMPLETE: a running command ends; `failed` is the cell of its list that never verified, `differ` and
`marginal` what a REREAD found (R411, R412). -/
def State.fuseDone (s : State) (failed : Option Nat) (differ marginal : List Nat) : State :=
  match s.fuseJob with
  | none => s
  | some j =>
    if s.flag F.FUSE_PSTAT_paused then s
    else if j.op = 9 then (s.rereadDone differ marginal).fuseEnd j 0
    else match failed with
      | some n =>
        if n < j.cells.length then
          let t := s.burnAll (j.cells.take n)
          let u := if t.freeN % 2 = 0 then t.drawn else t.drawn.burnAll ((j.cells.drop n).take 1)
          u.fuseEnd j 6
        else (s.burnAll j.cells).fuseEnd j j.result
      | none => (s.burnAll j.cells).fuseEnd j j.result

def execFuseOpComplete (failed : Option Nat) (differ marginal : List (Fin 2048)) (s : State) : Host.Outcome State Fault Refusal :=
  .next (s.fuseDone failed (differ.map Fin.val) (marginal.map Fin.val))

/-- FUSE_SUPPLY_EXIT: VDD_FUSE leaves its window after `cells` more cells of a running command (R413). -/
def execFuseSupplyExit (cells : Nat) (mv : BitVec 12) (s : State) : Host.Outcome State Fault Refusal :=
  .next (if vddInside (s.flag F.FUSE_VMON_inwin) mv.toNat then s.vddMeasured mv.toNat else (s.vddMeasured mv.toNat).fusePause cells)

/-- A reset ends a running command: some of its remaining cells are programmed (R412, R414). -/
def State.fuseCut (s : State) : State :=
  match s.fuseJob with
  | some j =>
    let n := if s.flag F.FUSE_PSTAT_paused then 0 else s.freeN % (j.cells.length + 1)
    { s.drawn.burnAll (j.cells.take n) with fuseJob := none }
  | none => s

/-! ### Debug access (R420 to R423) -/

/-- A byte list as the words of a register file, and back. -/
def State.wordBytes (s : State) (r : Nat → Nat) : List W8 := (List.range 8).flatMap (fun k => leBytes 4 (s.rd (r k)).toNat)

/-- The challenge is used up. -/
def State.dropChallenge (s : State) : State :=
  { (List.range 8).foldl (fun t k => t.wr (R.SEC_CHAL k) 0) s with chalPending := false }

/-- SEC_DATA is cleared. -/
def State.dropSecData (s : State) : State := (List.range 8).foldl (fun t k => t.wr (R.SEC_DATA k) 0) s

/-- An operation ends with a status. -/
def State.secEnd (s : State) (status : Nat) : State :=
  ({ s with secFailing := false }.dropSecData.set F.SEC_CMD_status status).set F.SEC_CMD_busy 0

/-- An attempt fails: it is counted and posted, the eighth locks out, and the result is reported 1 ms later (R421). -/
def State.secFail (s : State) : State :=
  let t := { s.set F.SEC_LC_fails (min 8 (s.get F.SEC_LC_fails + 1)) with secFailing := true }
  let u := (t.set F.SEC_CMD_busy 1).fusePost 0x4C5 0x10 (t.get F.SEC_LC_fails)
  if 8 ≤ t.get F.SEC_LC_fails then (u.set F.SEC_LC_lockout 1).fusePost 0x4C6 0x10 0 else u

/-- CHAL draws a challenge. -/
def State.secChal (s : State) : State :=
  { (List.range 8).foldl (fun (t : State) k => (t.wr (R.SEC_CHAL k) t.freeW).drawn) s with chalPending := true }.secEnd 0

/-- An attempt succeeds: debug access opens until the next system reset. -/
def State.secOpen (s : State) (how : Nat) : State := ((s.set F.SEC_LC_dbg 1).fusePost 0x4C4 0x10 how).secEnd 0

/-- HMAC over a purpose byte, the challenge and the device id. -/
def State.secExpect (s : State) (key : List W8) (purpose : W8) : List W8 :=
  hmac256 key (purpose :: (s.wordBytes R.SEC_CHAL ++ s.deviceId))

/-- RESP. -/
def State.secResp (s : State) : State :=
  if s.flag F.SEC_LC_lockout then s.secEnd 2
  else if s.get F.SEC_LC_state != 3 || s.dbgBarred || !natBit s.policy 1 then s.secEnd 4
  else match s.deviceKey with
    | none => s.secEnd 3
    | some k =>
      if s.chalPending && s.wordBytes R.SEC_DATA == s.secExpect k 1 then s.dropChallenge.secOpen 1 else s.dropChallenge.secFail

/-- PWD. -/
def State.secPwd (s : State) : State :=
  let h := s.shadowBytes 1 12 8
  if s.flag F.SEC_LC_lockout then s.secEnd 2
  else if s.get F.SEC_LC_state != 3 || s.dbgBarred || !natBit s.policy 0 then s.secEnd 4
  else if s.bankAlarm 1 || h.all (fun b => b == 0) then s.secEnd 3
  else if sha256 (s.wordBytes R.SEC_DATA) == h then s.secOpen 0 else s.secFail

/-- ATTEST. -/
def State.secAttest (s : State) : State :=
  let put := fun (t : State) (bs : List W8) => (wordsOf bs).zipIdx.foldl (fun u e => u.wr (R.SEC_ATT e.2) e.1) t
  match s.deviceKey with
  | none => (put s (List.replicate 32 0)).secEnd 3
  | some k =>
    (put s (hmac256 k ((2 : W8) :: (s.wordBytes R.SEC_DATA ++ s.deviceId ++ [BitVec.ofNat 8 (s.get F.SEC_LC_state)] ++
      s.wordBytes R.SYS_BOOTHASH)))).secEnd 0

/-- RMA (R422). -/
def State.secRma (s : State) : State :=
  if s.flag F.SEC_LC_lockout then s.secEnd 2
  else if s.get F.SEC_LC_state != 3 || !natBit s.policy 3 || !s.flag F.FUSE_VMON_inwin || s.fuseJob.isSome then s.secEnd 4
  else match s.deviceKey with
    | none => s.secEnd 3
    | some k =>
      if s.chalPending && s.wordBytes R.SEC_DATA == s.secExpect k 3 then
        (s.dropChallenge.secEnd 0).fuseStart 6 2 (s.planAdvance 3)
      else s.dropChallenge.secFail

/-- A go of SEC_CMD. -/
def State.secGo (s : State) : State :=
  match s.get F.SEC_CMD_op with
  | 0 => s.secChal
  | 1 => s.secResp
  | 2 => s.secPwd
  | 3 => s.secAttest
  | 4 => s.secRma
  | 5 => (s.set F.SEC_LC_dbg 0).secEnd 0
  | _ => s.secEnd 4

/-- With BOOTSEL = 11 no port but the debug port acts on the device (R390). -/
def State.hostShut (s : State) : Bool := s.get F.SYS_BOOTSTAT_straps / 8 == 3

/-- Writes of SEC registers are accepted from the debug port, the host port and the control pairs (R421). -/
def secWriter (m : Master) : Bool :=
  match m with
  | .seq q => decide (q.val < 4)
  | _ => true

/-- A write of SEC_CMD; go is ignored while busy. -/
def State.secCmdWrite (s : State) (m : Master) (v : W32) : State :=
  if secWriter m && !(m == .host && s.hostShut) then
    let t := s.plainWrite R.SEC_CMD v
    if bitsOf v 31 31 = 1 && !s.flag F.SEC_CMD_busy then t.secGo else t
  else s

def execSecChal (m : Master) (s : State) : Host.Outcome State Fault Refusal := .next (s.secCmdWrite m 0x80000000)
def execSecResp (m : Master) (s : State) : Host.Outcome State Fault Refusal := .next (s.secCmdWrite m 0x80000001)
def execSecPwd (m : Master) (s : State) : Host.Outcome State Fault Refusal := .next (s.secCmdWrite m 0x80000002)
def execSecAttest (m : Master) (s : State) : Host.Outcome State Fault Refusal := .next (s.secCmdWrite m 0x80000003)
def execSecRma (m : Master) (mv : BitVec 12) (s : State) : Host.Outcome State Fault Refusal :=
  .next ((s.vddFuse mv.toNat).secCmdWrite m 0x80000004)
def execSecClose (m : Master) (s : State) : Host.Outcome State Fault Refusal := .next (s.secCmdWrite m 0x80000005)

/-- SEC_FAIL_REPORT: 1 ms after a failed attempt its result is reported (R421). -/
def execSecFailReport (s : State) : Host.Outcome State Fault Refusal := .next (if s.secFailing then s.secEnd 1 else s)

/-- What an instruction of the test access does while debug access is open or closed (R420). -/
def State.tapActs (s : State) (i : TapInstr) : TapInstr :=
  if s.flag F.SEC_LC_dbg then i
  else match i with
    | .idcode => .idcode
    | .sample => .sample
    | _ => .bypass

end Sys2Proof.Machine
end

