-- ==== Sys2Proof/Machine/Supervisor.lean ====
section
/-! DEFINITION. The supervisor: FAULT_N, the watchdog, heartbeats, tiles out of service, the duplicate comparators and the
periodic self-test (R435 to R446). -/

namespace Sys2Proof.Machine

/-! ### FAULT_N (R436) -/

/-- A condition that forbids a release holds. -/
def State.faultHeld (s : State) : Bool := faultLatchOf (s.get F.SUP_GCOND_cond) != 0

/-- A write of SUP_FAULTN: release first, refused while a condition holds, then assert. -/
def State.faultnWrite (s : State) (v : W32) : State :=
  let s0 := if bitsOf v 28 28 = 1 then s.set F.SUP_FAULTN_err 0 else s
  let t := if bitsOf v 29 29 = 1 then
      if s0.faultHeld then s0.set F.SUP_FAULTN_err 1 else s0.setFaultLatch 0
    else s0
  if bitsOf v 30 30 = 1 then t.setFaultLatch (natSetBit (t.get F.SUP_FAULTN_latch) 4 true) else t

def execFaultnAssert (release : Bool) (s : State) : Host.Outcome State Fault Refusal :=
  .next (s.faultnWrite (if release then 0x60000000 else 0x40000000))

def execFaultnRelease (s : State) : Host.Outcome State Fault Refusal := .next (s.faultnWrite 0x20000000)

/-! ### The watchdog (R437) -/

/-- A write of SUP_WDOG: en stays on once set. -/
def State.wdogWrite (s : State) (v : W32) : State := s.plainWrite R.SUP_WDOG v

def execWatchdogStart (period : W16) (s : State) : Host.Outcome State Fault Refusal :=
  .next (s.wdogWrite (w32 (2 ^ 31 + period.toNat)))

/-- Only the control pairs and the host port service the watchdog. -/
def wdServicer (m : Master) : Bool :=
  match m with
  | .seq q => decide (q.val < 4)
  | .host => true
  | .debug => false

/-- A service ends the first stage. -/
def State.wdService (s : State) : State :=
  let t := { s.set F.SUP_WDOG_stage1 0 with wdFirst := false }
  if s.flag F.SUP_WDOG_stage1 then t.setGcond 4 false else t

/-- A write of SUP_WDKICK. -/
def State.wdKick (s : State) (m : Master) (key : Nat) : State :=
  if !wdServicer m then s
  else if key = 0x5A5A then { s with wdFirst := true }
  else if key = 0xA5A5 && s.wdFirst then s.wdService
  else { s with wdFirst := false }

def execWatchdogKick (m : Master) (key : W16) (s : State) : Host.Outcome State Fault Refusal := .next (s.wdKick m key.toNat)

/-- WATCHDOG_STAGE1: one period without service. -/
def execWatchdogStage1 (s : State) : Host.Outcome State Fault Refusal :=
  .next (if s.flag F.SUP_WDOG_en && !s.flag F.SUP_WDOG_stage1 then
    ((s.set F.SUP_WDOG_stage1 1).setGcond 4 true).post 63 0x4E5 (loc5 0x31) 0 else s)

/-! ### Heartbeats (R438) -/

/-- A write of SUP_HBs: accepted from the sequencer itself, or from the primary of its lockstep pair. -/
def State.heartbeat (s : State) (m : Master) (q : Nat) : State :=
  match m with
  | .seq w => if s.ctxOf q == w.val then { s with beats := tabPut s.beats q () } else s
  | _ => s

def execHeartbeat (m : Master) (q : Fin 48) (s : State) : Host.Outcome State Fault Refusal := .next (s.heartbeat m q.val)

/-- HEARTBEAT_TIMEOUT: a period ends. Without a heartbeat in it, a sequencer that runs or waits is halted, its bit set and
STATE_MISMATCH posted. -/
def State.heartbeatDue (s : State) (q : Nat) : State :=
  let st := s.seqState q
  if !s.flag (F.SUP_HBCFG_en q) || s.seqFused q then s
  else if (tabFind s.beats q).isSome then { s with beats := tabDel s.beats q }
  else if st = 2 ∨ st = 3 then
    let t := (s.seqStop q).setUnit q true
    let u := if q < 4 then t.setGcond (q / 2) true else t
    u.post 63 0x4E4 (seqLoc q) (w32 (st * 2 ^ 24 + q))
  else s

def execHeartbeatTimeout (q : Fin 48) (s : State) : Host.Outcome State Fault Refusal := .next (s.heartbeatDue q.val)

/-! ### Tiles out of service (R439) -/

/-- A write of SUP_TOOSk: the supervisor condition of each tile follows its bit; bits of fused-off lanes are ignored. -/
def State.toosWrite (s : State) (k : Nat) (v : W32) : State :=
  (List.range 32).foldl (fun t j =>
    if s.tileExists (32 * k + j) && s.bit (F.SUP_TOOS_oos k) j != natBit v.toNat j then
      (t.setBit (F.SUP_TOOS_oos k) j (natBit v.toNat j)).setCond (.tile (32 * k + j)) causeSupervisor (natBit v.toNat j)
    else t) s

def execTileOutOfService (k : Fin 12) (value : W32) (s : State) : Host.Outcome State Fault Refusal :=
  .next (s.toosWrite k.val value)

/-! ### Duplicate comparators and strobe builders (R441) -/

/-- LE_DUPLICATE_MISMATCH: the two copies differ; the supervisor takes the lane down. -/
def execLeDuplicateMismatch (lane : Fin 24) (builder : Bool) (s : State) : Host.Outcome State Fault Refusal :=
  .next (if s.laneFused lane.val then s else (s.laneDown lane.val).post 63 0x4E6 (laneLoc lane.val) (b2w builder))

/-! ### Periodic self-test (R442) -/

/-- A write of SUP_STEST starts tests; bits 6 to 8 are ignored. -/
def State.stestWrite (s : State) (v : W32) : State := { s with testing := s.testing ||| (v &&& 0x23F).toNat }

def execSelftestRun (run : BitVec 10) (s : State) : Host.Outcome State Fault Refusal := .next (s.stestWrite (run.zeroExtend 32))

/-- A monitor of the fire path: its failure is global condition 5 (R435). -/
def firePath (m : Nat) : Bool := m == 1 || m == 5

/-- What the result of a test does beyond its report. -/
def State.testVerdict (s : State) (m : Nat) (passed : Bool) : State :=
  let t := { s with monFailed := if firePath m then natSetBit s.monFailed m (!passed) else s.monFailed }
  let u := if passed then t.monitorPassed m
    else (t.set F.SUP_GUAR_st_fail 1).post 63 0x4E8 (loc4 0x31 m) (w32 m)
  if firePath m && s.bit F.SUP_GCOND_cond 5 != (t.monFailed != 0) then u.setGcond 5 (t.monFailed != 0) else u

/-- SELFTEST_COMPLETE: a test that runs ends. -/
def State.testDone (s : State) (m : Nat) (passed : Bool) : State :=
  if natBit s.testing m then
    let t := ({ s with testing := natSetBit s.testing m false }.setBit F.SUP_STRES_done m true).setBit F.SUP_STRES_pass m passed
    (t.postInjected 63 0x4E7 (loc4 0x31 m) (w32 ((if passed then 0x100 else 0) + m))).testVerdict m passed
  else s

def execSelftestComplete (mon : Fin 10) (passed : Bool) (s : State) : Host.Outcome State Fault Refusal :=
  .next (s.testDone mon.val passed)

end Sys2Proof.Machine
end

