-- ==== Sys2Proof/Machine/Flags.lean ====
section
/-! DEFINITION. Status registers that hardware computes: what a read of each finds, from the units it reports on. -/

namespace Sys2Proof.Machine

/-! ### The availability guarantee (R442, R445, R447) -/

/-- D4 cycles in a minute. -/
def cyclesPerMinute : Nat := 60000 * cyclesPerMs

/-- Minutes since a monitor last passed, at most 255; 255 while it never has since reset (R447). -/
def State.monAge (s : State) (m : Nat) : Nat :=
  match tabFind s.monPassed m with
  | some t => min 255 ((s.uptime - t) / cyclesPerMinute)
  | none => 255

/-- SUP_STAGEk: byte i is the age of monitor 4k + i. -/
def State.stageWord (s : State) (k : Nat) : W32 :=
  w32 ((List.range 4).foldl (fun acc i => acc + (if 4 * k + i < 10 then s.monAge (4 * k + i) else 0) * 256 ^ i) 0)

/-- A monitor age is 60 min or more. -/
def State.monStale (s : State) : Bool := (List.range 10).any (fun m => decide (60 ≤ s.monAge m))

/-- SUP_GUAR (R445): each bit a condition of the guarantee that fails; holds when none does. -/
def State.guarWord (s : State) : W32 :=
  let bits := (if s.flag F.SUP_GUAR_st_fail then 64 else 0) + (if (List.range 24).any (fun n => s.laneState n == 7) then 32 else 0) +
    (if s.splitPairs.isEmpty then 0 else 16) + (if s.flag F.SUP_CFG_recov then 0 else 8) + (if s.flag F.SUP_WDOG_en then 0 else 4) +
    (if s.monStale then 2 else 0) + (if s.flag F.MEM_SCRUB_en && !s.scrubLate then 0 else 1)
  w32 (bits + (if bits = 0 then 2 ^ 31 else 0))

/-! ### Sequencers, memory, fuses, pins -/

/-- SYS_SEQn_STAT (R44). -/
def State.seqStatWord (s : State) (q : Nat) : W32 :=
  let c := s.seq q
  w32 ((if s.lockstep q then 2 ^ 17 else 0) + (if c.lastIrq then 2 ^ 16 else 0) + c.lastCause % 32 * 2 ^ 8 + c.run.code)

/-- SYS_SEQn_SWI: pend. -/
def State.swiWord (s : State) (q : Nat) : W32 := if (s.seq q).swi then 4 else 0

/-- SYS_SIG_STATk: 32 of the signals (R81). -/
def State.sigWord (s : State) (k : Nat) : W32 := w32 (s.signals.toNat / 2 ^ (32 * k))

/-- MEM_RPDATA of the target in MEM_RPIDX (R339, R341). -/
def State.repairWord (s : State) : W32 :=
  let t := s.get F.MEM_RPIDX_idx
  w32 ((if (tabFind s.failedTargets t).isSome then 256 else 0) + 64 + tabGet 0 s.sparesUsed t)

/-- FUSE_SHw: the shadow in effect; the device key reads 0 (R410). -/
def State.fuseShWord (s : State) (b w : Nat) : W32 := if b = 1 ∧ 4 ≤ w ∧ w ≤ 11 then 0 else s.shadowWord b w

/-- FUSE_WFLAG of the word in FUSE_WIDX (R409, R411). -/
def State.wordFlagWord (s : State) : W32 :=
  w32 (tabGet 0 s.wordFlags (fuseIdx (s.get F.FUSE_WIDX_bank) (s.get F.FUSE_WIDX_word)))

/-- The levels at the GPIO balls: those found as reset ended, then whatever the outside presents (R277). -/
def State.gpioBalls (s : State) : W32 := if s.uptime = 0 then s.rd R.SNS_GPIO_IN else Config.gpioLevels s.memGen s.uptime

/-- SNS_GPIO_IN: the level of a ball that the device drives is the level driven (R277, R373). -/
def State.gpioWord (s : State) : W32 :=
  let oe := s.rd R.SNS_GPIO_OE
  let w := (s.gpioBalls &&& ~~~oe) ||| (s.rd R.SNS_GPIO_OUT &&& oe)
  if s.flag F.PTP_PPS_en then
    let g := s.get F.PTP_PPS_gpio
    putBits w g g (if s.uptime < s.ppsUntil then 1 else 0)
  else w

/-- SNS_GLVL.raw: the levels before the filters; as reset ends the filters are settled on them (R266, R277). -/
def State.gateBalls (s : State) : Nat := if s.uptime = 0 then s.get F.SNS_GLVL_raw else (Config.gateLevels s.memGen s.uptime).toNat

/-- LANEn_STATE with tries, the automatic retrains of the last second (R235, R239). -/
def State.laneStateWord (s : State) (n : Nat) : W32 := putBits (s.rd (R.LANE_STATE n)) 19 16 (s.recentRetrains n)

/-- What a read of a computed register finds; none where the register holds what is stored. -/
def State.statusWord (s : State) (id : RegId) (i j : Nat) : Option W32 :=
  match id with
  | .SYS_ID => some (putBits (s.rd R.SYS_ID) 11 8 s.variant)
  | .SYS_SEQ_STAT => some (s.seqStatWord i)
  | .SYS_SEQ_SWI => some (s.swiWord i)
  | .SYS_SIG_STAT => some (s.sigWord i)
  | .LANE_QSTAT => some (putBits (s.rd (R.LANE_QSTAT i)) 6 0 (s.lane i).queue.length)
  | .LANE_STATE => some (s.laneStateWord i)
  | .SUP_HOLD => some (putBits (s.rd R.SUP_HOLD) 6 0 s.ev.holding.length)
  | .SUP_STAGE => some (s.stageWord i)
  | .SUP_GUAR => some s.guarWord
  | .MEM_DSTAT => some (putBits (s.rd R.MEM_DSTAT) 7 4 (if s.dieBOff then 0xC else 0))
  | .MEM_RPDATA => some s.repairWord
  | .FUSE_SH => some (s.fuseShWord i j)
  | .FUSE_WFLAG => some s.wordFlagWord
  | .SEC_DATA => some 0
  | .SNS_GPIO_IN => some s.gpioWord
  | .SNS_GLVL => some (putBits (s.rd R.SNS_GLVL) 15 8 s.gateBalls)
  | _ => s.axisReg id i

end Sys2Proof.Machine
end

