-- ==== Sys2Proof/Machine/Pyr.lean ====
section
/-! DEFINITION. The PYR-32 base without memory, PYR-E, PYR-T and the CSRs (R50 to R63, R71 to R82, R123, R138, R142, R150).
A command names the sequencer that executes the instruction; a sequencer that does not execute performs none. -/

namespace Sys2Proof.Machine

/-! ### Results (R52, R53) -/

/-- An instruction whose one result goes to rd. -/
def State.alu (s : State) (q : Nat) (rd : BitVec 5) (v : W32) : State :=
  if s.executes q then s.setSeq q ((s.seq q).setX rd v).retired else s

/-- An illegal instruction: trap 2 with the word (R52). -/
def State.illegal (s : State) (q : Nat) (word : W32) : State := s.trap q trapIllegal word

def execAdd (q : Fin 48) (rd rs1 rs2 : BitVec 5) (s : State) : Host.Outcome State Fault Refusal :=
  .next (s.alu q.val rd ((s.seq q.val).x rs1 + (s.seq q.val).x rs2))
def execSub (q : Fin 48) (rd rs1 rs2 : BitVec 5) (s : State) : Host.Outcome State Fault Refusal :=
  .next (s.alu q.val rd ((s.seq q.val).x rs1 - (s.seq q.val).x rs2))
def execAnd (q : Fin 48) (rd rs1 rs2 : BitVec 5) (s : State) : Host.Outcome State Fault Refusal :=
  .next (s.alu q.val rd ((s.seq q.val).x rs1 &&& (s.seq q.val).x rs2))
def execOr (q : Fin 48) (rd rs1 rs2 : BitVec 5) (s : State) : Host.Outcome State Fault Refusal :=
  .next (s.alu q.val rd ((s.seq q.val).x rs1 ||| (s.seq q.val).x rs2))
def execXor (q : Fin 48) (rd rs1 rs2 : BitVec 5) (s : State) : Host.Outcome State Fault Refusal :=
  .next (s.alu q.val rd ((s.seq q.val).x rs1 ^^^ (s.seq q.val).x rs2))

/-- Shift amount: bits [4:0]. -/
def shiftOf (w : W32) : Nat := w.toNat % 32

def execSll (q : Fin 48) (rd rs1 rs2 : BitVec 5) (s : State) : Host.Outcome State Fault Refusal :=
  .next (s.alu q.val rd ((s.seq q.val).x rs1 <<< shiftOf ((s.seq q.val).x rs2)))
def execSrl (q : Fin 48) (rd rs1 rs2 : BitVec 5) (s : State) : Host.Outcome State Fault Refusal :=
  .next (s.alu q.val rd ((s.seq q.val).x rs1 >>> shiftOf ((s.seq q.val).x rs2)))
def execSra (q : Fin 48) (rd rs1 rs2 : BitVec 5) (s : State) : Host.Outcome State Fault Refusal :=
  .next (s.alu q.val rd (((s.seq q.val).x rs1).sshiftRight (shiftOf ((s.seq q.val).x rs2))))
def execSlt (q : Fin 48) (rd rs1 rs2 : BitVec 5) (s : State) : Host.Outcome State Fault Refusal :=
  .next (s.alu q.val rd (b2w (((s.seq q.val).x rs1).slt ((s.seq q.val).x rs2))))
def execSltu (q : Fin 48) (rd rs1 rs2 : BitVec 5) (s : State) : Host.Outcome State Fault Refusal :=
  .next (s.alu q.val rd (b2w (((s.seq q.val).x rs1).ult ((s.seq q.val).x rs2))))
def execMul (q : Fin 48) (rd rs1 rs2 : BitVec 5) (s : State) : Host.Outcome State Fault Refusal :=
  .next (s.alu q.val rd ((s.seq q.val).x rs1 * (s.seq q.val).x rs2))
def execMulh (q : Fin 48) (rd rs1 rs2 : BitVec 5) (s : State) : Host.Outcome State Fault Refusal :=
  .next (s.alu q.val rd (wordOfInt (((s.seq q.val).x rs1).toInt * ((s.seq q.val).x rs2).toInt / (2 : Int) ^ 32)))
def execMulhu (q : Fin 48) (rd rs1 rs2 : BitVec 5) (s : State) : Host.Outcome State Fault Refusal :=
  .next (s.alu q.val rd (w32 (((s.seq q.val).x rs1).toNat * ((s.seq q.val).x rs2).toNat / 2 ^ 32)))

/-- Signed quotient rounded toward zero; by 0 all ones. -/
def divS (a b : W32) : W32 := if b = 0 then 0xFFFFFFFF else a.sdiv b
/-- Unsigned quotient; by 0 all ones. -/
def divU (a b : W32) : W32 := if b = 0 then 0xFFFFFFFF else a.udiv b
/-- Signed remainder with the sign of the dividend; by 0 the dividend. -/
def remS (a b : W32) : W32 := if b = 0 then a else a.srem b
/-- Unsigned remainder; by 0 the dividend. -/
def remU (a b : W32) : W32 := if b = 0 then a else a.umod b
def minS (a b : W32) : W32 := if a.slt b then a else b
def maxS (a b : W32) : W32 := if a.slt b then b else a
def minU (a b : W32) : W32 := if a.ult b then a else b
def maxU (a b : W32) : W32 := if a.ult b then b else a

def execDiv (q : Fin 48) (rd rs1 rs2 : BitVec 5) (s : State) : Host.Outcome State Fault Refusal :=
  .next (s.alu q.val rd (divS ((s.seq q.val).x rs1) ((s.seq q.val).x rs2)))
def execDivu (q : Fin 48) (rd rs1 rs2 : BitVec 5) (s : State) : Host.Outcome State Fault Refusal :=
  .next (s.alu q.val rd (divU ((s.seq q.val).x rs1) ((s.seq q.val).x rs2)))
def execRem (q : Fin 48) (rd rs1 rs2 : BitVec 5) (s : State) : Host.Outcome State Fault Refusal :=
  .next (s.alu q.val rd (remS ((s.seq q.val).x rs1) ((s.seq q.val).x rs2)))
def execRemu (q : Fin 48) (rd rs1 rs2 : BitVec 5) (s : State) : Host.Outcome State Fault Refusal :=
  .next (s.alu q.val rd (remU ((s.seq q.val).x rs1) ((s.seq q.val).x rs2)))
def execMin (q : Fin 48) (rd rs1 rs2 : BitVec 5) (s : State) : Host.Outcome State Fault Refusal :=
  .next (s.alu q.val rd (minS ((s.seq q.val).x rs1) ((s.seq q.val).x rs2)))
def execMax (q : Fin 48) (rd rs1 rs2 : BitVec 5) (s : State) : Host.Outcome State Fault Refusal :=
  .next (s.alu q.val rd (maxS ((s.seq q.val).x rs1) ((s.seq q.val).x rs2)))
def execMinu (q : Fin 48) (rd rs1 rs2 : BitVec 5) (s : State) : Host.Outcome State Fault Refusal :=
  .next (s.alu q.val rd (minU ((s.seq q.val).x rs1) ((s.seq q.val).x rs2)))
def execMaxu (q : Fin 48) (rd rs1 rs2 : BitVec 5) (s : State) : Host.Outcome State Fault Refusal :=
  .next (s.alu q.val rd (maxU ((s.seq q.val).x rs1) ((s.seq q.val).x rs2)))
def execSlli (q : Fin 48) (rd rs1 sh : BitVec 5) (s : State) : Host.Outcome State Fault Refusal :=
  .next (s.alu q.val rd ((s.seq q.val).x rs1 <<< sh.toNat))
def execSrli (q : Fin 48) (rd rs1 sh : BitVec 5) (s : State) : Host.Outcome State Fault Refusal :=
  .next (s.alu q.val rd ((s.seq q.val).x rs1 >>> sh.toNat))
def execSrai (q : Fin 48) (rd rs1 sh : BitVec 5) (s : State) : Host.Outcome State Fault Refusal :=
  .next (s.alu q.val rd (((s.seq q.val).x rs1).sshiftRight sh.toNat))

/-- Leading zeros of a word, 0 to 32. -/
def leadingZeros (w : W32) : Nat := ((List.range 32).takeWhile (fun k => !natBit w.toNat (31 - k))).length

def execClz (q : Fin 48) (rd rs1 : BitVec 5) (s : State) : Host.Outcome State Fault Refusal :=
  .next (s.alu q.val rd (w32 (leadingZeros ((s.seq q.val).x rs1))))
def execPopc (q : Fin 48) (rd rs1 : BitVec 5) (s : State) : Host.Outcome State Fault Refusal :=
  .next (s.alu q.val rd (w32 (countBits 32 ((s.seq q.val).x rs1).toNat)))

/-! ### Immediates (R54) -/

def execAddi (q : Fin 48) (rd rs1 : BitVec 5) (imm : W16) (s : State) : Host.Outcome State Fault Refusal :=
  .next (s.alu q.val rd ((s.seq q.val).x rs1 + sx16 imm))
def execAndi (q : Fin 48) (rd rs1 : BitVec 5) (imm : W16) (s : State) : Host.Outcome State Fault Refusal :=
  .next (s.alu q.val rd ((s.seq q.val).x rs1 &&& zx16 imm))
def execOri (q : Fin 48) (rd rs1 : BitVec 5) (imm : W16) (s : State) : Host.Outcome State Fault Refusal :=
  .next (s.alu q.val rd ((s.seq q.val).x rs1 ||| zx16 imm))
def execXori (q : Fin 48) (rd rs1 : BitVec 5) (imm : W16) (s : State) : Host.Outcome State Fault Refusal :=
  .next (s.alu q.val rd ((s.seq q.val).x rs1 ^^^ zx16 imm))
def execSlti (q : Fin 48) (rd rs1 : BitVec 5) (imm : W16) (s : State) : Host.Outcome State Fault Refusal :=
  .next (s.alu q.val rd (b2w (((s.seq q.val).x rs1).slt (sx16 imm))))
def execSltiu (q : Fin 48) (rd rs1 : BitVec 5) (imm : W16) (s : State) : Host.Outcome State Fault Refusal :=
  .next (s.alu q.val rd (b2w (((s.seq q.val).x rs1).ult (sx16 imm))))
def execLui (q : Fin 48) (rd : BitVec 5) (imm : W16) (s : State) : Host.Outcome State Fault Refusal :=
  .next (s.alu q.val rd (zx16 imm <<< 16))

/-! ### Branches and jumps (R57) -/

/-- The context after an instruction that continues at a target. -/
def Seq.retiredTo (c : Seq) (target : W32) : Seq := { c with pc := target, instret := c.instret + 1 }

/-- A branch. -/
def State.branch (s : State) (q : Nat) (taken : Bool) (off : W16) : State :=
  if s.executes q then
    let c := s.seq q
    s.setSeq q (if taken then c.retiredTo (c.pc + off16 off) else c.retired)
  else s

def execBeq (q : Fin 48) (rs1 rs2 : BitVec 5) (off : W16) (s : State) : Host.Outcome State Fault Refusal :=
  .next (s.branch q.val ((s.seq q.val).x rs1 == (s.seq q.val).x rs2) off)
def execBne (q : Fin 48) (rs1 rs2 : BitVec 5) (off : W16) (s : State) : Host.Outcome State Fault Refusal :=
  .next (s.branch q.val ((s.seq q.val).x rs1 != (s.seq q.val).x rs2) off)
def execBlt (q : Fin 48) (rs1 rs2 : BitVec 5) (off : W16) (s : State) : Host.Outcome State Fault Refusal :=
  .next (s.branch q.val (((s.seq q.val).x rs1).slt ((s.seq q.val).x rs2)) off)
def execBge (q : Fin 48) (rs1 rs2 : BitVec 5) (off : W16) (s : State) : Host.Outcome State Fault Refusal :=
  .next (s.branch q.val (!((s.seq q.val).x rs1).slt ((s.seq q.val).x rs2)) off)
def execBltu (q : Fin 48) (rs1 rs2 : BitVec 5) (off : W16) (s : State) : Host.Outcome State Fault Refusal :=
  .next (s.branch q.val (((s.seq q.val).x rs1).ult ((s.seq q.val).x rs2)) off)
def execBgeu (q : Fin 48) (rs1 rs2 : BitVec 5) (off : W16) (s : State) : Host.Outcome State Fault Refusal :=
  .next (s.branch q.val (!((s.seq q.val).x rs1).ult ((s.seq q.val).x rs2)) off)

def execJal (q : Fin 48) (rd : BitVec 5) (off : BitVec 21) (s : State) : Host.Outcome State Fault Refusal :=
  .next (if s.executes q.val then
    let c := s.seq q.val
    s.setSeq q.val ((c.setX rd (c.pc + 4)).retiredTo (c.pc + off21 off))
  else s)

/-- JALR: a target that is not a multiple of 4 traps and writes no rd. -/
def execJalr (q : Fin 48) (rd rs1 : BitVec 5) (imm : W16) (s : State) : Host.Outcome State Fault Refusal :=
  .next (if s.executes q.val then
    let c := s.seq q.val
    let target := c.x rs1 + sx16 imm
    if target.toNat % 4 = 0 then s.setSeq q.val ((c.setX rd (c.pc + 4)).retiredTo target)
    else s.trap q.val trapTarget target
  else s)

/-! ### System (R52, R71, R72, R76) -/

def execEcall (q : Fin 48) (s : State) : Host.Outcome State Fault Refusal :=
  .next (if s.executes q.val then s.trap q.val trapCall 0 else s)

/-- EBREAK traps while debug access is closed and enters DEBUG while it is open; where a resume then continues is not
stated, at the EBREAK or behind it (R44, R420). -/
def execEbreak (q : Fin 48) (s : State) : Host.Outcome State Fault Refusal :=
  .next (if s.executes q.val then
    if s.dbgOpen then
      let c := s.seq q.val
      s.drawn.setSeq q.val { c with run := .debug, pc := if s.freeN % 2 = 0 then c.pc else c.pc + 4 }
    else s.trap q.val trapBreak 0
  else s)

def execEret (q : Fin 48) (s : State) : Host.Outcome State Fault Refusal :=
  .next (if s.executes q.val then s.setSeq q.val (s.seq q.val).returned else s)

def execWfi (q : Fin 48) (s : State) : Host.Outcome State Fault Refusal :=
  .next (if s.executes q.val then s.setSeq q.val { s.seq q.val with run := .waiting, wait := .wfi } else s)

/-! ### CSRs (R58, R59) -/

/-- SEQID. -/
def State.seqId (s : State) (q : Nat) : W32 := w32 (q + groupOf q * 2 ^ 8 + (if s.lockstep q then 2 ^ 10 else 0))

/-- STATUS. -/
def Seq.status (c : Seq) : W32 := b2w c.ie ||| b2w c.pie <<< 1 ||| b2w c.inh <<< 2

/-- The value of a CSR. -/
def State.csr (s : State) (q n : Nat) : W32 :=
  let c := s.seq q
  match n with
  | 0 => s.seqId q
  | 1 => c.status
  | 2 => c.epc
  | 3 => c.cause
  | 4 => c.tval
  | 5 => c.vbase
  | 6 => c.ieMask
  | 7 => s.seqIp q
  | 8 => c.scratch
  | 0x10 => c.cycle.truncate 32
  | 0x11 => c.cycleH
  | 0x12 => c.instret.truncate 32
  | 0x13 => c.instretH
  | 0x14 => c.timecmp
  | 0x15 => c.timecmpH
  | n => tabGet 0 c.sigmask (n - 0x20)

/-- What a read of a CSR latches. -/
def Seq.csrLatched (c : Seq) (n : Nat) : Seq :=
  if n = 0x10 then { c with cycleH := (c.cycle >>> 32).truncate 32 }
  else if n = 0x12 then { c with instretH := (c.instret >>> 32).truncate 32 }
  else c

/-- The context after a write of a CSR; RO CSRs ignore it, reserved bits stay 0. -/
def Seq.csrWritten (c : Seq) (n : Nat) (v : W32) : Seq :=
  match n with
  | 1 => { c with ie := v.getLsbD 0, pie := v.getLsbD 1, inh := v.getLsbD 2 }
  | 2 => { c with epc := v &&& 0xFFFFFFFC }
  | 3 => { c with cause := v &&& 0x8000001F }
  | 4 => { c with tval := v }
  | 5 => { c with vbase := v &&& 0xFFFFFF00 }
  | 6 => { c with ieMask := v }
  | 8 => { c with scratch := v }
  | 0x14 => { c with timecmp := v }
  | 0x15 => { c with timecmpH := v }
  | n => if 0x20 ≤ n ∧ n < 0x28 then { c with sigmask := tabPut c.sigmask (n - 0x20) v } else c

/-- A CSR instruction: the old value goes to rd, and the new one, if any, to the CSR. -/
def State.csrOp (s : State) (q : Nat) (rd rs1 : BitVec 5) (sub : Nat) (csr : BitVec 12) (new : Option W32) : State :=
  if !s.executes q then s
  else if !csrListed csr.toNat then s.illegal q (iWord 0x31 rd rs1 (BitVec.ofNat 16 (sub * 2 ^ 12 + csr.toNat)))
  else
    let c := ((s.seq q).csrLatched csr.toNat).setX rd (s.csr q csr.toNat)
    s.setSeq q (match new with | some v => c.csrWritten csr.toNat v | none => c).retired

def execCsrrw (q : Fin 48) (rd rs1 : BitVec 5) (csr : BitVec 12) (s : State) : Host.Outcome State Fault Refusal :=
  .next (s.csrOp q.val rd rs1 0 csr (some ((s.seq q.val).x rs1)))
def execCsrrs (q : Fin 48) (rd rs1 : BitVec 5) (csr : BitVec 12) (s : State) : Host.Outcome State Fault Refusal :=
  .next (s.csrOp q.val rd rs1 1 csr (if rs1 = 0 then none else some (s.csr q.val csr.toNat ||| (s.seq q.val).x rs1)))
def execCsrrc (q : Fin 48) (rd rs1 : BitVec 5) (csr : BitVec 12) (s : State) : Host.Outcome State Fault Refusal :=
  .next (s.csrOp q.val rd rs1 2 csr (if rs1 = 0 then none else some (s.csr q.val csr.toNat &&& ~~~(s.seq q.val).x rs1)))

/-! ### PYR-E: fences, signals, POST (R60, R79 to R82) -/

/-- The table buffer of a cluster's sequencer is no longer valid (R165). -/
def State.tableDrop (s : State) (q : Nat) : State :=
  if hasV q then (s.setSeq q { s.seq q with tbuf := [] }).set (F.RC_TBUF_valid (q - 8)) 0 else s

/-- FENCE: every earlier access of a command has been performed when the next is executed; it retires, and a cluster's
table buffer is invalidated (R165). -/
def State.fence (s : State) (q : Nat) : State :=
  if s.executes q then (s.tableDrop q).setSeq q ((s.tableDrop q).seq q).retired else s

def execFence (q : Fin 48) (s : State) : Host.Outcome State Fault Refusal := .next (s.fence q.val)

/-- FENCE.I has the effect of FENCE and then discards the prefetch buffer. -/
def State.fenceI (s : State) (q : Nat) : State :=
  if s.executes q then (s.fence q).setSeq q { (s.fence q).seq q with prefetch := [] } else s

def execFenceI (q : Fin 48) (s : State) : Host.Outcome State Fault Refusal := .next (s.fenceI q.val)

/-- The signal a register names: bits [7:0]. -/
def Seq.sigOf (c : Seq) (r : BitVec 5) : Nat := (c.x r).toNat % 256

def execSigset (q : Fin 48) (rs1 : BitVec 5) (s : State) : Host.Outcome State Fault Refusal :=
  .next (if s.executes q.val then (s.setSeq q.val (s.seq q.val).retired).signalSet ((s.seq q.val).sigOf rs1) else s)
def execSigclr (q : Fin 48) (rs1 : BitVec 5) (s : State) : Host.Outcome State Fault Refusal :=
  .next (if s.executes q.val then (s.setSeq q.val (s.seq q.val).retired).clearSignal ((s.seq q.val).sigOf rs1) else s)

/-- A wait for a signal begins; a set signal ends it at once, for a consuming wait in competition (R80, R81). -/
def State.sigwait (s : State) (q : Nat) (consume : Bool) (rd rs1 rs2 : BitVec 5) : State :=
  if s.executes q then
    let c := (s.tableDrop q).seq q
    let t := (s.tableDrop q).setSeq q { c with run := .waiting, wait := .signal (c.sigOf rs1) consume rd.toNat (c.x rs2 != 0) }
    if s.signal (c.sigOf rs1) then (if consume then t.sigWake (c.sigOf rs1) else t.wakeSeq q) else t
  else s

def execSigwait (q : Fin 48) (rd rs1 rs2 : BitVec 5) (s : State) : Host.Outcome State Fault Refusal :=
  .next (s.sigwait q.val true rd rs1 rs2)
def execSigwaitn (q : Fin 48) (rd rs1 rs2 : BitVec 5) (s : State) : Host.Outcome State Fault Refusal :=
  .next (s.sigwait q.val false rd rs1 rs2)

/-- SIGTST (R80). -/
def State.sigtst (s : State) (q : Nat) (rd rs1 : BitVec 5) : State :=
  if s.executes q then (s.tableDrop q).alu q rd (b2w (s.signal ((s.seq q).sigOf rs1))) else s

def execSigtst (q : Fin 48) (rd rs1 : BitVec 5) (s : State) : Host.Outcome State Fault Refusal := .next (s.sigtst q.val rd rs1)

/-- SIGTSTC: the state is read and the signal cleared; against waiting consumers the round-robin decides, and a loser
reads 0 (R81). -/
def State.sigtstc (s0 : State) (q : Nat) (rd rs1 : BitVec 5) : State :=
  if s0.executes q then
    let s := s0.tableDrop q
    let c := s.seq q
    let sig := c.sigOf rs1
    if s.signal sig then
      let asWaiter := s.setSeq q { c with run := .waiting, wait := .signal sig true rd.toNat false }
      if asWaiter.winner sig = some q then (s.consume sig q).alu q rd 1
      else (s.sigWake sig).alu q rd 0
    else s.alu q rd 0
  else s0

def execSigtstc (q : Fin 48) (rd rs1 : BitVec 5) (s : State) : Host.Outcome State Fault Refusal := .next (s.sigtstc q.val rd rs1)

/-- The code of POST's checks 4, 2 and 3; 0 when they pass (R82, R433). -/
def State.postCheck (s : State) (q : Nat) (ctl : W32) : Nat :=
  let src := bitsOf ctl 31 24
  if 1 ≤ src ∧ src ≤ 117 ∧ src ≠ q then 4
  else if 118 ≤ src && !(s.flag (F.SUP_FWG_en (src - 118)) && s.get (F.SUP_FWG_seq (src - 118)) == q) then 2
  else if bitsOf ctl 15 0 < 0x8000 then 3
  else 0

/-- The record POST builds. -/
def State.postRecord (s : State) (q : Nat) (ctl detail : W32) (loc : W64) : Rec :=
  let src := bitsOf ctl 31 24
  let ax := bitsOf ctl 23 20
  ⟨if src = 0 then q else src, bitsOf ctl 15 0, bitsOf ctl 19 16, if ax < 8 then ax else 0xF,
    if ax < 8 then stampOf (s.axisPos ax) else 0, loc, detail, false⟩

/-- POST: checks 4, 2, 3, then acceptance with check 1. -/
def State.postInsn (s : State) (q : Nat) (rd rs1 rs2 rs3 : BitVec 5) : State :=
  if !s.executes q then s
  else if rs3.toNat % 2 = 1 then s.illegal q (xWord 0x34 rd rs1 rs2 rs3 0x10)
  else
    let c := s.seq q
    let loc := if rs3 = 0 then seqLoc q else (c.x (rs3 + 1)) ++ (c.x rs3)
    let code := s.postCheck q (c.x rs1)
    if code ≠ 0 then s.alu q rd (w32 code)
    else
      let r := s.postFirmware (s.postRecord q (c.x rs1) (c.x rs2) loc)
      r.2.alu q rd (w32 r.1)

def execPost (q : Fin 48) (rd rs1 rs2 rs3 : BitVec 5) (s : State) : Host.Outcome State Fault Refusal :=
  .next (s.postInsn q.val rd rs1 rs2 rs3)

/-! ### PYR-T (R61, R62, R123, R138, R142, R150) -/

/-- WAITP at issue: code 4, then 0, else it waits (R142). -/
def State.waitp (s : State) (q : Nat) (rd rs1 rs2 rs3 : BitVec 5) : State :=
  if !s.executes q then s
  else if !hasT q then s.illegal q (xWord 0x35 rd rs1 rs2 rs3 0)
  else
    let c := s.seq q
    let n := bitsOf (c.x rs1) 2 0
    let rev := bitsOf (c.x rs1) 8 8 == 1
    if !(s.axis n).valid then s.alu q rd 4
    else if atOrBeyond rev (s.axisSill n rev) (c.x rs2) then s.alu q rd 0
    else s.setSeq q { c with run := .waiting, wait := .position n rev (c.x rs2) rd.toNat (c.x rs3).toNat s.uptime }

def execWaitp (q : Fin 48) (rd rs1 rs2 rs3 : BitVec 5) (s : State) : Host.Outcome State Fault Refusal :=
  .next (s.waitp q.val rd rs1 rs2 rs3)

/-- The stamp of R62. -/
def stampAt (ref dist mul : W32) : W32 := wordOfInt ((ref.toNat : Int) + (dist.toInt * mul.toInt + 0x80) / 256)

def execStamp (q : Fin 48) (rd rs1 rs2 rs3 : BitVec 5) (s : State) : Host.Outcome State Fault Refusal :=
  let c := s.seq q.val
  .next (if hasT q.val then s.alu q.val rd (stampAt (c.x rs1) (c.x rs2) (c.x rs3))
    else if s.executes q.val then s.illegal q.val (xWord 0x35 rd rs1 rs2 rs3 1) else s)

/-- ARM on a lane's queue. -/
def State.armInsn (s : State) (q : Nat) (rd rs1 rs2 : BitVec 5) : State :=
  if !s.executes q then s
  else if !hasT q then s.illegal q (xWord 0x35 rd rs1 rs2 0 2)
  else
    let r := s.arm (q - 24) ((s.seq q).x rs1) ((s.seq q).x rs2)
    r.2.alu q rd (w32 r.1)

def execArm (q : Fin 48) (rd rs1 rs2 : BitVec 5) (s : State) : Host.Outcome State Fault Refusal := .next (s.armInsn q.val rd rs1 rs2)

/-- CANCEL on a lane's queue. -/
def State.cancelInsn (s : State) (q : Nat) (rd rs1 : BitVec 5) : State :=
  if !s.executes q then s
  else if !hasT q then s.illegal q (xWord 0x35 rd rs1 0 0 3)
  else
    let r := s.cancelTag (q - 24) ((s.seq q).x rs1)
    r.2.alu q rd (w32 r.1)

def execCancel (q : Fin 48) (rd rs1 : BitVec 5) (s : State) : Host.Outcome State Fault Refusal := .next (s.cancelInsn q.val rd rs1)

/-- An AXIS register as it stands. -/
def State.axisWord (s : State) (id : RegId) (n : Nat) : W32 := (s.axisReg id n).getD 0

/-- The two words of an AXRD group (R123). -/
def State.axisGroup (s : State) (n g : Nat) : W32 × W32 :=
  match g with
  | 0 => (s.axisWord .AX_POS n, s.axisWord .AX_STATE n &&& 0xFF07C0FF)
  | 1 => (s.axisWord .AX_IPOS n, s.axisSill n (s.axis n).a.rev)
  | 2 => (s.axisWord .AX_TS n, s.axisWord .AX_SPEED n)
  | _ => (s.axisWord .AX_SILLF n, s.axisWord .AX_SILLR n)

/-- The context with a register pair written, rd before rd + 1 (R63). -/
def Seq.setPair (c : Seq) (rd : BitVec 5) (p : W32 × W32) : Seq := (c.setX rd p.1).setX (rd + 1) p.2

def execAxrd (q : Fin 48) (rd rs1 : BitVec 5) (s : State) : Host.Outcome State Fault Refusal :=
  let c := s.seq q.val
  .next (if !s.executes q.val then s
    else if !hasT q.val || !pairOk rd then s.illegal q.val (xWord 0x35 rd rs1 0 0 4)
    else s.setSeq q.val (c.setPair rd (s.axisGroup (bitsOf (c.x rs1) 2 0) (bitsOf (c.x rs1) 9 8))).retired)

end Sys2Proof.Machine
end

