-- ==== Sys2Proof/Machine/Reload.lean ====
section
/-! DEFINITION. Section descriptors, and the reload of one sequencer from the retained area (R85, R399, R400, R404). -/

namespace Sys2Proof.Machine

/-- A section descriptor (R85). -/
structure Section where
  type : Nat
  flags : Nat
  size : Nat
  target : Nat
  offset : Nat
  rsvd : Nat
  mask : Nat
  hash : List W8
deriving DecidableEq, Repr

/-- The descriptor that 64 bytes hold. -/
def sectionOf (bs : List W8) : Section :=
  { type := fieldLE bs 0 2, flags := fieldLE bs 2 2, size := fieldLE bs 4 4, target := fieldLE bs 8 8, offset := fieldLE bs 0x10 4,
    rsvd := fieldLE bs 0x14 4, mask := fieldLE bs 0x18 8, hash := (bs.drop 0x20).take 32 }

def secText : Nat := 1
def secData : Nat := 2
def secZero : Nat := 3
def secTable : Nat := 4
def secRegs : Nat := 5
def secEntry : Nat := 6

/-- The section has contents: ZERO and ENTRY have none. -/
def Section.stored (x : Section) : Bool := x.type != secZero && x.type != secEntry

/-- The section fills memory at its target. -/
def Section.filled (x : Section) : Bool := x.type == secText || x.type == secData || x.type == secZero || x.type == secTable

/-- The 64-byte pieces of a list of descriptors. -/
def sectionsOf : Nat → List W8 → List Section
  | 0, _ => []
  | n + 1, bs => sectionOf bs :: sectionsOf n (bs.drop 64)

/-- Bytes are written with fresh check bits. -/
def State.fill (s : State) (a : Nat) (bs : List W8) : State := (s.wrBytes a bs).written a bs.length

/-! ### The retained area (R399) -/

def retainedBase : Nat := 0x01F0000000

/-- The home bank of a sequencer: base and size (R25, R320). -/
def homeBank (q : Nat) : Nat × Nat :=
  if q < 4 then (0x03000000 + q * 0x200000, 0x200000)
  else if q < 8 then (0x03800000, 0x100000)
  else if q < 24 then (0x00400000 + (q - 8) * 0x200000, 0x200000)
  else (0x02400000 + (q - 24) * 0x80000, 0x80000)

/-- An entry is copied for a sequencer: it selects it and lies wholly in its home bank. -/
def Section.reloads (x : Section) (q : Nat) : Bool :=
  x.filled && natBit x.mask q && decide ((homeBank q).1 ≤ x.target) && decide (x.target + x.size ≤ (homeBank q).1 + (homeBank q).2)

/-! ### A reload (R400) -/

/-- A sequencer may be reloaded: it is present, and it and its pair's primary are HALTED. -/
def State.reloadable (s : State) (q : Nat) : Bool :=
  decide (q < 48) && !s.seqFused q && (s.seq q).run == .halted && (decide (8 ≤ q) || (s.seq (q / 2 * 2)).run == .halted)

/-- A write of SYS_RLOAD: a go is refused while busy or while the sequencer may not be reloaded. -/
def State.rloadWrite (s : State) (v : W32) : State :=
  if bitsOf v 31 31 = 1 then
    if s.flag F.SYS_RLOAD_busy || !s.reloadable (bitsOf v 5 0) then s.set F.SYS_RLOAD_err 1
    else { (s.plainWrite R.SYS_RLOAD v).set F.SYS_RLOAD_busy 1 with reloadSeq := bitsOf v 5 0 }
  else s.plainWrite R.SYS_RLOAD v

def execReloadGo (value : W32) (s : State) : Host.Outcome State Fault Refusal := .next (s.rloadWrite (putBits value 31 31 1))

/-- The reload ends with a status; a failure is posted (R400, R404). -/
def State.reloadEnds (s : State) (status : Nat) : State :=
  let t := (s.set F.SYS_RLOAD_busy 0).set F.SYS_RLOAD_status status
  if status = 1 then t else t.post 63 0x4A2 (seqLoc s.reloadSeq) (w32 (status * 256 + s.reloadSeq))

/-- What an entry's copy holds, as the engine reads it. -/
def State.retainedCopy (s : State) (x : Section) : Option (List W8) × State :=
  if x.stored then s.dataRead 0xFF (retainedBase + x.offset) x.size else (some [], s)

/-- The entries are copied in order, each compared as it is copied. -/
def reloadCopies (q : Nat) : List Section → State → Bool × State
  | [], s => (true, s)
  | x :: xs, s =>
    if x.reloads q then
      match s.retainedCopy x with
      | (none, t) => (false, t)
      | (some bs, t) =>
        let u := t.fill x.target (if x.type = secZero then List.replicate x.size 0 else bs)
        if sha256 bs == x.hash then reloadCopies q xs u else (false, u)
    else reloadCopies q xs s

/-- SYS_SEQn_ENTRY from the ENTRY entries that select the sequencer. -/
def reloadEntries (q : Nat) (xs : List Section) (s : State) : State :=
  xs.foldl (fun t x => if x.type == secEntry && natBit x.mask q then t.plainWrite (R.SYS_SEQ_ENTRY q) (w32 x.target) else t) s

/-- The words of a hash register group. -/
def State.hashRegs (s : State) (a : Nat) : List W8 := (List.range 8).flatMap (fun k => leBytes 4 (s.rd (a + 4 * k)).toNat)

/-- The reload engine's work. -/
def State.reload (s : State) : State :=
  let n := s.get F.SYS_RTCNT_n
  match s.dataRead 0xFF retainedBase (64 * n) with
  | (none, t) => t.reloadEnds 2
  | (some table, t) =>
    if sha256 table != s.hashRegs (R.SYS_RTHASH 0) then t.reloadEnds 2
    else
      let xs := sectionsOf n table
      match reloadCopies s.reloadSeq xs t with
      | (false, u) => u.reloadEnds 3
      | (true, u) => (reloadEntries s.reloadSeq xs u).reloadEnds 1

/-- RELOAD_DONE: the running reload ends. -/
def execReloadDone (s : State) : Host.Outcome State Fault Refusal := .next (if s.flag F.SYS_RLOAD_busy then s.reload else s)

end Sys2Proof.Machine
end

