-- ==== Sys2Proof/Machine/Pll.lean ====
section
/-! DEFINITION. PLL lock and loss of lock, and the link reference (R32, R35, R371, R452). -/

namespace Sys2Proof.Machine

/-- Bit of P_FIRE in SYS_CLK_STAT. -/
def pllFire : Nat := 3

/-- The axes of a source that are enabled. -/
def State.axesOf (s : State) (src : Nat) : List Nat :=
  (List.range 8).filter (fun n => s.flag (F.AX_CFG_en n) && s.get (F.AX_CFG_src n) == src)

/-- Every axis of a list enters lull, its source removed (R124). -/
def State.axesLull (s : State) (ns : List Nat) : State := ns.foldl (fun t n => t.axisLull n 8) s

/-- Every axis of a list loses its time-stamp continuity. -/
def State.axesRelock (s : State) (ns : List Nat) : State := ns.foldl State.axisRelock s

/-- Lanes of a link group that are present. -/
def State.groupLanes (s : State) (k : Nat) : List Nat := s.lanesHere.filter (fun n => n / 4 == k)

/-- A write of SYS_CLK_CTL (R32): a change of lref_sel needs the global shutter closed and every lane down; P_FIRE and the
link groups then relock. -/
def State.clkCtlWrite (s : State) (v : W32) : State :=
  if bitsOf v 0 0 = s.get F.SYS_CLK_CTL_lref_sel then s.plainWrite R.SYS_CLK_CTL v
  else if s.isClosed .global && (List.range 24).all (fun n => s.laneState n == 0) then
    let t := s.plainWrite R.SYS_CLK_CTL v
    (t.set F.SYS_CLK_STAT_lock (t.get F.SYS_CLK_STAT_lock &&& 0x03F7)).axesRelock (List.range 8)
  else s.set F.SYS_CLK_CTL_sel_err 1

def execLrefSelWrite (value : Bool) (s : State) : Host.Outcome State Fault Refusal := .next (s.clkCtlWrite (b2w value))

/-- What P_MOT takes with it: the safe states of every channel, lull of step-paced axes, closure of their bars at the line
boundary (R35, R265, R296, R315). -/
def State.motUnlocked (s : State) : State :=
  let t := (s.motorsUnlocked).steppersFault 2
  let axes := s.axesOf 3
  axes.foldl (fun u n => u.lineRequest 2 n) (t.axesLull axes)

/-- The action of a PLL's row on loss of lock (R35). -/
def State.pllActions (s : State) (p : Nat) : State :=
  if p < 3 then { ((s.setGcond 3 true).motorsUnlocked).steppersFault 2 with pllDue := natSetBit s.pllDue p true }
  else if p = 3 then (s.lanesHere.foldl State.laneDown (s.setGcond 2 true)).axesRelock (List.range 8)
  else if p < 6 then (List.range 4).foldl (fun t k => t.ethLink (p - 4) k false) s
  else if p = 6 then s.pcieDown
  else if p = 7 then (s.set F.PTP_STAT_stat 0).axesLull (s.axesOf 4)
  else if p = 8 then s.motUnlocked
  else if p = 9 then s.ainStale.motorsUnlocked
  else (s.groupLanes (p - 10)).foldl (fun t n => (t.laneDown n).laneFault n (t.present n) .pll true) s

/-- The PLL of a link group whose four lanes are fused off: it never appears as an event source (R3). -/
def State.pllFused (s : State) (p : Nat) : Bool := decide (10 ≤ p) && (s.groupLanes (p - 10)).isEmpty

/-- PLL_LOCK_LOSS: the lost flag is set, PLL_LOSS posted and the row's action taken. -/
def State.pllLost (s : State) (p : Nat) : State :=
  if s.bit F.SYS_CLK_STAT_lock p && !s.pllFused p then
    (((s.setBit F.SYS_CLK_STAT_lock p false).setBit F.SYS_CLK_STAT_lost p true).post 63 0x4E1 (loc5 0x30) (w32 p)).pllActions p
  else s

def execPllLockLoss (p : Fin 16) (s : State) : Host.Outcome State Fault Refusal := .next (s.pllLost p.val)

/-- What a relock ends or starts: the global conditions (R435), the requests of P_MOT (R265), a new measurement of
PTP_RATIO (R371). -/
def State.pllRelocked (s : State) (p : Nat) : State :=
  if p < 3 then
    if s.bit F.SUP_GCOND_cond 3 && s.get F.SYS_CLK_STAT_lock % 8 == 7 then s.setGcond 3 false else s
  else if p = 3 then
    let t := { s.set F.PTP_RATIO_ratio 0 with ratioFrom := s.uptime }
    if t.bit F.SUP_GCOND_cond 2 then t.setGcond 2 false else t
  else if p = 7 then { s.set F.PTP_RATIO_ratio 0 with ratioFrom := s.uptime }
  else if p = 8 then s.lineWithdraw 2
  else s

/-- The lane skews measured at the lock of a link group's PLL (R452). -/
def State.skewsMeasured (s : State) (k : Nat) (skews : List W8) : State :=
  (s.groupLanes k).foldl (fun t n => (t.set (F.CAL_LANE_meas n) (skews.getD (n % 4) 0).toNat).laneTrim n) s

/-- PLL_LOCK: a PLL reaches lock; for a link group with the measured skews of its four lanes. -/
def State.pllLocked (s : State) (p : Nat) (skews : List W8) : State :=
  if s.bit F.SYS_CLK_STAT_lock p || s.pllFused p then s
  else
    let t := (s.setBit F.SYS_CLK_STAT_lock p true).pllRelocked p
    if 10 ≤ p then t.skewsMeasured (p - 10) skews else t

def execPllLock (p : Fin 16) (s0 s1 s2 s3 : W8) (s : State) : Host.Outcome State Fault Refusal :=
  .next (s.pllLocked p.val [s0, s1, s2, s3])

end Sys2Proof.Machine
end

