-- ==== Sys2Proof/Machine/Reset.lean ====
section
/-! DEFINITION. Reset sources, what a reset leaves, the supply monitor, and the end of a reset: fuse load, integrity
decisions, region defaults and the start of CP0 (R387 to R391, R401 to R406, R409, R415 to R420, R450). -/

namespace Sys2Proof.Machine

/-! ### A reset (R29, R388, R389, R406) -/

/-- The registers that a system reset leaves: those of the POR domain, and of SEC_LC its failure count and lockout. -/
def keptAtReset (e : Nat × W32) : Option (Nat × W32) :=
  if e.1 = R.SEC_LC then some (e.1, e.2 &&& 0xF80)
  else match cardAt e.1 with
    | some (c, _, _) => if c.dom == .por then some e else none
    | none => none

/-- SYS_SUPSTAT follows the supply monitor. -/
def State.supRefresh (s : State) : State :=
  (s.set F.SYS_SUPSTAT_below s.railBelow).set F.SYS_SUPSTAT_dwell s.railDwell

/-- Every sequencer in RESET. -/
def allInReset : Tab Seq := (List.range 48).map (fun q => (q, { run := .reset }))

/-- A reset: every register of the SYS and CLU domains and every unit takes its reset value; what lies outside the reset
domains stays (the fuse array, the supply monitor, the cause capture, the POR domain, what has been sent). A power-on reset
also clears the POR domain and ends the debug lockout. -/
def State.reseted (s : State) (por : Bool) : State :=
  let t := s.fuseCut
  ({ State.reset with
    pending := s.pending, variant := s.variant, lanesOff := s.lanesOff, clustersOff := s.clustersOff, dieBOff := s.dieBOff,
    freeCount := t.freeCount, memGen := s.memGen + 1, msixSent := s.msixSent, wire := s.wire,
    fuse := t.fuse, shadow := s.shadow, wordFlags := t.wordFlags, dbgBarred := !por && s.dbgBarred,
    seqs := allInReset, resetting := true, capture := s.capture, captureRail := s.captureRail,
    railBelow := s.railBelow, railOpen := s.railOpen, railDwell := s.railDwell, railEpisode := s.railEpisode,
    cmpIn := s.cmpIn, regs := if por then [] else s.regs.filterMap keptAtReset } : State).supRefresh

/-- A source of R388 resets the device: its bit is captured. -/
def State.resetBy (s : State) (source : Nat) : State :=
  { s with capture := natSetBit s.capture source true }.reseted (decide (source ≤ 1))

/-- POWER_ON_RESET: PORST_N low, or a complete loss of VDD_AON, which also loses the cause capture (R406). -/
def execPowerOnReset (loss : Bool) (s : State) : Host.Outcome State Fault Refusal :=
  .next (if loss then { (s.resetBy 0) with capture := 1, captureRail := none } else s.resetBy 0)

/-- SYSTEM_RESET_PIN: SYSRST_N low for at least 1 µs. -/
def execSystemResetPin (s : State) : Host.Outcome State Fault Refusal := .next (s.resetBy 2)

/-- A write of SYS_RSTCTL, ignored without the key (R405). -/
def State.rstctlWrite (s : State) (v : W32) : State :=
  if bitsOf v 31 16 = 0xD1E5 && bitsOf v 0 0 = 1 then s.resetBy 6 else s

def execResetRequest (value : W32) (s : State) : Host.Outcome State Fault Refusal := .next (s.rstctlWrite value)

/-- DEBUG_RESET: a request of the debug port, which it can make while debug access is open (R420). -/
def execDebugReset (s : State) : Host.Outcome State Fault Refusal := .next (if s.dbgOpen then s.resetBy 7 else s)

/-- WATCHDOG_RESET: a second period without service (R437). -/
def execWatchdogReset (s : State) : Host.Outcome State Fault Refusal :=
  .next (if s.flag F.SUP_WDOG_en && s.flag F.SUP_WDOG_stage1 then s.resetBy 4 else s)

/-- PLL_LOSS_RESET_TIMER: 1 ms after the loss of lock of P_FAB, P_CTRL or P_DRAM (R35). -/
def execPllLossResetTimer (p : Fin 3) (s : State) : Host.Outcome State Fault Refusal :=
  .next (if natBit s.pllDue p.val then s.resetBy 5 else s)

/-! ### The supply monitor (R401 to R404) -/

/-- Warning, reset and recovery levels of a rail and 1 % of its nominal value, in 0.1 mV (R401). -/
def railLevels (r : Nat) : Nat × Nat × Nat × Nat :=
  match r with
  | 0 => (7125, 6825, 7275, 75)
  | 1 => (7600, 7280, 7750, 80)
  | 2 => (8075, 7735, 8225, 85)
  | 3 => (11400, 10920, 11550, 120)
  | 4 => (9975, 9555, 10125, 105)
  | 5 => (8550, 8190, 8700, 90)
  | 6 => (4750, 4550, 4900, 50)
  | 7 => (17100, 16380, 17250, 180)
  | 8 => (31350, 30030, 31500, 330)
  | 9 => (7600, 7280, 7750, 80)
  | _ => (17100, 16380, 17250, 180)

def warnLevel (r : Nat) : Nat := (railLevels r).1
def resetLevel (r : Nat) : Nat := (railLevels r).2.1
def recoverLevel (r : Nat) : Nat := (railLevels r).2.2.1
def trimRange (r : Nat) : Nat := (railLevels r).2.2.2

/-- Events of the supply monitor, each with source 107's request (R404). -/
def State.supPost (s : State) (kind slice detail : Nat) : State := (s.post 107 kind (loc4 0x31 slice) (w32 detail)).raiseIrq 107

/-- The monitor's record of a rail below its warning threshold. -/
def State.railFalls (s : State) (r : Nat) : State :=
  { s with railBelow := natSetBit s.railBelow r true, railOpen := natSetBit s.railOpen r true,
           railDwell := natSetBit s.railDwell r false, railEpisode := natSetBit s.railEpisode r true }.supRefresh

/-- What the device does when a rail falls below its warning threshold (R402). -/
def State.supplyWarn (s : State) (r : Nat) : State :=
  let t := (s.railFalls r).setBit F.SYS_SUPSEEN_seen r true
  if s.resetting then t
  else
    let u := t.setCond .global causeSupply true
    (((List.range 2).foldl (fun w n => w.motorFault n 1) u).steppersFault 1).supPost 0x4A0 r r

/-- SUPPLY_WARNING: a rail falls below its warning threshold; at or above the tabulated level none does (R401). A rail
that has risen above it and not recovered falls again (R402). -/
def execSupplyWarning (rail : Fin 11) (level : W16) (s : State) : Host.Outcome State Fault Refusal :=
  .next (if level.toNat < warnLevel rail.val then s.supplyWarn rail.val else s)

/-- A rail not yet recovered crosses its recovery level: upward the dwell starts, downward it ends (R402). -/
def State.recoveryCross (s : State) (r : Nat) (up : Bool) (level : Nat) : State :=
  { s with railDwell := natSetBit s.railDwell r up,
           railBelow := if up || warnLevel r ≤ level then natSetBit s.railBelow r false else s.railBelow }.supRefresh

/-- RAIL_RECOVERY_CROSS: a rail reaches or leaves its recovery level, within the trim of R401. -/
def execRailRecoveryCross (rail : Fin 11) (up : Bool) (level : W16) (s : State) : Host.Outcome State Fault Refusal :=
  let r := rail.val
  .next (if natBit s.railOpen r && (if up then decide (recoverLevel r ≤ level.toNat + trimRange r) else decide (level.toNat < recoverLevel r))
    then s.recoveryCross r up level.toNat else s)

/-- The lowest bit set of a mask of rails. -/
def lowestBit (m : Nat) : Nat := ((List.range 16).find? (natBit m)).getD 0

/-- Every rail has recovered: the condition ends and SUPPLY_RECOVER names the episode's rails (R402, R404). -/
def State.supplyEnds (s : State) : State :=
  if s.railOpen != 0 then s
  else
    let t := { s with railEpisode := 0 }
    if s.resetting then t else (t.setCond .global causeSupply false).supPost 0x4A1 (lowestBit s.railEpisode) s.railEpisode

/-- SUPPLY_RECOVERED: a rail's dwell of 50 µs completes. -/
def execSupplyRecovered (rail : Fin 11) (s : State) : Host.Outcome State Fault Refusal :=
  .next (if natBit s.railDwell rail.val then
    ({ s with railOpen := natSetBit s.railOpen rail.val false, railDwell := natSetBit s.railDwell rail.val false }.supRefresh).supplyEnds
  else s)

/-- SUPPLY_RESET: a rail falls below its reset threshold (R403). -/
def execSupplyReset (rail : Fin 11) (level : W16) (s : State) : Host.Outcome State Fault Refusal :=
  .next (if level.toNat < resetLevel rail.val then
    { s.railFalls rail.val with captureRail := some rail.val }.resetBy (if rail.val = 9 then 1 else 3)
  else s)

/-! ### The end of a reset: fuses (R409, R415 to R420) -/

/-- What the three reads of the array found: words whose reads disagree, and cells whose normal read differs from the cell
programmed. -/
structure FuseReads where
  marginal : List Nat
  flips : List (Nat × Nat)

/-- The normal read of a word. -/
def State.fuseNormal (s : State) (f : FuseReads) (i : Nat) : Nat :=
  f.flips.foldl (fun c e => if e.1 = i then c ^^^ e.2 else c) (tabGet 0 s.fuse i)

/-- One word goes into the shadow with its flags. -/
def State.loadWord (s : State) (f : FuseReads) (i : Nat) : State :=
  let r := fuseDecode i (s.fuseNormal f i)
  let flags := (if f.marginal.contains i then 1 else 0) + (if r.2.1 then 2 else 0) + (if r.2.2 then 4 else 0)
  { s with shadow := tabPut s.shadow i r.1, wordFlags := tabPut s.wordFlags i flags }

/-- The shadow is loaded; a word that is blank at all three reads holds 0 and no flag. -/
def State.loadShadow (s : State) (f : FuseReads) : State :=
  (s.fuse.map (fun e => e.1) ++ f.marginal ++ f.flips.map (fun e => e.1)).foldl (fun t i => t.loadWord f i)
    { s with shadow := [], wordFlags := [] }

/-- A shadow word by physical bank, and its flags. -/
def State.sh (s : State) (b w : Nat) : W32 := tabGet 0 s.shadow (fuseIdx b w)
def State.shFlag (s : State) (b w k : Nat) : Bool := natBit (tabGet 0 s.wordFlags (fuseIdx b w)) k

/-- Some word of a physical bank carries a flag. -/
def State.anyFlag (s : State) (b k : Nat) : Bool := s.wordFlags.any (fun e => e.1 / 128 == b && natBit e.2 k)

/-- A physical bank is sealed as its shadow reads; a blank bank is not (R407). -/
def State.sealedShadow (s : State) (b : Nat) : Bool :=
  s.shadow.any (fun e => e.1 / 128 == b && e.2 != 0) && s.sh b 126 == fuseCrc (s.sh b)

/-- sup and lock as the shadow reads. -/
def State.supShadow (s : State) (b : Nat) : Nat := bitsOf (s.sh b 127) 7 4

/-- The bank that bank 14 stands for: the lowest of banks 0 to 13 but 2 that names it (R415, R417). -/
def State.supersededBank (s : State) : Option Nat := (List.range 14).find? (fun b => b != 2 && s.supShadow b == 14)

/-- The lifecycle bits after the vote (R417). -/
def State.lifeBits (s : State) : Nat :=
  let a := (s.sh 2 0).toNat
  let b := (s.sh 2 1).toNat
  let c := (s.sh 2 2).toNat
  ((a &&& b) ||| (a &&& c) ||| (b &&& c)) % 16

/-- Bank 2's pattern of R417. -/
def State.lifeAlarm (s : State) : Bool :=
  !(s.lifeBits == 0 || s.lifeBits == 1 || s.lifeBits == 3 || s.lifeBits == 7 || s.lifeBits == 15) ||
    decide (2 ≤ ((List.range 3).filter (fun w => s.shFlag 2 w 0)).length)

/-- The conditions of R416 for a bank, in table order; `e` is the physical bank in effect. -/
def State.alarmConds (s : State) (b e : Nat) (won : Option Nat) : List Bool :=
  let lock := natBit (s.sh e 127).toNat 0
  let seald := s.sealedShadow e
  let sup := s.supShadow b
  [lock && !seald, s.sh e 126 != 0 && !seald, (lock || seald) && s.anyFlag e 2,
    (sup != 0 && sup != 14) || (sup == 14 && won != some b), b == 2 && s.lifeAlarm]

/-- One bank's status, integrity alarm and event (R416, R424). -/
def State.checkBank (s : State) (won : Option Nat) (b : Nat) : State :=
  let e := if won = some b then 14 else b
  let cs := s.alarmConds b e won
  let alarm := cs.any id
  let t := s.wr (R.FUSE_BSTAT b) (w32 ((if alarm then 64 else 0) + (if s.anyFlag e 0 then 32 else 0) + (if s.anyFlag e 2 then 16 else 0) +
    (if won = some b then 8 else 0) + (if s.sealedShadow e then 4 else 0) + (if s.sh e 126 != 0 then 2 else 0) + bitsOf (s.sh e 127) 0 0))
  let u := t.setBit F.SYS_BOOTALARM_marg b (s.anyFlag b 0)
  if alarm then
    (((u.setBit F.FUSE_INTEGRITY_alarm b true).setBit F.SYS_BOOTALARM_integ b true).fusePost 0x4C0 b
      (b + (cs.findIdx id) * 16)).acceptFrom 62
  else u

/-- Bank 5: what it disables; under the bank's alarm an uncorrectable word disables every resource it covers (R408, R416,
R418). -/
def State.applyEnables (s : State) : State :=
  let e := s.bankInEffect 5
  let m := fun w all => if s.bankAlarm 5 && s.shFlag e w 2 then all else (s.sh e w).toNat &&& all
  let lanes := m 0 0xFFFFFF
  let clusters := m 1 0xFFFF
  let dieB := m 2 2 != 0
  let full := lanes &&& 0xFFF000 == 0xFFF000 && clusters &&& 0xFF00 == 0xFF00 && dieB
  { s with lanesOff := lanes, clustersOff := clusters, dieBOff := dieB,
           variant := if full then 1
             else if s.flag (F.FUSE_BSTAT_sealed 7) && s.flag (F.FUSE_BSTAT_locked 7) && s.shadowWord 7 0 != 0 then 2 else 0 }

/-- Bank 0: each valid repair entry takes a spare row of its target; under the bank's alarm an uncorrectable one is ignored
(R339, R408, R416, R418). -/
def State.applyRepairs (s : State) : State :=
  (List.range 122).foldl (fun t k =>
    let w := s.shadowWord 0 (4 + k)
    if bitsOf w 31 31 = 1 && !(s.bankAlarm 0 && s.shFlag (s.bankInEffect 0) (4 + k) 2) then
      let target := bitsOf w 29 20 + (if bitsOf w 30 30 = 1 then 0x300 else 0)
      { t with sparesUsed := tabPut t.sparesUsed target (min 4 (tabGet 0 t.sparesUsed target + 1)) }
    else t) s

/-- Lifecycle, debug access (which an alarm of bank 2 keeps closed until a power-on reset), policy, identity and shutter configuration (R268, R408, R417 to R420). -/
def State.applyLifecycle (s : State) : State :=
  let bad := s.bankAlarm 2
  let code := if bad then 3 else if natBit s.lifeBits 3 then 4 else if natBit s.lifeBits 2 then 3 else if natBit s.lifeBits 1 then 2
    else if natBit s.lifeBits 0 then 1 else 0
  let t := { ((s.set F.SEC_LC_state code).set F.SEC_LC_dbg (if code = 3 || s.dbgBarred then 0 else 1)) with
    dbgBarred := s.dbgBarred || bad, policy := if s.bankAlarm 3 then 0 else (s.shadowWord 3 0).toNat % 64 }
  let u := (List.range 4).foldl (fun w k => w.wr (R.SEC_ID k) (s.shadowWord 1 k)) t
  let mode := u.policy / 16
  if mode = 1 || mode = 2 then u.modeWrite mode else u

/-! ### Region defaults (R331) -/

/-- A region's three registers. -/
def State.putRegion (s : State) (m k base limit ctl : Nat) : State :=
  ((s.wr (R.MEM_RGN_BASE m k) (w32 base)).wr (R.MEM_RGN_LIM m k) (w32 limit)).wr (R.MEM_RGN_CTL m k) (w32 ctl)

/-- The valid entries of bank 3: master, region, base, limit, permissions. -/
def State.regionEntries (s : State) : List (Nat × Nat × Nat × Nat × Nat) :=
  (List.range 30).filterMap (fun i =>
    let a := s.shadowWord 3 (4 + 3 * i)
    if bitsOf a 31 31 = 1 && bitsOf a 30 25 < 53 then
      some (bitsOf a 30 25, bitsOf a 24 21, bitsOf (s.shadowWord 3 (5 + 3 * i)) 27 0, bitsOf (s.shadowWord 3 (6 + 3 * i)) 27 0, bitsOf a 20 18)
    else none)

/-- The lock mask of bank 3. -/
def State.regionLocked (s : State) (m k : Nat) : Bool := natBit (s.shadowWord 3 (94 + (16 * m + k) / 32)).toNat ((16 * m + k) % 32)

/-- Defaults and locks; with the alarm of bank 3 they are ignored, and the debug port's regions are disabled and locked. -/
def State.applyRegions (s : State) : State :=
  if s.bankAlarm 3 then (List.range 16).foldl (fun t k => t.putRegion 52 k 0 0 0x80000000) s
  else
    let es := s.regionEntries
    let cleared := (es.map (fun e => e.1)).eraseDups.foldl (fun t m => (List.range 16).foldl (fun u k => u.putRegion m k 0 0 0) t) s
    let placed := es.foldl (fun t e => t.putRegion e.1 e.2.1 e.2.2.1 e.2.2.2.1 (8 + e.2.2.2.2)) cleared
    (List.range 53).foldl (fun t m => (List.range 16).foldl (fun u k =>
      if s.regionLocked m k then u.set (F.MEM_RGN_CTL_locked m k) 1 else u) t) placed

/-! ### RESET_END (R388, R390, R391, R406) -/

/-- The levels of the balls as reset ends: straps, sensor gates, quadrature inputs (Z, B, A of each), GPIO. -/
structure Balls where
  straps : Nat
  gates : Nat
  qe : Nat
  gpio : W32

/-- The inputs are settled on the levels of their balls (R91, R266). -/
def State.settle (s : State) (p : Balls) : State :=
  let t := (s.set F.SNS_GLVL_raw p.gates).wr R.SNS_GPIO_IN p.gpio
  let u := (List.range 8).foldl (fun w i => w.set (F.QE_CFG_lvl i) (p.qe / 8 ^ i % 8)) t
  (List.range 8).foldl State.gateApply u

/-- SYS_RSTCAUSE takes the captured causes (R406). -/
def State.takeCauses (s : State) : State :=
  let t := s.set F.SYS_RSTCAUSE_cause (s.get F.SYS_RSTCAUSE_cause ||| s.capture)
  { (match s.captureRail with | some r => t.set F.SYS_RSTCAUSE_rail r | none => t) with capture := 0, captureRail := none }

/-- A supply reset waits for every rail (R403). -/
def State.heldInReset (s : State) : Bool := (natBit s.capture 1 || natBit s.capture 3) && s.railOpen != 0

/-- The fuse shadow and what follows from it. -/
def State.fusesLoaded (s : State) (f : FuseReads) : State :=
  let t := s.loadShadow f
  let won := t.supersededBank
  ((((List.range 16).foldl (fun u b => u.checkBank won b) t).applyEnables.applyRepairs).applyLifecycle).applyRegions

/-- The PLLs but the link groups are locked, and CP0 starts in the boot ROM (R43, R391). -/
def State.started (s : State) : State :=
  { s.set F.SYS_CLK_STAT_lock 0x3FF with
    resetting := false, uptime := 0, seqs := [(0, { run := .running, pc := 0x70000000 })] }

/-- A supply warning that outlasts the reset closes the global shutter again (R402). -/
def State.supplyStands (s : State) : State := if s.railOpen != 0 then s.setCond .global causeSupply true else s

/-- Reset ends: R391 steps 1 to 5. -/
def State.resetEnd (s : State) (p : Balls) (f : FuseReads) : State :=
  if !s.resetting || s.heldInReset then s
  else ((((s.started.fusesLoaded f).settle p).takeCauses).set F.SYS_BOOTSTAT_straps p.straps).supplyStands

def execResetEnd (straps : BitVec 5) (gates : W8) (qe : BitVec 24) (gpio : W32) (marginal : List (Fin 2048))
    (flips : List (Fin 2048 × BitVec 39)) (s : State) : Host.Outcome State Fault Refusal :=
  .next (s.resetEnd ⟨straps.toNat, gates.toNat, qe.toNat, gpio⟩
    ⟨marginal.map Fin.val, flips.map (fun e => (e.1.val, e.2.toNat))⟩)

end Sys2Proof.Machine
end

