-- ==== Sys2Proof/Machine/Bus.lean ====
section
/-! DEFINITION. Register accesses: who may make them, what each write does, what each read returns and clears, snapshot
groups and holding sets, and the accesses of the host port and the debug port (R24 to R30, R37, R38, R381, R382, R420,
R476). -/

namespace Sys2Proof.Machine

/-! ### Masters (R37, R329) -/

/-- Region master of an initiator. -/
def State.masterNo (s : State) (m : Master) : Nat :=
  match m with
  | .seq q => s.ctxOf q.val
  | .host => 51
  | .debug => 52

/-- The holding set of an initiator; link engines have none. -/
def State.holderOf (s : State) (m : Master) : Option Nat :=
  if s.masterNo m < 24 || 48 ≤ s.masterNo m then some (s.masterNo m) else none

/-! ### Registers that read 0 and ignore writes (R3, R31, R45, R329) -/

/-- The register belongs to a fused-off resource. -/
def State.regFused (s : State) (c : Card) (i : Nat) : Bool :=
  match c.id with
  | .FIRE_TILE_CFG | .FIRE_TILE_GEO | .FIRE_TILE_ROW01 | .FIRE_TILE_ROW23 | .SHUT_T => s.laneFused (i / 16)
  | .AXIS_TILEW => s.laneFused (i / 8)
  | .HEALTH_TCLS => s.laneFused (i / 2)
  | .HEALTH_TPUSH | .HEALTH_GOV_CFG | .HEALTH_GOV_EMAX | .HEALTH_GOV_EW0 | .HEALTH_GOV_EW1 | .HEALTH_GOV_SUPN | .HEALTH_GOV_SUPE
    | .HEALTH_GOV_STAT | .CAL_LANE => s.laneFused i
  | .RC_CTL | .RC_STAT | .RC_RESCNT | .RC_VCYC | .RC_NMWAIT | .RC_TBUF => s.rcFused i
  | .SYS_AP_BASE | .SYS_SEQ_CTL | .SYS_SEQ_ENTRY | .SYS_SEQ_STAT | .SYS_SEQ_SWI | .SYS_IRQMAP | .SUP_HBCFG | .SUP_HB => s.seqFused i
  | _ => decide (0x40050000 ≤ c.base) && decide (c.base < 0x40060000) && s.laneFused i

/-- The register is one of a checker core in lockstep that reads 0. -/
def State.regShadowed (s : State) (c : Card) (i : Nat) : Bool :=
  match c.id with
  | .SYS_AP_BASE => s.isShadow i
  | .MEM_RGN_BASE | .MEM_RGN_LIM | .MEM_RGN_CTL => decide (i < 8) && s.isShadow i
  | _ => false

/-- The register reads 0. -/
def State.regHidden (s : State) (c : Card) (i : Nat) : Bool := s.regFused c i || s.regShadowed c i

/-- The register ignores writes. -/
def State.regDeaf (s : State) (c : Card) (i : Nat) : Bool :=
  s.regHidden c i ||
    match c.id with
    | .SYS_SEQ_CTL | .SYS_SEQ_ENTRY | .SYS_SEQ_SWI | .SYS_IRQMAP => s.isShadow i
    | _ => false

/-! ### Writes -/

/-- A write of a word of a region (R331): ignored while locked; slock locks until the next system reset. -/
def State.regionWrite (s : State) (i j a : Nat) (v : W32) : State :=
  if s.flag (F.MEM_RGN_CTL_locked i j) then s
  else
    let t := s.plainWrite a v
    if t.flag (F.MEM_RGN_CTL_slock i j) then t.set (F.MEM_RGN_CTL_locked i j) 1 else t

/-- A write of SUP_RINGr_BASE: a change while en = 1 is refused (R429). -/
def State.ringBaseWrite (s : State) (r : Nat) (v : W32) : State :=
  if s.flag (F.SUP_RING_CFG_en r) && bitsOf v 21 5 != s.get (F.SUP_RING_BASE_off r) then s.setBit (F.SUP_RING_STAT_err r) 0 true
  else s.plainWrite (R.SUP_RING_BASE r) v

/-- A write of RCn_CTL: tbuf_inv empties the table buffer, res_inj arms an injection (R165, R172). -/
def State.rcCtlWrite (s : State) (n : Nat) (v : W32) : State :=
  (if bitsOf v 1 1 = 1 then s.tableDrop (8 + n) else s).plainWrite (R.RC_CTL n) v

/-- A write of a SEC register but SEC_CMD, from the masters that may (R421). -/
def State.secWrite (s : State) (m : Master) (a : Nat) (v : W32) : State := if secWriter m then s.wr a v else s

/-- A write of a Gust channel register (R343, R344). -/
def State.gustRegister (s : State) (m : Master) (c : Card) (i a : Nat) (v : W32) : State :=
  match c.id with
  | .GUST_CH_CTL | .GUST_CH_CFG | .GUST_CH_PROGL | .GUST_CH_PROGH => s.gustWriteReg m i a v
  | _ => if isEventChannel i && !gustPrivileged m then s.set F.GUST_GSTAT_priv_err 1 else s

/-- A write of MEM_MARCH. -/
def State.marchWrite (s : State) (v : W32) : State :=
  let t := s.plainWrite R.MEM_MARCH v
  if bitsOf v 31 31 = 1 then t.marchGo else t

/-- A write of LANEn_OPEN is judged at once (R236). -/
def State.openWrite (s : State) (lane : Nat) (v : W32) : State := (s.plainWrite (R.LANE_OPEN lane) v).openRefresh lane

/-- A write of SYS_BOOTCMD: from the host port, while an image is awaited (R395). What its go starts is in Boot. -/
def State.bootcmdWrite (s : State) (m : Master) (v : W32) : State :=
  if m = .host && s.get F.SYS_BOOTSTAT_phase = 1 then s.plainWrite R.SYS_BOOTCMD v else s

/-- The effect of a write of a register by its card: Gust and the network registers; every other register takes the value by its field rules. -/
def State.dataRegEffect (s : State) (m : Master) (c : Card) (i j a : Nat) (v : W32) : State :=
  match c.id with
  | .GUST_CH_CTL | .GUST_CH_CFG | .GUST_CH_STAT | .GUST_CH_RES | .GUST_CH_LRES | .GUST_CH_CRC | .GUST_CH_SEQ | .GUST_CH_BYTES
    | .GUST_CH_PROGL | .GUST_CH_PROGH | .GUST_CH_FADDRL | .GUST_CH_FADDRH => s.gustRegister m c i a v
  | .GUST_RING_SIZE => s.gringWrite i v
  | .ETH_CFG => s.ethCfgWrite i v
  | .ETH_RXRING => s.ethRingWrite i false v
  | .ETH_TXRING => s.ethRingWrite i true v
  | .GSP_CFG | .GSP_BASEL | .GSP_BASEH | .GSP_STRIDE | .GSP_GEOM | .GSP_LEN | .GSP_EXP | .GSP_DONE => s.gspWrite i a v
  | .PCIE_DBELL => s.msixRequest (bitsOf v 5 0)
  | .PCIE_MSIX => s.msixWrite i j v
  | .PTP_INCH => s.ptpInch v
  | .PTP_SETSECH => s.ptpSet v
  | .PTP_ADJ => s.ptpAdjust v
  | _ => s.plainWrite a v

/-- The motors, analog and stepper registers; the rest as above. -/
def State.motionRegEffect (s : State) (m : Master) (c : Card) (i j a : Nat) (v : W32) : State :=
  match c.id with
  | .MOT_CFG => s.motCfgWrite i v
  | .MOT_PWM => s.motPwmWrite i v
  | .MOT_CMD => s.motCmdWrite i v
  | .MOT_SENSE => s.motSenseWrite i v
  | .MOT_DUTY0 => s.motDuty0Write m i v
  | .MOT_DUTY1 => s.drawn.motDuty1Write m i v (s.freeN % 2 == 1)
  | .ANA_CMP => s.cmpWrite i v
  | .ANA_CMPSTAT => s.cmpStatWrite v
  | .ST_CFG => s.stepCfgWrite i v
  | .ST_CMD => s.stepCmdWrite i v
  | .ST_QD => s.stepQdWrite m i v
  | .ST_QV => s.movePush m i v
  | .ST_CUR | .ST_CHOP => (s.plainWrite a v).cmpRefresh
  | .ST_STALL => s.stallWrite i v
  | .STEP_TABLE => s.stepTableWrite i v
  | _ => s.dataRegEffect m c i j a v

/-- The lanes, health and render registers; the rest as above. -/
def State.linkRegEffect (s : State) (m : Master) (c : Card) (i j a : Nat) (v : W32) : State :=
  match c.id with
  | .LANE_CTL => s.laneCtlWrite i v
  | .LANE_SCHED => s.schedWrite i v
  | .LANE_OPEN => s.openWrite i v
  | .LANE_SBCFG => s.sbcfgWrite i v
  | .LANE_SBCMD => s.sbcmdWrite i v
  | .LANE_MGCMD => s.mgcmdWrite i v
  | .LANE_WVCMD => s.wvcmdWrite i v
  | .LANE_TLIM => s.limitsWrite i j a v
  | .LANE_THYS => s.limitsWrite i j a (v &&& 0xFFFF)
  | .HEALTH_ECFG => s.ecfgWrite v
  | .HEALTH_MWDATA => s.maskedMapWrite i v
  | .HEALTH_TPUSH => s.tpushWrite i v
  | .HEALTH_GOV_CFG => s.govWrite i v
  | .HEALTH_ECTEST => s.ectestWrite v
  | .HEALTH_ECLANE => (s.plainWrite a v).forgetUnclassified
  | .HEALTH_TCLS => (s.plainWrite a v).forgetUnclassified
  | .RC_CTL => s.rcCtlWrite i v
  | _ => s.motionRegEffect m c i j a v

/-- The axes, bars, firing, shutter, sensor and calibration registers; the rest as above. -/
def State.fireRegEffect (s : State) (m : Master) (c : Card) (i j a : Nat) (v : W32) : State :=
  match c.id with
  | .AX_CFG => s.axisCfgWrite i v
  | .AX_ZCTL => s.zctlWrite i v
  | .AX_POSSET => (s.loadPosition i v).2
  | .EO_CFG => s.eoCfgWrite i v
  | .EO_RATIO => s.eoRatioWrite i v
  | .BAR_CFG => s.barCfgWrite i v
  | .BAR_BREEZE => s.breezeWrite i v
  | .BAR_TCP => s.tcpWrite i j v
  | .FIRE_EQ => s.teqWrite v
  | .FIRE_TILE_CFG => s.tileRegWrite i .cfg v
  | .FIRE_TILE_ROW01 => s.tileRegWrite i .row01 v
  | .FIRE_TILE_ROW23 => s.tileRegWrite i .row23 v
  | .SHUT_MODE => s.shutModeWrite v
  | .SHUT_GCMD => s.shutCmd .global v
  | .SHUT_B_CMD => s.shutCmd (.bar (Fin.ofNat 8 i)) v
  | .SHUT_TCMD => s.shutCmd .tile v
  | .SNS_GATE => s.gateWrite i v
  | .SNS_GSTAT => s.gateStatWrite v
  | .CAL_CTL => s.calCtlWrite v
  | .CAL_LANE => s.calLaneWrite i v
  | .CAL_TCOMMIT => s.tcommitWrite v
  | _ => s.linkRegEffect m c i j a v

/-- The system, supervisor, fuse, security and memory registers; the rest as above. -/
def State.sysRegEffect (s : State) (m : Master) (c : Card) (i j a : Nat) (v : W32) : State :=
  match c.id with
  | .SYS_CLK_CTL => s.clkCtlWrite v
  | .SYS_SEQ_CTL => s.seqCtlWrite i v
  | .SYS_SEQ_SWI => s.swiWrite i v
  | .SYS_SIG_SET => s.sigSetWrite i v
  | .SYS_SIG_CLR => s.sigClrWrite i v
  | .SYS_RSTCTL => s.rstctlWrite v
  | .SYS_BOOTCMD => s.bootcmdWrite m v
  | .SYS_RLOAD => s.rloadWrite v
  | .SUP_FAULTN => s.faultnWrite v
  | .SUP_WDKICK => s.wdKick m (bitsOf v 15 0)
  | .SUP_TOOS => s.toosWrite i v
  | .SUP_STEST => s.stestWrite v
  | .SUP_HB => s.heartbeat m i
  | .SUP_RING_BASE => s.ringBaseWrite i v
  | .SUP_RING_CFG => s.ringCfgWrite i v
  | .SUP_RING_RD => s.ringRdWrite i (v.truncate 16)
  | .FUSE_CMD => (s.drawn.drawn.vddFuse (s.drawn.freeN % 4096)).fuseCmdWrite v s.freeN
  | .MEM_RGN_BASE | .MEM_RGN_LIM | .MEM_RGN_CTL => s.regionWrite i j a v
  | .MEM_MARCH => s.marchWrite v
  | .SEC_CMD => (if bitsOf v 2 0 = 4 then s.drawn.vddFuse (s.freeN % 4096) else s).secCmdWrite m v
  | .SEC_DATA => s.secWrite m a v
  | _ => s.fireRegEffect m c i j a v

/-- What a write of a register does, by the register; `i` and `j` are its indices and `a` its address. Every other
register takes it by its field rules. -/
def State.regEffect (s : State) (m : Master) (c : Card) (i j a : Nat) (v : W32) : State := s.sysRegEffect m c i j a v

/-- A write that reaches the register space; an address without a register ignores it (R29). -/
def State.regWrite (s : State) (m : Master) (a : Nat) (v : W32) : State :=
  match cardAt a with
  | none => s
  | some (c, i, j) => if s.regDeaf c i then s else s.regEffect m c i j a v

/-! ### Snapshot groups (R37, R38, R126, R152, R300, R319, R365, R386, R476) -/

/-- The registers that a read of a capture register latches, itself first. -/
def snapGroup (id : RegId) (i : Nat) : List Nat :=
  match id with
  | .AX_POS => [R.AX_POS i, R.AX_IPOS i, R.AX_STATE i, R.AX_SPEED i, R.AX_TS i, R.AX_SILLF i, R.AX_SILLR i, R.AX_SKEW i, R.AX_ZCAP i,
      R.AX_ERRCNT i]
  | .SE_RAW => [R.SE_RAW i, R.SE_MEAS i]
  | .EO_POS => [R.EO_POS i, R.EO_PEND i]
  | .AXIS_FT => [R.AXIS_FT]
  | .LANE_UNCONF => [R.LANE_UNCONF i, R.LANE_UNCONF_FIRST i, R.LANE_UNCONF_LAST i]
  | .MOT_IAB => [R.MOT_IAB i, R.MOT_ICV i, R.MOT_VAB i, R.MOT_VC i, R.MOT_ANG i, R.MOT_SPD i, R.MOT_STATE i]
  | .ST_POS => [R.ST_POS i, R.ST_VEL i, R.ST_STATE i, R.ST_DEV i, R.ST_OFFS i]
  | .GUST_AXCAP => [R.GUST_AXCAP i, R.GUST_AXCAP_FT i, R.GUST_AXCAP_CNT i]
  | .PTP_NS => [R.PTP_NS, R.PTP_SECL, R.PTP_SECH, R.PTP_RATIO]
  | _ => []

/-- The register is a member of a group and not its capture register. -/
def snapMember (id : RegId) : Bool :=
  match id with
  | .AX_IPOS | .AX_STATE | .AX_SPEED | .AX_TS | .AX_SILLF | .AX_SILLR | .AX_SKEW | .AX_ZCAP | .AX_ERRCNT | .SE_MEAS | .EO_PEND
    | .LANE_UNCONF_FIRST | .LANE_UNCONF_LAST | .MOT_ICV | .MOT_VAB | .MOT_VC | .MOT_ANG | .MOT_SPD | .MOT_STATE | .ST_VEL | .ST_STATE
    | .ST_DEV | .ST_OFFS | .GUST_AXCAP_FT | .GUST_AXCAP_CNT | .PTP_SECL | .PTP_SECH | .PTP_RATIO => true
  | _ => false

/-- The current value of a register. -/
def State.regNow (s : State) (a : Nat) : W32 :=
  match cardAt a with
  | some (c, i, j) => (s.statusWord c.id i j).getD (s.rd a)
  | none => 0

/-- The RC fields of a register are cleared (R10). -/
def State.rcClear (s : State) (a : Nat) : State :=
  match cardAt a with
  | some (c, _, _) => if c.rc = 0 then s else s.wr a (s.rd a &&& ~~~(w32 c.rc))
  | none => s

/-- The value a capture latches: the current one; of MOTn_STATE that of the last tick's period, like its group (R300). -/
def State.snapNow (s : State) (a : Nat) : W32 :=
  match cardAt a with
  | some (c, i, _) => if c.id = .MOT_STATE then (s.motor i).tickState else s.regNow a
  | none => s.regNow a

/-- A capture: every member is latched for the holder, if it has a holding set, and RC members are cleared (R37, R476). -/
def State.snapTake (s : State) (holder : Option Nat) (group : List Nat) : State :=
  let t := match holder with
    | some h => { s with held := group.foldl (fun x b => tabPut x (heldKey h b) (s.snapNow b)) s.held }
    | none => s
  group.foldl State.rcClear t

/-! ### Reads -/

/-- What a read returns and what it changes, by the register. -/
def State.readEffect (s : State) (m : Master) (c : Card) (i a : Nat) : W32 × State :=
  match c.id with
  | .OG_RESA => s.gateRead i
  | .MEM_ELOG0 => (s.regNow a, s.wr R.MEM_ELOG1 s.elogHi)
  | .MEM_MFAIL0 => (s.regNow a, s.wr R.MEM_MFAIL1 s.mfailHi)
  | .MEM_SCRSTAT => (s.regNow a, { s with scrubLate := false })
  | id =>
    let group := snapGroup id i
    if !group.isEmpty then (s.regNow a, s.snapTake (s.holderOf m) group)
    else if snapMember id then
      match s.holderOf m with
      | some h => ((tabFind s.held (heldKey h a)).getD (resetValue a), s)
      | none => (s.regNow a, s)
    else (s.regNow a, s.rcClear a)

/-- A read that reaches the register space; an address without a register reads 0 (R29). -/
def State.regRead (s : State) (m : Master) (a : Nat) : W32 × State :=
  match cardAt a with
  | none => (0, s)
  | some (c, i, _) => if s.regHidden c i then (0, s) else s.readEffect m c i a

/-! ### Accesses on the fabric (R27, R29, R330) -/

/-- An access to the register space that is not performed: narrower, misaligned, outside it, or refused by the regions. -/
def State.regRefused (s : State) (m : Master) (a len : Nat) (n : Needs) : Option State :=
  if len != 4 || a % 4 != 0 || !isRegSpace a then some (s.accessErr (s.masterNo m) a)
  else if s.permitted (s.masterNo m) a 4 n then none else some (s.regionFault (s.masterNo m) a n)

/-- What an access changed and what its initiator is answered. -/
def State.answered (s : State) (x : Answer) : State := { s with answer := x }

/-- A write that the host port's access discards (R27, R385). -/
def State.hostDiscards (s : State) (a : Nat) : State := ((s.bump F.PCIE_WDISC_count).pcieFlag 2 (w32 (a / 256))).answered .done

/-- A read that the host port is answered with Unsupported Request. -/
def State.hostUr (s : State) (a : Nat) : State := ((s.bump F.PCIE_UR_count).pcieFlag 2 (w32 (a / 256))).answered .ur

/-- What an initiator sees of a write that is refused (R27). -/
def State.writeRefused (s : State) (m : Master) (a : Nat) : State :=
  match m with
  | .host => s.hostDiscards a
  | _ => s.answered .error

/-- What an initiator sees of a read that is refused (R27). -/
def State.readRefused (s : State) (m : Master) (a : Nat) : State :=
  match m with
  | .host => s.hostUr a
  | _ => s.answered .error

/-- A register write by a master. -/
def State.busWrite (s : State) (m : Master) (a : Nat) (v : W32) : State :=
  if m == .host && s.hostShut then s
  else match s.regRefused m a 4 Needs.write with
  | some t => t.writeRefused m a
  | none => (s.regWrite m a v).answered .done

/-- A register read by a master. -/
def State.busRead (s : State) (m : Master) (a : Nat) : State :=
  if m == .host && s.hostShut then s
  else match s.regRefused m a 4 Needs.read with
  | some t => t.readRefused m a
  | none => let r := s.regRead m a; r.2.answered (.data (leBytes 4 r.1.toNat))

/-- READ_CLEAR: a read of a register of access RC; it clears after it is read (R10, R476). -/
def execReadClear (m : Master) (addr : W32) (s : State) : Host.Outcome State Fault Refusal := .next (s.busRead m addr.toNat)

/-- SNAPSHOT_CAPTURE: a read of a capture register (R37). -/
def execSnapshotCapture (m : Master) (addr : W32) (s : State) : Host.Outcome State Fault Refusal := .next (s.busRead m addr.toNat)

/-- ELOG_READ: a read of MEM_ELOG0 or MEM_MFAIL0 latches the high word (R341). -/
def execElogRead (m : Master) (march : Bool) (s : State) : Host.Outcome State Fault Refusal :=
  .next (s.busRead m (if march then R.MEM_MFAIL0 else R.MEM_ELOG0))

/-! ### Memory as the host port and the debug port reach it (R321, R326, R330) -/

/-- The end of the range, or its start, lies inside a memory word. -/
def partialWord (a len : Nat) : Bool :=
  let w := if isSram a then 4 else 8
  a % w != 0 || (a + len) % w != 0

/-- A memory write by the host or debug port: refused when absent, not permitted, or merged into a word that reads
uncorrectable. A partial word is a narrow store. -/
def State.portWrite (s : State) (m : Master) (a : Nat) (bs : List W8) : State :=
  match s.memCheck (s.masterNo m) a bs.length (if partialWord a bs.length then Needs.both else Needs.write) with
  | some t => t.writeRefused m a
  | none => match s.mergeWrite (s.masterNo m) a bs with
    | (some t, _) => t.answered .done
    | (none, t) => t.writeRefused m a

/-- What an uncorrectable error answers a read with (R326). -/
def State.readUe (s : State) (m : Master) : State :=
  match m with
  | .host => (s.bump F.PCIE_CA_count).answered .ca
  | _ => s.answered .error

/-- A memory read by the host or debug port. -/
def State.portRead (s : State) (m : Master) (a len : Nat) : State :=
  match s.memCheck (s.masterNo m) a len Needs.read with
  | some t => t.readRefused m a
  | none => match s.dataRead (s.masterNo m) a len with
    | (some bs, t) => t.answered (.data bs)
    | (none, t) => t.readUe m

/-! ### The debug port (R24, R26, R420) -/

/-- An address of the SEC registers. -/
def isSec (a : Nat) : Bool := decide (0x40100000 ≤ a) && decide (a < 0x40110000)

/-- The boot ROM, which the debug port reads. -/
def State.debugRom (s : State) (write : Bool) (a : Nat) : State :=
  if write then (s.accessErr 52 a).answered .error
  else if s.permitted 52 a 4 Needs.read then s.answered (.data ((List.range 4).map (fun k => Config.romByte (a - 0x70000000 + k))))
  else (s.regionFault 52 a Needs.read).answered .error

/-- DEBUG_PORT_ACCESS: one word. While debug access is closed only the SEC registers are reached. -/
def State.debugAccess (s : State) (write : Bool) (a : Nat) (v : W32) : State :=
  if !s.dbgOpen && !isSec a then s.answered .error
  else if isRegSpace a then if write then s.busWrite .debug a v else s.busRead .debug a
  else if isRom a then s.debugRom write a
  else if write then s.portWrite .debug a (leBytes 4 v.toNat) else s.portRead .debug a 4

def execDebugPortAccess (write : Bool) (addr : BitVec 40) (data : W32) (s : State) : Host.Outcome State Fault Refusal :=
  .next (s.debugAccess write addr.toNat data)

/-! ### The host port (R28, R29, R381, R382) -/

/-- Fabric address of a BAR2 offset, and whether its window maps. -/
def State.winAddr (s : State) (off : Nat) : Nat × Bool :=
  let w := off / 2 ^ 28 % 16
  let b := s.get (F.PCIE_WIN_base w)
  (b * 2 ^ 28 + off % 2 ^ 28, s.flag (F.PCIE_WIN_en w) && (b == 0 || (decide (0x10 ≤ b) && decide (b ≤ 0x2F))))

/-- A BAR2 write within one window. -/
def State.winWrite (s : State) (off : Nat) (bs : List W8) : State :=
  let (a, ok) := s.winAddr off
  if ok then s.portWrite .host a bs else (s.accessErr 51 a).writeRefused .host a

/-- A BAR2 read within one window. -/
def State.winRead (s : State) (off len : Nat) : State :=
  let (a, ok) := s.winAddr off
  if ok then s.portRead .host a len else (s.accessErr 51 a).readRefused .host a

/-- A BAR0 offset above the register space reads 0 and ignores writes (R29). -/
def barBeyond (off : Nat) : Bool := decide (0x01000000 ≤ off)

/-- A BAR0 read of one word. -/
def State.bar0Read (s : State) (off : Nat) : State :=
  if barBeyond off then s.answered (.data [0, 0, 0, 0]) else s.busRead .host (0x40000000 + off)

/-- The words of a BAR0 read, in order, until one is refused. -/
def bar0Words : Nat → Nat → List W8 → State → State
  | 0, _, acc, s => s.answered (.data acc)
  | n + 1, off, acc, s =>
    let t := s.bar0Read off
    match t.answer with
    | .data bs => bar0Words n (off + 4) (acc ++ bs) t
    | _ => t

/-- A BAR0 access that is not a whole number of aligned words is an access error under R27. -/
def bar0Whole (off len : Nat) : Bool := off % 4 == 0 && len % 4 == 0 && len != 0

/-- Pieces of a range that do not cross a 4 KiB boundary; `fuel` bounds the walk. -/
def pages : Nat → Nat → Nat → List (Nat × Nat)
  | 0, _, _ => []
  | fuel + 1, a, len =>
    if len = 0 then []
    else
      let k := min len (4096 - a % 4096)
      (a, k) :: pages fuel (a + k) (len - k)

/-- The pieces of a BAR2 write, in order. -/
def winWrites : List (Nat × Nat) → List W8 → State → State
  | [], _, s => s.answered .done
  | (a, k) :: rest, bs, s => winWrites rest (bs.drop k) (s.winWrite a (bs.take k))

/-- The pieces of a BAR2 read, in order, until one fails. -/
def winReads : List (Nat × Nat) → List W8 → State → State
  | [], acc, s => s.answered (.data acc)
  | (a, k) :: rest, acc, s =>
    let t := s.winRead a k
    match t.answer with
    | .data bs => winReads rest (acc ++ bs) t
    | _ => t

/-- PCIE_MEM_READ: a memory read request of the host port. -/
def State.hostRead (s : State) (bar2 : Bool) (addr len : Nat) : State :=
  if s.hostShut then s
  else if bar2 then winReads (pages (len / 4096 + 2) addr len) [] s
  else if barBeyond addr then s.answered (.data (List.replicate len 0))
  else if bar0Whole addr len then bar0Words (len / 4) addr [] s
  else (s.accessErr 51 (0x40000000 + addr)).readRefused .host (0x40000000 + addr)

def execPcieMemRead (bar2 : Bool) (addr : W32) (len : BitVec 13) (s : State) : Host.Outcome State Fault Refusal :=
  .next (s.hostRead bar2 addr.toNat len.toNat)

end Sys2Proof.Machine
end

