-- ==== Sys2Proof/Machine/Boot.lean ====
section
/-! DEFINITION. The boot ROM: DRAM and boot port ready, the transfer protocols of the three ports, the checks of an image,
its loading, the retained copies, the boot record and the release (R85, R86, R390 to R399), and the two commands whose
write can start the checks. -/

namespace Sys2Proof.Machine

/-! ### The boot port (R390, R391, R396) -/

def stagingBase : Nat := 0x0100000000
def stagingSize : Nat := 0x10000000

/-- BOOTSEL[1:0] and CFG[1:0] as sampled. -/
def State.bootSel (s : State) : Nat := s.get F.SYS_BOOTSTAT_straps / 8
def State.bootCfg (s : State) : Nat := s.get F.SYS_BOOTSTAT_straps % 4

/-- The boot ROM waits for an image on a port. -/
def State.bootWaits (s : State) (sel : Nat) : Bool := !s.resetting && s.get F.SYS_BOOTSTAT_phase == 1 && s.bootSel == sel

/-- A code of R394 in SYS_BOOTSTAT.err. -/
def State.bootErr (s : State) (code : Nat) : State := s.set F.SYS_BOOTSTAT_err code

/-- Device id bits [8n - 1:0], most significant byte first, after 0x02. -/
def State.bootName (s : State) (n : Nat) : List W8 := (2 : W8) :: (s.deviceId.take n).reverse

/-- ETH0 as the boot ROM sets it up: mode by CFG, MAC and IPv6 address of sub-port 0 from the device id (R396). -/
def State.bootEth (s : State) : State :=
  let mac := s.bootName 5
  let ip : List W8 := [0xFE, 0x80, 0, 0, 0, 0, 0, 0] ++ s.bootName 7
  let word := fun k => w32 (leNat ((ip.drop (4 * k)).take 4))
  let t := (s.set (F.ETH_CFG_mode 0) (s.bootCfg + 1)).set (F.ETH_CFG_en 0) 1
  (((((t.wr (R.ETH_MACLO 0 0) (w32 (leNat (mac.take 4)))).wr (R.ETH_MACHI 0 0) (w32 (leNat (mac.drop 4)))).wr (R.ETH_IP6W0 0 0)
    (word 0)).wr (R.ETH_IP6W1 0 0) (word 1)).wr (R.ETH_IP6W2 0 0) (word 2)).wr (R.ETH_IP6W3 0 0) (word 3)

/-- The boot ROM opens the strapped port; with BOOTSEL = 3 it records error 9 and waits for nothing (R390, R395, R396). -/
def State.bootOpen (s : State) : State :=
  match s.bootSel with
  | 0 => (s.wr (R.PCIE_WIN 0) 0x80000010).set F.SYS_BOOTSTAT_phase 1
  | 1 => s.bootEth.set F.SYS_BOOTSTAT_phase 1
  | 2 => s.set F.SYS_BOOTSTAT_phase 1
  | _ => s.bootErr 9

/-- DRAM_TRAINED: die A is trained and its check bits initialised; the boot port opens (R391). -/
def execDramTrained (s : State) : Host.Outcome State Fault Refusal :=
  .next (if s.resetting || s.bit F.MEM_DSTAT_rdy 0 then s
    else (s.set F.MEM_DSTAT_rdy (s.get F.MEM_DSTAT_rdy ||| 3)).bootOpen)

/-- DIE_B_INIT_DONE: die B, where present, is ready (R391). -/
def execDieBInitDone (s : State) : Host.Outcome State Fault Refusal :=
  .next (if s.resetting || s.dieBOff then s else s.set F.MEM_DSTAT_rdy (s.get F.MEM_DSTAT_rdy ||| 0xC))

/-! ### The checks (R85, R86, R392 to R394, R399) -/

/-- Bytes of the image in the staging area, as the boot ROM on CP0 reads them. -/
def State.imageRead (s : State) (off n : Nat) : Option (List W8) × State := s.dataRead 0 (stagingBase + off) n

/-- Magic, version, length and reserved fields of the header; the length is the one the go names. -/
def headerOk (h : List W8) (len : Nat) : Bool :=
  fieldLE h 0 4 == 0x4D495A47 && fieldLE h 4 2 == 1 && fieldLE h 6 2 == 0 && fieldLE h 8 4 == len && decide (len ≤ stagingSize) &&
    fieldLE h 0x12 2 == 0 && fieldLE h 0x18 40 == 0 && fieldLE h 0xC0 64 == 0

/-- Part, stepping and variant accept this device. -/
def State.partOk (s : State) (h : List W8) : Bool :=
  fieldLE h 0xE 2 == s.get F.SYS_ID_part && (fieldLE h 0x10 1 == 0 || fieldLE h 0x10 1 == s.get F.SYS_ID_stepping) &&
    natBit (fieldLE h 0x11 1) s.variant

/-- Hash of a key slot. -/
def State.slotHash (s : State) (slot : Nat) : List W8 := s.shadowBytes 4 (8 * slot) 8

/-- A slot is blank. -/
def State.slotBlank (s : State) (slot : Nat) : Bool := (s.slotHash slot).all (fun b => b == 0)

/-- How the key of an image is accepted: under a trusted slot, or without one (R393). -/
inductive KeyFound where
  | none | slot (k : Nat) | unauth
deriving DecidableEq, Repr

def State.keyCheck (s : State) (key : List W8) : KeyFound :=
  match (List.range 2).find? (fun k => s.slotTrusted k && s.slotHash k == sha256 key) with
  | some k => .slot k
  | none => if s.get F.SEC_LC_state ≤ 1 && s.slotBlank 0 && s.slotBlank 1 then .unauth else .none

/-- The signature verifies over the image hash. -/
def signatureOk (h hash : List W8) : Bool :=
  let be := fun off => beNat ((h.drop off).take 32)
  ecdsaVerify (beNat hash) (be 0x40) (be 0x60) (be 0x80) (be 0xA0)

/-- Two ranges overlap. -/
def overlap (a n b k : Nat) : Bool := decide (a < b + k) && decide (b < a + n) && n != 0 && k != 0

/-- A section is as R85 and R86 have it, its target outside the staging and retained areas. DATA and ZERO may target DRAM as
TABLE may, and a REGS section that is no whole number of pairs is invalid (DESIGN CHOICE, notes/assumptions/174). -/
def State.sectionOk (s : State) (len : Nat) (x : Section) : Bool :=
  decide (1 ≤ x.type) && decide (x.type ≤ 6) && decide (x.flags ≤ 1) && x.size % 4 == 0 && decide (x.target < 2 ^ 40) && x.rsvd == 0 &&
    decide (x.mask < 2 ^ 48) && (x.stored || x.offset == 0) && (x.type != secEntry || x.size == 0) &&
    (!x.stored || decide (x.offset + x.size ≤ len)) && (x.type != secRegs || x.size % 8 == 0) &&
    (!x.filled || x.size == 0 || ((x.type != secText || (isSram x.target && isSram (x.target + x.size - 1))) &&
      !s.memAbsent x.target && !s.memAbsent (x.target + x.size - 1) &&
      !overlap x.target x.size stagingBase stagingSize && !overlap x.target x.size retainedBase 0x10000000))

/-- No two targets overlap; REGS and ENTRY sections fill no target (DESIGN CHOICE, notes/assumptions/174). -/
def targetsApart : List Section → Bool
  | [] => true
  | x :: xs => !(x.filled && xs.any (fun y => y.filled && overlap x.target x.size y.target y.size)) && targetsApart xs

/-- The section of an image is kept for cluster restart. -/
def Section.kept (x : Section) : Bool := x.flags % 2 == 1

/-- Bytes a kept section takes in the retained area. -/
def Section.keptSize (x : Section) : Nat := if x.kept && x.stored then x.size else 0

/-- The whole section list is valid. -/
def State.sectionsOk (s : State) (n len : Nat) (xs : List Section) : Bool :=
  decide (1 ≤ n) && decide (n ≤ 255) && decide (0x100 + 64 * n ≤ len) && xs.all (s.sectionOk len) && targetsApart xs &&
    xs.any (fun x => x.type == secEntry && natBit x.mask 0) &&
    decide ((xs.map Section.keptSize).sum ≤ 255 * 2 ^ 20) && decide ((xs.filter Section.kept).length ≤ 1023)

/-! ### Loading (R86, R391 step 9) -/

/-- The register writes of a REGS section, in list order; a write that resets the device ends the load. -/
def loadRegs : List W32 → State → State
  | a :: v :: rest, s => if s.resetting then s else loadRegs rest (s.regWrite (.seq 0) a.toNat v)
  | _, s => s

/-- The sequencers of a mask. -/
def selected (mask : Nat) : List Nat := (List.range 48).filter (natBit mask)

/-- One section takes effect. -/
def State.loadSection (s : State) (x : Section) (bs : List W8) : State :=
  if x.type = secEntry then (selected x.mask).foldl (fun t q => t.regWrite (.seq 0) (R.SYS_SEQ_ENTRY q) (w32 x.target)) s
  else if x.type = secRegs then loadRegs (wordsOf bs) s
  else s.fill x.target (if x.type = secZero then List.replicate x.size 0 else bs)

/-- Sections in list order, each hashed and compared; false at the first mismatch. -/
def loadSections : List Section → State → Bool × State
  | [], s => (true, s)
  | x :: xs, s =>
    if s.resetting then (true, s)
    else match (if x.stored then s.imageRead x.offset x.size else (some [], s)) with
      | (none, t) => (false, t)
      | (some bs, t) => if sha256 bs == x.hash then loadSections xs (t.loadSection x bs) else (false, t)

/-! ### Retained copies, boot record, release (R398, R399) -/

/-- The bytes of a descriptor (R85). -/
def Section.bytes (x : Section) : List W8 :=
  leBytes 2 x.type ++ leBytes 2 x.flags ++ leBytes 4 x.size ++ leBytes 8 x.target ++ leBytes 4 x.offset ++ leBytes 4 x.rsvd ++
    leBytes 8 x.mask ++ x.hash

/-- Copies in list order from 0x10000 into the retained area, and the table's bytes. -/
def retain : List Section → Nat → List W8 → State → List W8 × State
  | [], _, table, s => (table, s)
  | x :: xs, at_, table, s =>
    let bs := s.rdBytes (stagingBase + x.offset) x.keptSize
    retain xs (at_ + x.keptSize) (table ++ ({ x with offset := at_ } : Section).bytes) (s.fill (retainedBase + at_) bs)

/-- The 8 registers of a hash, 4 bytes each in byte order. -/
def State.putHash (s : State) (a : Nat) (h : List W8) : State :=
  (List.range 8).foldl (fun t k => t.wr (a + 4 * k) (w32 (leNat ((h.drop (4 * k)).take 4)))) s

/-- Microseconds since the end of reset. -/
def State.usNow (s : State) : Nat := s.uptime * 8 / 3125

/-- The boot record and the retained area. -/
def State.bootRecord (s : State) (hash : List W8) (key : KeyFound) (xs : List Section) : State :=
  let kept := xs.filter Section.kept
  let (table, t) := retain kept 0x10000 [] s
  let u := ((t.fill retainedBase table).putHash (R.SYS_RTHASH 0) (sha256 table)).wr R.SYS_RTCNT (w32 kept.length)
  let v := ((u.putHash (R.SYS_BOOTHASH 0) hash).wr R.SYS_BOOTTIME (w32 s.usNow)).bootErr 0
  match key with
  | .slot k => (v.set F.SYS_BOOTSTAT_slot k).set F.SYS_BOOTSTAT_unauth 0
  | _ => v.set F.SYS_BOOTSTAT_unauth 1

/-- What the boot ROM leaves in the general registers of CP0 is not stated. -/
def State.leftovers (s : State) : State :=
  { s.setSeq 0 { s.seq 0 with
      run := .running, pc := s.rd (R.SYS_SEQ_ENTRY 0) &&& 0xFFFFFFFC,
      g := (List.range 31).map (fun k => (k + 1, Config.freeWord (s.freeCount + k))) } with freeCount := s.freeCount + 31 }

/-- The port is left: PCIE_WIN0 is cleared, stream 0 as it was before. -/
def State.bootLeaves (s : State) : State :=
  match s.bootSel with
  | 0 => s.wr (R.PCIE_WIN 0) 0
  | 1 => { s.wr (R.GSP_EXP 0) 0 with streams := tabDel s.streams 0 }
  | _ => s

/-- Sequencers but CP0 that an ENTRY section names start in ascending order, phase becomes 3, and CP0 jumps (R398). -/
def State.bootRelease (s : State) (xs : List Section) : State :=
  let named := (List.range 48).filter (fun q => q != 0 && xs.any (fun x => x.type == secEntry && natBit x.mask q))
  let t := named.foldl (fun u q => u.seqCtlWrite q (u.seqCtlKeep q 1)) s.bootLeaves
  (t.set F.SYS_BOOTSTAT_phase 3).leftovers

/-! ### The go (R391 steps 8 to 10, R394) -/

/-- The image is rejected with a code, and the boot ROM waits for a new one on the same port. -/
def State.bootReject (s : State) (code : Nat) : State :=
  if s.resetting then s
  else
    let t := (s.bootErr code).set F.SYS_BOOTSTAT_phase 1
    if t.bootSel = 1 then { t.wr (R.GSP_EXP 0) 0 with wire := .bootResult (t.stream 0).ip (t.stream 0).udp code :: t.wire } else t

/-- The image is accepted: copies, record, report and release. -/
def State.bootAccept (s : State) (hash : List W8) (key : KeyFound) (xs : List Section) : State :=
  if s.resetting then s
  else
    let t := s.bootRecord hash key xs
    let u := if t.bootSel = 1 then { t with wire := .bootResult (t.stream 0).ip (t.stream 0).udp 0 :: t.wire } else t
    u.bootRelease xs

/-- Sections are checked and loaded once key and signature hold. -/
def State.bootLoad (s : State) (len : Nat) (h table hash : List W8) (key : KeyFound) : State :=
  let n := fieldLE h 0xC 2
  let xs := sectionsOf n table
  if !s.sectionsOk n len xs then s.bootReject 5
  else match loadSections xs s with
    | (false, t) => t.bootReject 6
    | (true, t) => t.bootAccept hash key xs

/-- Key and signature over the image hash. -/
def State.bootVerify (s : State) (len : Nat) (h : List W8) : State :=
  match s.keyCheck ((h.drop 0x40).take 64) with
  | .none => s.bootReject 3
  | key =>
    match s.imageRead 0x100 (64 * fieldLE h 0xC 2) with
    | (none, t) => t.bootReject 4
    | (some table, t) =>
      let hash := sha256 (h.take 0x80 ++ h.drop 0xC0 ++ table)
      if signatureOk h hash then t.bootLoad len h table hash key else t.bootReject 4

/-- The go for an image of `len` bytes. -/
def State.bootGo (s : State) (len : Nat) : State :=
  match (s.set F.SYS_BOOTSTAT_phase 2).imageRead 0 256 with
  | (none, t) => t.bootReject 1
  | (some h, t) => if !headerOk h len then t.bootReject 1 else if !t.partOk h then t.bootReject 2 else t.bootVerify len h

/-! ### PCIe (R395) -/

/-- A register write by any master, the go of SYS_BOOTCMD included. -/
def State.masterWrite (s : State) (m : Master) (a : Nat) (v : W32) : State :=
  let t := s.busWrite m a v
  if a = R.SYS_BOOTCMD && m = .host && s.get F.SYS_BOOTSTAT_phase == 1 && !s.resetting && bitsOf v 31 31 == 1 &&
      (s.regRefused m a 4 Needs.write).isNone then
    (t.bootGo (bitsOf v 28 0)).answered .done
  else t

/-- REGISTER_WRITE: a write of a register by its card (R10, R29). -/
def execRegisterWrite (m : Master) (addr : W32) (value : W32) (s : State) : Host.Outcome State Fault Refusal :=
  .next (s.masterWrite m addr.toNat value)

/-- BOOT_GO over PCIe: a write of SYS_BOOTCMD with go = 1. -/
def execBootGo (m : Master) (value : W32) (s : State) : Host.Outcome State Fault Refusal :=
  .next (s.masterWrite m R.SYS_BOOTCMD (putBits value 31 31 1))

/-- The words of a BAR0 write, in order (R382). -/
def bar0Writes : Nat → List W32 → State → State
  | _, [], s => s.answered .done
  | off, w :: ws, s => bar0Writes (off + 4) ws (if barBeyond off then s else s.masterWrite .host (0x40000000 + off) w)

/-- PCIE_MEM_WRITE: a memory write request of the host port. -/
def State.hostWrite (s : State) (bar2 : Bool) (addr : Nat) (bs : List W8) : State :=
  if s.hostShut then s
  else if bar2 then winWrites (pages (bs.length / 4096 + 2) addr bs.length) bs s
  else if barBeyond addr then s.answered .done
  else if bar0Whole addr bs.length then bar0Writes addr (wordsOf bs) s
  else (s.accessErr 51 (0x40000000 + addr)).writeRefused .host (0x40000000 + addr)

def execPcieMemWrite (bar2 : Bool) (addr : W32) (bytes : List W8) (s : State) : Host.Outcome State Fault Refusal :=
  .next (s.hostWrite bar2 addr.toNat bytes)

/-! ### Ethernet (R377, R396) -/

/-- The reasons for which the boot ROM refuses a packet, but its sequence. -/
def bootRefusal (p : BootPacket) : Option Nat :=
  if p.stream != 0 then some 5
  else if p.line != 0 || decide (8192 < p.payload.length) || decide (stagingSize < p.offset.toNat + p.length.toNat) then some 4
  else if p.length.toNat != p.payload.length || crc32c p.payload != p.crc.toNat then some 2
  else none

/-- A refused packet: error 7, and a NACK at most once per millisecond; one suppressed is counted (R377, R386). -/
def State.bootNack (s : State) (reason : Nat) : State :=
  let t := s.bootErr 7
  let held := match (t.stream 0).lastNack with
    | some w => decide (t.uptime < w + cyclesPerMs)
    | none => false
  if held then t.bump (F.ETH_NACKSUP_count 0) else (t.gspReply 0 true reason).setStream 0 { t.stream 0 with lastNack := some t.uptime }

/-- A packet is placed: E advances, an ACK is due after ack_every packets. -/
def State.bootPlaced (s : State) (p : BootPacket) : State :=
  let t := (s.fill (stagingBase + p.offset.toNat) p.payload).wr (R.GSP_EXP 0) (p.seq + 1)
  let n := (t.stream 0).placed + 1
  let u := t.setStream 0 { t.stream 0 with placed := n }
  if max 1 (s.get F.ETH_GSPCFG_ack_every) ≤ n then u.gspAck 0 else u

/-- BOOT_PACKET: a GSP BOOT packet reaches the boot ROM. -/
def State.bootPacket (s : State) (p : BootPacket) : State :=
  if !s.bootWaits 1 || p.type != 6 then s
  else
    let t := s.setStream 0 { s.stream 0 with port := 0, sub := 0, ip := p.ip, udp := p.udp.toNat }
    match bootRefusal p with
    | some r => t.bootNack r
    | none =>
      let ahead := (p.seq - t.rd (R.GSP_EXP 0)).toInt
      if 0 < ahead then t.bootNack 1
      else if ahead < 0 then t.gspAck 0
      else
        let u := t.bootPlaced p
        if p.flags.getLsbD 0 then u.bootGo (p.offset.toNat + p.length.toNat) else u

def execBootPacket (packet : BootPacket) (s : State) : Host.Outcome State Fault Refusal := .next (s.bootPacket packet)

/-- BOOT_ANNOUNCE: once a second while the boot ROM waits on ETH0. -/
def execBootAnnounce (s : State) : Host.Outcome State Fault Refusal :=
  .next (if s.bootWaits 1 then
    { s.bump (F.ETH_TXFRM_count 0) with
        wire := .announce (s.deviceId ++ leBytes 4 (s.regNow R.SYS_ID).toNat ++ List.replicate 12 0) :: s.wire }
  else s)

/-! ### SPI (R397) -/

/-- WRITE: 4 bytes of offset and 1 to 256 data bytes, stored at staging + offset. -/
def State.spiStore (s : State) (bs : List W8) : State :=
  let data := bs.drop 4
  let a := stagingBase + fieldLE bs 0 4
  if !s.bootWaits 2 then s
  else if data.isEmpty || decide (256 < data.length) || s.memAbsent a || s.memAbsent (a + data.length - 1) then s.bootErr 7
  else s.fill a data

/-- A frame that is otherwise ignored. -/
def State.spiBad (s : State) : State := if s.bootWaits 2 then s.bootErr 7 else s

/-- STATUS: SYS_BOOTSTAT, least significant byte first, once the port is open. -/
def State.spiReport (s : State) : State :=
  if !s.resetting && s.get F.SYS_BOOTSTAT_phase != 0 && s.bootSel == 2 then s.answered (.data (leBytes 4 (s.rd R.SYS_BOOTSTAT).toNat)) else s

/-- A frame of the SPI port, its command byte first. -/
def State.spiFrame (s : State) : List W8 → State
  | [] => s.spiBad
  | c :: bs =>
    if c = 2 then s.spiStore bs
    else if c = 5 then if bs.length = 4 then s.spiReport else s.spiBad
    else if c = 0x0B then
      if bs.length != 4 then s.spiBad else if s.bootWaits 2 then s.bootGo (leNat bs) else s
    else s.spiBad

/-- SPI_WRITE: a WRITE frame. -/
def execSpiWrite (offset : W32) (data : List W8) (s : State) : Host.Outcome State Fault Refusal :=
  .next (s.spiFrame (2 :: (leBytes 4 offset.toNat ++ data)))

/-- SPI_STATUS: a STATUS frame with its 4 dummy bytes. -/
def execSpiStatus (s : State) : Host.Outcome State Fault Refusal := .next (s.spiFrame [5, 0, 0, 0, 0])

/-- SPI_GO: a GO frame, and every frame that is neither a WRITE nor a STATUS of the right length. -/
def execSpiGo (frame : List W8) (s : State) : Host.Outcome State Fault Refusal := .next (s.spiFrame frame)

end Sys2Proof.Machine
end

