-- ==== Sys2Proof/Machine/PyrM.lean ====
section
/-! DEFINITION. PYR-M, the motor-control instructions of the motion cores (R63 to R65). R64 gives the operations over the
rationals and no rounding; a result that is no multiple of its last place goes to one of the two places beside it, by a
free value. -/

namespace Sys2Proof.Machine

/-- The signed low and high halves of a register. -/
def loHalf (w : W32) : Int := signedOf 16 w.toNat
def hiHalf (w : W32) : Int := signedOf 16 (w.toNat / 2 ^ 16)

/-- Two Q1.15 halves, each saturated. -/
def halves (hi lo : Int) : W32 :=
  w32 (unsignedOf 16 (clampInt (-32768) 32767 hi) * 2 ^ 16 + unsignedOf 16 (clampInt (-32768) 32767 lo))

/-- An instruction of PYR-M: on a sequencer without it, or with a bad pair, it is illegal. -/
def State.motionInsn (s : State) (q : Nat) (word : W32) (ok : Bool) (t : State) : State :=
  if !s.executes q then s else if !hasM q || !ok then s.illegal q word else t

/-- Two results rounded one after the other. -/
def State.rounded2 (s : State) (hi lo den : Int) : W32 := halves (s.roundedFree hi den) (s.drawn.roundedFree lo den)

def execClarke (q : Fin 48) (rd rs1 : BitVec 5) (s : State) : Host.Outcome State Fault Refusal :=
  let w := (s.seq q.val).x rs1
  .next (s.motionInsn q.val (xWord 0x36 rd rs1 0 0 0) true
    (s.drawn.alu q.val rd (halves (s.overRoot3 (loHalf w + 2 * hiHalf w)) (loHalf w))))

/-- d and q of the Park transform, in units of 2^-30. -/
def parkSums (ab sc : W32) : Int × Int :=
  (loHalf ab * loHalf sc + hiHalf ab * hiHalf sc, hiHalf ab * loHalf sc - loHalf ab * hiHalf sc)

def execPark (q : Fin 48) (rd rs1 rs2 : BitVec 5) (s : State) : Host.Outcome State Fault Refusal :=
  let p := parkSums ((s.seq q.val).x rs1) ((s.seq q.val).x rs2)
  .next (s.motionInsn q.val (xWord 0x36 rd rs1 rs2 0 1) true (s.drawn.drawn.alu q.val rd (s.rounded2 p.2 p.1 32768)))

/-- α and β of the inverse Park transform, in units of 2^-30. -/
def iparkSums (qd sc : W32) : Int × Int :=
  (loHalf qd * loHalf sc - hiHalf qd * hiHalf sc, loHalf qd * hiHalf sc + hiHalf qd * loHalf sc)

def execIpark (q : Fin 48) (rd rs1 rs2 : BitVec 5) (s : State) : Host.Outcome State Fault Refusal :=
  let p := iparkSums ((s.seq q.val).x rs1) ((s.seq q.val).x rs2)
  .next (s.motionInsn q.val (xWord 0x36 rd rs1 rs2 0 2) true (s.drawn.drawn.alu q.val rd (s.rounded2 p.2 p.1 32768)))

/-! ### SVM -/

/-- A component of the vector after its length is held to 1.0, in units of 2^-63. -/
def svmScaled (x mag2 : Int) : Int :=
  if mag2 ≤ (2 : Int) ^ 30 then x * 2 ^ 48 else x * 2 ^ 93 / (isqrt (mag2.natAbs * 2 ^ 60) : Nat)

/-- Twice the phase voltages, in units of 2^-63 of V_DC/√3. -/
def svmPhases (alpha beta : Int) : Int × Int × Int :=
  let m := alpha * alpha + beta * beta
  let a := svmScaled alpha m
  let b := svmScaled beta m * root3 / 2 ^ 48
  (2 * a, b - a, -a - b)

/-- The duty of a phase in Q0.16, saturated: half, plus the phase with the zero sequence injected (R64). -/
def State.svmDuty (s : State) (v zero2 : Int) : Nat :=
  (clampInt 0 0xFFFF (0x8000 + s.roundedFree ((2 * v - zero2) * 2 ^ 46) (root3 * 2 ^ 47))).toNat

/-- SVM: the three duties; the numbering of the sectors is not given, so the sector is a free value. -/
def State.svm (s : State) (w : W32) : W32 × W32 :=
  let v := svmPhases (loHalf w) (hiHalf w)
  let hi := max v.1 (max v.2.1 v.2.2)
  let lo := min v.1 (min v.2.1 v.2.2)
  let a := s.svmDuty v.1 (hi + lo)
  let b := s.drawn.svmDuty v.2.1 (hi + lo)
  let c := s.drawn.drawn.svmDuty v.2.2 (hi + lo)
  (w32 (b * 2 ^ 16 + a), w32 (s.drawn.drawn.drawn.freeN % 8 * 2 ^ 16 + c))

def execSvm (q : Fin 48) (rd rs1 : BitVec 5) (s : State) : Host.Outcome State Fault Refusal :=
  let t := s.drawn.drawn.drawn.drawn
  .next (s.motionInsn q.val (xWord 0x36 rd rs1 0 0 3) (pairOk rd)
    (t.setSeq q.val ((t.seq q.val).setPair rd (s.svm ((s.seq q.val).x rs1))).retired))

/-! ### SINCOS -/

/-- A Q1.15 value at most 2 places from a value in units of 2^-48, by a free value (R64). -/
def State.within2 (s : State) (v : Int) : Int :=
  if v % 2 ^ 33 = 0 then v / 2 ^ 33 + (s.freeN % 5 : Nat) - 2 else v / 2 ^ 33 + (s.freeN % 4 : Nat) - 1

def execSincos (q : Fin 48) (rd rs1 : BitVec 5) (s : State) : Host.Outcome State Fault Refusal :=
  let a := bitsOf ((s.seq q.val).x rs1) 15 0
  .next (s.motionInsn q.val (xWord 0x36 rd rs1 0 0 4) true
    (s.drawn.drawn.alu q.val rd (halves (s.within2 (sinFixed a)) (s.drawn.within2 (sinFixed (a + 0x4000))))))

/-! ### MACS and PISTEP -/

/-- A value saturated to 32 bits. -/
def sat32 (i : Int) : W32 := wordOfInt (clampInt (-(2 : Int) ^ 31) (2 ^ 31 - 1) i)

def execMacs (q : Fin 48) (rd rs1 rs2 : BitVec 5) (s : State) : Host.Outcome State Fault Refusal :=
  let c := s.seq q.val
  .next (s.motionInsn q.val (xWord 0x36 rd rs1 rs2 0 5) true
    (s.alu q.val rd (sat32 ((c.x rd).toInt + loHalf (c.x rs1) * loHalf (c.x rs2)))))

/-- PISTEP: the integrator and the output, sign-extended (R65). -/
def piStep (i : Int) (le kk : W32) : W32 × W32 :=
  let e := loHalf le
  let limit : Int := bitsOf le 31 16
  let inew := clampInt (-(2 : Int) ^ 31) (2 ^ 31 - 1) (i + (bitsOf kk 31 16 : Int) * e * 16)
  let u := clampInt (-32768) 32767 ((bitsOf kk 15 0 : Int) * e / 4096 + inew / 65536)
  let wound := decide (limit < u.natAbs) && decide (e.sign = u.sign)
  (wordOfInt (if wound then i else inew), wordOfInt (clampInt (-limit) limit u))

def execPistep (q : Fin 48) (rd rs1 rs2 : BitVec 5) (s : State) : Host.Outcome State Fault Refusal :=
  let c := s.seq q.val
  .next (s.motionInsn q.val (xWord 0x36 rd rs1 rs2 0 6) (pairOk rd)
    (s.setSeq q.val (c.setPair rd (piStep (c.x rd).toInt (c.x rs1) (c.x rs2))).retired))

end Sys2Proof.Machine
end

