-- ==== Sys2Proof/Machine/PyrMem.lean ====
section
/-! DEFINITION. Loads, stores and atomics of PYR-32 (R25, R26, R30, R55, R56, R71, R321, R326, R330). -/

namespace Sys2Proof.Machine

/-! ### Where a core address leads (R25, R26, R30) -/

/-- Memory at a fabric address, the register space, the boot ROM while it is reached, or nothing. -/
inductive Place where
  | mem (a : Nat)
  | reg
  | rom
  | nowhere
deriving DecidableEq, Repr

/-- The place of a core address of a sequencer. -/
def State.place (s : State) (q a : Nat) : Place :=
  if isSram a then .mem a
  else if isRegSpace a then .reg
  else if isRom a && s.get F.SYS_BOOTSTAT_phase != 3 then .rom
  else if inAperture a then
    match s.aperture q a with
    | some f => .mem f
    | none => .nowhere
  else .nowhere

/-- The core address of the memory word that holds a byte. -/
def wordOf (a f : Nat) : W32 := w32 (a - (f - memWordBase f))

/-! ### Loads (R55) -/

/-- A loaded value, sign-extended or zero-extended. -/
def extend (size : Nat) (signed : Bool) (bs : List W8) : W32 :=
  if signed then wordOfInt (signedOf (8 * size) (leNat bs)) else w32 (leNat bs)

/-- A load from memory; `found` are cells newly failed in the word. -/
def State.loadMem (s : State) (q : Nat) (rd : BitVec 5) (a : W32) (f size : Nat) (signed : Bool) (found : Option CellErr) : State :=
  match s.memCheck q f size Needs.read with
  | some t => t.trap q trapLoad a
  | none => match (s.cellFound f found).dataRead q f size with
    | (some bs, t) => t.alu q rd (extend size signed bs)
    | (none, t) => t.trap q trapLoadUe (wordOf a.toNat f)

/-- A load from the register space: whole aligned words only (R29). -/
def State.loadReg (s : State) (q : Fin 48) (rd : BitVec 5) (a : W32) (size : Nat) : State :=
  match s.regRefused (.seq q) a.toNat size Needs.read with
  | some t => t.trap q.val trapLoad a
  | none => let r := s.regRead (.seq q) a.toNat; r.2.alu q.val rd r.1

/-- A load from the boot ROM. -/
def State.loadRom (s : State) (q : Nat) (rd : BitVec 5) (a size : Nat) (signed : Bool) : State :=
  s.alu q rd (extend size signed ((List.range size).map (fun k => Config.romByte (a - 0x70000000 + k))))

/-- A load of `size` bytes. A misaligned address takes the misaligned exception in every space and accesses nothing, the
register space too, where R29 would make it an access fault of R27 (DEDUCED, notes/assumptions/167). -/
def State.load (s : State) (q : Fin 48) (rd rs1 : BitVec 5) (imm : W16) (size : Nat) (signed : Bool) (found : Option CellErr) : State :=
  if !s.executes q.val then s
  else
    let a := (s.seq q.val).x rs1 + sx16 imm
    if a.toNat % size != 0 then s.trap q.val trapLoadAlign a
    else match s.place q.val a.toNat with
      | .mem f => s.loadMem q.val rd a f size signed found
      | .reg => s.loadReg q rd a size
      | .rom => s.loadRom q.val rd a.toNat size signed
      | .nowhere => (s.accessErr q.val a.toNat).trap q.val trapLoad a

def execLw (q : Fin 48) (rd rs1 : BitVec 5) (imm : W16) (found : Option CellErr) (s : State) : Host.Outcome State Fault Refusal :=
  .next (s.load q rd rs1 imm 4 false found)
def execLh (q : Fin 48) (rd rs1 : BitVec 5) (imm : W16) (s : State) : Host.Outcome State Fault Refusal :=
  .next (s.load q rd rs1 imm 2 true none)
def execLhu (q : Fin 48) (rd rs1 : BitVec 5) (imm : W16) (s : State) : Host.Outcome State Fault Refusal :=
  .next (s.load q rd rs1 imm 2 false none)
def execLb (q : Fin 48) (rd rs1 : BitVec 5) (imm : W16) (s : State) : Host.Outcome State Fault Refusal :=
  .next (s.load q rd rs1 imm 1 true none)
def execLbu (q : Fin 48) (rd rs1 : BitVec 5) (imm : W16) (s : State) : Host.Outcome State Fault Refusal :=
  .next (s.load q rd rs1 imm 1 false none)

/-! ### Stores (R55, R165, R321) -/

/-- A store of a cluster's sequencer into the 1 KiB that its table buffer copies invalidates the buffer (R165). -/
def State.tableStored (s : State) (q a : Nat) : State :=
  if hasV q && s.flag (F.RC_TBUF_valid (q - 8)) && s.get (F.RC_TBUF_base (q - 8)) == a / 1024 then s.tableDrop q else s

/-- A store into memory. One narrower than the memory word, 32 bits in SRAM and 64 in DRAM, needs read permission as well
(R321, R330, R334). -/
def State.storeMem (s : State) (q : Nat) (a : W32) (f : Nat) (bs : List W8) : State :=
  match s.memCheck q f bs.length (if partialWord f bs.length then Needs.both else Needs.write) with
  | some t => t.trap q trapStore a
  | none => match s.mergeWrite q f bs with
    | (some t, _) => (t.tableStored q f).setSeq q ((t.tableStored q f).seq q).retired
    | (none, t) => t.trap q trapStore a

/-- A store into the register space: it is posted, so the instruction retires and the write takes its effect. -/
def State.storeReg (s : State) (q : Fin 48) (a : W32) (size : Nat) (v : W32) : State :=
  match s.regRefused (.seq q) a.toNat size Needs.write with
  | some t => t.trap q.val trapStore a
  | none => (s.setSeq q.val (s.seq q.val).retired).regWrite (.seq q) a.toNat v

/-- A store of the low `size` bytes of a register; misaligned as a load is (DEDUCED, notes/assumptions/167). -/
def State.store (s : State) (q : Fin 48) (rd rs1 : BitVec 5) (imm : W16) (size : Nat) : State :=
  if !s.executes q.val then s
  else
    let a := (s.seq q.val).x rs1 + sx16 imm
    let v := (s.seq q.val).x rd
    if a.toNat % size != 0 then s.trap q.val trapStoreAlign a
    else match s.place q.val a.toNat with
      | .mem f => s.storeMem q.val a f (leBytes size v.toNat)
      | .reg => s.storeReg q a size v
      | _ => (s.accessErr q.val a.toNat).trap q.val trapStore a

def execSw (q : Fin 48) (rd rs1 : BitVec 5) (imm : W16) (s : State) : Host.Outcome State Fault Refusal := .next (s.store q rd rs1 imm 4)
def execSh (q : Fin 48) (rd rs1 : BitVec 5) (imm : W16) (s : State) : Host.Outcome State Fault Refusal := .next (s.store q rd rs1 imm 2)
def execSb (q : Fin 48) (rd rs1 : BitVec 5) (imm : W16) (s : State) : Host.Outcome State Fault Refusal := .next (s.store q rd rs1 imm 1)

/-! ### Atomics (R56) -/

/-- An access that reaches DRAM where only SRAM serves: where the DRAM is absent it is an access error of R27. -/
def State.dramRefused (s : State) (q f : Nat) : State := if s.memAbsent f then s.accessErr q f else s

/-- One indivisible read and write of an SRAM word; `new` is what memory receives, none where it is unchanged. -/
def State.atomicMem (s : State) (q : Nat) (rd : BitVec 5) (a : W32) (new : W32 → Option W32) : State :=
  match s.memCheck q a.toNat 4 Needs.both with
  | some t => t.trap q trapStore a
  | none => match s.dataRead q a.toNat 4 with
    | (none, t) => t.trap q trapLoadUe a
    | (some bs, t) =>
      let old := w32 (leNat bs)
      (match new old with
        | some v => ((t.wrWord a.toNat v).written a.toNat 4).tableStored q a.toNat
        | none => t).alu q rd old

/-- An atomic: word aligned and in SRAM. -/
def State.atomic (s : State) (q : Nat) (rd rs1 : BitVec 5) (new : W32 → Option W32) : State :=
  if !s.executes q then s
  else
    let a := (s.seq q).x rs1
    if a.toNat % 4 != 0 then s.trap q trapStoreAlign a
    else match s.place q a.toNat with
      | .mem f => if isSram f then s.atomicMem q rd a new else (s.dramRefused q f).trap q trapStore a
      | .reg => s.trap q trapStore a
      | _ => (s.accessErr q a.toNat).trap q trapStore a

def execAmoswap (q : Fin 48) (rd rs1 rs2 : BitVec 5) (s : State) : Host.Outcome State Fault Refusal :=
  .next (s.atomic q.val rd rs1 (fun _ => some ((s.seq q.val).x rs2)))
def execAmoadd (q : Fin 48) (rd rs1 rs2 : BitVec 5) (s : State) : Host.Outcome State Fault Refusal :=
  .next (s.atomic q.val rd rs1 (fun old => some (old + (s.seq q.val).x rs2)))
def execAmoand (q : Fin 48) (rd rs1 rs2 : BitVec 5) (s : State) : Host.Outcome State Fault Refusal :=
  .next (s.atomic q.val rd rs1 (fun old => some (old &&& (s.seq q.val).x rs2)))
def execAmoor (q : Fin 48) (rd rs1 rs2 : BitVec 5) (s : State) : Host.Outcome State Fault Refusal :=
  .next (s.atomic q.val rd rs1 (fun old => some (old ||| (s.seq q.val).x rs2)))
def execAmocas (q : Fin 48) (rd rs1 rs2 rs3 : BitVec 5) (s : State) : Host.Outcome State Fault Refusal :=
  .next (s.atomic q.val rd rs1 (fun old => if old = (s.seq q.val).x rs3 then some ((s.seq q.val).x rs2) else none))

end Sys2Proof.Machine
end

