-- ==== Sys2Proof/Machine/PyrV.lean ====
section
/-! DEFINITION. PYR-V, the vector and screening instructions of the render clusters, and residue checking (R66 to R70, R161
to R172, R177). -/

namespace Sys2Proof.Machine

/-! ### Lanes -/

/-- The lanes that a mask register leaves active, in increasing order (R66). -/
def Seq.active (c : Seq) (m : BitVec 3) : List Nat := (List.range 64).filter (fun k => (c.mask m).getLsbD k)

/-- Lanes of a vector register are written. -/
def Seq.setLanes (c : Seq) (vd : BitVec 5) (xs : List (Nat × W32)) : Seq := xs.foldl (fun d e => d.setLane vd e.1 e.2) c

/-- An instruction of PYR-V: on a sequencer without it, or with a mask register m0 as destination, it is illegal. It keeps
the vector unit busy for cycles that do not bind, counted in RCn_VCYC (R178). -/
def State.vecInsn (s : State) (q : Nat) (word : W32) (ok : Bool) (f : State → State) : State :=
  if !s.executes q then s else if !hasV q || !ok then s.illegal q word else f (s.drawn.bumpBy (F.RC_VCYC_cycles (q - 8)) s.freeN)

/-- The instruction retires with a new context. -/
def State.vecDone (s : State) (q : Nat) (c : Seq) : State := s.setSeq q c.retired

/-! ### Residue checking (R70, R172, R177) -/

/-- A mismatch in a lane: nothing is written, the cluster posts RESIDUE, and the sequencer traps. -/
def State.residueError (s : State) (q op func lane : Nat) (injected : Bool) : State :=
  let n := q - 8
  let t := s.post q 0x340 (loc4 n (lane / 8)) (w32 ((if injected then 2 ^ 31 else 0) + op * 2 ^ 16 + func * 2 ^ 8 + lane))
  let u := if injected then ((t.set (F.RC_STAT_inj_done n) 1).set (F.RC_CTL_res_inj n) 0).monitorPassed 6
    else (t.set (F.RC_STAT_res_err n) 1).bump (F.RC_RESCNT_count n)
  u.trap q trapResidue (w32 lane)

/-- The check of a residue-checked instruction: an armed injection shows in the lowest active lane; `mism` is the lowest
lane in which the two paths differ. `t` is the state the instruction leads to otherwise. -/
def State.residue (s : State) (q : Nat) (m : BitVec 3) (op func : Nat) (mism : Option (Fin 64)) (t : State) : State :=
  match (s.seq q).active m with
  | [] => t
  | low :: rest =>
    if s.flag (F.RC_CTL_res_inj (q - 8)) then s.residueError q op func low true
    else match mism with
      | some l => if (low :: rest).contains l.val then s.residueError q op func l.val false else t
      | none => t

/-! ### Arithmetic (R67) -/

/-- The second operand of a lane: a vector register's, or in the .VX form a general register's. -/
def Seq.operand (c : Seq) (vx : Bool) (vs2 : BitVec 5) (k : Nat) : W32 := if vx then c.x vs2 else c.lane vs2 k

/-- func with its .VX bit. -/
def vfunc (vx : Bool) (fn : Nat) : Nat := fn + (if vx then 0x80 else 0)

/-- A lane-by-lane result; `op` takes the old destination lane and the two operands. -/
def State.vecLanes (s : State) (q : Nat) (m : BitVec 3) (vx : Bool) (vd vs1 vs2 : BitVec 5) (op : W32 → W32 → W32 → W32) : State :=
  let c := s.seq q
  s.vecDone q (c.setLanes vd ((c.active m).map (fun k => (k, op (c.lane vd k) (c.lane vs1 k) (c.operand vx vs2 k)))))

/-- Unchecked arithmetic. -/
def State.vecPlain (s : State) (q fn : Nat) (m : BitVec 3) (vx : Bool) (vd vs1 vs2 : BitVec 5) (op : W32 → W32 → W32) : State :=
  s.vecInsn q (vWord 0x3C vd vs1 vs2 m (vfunc vx fn)) true (fun t => t.vecLanes q m vx vd vs1 vs2 (fun _ a b => op a b))

/-- Residue-checked arithmetic. -/
def State.vecChecked (s : State) (q fn : Nat) (m : BitVec 3) (vx : Bool) (vd vs1 vs2 : BitVec 5) (mism : Option (Fin 64))
    (op : W32 → W32 → W32 → W32) : State :=
  s.vecInsn q (vWord 0x3C vd vs1 vs2 m (vfunc vx fn)) true (fun t =>
    t.residue q m 0x3C (vfunc vx fn) mism (t.vecLanes q m vx vd vs1 vs2 op))

def execVadd (q : Fin 48) (m : BitVec 3) (vx : Bool) (vd vs1 vs2 : BitVec 5) (mism : Option (Fin 64)) (s : State) :
    Host.Outcome State Fault Refusal := .next (s.vecChecked q.val 0 m vx vd vs1 vs2 mism (fun _ a b => a + b))
def execVsub (q : Fin 48) (m : BitVec 3) (vx : Bool) (vd vs1 vs2 : BitVec 5) (mism : Option (Fin 64)) (s : State) :
    Host.Outcome State Fault Refusal := .next (s.vecChecked q.val 1 m vx vd vs1 vs2 mism (fun _ a b => a - b))
def execVmul (q : Fin 48) (m : BitVec 3) (vx : Bool) (vd vs1 vs2 : BitVec 5) (mism : Option (Fin 64)) (s : State) :
    Host.Outcome State Fault Refusal := .next (s.vecChecked q.val 2 m vx vd vs1 vs2 mism (fun _ a b => a * b))

/-- (a × b + 2^15) >> 16, signed. -/
def mulQ16 (a b : W32) : W32 := wordOfInt ((a.toInt * b.toInt + 32768) / 65536)

def execVmulq (q : Fin 48) (m : BitVec 3) (vx : Bool) (vd vs1 vs2 : BitVec 5) (mism : Option (Fin 64)) (s : State) :
    Host.Outcome State Fault Refusal := .next (s.vecChecked q.val 3 m vx vd vs1 vs2 mism (fun _ a b => mulQ16 a b))
def execVmac (q : Fin 48) (m : BitVec 3) (vx : Bool) (vd vs1 vs2 : BitVec 5) (mism : Option (Fin 64)) (s : State) :
    Host.Outcome State Fault Refusal := .next (s.vecChecked q.val 4 m vx vd vs1 vs2 mism (fun d a b => d + a * b))
def execVmin (q : Fin 48) (m : BitVec 3) (vx : Bool) (vd vs1 vs2 : BitVec 5) (s : State) : Host.Outcome State Fault Refusal :=
  .next (s.vecPlain q.val 5 m vx vd vs1 vs2 minS)
def execVmax (q : Fin 48) (m : BitVec 3) (vx : Bool) (vd vs1 vs2 : BitVec 5) (s : State) : Host.Outcome State Fault Refusal :=
  .next (s.vecPlain q.val 6 m vx vd vs1 vs2 maxS)
def execVminu (q : Fin 48) (m : BitVec 3) (vx : Bool) (vd vs1 vs2 : BitVec 5) (s : State) : Host.Outcome State Fault Refusal :=
  .next (s.vecPlain q.val 7 m vx vd vs1 vs2 minU)
def execVmaxu (q : Fin 48) (m : BitVec 3) (vx : Bool) (vd vs1 vs2 : BitVec 5) (s : State) : Host.Outcome State Fault Refusal :=
  .next (s.vecPlain q.val 8 m vx vd vs1 vs2 maxU)
def execVand (q : Fin 48) (m : BitVec 3) (vx : Bool) (vd vs1 vs2 : BitVec 5) (s : State) : Host.Outcome State Fault Refusal :=
  .next (s.vecPlain q.val 9 m vx vd vs1 vs2 (fun a b => a &&& b))
def execVor (q : Fin 48) (m : BitVec 3) (vx : Bool) (vd vs1 vs2 : BitVec 5) (s : State) : Host.Outcome State Fault Refusal :=
  .next (s.vecPlain q.val 0xA m vx vd vs1 vs2 (fun a b => a ||| b))
def execVxor (q : Fin 48) (m : BitVec 3) (vx : Bool) (vd vs1 vs2 : BitVec 5) (s : State) : Host.Outcome State Fault Refusal :=
  .next (s.vecPlain q.val 0xB m vx vd vs1 vs2 (fun a b => a ^^^ b))
def execVsll (q : Fin 48) (m : BitVec 3) (vx : Bool) (vd vs1 vs2 : BitVec 5) (s : State) : Host.Outcome State Fault Refusal :=
  .next (s.vecPlain q.val 0xC m vx vd vs1 vs2 (fun a b => a <<< shiftOf b))
def execVsrl (q : Fin 48) (m : BitVec 3) (vx : Bool) (vd vs1 vs2 : BitVec 5) (s : State) : Host.Outcome State Fault Refusal :=
  .next (s.vecPlain q.val 0xD m vx vd vs1 vs2 (fun a b => a >>> shiftOf b))
def execVsra (q : Fin 48) (m : BitVec 3) (vx : Bool) (vd vs1 vs2 : BitVec 5) (s : State) : Host.Outcome State Fault Refusal :=
  .next (s.vecPlain q.val 0xE m vx vd vs1 vs2 (fun a b => a.sshiftRight (shiftOf b)))

/-! ### Masks, splat, extract (R66, R67) -/

/-- A mask with bits of listed positions replaced. -/
def maskWith (w : W64) (xs : List (Nat × Bool)) : W64 := BitVec.ofNat 64 (xs.foldl (fun n e => natSetBit n e.1 e.2) w.toNat)

/-- A comparison into mask register vd[2:0]. -/
def State.vecCompare (s : State) (q fn : Nat) (m : BitVec 3) (vx : Bool) (vd vs1 vs2 : BitVec 5) (op : W32 → W32 → Bool) : State :=
  let md : BitVec 3 := vd.truncate 3
  s.vecInsn q (vWord 0x3C vd vs1 vs2 m (vfunc vx fn)) (md != 0) (fun t =>
    let c := t.seq q
    t.vecDone q (c.setMask md (maskWith (c.mask md) ((c.active m).map (fun k => (k, op (c.lane vs1 k) (c.operand vx vs2 k)))))))

def execVcmpeq (q : Fin 48) (m : BitVec 3) (vx : Bool) (vd vs1 vs2 : BitVec 5) (s : State) : Host.Outcome State Fault Refusal :=
  .next (s.vecCompare q.val 0x10 m vx vd vs1 vs2 (fun a b => a == b))
def execVcmplt (q : Fin 48) (m : BitVec 3) (vx : Bool) (vd vs1 vs2 : BitVec 5) (s : State) : Host.Outcome State Fault Refusal :=
  .next (s.vecCompare q.val 0x11 m vx vd vs1 vs2 (fun a b => a.slt b))
def execVcmpltu (q : Fin 48) (m : BitVec 3) (vx : Bool) (vd vs1 vs2 : BitVec 5) (s : State) : Host.Outcome State Fault Refusal :=
  .next (s.vecCompare q.val 0x12 m vx vd vs1 vs2 (fun a b => a.ult b))

def execVsplat (q : Fin 48) (m : BitVec 3) (vd gs : BitVec 5) (s : State) : Host.Outcome State Fault Refusal :=
  .next (s.vecInsn q.val (vWord 0x3C vd gs 0 m 0x18) true (fun t =>
    let c := t.seq q.val
    t.vecDone q.val (c.setLanes vd ((c.active m).map (fun k => (k, c.x gs))))))

def execVext (q : Fin 48) (gd vs1 gi : BitVec 5) (s : State) : Host.Outcome State Fault Refusal :=
  .next (s.vecInsn q.val (vWord 0x3C gd vs1 gi 0 0x19) true (fun t =>
    let c := t.seq q.val
    t.vecDone q.val (c.setX gd (c.lane vs1 ((c.x gi).toNat % 64)))))

def execViota (q : Fin 48) (m : BitVec 3) (vd : BitVec 5) (s : State) : Host.Outcome State Fault Refusal :=
  .next (s.vecInsn q.val (vWord 0x3C vd 0 0 m 0x1A) true (fun t =>
    let c := t.seq q.val
    t.vecDone q.val (c.setLanes vd ((c.active m).map (fun k => (k, w32 k))))))

/-- Mask logic; like MPOP it reads and writes whole masks, whatever the m field holds (DESIGN CHOICE,
notes/assumptions/169). -/
def State.maskLogic (s : State) (q fn : Nat) (md ms1 ms2 : BitVec 3) (v : W64) : State :=
  s.vecInsn q (vWord 0x3C (md.zeroExtend 5) (ms1.zeroExtend 5) (ms2.zeroExtend 5) 0 fn) (md != 0) (fun t =>
    t.vecDone q ((t.seq q).setMask md v))

def execMand (q : Fin 48) (md ms1 ms2 : BitVec 3) (s : State) : Host.Outcome State Fault Refusal :=
  .next (s.maskLogic q.val 0x28 md ms1 ms2 ((s.seq q.val).mask ms1 &&& (s.seq q.val).mask ms2))
def execMor (q : Fin 48) (md ms1 ms2 : BitVec 3) (s : State) : Host.Outcome State Fault Refusal :=
  .next (s.maskLogic q.val 0x29 md ms1 ms2 ((s.seq q.val).mask ms1 ||| (s.seq q.val).mask ms2))
def execMnot (q : Fin 48) (md ms1 : BitVec 3) (s : State) : Host.Outcome State Fault Refusal :=
  .next (s.maskLogic q.val 0x2A md ms1 0 (~~~(s.seq q.val).mask ms1))

def execMpop (q : Fin 48) (gd : BitVec 5) (ms : BitVec 3) (s : State) : Host.Outcome State Fault Refusal :=
  .next (s.vecInsn q.val (vWord 0x3C gd (ms.zeroExtend 5) 0 0 0x2B) true (fun t =>
    t.vecDone q.val ((t.seq q.val).setX gd (w32 (countBits 64 ((t.seq q.val).mask ms).toNat)))))

/-! ### Checks before any access (R68, R163) -/

/-- A word of memory that an instruction will use: a misaligned address, one outside SRAM, absent, or refused. -/
def State.wordCheck (s : State) (q : Nat) (n : Needs) (a : W32) : Option (Bool × State) :=
  if a.toNat % 4 != 0 then some (true, s)
  else match s.place q a.toNat with
    | .mem f => if isSram f then (s.memCheck q f 4 n).map (fun t => (false, t)) else some (false, s.dramRefused q f)
    | .reg => some (false, s)
    | _ => some (false, s.accessErr q a.toNat)

/-- The first failing address of a list, each with the address that TVAL names. -/
def State.checkWords (s : State) (q : Nat) (n : Needs) : List (W32 × W32) → Option (Bool × W32 × State)
  | [] => none
  | (tv, a) :: rest =>
    match s.wordCheck q n a with
    | some (mis, t) => some (mis, tv, t)
    | none => s.checkWords q n rest

/-- The instruction goes on when every address passes; else it traps, as a load or as a store. -/
def State.afterCheck (s : State) (q : Nat) (store : Bool) (as : List (W32 × W32)) (t : State) : State :=
  match s.checkWords q (if store then Needs.write else Needs.read) as with
  | none => t
  | some (true, a, u) => u.trap q (if store then trapStoreAlign else trapLoadAlign) a
  | some (false, a, u) => u.trap q (if store then trapStore else trapLoad) a

/-- Addresses that name themselves. -/
def selfNamed (as : List W32) : List (W32 × W32) := as.map (fun a => (a, a))

/-- Words read in order until one is uncorrectable (R326). -/
def readWords (q : Nat) : List W32 → State → Sum W32 (List W32) × State
  | [], s => (.inr [], s)
  | a :: as, s =>
    match s.dataRead q a.toNat 4 with
    | (none, t) => (.inl a, t)
    | (some bs, t) =>
      match readWords q as t with
      | (.inr ws, u) => (.inr (w32 (leNat bs) :: ws), u)
      | (.inl b, u) => (.inl b, u)

/-- Words are read for an instruction: an uncorrectable one traps with its address. -/
def State.withWords (s : State) (q : Nat) (as : List W32) (f : List W32 → State → State) : State :=
  match readWords q as s with
  | (.inr ws, t) => f ws t
  | (.inl a, t) => t.trap q trapLoadUe a

/-! ### Vector memory (R68) -/

/-- Address of a lane in VLD and VST: a stride register g0 stands for 4. -/
def Seq.strided (c : Seq) (gb gs : BitVec 5) (k : Nat) : W32 := c.x gb + w32 k * (if gs = 0 then 4 else c.x gs)

/-- Address of a lane in VLDX and VSTX. -/
def Seq.indexed (c : Seq) (gb vs2 : BitVec 5) (k : Nat) : W32 := c.x gb + c.lane vs2 k

/-- Active lanes are loaded from their addresses. -/
def State.vecLoad (s : State) (q : Nat) (m : BitVec 3) (vd : BitVec 5) (addr : Nat → W32) : State :=
  let lanes := (s.seq q).active m
  s.afterCheck q false (selfNamed (lanes.map addr)) (s.withWords q (lanes.map addr) (fun ws t =>
    t.vecDone q ((t.seq q).setLanes vd (lanes.zip ws))))

/-- Words are stored in order, each whole. -/
def storeWords (q : Nat) : List (W32 × W32) → State → State
  | [], s => s
  | (a, v) :: rest, s => storeWords q rest (((s.wrWord a.toNat v).written a.toNat 4).tableStored q a.toNat)

/-- Active lanes are stored to their addresses, in increasing order. -/
def State.vecStore (s : State) (q : Nat) (m : BitVec 3) (vd : BitVec 5) (addr : Nat → W32) : State :=
  let c := s.seq q
  let xs := (c.active m).map (fun k => (addr k, c.lane vd k))
  let t := storeWords q xs s
  s.afterCheck q true (selfNamed (xs.map (fun e => e.1))) (t.vecDone q (t.seq q))

def execVld (q : Fin 48) (m : BitVec 3) (vd gb gs : BitVec 5) (s : State) : Host.Outcome State Fault Refusal :=
  .next (s.vecInsn q.val (vWord 0x3D vd gb gs m 0) true (fun t => t.vecLoad q.val m vd ((t.seq q.val).strided gb gs)))
def execVst (q : Fin 48) (m : BitVec 3) (vd gb gs : BitVec 5) (s : State) : Host.Outcome State Fault Refusal :=
  .next (s.vecInsn q.val (vWord 0x3D vd gb gs m 1) true (fun t => t.vecStore q.val m vd ((t.seq q.val).strided gb gs)))
def execVldx (q : Fin 48) (m : BitVec 3) (vd gb vs2 : BitVec 5) (s : State) : Host.Outcome State Fault Refusal :=
  .next (s.vecInsn q.val (vWord 0x3D vd gb vs2 m 2) true (fun t => t.vecLoad q.val m vd ((t.seq q.val).indexed gb vs2)))
def execVstx (q : Fin 48) (m : BitVec 3) (vd gb vs2 : BitVec 5) (s : State) : Host.Outcome State Fault Refusal :=
  .next (s.vecInsn q.val (vWord 0x3D vd gb vs2 m 3) true (fun t => t.vecStore q.val m vd ((t.seq q.val).indexed gb vs2)))

/-! ### Tone words (R161) -/

/-- A channel of a tone word: 0, 1, 2 for u1, u2, u3. -/
def chanOf (w : W32) (c : Nat) : Nat := bitsOf w (9 * c + 8) (9 * c)

/-- A tone word from its upper five bits and its channels. -/
def toneWord (top : Nat) (u : Nat → Nat) : W32 := w32 (top * 2 ^ 27 + u 2 * 2 ^ 18 + u 1 * 2 ^ 9 + u 0)

def stateOf (w : W32) : Nat := bitsOf w 31 30
def modeOf (w : W32) : Nat := bitsOf w 29 27

/-! ### VLUT (R162, R164, R165) -/

/-- Words of vs1 as the source selector reads them: the value of a lane, and whether it is a 16-bit pixel. -/
def sourceOf (c : Seq) (vs1 : BitVec 5) (sel k : Nat) : Nat × Bool :=
  let w := fun i => (c.lane vs1 i).toNat
  if sel ≤ 3 then (w (16 * sel + k / 4) / 256 ^ (k % 4) % 256, false)
  else if sel ≤ 5 then (w (32 * (sel - 4) + k / 2) / 65536 ^ (k % 2) % 65536, true)
  else if sel = 6 then (w k % 256, false)
  else if sel = 7 then (w k % 65536, true)
  else if sel ≤ 23 then (w (4 * (sel - 8) + k / 16) / 4 ^ (k % 16) % 4, false)
  else
    let i := 6 * (sel - 24) + 3 * k / 32
    ((w i + (if 3 * k % 32 ≤ 29 then 0 else w (i + 1) * 2 ^ 32)) / 2 ^ (3 * k % 32) % 8, false)

/-- Interpolation between two entries. -/
def interpTone (t : Nat → W32) (x : Nat) : W32 :=
  let a := t (x / 256)
  let b := t (min (x / 256 + 1) 255)
  toneWord 0 (fun c => ((chanOf a c : Int) + (((chanOf b c : Int) - chanOf a c) * (x % 256 : Nat) + 128) / 256).toNat)

/-- The entry of a lane. -/
def lutOf (c : Seq) (table : List W32) (vs1 : BitVec 5) (sel k : Nat) : W32 :=
  let t := fun i => table.getD i 0
  match sourceOf c vs1 sel k with
  | (x, true) => interpTone t x
  | (x, false) => t x &&& 0x07FFFFFF

/-- The table buffer holds a valid copy of the 1 KiB at a base. -/
def State.tableHeld (s : State) (n : Nat) (base : W32) : Bool :=
  s.flag (F.RC_TBUF_valid n) && s.get (F.RC_TBUF_base n) == base.toNat / 1024

/-- The lanes are looked up in the buffered table. -/
def State.lutDone (s : State) (q : Nat) (m : BitVec 3) (vd vs1 : BitVec 5) (sel : Nat) : State :=
  let c := s.seq q
  s.vecDone q (c.setLanes vd ((c.active m).map (fun k => (k, lutOf c c.tbuf vs1 sel k))))

/-- Table entries that a lane's source word uses: one, or the two it lies between. -/
def lutEntries (c : Seq) (vs1 : BitVec 5) (sel k : Nat) : List Nat :=
  match sourceOf c vs1 sel k with
  | (x, true) => [x / 256, min (x / 256 + 1) 255]
  | (x, false) => [x]

/-- Addresses of the table words in the order of their checks: those of the active lanes in increasing order, then the whole
table (R163). -/
def tableWords (c : Seq) (m : BitVec 3) (vs1 : BitVec 5) (base : W32) (sel : Nat) : List W32 :=
  ((c.active m).flatMap (lutEntries c vs1 sel) ++ List.range 256).map (fun i => base + w32 (4 * i))

/-- The table is read whole into the buffer. An uncorrectable word traps with the address of the lowest lane's word that is
uncorrectable, else with its own (R68, R163, R326). -/
def State.tableLoad (s : State) (q : Nat) (base : W32) (order : List W32) (f : State → State) : State :=
  match readWords q ((List.range 256).map (fun i => base + w32 (4 * i))) s with
  | (.inr ws, t) => f ((t.setSeq q { t.seq q with tbuf := ws }).wr (R.RC_TBUF (q - 8)) (base ||| 1))
  | (.inl a, t) => t.trap q trapLoadUe ((order.find? (fun w => tabFind s.cells w.toNat == some .double)).getD a)

/-- VLUT: the table is loaded whole unless a valid copy is buffered (R165). -/
def State.vlut (s : State) (q : Nat) (m : BitVec 3) (vd vs1 g : BitVec 5) : State :=
  let c := s.seq q
  let base := c.x g &&& 0xFFFFFC00
  let sel := (c.x g).toNat / 4 % 32
  if s.tableHeld (q - 8) base then s.lutDone q m vd vs1 sel
  else
    let order := tableWords c m vs1 base sel
    s.afterCheck q false (selfNamed order) (s.tableLoad q base order (fun t => t.lutDone q m vd vs1 sel))

def execVlut (q : Fin 48) (m : BitVec 3) (vd vs1 g : BitVec 5) (s : State) : Host.Outcome State Fault Refusal :=
  .next (s.vecInsn q.val (vWord 0x3E vd vs1 g m 0) true (fun t => t.vlut q.val m vd vs1 g))

/-! ### VNMAP and VSPREAD (R166 to R168) -/

/-- The highest map index (R166). -/
def lastNozzle : Nat := 786431

/-- Address of a map entry. -/
def entryAddr (i : Nat) : W32 := w32 (4 * i)

/-- The range check: TVAL names the lowest index above the map. -/
def State.nozzlesIn (s : State) (q gn : Nat) (t : State) : State :=
  if gn + 63 ≤ lastNozzle then t else s.trap q trapLoad (entryAddr (max gn (lastNozzle + 1)))

/-- A busy NMAP port makes an access wait; the wait is counted (R167). -/
def State.portWait (s : State) (q : Nat) : State := s.drawn.bumpBy (F.RC_NMWAIT_cycles (q - 8)) s.freeN

/-- A lane after density gain. -/
def gained (e w : W32) : W32 :=
  toneWord (bitsOf e 31 30 * 8 + bitsOf e 18 16) (fun c => min 511 ((chanOf w c * bitsOf e 15 8 + 64) / 128))

def State.vnmap (s : State) (q : Nat) (m : BitVec 3) (vd vs1 g : BitVec 5) (mism : Option (Fin 64)) : State :=
  let c := s.seq q
  let gn := (c.x g).toNat
  let lanes := c.active m
  let as := lanes.map (fun k => entryAddr (gn + k))
  s.nozzlesIn q gn (s.afterCheck q false (selfNamed as) ((s.portWait q).withWords q as (fun ws t =>
    t.residue q m 0x3E 2 mism (t.vecDone q ((t.seq q).setLanes vd ((lanes.zip ws).map (fun e => (e.1, gained e.2 (c.lane vs1 e.1)))))))))

def execVnmap (q : Fin 48) (m : BitVec 3) (vd vs1 g : BitVec 5) (mism : Option (Fin 64)) (s : State) :
    Host.Outcome State Fault Refusal :=
  .next (s.vecInsn q.val (vWord 0x3E vd vs1 g m 2) true (fun t => t.vnmap q.val m vd vs1 g mism))

/-- State and mode of a map entry in the places of a tone word. -/
def edgeWord (e : W32) : W32 := w32 ((bitsOf e 31 30 * 8 + bitsOf e 18 16) * 2 ^ 27)

/-- Half-shares that a lane receives from its neighbours: `l` and `r` are the words to its left and right, where those
are neighbours. -/
def halvesGot (l r : Option W32) : Nat :=
  (match l with
    | some w => if 2 ≤ stateOf w then (if modeOf w = 2 then 2 else if modeOf w = 3 then 1 else 0) else 0
    | none => 0) +
  (match r with
    | some w => if 2 ≤ stateOf w then (if modeOf w = 1 then 2 else if modeOf w = 3 then 1 else 0) else 0
    | none => 0)

/-- A lane after redistribution. -/
def spreadLane (w : W32) (l r : Option W32) : W32 :=
  if 2 ≤ stateOf w then w &&& 0xF8000000
  else
    let n := halvesGot l r
    toneWord (bitsOf w 31 27) (fun c => min 511 (chanOf w c + chanOf w c * n / 2))

/-- Nozzles i and i + 1 lie in one tile. -/
def sameTile (i : Nat) : Bool := (i + 1) % 2048 != 0

/-- The word left or right of a lane, from vs1 or from an edge entry. -/
def leftOf (c : Seq) (vs1 : BitVec 5) (gn : Nat) (edge : W32) (k : Nat) : Option W32 :=
  if (gn + k) % 2048 = 0 then none else some (if k = 0 then edgeWord edge else c.lane vs1 (k - 1))
def rightOf (c : Seq) (vs1 : BitVec 5) (gn : Nat) (edge : W32) (k : Nat) : Option W32 :=
  if sameTile (gn + k) then some (if k = 63 then edgeWord edge else c.lane vs1 (k + 1)) else none

def State.vspread (s : State) (q : Nat) (m : BitVec 3) (vd vs1 g : BitVec 5) (mism : Option (Fin 64)) : State :=
  let c := s.seq q
  let gn := (c.x g).toNat
  let low := gn % 2048 != 0
  let high := (gn + 64) % 2048 != 0
  let as := (if low then [entryAddr (gn - 1)] else []) ++ (if high then [entryAddr (gn + 64)] else [])
  s.nozzlesIn q gn (s.afterCheck q false (selfNamed as) ((s.portWait q).withWords q as (fun ws t =>
    let le := ws.headD 0
    let re := ws.getLastD 0
    t.residue q m 0x3E 3 mism (t.vecDone q ((t.seq q).setLanes vd ((c.active m).map (fun k =>
      (k, spreadLane (c.lane vs1 k) (leftOf c vs1 gn le k) (rightOf c vs1 gn re k)))))))))

def execVspread (q : Fin 48) (m : BitVec 3) (vd vs1 g : BitVec 5) (mism : Option (Fin 64)) (s : State) :
    Host.Outcome State Fault Refusal :=
  .next (s.vecInsn q.val (vWord 0x3E vd vs1 g m 3) true (fun t => t.vspread q.val m vd vs1 g mism))

/-! ### VTHR and VMASK (R162, R169, R170) -/

/-- An array descriptor: base, width, height, the current row reduced, and bits [3:0] of word 1. -/
structure ArrayDesc where
  base : W32
  w : Nat
  v : Nat
  low : Nat

def descOf (d0 d1 : W32) : ArrayDesc :=
  { base := d0, w := bitsOf d1 31 24 + 1, v := bitsOf d1 15 8 % (bitsOf d1 23 16 + 1), low := bitsOf d1 3 0 }

/-- Index of a lane's cell. -/
def ArrayDesc.cell (d : ArrayDesc) (u0 k : Nat) : Nat := d.v * d.w + (u0 + k) % d.w

/-- The descriptor is checked and read once, at issue. -/
def State.withDesc (s : State) (q : Nat) (g : W32) (f : ArrayDesc → State → State) : State :=
  let a := g &&& 0xFFFFFF00
  s.afterCheck q false (selfNamed [a, a + 4]) (s.withWords q [a, a + 4] (fun ws t => f (descOf (ws.getD 0 0) (ws.getD 1 0)) t))

/-- The level of a lane under thresholds. -/
def levelOf (binary : Bool) (w t : W32) : Nat :=
  let above := fun c => decide (chanOf t c < chanOf w c)
  if 2 ≤ stateOf w then 0
  else if binary then (if above 2 then 4 else 0) + (if above 1 then 2 else 0) + (if above 0 then 1 else 0)
  else if above 2 then 3 else if above 1 then 2 else if above 0 then 1 else 0

def State.vthr (s : State) (q : Nat) (m : BitVec 3) (vd vs1 g : BitVec 5) : State :=
  let c := s.seq q
  let gd := c.x g
  let lanes := c.active m
  s.withDesc q gd (fun d t =>
    let as := lanes.map (fun k => d.base + w32 (4 * d.cell (gd.toNat % 256) k))
    t.afterCheck q false (selfNamed as) (t.withWords q as (fun ws u =>
      u.vecDone q ((u.seq q).setLanes vd ((lanes.zip ws).map (fun e => (e.1, w32 (levelOf (d.low % 2 == 1) (c.lane vs1 e.1) e.2))))))))

def execVthr (q : Fin 48) (m : BitVec 3) (vd vs1 g : BitVec 5) (s : State) : Host.Outcome State Fault Refusal :=
  .next (s.vecInsn q.val (vWord 0x3E vd vs1 g m 1) true (fun t => t.vthr q.val m vd vs1 g))

/-- The word that holds a pattern byte; a misaligned base makes every byte's address misaligned (R163). -/
def patternWord (base a : W32) : W32 := if base.toNat % 4 != 0 then base else a &&& 0xFFFFFFFC

def State.vmask (s : State) (q : Nat) (m : BitVec 3) (vd vs1 g : BitVec 5) : State :=
  let c := s.seq q
  let gp := c.x g
  let lanes := c.active m
  s.withDesc q gp (fun d t =>
    let byteAt := fun k => d.base + w32 (d.cell (gp.toNat % 256) k)
    t.afterCheck q false (lanes.map (fun k => (byteAt k, patternWord d.base (byteAt k))))
      (t.withWords q (lanes.map (fun k => patternWord d.base (byteAt k))) (fun ws u =>
        u.vecDone q ((u.seq q).setLanes vd ((lanes.zip ws).map (fun e =>
          (e.1, if e.2.toNat / 256 ^ ((byteAt e.1).toNat % 4) % 16 = d.low then c.lane vs1 e.1 else 0)))))))

def execVmask (q : Fin 48) (m : BitVec 3) (vd vs1 g : BitVec 5) (s : State) : Host.Outcome State Fault Refusal :=
  .next (s.vecInsn q.val (vWord 0x3E vd vs1 g m 4) true (fun t => t.vmask q.val m vd vs1 g))

/-! ### VPACK (R159, R171) -/

/-- The level a lane packs in n bits. -/
def packLevel (n : Nat) (w : W32) : Nat := if w.toInt < 0 then 0 else min w.toNat (2 ^ n - 1)

/-- A stream with the levels of lanes put in. -/
def packStream (n : Nat) (lanes : List Nat) (level : Nat → Nat) (old : Nat) : Nat :=
  lanes.foldl (fun x k => x - x / 2 ^ (n * k) % 2 ^ n * 2 ^ (n * k) + level k * 2 ^ (n * k)) old

/-- The words that hold bits of an active lane, in order. -/
def packWords (n : Nat) (lanes : List Nat) : List Nat :=
  (List.range (2 * n)).filter (fun i => lanes.any (fun k => decide (n * k < 32 * (i + 1)) && decide (32 * i < n * k + n)))

/-- VPACK: each word that holds bits of an active lane is read, merged and written. One that reads uncorrectable makes the
store fault and nothing is written (R321, R326). -/
def State.vpack (s : State) (q : Nat) (m : BitVec 3) (ga vs1 gf : BitVec 5) : State :=
  let c := s.seq q
  let n := 2 + (c.x gf).toNat % 2
  let lanes := c.active m
  let ws := packWords n lanes
  let addr := fun i => c.x ga + w32 (4 * i)
  s.afterCheck q true (selfNamed (ws.map addr)) (match readWords q (ws.map addr) s with
    | (.inl a, t) => t.trap q trapStore a
    | (.inr olds, t) =>
      let old := (ws.zip olds).foldl (fun x e => x + e.2.toNat * 2 ^ (32 * e.1)) 0
      let new := packStream n lanes (fun k => packLevel n (c.lane vs1 k)) old
      let u := storeWords q (ws.map (fun i => (addr i, w32 (new / 2 ^ (32 * i))))) t
      u.vecDone q (u.seq q))

def execVpack (q : Fin 48) (m : BitVec 3) (ga vs1 gf : BitVec 5) (s : State) : Host.Outcome State Fault Refusal :=
  .next (s.vecInsn q.val (vWord 0x3E ga vs1 gf m 5) true (fun t => t.vpack q.val m ga vs1 gf))

/-! ### RCn_CTL (R165, R172) -/

/-- TBUF_INVALIDATE: a write of RCn_CTL.tbuf_inv. -/
def execTbufInvalidate (n : Fin 16) (s : State) : Host.Outcome State Fault Refusal :=
  .next (if s.rcFused n.val then s else s.rcCtlWrite n.val 2)

/-- RESIDUE_INJECT_ARM: a write of RCn_CTL.res_inj. -/
def execResidueInjectArm (n : Fin 16) (s : State) : Host.Outcome State Fault Refusal :=
  .next (if s.rcFused n.val then s else s.rcCtlWrite n.val 1)

end Sys2Proof.Machine
end

