-- ==== Sys2Proof/Machine/Dispatch.lean ====
section
/-! DEFINITION. One arm per command: a direct call of its meaning, or its refusal by name. -/

namespace Sys2Proof.Machine

/-- The effect of one command on everything but the queue. -/
def exec (i : Instr) (s : State) : Host.Outcome State Fault Refusal :=
  match i with
  | .registerWrite m addr value => Sys2Proof.Machine.execRegisterWrite m addr value s
  | .readClear m addr => Sys2Proof.Machine.execReadClear m addr s
  | .snapshotCapture m addr => Sys2Proof.Machine.execSnapshotCapture m addr s
  | .elogRead m march => Sys2Proof.Machine.execElogRead m march s
  | .lrefSelWrite value => Sys2Proof.Machine.execLrefSelWrite value s
  | .pllLock p s0 s1 s2 s3 => Sys2Proof.Machine.execPllLock p s0 s1 s2 s3 s
  | .pllLockLoss p => Sys2Proof.Machine.execPllLockLoss p s
  | .pllLossResetTimer p => Sys2Proof.Machine.execPllLossResetTimer p s
  | .seqRun q => Sys2Proof.Machine.execSeqRun q s
  | .seqHalt q => Sys2Proof.Machine.execSeqHalt q s
  | .seqRst q => Sys2Proof.Machine.execSeqRst q s
  | .splitWrite q value => Sys2Proof.Machine.execSplitWrite q value s
  | .swiSet q => Sys2Proof.Machine.execSwiSet q s
  | .swiClr q => Sys2Proof.Machine.execSwiClr q s
  | .sigSetReg k value => Sys2Proof.Machine.execSigSetReg k value s
  | .sigClrReg k value => Sys2Proof.Machine.execSigClrReg k value s
  | .debugHalt q => Sys2Proof.Machine.execDebugHalt q s
  | .debugResume q => Sys2Proof.Machine.execDebugResume q s
  | .lockstepMismatch pair => Sys2Proof.Machine.execLockstepMismatch pair s
  | .interruptTake q => Sys2Proof.Machine.execInterruptTake q s
  | .timecmpMatch q => Sys2Proof.Machine.execTimecmpMatch q s
  | .add q rd rs1 rs2 => Sys2Proof.Machine.execAdd q rd rs1 rs2 s
  | .sub q rd rs1 rs2 => Sys2Proof.Machine.execSub q rd rs1 rs2 s
  | .and q rd rs1 rs2 => Sys2Proof.Machine.execAnd q rd rs1 rs2 s
  | .or q rd rs1 rs2 => Sys2Proof.Machine.execOr q rd rs1 rs2 s
  | .xor q rd rs1 rs2 => Sys2Proof.Machine.execXor q rd rs1 rs2 s
  | .sll q rd rs1 rs2 => Sys2Proof.Machine.execSll q rd rs1 rs2 s
  | .srl q rd rs1 rs2 => Sys2Proof.Machine.execSrl q rd rs1 rs2 s
  | .sra q rd rs1 rs2 => Sys2Proof.Machine.execSra q rd rs1 rs2 s
  | .slt q rd rs1 rs2 => Sys2Proof.Machine.execSlt q rd rs1 rs2 s
  | .sltu q rd rs1 rs2 => Sys2Proof.Machine.execSltu q rd rs1 rs2 s
  | .mul q rd rs1 rs2 => Sys2Proof.Machine.execMul q rd rs1 rs2 s
  | .mulh q rd rs1 rs2 => Sys2Proof.Machine.execMulh q rd rs1 rs2 s
  | .mulhu q rd rs1 rs2 => Sys2Proof.Machine.execMulhu q rd rs1 rs2 s
  | .div q rd rs1 rs2 => Sys2Proof.Machine.execDiv q rd rs1 rs2 s
  | .divu q rd rs1 rs2 => Sys2Proof.Machine.execDivu q rd rs1 rs2 s
  | .rem q rd rs1 rs2 => Sys2Proof.Machine.execRem q rd rs1 rs2 s
  | .remu q rd rs1 rs2 => Sys2Proof.Machine.execRemu q rd rs1 rs2 s
  | .min q rd rs1 rs2 => Sys2Proof.Machine.execMin q rd rs1 rs2 s
  | .max q rd rs1 rs2 => Sys2Proof.Machine.execMax q rd rs1 rs2 s
  | .minu q rd rs1 rs2 => Sys2Proof.Machine.execMinu q rd rs1 rs2 s
  | .maxu q rd rs1 rs2 => Sys2Proof.Machine.execMaxu q rd rs1 rs2 s
  | .slli q rd rs1 sh => Sys2Proof.Machine.execSlli q rd rs1 sh s
  | .srli q rd rs1 sh => Sys2Proof.Machine.execSrli q rd rs1 sh s
  | .srai q rd rs1 sh => Sys2Proof.Machine.execSrai q rd rs1 sh s
  | .clz q rd rs1 => Sys2Proof.Machine.execClz q rd rs1 s
  | .popc q rd rs1 => Sys2Proof.Machine.execPopc q rd rs1 s
  | .addi q rd rs1 imm => Sys2Proof.Machine.execAddi q rd rs1 imm s
  | .andi q rd rs1 imm => Sys2Proof.Machine.execAndi q rd rs1 imm s
  | .ori q rd rs1 imm => Sys2Proof.Machine.execOri q rd rs1 imm s
  | .xori q rd rs1 imm => Sys2Proof.Machine.execXori q rd rs1 imm s
  | .slti q rd rs1 imm => Sys2Proof.Machine.execSlti q rd rs1 imm s
  | .sltiu q rd rs1 imm => Sys2Proof.Machine.execSltiu q rd rs1 imm s
  | .lui q rd imm => Sys2Proof.Machine.execLui q rd imm s
  | .lw q rd rs1 imm found => Sys2Proof.Machine.execLw q rd rs1 imm found s
  | .lh q rd rs1 imm => Sys2Proof.Machine.execLh q rd rs1 imm s
  | .lhu q rd rs1 imm => Sys2Proof.Machine.execLhu q rd rs1 imm s
  | .lb q rd rs1 imm => Sys2Proof.Machine.execLb q rd rs1 imm s
  | .lbu q rd rs1 imm => Sys2Proof.Machine.execLbu q rd rs1 imm s
  | .sw q rd rs1 imm => Sys2Proof.Machine.execSw q rd rs1 imm s
  | .sh q rd rs1 imm => Sys2Proof.Machine.execSh q rd rs1 imm s
  | .sb q rd rs1 imm => Sys2Proof.Machine.execSb q rd rs1 imm s
  | .amoswap q rd rs1 rs2 => Sys2Proof.Machine.execAmoswap q rd rs1 rs2 s
  | .amoadd q rd rs1 rs2 => Sys2Proof.Machine.execAmoadd q rd rs1 rs2 s
  | .amoand q rd rs1 rs2 => Sys2Proof.Machine.execAmoand q rd rs1 rs2 s
  | .amoor q rd rs1 rs2 => Sys2Proof.Machine.execAmoor q rd rs1 rs2 s
  | .amocas q rd rs1 rs2 rs3 => Sys2Proof.Machine.execAmocas q rd rs1 rs2 rs3 s
  | .beq q rs1 rs2 off => Sys2Proof.Machine.execBeq q rs1 rs2 off s
  | .bne q rs1 rs2 off => Sys2Proof.Machine.execBne q rs1 rs2 off s
  | .blt q rs1 rs2 off => Sys2Proof.Machine.execBlt q rs1 rs2 off s
  | .bge q rs1 rs2 off => Sys2Proof.Machine.execBge q rs1 rs2 off s
  | .bltu q rs1 rs2 off => Sys2Proof.Machine.execBltu q rs1 rs2 off s
  | .bgeu q rs1 rs2 off => Sys2Proof.Machine.execBgeu q rs1 rs2 off s
  | .jal q rd off => Sys2Proof.Machine.execJal q rd off s
  | .jalr q rd rs1 imm => Sys2Proof.Machine.execJalr q rd rs1 imm s
  | .ecall q => Sys2Proof.Machine.execEcall q s
  | .ebreak q => Sys2Proof.Machine.execEbreak q s
  | .eret q => Sys2Proof.Machine.execEret q s
  | .wfi q => Sys2Proof.Machine.execWfi q s
  | .wfiWake q => Sys2Proof.Machine.execWfiWake q s
  | .csrrw q rd rs1 csr => Sys2Proof.Machine.execCsrrw q rd rs1 csr s
  | .csrrs q rd rs1 csr => Sys2Proof.Machine.execCsrrs q rd rs1 csr s
  | .csrrc q rd rs1 csr => Sys2Proof.Machine.execCsrrc q rd rs1 csr s
  | .fence q => Sys2Proof.Machine.execFence q s
  | .fenceI q => Sys2Proof.Machine.execFenceI q s
  | .sigset q rs1 => Sys2Proof.Machine.execSigset q rs1 s
  | .sigclr q rs1 => Sys2Proof.Machine.execSigclr q rs1 s
  | .sigwait q rd rs1 rs2 => Sys2Proof.Machine.execSigwait q rd rs1 rs2 s
  | .sigwaitn q rd rs1 rs2 => Sys2Proof.Machine.execSigwaitn q rd rs1 rs2 s
  | .sigwaitWake sig => Sys2Proof.Machine.execSigwaitWake sig s
  | .sigwaitTimeout q => Sys2Proof.Machine.execSigwaitTimeout q s
  | .sigtst q rd rs1 => Sys2Proof.Machine.execSigtst q rd rs1 s
  | .sigtstc q rd rs1 => Sys2Proof.Machine.execSigtstc q rd rs1 s
  | .post q rd rs1 rs2 rs3 => Sys2Proof.Machine.execPost q rd rs1 rs2 rs3 s
  | .waitp q rd rs1 rs2 rs3 => Sys2Proof.Machine.execWaitp q rd rs1 rs2 rs3 s
  | .waitpPassed q => Sys2Proof.Machine.execWaitpPassed q s
  | .waitpTimeout q => Sys2Proof.Machine.execWaitpTimeout q s
  | .stamp q rd rs1 rs2 rs3 => Sys2Proof.Machine.execStamp q rd rs1 rs2 rs3 s
  | .arm q rd rs1 rs2 => Sys2Proof.Machine.execArm q rd rs1 rs2 s
  | .cancel q rd rs1 => Sys2Proof.Machine.execCancel q rd rs1 s
  | .axrd q rd rs1 => Sys2Proof.Machine.execAxrd q rd rs1 s
  | .clarke q rd rs1 => Sys2Proof.Machine.execClarke q rd rs1 s
  | .park q rd rs1 rs2 => Sys2Proof.Machine.execPark q rd rs1 rs2 s
  | .ipark q rd rs1 rs2 => Sys2Proof.Machine.execIpark q rd rs1 rs2 s
  | .svm q rd rs1 => Sys2Proof.Machine.execSvm q rd rs1 s
  | .sincos q rd rs1 => Sys2Proof.Machine.execSincos q rd rs1 s
  | .macs q rd rs1 rs2 => Sys2Proof.Machine.execMacs q rd rs1 rs2 s
  | .pistep q rd rs1 rs2 => Sys2Proof.Machine.execPistep q rd rs1 rs2 s
  | .vadd q m vx vd vs1 vs2 mism => Sys2Proof.Machine.execVadd q m vx vd vs1 vs2 mism s
  | .vsub q m vx vd vs1 vs2 mism => Sys2Proof.Machine.execVsub q m vx vd vs1 vs2 mism s
  | .vmul q m vx vd vs1 vs2 mism => Sys2Proof.Machine.execVmul q m vx vd vs1 vs2 mism s
  | .vmulq q m vx vd vs1 vs2 mism => Sys2Proof.Machine.execVmulq q m vx vd vs1 vs2 mism s
  | .vmac q m vx vd vs1 vs2 mism => Sys2Proof.Machine.execVmac q m vx vd vs1 vs2 mism s
  | .vmin q m vx vd vs1 vs2 => Sys2Proof.Machine.execVmin q m vx vd vs1 vs2 s
  | .vmax q m vx vd vs1 vs2 => Sys2Proof.Machine.execVmax q m vx vd vs1 vs2 s
  | .vminu q m vx vd vs1 vs2 => Sys2Proof.Machine.execVminu q m vx vd vs1 vs2 s
  | .vmaxu q m vx vd vs1 vs2 => Sys2Proof.Machine.execVmaxu q m vx vd vs1 vs2 s
  | .vand q m vx vd vs1 vs2 => Sys2Proof.Machine.execVand q m vx vd vs1 vs2 s
  | .vor q m vx vd vs1 vs2 => Sys2Proof.Machine.execVor q m vx vd vs1 vs2 s
  | .vxor q m vx vd vs1 vs2 => Sys2Proof.Machine.execVxor q m vx vd vs1 vs2 s
  | .vsll q m vx vd vs1 vs2 => Sys2Proof.Machine.execVsll q m vx vd vs1 vs2 s
  | .vsrl q m vx vd vs1 vs2 => Sys2Proof.Machine.execVsrl q m vx vd vs1 vs2 s
  | .vsra q m vx vd vs1 vs2 => Sys2Proof.Machine.execVsra q m vx vd vs1 vs2 s
  | .vcmpeq q m vx vd vs1 vs2 => Sys2Proof.Machine.execVcmpeq q m vx vd vs1 vs2 s
  | .vcmplt q m vx vd vs1 vs2 => Sys2Proof.Machine.execVcmplt q m vx vd vs1 vs2 s
  | .vcmpltu q m vx vd vs1 vs2 => Sys2Proof.Machine.execVcmpltu q m vx vd vs1 vs2 s
  | .vsplat q m vd gs => Sys2Proof.Machine.execVsplat q m vd gs s
  | .vext q gd vs1 gi => Sys2Proof.Machine.execVext q gd vs1 gi s
  | .viota q m vd => Sys2Proof.Machine.execViota q m vd s
  | .mand q md ms1 ms2 => Sys2Proof.Machine.execMand q md ms1 ms2 s
  | .mor q md ms1 ms2 => Sys2Proof.Machine.execMor q md ms1 ms2 s
  | .mnot q md ms1 => Sys2Proof.Machine.execMnot q md ms1 s
  | .mpop q gd ms => Sys2Proof.Machine.execMpop q gd ms s
  | .vld q m vd gb gs => Sys2Proof.Machine.execVld q m vd gb gs s
  | .vst q m vd gb gs => Sys2Proof.Machine.execVst q m vd gb gs s
  | .vldx q m vd gb vs2 => Sys2Proof.Machine.execVldx q m vd gb vs2 s
  | .vstx q m vd gb vs2 => Sys2Proof.Machine.execVstx q m vd gb vs2 s
  | .vlut q m vd vs1 g => Sys2Proof.Machine.execVlut q m vd vs1 g s
  | .vnmap q m vd vs1 g mism => Sys2Proof.Machine.execVnmap q m vd vs1 g mism s
  | .vspread q m vd vs1 g mism => Sys2Proof.Machine.execVspread q m vd vs1 g mism s
  | .vthr q m vd vs1 g => Sys2Proof.Machine.execVthr q m vd vs1 g s
  | .vmask q m vd vs1 g => Sys2Proof.Machine.execVmask q m vd vs1 g s
  | .vpack q m ga vs1 gf => Sys2Proof.Machine.execVpack q m ga vs1 gf s
  | .tbufInvalidate n => Sys2Proof.Machine.execTbufInvalidate n s
  | .residueInjectArm n => Sys2Proof.Machine.execResidueInjectArm n s
  | .quadEdge qe a b => Sys2Proof.Machine.execQuadEdge qe a b s
  | .zIndex qe level => Sys2Proof.Machine.execZIndex qe level s
  | .zArm n value => Sys2Proof.Machine.execZArm n value s
  | .positionLoad n value => Sys2Proof.Machine.execPositionLoad n value s
  | .axisEnable n value => Sys2Proof.Machine.execAxisEnable n value s
  | .axisDisable n value => Sys2Proof.Machine.execAxisDisable n value s
  | .axisCfgWrite n value => Sys2Proof.Machine.execAxisCfgWrite n value s
  | .lullDeclared n sideB => Sys2Proof.Machine.execLullDeclared n sideB s
  | .seFrameStart n slo => Sys2Proof.Machine.execSeFrameStart n slo s
  | .seFrameEnd n frame => Sys2Proof.Machine.execSeFrameEnd n frame s
  | .seTimeout n => Sys2Proof.Machine.execSeTimeout n s
  | .microstepHandover n rev => Sys2Proof.Machine.execMicrostepHandover n rev s
  | .vrateUpdate n => Sys2Proof.Machine.execVrateUpdate n s
  | .virtualCarry n borrow => Sys2Proof.Machine.execVirtualCarry n borrow s
  | .eoStep n => Sys2Proof.Machine.execEoStep n s
  | .eoCfgWrite n ratio value => Sys2Proof.Machine.execEoCfgWrite n ratio value s
  | .tileWeightWrite k value => Sys2Proof.Machine.execTileWeightWrite k value s
  | .stampPass lane phase slips => Sys2Proof.Machine.execStampPass lane phase slips s
  | .dataSend lane entry pos parity => Sys2Proof.Machine.execDataSend lane entry pos parity s
  | .commitPoint lane => Sys2Proof.Machine.execCommitPoint lane s
  | .schedEnable lane value => Sys2Proof.Machine.execSchedEnable lane value s
  | .schedDisable lane value => Sys2Proof.Machine.execSchedDisable lane value s
  | .schedFlush lane value => Sys2Proof.Machine.execSchedFlush lane value s
  | .barEnable b value => Sys2Proof.Machine.execBarEnable b value s
  | .barDisable b value => Sys2Proof.Machine.execBarDisable b value s
  | .tileCfgWrite k reg value => Sys2Proof.Machine.execTileCfgWrite k reg value s
  | .teqWrite value => Sys2Proof.Machine.execTeqWrite value s
  | .maskedMapWrite set value => Sys2Proof.Machine.execMaskedMapWrite set value s
  | .trimPush lane value => Sys2Proof.Machine.execTrimPush lane value s
  | .trimPushDone lane => Sys2Proof.Machine.execTrimPushDone lane s
  | .echoReceive lane pos blocks => Sys2Proof.Machine.execEchoReceive lane pos blocks s
  | .classifierUpdate => Sys2Proof.Machine.execClassifierUpdate s
  | .classifierEnable value => Sys2Proof.Machine.execClassifierEnable value s
  | .classifierDisable value => Sys2Proof.Machine.execClassifierDisable value s
  | .classTableLoad value => Sys2Proof.Machine.execClassTableLoad value s
  | .classLoadDone => Sys2Proof.Machine.execClassLoadDone s
  | .classifierParityError queue => Sys2Proof.Machine.execClassifierParityError queue s
  | .echoTest value => Sys2Proof.Machine.execEchoTest value s
  | .ogTrigger gate tag => Sys2Proof.Machine.execOgTrigger gate tag s
  | .ogWindowOpen gate base => Sys2Proof.Machine.execOgWindowOpen gate base s
  | .ogWindowClose gate crossing extreme => Sys2Proof.Machine.execOgWindowClose gate crossing extreme s
  | .ogResultRead gate => Sys2Proof.Machine.execOgResultRead gate s
  | .govEnable lane value => Sys2Proof.Machine.execGovEnable lane value s
  | .laneEnable lane value => Sys2Proof.Machine.execLaneEnable lane value s
  | .laneDisable lane value => Sys2Proof.Machine.execLaneDisable lane value s
  | .laneRetrain lane value => Sys2Proof.Machine.execLaneRetrain lane value s
  | .laneOpen lane value => Sys2Proof.Machine.execLaneOpen lane value s
  | .legacyWrite lane value => Sys2Proof.Machine.execLegacyWrite lane value s
  | .blockLock lane => Sys2Proof.Machine.execBlockLock lane s
  | .lockTimeout lane => Sys2Proof.Machine.execLockTimeout lane s
  | .enumReturn lane mask orderErr => Sys2Proof.Machine.execEnumReturn lane mask orderErr s
  | .enumTimeout lane => Sys2Proof.Machine.execEnumTimeout lane s
  | .delayDone lane first rest => Sys2Proof.Machine.execDelayDone lane first rest s
  | .blockLockLoss lane => Sys2Proof.Machine.execBlockLockLoss lane s
  | .replyGrant lane pos => Sys2Proof.Machine.execReplyGrant lane pos s
  | .statGrant lane pos => Sys2Proof.Machine.execStatGrant lane pos s
  | .echoGrant lane pos => Sys2Proof.Machine.execEchoGrant lane pos s
  | .mgmtGrant lane pos => Sys2Proof.Machine.execMgmtGrant lane pos s
  | .grantUnfilled lane kind pos => Sys2Proof.Machine.execGrantUnfilled lane kind pos s
  | .replyReceive lane granted block => Sys2Proof.Machine.execReplyReceive lane granted block s
  | .replyTimeout lane pos => Sys2Proof.Machine.execReplyTimeout lane pos s
  | .strobeReturn lane same => Sys2Proof.Machine.execStrobeReturn lane same s
  | .strobeReturnTimeout lane => Sys2Proof.Machine.execStrobeReturnTimeout lane s
  | .statReceive lane pos blocks => Sys2Proof.Machine.execStatReceive lane pos blocks s
  | .statTimeout lane pos => Sys2Proof.Machine.execStatTimeout lane pos s
  | .mgmtRequest lane value => Sys2Proof.Machine.execMgmtRequest lane value s
  | .mgmtResponseReceive lane resp => Sys2Proof.Machine.execMgmtResponseReceive lane resp s
  | .mgmtRetryTimeout lane pos seq => Sys2Proof.Machine.execMgmtRetryTimeout lane pos seq s
  | .sbCommand lane value => Sys2Proof.Machine.execSbCommand lane value s
  | .sbTransactionDone lane result => Sys2Proof.Machine.execSbTransactionDone lane result s
  | .sbStretchTimeout lane => Sys2Proof.Machine.execSbStretchTimeout lane s
  | .sbPoll lane readings => Sys2Proof.Machine.execSbPoll lane readings s
  | .sbPollWrite lane value => Sys2Proof.Machine.execSbPollWrite lane value s
  | .waveUpload lane value => Sys2Proof.Machine.execWaveUpload lane value s
  | .waveUploadDone lane => Sys2Proof.Machine.execWaveUploadDone lane s
  | .scaleTick lane => Sys2Proof.Machine.execScaleTick lane s
  | .breezePush lane => Sys2Proof.Machine.execBreezePush lane s
  | .sensorGateChange gate level => Sys2Proof.Machine.execSensorGateChange gate level s
  | .shutCloseCmd sh value => Sys2Proof.Machine.execShutCloseCmd sh value s
  | .shutOpenCmd sh value => Sys2Proof.Machine.execShutOpenCmd sh value s
  | .lineBoundaryClose bar limit => Sys2Proof.Machine.execLineBoundaryClose bar limit s
  | .shutModeSelect mode => Sys2Proof.Machine.execShutModeSelect mode s
  | .tlimPush lane pos => Sys2Proof.Machine.execTlimPush lane pos s
  | .motorStart n value => Sys2Proof.Machine.execMotorStart n value s
  | .motorStop n => Sys2Proof.Machine.execMotorStop n s
  | .motorDisable n value => Sys2Proof.Machine.execMotorDisable n value s
  | .dutyCommit m n value late => Sys2Proof.Machine.execDutyCommit m n value late s
  | .pwmUpdate n => Sys2Proof.Machine.execPwmUpdate n s
  | .senseTrigger n wait => Sys2Proof.Machine.execSenseTrigger n wait s
  | .senseDone n codes => Sys2Proof.Machine.execSenseDone n codes s
  | .observeWindowEnd n cycles => Sys2Proof.Machine.execObserveWindowEnd n cycles s
  | .polarityPulseEnd n peak => Sys2Proof.Machine.execPolarityPulseEnd n peak s
  | .locateTimeout n => Sys2Proof.Machine.execLocateTimeout n s
  | .startupTimeout n => Sys2Proof.Machine.execStartupTimeout n s
  | .retryCoastEnd n => Sys2Proof.Machine.execRetryCoastEnd n s
  | .recatchTimeout n => Sys2Proof.Machine.execRecatchTimeout n s
  | .tripComparator n cmp => Sys2Proof.Machine.execTripComparator n cmp s
  | .adcScan codes adc1 => Sys2Proof.Machine.execAdcScan codes adc1 s
  | .stepperEnable n value => Sys2Proof.Machine.execStepperEnable n value s
  | .stepperDisable n value => Sys2Proof.Machine.execStepperDisable n value s
  | .stepStop n => Sys2Proof.Machine.execStepStop n s
  | .stepHalt n => Sys2Proof.Machine.execStepHalt n s
  | .stepClr n => Sys2Proof.Machine.execStepClr n s
  | .movePush m n value => Sys2Proof.Machine.execMovePush m n value s
  | .profileUpdate n => Sys2Proof.Machine.execProfileUpdate n s
  | .microstep n => Sys2Proof.Machine.execMicrostep n s
  | .standstillDelay n => Sys2Proof.Machine.execStandstillDelay n s
  | .chopOnEnd n bridgeB cycles long => Sys2Proof.Machine.execChopOnEnd n bridgeB cycles long s
  | .chopDecayEnd n bridgeB cycles => Sys2Proof.Machine.execChopDecayEnd n bridgeB cycles s
  | .stallCheck n => Sys2Proof.Machine.execStallCheck n s
  | .stallEnable n value => Sys2Proof.Machine.execStallEnable n value s
  | .correctionWriteback word => Sys2Proof.Machine.execCorrectionWriteback word s
  | .ceWindowExpire unit => Sys2Proof.Machine.execCeWindowExpire unit s
  | .scrubRead word found => Sys2Proof.Machine.execScrubRead word found s
  | .scrubPassEnd dram finished => Sys2Proof.Machine.execScrubPassEnd dram finished s
  | .starve unit m => Sys2Proof.Machine.execStarve unit m s
  | .marchGo => Sys2Proof.Machine.execMarchGo s
  | .marchComplete rows => Sys2Proof.Machine.execMarchComplete rows s
  | .gustGo m c value => Sys2Proof.Machine.execGustGo m c value s
  | .gustAbort m c value => Sys2Proof.Machine.execGustAbort m c value s
  | .gustAbortDone c => Sys2Proof.Machine.execGustAbortDone c s
  | .gustDisable m c value => Sys2Proof.Machine.execGustDisable m c value s
  | .gustMove c => Sys2Proof.Machine.execGustMove c s
  | .gustFill c => Sys2Proof.Machine.execGustFill c s
  | .gustCmp c => Sys2Proof.Machine.execGustCmp c s
  | .gustCrc c => Sys2Proof.Machine.execGustCrc c s
  | .gustLoop c => Sys2Proof.Machine.execGustLoop c s
  | .gustWait c => Sys2Proof.Machine.execGustWait c s
  | .gustWaitDone c => Sys2Proof.Machine.execGustWaitDone c s
  | .gustWaitTimeout c => Sys2Proof.Machine.execGustWaitTimeout c s
  | .gustSignal c => Sys2Proof.Machine.execGustSignal c s
  | .gustEnd c => Sys2Proof.Machine.execGustEnd c s
  | .ringSpace c => Sys2Proof.Machine.execRingSpace c s
  | .gustRateWindow => Sys2Proof.Machine.execGustRateWindow s
  | .axisCapturePulse a => Sys2Proof.Machine.execAxisCapturePulse a s
  | .frameReceive port sub frame fcsOk stamp => Sys2Proof.Machine.execFrameReceive port sub frame fcsOk stamp s
  | .gspPlace => Sys2Proof.Machine.execGspPlace s
  | .bandDone stream => Sys2Proof.Machine.execBandDone stream s
  | .ackTimer stream => Sys2Proof.Machine.execAckTimer stream s
  | .frameTransmit port stamp => Sys2Proof.Machine.execFrameTransmit port stamp s
  | .ethLinkChange port sub up => Sys2Proof.Machine.execEthLinkChange port sub up s
  | .ptpIncCommit value => Sys2Proof.Machine.execPtpIncCommit value s
  | .ptpSetTime value => Sys2Proof.Machine.execPtpSetTime value s
  | .ptpAdjust value => Sys2Proof.Machine.execPtpAdjust value s
  | .ptpRatioMeasure => Sys2Proof.Machine.execPtpRatioMeasure s
  | .ptpAlarm => Sys2Proof.Machine.execPtpAlarm s
  | .ppsPulse => Sys2Proof.Machine.execPpsPulse s
  | .pcieMemWrite bar2 addr bytes => Sys2Proof.Machine.execPcieMemWrite bar2 addr bytes s
  | .pcieMemRead bar2 addr len => Sys2Proof.Machine.execPcieMemRead bar2 addr len s
  | .pcieDoorbell value => Sys2Proof.Machine.execPcieDoorbell value s
  | .msixUnmask change => Sys2Proof.Machine.execMsixUnmask change s
  | .perst => Sys2Proof.Machine.execPerst s
  | .powerOnReset loss => Sys2Proof.Machine.execPowerOnReset loss s
  | .systemResetPin => Sys2Proof.Machine.execSystemResetPin s
  | .resetRequest value => Sys2Proof.Machine.execResetRequest value s
  | .debugReset => Sys2Proof.Machine.execDebugReset s
  | .resetEnd straps gates qe gpio marginal flips => Sys2Proof.Machine.execResetEnd straps gates qe gpio marginal flips s
  | .dramTrained => Sys2Proof.Machine.execDramTrained s
  | .bootGo m value => Sys2Proof.Machine.execBootGo m value s
  | .bootPacket packet => Sys2Proof.Machine.execBootPacket packet s
  | .bootAnnounce => Sys2Proof.Machine.execBootAnnounce s
  | .spiWrite offset data => Sys2Proof.Machine.execSpiWrite offset data s
  | .spiStatus => Sys2Proof.Machine.execSpiStatus s
  | .spiGo frame => Sys2Proof.Machine.execSpiGo frame s
  | .reloadGo value => Sys2Proof.Machine.execReloadGo value s
  | .reloadDone => Sys2Proof.Machine.execReloadDone s
  | .supplyWarning rail level => Sys2Proof.Machine.execSupplyWarning rail level s
  | .railRecoveryCross rail up level => Sys2Proof.Machine.execRailRecoveryCross rail up level s
  | .supplyRecovered rail => Sys2Proof.Machine.execSupplyRecovered rail s
  | .supplyReset rail level => Sys2Proof.Machine.execSupplyReset rail level s
  | .fuseProg value mv => Sys2Proof.Machine.execFuseProg value mv s
  | .fuseCommit value mv => Sys2Proof.Machine.execFuseCommit value mv s
  | .fuseSeal value mv => Sys2Proof.Machine.execFuseSeal value mv s
  | .fuseLock value mv => Sys2Proof.Machine.execFuseLock value mv s
  | .fuseCtrl value mv => Sys2Proof.Machine.execFuseCtrl value mv s
  | .fuseSupersede value mv => Sys2Proof.Machine.execFuseSupersede value mv s
  | .fuseLcadv value mv => Sys2Proof.Machine.execFuseLcadv value mv s
  | .fuseResume value mv => Sys2Proof.Machine.execFuseResume value mv s
  | .fuseAbort value cells => Sys2Proof.Machine.execFuseAbort value cells s
  | .fuseReread value => Sys2Proof.Machine.execFuseReread value s
  | .fuseOpComplete failed differ marginal => Sys2Proof.Machine.execFuseOpComplete failed differ marginal s
  | .fuseSupplyExit cells mv => Sys2Proof.Machine.execFuseSupplyExit cells mv s
  | .secChal m => Sys2Proof.Machine.execSecChal m s
  | .secResp m => Sys2Proof.Machine.execSecResp m s
  | .secPwd m => Sys2Proof.Machine.execSecPwd m s
  | .secAttest m => Sys2Proof.Machine.execSecAttest m s
  | .secRma m mv => Sys2Proof.Machine.execSecRma m mv s
  | .secClose m => Sys2Proof.Machine.execSecClose m s
  | .secFailReport => Sys2Proof.Machine.execSecFailReport s
  | .eventAccept src => Sys2Proof.Machine.execEventAccept src s
  | .eventRingEnable r value => Sys2Proof.Machine.execEventRingEnable r value s
  | .eventRingRdWrite r value => Sys2Proof.Machine.execEventRingRdWrite r value s
  | .watchdogStart period => Sys2Proof.Machine.execWatchdogStart period s
  | .watchdogKick m key => Sys2Proof.Machine.execWatchdogKick m key s
  | .watchdogStage1 => Sys2Proof.Machine.execWatchdogStage1 s
  | .watchdogReset => Sys2Proof.Machine.execWatchdogReset s
  | .faultnAssert release => Sys2Proof.Machine.execFaultnAssert release s
  | .faultnRelease => Sys2Proof.Machine.execFaultnRelease s
  | .heartbeat m q => Sys2Proof.Machine.execHeartbeat m q s
  | .heartbeatTimeout q => Sys2Proof.Machine.execHeartbeatTimeout q s
  | .tileOutOfService k value => Sys2Proof.Machine.execTileOutOfService k value s
  | .leDuplicateMismatch lane builder => Sys2Proof.Machine.execLeDuplicateMismatch lane builder s
  | .selftestRun run => Sys2Proof.Machine.execSelftestRun run s
  | .selftestComplete mon passed => Sys2Proof.Machine.execSelftestComplete mon passed s
  | .adcCalStart => Sys2Proof.Machine.execAdcCalStart s
  | .adcCalDone lo0 hi0 lo1 hi1 => Sys2Proof.Machine.execAdcCalDone lo0 hi0 lo1 hi1 s
  | .adcCalApply value => Sys2Proof.Machine.execAdcCalApply value s
  | .calStaleTimeout adc => Sys2Proof.Machine.execCalStaleTimeout adc s
  | .tempSample t0 t1 t2 t3 => Sys2Proof.Machine.execTempSample t0 t1 t2 t3 s
  | .trimCommit value => Sys2Proof.Machine.execTrimCommit value s
  | .trimCommitDone => Sys2Proof.Machine.execTrimCommitDone s
  | .illegalInstruction q word => Sys2Proof.Machine.execIllegalInstruction q word s
  | .instructionAccessFault q uncorrectable => Sys2Proof.Machine.execInstructionAccessFault q uncorrectable s
  | .debugPortAccess write addr data => Sys2Proof.Machine.execDebugPortAccess write addr data s
  | .pcieLinkUp speed width => Sys2Proof.Machine.execPcieLinkUp speed width s
  | .dieBInitDone => Sys2Proof.Machine.execDieBInitDone s
  | .comparatorChange cmp input => Sys2Proof.Machine.execComparatorChange cmp input s

end Sys2Proof.Machine
end

