-- ==== Sys2Proof/Safety.lean ====
section
/-! DEFINITION. What counts as a safe state, in the terms claims use: memory and every table of units in its one
canonical form, so that equal machines are equal data; and the words the statements are written in. -/

namespace Sys2Proof.Machine

/-- The canonical form of memory: addresses strictly rising, and no entry equal to what its address reads as unlisted. -/
def State.memWf (s : State) : Bool := tabWf s.mem && s.mem.all (fun e => s.background e.1 != some e.2)

/-- The canonical form of the whole state: memory, and every table's keys strictly rising. -/
def State.wf (s : State) : Bool :=
  s.memWf && tabWf s.memZero && tabWf s.cells && tabWf s.ceCount && tabWf s.ceOpen && tabWf s.sparesUsed &&
  tabWf s.failedTargets && tabWf s.regs && tabWf s.held && tabWf s.seqs && tabWf s.splitPairs && tabWf s.sigWinner &&
  tabWf s.monPassed && tabWf s.msixSent && tabWf s.axes && tabWf s.serials && tabWf s.encOuts && tabWf s.lbUnits &&
  tabWf s.lbForce && tabWf s.lanes && tabWf s.motors && tabWf s.steppers && tabWf s.tiles && tabWf s.classes &&
  tabWf s.gates && tabWf s.chans && tabWf s.capPulses && tabWf s.streams && tabWf s.fuse && tabWf s.shadow &&
  tabWf s.wordFlags && tabWf s.beats

/-- The event logic's capacities: no source's buffer holds more than 4 records (R427), the holding queue no more than 64
(R430). -/
def State.evFits (s : State) : Bool := s.ev.buf.all (fun e => decide (e.2.length ≤ 4)) && decide (s.ev.holding.length ≤ 64)

/-- No cell of the fuse array that reads 1 in `s` reads 0 in `t` (R407, R412). -/
def fuseGrows (s t : State) : Prop := ∀ i k, natBit (tabGet 0 s.fuse i) k = true → natBit (tabGet 0 t.fuse i) k = true

/-- A step that neither faults nor refuses: every command of the table has an effect (notes/assumptions/1). -/
def runs (o : Host.Outcome State Fault Refusal) : Prop := ∃ t, o = .next t

/-! ### The terms of the statements -/

/-- The command answers a next state from `s`, and `p` holds of it. -/
def Completes (c : Instr) (s : State) (p : State → Prop) : Prop := ∃ t, exec c s = .next t ∧ p t

/-- The state after an instruction of sequencer `q` that writes `v` to rd and falls through: the pc moves on by 4, INSTRET
counts one instruction, and nothing else changes (R50, R59). -/
def State.withResult (s : State) (q : Nat) (rd : BitVec 5) (v : W32) : State :=
  s.setSeq q { (s.seq q).setX rd v with pc := (s.seq q).pc + 4, instret := (s.seq q).instret + 1 }

/-- Nothing of memory changes from `s` to `t`: every byte reads as before. -/
def SameMemory (s t : State) : Prop := ∀ a, t.rdByte a = s.rdByte a

/-- The contexts of all sequencers but `q` (and those that share its context) are as before. -/
def OtherSeqsSame (q : Nat) (s t : State) : Prop := ∀ r, s.ctxOf r ≠ s.ctxOf q → t.seq r = s.seq r

/-- No erroneous cell lies in the memory words of a byte range (R321, R325, R326, R334). -/
def State.sound (s : State) (f n : Nat) : Prop := ∀ e ∈ s.cells, ¬(memWordBase f ≤ e.1 ∧ e.1 < f + n)

/-- From `s` to `t` sequencer `q` takes an exception: EPC, CAUSE, TVAL and STATUS as R72 says, the pc at VBASE; the general
registers, the other sequencers, every register and all of memory stay. -/
def TrapTaken (q code : Nat) (tval : W32) (s t : State) : Prop :=
  (t.seq q).epc = (s.seq q).pc ∧ (t.seq q).cause = BitVec.ofNat 32 code ∧ (t.seq q).tval = tval ∧
  (t.seq q).pie = (s.seq q).ie ∧ (t.seq q).ie = false ∧ (t.seq q).inh = true ∧ (t.seq q).pc = (s.seq q).vbase ∧
  (∀ r, (t.seq q).x r = (s.seq q).x r) ∧ (t.seq q).run = .running ∧
  OtherSeqsSame q s t ∧ t.regs = s.regs ∧ SameMemory s t

/-- A hardware source that is not fused off has room in its buffer for one more record (R3, R427). -/
def State.room (s : State) (src : Nat) : Bool := !s.sourceFused src && decide ((tabGet [] s.ev.buf src).length < 4)

/-- An event of a source and kind, with a detail, waits in the source's buffer. -/
def HoldsEvent (src kind detail : Nat) (t : State) : Prop :=
  ∃ r ∈ tabGet [] t.ev.buf src, r.src = src ∧ r.kind = kind ∧ r.detail = BitVec.ofNat 32 detail

/-- Sequencer `q` goes on at a pc after a branch or jump: the pc and INSTRET change, nothing else. -/
def State.continuesAt (s : State) (q : Nat) (pc : W32) : State :=
  s.setSeq q { s.seq q with pc := pc, instret := (s.seq q).instret + 1 }

/-- Sequencer `q` retires an instruction that writes `v` to rd and may invalidate the table buffer: its pc, INSTRET, rd and
the buffer change, the rest of its context stays (R50, R59, R165). -/
def Retires (q : Nat) (rd : BitVec 5) (v : W32) (s t : State) : Prop :=
  t.seq q = { (s.seq q).setX rd v with pc := (s.seq q).pc + 4, instret := (s.seq q).instret + 1, tbuf := (t.seq q).tbuf }

/-- What every PYR-V instruction of a cluster's sequencer `q` that completes keeps: it retires, the general registers stay, the
other sequencers, memory, and every register but the cluster's RC_VCYC (R178). -/
def VectorFrame (q : Nat) (s t : State) : Prop :=
  (t.seq q).pc = (s.seq q).pc + 4 ∧ (t.seq q).instret = (s.seq q).instret + 1 ∧ OtherSeqsSame q s t ∧ SameMemory s t ∧
  ∀ a, a ≠ R.RC_VCYC (q - 8) → t.rd a = s.rd a

/-- Lane `k` of `vd` receives `f k` where the mask selects it; nothing else of the vector, mask and general registers
changes (R66). -/
def LanesGet (q : Nat) (m : BitVec 3) (vd : BitVec 5) (f : Nat → W32) (s t : State) : Prop :=
  (∀ k, k < 64 → (t.seq q).lane vd k = if ((s.seq q).mask m).getLsbD k then f k else (s.seq q).lane vd k) ∧
  (∀ r k, r ≠ vd → k < 64 → (t.seq q).lane r k = (s.seq q).lane r k) ∧ (∀ r, (t.seq q).mask r = (s.seq q).mask r) ∧
  ∀ r, (t.seq q).x r = (s.seq q).x r

/-- Mask register `md` receives the bits `f`; the other masks, the lanes and the general registers stay (R66). -/
def MaskGets (q : Nat) (md : BitVec 3) (f : Nat → Bool) (s t : State) : Prop :=
  (∀ k, k < 64 → ((t.seq q).mask md).getLsbD k = f k) ∧ (∀ r, r ≠ md → (t.seq q).mask r = (s.seq q).mask r) ∧
  (∀ r k, k < 64 → (t.seq q).lane r k = (s.seq q).lane r k) ∧ ∀ r, (t.seq q).x r = (s.seq q).x r

/-- The 32-bit word at an address, little-endian (R8). -/
def State.wordAt (s : State) (a : Nat) : W32 := s.rdByte (a + 3) ++ s.rdByte (a + 2) ++ s.rdByte (a + 1) ++ s.rdByte a

/-- An aligned SRAM word that sequencer `q` may access as `n` says, with no erroneous cell (R68, R163, R321, R330). -/
def State.usable (s : State) (q : Nat) (n : Needs) (a : Nat) : Prop :=
  a % 4 = 0 ∧ isSram a = true ∧ s.memCheck q a 4 n = none ∧ s.sound a 4

/-- What a PYR-V store of a cluster's sequencer `q` keeps: it retires, its registers, vectors and masks stay, and every
register but the cluster's RC_VCYC and RC_TBUF (R165, R178). -/
def VectorStoreFrame (q : Nat) (s t : State) : Prop :=
  (t.seq q).pc = (s.seq q).pc + 4 ∧ (t.seq q).instret = (s.seq q).instret + 1 ∧ (∀ r, (t.seq q).x r = (s.seq q).x r) ∧
  (∀ r k, (t.seq q).lane r k = (s.seq q).lane r k) ∧ (∀ r, (t.seq q).mask r = (s.seq q).mask r) ∧ OtherSeqsSame q s t ∧
  ∀ a, a ≠ R.RC_VCYC (q - 8) → (∀ k, k < 16 → a ≠ R.RC_TBUF k) → t.rd a = s.rd a

/-- A waiting instruction of sequencer `q` has completed: it runs on behind it, rd holds the code and every other general
register its value; memory stays (R76, R80, R142). -/
def WaitDone (q : Nat) (rd : BitVec 5) (code : W32) (s t : State) : Prop :=
  (t.seq q).run = .running ∧ (t.seq q).wait = .none ∧ (t.seq q).pc = (s.seq q).pc + 4 ∧
  (t.seq q).instret = (s.seq q).instret + 1 ∧ (∀ r, (t.seq q).x r = if r = rd ∧ rd ≠ 0 then code else (s.seq q).x r) ∧ SameMemory s t

/-- From `s` to `t` the bytes `bs` are stored from fabric address `f` on; every other byte, every other context and every
register but a cluster's RC_TBUF (R165) are as before. -/
def Stored (q f : Nat) (bs : List W8) (s t : State) : Prop :=
  (∀ a, t.rdByte a = if f ≤ a ∧ a < f + bs.length then bs.getD (a - f) 0 else s.rdByte a) ∧ OtherSeqsSame q s t ∧
  ∀ a, (∀ k, k < 16 → a ≠ R.RC_TBUF k) → t.rd a = s.rd a

/-- What a screening instruction that reads the map or loads the table keeps: as `VectorFrame`, but for the cluster's
RC_NMWAIT and RC_TBUF too (R165, R167). -/
def ScreenFrame (q : Nat) (s t : State) : Prop :=
  (t.seq q).pc = (s.seq q).pc + 4 ∧ (t.seq q).instret = (s.seq q).instret + 1 ∧ OtherSeqsSame q s t ∧ SameMemory s t ∧
  ∀ a, a ≠ R.RC_VCYC (q - 8) → a ≠ R.RC_NMWAIT (q - 8) → a ≠ R.RC_TBUF (q - 8) → t.rd a = s.rd a

/-- Bit `b` of a stream that starts at an address (R159). -/
def State.streamBit (s : State) (a b : Nat) : Bool := (s.rdByte (a + b / 8)).getLsbD (b % 8)

/-- The registers whose write does more, or other, than its field rules say: their chapters give the effect. -/
def effectRegs : List RegId :=
  [.GUST_CH_CTL, .GUST_CH_CFG, .GUST_CH_STAT, .GUST_CH_RES, .GUST_CH_LRES, .GUST_CH_CRC, .GUST_CH_SEQ, .GUST_CH_BYTES,
    .GUST_CH_PROGL, .GUST_CH_PROGH, .GUST_CH_FADDRL, .GUST_CH_FADDRH, .GUST_RING_SIZE, .ETH_CFG, .ETH_RXRING,
    .ETH_TXRING, .GSP_CFG, .GSP_BASEL, .GSP_BASEH, .GSP_STRIDE, .GSP_GEOM, .GSP_LEN, .GSP_EXP, .PCIE_DBELL,
    .PCIE_MSIX, .PTP_INCH, .PTP_SETSECH, .PTP_ADJ, .MOT_CFG, .MOT_PWM, .MOT_CMD, .MOT_SENSE, .MOT_DUTY0, .MOT_DUTY1,
    .ANA_CMP, .ANA_CMPSTAT, .ST_CFG, .ST_CMD, .ST_QD, .ST_QV, .ST_STALL, .STEP_TABLE, .LANE_CTL, .LANE_SCHED,
    .LANE_OPEN, .LANE_SBCFG, .LANE_SBCMD, .LANE_MGCMD, .LANE_WVCMD, .LANE_TLIM, .LANE_THYS, .HEALTH_ECFG,
    .HEALTH_MWDATA, .HEALTH_TPUSH, .HEALTH_GOV_CFG, .HEALTH_ECTEST, .RC_CTL, .AX_CFG, .AX_ZCTL, .AX_POSSET, .EO_CFG,
    .EO_RATIO, .BAR_CFG, .BAR_BREEZE, .BAR_TCP, .FIRE_EQ, .FIRE_TILE_CFG, .FIRE_TILE_ROW01, .FIRE_TILE_ROW23,
    .SHUT_MODE, .SHUT_GCMD, .SHUT_B_CMD, .SHUT_TCMD, .SNS_GATE, .SNS_GSTAT, .CAL_CTL, .CAL_LANE, .CAL_TCOMMIT,
    .SYS_CLK_CTL, .SYS_SEQ_CTL, .SYS_SEQ_SWI, .SYS_SIG_SET, .SYS_SIG_CLR, .SYS_RSTCTL, .SYS_BOOTCMD, .SYS_RLOAD,
    .SUP_FAULTN, .SUP_WDKICK, .SUP_TOOS, .SUP_STEST, .SUP_HB, .SUP_RING_BASE, .SUP_RING_CFG, .SUP_RING_RD, .FUSE_CMD,
    .MEM_RGN_BASE, .MEM_RGN_LIM, .MEM_RGN_CTL, .MEM_MARCH, .SEC_CMD, .SEC_DATA, .HEALTH_ECLANE, .HEALTH_TCLS, .ST_CUR, .ST_CHOP,
    .GSP_DONE]

/-- Master `m` may access the register at an address as `n` says: an aligned word of the register space that its regions
permit, and the host port not shut by the straps (R27, R29, R330, R390). -/
def State.mayReg (s : State) (m : Master) (a : Nat) (n : Needs) : Prop :=
  a % 4 = 0 ∧ isRegSpace a = true ∧ s.permitted (s.masterNo m) a 4 n = true ∧ (m = .host → s.hostShut = false)

/-- Axis `n` takes a change of `d` counts at time `te` (R103, R105, R110 to R112): the count moves, the axis is MOVING, a movement
beyond the eddy window against the direction turns it, a carry or borrow moves the epoch, and the sill of the direction follows. -/
def Counts (n : Nat) (d : Int) (te : Nat) (s t : State) : Prop :=
  let a := s.axis n
  let b := t.axis n
  let c := a.a.count + BitVec.ofInt 32 d
  let eddy : Int := s.get (F.AX_CFG_eddy n) * 256
  let against := decide (d < 0) != a.a.rev
  let turns := against && decide (eddy < (if a.a.rev then (countPos c - a.sillR).toInt else (a.sillF - countPos c).toInt))
  b.a.count = c ∧ b.st = .moving ∧ b.a.te = te ∧ b.a.rev = (a.a.rev ^^ turns) ∧
  b.epoch = (if 2 ^ 32 ≤ (a.a.count.toNat : Int) + d then a.epoch + 1 else if (a.a.count.toNat : Int) + d < 0 then a.epoch - 1 else a.epoch) ∧
  (against = false ∧ a.a.rev = false → b.sillF = (if 0 < (countPos c - a.sillF).toInt then countPos c else a.sillF) ∧ b.sillR = a.sillR) ∧
  (against = false ∧ a.a.rev = true → b.sillR = (if (countPos c - a.sillR).toInt < 0 then countPos c else a.sillR) ∧ b.sillF = a.sillF) ∧
  (turns = true ∧ a.a.rev = false → b.sillR = countPos c) ∧ (against = true ∧ turns = false → b.sillF = a.sillF ∧ b.sillR = a.sillR) ∧
  ∀ k, k ≠ n → t.axis k = s.axis k

/-- Axis `k` uses quadrature input `qe` on a side (R88). -/
def State.usesQuad (s : State) (k qe : Nat) : Prop :=
  s.flag (F.AX_CFG_en k) = true ∧ ((s.get (F.AX_CFG_src k) = 1 ∨ s.get (F.AX_CFG_src k) = 5) ∧ s.get (F.AX_CFG_sel_a k) = qe ∨
    s.get (F.AX_CFG_src k) = 5 ∧ s.get (F.AX_CFG_sel_b k) = qe)

/-- The STROBE that an ordered set is, all 0 for a CANCEL (R146). -/
def SentSet.asStrobe : SentSet → StrobeSet
  | .strobe x => x
  | .cancel _ _ _ => ⟨0, 0, false, false, 0, 0⟩

/-- The tile mask, tag and earlier repeats of a CANCEL; none of a STROBE (R224). -/
def SentSet.cancelOf : SentSet → Option (Nat × Nat × Nat)
  | .strobe _ => none
  | .cancel m g n => some (m, g, n)

/-- The raw thermistor code of a reading, 0 of a failed one (R232). -/
def readingCode : SbReading → W16
  | .sample c _ _ => c
  | _ => 0

/-- From `s` to `t` a reset source takes effect (R29, R388, R389, R406): every sequencer is in RESET, memory holds nothing defined, every
register of the SYS and CLU domains has its reset value, and only a power-on reset clears the POR domain; the cause is captured,
the fuse array and the waiting commands stay. -/
def ResetTaken (por : Bool) (source : Nat) (s t : State) : Prop :=
  t.resetting = true ∧ natBit t.capture source = true ∧ t.pending = s.pending ∧ (∀ q, q < 48 → (t.seq q).run = .reset) ∧
  t.mem = [] ∧ t.memGen = s.memGen + 1 ∧ (s.fuseJob = none → t.fuse = s.fuse) ∧
  (por = false → t.get F.SEC_LC_fails = s.get F.SEC_LC_fails ∧ t.get F.SEC_LC_lockout = s.get F.SEC_LC_lockout) ∧
  ∀ a, a ≠ R.SEC_LC → a ≠ R.SYS_SUPSTAT →
    t.rd a = if por = false ∧ (cardAt a).any (fun c => c.1.dom == .por) = true then s.rd a else resetValue a

/-- The header of the image in the staging area, and the table of its sections (R85, R392). -/
def State.imageHeader (s : State) : List W8 := s.rdBytes 0x0100000000 256
def State.imageTable (s : State) : List W8 := s.rdBytes 0x0100000100 (64 * fieldLE s.imageHeader 0xC 2)

/-- An image of `len` bytes in the staging area passes every check of R393 and R394, and loading its sections from `s` on leaves `t`,
with no reset on the way. -/
def State.imageLoads (s : State) (len : Nat) (t : State) : Prop :=
  let h := s.imageHeader
  let xs := sectionsOf (fieldLE h 0xC 2) s.imageTable
  headerOk h len = true ∧ s.partOk h = true ∧ s.keyCheck ((h.drop 0x40).take 64) ≠ .none ∧
    signatureOk h (sha256 (h.take 0x80 ++ h.drop 0xC0 ++ s.imageTable)) = true ∧ s.sectionsOk (fieldLE h 0xC 2) len xs = true ∧
    loadSections xs (s.set F.SYS_BOOTSTAT_phase 2) = (true, t) ∧ t.resetting = false ∧ s.resetting = false ∧ s.cells = []

/-- From `s` to `t` the boot ROM has released the image whose sections left `u` (R398, R399). -/
def Released (s u t : State) : Prop :=
  t.get F.SYS_BOOTSTAT_phase = 3 ∧ t.get F.SYS_BOOTSTAT_err = 0 ∧ (t.seq 0).run = .running ∧
  (t.seq 0).pc = u.rd (R.SYS_SEQ_ENTRY 0) &&& 0xFFFFFFFC ∧
  (let hash := sha256 (s.imageHeader.take 0x80 ++ s.imageHeader.drop 0xC0 ++ s.imageTable)
    ∀ k, k < 8 → t.rd (R.SYS_BOOTHASH k) = BitVec.ofNat 32 (leNat ((hash.drop (4 * k)).take 4)))

/-- From `s` to `t` the image is rejected with a code, and the boot ROM waits on the same port (R394). -/
def Rejected (code : Nat) (s t : State) : Prop :=
  t.get F.SYS_BOOTSTAT_err = code ∧ t.get F.SYS_BOOTSTAT_phase = 1 ∧ t.seqs = s.seqs ∧ SameMemory s t

/-- Gust channel `c` is in RUN at the instruction `g` of an opcode: it is in it already, or fetches its 32 bytes without a refusal and
finds no error in it (R345, R347, R350). -/
def State.atInstr (s : State) (c op : Nat) (g : List W32) : Prop :=
  s.get (F.GUST_CH_STAT_state c) = 1 ∧ GInstr.op g = op ∧
  ((s.chan c).cur = g ∧ g ≠ [] ∨ (s.chan c).cur = [] ∧ s.fetchAddr c % 32 = 0 ∧ s.sound (s.fetchAddr c) 32 ∧
    s.memCheck (chMaster c) (s.fetchAddr c) 32 .read = none ∧ g = (List.range 8).map (fun k => s.wordAt (s.fetchAddr c + 4 * k)) ∧
    GInstr.bad g (s.get (F.GUST_CH_CFG_class c)) (isEventChannel c) (s.chan c) = false)

/-- Every burst that channel `c` can issue in a range passes its checks, and no erroneous cell lies there (R342, R350). -/
def State.burstsPass (s : State) (c a len : Nat) (n : Needs) : Prop :=
  s.sound a len ∧ ∀ i < len, ∀ k < 257, 0 < k → i + k ≤ len → s.memCheck (chMaster c) (a + i) k n = none

end Sys2Proof.Machine
end

