-- ==== Sys2Proof/Certificates/Slice0/Obligations.lean ====
section
/-! DEFINITION. The statements about the block, for the provers. -/

open Sys2Proof Sys2Proof.Machine

/-- A step at a state whose queue begins with a command is that command on the state with the rest of the queue. -/
def Obligations.StepRunsFrontCommand : Prop :=
  ∀ (c : Instr) (rest : List Instr) (s : State), s.pending = c :: rest → step s = exec c { s with pending := rest }

/-- R31: while a pair runs in lockstep the checker's aperture registers read 0 and ignore writes, and the pair's accesses go through
the primary's: an enabled one whose base maps to DRAM takes core address 0x8000_0000 + n × 2^28 + k to base × 2^28 + k (R30). -/
def Obligations.CheckerApertures : Prop :=
  ∀ (s : State) (p : Fin 4) (n : Fin 4) (m : Master) (v : W32), s.lockstep (2 * p) = true →
    let a := R.SYS_AP_BASE (2 * p + 1) n
    (s.mayReg m a Needs.write → exec (.registerWrite m (BitVec.ofNat 32 a) v) s = .next { s with answer := .done }) ∧
    (s.mayReg m a Needs.read → exec (.readClear m (BitVec.ofNat 32 a)) s = .next { s with answer := .data [0, 0, 0, 0] }) ∧
    s.executes (2 * p + 1) = false ∧
    (∀ k : BitVec 28, let b := s.get (F.SYS_AP_BASE_base (2 * p) n)
      s.flag (F.SYS_AP_BASE_en (2 * p) n) = true → 0x10 ≤ b → b ≤ 0x2F →
        s.place (2 * p) (0x80000000 + n * 2 ^ 28 + k.toNat) = .mem (b * 2 ^ 28 + k.toNat))

/-- The model's choice (log entry 1): on an empty queue one D4 FIRE cycle passes. FT and the CYCLE of every link engine rise by one (R59,
R87); where no axis holds a position nothing else but the other sequencers' CYCLE and the PTP timebase moves; while reset is
asserted nothing does. -/
def Obligations.EmptyQueueTick : Prop :=
  ∀ s : State, s.pending = [] →
    (s.resetting = true → step s = .next s) ∧
    (s.resetting = false → ∃ t, step s = .next t ∧ t.uptime = s.uptime + 1 ∧ t.pending = [] ∧
      (∀ q, 24 ≤ q → q < 48 → s.seqFused q = false → (t.seq q).cycle = (s.seq q).cycle + 1) ∧
      ((∀ n, n < 8 → (s.axis n).valid = false) → t.axes = s.axes ∧ t.lanes = s.lanes ∧ t.signals = s.signals ∧ t.ev = s.ev ∧ SameMemory s t ∧
        (∀ q, (t.seq q).run = (s.seq q).run ∧ (t.seq q).pc = (s.seq q).pc ∧ ∀ r, (t.seq q).x r = (s.seq q).x r) ∧
        ∀ a, a ≠ R.PTP_NS → a ≠ R.PTP_SECL → a ≠ R.PTP_SECH → t.rd a = s.rd a))

/-- R29, R43, R49, R80, R137, R389, R407: what State.reset is: every register at its reset value, no sequencer running, the pairs in
lockstep, no signal set, empty queues of entries and commands, a blank fuse array. Where the spec states no reset value the model's
choice stands (log entries 3, 6). -/
def Obligations.ResetValues : Prop :=
  (∀ a, State.reset.rd a = resetValue a) ∧ State.reset.pending = [] ∧ State.reset.resetting = true ∧
  (∀ q, q < 48 → (State.reset.seq q).run = .halted ∧ (State.reset.seq q).vbase = 0x70000000 ∧ State.reset.executes q = false) ∧
  (∀ p, p < 8 → State.reset.lockstep p = true) ∧ (∀ k, k < 256 → State.reset.signal k = false) ∧ State.reset.mem = [] ∧ State.reset.cells = [] ∧
  (∀ n, (State.reset.lane n).queue = [] ∧ (State.reset.lane n).txs = [] ∧ (State.reset.lane n).mgmt = []) ∧
  (∀ n, (State.reset.axis n).st = .off) ∧ State.reset.fuse = [] ∧ (∀ b w, State.reset.sh b w = 0) ∧
  State.reset.get F.SHUT_GSTAT_closed = 1 ∧ State.reset.get F.SYS_BOOTSTAT_phase = 0 ∧ (∀ n < 24, State.reset.get (F.LANE_STATE_state n) = 0)

/-- Every step keeps the canonical form: memory rising by address with no entry equal to what its address reads unlisted, and every
table of units rising by key. -/
def Obligations.StepKeepsForm : Prop := ∀ s t : State, s.wf = true → step s = .next t → t.wf = true

/-- The state after reset has the canonical form, and the event logic within its capacities. -/
def Obligations.ResetMeetsForm : Prop := State.reset.wf = true ∧ State.reset.evFits = true

/-- R427, R430: every command, from every state, ends in a next state; it leaves the queue of waiting commands alone, and takes no source's
event buffer past 4 records and the holding queue not past 64. A step takes one command from the front of the queue and adds none. -/
def Obligations.StepKeepsCapacities : Prop :=
  (∀ (c : Instr) (s : State), ∃ t, exec c s = .next t ∧ t.pending = s.pending ∧ (s.evFits = true → t.evFits = true)) ∧
  ∀ s : State, ∃ t, step s = .next t ∧ t.pending = s.pending.tail ∧ (s.evFits = true → t.evFits = true)

/-- R407, R412 to R417: fuse cells are programmed and never cleared: no command, no reset and no clock cycle makes a cell that reads 1
read 0; and the generation of undefined memory contents and the count of draws only rise. -/
def Obligations.FuseCellsNeverClear : Prop :=
  ∀ s t : State, step s = .next t → fuseGrows s t ∧ s.memGen ≤ t.memGen ∧ s.freeCount ≤ t.freeCount

/-- R53, R50: the register ALU instructions without multiplication. An equation fixes the whole next state: the pc moves
past the instruction, rd receives the result (g0 discards it), and nothing else changes. -/
def Obligations.RegisterAluResults : Prop :=
  ∀ (q : Fin 48) (rd rs1 rs2 : BitVec 5) (s : State), s.executes q = true →
    let a := (s.seq q).x rs1
    let b := (s.seq q).x rs2
    exec (.add q rd rs1 rs2) s = .next (s.withResult q rd (a + b)) ∧
    exec (.sub q rd rs1 rs2) s = .next (s.withResult q rd (a - b)) ∧
    exec (.and q rd rs1 rs2) s = .next (s.withResult q rd (a &&& b)) ∧
    exec (.or q rd rs1 rs2) s = .next (s.withResult q rd (a ||| b)) ∧
    exec (.xor q rd rs1 rs2) s = .next (s.withResult q rd (a ^^^ b)) ∧
    exec (.sll q rd rs1 rs2) s = .next (s.withResult q rd (a <<< (b.toNat % 32))) ∧
    exec (.srl q rd rs1 rs2) s = .next (s.withResult q rd (a >>> (b.toNat % 32))) ∧
    exec (.sra q rd rs1 rs2) s = .next (s.withResult q rd (a.sshiftRight (b.toNat % 32))) ∧
    exec (.slt q rd rs1 rs2) s = .next (s.withResult q rd (if a.toInt < b.toInt then 1 else 0)) ∧
    exec (.sltu q rd rs1 rs2) s = .next (s.withResult q rd (if a.toNat < b.toNat then 1 else 0))

/-- R53: products, quotients, remainders, minima and maxima, as numbers; each divide corner has its own clause. -/
def Obligations.MultiplyDivideResults : Prop :=
  ∀ (q : Fin 48) (rd rs1 rs2 : BitVec 5) (s : State), s.executes q = true →
    let a := (s.seq q).x rs1
    let b := (s.seq q).x rs2
    (∃ v, exec (.mul q rd rs1 rs2) s = .next (s.withResult q rd v) ∧ v.toNat = a.toNat * b.toNat % 2 ^ 32) ∧
    (∃ v, exec (.mulh q rd rs1 rs2) s = .next (s.withResult q rd v) ∧ v.toInt = a.toInt * b.toInt / 2 ^ 32) ∧
    (∃ v, exec (.mulhu q rd rs1 rs2) s = .next (s.withResult q rd v) ∧ v.toNat = a.toNat * b.toNat / 2 ^ 32) ∧
    (∃ v, exec (.div q rd rs1 rs2) s = .next (s.withResult q rd v) ∧ (b = 0 → v = 0xFFFFFFFF) ∧
      (b ≠ 0 → a = 0x80000000 ∧ b = 0xFFFFFFFF → v = 0x80000000) ∧
      (b ≠ 0 → ¬(a = 0x80000000 ∧ b = 0xFFFFFFFF) → v.toInt = a.toInt.tdiv b.toInt)) ∧
    (∃ v, exec (.divu q rd rs1 rs2) s = .next (s.withResult q rd v) ∧ (b = 0 → v = 0xFFFFFFFF) ∧
      (b ≠ 0 → v.toNat = a.toNat / b.toNat)) ∧
    (∃ v, exec (.rem q rd rs1 rs2) s = .next (s.withResult q rd v) ∧ (b = 0 → v = a) ∧
      (b ≠ 0 → v.toInt = a.toInt.tmod b.toInt)) ∧
    (∃ v, exec (.remu q rd rs1 rs2) s = .next (s.withResult q rd v) ∧ (b = 0 → v = a) ∧
      (b ≠ 0 → v.toNat = a.toNat % b.toNat)) ∧
    (∃ v, exec (.min q rd rs1 rs2) s = .next (s.withResult q rd v) ∧ v.toInt = min a.toInt b.toInt) ∧
    (∃ v, exec (.max q rd rs1 rs2) s = .next (s.withResult q rd v) ∧ v.toInt = max a.toInt b.toInt) ∧
    (∃ v, exec (.minu q rd rs1 rs2) s = .next (s.withResult q rd v) ∧ v.toNat = min a.toNat b.toNat) ∧
    (∃ v, exec (.maxu q rd rs1 rs2) s = .next (s.withResult q rd v) ∧ v.toNat = max a.toNat b.toNat)

/-- R53, R54: immediates, shifts by a constant, CLZ and POPC. -/
def Obligations.ImmediateResults : Prop :=
  ∀ (q : Fin 48) (rd rs1 sh : BitVec 5) (imm : W16) (s : State), s.executes q = true →
    let a := (s.seq q).x rs1
    exec (.addi q rd rs1 imm) s = .next (s.withResult q rd (a + imm.signExtend 32)) ∧
    exec (.andi q rd rs1 imm) s = .next (s.withResult q rd (a &&& imm.zeroExtend 32)) ∧
    exec (.ori q rd rs1 imm) s = .next (s.withResult q rd (a ||| imm.zeroExtend 32)) ∧
    exec (.xori q rd rs1 imm) s = .next (s.withResult q rd (a ^^^ imm.zeroExtend 32)) ∧
    exec (.slti q rd rs1 imm) s = .next (s.withResult q rd (if a.toInt < imm.toInt then 1 else 0)) ∧
    exec (.sltiu q rd rs1 imm) s = .next (s.withResult q rd (if a.toNat < (imm.signExtend 32).toNat then 1 else 0)) ∧
    (∃ v, exec (.lui q rd imm) s = .next (s.withResult q rd v) ∧ v.toNat = imm.toNat * 2 ^ 16) ∧
    exec (.slli q rd rs1 sh) s = .next (s.withResult q rd (a <<< sh.toNat)) ∧
    exec (.srli q rd rs1 sh) s = .next (s.withResult q rd (a >>> sh.toNat)) ∧
    exec (.srai q rd rs1 sh) s = .next (s.withResult q rd (a.sshiftRight sh.toNat)) ∧
    (∃ v, exec (.clz q rd rs1) s = .next (s.withResult q rd v) ∧ v.toNat ≤ 32 ∧
      (∀ k, 32 - v.toNat ≤ k → a.getLsbD k = false) ∧ (v.toNat < 32 → a.getLsbD (31 - v.toNat) = true)) ∧
    (∃ v, exec (.popc q rd rs1) s = .next (s.withResult q rd v) ∧
      v.toNat = ((List.range 32).filter (fun k => a.getLsbD k)).length)

/-- R55, R54: a load from memory. Where the address leads to memory, passes the access check and finds no erroneous cell, rd
receives the little-endian bytes there, LH and LB sign-extended, LHU and LBU zero-extended; nothing else changes. -/
def Obligations.LoadResults : Prop :=
  ∀ (q : Fin 48) (rd rs1 : BitVec 5) (imm : W16) (f : Nat) (s : State), s.executes q = true →
    s.place q ((s.seq q).x rs1 + imm.signExtend 32).toNat = .mem f →
    let a := ((s.seq q).x rs1 + imm.signExtend 32).toNat
    (a % 4 = 0 → s.memCheck q f 4 Needs.read = none → s.sound f 4 →
      exec (.lw q rd rs1 imm none) s = .next (s.withResult q rd
        (s.rdByte (f + 3) ++ s.rdByte (f + 2) ++ s.rdByte (f + 1) ++ s.rdByte f))) ∧
    (a % 2 = 0 → s.memCheck q f 2 Needs.read = none → s.sound f 2 →
      exec (.lh q rd rs1 imm) s = .next (s.withResult q rd ((s.rdByte (f + 1) ++ s.rdByte f).signExtend 32)) ∧
      exec (.lhu q rd rs1 imm) s = .next (s.withResult q rd ((s.rdByte (f + 1) ++ s.rdByte f).zeroExtend 32))) ∧
    (s.memCheck q f 1 Needs.read = none → s.sound f 1 →
      exec (.lb q rd rs1 imm) s = .next (s.withResult q rd ((s.rdByte f).signExtend 32)) ∧
      exec (.lbu q rd rs1 imm) s = .next (s.withResult q rd ((s.rdByte f).zeroExtend 32)))

/-- R55, R321, R330: a store into memory. Where the address leads to memory, passes the access check (a store narrower than the
memory word, 32 bits in SRAM and 64 in DRAM, needs read permission too) and merges with no erroneous word, the low 4, 2 or 1 bytes of the register in the rd field
are stored, and only those. -/
def Obligations.StoreResults : Prop :=
  ∀ (q : Fin 48) (rd rs1 : BitVec 5) (imm : W16) (f : Nat) (s : State), s.executes q = true →
    s.place q ((s.seq q).x rs1 + imm.signExtend 32).toNat = .mem f →
    let a := ((s.seq q).x rs1 + imm.signExtend 32).toNat
    let v := (s.seq q).x rd
    (a % 4 = 0 → s.memCheck q f 4 (if isSram f then Needs.write else Needs.both) = none → s.sound f 4 → Completes (.sw q rd rs1 imm) s fun t =>
      Stored q f [v.extractLsb' 0 8, v.extractLsb' 8 8, v.extractLsb' 16 8, v.extractLsb' 24 8] s t ∧ Retires q 0 0 s t) ∧
    (a % 2 = 0 → s.memCheck q f 2 Needs.both = none → s.sound f 2 → Completes (.sh q rd rs1 imm) s fun t =>
      Stored q f [v.extractLsb' 0 8, v.extractLsb' 8 8] s t ∧ Retires q 0 0 s t) ∧
    (s.memCheck q f 1 Needs.both = none → s.sound f 1 → Completes (.sb q rd rs1 imm) s fun t =>
      Stored q f [v.extractLsb' 0 8] s t ∧ Retires q 0 0 s t)

/-- R56: an atomic on an aligned SRAM word that the initiator may read and write: rd receives the word, and memory the
operand, the sum, the bitwise and, the bitwise or; AMOCAS stores rs2 where the word equals rs3 and otherwise nothing. -/
def Obligations.AtomicResults : Prop :=
  ∀ (q : Fin 48) (rd rs1 rs2 rs3 : BitVec 5) (s : State), s.executes q = true →
    let f := ((s.seq q).x rs1).toNat
    let b := (s.seq q).x rs2
    let old := s.rdByte (f + 3) ++ s.rdByte (f + 2) ++ s.rdByte (f + 1) ++ s.rdByte f
    let bytes := fun (v : W32) => [v.extractLsb' 0 8, v.extractLsb' 8 8, v.extractLsb' 16 8, v.extractLsb' 24 8]
    isSram f = true → f % 4 = 0 → s.memCheck q f 4 Needs.both = none → s.sound f 4 →
    Completes (.amoswap q rd rs1 rs2) s (fun t => Stored q f (bytes b) s t ∧ Retires q rd old s t) ∧
    Completes (.amoadd q rd rs1 rs2) s (fun t => Stored q f (bytes (old + b)) s t ∧ Retires q rd old s t) ∧
    Completes (.amoand q rd rs1 rs2) s (fun t => Stored q f (bytes (old &&& b)) s t ∧ Retires q rd old s t) ∧
    Completes (.amoor q rd rs1 rs2) s (fun t => Stored q f (bytes (old ||| b)) s t ∧ Retires q rd old s t) ∧
    (old = (s.seq q).x rs3 → Completes (.amocas q rd rs1 rs2 rs3) s (fun t => Stored q f (bytes b) s t ∧ Retires q rd old s t)) ∧
    (old ≠ (s.seq q).x rs3 → exec (.amocas q rd rs1 rs2 rs3) s = .next (s.withResult q rd old))

/-- R57: a branch continues at pc + off16 × 4 where its condition holds and behind itself where not; JAL and JALR write
pc + 4 to rd; a JALR target that is not a multiple of 4 takes exception 1 with the target in TVAL and writes no rd. -/
def Obligations.BranchAndJumpResults : Prop :=
  ∀ (q : Fin 48) (rd rs1 rs2 : BitVec 5) (off : W16) (joff : BitVec 21) (s : State), s.executes q = true →
    let a := (s.seq q).x rs1
    let b := (s.seq q).x rs2
    let pc := (s.seq q).pc
    let there := pc + 4 * off.signExtend 32
    let target := a + off.signExtend 32
    exec (.beq q rs1 rs2 off) s = .next (s.continuesAt q (if a = b then there else pc + 4)) ∧
    exec (.bne q rs1 rs2 off) s = .next (s.continuesAt q (if a = b then pc + 4 else there)) ∧
    exec (.blt q rs1 rs2 off) s = .next (s.continuesAt q (if a.toInt < b.toInt then there else pc + 4)) ∧
    exec (.bge q rs1 rs2 off) s = .next (s.continuesAt q (if a.toInt < b.toInt then pc + 4 else there)) ∧
    exec (.bltu q rs1 rs2 off) s = .next (s.continuesAt q (if a.toNat < b.toNat then there else pc + 4)) ∧
    exec (.bgeu q rs1 rs2 off) s = .next (s.continuesAt q (if a.toNat < b.toNat then pc + 4 else there)) ∧
    exec (.jal q rd joff) s = .next (s.setSeq q { (s.seq q).setX rd (pc + 4) with
      pc := pc + 4 * joff.signExtend 32, instret := (s.seq q).instret + 1 }) ∧
    (target.toNat % 4 = 0 → exec (.jalr q rd rs1 off) s = .next (s.setSeq q { (s.seq q).setX rd (pc + 4) with
      pc := target, instret := (s.seq q).instret + 1 })) ∧
    (target.toNat % 4 ≠ 0 → (s.seq q).inh = false → Completes (.jalr q rd rs1 off) s (TrapTaken q 1 target s))

/-- R71, R72, R44, R76, R165: ECALL and, while debug access is closed, EBREAK take exceptions 8 and 3; EBREAK enters DEBUG
while it is open; ERET returns; WFI waits at its own address; FENCE retires, and in a render cluster invalidates the table
buffer; FENCE.I also empties the prefetch buffer. -/
def Obligations.SystemInstructionResults : Prop :=
  ∀ (q : Fin 48) (s : State), s.executes q = true →
    ((s.seq q).inh = false → Completes (.ecall q) s (TrapTaken q 8 0 s)) ∧
    (s.dbgOpen = false → (s.seq q).inh = false → Completes (.ebreak q) s (TrapTaken q 3 0 s)) ∧
    (s.dbgOpen = true → Completes (.ebreak q) s fun t => (t.seq q).run = .debug ∧ (∀ r, (t.seq q).x r = (s.seq q).x r) ∧
      OtherSeqsSame q s t ∧ t.regs = s.regs ∧ SameMemory s t) ∧
    exec (.eret q) s = .next (s.setSeq q { s.seq q with
      pc := (s.seq q).epc, ie := (s.seq q).pie, inh := false, instret := (s.seq q).instret + 1 }) ∧
    exec (.wfi q) s = .next (s.setSeq q { s.seq q with run := .waiting, wait := .wfi }) ∧
    Completes (.fence q) s (fun t => Stored q 0 [] s t ∧ Retires q 0 0 s t ∧ (groupOf q = 2 → (t.seq q).tbuf = [] ∧ t.get (F.RC_TBUF_valid (q - 8)) = 0)) ∧
    Completes (.fenceI q) s (fun t => (t.seq q).prefetch = [] ∧ (t.seq q).pc = (s.seq q).pc + 4 ∧ (∀ r, (t.seq q).x r = (s.seq q).x r) ∧
      SameMemory s t ∧ OtherSeqsSame q s t)

/-- R58, R59: rd receives the old CSR; CSRRW then writes the CSR's writable bits, and a write of a read-only CSR is ignored;
reading CYCLE or INSTRET latches its high half. -/
def Obligations.CsrWriteResults : Prop :=
  ∀ (q : Fin 48) (rd rs1 : BitVec 5) (s : State), s.executes q = true →
    let v := (s.seq q).x rs1
    let c := fun (old : W32) => { (s.seq q).setX rd old with pc := (s.seq q).pc + 4, instret := (s.seq q).instret + 1 }
    let e := fun (n : BitVec 12) (d : Seq) => exec (.csrrw q rd rs1 n) s = .next (s.setSeq q d)
    e 1 { c ((if (s.seq q).ie then 1 else 0) + (if (s.seq q).pie then 2 else 0) + (if (s.seq q).inh then 4 else 0)) with
      ie := v.getLsbD 0, pie := v.getLsbD 1, inh := v.getLsbD 2 } ∧
    e 2 { c (s.seq q).epc with epc := v &&& 0xFFFFFFFC } ∧
    e 3 { c (s.seq q).cause with cause := v &&& 0x8000001F } ∧
    e 4 { c (s.seq q).tval with tval := v } ∧
    e 5 { c (s.seq q).vbase with vbase := v &&& 0xFFFFFF00 } ∧
    e 6 { c (s.seq q).ieMask with ieMask := v } ∧
    e 8 { c (s.seq q).scratch with scratch := v } ∧
    e 0x14 { c (s.seq q).timecmp with timecmp := v } ∧
    e 0x15 { c (s.seq q).timecmpH with timecmpH := v } ∧
    e 0x10 { c ((s.seq q).cycle.extractLsb' 0 32) with cycleH := (s.seq q).cycle.extractLsb' 32 32 } ∧
    e 0x11 (c (s.seq q).cycleH) ∧
    e 0x12 { c ((s.seq q).instret.extractLsb' 0 32) with instretH := (s.seq q).instret.extractLsb' 32 32 } ∧
    e 0x13 (c (s.seq q).instretH) ∧
    e 7 (c (s.seqIp q)) ∧
    (∃ id, e 0 (c id) ∧ id.toNat % 256 = q) ∧
    (∀ k, k < 8 → ∃ d, e (BitVec.ofNat 12 (0x20 + k)) d ∧ tabGet 0 d.sigmask k = v ∧
      (∀ j, j ≠ k → tabGet 0 d.sigmask j = tabGet 0 (s.seq q).sigmask j))

/-- R58: CSRRS and CSRRC act as a CSRRW of a register that holds the old value with the selected bits set or cleared; rd
receives the old value of every listed CSR, and with g0 nothing is written; a number that R59 does not list takes exception 2 with the word. -/
def Obligations.CsrSetClearResults : Prop :=
  ∀ (q : Fin 48) (rd rs1 r : BitVec 5) (n : BitVec 12) (s : State), s.executes q = true →
    let reads := fun (t : State) => (t.seq q).pc = (s.seq q).pc + 4 ∧ (t.seq q).instret = (s.seq q).instret + 1 ∧
      (∀ j, (t.seq q).x j = ((s.seq q).setX rd (s.csr q n.toNat)).x j) ∧ OtherSeqsSame q s t ∧ t.regs = s.regs ∧ SameMemory s t ∧
      (rs1 = 0 → ∀ k ∈ [1, 2, 3, 4, 5, 6, 8, 0x14, 0x15, 0x20, 0x21, 0x22, 0x23, 0x24, 0x25, 0x26, 0x27], t.csr q k = s.csr q k)
    (csrListed n.toNat = true → Completes (.csrrs q rd rs1 n) s reads ∧ Completes (.csrrc q rd rs1 n) s reads) ∧
    (csrListed n.toNat = true → rs1 ≠ 0 → ∃ t u,
      exec (.csrrs q rd rs1 n) s = .next t ∧ exec (.csrrc q rd rs1 n) s = .next u ∧
      ((s.seq q).x r = s.csr q n.toNat ||| (s.seq q).x rs1 → exec (.csrrw q rd r n) s = .next t) ∧
      ((s.seq q).x r = s.csr q n.toNat &&& ~~~(s.seq q).x rs1 → exec (.csrrw q rd r n) s = .next u)) ∧
    exec (.csrrs q rd 0 8) s = .next (s.withResult q rd (s.seq q).scratch) ∧
    exec (.csrrc q rd 0 8) s = .next (s.withResult q rd (s.seq q).scratch) ∧
    (csrListed n.toNat = false → (s.seq q).inh = false →
      Completes (.csrrw q rd rs1 n) s (fun t => (t.seq q).cause = 2 ∧ (t.seq q).epc = (s.seq q).pc) ∧
      Completes (.csrrs q rd rs1 n) s (fun t => (t.seq q).cause = 2 ∧ (t.seq q).epc = (s.seq q).pc) ∧
      Completes (.csrrc q rd rs1 n) s (fun t => (t.seq q).cause = 2 ∧ (t.seq q).epc = (s.seq q).pc))

/-- R71, R72: the exceptions of code 0, 2, 4, 6, 7 and 9 outside a handler: a word that the sequencer does not implement,
a fetch from the register space or an aperture, a fetched word with an uncorrectable error, a misaligned load, store or
atomic, an atomic on the register space. -/
def Obligations.TrapEntries : Prop :=
  ∀ (q : Fin 48) (rd rs1 rs2 : BitVec 5) (imm : W16) (word : W32) (s : State), s.executes q = true → (s.seq q).inh = false →
    let pc := (s.seq q).pc
    let a := (s.seq q).x rs1
    let m := a + imm.signExtend 32
    (legalWord q word = false → Completes (.illegalInstruction q word) s (TrapTaken q 2 word s)) ∧
    (0x40000000 ≤ pc.toNat → pc.toNat < 0x41000000 → Completes (.instructionAccessFault q false) s (TrapTaken q 0 pc s)) ∧
    (0x80000000 ≤ pc.toNat → pc.toNat < 0xC0000000 → Completes (.instructionAccessFault q false) s (fun t => (t.seq q).cause = 0 ∧
      (t.seq q).epc = pc ∧ (t.seq q).tval = pc ∧ (t.seq q).pc = (s.seq q).vbase ∧
      (∀ f, s.aperture q pc.toNat = some f → s.memAbsent f = false → TrapTaken q 0 pc s t))) ∧
    (isSram pc.toNat = true → s.memAbsent pc.toNat = false → s.permitted q pc.toNat 4 Needs.fetch = true →
      Completes (.instructionAccessFault q true) s fun t => (t.seq q).cause = 9 ∧ (t.seq q).epc = pc ∧ (t.seq q).tval = pc ∧
        (t.seq q).pc = (s.seq q).vbase) ∧
    (m.toNat % 4 ≠ 0 → Completes (.lw q rd rs1 imm none) s (TrapTaken q 4 m s) ∧ Completes (.sw q rd rs1 imm) s (TrapTaken q 6 m s)) ∧
    (m.toNat % 2 ≠ 0 → Completes (.lh q rd rs1 imm) s (TrapTaken q 4 m s) ∧ Completes (.lhu q rd rs1 imm) s (TrapTaken q 4 m s) ∧
      Completes (.sh q rd rs1 imm) s (TrapTaken q 6 m s)) ∧
    (a.toNat % 4 ≠ 0 → Completes (.amoadd q rd rs1 rs2) s (TrapTaken q 6 a s) ∧ Completes (.amocas q rd rs1 rs2 rs2) s (TrapTaken q 6 a s)) ∧
    (a.toNat % 4 = 0 → 0x40000000 ≤ a.toNat → a.toNat < 0x41000000 →
      Completes (.amoswap q rd rs1 rs2) s (TrapTaken q 7 a s) ∧ Completes (.amoor q rd rs1 rs2) s (TrapTaken q 7 a s))

/-- R73: an exception inside a handler is a double fault: the sequencer enters FAULTED, its pc and registers stay, and SEQ_FAULT (0x4E0)
is posted from source 63 with the sequencer's LOC64 at level 5; a control pair sets its supervisor condition (R435). A write of
STATUS with inh = 0 leaves inh clear, and the next exception is an ordinary one. -/
def Obligations.DoubleFaultEntry : Prop :=
  ∀ (q : Fin 48) (rd rs1 : BitVec 5) (imm : W16) (word : W32) (s : State), s.executes q = true →
    let m := (s.seq q).x rs1 + imm.signExtend 32
    let faults := fun (t : State) => (t.seq q).run = .faulted ∧ (t.seq q).pc = (s.seq q).pc ∧ (∀ r, (t.seq q).x r = (s.seq q).x r) ∧
      (∃ e ∈ tabGet [] t.ev.buf 63, e.src = 63 ∧ e.kind = 0x4E0 ∧ e.loc = seqLoc q ∧ e.detail = BitVec.ofNat 32 (0x100 + q)) ∧
      SameMemory s t ∧ (q < 4 → natBit (t.get F.SUP_GCOND_cond) (q / 2) = true)
    ((s.seq q).inh = true → s.room 63 = true → Completes (.ecall q) s faults ∧
      (legalWord q word = false → Completes (.illegalInstruction q word) s faults) ∧
      (m.toNat % 4 ≠ 0 → Completes (.lw q rd rs1 imm none) s faults ∧ Completes (.sw q rd rs1 imm) s faults)) ∧
    (((s.seq q).x rs1).getLsbD 2 = false → Completes (.csrrw q 0 rs1 1) s (fun t => (t.seq q).inh = false ∧ (t.seq q).epc = (s.seq q).epc ∧
      (t.seq q).cause = (s.seq q).cause ∧ (t.seq q).tval = (s.seq q).tval)) ∧
    ((s.seq q).inh = false → Completes (.ecall q) s (TrapTaken q 8 0 s))

/-- R72, R75, R76: the lowest line that is pending and enabled is taken while STATUS.ie = 1, from RUNNING or WAITING, and WFI
ends on one, with ie = 0 without a trap. -/
def Obligations.InterruptEntry : Prop :=
  ∀ (q : Fin 48) (l : Nat) (s : State), s.isShadow q = false → s.seqFused q = false → l < 32 →
    (s.seqIp q &&& (s.seq q).ieMask).getLsbD l = true → (∀ k, k < l → (s.seqIp q &&& (s.seq q).ieMask).getLsbD k = false) →
    let taken := { s.seq q with
      run := .running, wait := .none, epc := (s.seq q).pc, cause := BitVec.ofNat 32 (0x80000000 + l), tval := 0, pie := true,
      ie := false, inh := true, pc := (s.seq q).vbase + 0x100 + BitVec.ofNat 32 (4 * l), lastCause := l, lastIrq := true,
      latched := (s.seq q).latched &&& ~~~(BitVec.ofNat 32 (2 ^ l)) }
    ((s.seq q).ie = true → (s.seq q).run = .running ∨ (s.seq q).run = .waiting →
      exec (.interruptTake q) s = .next (s.setSeq q taken)) ∧
    ((s.seq q).run = .waiting → (s.seq q).wait = .wfi →
      ((s.seq q).ie = true → exec (.wfiWake q) s = .next (s.setSeq q taken)) ∧
      ((s.seq q).ie = false → exec (.wfiWake q) s = .next (s.setSeq q { s.seq q with
        run := .running, wait := .none, pc := (s.seq q).pc + 4, instret := (s.seq q).instret + 1 })))

/-- R59: when CYCLE has reached TIMECMP, line 0 is pending; CYCLE never goes back. -/
def Obligations.TimerLine : Prop :=
  ∀ (q : Fin 48) (s : State), s.isShadow q = false → s.seqFused q = false →
    Completes (.timecmpMatch q) s fun t => (t.seqIp q).getLsbD 0 = true ∧ (s.seq q).cycle.toNat ≤ (t.seq q).cycle.toNat ∧
      (t.seq q).timecmp = (s.seq q).timecmp ∧ (∀ r, (t.seq q).x r = (s.seq q).x r) ∧ OtherSeqsSame q s t ∧ SameMemory s t

/-- R80, R81: SIGSET and SIGCLR write one signal, and a SIGWAITN that waits when it is set completes; the register forms write 32; SIGTST reads it; SIGTSTC reads and clears it
when no other consumer waits; a wait for a clear signal leaves the sequencer WAITING at its own address. -/
def Obligations.SignalResults : Prop :=
  ∀ (q : Fin 48) (rd rs1 rs2 : BitVec 5) (k : Fin 8) (v : W32) (s : State), s.executes q = true →
    let n := ((s.seq q).x rs1).toNat % 256
    let alone := ∀ m, s.seqWaits n true m = false ∧ s.seqWaits n false m = false ∧ s.chWaits n true m = false ∧ s.chWaits n false m = false
    Completes (.sigset q rs1) s (fun t => (∀ i, i < 256 → t.signal i = (s.signal i || i == n)) ∧ Retires q 0 0 s t ∧ SameMemory s t ∧
      (s.signal n = true ∨ (∀ m, s.seqWaits n false m = false ∧ s.chWaits n false m = false) → t.regs = s.regs ∧ OtherSeqsSame q s t) ∧
      ∀ (r : Fin 48) (w : BitVec 5) (timed : Bool), s.signal n = false → s.isShadow r = false → (s.seq r).run = .waiting →
        (s.seq r).wait = .signal n false w.toNat timed → WaitDone r w 0 s t) ∧
    Completes (.sigclr q rs1) s (fun t => (∀ i, i < 256 → t.signal i = (s.signal i && i != n)) ∧ Retires q 0 0 s t ∧ t.regs = s.regs ∧
      OtherSeqsSame q s t ∧ SameMemory s t) ∧
    Completes (.sigtst q rd rs1) s (fun t => Retires q rd (if s.signal n then 1 else 0) s t ∧ t.signals = s.signals ∧
      OtherSeqsSame q s t ∧ SameMemory s t) ∧
    (alone ∨ s.signal n = false → Completes (.sigtstc q rd rs1) s fun t => Retires q rd (if s.signal n then 1 else 0) s t ∧
      (∀ i, i < 256 → t.signal i = (s.signal i && i != n)) ∧ OtherSeqsSame q s t ∧ SameMemory s t) ∧
    (s.signal n = false → Completes (.sigwait q rd rs1 rs2) s fun t => (t.seq q).run = .waiting ∧ (t.seq q).pc = (s.seq q).pc ∧
      (t.seq q).wait = .signal n true rd.toNat ((s.seq q).x rs2 != 0) ∧ t.signals = s.signals) ∧
    (s.signal n = false → Completes (.sigwaitn q rd rs1 rs2) s fun t => (t.seq q).run = .waiting ∧ (t.seq q).pc = (s.seq q).pc ∧
      (t.seq q).wait = .signal n false rd.toNat ((s.seq q).x rs2 != 0) ∧ t.signals = s.signals) ∧
    (alone → s.signal n = true → Completes (.sigwait q rd rs1 rs2) s fun t => WaitDone q rd 0 s t ∧
      (∀ i, i < 256 → t.signal i = (s.signal i && i != n)) ∧ OtherSeqsSame q s t) ∧
    (s.signal n = true → Completes (.sigwaitn q rd rs1 rs2) s fun t => WaitDone q rd 0 s t ∧ t.signals = s.signals ∧ OtherSeqsSame q s t) ∧
    Completes (.sigSetReg k v) s (fun t => (∀ i, i < 256 → t.signal i = (s.signal i || (i / 32 == k.val && v.getLsbD (i % 32)))) ∧
      SameMemory s t ∧ ((∀ i m, s.seqWaits i false m = false ∧ s.chWaits i false m = false) → t.regs = s.regs ∧ t.seqs = s.seqs)) ∧
    Completes (.sigClrReg k v) s (fun t => (∀ i, i < 256 → t.signal i = (s.signal i && !(i / 32 == k.val && v.getLsbD (i % 32)))) ∧
      t.regs = s.regs ∧ t.seqs = s.seqs)

/-- R80, R81: a set signal ends the wait of the consumer that the round-robin picks (here the only one), and clears; when
the timeout expires first, rd receives 1 and the signal stays. -/
def Obligations.SignalWaitEnds : Prop :=
  ∀ (q : Fin 48) (n : BitVec 8) (rd : BitVec 5) (timed : Bool) (s : State), s.isShadow q = false → (s.seq q).run = .waiting →
    ((s.seq q).wait = .signal n.toNat true rd.toNat timed → s.signal n.toNat = true →
      (∀ m, m ≠ q.val → s.seqWaits n.toNat true m = false) → (∀ m, s.seqWaits n.toNat false m = false) →
      (∀ c, s.chWaits n.toNat true c = false ∧ s.chWaits n.toNat false c = false) →
      Completes (.sigwaitWake n) s fun t => WaitDone q rd 0 s t ∧ t.regs = s.regs ∧ (∀ i, i < 256 → t.signal i = (s.signal i && i != n.toNat))) ∧
    (∀ consume, (s.seq q).wait = .signal n.toNat consume rd.toNat true →
      Completes (.sigwaitTimeout q) s fun t => WaitDone q rd 1 s t ∧ t.regs = s.regs ∧ t.signals = s.signals)

/-- R61, R62, R123, R137, R138, R142, R150: PYR-T on a link engine. STAMP adds the reference stamp and the product, rounded, modulo 2^32; AXRD
writes a pair of words of one instant; WAITP completes with 4 on an axis that is not valid, with 0 where the sill has passed
and else waits; its later ends give 0 and 1. On any other sequencer they are illegal instructions. ARM makes its
checks in order, each with its code, and a refused one changes nothing but rd; else the entry joins the queue. CANCEL removes the
entries of a tag, or all; rd receives their number (R137, R138, R150). -/
def Obligations.PositionInstructionResults : Prop :=
  (∀ (q : Fin 48) (rd rs1 rs2 rs3 : BitVec 5) (s : State),
    let a := (s.seq q).x rs1
    let b := (s.seq q).x rs2
    let d := (s.seq q).x rs3
    let n := a.toNat % 8
    let rev := a.getLsbD 8
    let g := a.toNat / 256 % 4
    (s.executes q = true → 24 ≤ q.val →
      (exec (.stamp q rd rs1 rs2 rs3) s =
        .next (s.withResult q rd (BitVec.ofInt 32 (a.toNat + (b.toInt * d.toInt + 0x80) / 2 ^ 8)))) ∧
      ((s.axis n).valid = false → exec (.waitp q rd rs1 rs2 rs3) s = .next (s.withResult q rd 4)) ∧
      ((s.axis n).valid = true → atOrBeyond rev (s.axisSill n rev) b = true →
        exec (.waitp q rd rs1 rs2 rs3) s = .next (s.withResult q rd 0)) ∧
      ((s.axis n).valid = true → atOrBeyond rev (s.axisSill n rev) b = false → exec (.waitp q rd rs1 rs2 rs3) s =
        .next (s.setSeq q { s.seq q with run := .waiting, wait := .position n rev b rd.toNat d.toNat s.uptime })) ∧
      (rd.toNat % 2 = 0 → rd ≠ 0 → exec (.axrd q rd rs1) s = .next (s.setSeq q { ((s.seq q).setX rd
          (if g = 0 then (s.axis n).a.count else if g = 1 then (s.axisPos n).setWidth 32
            else if g = 2 then BitVec.ofNat 32 (s.axis n).a.te else (s.axis n).sillF.setWidth 32)).setX (rd + 1)
          (if g = 0 then s.axisWord .AX_STATE n &&& 0xFF07C0FF
            else if g = 1 then (if (s.axis n).a.rev then (s.axis n).sillR else (s.axis n).sillF).setWidth 32
            else if g = 2 then s.axisWord .AX_SPEED n else (s.axis n).sillR.setWidth 32) with
        pc := (s.seq q).pc + 4, instret := (s.seq q).instret + 1 })) ∧
      (rd.toNat % 2 = 1 ∨ rd = 0 → (s.seq q).inh = false →
        Completes (.axrd q rd rs1) s fun t => (t.seq q).cause = 2 ∧ (t.seq q).epc = (s.seq q).pc)) ∧
    (s.executes q = true → q.val < 24 → (s.seq q).inh = false →
      Completes (.waitp q rd rs1 rs2 rs3) s (fun t => (t.seq q).cause = 2 ∧ (t.seq q).epc = (s.seq q).pc) ∧
      Completes (.stamp q rd rs1 rs2 rs3) s (fun t => (t.seq q).cause = 2 ∧ (t.seq q).epc = (s.seq q).pc) ∧
      Completes (.arm q rd rs1 rs2) s (fun t => (t.seq q).cause = 2 ∧ (t.seq q).epc = (s.seq q).pc) ∧
      Completes (.cancel q rd rs1) s (fun t => (t.seq q).cause = 2 ∧ (t.seq q).epc = (s.seq q).pc) ∧
      Completes (.axrd q rd rs1) s (fun t => (t.seq q).cause = 2 ∧ (t.seq q).epc = (s.seq q).pc)) ∧
    (∀ limit issued, (s.seq q).run = .waiting → (s.seq q).wait = .position n rev b rd.toNat limit issued →
      ((s.axis n).valid = true → atOrBeyond rev (s.axisSill n rev) b = true → Completes (.waitpPassed q) s (WaitDone q rd 0 s)) ∧
      (limit ≠ 0 → issued + limit ≤ s.uptime → Completes (.waitpTimeout q) s
        (WaitDone q rd (if (s.axis n).valid = true ∧ atOrBeyond rev (s.axisSill n rev) b = true then 0 else 1) s)))) ∧
  ∀ (lane : Fin 24) (rd rs1 rs2 : BitVec 5) (s : State), let q : Fin 48 := ⟨24 + lane, by omega⟩
    let l := s.lane lane
    let stamp := (s.seq q).x rs1
    let d := (s.seq q).x rs2
    let mask := d.toNat / 2 ^ 16
    let tag := d.toNat / 2 ^ 8 % 256
    let bar := d.toNat / 2 ^ 5 % 8
    let rev := d.getLsbD 4
    let n := s.get (F.BAR_CFG_axis bar)
    let a := s.axis n
    let gives := fun (v : Nat) (t : State) => (t.seq q).pc = (s.seq q).pc + 4 ∧ (t.seq q).instret = (s.seq q).instret + 1 ∧
      ∀ r, (t.seq q).x r = if r = rd ∧ rd ≠ 0 then BitVec.ofNat 32 v else (s.seq q).x r
    let bad := s.flag (F.LANE_SCHED_en lane) = false ∨ mask = 0 ∨ d.toNat % 16 ≠ 0 ∨ s.flag (F.BAR_CFG_en bar) = false ∨
      s.flag (F.BAR_STAT_rdy bar) = false ∨ (rev = true ∧ s.flag (F.AX_CFG_bidir n) = false) ∨
      ∃ p < 16, natBit mask p = true ∧ (s.flag (F.FIRE_TILE_CFG_en (lane * 16 + p)) = false ∨ s.get (F.FIRE_TILE_CFG_bar (lane * 16 + p)) ≠ bar)
    let clash := ∃ x ∈ l.queue, x.bar = bar ∧ x.tag = tag ∧ x.mask &&& mask ≠ 0
    let behind := rev = a.a.rev ∧ ∃ p < 16, natBit mask p = true ∧ atOrBeyond rev (s.tileSill n (lane * 16 + p) rev) stamp = true
    s.executes q = true →
    (bad → exec (.arm q rd rs1 rs2) s = .next (s.withResult q rd 3)) ∧
    (¬bad → a.valid = false → exec (.arm q rd rs1 rs2) s = .next (s.withResult q rd 4)) ∧
    (¬bad → a.valid = true → clash → exec (.arm q rd rs1 rs2) s = .next (s.withResult q rd 5)) ∧
    (¬bad → a.valid = true → ¬clash → 64 ≤ l.queue.length → exec (.arm q rd rs1 rs2) s = .next (s.withResult q rd 1)) ∧
    (¬bad → a.valid = true → ¬clash → l.queue.length < 64 → behind → exec (.arm q rd rs1 rs2) s = .next (s.withResult q rd 2)) ∧
    (¬bad → a.valid = true → ¬clash → l.queue.length < 64 → ¬behind → Completes (.arm q rd rs1 rs2) s fun t => gives 0 t ∧ OtherSeqsSame q s t ∧
      SameMemory s t ∧ (t.lane lane).queue = l.queue ++ [{ stamp := stamp, mask := mask, tag := tag, bar := bar, rev := rev, ahead := rev == a.a.rev }] ∧
      (∀ j, j ≠ lane.val → t.lane j = s.lane j) ∧ ∀ x, x ≠ R.LANE_QSTAT lane → t.rd x = s.rd x) ∧
    (let gone := fun (e : Entry) => ((s.seq q).x rs1).getLsbD 31 || e.tag == ((s.seq q).x rs1).toNat % 256;
      Completes (.cancel q rd rs1) s fun t => gives (l.queue.filter gone).length t ∧ (t.lane lane).queue = l.queue.filter (fun e => !gone e) ∧
        ∀ j, j ≠ lane.val → t.lane j = s.lane j)

/-- R82, R83, R426, R430, R433: POST answers in rd 4 for a source id of the hardware or of another sequencer, 2 for a
firmware source not granted, 3 for a kind below 0x8000, 0 when the record enters its ring or, that disabled, the holding
queue, with the source's next sequence number, and 1 where the ring or the queue refuses it; refused, it uses none. (The last
two are stated with no hardware record of the source in its buffer.) An odd rs3 is an illegal instruction. -/
def Obligations.PostResults : Prop :=
  ∀ (q : Fin 48) (rd rs1 rs2 rs3 : BitVec 5) (s : State), s.executes q = true →
    (rs3.toNat % 2 = 1 → (s.seq q).inh = false →
      Completes (.post q rd rs1 rs2 rs3) s fun t => (t.seq q).cause = 2 ∧ (t.seq q).epc = (s.seq q).pc) ∧
    (rs3.toNat % 2 = 0 →
    let ctl := (s.seq q).x rs1
    let src := ctl.toNat / 2 ^ 24
    let kind := ctl.toNat % 2 ^ 16
    let granted := src < 118 ∨ (s.flag (F.SUP_FWG_en (src - 118)) = true ∧ s.get (F.SUP_FWG_seq (src - 118)) = q)
    let own := if src = 0 then q.val else src
    (1 ≤ src → src ≤ 117 → src ≠ q → exec (.post q rd rs1 rs2 rs3) s = .next (s.withResult q rd 4)) ∧
    (¬ granted → exec (.post q rd rs1 rs2 rs3) s = .next (s.withResult q rd 2)) ∧
    (src = 0 ∨ src = q ∨ (118 ≤ src ∧ granted) → kind < 0x8000 → exec (.post q rd rs1 rs2 rs3) s = .next (s.withResult q rd 3)) ∧
    let ring := s.ringOf own
    let entry := eventBank + s.ringOffset ring + s.get (F.SUP_RING_WR_wr ring) * 32
    (src = 0 ∨ src = q ∨ (118 ≤ src ∧ granted) → 0x8000 ≤ kind → tabGet [] s.ev.buf own = [] → s.flag (F.SUP_RING_CFG_en ring) = true →
      (∀ h ∈ s.ev.holding, h.1 ≠ ring) →
      (s.ringRefuses ring (ctl.toNat / 2 ^ 16 % 16) = false → Completes (.post q rd rs1 rs2 rs3) s fun t =>
        (t.seq q).pc = (s.seq q).pc + 4 ∧ (t.seq q).instret = (s.seq q).instret + 1 ∧
        (∀ r, (t.seq q).x r = if r = rd ∧ rd ≠ 0 then 0 else (s.seq q).x r) ∧
        tabGet 0 t.ev.seqNo own = (tabGet 0 s.ev.seqNo own + 1) % 2 ^ 24 ∧
        t.get (F.SUP_RING_WR_wr ring) = (s.get (F.SUP_RING_WR_wr ring) + 1) % s.ringEntries ring ∧
        t.wordAt entry = BitVec.ofNat 32 (own * 2 ^ 24 + tabGet 0 s.ev.seqNo own % 2 ^ 24) ∧ t.wordAt (entry + 28) = (s.seq q).x rs2 ∧
        ∀ a, a < entry ∨ entry + 32 ≤ a → t.rdByte a = s.rdByte a) ∧
      (s.ringRefuses ring (ctl.toNat / 2 ^ 16 % 16) = true → exec (.post q rd rs1 rs2 rs3) s = .next (s.withResult q rd 1))) ∧
    (src = 0 ∨ src = q ∨ (118 ≤ src ∧ granted) → 0x8000 ≤ kind → tabGet [] s.ev.buf own = [] → s.flag (F.SUP_RING_CFG_en ring) = false →
      (s.ev.holding.length < 64 → Completes (.post q rd rs1 rs2 rs3) s fun t => Retires q rd 0 s t ∧ t.regs = s.regs ∧ SameMemory s t ∧
        OtherSeqsSame q s t ∧ tabGet 0 t.ev.seqNo own = (tabGet 0 s.ev.seqNo own + 1) % 2 ^ 24 ∧
        ∃ words, t.ev.holding = s.ev.holding ++ [(ring, ctl.toNat / 2 ^ 16 % 16, words)] ∧
          words[0]? = some (BitVec.ofNat 32 (own * 2 ^ 24 + tabGet 0 s.ev.seqNo own % 2 ^ 24)) ∧
          words[7]? = some ((s.seq q).x rs2)) ∧
      (64 ≤ s.ev.holding.length → exec (.post q rd rs1 rs2 rs3) s = .next (s.withResult q rd 1))))

/-- R64, R65: PYR-M on a motion core. Halves are signed Q1.15. Where R64 gives no rounding, a result is one of the two
places beside the exact quotient (a free value, notes/assumptions), saturated; MACS and PISTEP are exact. -/
def Obligations.MotorInstructionResults : Prop :=
  ∀ (q : Fin 48) (rd rs1 rs2 : BitVec 5) (s : State), s.executes q = true → 4 ≤ q.val → q.val < 8 →
    let lo := fun (w : W32) => (w.extractLsb' 0 16).toInt
    let hi := fun (w : W32) => (w.extractLsb' 16 16).toInt
    let sat := fun (x : Int) => max (-32768) (min 32767 x)
    let near := fun (x n : Int) => ∃ y, x = sat y ∧ 32768 * y - 32768 < n ∧ n < 32768 * y + 32768
    let a := (s.seq q).x rs1
    let b := (s.seq q).x rs2
    let frame := fun (v : W32) (t : State) => Retires q rd v s t ∧ OtherSeqsSame q s t ∧ t.regs = s.regs ∧ SameMemory s t
    (∃ v, Completes (.clarke q rd rs1) s (frame v) ∧ lo v = lo a ∧
      ∃ y : Int, hi v = sat y ∧ (y = 0 ∨ 3 * (y.natAbs - 1) ^ 2 ≤ (lo a + 2 * hi a).natAbs ^ 2) ∧
        (lo a + 2 * hi a).natAbs ^ 2 < 3 * (y.natAbs + 1) ^ 2 ∧ (0 < y → 0 < lo a + 2 * hi a) ∧ (y < 0 → lo a + 2 * hi a < 0)) ∧
    (∃ v, Completes (.park q rd rs1 rs2) s (frame v) ∧ near (lo v) (lo a * lo b + hi a * hi b) ∧
      near (hi v) (hi a * lo b - lo a * hi b)) ∧
    (∃ v, Completes (.ipark q rd rs1 rs2) s (frame v) ∧ near (lo v) (lo a * lo b - hi a * hi b) ∧
      near (hi v) (lo a * hi b + hi a * lo b)) ∧
    (∃ v, Completes (.sincos q rd rs1) s (frame v) ∧
      (a.toNat % 0x10000 = 0 → hi v ≤ 2 ∧ -2 ≤ hi v ∧ 32766 ≤ lo v) ∧
      (a.toNat % 0x10000 = 0x4000 → 32766 ≤ hi v ∧ lo v ≤ 2 ∧ -2 ≤ lo v) ∧
      (a.toNat % 0x10000 = 0x8000 → hi v ≤ 2 ∧ -2 ≤ hi v ∧ lo v ≤ -32766) ∧
      (a.toNat % 0x10000 = 0xC000 → hi v ≤ -32766 ∧ lo v ≤ 2 ∧ -2 ≤ lo v)) ∧
    (∃ v, Completes (.macs q rd rs1 rs2) s (frame v) ∧
      v.toInt = max (-2 ^ 31) (min (2 ^ 31 - 1) (((s.seq q).x rd).toInt + lo a * lo b)))

/-- R63, R64, R65: SVM and PISTEP write a register pair: two duties, then sector and third duty with bits [31:19] 0, all half
for the zero vector; the integrator, then the output, by R65's own formula. For a
vector no longer than 1.0 the duties of B and C differ by v_β, and the largest and the smallest lie evenly about a half. -/
def Obligations.MotorPairResults : Prop :=
  ∀ (q : Fin 48) (rd rs1 rs2 : BitVec 5) (s : State), s.executes q = true → 4 ≤ q.val → q.val < 8 →
    rd.toNat % 2 = 0 → rd ≠ 0 →
    let a := (s.seq q).x rs1
    let b := (s.seq q).x rs2
    let frame := fun (v w : W32) (t : State) => (t.seq q).pc = (s.seq q).pc + 4 ∧
      (∀ r, (t.seq q).x r = if r = rd + 1 then w else if r = rd then v else (s.seq q).x r) ∧
      OtherSeqsSame q s t ∧ t.regs = s.regs ∧ SameMemory s t
    (∃ v w, Completes (.svm q rd rs1) s (frame v w) ∧ w.toNat < 2 ^ 19 ∧
      (a = 0 → v = 0x80008000 ∧ w.toNat % 2 ^ 16 = 0x8000) ∧
      (let alpha := (a.extractLsb' 0 16).toInt
        let beta := (a.extractLsb' 16 16).toInt
        let dA : Int := (v.toNat % 2 ^ 16 : Nat)
        let dB : Int := (v.toNat / 2 ^ 16 : Nat)
        let dC : Int := (w.toNat % 2 ^ 16 : Nat)
        alpha * alpha + beta * beta ≤ 2 ^ 30 → |dB - dC - 2 * beta| ≤ 4 ∧ |max dA (max dB dC) + min dA (min dB dC) - 2 ^ 16| ≤ 4)) ∧
    (∃ v w, Completes (.pistep q rd rs1 rs2) s (frame v w) ∧
      let e := (a.extractLsb' 0 16).toInt
      let limit : Int := (a.toNat / 2 ^ 16 : Nat)
      let ki : Int := (b.toNat / 2 ^ 16 : Nat)
      let kp : Int := (b.toNat % 2 ^ 16 : Nat)
      let i := ((s.seq q).x rd).toInt
      let inew := max (-2 ^ 31) (min (2 ^ 31 - 1) (i + ki * e * 16))
      let u := max (-32768) (min 32767 (kp * e / 4096 + inew / 65536))
      v.toInt = (if limit < |u| ∧ e.sign = u.sign then i else inew) ∧
      (w.extractLsb' 0 16).toInt = max (-limit) (min limit u))

/-- R41, R63, R64: PYR-M elsewhere, or with a bad register pair, is an illegal instruction. -/
def Obligations.MotorInstructionsIllegal : Prop :=
  ∀ (q : Fin 48) (rd rs1 rs2 : BitVec 5) (s : State), s.executes q = true → (s.seq q).inh = false →
    let trapped := fun (t : State) => (t.seq q).cause = 2 ∧ (t.seq q).epc = (s.seq q).pc ∧ (t.seq q).pc = (s.seq q).vbase
    (q.val < 4 ∨ 8 ≤ q.val → Completes (.clarke q rd rs1) s trapped ∧ Completes (.park q rd rs1 rs2) s trapped ∧
      Completes (.ipark q rd rs1 rs2) s trapped ∧ Completes (.sincos q rd rs1) s trapped ∧
      Completes (.macs q rd rs1 rs2) s trapped ∧ Completes (.svm q rd rs1) s trapped ∧ Completes (.pistep q rd rs1 rs2) s trapped) ∧
    (rd.toNat % 2 = 1 ∨ rd = 0 → Completes (.svm q rd rs1) s trapped ∧ Completes (.pistep q rd rs1 rs2) s trapped)

/-- R66, R67: the lane-by-lane instructions of PYR-V on a cluster's sequencer, with a vector or (vx) a general register as
second operand; the residue-checked ones where no lane mismatches and no injection is armed. -/
def Obligations.VectorArithmeticResults : Prop :=
  ∀ (q : Fin 48) (m : BitVec 3) (vx : Bool) (vd vs1 vs2 : BitVec 5) (s : State), s.executes q = true → 8 ≤ q.val → q.val < 24 →
    let a := fun k => (s.seq q).lane vs1 k
    let b := fun k => if vx then (s.seq q).x vs2 else (s.seq q).lane vs2 k
    let gets := fun (c : Instr) (f : Nat → W32) => Completes c s fun t => VectorFrame q s t ∧ LanesGet q m vd f s t
    (s.flag (F.RC_CTL_res_inj (q - 8)) = false →
      gets (.vadd q m vx vd vs1 vs2 none) (fun k => a k + b k) ∧
      gets (.vsub q m vx vd vs1 vs2 none) (fun k => a k - b k) ∧
      gets (.vmul q m vx vd vs1 vs2 none) (fun k => a k * b k) ∧
      gets (.vmulq q m vx vd vs1 vs2 none) (fun k => BitVec.ofInt 32 (((a k).toInt * (b k).toInt + 2 ^ 15) / 2 ^ 16)) ∧
      gets (.vmac q m vx vd vs1 vs2 none) (fun k => (s.seq q).lane vd k + a k * b k)) ∧
    gets (.vmin q m vx vd vs1 vs2) (fun k => if (a k).toInt < (b k).toInt then a k else b k) ∧
    gets (.vmax q m vx vd vs1 vs2) (fun k => if (a k).toInt < (b k).toInt then b k else a k) ∧
    gets (.vminu q m vx vd vs1 vs2) (fun k => if (a k).toNat < (b k).toNat then a k else b k) ∧
    gets (.vmaxu q m vx vd vs1 vs2) (fun k => if (a k).toNat < (b k).toNat then b k else a k) ∧
    gets (.vand q m vx vd vs1 vs2) (fun k => a k &&& b k) ∧
    gets (.vor q m vx vd vs1 vs2) (fun k => a k ||| b k) ∧
    gets (.vxor q m vx vd vs1 vs2) (fun k => a k ^^^ b k) ∧
    gets (.vsll q m vx vd vs1 vs2) (fun k => a k <<< ((b k).toNat % 32)) ∧
    gets (.vsrl q m vx vd vs1 vs2) (fun k => a k >>> ((b k).toNat % 32)) ∧
    gets (.vsra q m vx vd vs1 vs2) (fun k => (a k).sshiftRight ((b k).toNat % 32))

/-- R66, R67: comparisons into a mask, splat, extract, lane numbers and mask logic; m0 reads all ones, and as a destination
is an illegal instruction. -/
def Obligations.VectorMaskResults : Prop :=
  ∀ (q : Fin 48) (m ma mb : BitVec 3) (vx : Bool) (vd vs1 vs2 : BitVec 5) (s : State), s.executes q = true → 8 ≤ q.val → q.val < 24 →
    let md : BitVec 3 := vd.truncate 3
    let a := fun k => (s.seq q).lane vs1 k
    let b := fun k => if vx then (s.seq q).x vs2 else (s.seq q).lane vs2 k
    let on := fun k => ((s.seq q).mask m).getLsbD k
    let old := fun k => ((s.seq q).mask md).getLsbD k
    let gets := fun (c : Instr) (f : Nat → Bool) => Completes c s fun t => VectorFrame q s t ∧ MaskGets q md f s t
    (md ≠ 0 →
      gets (.vcmpeq q m vx vd vs1 vs2) (fun k => if on k then a k == b k else old k) ∧
      gets (.vcmplt q m vx vd vs1 vs2) (fun k => if on k then decide ((a k).toInt < (b k).toInt) else old k) ∧
      gets (.vcmpltu q m vx vd vs1 vs2) (fun k => if on k then decide ((a k).toNat < (b k).toNat) else old k) ∧
      gets (.mand q md ma mb) (fun k => ((s.seq q).mask ma).getLsbD k && ((s.seq q).mask mb).getLsbD k) ∧
      gets (.mor q md ma mb) (fun k => ((s.seq q).mask ma).getLsbD k || ((s.seq q).mask mb).getLsbD k) ∧
      gets (.mnot q md ma) (fun k => !((s.seq q).mask ma).getLsbD k)) ∧
    Completes (.vsplat q m vd vs1) s (fun t => VectorFrame q s t ∧ LanesGet q m vd (fun _ => (s.seq q).x vs1) s t) ∧
    Completes (.viota q m vd) s (fun t => VectorFrame q s t ∧ LanesGet q m vd (fun k => BitVec.ofNat 32 k) s t) ∧
    Completes (.vext q vd vs1 vs2) s (fun t => VectorFrame q s t ∧
      ∀ r, (t.seq q).x r = if r = vd ∧ vd ≠ 0 then (s.seq q).lane vs1 (((s.seq q).x vs2).toNat % 64) else (s.seq q).x r) ∧
    Completes (.mpop q vd ma) s (fun t => VectorFrame q s t ∧ ∀ r, (t.seq q).x r = if r = vd ∧ vd ≠ 0 then
      BitVec.ofNat 32 ((List.range 64).filter (fun k => ((s.seq q).mask ma).getLsbD k)).length else (s.seq q).x r) ∧
    ((s.seq q).mask 0).toNat = 2 ^ 64 - 1 ∧
    ((s.seq q).inh = false → Completes (.mnot q 0 ma) s fun t => (t.seq q).cause = 2 ∧ (t.seq q).epc = (s.seq q).pc)

/-- R41, R70: a sequencer outside the clusters takes exception 2; a residue mismatch in an active lane writes nothing, posts
RESIDUE (0x340) from the cluster's source, counts it, and takes exception 11 with the lane; an armed injection does the same
for the lowest active lane, is spent, and counts nothing. -/
def Obligations.ResidueCheck : Prop :=
  ∀ (q : Fin 48) (m : BitVec 3) (vx : Bool) (vd vs1 vs2 : BitVec 5) (k : Fin 64) (s : State), s.executes q = true → (s.seq q).inh = false →
    (q.val < 8 ∨ 24 ≤ q.val → Completes (.vadd q m vx vd vs1 vs2 none) s (fun t => (t.seq q).cause = 2) ∧
      Completes (.vnmap q m vd vs1 vs2 none) s (fun t => (t.seq q).cause = 2)) ∧
    (8 ≤ q.val → q.val < 24 → ((s.seq q).mask m).getLsbD k = true → s.room q = true →
      let trapped := fun (t : State) => (t.seq q).cause = 11 ∧ (t.seq q).tval = BitVec.ofNat 32 k ∧ (t.seq q).epc = (s.seq q).pc ∧
        (∀ r j, (t.seq q).lane r j = (s.seq q).lane r j) ∧ SameMemory s t
      (s.flag (F.RC_CTL_res_inj (q - 8)) = false → Completes (.vadd q m vx vd vs1 vs2 (some k)) s fun t => trapped t ∧
        HoldsEvent q 0x340 (0x3C * 2 ^ 16 + (if vx then 0x80 else 0) * 2 ^ 8 + k) t ∧
        t.get (F.RC_STAT_res_err (q - 8)) = 1 ∧
        t.get (F.RC_RESCNT_count (q - 8)) = min (s.get (F.RC_RESCNT_count (q - 8)) + 1) (2 ^ 32 - 1)) ∧
      (s.flag (F.RC_CTL_res_inj (q - 8)) = true → (∀ j, j < k.val → ((s.seq q).mask m).getLsbD j = false) →
        Completes (.vmul q m vx vd vs1 vs2 none) s fun t => trapped t ∧ t.get (F.RC_CTL_res_inj (q - 8)) = 0 ∧
          t.get (F.RC_STAT_inj_done (q - 8)) = 1 ∧ t.get (F.RC_RESCNT_count (q - 8)) = s.get (F.RC_RESCNT_count (q - 8))))

/-- R68: VLD and VLDX load the word of each active lane's address, the stride being 4 for g0; VST and VSTX store it, the
highest-numbered active lane prevailing where lanes share an address; every active address must be an aligned SRAM word that
the access check admits. The lowest misaligned one raises exception 4 or 6 with its address before any lane is accessed. -/
def Obligations.VectorMemoryResults : Prop :=
  ∀ (q : Fin 48) (m : BitVec 3) (vd gb gs vs2 : BitVec 5) (s : State), s.executes q = true → 8 ≤ q.val → q.val < 24 →
    let on := fun k => ((s.seq q).mask m).getLsbD k = true
    let strided := fun (k : Nat) => (s.seq q).x gb + BitVec.ofNat 32 k * (if gs = 0 then 4 else (s.seq q).x gs)
    let indexed := fun (k : Nat) => (s.seq q).x gb + (s.seq q).lane vs2 k
    let loads := fun (addr : Nat → W32) (t : State) => VectorFrame q s t ∧ LanesGet q m vd (fun k => s.wordAt (addr k).toNat) s t
    let stores := fun (addr : Nat → W32) (t : State) => VectorStoreFrame q s t ∧
      (∀ k, k < 64 → on k → (∀ j, j < 64 → k < j → on j → addr j ≠ addr k) → t.wordAt (addr k).toNat = (s.seq q).lane vd k) ∧
      (∀ b, (∀ k, k < 64 → on k → ¬((addr k).toNat ≤ b ∧ b < (addr k).toNat + 4)) → t.rdByte b = s.rdByte b)
    let admits := fun (n : Needs) (addr : Nat → W32) => ∀ k, k < 64 → on k → s.usable q n (addr k).toNat
    let traps := fun (code : Nat) (addr : Nat → W32) (k : Nat) (t : State) => (t.seq q).cause = BitVec.ofNat 32 code ∧
      (t.seq q).tval = addr k ∧ (t.seq q).epc = (s.seq q).pc ∧ (∀ r j, (t.seq q).lane r j = (s.seq q).lane r j) ∧ SameMemory s t
    let lowest := fun (n : Needs) (addr : Nat → W32) (k : Nat) => (s.seq q).inh = false ∧ k < 64 ∧ on k ∧ (addr k).toNat % 4 ≠ 0 ∧
      ∀ j, j < k → on j → s.usable q n (addr j).toNat
    (admits Needs.read strided → Completes (.vld q m vd gb gs) s (loads strided)) ∧
    (admits Needs.read indexed → Completes (.vldx q m vd gb vs2) s (loads indexed)) ∧
    (admits Needs.write strided → Completes (.vst q m vd gb gs) s (stores strided)) ∧
    (admits Needs.write indexed → Completes (.vstx q m vd gb vs2) s (stores indexed)) ∧
    (∀ k, lowest Needs.read strided k → Completes (.vld q m vd gb gs) s (traps 4 strided k)) ∧
    (∀ k, lowest Needs.read indexed k → Completes (.vldx q m vd gb vs2) s (traps 4 indexed k)) ∧
    (∀ k, lowest Needs.write strided k → Completes (.vst q m vd gb gs) s (traps 6 strided k)) ∧
    (∀ k, lowest Needs.write indexed k → Completes (.vstx q m vd gb vs2) s (traps 6 indexed k))

/-- R164, R165: VLUT looks one entry up per active lane, in the held table without reading memory, or after loading the whole
1 KiB, which the buffer then holds. -/
def Obligations.TableLookupResults : Prop :=
  ∀ (q : Fin 48) (m : BitVec 3) (vd vs1 g : BitVec 5) (s : State), s.executes q = true → 8 ≤ q.val → q.val < 24 →
    let w := fun (i : Nat) => (s.seq q).lane vs1 i
    let base := (s.seq q).x g &&& 0xFFFFFC00
    let sel := ((s.seq q).x g).toNat / 4 % 32
    let channel := fun (a b : W32) (f c : Nat) => BitVec.ofInt 9 (((a.extractLsb' (9 * c) 9).toNat : Int) +
      ((((b.extractLsb' (9 * c) 9).toNat : Int) - (a.extractLsb' (9 * c) 9).toNat) * f + 128) / 256)
    let interp := fun (t : Nat → W32) (x : Nat) => let a := t (x / 256)
      let b := t (min (x / 256 + 1) 255)
      ((0#5 ++ channel a b (x % 256) 2) ++ channel a b (x % 256) 1) ++ channel a b (x % 256) 0
    let entry := fun (t : Nat → W32) (k : Nat) =>
      (if sel ≤ 3 then t ((w (16 * sel + k / 4)).extractLsb' (8 * (k % 4)) 8).toNat
      else if sel ≤ 5 then interp t ((w (32 * (sel - 4) + k / 2)).extractLsb' (16 * (k % 2)) 16).toNat
      else if sel = 6 then t ((w k).extractLsb' 0 8).toNat
      else if sel = 7 then interp t ((w k).extractLsb' 0 16).toNat
      else if sel ≤ 23 then t ((w (4 * (sel - 8) + k / 16)).extractLsb' (2 * (k % 16)) 2).toNat
      else t ((w (6 * (sel - 24) + 3 * k / 32 + 1) ++ w (6 * (sel - 24) + 3 * k / 32)).extractLsb' (3 * k % 32) 3).toNat) &&& 0x07FFFFFF#32
    let held := s.flag (F.RC_TBUF_valid (q - 8)) = true ∧ s.get (F.RC_TBUF_base (q - 8)) = base.toNat / 1024
    let stored := fun (i : Nat) => s.wordAt (base.toNat + 4 * i)
    (held → Completes (.vlut q m vd vs1 g) s (fun t => VectorFrame q s t ∧
      LanesGet q m vd (entry (fun i => (s.seq q).tbuf.getD i 0)) s t ∧ (t.seq q).tbuf = (s.seq q).tbuf)) ∧
    (¬held → (∀ i < 256, s.usable q Needs.read (base.toNat + 4 * i)) →
      Completes (.vlut q m vd vs1 g) s (fun t => ScreenFrame q s t ∧ LanesGet q m vd (entry stored) s t ∧
        (∀ i, i < 256 → (t.seq q).tbuf.getD i 0 = stored i) ∧ t.rd (R.RC_TBUF (q - 8)) = base ||| 1))

/-- R161, R166, R168: VNMAP applies the map's density gain, state and mode to each active lane, and VSPREAD moves the tone of
missing and disabled nozzles to the neighbours of the same tile; a range that leaves the map is a load access fault that
names the lowest index above it. -/
def Obligations.NozzleMapResults : Prop :=
  ∀ (q : Fin 48) (m : BitVec 3) (vd vs1 g : BitVec 5) (s : State), s.executes q = true → 8 ≤ q.val → q.val < 24 →
    let on := fun k => ((s.seq q).mask m).getLsbD k = true
    let gn := ((s.seq q).x g).toNat
    let w := fun (i : Nat) => (s.seq q).lane vs1 i
    let entry := fun (i : Nat) => s.wordAt (4 * i)
    let tone := fun (v : W32) (c : Nat) => (v.extractLsb' (9 * c) 9).toNat
    let gained := fun (k c : Nat) => BitVec.ofNat 9 (min 511 ((tone (w k) c * ((entry (gn + k)).extractLsb' 8 8).toNat + 64) / 128))
    let state := fun (v : W32) => (v.extractLsb' 30 2).toNat
    let share := fun (there : Prop) [Decidable there] (st md full : Nat) =>
      if there ∧ 2 ≤ st then (if md = full then 2 else if md = 3 then 1 else 0) else 0
    let halves := fun (k : Nat) =>
      share ((gn + k) % 2048 ≠ 0) (if k = 0 then state (entry (gn - 1)) else state (w (k - 1)))
        (if k = 0 then (entry (gn - 1)).extractLsb' 16 3 else (w (k - 1)).extractLsb' 27 3).toNat 2 +
      share ((gn + k + 1) % 2048 ≠ 0) (if k = 63 then state (entry (gn + 64)) else state (w (k + 1)))
        (if k = 63 then (entry (gn + 64)).extractLsb' 16 3 else (w (k + 1)).extractLsb' 27 3).toNat 1
    let moved := fun (k c : Nat) => BitVec.ofNat 9 (min 511 (tone (w k) c + tone (w k) c * halves k / 2))
    let quiet := s.flag (F.RC_CTL_res_inj (q - 8)) = false
    (gn + 63 ≤ 786431 → quiet → (∀ k < 64, on k → s.usable q Needs.read (4 * (gn + k))) →
      Completes (.vnmap q m vd vs1 g none) s (fun t => ScreenFrame q s t ∧ LanesGet q m vd (fun k =>
        ((((entry (gn + k)).extractLsb' 30 2 ++ (entry (gn + k)).extractLsb' 16 3) ++ gained k 2) ++ gained k 1) ++ gained k 0) s t)) ∧
    (gn + 63 ≤ 786431 → quiet → (gn % 2048 ≠ 0 → s.usable q Needs.read (4 * (gn - 1))) →
      ((gn + 64) % 2048 ≠ 0 → s.usable q Needs.read (4 * (gn + 64))) →
      Completes (.vspread q m vd vs1 g none) s (fun t => ScreenFrame q s t ∧ LanesGet q m vd (fun k =>
        if 2 ≤ state (w k) then w k &&& 0xF8000000
        else (((w k).extractLsb' 27 5 ++ moved k 2) ++ moved k 1) ++ moved k 0) s t)) ∧
    (786431 < gn + 63 → (s.seq q).inh = false → ∀ c, c = .vnmap q m vd vs1 g none ∨ c = .vspread q m vd vs1 g none →
      Completes c s (fun t => (t.seq q).cause = 5 ∧ (t.seq q).tval = BitVec.ofNat 32 (4 * max gn 786432) ∧
        (t.seq q).epc = (s.seq q).pc ∧ (∀ r k, (t.seq q).lane r k = (s.seq q).lane r k) ∧ SameMemory s t))

/-- R162, R169, R170: VTHR screens each active lane's tone word against the threshold word of its cell, with priority or as
binary drop weights; VMASK keeps a lane where its pattern byte names the current pass and clears it elsewhere. -/
def Obligations.ScreenAndMaskResults : Prop :=
  ∀ (q : Fin 48) (m : BitVec 3) (vd vs1 g : BitVec 5) (s : State), s.executes q = true → 8 ≤ q.val → q.val < 24 →
    let on := fun k => ((s.seq q).mask m).getLsbD k = true
    let gd := (s.seq q).x g
    let d := gd &&& 0xFFFFFF00
    let d0 := s.wordAt d.toNat
    let d1 := s.wordAt (d.toNat + 4)
    let width := (d1.extractLsb' 24 8).toNat + 1
    let row := (d1.extractLsb' 8 8).toNat % ((d1.extractLsb' 16 8).toNat + 1)
    let cell := fun (k : Nat) => row * width + (gd.toNat % 256 + k) % width
    let threshold := fun k => (d0 + BitVec.ofNat 32 (4 * cell k)).toNat
    let pattern := fun k => (d0 + BitVec.ofNat 32 (cell k)).toNat
    let w := fun (k : Nat) => (s.seq q).lane vs1 k
    let above := fun (k c : Nat) => ((s.wordAt (threshold k)).extractLsb' (9 * c) 9).toNat < ((w k).extractLsb' (9 * c) 9).toNat
    let descriptor := s.usable q Needs.read d.toNat ∧ s.usable q Needs.read (d.toNat + 4)
    (descriptor → (∀ k < 64, on k → s.usable q Needs.read (threshold k)) →
      Completes (.vthr q m vd vs1 g) s (fun t => VectorFrame q s t ∧ LanesGet q m vd (fun k =>
        if 2 ≤ ((w k).extractLsb' 30 2).toNat then 0
        else if d1.getLsbD 0 = false then if above k 2 then 3 else if above k 1 then 2 else if above k 0 then 1 else 0
        else (if above k 2 then 4 else 0) + (if above k 1 then 2 else 0) + (if above k 0 then 1 else 0)) s t)) ∧
    (descriptor → d0.toNat % 4 = 0 → (∀ k < 64, on k → s.usable q Needs.read (pattern k / 4 * 4)) →
      Completes (.vmask q m vd vs1 g) s (fun t => VectorFrame q s t ∧ LanesGet q m vd (fun k =>
        if (s.rdByte (pattern k)).extractLsb' 0 4 = d1.extractLsb' 0 4 then w k else 0) s t))

/-- R159, R171: VPACK puts the level of each active lane, held within the mode's range, into its n bits of the stream at ga,
and leaves every other bit of memory as it was. -/
def Obligations.PackResults : Prop :=
  ∀ (q : Fin 48) (m : BitVec 3) (ga vs1 gf : BitVec 5) (s : State), s.executes q = true → 8 ≤ q.val → q.val < 24 →
    let on := fun k => ((s.seq q).mask m).getLsbD k = true
    let n := 2 + ((s.seq q).x gf).toNat % 2
    let a := ((s.seq q).x ga).toNat
    let level := fun k => if ((s.seq q).lane vs1 k).toInt < 0 then 0 else min ((s.seq q).lane vs1 k).toNat (2 ^ n - 1)
    (∀ i < 2 * n, (∃ k < 64, on k ∧ n * k < 32 * (i + 1) ∧ 32 * i < n * k + n) → s.usable q Needs.write (a + 4 * i)) →
    Completes (.vpack q m ga vs1 gf) s (fun t => VectorStoreFrame q s t ∧
      (∀ b < 64 * n, t.streamBit a b = if on (b / n) then (level (b / n)).testBit (b % n) else s.streamBit a b) ∧
      ∀ c, c < a ∨ a + 8 * n ≤ c → t.rdByte c = s.rdByte c)

/-- R165, R172: a write of RCn_CTL.tbuf_inv drops the cluster's table buffer, and one of res_inj arms an injection; a cluster
that the variant lacks is not there. -/
def Obligations.ClusterControlResults : Prop :=
  ∀ (n : Fin 16) (s : State), s.rcFused n = false →
    Completes (.tbufInvalidate n) s (fun t => t.get (F.RC_TBUF_valid n) = 0 ∧ SameMemory s t) ∧
    Completes (.residueInjectArm n) s (fun t => t.get (F.RC_CTL_res_inj n) = 1 ∧ SameMemory s t ∧ ∀ q, t.seq q = s.seq q)

/-- R43 to R45: run starts a HALTED sequencer at its entry, halt ends RUNNING and WAITING in HALTED, rst leaves it HALTED with
its context as after reset but for what its SYS registers hold, the pending software interrupt and the last trap's cause; SWI sets and clears that; with debug access open DEBUG is
entered from HALTED or RUNNING and left to RUNNING. -/
def Obligations.SequencerControlResults : Prop :=
  ∀ (q : Fin 48) (s : State), s.seqReached q = true →
    let c := s.seq q
    let gives := fun (d : Seq) (t : State) => t.seq q = d ∧ OtherSeqsSame q s t ∧ SameMemory s t
    (c.run = .halted → Completes (.seqRun q) s (gives { c with run := .running, pc := s.rd (R.SYS_SEQ_ENTRY q) &&& 0xFFFFFFFC })) ∧
    (c.run = .running ∨ c.run = .waiting → Completes (.seqHalt q) s (gives { c with run := .halted, wait := .none })) ∧
    Completes (.seqRst q) s (fun t => t.seq q = { swi := c.swi, lastCause := c.lastCause, lastIrq := c.lastIrq, latched := (t.seq q).latched } ∧ (8 ≤ q.val → (t.seq q).latched = 0) ∧
      SameMemory s t) ∧
    exec (.swiSet q) s = .next (s.setSeq q { c with swi := true }) ∧
    exec (.swiClr q) s = .next (s.setSeq q { c with swi := false }) ∧
    (s.flag F.SEC_LC_dbg = true → c.run = .halted ∨ c.run = .running → exec (.debugHalt q) s = .next (s.setSeq q { c with run := .debug })) ∧
    (s.flag F.SEC_LC_dbg = true → c.run = .debug → exec (.debugResume q) s = .next (s.setSeq q { c with run := .running }))

/-- R48, R49: split is accepted of a HALTED pair where the policy permits it, and the checker becomes a core of its own with
the primary's context; otherwise the write is ignored and split_err is set. A lockstep mismatch faults the pair and posts
SEQ_FAULT; of a control pair it sets the global condition. -/
def Obligations.LockstepResults : Prop :=
  (∀ (p : Fin 4) (s : State) (v : W32), let q : Fin 48 := ⟨2 * p, by omega⟩
    let allowed := natBit s.policy 2 = true ∨ s.get F.SEC_LC_state ≤ 1
    s.seqFused q = false → s.flag (F.SYS_SEQ_CTL_split q) = false → v.getLsbD 3 = true → v.extractLsb' 0 3 = 0 →
    ((s.seq q).run = .halted → (s.seq (q + 1)).run = .halted → s.lockstep q = true →
      allowed → Completes (.splitWrite q v) s (fun t => t.isShadow (q + 1) = false ∧ t.seq (q + 1) = s.seq q ∧ t.seq q = s.seq q ∧
        t.flag (F.SYS_SEQ_CTL_split q) = true ∧ SameMemory s t)) ∧
    ((s.seq q).run ≠ .halted ∨ (s.seq (q + 1)).run ≠ .halted ∨ ¬allowed → Completes (.splitWrite q v) s (fun t => t.get (F.SYS_SEQ_CTL_split_err q) = 1 ∧
      t.flag (F.SYS_SEQ_CTL_split q) = false ∧ (∀ r, t.seq r = s.seq r) ∧ SameMemory s t))) ∧
  (∀ (p : Fin 4) (s : State), let q := 2 * p.val
    s.lockstep q = true → (s.seq q).run ≠ .faulted → (s.seq q).run ≠ .reset → s.room 63 = true →
    Completes (.lockstepMismatch p) s (fun t => (t.seq q).run = .faulted ∧ (t.seq (q + 1)).run = .faulted ∧ HoldsEvent 63 0x4E0 q t ∧
      (p.val < 2 → natBit (t.get F.SUP_GCOND_cond) p.val = true) ∧ SameMemory s t))

/-- R10, R29, R37, R341, R476: a register without an effect of its own takes a write by its field rules, bit for bit; an
address without one ignores it. A read answers the value and then clears the RC fields; a capture register latches its
group for the reader, whose members then read what was latched; MEM_ELOG0 and MEM_MFAIL0 latch their high words. -/
def Obligations.RegisterAccessResults : Prop :=
  ∀ (m : Master) (addr : W32) (s : State), let a := addr.toNat
    let answer := fun (v : W32) => Answer.data (leBytes 4 v.toNat)
    (s.mayReg m a Needs.write →
      (∀ v, cardAt a = none → exec (.registerWrite m addr v) s = .next (s.answered .done)) ∧
      (∀ c i j v, cardAt a = some (c, i, j) → a ≠ R.SYS_BOOTCMD → s.regDeaf c i = true → exec (.registerWrite m addr v) s = .next (s.answered .done)) ∧
      (∀ c i j v, cardAt a = some (c, i, j) → c.id ∉ effectRegs → s.regDeaf c i = false →
        Completes (.registerWrite m addr v) s (fun t => t = (s.wr a (t.rd a)).answered .done ∧
          ∀ k < 32, (t.rd a).getLsbD k = if v.getLsbD k && natBit c.w1s k then true else if v.getLsbD k && natBit c.w1c k then false
            else if natBit c.rw k then v.getLsbD k else (s.rd a).getLsbD k))) ∧
    (s.mayReg m a Needs.read →
      (cardAt a = none → exec (.readClear m addr) s = .next (s.answered (answer 0))) ∧
      (∀ c i j, cardAt a = some (c, i, j) → s.regHidden c i = false → snapGroup c.id i = [] →
        (snapMember c.id = false → c.id ∉ [.OG_RESA, .MEM_ELOG0, .MEM_MFAIL0, .MEM_SCRSTAT] →
          Completes (.readClear m addr) s (fun t => t.answer = answer (s.regNow a) ∧ (∀ b, b ≠ a → t.rd b = s.rd b) ∧ SameMemory s t ∧
            ∀ k < 32, (t.rd a).getLsbD k = ((s.rd a).getLsbD k && !natBit c.rc k))) ∧
        (snapMember c.id = true → ∀ h w, s.holderOf m = some h → tabFind s.held (heldKey h a) = some w →
          exec (.readClear m addr) s = .next (s.answered (answer w)))) ∧
      (∀ c i j, cardAt a = some (c, i, j) → s.regHidden c i = false → snapGroup c.id i ≠ [] →
        Completes (.snapshotCapture m addr) s (fun t => t.answer = answer (s.regNow a) ∧ SameMemory s t ∧
          ∀ h, s.holderOf m = some h → ∀ b ∈ snapGroup c.id i, tabFind t.held (heldKey h b) =
            some (if c.id = .MOT_IAB ∧ b = R.MOT_STATE i then (s.motor i).tickState else s.regNow b)))) ∧
    (s.mayReg m R.MEM_ELOG0 Needs.read → exec (.elogRead m false) s = .next ((s.wr R.MEM_ELOG1 s.elogHi).answered (answer (s.regNow R.MEM_ELOG0)))) ∧
    (s.mayReg m R.MEM_MFAIL0 Needs.read → exec (.elogRead m true) s = .next ((s.wr R.MEM_MFAIL1 s.mfailHi).answered (answer (s.regNow R.MEM_MFAIL0))))

/-- R27, R28, R381, R382, R420: with debug access closed the debug port reaches the SEC registers alone; open, it reads and
writes words of memory. BAR2 reaches memory through its windows, BAR0 the registers as a register access does, and reads 0 and
ignores writes above them; with BOOTSEL = 11 the host port does nothing. -/
def Obligations.PortAccessResults : Prop :=
  ∀ (s : State),
    (∀ w (addr : BitVec 40) data, s.flag F.SEC_LC_dbg = false → ¬(0x40100000 ≤ addr.toNat ∧ addr.toNat < 0x40110000) →
      exec (.debugPortAccess w addr data) s = .next (s.answered .error)) ∧
    (∀ (addr : BitVec 40) data, s.flag F.SEC_LC_dbg = true → s.usable 52 Needs.read addr.toNat →
      exec (.debugPortAccess false addr data) s = .next (s.answered (.data (s.rdBytes addr.toNat 4)))) ∧
    (∀ (addr : BitVec 40) data, s.flag F.SEC_LC_dbg = true → s.usable 52 Needs.write addr.toNat →
      Completes (.debugPortAccess true addr data) s (fun t => t.answer = .done ∧ t.regs = s.regs ∧ t.seqs = s.seqs ∧
        ∀ x, t.rdByte x = if addr.toNat ≤ x ∧ x < addr.toNat + 4 then (leBytes 4 data.toNat).getD (x - addr.toNat) 0 else s.rdByte x)) ∧
    (∀ (addr : W32) (bs : List W8), let f := s.get (F.PCIE_WIN_base (addr.toNat / 2 ^ 28 % 16)) * 2 ^ 28 + addr.toNat % 2 ^ 28
      s.hostShut = false → (s.winAddr addr.toNat).2 = true → 0 < bs.length → addr.toNat % 4096 + bs.length ≤ 4096 → s.sound f bs.length →
      (s.memCheck 51 f bs.length (if partialWord f bs.length then Needs.both else Needs.write) = none →
        Completes (.pcieMemWrite true addr bs) s (fun t => t.answer = .done ∧ t.regs = s.regs ∧ t.seqs = s.seqs ∧
          ∀ x, t.rdByte x = if f ≤ x ∧ x < f + bs.length then bs.getD (x - f) 0 else s.rdByte x)) ∧
      (s.memCheck 51 f bs.length Needs.read = none → bs.length < 4097 →
        exec (.pcieMemRead true addr (BitVec.ofNat 13 bs.length)) s = .next (s.answered (.data (s.rdBytes f bs.length))))) ∧
    (∀ (addr : W32) (b0 b1 b2 b3 : W8), addr.toNat < 0x01000000 → addr.toNat % 4 = 0 → s.hostShut = false →
      (∃ t, exec (.registerWrite .host (0x40000000 + addr) (b3 ++ b2 ++ b1 ++ b0)) s = .next t ∧
        exec (.pcieMemWrite false addr [b0, b1, b2, b3]) s = .next (t.answered .done)) ∧
      exec (.pcieMemRead false addr 4) s = exec (.readClear .host (0x40000000 + addr)) s) ∧
    (∀ (addr : W32) (bs : List W8), s.hostShut = false → 0x01000000 ≤ addr.toNat → bs.length < 4097 →
      exec (.pcieMemWrite false addr bs) s = .next (s.answered .done) ∧
      exec (.pcieMemRead false addr (BitVec.ofNat 13 bs.length)) s = .next (s.answered (.data (List.replicate bs.length 0)))) ∧
    (∀ (bar2 : Bool) (addr : W32) (bs : List W8) (n : BitVec 13), s.hostShut = true →
      exec (.pcieMemWrite bar2 addr bs) s = .next s ∧ exec (.pcieMemRead bar2 addr n) s = .next s)

/-- R380, R383 to R385: a doorbell sends its vector's message, or leaves it pending while it is masked; unmasking a pending
vector, by its own bit or by Function Mask, sends it once. PERST_N or link-down resets the host port's registers and posts; link-up records speed and width. -/
def Obligations.HostPortResults : Prop :=
  ∀ (s : State),
    (∀ value : W32, let v := value.toNat % 64
      let masked := s.msixFnMask = true ∨ (s.rd (R.PCIE_MSIX v 3)).getLsbD 0 = true
      (masked → Completes (.pcieDoorbell value) s (fun t => (t.rd (R.PCIE_PBA (v / 32))).getLsbD (v % 32) = true ∧ t.msixSent = s.msixSent)) ∧
      (¬masked → Completes (.pcieDoorbell value) s (fun t => tabGet 0 t.msixSent v = tabGet 0 s.msixSent v + 1 ∧ t.regs = s.regs))) ∧
    (∀ v : Fin 64, let pending := (s.rd (R.PCIE_PBA (v / 32))).getLsbD (v % 32) = true
      (pending ∧ s.msixFnMask = false → Completes (.msixUnmask (.vector v)) s (fun t => (t.rd (R.PCIE_MSIX v 3)).getLsbD 0 = false ∧
        (t.rd (R.PCIE_PBA (v / 32))).getLsbD (v % 32) = false ∧ tabGet 0 t.msixSent v = tabGet 0 s.msixSent v + 1)) ∧
      (¬pending ∨ s.msixFnMask = true → Completes (.msixUnmask (.vector v)) s (fun t => (t.rd (R.PCIE_MSIX v 3)).getLsbD 0 = false ∧
        t.msixSent = s.msixSent ∧ ∀ k, t.rd (R.PCIE_PBA k) = s.rd (R.PCIE_PBA k)))) ∧
    (∀ masked : Bool, Completes (.msixUnmask (.function masked)) s (fun t => t.msixFnMask = masked ∧ SameMemory s t ∧
      ∀ v : Fin 64, let pending := (s.rd (R.PCIE_PBA (v / 32))).getLsbD (v % 32)
        let goes := pending && !masked && !(s.rd (R.PCIE_MSIX v 3)).getLsbD 0
        (t.rd (R.PCIE_PBA (v / 32))).getLsbD (v % 32) = (pending && !goes) ∧
        tabGet 0 t.msixSent v = tabGet 0 s.msixSent v + (if goes then 1 else 0))) ∧
    (s.room 106 = true → Completes .perst s (fun t => t.msixFnMask = false ∧ HoldsEvent 106 0x491 0 t ∧ SameMemory s t ∧
      (∀ a, 0x400E0000 ≤ a → a < 0x400F0000 → a ≠ R.PCIE_STAT → ¬(0x400E9000 ≤ a ∧ a < 0x400E9010) → t.rd a = resetValue a))) ∧
    (∀ (speed : Fin 4) (width : LinkWidth), let gen := speed.val + 1
      let lanes := match width with
        | .x1 => 1
        | .x2 => 2
        | .x4 => 4
      s.bit F.PCIE_STAT_flags 0 = false → s.room 106 = true →
      Completes (.pcieLinkUp speed width) s (fun t => t.get F.PCIE_STAT_up = 1 ∧ t.get F.PCIE_STAT_speed = gen ∧
        t.get F.PCIE_STAT_width = lanes ∧ HoldsEvent 106 0x490 (gen * 16 + lanes) t ∧ SameMemory s t))

/-- R93, R95, R101, R102, R105, R106, R110 to R112: on a quadrature input with one axis a forward transition of A and B counts up,
a reverse one down, a change of both levels counts as illegal and moves no count; handovers of a step-paced axis and carries of a
virtual one count likewise; an index captures the count; a position load sets count and sills unless a bar can fire. -/
def Obligations.PositionInputResults : Prop :=
  ∀ (n : Fin 8) (s : State), (s.axis n).valid = true →
    let inv := s.flag (F.AX_CFG_dir_inv n)
    (∀ (qe : Fin 8) (a b : Bool), s.usesQuad n qe → s.get (F.AX_CFG_src n) = 1 → (∀ k < 8, k ≠ n.val → ¬s.usesQuad k qe) →
      let l := s.get (F.QE_CFG_lvl qe)
      let move := (natBit l 0, natBit l 1, a, b)
      let fwd := [(false, false, true, false), (true, false, true, true), (true, true, false, true), (false, true, false, false)]
      let back := [(false, false, false, true), (true, false, false, false), (true, true, true, false), (false, true, true, true)]
      let d : Int := if decide (move ∈ fwd) != inv then 1 else -1
      let te := s.uptime - (3 * 2 ^ s.get (F.QE_CFG_filt qe) - 1)
      let out := if d < 0 then ((s.axis n).sillF - countPos ((s.axis n).a.count - 1)).toInt else (countPos ((s.axis n).a.count + 1) - (s.axis n).sillR).toInt
      (move ∈ fwd ∨ move ∈ back → ((s.axis n).a.rev = decide (d < 0) ∨ out ≤ s.get (F.AX_CFG_eddy n) * 256) →
        Completes (.quadEdge qe a b) s (fun t => Counts n d te s t ∧ SameMemory s t)) ∧
      (a ≠ natBit l 0 → b ≠ natBit l 1 → s.get (F.AX_CFG_qerr_max n) = 0 →
        Completes (.quadEdge qe a b) s (fun t => t.axis n = { s.axis n with a := { (s.axis n).a with illegal := (s.axis n).a.illegal + 1 } } ∧
          t.get (F.AX_ERRCNT_err_cnt n) = min (s.get (F.AX_ERRCNT_err_cnt n) + 1) 65535 ∧ (t.rd (R.AX_STAT n)).getLsbD 6 = true ∧ SameMemory s t))) ∧
    (∀ qe : Fin 8, (s.get (F.AX_CFG_src n) = 1 ∨ s.get (F.AX_CFG_src n) = 5) → s.get (F.AX_CFG_sel_a n) = qe →
      (∀ k < 8, k ≠ n.val → (s.axis k).valid = false ∨ s.get (F.AX_CFG_sel_a k) ≠ qe) → s.flag (F.AX_ZCTL_zqual_en n) = false →
      s.get (F.AX_ZCTL_zmode n) = 1 → natBit (s.get (F.QE_CFG_lvl qe)) 2 = s.flag (F.QE_CFG_zinv qe) →
      Completes (.zIndex qe (!s.flag (F.QE_CFG_zinv qe))) s (fun t => t.axis n = { s.axis n with zcap := (s.axis n).a.count } ∧
        (t.rd (R.AX_STAT n)).getLsbD 9 = true ∧ SameMemory s t)) ∧
    (∀ rev, let k := if rev then (s.axis n).revPulses else (s.axis n).fwdPulses
      s.flag (F.AX_CFG_en n) = true → s.get (F.AX_CFG_src n) = 3 → 0 < k →
      Completes (.microstepHandover n rev) s (fun t => Counts n (if rev != inv then -(k : Int) else k) s.uptime s t ∧
        (if rev then (t.axis n).revPulses else (t.axis n).fwdPulses) = 0)) ∧
    (∀ borrow, s.flag (F.AX_CFG_en n) = true → s.get (F.AX_CFG_src n) = 4 → s.flag F.PTP_STAT_stat = true →
      Completes (.virtualCarry n borrow) s (Counts n (if borrow then -1 else 1) s.uptime s)) ∧
    (∀ v : W32, s.axisCanFire n = false → Completes (.positionLoad n v) s (fun t => (t.axis n).a.count = v ∧ (t.axis n).sillF = countPos v ∧
      (t.axis n).sillR = countPos v ∧ (t.axis n).b.count - (s.axis n).b.count = v - (s.axis n).a.count ∧ (t.axis n).epoch = (s.axis n).epoch)) ∧
    (∀ v : W32, s.axisCanFire n = true → Completes (.positionLoad n v) s (fun t => t.axes = s.axes ∧ (t.rd (R.AX_STAT n)).getLsbD 10 = true ∧ SameMemory s t)) ∧
    (∀ v : W32, Completes (.zArm n v) s (fun t => t = s.wr (R.AX_ZCTL n) (t.rd (R.AX_ZCTL n)) ∧ t.get (F.AX_ZCTL_arm n) = 1 ∧
      t.get (F.AX_ZCTL_zmode n) = (v.extractLsb' 0 2).toNat))

/-- R88, R90, R102 to R104, R115, R118, R121, R127, R128: enabling an axis clears its counters and leads to ACQUIRE, LULL or OFF by
its source, disabling to OFF; while it is enabled a write that changes another field is ignored and flagged; a lull, once its time
has passed, stops the speed; the virtual increment follows the clamped rate; an encoder output, its spacing elapsed, steps through the quadrature sequence. -/
def Obligations.AxisConfigResults : Prop :=
  ∀ (n : Fin 8) (v : W32) (s : State),
    let a := s.axis n
    let old := s.rd (R.AX_CFG n)
    let fixed := (v ^^^ old) &&& 0x077F0003
    let src := (v.extractLsb' 16 4).toNat
    let tmin := (max 1 (s.get (F.AX_LULL_min_us n)) * 390625 + 999) / 1000
    let ms := s.get (F.AX_LULL_max_ms n)
    let tmax := (if ms = 0 ∨ 1000 < ms then 1000 else ms) * 390625
    let lull := fun (m : Motion) => match m.hist with
      | x :: y :: _ => min tmax (max tmin (max 1 (s.get (F.AX_LULL_mul n)) * (x.1 - y.1)))
      | _ => tmax
    (s.flag (F.AX_CFG_en n) = false → a.st = .off →
      Completes (.axisEnable n v) s (fun t => t.rd (R.AX_CFG n) = (v &&& 0x877FFFF3) ||| 0x80000000 ∧ t.rd (R.AX_ERRCNT n) = 0 ∧
        (t.axis n).st = (if src = 2 then .acquire else if 6 ≤ src then .off else .lull) ∧ (t.axis n).a.count = a.a.count ∧
        (t.axis n).b.count = a.a.count ∧ (t.axis n).a.illegal = 0 ∧ (t.axis n).skew = 0 ∧ (t.axis n).vacc = 0x800000000000 ∧
        (∀ k < 8, k ≠ n.val → t.axis k = s.axis k) ∧ SameMemory s t) ∧
      Completes (.axisCfgWrite n v) s (fun t => t = s.wr (R.AX_CFG n) (v &&& 0x077FFFF3))) ∧
    (s.flag (F.AX_CFG_en n) = true → fixed = 0 →
      Completes (.axisDisable n v) s (fun t => t.axis n = { a with st := .off, a := { a.a with spdValid := false, moving := false, hist := [] } } ∧
        ∀ k < 8, k ≠ n.val → t.axis k = s.axis k) ∧
      exec (.axisCfgWrite n v) s = .next (s.wr (R.AX_CFG n) ((v &&& 0x877FFFF3) ||| 0x80000000))) ∧
    (s.flag (F.AX_CFG_en n) = true → fixed ≠ 0 → ∀ c ∈ [Instr.axisEnable n v, .axisDisable n v, .axisCfgWrite n v],
      Completes c s (fun t => t.axes = s.axes ∧ t.rd (R.AX_CFG n) = old ∧ (t.rd (R.AX_STAT n)).getLsbD 11 = true ∧ SameMemory s t)) ∧
    (a.st = .moving → a.a.te + lull a.a ≤ s.uptime → Completes (.lullDeclared n false) s (fun t => (t.axis n).st = .lull ∧
      (t.axis n).a = { a.a with spdValid := true, moving := false, hist := [] } ∧ (t.axis n).sillF = a.sillF ∧ (t.axis n).sillR = a.sillR)) ∧
    (s.uptime < a.a.te + lull a.a → exec (.lullDeclared n false) s = .next s) ∧
    (s.isFused n = true → a.b.moving = true → a.b.te + lull a.b ≤ s.uptime → Completes (.lullDeclared n true) s (fun t => (t.axis n).st = a.st ∧ (t.axis n).a = a.a ∧
      (t.axis n).b = { a.b with spdValid := true, moving := false, hist := [] } ∧ SameMemory s t)) ∧
    (s.get (F.AX_CFG_src n) = 4 → s.flag F.PTP_STAT_stat = true →
      let rate := max (-12800000) (min 12800000 (s.rd (R.AX_VRATE n)).toInt)
      let num := (if s.flag (F.AX_CFG_dir_inv n) then -rate else rate) * 2 ^ 50
      let den : Int := 1000 * (if s.get F.PTP_RATIO_ratio = 0 then 400000 else s.get F.PTP_RATIO_ratio)
      Completes (.vrateUpdate n) s (fun t => t.axis n = { a with vinc := (t.axis n).vinc } ∧ num - den < (t.axis n).vinc * den ∧
        (t.axis n).vinc * den < num + den ∧ t.regs = s.regs)) ∧
    (∀ i : Fin 2, let o := s.encOut i
      let fwd := [(false, false, true, false), (true, false, true, true), (true, true, false, true), (false, true, false, false)]
      ((∃ u, o.lastStep = some u ∧ s.uptime < u + max 39 (s.get (F.EO_CFG_sp i))) → exec (.eoStep i) s = .next s) ∧
      (s.flag (F.EO_CFG_en i) = true → o.pend ≠ 0 → (∀ u, o.lastStep = some u → u + max 39 (s.get (F.EO_CFG_sp i)) ≤ s.uptime) →
        Completes (.eoStep i) s (fun t => let p := t.encOut i
        p.lastStep = some s.uptime ∧
        p.pend = o.pend - o.pend.sign ∧ p.acc = o.acc ∧ t.rd (R.EO_POS i) = s.rd (R.EO_POS i) + BitVec.ofInt 32 o.pend.sign ∧
        (if decide (0 < o.pend) != s.flag (F.EO_CFG_inv i) then (o.levelA, o.levelB, p.levelA, p.levelB) ∈ fwd
          else (p.levelA, p.levelB, o.levelA, o.levelB) ∈ fwd) ∧ SameMemory s t)) ∧
      (let m := v.toNat % 2 ^ 16
        let d := v.toNat / 2 ^ 16
        exec (.eoCfgWrite i true v) s = .next (if m = 0 ∨ d = 0 ∨ d < m ∨ (s.flag (F.EO_CFG_en i) = true ∧ v ≠ s.rd (R.EO_RATIO i))
          then s.set (F.EO_STAT_cfg_err i) 1 else s.wr (R.EO_RATIO i) v)) ∧
      (s.flag (F.EO_CFG_en i) = false → v.getLsbD 31 = true → Completes (.eoCfgWrite i false v) s (fun t => t.encOut i = {} ∧
        t.rd (R.EO_POS i) = 0 ∧ t.rd (R.EO_CFG i) = v &&& 0x870103FF)) ∧
      (s.flag (F.EO_CFG_en i) = true → exec (.eoCfgWrite i false v) s = .next (if (v.extractLsb' 24 3).toNat = s.get (F.EO_CFG_axis i)
        then s.wr (R.EO_CFG i) (v &&& 0x870103FF) else s.set (F.EO_STAT_cfg_err i) 1))) ∧
    (∀ k : Fin 192, natBit s.lanesOff (k / 8) = false → exec (.tileWeightWrite k v) s = .next (s.wr (R.AXIS_TILEW k) v))

/-- R96 to R100, R103: a serial frame starts unless one runs or SLO is low for SSI; a frame that fails counts, flags its cause and at
the third in a row loses its axes, nW = 0 warns in every one; a good one reports its raw value, the first makes its axis valid, later ones count. -/
def Obligations.SerialFrameResults : Prop :=
  ∀ (n : Fin 2) (s : State),
    let proto := s.get (F.SE_CFG_proto n)
    let bits := max 7 (s.get (F.SE_CFG_bits n)) + 1
    let fails := fun (b : Nat) (t : State) => (t.serial n).running = false ∧
      (s.get (F.SE_MEAS_consec n) < 2 → t.get (F.SE_MEAS_consec n) = s.get (F.SE_MEAS_consec n) + 1 ∧ (t.rd (R.SE_STAT n)).getLsbD b = true ∧
        ∀ k ∈ s.serialAxes n, t.axis k = s.axis k ∧ (t.rd (R.AX_STAT k)).getLsbD 6 = true ∧
          t.get (F.AX_ERRCNT_err_cnt k) = min (s.get (F.AX_ERRCNT_err_cnt k) + 1) 65535) ∧
      (2 ≤ s.get (F.SE_MEAS_consec n) → ∀ k ∈ s.serialAxes n, (s.axis k).valid = true ∨ (s.axis k).st = .acquire →
        (t.axis k).st = .lost ∧ (t.axis k).a.count = (s.axis k).a.count)
    ((s.serial n).running = true → ∀ slo, exec (.seFrameStart n slo) s = .next (s.set (F.SE_STAT_skip n) 1)) ∧
    ((s.serial n).running = false → ∀ slo, (proto ≤ 1 ∧ slo = false → Completes (.seFrameStart n slo) s (fails 1)) ∧
      (2 ≤ proto ∨ slo = true → Completes (.seFrameStart n slo) s (fun t => t.serial n = ⟨true, s.uptime + s.get (F.SE_TIM_lat n)⟩ ∧ t.regs = s.regs))) ∧
    ((s.serial n).running = true → Completes (.seTimeout n) s (fails 5)) ∧
    (∀ f : SerialFrame, (s.serial n).running = true →
      let data := f.data.toNat % 2 ^ bits
      let par := s.get (F.SE_CFG_par n)
      let odd := decide (((List.range bits).filter data.testBit).length % 2 = 1)
      let parBad := proto ≤ 1 ∧ (par = 1 ∧ f.parity ≠ odd ∨ par = 2 ∧ f.parity = odd)
      let crcBad := proto = 2 ∧ f.crc.toNat ≠ 63 - crc6 ((List.range bits).reverse.map data.testBit ++ [f.nE, f.nW]) 0
      let raw := if proto = 1 then grayToBinary bits data 0 else data
      let drop := s.get (F.SE_CFG_drop n)
      let r := raw / 2 ^ drop
      let w := bits - drop
      (proto = 2 → f.nW = false → Completes (.seFrameEnd n f) s (fun t => t.get (F.SE_STAT_warn n) = 1 ∧
        ∀ k ∈ s.serialAxes n, (t.rd (R.AX_STAT k)).getLsbD 7 = true)) ∧
      (proto = 3 → Completes (.seFrameEnd n f) s (fails 5)) ∧
      (parBad → Completes (.seFrameEnd n f) s (fails 2)) ∧
      (crcBad → Completes (.seFrameEnd n f) s (fails 3)) ∧
      (proto = 2 → ¬crcBad → f.nE = false → Completes (.seFrameEnd n f) s (fails 4)) ∧
      (proto ≤ 2 → ¬parBad → ¬crcBad → (proto = 2 → f.nE = true ∧ f.nW = true) → ∀ k, s.serialAxes n = [k] →
        ((s.axis k).rPrev = none → (s.axis k).st = .acquire → Completes (.seFrameEnd n f) s (fun t => (t.axis k).st = .lull ∧
          (t.axis k).rPrev = some r ∧ (t.axis k).a.count = (s.axis k).a.count ∧ t.rd (R.SE_RAW n) = w32 raw ∧ t.get (F.SE_MEAS_consec n) = 0 ∧
          (t.serial n).running = false)) ∧
        (∀ p, (s.axis k).rPrev = some p → (s.axis k).valid = true →
          let d0 := ((r : Int) - p) % 2 ^ w
          let d := if 2 ^ w ≤ 2 * d0 then d0 - 2 ^ w else d0
          (d ≠ 0 → s.get (F.SE_LIM_jlim n) = 0 ∨ d.natAbs ≤ s.get (F.SE_LIM_jlim n) → Completes (.seFrameEnd n f) s (fun t =>
            Counts k (if s.flag (F.AX_CFG_dir_inv k) then -d else d) (s.serial n).latch s t ∧ (t.axis k).rPrev = some r)) ∧
          (s.get (F.SE_LIM_jlim n) ≠ 0 → s.get (F.SE_LIM_jlim n) < d.natAbs → Completes (.seFrameEnd n f) s (fails 6)))))

/-- R39, R136, R143 to R147, R200, R201, R236: a ready line leaves for its tile, on a lane in OPEN twice, and its slot becomes
sent; at its commit point a tile's outcome
becomes drops if its data was acknowledged, else blank, late or undelivered; as the sill reaches the stamp the tiles that fire
share one strobe, the others a blank one, both are counted, and the entry retires; the governor blanks a line at limit 0. -/
def Obligations.FireSchedulingResults : Prop :=
  ∀ (lane : Fin 24) (s : State), let l := s.lane lane
    (∀ (i : Fin 64) (p : Fin 16) (e : Entry), l.queue[i.val]? = some e →
      let hd := slotHeader lane p e.tag
      let word := s.wordAt hd
      let bits := if word.getLsbD 24 then 3 else 2
      let idle := natBit e.sent p = false ∧ natBit e.dead p = false ∧ natBit e.blank p = false ∧ natBit e.passed p = false
      let seen := ∀ u, tabFind l.slotTimes (p * 16 + e.tag % 16) = some u → u + 4 ≤ s.uptime
      let inOpen := decide (s.get (F.LANE_STATE_state lane) = 7)
      natBit e.mask p = true → idle → s.get (F.LANE_STATE_state lane) = 5 ∨ inOpen = true → e.tag < 256 → s.sound hd 4 →
      (seen → word.extractLsb' 30 2 = 1 → word.extractLsb' 16 8 = BitVec.ofNat 8 e.tag →
        (l.queue.filter (fun x => natBit x.sent p && !natBit x.passed p)).length < 4 →
        (∀ x ∈ l.queue.take i, natBit x.mask p = true → natBit x.sent p = true) → s.sound (slotAddr lane p e.tag) (256 * bits) →
        Completes (.dataSend lane i p []) s (fun t =>
          let x := transomOut 1 p e.tag (bits - 2) (t.rdBytes (slotAddr lane p e.tag) (256 * bits))
          (t.lane lane).queue[i.val]? =
            some { e with sent := natSetBit e.sent p true, acked := if inOpen then natSetBit e.acked p true else e.acked } ∧
          (t.lane lane).txs = (if inOpen then l.txs else l.txs ++ [⟨p, false, e.tag, 0, false, x⟩]) ∧
          (t.lane lane).out = l.out ++ (if inOpen then [x, x] else [x]) ∧ t.wordAt hd = (word &&& 0x3FFFFFFF) ||| 0x80000000 ∧
          (s.flag (F.HEALTH_GOV_CFG_en lane) = false → ∀ x, ¬(hd ≤ x ∧ x < hd + 4) → t.rdByte x = s.rdByte x) ∧
          (s.flag (F.HEALTH_GOV_CFG_en lane) = true → s.get (F.HEALTH_GOV_CFG_dmax lane) = 0 →
            ∀ k < 256 * bits, t.rdByte (slotAddr lane p e.tag + k) = 0))) ∧
      (¬seen ∨ word.extractLsb' 30 2 ≠ 1 ∨ word.extractLsb' 16 8 ≠ BitVec.ofNat 8 e.tag → exec (.dataSend lane i p []) s = .next s)) ∧
    (∀ e, l.queue = [e] → let n := s.get (F.BAR_CFG_axis e.bar)
      let a := s.axis n
      let v := max (if a.valid && a.a.spdValid then (a.a.speed).natAbs else 0) (s.get (F.BAR_VFLOOR_v e.bar))
      let dist := max 2000 (s.get (F.LANE_COMMIT_lead_ns lane)) * v / 1000000
      let point := if e.rev then e.stamp + w32 dist else e.stamp - w32 dist
      let open_ := fun (p : Nat) => natBit e.mask p && !natBit e.drops p && !natBit e.blank p && !natBit e.passed p
      let due := fun (p : Nat) => e.ahead && open_ p && atOrBeyond e.rev (s.tileSill n (lane * 16 + p) e.rev) point
      let seen := fun (p : Nat) => (tabFind l.slotTimes (p * 16 + e.tag % 16)).all (fun u => decide (u + 4 ≤ s.uptime))
      let filled := fun (p : Nat) => natBit e.sent p || natBit e.dead p || (seen p && (s.wordAt (slotHeader lane p e.tag)).extractLsb' 30 2 == 1 &&
        (s.wordAt (slotHeader lane p e.tag)).extractLsb' 16 8 == BitVec.ofNat 8 e.tag)
      let good := fun (p : Nat) => filled p && natBit e.acked p && (s.get (F.LANE_STATE_state lane) == 5 || s.get (F.LANE_STATE_state lane) == 7)
      let late := ((List.range 16).filter (fun p => due p && !filled p)).length
      let undelivered := ((List.range 16).filter (fun p => due p && filled p && !good p)).length
      e.tag < 256 → e.bar < 8 → (∀ p < 16, s.sound (slotHeader lane p e.tag) 4) → Completes (.commitPoint lane) s (fun t => let f := (t.lane lane).queue.headD e
        (t.lane lane).queue = [{ e with drops := f.drops, blank := f.blank }] ∧
        (∀ p < 16, natBit e.mask p = true → natBit e.drops p = false → natBit e.blank p = false →
          natBit f.drops p = (due p && good p) ∧ natBit f.blank p = (due p && !good p)) ∧
        t.get (F.LANE_LATE_count lane) = min (s.get (F.LANE_LATE_count lane) + late) 0xFFFFFFFF ∧
        t.get (F.LANE_UNDELIV_count lane) = min (s.get (F.LANE_UNDELIV_count lane) + undelivered) 0xFFFFFFFF ∧
        (0 < late → (t.rd (R.LANE_SCHSTAT lane)).getLsbD 0 = true) ∧ (0 < undelivered → (t.rd (R.LANE_SCHSTAT lane)).getLsbD 1 = true) ∧ SameMemory s t)) ∧
    (∀ e, l.queue = [e] → let n := s.get (F.BAR_CFG_axis e.bar)
      let a := s.axis n
      e.ahead = true → e.passed = 0 → e.mask < 65536 → e.drops &&& e.blank = 0 → e.drops ||| e.blank = e.mask → e.mask ≠ 0 →
      s.isFused n = false → s.get (F.LANE_STATE_state lane) = 5 →
      let passes := atOrBeyond e.rev (stampOf (if e.rev then a.sillR else a.sillF)) e.stamp
      let shut := fun (p : Nat) => s.isClosed .global || s.isClosed (.bar e.bar) || s.isClosed (.tile (lane * 16 + p))
      let fire := (List.range 16).filter (fun p => natBit e.drops p && !shut p)
      let blank := (List.range 16).filter (fun p => natBit e.mask p && !(natBit e.drops p && !shut p))
      let setOf := fun (ps : List Nat) => (ps.map (fun p => 2 ^ p)).sum
      ∀ (phase : BitVec 6) (slips : List (BitVec 4)),
      (passes = false → Completes (.stampPass lane phase slips) s (fun t => (t.lane lane).queue = [e] ∧ (t.lane lane).sets = l.sets)) ∧
      (passes = true → Completes (.stampPass lane phase slips) s (fun t => (t.lane lane).queue = [] ∧
        (l.txs = [] → (t.lane lane).out = l.out ++ ((t.lane lane).sets.drop l.sets.length).map SentSet.out) ∧
        ((t.lane lane).sets = l.sets ++ (t.lane lane).sets.drop l.sets.length) ∧
        ((t.lane lane).sets.drop l.sets.length).length = (if fire = [] then 0 else 1) + (if blank = [] then 0 else 1) ∧
        (∀ x ∈ (t.lane lane).sets.drop l.sets.length, let y := x.asStrobe
          x = .strobe y ∧ y.tag = e.tag ∧ y.rev = e.rev ∧ y.mask = setOf (if y.blank then blank else fire) ∧ (y.blank = true → y.fine = 0)) ∧
        t.get (F.LANE_STROBES_count lane) = min (s.get (F.LANE_STROBES_count lane) + fire.length) 0xFFFFFFFF ∧
        t.get (F.LANE_BLANKS_count lane) = min (s.get (F.LANE_BLANKS_count lane) + blank.length) 0xFFFFFFFF)))

/-- R130, R131, R150, R151, R154, R156: enabling a lane's schedule clears its counters, disabling or flushing it cancels every entry;
a bar is enabled with a pitch and tiles, sends its row phases and becomes ready, and is disabled with its entries cancelled; tiles
of an enabled bar and the equalisation time of running lanes do not change. -/
def Obligations.FireConfigResults : Prop :=
  (∀ (lane : Fin 24) (v : W32) (s : State), natBit s.lanesOff lane = false →
    Completes (.schedDisable lane v) s (fun t => (t.lane lane).queue = [] ∧ t.rd (R.LANE_SCHED lane) = 0 ∧ ∀ j, j ≠ lane.val → t.lane j = s.lane j) ∧
    Completes (.schedFlush lane v) s (fun t => (t.lane lane).queue = [] ∧ t.rd (R.LANE_SCHED lane) = v &&& 0x80000000 ∧
      ∀ j, j ≠ lane.val → t.lane j = s.lane j) ∧
    (v.getLsbD 1 = false → Completes (.schedEnable lane v) s (fun t => t.lanes = s.lanes ∧ t.rd (R.LANE_SCHED lane) = 0x80000000 ∧ SameMemory s t ∧
      ∀ r ∈ [R.LANE_STROBES lane, R.LANE_BLANKS lane, R.LANE_LATE lane, R.LANE_UNDELIV lane, R.LANE_MISSED lane, R.LANE_SLIP lane, R.LANE_UNCONF lane],
        t.rd r = if s.flag (F.LANE_SCHED_en lane) then s.rd r else 0))) ∧
  (∀ (b : Fin 8) (v : W32) (s : State), let axis := (v.extractLsb' 24 3).toNat
    (s.flag (F.BAR_CFG_en b) = false →
      (s.get (F.BAR_PITCH_pitch b) = 0 ∨ s.barTiles b = [] → exec (.barEnable b v) s = .next (s.set (F.BAR_STAT_cfg_err b) 1)) ∧
      (s.get (F.BAR_PITCH_pitch b) ≠ 0 → s.barTiles b ≠ [] → Completes (.barEnable b v) s (fun t => t.rd (R.BAR_CFG b) = (v &&& 0x07000000) ||| 0x80000000 ∧
        t.get (F.BAR_LATE_late b) = 0 ∧ SameMemory s t ∧
        (∀ k ∈ s.barTiles b, s.get (F.LANE_STATE_state (k / 16)) = 5 → natBit (s.get (F.LANE_PRES_link (k / 16))) (k % 16) = true →
          s.bit (F.LANE_EXCL_excl (k / 16)) (k % 16) = false → ∃ r ∈ (t.lane (k / 16)).mgmt, r.pos = k % 16 ∧ r.op = 1 ∧ r.addr = 8 ∧
            r.data = [s.rowPhases k false, s.rowPhases k true] ∧ r.why = .rowPhase b) ∧
        ((∀ k ∈ s.barTiles b, s.get (F.LANE_STATE_state (k / 16)) ≠ 5) → (∀ l ∈ s.lanes, ∀ r ∈ l.2.mgmt, r.why ≠ .rowPhase b) →
          t.get (F.BAR_STAT_rdy b) = 1)))) ∧
    (s.flag (F.BAR_CFG_en b) = true →
      (axis ≠ s.get (F.BAR_CFG_axis b) → ∀ c ∈ [Instr.barEnable b v, .barDisable b v], exec c s = .next (s.set (F.BAR_STAT_cfg_err b) 1)) ∧
      (axis = s.get (F.BAR_CFG_axis b) → Completes (.barDisable b v) s (fun t => t.rd (R.BAR_CFG b) = v &&& 0x07000000 ∧ t.get (F.BAR_STAT_rdy b) = 0 ∧
        ∀ j, (t.lane j).queue = (s.lane j).queue.filter (fun e => e.bar != b.val))))) ∧
  (∀ (k : Fin 384) (v : W32) (s : State), natBit s.lanesOff (k / 16) = false →
    let old := s.rd (R.FIRE_TILE_CFG k)
    let new := v &&& 0x87000000
    let held := fun (w : W32) => w.getLsbD 31 && s.flag (F.BAR_CFG_en (w.extractLsb' 24 3).toNat)
    (new = old ∨ held old = false ∧ held new = false → Completes (.tileCfgWrite k .cfg v) s (fun t => t.rd (R.FIRE_TILE_CFG k) = new ∧
      natBit (t.lane (k / 16)).breezeDue (k % 16) = true ∧ SameMemory s t)) ∧
    (new ≠ old → held old = true ∨ held new = true → exec (.tileCfgWrite k .cfg v) s =
      .next (s.set (F.BAR_STAT_cfg_err ((if held old then old else new).extractLsb' 24 3).toNat) 1)) ∧
    (let b := s.get (F.FIRE_TILE_CFG_bar k);
      exec (.tileCfgWrite k .row01 v) s = .next (if s.flag (F.FIRE_TILE_CFG_en k) ∧ s.flag (F.BAR_CFG_en b) ∧ v ≠ s.rd (R.FIRE_TILE_ROW01 k)
        then s.set (F.BAR_STAT_cfg_err b) 1 else s.wr (R.FIRE_TILE_ROW01 k) v))) ∧
  (∀ (v : W32) (s : State), let x := (v.extractLsb' 0 13).toNat
    (x = s.get F.FIRE_EQ_teq_ns ∨ (∀ n < 24, s.get (F.LANE_STATE_state n) = 0) → Completes (.teqWrite v) s (fun t => t.get F.FIRE_EQ_teq_ns = x ∧
      t.get F.FIRE_EQ_err = (if v.getLsbD 31 then 0 else s.get F.FIRE_EQ_err) ∧ ∀ a, a ≠ R.FIRE_EQ → t.rd a = s.rd a)) ∧
    (x ≠ s.get F.FIRE_EQ_teq_ns → (∃ n < 24, s.get (F.LANE_STATE_state n) ≠ 0) → exec (.teqWrite v) s = .next (s.set F.FIRE_EQ_err 1)))

/-- R182, R185 to R192, R194, R195, R198, R199, R202: a masked map write merges its bits; a trim push sends each tile its map's
trims; an ECHO is queued once, lost windows counted; the classifier scores 64 entries in one block; its enables, class table, test
and parity error; an optical gate's trigger, window and result FIFO; enabling the governor clears its counts. -/
def Obligations.NozzleHealthResults : Prop :=
  ∀ (s : State),
    (∀ (i : Fin 2) (v : W32), let x := s.get (F.HEALTH_MWIDX_index i)
      let m := s.rd (R.HEALTH_MWMASK i)
      (786431 < x → exec (.maskedMapWrite i v) s = .next (s.set (F.HEALTH_MWSTAT_err i) 1)) ∧
      (x ≤ 786431 → s.sound (4 * x) 4 → Completes (.maskedMapWrite i v) s (fun t => t.wordAt (4 * x) = (s.wordAt (4 * x) &&& ~~~m) ||| (v &&& m) ∧
        t.regs = s.regs ∧ t.seqs = s.seqs ∧ ∀ a, ¬(4 * x ≤ a ∧ a < 4 * x + 4) → t.rdByte a = s.rdByte a))) ∧
    (∀ (lane : Fin 24) (v : W32), natBit s.lanesOff lane = false →
      let half := fun (w : W32) => (w.extractLsb' 24 6).toNat + (w.extractLsb' 19 5).toNat * 64 + (if w.extractLsb' 30 2 = 3 then 2048 else 0)
      let mask := v.toNat % 65536
      (s.flag (F.HEALTH_TPUSH_busy lane) = true → Completes (.trimPush lane v) s (fun t => t.get (F.HEALTH_TPUSH_refused lane) = 1 ∧ t.lanes = s.lanes)) ∧
      (s.flag (F.HEALTH_TPUSH_busy lane) = false → mask ≠ 0 → s.get (F.LANE_STATE_state lane) = 5 → s.cells = [] →
        Completes (.trimPush lane v) s (fun t => t.get (F.HEALTH_TPUSH_busy lane) = 1 ∧ SameMemory s t ∧
          (∀ p < 16, natBit mask p = true → ∃ r ∈ (t.lane lane).mgmt, r.pos = p ∧ r.op = 1 ∧ r.addr = 0x400 ∧ r.why = .trim 0 ∧
            r.data = (List.range 16).map (fun j => let a := ((lane * 16 + p) * 2048 + 2 * j) * 4
              BitVec.ofNat 32 (half (s.wordAt a) + half (s.wordAt (a + 4)) * 65536))))) ∧
      (s.flag (F.HEALTH_TPUSH_busy lane) = false → mask ≠ 0 → s.get (F.LANE_STATE_state lane) < 5 →
        Completes (.trimPush lane v) s (fun t => t.get (F.HEALTH_TPUSH_err lane) = 1 ∧ t.get (F.HEALTH_TPUSH_busy lane) = 0 ∧ t.lanes = s.lanes)) ∧
      ((∀ r ∈ (s.lane lane).mgmt, r.why.isTrim = false) →
        exec (.trimPushDone lane) s = .next (s.set (F.HEALTH_TPUSH_busy lane) 0))) ∧
    (∀ (lane : Fin 24) (pos p : Fin 16) (blocks : List LinkBlock), let k := lane * 16 + p.val
      (echoOf blocks = none → Completes (.echoReceive lane pos blocks) s fun t => t.get (F.LANE_UPERR_count lane) = min (s.get (F.LANE_UPERR_count lane) + 1) 0xFFFFFFFF ∧ t.echoes = s.echoes) ∧
      (∀ m : EchoMsg, echoOf blocks = some (p.val, m) → let last := tabFind (s.tile k).echoSeq m.group.toNat
        (s.classified k = false ∨ last = some m.seq.toNat ∨ s.flag F.HEALTH_ECSTAT_halt = true →
          Completes (.echoReceive lane pos blocks) s (fun t => t.echoes = s.echoes ∧ t.regs = s.regs)) ∧
        (s.classified k = true → s.flag F.HEALTH_ECSTAT_halt = false → last = none →
          Completes (.echoReceive lane pos blocks) s (fun t => t.echoes = s.echoes ++ [(k, m)] ∧ t.regs = s.regs)) ∧
        (∀ q, last = some q → q < 256 → q ≠ m.seq.toNat → s.classified k = true → s.flag F.HEALTH_ECSTAT_halt = false →
          let lost := (m.seq.toNat + 255 - q) % 256
          Completes (.echoReceive lane pos blocks) s (fun t => t.echoes = s.echoes ++ [(k, m)] ∧
            t.get F.HEALTH_ECLOST_count = min (s.get F.HEALTH_ECLOST_count + lost) 0xFFFFFFFF ∧
            (lost ≠ 0 → s.room (24 + lane) = true → t.flag F.HEALTH_ECSTAT_lost = true ∧
              HoldsEvent (24 + lane) 0x361 (p * 2 ^ 28 + m.group.toNat * 2 ^ 23 + lost) t))))) ∧
    (let score := fun (c : ClassRec) (w : W32) (state h0 : Nat) =>
        let z := (max 0 (min 255 ((c.bias + c.w0 * (w.extractLsb' 0 8).toNat + c.w1 * (w.extractLsb' 8 8).toNat + c.w2 * (w.extractLsb' 16 8).toNat +
          c.w3 * (w.extractLsb' 24 8).toNat + 128) / 256))).toNat
        let h := (((h0 : Int) + ((z : Int) - h0) / (2 ^ c.a : Nat)) % 256).toNat
        if w = 0xFFFFFFFF ∨ 2 ≤ state then (state, h0) else if z < c.thMiss ∨ h < c.thMiss then (2, min h z)
          else if state = 0 ∧ h < c.thWeak then (1, h) else if state = 1 ∧ min 255 (c.thWeak + c.hyst) ≤ h then (0, h) else (state, h);
      (s.flag F.HEALTH_ECSTAT_halt = true ∨ s.echoes = [] → exec .classifierUpdate s = .next s) ∧
      (∀ k m rest, s.echoes = (k, m) :: rest → s.flag F.HEALTH_ECSTAT_halt = false → m.words.length = 64 →
        let a := (k * 2048 + 64 * m.group.toNat) * 4
        let c := tabGet {} s.classes (s.tileClass k)
        let after := fun (i : Nat) => score c (m.words.getD i 0) ((s.wordAt (a + 4 * i)).extractLsb' 30 2).toNat ((s.wordAt (a + 4 * i)).extractLsb' 0 8).toNat
        let moved := ((List.range 64).filter (fun i => (after i).1 ≠ ((s.wordAt (a + 4 * i)).extractLsb' 30 2).toNat)).length
        s.sound a 256 → k < 384 → Completes .classifierUpdate s (fun t => t.echoes = rest ∧
          (∀ i < 64, t.wordAt (a + 4 * i) = BitVec.ofNat 2 (after i).1 ++ (s.wordAt (a + 4 * i)).extractLsb' 8 22 ++ BitVec.ofNat 8 (after i).2) ∧
          (∀ x, ¬(a ≤ x ∧ x < a + 256) → t.rdByte x = s.rdByte x) ∧
          t.get F.HEALTH_ECTRANS_count = min (s.get F.HEALTH_ECTRANS_count + moved) 0xFFFFFFFF)) ∧
      (∀ v : W32, let r := score (tabGet {} s.classes (v.extractLsb' 20 4).toNat) (s.rd R.HEALTH_ECTESTF) (v.extractLsb' 16 2).toNat (v.extractLsb' 0 8).toNat
        Completes (.echoTest v) s (fun t => t.get F.HEALTH_ECTEST_done = 1 ∧ t.get F.HEALTH_ECTEST_state = r.1 ∧ t.get F.HEALTH_ECTEST_h = r.2 % 256 ∧
          SameMemory s t))) ∧
    (∀ v : W32, let code := (v.extractLsb' 8 3).toNat
      (s.flag F.HEALTH_ECFG_en = false → Completes (.classifierEnable v) s (fun t => t.flag F.HEALTH_ECFG_en = true ∧ t.flag F.HEALTH_ECSTAT_halt = false ∧
        ∀ lane < 24, ∀ p < 16, natBit s.lanesOff lane = false → s.get (F.LANE_STATE_state lane) = 5 → s.runs lane p = true →
          (t.tile (lane * 16 + p)).fireCount = 0 ∧ ∃ r ∈ (t.lane lane).mgmt, r.pos = p ∧ r.op = 1 ∧ r.addr = 4 ∧ r.data = [BitVec.ofNat 32 code])) ∧
      (s.flag F.HEALTH_ECFG_en = true → code ≠ s.get F.HEALTH_ECFG_kcode → ∀ c ∈ [Instr.classifierEnable v, .classifierDisable v, .classTableLoad v],
        exec c s = .next (s.set F.HEALTH_ECSTAT_cfg_err 1)) ∧
      (code = s.get F.HEALTH_ECFG_kcode → Completes (.classifierDisable v) s (fun t => t.flag F.HEALTH_ECFG_en = false ∧ t.echoes = [] ∧
          (∀ k, (t.tile k).echoSeq = []) ∧ SameMemory s t) ∧
        Completes (.classTableLoad v) s (fun t => t.flag F.HEALTH_ECSTAT_wbusy = true))) ∧
    (s.flag F.HEALTH_ECSTAT_wbusy = false → exec .classLoadDone s = .next s) ∧
    (s.flag F.HEALTH_ECSTAT_wbusy = true → s.sound 0x300000 1024 → Completes .classLoadDone s (fun t => t.flag F.HEALTH_ECSTAT_wbusy = false ∧ SameMemory s t ∧
      ∀ c < 16, let w := fun (j : Nat) => s.wordAt (0x300000 + 64 * c + 4 * j)
        let bad := (w 3).getLsbD 7 && decide (((w 3).extractLsb' 24 8).toNat ≤ ((w 3).extractLsb' 16 8).toNat)
        tabGet {} t.classes c =
          { w0 := ((w 0).extractLsb' 0 16).toInt, w1 := ((w 0).extractLsb' 16 16).toInt, w2 := ((w 1).extractLsb' 0 16).toInt,
            w3 := ((w 1).extractLsb' 16 16).toInt, bias := (w 2).toInt, thWeak := ((w 3).extractLsb' 24 8).toNat,
            thMiss := ((w 3).extractLsb' 16 8).toNat, hyst := ((w 3).extractLsb' 8 8).toNat, en := (w 3).getLsbD 7 && !bad,
            a := ((w 3).extractLsb' 0 3).toNat } ∧
        (bad = true → t.flag F.HEALTH_ECSTAT_cls_err = true))) ∧
    (∀ q, s.room 63 = true → Completes (.classifierParityError q) s (fun t => t.echoes = [] ∧ t.flag F.HEALTH_ECSTAT_halt = true ∧
      HoldsEvent 63 0x368 (if q then 1 else 0) t ∧ SameMemory s t)) ∧
    (∀ g : Fin 2, let x := s.gate g
      (∀ tag, s.flag (F.OG_CFG_en g) = false → exec (.ogTrigger g tag) s = .next s) ∧
      (∀ tag, s.flag (F.OG_CFG_en g) = true → x.window = .none → Completes (.ogTrigger g tag) s (fun t => t.regs = s.regs ∧
        t.gate g = { x with window := .delay, tag := tag.toNat, lane := s.get (F.OG_CFG_trig_lane g), pos := s.get (F.OG_CFG_trig_pos g) })) ∧
      (∀ tag, s.flag (F.OG_CFG_en g) = true → x.window = .opened → s.room 109 = true → Completes (.ogTrigger g tag) s (fun t => t.gates = s.gates ∧
        t.get (F.OG_STAT_ovl g) = 1 ∧ HoldsEvent 109 0x371 g t)) ∧
      (∀ base, x.window = .delay → Completes (.ogWindowOpen g base) s (fun t => (t.gate g).window = .opened ∧ t.get (F.OG_BASE_base g) = base.toNat)) ∧
      (∀ cross ext, x.window = .opened → let base := s.get (F.OG_BASE_base g)
        (x.fifo.length < 64 → Completes (.ogWindowClose g cross ext) s (fun t => (t.gate g).window = .none ∧ t.get (F.OG_STAT_level g) = x.fifo.length + 1 ∧
          (t.gate g).fifo = x.fifo ++ [(w32 ((if cross.isSome then 2 ^ 30 else 0) + x.tag % 256 * 2 ^ 16 + x.lane % 32 * 2 ^ 8 + x.pos % 16),
            w32 ((cross.getD 0xFFFFF).toNat * 2 ^ 12 + ((base : Int) - ext.toNat).natAbs))])) ∧
        (64 ≤ x.fifo.length → s.room 109 = true → Completes (.ogWindowClose g cross ext) s (fun t => t.gate g = { x with window := .none } ∧
          t.get (F.OG_STAT_ovf g) = 1 ∧ HoldsEvent 109 0x370 g t))) ∧
      (x.fifo = [] → exec (.ogResultRead g) s = .next { s with answer := .data [0, 0, 0, 0] }) ∧
      (∀ a b rest, x.fifo = (a, b) :: rest → Completes (.ogResultRead g) s (fun t => t.answer = .data (leBytes 4 (a ||| 0x80000000).toNat) ∧
        t.rd (R.OG_RESB g) = b ∧ t.gate g = { x with fifo := rest } ∧ (rest.length < 64 → t.get (F.OG_STAT_level g) = rest.length)))) ∧
    (∀ (lane : Fin 24) (v : W32), natBit s.lanesOff lane = false →
      let was := s.flag (F.HEALTH_GOV_CFG_en lane)
      (was = true ∧ (v.extractLsb' 24 3).toNat ≠ s.get (F.HEALTH_GOV_CFG_wcode lane) ∨ v.getLsbD 31 = false ∧ s.get F.SHUT_MODE_mode = 2 →
        exec (.govEnable lane v) s = .next (s.set (F.HEALTH_GOV_STAT_cfg_err lane) 1)) ∧
      (was = false → v.getLsbD 31 = true → Completes (.govEnable lane v) s (fun t => t.rd (R.HEALTH_GOV_CFG lane) = v &&& 0x87000FFF ∧
        ∀ p < 16, let x := t.tile (lane * 16 + p)
          x.half = 0 ∧ x.prevDrops = [] ∧ x.curDrops = [] ∧ x.prevEnergy = 0 ∧ x.curEnergy = 0)))

/-- R210, R216 to R219, R235 to R239: writes of LANEn_CTL train, retrain, stop or open a lane, or are refused; block lock, the ENUM return and
the delay measurement carry training on; a failure ends in DOWN with its error, or in BROKEN for an automatic retrain; loss of
lock closes the lane's tiles and retrains at most three times a second. -/
def Obligations.LaneTrainingResults : Prop :=
  ∀ (s : State) (lane : Fin 24), natBit s.lanesOff lane = false →
    let st := s.get (F.LANE_STATE_state lane)
    let flag := fun (t : State) b => t.bit (F.LANE_LSTAT_flags lane) b
    let enters := fun (t : State) new err => t.get (F.LANE_STATE_state lane) = new ∧ (err ≠ 0 → t.get (F.LANE_STATE_err lane) = err) ∧
      flag t 0 = true
    let shows := fun (t : State) new err => enters t new err ∧
      (s.room (24 + lane) = true → HoldsEvent (24 + lane) 0x380 (err * 2 ^ 24 + new * 2 ^ 8 + st) t)
    let fails := fun c err => ((s.lane lane).auto = false → Completes c s (fun t => shows t 0 err)) ∧
      ((s.lane lane).auto = true → Completes c s (fun t => enters t 6 err ∧ flag t 2 = true ∧
        ∀ p < 16, natBit (t.get (F.LANE_PRES_link lane)) p = true → natBit (t.tile (lane * 16 + p)).faults 4 = true))
    let down := List.replicate 16 (LinkOut.set (markBlock 3 0))
    (∀ v : W32,
      ((v.extractLsb' 30 1).toNat ≠ s.get (F.LANE_CTL_legacy lane) → st ≠ 0 →
        ∀ c ∈ [Instr.laneEnable lane v, .laneDisable lane v, .laneRetrain lane v, .laneOpen lane v, .legacyWrite lane v],
          exec c s = .next (s.set (F.LANE_LSTAT_cfg_err lane) 1)) ∧
      (v.getLsbD 28 = true → ¬(st = 6 ∧ s.flag (F.LANE_SBCFG_poll lane) = true) →
        ∀ c ∈ [Instr.laneEnable lane v, .laneDisable lane v, .laneRetrain lane v, .laneOpen lane v, .legacyWrite lane v],
          exec c s = .next (s.set (F.LANE_LSTAT_cfg_err lane) 1)) ∧
      (v.getLsbD 28 = false → st = 0 → Completes (.laneEnable lane v) s (fun t => shows t 1 0 ∧
        (t.lane lane).out = (s.lane lane).out ++ down ∧ t.flag (F.LANE_CTL_en lane) = true ∧
        t.get (F.LANE_CTL_legacy lane) = (v.extractLsb' 30 1).toNat ∧ t.get (F.LANE_CTL_auto lane) = (v.extractLsb' 29 1).toNat ∧
        t.get (F.LANE_CTL_retry_max lane) = (v.extractLsb' 24 4).toNat ∧ t.get (F.LANE_CTL_stat_per lane) = (v.extractLsb' 16 8).toNat ∧
        (s.flag (F.LANE_CTL_en lane) = false → ∀ a ∈ [R.LANE_BLKERR lane, R.LANE_RETX lane, R.LANE_SCERR lane, R.LANE_UPERR lane, R.LANE_NOFILL lane,
          R.LANE_STATTO lane], t.rd a = 0))) ∧
      (v.getLsbD 28 = false → st = 0 ∨ (v.extractLsb' 30 1).toNat = s.get (F.LANE_CTL_legacy lane) →
        Completes (.laneDisable lane v) s (fun t => t.flag (F.LANE_CTL_en lane) = false ∧ (st ≠ 0 → shows t 0 0) ∧ t.get (F.LANE_STATE_state lane) = 0 ∧
          (st = 7 → t.flag (F.LANE_CTL_open lane) = false))) ∧
      (v.getLsbD 31 = true → v.getLsbD 28 = false → (v.extractLsb' 30 1).toNat = s.get (F.LANE_CTL_legacy lane) → 5 ≤ st →
        Completes (.laneRetrain lane v) s (fun t => shows t 1 0 ∧ (s.flag (F.LANE_CTL_open lane) = false ∨ st = 7 → t.flag (F.LANE_CTL_open lane) = false))) ∧
      (v.getLsbD 31 = true → v.getLsbD 0 = false → (v.extractLsb' 30 1).toNat = s.get (F.LANE_CTL_legacy lane) → st = 6 →
        s.flag (F.LANE_SBCFG_poll lane) = true → Completes (.laneOpen lane v) s (fun t => shows t 7 0 ∧ t.flag (F.LANE_CTL_open lane) = true ∧
          ∀ p < 16, natBit (s.get (F.LANE_PRES_link lane)) p = true → natBit (t.tile (lane * 16 + p)).faults 4 = false ∧
            (natBit (t.tile (lane * 16 + p)).faults 5 = false ↔ natBit (s.get (F.LANE_OPEN_mask lane)) p = true ∧
              natBit (s.get (F.LANE_SBSTALE_stale lane)) p = false ∧ natBit (s.tile (lane * 16 + p)).sbStatus 0 = true ∧
              max 1 (s.get (F.LANE_SBCFG_per_ms lane)) ≤ 10))) ∧
      (v.getLsbD 31 = false → v.getLsbD 28 = false → st = 0 → Completes (.legacyWrite lane v) s (fun t =>
        t.get (F.LANE_CTL_legacy lane) = (v.extractLsb' 30 1).toNat ∧ t.get (F.LANE_STATE_state lane) = 0))) ∧
    (st = 1 → Completes (.blockLock lane) s (fun t => shows t 2 0 ∧ (t.lane lane).out = (s.lane lane).out ++ [.set (markBlock 0 0)]) ∧ fails (.lockTimeout lane) 1) ∧
    (st ≠ 1 → exec (.blockLock lane) s = .next s ∧ exec (.lockTimeout lane) s = .next s) ∧
    (∀ (mask : W16) (order : Bool), let expect := s.get (F.LANE_RINGCFG_expect lane)
      let wrong := (expect ≠ 0 ∧ mask.toNat ≠ expect) ∨ (s.flag (F.LANE_CTL_legacy lane) = true ∧ 16 ≤ mask.toNat)
      (st ≠ 2 → exec (.enumReturn lane mask order) s = .next s) ∧
      (st = 2 → order = true → fails (.enumReturn lane mask order) 3) ∧
      (st = 2 → order = false → wrong → fails (.enumReturn lane mask order) 4) ∧
      (st = 2 → order = false → ¬wrong → Completes (.enumReturn lane mask order) s (fun t => shows t 3 0 ∧
        (t.lane lane).out = (s.lane lane).out ++ (List.range 64).map (fun k => .set (markBlock 1 k)) ∧
        t.get (F.LANE_PRES_link lane) = mask.toNat))) ∧
    (st ≠ 2 → exec (.enumTimeout lane) s = .next s) ∧
    (st = 2 → ((s.lane lane).enumTries < 2 → exec (.enumTimeout lane) s = .next (s.setLane lane { s.lane lane with
        enumTries := (s.lane lane).enumTries + 1, out := (s.lane lane).out ++ [.set (markBlock 0 0)] })) ∧
      (2 ≤ (s.lane lane).enumTries → fails (.enumTimeout lane) 2)) ∧
    (∀ (first : BitVec 17) (rest : List (BitVec 17)), let u := (first :: rest).map (fun x => x.toNat)
      let spread := u.foldl max 0 - u.foldl min (u.headD 0)
      (st ≠ 3 → exec (.delayDone lane first rest) s = .next s) ∧
      (st = 3 → 2000000 < spread * 82500 → fails (.delayDone lane first rest) 5) ∧
      (st = 3 → spread * 82500 ≤ 2000000 → Completes (.delayDone lane first rest) s (fun t => shows t 4 0 ∧
        20 * u.length * t.get (F.LANE_RINGL_loop lane) ≤ 1650 * u.sum + 10 * u.length ∧
        1650 * u.sum ≤ 20 * u.length * t.get (F.LANE_RINGL_loop lane) + 10 * u.length ∧
        t.get (F.LANE_RINGL_spread lane) = spread ∧ t.get (F.LANE_EXCL_excl lane) = 0 ∧
        (t.lane lane).sbq = (s.lane lane).sbq ++ (List.range 16).map SbWhy.probe ∧
        ∀ p < 16, natBit (s.get (F.LANE_PRES_link lane)) p = true →
          ∃ r ∈ (t.lane lane).mgmt, r.pos = p ∧ r.op = 0 ∧ r.addr = 0 ∧ r.count = 2 ∧ r.why = .identity))) ∧
    (st ≠ 5 → exec (.blockLockLoss lane) s = .next s) ∧
    (st = 5 → let auto := s.flag (F.LANE_CTL_auto lane) && decide (((s.lane lane).retrains.filter (fun w => s.uptime < w + 390625000)).length < 3)
      Completes (.blockLockLoss lane) s (fun t => t.get (F.LANE_STATE_state lane) = (if auto then 1 else 6) ∧ flag t 1 = true ∧
        (t.lane lane).auto = auto ∧ (auto = false → flag t 2 = true) ∧
        ∀ p < 16, natBit (s.get (F.LANE_PRES_link lane)) p = true → natBit (t.tile (lane * 16 + p)).faults 4 = true))

/-- R209, R210, R212, R214, R215, R220, R224, R226, R227, R269 to R271: grants go to running tiles of a lane that is UP; an unanswered transom is
sent again up to retry_max; an acknowledged line, a returned strobe, a STAT and its limits, silence, and the push of limits. -/
def Obligations.LinkTrafficResults : Prop :=
  ∀ (s : State) (lane : Fin 24) (p : Fin 16),
    let l := s.lane lane
    let k := lane * 16 + p.val
    let st := s.get (F.LANE_STATE_state lane)
    let runs := natBit (s.get (F.LANE_PRES_link lane)) p = true ∧ natBit (s.get (F.LANE_EXCL_excl lane)) p = false
    let flag := fun (t : State) b => t.bit (F.LANE_LSTAT_flags lane) b
    let mine := fun (kind : Nat) (g : Grant) => g.kind == kind && g.pos == p.val
    let back := fun (kind : Nat) => l.grants.eraseP (mine kind)
    let sent := fun (kind : Nat) (x : Lane) => let g : Grant := ⟨kind, p, if kind = 0 then 1 else if kind = 1 then 9 else if kind = 2 then 33
        else ((l.mgmt.filter (fun r => r.pos == p.val)).getLast?).elim 1 (fun r => 1 + r.responseBlocks)⟩
      { x with grants := x.grants ++ [g], out := x.out ++ [.set (grantBlock g)] }
    (let due := (l.grants.filter (mine 0)).length < (l.txs.filter (fun x => x.pos == p.val && !x.full)).length;
      (st = 5 ∧ due → exec (.replyGrant lane p) s = .next (s.setLane lane (sent 0 l))) ∧
      (¬(st = 5 ∨ st = 4) ∨ ¬due → exec (.replyGrant lane p) s = .next s)) ∧
    (¬(st = 5 ∧ runs) → exec (.statGrant lane p) s = .next s) ∧
    (st = 5 → runs → exec (.statGrant lane p) s = .next (s.setLane lane (sent 1 { l with
      grantLines := tabPut l.grantLines p ((l.queue.filter (fun e => natBit e.sent p && !natBit e.passed p)).map (fun e => e.tag)) }))) ∧
    (let due := s.classified k = true ∧ (s.tile k).echoDue ≠ 0;
      (¬(st = 5 ∧ due) → exec (.echoGrant lane p) s = .next s) ∧
      (st = 5 → due → Completes (.echoGrant lane p) s (fun t => t.regs = s.regs ∧ t.lane lane = sent 2 l ∧
        (t.tile k).echoDue = (s.tile k).echoDue - 1))) ∧
    (let due := ∃ r ∈ l.mgmt, r.pos = p.val;
      (¬due → exec (.mgmtGrant lane p) s = .next s) ∧
      (due → st = 4 ∨ st = 5 → exec (.mgmtGrant lane p) s = .next (s.setLane lane (sent 3 l)))) ∧
    (∀ kind : Fin 4, ((∀ g ∈ l.grants, mine kind g = false) → exec (.grantUnfilled lane kind p) s = .next s) ∧
      ((∃ g ∈ l.grants, mine kind g = true) → kind.val ≠ 0 → Completes (.grantUnfilled lane kind p) s (fun t => (t.lane lane).grants = back kind ∧
        t.get (F.LANE_NOFILL_count lane) = min (s.get (F.LANE_NOFILL_count lane) + 1) 0xFFFFFFFF))) ∧
    (let again := fun (c : Instr) =>
        Completes c s (fun t => (t.lane lane).grants = back 0 ∧ (t.lane lane).queue = l.queue) ∧
        (∀ x, l.txs.find? (fun x => x.pos == p.val && !x.full) = some x →
          (x.tries < s.get (F.LANE_CTL_retry_max lane) → Completes c s (fun t => (t.lane lane).txs = { x with tries := x.tries + 1 } :: l.txs.erase x ∧
            (t.lane lane).out = l.out ++ [x.out] ∧ t.get (F.LANE_RETX_count lane) = min (s.get (F.LANE_RETX_count lane) + 1) 0xFFFFFFFF)) ∧
          (s.get (F.LANE_CTL_retry_max lane) ≤ x.tries → Completes c s (fun t => (t.lane lane).txs = l.txs.erase x ∧
            (x.wave = true → natBit (t.get (F.LANE_WVSTAT_fail lane)) p = true))));
      again (.replyTimeout lane p) ∧ ((∃ g ∈ l.grants, mine 0 g = true) → again (.grantUnfilled lane 0 p)) ∧
      ∀ block, (answerOf block = .badCheck ∨ answerOf block = .unknown ∨ answerOf block = .other → again (.replyReceive lane p block)) ∧
        (answerOf block = .badCheck → Completes (.replyReceive lane p block) s (fun t =>
          t.get (F.LANE_UPERR_count lane) = min (s.get (F.LANE_UPERR_count lane) + 1) 0xFFFFFFFF)) ∧
        (answerOf block = .unknown → Completes (.replyReceive lane p block) s (fun t =>
          t.get (F.LANE_BLKERR_count lane) = min (s.get (F.LANE_BLKERR_count lane) + 1) 0xFFFFFFFF))) ∧
    (∀ block y, answerOf block = .reply y → y.pos = p.val → y.type = 1 →
      ∀ x, l.txs.find? (fun x => x.pos == p.val && !x.wave && x.tag == y.tag && !x.full) = some x →
      (y.code = 0 → Completes (.replyReceive lane p block) s (fun t => t.regs = s.regs ∧ (t.lane lane).txs = l.txs.erase x ∧
        (t.lane lane).queue = l.queue.map (fun e => if e.tag == x.tag && natBit e.sent x.pos then { e with acked := natSetBit e.acked x.pos true } else e))) ∧
      (y.code = 2 → Completes (.replyReceive lane p block) s (fun t => t.regs = s.regs ∧ (t.lane lane).txs = { x with full := true } :: l.txs.erase x)) ∧
      (y.code = 3 → Completes (.replyReceive lane p block) s (fun t => t.regs = s.regs ∧ (t.lane lane).txs = l.txs.erase x))) ∧
    (l.sets = [] → exec (.strobeReturn lane true) s = .next s ∧ exec (.strobeReturn lane false) s = .next s ∧ exec (.strobeReturnTimeout lane) s = .next s) ∧
    (∀ x rest, l.sets = x :: rest → exec (.strobeReturn lane true) s = .next (s.setLane lane { l with sets := rest }) ∧
      ∀ c ∈ [Instr.strobeReturn lane false, .strobeReturnTimeout lane],
        (x.cancelOf = none → Completes c s (fun t => (t.lane lane).sets = rest ∧ flag t 3 = true ∧ (t.lane lane).checkFail = some s.uptime ∧
          t.get (F.LANE_SCERR_count lane) = min (s.get (F.LANE_SCERR_count lane) + 1) 0xFFFFFFFF ∧
          ∀ w, l.checkFail = some w → s.uptime ≤ w + 390625 → ∀ i < 16, natBit (s.get (F.LANE_PRES_link lane)) i = true →
            natBit (t.tile (lane * 16 + i)).faults 2 = true)) ∧
        (∀ y, x.cancelOf = some y → Completes c s (fun t => t.regs = s.regs ∧
          (t.lane lane).sets = rest ++ (if y.2.2 < 3 ∧ st = 5 then [.cancel y.1 y.2.1 (y.2.2 + 1)] else [])))) ∧
    (∀ blocks, statOf blocks = none → Completes (.statReceive lane p blocks) s (fun t => (t.lane lane).grants = back 1 ∧
      t.get (F.LANE_UPERR_count lane) = min (s.get (F.LANE_UPERR_count lane) + 1) 0xFFFFFFFF)) ∧
    (∀ (granted : Fin 16) (blocks : List LinkBlock) (m : StatMsg), statOf blocks = some (p.val, m) → Completes (.statReceive lane granted blocks) s (fun t =>
      let soft := s.getInt (F.LANE_TLIM_soft lane p)
      let hard := s.getInt (F.LANE_TLIM_hard lane p)
      let hyst : Int := s.get (F.LANE_THYS_hyst lane p)
      let above := fun (lim : Int) (was : Bool) => (t.effTemp lane p).elim was (fun x => decide (lim ≤ x) || (was && !decide (x < lim - hyst)))
      (t.tile k).silent = false ∧ natBit (t.tile k).faults 3 = false ∧ (t.tile k).flags = m.flags.toNat ∧ (t.tile k).fireCount = m.count ∧
      ((s.tile k).therm = [] → t.get (F.LANE_TEMP_link lane p) = 0x8000) ∧ (m.count ≠ (s.tile k).fireCount → flag t 8 = true) ∧
      (natBit m.flags.toNat 4 = true ∧ natBit (s.tile k).flags 4 = false ∨ natBit m.flags.toNat 5 = true ∧ natBit (s.tile k).flags 5 = false → flag t 9 = true) ∧
      natBit (t.get (F.LANE_THOT_hot lane)) p = (natBit m.flags.toNat 3 || above hard (natBit (s.get (F.LANE_THOT_hot lane)) p)) ∧
      natBit (t.get (F.LANE_THOT_warm lane)) p = (natBit m.flags.toNat 2 || above soft (natBit (s.get (F.LANE_THOT_warm lane)) p)) ∧
      (st = 5 → ∀ i < min 4 m.staged.toNat, m.tags.toNat / 256 ^ i % 256 ∉ tabGet [] l.grantLines p →
        .cancel (2 ^ p.val) (m.tags.toNat / 256 ^ i % 256) 0 ∈ (t.lane lane).sets))) ∧
    (¬(st = 5 ∧ runs) ∨ (s.tile k).silent = true → exec (.statTimeout lane p) s = .next s) ∧
    (st = 5 → runs → (s.tile k).silent = false → Completes (.statTimeout lane p) s (fun t => (t.tile k).silent = true ∧ natBit (t.tile k).faults 3 = true ∧
      flag t 4 = true ∧ t.get (F.LANE_STATTO_count lane) = min (s.get (F.LANE_STATTO_count lane) + 1) 0xFFFFFFFF ∧ t.get (F.LANE_TEMP_link lane p) = 0x8000)) ∧
    (natBit l.limitsDue p = false → exec (.tlimPush lane p) s = .next s) ∧
    (natBit l.limitsDue p = true → Completes (.tlimPush lane p) s (fun t => t.regs = s.regs ∧ natBit (t.lane lane).limitsDue p = false ∧
      (st = 5 → ∃ r ∈ (t.lane lane).mgmt, r.pos = p ∧ r.op = 1 ∧ r.addr = 0x24 ∧ r.data = [s.rd (R.LANE_TLIM lane p), s.rd (R.LANE_THYS lane p)])))

/-- R229 to R236, R248, R249, R251, R253, R258: an MGMT request is sent, answered or repeated; a sideband transaction of firmware and a
poll of every present tile; a waveform upload and its commits; the scale tick; and the push of breeze settings. -/
def Obligations.LinkManagementResults : Prop :=
  ∀ (s : State) (lane : Fin 24), natBit s.lanesOff lane = false →
    let l := s.lane lane
    let st := s.get (F.LANE_STATE_state lane)
    (∀ v : W32, let pos := (v.extractLsb' 20 4).toNat
      let op := (v.extractLsb' 16 2).toNat
      let n := s.get (F.LANE_MGLEN_count lane)
      let req : MgReq := ⟨pos, l.mgSeq, op, (v.extractLsb' 0 16).toNat, n,
        if op = 1 then (List.range (min n 16)).map (fun k => s.rd (R.LANE_MGDATA lane k)) else [], .firmware, 0⟩
      (op = 3 → exec (.mgmtRequest lane v) s = .next s) ∧
      (op ≠ 3 → s.flag (F.LANE_MGCMD_busy lane) = true → Completes (.mgmtRequest lane v) s (fun t => t.lanes = s.lanes ∧ t.flag (F.LANE_MGCMD_busy lane) = true)) ∧
      (op ≠ 3 → s.flag (F.LANE_MGCMD_busy lane) = false → st ≠ 5 → st ≠ 7 → Completes (.mgmtRequest lane v) s (fun t => t.lanes = s.lanes ∧
        t.get (F.LANE_MGCMD_status lane) = 2 ∧ t.flag (F.LANE_MGCMD_busy lane) = false)) ∧
      (op ≠ 3 → s.flag (F.LANE_MGCMD_busy lane) = false → st = 5 →
        Completes (.mgmtRequest lane v) s (fun t => t.flag (F.LANE_MGCMD_busy lane) = true ∧ t.get (F.LANE_MGCMD_pos lane) = pos ∧
          (t.lane lane).mgmt = l.mgmt ++ [req] ∧ (t.lane lane).out = l.out ++ [req.out])) ∧
      (op ≠ 3 → s.flag (F.LANE_MGCMD_busy lane) = false → st = 7 → Completes (.mgmtRequest lane v) s (fun t =>
        (op = 1 → t.get (F.LANE_MGCMD_status lane) = 0 ∧ (t.lane lane).mgmt = l.mgmt ∧ (t.lane lane).out = l.out ++ [req.out, req.out]) ∧
        (op ≠ 1 → t.flag (F.LANE_MGCMD_busy lane) = true ∧ (t.lane lane).mgmt = l.mgmt ++ [req] ∧ (t.lane lane).out = l.out ++ [req.out])))) ∧
    (∀ (granted : Fin 16) (blocks : List LinkBlock),
      let bad := fun (t : State) => (t.lane lane).mgmt = l.mgmt ∧ (t.lane lane).grants = l.grants.eraseP (fun g => g.kind == 3 && g.pos == granted.val) ∧
        t.get (F.LANE_UPERR_count lane) = min (s.get (F.LANE_UPERR_count lane) + 1) 0xFFFFFFFF
      (responseOf blocks = none → Completes (.mgmtResponseReceive lane ⟨granted, blocks⟩) s bad) ∧
      (∀ m, responseOf blocks = some m → let found := l.mgmt.find? (fun r => r.pos == m.pos && r.seq == m.seq)
        (found = none → Completes (.mgmtResponseReceive lane ⟨granted, blocks⟩) s (fun t => t.regs = s.regs ∧ (t.lane lane).mgmt = l.mgmt)) ∧
        (∀ r, found = some r → m.status = 0 → m.data.length ≠ 2 * r.responseBlocks → Completes (.mgmtResponseReceive lane ⟨granted, blocks⟩) s bad) ∧
        (∀ r, found = some r → r.why = .firmware → m.status ≠ 0 ∨ m.data.length = 2 * r.responseBlocks →
          Completes (.mgmtResponseReceive lane ⟨granted, blocks⟩) s (fun t => (t.lane lane).mgmt = l.mgmt.erase r ∧
            t.get (F.LANE_MGCMD_busy lane) = 0 ∧ t.get (F.LANE_MGCMD_status lane) = (if m.status ≤ 1 then m.status else 3) ∧
            (m.status = 0 → r.op ≠ 1 → ∀ i < 16, i < m.data.length → r.op ≠ 0 ∨ i < r.count → t.rd (R.LANE_MGDATA lane i) = m.data.getD i 0))))) ∧
    (∀ (p : Fin 16) (seq : W8), let found := l.mgmt.find? (fun r => r.pos == p.val && r.seq == seq.toNat)
      (found = none → exec (.mgmtRetryTimeout lane p seq) s = .next s) ∧
      (∀ r, found = some r → r.why = .firmware →
        (r.tries < 3 → exec (.mgmtRetryTimeout lane p seq) s = .next (s.setLane lane { l with
          mgmt := l.mgmt.map (fun x => if x == r then { x with tries := x.tries + 1 } else x),
          out := l.out ++ (if st = 7 ∧ r.op = 1 then [r.out, r.out] else if st = 4 ∨ st = 5 ∨ st = 7 then [r.out] else []) })) ∧
        (3 ≤ r.tries → Completes (.mgmtRetryTimeout lane p seq) s (fun t => (t.lane lane).mgmt = l.mgmt.erase r ∧
          t.get (F.LANE_MGCMD_busy lane) = 0 ∧ t.get (F.LANE_MGCMD_status lane) = 2)))) ∧
    (∀ v : W32, (s.flag (F.LANE_SBCMD_busy lane) = true → Completes (.sbCommand lane v) s (fun t => t.lanes = s.lanes)) ∧
      (s.flag (F.LANE_SBCMD_busy lane) = false → Completes (.sbCommand lane v) s (fun t => t.flag (F.LANE_SBCMD_busy lane) = true ∧
        (t.lane lane).sbq = l.sbq ++ [.firmware] ∧ t.get (F.LANE_SBCMD_addr lane) = (v.extractLsb' 0 7).toNat ∧
        t.get (F.LANE_SBCMD_count lane) = (v.extractLsb' 24 4).toNat ∧
        (l.sbq = [] → ∃ bs ∈ (t.lane lane).sbOut.getLast?, bs = .start (v.extractLsb' 0 7).toNat (t.get (F.LANE_SBCMD_offset lane))
          (if t.flag (F.LANE_SBCMD_rd lane) then [] else (List.range (t.get (F.LANE_SBCMD_count lane) + 1)).map (s.sbByte lane))
          (s.flag (F.LANE_SBCFG_fm lane))) ∧ (l.sbq ≠ [] → (t.lane lane).sbOut = l.sbOut)))) ∧
    (l.sbq = [] → exec (.sbStretchTimeout lane) s = .next s ∧ ∀ r, exec (.sbTransactionDone lane r) s = .next s) ∧
    (l.sbq.head? = some .firmware →
      (∀ bs, Completes (.sbTransactionDone lane (.data bs)) s (fun t => (t.lane lane).sbq = l.sbq.tail ∧ t.get (F.LANE_SBCMD_busy lane) = 0 ∧
        (s.flag (F.LANE_SBCMD_rd lane) = true → ∀ i < 16, i ≤ s.get (F.LANE_SBCMD_count lane) → i < bs.length →
          (t.rd (R.LANE_SBDATA lane (i / 4))).extractLsb' (8 * (i % 4)) 8 = bs.getD i 0))) ∧
      Completes (.sbTransactionDone lane .nack) s (fun t => (t.lane lane).sbq = l.sbq.tail ∧ t.get (F.LANE_SBCMD_busy lane) = 0 ∧ t.get (F.LANE_SBCMD_nack lane) = 1) ∧
      ∀ c ∈ [Instr.sbTransactionDone lane .timeout, .sbStretchTimeout lane], Completes c s (fun t =>
        (t.lane lane).sbq = l.sbq.tail ∧ t.get (F.LANE_SBCMD_busy lane) = 0 ∧ t.get (F.LANE_SBCMD_tout lane) = 1 ∧
        (c = .sbStretchTimeout lane → SbOut.release ∈ (t.lane lane).sbOut))) ∧
    (let fires := fun (t : State) (p : Nat) => natBit (t.get (F.LANE_OPEN_mask lane)) p && !natBit (t.get (F.LANE_SBSTALE_stale lane)) p &&
        natBit (t.tile (lane * 16 + p)).sbStatus 0 && decide (max 1 (t.get (F.LANE_SBCFG_per_ms lane)) ≤ 10);
      (∀ rs, s.flag (F.LANE_SBCFG_poll lane) = false → exec (.sbPoll lane rs) s = .next s) ∧
      (∀ rs, s.flag (F.LANE_SBCFG_poll lane) = true → Completes (.sbPoll lane rs) s (fun t =>
        (∀ e ∈ (positions (s.get (F.LANE_PRES_sb lane))).zip rs, let x := s.tile (lane * 16 + e.1)
          let y := t.tile (lane * 16 + e.1)
          (e.2 ∈ [SbReading.nack, .timeout, .busLow] → y.sbOk = false ∧ y.sbStatus = x.sbStatus ∧ natBit (t.get (F.LANE_LSTAT_flags lane)) 10 = true) ∧
          (e.2 ∉ [SbReading.nack, .timeout, .busLow] → y.sbOk = true ∧ e.2 = .sample (readingCode e.2) (BitVec.ofNat 8 y.sbStatus) (BitVec.ofNat 8 (y.sbSeq.getD 0)) ∧
            y.sbSince = (if y.sbSeq = x.sbSeq then x.sbSince else s.uptime) ∧ (x.therm = [] → t.get (F.LANE_TEMP_sb lane e.1) = 0x8000)) ∧
          natBit (t.get (F.LANE_SBSTALE_stale lane)) e.1 = decide (y.sbSince + max 10 (2 * max 1 (s.get (F.LANE_SBCFG_per_ms lane))) * 390625 ≤ s.uptime)) ∧
        (st = 7 → ∀ p < 16, natBit (s.get (F.LANE_PRES_link lane)) p = true → natBit (t.tile (lane * 16 + p)).faults 5 = !fires t p))) ∧
      (∀ v : W32, (st = 7 → v.getLsbD 31 = false → Completes (.sbPollWrite lane v) s (fun t => t.get (F.LANE_STATE_state lane) = 6 ∧
          t.flag (F.LANE_CTL_open lane) = false ∧ natBit (t.get (F.LANE_LSTAT_flags lane)) 2 = true ∧
          ∀ p < 16, natBit (s.get (F.LANE_PRES_link lane)) p = true → natBit (t.tile (lane * 16 + p)).faults 4 = true)) ∧
        (¬(st = 7 ∧ v.getLsbD 31 = false) → Completes (.sbPollWrite lane v) s (fun t => t.flag (F.LANE_SBCFG_poll lane) = v.getLsbD 31 ∧
          t.get (F.LANE_SBCFG_per_ms lane) = (v.extractLsb' 24 4).toNat ∧ t.get (F.LANE_SBCFG_tdiff lane) = (v.extractLsb' 16 8).toNat ∧
          t.get (F.LANE_STATE_state lane) = st ∧
          (st = 7 → ∀ p < 16, natBit (s.get (F.LANE_PRES_link lane)) p = true → natBit (t.tile (lane * 16 + p)).faults 5 = !fires t p))))) ∧
    (∀ v : W32, let a := (s.rd (R.LANE_WVSRC lane)).toNat
      let mask := v.toNat % 65536
      let refused := s.flag (F.LANE_WVCMD_busy lane) = true ∨ 0x06000000 ≤ a + 127 ∨ ∃ p < 16, natBit mask p = true ∧ natBit (s.get (F.LANE_PRES_link lane)) p = false
      (refused → exec (.waveUpload lane v) s = .next (s.set (F.LANE_WVCMD_err lane) 1)) ∧
      (¬refused → s.sound a 128 → Completes (.waveUpload lane v) s (fun t => t.flag (F.LANE_WVCMD_busy lane) = true ∧
        (t.lane lane).upload = some ⟨(v.extractLsb' 24 3).toNat, v.getLsbD 29, (List.range 32).map (fun j => s.wordAt (a + 4 * j)), 0⟩ ∧
        ∀ p < 16, natBit mask p = true → ∃ x ∈ (t.lane lane).txs, x.pos = p ∧ x.wave = true ∧ x.tries = 0 ∧ x.full = false))) ∧
    (l.upload = none → exec (.waveUploadDone lane) s = .next s) ∧
    (∀ u, l.upload = some u → l.txs.any (fun x => x.wave) = true → exec (.waveUploadDone lane) s = .next s) ∧
    (∀ u, l.upload = some u → l.txs.any (fun x => x.wave) = false → Completes (.waveUploadDone lane) s (fun t => (t.lane lane).upload = none ∧
      t.get (F.LANE_WVCMD_busy lane) = 0 ∧ (u.commit = false → (t.lane lane).mgmt = l.mgmt) ∧
      (u.commit = true → st ≠ 7 → ∀ p < 16, natBit u.acked p = true → ∃ r ∈ (t.lane lane).mgmt, r.pos = p ∧ r.op = 1 ∧ r.addr = 0x1F ∧ r.data = [1]))) ∧
    (s.flag F.FIRE_WVCFG_en = false → exec (.scaleTick lane) s = .next s) ∧
    (s.flag F.FIRE_WVCFG_en = true → Completes (.scaleTick lane) s (fun t => ∀ p < 16, natBit (s.get (F.LANE_PRES_link lane)) p = true →
      let k := lane * 16 + p
      let x := s.get (F.FIRE_RANK_f (s.tile k).rank)
      let scale := min x (s.get F.FIRE_WVCFG_smax)
      let none_ := s.get (F.LANE_TEMP_link lane p) = 0x8000
      (none_ ↔ natBit (t.get (F.LANE_WVSTAT_stale lane)) p = true) ∧
      (¬none_ → s.flag (F.FIRE_TILE_CFG_en k) = false → (s.tile k).rank < 16 → natBit (t.lane lane).limited p = decide (s.get F.FIRE_WVCFG_smax < x) ∧
        (st = 5 → scale ≠ s.get (F.LANE_SCALE_s lane p) → ∃ r ∈ (t.lane lane).mgmt, r.pos = p ∧ r.op = 1 ∧ r.addr = 0x11 ∧
          r.data = [BitVec.ofNat 32 scale] ∧ r.why = .scale scale)))) ∧
    (st ≠ 5 → st ≠ 7 → exec (.breezePush lane) s = .next s) ∧
    (st = 5 ∨ st = 7 → Completes (.breezePush lane) s (fun t => t.regs = s.regs ∧ (t.lane lane).breezeDue = 0 ∧
      (st = 5 → ∀ p < 16, natBit l.breezeDue p = true → s.runs lane p = true → let k := lane * 16 + p
        let b := s.get (F.FIRE_TILE_CFG_bar k)
        ∃ r ∈ (t.lane lane).mgmt, r.pos = p ∧ r.op = 1 ∧ r.addr = 0x12 ∧ r.data = [if s.flag (F.FIRE_TILE_CFG_en k) then
          BitVec.ofNat 32 (s.get (F.BAR_BREEZE_interval b) * 2 ^ 16 + s.get (F.BAR_BREEZE_lvl b) * 2 ^ 8 + s.get (F.BAR_BREEZE_excl b) * 2 +
            s.get (F.BAR_BREEZE_en b)) else 0])))

/-- R32, R35, R388 to R391, R401 to R406, R420, R437, R452: a change of the link reference, lock and loss of lock of a PLL; each source of a
reset; the supply monitor's warning, recovery and reset; and the end of reset, after which CP0 runs in the boot ROM. -/
def Obligations.ClockResetSupplyResults : Prop :=
  ∀ (s : State),
    (let down := s.get F.SHUT_GSTAT_latch ≠ 0 ∧ ∀ n < 24, s.get (F.LANE_STATE_state n) = 0;
      ∀ v : Bool, let changes := (if v then 1 else 0) ≠ s.get F.SYS_CLK_CTL_lref_sel
        (¬changes → Completes (.lrefSelWrite v) s (fun t => t.get F.SYS_CLK_CTL_lref_sel = s.get F.SYS_CLK_CTL_lref_sel ∧ t.axes = s.axes ∧
          t.get F.SYS_CLK_STAT_lock = s.get F.SYS_CLK_STAT_lock)) ∧
        (changes → ¬down → exec (.lrefSelWrite v) s = .next (s.set F.SYS_CLK_CTL_sel_err 1)) ∧
        (changes → down → Completes (.lrefSelWrite v) s (fun t => t.get F.SYS_CLK_CTL_lref_sel = (if v then 1 else 0) ∧
          t.get F.SYS_CLK_STAT_lock = s.get F.SYS_CLK_STAT_lock &&& 0x03F7 ∧
          ∀ n < 8, (t.axis n).st = (if (s.axis n).st = .moving then .lull else (s.axis n).st)))) ∧
    (∀ (p : Fin 16) (s0 s1 s2 s3 : W8), let locked := natBit (s.get F.SYS_CLK_STAT_lock) p
      (locked = true → exec (.pllLock p s0 s1 s2 s3) s = .next s) ∧
      (locked = false → Completes (.pllLock p s0 s1 s2 s3) s (fun t => natBit (t.get F.SYS_CLK_STAT_lock) p = true ∧
        (p.val < 3 → t.get F.SYS_CLK_STAT_lock % 8 = 7 → natBit (t.get F.SUP_GCOND_cond) 3 = false) ∧
        (p.val = 3 → natBit (t.get F.SUP_GCOND_cond) 2 = false) ∧ (p.val = 3 ∨ p.val = 7 → t.get F.PTP_RATIO_ratio = 0) ∧
        ∀ j < 4, let n := 4 * (p.val - 10) + j
          10 ≤ p.val → natBit s.lanesOff n = false → let m := [s0, s1, s2, s3].getD j 0
            t.get (F.CAL_LANE_meas n) = m.toNat ∧ t.getInt (F.CAL_LANE_k n) = max (-32) (min 31 (s.getInt (F.CAL_LANE_usr n) - m.toInt))))) ∧
    (∀ p : Fin 16, let locked := natBit (s.get F.SYS_CLK_STAT_lock) p
      (locked = false → exec (.pllLockLoss p) s = .next s) ∧
      (locked = true → Completes (.pllLockLoss p) s (fun t => natBit (t.get F.SYS_CLK_STAT_lock) p = false ∧ natBit (t.get F.SYS_CLK_STAT_lost) p = true ∧
        (s.room 63 = true → HoldsEvent 63 0x4E1 p t) ∧
        (p.val < 3 → natBit (t.get F.SUP_GCOND_cond) 3 = true ∧ natBit t.pllDue p = true) ∧
        (p.val < 3 ∨ p.val = 8 ∨ p.val = 9 → t.get (F.MOT_STATE_state 0) = 8 ∧ t.get (F.MOT_STATE_state 1) = 8) ∧
        (p.val = 3 → natBit (t.get F.SUP_GCOND_cond) 2 = true ∧ ∀ n < 24, natBit s.lanesOff n = false → t.get (F.LANE_STATE_state n) = 0 ∧
          t.flag (F.LANE_CTL_en n) = false) ∧
        (p.val = 4 ∨ p.val = 5 → t.get (F.ETH_STAT_up (p.val - 4)) = 0) ∧ (p.val = 6 → t.get F.PCIE_STAT_up = 0) ∧
        (p.val = 7 → t.get F.PTP_STAT_stat = 0) ∧
        (10 ≤ p.val → ∀ n < 24, n / 4 = p.val - 10 → natBit s.lanesOff n = false → t.get (F.LANE_STATE_state n) = 0 ∧
          t.flag (F.LANE_CTL_en n) = false ∧ ∀ i < 16, natBit (s.get (F.LANE_PRES_link n)) i = true → natBit (t.tile (n * 16 + i)).faults 0 = true)))) ∧
    (∀ p : Fin 3, (natBit s.pllDue p = false → exec (.pllLossResetTimer p) s = .next s) ∧
      (natBit s.pllDue p = true → Completes (.pllLossResetTimer p) s (ResetTaken false 5 s))) ∧
    (∀ loss, Completes (.powerOnReset loss) s (ResetTaken true 0 s)) ∧ Completes .systemResetPin s (ResetTaken false 2 s) ∧
    (∀ v : W32, (v.toNat / 65536 = 0xD1E5 ∧ v.getLsbD 0 = true → Completes (.resetRequest v) s (ResetTaken false 6 s)) ∧
      (¬(v.toNat / 65536 = 0xD1E5 ∧ v.getLsbD 0 = true) → exec (.resetRequest v) s = .next s)) ∧
    (s.dbgOpen = true → Completes .debugReset s (ResetTaken false 7 s)) ∧ (s.dbgOpen = false → exec .debugReset s = .next s) ∧
    (let due := s.flag F.SUP_WDOG_en = true ∧ s.flag F.SUP_WDOG_stage1 = true;
      (due → Completes .watchdogReset s (ResetTaken false 4 s)) ∧ (¬due → exec .watchdogReset s = .next s)) ∧
    (∀ (r : Fin 11) (level : W16), let warn := warnLevel r
      let record := fun (t : State) => natBit t.railBelow r = true ∧ natBit t.railOpen r = true ∧ natBit t.railDwell r = false ∧ natBit t.railEpisode r = true ∧
        t.get F.SYS_SUPSTAT_below = t.railBelow % 2048 ∧ t.get F.SYS_SUPSTAT_dwell = t.railDwell % 2048
      (warn ≤ level.toNat → exec (.supplyWarning r level) s = .next s) ∧
      (level.toNat < warn → Completes (.supplyWarning r level) s (fun t => record t ∧
        natBit (t.get F.SYS_SUPSEEN_seen) r = true ∧ (s.resetting = false → natBit (t.get F.SHUT_GCOND_cond) 2 = true ∧
          t.get (F.MOT_STATE_state 0) = 8 ∧ t.get (F.MOT_STATE_state 1) = 8 ∧ (∀ n < 4, t.get (F.ST_STATE_state n) = 4) ∧
          (s.room 107 = true → HoldsEvent 107 0x4A0 r t)))) ∧
      (resetLevel r ≤ level.toNat → exec (.supplyReset r level) s = .next s) ∧
      (level.toNat < resetLevel r → Completes (.supplyReset r level) s (fun t => record t ∧ t.captureRail = some r.val ∧
        ResetTaken (decide (r.val = 9)) (if r.val = 9 then 1 else 3) s t)) ∧
      (natBit s.railOpen r = true → recoverLevel r ≤ level.toNat → Completes (.railRecoveryCross r true level) s (fun t => natBit t.railDwell r = true ∧
        natBit t.railBelow r = false ∧ t.railOpen = s.railOpen)) ∧
      (natBit s.railOpen r = true → level.toNat < recoverLevel r → Completes (.railRecoveryCross r false level) s (fun t => natBit t.railDwell r = false ∧
        natBit t.railBelow r = (natBit s.railBelow r && decide (level.toNat < warn)) ∧ t.railOpen = s.railOpen)) ∧
      (natBit s.railOpen r = false → ∀ up, exec (.railRecoveryCross r up level) s = .next s)) ∧
    (∀ r : Fin 11, (natBit s.railDwell r = false → exec (.supplyRecovered r) s = .next s) ∧
      (natBit s.railDwell r = true → Completes (.supplyRecovered r) s (fun t => natBit t.railOpen r = false ∧ natBit t.railDwell r = false ∧
        (t.railOpen ≠ 0 → t.get F.SHUT_GCOND_cond = s.get F.SHUT_GCOND_cond) ∧
        (t.railOpen = 0 → t.railEpisode = 0 ∧ (s.resetting = false → natBit (t.get F.SHUT_GCOND_cond) 2 = false ∧
          (s.room 107 = true → HoldsEvent 107 0x4A1 s.railEpisode t)))))) ∧
    (∀ (straps : BitVec 5) (gates : W8) (qe : BitVec 24) (gpio : W32) (marginal : List (Fin 2048)) (flips : List (Fin 2048 × BitVec 39)),
      let held := (natBit s.capture 1 = true ∨ natBit s.capture 3 = true) ∧ s.railOpen ≠ 0
      (s.resetting = false ∨ held → exec (.resetEnd straps gates qe gpio marginal flips) s = .next s) ∧
      (s.resetting = true → ¬held → Completes (.resetEnd straps gates qe gpio marginal flips) s (fun t => t.resetting = false ∧ t.uptime = 0 ∧
        (t.seq 0).run = .running ∧ (t.seq 0).pc = 0x70000000 ∧ (∀ q, 2 ≤ q → q < 48 → (t.seq q).run = .halted) ∧
        t.get F.SYS_RSTCAUSE_cause = (s.get F.SYS_RSTCAUSE_cause ||| s.capture) % 256 ∧ t.capture = 0 ∧
        t.get F.SYS_BOOTSTAT_straps = straps.toNat ∧ t.rd R.SNS_GPIO_IN = gpio ∧ t.get F.SYS_CLK_STAT_lock = 0x3FF ∧
        (∀ i < 8, t.get (F.QE_CFG_lvl i) = (qe.extractLsb' (3 * i) 3).toNat) ∧
        (s.fuse = [] → marginal = [] → flips = [] → t.lanesOff = 0 ∧ t.clustersOff = 0 ∧ t.dieBOff = false ∧ t.get F.SEC_LC_state = 0 ∧ t.shadow = []))))

/-- R85, R86, R390 to R400, R404: die A ready opens the strapped port; what each port transfers into the staging area; an image that passes
the checks is loaded and released, one that fails is rejected with its code; and the reload of one sequencer. -/
def Obligations.BootResults : Prop :=
  ∀ (s : State), let phase := s.get F.SYS_BOOTSTAT_phase
    let sel := s.get F.SYS_BOOTSTAT_straps / 8
    let waits := fun k => s.resetting = false ∧ phase = 1 ∧ sel = k
    (s.resetting = true ∨ natBit (s.get F.MEM_DSTAT_rdy) 0 = true → exec .dramTrained s = .next s) ∧
    (s.resetting = false → natBit (s.get F.MEM_DSTAT_rdy) 0 = false → Completes .dramTrained s (fun t => t.get F.MEM_DSTAT_rdy = s.get F.MEM_DSTAT_rdy ||| 3 ∧
      (sel = 0 → t.rd (R.PCIE_WIN 0) = 0x80000010) ∧ (sel = 1 → t.get (F.ETH_CFG_mode 0) = s.get F.SYS_BOOTSTAT_straps % 4 + 1 ∧ t.get (F.ETH_CFG_en 0) = 1) ∧
      (sel ≠ 3 → t.get F.SYS_BOOTSTAT_phase = 1) ∧ (sel = 3 → t.get F.SYS_BOOTSTAT_err = 9 ∧ t.get F.SYS_BOOTSTAT_phase = phase))) ∧
    (s.resetting = true ∨ s.dieBOff = true → exec .dieBInitDone s = .next s) ∧
    (s.resetting = false → s.dieBOff = false → exec .dieBInitDone s = .next (s.set F.MEM_DSTAT_rdy (s.get F.MEM_DSTAT_rdy ||| 12))) ∧
    (∀ len : W32, let frame : List W8 := 0x0B :: leBytes 4 len.toNat
      (¬waits 2 → exec (.spiGo frame) s = .next s) ∧
      (waits 2 → s.cells = [] → (headerOk s.imageHeader len.toNat = false → Completes (.spiGo frame) s (Rejected 1 s)) ∧
        (headerOk s.imageHeader len.toNat = true → s.partOk s.imageHeader = false → Completes (.spiGo frame) s (Rejected 2 s)) ∧
        (headerOk s.imageHeader len.toNat = true → s.partOk s.imageHeader = true → s.keyCheck ((s.imageHeader.drop 0x40).take 64) = .none →
          Completes (.spiGo frame) s (Rejected 3 s))) ∧
      (waits 2 → ∀ u, s.imageLoads len.toNat u → Completes (.spiGo frame) s (Released s u))) ∧
    (∀ v : W32, let w := s.busWrite .host R.SYS_BOOTCMD (putBits v 31 31 1)
      let len := v.toNat % 2 ^ 29
      s.mayReg .host R.SYS_BOOTCMD Needs.write →
      (phase ≠ 1 → s.resetting = false → Completes (.bootGo .host v) s (fun t => t.seqs = s.seqs ∧ t.get F.SYS_BOOTSTAT_phase = phase)) ∧
      (phase = 1 → s.resetting = false → s.cells = [] → headerOk s.imageHeader len = false → sel ≠ 1 → Completes (.bootGo .host v) s (Rejected 1 s)) ∧
      (phase = 1 → ∀ u, w.imageLoads len u → Completes (.bootGo .host v) s (Released s u))) ∧
    (∀ (off : W32) (data : List W8),
      let a := 0x0100000000 + off.toNat
      let bad := data = [] ∨ 256 < data.length ∨ s.memAbsent a = true ∨ s.memAbsent (a + data.length - 1) = true
      (¬waits 2 → exec (.spiWrite off data) s = .next s) ∧
      (waits 2 → bad → exec (.spiWrite off data) s = .next (s.set F.SYS_BOOTSTAT_err 7)) ∧
      (waits 2 → ¬bad → Completes (.spiWrite off data) s (fun t => t.regs = s.regs ∧ t.seqs = s.seqs ∧
        (∀ i < data.length, t.rdByte (a + i) = data.getD i 0) ∧ ∀ x, ¬(a ≤ x ∧ x < a + data.length) → t.rdByte x = s.rdByte x))) ∧
    (s.resetting = false → phase ≠ 0 → sel = 2 → exec .spiStatus s = .next { s with answer := .data (leBytes 4 (s.rd R.SYS_BOOTSTAT).toNat) }) ∧
    (s.resetting = true ∨ phase = 0 ∨ sel ≠ 2 → exec .spiStatus s = .next s) ∧
    (∀ frame : List W8, frame.headD 0 ∉ [0x02, 0x05, 0x0B] ∨ frame.headD 0 ≠ 0x02 ∧ frame.length ≠ 5 ∨ frame.length < 6 ∧ frame.headD 0 = 0x02 ∨ 261 < frame.length →
      exec (.spiGo frame) s = .next (if waits 2 then s.set F.SYS_BOOTSTAT_err 7 else s)) ∧
    (¬waits 1 → exec .bootAnnounce s = .next s) ∧
    (waits 1 → Completes .bootAnnounce s (fun t => t.wire = .announce (s.deviceId ++ leBytes 4 (s.regNow R.SYS_ID).toNat ++ List.replicate 12 0) :: s.wire ∧
      t.get (F.ETH_TXFRM_count 0) = min (s.get (F.ETH_TXFRM_count 0) + 1) 0xFFFFFFFF)) ∧
    (∀ p : BootPacket, let e := s.rd (R.GSP_EXP 0)
      let a := 0x0100000000 + p.offset.toNat
      let bad := p.stream ≠ 0 ∨ p.line ≠ 0 ∨ 8192 < p.payload.length ∨ 0x10000000 < p.offset.toNat + p.length.toNat ∨ p.length.toNat ≠ p.payload.length ∨
        crc32c p.payload ≠ p.crc.toNat
      (¬(waits 1 ∧ p.type = 6) → exec (.bootPacket p) s = .next s) ∧
      (waits 1 → p.type = 6 → bad ∨ 0 < (p.seq - e).toInt → Completes (.bootPacket p) s (fun t => t.get F.SYS_BOOTSTAT_err = 7 ∧ SameMemory s t ∧
        t.rd (R.GSP_EXP 0) = e)) ∧
      (waits 1 → p.type = 6 → ¬bad → (p.seq - e).toInt < 0 → Completes (.bootPacket p) s (fun t => SameMemory s t ∧ t.rd (R.GSP_EXP 0) = e)) ∧
      (waits 1 → p.type = 6 → ¬bad → p.seq = e → p.flags.getLsbD 0 = false → Completes (.bootPacket p) s (fun t => t.rd (R.GSP_EXP 0) = e + 1 ∧
        t.seqs = s.seqs ∧ (∀ i < p.payload.length, t.rdByte (a + i) = p.payload.getD i 0) ∧
        ∀ x, ¬(a ≤ x ∧ x < a + p.payload.length) → t.rdByte x = s.rdByte x)) ∧
      (waits 1 → p.type = 6 → ¬bad → p.seq = e → p.flags.getLsbD 0 = true → p.offset = 0 → s.cells = [] → 8 ≤ p.payload.length → p.payload.getD 0 0 ≠ 0x47 →
        Completes (.bootPacket p) s (fun t => t.get F.SYS_BOOTSTAT_err = 1 ∧ t.get F.SYS_BOOTSTAT_phase = 1 ∧ t.rd (R.GSP_EXP 0) = 0))) ∧
    (∀ v : W32, let q := v.toNat % 64
      let may := q < 48 ∧ s.seqFused q = false ∧ (s.seq q).run = .halted ∧ (8 ≤ q ∨ (s.seq (q / 2 * 2)).run = .halted)
      (s.flag F.SYS_RLOAD_busy = true ∨ ¬may → exec (.reloadGo v) s = .next (s.set F.SYS_RLOAD_err 1)) ∧
      (s.flag F.SYS_RLOAD_busy = false → may → Completes (.reloadGo v) s (fun t => t.flag F.SYS_RLOAD_busy = true ∧ t.reloadSeq = q ∧ t.mem = s.mem))) ∧
    (s.flag F.SYS_RLOAD_busy = false → exec .reloadDone s = .next s) ∧
    (s.flag F.SYS_RLOAD_busy = true → s.cells = [] → let table := s.rdBytes 0x01F0000000 (64 * s.get F.SYS_RTCNT_n)
      let sealed_ := sha256 table = (List.range 8).flatMap (fun k => leBytes 4 (s.rd (R.SYS_RTHASH k)).toNat)
      (¬sealed_ → Completes .reloadDone s (fun t => t.flag F.SYS_RLOAD_busy = false ∧ t.get F.SYS_RLOAD_status = 2 ∧ SameMemory s t ∧
        (s.room 63 = true → HoldsEvent 63 0x4A2 (2 * 256 + s.reloadSeq) t))) ∧
      (sealed_ → ∀ u, reloadCopies s.reloadSeq (sectionsOf (s.get F.SYS_RTCNT_n) table) s = (true, u) → Completes .reloadDone s (fun t =>
        t.flag F.SYS_RLOAD_busy = false ∧ t.get F.SYS_RLOAD_status = 1 ∧ SameMemory u t)) ∧
      (sealed_ → ∀ u, reloadCopies s.reloadSeq (sectionsOf (s.get F.SYS_RTCNT_n) table) s = (false, u) → Completes .reloadDone s (fun t =>
        t.flag F.SYS_RLOAD_busy = false ∧ t.get F.SYS_RLOAD_status = 3 ∧ SameMemory u t)))

/-- R280, R281, R283 to R285, R289 to R298, R300: the commands of the motor channels and of the analog inputs. A fault entry records
its cause and coasts unless the safe state brakes; a failed start coasts before the next attempt, or is a fault after three. -/
def Obligations.MotorResults : Prop :=
  ∀ (s : State) (n : Fin 2), let m := s.motor n
    let st := s.get (F.MOT_STATE_state n)
    let code := fun (t : State) => t.get (F.MOT_STATE_state n)
    let flagged := fun (t : State) (b : Nat) => natBit (t.rd (R.MOT_STAT n)).toNat b = true
    let others := fun (t : State) => ∀ k < 2, k ≠ n.val → t.motor k = s.motor k
    let faults := fun (t : State) (cause : Nat) => code t = 8 ∧ t.get (F.MOT_FCAUSE_first n) = cause ∧
      natBit (t.rd (R.MOT_FCAUSE n)).toNat cause = true ∧ flagged t 0 ∧ flagged t 1 ∧ (t.motor n).pending = none ∧ (t.motor n).late = none ∧ (t.motor n).high = none ∧
      (s.get (F.MOT_CFG_safe n) ≠ 1 ∨ cause = 2 → (t.motor n).drive = .coast) ∧ others t
    let owner := s.get (F.MOT_CFG_owner n)
    let condition := s.bit F.SHUT_GCOND_cond 2 = true ∨ s.bit F.SYS_CLK_STAT_lock 8 = false ∨ s.bit F.SYS_CLK_STAT_lock 9 = false ∨
      (s.seq (4 + 2 * owner)).mismatch = true ∨
      (s.get (F.MOT_TRIP_mask n) &&& s.get F.ANA_CMPSTAT_live) ≠ 0 ∨ s.get (F.MOT_BUS_ov_trip n) ≤ m.vdc
    (∀ v : W32, (v.getLsbD 30 = true → exec (.motorStart n v) s = exec (.motorStop n) s) ∧
      (v.getLsbD 30 = false → s.flag (F.MOT_CFG_en n) = false → exec (.motorStart n v) s = .next s) ∧
      (v.getLsbD 30 = false → s.flag (F.MOT_CFG_en n) = true → st ≠ 0 ∨ condition → Completes (.motorStart n v) s (fun t =>
        flagged t 6 ∧ t.motors = s.motors ∧ code t = st)) ∧
      (v.getLsbD 30 = false → s.flag (F.MOT_CFG_en n) = true → st = 0 → ¬condition → Completes (.motorStart n v) s (fun t =>
        code t = 1 ∧ t.get (F.MOT_STATE_retries n) = 0 ∧ t.get (F.MOT_STATE_src n) = 0 ∧ (t.motor n).drive = .coast ∧
        (t.motor n).pending = none ∧ others t ∧ (s.room (56 + n) = true → HoldsEvent (56 + n) 0x400 0x100 t)))) ∧
    Completes (.motorStop n) s (fun t => code t = 0 ∧ others t ∧
      t.motor n = { m with drive := .coast, pending := none, late := none, high := none, coasting := false, syncing := false, pulse := 0 }) ∧
    (∀ v : W32, let w := v &&& 0x7FFFC0FF
      let held := st ≠ 0 ∧ w ≠ s.rd (R.MOT_CFG n) &&& 0x7FFFC0FF
      (held → Completes (.motorDisable n v) s (fun t => flagged t 6 ∧ t.motors = s.motors ∧ code t = st ∧ t.rd (R.MOT_CFG n) = s.rd (R.MOT_CFG n))) ∧
      (¬held → Completes (.motorDisable n v) s (fun t => code t = 0 ∧ (t.motor n).drive = .coast ∧ (t.motor n).pending = none ∧
        t.rd (R.MOT_CFG n) = w ∧ others t))) ∧
    (∀ (w : Master) (v : W32) (late : Bool),
      (isOwner w owner = false → Completes (.dutyCommit w n v late) s (fun t => flagged t 7 ∧ t.motors = s.motors ∧
        t.rd (R.MOT_DUTY1 n) = s.rd (R.MOT_DUTY1 n))) ∧
      (isOwner w owner = true → Completes (.dutyCommit w n v late) s (fun t => t.rd (R.MOT_DUTY1 n) = v &&& 0x7FFFF ∧ others t ∧
        let set := some (s.get (F.MOT_DUTY0_dA n), s.get (F.MOT_DUTY0_dB n), t.get (F.MOT_DUTY1_dC n));
        t.motor n = if st = 3 ∨ st = 5 ∨ st = 6 then
            { m with pending := if late then m.pending else set, late := if late then set else m.late, committed := true }
          else m))) ∧
    (let p := max 2000 (s.get (F.MOT_PWM_period n))
      let k := max (s.get (F.MOT_CFG_div n) + 1) ((5000 + p - 1) / p)
      let tick := decide (k ≤ m.periods + 1)
      let m1 := { m with periods := if tick then 0 else m.periods + 1, tickNow := tick }
      let runs := (st = 3 ∨ st = 5 ∨ st = 6) ∧ m.coasting = false
      let dry := if m.committed then 0 else m.dryTicks + 1
      let hfi := s.get (F.MOT_HFI_amp n) ≠ 0 ∧ (st = 4 ∨ st = 5 ∨ st = 6 ∧ s.flag (F.MOT_STATE_src n) = true)
      let now := fun (t : State) (x : Motor) => { t.motor n with carrier := m.carrier, high := m.high } = x ∧ code t = st ∧ others t ∧
        (t.motor n).carrier = (if hfi then (m.carrier + max 500 (min 4000 (s.get (F.MOT_HFI_freq n))) * 2 * p) % 400000000 else 0) ∧
        (x.drive = .coast ∨ x.drive = .brake → (t.motor n).high = none) ∧ (x.drive ≠ .coast → x.drive ≠ .brake → (t.motor n).high.isSome = true) ∧
        (x.drive = .duties → ¬hfi → ∀ h, (t.motor n).high = some h → ∀ y ∈ [(h.1, x.duties.1), (h.2.1, x.duties.2.1), (h.2.2, x.duties.2.2)],
          ((y.1 * 2 ^ 16 : Nat) - (min 0xFFFF y.2 * 2 * p : Nat) : Int).natAbs ≤ 2 ^ 15)
      (¬runs → Completes (.pwmUpdate n) s (fun t => t.regs = s.regs ∧ now t m1)) ∧
      (runs → tick = true → s.get (F.MOT_CFG_wd n) < dry → Completes (.pwmUpdate n) s (fun t => faults t 6 ∧ (t.motor n).tickNow = true)) ∧
      (runs → tick = false ∨ dry ≤ s.get (F.MOT_CFG_wd n) → Completes (.pwmUpdate n) s (fun t =>
        (m.late ≠ none → flagged t 5 ∧ t.get (F.MOT_CNT_late n) = min 65535 (s.get (F.MOT_CNT_late n) + 1)) ∧ (m.late = none → t.regs = s.regs) ∧
        now t { m1 with
          carrier := m.carrier, drive := if st = 3 ∧ m.ovPause = true then .coast else .duties, pending := m.late, late := none,
          duties := m.pending.getD m.duties, dryTicks := if tick then dry else m.dryTicks, committed := m.committed && !tick }))) ∧
    (∀ w : W16, let u := s.setMotor n { m with sensed := m.high.getD (0, 0, 0) };
      (s.adcRun = none → exec (.senseTrigger n w) s = .next { u with adcRun := some n, adcCal := (s.rd (R.CAL_ADC 0), s.rd (R.CAL_ADC 1)) }) ∧
      ∀ x, s.adcRun = some x → (w ≤ 32 → exec (.senseTrigger n w) s = .next { u with adcWait := s.adcWait ++ [n.val] }) ∧
        (32 < w → Completes (.senseTrigger n w) s (fun t => t.adcWait = s.adcWait ++ [n.val] ∧ t.adcRun = some x ∧ flagged t 4 ∧ t.motors = u.motors))) ∧
    (∀ k : SenseCodes, (s.adcRun ≠ some n.val → exec (.senseDone n k) s = .next s) ∧
      (s.adcRun = some n.val → let c0 := fun (x : BitVec 12) => calCode s.adcCal.1 x.toNat
        let c1 := fun (x : BitVec 12) => calCode s.adcCal.2 x.toNat
        let codes := [c0 k.ia, c1 k.ib, c0 k.ic, c1 k.vdc, c0 k.va, c1 k.vb, c0 k.vc]
        let input := fun (i : Nat) => ((s.rd (R.MOT_SENSE n)).extractLsb' (28 - 4 * i) 4).toNat
        let trip := s.get (F.MOT_BUS_ov_trip n)
        Completes (.senseDone n k) s (fun t => t.adcRun = s.adcWait.head? ∧ t.adcWait = s.adcWait.tail ∧ others t ∧
          (s.adcWait ≠ [] → t.adcCal = (s.rd (R.CAL_ADC 0), s.rd (R.CAL_ADC 1))) ∧
          (∀ i < 7, (∀ j < 7, i < j → input j ≠ input i) → t.rd (R.ANA_AIN (input i)) = BitVec.ofNat 32 (codes.getD i 0)) ∧
          (t.motor n).vdc = c1 k.vdc ∧ (t.motor n).ovHeld = decide (trip ≤ c1 k.vdc) ∧ (t.motor n).tickNow = false ∧
          (trip ≤ c1 k.vdc → st ≠ 8 → st ≠ 0 ∨ m.ovHeld = false → faults t 5) ∧
          (c1 k.vdc < trip → st = 0 ∨ st = 1 ∨ st = 8 → code t = st ∧ (t.motor n).drive = m.drive) ∧
          (m.tickNow = true → t.signal (s.get (F.MOT_CFG_sig n)) = true ∧
            t.rd (R.MOT_VAB n) = BitVec.ofNat 32 (c1 k.vb * 2 ^ 20 + c0 k.va * 16) ∧ t.rd (R.MOT_VC n) = BitVec.ofNat 32 (c0 k.vc * 16) ∧
            t.rd (R.MOT_ICV n) = BitVec.ofNat 16 (c1 k.vdc * 16) ++ BitVec.ofInt 16 (((c0 k.ic : Int) - 2048) * 16)) ∧
          (m.tickNow = false → t.signals = s.signals ∧ ∀ a ∈ [R.MOT_IAB n, R.MOT_ICV n, R.MOT_VAB n, R.MOT_VC n, R.MOT_ANG n, R.MOT_SPD n], t.rd a = s.rd a)))) ∧
    (let f := m.measured.getD none
      let wMin := s.get (F.MOT_RATED_rated n) * s.get (F.MOT_SPDLIM_obs_min n)
      let fast := f.any (fun v => decide (wMin ≤ v.natAbs * 1000))
      let fwd := f.any (fun v => decide (0 < v))
      ∀ cycles : W32, let done := m.measured ≠ none ∧ f.all (fun v => decide (v.natAbs * 1000 < wMin ∨
        204800000000 ≤ (m.window * (2 * max 2000 (s.get (F.MOT_PWM_period n))) + cycles.toNat) * v.natAbs)) = true
      let ends := fun (P : State → Prop) => Completes (.observeWindowEnd n cycles) s (fun t => P t ∧ others t);
      (¬done → exec (.observeWindowEnd n cycles) s = .next s) ∧
      (done → st = 1 → fast = true → fwd = true → ends (fun t => code t = 2 ∧ (t.motor n).drive = .sync)) ∧
      (done → st = 1 → fast = true → fwd = false → ends (fun t => code t = 3 ∧ (t.motor n).drive = .duties ∧ (t.motor n).obsSpeed = f.getD 0)) ∧
      (done → st = 1 → fast = false → ends (fun t => code t = 4 ∧ (t.motor n).drive = .hfi ∧ (t.motor n).fromObserve = true ∧ (t.motor n).pulse = 0)) ∧
      (done → st = 7 → m.syncing = false → fast = true → fwd = true → ends (fun t => code t = 7 ∧ (t.motor n).syncing = true ∧ (t.motor n).knownSpeed = f)) ∧
      (done → st = 7 → m.syncing = false → fast = false ∨ fwd = false →
        (m.attempts < 2 → ends (fun t => code t = 7 ∧ (t.motor n).attempts = m.attempts + 1 ∧ (t.motor n).measured = none ∧ (t.motor n).window = 0)) ∧
        (2 ≤ m.attempts → ends (fun t => faults t 8))) ∧
      (st ≠ 1 → st ≠ 7 ∨ m.syncing = true → exec (.observeWindowEnd n cycles) s = .next s)) ∧
    (∀ k : W16, (st ≠ 4 ∨ m.pulse = 0 → exec (.polarityPulseEnd n k) s = .next s) ∧
      (st = 4 → m.pulse = 1 → exec (.polarityPulseEnd n k) s = .next (s.setMotor n { m with pulse := 2, pulsePeak := k.toNat, drive := .pulse (-8192) })) ∧
      (st = 4 → 2 ≤ m.pulse → Completes (.polarityPulseEnd n k) s (fun t => code t = 5 ∧ (t.motor n).drive = .duties ∧ (t.motor n).pulse = 0 ∧ others t ∧
        (m.pulsePeak < k.toNat → (t.motor n).hfiAngle = (m.hfiAngle + 0x8000) % 0x10000) ∧
        (k.toNat < m.pulsePeak → (t.motor n).hfiAngle = m.hfiAngle)))) ∧
    (let fails := fun (t : State) (reason : Nat) => code t = st ∧ t.get (F.MOT_STATE_retries n) = s.get (F.MOT_STATE_retries n) + 1 ∧
        (t.motor n).drive = .coast ∧ (t.motor n).coasting = true ∧ flagged t 8 ∧ others t ∧
        (s.room (56 + n) = true → HoldsEvent (56 + n) 0x408 (reason * 16 + s.get (F.MOT_STATE_retries n) + 1) t);
      (st ≠ 4 ∨ m.coasting = true ∨ m.pulse ≠ 0 → exec (.locateTimeout n) s = .next s) ∧
      (st = 4 → m.coasting = false → m.pulse = 0 → s.get (F.MOT_STATE_retries n) < 3 → Completes (.locateTimeout n) s (fun t => fails t 0)) ∧
      (st = 4 → m.coasting = false → m.pulse = 0 → 3 ≤ s.get (F.MOT_STATE_retries n) → Completes (.locateTimeout n) s (fun t => faults t 7)) ∧
      (st ≠ 5 ∨ m.coasting = true → exec (.startupTimeout n) s = .next s) ∧
      (st = 5 → m.coasting = false → s.get (F.MOT_STATE_retries n) < 3 → Completes (.startupTimeout n) s (fun t => fails t 2)) ∧
      (st = 5 → m.coasting = false → 3 ≤ s.get (F.MOT_STATE_retries n) → Completes (.startupTimeout n) s (fun t => faults t 7))) ∧
    (m.coasting = false → exec (.retryCoastEnd n) s = .next s) ∧
    (m.coasting = true → Completes (.retryCoastEnd n) s (fun t => code t = 1 ∧ (t.motor n).coasting = false ∧ (t.motor n).drive = .coast ∧ others t ∧
      t.get (F.MOT_STATE_retries n) = s.get (F.MOT_STATE_retries n))) ∧
    (st ≠ 7 → exec (.recatchTimeout n) s = .next s) ∧ (st = 7 → Completes (.recatchTimeout n) s (fun t => faults t 8)) ∧
    (∀ (cmp : Fin 8), let named := (List.range 4).any (fun k => s.flag (F.ST_CFG_en k) &&
        (s.get (F.ST_CFG_cmp_a k) == cmp.val || s.get (F.ST_CFG_cmp_b k) == cmp.val))
      let live := natBit (s.get F.ANA_CMPSTAT_live) cmp
      let on := live = true ∧ natBit (s.get (F.MOT_TRIP_mask n)) cmp = true
      (¬on → exec (.tripComparator n cmp) s = .next s) ∧ (on → st ≠ 8 → Completes (.tripComparator n cmp) s (fun t => faults t 4)) ∧
      (on → st = 8 → Completes (.tripComparator n cmp) s (fun t => code t = 8 ∧ natBit (t.rd (R.MOT_FCAUSE n)).toNat 4 = true ∧ t.motors = s.motors)) ∧
      ∀ x : BitVec 10, let own := (s.get (F.ANA_CMP_thr cmp), s.flag (F.ANA_CMP_pol cmp))
        let thr := if named then s.cmpThreshold cmp else own
        let back := if live then [0, 8, 16, 32].getD (s.get (F.ANA_CMP_hyst cmp)) 0 else 0
        let asserts := (s.flag (F.ANA_CMP_en cmp) = true ∨ named = true) ∧ if thr.2 then x.toNat < thr.1 + back else thr.1 < x.toNat + back
        Completes (.comparatorChange cmp x) s (fun t => (∀ a, a ≠ R.ANA_CMPSTAT → t.rd a = s.rd a) ∧ t.cmpIn = s.cmpIn.set cmp x.toNat ∧ ∀ k < 8,
          (k = cmp.val → (natBit (t.get F.ANA_CMPSTAT_live) k = true ↔ asserts) ∧
            (natBit (t.get F.ANA_CMPSTAT_seen) k = true ↔ asserts ∨ natBit (s.get F.ANA_CMPSTAT_seen) k = true)) ∧
          (k ≠ cmp.val → natBit (t.get F.ANA_CMPSTAT_live) k = natBit (s.get F.ANA_CMPSTAT_live) k ∧
            natBit (t.get F.ANA_CMPSTAT_seen) k = natBit (s.get F.ANA_CMPSTAT_seen) k))) ∧
    (∀ (codes : List (BitVec 12)) (adc1 : W16), let scans := fun (k : Nat) => natBit (s.get F.ANA_SCAN_mask) k && decide (k < codes.length)
      (s.bit F.SYS_CLK_STAT_lock 9 = false → exec (.adcScan codes adc1) s = .next s) ∧
      (s.bit F.SYS_CLK_STAT_lock 9 = true → Completes (.adcScan codes adc1) s (fun t => t.motors = s.motors ∧ t.ev = s.ev ∧
        (∀ k < 16, scans k = true → t.rd (R.ANA_AIN k) =
          BitVec.ofNat 32 (calCode (s.rd (R.CAL_ADC (if adc1.getLsbD k then 1 else 0))) (codes.getD k 0).toNat)) ∧
        ∀ a, (∀ k < 16, scans k = true → a ≠ R.ANA_AIN k) → t.rd a = s.rd a)))

/-- R302 to R319: the commands of the stepper channels. A channel counts whole microsteps, ends an entry on its exact one, and in
FAULT holds no entry; an open phase follows four long ON phases. -/
def Obligations.StepperResults : Prop :=
  ∀ (s : State) (n : Fin 4), let c := s.stepper n
    let st := s.get (F.ST_STATE_state n)
    let code := fun (t : State) => t.get (F.ST_STATE_state n)
    let flagged := fun (t : State) (b : Nat) => natBit (t.rd (R.ST_STAT n)).toNat b = true
    let others := fun (t : State) => ∀ k < 4, k ≠ n.val → t.stepper k = s.stepper k
    let rests := fun (t : State) => code t = 1 ∧ (t.stepper n).cur = none ∧ (t.stepper n).v6 = 0 ∧ (t.stepper n).acc = 0 ∧ (t.stepper n).standstill = false ∧
      t.rd (R.ST_VEL n) = 0 ∧ others t
    let faults := fun (t : State) (cause : Nat) => code t = 4 ∧ t.get (F.ST_FCAUSE_first n) = cause ∧ natBit (t.rd (R.ST_FCAUSE n)).toNat cause = true ∧
      flagged t 1 ∧ (t.stepper n).queue = [] ∧ (t.stepper n).cur = none ∧ (t.stepper n).v6 = 0 ∧ others t
    let condition := fun (owner : Nat) => s.bit F.SHUT_GCOND_cond 2 = true ∨ s.bit F.SYS_CLK_STAT_lock 8 = false ∨
      (s.seq (4 + 2 * owner)).mismatch = true
    let old := s.rd (R.ST_CFG n)
    let was := s.flag (F.ST_CFG_en n)
    let counts := fun (k : Nat) => s.flag (F.AX_CFG_en k) = true ∧ s.get (F.AX_CFG_src k) = 3 ∧ s.get (F.AX_CFG_sel_a k) = n.val
    let moving := st = 2 ∨ st = 3
    (∀ v : W32, let w := (v ||| 0x80000000) &&& 0xFFFFF000
      let a := (v.extractLsb' 16 3).toNat
      let b := (v.extractLsb' 19 3).toNat
      let held := was = true ∧ w &&& 0x7F3F0000 ≠ old &&& 0x7F3F0000
      let clash := a = b ∨ (∃ k < 4, k ≠ n.val ∧ s.flag (F.ST_CFG_en k) = true ∧ ∃ x ∈ [a, b], x = s.get (F.ST_CFG_cmp_a k) ∨ x = s.get (F.ST_CFG_cmp_b k)) ∨
        ∃ k < 2, natBit (s.get (F.MOT_TRIP_mask k)) a = true ∨ natBit (s.get (F.MOT_TRIP_mask k)) b = true
      (held ∨ clash → Completes (.stepperEnable n v) s (fun t => flagged t 5 ∧ t.rd (R.ST_CFG n) = old ∧ t.steppers = s.steppers ∧ code t = st)) ∧
      (was = true → ¬held → ¬clash → Completes (.stepperEnable n v) s (fun t => t.rd (R.ST_CFG n) = w ∧ t.steppers = s.steppers ∧ code t = st ∧
        t.rd (R.ST_OFFS n) = if v.getLsbD 13 then s.rd (R.ST_OFFS n) else 0)) ∧
      (was = false → ¬clash → Completes (.stepperEnable n v) s (fun t => t.rd (R.ST_CFG n) = w ∧ t.rd (R.ST_POS n) = 0 ∧ t.rd (R.ST_OFFS n) = 0 ∧
        t.get (F.ST_STATE_p n) = 0 ∧ (condition (v.extractLsb' 30 1).toNat ∨ st = 4 → code t = st) ∧ (¬condition (v.extractLsb' 30 1).toNat → st ≠ 4 → rests t)))) ∧
    (∀ v : W32, let w := v &&& 0x7FFFF000
      let held := was = true ∧ w &&& 0x7F3F0000 ≠ old &&& 0x7F3F0000
      (held → Completes (.stepperDisable n v) s (fun t => flagged t 5 ∧ t.rd (R.ST_CFG n) = old ∧ t.steppers = s.steppers ∧ code t = st)) ∧
      (was = false → Completes (.stepperDisable n v) s (fun t => t.rd (R.ST_CFG n) = w ∧ t.steppers = s.steppers ∧ code t = st)) ∧
      (was = true → ¬held → Completes (.stepperDisable n v) s (fun t => t.rd (R.ST_CFG n) = w ∧ code t = 0 ∧ (t.stepper n).queue = [] ∧
        (t.stepper n).cur = none ∧ (t.stepper n).v6 = 0 ∧ others t ∧
        ∀ k < 8, counts k → (s.axis k).valid = true ∨ (s.axis k).st = .acquire → (t.axis k).st = .lost))) ∧
    (¬moving → exec (.stepStop n) s = .next s ∧ exec (.stepHalt n) s = .next s) ∧
    (moving → Completes (.stepStop n) s (fun t => code t = 3 ∧ t.stepper n = { c with queue := [] } ∧ t.get (F.ST_STATE_occ n) = 0 ∧ others t) ∧
      Completes (.stepHalt n) s (fun t => rests t ∧ (t.stepper n).queue = [] ∧ t.get (F.ST_STATE_occ n) = 0)) ∧
    (let owner := s.get (F.ST_CFG_owner n);
      (st = 4 ∧ ¬condition owner → Completes (.stepClr n) s (fun t => (was = true → rests t) ∧ (was = false → code t = 0 ∧ others t) ∧
        (t.stepper n).m0 = s.rd (R.ST_POS n) ∧
        (t.stepper n).e0 = (s.axis ((s.rd (R.ST_STALL n)).extractLsb' 24 3).toNat).a.count)) ∧
      (st ≠ 4 ∨ condition owner → Completes (.stepClr n) s (fun t => flagged t 5 ∧ t.steppers = s.steppers ∧ code t = st)) ∧
      (∀ (m : Master) (v : W32), let d := (s.rd (R.ST_QD n)).toInt
        let refused := 16 ≤ c.queue.length ∨ st = 3 ∨ st = 4 ∨ st = 0 ∨ d = 0
        let q := c.queue ++ [⟨d, (v.extractLsb' 16 2).toNat, min 62500 (v.extractLsb' 0 16).toNat, v.getLsbD 19⟩]
        (isOwner m owner = false → Completes (.movePush m n v) s (fun t => flagged t 6 ∧ t.steppers = s.steppers)) ∧
        (isOwner m owner = true → refused → Completes (.movePush m n v) s (fun t => flagged t 4 ∧ t.steppers = s.steppers)) ∧
        (isOwner m owner = true → ¬refused → st ≠ 1 → Completes (.movePush m n v) s (fun t => t.stepper n = { c with queue := q } ∧ code t = st ∧ others t ∧
          (q.length < 16 → t.get (F.ST_STATE_occ n) = q.length))) ∧
        (isOwner m owner = true → ¬refused → st = 1 → Completes (.movePush m n v) s (fun t => code t = 2 ∧ (t.stepper n).queue = q.tail ∧
          (t.stepper n).cur = q.head? ∧ (∀ e, q.head? = some e → (t.stepper n).left = e.dist.natAbs) ∧ (t.stepper n).vEnd = none ∧ others t)))) ∧
    (c.cur = none → (st = 3 → Completes (.profileUpdate n) s rests) ∧ (st ≠ 3 → exec (.profileUpdate n) s = .next s)) ∧
    (∀ e, c.cur = some e → let p := s.profileOf n e
      let acc := c.acc + 400 * (c.v6 : Int)
      let far := c.left * 4 * 10 ^ 14 - acc
      let braked := fun (vend : Nat) => min c.v6 (max (c.v6 - if p.vbrk < c.v6 then p.d2 else p.d1) (if vend = 0 then p.vstop else vend))
      let raised := if c.v6 = 0 then min p.vstart p.vmax else min p.vmax (c.v6 + if c.v6 < p.vbrk then p.a1 else p.a2)
      let runs := fun (t : State) (v6 : Nat) => (t.stepper n).v6 = v6 ∧ (t.stepper n).cur = some e ∧ (t.stepper n).left = c.left ∧ (t.stepper n).acc = acc ∧ code t = st ∧ others t ∧
        t.rd (R.ST_VEL n) = BitVec.ofInt 32 (if e.dist < 0 then -(v6 / 10 ^ 6 : Nat) else (v6 / 10 ^ 6 : Nat))
      (st = 3 → c.v6 ≤ p.vstop → Completes (.profileUpdate n) s rests) ∧
      (st = 3 → p.vstop < c.v6 → Completes (.profileUpdate n) s (fun t => runs t (braked 0))) ∧
      (st = 2 → c.decel = true → c.vEnd.isSome = true → Completes (.profileUpdate n) s (fun t => runs t (braked (c.vEnd.getD 0)) ∧ (t.stepper n).decel = true)) ∧
      (st = 2 → c.decel = false → c.v6 = 0 ∨ c.vEnd = none ∧ p.mustBrake c.v6 0 far = false → Completes (.profileUpdate n) s (fun t =>
        runs t raised ∧ (t.stepper n).decel = false ∧ (t.stepper n).vEnd = c.vEnd)) ∧
      (st = 2 → c.decel = false → c.v6 ≠ 0 → c.vEnd = none → p.mustBrake c.v6 0 far = true → c.queue = [] ∨ e.blend = false →
        Completes (.profileUpdate n) s (fun t => runs t (braked 0) ∧ (t.stepper n).decel = true ∧ (t.stepper n).vEnd = some 0)) ∧
      (st ≠ 2 → st ≠ 3 → exec (.profileUpdate n) s = .next s)) ∧
    (c.cur = none ∨ c.v6 = 0 ∨ c.left = 0 ∨ c.acc + 400 * (c.v6 : Int) < 4 * 10 ^ 14 → exec (.microstep n) s = .next s) ∧
    (∀ e, c.cur = some e → c.v6 ≠ 0 → c.left ≠ 0 → 4 * 10 ^ 14 ≤ c.acc + 400 * (c.v6 : Int) → let unit := 256 / 2 ^ min 8 (s.get (F.ST_CFG_res n))
      let back := decide (e.dist < 0)
      Completes (.microstep n) s (fun t => t.get (F.ST_STATE_p n) = (s.get (F.ST_STATE_p n) + if back then 1024 - unit else unit) % 1024 ∧
        t.rd (R.ST_POS n) = (if back then s.rd (R.ST_POS n) - 1 else s.rd (R.ST_POS n) + 1) ∧ others t ∧
        (∀ k < 8, (t.axis k).fwdPulses = (s.axis k).fwdPulses + (if counts k ∧ back = false ∧ (s.axis k).fwdPulses < 7 then 1 else 0) ∧
          (t.axis k).revPulses = (s.axis k).revPulses + (if counts k ∧ back = true ∧ (s.axis k).revPulses < 7 then 1 else 0)) ∧
        (c.left ≠ 1 → t.stepper n = { c with left := c.left - 1, acc := c.acc - 4 * 10 ^ 14 } ∧ code t = st) ∧
        (c.left = 1 → t.get (F.ST_QSTAT_done n) = min 65535 (s.get (F.ST_QSTAT_done n) + 1) ∧ flagged t 7 ∧
          (st = 2 ∧ c.queue ≠ [] → code t = 2 ∧ (t.stepper n).cur = c.queue.head? ∧ (t.stepper n).queue = c.queue.tail ∧ (t.stepper n).v6 = min c.v6 (c.vEnd.getD 0)) ∧
          (¬(st = 2 ∧ c.queue ≠ []) → rests t)))) ∧
    (st = 1 → Completes (.standstillDelay n) s (fun t => t.stepper n = { c with standstill := true } ∧ others t ∧
      ∀ a, a ≠ R.ANA_CMPSTAT → t.rd a = s.rd a)) ∧
    (st ≠ 1 → exec (.standstillDelay n) s = .next s) ∧
    (∀ bb : Bool, let br := if bb then c.bridgeB else c.bridgeA
      let chops := (moving ∨ st = 1 ∧ (c.standstill = false ∨ 2 ≤ s.get (F.ST_CFG_stby n))) ∧ s.setCode n bb ≠ 0
      let cmp := if bb then s.get (F.ST_CFG_cmp_b n) else s.get (F.ST_CFG_cmp_a n)
      let kept := fun (t : State) => ∀ a, a ≠ R.ANA_CMPSTAT → t.rd a = s.rd a
      let phase := fun (t : State) (x : Bridge) => t.stepper n = (if bb then { c with bridgeB := x } else { c with bridgeA := x }) ∧ code t = st ∧ others t
      (∀ (len : W16) (long : Bool), let k := if long then min 4 (br.longOns + 1) else 0
        let due := chops ∧ br.on = true ∧ if long then s.get (F.ST_CHOP2_ton_max n) ≤ len.toNat
          else s.get (F.ST_CHOP_tblank n) ≤ len.toNat ∧ s.cmpAsserts cmp = true
        (¬due → exec (.chopOnEnd n bb len long) s = .next s) ∧
        (due → k ≠ 4 → Completes (.chopOnEnd n bb len long) s (fun t => phase t ⟨false, len.toNat, long, k⟩ ∧ kept t)) ∧
        (due → k = 4 → s.flag (F.ST_CFG_open_flt n) = false → Completes (.chopOnEnd n bb len long) s (fun t =>
          phase t ⟨false, len.toNat, long, k⟩ ∧ flagged t 3 ∧ (s.room (58 + n) = true → HoldsEvent (58 + n) 0x423 (if bb then 1 else 0) t))) ∧
        (due → k = 4 → s.flag (F.ST_CFG_open_flt n) = true → Completes (.chopOnEnd n bb len long) s (fun t => faults t 5 ∧ flagged t 3))) ∧
      (∀ len : W32, let due := chops ∧ br.on = false ∧ 10 * s.get (F.ST_CHOP_toff_min n) ≤ len.toNat ∧ s.cmpAsserts cmp = false
        (¬due → exec (.chopDecayEnd n bb len) s = .next s) ∧
        (due → s.flag (F.ST_CFG_adapt n) = false ∨ br.long = true → Completes (.chopDecayEnd n bb len) s (fun t =>
          phase t { br with on := true } ∧ kept t)) ∧
        (due → s.flag (F.ST_CFG_adapt n) = true → br.long = false → Completes (.chopDecayEnd n bb len) s (fun t =>
          let off := fun (x : State) => ((x.rd (R.ST_OFFS n)).extractLsb' (if bb then 0 else 16) 16).toInt
          let hy : Int := s.get (F.ST_CHOP_hyst n)
          let on : Int := max 1 br.tOn
          let dec : Int := max 1 len.toNat
          phase t { br with on := true } ∧ (∀ a, a ≠ R.ST_OFFS n → a ≠ R.ANA_CMPSTAT → t.rd a = s.rd a) ∧ -16 * hy ≤ off t ∧ off t ≤ 16 * hy ∧
          (t.rd (R.ST_OFFS n)).extractLsb' (if bb then 16 else 0) 16 = (s.rd (R.ST_OFFS n)).extractLsb' (if bb then 16 else 0) 16 ∧
          (let x := 8 * hy * (s.get (F.ST_CHOP_tdly n) : Int) * (dec - on); x % (on * dec) = 0 →
            off t = max (-16 * hy) (min (16 * hy) (off s + (-(x / (on * dec)) - off s) / 8))))))) ∧
    (let w := s.rd (R.ST_STALL n);
      let enc := s.axis (w.extractLsb' 24 3).toNat
      let turns := (s.rd (R.ST_POS n) - c.m0).toInt * (s.rd (R.ST_SRATIO n)).toInt
      let dev := (turns + 32768) / 65536 - (enc.a.count - c.e0).toInt
      (w.getLsbD 31 = false → exec (.stallCheck n) s = .next s) ∧
      (w.getLsbD 31 = true → enc.valid = false → Completes (.stallCheck n) s (fun t => t.rd (R.ST_STALL n) = w &&& 0x7FFFFFFF ∧ flagged t 2 ∧
        t.steppers = s.steppers ∧ code t = st)) ∧
      (w.getLsbD 31 = true → enc.valid = true → turns % 65536 ≠ 32768 → let stalls := (w.extractLsb' 0 16).toNat < dev.natAbs
        (¬stalls → Completes (.stallCheck n) s (fun t => t.rd (R.ST_DEV n) = BitVec.ofInt 32 dev ∧ (∀ a, a ≠ R.ST_DEV n → t.rd a = s.rd a) ∧ t.steppers = s.steppers)) ∧
        (stalls → w.getLsbD 30 = false → Completes (.stallCheck n) s (fun t => t.rd (R.ST_DEV n) = BitVec.ofInt 32 dev ∧ flagged t 2 ∧ t.steppers = s.steppers ∧ code t = st)) ∧
        (stalls → w.getLsbD 30 = true → Completes (.stallCheck n) s (fun t => t.rd (R.ST_DEV n) = BitVec.ofInt 32 dev ∧ flagged t 2 ∧
          natBit (t.rd (R.ST_FCAUSE n)).toNat 4 = true ∧ (st ≠ 4 → faults t 4))))) ∧
    (∀ v : W32, let w := (v ||| 0x80000000) &&& 0xC700FFFF
      let k := (v.extractLsb' 24 3).toNat
      let bad := s.get (F.AX_CFG_src k) = 3 ∧ s.get (F.AX_CFG_sel_a k) = n.val ∨ (s.axis k).valid = false
      (bad → Completes (.stallEnable n v) s (fun t => flagged t 5 ∧ t.rd (R.ST_STALL n) = s.rd (R.ST_STALL n) ∧ t.steppers = s.steppers)) ∧
      (¬bad → exec (.stallEnable n v) s = .next ((s.wr (R.ST_STALL n) w).setStepper n { c with m0 := s.rd (R.ST_POS n), e0 := (s.axis k).a.count })))

/-- R262 to R268, R272, R273, R426 to R431, R435 to R442: gates, shutter commands and configurations; the acceptance of event records into
rings and the holding queue; FAULT_N, the watchdog, heartbeats, tiles out of service, the duplicate comparators and self-tests. -/
def Obligations.ShutterAndSupervisorResults : Prop :=
  ∀ s : State, let bitOf := fun (t : State) (f : Field) (i : Nat) => natBit (t.get f) i
    (∀ (i : Fin 8) (level : Bool), let inv := s.flag (F.SNS_GATE_inv i) && i ≠ 1 && i ≠ 2
      let asserted := if i < 3 then level == inv else level != inv
      let on := asserted && s.flag (F.SNS_GATE_en i)
      let follows := fun (t : State) (h : Sh) (c : Bool) => bitOf t h.condField (8 + i) = c ∧
        bitOf t h.latchField (8 + i) = (c || bitOf s h.latchField (8 + i)) ∧ ∀ k < 16, k ≠ 8 + i.val → bitOf t h.latchField k = bitOf s h.latchField k
      Completes (.sensorGateChange i level) s (fun t => bitOf t F.SNS_GLVL_raw i = level ∧ bitOf t F.SNS_GLVL_asserted i = asserted ∧
        bitOf t F.SNS_GSTAT_seen i = (on || bitOf s F.SNS_GSTAT_seen i) ∧ follows t .global (on && s.flag (F.SNS_GATE_glob i)) ∧
        ∀ b < 8, follows t (.bar b) (on && bitOf s (F.SNS_GATE_bars i) b))) ∧
    (let levels := (Shutter.global, F.SHUT_GSTAT_latch, F.SHUT_GSTAT_closed, F.SHUT_GCOND_cond, F.SHUT_GERR_code, F.SHUT_GERR_err) ::
        (List.finRange 8).map (fun b => (Shutter.bar b, F.SHUT_B_STAT_latch b, F.SHUT_B_STAT_closed b, F.SHUT_B_COND_cond b, F.SHUT_B_ERR_code b, F.SHUT_B_ERR_err b));
      ∀ e ∈ levels, let latch := s.get e.2.1
      (∀ v : W32, Completes (.shutCloseCmd e.1 v) s (fun t => t.get e.2.1 = latch ||| 1 ∧ (bitOf s e.2.1 0 = false → t.get e.2.2.1 = 1) ∧
        (bitOf s e.2.1 0 = true → t = s))) ∧
      ∀ v : W32, let ack := v.toNat % 65536
        let code := if v.getLsbD 31 then 4 else if e.1 = .global ∧ s.get F.SHUT_MODE_mode = 0 then 3 else if ack ≠ latch then 1 else if s.get e.2.2.2.1 &&& ack ≠ 0 then 2 else 0
        (code ≠ 0 → Completes (.shutOpenCmd e.1 v) s (fun t => t.get e.2.2.2.2.1 = code ∧ t.get e.2.2.2.2.2 = 1 ∧ t.get e.2.1 = latch ∧ t.get e.2.2.1 = s.get e.2.2.1)) ∧
        (code = 0 → Completes (.shutOpenCmd e.1 v) s (fun t => t.get e.2.1 = 0 ∧ t.get e.2.2.1 = 0 ∧ t.get e.2.2.2.2.2 = s.get e.2.2.2.2.2))) ∧
    (∀ v : W32, let k := (v.extractLsb' 16 9).toNat
      let ack := v.toNat % 256
      let there := fun (k : Nat) => k < 384 ∧ natBit s.lanesOff (k / 16) = false
      let fails := fun (t : State) (code tile : Nat) => t.get F.SHUT_TERR_code = code ∧ t.get F.SHUT_TERR_tile = tile ∧ t.get F.SHUT_TERR_err = 1
      let code := if v.getLsbD 31 then 4 else if ¬there k then 5 else if ack ≠ s.get (F.SHUT_T_latch k) then 1 else if s.get (F.SHUT_T_cond k) &&& ack ≠ 0 then 2 else 0
      (v.getLsbD 29 = false → (¬there k → exec (.shutCloseCmd .tile v) s = .next s) ∧
        (there k → Completes (.shutCloseCmd .tile v) s (fun t => ∀ j < 384, t.get (F.SHUT_T_latch j) = if j = k then s.get (F.SHUT_T_latch j) ||| 1 else s.get (F.SHUT_T_latch j))) ∧
        (code ≠ 0 → Completes (.shutOpenCmd .tile v) s (fun t => fails t code k ∧ ∀ j < 384, t.rd (R.SHUT_T j) = s.rd (R.SHUT_T j))) ∧
        (code = 0 → Completes (.shutOpenCmd .tile v) s (fun t => t.get (F.SHUT_T_latch k) = 0 ∧ t.get (F.SHUT_T_closed k) = 0 ∧ ∀ j < 384, j ≠ k → t.rd (R.SHUT_T j) = s.rd (R.SHUT_T j)))) ∧
      (v.getLsbD 29 = true → Completes (.shutCloseCmd .tile v) s (fun t => ∀ j < 384, t.get (F.SHUT_T_latch j) = if there j then s.get (F.SHUT_T_latch j) ||| 1 else s.get (F.SHUT_T_latch j)) ∧
        (v.getLsbD 31 = true → Completes (.shutOpenCmd .tile v) s (fun t => fails t 4 0x1FF ∧ ∀ j < 384, t.rd (R.SHUT_T j) = s.rd (R.SHUT_T j))) ∧
        (v.getLsbD 31 = false → let named := fun (j : Nat) => there j ∧ s.get (F.SHUT_T_latch j) = ack
          let barred := fun (j : Nat) => s.get (F.SHUT_T_cond j) &&& ack ≠ 0
          Completes (.shutOpenCmd .tile v) s (fun t => (∀ j < 384, t.get (F.SHUT_T_latch j) = if named j ∧ ¬barred j then 0 else s.get (F.SHUT_T_latch j)) ∧
            ((∀ j < 384, named j → ¬barred j) → t.rd R.SHUT_TERR = s.rd R.SHUT_TERR) ∧
            ∀ j < 384, named j → barred j → (∀ i < j, named i → ¬barred i) → fails t 2 j)))) ∧
    (∀ (b : Fin 8) (limit : Bool), let due := tabGet 0 s.lbUnits b ≠ 0 ∧ (limit = true ∨ s.halfPassed b = false)
      (¬due → exec (.lineBoundaryClose b limit) s = .next s) ∧
      (due → Completes (.lineBoundaryClose b limit) s (fun t => (tabFind t.lbForce b).isSome = true ∧ bitOf t (F.SHUT_B_COND_cond b) 1 = true ∧
        bitOf t (F.SHUT_B_STAT_latch b) 1 = true ∧ ∀ k < 16, k ≠ 1 → bitOf t (F.SHUT_B_STAT_latch b) k = bitOf s (F.SHUT_B_STAT_latch b) k))) ∧
    (∀ m : BitVec 2, let mode := s.get F.SHUT_MODE_mode
      (mode ≠ 0 → m.toNat ≠ mode → exec (.shutModeSelect m) s = .next (s.set F.SHUT_MODE_err 1)) ∧
      (mode ≠ 0 ∧ m.toNat = mode ∨ mode = 0 ∧ (m = 0 ∨ m = 3) → exec (.shutModeSelect m) s = .next s) ∧
      (mode = 0 → m = 1 → exec (.shutModeSelect m) s = .next (s.set F.SHUT_MODE_mode 1)) ∧
      (mode = 0 → m = 2 → Completes (.shutModeSelect m) s (fun t => t.get F.SHUT_MODE_mode = 2 ∧ ∀ n < 24, natBit s.lanesOff n = false →
        t.flag (F.HEALTH_GOV_CFG_en n) = true ∧ (s.flag (F.HEALTH_GOV_CFG_en n) = false → ∀ p < 16, (t.tile (n * 16 + p)).curDrops = [] ∧ (t.tile (n * 16 + p)).curEnergy = 0)))) ∧
    (∀ src : Fin 118, let ring := ((s.rd (R.SUP_SRCMAP (src / 8))).extractLsb' (src % 8 * 4) 4).toNat
      let entries := 2 ^ (min (s.get (F.SUP_RING_CFG_size ring)) 12 + 4)
      let wr := s.get (F.SUP_RING_WR_wr ring)
      let free := entries - 1 - (wr + entries - s.get (F.SUP_RING_RD_rd ring) % entries) % entries
      let base := 0x03900000 + s.get (F.SUP_RING_BASE_off ring) * 32 + wr * 32
      let gap := tabGet false s.ev.gap src
      let no := tabGet 0 s.ev.seqNo src
      let open_ := s.flag (F.SUP_RING_CFG_en ring) = true ∧ ∀ h ∈ s.ev.holding, h.1 ≠ ring
      let due := fun (k : Nat) => tabGet [] s.ev.buf k ≠ []
      let first := ∀ k < src.val, ¬due k
      let turn := due src ∧ (s.ev.served = none → first) ∧
        ∀ last ∈ s.ev.served, (∀ k < 118, last < k → (last < src.val → k < src.val) → ¬due k) ∧ (src.val ≤ last → first)
      (¬turn → exec (.eventAccept src) s = .next s) ∧
      (turn → ∀ r rest, tabGet [] s.ev.buf src = r :: rest → r.src = src.val →
        let refuses := free = 0 ∨ free ≤ s.get (F.SUP_RING_RSV_n ring) ∧ r.sev < s.get (F.SUP_RING_CFG_rsv_sev ring)
        let time := (s.get F.PTP_SECH_sech * 2 ^ 32 + s.get F.PTP_SECL_secl) * 10 ^ 9 + s.get F.PTP_NS_ns
        let record : List W32 := [BitVec.ofNat 32 (src * 2 ^ 24 + no % 2 ^ 24),
          BitVec.ofNat 32 (r.kind * 2 ^ 16 + r.sev * 2 ^ 12 + r.axis * 2 ^ 8 + (if r.injected then 4 else 0) + (if gap then 2 else 0) + s.get F.PTP_STAT_stat),
          BitVec.ofNat 32 time, BitVec.ofNat 32 (time / 2 ^ 32), r.stamp, r.loc.extractLsb' 0 32, r.loc.extractLsb' 32 32, r.detail]
        let taken := fun (t : State) => tabGet [] t.ev.buf src = rest ∧ t.ev.served = some src.val ∧ (∀ k < 118, k ≠ src.val → tabGet [] t.ev.buf k = tabGet [] s.ev.buf k)
        (open_ → ¬refuses → Completes (.eventAccept src) s (fun t => taken t ∧ t.get (F.SUP_RING_WR_wr ring) = (wr + 1) % entries ∧ t.ev.holding = s.ev.holding ∧
          (∀ k < 8, t.wordAt (base + 4 * k) = record.getD k 0) ∧ (∀ a, a < base ∨ base + 32 ≤ a → t.rdByte a = s.rdByte a) ∧
          tabGet 0 t.ev.seqNo src = (no + 1) % 2 ^ 24 ∧ tabGet false t.ev.gap src = false)) ∧
        (open_ → refuses → Completes (.eventAccept src) s (fun t => taken t ∧ t.get (F.SUP_RING_STAT_lost ring) = min 65535 (s.get (F.SUP_RING_STAT_lost ring) + 1) ∧
          tabGet false t.ev.gap src = true ∧ tabGet 0 t.ev.seqNo src = no ∧ SameMemory s t ∧ t.ev.holding = s.ev.holding)) ∧
        (¬open_ → s.ev.holding.length < 64 → Completes (.eventAccept src) s (fun t => taken t ∧ t.ev.holding = s.ev.holding ++ [(ring, r.sev, record)] ∧
          tabGet 0 t.ev.seqNo src = (no + 1) % 2 ^ 24 ∧ tabGet false t.ev.gap src = false ∧ SameMemory s t ∧ t.regs = s.regs)) ∧
        (¬open_ → 64 ≤ s.ev.holding.length → Completes (.eventAccept src) s (fun t => taken t ∧ t.get F.SUP_HOLD_lost = min 255 (s.get F.SUP_HOLD_lost + 1) ∧
          tabGet false t.ev.gap src = true ∧ tabGet 0 t.ev.seqNo src = no ∧ SameMemory s t ∧ t.ev.holding = s.ev.holding)))) ∧
    (∀ (r : Fin 16) (v : W32), let was := s.flag (F.SUP_RING_CFG_en r)
      let length := 2 ^ (min (v.extractLsb' 20 4).toNat 12 + 4) * 32
      let off := s.get (F.SUP_RING_BASE_off r) * 32
      let misplaced := 0x300000 < off + length ∨ off % length ≠ 0
      let enables := was = false ∧ v.getLsbD 31 = true
      let resizes := was = true ∧ (v.extractLsb' 20 4).toNat ≠ s.get (F.SUP_RING_CFG_size r)
      let sole := fun (h : Nat × Nat × List W32) => h.1 = r.val ∧ h.2.2.length = 8 ∧ ∀ x ∈ s.ev.holding.tail, x.1 ≠ r.val
      (resizes ∨ enables ∧ misplaced → Completes (.eventRingEnable r v) s (fun t => t.get (F.SUP_RING_STAT_err r) = 1 ∧
        ∀ a, a ≠ R.SUP_RING_STAT r → t.rd a = s.rd a)) ∧
      (¬resizes → ¬enables → exec (.eventRingEnable r v) s = .next (s.wr (R.SUP_RING_CFG r) v)) ∧
      (enables → ¬misplaced → (∀ h ∈ s.ev.holding, h.1 ≠ r.val) → Completes (.eventRingEnable r v) s (fun t => t.rd (R.SUP_RING_CFG r) = v ∧
        t.get (F.SUP_RING_WR_wr r) = 0 ∧ t.get (F.SUP_RING_RD_rd r) = 0 ∧ t.ev.holding = s.ev.holding ∧ SameMemory s t)) ∧
      (enables → ¬misplaced → ∀ h ∈ s.ev.holding.head?, sole h → (v.extractLsb' 16 4).toNat ≤ h.2.1 → Completes (.eventRingEnable r v) s (fun t =>
        t.get (F.SUP_RING_WR_wr r) = 1 ∧ t.ev.holding = s.ev.holding.tail ∧ ∀ k < 8, t.wordAt (0x03900000 + off + 4 * k) = h.2.2.getD k 0)) ∧
      ∀ x : W16, let entries := 2 ^ (min (s.get (F.SUP_RING_CFG_size r)) 12 + 4)
        let wr := s.get (F.SUP_RING_WR_wr r)
        let free := entries - 1 - (wr + entries - x.toNat % entries) % entries
        (was = false ∨ (∀ h ∈ s.ev.holding, h.1 ≠ r.val) → exec (.eventRingRdWrite r x) s = .next (s.set (F.SUP_RING_RD_rd r) x.toNat)) ∧
        (was = true → ∀ h ∈ s.ev.holding.head?, sole h → let refuses := free = 0 ∨ free ≤ s.get (F.SUP_RING_RSV_n r) ∧ h.2.1 < s.get (F.SUP_RING_CFG_rsv_sev r)
          (refuses → exec (.eventRingRdWrite r x) s = .next (s.set (F.SUP_RING_RD_rd r) x.toNat)) ∧
          (¬refuses → Completes (.eventRingRdWrite r x) s (fun t => t.get (F.SUP_RING_RD_rd r) = x.toNat ∧ t.get (F.SUP_RING_WR_wr r) = (wr + 1) % entries ∧
            t.ev.holding = s.ev.holding.tail ∧ ∀ k < 8, t.wordAt (0x03900000 + off + wr * 32 + 4 * k) = h.2.2.getD k 0)))) ∧
    (∀ p : W16, Completes (.watchdogStart p) s (fun t => t.flag F.SUP_WDOG_en = true ∧ t.get F.SUP_WDOG_period = p.toNat ∧
      t.get F.SUP_WDOG_stage1 = s.get F.SUP_WDOG_stage1 ∧ ∀ a, a ≠ R.SUP_WDOG → t.rd a = s.rd a)) ∧
    (∀ (m : Master) (key : W16), let serves := m = .host ∨ ∃ q < 4, m = .seq q
      (¬serves → exec (.watchdogKick m key) s = .next s) ∧
      (serves → key = 0x5A5A → exec (.watchdogKick m key) s = .next { s with wdFirst := true }) ∧
      (serves → key ≠ 0x5A5A → key ≠ 0xA5A5 ∨ s.wdFirst = false → exec (.watchdogKick m key) s = .next { s with wdFirst := false }) ∧
      (serves → key = 0xA5A5 → s.wdFirst = true → Completes (.watchdogKick m key) s (fun t => t.wdFirst = false ∧ t.flag F.SUP_WDOG_stage1 = false ∧
        (s.flag F.SUP_WDOG_stage1 = true → bitOf t F.SUP_GCOND_cond 4 = false) ∧ ∀ k < 6, k ≠ 4 → bitOf t F.SUP_GCOND_cond k = bitOf s F.SUP_GCOND_cond k))) ∧
    (let first := s.flag F.SUP_WDOG_en = true ∧ s.flag F.SUP_WDOG_stage1 = false;
      (¬first → exec .watchdogStage1 s = .next s) ∧
      (first → Completes .watchdogStage1 s (fun t => t.flag F.SUP_WDOG_stage1 = true ∧ bitOf t F.SUP_GCOND_cond 4 = true ∧ bitOf t F.SUP_FAULTN_latch 3 = true ∧
        t.flag F.SUP_FAULTN_asserted = true ∧ bitOf t F.SHUT_GCOND_cond 1 = true ∧ bitOf t F.SHUT_GSTAT_latch 1 = true ∧
        ((tabGet [] s.ev.buf 63).length < 3 → HoldsEvent 63 0x4E5 0 t)))) ∧
    (let held := [0, 1, 3, 4].any (bitOf s F.SUP_GCOND_cond)
      let latch := s.get F.SUP_FAULTN_latch;
      (∀ release : Bool, Completes (.faultnAssert release) s (fun t => t.flag F.SUP_FAULTN_asserted = true ∧
        (release = true ∧ held = false → t.get F.SUP_FAULTN_latch = 16) ∧ (release = false ∨ held = true → t.get F.SUP_FAULTN_latch = latch ||| 16) ∧
        t.get F.SUP_FAULTN_err = (if release && held then 1 else s.get F.SUP_FAULTN_err) ∧ ∀ a, a ≠ R.SUP_FAULTN → t.rd a = s.rd a)) ∧
      (held = true → exec .faultnRelease s = .next (s.set F.SUP_FAULTN_err 1)) ∧
      (held = false → Completes .faultnRelease s (fun t => t.get F.SUP_FAULTN_latch = 0 ∧ t.get F.SUP_FAULTN_asserted = 0 ∧ t.get F.SUP_FAULTN_err = s.get F.SUP_FAULTN_err ∧
        ∀ a, a ≠ R.SUP_FAULTN → t.rd a = s.rd a))) ∧
    (∀ (q : Fin 48), let run := (s.seq q).run
      let watched := s.flag (F.SUP_HBCFG_en q) = true ∧ s.seqFused q = false
      let beat := (tabFind s.beats q).isSome = true
      let runs := run = .running ∨ run = .waiting
      (∀ m : Master, ((∃ w : Fin 48, m = .seq w ∧ s.ctxOf q = w.val) → exec (.heartbeat m q) s = .next { s with beats := tabPut s.beats q () }) ∧
        ((∀ w : Fin 48, m = .seq w → s.ctxOf q ≠ w.val) → exec (.heartbeat m q) s = .next s)) ∧
      (watched → beat → exec (.heartbeatTimeout q) s = .next { s with beats := tabDel s.beats q }) ∧
      (¬watched ∨ ¬beat ∧ ¬runs → exec (.heartbeatTimeout q) s = .next s) ∧
      (watched → ¬beat → runs → Completes (.heartbeatTimeout q) s (fun t => (t.seq q).run = .halted ∧ (t.seq q).wait = .none ∧ OtherSeqsSame q s t ∧
        (q < 32 → bitOf t F.SUP_UNITSTAT0_mism q = true) ∧ (32 ≤ q → bitOf t F.SUP_UNITSTAT1_mism (q - 32) = true) ∧
        (q < 4 → bitOf t F.SUP_GCOND_cond (q / 2) = true) ∧ (4 ≤ q → t.get F.SUP_GCOND_cond = s.get F.SUP_GCOND_cond) ∧
        ((tabGet [] s.ev.buf 63).length < 3 → HoldsEvent 63 0x4E4 ((if run = .running then 2 else 3) * 2 ^ 24 + q) t)))) ∧
    (∀ (k : Fin 12) (v : W32), Completes (.tileOutOfService k v) s (fun t => ∀ j < 32, let tile := 32 * k.val + j
      let moves := natBit s.lanesOff (tile / 16) = false ∧ bitOf s (F.SUP_TOOS_oos k) j ≠ v.getLsbD j
      bitOf t (F.SUP_TOOS_oos k) j = (if natBit s.lanesOff (tile / 16) then bitOf s (F.SUP_TOOS_oos k) j else v.getLsbD j) ∧
      (¬moves → t.rd (R.SHUT_T tile) = s.rd (R.SHUT_T tile)) ∧
      (moves → bitOf t (F.SHUT_T_cond tile) 1 = v.getLsbD j ∧ bitOf t (F.SHUT_T_latch tile) 1 = (v.getLsbD j || bitOf s (F.SHUT_T_latch tile) 1)))) ∧
    (∀ (n : Fin 24) (builder : Bool), (natBit s.lanesOff n = true → exec (.leDuplicateMismatch n builder) s = .next s) ∧
      (natBit s.lanesOff n = false → Completes (.leDuplicateMismatch n builder) s (fun t => t.get (F.LANE_STATE_state n) = 0 ∧ t.flag (F.LANE_CTL_en n) = false ∧
        ((tabGet [] s.ev.buf 63).length < 4 → HoldsEvent 63 0x4E6 (if builder then 1 else 0) t)))) ∧
    (∀ x : BitVec 10, exec (.selftestRun x) s = .next { s with testing := s.testing ||| (x &&& 0x23F).toNat }) ∧
    (∀ (m : Fin 10) (passed : Bool), (natBit s.testing m = false → exec (.selftestComplete m passed) s = .next s) ∧
      (natBit s.testing m = true → Completes (.selftestComplete m passed) s (fun t => natBit t.testing m = false ∧ bitOf t F.SUP_STRES_done m = true ∧
        bitOf t F.SUP_STRES_pass m = passed ∧ (passed = true → tabFind t.monPassed m = some s.uptime ∧ t.get F.SUP_GUAR_st_fail = s.get F.SUP_GUAR_st_fail) ∧
        (passed = false → t.flag F.SUP_GUAR_st_fail = true ∧ t.monPassed = s.monPassed) ∧
        (m = 1 ∨ m = 5 → natBit t.monFailed m = !passed ∧ bitOf t F.SUP_GCOND_cond 5 = decide (t.monFailed ≠ 0)) ∧
        (m ≠ 1 → m ≠ 5 → t.monFailed = s.monFailed ∧ t.get F.SUP_GCOND_cond = s.get F.SUP_GCOND_cond) ∧
        (s.room 63 = true → HoldsEvent 63 0x4E7 ((if passed then 0x100 else 0) + m) t))))

/-- R324 to R328, R336, R338, R339, R341 to R365, R442: the commands of the memory engines, and those of the Gust channels. A channel does
only what the instruction it is at says; a record goes whole to the ring, or waits for space, or disables the ring. -/
def Obligations.MemoryAndGustResults : Prop :=
  ∀ s : State,
    (∀ w : BitVec 40, let b := memWordBase w.toNat
      (∀ e, tabFind s.cells b = some e → e ≠ .double → e ≠ .multi → exec (.correctionWriteback w) s = .next { s with cells := tabDel s.cells b }) ∧
      (tabFind s.cells b ∈ [none, some .double] → exec (.correctionWriteback w) s = .next s) ∧
      (tabFind s.cells b = some .multi → Completes (.correctionWriteback w) s (fun t => (∀ a, memWordBase a ≠ b → t.rdByte a = s.rdByte a) ∧
        (tabFind t.cells b ≠ none → SameMemory s t ∧ t.cells = s.cells))) ∧
      ∀ found : Option CellErr, let reads := s.flag F.MEM_SCRUB_en = true ∧ s.memAbsent w.toNat = false
        let cell := found.or (tabFind s.cells b)
        (¬reads → exec (.scrubRead w found) s = .next s) ∧
        (reads → cell = none → exec (.scrubRead w found) s = .next s) ∧
        (reads → ∀ e, cell = some e → Completes (.scrubRead w found) s (fun t => SameMemory s t ∧ tabFind t.cells b = some e ∧
          (e = .double → t.get F.MEM_UECNT_v = min 0xFFFFFFFF (s.get F.MEM_UECNT_v + 1) ∧ (s.room 63 = true → HoldsEvent 63 0x441 0xFF t)) ∧
          (e ≠ .double → e ≠ .multi → let n := min 0xFFFF (tabGet 0 s.ceCount (ceUnit w.toNat) + 1)
            t.get F.MEM_CECNT_v = min 0xFFFFFFFF (s.get F.MEM_CECNT_v + 1) ∧
            ((tabFind s.ceOpen (ceUnit w.toNat)).isSome = true → tabGet 0 t.ceCount (ceUnit w.toNat) = n ∧ t.ev = s.ev) ∧
            ((tabFind s.ceOpen (ceUnit w.toNat)).isNone = true → (tabFind t.ceOpen (ceUnit w.toNat)).isSome = true ∧ tabGet 0 t.ceCount (ceUnit w.toNat) = 0 ∧
              (s.room 63 = true → isSram w.toNat = true → HoldsEvent 63 0x440 n t)))))) ∧
    (∀ u : Fin 772, exec (.ceWindowExpire u) s = .next { s with ceOpen := tabDel s.ceOpen u }) ∧
    (∀ dram finished : Bool, let late := s.flag F.MEM_SCRUB_en && !finished
      (late = false → exec (.scrubPassEnd dram finished) s = .next s) ∧
      (late = true → Completes (.scrubPassEnd dram finished) s (fun t => t.scrubLate = true ∧ (s.room 63 = true → HoldsEvent 63 0x442 (if dram then 1 else 0) t) ∧
        t.flag (if dram then F.MEM_SCRSTAT_dram_late else F.MEM_SCRSTAT_sram_late) = true))) ∧
    (∀ (u : Fin 768) (m : Option (Fin 53)), let low := m.all (fun k => decide (48 ≤ k.val))
      (low = false → exec (.starve u m) s = .next s) ∧
      (low = true → Completes (.starve u m) s (fun t => t.get F.MEM_STARVE_v = min 0xFFFFFFFF (s.get F.MEM_STARVE_v + 1) ∧
        (s.room 63 = true → HoldsEvent 63 0x443 ((m.map Fin.val).getD 0xFF) t)))) ∧
    (let dram := s.flag F.MEM_MARCH_dram
      let mode := s.get F.MEM_MARCH_mode
      let first := s.get F.MEM_MTGT_first + if dram then 0x300 else 0
      let count := min (max 1 (s.get F.MEM_MTGT_count)) ((if dram then 64 else 768) - s.get F.MEM_MTGT_first)
      let blocked := dram = false ∧ mode ≠ 1 ∧ ∃ k < count, ∃ q ∈ macroOwner (first + k), s.seqFused q = false ∧ (s.seq q).run ≠ .halted
      let refused := mode = 3 ∨ mode = 1 ∧ dram = true ∨ blocked;
      (s.march.isSome = true → exec .marchGo s = .next s) ∧
      (s.march = none → refused → exec .marchGo s = .next (s.set F.MEM_MSTAT_refused 1)) ∧
      (s.march = none → ¬refused → exec .marchGo s = .next { s.set F.MEM_MARCH_busy 1 with march := some ⟨mode, s.flag F.MEM_MARCH_repair, dram, first, count⟩ })) ∧
    (∀ rows : List (Fin 832), (s.march = none → exec (.marchComplete rows) s = .next s) ∧
      ∀ m, s.march = some m → let hits := rows.filter (fun r => m.covers r.val && !s.targetFused r.val)
        Completes (.marchComplete rows) s (fun t => t.march = none ∧ t.get F.MEM_MARCH_busy = 0 ∧ t.get F.MEM_MSTAT_done = 1 ∧
          (∀ a, t.rdByte a = if m.mode ≠ 1 ∧ m.covers (marchTarget a) = true ∧ s.targetFused (marchTarget a) = false then 0 else s.rdByte a) ∧
          (hits = [] → t.get F.MEM_MSTAT_rep = 0 ∧ t.get F.MEM_MSTAT_unrep = 0 ∧ t.get F.MEM_MSTAT_fail = s.get F.MEM_MSTAT_fail ∧
            t.sparesUsed = s.sparesUsed ∧ t.failedTargets = s.failedTargets ∧
            (m.mode = 1 → m.first = 0 → m.count = 768 → tabFind t.monPassed 8 = some s.uptime)) ∧
          (hits ≠ [] → m.repair = false → t.get F.MEM_MSTAT_rep = 0 ∧ t.get F.MEM_MSTAT_unrep = min 65535 hits.length ∧ t.get F.MEM_MSTAT_fail = 1 ∧
            ∀ r ∈ hits, (tabFind t.failedTargets r).isSome = true) ∧
          (∀ r, hits = [r] → m.repair = true → let used := tabGet 0 s.sparesUsed r
            (used < 4 → t.get F.MEM_MSTAT_rep = 1 ∧ t.get F.MEM_MSTAT_unrep = 0 ∧ tabGet 0 t.sparesUsed r = used + 1 ∧ t.failedTargets = s.failedTargets) ∧
            (4 ≤ used → t.get F.MEM_MSTAT_rep = 0 ∧ t.get F.MEM_MSTAT_unrep = 1 ∧ t.get F.MEM_MSTAT_fail = 1 ∧ (tabFind t.failedTargets r).isSome = true)))) ∧
    (∀ c : Fin 40, let x := s.chan c
      let st := s.get (F.GUST_CH_STAT_state c)
      let code := fun (t : State) => t.get (F.GUST_CH_STAT_state c)
      let others := fun (t : State) => ∀ k < 40, k ≠ c.val → t.chan k = s.chan k
      let stops := fun (t : State) (status fa : Nat) => t.get (F.GUST_CH_STAT_status c) = status ∧ t.rd (R.GUST_CH_FADDRL c) = BitVec.ofNat 32 fa ∧
        t.get (F.GUST_CH_FADDRH_addr_hi c) = fa / 2 ^ 32 % 256 ∧ others t ∧ (32 ≤ c.val → code t = 5 ∧ SameMemory s t)
      let goes := fun (t : State) (idx : Int) => code t = 1 ∧ (t.chan c).idx = idx ∧ (t.chan c).cur = [] ∧ (t.chan c).wait = .none ∧
        t.get (F.GUST_CH_STAT_index c) = (idx % 65536).toNat
      let fl := fun (g : List W32) (b : Nat) => (g.getD 0 0).getLsbD b
      let ring := s.get (F.GUST_CH_CFG_ring c)
      let entries := 2 ^ (min (s.get (F.GUST_RING_SIZE_size ring)) 12 + 4)
      let wr := s.get (F.GUST_RING_WR_wr ring)
      let full := (wr + entries - s.get (F.GUST_RING_RD_rd ring) % entries) % entries = entries - 1
      let entry := (s.rd (R.GUST_RING_BASEH ring)).toNat * 2 ^ 32 + (s.rd (R.GUST_RING_BASEL ring)).toNat + 16 * wr
      let writes := s.memCheck 48 entry 16 .write = none ∧ s.sound entry 16
      let records := fun (t : State) (words : List W32) => (∀ k < 4, t.wordAt (entry + 4 * k) = words.getD k 0) ∧
        (∀ a, a < entry ∨ entry + 16 ≤ a → t.rdByte a = s.rdByte a) ∧ t.get (F.GUST_RING_WR_wr ring) = (wr + 1) % entries ∧
        t.get (F.GUST_CH_SEQ_seq c) = (s.get (F.GUST_CH_SEQ_seq c) + 1) % 65536
      let disables := fun (t : State) => t.get (F.GUST_RING_SIZE_en ring) = 0 ∧ t.get (F.GUST_RING_STAT_err ring) = 1 ∧ SameMemory s t ∧
        t.get (F.GUST_RING_WR_wr ring) = wr
      let barred := fun (m : Master) => 32 ≤ c.val ∧ m ≠ .debug ∧ ∀ q < 4, m ≠ .seq q
      (∀ (m : Master) (v : W32), (barred m → ∀ f ∈ [Instr.gustGo m c v, .gustAbort m c v, .gustDisable m c v], exec f s = .next (s.set F.GUST_GSTAT_priv_err 1)) ∧
        (¬barred m → Completes (.gustDisable m c v) s (fun t => code t = 0 ∧ t.chan c = { window := x.window } ∧ others t ∧ SameMemory s t)) ∧
        (¬barred m → v.getLsbD 29 = false → Completes (.gustAbort m c v) s (fun t => code t = (if st = 1 ∨ st = 2 then 3 else st) ∧ t.chans = s.chans ∧ SameMemory s t)) ∧
        (¬barred m → v.getLsbD 29 = false → v.getLsbD 30 = false →
          let refused := ¬(st = 0 ∨ st = 4 ∨ st = 5) ∨ s.get (F.GUST_CH_CFG_class c) = 3 ∨ c.val < 32 ∧ s.flag (F.GUST_RING_SIZE_en ring) = false
          (refused → Completes (.gustGo m c v) s (fun t => t.get (F.GUST_CH_CTL_err c) = 1 ∧ code t = st ∧ t.chans = s.chans)) ∧
          (¬refused → Completes (.gustGo m c v) s (fun t => goes t 0 ∧ t.chan c = { window := x.window } ∧ t.get (F.GUST_CH_STAT_status c) = s.get (F.GUST_CH_STAT_status c) ∧
            (st = 0 → t.get (F.GUST_CH_BYTES_count c) = 0) ∧ t.rd (R.GUST_CH_CRC c) = 0 ∧ others t)))) ∧
      (∀ e ∈ [(1, Instr.gustMove c), (5, .gustFill c), (6, .gustCmp c), (7, .gustCrc c), (2, .gustLoop c), (3, .gustWait c), (4, .gustSignal c), (15, .gustEnd c)],
        (st ≠ 1 → exec e.2 s = .next s) ∧
        (∀ g, s.atInstr c (GInstr.op g) g → GInstr.op g ≠ e.1 → exec e.2 s = .next s) ∧
        (st = 1 → x.cur = [] → s.fetchAddr c % 32 = 0 → let pass := s.memCheck (chMaster c) (s.fetchAddr c) 32 .read = none
          (¬pass → Completes e.2 s (fun t => stops t (if s.memAbsent (s.fetchAddr c) ∨ s.memAbsent (s.fetchAddr c + 31) then 2 else 3) (s.fetchAddr c))) ∧
          (pass → s.sound (s.fetchAddr c) 32 → GInstr.bad ((List.range 8).map (fun k => s.wordAt (s.fetchAddr c + 4 * k))) (s.get (F.GUST_CH_CFG_class c)) (isEventChannel c) x = true →
            Completes e.2 s (fun t => stops t 8 0)))) ∧
      (let moves := fun (g : List W32) (t : State) => goes t (x.idx + 1) ∧ others t ∧ t.get (F.GUST_CH_RES_bytes c) = 0 ∧ t.get (F.GUST_CH_LRES_lines c) = 0
        let starts := x.line = 0 ∧ x.off = 0 ∧ x.orig = [] ∧ s.get (F.GUST_CH_CFG_share c) = 0
        let size := fun (g : List W32) => ((g.getD 2 0).extractLsb' 8 24).toNat + 1
        let lines := fun (g : List W32) => ((g.getD 4 0).extractLsb' 16 16).toNat
        let src := fun (g : List W32) (k : Nat) => lineAddr (GInstr.src g x) (g.getD 5 0) k 0
        let dst := fun (g : List W32) (k : Nat) => lineAddr (GInstr.dst g x) (g.getD 6 0) k 0
        let dstsOk := fun (g : List W32) (n : Needs) => ∀ k < lines g, s.burstsPass c (dst g k) (size g) n
        let srcsOk := fun (g : List W32) => ∀ k < lines g, s.burstsPass c (src g k) (size g) .read
        let apart := fun (g : List W32) => ∀ k < lines g, ∀ j < lines g, (k ≠ j → dst g k + size g ≤ dst g j ∨ dst g j + size g ≤ dst g k)
        let clear := fun (g : List W32) => ∀ k < lines g, ∀ j < lines g, src g k + size g ≤ dst g j ∨ dst g j + size g ≤ src g k
        let fills := fun (g : List W32) (t : State) (f : Nat → Nat → W8) => (∀ k < lines g, ∀ i < size g, t.rdByte (dst g k + i) = f k i) ∧
          (∀ a, (∀ k < lines g, ¬(dst g k ≤ a ∧ a < dst g k + size g)) → t.rdByte a = s.rdByte a) ∧
          (t.chan c).wrote = x.wrote + lines g * size g ∧ t.get (F.GUST_CH_BYTES_count c) = min 0xFFFFFFFF (s.get (F.GUST_CH_BYTES_count c) + lines g * size g)
        let byteOf := fun (w : W32) (a : Nat) => w.extractLsb' (8 * (a % 4)) 8;
        (∀ e ∈ [(1, Instr.gustMove c), (5, .gustFill c), (6, .gustCmp c)], ∀ g, s.atInstr c e.1 g → x.line < lines g → s.get (F.GUST_CH_CFG_share c) ≠ 0 →
          min 64 (s.get (F.GUST_CH_CFG_share c)) * 1000 ≤ x.window → Completes e.2 s (fun t => code t = 1 ∧ (t.chan c).idx = x.idx ∧ (t.chan c).cur = g ∧ SameMemory s t ∧ others t)) ∧
        (∀ g, s.atInstr c 1 g → starts → srcsOk g → dstsOk g .write → apart g → clear g → Completes (.gustMove c) s (fun t => moves g t ∧
          fills g t (fun k i => s.rdByte (src g k + i)) ∧ (t.chan c).crc = if s.get (F.GUST_CH_CFG_class c) = 2 then
            ((List.range (lines g)).flatMap (fun k => s.rdBytes (src g k) (size g))).foldl crc32cByte x.crc else x.crc)) ∧
        (∀ g, s.atInstr c 1 g → starts → 0 < lines g → (s.memCheck (chMaster c) (src g 0) 1 .read).isSome = true → Completes (.gustMove c) s (fun t => 2 ≤ t.get (F.GUST_CH_STAT_status c) ∧
          t.get (F.GUST_CH_STAT_status c) ≤ 3 ∧ t.rd (R.GUST_CH_FADDRL c) = BitVec.ofNat 32 (src g 0) ∧ others t ∧ (32 ≤ c.val → code t = 5 ∧ SameMemory s t))) ∧
        (∀ g, s.atInstr c 5 g → starts → dstsOk g .write → apart g → Completes (.gustFill c) s (fun t => moves g t ∧ (t.chan c).crc = x.crc ∧
          fills g t (fun k i => byteOf (g.getD 1 0) (dst g k + i)))) ∧
        (∀ g, s.atInstr c 6 g → starts → dstsOk g .read → (fl g 16 = false → srcsOk g) →
          let same := fun (k i : Nat) => s.rdByte (dst g k + i) = if fl g 16 then byteOf (g.getD 1 0) (dst g k + i) else s.rdByte (src g k + i)
          ((∀ k < lines g, ∀ i < size g, same k i) → Completes (.gustCmp c) s (fun t => moves g t ∧ SameMemory s t)) ∧
          ∀ k < lines g, ∀ i < size g, ¬same k i → (∀ j < i, same k j) → (∀ l < k, ∀ j < size g, same l j) → Completes (.gustCmp c) s (fun t => stops t 5 (dst g k + i)))) ∧
      (∀ g, s.atInstr c 7 g → let v := ~~~(BitVec.ofNat 32 x.crc)
        let d := GInstr.dst g x
        let a := GInstr.src g x
        let stored := fun (t : State) => ∀ b, t.rdByte b = if fl g 17 = true ∧ d ≤ b ∧ b < d + 4 then (v.extractLsb' (8 * (b - d)) 8) else s.rdByte b
        let stores := fl g 17 = false ∨ s.memCheck (chMaster c) d 4 .write = none ∧ s.sound d 4 ∧ (fl g 16 = true → a + 4 ≤ d ∨ d + 4 ≤ a)
        let reads := s.memCheck (chMaster c) a 4 .read = none ∧ s.sound a 4
        let free := s.get (F.GUST_CH_CFG_share c) = 0 ∧ x.off = 0
        (x.off = 0 → fl g 17 = true ∨ fl g 16 = true → s.get (F.GUST_CH_CFG_share c) ≠ 0 → min 64 (s.get (F.GUST_CH_CFG_share c)) * 1000 ≤ x.window →
          Completes (.gustCrc c) s (fun t => code t = 1 ∧ (t.chan c).idx = x.idx ∧ (t.chan c).cur = g ∧ SameMemory s t ∧ others t)) ∧
        (free → stores → fl g 16 = false ∨ a % 4 = 0 ∧ reads ∧ s.wordAt a = v → Completes (.gustCrc c) s (fun t => goes t (x.idx + 1) ∧ others t ∧ stored t ∧
          (t.chan c).crc = if fl g 18 then x.crc else 0xFFFFFFFF)) ∧
        (free → stores → fl g 16 = true → a % 4 = 0 → reads → s.wordAt a ≠ v → Completes (.gustCrc c) s (fun t => t.get (F.GUST_CH_STAT_status c) = 6 ∧
          t.rd (R.GUST_CH_FADDRL c) = BitVec.ofNat 32 a ∧ others t ∧ (32 ≤ c.val → code t = 5 ∧ stored t)))) ∧
      (∀ g, s.atInstr c 2 g → let k := fl g 16
        let own := if k then x.loop1 else x.loop0
        let other := fun (y : Chan) => if k then y.loop0 else y.loop1
        let mine := fun (y : Chan) => if k then y.loop1 else y.loop0
        let n := (g.getD 2 0).toNat
        let is := (g.getD 3 0).toInt
        let id := (g.getD 4 0).toInt
        let left := (own.map (fun p => p.1)).getD (n - 1)
        (own.any (fun p => p.2 ≠ x.idx) = true → Completes (.gustLoop c) s (fun t => stops t 8 0)) ∧
        (own.all (fun p => p.2 = x.idx) = true → 0 < left → Completes (.gustLoop c) s (fun t => goes t (x.idx + ((g.getD 1 0).extractLsb' 0 16).toInt) ∧
          mine (t.chan c) = some (left - 1, x.idx) ∧ other (t.chan c) = other x ∧ (t.chan c).os = x.os + BitVec.ofInt 40 is ∧ (t.chan c).od = x.od + BitVec.ofInt 40 id ∧
          others t ∧ SameMemory s t)) ∧
        (own.all (fun p => p.2 = x.idx) = true → left = 0 → Completes (.gustLoop c) s (fun t => goes t (x.idx + 1) ∧ mine (t.chan c) = none ∧ other (t.chan c) = other x ∧
          (t.chan c).os = x.os - BitVec.ofInt 40 ((n - 1 : Nat) * is) ∧ (t.chan c).od = x.od - BitVec.ofInt 40 ((n - 1 : Nat) * id) ∧ others t ∧ SameMemory s t))) ∧
      (∀ g, s.atInstr c 3 g → let sig := (g.getD 1 0).toNat % 256
        (fl g 17 = true → Completes (.gustWait c) s (fun t => code t = 2 ∧ (t.chan c).wait = .delay ∧ (t.chan c).idx = x.idx ∧ others t)) ∧
        (fl g 17 = false → s.signal sig = false → Completes (.gustWait c) s (fun t => code t = 2 ∧ (t.chan c).wait = .signal sig (fl g 16) (g.getD 2 0 ≠ 0) ∧
          (t.chan c).idx = x.idx ∧ t.signals = s.signals ∧ others t)) ∧
        (fl g 17 = false → fl g 16 = false → s.signal sig = true → Completes (.gustWait c) s (fun t => goes t (x.idx + 1) ∧ t.signals = s.signals ∧ others t)) ∧
        (fl g 17 = false → fl g 16 = true → s.signal sig = true → s.consumers sig = [] → tabFind s.sigWinner sig = none → Completes (.gustWait c) s (fun t =>
          goes t (x.idx + 1) ∧ t.signal sig = false ∧ tabFind t.sigWinner sig = some (64 + c.val)))) ∧
      (let due := st = 2 ∧ (x.wait = .delay ∨ ∃ sig < 256, ∃ timed ∈ [false, true], x.wait = .signal sig false timed ∧ s.signal sig = true);
        (due → Completes (.gustWaitDone c) s (fun t => goes t (x.idx + 1) ∧ t.signals = s.signals ∧ others t)) ∧
        (∀ sig timed, x.wait = .signal sig true timed → st = 2 → s.signal sig = true →
          (s.winner sig = some (64 + c.val) → Completes (.gustWaitDone c) s (fun t => goes t (x.idx + 1) ∧ (sig < 256 → t.signal sig = false))) ∧
          (s.winner sig ≠ some (64 + c.val) → exec (.gustWaitDone c) s = .next s)) ∧
        (st ≠ 2 ∨ x.wait = .none → exec (.gustWaitDone c) s = .next s ∧ exec (.gustWaitTimeout c) s = .next s) ∧
        (∀ sig consume timed, x.wait = .signal sig consume timed → (s.signal sig = false → exec (.gustWaitDone c) s = .next s) ∧
          (timed = false → exec (.gustWaitTimeout c) s = .next s) ∧ (timed = true → st = 2 → Completes (.gustWaitTimeout c) s (fun t => stops t 7 0)))) ∧
      (∀ g, s.atInstr c 4 g → let n := ((g.getD 1 0).toNat) % 256
        (fl g 16 = false → fl g 17 = false → Completes (.gustSignal c) s (fun t => goes t (x.idx + 1) ∧ others t ∧ ∀ k < 256, t.signal k = (s.signal k || k == n))) ∧
        (fl g 16 = true → fl g 17 = false → Completes (.gustSignal c) s (fun t => goes t (x.idx + 1) ∧ others t ∧ ∀ k < 256, t.signal k = (s.signal k && k != n))) ∧
        (fl g 17 = true → Completes (.gustSignal c) s (fun t => goes t (x.idx + 1) ∧ others t ∧ t.signals = s.signals ∧
          ∀ a < 8, tabGet 0 t.capPulses a = tabGet 0 s.capPulses a + if natBit n a = true ∧ tabGet 0 s.capPulses a < 7 then 1 else 0))) ∧
      (∀ g, s.atInstr c 15 g → let head := BitVec.ofNat 32 (c * 2 ^ 16 + s.get (F.GUST_CH_SEQ_seq c))
        let words : List W32 := [head, g.getD 1 0, BitVec.ofNat 32 x.wrote, if s.get (F.GUST_CH_CFG_class c) = 2 then ~~~(BitVec.ofNat 32 x.crc) else 0]
        (32 ≤ c.val → Completes (.gustEnd c) s (fun t => code t = 4 ∧ t.get (F.GUST_CH_STAT_status c) = 0 ∧ others t ∧ SameMemory s t)) ∧
        (c.val < 32 → x.crc < 2 ^ 32 → full → Completes (.gustEnd c) s (fun t => code t = 2 ∧ (t.chan c).wait = .ring words 4 (fl g 16) ∧ others t ∧ SameMemory s t ∧
          t.get (F.GUST_RING_STAT_waits ring) = min 65535 (s.get (F.GUST_RING_STAT_waits ring) + 1))) ∧
        (c.val < 32 → ¬full → writes → Completes (.gustEnd c) s (fun t => code t = 4 ∧ t.get (F.GUST_CH_STAT_status c) = 0 ∧ records t words ∧ others t)) ∧
        (c.val < 32 → ¬full → (s.memCheck 48 entry 16 .write).isSome = true → Completes (.gustEnd c) s (fun t => code t = 4 ∧ disables t ∧ others t))) ∧
      (∀ words next irq, x.wait = .ring words next irq → let due := st = 2 ∧ ¬full
        (¬due → exec (.ringSpace c) s = .next s) ∧
        (due → words.length = 4 → next < 8 → writes → Completes (.ringSpace c) s (fun t => code t = next ∧ (t.chan c).wait = .none ∧ records t words ∧ others t)) ∧
        (due → words.length = 4 → next < 8 → (s.memCheck 48 entry 16 .write).isSome = true → Completes (.ringSpace c) s (fun t => code t = next ∧ disables t ∧ others t))) ∧
      (x.wait ∈ [.none, .delay] → exec (.ringSpace c) s = .next s) ∧
      (st ≠ 3 → exec (.gustAbortDone c) s = .next s) ∧
      (st = 3 → let head := BitVec.ofNat 32 (2 ^ 24 + c * 2 ^ 16 + s.get (F.GUST_CH_SEQ_seq c))
        let words : List W32 := [head, BitVec.ofNat 32 (s.get (F.GUST_CH_STAT_index c) * 2 ^ 16 + s.get (F.GUST_CH_LRES_lines c)), BitVec.ofNat 32 (s.get (F.GUST_CH_RES_bytes c)), 0]
        (c.val < 32 → full → Completes (.gustAbortDone c) s (fun t => code t = 2 ∧ t.get (F.GUST_CH_STAT_status c) = 1 ∧ (t.chan c).wait = .ring words 5 true)) ∧
        (c.val < 32 → ¬full → writes → Completes (.gustAbortDone c) s (fun t => code t = 5 ∧ t.get (F.GUST_CH_STAT_status c) = 1 ∧ records t words ∧ others t)) ∧
        (32 ≤ c.val → Completes (.gustAbortDone c) s (fun t => stops t 1 0)))) ∧
    (Completes .gustRateWindow s (fun t => (∀ c < 40, t.chan c = { s.chan c with window := 0 }) ∧ t.regs = s.regs ∧ SameMemory s t)) ∧
    (∀ a : Fin 8, let k := tabGet 0 s.capPulses a
      (k = 0 → exec (.axisCapturePulse a) s = .next s) ∧
      (k ≠ 0 → Completes (.axisCapturePulse a) s (fun t => tabGet 0 t.capPulses a = 0 ∧ t.rd (R.GUST_AXCAP_FT a) = BitVec.ofNat 32 s.uptime ∧
        t.get (F.GUST_AXCAP_CNT_v a) = min 0xFFFFFFFF (s.get (F.GUST_AXCAP_CNT_v a) + k) ∧
        ((s.axis a).valid = true → t.rd (R.GUST_AXCAP a) = stampOf (s.axisPos a)) ∧ ((s.axis a).valid = false → t.rd (R.GUST_AXCAP a) = stampOf (countPos (s.axis a).a.count)))))

/-- R366 to R369, R371, R373, R375, R377, R378, R385, R448, R449, R451, R453 to R456: the commands of the Ethernet ports, the stream
protocol and the timebase, and those of calibration and trimming. A frame or packet is placed whole, or counted and left out. -/
def Obligations.NetworkAndCalibrationResults : Prop :=
  ∀ s : State, let up := fun (t : State) (f : Field) => t.get f = min (2 ^ (f.hi + 1 - f.lo) - 1) (s.get f + 1)
    let quietly := fun (t : State) => t.wire = s.wire ∧ t.steer = s.steer ∧ SameMemory s t
    let writes := fun (t : State) (a : Nat) (bs : List W8) => ∀ i < bs.length, t.rdByte (a + i) = bs.getD i 0
    let takes := fun (a n : Nat) (need : Needs) => s.firstRefused 50 need (bursts a n (n + 1)) = none ∧ s.sound a n
    (∀ (port : Fin 2), let mode := s.get (F.ETH_CFG_mode port)
      let has := fun (sub : Nat) => s.flag (F.ETH_CFG_en port) = true ∧ ((mode = 1 ∨ mode = 2) ∧ sub = 0 ∨ mode = 3 ∨ mode = 4)
      let vlan := s.flag (F.ETH_VLAN_en port)
      let tag := (beBytes 2 0x8100 ++ beBytes 2 (s.get (F.ETH_VLAN_pcp port) * 2 ^ 13 + s.get (F.ETH_VLAN_vid port)))
      (∀ (sub : Fin 4) (f : List W8) (fcs : Bool) (stamp : Nat), let w := fun (i : Nat) => (f.getD i 0).toNat * 256 + (f.getD (i + 1) 0).toNat
        let whole := fcs = true ∧ 64 ≤ f.length + 4 ∧ f.length + 4 ≤ min 9216 (max 1518 (s.get (F.ETH_CFG_mtu port)))
        let pause := w 12 = 0x8808 ∧ (w 14 = 1 ∨ w 14 = 0x101)
        let fits := if w 12 = 0x8100 then vlan = true ∧ w 14 % 4096 = s.get (F.ETH_VLAN_vid port) else vlan = false
        let ring := s.rd (R.ETH_RXRING port)
        let n := 2 ^ (min (ring.extractLsb' 16 4).toNat 12 + 4)
        let wr := s.get (F.ETH_RXWR_wr port)
        let full := (wr + n - s.get (F.ETH_RXRD_rd port) % n) % n = n - 1
        let d := ring.toNat % 256 * 2 ^ 32 + (s.rd (R.ETH_RXBASE port)).toNat / 32 * 32 + 32 * wr
        let buf := leNat (s.rdBytes d 5)
        (¬has sub → exec (.frameReceive port sub f fcs stamp) s = .next s) ∧
        (has sub → ¬whole ∨ ¬pause ∧ ¬fits → Completes (.frameReceive port sub f fcs stamp) s (fun t => up t (F.ETH_RXBAD_count port) ∧ quietly t)) ∧
        (has sub → whole → pause → Completes (.frameReceive port sub f fcs stamp) s (fun t => up t (F.ETH_PAUSE_count port) ∧ quietly t)) ∧
        (has sub → whole → ¬pause → fits →
          (∀ u, s.gspOf port sub f = some u → (u.payload.getD 1 0).toNat = 1 → Completes (.frameReceive port sub f fcs stamp) s (fun t =>
            up t (F.ETH_RXFRM_count port) ∧ t.wire = s.wire ∧ SameMemory s t ∧ (u.sumFine = true → t.steer = s.steer ++ [packetOf port sub u]) ∧
            (u.sumFine = false → t.steer = s.steer ∧ up t (F.ETH_RXBAD_count port)))) ∧
          (s.gspOf port sub f = none → s.get F.SYS_BOOTSTAT_phase ≠ 1 →
            (ring.getLsbD 31 = false → Completes (.frameReceive port sub f fcs stamp) s (fun t => up t (F.ETH_RXFRM_count port) ∧
              up t (F.ETH_RXDROP_count port) ∧ quietly t)) ∧
            (ring.getLsbD 31 = true → full → Completes (.frameReceive port sub f fcs stamp) s (fun t => up t (F.ETH_RXFRM_count port) ∧
              up t (F.ETH_RXDROP_count port) ∧ quietly t ∧ natBit (t.get (F.ETH_STAT_flags port)) 1 = true ∧
              (natBit (s.get (F.ETH_STAT_flags port)) 1 = false → s.room (104 + port) = true → HoldsEvent (104 + port) 0x481 sub t))) ∧
            (ring.getLsbD 31 = true → ¬full → takes d 32 .read → takes buf f.length .write → takes (d + 8) 16 .write →
              buf + f.length ≤ d ∨ d + 32 ≤ buf → Completes (.frameReceive port sub f fcs stamp) s (fun t => up t (F.ETH_RXFRM_count port) ∧
                t.get (F.ETH_RXWR_wr port) = (wr + 1) % n ∧ writes t buf f ∧ t.wire = s.wire ∧
                (t.wordAt (d + 8)).toNat = 2 ^ 31 + sub * 2 ^ 21 + s.rxClass port sub f * 2 ^ 16 + f.length ∧
                ∀ a, (a < buf ∨ buf + f.length ≤ a) → (a < d + 8 ∨ d + 24 ≤ a) → t.rdByte a = s.rdByte a))))) ∧
      (∀ stamp : Nat, let ring := s.rd (R.ETH_TXRING port)
        let at_ := s.get (F.ETH_TXRD_rd port)
        let d := ring.toNat % 256 * 2 ^ 32 + (s.rd (R.ETH_TXBASE port)).toNat / 32 * 32 + 32 * at_
        let buf := leNat (s.rdBytes d 5)
        let w2 := leNat (s.rdBytes (d + 8) 4)
        let sub := w2 / 2 ^ 21 % 4
        let len := w2 % 2 ^ 16
        let stamps := natBit w2 16 = true ∨ natBit w2 17 = true
        let ready := s.flag (F.ETH_CFG_en port) = true ∧ ring.getLsbD 31 = true ∧ at_ ≠ s.get (F.ETH_TXWR_wr port)
        (¬ready → exec (.frameTransmit port stamp) s = .next s) ∧
        (ready → takes d 32 .read → ¬has sub → exec (.frameTransmit port stamp) s = .next s) ∧
        (ready → takes d 32 .read → has sub → takes buf len .read → takes (d + 8) 16 .write → Completes (.frameTransmit port stamp) s (fun t =>
          up t (F.ETH_TXFRM_count port) ∧ t.get (F.ETH_TXRD_rd port) = (at_ + 1) % 2 ^ (min (ring.extractLsb' 16 4).toNat 12 + 4) ∧
          (t.wordAt (d + 8)).toNat = w2 % 2 ^ 31 + 2 ^ 31 ∧ t.wire.tail = s.wire ∧
          (natBit w2 17 = false → let f := s.rdBytes buf len
            t.wire.head? = some (.frame port sub (if vlan then f.take 12 ++ tag ++ f.drop 12 else f))) ∧
          (∀ a, (a < d + 8 ∨ d + 24 ≤ a) → t.rdByte a = s.rdByte a) ∧ (¬stamps → ∀ a, (a < d + 8 ∨ d + 12 ≤ a) → t.rdByte a = s.rdByte a)))) ∧
      (∀ (sub : Fin 4) (on : Bool), let was := natBit (s.get (F.ETH_STAT_up port)) sub
        (was = on ∨ on = true ∧ ¬has sub → exec (.ethLinkChange port sub on) s = .next s) ∧
        (was ≠ on → on = false ∨ has sub → Completes (.ethLinkChange port sub on) s (fun t =>
          (∀ k < 4, natBit (t.get (F.ETH_STAT_up port)) k = if k = sub.val then on else natBit (s.get (F.ETH_STAT_up port)) k) ∧
          natBit (t.get (F.ETH_STAT_flags port)) 0 = true ∧ (on = false → t.rd (R.ETH_TSADJ port) = s.rd (R.ETH_TSADJ port)) ∧
          (on = true → (t.get (F.ETH_TSADJ_ingress port), t.get (F.ETH_TSADJ_egress port)) = if mode = 4 then (160, 125) else if mode = 3 then
            (if s.flag (F.ETH_CFG_fec port) then (780, 330) else (145, 120)) else (920, 385)) ∧
          (natBit (s.get (F.ETH_STAT_flags port)) 0 = false → s.room (104 + port) = true →
            HoldsEvent (104 + port) 0x480 (t.get (F.ETH_STAT_up port) * 16 + 2 ^ sub.val) t))))) ∧
    (s.steer = [] → exec .gspPlace s = .next s) ∧
    (∀ p rest, s.steer = p :: rest → let k := p.stream
      let e := s.rd (R.GSP_EXP k)
      let x := s.stream k
      let foreign := 64 ≤ k ∨ s.flag (F.GSP_CFG_en k) = false ∨ natBit (s.get (F.GSP_CFG_ports k)) p.port = false
      let shape := p.format ≠ s.get (F.GSP_CFG_format k) ∨ p.plane ≠ s.get (F.GSP_GEOM_plane k) ∨ s.get (F.GSP_LEN_len k) < p.offset + p.length
      let broken := p.length ≠ p.payload.length ∨ crc32c p.payload ≠ p.crc
      let d := (s.get (F.GSP_BASEH_base_hi k) * 2 ^ 32 + s.get (F.GSP_BASEL_base k) +
        p.line % s.get (F.GSP_GEOM_lines k) * s.get (F.GSP_STRIDE_stride k) + p.offset) % 2 ^ 40
      let refused := s.firstRefused 50 .write (bursts d p.payload.length (p.payload.length + 1))
      let sent := if s.flag (F.ETH_VLAN_en p.port) then some (s.get (F.ETH_VLAN_pcp p.port) * 2 ^ 13 + s.get (F.ETH_VLAN_vid p.port)) else none
      let answers := fun (t : State) (nack : Bool) (reason : Nat) (seq : W32) => t.wire.tail = s.wire ∧ up t (F.ETH_TXFRM_count p.port) ∧
        (k < 64 → t.wire.head? = some (.reply p.port p.sub sent p.srcIp p.srcPort nack reason k seq (s.rd (R.GSP_DONE k))))
      let nacked := fun (reason : Nat) => Completes .gspPlace s (fun t => t.steer = rest ∧ SameMemory s t ∧ up t (F.ETH_GSPREF_count p.port) ∧
        (k < 64 → t.rd (R.GSP_EXP k) = e) ∧
        (x.lastNack.any (fun w => decide (s.uptime < w + cyclesOfUs (s.get F.ETH_GSPTIM_nack_us))) = true → t.wire = s.wire ∧ up t (F.ETH_NACKSUP_count p.port)) ∧
        (x.lastNack.any (fun w => decide (s.uptime < w + cyclesOfUs (s.get F.ETH_GSPTIM_nack_us))) = false → answers t true reason e ∧
          (t.stream k).lastNack = some s.uptime) ∧
        (x.lastRefused.any (fun w => decide (s.uptime < w + cyclesPerMs)) = false → reason ≠ 3 → s.room 104 = true →
          HoldsEvent 104 0x488 (k % 256 * 2 ^ 16 + reason) t))
      (foreign → nacked 5) ∧ (¬foreign → shape → nacked 4) ∧ (¬foreign → ¬shape → broken → nacked 2) ∧
      (¬foreign → ¬shape → ¬broken → 0 < (p.seq - e).toInt → nacked 1) ∧
      (¬foreign → ¬shape → ¬broken → (p.seq - e).toInt < 0 → Completes .gspPlace s (fun t => t.steer = rest ∧ SameMemory s t ∧
        up t (F.ETH_GSPDUP_count p.port) ∧ t.rd (R.GSP_EXP k) = e ∧ answers t false 0 e ∧ (t.stream k).placed = 0)) ∧
      (¬foreign → ¬shape → ¬broken → p.seq = e → refused.isSome = true → nacked 3) ∧
      (¬foreign → ¬shape → ¬broken → p.seq = e → refused = none → s.sound d p.payload.length → Completes .gspPlace s (fun t => t.steer = rest ∧
        writes t d p.payload ∧ (∀ a, (a < d ∨ d + p.payload.length ≤ a) → t.rdByte a = s.rdByte a) ∧ t.rd (R.GSP_EXP k) = e + 1 ∧
        up t (F.ETH_GSPOK_count p.port) ∧ (t.stream k).bands = (if natBit p.flags 0 then x.bands ++ [p.line] else x.bands) ∧
        (max 1 (s.get F.ETH_GSPCFG_ack_every) ≤ x.placed + 1 → answers t false 0 (e + 1) ∧ (t.stream k).placed = 0) ∧
        (x.placed + 1 < max 1 (s.get F.ETH_GSPCFG_ack_every) → t.wire = s.wire ∧ (t.stream k).placed = x.placed + 1)))) ∧
    (∀ k : Fin 64, let x := s.stream k
      (x.bands = [] → exec (.bandDone k) s = .next s) ∧
      (∀ l rest, x.bands = l :: rest → Completes (.bandDone k) s (fun t => t.stream k = { x with bands := rest } ∧ t.rd (R.GSP_DONE k) = BitVec.ofNat 32 l ∧
        SameMemory s t ∧ ∀ n < 256, t.signal n = (s.signal n || (s.flag (F.GSP_CFG_sig_en k) && n == s.get (F.GSP_CFG_sig k))))) ∧
      (x.placed = 0 → exec (.ackTimer k) s = .next s) ∧
      (x.placed ≠ 0 → Completes (.ackTimer k) s (fun t => t.stream k = { x with placed := 0 } ∧ t.wire.tail = s.wire ∧ t.wire.head? = some (.reply x.port x.sub
        (if s.flag (F.ETH_VLAN_en x.port) then some (s.get (F.ETH_VLAN_pcp x.port) * 2 ^ 13 + s.get (F.ETH_VLAN_vid x.port)) else none)
        x.ip x.udp false 0 k (s.rd (R.GSP_EXP k)) (s.rd (R.GSP_DONE k))) ∧ up t (F.ETH_TXFRM_count x.port) ∧ SameMemory s t))) ∧
    (let clock := fun (t : State) => t.get F.PTP_SECH_sech * 2 ^ 32 + t.get F.PTP_SECL_secl
      let same := fun (t : State) (l : List Nat) => (∀ a, a ∉ l → t.rd a = s.rd a) ∧ quietly t
      (∀ v : W32, Completes (.ptpIncCommit v) s (fun t => t.ptpInc = v.toNat % 256 * 2 ^ 32 + s.get F.PTP_INCL_incl ∧ same t [R.PTP_INCH]) ∧
        Completes (.ptpSetTime v) s (fun t => clock t = v.toNat % 65536 * 2 ^ 32 + s.get F.PTP_SETSECL_setsecl ∧ t.get F.PTP_NS_ns = s.get F.PTP_SETNS_setns ∧
          t.ptpFrac = 0 ∧ t.get F.PTP_STAT_stat = 1 ∧ same t [R.PTP_SETSECH, R.PTP_NS, R.PTP_SECL, R.PTP_SECH, R.PTP_STAT]) ∧
        Completes (.ptpAdjust v) s (fun t => t.get F.PTP_NS_ns < 10 ^ 9 ∧ t.ptpFrac = s.ptpFrac ∧
          ((clock t * 10 ^ 9 + t.get F.PTP_NS_ns : Nat) : Int) = ((clock s * 10 ^ 9 + s.get F.PTP_NS_ns : Nat) + v.toInt) % (2 ^ 48 * 10 ^ 9) ∧
          same t [R.PTP_NS, R.PTP_SECL, R.PTP_SECH])) ∧
      Completes .ptpRatioMeasure s (fun t => t.rd R.PTP_RATIO = BitVec.ofNat 32 (s.uptime - s.ratioFrom) ∧ t.ratioFrom = s.uptime ∧ same t [R.PTP_RATIO]) ∧
      (let due := s.flag F.PTP_ALCTL_en = true ∧ (s.get F.PTP_ALCTL_sec_hi * 2 ^ 32 + s.get F.PTP_ALSECL_alsecl) * 10 ^ 9 + s.get F.PTP_ALNS_alns ≤
          clock s * 10 ^ 9 + s.get F.PTP_NS_ns;
        (¬due → exec .ptpAlarm s = .next s) ∧
        (due → Completes .ptpAlarm s (fun t => t.flag F.PTP_ALCTL_en = false ∧ SameMemory s t ∧ ∀ n < 256, t.signal n = (s.signal n || n == s.get F.PTP_ALCTL_sig)))) ∧
      (s.flag F.PTP_PPS_en = false → exec .ppsPulse s = .next s) ∧
      (s.flag F.PTP_PPS_en = true → exec .ppsPulse s = .next { s with ppsUntil := s.uptime + cyclesOfUs (s.get F.PTP_PPS_width) })) ∧
    exec .adcCalStart s = .next (if s.flag F.CAL_CTL_adc_en then { s with adcCalRun := true } else s) ∧
    (∀ lo0 hi0 lo1 hi1 : BitVec 12, (s.adcCalRun = false → exec (.adcCalDone lo0 hi0 lo1 hi1) s = .next s) ∧
      (s.adcCalRun = true → Completes (.adcCalDone lo0 hi0 lo1 hi1) s (fun t => t.adcCalRun = false ∧ ∀ k < 2,
        let lo := (if k = 0 then lo0 else lo1).toNat
        let hi := (if k = 0 then hi0 else hi1).toNat
        let good := lo + 1843 ≤ hi ∧ hi ≤ lo + 2253
        let stale := fun (x : State) => natBit (x.get F.CAL_STAT_stale) k
        let word := t.rd (R.CAL_ADC_PEND k)
        (¬good → natBit (t.get F.CAL_STAT_adc_fail) k = true ∧ stale t = true ∧ word = s.rd (R.CAL_ADC_PEND k) ∧ t.rd (R.CAL_ADC k) = s.rd (R.CAL_ADC k) ∧
          (stale s = false → k = 0 → s.room 63 = true → ∃ d, HoldsEvent 63 0x4F0 d t)) ∧
        (good → let gain := (word.extractLsb' 16 16).toNat
          stale t = false ∧ natBit (t.get F.CAL_STAT_adc_fail) k = natBit (s.get F.CAL_STAT_adc_fail) k ∧
          2 * gain * (hi - lo) ≤ 2 * 2 ^ 25 + (hi - lo) ∧ 2 * 2 ^ 25 < 2 * gain * (hi - lo) + (hi - lo) ∧
          |2 * (word.extractLsb' 0 12).toInt - (4096 - (lo : Int) - (hi : Int))| ≤ 1 ∧
          t.rd (R.CAL_ADC k) = if s.flag F.CAL_CTL_auto then word else s.rd (R.CAL_ADC k))))) ∧
    (∀ v : W32, Completes (.adcCalApply v) s (fun t => (∀ k < 2, t.rd (R.CAL_ADC k) = s.rd (R.CAL_ADC_PEND k)) ∧
      t.get F.CAL_CTL_adc_en = (if v.getLsbD 31 then 1 else 0) ∧ t.get F.CAL_CTL_auto = (if v.getLsbD 30 then 1 else 0) ∧
      t.adcCalRun = (s.adcCalRun || (v.getLsbD 31 && !s.flag F.CAL_CTL_adc_en)) ∧ ∀ a, a ≠ R.CAL_CTL → a ≠ R.CAL_ADC 0 → a ≠ R.CAL_ADC 1 → t.rd a = s.rd a)) ∧
    (∀ k : Fin 2, (natBit (s.get F.CAL_STAT_stale) k = true → exec (.calStaleTimeout k) s = .next s) ∧
      (natBit (s.get F.CAL_STAT_stale) k = false → Completes (.calStaleTimeout k) s (fun t =>
        (∀ j < 8, natBit (t.get F.CAL_STAT_stale) j = if j = k.val then true else natBit (s.get F.CAL_STAT_stale) j) ∧
        (∀ a, a ≠ R.CAL_STAT → t.rd a = s.rd a) ∧ (s.room 63 = true → HoldsEvent 63 0x4F0 (t.get F.CAL_STAT_stale) t)))) ∧
    (∀ r0 r1 r2 r3 : W16, let sum := fun (k : Nat) => ([r0, r1, r2, r3].getD k 0).toInt + s.getInt (F.CAL_TS_off k)
      let hi := s.getInt F.CAL_TALARM_hi
      (∀ k < 4, -32768 ≤ sum k ∧ sum k ≤ 32767) → Completes (.tempSample r0 r1 r2 r3) s (fun t =>
        (∀ k < 4, t.getInt (F.CAL_TS_temp k) = sum k ∧ t.get (F.CAL_TS_off k) = s.get (F.CAL_TS_off k)) ∧
        (s.dieHot = true → t.ev = s.ev ∧ (t.dieHot = false ↔ ∀ k < 4, sum k < hi - 32)) ∧
        (s.dieHot = false → (t.dieHot = true ↔ ∃ k < 4, hi ≤ sum k) ∧ ∀ k < 4, hi ≤ sum k → (∀ j < k, sum j < hi) → s.room 108 = true →
          HoldsEvent 108 0x4F1 (((sum k / 16 % 4096).toNat) * 2 ^ 16 + k) t))) ∧
    (∀ v : W32, let b := v.toNat % 8
      let busy := s.flag F.CAL_TCOMMIT_busy
      let allowed := s.isClosed (.bar b) = true ∨ (s.axis (s.get (F.BAR_CFG_axis b))).st = .lull
      (busy = true → Completes (.trimCommit v) s (fun t => (∀ a, a ≠ R.CAL_TCOMMIT → t.rd a = s.rd a) ∧ t.flag F.CAL_TCOMMIT_busy = true ∧ t.lanes = s.lanes)) ∧
      (busy = false → ¬allowed → exec (.trimCommit v) s = .next (s.set F.CAL_STAT_tc_err 1)) ∧
      (busy = false → allowed → Completes (.trimCommit v) s (fun t => t.flag F.CAL_TCOMMIT_busy = true ∧ ∀ k ∈ s.barTiles b,
        let lane := k / 16
        let reached := s.laneRuns lane = true ∧ natBit (s.present lane) (k % 16) = true ∧ s.excluded lane (k % 16) = false
        (¬reached → t.flag (F.HEALTH_TPUSH_err lane) = true) ∧
        (reached → ∃ r ∈ (t.lane lane).mgmt, r.pos = k % 16 ∧ r.op = 1 ∧ r.why = .calCommit ∧
          (r.addr, r.data) = if v.getLsbD 29 then (0x1F, [1, 1]) else (0x20, [1]))))) ∧
    (s.commitsPending = true → exec .trimCommitDone s = .next s) ∧
    (s.commitsPending = false → exec .trimCommitDone s = .next (s.set F.CAL_TCOMMIT_busy 0))

/-- R390, R411 to R415, R419, R421 to R424: the commands of the fuse controller and of SEC. A programming command is refused with nothing
programmed, or starts with just the cells that are 1 in its target and read 0; an attempt on debug access succeeds or is counted. -/
def Obligations.FuseAndAccessResults : Prop :=
  ∀ s : State, let lc := s.get F.SEC_LC_state
    let lacks := fun (i target : Nat) => ((List.range 39).filter (fun k => natBit target k && !natBit (tabGet 0 s.fuse i) k)).map (fun k => (i, k))
    let clears := fun (i target : Nat) => tabGet 0 s.fuse i &&& target ≠ tabGet 0 s.fuse i
    let frozen := fun (b : Nat) => s.lockedNow b = true ∨ s.sealedNow b = true
    let result := fun (t : State) => t.get F.FUSE_PSTAT_result
    let burnt := fun (l : List (Nat × Nat)) (t : State) => ∀ i < 2048, ∀ k < 39,
      natBit (tabGet 0 t.fuse i) k = (natBit (tabGet 0 s.fuse i) k || l.contains (i, k))
    let paused := s.flag F.FUSE_PSTAT_paused
    let ends := fun (t : State) (j : FuseJob) (code : Nat) => t.fuseJob = none ∧ t.flag F.FUSE_PSTAT_busy = false ∧ t.flag F.FUSE_PSTAT_paused = false ∧
      result t = code ∧ (s.room 62 = true → HoldsEvent 62 0x4C3 (code * 2 ^ 24 + j.op * 16 + j.bank) t)
    let unmoved := fun (t : State) => t.fuse = s.fuse ∧ t.fuseJob = s.fuseJob ∧ t.ev = s.ev
    (∀ (v : W32) (mv : BitVec 12), let inside := if s.flag F.FUSE_VMON_inwin then 1746 ≤ mv.toNat ∧ mv.toNat ≤ 1854 else 1751 ≤ mv.toNat ∧ mv.toNat ≤ 1849
      let b := v.toNat % 16
      let w := v.toNat / 256 % 128
      let data := s.rd R.FUSE_DATA
      let here := b * 128 + w
      let ctrl := b * 128 + 127
      let refuses := fun (c : Instr) (code : Nat) => Completes c s (fun t => unmoved t ∧ result t = code ∧ t.get F.FUSE_PSTAT_busy = s.get F.FUSE_PSTAT_busy)
      let starts := fun (c : Instr) (op bank : Nat) (cells : List (Nat × Nat)) => Completes c s (fun t => t.fuse = s.fuse ∧ t.ev = s.ev ∧
        t.fuseJob = some ⟨op, bank, cells, 0⟩ ∧ t.flag F.FUSE_PSTAT_busy = true ∧ t.flag F.FUSE_VMON_inwin = true)
      let free := inside ∧ s.fuseJob = none
      let barred := lc = 2 ∧ (b = 0 ∨ b = 5 ∨ b = 6) ∨ 4 ≤ lc
      let fielded := barred ∨ lc = 3 ∧ (b < 8 ∨ 14 < b)
      (∀ c ∈ [Instr.fuseProg v mv, .fuseCommit v mv, .fuseSeal v mv, .fuseLock v mv, .fuseCtrl v mv, .fuseSupersede v mv, .fuseLcadv v mv],
        (s.fuseJob.isSome = true → inside ∨ paused = true → refuses c 1) ∧ (s.fuseJob = none → ¬inside → refuses c 2)) ∧
      (free → b = 15 ∨ b = 2 → ∀ c ∈ [Instr.fuseProg v mv, .fuseCommit v mv, .fuseSeal v mv, .fuseLock v mv, .fuseCtrl v mv, .fuseSupersede v mv], refuses c 7) ∧
      (free → b ≠ 15 → b ≠ 2 →
        (fielded → ∀ c ∈ [Instr.fuseCommit v mv, .fuseSeal v mv, .fuseLock v mv], refuses c 3) ∧ (fielded → w ≠ 127 → refuses (.fuseProg v mv) 3) ∧
        (¬fielded → w ≠ 127 → let target := fuseTarget here data
          (clears here target → refuses (.fuseProg v mv) 4) ∧ (¬clears here target → frozen b → refuses (.fuseProg v mv) 5) ∧
          (¬clears here target → ¬frozen b → starts (.fuseProg v mv) 0 b (lacks here target))) ∧
        (w = 127 → let d := data.toNat
          let bad := 1024 ≤ d ∨ d % 16 / 2 ≠ 0 ∨ b ≠ 4 ∧ d / 256 ≠ 0 ∨ d / 16 % 16 ≠ 0 ∧ d / 16 % 16 ≠ 14
          let settles := (d % 2 = 0 ∨ natBit (tabGet 0 s.fuse ctrl) 0 = true) ∧ (d / 16 % 16 = 0 ∨ s.supNow b = 14)
          (bad → refuses (.fuseProg v mv) 7) ∧ (¬bad → fielded → refuses (.fuseProg v mv) 3) ∧ (¬bad → ¬fielded → clears ctrl d → refuses (.fuseProg v mv) 4) ∧
          (¬bad → ¬fielded → ¬clears ctrl d → settles → starts (.fuseProg v mv) 0 b (lacks ctrl d)) ∧
          (¬bad → ¬fielded → ¬clears ctrl d → d % 2 = 1 → natBit (tabGet 0 s.fuse ctrl) 0 = false → s.sealedNow b = false → ¬(v.getLsbD 28 = true ∧ lc = 1) →
            refuses (.fuseProg v mv) 8)) ∧
        (¬fielded → v.getLsbD 29 = false → v.getLsbD 30 = false →
          let words := (List.range 126).filter (fun k => s.rd (R.FUSE_STAGE k) != 0 && s.rd (R.FUSE_STAGE k) != s.fuseRead b k)
          let target := fun (k : Nat) => fuseTarget (b * 128 + k) (s.rd (R.FUSE_STAGE k))
          (frozen b → words ≠ [] → (∀ k ∈ words, ¬clears (b * 128 + k) (target k)) → refuses (.fuseCommit v mv) 5) ∧
          (¬frozen b → (∃ k ∈ words, clears (b * 128 + k) (target k)) → refuses (.fuseCommit v mv) 4) ∧
          (¬frozen b ∨ words = [] → (∀ k ∈ words, ¬clears (b * 128 + k) (target k)) →
            starts (.fuseCommit v mv) 1 b (words.flatMap (fun k => lacks (b * 128 + k) (target k))))) ∧
        (¬fielded → let i := b * 128 + 126
          let target := fuseTarget i (fuseCrc (s.fuseRead b))
          (clears i target → refuses (.fuseSeal v mv) 4) ∧ (¬clears i target → frozen b → refuses (.fuseSeal v mv) 5) ∧
          (¬clears i target → ¬frozen b → starts (.fuseSeal v mv) 2 b (lacks i target))) ∧
        (¬fielded → let may := s.sealedNow b = true ∨ v.getLsbD 28 = true ∧ lc = 1
          (may → starts (.fuseLock v mv) 3 b (lacks ctrl 1)) ∧ (¬may → refuses (.fuseLock v mv) 8)) ∧
        (let r := data.toNat / 256 % 4
          let bad := b ≠ 4 ∨ data.toNat / 16 % 16 ≠ 0
          let drops := tabGet 0 s.fuse ctrl / 256 % 4 &&& r ≠ tabGet 0 s.fuse ctrl / 256 % 4;
          (bad → refuses (.fuseCtrl v mv) 7) ∧ (¬bad → barred → refuses (.fuseCtrl v mv) 3) ∧ (¬bad → ¬barred → drops → refuses (.fuseCtrl v mv) 4) ∧
          (¬bad → ¬barred → ¬drops → starts (.fuseCtrl v mv) 4 4 (lacks ctrl (r * 256)))) ∧
        (barred → refuses (.fuseSupersede v mv) 3) ∧
        (¬barred → let may := b ≠ 14 ∧ (∀ c < 16, s.supNow c = if c = b then 0 else s.supNow c) ∧ (∀ c < 16, c ≠ b → s.supNow c ≠ 14) ∧
            s.sealedNow 14 = true ∧ s.lockedNow 14 = true
          (may → starts (.fuseSupersede v mv) 5 b (lacks ctrl 224)) ∧ (¬may → refuses (.fuseSupersede v mv) 9))) ∧
      (free → let used := fun (k : Nat) => if s.flag (F.FUSE_BSTAT_superseded k) then 14 else k
        let fixed := fun (k : Nat) => s.sealedNow (used k) = true ∧ s.lockedNow (used k) = true
        let may := lc = 0 ∨ lc = 1 ∧ fixed 1 ∧ (s.slotTrusted 0 = true ∨ s.slotTrusted 1 = true) ∨ lc = 2 ∧ fixed 1 ∧ fixed 3 ∧ fixed 4
        (lc = 4 → refuses (.fuseLcadv v mv) 7) ∧ (may → starts (.fuseLcadv v mv) 6 2 ([256, 257, 258].flatMap (fun i => lacks i (2 ^ lc)))) ∧
        (lc ≠ 4 → ¬may → refuses (.fuseLcadv v mv) 3)) ∧
      (s.fuseJob.isSome = true → refuses (.fuseReread v) 1) ∧
      (s.fuseJob = none → Completes (.fuseReread v) s (fun t => t.fuse = s.fuse ∧ t.ev = s.ev ∧ t.fuseJob = some ⟨9, b, [], 0⟩ ∧ t.flag F.FUSE_PSTAT_busy = true)) ∧
      (paused = true ∨ inside → Completes (.fuseResume v mv) s (fun t => unmoved t ∧
        (paused = true → inside → t.flag F.FUSE_PSTAT_paused = false ∧ result t = result s) ∧
        (paused = true → ¬inside → t.flag F.FUSE_PSTAT_paused = true ∧ result t = 2) ∧ (paused = false → t.flag F.FUSE_PSTAT_paused = false ∧ result t = result s))) ∧
      (∀ n : Nat, (s.fuseJob = none → Completes (.fuseAbort v n) s (fun t => unmoved t ∧ result t = result s)) ∧
        (∀ j, s.fuseJob = some j → Completes (.fuseAbort v n) s (fun t => ends t j 10 ∧ burnt (if paused then [] else j.cells.take n) t)) ∧
        (inside → Completes (.fuseSupplyExit n mv) s (fun t => unmoved t ∧ t.get F.FUSE_VMON_mv = mv.toNat ∧ t.flag F.FUSE_VMON_inwin = true ∧
          ∀ a, a ≠ R.FUSE_VMON → t.rd a = s.rd a)) ∧
        (¬inside → s.fuseJob.all (fun j => j.op == 9 || paused) = true → Completes (.fuseSupplyExit n mv) s (fun t => unmoved t ∧
          t.get F.FUSE_VMON_mv = mv.toNat ∧ t.flag F.FUSE_VMON_inwin = false ∧ ∀ a, a ≠ R.FUSE_VMON → t.rd a = s.rd a)) ∧
        (¬inside → paused = false → ∀ j, s.fuseJob = some j → j.op ≠ 9 → Completes (.fuseSupplyExit n mv) s (fun t => burnt (j.cells.take n) t ∧
          t.fuseJob = some { j with cells := j.cells.drop n } ∧ t.flag F.FUSE_PSTAT_paused = true ∧ t.flag F.FUSE_VMON_inwin = false ∧
          (∀ i k, (j.cells.drop n).head? = some (i, k) → i < 2048 → k < 39 → (t.get F.FUSE_PSTAT_bank, t.get F.FUSE_PSTAT_word, t.get F.FUSE_PSTAT_cell) = (i / 128, i % 128, k)) ∧
          (s.room 62 = true → HoldsEvent 62 0x4C2 (j.bank + t.get F.FUSE_PSTAT_word * 256 + t.get F.FUSE_PSTAT_cell * 2 ^ 16) t))))) ∧
    (∀ (failed : Option Nat) (differ marginal : List (Fin 2048)),
      (s.fuseJob = none ∨ paused = true → exec (.fuseOpComplete failed differ marginal) s = .next s) ∧
      (paused = false → ∀ j, s.fuseJob = some j →
        (j.op ≠ 9 → failed.all (fun n => decide (j.cells.length ≤ n)) = true → Completes (.fuseOpComplete failed differ marginal) s (fun t =>
          ends t j j.result ∧ burnt j.cells t)) ∧
        (j.op ≠ 9 → ∀ n, failed = some n → n < j.cells.length → Completes (.fuseOpComplete failed differ marginal) s (fun t => ends t j 6 ∧
          ∀ i < 2048, ∀ k < 39, ((j.cells.take n).contains (i, k) = true → natBit (tabGet 0 t.fuse i) k = true) ∧
            ((j.cells.take (n + 1)).contains (i, k) = false → natBit (tabGet 0 t.fuse i) k = natBit (tabGet 0 s.fuse i) k))) ∧
        (j.op = 9 → Completes (.fuseOpComplete failed differ marginal) s (fun t => t.fuse = s.fuse ∧ t.fuseJob = none ∧ t.flag F.FUSE_PSTAT_busy = false ∧
          result t = 0 ∧ ∀ b < 16, let worn := fun (i : Nat) => natBit (tabGet 0 s.wordFlags i) 4
            ((∃ i ∈ differ, i.val / 128 = b ∧ worn i = false) → t.flag (F.FUSE_BSTAT_drift b) = true ∧ (b = 0 → s.room 62 = true → ∃ i ∈ differ, i.val / 128 = 0 ∧
              HoldsEvent 62 0x4C1 (i.val % 128 * 256) t)) ∧
            ((∀ i ∈ differ, i.val / 128 ≠ b) → (∀ i ∈ marginal, i.val / 128 ≠ b) → t.rd (R.FUSE_BSTAT b) = s.rd (R.FUSE_BSTAT b)))))) ∧
    (∀ (m : Master) (mv : BitVec 12), let shut := (∃ q : Fin 48, 4 ≤ q.val ∧ m = .seq q) ∨ m = .host ∧ s.get F.SYS_BOOTSTAT_straps / 8 = 3
      let busy := s.flag F.SEC_CMD_busy
      let cleared := fun (t : State) => ∀ k < 8, t.rd (R.SEC_DATA k) = 0
      let answers := fun (t : State) (status : Nat) => t.get F.SEC_CMD_status = status ∧ t.flag F.SEC_CMD_busy = false ∧ cleared t
      let kept := fun (t : State) => t.rd R.SEC_LC = s.rd R.SEC_LC ∧ t.fuse = s.fuse ∧ t.chalPending = s.chalPending
      let given := (List.range 8).flatMap (fun k => leBytes 4 (s.rd (R.SEC_DATA k)).toNat)
      let asked := fun (p : W8) => p :: ((List.range 8).flatMap (fun k => leBytes 4 (s.rd (R.SEC_CHAL k)).toNat) ++ s.deviceId)
      let fails := fun (t : State) => t.get F.SEC_LC_fails = min 8 (s.get F.SEC_LC_fails + 1) ∧ t.get F.SEC_LC_dbg = s.get F.SEC_LC_dbg ∧ t.fuse = s.fuse ∧
        t.secFailing = true ∧ t.flag F.SEC_CMD_busy = true ∧ t.get F.SEC_LC_lockout = (if 7 ≤ s.get F.SEC_LC_fails then 1 else s.get F.SEC_LC_lockout) ∧
        (s.room 62 = true → HoldsEvent 62 0x4C5 (min 8 (s.get F.SEC_LC_fails + 1)) t)
      let opens := fun (t : State) (how : Nat) => answers t 0 ∧ t.get F.SEC_LC_dbg = 1 ∧ (s.room 62 = true → HoldsEvent 62 0x4C4 how t)
      let out := s.flag F.SEC_LC_lockout
      let shows := fun (t : State) (bs : List W8) => ∀ k < 8, leBytes 4 (t.rd (R.SEC_ATT k)).toNat = (bs.drop (4 * k)).take 4
      (∀ c ∈ [Instr.secChal m, .secResp m, .secPwd m, .secAttest m, .secClose m], (shut → exec c s = .next s) ∧
        (¬shut → busy = true → Completes c s (fun t => kept t ∧ t.flag F.SEC_CMD_busy = true ∧ ∀ a, a ≠ R.SEC_CMD → t.rd a = s.rd a))) ∧
      (s.fuseJob = none → shut ∨ busy = true → Completes (.secRma m mv) s (fun t => kept t ∧ t.fuseJob = none ∧ ∀ a, a ≠ R.SEC_CMD → a ≠ R.FUSE_VMON → t.rd a = s.rd a)) ∧
      (¬shut → busy = false →
        Completes (.secChal m) s (fun t => answers t 0 ∧ t.chalPending = true ∧ t.rd R.SEC_LC = s.rd R.SEC_LC ∧ t.fuse = s.fuse) ∧
        Completes (.secClose m) s (fun t => answers t 0 ∧ t.get F.SEC_LC_dbg = 0 ∧ t.get F.SEC_LC_fails = s.get F.SEC_LC_fails ∧ t.fuse = s.fuse) ∧
        (s.deviceKey = none → Completes (.secAttest m) s (fun t => answers t 3 ∧ kept t ∧ shows t (List.replicate 32 0))) ∧
        (∀ key, s.deviceKey = some key → Completes (.secAttest m) s (fun t => answers t 0 ∧ kept t ∧ t.ev = s.ev ∧
          shows t (hmac256 key ((2 : W8) :: (given ++ s.deviceId ++ [BitVec.ofNat 8 lc] ++ (List.range 8).flatMap (fun k => leBytes 4 (s.rd (R.SYS_BOOTHASH k)).toNat)))))) ∧
        (out = true → Completes (.secResp m) s (fun t => answers t 2 ∧ kept t) ∧ Completes (.secPwd m) s (fun t => answers t 2 ∧ kept t)) ∧
        (out = false → lc ≠ 3 ∨ s.dbgBarred = true ∨ natBit s.policy 1 = false → Completes (.secResp m) s (fun t => answers t 4 ∧ kept t)) ∧
        (out = false → lc ≠ 3 ∨ s.dbgBarred = true ∨ natBit s.policy 0 = false → Completes (.secPwd m) s (fun t => answers t 4 ∧ kept t)) ∧
        (out = false → lc = 3 → s.dbgBarred = false → natBit s.policy 1 = true →
          (s.deviceKey = none → Completes (.secResp m) s (fun t => answers t 3 ∧ kept t)) ∧
          (∀ key, s.deviceKey = some key → let good := s.chalPending = true ∧ given = hmac256 key (asked 1)
            (good → Completes (.secResp m) s (fun t => opens t 1 ∧ t.chalPending = false)) ∧ (¬good → Completes (.secResp m) s (fun t => fails t ∧ t.chalPending = false)))) ∧
        (out = false → lc = 3 → s.dbgBarred = false → natBit s.policy 0 = true → let hash := s.shadowBytes 1 12 8
          let none_ := natBit (s.get F.FUSE_INTEGRITY_alarm) 1 = true ∨ hash.all (fun x => x == 0) = true
          (none_ → Completes (.secPwd m) s (fun t => answers t 3 ∧ kept t)) ∧
          (¬none_ → sha256 given = hash → Completes (.secPwd m) s (fun t => opens t 0)) ∧ (¬none_ → sha256 given ≠ hash → Completes (.secPwd m) s fails)) ∧
        (s.fuseJob = none → let inside := if s.flag F.FUSE_VMON_inwin then 1746 ≤ mv.toNat ∧ mv.toNat ≤ 1854 else 1751 ≤ mv.toNat ∧ mv.toNat ≤ 1849
          let may := lc = 3 ∧ natBit s.policy 3 = true ∧ inside
          (out = true → Completes (.secRma m mv) s (fun t => answers t 2 ∧ kept t)) ∧ (out = false → ¬may → Completes (.secRma m mv) s (fun t => answers t 4 ∧ kept t)) ∧
          (out = false → may → s.deviceKey = none → Completes (.secRma m mv) s (fun t => answers t 3 ∧ kept t)) ∧
          (out = false → may → ∀ key, s.deviceKey = some key → let good := s.chalPending = true ∧ given = hmac256 key (asked 3)
            (good → Completes (.secRma m mv) s (fun t => answers t 0 ∧ t.chalPending = false ∧ t.fuse = s.fuse ∧
              t.fuseJob = some ⟨6, 2, [256, 257, 258].flatMap (fun i => lacks i 8), 0⟩)) ∧
            (¬good → Completes (.secRma m mv) s (fun t => fails t ∧ t.chalPending = false)))))) ∧
    (s.secFailing = false → exec .secFailReport s = .next s) ∧
    (s.secFailing = true → Completes .secFailReport s (fun t => t.secFailing = false ∧ t.get F.SEC_CMD_status = 1 ∧ t.flag F.SEC_CMD_busy = false ∧
      (∀ k < 8, t.rd (R.SEC_DATA k) = 0) ∧ t.rd R.SEC_LC = s.rd R.SEC_LC))
end

