-- ==== Sys2Proof/Laws/Tab.lean ====
section
/-! SUPPORT. The canonical form of tables under their operations, and the relation `Keeps` between a state and what a command makes of it. -/

namespace Sys2Proof.Machine

/-! ### Tables -/

theorem tabRising_le {α : Type} {lo lo' : Nat} (h : lo' ≤ lo) : ∀ {t : Tab α}, tabRising lo t = true → tabRising lo' t = true
  | [], _ => rfl
  | (k, v) :: t, ht => by
    simp only [tabRising, Bool.and_eq_true, decide_eq_true_eq] at ht ⊢
    exact ⟨Nat.le_trans h ht.1, ht.2⟩

theorem tabRising_filter {α : Type} (p : Nat × α → Bool) : ∀ {lo : Nat} {t : Tab α}, tabRising lo t = true →
    tabRising lo (t.filter p) = true
  | _, [], _ => rfl
  | lo, (k, v) :: t, ht => by
    simp only [tabRising, Bool.and_eq_true, decide_eq_true_eq] at ht
    have ih := tabRising_filter p ht.2
    by_cases hp : p (k, v) = true
    · simp [hp, tabRising, ht.1, ih]
    · simp only [List.filter_cons, hp, Bool.false_eq_true, if_false]
      exact tabRising_le (by omega) ih

theorem tabRising_put {α : Type} (a : Nat) (x : α) : ∀ {lo : Nat} {t : Tab α}, lo ≤ a → tabRising lo t = true →
    tabRising lo (tabPut t a x) = true
  | _, [], hl, _ => by simp [tabPut, tabRising, hl]
  | lo, (k, v) :: t, hl, ht => by
    simp only [tabRising, Bool.and_eq_true, decide_eq_true_eq] at ht
    unfold tabPut
    split
    · next e => subst e; simp [tabRising, ht.2, hl]
    · split
      · next h => simp [tabRising, hl, ht.2]; omega
      · next h1 h2 => simp [tabRising, ht.1, tabRising_put a x (lo := k + 1) (by omega) ht.2]

theorem tabWf_put {α : Type} {t : Tab α} {a : Nat} {x : α} (h : tabWf t = true) : tabWf (tabPut t a x) = true :=
  tabRising_put a x (Nat.zero_le a) h

theorem tabWf_filter {α : Type} {t : Tab α} {p : Nat × α → Bool} (h : tabWf t = true) : tabWf (t.filter p) = true :=
  tabRising_filter p h

theorem tabWf_del {α : Type} {t : Tab α} {a : Nat} (h : tabWf t = true) : tabWf (tabDel t a) = true := tabWf_filter h

theorem tabWf_drop {α : Type} {t : Tab α} {p : Nat → Bool} (h : tabWf t = true) : tabWf (tabDrop p t) = true := tabWf_filter h

theorem tabWf_foldl_put {α β : Type} (f : β → Nat) (g : β → α) : ∀ (l : List β) {t : Tab α}, tabWf t = true →
    tabWf (l.foldl (fun x b => tabPut x (f b) (g b)) t) = true
  | [], _, h => h
  | _ :: l, _, h => tabWf_foldl_put f g l (tabWf_put h)

theorem tabRising_filterMap {α : Type} (f : Nat × α → Option (Nat × α)) (hf : ∀ e e', f e = some e' → e'.1 = e.1) :
    ∀ {lo : Nat} {t : Tab α}, tabRising lo t = true → tabRising lo (t.filterMap f) = true
  | _, [], _ => rfl
  | lo, (k, v) :: t, ht => by
    simp only [tabRising, Bool.and_eq_true, decide_eq_true_eq] at ht
    have ih := tabRising_filterMap f hf ht.2
    cases hc : f (k, v) with
    | none => simp only [List.filterMap_cons, hc]; exact tabRising_le (by omega) ih
    | some e =>
      obtain ⟨k', v'⟩ := e
      have := hf _ _ hc
      simp only at this
      subst this
      simp [List.filterMap_cons, hc, tabRising, ht.1, ih]

theorem tabRising_map {α : Type} (f : Nat × α → Nat × α) (hf : ∀ e, (f e).1 = e.1) :
    ∀ {lo : Nat} {t : Tab α}, tabRising lo t = true → tabRising lo (t.map f) = true
  | _, [], _ => rfl
  | lo, (k, v) :: t, ht => by
    simp only [tabRising, Bool.and_eq_true, decide_eq_true_eq] at ht
    have ih := tabRising_map f hf ht.2
    have h1 := hf (k, v)
    rw [List.map_cons]
    generalize f (k, v) = e at h1
    obtain ⟨k', v'⟩ := e
    simp only at h1
    subst h1
    simp [tabRising, ht.1, ih]

theorem tabWf_map {α : Type} {t : Tab α} {f : Nat × α → Nat × α} (hf : ∀ e, (f e).1 = e.1) (h : tabWf t = true) :
    tabWf (t.map f) = true := tabRising_map f hf h

theorem tabWf_filterMap {α : Type} {t : Tab α} {f : Nat × α → Option (Nat × α)} (hf : ∀ e e', f e = some e' → e'.1 = e.1)
    (h : tabWf t = true) : tabWf (t.filterMap f) = true := tabRising_filterMap f hf h

/-- What is found after an entry is written: the entry at its key, and what was there elsewhere. -/
theorem tabFind_put {α : Type} (a b : Nat) (x : α) : ∀ {lo : Nat} {t : Tab α}, tabRising lo t = true →
    tabFind (tabPut t a x) b = if b = a then some x else tabFind t b
  | _, [], _ => by simp [tabPut, tabFind]
  | lo, (k, v) :: t, ht => by
    simp only [tabRising, Bool.and_eq_true, decide_eq_true_eq] at ht
    have ih := tabFind_put a b x ht.2
    unfold tabPut
    split
    · next e => subst e; by_cases hb : b = a <;> simp [tabFind, hb]
    · split
      · next h => by_cases hb : b = a <;> simp [tabFind, hb]
      · next h1 h2 =>
        simp only [tabFind, ih]
        by_cases hb : b = k
        · subst hb; simp [Ne.symm h1]
        · simp [hb]

/-- A table without one written entry still finds the others, whatever its form. -/
theorem tabFind_put_ne {α : Type} {a b : Nat} (x : α) (h : b ≠ a) : ∀ (t : Tab α), tabFind (tabPut t a x) b = tabFind t b
  | [] => by simp [tabPut, tabFind, h]
  | (k, v) :: t => by
    unfold tabPut
    split
    · next e => subst e; simp [tabFind, h]
    · split
      · simp [tabFind, h]
      · simp [tabFind, tabFind_put_ne x h t]

@[simp] theorem tabFind_put_same {α : Type} (a : Nat) (x : α) : ∀ (t : Tab α), tabFind (tabPut t a x) a = some x
  | [] => by simp [tabPut, tabFind]
  | (k, v) :: t => by
    unfold tabPut
    split
    · simp [tabFind]
    · split
      · simp [tabFind]
      · next h1 _ => simp [tabFind, h1, tabFind_put_same a x t]

@[simp] theorem tabGet_put_same {α : Type} (d : α) (t : Tab α) (a : Nat) (x : α) : tabGet d (tabPut t a x) a = x := by simp [tabGet]

theorem tabGet_put_ne {α : Type} (d : α) (t : Tab α) {a b : Nat} (x : α) (h : b ≠ a) : tabGet d (tabPut t a x) b = tabGet d t b := by
  simp [tabGet, tabFind_put_ne x h]

/-! ### Bits of a number -/

theorem natBit_eq (n i : Nat) : natBit n i = n.testBit i := by
  simp only [natBit, Nat.testBit_eq_decide_div_mod_eq]
  rfl

/-- Adding a clear bit's weight sets that bit alone. -/
theorem testBit_add_weight (n i k : Nat) (h : n.testBit i = false) : (n + 2 ^ i).testBit k = if k = i then true else n.testBit k := by
  rw [Nat.add_comm]
  rcases Nat.lt_trichotomy k i with hk | hk | hk
  · rw [if_neg (by omega), Nat.testBit_two_pow_add_gt hk]
  · subst hk; simp [Nat.testBit_two_pow_add_eq, h]
  · rw [if_neg (by omega)]
    obtain ⟨d, rfl⟩ : ∃ d, k = (i + 1) + d := ⟨k - (i + 1), by omega⟩
    have hd : n / 2 ^ i % 2 = 0 := by
      rw [Nat.testBit_eq_decide_div_mod_eq] at h
      have := Nat.mod_two_eq_zero_or_one (n / 2 ^ i)
      simp at h; omega
    have e : (2 ^ i + n) / 2 ^ (i + 1) = n / 2 ^ (i + 1) := by
      rw [Nat.pow_succ, ← Nat.div_div_eq_div_mul, ← Nat.div_div_eq_div_mul, Nat.add_comm, Nat.add_div_right _ (Nat.two_pow_pos i)]
      omega
    have := congrArg (fun x => x.testBit d) e
    simpa [Nat.testBit_div_two_pow, Nat.add_comm, Nat.add_left_comm, Nat.add_assoc] using this

/-- Writing one bit leaves the others. -/
theorem natBit_setBit (n i k : Nat) (b : Bool) : natBit (natSetBit n i b) k = if k = i then b else natBit n k := by
  simp only [natSetBit, natBit_eq]
  split
  · next h =>
    have h' : n.testBit i = b := by simpa using h
    split
    · next hk => subst hk; exact h'
    · rfl
  · next h =>
    have h' : n.testBit i = !b := by cases hb : n.testBit i <;> cases b <;> simp_all
    cases b with
    | true => simpa using testBit_add_weight n i k (by simpa using h')
    | false =>
      have hge : 2 ^ i ≤ n := Nat.ge_two_pow_of_testBit (by simpa using h')
      have hm : (n - 2 ^ i).testBit i = false := by
        have := Nat.testBit_two_pow_add_eq (n - 2 ^ i) i
        rw [Nat.add_sub_cancel' hge, h'] at this
        simpa using this.symm
      have := testBit_add_weight (n - 2 ^ i) i k hm
      rw [Nat.sub_add_cancel hge] at this
      by_cases hk : k = i
      · subst hk; simpa using hm
      · simp [hk] at this ⊢; exact this.symm

end Sys2Proof.Machine
end

