-- ==== Sys2Proof/Laws/Keeps.lean ====
section
/-! SUPPORT. The relation `Keeps` between a state and what an operation makes of it: the queue is untouched, the canonical
form and the capacities are kept, no fuse cell is lost. -/

namespace Sys2Proof.Machine

/-- What every operation keeps. -/
structure Keeps (s t : State) : Prop where
  queue : t.pending = s.pending
  form : s.wf = true → t.wf = true
  fits : s.evFits = true → t.evFits = true
  fuse : fuseGrows s t
  gen : s.memGen ≤ t.memGen
  draws : s.freeCount ≤ t.freeCount

theorem Keeps.refl (s : State) : Keeps s s := ⟨rfl, id, id, fun _ _ h => h, Nat.le_refl _, Nat.le_refl _⟩

theorem Keeps.trans {s t u : State} (h : Keeps s t) (g : Keeps t u) : Keeps s u :=
  ⟨g.queue.trans h.queue, fun w => g.form (h.form w), fun w => g.fits (h.fits w), fun i k w => g.fuse i k (h.fuse i k w),
    Nat.le_trans h.gen g.gen, Nat.le_trans h.draws g.draws⟩

theorem Keeps.foldl {α : Type} {f : State → α → State} (h : ∀ t x, Keeps t (f t x)) : ∀ (l : List α) (s : State), Keeps s (l.foldl f s)
  | [], s => Keeps.refl s
  | x :: l, s => (h s x).trans (Keeps.foldl h l (f s x))

/-- A change of fields. -/
theorem Keeps.step {s t u : State} (h : Keeps s t) (hq : u.pending = t.pending) (hm : t.memWf = true → u.memWf = true)
    (h_memZero : tabWf s.memZero = true → tabWf t.memZero = true → tabWf u.memZero = true)
    (h_cells : tabWf s.cells = true → tabWf t.cells = true → tabWf u.cells = true)
    (h_ceCount : tabWf s.ceCount = true → tabWf t.ceCount = true → tabWf u.ceCount = true)
    (h_ceOpen : tabWf s.ceOpen = true → tabWf t.ceOpen = true → tabWf u.ceOpen = true)
    (h_sparesUsed : tabWf s.sparesUsed = true → tabWf t.sparesUsed = true → tabWf u.sparesUsed = true)
    (h_failedTargets : tabWf s.failedTargets = true → tabWf t.failedTargets = true → tabWf u.failedTargets = true)
    (h_regs : tabWf s.regs = true → tabWf t.regs = true → tabWf u.regs = true)
    (h_held : tabWf s.held = true → tabWf t.held = true → tabWf u.held = true)
    (h_seqs : tabWf s.seqs = true → tabWf t.seqs = true → tabWf u.seqs = true)
    (h_splitPairs : tabWf s.splitPairs = true → tabWf t.splitPairs = true → tabWf u.splitPairs = true)
    (h_sigWinner : tabWf s.sigWinner = true → tabWf t.sigWinner = true → tabWf u.sigWinner = true)
    (h_monPassed : tabWf s.monPassed = true → tabWf t.monPassed = true → tabWf u.monPassed = true)
    (h_msixSent : tabWf s.msixSent = true → tabWf t.msixSent = true → tabWf u.msixSent = true)
    (h_axes : tabWf s.axes = true → tabWf t.axes = true → tabWf u.axes = true)
    (h_serials : tabWf s.serials = true → tabWf t.serials = true → tabWf u.serials = true)
    (h_encOuts : tabWf s.encOuts = true → tabWf t.encOuts = true → tabWf u.encOuts = true)
    (h_lbUnits : tabWf s.lbUnits = true → tabWf t.lbUnits = true → tabWf u.lbUnits = true)
    (h_lbForce : tabWf s.lbForce = true → tabWf t.lbForce = true → tabWf u.lbForce = true)
    (h_lanes : tabWf s.lanes = true → tabWf t.lanes = true → tabWf u.lanes = true)
    (h_motors : tabWf s.motors = true → tabWf t.motors = true → tabWf u.motors = true)
    (h_steppers : tabWf s.steppers = true → tabWf t.steppers = true → tabWf u.steppers = true)
    (h_tiles : tabWf s.tiles = true → tabWf t.tiles = true → tabWf u.tiles = true)
    (h_classes : tabWf s.classes = true → tabWf t.classes = true → tabWf u.classes = true)
    (h_gates : tabWf s.gates = true → tabWf t.gates = true → tabWf u.gates = true)
    (h_chans : tabWf s.chans = true → tabWf t.chans = true → tabWf u.chans = true)
    (h_capPulses : tabWf s.capPulses = true → tabWf t.capPulses = true → tabWf u.capPulses = true)
    (h_streams : tabWf s.streams = true → tabWf t.streams = true → tabWf u.streams = true)
    (h_fuse : tabWf s.fuse = true → tabWf t.fuse = true → tabWf u.fuse = true)
    (h_shadow : tabWf s.shadow = true → tabWf t.shadow = true → tabWf u.shadow = true)
    (h_wordFlags : tabWf s.wordFlags = true → tabWf t.wordFlags = true → tabWf u.wordFlags = true)
    (h_beats : tabWf s.beats = true → tabWf t.beats = true → tabWf u.beats = true)
    (he : t.evFits = true → u.evFits = true) (hf : fuseGrows t u) (hg : t.memGen ≤ u.memGen) (hc : t.freeCount ≤ u.freeCount) : Keeps s u := by
  refine ⟨hq.trans h.queue, fun v => ?_, fun v => he (h.fits v), fun i k v => hf i k (h.fuse i k v), Nat.le_trans h.gen hg,
    Nat.le_trans h.draws hc⟩
  have w := h.form v
  simp only [State.wf, Bool.and_eq_true] at v w ⊢
  obtain ⟨⟨⟨⟨⟨⟨⟨⟨⟨⟨⟨⟨⟨⟨⟨⟨⟨⟨⟨⟨⟨⟨⟨⟨⟨⟨⟨⟨⟨⟨⟨v0, v1⟩, v2⟩, v3⟩, v4⟩, v5⟩, v6⟩, v7⟩, v8⟩, v9⟩, v10⟩, v11⟩, v12⟩, v13⟩, v14⟩, v15⟩, v16⟩, v17⟩, v18⟩, v19⟩, v20⟩, v21⟩, v22⟩, v23⟩, v24⟩, v25⟩, v26⟩, v27⟩, v28⟩, v29⟩, v30⟩, v31⟩ := v
  obtain ⟨⟨⟨⟨⟨⟨⟨⟨⟨⟨⟨⟨⟨⟨⟨⟨⟨⟨⟨⟨⟨⟨⟨⟨⟨⟨⟨⟨⟨⟨⟨w0, w1⟩, w2⟩, w3⟩, w4⟩, w5⟩, w6⟩, w7⟩, w8⟩, w9⟩, w10⟩, w11⟩, w12⟩, w13⟩, w14⟩, w15⟩, w16⟩, w17⟩, w18⟩, w19⟩, w20⟩, w21⟩, w22⟩, w23⟩, w24⟩, w25⟩, w26⟩, w27⟩, w28⟩, w29⟩, w30⟩, w31⟩ := w
  exact ⟨⟨⟨⟨⟨⟨⟨⟨⟨⟨⟨⟨⟨⟨⟨⟨⟨⟨⟨⟨⟨⟨⟨⟨⟨⟨⟨⟨⟨⟨⟨hm w0, h_memZero v1 w1⟩, h_cells v2 w2⟩, h_ceCount v3 w3⟩, h_ceOpen v4 w4⟩, h_sparesUsed v5 w5⟩, h_failedTargets v6 w6⟩, h_regs v7 w7⟩, h_held v8 w8⟩, h_seqs v9 w9⟩, h_splitPairs v10 w10⟩, h_sigWinner v11 w11⟩, h_monPassed v12 w12⟩, h_msixSent v13 w13⟩, h_axes v14 w14⟩, h_serials v15 w15⟩, h_encOuts v16 w16⟩, h_lbUnits v17 w17⟩, h_lbForce v18 w18⟩, h_lanes v19 w19⟩, h_motors v20 w20⟩, h_steppers v21 w21⟩, h_tiles v22 w22⟩, h_classes v23 w23⟩, h_gates v24 w24⟩, h_chans v25 w25⟩, h_capPulses v26 w26⟩, h_streams v27 w27⟩, h_fuse v28 w28⟩, h_shadow v29 w29⟩, h_wordFlags v30 w30⟩, h_beats v31 w31⟩

/-- A structure update: the fields that matter are as in `t`, or written by a table operation. -/
theorem Keeps.make {s t : State}
    {x_pending : List Instr}
    {x_variant : Nat}
    {x_lanesOff : Nat}
    {x_clustersOff : Nat}
    {x_dieBOff : Bool}
    {x_uptime : Nat}
    {x_freeCount : Nat}
    {x_memGen : Nat}
    {x_mem : List Host.Cell}
    {x_memZero : Tab Unit}
    {x_march : Option March}
    {x_cells : Tab CellErr}
    {x_ceCount : Tab Nat}
    {x_ceOpen : Tab Unit}
    {x_elogHi : W32}
    {x_mfailHi : W32}
    {x_sparesUsed : Tab Nat}
    {x_failedTargets : Tab Unit}
    {x_regs : Tab W32}
    {x_held : Tab W32}
    {x_seqs : Tab Seq}
    {x_splitPairs : Tab Unit}
    {x_signals : BitVec 256}
    {x_sigWinner : Tab Nat}
    {x_ev : Events}
    {x_monPassed : Tab Nat}
    {x_msixSent : Tab Nat}
    {x_msixFnMask : Bool}
    {x_axes : Tab Axis}
    {x_serials : Tab SerialIn}
    {x_encOuts : Tab EncOut}
    {x_lbUnits : Tab Nat}
    {x_lbForce : Tab Unit}
    {x_lanes : Tab Lane}
    {x_motors : Tab Motor}
    {x_steppers : Tab Stepper}
    {x_cmpIn : Vector Nat 8}
    {x_adcRun : Option Nat}
    {x_adcWait : List Nat}
    {x_adcCal : W32 × W32}
    {x_tiles : Tab Tile}
    {x_classes : Tab ClassRec}
    {x_echoes : List (Nat × EchoMsg)}
    {x_gates : Tab Gate}
    {x_answer : Answer}
    {x_chans : Tab Chan}
    {x_capPulses : Tab Nat}
    {x_steer : List GspPkt}
    {x_streams : Tab Stream}
    {x_wire : List WireOut}
    {x_ptpFrac : Nat}
    {x_ptpInc : Nat}
    {x_ratioFrom : Nat}
    {x_ppsUntil : Nat}
    {x_adcCalRun : Bool}
    {x_dieHot : Bool}
    {x_pllDue : Nat}
    {x_fuse : Tab Nat}
    {x_shadow : Tab W32}
    {x_wordFlags : Tab Nat}
    {x_fuseJob : Option FuseJob}
    {x_policy : Nat}
    {x_dbgBarred : Bool}
    {x_chalPending : Bool}
    {x_secFailing : Bool}
    {x_wdFirst : Bool}
    {x_beats : Tab Unit}
    {x_testing : Nat}
    {x_monFailed : Nat}
    {x_resetting : Bool}
    {x_capture : Nat}
    {x_captureRail : Option Nat}
    {x_railBelow : Nat}
    {x_railOpen : Nat}
    {x_railDwell : Nat}
    {x_railEpisode : Nat}
    {x_scrubLate : Bool}
    {x_reloadSeq : Nat}
    (h : Keeps s t) (hq : x_pending = t.pending) (hm : x_mem = t.mem) (hz : x_memZero = t.memZero) (he : x_ev = t.ev)
    (hf : x_fuse = t.fuse) (hg : x_memGen = t.memGen) (hc : t.freeCount ≤ x_freeCount)
    (h_cells : tabWf s.cells = true → tabWf t.cells = true → tabWf x_cells = true)
    (h_ceCount : tabWf s.ceCount = true → tabWf t.ceCount = true → tabWf x_ceCount = true)
    (h_ceOpen : tabWf s.ceOpen = true → tabWf t.ceOpen = true → tabWf x_ceOpen = true)
    (h_sparesUsed : tabWf s.sparesUsed = true → tabWf t.sparesUsed = true → tabWf x_sparesUsed = true)
    (h_failedTargets : tabWf s.failedTargets = true → tabWf t.failedTargets = true → tabWf x_failedTargets = true)
    (h_regs : tabWf s.regs = true → tabWf t.regs = true → tabWf x_regs = true)
    (h_held : tabWf s.held = true → tabWf t.held = true → tabWf x_held = true)
    (h_seqs : tabWf s.seqs = true → tabWf t.seqs = true → tabWf x_seqs = true)
    (h_splitPairs : tabWf s.splitPairs = true → tabWf t.splitPairs = true → tabWf x_splitPairs = true)
    (h_sigWinner : tabWf s.sigWinner = true → tabWf t.sigWinner = true → tabWf x_sigWinner = true)
    (h_monPassed : tabWf s.monPassed = true → tabWf t.monPassed = true → tabWf x_monPassed = true)
    (h_msixSent : tabWf s.msixSent = true → tabWf t.msixSent = true → tabWf x_msixSent = true)
    (h_axes : tabWf s.axes = true → tabWf t.axes = true → tabWf x_axes = true)
    (h_serials : tabWf s.serials = true → tabWf t.serials = true → tabWf x_serials = true)
    (h_encOuts : tabWf s.encOuts = true → tabWf t.encOuts = true → tabWf x_encOuts = true)
    (h_lbUnits : tabWf s.lbUnits = true → tabWf t.lbUnits = true → tabWf x_lbUnits = true)
    (h_lbForce : tabWf s.lbForce = true → tabWf t.lbForce = true → tabWf x_lbForce = true)
    (h_lanes : tabWf s.lanes = true → tabWf t.lanes = true → tabWf x_lanes = true)
    (h_motors : tabWf s.motors = true → tabWf t.motors = true → tabWf x_motors = true)
    (h_steppers : tabWf s.steppers = true → tabWf t.steppers = true → tabWf x_steppers = true)
    (h_tiles : tabWf s.tiles = true → tabWf t.tiles = true → tabWf x_tiles = true)
    (h_classes : tabWf s.classes = true → tabWf t.classes = true → tabWf x_classes = true)
    (h_gates : tabWf s.gates = true → tabWf t.gates = true → tabWf x_gates = true)
    (h_chans : tabWf s.chans = true → tabWf t.chans = true → tabWf x_chans = true)
    (h_capPulses : tabWf s.capPulses = true → tabWf t.capPulses = true → tabWf x_capPulses = true)
    (h_streams : tabWf s.streams = true → tabWf t.streams = true → tabWf x_streams = true)
    (h_shadow : tabWf s.shadow = true → tabWf t.shadow = true → tabWf x_shadow = true)
    (h_wordFlags : tabWf s.wordFlags = true → tabWf t.wordFlags = true → tabWf x_wordFlags = true)
    (h_beats : tabWf s.beats = true → tabWf t.beats = true → tabWf x_beats = true)
    : Keeps s (State.mk x_pending x_variant x_lanesOff x_clustersOff x_dieBOff x_uptime x_freeCount x_memGen x_mem x_memZero x_march x_cells x_ceCount x_ceOpen x_elogHi x_mfailHi x_sparesUsed x_failedTargets x_regs x_held x_seqs x_splitPairs x_signals x_sigWinner x_ev x_monPassed x_msixSent x_msixFnMask x_axes x_serials x_encOuts x_lbUnits x_lbForce x_lanes x_motors x_steppers x_cmpIn x_adcRun x_adcWait x_adcCal x_tiles x_classes x_echoes x_gates x_answer x_chans x_capPulses x_steer x_streams x_wire x_ptpFrac x_ptpInc x_ratioFrom x_ppsUntil x_adcCalRun x_dieHot x_pllDue x_fuse x_shadow x_wordFlags x_fuseJob x_policy x_dbgBarred x_chalPending x_secFailing x_wdFirst x_beats x_testing x_monFailed x_resetting x_capture x_captureRail x_railBelow x_railOpen x_railDwell x_railEpisode x_scrubLate x_reloadSeq) := by
  subst hq hm hz he hf hg
  refine Keeps.step h rfl id (fun _ w => w) h_cells h_ceCount h_ceOpen h_sparesUsed h_failedTargets h_regs h_held h_seqs h_splitPairs h_sigWinner h_monPassed h_msixSent h_axes h_serials h_encOuts h_lbUnits h_lbForce h_lanes h_motors h_steppers h_tiles h_classes h_gates h_chans h_capPulses h_streams (fun _ w => w) h_shadow h_wordFlags h_beats id (fun _ _ w => w) (Nat.le_refl _) hc

end Sys2Proof.Machine
end

