-- ==== Sys2Proof/Laws/KeepsOps.lean ====
section
/-! SUPPORT. What each operation of Machine/Ops keeps. -/

set_option maxRecDepth 4096

namespace Sys2Proof.Machine

theorem State.wr_keeps (s : State) (a : Nat) (v : Sys2Proof.W32) : Keeps s (State.wr s a v) := by
  unfold State.wr
  repeat' first
    | with_reducible exact Keeps.refl _
    | with_reducible assumption
    | (extract_lets +onlyGivenNames x; have hx : Keeps s x := ?_; (on_goal 1 => clear_value x); (on_goal 2 => (unfold x; clear x)))
    | (extract_lets +onlyGivenNames x; have hx : Keeps s x.2 := ?_; (on_goal 1 => clear_value x); (on_goal 2 => (unfold x; clear x)))
    | (extract_lets +onlyGivenNames x; clear_value x)
    | with_reducible (apply Keeps.trans ?_ (Keeps.foldl (fun fs _ => ?_) _ _))
    | split
    | dsimp only
    | (refine Keeps.make ?_ rfl rfl rfl rfl rfl rfl ?_ ?_ ?_ ?_ ?_ ?_ ?_ ?_ ?_ ?_ ?_ ?_ ?_ ?_ ?_ ?_ ?_ ?_ ?_ ?_ ?_ ?_ ?_ ?_ ?_ ?_ ?_ ?_ ?_ ?_)
    | exact fun _ w => w
    | exact Nat.le_refl _
    | exact fun _ w => tabWf_put w
    | exact fun _ w => tabWf_del w
    | exact fun _ w => tabWf_drop w
    | exact fun _ w => tabWf_filter w
    | exact fun w _ => w
    | exact fun w _ => tabWf_put w
    | exact fun w _ => tabWf_del w
    | exact fun w _ => tabWf_drop w
    | exact fun w _ => tabWf_filter w
    | exact fun _ w => tabWf_map (fun _ => rfl) w
    | exact fun w _ => tabWf_map (fun _ => rfl) w
    | (refine fun _ w => tabWf_map ?_ w; intro e; (try dsimp only); split <;> rfl)
    | (refine fun w _ => tabWf_map ?_ w; intro e; (try dsimp only); split <;> rfl)
    | exact Nat.le_add_right _ _

theorem State.plainWrite_keeps (s : State) (a : Nat) (v : Sys2Proof.W32) : Keeps s (State.plainWrite s a v) := by
  unfold State.plainWrite
  repeat' first
    | with_reducible exact Keeps.refl _
    | with_reducible assumption
    | (extract_lets +onlyGivenNames x; have hx : Keeps s x := ?_; (on_goal 1 => clear_value x); (on_goal 2 => (unfold x; clear x)))
    | (extract_lets +onlyGivenNames x; have hx : Keeps s x.2 := ?_; (on_goal 1 => clear_value x); (on_goal 2 => (unfold x; clear x)))
    | (extract_lets +onlyGivenNames x; clear_value x)
    | with_reducible (apply Keeps.trans ?_ (State.wr_keeps _ _ _))
    | with_reducible (apply Keeps.trans ?_ (Keeps.foldl (fun fs _ => ?_) _ _))
    | split
    | dsimp only

theorem State.set_keeps (s : State) (f : Field) (v : Nat) : Keeps s (State.set s f v) := by
  unfold State.set
  repeat' first
    | with_reducible exact Keeps.refl _
    | with_reducible assumption
    | (extract_lets +onlyGivenNames x; have hx : Keeps s x := ?_; (on_goal 1 => clear_value x); (on_goal 2 => (unfold x; clear x)))
    | (extract_lets +onlyGivenNames x; have hx : Keeps s x.2 := ?_; (on_goal 1 => clear_value x); (on_goal 2 => (unfold x; clear x)))
    | (extract_lets +onlyGivenNames x; clear_value x)
    | with_reducible (apply Keeps.trans ?_ (State.wr_keeps _ _ _))
    | with_reducible (apply Keeps.trans ?_ (Keeps.foldl (fun fs _ => ?_) _ _))
    | split
    | dsimp only

theorem State.setBit_keeps (s : State) (f : Field) (i : Nat) (b : Bool) : Keeps s (State.setBit s f i b) := by
  unfold State.setBit
  repeat' first
    | with_reducible exact Keeps.refl _
    | with_reducible assumption
    | (extract_lets +onlyGivenNames x; have hx : Keeps s x := ?_; (on_goal 1 => clear_value x); (on_goal 2 => (unfold x; clear x)))
    | (extract_lets +onlyGivenNames x; have hx : Keeps s x.2 := ?_; (on_goal 1 => clear_value x); (on_goal 2 => (unfold x; clear x)))
    | (extract_lets +onlyGivenNames x; clear_value x)
    | with_reducible (apply Keeps.trans ?_ (State.set_keeps _ _ _))
    | with_reducible (apply Keeps.trans ?_ (Keeps.foldl (fun fs _ => ?_) _ _))
    | split
    | dsimp only

theorem State.bumpBy_keeps (s : State) (f : Field) (n : Nat) : Keeps s (State.bumpBy s f n) := by
  unfold State.bumpBy
  repeat' first
    | with_reducible exact Keeps.refl _
    | with_reducible assumption
    | (extract_lets +onlyGivenNames x; have hx : Keeps s x := ?_; (on_goal 1 => clear_value x); (on_goal 2 => (unfold x; clear x)))
    | (extract_lets +onlyGivenNames x; have hx : Keeps s x.2 := ?_; (on_goal 1 => clear_value x); (on_goal 2 => (unfold x; clear x)))
    | (extract_lets +onlyGivenNames x; clear_value x)
    | with_reducible (apply Keeps.trans ?_ (State.set_keeps _ _ _))
    | with_reducible (apply Keeps.trans ?_ (Keeps.foldl (fun fs _ => ?_) _ _))
    | split
    | dsimp only

theorem State.bump_keeps (s : State) (f : Field) : Keeps s (State.bump s f) := by
  unfold State.bump
  repeat' first
    | with_reducible exact Keeps.refl _
    | with_reducible assumption
    | (extract_lets +onlyGivenNames x; have hx : Keeps s x := ?_; (on_goal 1 => clear_value x); (on_goal 2 => (unfold x; clear x)))
    | (extract_lets +onlyGivenNames x; have hx : Keeps s x.2 := ?_; (on_goal 1 => clear_value x); (on_goal 2 => (unfold x; clear x)))
    | (extract_lets +onlyGivenNames x; clear_value x)
    | with_reducible (apply Keeps.trans ?_ (State.bumpBy_keeps _ _ _))
    | with_reducible (apply Keeps.trans ?_ (Keeps.foldl (fun fs _ => ?_) _ _))
    | split
    | dsimp only

theorem State.drawn_keeps (s : State) : Keeps s (State.drawn s) := by
  unfold State.drawn
  repeat' first
    | with_reducible exact Keeps.refl _
    | with_reducible assumption
    | (extract_lets +onlyGivenNames x; have hx : Keeps s x := ?_; (on_goal 1 => clear_value x); (on_goal 2 => (unfold x; clear x)))
    | (extract_lets +onlyGivenNames x; have hx : Keeps s x.2 := ?_; (on_goal 1 => clear_value x); (on_goal 2 => (unfold x; clear x)))
    | (extract_lets +onlyGivenNames x; clear_value x)
    | with_reducible (apply Keeps.trans ?_ (Keeps.foldl (fun fs _ => ?_) _ _))
    | split
    | dsimp only
    | (refine Keeps.make ?_ rfl rfl rfl rfl rfl rfl ?_ ?_ ?_ ?_ ?_ ?_ ?_ ?_ ?_ ?_ ?_ ?_ ?_ ?_ ?_ ?_ ?_ ?_ ?_ ?_ ?_ ?_ ?_ ?_ ?_ ?_ ?_ ?_ ?_ ?_)
    | exact fun _ w => w
    | exact Nat.le_refl _
    | exact fun _ w => tabWf_put w
    | exact fun _ w => tabWf_del w
    | exact fun _ w => tabWf_drop w
    | exact fun _ w => tabWf_filter w
    | exact fun w _ => w
    | exact fun w _ => tabWf_put w
    | exact fun w _ => tabWf_del w
    | exact fun w _ => tabWf_drop w
    | exact fun w _ => tabWf_filter w
    | exact fun _ w => tabWf_map (fun _ => rfl) w
    | exact fun w _ => tabWf_map (fun _ => rfl) w
    | (refine fun _ w => tabWf_map ?_ w; intro e; (try dsimp only); split <;> rfl)
    | (refine fun w _ => tabWf_map ?_ w; intro e; (try dsimp only); split <;> rfl)
    | exact Nat.le_add_right _ _

/-- The canonical form of memory after a byte is written. -/
theorem State.wrByte_memWf {s : State} (a : Nat) (b : W8) (h : s.memWf = true) : (s.wrByte a b).memWf = true := by
  simp only [State.memWf, Bool.and_eq_true, List.all_eq_true] at h ⊢
  unfold State.wrByte
  split
  · exact ⟨tabWf_del h.1, fun e he => h.2 e (List.mem_of_mem_filter he)⟩
  · next hb =>
    refine ⟨tabWf_put h.1, fun e he => ?_⟩
    have key : ∀ t : Tab W8, e ∈ tabPut t a b → e = (a, b) ∨ e ∈ t := by
      intro t
      induction t with
      | nil => intro h'; simpa [tabPut] using h'
      | cons p t ih =>
        obtain ⟨k, v⟩ := p
        unfold tabPut
        split
        · intro h'; rcases List.mem_cons.1 h' with r | r
          · exact Or.inl r
          · exact Or.inr (List.mem_cons_of_mem _ r)
        · split
          · intro h'; rcases List.mem_cons.1 h' with r | r
            · exact Or.inl r
            · exact Or.inr r
          · intro h'; rcases List.mem_cons.1 h' with r | r
            · exact Or.inr (r ▸ List.mem_cons_self)
            · rcases ih r with q | q
              · exact Or.inl q
              · exact Or.inr (List.mem_cons_of_mem _ q)
    rcases key s.mem he with r | r
    · subst r
      simp only [bne_iff_ne]
      exact hb
    · exact h.2 e r

theorem State.wrByte_keeps (s : State) (a : Nat) (b : W8) : Keeps s (State.wrByte s a b) := by
  have hm := State.wrByte_memWf (s := s) a b
  unfold State.wrByte at hm ⊢
  have st : ∀ {u : State}, u.pending = s.pending → (s.memWf = true → u.memWf = true) → u = { s with mem := u.mem } → Keeps s u := by
    intro u _ h2 h3
    rw [h3] at h2 ⊢
    exact Keeps.step (Keeps.refl s) rfl h2 (fun _ w => w) (fun _ w => w) (fun _ w => w) (fun _ w => w) (fun _ w => w) (fun _ w => w) (fun _ w => w) (fun _ w => w) (fun _ w => w) (fun _ w => w) (fun _ w => w) (fun _ w => w) (fun _ w => w) (fun _ w => w) (fun _ w => w) (fun _ w => w) (fun _ w => w) (fun _ w => w) (fun _ w => w) (fun _ w => w) (fun _ w => w) (fun _ w => w) (fun _ w => w) (fun _ w => w) (fun _ w => w) (fun _ w => w) (fun _ w => w) (fun _ w => w) (fun _ w => w) (fun _ w => w) (fun _ w => w) id (fun _ _ w => w) (Nat.le_refl _) (Nat.le_refl _)
  by_cases hc : s.background a = some b
  · rw [if_pos hc] at hm ⊢; exact st rfl hm rfl
  · rw [if_neg hc] at hm ⊢; exact st rfl hm rfl

theorem State.wrBytes_keeps : ∀ (s : State) (a : Nat) (bs : List W8), Keeps s (State.wrBytes s a bs)
  | s, _, [] => Keeps.refl s
  | s, a, b :: bs => (State.wrByte_keeps s a b).trans (State.wrBytes_keeps (s.wrByte a b) (a + 1) bs)

theorem State.wrWord_keeps (s : State) (a : Nat) (v : Sys2Proof.W32) : Keeps s (State.wrWord s a v) := by
  unfold State.wrWord
  repeat' first
    | with_reducible exact Keeps.refl _
    | with_reducible assumption
    | (extract_lets +onlyGivenNames x; have hx : Keeps s x := ?_; (on_goal 1 => clear_value x); (on_goal 2 => (unfold x; clear x)))
    | (extract_lets +onlyGivenNames x; have hx : Keeps s x.2 := ?_; (on_goal 1 => clear_value x); (on_goal 2 => (unfold x; clear x)))
    | (extract_lets +onlyGivenNames x; clear_value x)
    | with_reducible (apply Keeps.trans ?_ (State.wrBytes_keeps _ _ _))
    | with_reducible (apply Keeps.trans ?_ (Keeps.foldl (fun fs _ => ?_) _ _))
    | split
    | dsimp only

theorem State.wrWords_keeps : ∀ (s : State) (a : Nat) (ws : List W32), Keeps s (State.wrWords s a ws)
  | s, _, [] => Keeps.refl s
  | s, a, w :: ws => (State.wrBytes_keeps s a _).trans (State.wrWords_keeps (s.wrWord a w) (a + 4) ws)

theorem State.cellCleared_keeps (s : State) (a : Nat) : Keeps s (State.cellCleared s a) := by
  unfold State.cellCleared
  repeat' first
    | with_reducible exact Keeps.refl _
    | with_reducible assumption
    | (extract_lets +onlyGivenNames x; have hx : Keeps s x := ?_; (on_goal 1 => clear_value x); (on_goal 2 => (unfold x; clear x)))
    | (extract_lets +onlyGivenNames x; have hx : Keeps s x.2 := ?_; (on_goal 1 => clear_value x); (on_goal 2 => (unfold x; clear x)))
    | (extract_lets +onlyGivenNames x; clear_value x)
    | with_reducible (apply Keeps.trans ?_ (Keeps.foldl (fun fs _ => ?_) _ _))
    | split
    | dsimp only
    | (refine Keeps.make ?_ rfl rfl rfl rfl rfl rfl ?_ ?_ ?_ ?_ ?_ ?_ ?_ ?_ ?_ ?_ ?_ ?_ ?_ ?_ ?_ ?_ ?_ ?_ ?_ ?_ ?_ ?_ ?_ ?_ ?_ ?_ ?_ ?_ ?_ ?_)
    | exact fun _ w => w
    | exact Nat.le_refl _
    | exact fun _ w => tabWf_put w
    | exact fun _ w => tabWf_del w
    | exact fun _ w => tabWf_drop w
    | exact fun _ w => tabWf_filter w
    | exact fun w _ => w
    | exact fun w _ => tabWf_put w
    | exact fun w _ => tabWf_del w
    | exact fun w _ => tabWf_drop w
    | exact fun w _ => tabWf_filter w
    | exact fun _ w => tabWf_map (fun _ => rfl) w
    | exact fun w _ => tabWf_map (fun _ => rfl) w
    | (refine fun _ w => tabWf_map ?_ w; intro e; (try dsimp only); split <;> rfl)
    | (refine fun w _ => tabWf_map ?_ w; intro e; (try dsimp only); split <;> rfl)
    | exact Nat.le_add_right _ _

theorem State.slotTouched_keeps (s : State) (lane : Nat) (slot : Nat) : Keeps s (State.slotTouched s lane slot) := by
  unfold State.slotTouched
  repeat' first
    | with_reducible exact Keeps.refl _
    | with_reducible assumption
    | (extract_lets +onlyGivenNames x; have hx : Keeps s x := ?_; (on_goal 1 => clear_value x); (on_goal 2 => (unfold x; clear x)))
    | (extract_lets +onlyGivenNames x; have hx : Keeps s x.2 := ?_; (on_goal 1 => clear_value x); (on_goal 2 => (unfold x; clear x)))
    | (extract_lets +onlyGivenNames x; clear_value x)
    | with_reducible (apply Keeps.trans ?_ (Keeps.foldl (fun fs _ => ?_) _ _))
    | split
    | dsimp only
    | (refine Keeps.make ?_ rfl rfl rfl rfl rfl rfl ?_ ?_ ?_ ?_ ?_ ?_ ?_ ?_ ?_ ?_ ?_ ?_ ?_ ?_ ?_ ?_ ?_ ?_ ?_ ?_ ?_ ?_ ?_ ?_ ?_ ?_ ?_ ?_ ?_ ?_)
    | exact fun _ w => w
    | exact Nat.le_refl _
    | exact fun _ w => tabWf_put w
    | exact fun _ w => tabWf_del w
    | exact fun _ w => tabWf_drop w
    | exact fun _ w => tabWf_filter w
    | exact fun w _ => w
    | exact fun w _ => tabWf_put w
    | exact fun w _ => tabWf_del w
    | exact fun w _ => tabWf_drop w
    | exact fun w _ => tabWf_filter w
    | exact fun _ w => tabWf_map (fun _ => rfl) w
    | exact fun w _ => tabWf_map (fun _ => rfl) w
    | (refine fun _ w => tabWf_map ?_ w; intro e; (try dsimp only); split <;> rfl)
    | (refine fun w _ => tabWf_map ?_ w; intro e; (try dsimp only); split <;> rfl)
    | exact Nat.le_add_right _ _

theorem State.slotsTouched_keeps (s : State) (a : Nat) (len : Nat) : Keeps s (State.slotsTouched s a len) := by
  unfold State.slotsTouched
  repeat' first
    | with_reducible exact Keeps.refl _
    | with_reducible assumption
    | (extract_lets +onlyGivenNames x; have hx : Keeps fs x := ?_; (on_goal 1 => clear_value x); (on_goal 2 => (unfold x; clear x)))
    | (extract_lets +onlyGivenNames x; have hx : Keeps fs x.2 := ?_; (on_goal 1 => clear_value x); (on_goal 2 => (unfold x; clear x)))
    | (extract_lets +onlyGivenNames x; have hx : Keeps s x := ?_; (on_goal 1 => clear_value x); (on_goal 2 => (unfold x; clear x)))
    | (extract_lets +onlyGivenNames x; have hx : Keeps s x.2 := ?_; (on_goal 1 => clear_value x); (on_goal 2 => (unfold x; clear x)))
    | (extract_lets +onlyGivenNames x; clear_value x)
    | with_reducible (apply Keeps.trans ?_ (State.slotTouched_keeps _ _ _))
    | with_reducible (apply Keeps.trans ?_ (Keeps.foldl (fun fs _ => ?_) _ _))
    | split
    | dsimp only

theorem State.cellsCleared_keeps (s : State) (a : Nat) (len : Nat) : Keeps s (State.cellsCleared s a len) := by
  unfold State.cellsCleared
  repeat' first
    | with_reducible exact Keeps.refl _
    | with_reducible assumption
    | (extract_lets +onlyGivenNames x; have hx : Keeps s x := ?_; (on_goal 1 => clear_value x); (on_goal 2 => (unfold x; clear x)))
    | (extract_lets +onlyGivenNames x; have hx : Keeps s x.2 := ?_; (on_goal 1 => clear_value x); (on_goal 2 => (unfold x; clear x)))
    | (extract_lets +onlyGivenNames x; clear_value x)
    | with_reducible (apply Keeps.trans ?_ (Keeps.foldl (fun fs _ => ?_) _ _))
    | split
    | dsimp only
    | (refine Keeps.make ?_ rfl rfl rfl rfl rfl rfl ?_ ?_ ?_ ?_ ?_ ?_ ?_ ?_ ?_ ?_ ?_ ?_ ?_ ?_ ?_ ?_ ?_ ?_ ?_ ?_ ?_ ?_ ?_ ?_ ?_ ?_ ?_ ?_ ?_ ?_)
    | exact fun _ w => w
    | exact Nat.le_refl _
    | exact fun _ w => tabWf_put w
    | exact fun _ w => tabWf_del w
    | exact fun _ w => tabWf_drop w
    | exact fun _ w => tabWf_filter w
    | exact fun w _ => w
    | exact fun w _ => tabWf_put w
    | exact fun w _ => tabWf_del w
    | exact fun w _ => tabWf_drop w
    | exact fun w _ => tabWf_filter w
    | exact fun _ w => tabWf_map (fun _ => rfl) w
    | exact fun w _ => tabWf_map (fun _ => rfl) w
    | (refine fun _ w => tabWf_map ?_ w; intro e; (try dsimp only); split <;> rfl)
    | (refine fun w _ => tabWf_map ?_ w; intro e; (try dsimp only); split <;> rfl)
    | exact Nat.le_add_right _ _

theorem State.written_keeps (s : State) (a : Nat) (len : Nat) : Keeps s (State.written s a len) := by
  unfold State.written
  repeat' first
    | with_reducible exact Keeps.refl _
    | with_reducible assumption
    | (extract_lets +onlyGivenNames x; have hx : Keeps s x := ?_; (on_goal 1 => clear_value x); (on_goal 2 => (unfold x; clear x)))
    | (extract_lets +onlyGivenNames x; have hx : Keeps s x.2 := ?_; (on_goal 1 => clear_value x); (on_goal 2 => (unfold x; clear x)))
    | (extract_lets +onlyGivenNames x; clear_value x)
    | with_reducible (apply Keeps.trans ?_ (State.slotsTouched_keeps _ _ _))
    | with_reducible (apply Keeps.trans ?_ (State.cellsCleared_keeps _ _ _))
    | with_reducible (apply Keeps.trans ?_ (Keeps.foldl (fun fs _ => ?_) _ _))
    | split
    | dsimp only

theorem State.setSeq_keeps (s : State) (q : Nat) (c : Seq) : Keeps s (State.setSeq s q c) := by
  unfold State.setSeq
  repeat' first
    | with_reducible exact Keeps.refl _
    | with_reducible assumption
    | (extract_lets +onlyGivenNames x; have hx : Keeps s x := ?_; (on_goal 1 => clear_value x); (on_goal 2 => (unfold x; clear x)))
    | (extract_lets +onlyGivenNames x; have hx : Keeps s x.2 := ?_; (on_goal 1 => clear_value x); (on_goal 2 => (unfold x; clear x)))
    | (extract_lets +onlyGivenNames x; clear_value x)
    | with_reducible (apply Keeps.trans ?_ (Keeps.foldl (fun fs _ => ?_) _ _))
    | split
    | dsimp only
    | (refine Keeps.make ?_ rfl rfl rfl rfl rfl rfl ?_ ?_ ?_ ?_ ?_ ?_ ?_ ?_ ?_ ?_ ?_ ?_ ?_ ?_ ?_ ?_ ?_ ?_ ?_ ?_ ?_ ?_ ?_ ?_ ?_ ?_ ?_ ?_ ?_ ?_)
    | exact fun _ w => w
    | exact Nat.le_refl _
    | exact fun _ w => tabWf_put w
    | exact fun _ w => tabWf_del w
    | exact fun _ w => tabWf_drop w
    | exact fun _ w => tabWf_filter w
    | exact fun w _ => w
    | exact fun w _ => tabWf_put w
    | exact fun w _ => tabWf_del w
    | exact fun w _ => tabWf_drop w
    | exact fun w _ => tabWf_filter w
    | exact fun _ w => tabWf_map (fun _ => rfl) w
    | exact fun w _ => tabWf_map (fun _ => rfl) w
    | (refine fun _ w => tabWf_map ?_ w; intro e; (try dsimp only); split <;> rfl)
    | (refine fun w _ => tabWf_map ?_ w; intro e; (try dsimp only); split <;> rfl)
    | exact Nat.le_add_right _ _

theorem State.setSignal_keeps (s : State) (k : Nat) : Keeps s (State.setSignal s k) := by
  unfold State.setSignal
  repeat' first
    | with_reducible exact Keeps.refl _
    | with_reducible assumption
    | (extract_lets +onlyGivenNames x; have hx : Keeps s x := ?_; (on_goal 1 => clear_value x); (on_goal 2 => (unfold x; clear x)))
    | (extract_lets +onlyGivenNames x; have hx : Keeps s x.2 := ?_; (on_goal 1 => clear_value x); (on_goal 2 => (unfold x; clear x)))
    | (extract_lets +onlyGivenNames x; clear_value x)
    | with_reducible (apply Keeps.trans ?_ (Keeps.foldl (fun fs _ => ?_) _ _))
    | split
    | dsimp only
    | (refine Keeps.make ?_ rfl rfl rfl rfl rfl rfl ?_ ?_ ?_ ?_ ?_ ?_ ?_ ?_ ?_ ?_ ?_ ?_ ?_ ?_ ?_ ?_ ?_ ?_ ?_ ?_ ?_ ?_ ?_ ?_ ?_ ?_ ?_ ?_ ?_ ?_)
    | exact fun _ w => w
    | exact Nat.le_refl _
    | exact fun _ w => tabWf_put w
    | exact fun _ w => tabWf_del w
    | exact fun _ w => tabWf_drop w
    | exact fun _ w => tabWf_filter w
    | exact fun w _ => w
    | exact fun w _ => tabWf_put w
    | exact fun w _ => tabWf_del w
    | exact fun w _ => tabWf_drop w
    | exact fun w _ => tabWf_filter w
    | exact fun _ w => tabWf_map (fun _ => rfl) w
    | exact fun w _ => tabWf_map (fun _ => rfl) w
    | (refine fun _ w => tabWf_map ?_ w; intro e; (try dsimp only); split <;> rfl)
    | (refine fun w _ => tabWf_map ?_ w; intro e; (try dsimp only); split <;> rfl)
    | exact Nat.le_add_right _ _

theorem State.clearSignal_keeps (s : State) (k : Nat) : Keeps s (State.clearSignal s k) := by
  unfold State.clearSignal
  repeat' first
    | with_reducible exact Keeps.refl _
    | with_reducible assumption
    | (extract_lets +onlyGivenNames x; have hx : Keeps s x := ?_; (on_goal 1 => clear_value x); (on_goal 2 => (unfold x; clear x)))
    | (extract_lets +onlyGivenNames x; have hx : Keeps s x.2 := ?_; (on_goal 1 => clear_value x); (on_goal 2 => (unfold x; clear x)))
    | (extract_lets +onlyGivenNames x; clear_value x)
    | with_reducible (apply Keeps.trans ?_ (Keeps.foldl (fun fs _ => ?_) _ _))
    | split
    | dsimp only
    | (refine Keeps.make ?_ rfl rfl rfl rfl rfl rfl ?_ ?_ ?_ ?_ ?_ ?_ ?_ ?_ ?_ ?_ ?_ ?_ ?_ ?_ ?_ ?_ ?_ ?_ ?_ ?_ ?_ ?_ ?_ ?_ ?_ ?_ ?_ ?_ ?_ ?_)
    | exact fun _ w => w
    | exact Nat.le_refl _
    | exact fun _ w => tabWf_put w
    | exact fun _ w => tabWf_del w
    | exact fun _ w => tabWf_drop w
    | exact fun _ w => tabWf_filter w
    | exact fun w _ => w
    | exact fun w _ => tabWf_put w
    | exact fun w _ => tabWf_del w
    | exact fun w _ => tabWf_drop w
    | exact fun w _ => tabWf_filter w
    | exact fun _ w => tabWf_map (fun _ => rfl) w
    | exact fun w _ => tabWf_map (fun _ => rfl) w
    | (refine fun _ w => tabWf_map ?_ w; intro e; (try dsimp only); split <;> rfl)
    | (refine fun w _ => tabWf_map ?_ w; intro e; (try dsimp only); split <;> rfl)
    | exact Nat.le_add_right _ _

theorem State.msixRequest_keeps (s : State) (v : Nat) : Keeps s (State.msixRequest s v) := by
  unfold State.msixRequest
  repeat' first
    | with_reducible exact Keeps.refl _
    | with_reducible assumption
    | (extract_lets +onlyGivenNames x; have hx : Keeps s x := ?_; (on_goal 1 => clear_value x); (on_goal 2 => (unfold x; clear x)))
    | (extract_lets +onlyGivenNames x; have hx : Keeps s x.2 := ?_; (on_goal 1 => clear_value x); (on_goal 2 => (unfold x; clear x)))
    | (extract_lets +onlyGivenNames x; clear_value x)
    | with_reducible (apply Keeps.trans ?_ (State.setBit_keeps _ _ _ _))
    | with_reducible (apply Keeps.trans ?_ (Keeps.foldl (fun fs _ => ?_) _ _))
    | split
    | dsimp only
    | (refine Keeps.make ?_ rfl rfl rfl rfl rfl rfl ?_ ?_ ?_ ?_ ?_ ?_ ?_ ?_ ?_ ?_ ?_ ?_ ?_ ?_ ?_ ?_ ?_ ?_ ?_ ?_ ?_ ?_ ?_ ?_ ?_ ?_ ?_ ?_ ?_ ?_)
    | exact fun _ w => w
    | exact Nat.le_refl _
    | exact fun _ w => tabWf_put w
    | exact fun _ w => tabWf_del w
    | exact fun _ w => tabWf_drop w
    | exact fun _ w => tabWf_filter w
    | exact fun w _ => w
    | exact fun w _ => tabWf_put w
    | exact fun w _ => tabWf_del w
    | exact fun w _ => tabWf_drop w
    | exact fun w _ => tabWf_filter w
    | exact fun _ w => tabWf_map (fun _ => rfl) w
    | exact fun w _ => tabWf_map (fun _ => rfl) w
    | (refine fun _ w => tabWf_map ?_ w; intro e; (try dsimp only); split <;> rfl)
    | (refine fun w _ => tabWf_map ?_ w; intro e; (try dsimp only); split <;> rfl)
    | exact Nat.le_add_right _ _

theorem State.latchLine_keeps (s : State) (q : Nat) (line : Nat) : Keeps s (State.latchLine s q line) := by
  unfold State.latchLine
  repeat' first
    | with_reducible exact Keeps.refl _
    | with_reducible assumption
    | (extract_lets +onlyGivenNames x; have hx : Keeps s x := ?_; (on_goal 1 => clear_value x); (on_goal 2 => (unfold x; clear x)))
    | (extract_lets +onlyGivenNames x; have hx : Keeps s x.2 := ?_; (on_goal 1 => clear_value x); (on_goal 2 => (unfold x; clear x)))
    | (extract_lets +onlyGivenNames x; clear_value x)
    | with_reducible (apply Keeps.trans ?_ (State.setSeq_keeps _ _ _))
    | with_reducible (apply Keeps.trans ?_ (Keeps.foldl (fun fs _ => ?_) _ _))
    | split
    | dsimp only
    | (refine Keeps.make ?_ rfl rfl rfl rfl rfl rfl ?_ ?_ ?_ ?_ ?_ ?_ ?_ ?_ ?_ ?_ ?_ ?_ ?_ ?_ ?_ ?_ ?_ ?_ ?_ ?_ ?_ ?_ ?_ ?_ ?_ ?_ ?_ ?_ ?_ ?_)
    | exact fun _ w => w
    | exact Nat.le_refl _
    | exact fun _ w => tabWf_put w
    | exact fun _ w => tabWf_del w
    | exact fun _ w => tabWf_drop w
    | exact fun _ w => tabWf_filter w
    | exact fun w _ => w
    | exact fun w _ => tabWf_put w
    | exact fun w _ => tabWf_del w
    | exact fun w _ => tabWf_drop w
    | exact fun w _ => tabWf_filter w
    | exact fun _ w => tabWf_map (fun _ => rfl) w
    | exact fun w _ => tabWf_map (fun _ => rfl) w
    | (refine fun _ w => tabWf_map ?_ w; intro e; (try dsimp only); split <;> rfl)
    | (refine fun w _ => tabWf_map ?_ w; intro e; (try dsimp only); split <;> rfl)
    | exact Nat.le_add_right _ _

theorem State.raiseIrq_keeps (s : State) (src : Nat) : Keeps s (State.raiseIrq s src) := by
  unfold State.raiseIrq
  repeat' first
    | with_reducible exact Keeps.refl _
    | with_reducible assumption
    | (extract_lets +onlyGivenNames x; have hx : Keeps fs x := ?_; (on_goal 1 => clear_value x); (on_goal 2 => (unfold x; clear x)))
    | (extract_lets +onlyGivenNames x; have hx : Keeps fs x.2 := ?_; (on_goal 1 => clear_value x); (on_goal 2 => (unfold x; clear x)))
    | (extract_lets +onlyGivenNames x; have hx : Keeps s x := ?_; (on_goal 1 => clear_value x); (on_goal 2 => (unfold x; clear x)))
    | (extract_lets +onlyGivenNames x; have hx : Keeps s x.2 := ?_; (on_goal 1 => clear_value x); (on_goal 2 => (unfold x; clear x)))
    | (extract_lets +onlyGivenNames x; clear_value x)
    | with_reducible (apply Keeps.trans ?_ (State.msixRequest_keeps _ _))
    | with_reducible (apply Keeps.trans ?_ (State.latchLine_keeps _ _ _))
    | with_reducible (apply Keeps.trans ?_ (Keeps.foldl (fun fs _ => ?_) _ _))
    | split
    | dsimp only

theorem State.setStatus_keeps (s : State) (stat : Nat) (ien : Nat) (b : Nat) (src : Nat) : Keeps s (State.setStatus s stat ien b src) := by
  unfold State.setStatus
  repeat' first
    | with_reducible exact Keeps.refl _
    | with_reducible assumption
    | (extract_lets +onlyGivenNames x; have hx : Keeps s x := ?_; (on_goal 1 => clear_value x); (on_goal 2 => (unfold x; clear x)))
    | (extract_lets +onlyGivenNames x; have hx : Keeps s x.2 := ?_; (on_goal 1 => clear_value x); (on_goal 2 => (unfold x; clear x)))
    | (extract_lets +onlyGivenNames x; clear_value x)
    | with_reducible (apply Keeps.trans ?_ (State.setBit_keeps _ _ _ _))
    | with_reducible (apply Keeps.trans ?_ (State.raiseIrq_keeps _ _))
    | with_reducible (apply Keeps.trans ?_ (Keeps.foldl (fun fs _ => ?_) _ _))
    | split
    | dsimp only

/-- A change of the event logic's buffers and queue. -/
theorem Keeps.events {s t : State} (h : Keeps s t) (e : Events) (he : t.evFits = true → ({ t with ev := e } : State).evFits = true) :
    Keeps s { t with ev := e } :=
  Keeps.step h rfl id (fun _ w => w) (fun _ w => w) (fun _ w => w) (fun _ w => w) (fun _ w => w) (fun _ w => w) (fun _ w => w) (fun _ w => w) (fun _ w => w) (fun _ w => w) (fun _ w => w) (fun _ w => w) (fun _ w => w) (fun _ w => w) (fun _ w => w) (fun _ w => w) (fun _ w => w) (fun _ w => w) (fun _ w => w) (fun _ w => w) (fun _ w => w) (fun _ w => w) (fun _ w => w) (fun _ w => w) (fun _ w => w) (fun _ w => w) (fun _ w => w) (fun _ w => w) (fun _ w => w) (fun _ w => w) (fun _ w => w) he
    (fun _ _ w => w) (Nat.le_refl _) (Nat.le_refl _)

/-- A buffer of at most 4 records put in place of another. -/
theorem all_put {p : Nat × List Rec → Bool} (src : Nat) (l : List Rec) (hl : p (src, l) = true) :
    ∀ (t : Tab (List Rec)), t.all p = true → (tabPut t src l).all p = true
  | [], _ => by simp [tabPut, hl]
  | (k, v) :: t, h => by
    simp only [List.all_cons, Bool.and_eq_true] at h
    unfold tabPut
    split
    · simp [hl, h.2]
    · split
      · simp [hl, h.1, h.2]
      · simp [h.1, all_put src l hl t h.2]

theorem State.postRec_keeps (s : State) (r : Rec) : Keeps s (State.postRec s r) := by
  have hb : Keeps s { s with ev := { s.ev with buf := tabPut s.ev.buf r.src (tabGet [] s.ev.buf r.src ++ [r]) } } ∨
      4 ≤ (tabGet [] s.ev.buf r.src).length := by
    by_cases hl : 4 ≤ (tabGet [] s.ev.buf r.src).length
    · exact Or.inr hl
    · refine Or.inl (Keeps.events (Keeps.refl s) _ ?_)
      simp only [State.evFits, Bool.and_eq_true]
      rintro ⟨h1, h2⟩
      exact ⟨all_put _ _ (by simp; omega) _ h1, h2⟩
  have hg : Keeps s { s.bump F.SUP_DROP_count with ev := { s.ev with gap := tabPut s.ev.gap r.src true } } := by
    refine Keeps.events (State.bump_keeps s _) _ ?_
    exact id
  unfold State.postRec
  by_cases hf : s.sourceFused r.src = true
  · simp only [hf, if_true]; exact Keeps.refl s
  by_cases hl : (tabGet [] s.ev.buf r.src).length < 4
  · have h1 := hb.resolve_right (by omega)
    simp only [hf, hl, if_true, Bool.false_eq_true, if_false]
    split
    · exact h1.trans (State.raiseIrq_keeps _ _)
    · exact h1
  · simp only [hf, hl, if_false, Bool.false_eq_true]
    split
    · exact hg.trans (State.raiseIrq_keeps _ _)
    · exact hg

theorem State.post_keeps (s : State) (src : Nat) (kind : Nat) (loc : Sys2Proof.W64) (detail : Sys2Proof.W32) : Keeps s (State.post s src kind loc detail) := by
  unfold State.post
  repeat' first
    | with_reducible exact Keeps.refl _
    | with_reducible assumption
    | (extract_lets +onlyGivenNames x; have hx : Keeps s x := ?_; (on_goal 1 => clear_value x); (on_goal 2 => (unfold x; clear x)))
    | (extract_lets +onlyGivenNames x; have hx : Keeps s x.2 := ?_; (on_goal 1 => clear_value x); (on_goal 2 => (unfold x; clear x)))
    | (extract_lets +onlyGivenNames x; clear_value x)
    | with_reducible (apply Keeps.trans ?_ (State.postRec_keeps _ _))
    | with_reducible (apply Keeps.trans ?_ (Keeps.foldl (fun fs _ => ?_) _ _))
    | split
    | dsimp only

theorem State.postInjected_keeps (s : State) (src : Nat) (kind : Nat) (loc : Sys2Proof.W64) (detail : Sys2Proof.W32) : Keeps s (State.postInjected s src kind loc detail) := by
  unfold State.postInjected
  repeat' first
    | with_reducible exact Keeps.refl _
    | with_reducible assumption
    | (extract_lets +onlyGivenNames x; have hx : Keeps s x := ?_; (on_goal 1 => clear_value x); (on_goal 2 => (unfold x; clear x)))
    | (extract_lets +onlyGivenNames x; have hx : Keeps s x.2 := ?_; (on_goal 1 => clear_value x); (on_goal 2 => (unfold x; clear x)))
    | (extract_lets +onlyGivenNames x; clear_value x)
    | with_reducible (apply Keeps.trans ?_ (State.postRec_keeps _ _))
    | with_reducible (apply Keeps.trans ?_ (Keeps.foldl (fun fs _ => ?_) _ _))
    | split
    | dsimp only

theorem State.postAt_keeps (s : State) (src : Nat) (kind : Nat) (axis : Nat) (stamp : Sys2Proof.W32) (loc : Sys2Proof.W64) (detail : Sys2Proof.W32) : Keeps s (State.postAt s src kind axis stamp loc detail) := by
  unfold State.postAt
  repeat' first
    | with_reducible exact Keeps.refl _
    | with_reducible assumption
    | (extract_lets +onlyGivenNames x; have hx : Keeps s x := ?_; (on_goal 1 => clear_value x); (on_goal 2 => (unfold x; clear x)))
    | (extract_lets +onlyGivenNames x; have hx : Keeps s x.2 := ?_; (on_goal 1 => clear_value x); (on_goal 2 => (unfold x; clear x)))
    | (extract_lets +onlyGivenNames x; clear_value x)
    | with_reducible (apply Keeps.trans ?_ (State.postRec_keeps _ _))
    | with_reducible (apply Keeps.trans ?_ (Keeps.foldl (fun fs _ => ?_) _ _))
    | split
    | dsimp only

end Sys2Proof.Machine
end

