-- ==== Sys2Proof/Laws/KeepsEvents.lean ====
section
/-! SUPPORT. What each operation of Machine/Events keeps, and that every command of it completes. -/

set_option maxRecDepth 4096

namespace Sys2Proof.Machine

theorem State.ringWrite_keeps (s : State) (r : Nat) (words : List Sys2Proof.W32) : Keeps s (State.ringWrite s r words) := by
  unfold State.ringWrite
  repeat' first
    | with_reducible exact Keeps.refl _
    | with_reducible assumption
    | (extract_lets +onlyGivenNames x; have hx : Keeps s x := ?_; (on_goal 1 => clear_value x); (on_goal 2 => (unfold x; clear x)))
    | (extract_lets +onlyGivenNames x; have hx : Keeps s x.2 := ?_; (on_goal 1 => clear_value x); (on_goal 2 => (unfold x; clear x)))
    | (extract_lets +onlyGivenNames x; clear_value x)
    | with_reducible (apply Keeps.trans ?_ (State.set_keeps _ _ _))
    | with_reducible (apply Keeps.trans ?_ (State.cellsCleared_keeps _ _ _))
    | with_reducible (apply Keeps.trans ?_ (State.wrWords_keeps _ _ _))
    | with_reducible (apply Keeps.trans ?_ (State.raiseIrq_keeps _ _))
    | with_reducible (apply Keeps.trans ?_ (State.wr_keeps _ _ _))
    | with_reducible (apply Keeps.trans ?_ (Keeps.foldl (fun fs _ => ?_) _ _))
    | split
    | dsimp only

theorem State.numbered_keeps (s : State) (src : Nat) : Keeps s (State.numbered s src) :=
  Keeps.events (Keeps.refl s) _ id

theorem State.accept_keeps (s : State) (r : Rec) : Keeps s (State.accept s r).2 := by
  unfold State.accept
  dsimp only
  split
  · split
    · exact Keeps.refl s
    · exact (State.ringWrite_keeps s _ _).trans (State.numbered_keeps _ _)
  · split
    · exact Keeps.refl s
    · next hl =>
      refine Keeps.trans (Keeps.events (Keeps.refl s) _ ?_) (State.numbered_keeps _ _)
      simp only [State.evFits, Bool.and_eq_true, decide_eq_true_eq]
      rintro ⟨h1, _⟩
      exact ⟨h1, by simp; omega⟩

theorem State.accept_keeps_eq {s : State} {r : Rec} {val out} (h : State.accept s r = (val, out)) : Keeps s out := by
  have k := State.accept_keeps s r
  rw [h] at k
  exact k

theorem State.lostRecord_keeps (s : State) (why : Accepted) (src : Nat) : Keeps s (State.lostRecord s why src) := by
  have h : Keeps s { s with ev := { s.ev with gap := tabPut s.ev.gap src true } } := Keeps.events (Keeps.refl s) _ id
  unfold State.lostRecord
  dsimp only
  split
  · exact h.trans (State.bump_keeps _ _)
  · exact h.trans (State.bump_keeps _ _)
  · exact Keeps.refl s

theorem State.acceptFrom_keeps (s : State) (src : Nat) : Keeps s (State.acceptFrom s src) := by
  have find : ∀ (t : Tab (List Rec)) (l : List Rec), t.all (fun e => decide (e.2.length ≤ 4)) = true → tabFind t src = some l →
      l.length ≤ 4 := by
    intro t l
    induction t with
    | nil => intro _ h; simp [tabFind] at h
    | cons e t ih =>
      intro h1 h2
      simp only [List.all_cons, Bool.and_eq_true, decide_eq_true_eq] at h1
      unfold tabFind at h2
      split at h2
      · injection h2 with h2; exact h2 ▸ h1.1
      · exact ih h1.2 h2
  unfold State.acceptFrom
  split
  · exact Keeps.refl s
  · next r rest hb =>
    have h : Keeps s { s with ev := { s.ev with buf := tabPut s.ev.buf src rest } } := by
      refine Keeps.events (Keeps.refl s) _ ?_
      simp only [State.evFits, Bool.and_eq_true]
      rintro ⟨h1, h2⟩
      refine ⟨all_put _ _ ?_ _ h1, h2⟩
      cases hf : tabFind s.ev.buf src with
      | none => simp [tabGet, hf] at hb
      | some l =>
        have e : l = r :: rest := by simpa [tabGet, hf] using hb
        have := find _ _ h1 hf
        rw [e] at this
        simp at this ⊢; omega
    dsimp only
    split
    · next he => exact h.trans (State.accept_keeps_eq he)
    · next he => exact h.trans (State.accept_keeps_eq he)
    · next he => exact (h.trans (State.accept_keeps_eq he)).trans (State.lostRecord_keeps _ _ _)

theorem drainHeld_keeps (r : Nat) : ∀ (l : List (Nat × Nat × List W32)) (s : State), Keeps s (drainHeld r l s).2
  | [], s => Keeps.refl s
  | (r', sev, ws) :: rest, s => by
    unfold drainHeld
    split
    · split
      · exact Keeps.refl s
      · exact (State.ringWrite_keeps s r ws).trans (drainHeld_keeps r rest _)
    · exact drainHeld_keeps r rest s

/-- Draining takes records from the queue and adds none. -/
theorem drainHeld_length (r : Nat) : ∀ (l : List (Nat × Nat × List W32)) (s : State), (drainHeld r l s).1.length ≤ l.length
  | [], s => Nat.le_refl _
  | (r', sev, ws) :: rest, s => by
    unfold drainHeld
    split
    · split
      · exact Nat.le_refl _
      · exact Nat.le_succ_of_le (drainHeld_length r rest _)
    · exact Nat.succ_le_succ (drainHeld_length r rest s)

theorem drainHeld_keeps_eq {r : Nat} {a1 : List (Nat × Nat × List Sys2Proof.W32)} {a2 : State} {val out} (h : drainHeld r a1 a2 = (val, out)) : Keeps a2 out := by
  have k := drainHeld_keeps r a1 a2
  rw [h] at k
  exact k

theorem State.drainRing_keeps (s : State) (r : Nat) : Keeps s (State.drainRing s r) := by
  unfold State.drainRing
  split
  · have h := drainHeld_keeps r s.ev.holding s
    have hl := drainHeld_length r s.ev.holding s
    refine ⟨h.queue, h.form, fun w => ?_, h.fuse, h.gen, h.draws⟩
    have w' := h.fits w
    simp only [State.evFits, Bool.and_eq_true, decide_eq_true_eq] at w w' ⊢
    exact ⟨w'.1, Nat.le_trans hl w.2⟩
  · exact Keeps.refl s

theorem State.serveSource_keeps (s : State) (src : Nat) : Keeps s (State.serveSource s src) := by
  unfold State.serveSource
  split
  · exact (Keeps.events (Keeps.refl s) { s.ev with served := some src } id).trans (State.acceptFrom_keeps _ _)
  · exact Keeps.refl s

theorem State.ringCfgWrite_keeps (s : State) (r : Nat) (v : W32) : Keeps s (State.ringCfgWrite s r v) := by
  unfold State.ringCfgWrite
  extract_lets old was t len
  have ht : Keeps s t := State.wr_keeps s _ v
  split
  · exact State.setBit_keeps s _ _ _
  · split
    · split
      · exact State.setBit_keeps s _ _ _
      · exact ((ht.trans (State.set_keeps _ _ _)).trans (State.set_keeps _ _ _)).trans (State.drainRing_keeps _ _)
    · exact ht

theorem State.ringRdWrite_keeps (s : State) (r : Nat) (rd : Sys2Proof.W16) : Keeps s (State.ringRdWrite s r rd) := by
  unfold State.ringRdWrite
  repeat' first
    | with_reducible exact Keeps.refl _
    | with_reducible assumption
    | (extract_lets +onlyGivenNames x; have hx : Keeps s x := ?_; (on_goal 1 => clear_value x); (on_goal 2 => (unfold x; clear x)))
    | (extract_lets +onlyGivenNames x; have hx : Keeps s x.2 := ?_; (on_goal 1 => clear_value x); (on_goal 2 => (unfold x; clear x)))
    | (extract_lets +onlyGivenNames x; clear_value x)
    | with_reducible (apply Keeps.trans ?_ (State.drainRing_keeps _ _))
    | with_reducible (apply Keeps.trans ?_ (State.set_keeps _ _ _))
    | with_reducible (apply Keeps.trans ?_ (Keeps.foldl (fun fs _ => ?_) _ _))
    | split
    | dsimp only

theorem State.sourceDrained_keeps (s : State) (src : Nat) : Keeps s (State.sourceDrained s src) := by
  unfold State.sourceDrained
  repeat' first
    | with_reducible exact Keeps.refl _
    | with_reducible assumption
    | (extract_lets +onlyGivenNames x; have hx : Keeps fs x := ?_; (on_goal 1 => clear_value x); (on_goal 2 => (unfold x; clear x)))
    | (extract_lets +onlyGivenNames x; have hx : Keeps fs x.2 := ?_; (on_goal 1 => clear_value x); (on_goal 2 => (unfold x; clear x)))
    | (extract_lets +onlyGivenNames x; have hx : Keeps s x := ?_; (on_goal 1 => clear_value x); (on_goal 2 => (unfold x; clear x)))
    | (extract_lets +onlyGivenNames x; have hx : Keeps s x.2 := ?_; (on_goal 1 => clear_value x); (on_goal 2 => (unfold x; clear x)))
    | (extract_lets +onlyGivenNames x; clear_value x)
    | with_reducible (apply Keeps.trans ?_ (State.acceptFrom_keeps _ _))
    | with_reducible (apply Keeps.trans ?_ (Keeps.foldl (fun fs _ => ?_) _ _))
    | split
    | dsimp only

theorem State.postFirmware_keeps (s : State) (r : Rec) : Keeps s (State.postFirmware s r).2 := by
  unfold State.postFirmware
  repeat' first
    | with_reducible exact Keeps.refl _
    | with_reducible assumption
    | (extract_lets +onlyGivenNames x; have hx : Keeps s x := ?_; (on_goal 1 => clear_value x); (on_goal 2 => (unfold x; clear x)))
    | (extract_lets +onlyGivenNames x; have hx : Keeps s x.2 := ?_; (on_goal 1 => clear_value x); (on_goal 2 => (unfold x; clear x)))
    | (extract_lets +onlyGivenNames x; clear_value x)
    | with_reducible (apply Keeps.trans ?_ (State.sourceDrained_keeps _ _))
    | with_reducible (apply Keeps.trans ?_ (State.accept_keeps _ _))
    | (refine Keeps.trans ?_ (State.accept_keeps_eq (by assumption)))
    | with_reducible (apply Keeps.trans ?_ (Keeps.foldl (fun fs _ => ?_) _ _))
    | split
    | dsimp only

theorem State.postFirmware_keeps_eq {s : State} {r : Rec} {val out} (h : State.postFirmware s r = (val, out)) : Keeps s out := by
  have k := State.postFirmware_keeps s r
  rw [h] at k
  exact k

theorem execEventAccept_runs (src : Fin 118) (s : State) : ∃ t, execEventAccept src s = .next t ∧ Keeps s t := by
  refine ⟨_, rfl, ?_⟩
  repeat' first
    | with_reducible exact Keeps.refl _
    | with_reducible assumption
    | (extract_lets +onlyGivenNames x; have hx : Keeps s x := ?_; (on_goal 1 => clear_value x); (on_goal 2 => (unfold x; clear x)))
    | (extract_lets +onlyGivenNames x; have hx : Keeps s x.2 := ?_; (on_goal 1 => clear_value x); (on_goal 2 => (unfold x; clear x)))
    | (extract_lets +onlyGivenNames x; clear_value x)
    | with_reducible (apply Keeps.trans ?_ (State.serveSource_keeps _ _))
    | with_reducible (apply Keeps.trans ?_ (Keeps.foldl (fun fs _ => ?_) _ _))
    | split
    | dsimp only

theorem execEventRingEnable_runs (r : Fin 16) (value : Sys2Proof.W32) (s : State) : ∃ t, execEventRingEnable r value s = .next t ∧ Keeps s t := by
  refine ⟨_, rfl, ?_⟩
  repeat' first
    | with_reducible exact Keeps.refl _
    | with_reducible assumption
    | (extract_lets +onlyGivenNames x; have hx : Keeps s x := ?_; (on_goal 1 => clear_value x); (on_goal 2 => (unfold x; clear x)))
    | (extract_lets +onlyGivenNames x; have hx : Keeps s x.2 := ?_; (on_goal 1 => clear_value x); (on_goal 2 => (unfold x; clear x)))
    | (extract_lets +onlyGivenNames x; clear_value x)
    | with_reducible (apply Keeps.trans ?_ (State.ringCfgWrite_keeps _ _ _))
    | with_reducible (apply Keeps.trans ?_ (Keeps.foldl (fun fs _ => ?_) _ _))
    | split
    | dsimp only

theorem execEventRingRdWrite_runs (r : Fin 16) (value : Sys2Proof.W16) (s : State) : ∃ t, execEventRingRdWrite r value s = .next t ∧ Keeps s t := by
  refine ⟨_, rfl, ?_⟩
  repeat' first
    | with_reducible exact Keeps.refl _
    | with_reducible assumption
    | (extract_lets +onlyGivenNames x; have hx : Keeps s x := ?_; (on_goal 1 => clear_value x); (on_goal 2 => (unfold x; clear x)))
    | (extract_lets +onlyGivenNames x; have hx : Keeps s x.2 := ?_; (on_goal 1 => clear_value x); (on_goal 2 => (unfold x; clear x)))
    | (extract_lets +onlyGivenNames x; clear_value x)
    | with_reducible (apply Keeps.trans ?_ (State.ringRdWrite_keeps _ _ _))
    | with_reducible (apply Keeps.trans ?_ (Keeps.foldl (fun fs _ => ?_) _ _))
    | split
    | dsimp only

end Sys2Proof.Machine
end

