-- ==== Sys2Proof/Laws/KeepsMemory.lean ====
section
/-! SUPPORT. What each operation of Machine/Memory keeps, and that every command of it completes. -/

set_option maxRecDepth 4096

namespace Sys2Proof.Machine

theorem State.accessErr_keeps (s : State) (m : Nat) (a : Nat) : Keeps s (State.accessErr s m a) := by
  unfold State.accessErr
  repeat' first
    | with_reducible exact Keeps.refl _
    | with_reducible assumption
    | (extract_lets +onlyGivenNames x; have hx : Keeps s x := ?_; (on_goal 1 => clear_value x); (on_goal 2 => (unfold x; clear x)))
    | (extract_lets +onlyGivenNames x; have hx : Keeps s x.2 := ?_; (on_goal 1 => clear_value x); (on_goal 2 => (unfold x; clear x)))
    | (extract_lets +onlyGivenNames x; clear_value x)
    | with_reducible (apply Keeps.trans ?_ (State.post_keeps _ _ _ _ _))
    | with_reducible (apply Keeps.trans ?_ (Keeps.foldl (fun fs _ => ?_) _ _))
    | split
    | dsimp only

theorem State.regionFault_keeps (s : State) (m : Nat) (a : Nat) (n : Needs) : Keeps s (State.regionFault s m a n) := by
  unfold State.regionFault
  repeat' first
    | with_reducible exact Keeps.refl _
    | with_reducible assumption
    | (extract_lets +onlyGivenNames x; have hx : Keeps s x := ?_; (on_goal 1 => clear_value x); (on_goal 2 => (unfold x; clear x)))
    | (extract_lets +onlyGivenNames x; have hx : Keeps s x.2 := ?_; (on_goal 1 => clear_value x); (on_goal 2 => (unfold x; clear x)))
    | (extract_lets +onlyGivenNames x; clear_value x)
    | with_reducible (apply Keeps.trans ?_ (State.post_keeps _ _ _ _ _))
    | with_reducible (apply Keeps.trans ?_ (Keeps.foldl (fun fs _ => ?_) _ _))
    | split
    | dsimp only

theorem State.memCheck_keeps {s : State} {m : Nat} {a : Nat} {len : Nat} {n : Needs} {out} (h : State.memCheck s m a len n = some out) : Keeps s out := by
  unfold State.memCheck at h
  try dsimp only at h
  repeat' first
    | (cases h; done)
    | (injection h with h; try (simp only [Prod.mk.injEq] at h); try (obtain ⟨_, h⟩ := h); try subst h)
    | (split at h)
  all_goals (try subst h)
  all_goals repeat' first
    | with_reducible exact Keeps.refl _
    | with_reducible assumption
    | (extract_lets +onlyGivenNames x; have hx : Keeps s x := ?_; (on_goal 1 => clear_value x); (on_goal 2 => (unfold x; clear x)))
    | (extract_lets +onlyGivenNames x; have hx : Keeps s x.2 := ?_; (on_goal 1 => clear_value x); (on_goal 2 => (unfold x; clear x)))
    | (extract_lets +onlyGivenNames x; clear_value x)
    | with_reducible (apply Keeps.trans ?_ (State.accessErr_keeps _ _ _))
    | with_reducible (apply Keeps.trans ?_ (State.regionFault_keeps _ _ _ _))
    | with_reducible (apply Keeps.trans ?_ (Keeps.foldl (fun fs _ => ?_) _ _))

theorem State.logError_keeps (s : State) (loc : Sys2Proof.W64) : Keeps s (State.logError s loc) := by
  unfold State.logError
  repeat' first
    | with_reducible exact Keeps.refl _
    | with_reducible assumption
    | (extract_lets +onlyGivenNames x; have hx : Keeps s x := ?_; (on_goal 1 => clear_value x); (on_goal 2 => (unfold x; clear x)))
    | (extract_lets +onlyGivenNames x; have hx : Keeps s x.2 := ?_; (on_goal 1 => clear_value x); (on_goal 2 => (unfold x; clear x)))
    | (extract_lets +onlyGivenNames x; clear_value x)
    | with_reducible (apply Keeps.trans ?_ (State.wr_keeps _ _ _))
    | with_reducible (apply Keeps.trans ?_ (Keeps.foldl (fun fs _ => ?_) _ _))
    | split
    | dsimp only
    | (refine Keeps.make ?_ rfl rfl rfl rfl rfl rfl ?_ ?_ ?_ ?_ ?_ ?_ ?_ ?_ ?_ ?_ ?_ ?_ ?_ ?_ ?_ ?_ ?_ ?_ ?_ ?_ ?_ ?_ ?_ ?_ ?_ ?_ ?_ ?_ ?_ ?_)
    | exact fun _ w => w
    | exact Nat.le_refl _
    | exact fun _ w => tabWf_put w
    | exact fun _ w => tabWf_del w
    | exact fun _ w => tabWf_drop w
    | exact fun _ w => tabWf_filter w
    | exact fun w _ => w
    | exact fun w _ => tabWf_put w
    | exact fun w _ => tabWf_del w
    | exact fun w _ => tabWf_drop w
    | exact fun w _ => tabWf_filter w
    | exact fun _ w => tabWf_map (fun _ => rfl) w
    | exact fun w _ => tabWf_map (fun _ => rfl) w
    | (refine fun _ w => tabWf_map ?_ w; intro e; (try dsimp only); split <;> rfl)
    | (refine fun w _ => tabWf_map ?_ w; intro e; (try dsimp only); split <;> rfl)
    | exact Nat.le_add_right _ _

theorem State.memCE_keeps (s : State) (a : Nat) (loc : Sys2Proof.W64) (extra : Nat) : Keeps s (State.memCE s a loc extra) := by
  unfold State.memCE
  repeat' first
    | with_reducible exact Keeps.refl _
    | with_reducible assumption
    | (extract_lets +onlyGivenNames x; have hx : Keeps s x := ?_; (on_goal 1 => clear_value x); (on_goal 2 => (unfold x; clear x)))
    | (extract_lets +onlyGivenNames x; have hx : Keeps s x.2 := ?_; (on_goal 1 => clear_value x); (on_goal 2 => (unfold x; clear x)))
    | (extract_lets +onlyGivenNames x; clear_value x)
    | with_reducible (apply Keeps.trans ?_ (State.logError_keeps _ _))
    | with_reducible (apply Keeps.trans ?_ (State.bump_keeps _ _))
    | with_reducible (apply Keeps.trans ?_ (State.post_keeps _ _ _ _ _))
    | with_reducible (apply Keeps.trans ?_ (Keeps.foldl (fun fs _ => ?_) _ _))
    | split
    | dsimp only
    | (refine Keeps.make ?_ rfl rfl rfl rfl rfl rfl ?_ ?_ ?_ ?_ ?_ ?_ ?_ ?_ ?_ ?_ ?_ ?_ ?_ ?_ ?_ ?_ ?_ ?_ ?_ ?_ ?_ ?_ ?_ ?_ ?_ ?_ ?_ ?_ ?_ ?_)
    | exact fun _ w => w
    | exact Nat.le_refl _
    | exact fun _ w => tabWf_put w
    | exact fun _ w => tabWf_del w
    | exact fun _ w => tabWf_drop w
    | exact fun _ w => tabWf_filter w
    | exact fun w _ => w
    | exact fun w _ => tabWf_put w
    | exact fun w _ => tabWf_del w
    | exact fun w _ => tabWf_drop w
    | exact fun w _ => tabWf_filter w
    | exact fun _ w => tabWf_map (fun _ => rfl) w
    | exact fun w _ => tabWf_map (fun _ => rfl) w
    | (refine fun _ w => tabWf_map ?_ w; intro e; (try dsimp only); split <;> rfl)
    | (refine fun w _ => tabWf_map ?_ w; intro e; (try dsimp only); split <;> rfl)
    | exact Nat.le_add_right _ _

theorem State.memUE_keeps (s : State) (reader : Nat) (a : Nat) : Keeps s (State.memUE s reader a) := by
  unfold State.memUE
  repeat' first
    | with_reducible exact Keeps.refl _
    | with_reducible assumption
    | (extract_lets +onlyGivenNames x; have hx : Keeps s x := ?_; (on_goal 1 => clear_value x); (on_goal 2 => (unfold x; clear x)))
    | (extract_lets +onlyGivenNames x; have hx : Keeps s x.2 := ?_; (on_goal 1 => clear_value x); (on_goal 2 => (unfold x; clear x)))
    | (extract_lets +onlyGivenNames x; clear_value x)
    | with_reducible (apply Keeps.trans ?_ (State.post_keeps _ _ _ _ _))
    | with_reducible (apply Keeps.trans ?_ (State.logError_keeps _ _))
    | with_reducible (apply Keeps.trans ?_ (State.bump_keeps _ _))
    | with_reducible (apply Keeps.trans ?_ (Keeps.foldl (fun fs _ => ?_) _ _))
    | split
    | dsimp only

theorem State.eccRead_keeps (s : State) (reader : Nat) (a : Nat) : Keeps s (State.eccRead s reader a).2 := by
  unfold State.eccRead
  repeat' first
    | with_reducible exact Keeps.refl _
    | with_reducible assumption
    | (extract_lets +onlyGivenNames x; have hx : Keeps s x := ?_; (on_goal 1 => clear_value x); (on_goal 2 => (unfold x; clear x)))
    | (extract_lets +onlyGivenNames x; have hx : Keeps s x.2 := ?_; (on_goal 1 => clear_value x); (on_goal 2 => (unfold x; clear x)))
    | (extract_lets +onlyGivenNames x; clear_value x)
    | with_reducible (apply Keeps.trans ?_ (State.memCE_keeps _ _ _ _))
    | with_reducible (apply Keeps.trans ?_ (State.memUE_keeps _ _ _))
    | with_reducible (apply Keeps.trans ?_ (State.drawn_keeps _))
    | with_reducible (apply Keeps.trans ?_ (Keeps.foldl (fun fs _ => ?_) _ _))
    | split
    | dsimp only

theorem State.eccRead_keeps_eq {s : State} {reader : Nat} {a : Nat} {val out} (h : State.eccRead s reader a = (val, out)) : Keeps s out := by
  have k := State.eccRead_keeps s reader a
  rw [h] at k
  exact k

theorem eccSpan_keeps (reader : Nat) : ∀ (a stop n : Nat) (s : State), Keeps s (eccSpan reader a stop n s).2
  | _, _, 0, s => Keeps.refl s
  | a, stop, n + 1, s => by
    have h := State.eccRead_keeps s reader a
    unfold eccSpan
    split
    · exact Keeps.refl s
    · split
      · next he => rw [he] at h; exact h
      · next e t _ he =>
        rw [he] at h
        have ih := eccSpan_keeps reader (memWordBase a + (if isSram a then 4 else 8)) stop n t
        dsimp only
        split
        · next hr => rw [hr] at ih; exact h.trans ih
        · exact h.trans ih

theorem eccSpan_keeps_eq {reader : Nat} {a : Nat} {stop : Nat} {a3 : Nat} {a4 : State} {val out} (h : eccSpan reader a stop a3 a4 = (val, out)) : Keeps a4 out := by
  have k := eccSpan_keeps reader a stop a3 a4
  rw [h] at k
  exact k

theorem State.eccRange_keeps (s : State) (reader : Nat) (a : Nat) (len : Nat) : Keeps s (State.eccRange s reader a len).2 := by
  unfold State.eccRange
  repeat' first
    | with_reducible exact Keeps.refl _
    | with_reducible assumption
    | (extract_lets +onlyGivenNames x; have hx : Keeps s x := ?_; (on_goal 1 => clear_value x); (on_goal 2 => (unfold x; clear x)))
    | (extract_lets +onlyGivenNames x; have hx : Keeps s x.2 := ?_; (on_goal 1 => clear_value x); (on_goal 2 => (unfold x; clear x)))
    | (extract_lets +onlyGivenNames x; clear_value x)
    | with_reducible (apply Keeps.trans ?_ (eccSpan_keeps _ _ _ _ _))
    | (refine Keeps.trans ?_ (eccSpan_keeps_eq (by assumption)))
    | with_reducible (apply Keeps.trans ?_ (Keeps.foldl (fun fs _ => ?_) _ _))
    | split
    | dsimp only

theorem State.eccRange_keeps_eq {s : State} {reader : Nat} {a : Nat} {len : Nat} {val out} (h : State.eccRange s reader a len = (val, out)) : Keeps s out := by
  have k := State.eccRange_keeps s reader a len
  rw [h] at k
  exact k

theorem State.dataRead_keeps (s : State) (reader : Nat) (a : Nat) (len : Nat) : Keeps s (State.dataRead s reader a len).2 := by
  unfold State.dataRead
  repeat' first
    | with_reducible exact Keeps.refl _
    | with_reducible assumption
    | (extract_lets +onlyGivenNames x; have hx : Keeps s x := ?_; (on_goal 1 => clear_value x); (on_goal 2 => (unfold x; clear x)))
    | (extract_lets +onlyGivenNames x; have hx : Keeps s x.2 := ?_; (on_goal 1 => clear_value x); (on_goal 2 => (unfold x; clear x)))
    | (extract_lets +onlyGivenNames x; clear_value x)
    | with_reducible (apply Keeps.trans ?_ (State.eccRange_keeps _ _ _ _))
    | (refine Keeps.trans ?_ (State.eccRange_keeps_eq (by assumption)))
    | with_reducible (apply Keeps.trans ?_ (Keeps.foldl (fun fs _ => ?_) _ _))
    | split
    | dsimp only
    | (refine Keeps.make ?_ rfl rfl rfl rfl rfl rfl ?_ ?_ ?_ ?_ ?_ ?_ ?_ ?_ ?_ ?_ ?_ ?_ ?_ ?_ ?_ ?_ ?_ ?_ ?_ ?_ ?_ ?_ ?_ ?_ ?_ ?_ ?_ ?_ ?_ ?_)
    | exact fun _ w => w
    | exact Nat.le_refl _
    | exact fun _ w => tabWf_put w
    | exact fun _ w => tabWf_del w
    | exact fun _ w => tabWf_drop w
    | exact fun _ w => tabWf_filter w
    | exact fun w _ => w
    | exact fun w _ => tabWf_put w
    | exact fun w _ => tabWf_del w
    | exact fun w _ => tabWf_drop w
    | exact fun w _ => tabWf_filter w
    | exact fun _ w => tabWf_map (fun _ => rfl) w
    | exact fun w _ => tabWf_map (fun _ => rfl) w
    | (refine fun _ w => tabWf_map ?_ w; intro e; (try dsimp only); split <;> rfl)
    | (refine fun w _ => tabWf_map ?_ w; intro e; (try dsimp only); split <;> rfl)
    | exact Nat.le_add_right _ _

theorem State.dataRead_keeps_eq {s : State} {reader : Nat} {a : Nat} {len : Nat} {val out} (h : State.dataRead s reader a len = (val, out)) : Keeps s out := by
  have k := State.dataRead_keeps s reader a len
  rw [h] at k
  exact k

theorem State.cellFound_keeps (s : State) (a : Nat) (found : Option Sys2Proof.CellErr) : Keeps s (State.cellFound s a found) := by
  unfold State.cellFound
  repeat' first
    | with_reducible exact Keeps.refl _
    | with_reducible assumption
    | (extract_lets +onlyGivenNames x; have hx : Keeps s x := ?_; (on_goal 1 => clear_value x); (on_goal 2 => (unfold x; clear x)))
    | (extract_lets +onlyGivenNames x; have hx : Keeps s x.2 := ?_; (on_goal 1 => clear_value x); (on_goal 2 => (unfold x; clear x)))
    | (extract_lets +onlyGivenNames x; clear_value x)
    | with_reducible (apply Keeps.trans ?_ (Keeps.foldl (fun fs _ => ?_) _ _))
    | split
    | dsimp only
    | (refine Keeps.make ?_ rfl rfl rfl rfl rfl rfl ?_ ?_ ?_ ?_ ?_ ?_ ?_ ?_ ?_ ?_ ?_ ?_ ?_ ?_ ?_ ?_ ?_ ?_ ?_ ?_ ?_ ?_ ?_ ?_ ?_ ?_ ?_ ?_ ?_ ?_)
    | exact fun _ w => w
    | exact Nat.le_refl _
    | exact fun _ w => tabWf_put w
    | exact fun _ w => tabWf_del w
    | exact fun _ w => tabWf_drop w
    | exact fun _ w => tabWf_filter w
    | exact fun w _ => w
    | exact fun w _ => tabWf_put w
    | exact fun w _ => tabWf_del w
    | exact fun w _ => tabWf_drop w
    | exact fun w _ => tabWf_filter w
    | exact fun _ w => tabWf_map (fun _ => rfl) w
    | exact fun w _ => tabWf_map (fun _ => rfl) w
    | (refine fun _ w => tabWf_map ?_ w; intro e; (try dsimp only); split <;> rfl)
    | (refine fun w _ => tabWf_map ?_ w; intro e; (try dsimp only); split <;> rfl)
    | exact Nat.le_add_right _ _

theorem State.scrambled_keeps (s : State) (a : Nat) : Keeps s (State.scrambled s a) := by
  unfold State.scrambled
  repeat' first
    | with_reducible exact Keeps.refl _
    | with_reducible assumption
    | (extract_lets +onlyGivenNames x; have hx : Keeps s x := ?_; (on_goal 1 => clear_value x); (on_goal 2 => (unfold x; clear x)))
    | (extract_lets +onlyGivenNames x; have hx : Keeps s x.2 := ?_; (on_goal 1 => clear_value x); (on_goal 2 => (unfold x; clear x)))
    | (extract_lets +onlyGivenNames x; clear_value x)
    | with_reducible (apply Keeps.trans ?_ (State.wrBytes_keeps _ _ _))
    | with_reducible (apply Keeps.trans ?_ (Keeps.foldl (fun fs _ => ?_) _ _))
    | split
    | dsimp only
    | (refine Keeps.make ?_ rfl rfl rfl rfl rfl rfl ?_ ?_ ?_ ?_ ?_ ?_ ?_ ?_ ?_ ?_ ?_ ?_ ?_ ?_ ?_ ?_ ?_ ?_ ?_ ?_ ?_ ?_ ?_ ?_ ?_ ?_ ?_ ?_ ?_ ?_)
    | exact fun _ w => w
    | exact Nat.le_refl _
    | exact fun _ w => tabWf_put w
    | exact fun _ w => tabWf_del w
    | exact fun _ w => tabWf_drop w
    | exact fun _ w => tabWf_filter w
    | exact fun w _ => w
    | exact fun w _ => tabWf_put w
    | exact fun w _ => tabWf_del w
    | exact fun w _ => tabWf_drop w
    | exact fun w _ => tabWf_filter w
    | exact fun _ w => tabWf_map (fun _ => rfl) w
    | exact fun w _ => tabWf_map (fun _ => rfl) w
    | (refine fun _ w => tabWf_map ?_ w; intro e; (try dsimp only); split <;> rfl)
    | (refine fun w _ => tabWf_map ?_ w; intro e; (try dsimp only); split <;> rfl)
    | exact Nat.le_add_right _ _

theorem State.mergeOld_keeps (s : State) (e : Ecc) (a : Nat) : Keeps s (State.mergeOld s e a) := by
  unfold State.mergeOld
  repeat' first
    | with_reducible exact Keeps.refl _
    | with_reducible assumption
    | (extract_lets +onlyGivenNames x; have hx : Keeps s x := ?_; (on_goal 1 => clear_value x); (on_goal 2 => (unfold x; clear x)))
    | (extract_lets +onlyGivenNames x; have hx : Keeps s x.2 := ?_; (on_goal 1 => clear_value x); (on_goal 2 => (unfold x; clear x)))
    | (extract_lets +onlyGivenNames x; clear_value x)
    | with_reducible (apply Keeps.trans ?_ (State.scrambled_keeps _ _))
    | with_reducible (apply Keeps.trans ?_ (Keeps.foldl (fun fs _ => ?_) _ _))
    | split
    | dsimp only

theorem State.mergeWrite_both (s : State) (reader : Nat) (a : Nat) (bs : List W8) :
    Keeps s (State.mergeWrite s reader a bs).2 ∧ ∀ t, (State.mergeWrite s reader a bs).1 = some t → Keeps s t := by
  unfold State.mergeWrite
  extract_lets len w hp tp r1 r2
  have h1 : Keeps s r1.2 := by
    unfold r1
    split
    · exact State.eccRead_keeps s reader a
    · exact Keeps.refl s
  have h2 : Keeps s r2.2 := by
    unfold r2
    split
    · exact h1.trans (State.eccRead_keeps _ _ _)
    · exact h1
  split
  · exact ⟨h2, fun t ht => by cases ht⟩
  · refine ⟨h2, fun t ht => ?_⟩
    injection ht with ht
    exact ht ▸ (((h2.trans (State.mergeOld_keeps _ _ _)).trans (State.mergeOld_keeps _ _ _)).trans (State.wrBytes_keeps _ _ _)).trans
      (State.written_keeps _ _ _)

theorem State.mergeWrite_keeps (s : State) (reader : Nat) (a : Nat) (bs : List W8) : Keeps s (State.mergeWrite s reader a bs).2 :=
  (State.mergeWrite_both s reader a bs).1

theorem State.mergeWrite_keeps_some {s : State} {reader : Nat} {a : Nat} {bs : List W8} {t u} (h : State.mergeWrite s reader a bs = (some t, u)) :
    Keeps s t := (State.mergeWrite_both s reader a bs).2 t (by rw [h])

theorem State.mergeWrite_keeps_eq {s : State} {reader : Nat} {a : Nat} {bs : List Sys2Proof.W8} {val out} (h : State.mergeWrite s reader a bs = (val, out)) : Keeps s out := by
  have k := State.mergeWrite_keeps s reader a bs
  rw [h] at k
  exact k

theorem State.writeBack_keeps (s : State) (a : Nat) : Keeps s (State.writeBack s a) := by
  unfold State.writeBack
  repeat' first
    | with_reducible exact Keeps.refl _
    | with_reducible assumption
    | (extract_lets +onlyGivenNames x; have hx : Keeps s x := ?_; (on_goal 1 => clear_value x); (on_goal 2 => (unfold x; clear x)))
    | (extract_lets +onlyGivenNames x; have hx : Keeps s x.2 := ?_; (on_goal 1 => clear_value x); (on_goal 2 => (unfold x; clear x)))
    | (extract_lets +onlyGivenNames x; clear_value x)
    | with_reducible (apply Keeps.trans ?_ (State.cellCleared_keeps _ _))
    | with_reducible (apply Keeps.trans ?_ (State.drawn_keeps _))
    | with_reducible (apply Keeps.trans ?_ (State.scrambled_keeps _ _))
    | with_reducible (apply Keeps.trans ?_ (Keeps.foldl (fun fs _ => ?_) _ _))
    | split
    | dsimp only

theorem State.starve_keeps (s : State) (unit : Nat) (m : Option (Fin 53)) : Keeps s (State.starve s unit m) := by
  unfold State.starve
  repeat' first
    | with_reducible exact Keeps.refl _
    | with_reducible assumption
    | (extract_lets +onlyGivenNames x; have hx : Keeps s x := ?_; (on_goal 1 => clear_value x); (on_goal 2 => (unfold x; clear x)))
    | (extract_lets +onlyGivenNames x; have hx : Keeps s x.2 := ?_; (on_goal 1 => clear_value x); (on_goal 2 => (unfold x; clear x)))
    | (extract_lets +onlyGivenNames x; clear_value x)
    | with_reducible (apply Keeps.trans ?_ (State.post_keeps _ _ _ _ _))
    | with_reducible (apply Keeps.trans ?_ (State.bump_keeps _ _))
    | with_reducible (apply Keeps.trans ?_ (Keeps.foldl (fun fs _ => ?_) _ _))
    | split
    | dsimp only

theorem State.marchGo_keeps (s : State) : Keeps s (State.marchGo s) := by
  unfold State.marchGo
  repeat' first
    | with_reducible exact Keeps.refl _
    | with_reducible assumption
    | (extract_lets +onlyGivenNames x; have hx : Keeps s x := ?_; (on_goal 1 => clear_value x); (on_goal 2 => (unfold x; clear x)))
    | (extract_lets +onlyGivenNames x; have hx : Keeps s x.2 := ?_; (on_goal 1 => clear_value x); (on_goal 2 => (unfold x; clear x)))
    | (extract_lets +onlyGivenNames x; clear_value x)
    | with_reducible (apply Keeps.trans ?_ (State.set_keeps _ _ _))
    | with_reducible (apply Keeps.trans ?_ (Keeps.foldl (fun fs _ => ?_) _ _))
    | split
    | dsimp only
    | (refine Keeps.make ?_ rfl rfl rfl rfl rfl rfl ?_ ?_ ?_ ?_ ?_ ?_ ?_ ?_ ?_ ?_ ?_ ?_ ?_ ?_ ?_ ?_ ?_ ?_ ?_ ?_ ?_ ?_ ?_ ?_ ?_ ?_ ?_ ?_ ?_ ?_)
    | exact fun _ w => w
    | exact Nat.le_refl _
    | exact fun _ w => tabWf_put w
    | exact fun _ w => tabWf_del w
    | exact fun _ w => tabWf_drop w
    | exact fun _ w => tabWf_filter w
    | exact fun w _ => w
    | exact fun w _ => tabWf_put w
    | exact fun w _ => tabWf_del w
    | exact fun w _ => tabWf_drop w
    | exact fun w _ => tabWf_filter w
    | exact fun _ w => tabWf_map (fun _ => rfl) w
    | exact fun w _ => tabWf_map (fun _ => rfl) w
    | (refine fun _ w => tabWf_map ?_ w; intro e; (try dsimp only); split <;> rfl)
    | (refine fun w _ => tabWf_map ?_ w; intro e; (try dsimp only); split <;> rfl)
    | exact Nat.le_add_right _ _

/-- A key outside the cleared targets is found as before. -/
theorem tabFind_foldl_cleared (first t : Nat) : ∀ (l : List Nat) (z : Tab Unit), (∀ k ∈ l, t ≠ first + k) →
    tabFind (l.foldl (fun z k => tabPut z (first + k) ()) z) t = tabFind z t
  | [], _, _ => rfl
  | k :: l, z, h => by
    rw [List.foldl_cons, tabFind_foldl_cleared first t l _ (fun j hj => h j (List.mem_cons_of_mem _ hj)),
      tabFind_put_ne _ (h k List.mem_cons_self)]

/-- The table of cleared targets keeps its form. -/
theorem tabWf_foldl_cleared (first : Nat) : ∀ (l : List Nat) (z : Tab Unit), tabWf z = true →
    tabWf (l.foldl (fun z k => tabPut z (first + k) ()) z) = true
  | [], _, h => h
  | _ :: l, _, h => tabWf_foldl_cleared first l _ (tabWf_put h)

theorem State.marchCleared_keeps (s : State) (m : March) : Keeps s (State.marchCleared s m) := by
  unfold State.marchCleared
  split
  · exact Keeps.refl s
  · refine Keeps.step (Keeps.refl s) rfl ?_ (fun _ w => tabWf_foldl_cleared _ _ _ w) (fun _ w => tabWf_filter w) (fun _ w => w) (fun _ w => w) (fun _ w => w) (fun _ w => w) (fun _ w => w) (fun _ w => w) (fun _ w => w) (fun _ w => w) (fun _ w => w) (fun _ w => w) (fun _ w => w) (fun _ w => w) (fun _ w => w) (fun _ w => w) (fun _ w => w) (fun _ w => w) (fun _ w => w) (fun _ w => w) (fun _ w => w) (fun _ w => w) (fun _ w => w) (fun _ w => w) (fun _ w => w) (fun _ w => w) (fun _ w => w) (fun _ w => w) (fun _ w => w) (fun _ w => w) (fun _ w => w) id (fun _ _ w => w) (Nat.le_refl _) (Nat.le_refl _)
    intro h
    simp only [State.memWf, Bool.and_eq_true, List.all_eq_true] at h ⊢
    refine ⟨tabWf_filter h.1, fun e he => ?_⟩
    obtain ⟨h1, h2⟩ := List.mem_filter.1 he
    have := h.2 e h1
    simp only [State.background] at this ⊢
    rw [tabFind_foldl_cleared]
    · exact this
    · intro k hk hc
      obtain ⟨hr, hf⟩ := List.mem_filter.1 hk
      have hk := List.mem_range.1 hr
      have hcov : m.covers (marchTarget e.1) = true := by simp only [March.covers, Bool.and_eq_true, decide_eq_true_eq]; omega
      rw [hc] at hcov
      simp [hcov, hc, hf] at h2

theorem State.repairRow_keeps (s : State) (t : Nat) : Keeps s (State.repairRow s t) := by
  unfold State.repairRow
  repeat' first
    | with_reducible exact Keeps.refl _
    | with_reducible assumption
    | (extract_lets +onlyGivenNames x; have hx : Keeps s x := ?_; (on_goal 1 => clear_value x); (on_goal 2 => (unfold x; clear x)))
    | (extract_lets +onlyGivenNames x; have hx : Keeps s x.2 := ?_; (on_goal 1 => clear_value x); (on_goal 2 => (unfold x; clear x)))
    | (extract_lets +onlyGivenNames x; clear_value x)
    | with_reducible (apply Keeps.trans ?_ (State.bump_keeps _ _))
    | with_reducible (apply Keeps.trans ?_ (Keeps.foldl (fun fs _ => ?_) _ _))
    | split
    | dsimp only
    | (refine Keeps.make ?_ rfl rfl rfl rfl rfl rfl ?_ ?_ ?_ ?_ ?_ ?_ ?_ ?_ ?_ ?_ ?_ ?_ ?_ ?_ ?_ ?_ ?_ ?_ ?_ ?_ ?_ ?_ ?_ ?_ ?_ ?_ ?_ ?_ ?_ ?_)
    | exact fun _ w => w
    | exact Nat.le_refl _
    | exact fun _ w => tabWf_put w
    | exact fun _ w => tabWf_del w
    | exact fun _ w => tabWf_drop w
    | exact fun _ w => tabWf_filter w
    | exact fun w _ => w
    | exact fun w _ => tabWf_put w
    | exact fun w _ => tabWf_del w
    | exact fun w _ => tabWf_drop w
    | exact fun w _ => tabWf_filter w
    | exact fun _ w => tabWf_map (fun _ => rfl) w
    | exact fun w _ => tabWf_map (fun _ => rfl) w
    | (refine fun _ w => tabWf_map ?_ w; intro e; (try dsimp only); split <;> rfl)
    | (refine fun w _ => tabWf_map ?_ w; intro e; (try dsimp only); split <;> rfl)
    | exact Nat.le_add_right _ _

/-- A write of a table of targets. -/
theorem Keeps.failedTarget {s t : State} (h : Keeps s t) (k : Nat) :
    Keeps s { t with failedTargets := tabPut t.failedTargets k () } := by
  refine Keeps.make h rfl rfl rfl rfl rfl rfl ?_ ?_ ?_ ?_ ?_ ?_ ?_ ?_ ?_ ?_ ?_ ?_ ?_ ?_ ?_ ?_ ?_ ?_ ?_ ?_ ?_ ?_ ?_ ?_ ?_ ?_ ?_ ?_ ?_ ?_
  all_goals first
    | exact fun _ w => w
    | exact Nat.le_refl _
    | exact fun _ w => tabWf_put w

/-- A write of the high word that waits for the failure registers' latching read. -/
theorem Keeps.mfailHi {s t : State} (h : Keeps s t) (w : W32) : Keeps s { t with mfailHi := w } := by
  refine Keeps.make h rfl rfl rfl rfl rfl rfl ?_ ?_ ?_ ?_ ?_ ?_ ?_ ?_ ?_ ?_ ?_ ?_ ?_ ?_ ?_ ?_ ?_ ?_ ?_ ?_ ?_ ?_ ?_ ?_ ?_ ?_ ?_ ?_ ?_ ?_
  all_goals first
    | exact fun _ w => w
    | exact Nat.le_refl _

theorem State.failTarget_keeps (s : State) (mode : Nat) (first : Bool) (t : Nat) : Keeps s (State.failTarget s mode first t) := by
  unfold State.failTarget
  extract_lets src u src2 v
  have hu : Keeps s u := Keeps.failedTarget (State.bump_keeps s F.MEM_MSTAT_unrep) t
  have hv : Keeps s v := by
    show Keeps s (if first then _ else u)
    split
    · exact Keeps.mfailHi (hu.trans (State.wr_keeps u _ _)) _
    · exact hu
  exact (hv.trans (State.set_keeps _ _ _)).trans (State.post_keeps _ _ _ _ _)

theorem State.marchRows_keeps (m : March) (first : Bool) (a2 : List (Fin 832)) (a3 : State) : Keeps a3 (State.marchRows m first a2 a3) := by
  fun_induction State.marchRows m first a2 a3
  all_goals repeat' first
    | with_reducible exact Keeps.refl _
    | with_reducible assumption
    | (refine Keeps.trans ?_ (by assumption : Keeps _ _))
    | (extract_lets +onlyGivenNames x; have hx : Keeps a3 x := ?_; (on_goal 1 => clear_value x); (on_goal 2 => (unfold x; clear x)))
    | (extract_lets +onlyGivenNames x; have hx : Keeps a3 x.2 := ?_; (on_goal 1 => clear_value x); (on_goal 2 => (unfold x; clear x)))
    | (extract_lets +onlyGivenNames x; clear_value x)
    | with_reducible (apply Keeps.trans ?_ (State.repairRow_keeps _ _))
    | with_reducible (apply Keeps.trans ?_ (State.failTarget_keeps _ _ _ _))
    | with_reducible (apply Keeps.trans ?_ (Keeps.foldl (fun fs _ => ?_) _ _))
    | split
    | dsimp only

theorem State.monitorPassed_keeps (s : State) (mon : Nat) : Keeps s (State.monitorPassed s mon) := by
  unfold State.monitorPassed
  repeat' first
    | with_reducible exact Keeps.refl _
    | with_reducible assumption
    | (extract_lets +onlyGivenNames x; have hx : Keeps s x := ?_; (on_goal 1 => clear_value x); (on_goal 2 => (unfold x; clear x)))
    | (extract_lets +onlyGivenNames x; have hx : Keeps s x.2 := ?_; (on_goal 1 => clear_value x); (on_goal 2 => (unfold x; clear x)))
    | (extract_lets +onlyGivenNames x; clear_value x)
    | with_reducible (apply Keeps.trans ?_ (Keeps.foldl (fun fs _ => ?_) _ _))
    | split
    | dsimp only
    | (refine Keeps.make ?_ rfl rfl rfl rfl rfl rfl ?_ ?_ ?_ ?_ ?_ ?_ ?_ ?_ ?_ ?_ ?_ ?_ ?_ ?_ ?_ ?_ ?_ ?_ ?_ ?_ ?_ ?_ ?_ ?_ ?_ ?_ ?_ ?_ ?_ ?_)
    | exact fun _ w => w
    | exact Nat.le_refl _
    | exact fun _ w => tabWf_put w
    | exact fun _ w => tabWf_del w
    | exact fun _ w => tabWf_drop w
    | exact fun _ w => tabWf_filter w
    | exact fun w _ => w
    | exact fun w _ => tabWf_put w
    | exact fun w _ => tabWf_del w
    | exact fun w _ => tabWf_drop w
    | exact fun w _ => tabWf_filter w
    | exact fun _ w => tabWf_map (fun _ => rfl) w
    | exact fun w _ => tabWf_map (fun _ => rfl) w
    | (refine fun _ w => tabWf_map ?_ w; intro e; (try dsimp only); split <;> rfl)
    | (refine fun w _ => tabWf_map ?_ w; intro e; (try dsimp only); split <;> rfl)
    | exact Nat.le_add_right _ _

theorem State.marchComplete_keeps (s : State) (found : List (Fin 832)) : Keeps s (State.marchComplete s found) := by
  unfold State.marchComplete
  repeat' first
    | with_reducible exact Keeps.refl _
    | with_reducible assumption
    | (extract_lets +onlyGivenNames x; have hx : Keeps s x := ?_; (on_goal 1 => clear_value x); (on_goal 2 => (unfold x; clear x)))
    | (extract_lets +onlyGivenNames x; have hx : Keeps s x.2 := ?_; (on_goal 1 => clear_value x); (on_goal 2 => (unfold x; clear x)))
    | (extract_lets +onlyGivenNames x; clear_value x)
    | with_reducible (apply Keeps.trans ?_ (State.marchRows_keeps _ _ _ _))
    | with_reducible (apply Keeps.trans ?_ (State.set_keeps _ _ _))
    | with_reducible (apply Keeps.trans ?_ (State.marchCleared_keeps _ _))
    | with_reducible (apply Keeps.trans ?_ (State.post_keeps _ _ _ _ _))
    | with_reducible (apply Keeps.trans ?_ (State.monitorPassed_keeps _ _))
    | with_reducible (apply Keeps.trans ?_ (Keeps.foldl (fun fs _ => ?_) _ _))
    | split
    | dsimp only
    | (refine Keeps.make ?_ rfl rfl rfl rfl rfl rfl ?_ ?_ ?_ ?_ ?_ ?_ ?_ ?_ ?_ ?_ ?_ ?_ ?_ ?_ ?_ ?_ ?_ ?_ ?_ ?_ ?_ ?_ ?_ ?_ ?_ ?_ ?_ ?_ ?_ ?_)
    | exact fun _ w => w
    | exact Nat.le_refl _
    | exact fun _ w => tabWf_put w
    | exact fun _ w => tabWf_del w
    | exact fun _ w => tabWf_drop w
    | exact fun _ w => tabWf_filter w
    | exact fun w _ => w
    | exact fun w _ => tabWf_put w
    | exact fun w _ => tabWf_del w
    | exact fun w _ => tabWf_drop w
    | exact fun w _ => tabWf_filter w
    | exact fun _ w => tabWf_map (fun _ => rfl) w
    | exact fun w _ => tabWf_map (fun _ => rfl) w
    | (refine fun _ w => tabWf_map ?_ w; intro e; (try dsimp only); split <;> rfl)
    | (refine fun w _ => tabWf_map ?_ w; intro e; (try dsimp only); split <;> rfl)
    | exact Nat.le_add_right _ _

theorem execCorrectionWriteback_runs (word : BitVec 40) (s : State) : ∃ t, execCorrectionWriteback word s = .next t ∧ Keeps s t := by
  refine ⟨_, rfl, ?_⟩
  repeat' first
    | with_reducible exact Keeps.refl _
    | with_reducible assumption
    | (extract_lets +onlyGivenNames x; have hx : Keeps s x := ?_; (on_goal 1 => clear_value x); (on_goal 2 => (unfold x; clear x)))
    | (extract_lets +onlyGivenNames x; have hx : Keeps s x.2 := ?_; (on_goal 1 => clear_value x); (on_goal 2 => (unfold x; clear x)))
    | (extract_lets +onlyGivenNames x; clear_value x)
    | with_reducible (apply Keeps.trans ?_ (State.writeBack_keeps _ _))
    | with_reducible (apply Keeps.trans ?_ (Keeps.foldl (fun fs _ => ?_) _ _))
    | split
    | dsimp only

theorem execCeWindowExpire_runs (unit : Fin 772) (s : State) : ∃ t, execCeWindowExpire unit s = .next t ∧ Keeps s t := by
  refine ⟨_, rfl, ?_⟩
  repeat' first
    | with_reducible exact Keeps.refl _
    | with_reducible assumption
    | (extract_lets +onlyGivenNames x; have hx : Keeps s x := ?_; (on_goal 1 => clear_value x); (on_goal 2 => (unfold x; clear x)))
    | (extract_lets +onlyGivenNames x; have hx : Keeps s x.2 := ?_; (on_goal 1 => clear_value x); (on_goal 2 => (unfold x; clear x)))
    | (extract_lets +onlyGivenNames x; clear_value x)
    | with_reducible (apply Keeps.trans ?_ (Keeps.foldl (fun fs _ => ?_) _ _))
    | split
    | dsimp only
    | (refine Keeps.make ?_ rfl rfl rfl rfl rfl rfl ?_ ?_ ?_ ?_ ?_ ?_ ?_ ?_ ?_ ?_ ?_ ?_ ?_ ?_ ?_ ?_ ?_ ?_ ?_ ?_ ?_ ?_ ?_ ?_ ?_ ?_ ?_ ?_ ?_ ?_)
    | exact fun _ w => w
    | exact Nat.le_refl _
    | exact fun _ w => tabWf_put w
    | exact fun _ w => tabWf_del w
    | exact fun _ w => tabWf_drop w
    | exact fun _ w => tabWf_filter w
    | exact fun w _ => w
    | exact fun w _ => tabWf_put w
    | exact fun w _ => tabWf_del w
    | exact fun w _ => tabWf_drop w
    | exact fun w _ => tabWf_filter w
    | exact fun _ w => tabWf_map (fun _ => rfl) w
    | exact fun w _ => tabWf_map (fun _ => rfl) w
    | (refine fun _ w => tabWf_map ?_ w; intro e; (try dsimp only); split <;> rfl)
    | (refine fun w _ => tabWf_map ?_ w; intro e; (try dsimp only); split <;> rfl)
    | exact Nat.le_add_right _ _

theorem execScrubRead_runs (word : BitVec 40) (found : Option Sys2Proof.CellErr) (s : State) : ∃ t, execScrubRead word found s = .next t ∧ Keeps s t := by
  refine ⟨_, rfl, ?_⟩
  repeat' first
    | with_reducible exact Keeps.refl _
    | with_reducible assumption
    | (extract_lets +onlyGivenNames x; have hx : Keeps s x := ?_; (on_goal 1 => clear_value x); (on_goal 2 => (unfold x; clear x)))
    | (extract_lets +onlyGivenNames x; have hx : Keeps s x.2 := ?_; (on_goal 1 => clear_value x); (on_goal 2 => (unfold x; clear x)))
    | (extract_lets +onlyGivenNames x; clear_value x)
    | with_reducible (apply Keeps.trans ?_ (State.eccRead_keeps _ _ _))
    | (refine Keeps.trans ?_ (State.eccRead_keeps_eq (by assumption)))
    | with_reducible (apply Keeps.trans ?_ (State.cellFound_keeps _ _ _))
    | with_reducible (apply Keeps.trans ?_ (Keeps.foldl (fun fs _ => ?_) _ _))
    | split
    | dsimp only

theorem execScrubPassEnd_runs (dram : Bool) (finished : Bool) (s : State) : ∃ t, execScrubPassEnd dram finished s = .next t ∧ Keeps s t := by
  refine ⟨_, rfl, ?_⟩
  repeat' first
    | with_reducible exact Keeps.refl _
    | with_reducible assumption
    | (extract_lets +onlyGivenNames x; have hx : Keeps s x := ?_; (on_goal 1 => clear_value x); (on_goal 2 => (unfold x; clear x)))
    | (extract_lets +onlyGivenNames x; have hx : Keeps s x.2 := ?_; (on_goal 1 => clear_value x); (on_goal 2 => (unfold x; clear x)))
    | (extract_lets +onlyGivenNames x; clear_value x)
    | with_reducible (apply Keeps.trans ?_ (State.post_keeps _ _ _ _ _))
    | with_reducible (apply Keeps.trans ?_ (State.set_keeps _ _ _))
    | with_reducible (apply Keeps.trans ?_ (Keeps.foldl (fun fs _ => ?_) _ _))
    | split
    | dsimp only
    | (refine Keeps.make ?_ rfl rfl rfl rfl rfl rfl ?_ ?_ ?_ ?_ ?_ ?_ ?_ ?_ ?_ ?_ ?_ ?_ ?_ ?_ ?_ ?_ ?_ ?_ ?_ ?_ ?_ ?_ ?_ ?_ ?_ ?_ ?_ ?_ ?_ ?_)
    | exact fun _ w => w
    | exact Nat.le_refl _
    | exact fun _ w => tabWf_put w
    | exact fun _ w => tabWf_del w
    | exact fun _ w => tabWf_drop w
    | exact fun _ w => tabWf_filter w
    | exact fun w _ => w
    | exact fun w _ => tabWf_put w
    | exact fun w _ => tabWf_del w
    | exact fun w _ => tabWf_drop w
    | exact fun w _ => tabWf_filter w
    | exact fun _ w => tabWf_map (fun _ => rfl) w
    | exact fun w _ => tabWf_map (fun _ => rfl) w
    | (refine fun _ w => tabWf_map ?_ w; intro e; (try dsimp only); split <;> rfl)
    | (refine fun w _ => tabWf_map ?_ w; intro e; (try dsimp only); split <;> rfl)
    | exact Nat.le_add_right _ _

theorem execStarve_runs (unit : Fin 768) (m : Option (Fin 53)) (s : State) : ∃ t, execStarve unit m s = .next t ∧ Keeps s t := by
  refine ⟨_, rfl, ?_⟩
  repeat' first
    | with_reducible exact Keeps.refl _
    | with_reducible assumption
    | (extract_lets +onlyGivenNames x; have hx : Keeps s x := ?_; (on_goal 1 => clear_value x); (on_goal 2 => (unfold x; clear x)))
    | (extract_lets +onlyGivenNames x; have hx : Keeps s x.2 := ?_; (on_goal 1 => clear_value x); (on_goal 2 => (unfold x; clear x)))
    | (extract_lets +onlyGivenNames x; clear_value x)
    | with_reducible (apply Keeps.trans ?_ (State.starve_keeps _ _ _))
    | with_reducible (apply Keeps.trans ?_ (Keeps.foldl (fun fs _ => ?_) _ _))
    | split
    | dsimp only

theorem execMarchGo_runs (s : State) : ∃ t, execMarchGo s = .next t ∧ Keeps s t := by
  refine ⟨_, rfl, ?_⟩
  repeat' first
    | with_reducible exact Keeps.refl _
    | with_reducible assumption
    | (extract_lets +onlyGivenNames x; have hx : Keeps s x := ?_; (on_goal 1 => clear_value x); (on_goal 2 => (unfold x; clear x)))
    | (extract_lets +onlyGivenNames x; have hx : Keeps s x.2 := ?_; (on_goal 1 => clear_value x); (on_goal 2 => (unfold x; clear x)))
    | (extract_lets +onlyGivenNames x; clear_value x)
    | with_reducible (apply Keeps.trans ?_ (State.marchGo_keeps _))
    | with_reducible (apply Keeps.trans ?_ (Keeps.foldl (fun fs _ => ?_) _ _))
    | split
    | dsimp only

theorem execMarchComplete_runs (rows : List (Fin 832)) (s : State) : ∃ t, execMarchComplete rows s = .next t ∧ Keeps s t := by
  refine ⟨_, rfl, ?_⟩
  repeat' first
    | with_reducible exact Keeps.refl _
    | with_reducible assumption
    | (extract_lets +onlyGivenNames x; have hx : Keeps s x := ?_; (on_goal 1 => clear_value x); (on_goal 2 => (unfold x; clear x)))
    | (extract_lets +onlyGivenNames x; have hx : Keeps s x.2 := ?_; (on_goal 1 => clear_value x); (on_goal 2 => (unfold x; clear x)))
    | (extract_lets +onlyGivenNames x; clear_value x)
    | with_reducible (apply Keeps.trans ?_ (State.marchComplete_keeps _ _))
    | with_reducible (apply Keeps.trans ?_ (Keeps.foldl (fun fs _ => ?_) _ _))
    | split
    | dsimp only

end Sys2Proof.Machine
end

