-- ==== Sys2Proof/Laws/KeepsShutters.lean ====
section
/-! SUPPORT. What each operation of Machine/Shutters keeps, and that every command of it completes. -/

set_option maxRecDepth 4096

namespace Sys2Proof.Machine

theorem State.setLatch_keeps (s : State) (h : Sh) (v : Nat) : Keeps s (State.setLatch s h v) := by
  unfold State.setLatch
  repeat' first
    | with_reducible exact Keeps.refl _
    | with_reducible assumption
    | (extract_lets +onlyGivenNames x; have hx : Keeps s x := ?_; (on_goal 1 => clear_value x); (on_goal 2 => (unfold x; clear x)))
    | (extract_lets +onlyGivenNames x; have hx : Keeps s x.2 := ?_; (on_goal 1 => clear_value x); (on_goal 2 => (unfold x; clear x)))
    | (extract_lets +onlyGivenNames x; clear_value x)
    | with_reducible (apply Keeps.trans ?_ (State.set_keeps _ _ _))
    | with_reducible (apply Keeps.trans ?_ (Keeps.foldl (fun fs _ => ?_) _ _))
    | split
    | dsimp only

theorem State.shutPost_keeps (s : State) (h : Sh) (kind : Nat) (low : Nat) : Keeps s (State.shutPost s h kind low) := by
  unfold State.shutPost
  repeat' first
    | with_reducible exact Keeps.refl _
    | with_reducible assumption
    | (extract_lets +onlyGivenNames x; have hx : Keeps s x := ?_; (on_goal 1 => clear_value x); (on_goal 2 => (unfold x; clear x)))
    | (extract_lets +onlyGivenNames x; have hx : Keeps s x.2 := ?_; (on_goal 1 => clear_value x); (on_goal 2 => (unfold x; clear x)))
    | (extract_lets +onlyGivenNames x; clear_value x)
    | with_reducible (apply Keeps.trans ?_ (State.post_keeps _ _ _ _ _))
    | with_reducible (apply Keeps.trans ?_ (State.raiseIrq_keeps _ _))
    | with_reducible (apply Keeps.trans ?_ (Keeps.foldl (fun fs _ => ?_) _ _))
    | split
    | dsimp only

theorem State.latchCause_keeps (s : State) (h : Sh) (bit : Nat) : Keeps s (State.latchCause s h bit) := by
  unfold State.latchCause
  repeat' first
    | with_reducible exact Keeps.refl _
    | with_reducible assumption
    | (extract_lets +onlyGivenNames x; have hx : Keeps s x := ?_; (on_goal 1 => clear_value x); (on_goal 2 => (unfold x; clear x)))
    | (extract_lets +onlyGivenNames x; have hx : Keeps s x.2 := ?_; (on_goal 1 => clear_value x); (on_goal 2 => (unfold x; clear x)))
    | (extract_lets +onlyGivenNames x; clear_value x)
    | with_reducible (apply Keeps.trans ?_ (State.shutPost_keeps _ _ _ _))
    | with_reducible (apply Keeps.trans ?_ (State.setLatch_keeps _ _ _))
    | with_reducible (apply Keeps.trans ?_ (Keeps.foldl (fun fs _ => ?_) _ _))
    | split
    | dsimp only

theorem State.setCond_keeps (s : State) (h : Sh) (bit : Nat) (b : Bool) : Keeps s (State.setCond s h bit b) := by
  unfold State.setCond
  repeat' first
    | with_reducible exact Keeps.refl _
    | with_reducible assumption
    | (extract_lets +onlyGivenNames x; have hx : Keeps s x := ?_; (on_goal 1 => clear_value x); (on_goal 2 => (unfold x; clear x)))
    | (extract_lets +onlyGivenNames x; have hx : Keeps s x.2 := ?_; (on_goal 1 => clear_value x); (on_goal 2 => (unfold x; clear x)))
    | (extract_lets +onlyGivenNames x; clear_value x)
    | with_reducible (apply Keeps.trans ?_ (State.set_keeps _ _ _))
    | with_reducible (apply Keeps.trans ?_ (State.latchCause_keeps _ _ _))
    | with_reducible (apply Keeps.trans ?_ (Keeps.foldl (fun fs _ => ?_) _ _))
    | split
    | dsimp only

theorem State.shutRefused_keeps (s : State) (h : Sh) (code : Nat) (ack : Nat) : Keeps s (State.shutRefused s h code ack) := by
  unfold State.shutRefused
  repeat' first
    | with_reducible exact Keeps.refl _
    | with_reducible assumption
    | (extract_lets +onlyGivenNames x; have hx : Keeps s x := ?_; (on_goal 1 => clear_value x); (on_goal 2 => (unfold x; clear x)))
    | (extract_lets +onlyGivenNames x; have hx : Keeps s x.2 := ?_; (on_goal 1 => clear_value x); (on_goal 2 => (unfold x; clear x)))
    | (extract_lets +onlyGivenNames x; clear_value x)
    | with_reducible (apply Keeps.trans ?_ (State.shutPost_keeps _ _ _ _))
    | with_reducible (apply Keeps.trans ?_ (State.set_keeps _ _ _))
    | with_reducible (apply Keeps.trans ?_ (State.post_keeps _ _ _ _ _))
    | with_reducible (apply Keeps.trans ?_ (Keeps.foldl (fun fs _ => ?_) _ _))
    | split
    | dsimp only

theorem State.shutOpened_keeps (s : State) (h : Sh) (ack : Nat) : Keeps s (State.shutOpened s h ack) := by
  unfold State.shutOpened
  repeat' first
    | with_reducible exact Keeps.refl _
    | with_reducible assumption
    | (extract_lets +onlyGivenNames x; have hx : Keeps s x := ?_; (on_goal 1 => clear_value x); (on_goal 2 => (unfold x; clear x)))
    | (extract_lets +onlyGivenNames x; have hx : Keeps s x.2 := ?_; (on_goal 1 => clear_value x); (on_goal 2 => (unfold x; clear x)))
    | (extract_lets +onlyGivenNames x; clear_value x)
    | with_reducible (apply Keeps.trans ?_ (State.shutPost_keeps _ _ _ _))
    | with_reducible (apply Keeps.trans ?_ (State.setLatch_keeps _ _ _))
    | with_reducible (apply Keeps.trans ?_ (Keeps.foldl (fun fs _ => ?_) _ _))
    | split
    | dsimp only

theorem State.shutOne_keeps (s : State) (h : Sh) (close : Bool) (opn : Bool) (ack : Nat) : Keeps s (State.shutOne s h close opn ack) := by
  unfold State.shutOne
  repeat' first
    | with_reducible exact Keeps.refl _
    | with_reducible assumption
    | (extract_lets +onlyGivenNames x; have hx : Keeps s x := ?_; (on_goal 1 => clear_value x); (on_goal 2 => (unfold x; clear x)))
    | (extract_lets +onlyGivenNames x; have hx : Keeps s x.2 := ?_; (on_goal 1 => clear_value x); (on_goal 2 => (unfold x; clear x)))
    | (extract_lets +onlyGivenNames x; clear_value x)
    | with_reducible (apply Keeps.trans ?_ (State.shutRefused_keeps _ _ _ _))
    | with_reducible (apply Keeps.trans ?_ (State.shutOpened_keeps _ _ _))
    | with_reducible (apply Keeps.trans ?_ (State.latchCause_keeps _ _ _))
    | with_reducible (apply Keeps.trans ?_ (Keeps.foldl (fun fs _ => ?_) _ _))
    | split
    | dsimp only

theorem State.shutOpenAll_keeps (s : State) (ack : Nat) : Keeps s (State.shutOpenAll s ack) := by
  unfold State.shutOpenAll
  repeat' first
    | with_reducible exact Keeps.refl _
    | with_reducible assumption
    | (extract_lets +onlyGivenNames x; have hx : Keeps fs x := ?_; (on_goal 1 => clear_value x); (on_goal 2 => (unfold x; clear x)))
    | (extract_lets +onlyGivenNames x; have hx : Keeps fs x.2 := ?_; (on_goal 1 => clear_value x); (on_goal 2 => (unfold x; clear x)))
    | (extract_lets +onlyGivenNames x; have hx : Keeps s x := ?_; (on_goal 1 => clear_value x); (on_goal 2 => (unfold x; clear x)))
    | (extract_lets +onlyGivenNames x; have hx : Keeps s x.2 := ?_; (on_goal 1 => clear_value x); (on_goal 2 => (unfold x; clear x)))
    | (extract_lets +onlyGivenNames x; clear_value x)
    | with_reducible (apply Keeps.trans ?_ (State.shutOpened_keeps _ _ _))
    | with_reducible (apply Keeps.trans ?_ (State.shutRefused_keeps _ _ _ _))
    | with_reducible (apply Keeps.trans ?_ (Keeps.foldl (fun fs _ => ?_) _ _))
    | split
    | dsimp only

theorem State.shutTileCmd_keeps (s : State) (v : Sys2Proof.W32) : Keeps s (State.shutTileCmd s v) := by
  unfold State.shutTileCmd
  repeat' first
    | with_reducible exact Keeps.refl _
    | with_reducible assumption
    | (extract_lets +onlyGivenNames x; have hx : Keeps fs x := ?_; (on_goal 1 => clear_value x); (on_goal 2 => (unfold x; clear x)))
    | (extract_lets +onlyGivenNames x; have hx : Keeps fs x.2 := ?_; (on_goal 1 => clear_value x); (on_goal 2 => (unfold x; clear x)))
    | (extract_lets +onlyGivenNames x; have hx : Keeps s x := ?_; (on_goal 1 => clear_value x); (on_goal 2 => (unfold x; clear x)))
    | (extract_lets +onlyGivenNames x; have hx : Keeps s x.2 := ?_; (on_goal 1 => clear_value x); (on_goal 2 => (unfold x; clear x)))
    | (extract_lets +onlyGivenNames x; clear_value x)
    | with_reducible (apply Keeps.trans ?_ (State.shutRefused_keeps _ _ _ _))
    | with_reducible (apply Keeps.trans ?_ (State.shutOpenAll_keeps _ _))
    | with_reducible (apply Keeps.trans ?_ (State.latchCause_keeps _ _ _))
    | with_reducible (apply Keeps.trans ?_ (State.shutOne_keeps _ _ _ _ _))
    | with_reducible (apply Keeps.trans ?_ (Keeps.foldl (fun fs _ => ?_) _ _))
    | split
    | dsimp only

theorem State.shutCmd_keeps (s : State) (sh : Sys2Proof.Shutter) (v : Sys2Proof.W32) : Keeps s (State.shutCmd s sh v) := by
  unfold State.shutCmd
  repeat' first
    | with_reducible exact Keeps.refl _
    | with_reducible assumption
    | (extract_lets +onlyGivenNames x; have hx : Keeps s x := ?_; (on_goal 1 => clear_value x); (on_goal 2 => (unfold x; clear x)))
    | (extract_lets +onlyGivenNames x; have hx : Keeps s x.2 := ?_; (on_goal 1 => clear_value x); (on_goal 2 => (unfold x; clear x)))
    | (extract_lets +onlyGivenNames x; clear_value x)
    | with_reducible (apply Keeps.trans ?_ (State.shutOne_keeps _ _ _ _ _))
    | with_reducible (apply Keeps.trans ?_ (State.shutTileCmd_keeps _ _))
    | with_reducible (apply Keeps.trans ?_ (Keeps.foldl (fun fs _ => ?_) _ _))
    | split
    | dsimp only

theorem State.setFaultLatch_keeps (s : State) (v : Nat) : Keeps s (State.setFaultLatch s v) := by
  unfold State.setFaultLatch
  repeat' first
    | with_reducible exact Keeps.refl _
    | with_reducible assumption
    | (extract_lets +onlyGivenNames x; have hx : Keeps s x := ?_; (on_goal 1 => clear_value x); (on_goal 2 => (unfold x; clear x)))
    | (extract_lets +onlyGivenNames x; have hx : Keeps s x.2 := ?_; (on_goal 1 => clear_value x); (on_goal 2 => (unfold x; clear x)))
    | (extract_lets +onlyGivenNames x; clear_value x)
    | with_reducible (apply Keeps.trans ?_ (State.set_keeps _ _ _))
    | with_reducible (apply Keeps.trans ?_ (Keeps.foldl (fun fs _ => ?_) _ _))
    | split
    | dsimp only

theorem State.setGcond_keeps (s : State) (i : Nat) (b : Bool) : Keeps s (State.setGcond s i b) := by
  unfold State.setGcond
  repeat' first
    | with_reducible exact Keeps.refl _
    | with_reducible assumption
    | (extract_lets +onlyGivenNames x; have hx : Keeps s x := ?_; (on_goal 1 => clear_value x); (on_goal 2 => (unfold x; clear x)))
    | (extract_lets +onlyGivenNames x; have hx : Keeps s x.2 := ?_; (on_goal 1 => clear_value x); (on_goal 2 => (unfold x; clear x)))
    | (extract_lets +onlyGivenNames x; clear_value x)
    | with_reducible (apply Keeps.trans ?_ (State.setBit_keeps _ _ _ _))
    | with_reducible (apply Keeps.trans ?_ (State.setCond_keeps _ _ _ _))
    | with_reducible (apply Keeps.trans ?_ (State.setFaultLatch_keeps _ _))
    | with_reducible (apply Keeps.trans ?_ (Keeps.foldl (fun fs _ => ?_) _ _))
    | split
    | dsimp only

theorem State.gateApply_keeps (s : State) (i : Nat) : Keeps s (State.gateApply s i) := by
  unfold State.gateApply
  repeat' first
    | with_reducible exact Keeps.refl _
    | with_reducible assumption
    | (extract_lets +onlyGivenNames x; have hx : Keeps fs x := ?_; (on_goal 1 => clear_value x); (on_goal 2 => (unfold x; clear x)))
    | (extract_lets +onlyGivenNames x; have hx : Keeps fs x.2 := ?_; (on_goal 1 => clear_value x); (on_goal 2 => (unfold x; clear x)))
    | (extract_lets +onlyGivenNames x; have hx : Keeps s x := ?_; (on_goal 1 => clear_value x); (on_goal 2 => (unfold x; clear x)))
    | (extract_lets +onlyGivenNames x; have hx : Keeps s x.2 := ?_; (on_goal 1 => clear_value x); (on_goal 2 => (unfold x; clear x)))
    | (extract_lets +onlyGivenNames x; clear_value x)
    | with_reducible (apply Keeps.trans ?_ (State.setBit_keeps _ _ _ _))
    | with_reducible (apply Keeps.trans ?_ (State.setCond_keeps _ _ _ _))
    | with_reducible (apply Keeps.trans ?_ (Keeps.foldl (fun fs _ => ?_) _ _))
    | split
    | dsimp only

theorem State.gateWrite_keeps (s : State) (i : Nat) (v : Sys2Proof.W32) : Keeps s (State.gateWrite s i v) := by
  unfold State.gateWrite
  repeat' first
    | with_reducible exact Keeps.refl _
    | with_reducible assumption
    | (extract_lets +onlyGivenNames x; have hx : Keeps s x := ?_; (on_goal 1 => clear_value x); (on_goal 2 => (unfold x; clear x)))
    | (extract_lets +onlyGivenNames x; have hx : Keeps s x.2 := ?_; (on_goal 1 => clear_value x); (on_goal 2 => (unfold x; clear x)))
    | (extract_lets +onlyGivenNames x; clear_value x)
    | with_reducible (apply Keeps.trans ?_ (State.wr_keeps _ _ _))
    | with_reducible (apply Keeps.trans ?_ (State.gateApply_keeps _ _))
    | with_reducible (apply Keeps.trans ?_ (State.set_keeps _ _ _))
    | with_reducible (apply Keeps.trans ?_ (Keeps.foldl (fun fs _ => ?_) _ _))
    | split
    | dsimp only

theorem State.gateStatWrite_keeps (s : State) (v : Sys2Proof.W32) : Keeps s (State.gateStatWrite s v) := by
  unfold State.gateStatWrite
  repeat' first
    | with_reducible exact Keeps.refl _
    | with_reducible assumption
    | (extract_lets +onlyGivenNames x; have hx : Keeps fs x := ?_; (on_goal 1 => clear_value x); (on_goal 2 => (unfold x; clear x)))
    | (extract_lets +onlyGivenNames x; have hx : Keeps fs x.2 := ?_; (on_goal 1 => clear_value x); (on_goal 2 => (unfold x; clear x)))
    | (extract_lets +onlyGivenNames x; have hx : Keeps s x := ?_; (on_goal 1 => clear_value x); (on_goal 2 => (unfold x; clear x)))
    | (extract_lets +onlyGivenNames x; have hx : Keeps s x.2 := ?_; (on_goal 1 => clear_value x); (on_goal 2 => (unfold x; clear x)))
    | (extract_lets +onlyGivenNames x; clear_value x)
    | with_reducible (apply Keeps.trans ?_ (State.setBit_keeps _ _ _ _))
    | with_reducible (apply Keeps.trans ?_ (State.plainWrite_keeps _ _ _))
    | with_reducible (apply Keeps.trans ?_ (Keeps.foldl (fun fs _ => ?_) _ _))
    | split
    | dsimp only

theorem execShutCloseCmd_runs (sh : Sys2Proof.Shutter) (value : Sys2Proof.W32) (s : State) : ∃ t, execShutCloseCmd sh value s = .next t ∧ Keeps s t := by
  refine ⟨_, rfl, ?_⟩
  repeat' first
    | with_reducible exact Keeps.refl _
    | with_reducible assumption
    | (extract_lets +onlyGivenNames x; have hx : Keeps s x := ?_; (on_goal 1 => clear_value x); (on_goal 2 => (unfold x; clear x)))
    | (extract_lets +onlyGivenNames x; have hx : Keeps s x.2 := ?_; (on_goal 1 => clear_value x); (on_goal 2 => (unfold x; clear x)))
    | (extract_lets +onlyGivenNames x; clear_value x)
    | with_reducible (apply Keeps.trans ?_ (State.shutCmd_keeps _ _ _))
    | with_reducible (apply Keeps.trans ?_ (Keeps.foldl (fun fs _ => ?_) _ _))
    | split
    | dsimp only

theorem execShutOpenCmd_runs (sh : Sys2Proof.Shutter) (value : Sys2Proof.W32) (s : State) : ∃ t, execShutOpenCmd sh value s = .next t ∧ Keeps s t := by
  refine ⟨_, rfl, ?_⟩
  repeat' first
    | with_reducible exact Keeps.refl _
    | with_reducible assumption
    | (extract_lets +onlyGivenNames x; have hx : Keeps s x := ?_; (on_goal 1 => clear_value x); (on_goal 2 => (unfold x; clear x)))
    | (extract_lets +onlyGivenNames x; have hx : Keeps s x.2 := ?_; (on_goal 1 => clear_value x); (on_goal 2 => (unfold x; clear x)))
    | (extract_lets +onlyGivenNames x; clear_value x)
    | with_reducible (apply Keeps.trans ?_ (State.shutCmd_keeps _ _ _))
    | with_reducible (apply Keeps.trans ?_ (Keeps.foldl (fun fs _ => ?_) _ _))
    | split
    | dsimp only

theorem execSensorGateChange_runs (gate : Fin 8) (level : Bool) (s : State) : ∃ t, execSensorGateChange gate level s = .next t ∧ Keeps s t := by
  refine ⟨_, rfl, ?_⟩
  repeat' first
    | with_reducible exact Keeps.refl _
    | with_reducible assumption
    | (extract_lets +onlyGivenNames x; have hx : Keeps s x := ?_; (on_goal 1 => clear_value x); (on_goal 2 => (unfold x; clear x)))
    | (extract_lets +onlyGivenNames x; have hx : Keeps s x.2 := ?_; (on_goal 1 => clear_value x); (on_goal 2 => (unfold x; clear x)))
    | (extract_lets +onlyGivenNames x; clear_value x)
    | with_reducible (apply Keeps.trans ?_ (State.gateApply_keeps _ _))
    | with_reducible (apply Keeps.trans ?_ (State.setBit_keeps _ _ _ _))
    | with_reducible (apply Keeps.trans ?_ (Keeps.foldl (fun fs _ => ?_) _ _))
    | split
    | dsimp only

end Sys2Proof.Machine
end

