-- ==== Sys2Proof/Laws/KeepsQueue.lean ====
section
/-! SUPPORT. What each operation of Machine/Queue keeps, and that every command of it completes. -/

set_option maxRecDepth 4096

namespace Sys2Proof.Machine

theorem State.setAxis_keeps (s : State) (n : Nat) (a : Axis) : Keeps s (State.setAxis s n a) := by
  unfold State.setAxis
  repeat' first
    | with_reducible exact Keeps.refl _
    | with_reducible assumption
    | (extract_lets +onlyGivenNames x; have hx : Keeps s x := ?_; (on_goal 1 => clear_value x); (on_goal 2 => (unfold x; clear x)))
    | (extract_lets +onlyGivenNames x; have hx : Keeps s x.2 := ?_; (on_goal 1 => clear_value x); (on_goal 2 => (unfold x; clear x)))
    | (extract_lets +onlyGivenNames x; clear_value x)
    | with_reducible (apply Keeps.trans ?_ (Keeps.foldl (fun fs _ => ?_) _ _))
    | split
    | dsimp only
    | (refine Keeps.make ?_ rfl rfl rfl rfl rfl rfl ?_ ?_ ?_ ?_ ?_ ?_ ?_ ?_ ?_ ?_ ?_ ?_ ?_ ?_ ?_ ?_ ?_ ?_ ?_ ?_ ?_ ?_ ?_ ?_ ?_ ?_ ?_ ?_ ?_ ?_)
    | exact fun _ w => w
    | exact Nat.le_refl _
    | exact fun _ w => tabWf_put w
    | exact fun _ w => tabWf_del w
    | exact fun _ w => tabWf_drop w
    | exact fun _ w => tabWf_filter w
    | exact fun w _ => w
    | exact fun w _ => tabWf_put w
    | exact fun w _ => tabWf_del w
    | exact fun w _ => tabWf_drop w
    | exact fun w _ => tabWf_filter w
    | exact fun _ w => tabWf_map (fun _ => rfl) w
    | exact fun w _ => tabWf_map (fun _ => rfl) w
    | (refine fun _ w => tabWf_map ?_ w; intro e; (try dsimp only); split <;> rfl)
    | (refine fun w _ => tabWf_map ?_ w; intro e; (try dsimp only); split <;> rfl)
    | exact Nat.le_add_right _ _

theorem State.setLane_keeps (s : State) (n : Nat) (l : Lane) : Keeps s (State.setLane s n l) := by
  unfold State.setLane
  repeat' first
    | with_reducible exact Keeps.refl _
    | with_reducible assumption
    | (extract_lets +onlyGivenNames x; have hx : Keeps s x := ?_; (on_goal 1 => clear_value x); (on_goal 2 => (unfold x; clear x)))
    | (extract_lets +onlyGivenNames x; have hx : Keeps s x.2 := ?_; (on_goal 1 => clear_value x); (on_goal 2 => (unfold x; clear x)))
    | (extract_lets +onlyGivenNames x; clear_value x)
    | with_reducible (apply Keeps.trans ?_ (Keeps.foldl (fun fs _ => ?_) _ _))
    | split
    | dsimp only
    | (refine Keeps.make ?_ rfl rfl rfl rfl rfl rfl ?_ ?_ ?_ ?_ ?_ ?_ ?_ ?_ ?_ ?_ ?_ ?_ ?_ ?_ ?_ ?_ ?_ ?_ ?_ ?_ ?_ ?_ ?_ ?_ ?_ ?_ ?_ ?_ ?_ ?_)
    | exact fun _ w => w
    | exact Nat.le_refl _
    | exact fun _ w => tabWf_put w
    | exact fun _ w => tabWf_del w
    | exact fun _ w => tabWf_drop w
    | exact fun _ w => tabWf_filter w
    | exact fun w _ => w
    | exact fun w _ => tabWf_put w
    | exact fun w _ => tabWf_del w
    | exact fun w _ => tabWf_drop w
    | exact fun w _ => tabWf_filter w
    | exact fun _ w => tabWf_map (fun _ => rfl) w
    | exact fun w _ => tabWf_map (fun _ => rfl) w
    | (refine fun _ w => tabWf_map ?_ w; intro e; (try dsimp only); split <;> rfl)
    | (refine fun w _ => tabWf_map ?_ w; intro e; (try dsimp only); split <;> rfl)
    | exact Nat.le_add_right _ _

theorem State.emit_keeps (s : State) (lane : Nat) (xs : List LinkOut) : Keeps s (State.emit s lane xs) := by
  unfold State.emit
  repeat' first
    | with_reducible exact Keeps.refl _
    | with_reducible assumption
    | (extract_lets +onlyGivenNames x; have hx : Keeps s x := ?_; (on_goal 1 => clear_value x); (on_goal 2 => (unfold x; clear x)))
    | (extract_lets +onlyGivenNames x; have hx : Keeps s x.2 := ?_; (on_goal 1 => clear_value x); (on_goal 2 => (unfold x; clear x)))
    | (extract_lets +onlyGivenNames x; clear_value x)
    | with_reducible (apply Keeps.trans ?_ (State.setLane_keeps _ _ _))
    | with_reducible (apply Keeps.trans ?_ (Keeps.foldl (fun fs _ => ?_) _ _))
    | split
    | dsimp only
    | (refine Keeps.make ?_ rfl rfl rfl rfl rfl rfl ?_ ?_ ?_ ?_ ?_ ?_ ?_ ?_ ?_ ?_ ?_ ?_ ?_ ?_ ?_ ?_ ?_ ?_ ?_ ?_ ?_ ?_ ?_ ?_ ?_ ?_ ?_ ?_ ?_ ?_)
    | exact fun _ w => w
    | exact Nat.le_refl _
    | exact fun _ w => tabWf_put w
    | exact fun _ w => tabWf_del w
    | exact fun _ w => tabWf_drop w
    | exact fun _ w => tabWf_filter w
    | exact fun w _ => w
    | exact fun w _ => tabWf_put w
    | exact fun w _ => tabWf_del w
    | exact fun w _ => tabWf_drop w
    | exact fun w _ => tabWf_filter w
    | exact fun _ w => tabWf_map (fun _ => rfl) w
    | exact fun w _ => tabWf_map (fun _ => rfl) w
    | (refine fun _ w => tabWf_map ?_ w; intro e; (try dsimp only); split <;> rfl)
    | (refine fun w _ => tabWf_map ?_ w; intro e; (try dsimp only); split <;> rfl)
    | exact Nat.le_add_right _ _

theorem State.laneEvent_keeps (s : State) (lane : Nat) (kind : Nat) (detail : Nat) : Keeps s (State.laneEvent s lane kind detail) := by
  unfold State.laneEvent
  repeat' first
    | with_reducible exact Keeps.refl _
    | with_reducible assumption
    | (extract_lets +onlyGivenNames x; have hx : Keeps s x := ?_; (on_goal 1 => clear_value x); (on_goal 2 => (unfold x; clear x)))
    | (extract_lets +onlyGivenNames x; have hx : Keeps s x.2 := ?_; (on_goal 1 => clear_value x); (on_goal 2 => (unfold x; clear x)))
    | (extract_lets +onlyGivenNames x; clear_value x)
    | with_reducible (apply Keeps.trans ?_ (State.post_keeps _ _ _ _ _))
    | with_reducible (apply Keeps.trans ?_ (Keeps.foldl (fun fs _ => ?_) _ _))
    | split
    | dsimp only

theorem State.barCondRefresh_keeps (s : State) (b : Nat) : Keeps s (State.barCondRefresh s b) := by
  unfold State.barCondRefresh
  repeat' first
    | with_reducible exact Keeps.refl _
    | with_reducible assumption
    | (extract_lets +onlyGivenNames x; have hx : Keeps s x := ?_; (on_goal 1 => clear_value x); (on_goal 2 => (unfold x; clear x)))
    | (extract_lets +onlyGivenNames x; have hx : Keeps s x.2 := ?_; (on_goal 1 => clear_value x); (on_goal 2 => (unfold x; clear x)))
    | (extract_lets +onlyGivenNames x; clear_value x)
    | with_reducible (apply Keeps.trans ?_ (State.setCond_keeps _ _ _ _))
    | with_reducible (apply Keeps.trans ?_ (Keeps.foldl (fun fs _ => ?_) _ _))
    | split
    | dsimp only

theorem State.barsRefresh_keeps (s : State) (n : Nat) : Keeps s (State.barsRefresh s n) := by
  unfold State.barsRefresh
  repeat' first
    | with_reducible exact Keeps.refl _
    | with_reducible assumption
    | (extract_lets +onlyGivenNames x; have hx : Keeps fs x := ?_; (on_goal 1 => clear_value x); (on_goal 2 => (unfold x; clear x)))
    | (extract_lets +onlyGivenNames x; have hx : Keeps fs x.2 := ?_; (on_goal 1 => clear_value x); (on_goal 2 => (unfold x; clear x)))
    | (extract_lets +onlyGivenNames x; have hx : Keeps s x := ?_; (on_goal 1 => clear_value x); (on_goal 2 => (unfold x; clear x)))
    | (extract_lets +onlyGivenNames x; have hx : Keeps s x.2 := ?_; (on_goal 1 => clear_value x); (on_goal 2 => (unfold x; clear x)))
    | (extract_lets +onlyGivenNames x; clear_value x)
    | with_reducible (apply Keeps.trans ?_ (State.barCondRefresh_keeps _ _))
    | with_reducible (apply Keeps.trans ?_ (Keeps.foldl (fun fs _ => ?_) _ _))
    | split
    | dsimp only

theorem State.lineRequest_keeps (s : State) (unit : Nat) (n : Nat) : Keeps s (State.lineRequest s unit n) := by
  unfold State.lineRequest
  repeat' first
    | with_reducible exact Keeps.refl _
    | with_reducible assumption
    | (extract_lets +onlyGivenNames x; have hx : Keeps fs x := ?_; (on_goal 1 => clear_value x); (on_goal 2 => (unfold x; clear x)))
    | (extract_lets +onlyGivenNames x; have hx : Keeps fs x.2 := ?_; (on_goal 1 => clear_value x); (on_goal 2 => (unfold x; clear x)))
    | (extract_lets +onlyGivenNames x; have hx : Keeps s x := ?_; (on_goal 1 => clear_value x); (on_goal 2 => (unfold x; clear x)))
    | (extract_lets +onlyGivenNames x; have hx : Keeps s x.2 := ?_; (on_goal 1 => clear_value x); (on_goal 2 => (unfold x; clear x)))
    | (extract_lets +onlyGivenNames x; clear_value x)
    | with_reducible (apply Keeps.trans ?_ (Keeps.foldl (fun fs _ => ?_) _ _))
    | split
    | dsimp only
    | (refine Keeps.make ?_ rfl rfl rfl rfl rfl rfl ?_ ?_ ?_ ?_ ?_ ?_ ?_ ?_ ?_ ?_ ?_ ?_ ?_ ?_ ?_ ?_ ?_ ?_ ?_ ?_ ?_ ?_ ?_ ?_ ?_ ?_ ?_ ?_ ?_ ?_)
    | exact fun _ w => w
    | exact Nat.le_refl _
    | exact fun _ w => tabWf_put w
    | exact fun _ w => tabWf_del w
    | exact fun _ w => tabWf_drop w
    | exact fun _ w => tabWf_filter w
    | exact fun w _ => w
    | exact fun w _ => tabWf_put w
    | exact fun w _ => tabWf_del w
    | exact fun w _ => tabWf_drop w
    | exact fun w _ => tabWf_filter w
    | exact fun _ w => tabWf_map (fun _ => rfl) w
    | exact fun w _ => tabWf_map (fun _ => rfl) w
    | (refine fun _ w => tabWf_map ?_ w; intro e; (try dsimp only); split <;> rfl)
    | (refine fun w _ => tabWf_map ?_ w; intro e; (try dsimp only); split <;> rfl)
    | exact Nat.le_add_right _ _

theorem State.lineWithdraw_keeps (s : State) (unit : Nat) : Keeps s (State.lineWithdraw s unit) := by
  unfold State.lineWithdraw
  repeat' first
    | with_reducible exact Keeps.refl _
    | with_reducible assumption
    | (extract_lets +onlyGivenNames x; have hx : Keeps fs x := ?_; (on_goal 1 => clear_value x); (on_goal 2 => (unfold x; clear x)))
    | (extract_lets +onlyGivenNames x; have hx : Keeps fs x.2 := ?_; (on_goal 1 => clear_value x); (on_goal 2 => (unfold x; clear x)))
    | (extract_lets +onlyGivenNames x; have hx : Keeps s x := ?_; (on_goal 1 => clear_value x); (on_goal 2 => (unfold x; clear x)))
    | (extract_lets +onlyGivenNames x; have hx : Keeps s x.2 := ?_; (on_goal 1 => clear_value x); (on_goal 2 => (unfold x; clear x)))
    | (extract_lets +onlyGivenNames x; clear_value x)
    | with_reducible (apply Keeps.trans ?_ (State.barCondRefresh_keeps _ _))
    | with_reducible (apply Keeps.trans ?_ (Keeps.foldl (fun fs _ => ?_) _ _))
    | split
    | dsimp only
    | (refine Keeps.make ?_ rfl rfl rfl rfl rfl rfl ?_ ?_ ?_ ?_ ?_ ?_ ?_ ?_ ?_ ?_ ?_ ?_ ?_ ?_ ?_ ?_ ?_ ?_ ?_ ?_ ?_ ?_ ?_ ?_ ?_ ?_ ?_ ?_ ?_ ?_)
    | exact fun _ w => w
    | exact Nat.le_refl _
    | exact fun _ w => tabWf_put w
    | exact fun _ w => tabWf_del w
    | exact fun _ w => tabWf_drop w
    | exact fun _ w => tabWf_filter w
    | exact fun w _ => w
    | exact fun w _ => tabWf_put w
    | exact fun w _ => tabWf_del w
    | exact fun w _ => tabWf_drop w
    | exact fun w _ => tabWf_filter w
    | exact fun _ w => tabWf_map (fun _ => rfl) w
    | exact fun w _ => tabWf_map (fun _ => rfl) w
    | (refine fun _ w => tabWf_map ?_ w; intro e; (try dsimp only); split <;> rfl)
    | (refine fun w _ => tabWf_map ?_ w; intro e; (try dsimp only); split <;> rfl)
    | exact Nat.le_add_right _ _

theorem State.putHeader_keeps (s : State) (lane : Nat) (pos : Nat) (tag : Nat) (h : Sys2Proof.W32) : Keeps s (State.putHeader s lane pos tag h) := by
  unfold State.putHeader
  repeat' first
    | with_reducible exact Keeps.refl _
    | with_reducible assumption
    | (extract_lets +onlyGivenNames x; have hx : Keeps s x := ?_; (on_goal 1 => clear_value x); (on_goal 2 => (unfold x; clear x)))
    | (extract_lets +onlyGivenNames x; have hx : Keeps s x.2 := ?_; (on_goal 1 => clear_value x); (on_goal 2 => (unfold x; clear x)))
    | (extract_lets +onlyGivenNames x; clear_value x)
    | with_reducible (apply Keeps.trans ?_ (State.cellCleared_keeps _ _))
    | with_reducible (apply Keeps.trans ?_ (State.wrWord_keeps _ _ _))
    | with_reducible (apply Keeps.trans ?_ (Keeps.foldl (fun fs _ => ?_) _ _))
    | split
    | dsimp only

theorem State.headerRead_keeps (s : State) (lane : Nat) (pos : Nat) (tag : Nat) : Keeps s (State.headerRead s lane pos tag).2 := by
  unfold State.headerRead
  repeat' first
    | with_reducible exact Keeps.refl _
    | with_reducible assumption
    | (extract_lets +onlyGivenNames x; have hx : Keeps s x := ?_; (on_goal 1 => clear_value x); (on_goal 2 => (unfold x; clear x)))
    | (extract_lets +onlyGivenNames x; have hx : Keeps s x.2 := ?_; (on_goal 1 => clear_value x); (on_goal 2 => (unfold x; clear x)))
    | (extract_lets +onlyGivenNames x; clear_value x)
    | with_reducible (apply Keeps.trans ?_ (State.dataRead_keeps _ _ _ _))
    | (refine Keeps.trans ?_ (State.dataRead_keeps_eq (by assumption)))
    | with_reducible (apply Keeps.trans ?_ (Keeps.foldl (fun fs _ => ?_) _ _))
    | split
    | dsimp only

theorem State.headerRead_keeps_eq {s : State} {lane : Nat} {pos : Nat} {tag : Nat} {val out} (h : State.headerRead s lane pos tag = (val, out)) : Keeps s out := by
  have k := State.headerRead_keeps s lane pos tag
  rw [h] at k
  exact k

theorem State.freeSlot_keeps (s : State) (lane : Nat) (pos : Nat) (tag : Nat) : Keeps s (State.freeSlot s lane pos tag) := by
  unfold State.freeSlot
  repeat' first
    | with_reducible exact Keeps.refl _
    | with_reducible assumption
    | (extract_lets +onlyGivenNames x; have hx : Keeps s x := ?_; (on_goal 1 => clear_value x); (on_goal 2 => (unfold x; clear x)))
    | (extract_lets +onlyGivenNames x; have hx : Keeps s x.2 := ?_; (on_goal 1 => clear_value x); (on_goal 2 => (unfold x; clear x)))
    | (extract_lets +onlyGivenNames x; clear_value x)
    | with_reducible (apply Keeps.trans ?_ (State.headerRead_keeps _ _ _ _))
    | (refine Keeps.trans ?_ (State.headerRead_keeps_eq (by assumption)))
    | with_reducible (apply Keeps.trans ?_ (State.putHeader_keeps _ _ _ _ _))
    | with_reducible (apply Keeps.trans ?_ (Keeps.foldl (fun fs _ => ?_) _ _))
    | split
    | dsimp only

theorem State.freeSlots_keeps (s : State) (lane : Nat) (e : Entry) : Keeps s (State.freeSlots s lane e) := by
  unfold State.freeSlots
  repeat' first
    | with_reducible exact Keeps.refl _
    | with_reducible assumption
    | (extract_lets +onlyGivenNames x; have hx : Keeps fs x := ?_; (on_goal 1 => clear_value x); (on_goal 2 => (unfold x; clear x)))
    | (extract_lets +onlyGivenNames x; have hx : Keeps fs x.2 := ?_; (on_goal 1 => clear_value x); (on_goal 2 => (unfold x; clear x)))
    | (extract_lets +onlyGivenNames x; have hx : Keeps s x := ?_; (on_goal 1 => clear_value x); (on_goal 2 => (unfold x; clear x)))
    | (extract_lets +onlyGivenNames x; have hx : Keeps s x.2 := ?_; (on_goal 1 => clear_value x); (on_goal 2 => (unfold x; clear x)))
    | (extract_lets +onlyGivenNames x; clear_value x)
    | with_reducible (apply Keeps.trans ?_ (State.freeSlot_keeps _ _ _ _))
    | with_reducible (apply Keeps.trans ?_ (Keeps.foldl (fun fs _ => ?_) _ _))
    | split
    | dsimp only

theorem State.sendSet_keeps (s : State) (lane : Nat) (x : SentSet) : Keeps s (State.sendSet s lane x) := by
  unfold State.sendSet
  repeat' first
    | with_reducible exact Keeps.refl _
    | with_reducible assumption
    | (extract_lets +onlyGivenNames x; have hx : Keeps s x := ?_; (on_goal 1 => clear_value x); (on_goal 2 => (unfold x; clear x)))
    | (extract_lets +onlyGivenNames x; have hx : Keeps s x.2 := ?_; (on_goal 1 => clear_value x); (on_goal 2 => (unfold x; clear x)))
    | (extract_lets +onlyGivenNames x; clear_value x)
    | with_reducible (apply Keeps.trans ?_ (State.setLane_keeps _ _ _))
    | with_reducible (apply Keeps.trans ?_ (Keeps.foldl (fun fs _ => ?_) _ _))
    | split
    | dsimp only
    | (refine Keeps.make ?_ rfl rfl rfl rfl rfl rfl ?_ ?_ ?_ ?_ ?_ ?_ ?_ ?_ ?_ ?_ ?_ ?_ ?_ ?_ ?_ ?_ ?_ ?_ ?_ ?_ ?_ ?_ ?_ ?_ ?_ ?_ ?_ ?_ ?_ ?_)
    | exact fun _ w => w
    | exact Nat.le_refl _
    | exact fun _ w => tabWf_put w
    | exact fun _ w => tabWf_del w
    | exact fun _ w => tabWf_drop w
    | exact fun _ w => tabWf_filter w
    | exact fun w _ => w
    | exact fun w _ => tabWf_put w
    | exact fun w _ => tabWf_del w
    | exact fun w _ => tabWf_drop w
    | exact fun w _ => tabWf_filter w
    | exact fun _ w => tabWf_map (fun _ => rfl) w
    | exact fun w _ => tabWf_map (fun _ => rfl) w
    | (refine fun _ w => tabWf_map ?_ w; intro e; (try dsimp only); split <;> rfl)
    | (refine fun w _ => tabWf_map ?_ w; intro e; (try dsimp only); split <;> rfl)
    | exact Nat.le_add_right _ _

theorem State.sendCancel_keeps (s : State) (lane : Nat) (e : Entry) : Keeps s (State.sendCancel s lane e) := by
  unfold State.sendCancel
  repeat' first
    | with_reducible exact Keeps.refl _
    | with_reducible assumption
    | (extract_lets +onlyGivenNames x; have hx : Keeps s x := ?_; (on_goal 1 => clear_value x); (on_goal 2 => (unfold x; clear x)))
    | (extract_lets +onlyGivenNames x; have hx : Keeps s x.2 := ?_; (on_goal 1 => clear_value x); (on_goal 2 => (unfold x; clear x)))
    | (extract_lets +onlyGivenNames x; clear_value x)
    | with_reducible (apply Keeps.trans ?_ (State.sendSet_keeps _ _ _))
    | with_reducible (apply Keeps.trans ?_ (Keeps.foldl (fun fs _ => ?_) _ _))
    | split
    | dsimp only

theorem State.removeEntries_keeps (s : State) (lane : Nat) (p : Entry → Bool) : Keeps s (State.removeEntries s lane p).2 := by
  unfold State.removeEntries
  repeat' first
    | with_reducible exact Keeps.refl _
    | with_reducible assumption
    | (extract_lets +onlyGivenNames x; have hx : Keeps fs x := ?_; (on_goal 1 => clear_value x); (on_goal 2 => (unfold x; clear x)))
    | (extract_lets +onlyGivenNames x; have hx : Keeps fs x.2 := ?_; (on_goal 1 => clear_value x); (on_goal 2 => (unfold x; clear x)))
    | (extract_lets +onlyGivenNames x; have hx : Keeps s x := ?_; (on_goal 1 => clear_value x); (on_goal 2 => (unfold x; clear x)))
    | (extract_lets +onlyGivenNames x; have hx : Keeps s x.2 := ?_; (on_goal 1 => clear_value x); (on_goal 2 => (unfold x; clear x)))
    | (extract_lets +onlyGivenNames x; clear_value x)
    | with_reducible (apply Keeps.trans ?_ (State.setLane_keeps _ _ _))
    | with_reducible (apply Keeps.trans ?_ (State.sendCancel_keeps _ _ _))
    | with_reducible (apply Keeps.trans ?_ (State.freeSlots_keeps _ _ _))
    | with_reducible (apply Keeps.trans ?_ (Keeps.foldl (fun fs _ => ?_) _ _))
    | split
    | dsimp only
    | (refine Keeps.make ?_ rfl rfl rfl rfl rfl rfl ?_ ?_ ?_ ?_ ?_ ?_ ?_ ?_ ?_ ?_ ?_ ?_ ?_ ?_ ?_ ?_ ?_ ?_ ?_ ?_ ?_ ?_ ?_ ?_ ?_ ?_ ?_ ?_ ?_ ?_)
    | exact fun _ w => w
    | exact Nat.le_refl _
    | exact fun _ w => tabWf_put w
    | exact fun _ w => tabWf_del w
    | exact fun _ w => tabWf_drop w
    | exact fun _ w => tabWf_filter w
    | exact fun w _ => w
    | exact fun w _ => tabWf_put w
    | exact fun w _ => tabWf_del w
    | exact fun w _ => tabWf_drop w
    | exact fun w _ => tabWf_filter w
    | exact fun _ w => tabWf_map (fun _ => rfl) w
    | exact fun w _ => tabWf_map (fun _ => rfl) w
    | (refine fun _ w => tabWf_map ?_ w; intro e; (try dsimp only); split <;> rfl)
    | (refine fun w _ => tabWf_map ?_ w; intro e; (try dsimp only); split <;> rfl)
    | exact Nat.le_add_right _ _

theorem State.removeEntries_keeps_eq {s : State} {lane : Nat} {p : Entry → Bool} {val out} (h : State.removeEntries s lane p = (val, out)) : Keeps s out := by
  have k := State.removeEntries_keeps s lane p
  rw [h] at k
  exact k

theorem State.setTile_keeps (s : State) (k : Nat) (t : Tile) : Keeps s (State.setTile s k t) := by
  unfold State.setTile
  repeat' first
    | with_reducible exact Keeps.refl _
    | with_reducible assumption
    | (extract_lets +onlyGivenNames x; have hx : Keeps s x := ?_; (on_goal 1 => clear_value x); (on_goal 2 => (unfold x; clear x)))
    | (extract_lets +onlyGivenNames x; have hx : Keeps s x.2 := ?_; (on_goal 1 => clear_value x); (on_goal 2 => (unfold x; clear x)))
    | (extract_lets +onlyGivenNames x; clear_value x)
    | with_reducible (apply Keeps.trans ?_ (Keeps.foldl (fun fs _ => ?_) _ _))
    | split
    | dsimp only
    | (refine Keeps.make ?_ rfl rfl rfl rfl rfl rfl ?_ ?_ ?_ ?_ ?_ ?_ ?_ ?_ ?_ ?_ ?_ ?_ ?_ ?_ ?_ ?_ ?_ ?_ ?_ ?_ ?_ ?_ ?_ ?_ ?_ ?_ ?_ ?_ ?_ ?_)
    | exact fun _ w => w
    | exact Nat.le_refl _
    | exact fun _ w => tabWf_put w
    | exact fun _ w => tabWf_del w
    | exact fun _ w => tabWf_drop w
    | exact fun _ w => tabWf_filter w
    | exact fun w _ => w
    | exact fun w _ => tabWf_put w
    | exact fun w _ => tabWf_del w
    | exact fun w _ => tabWf_drop w
    | exact fun w _ => tabWf_filter w
    | exact fun _ w => tabWf_map (fun _ => rfl) w
    | exact fun w _ => tabWf_map (fun _ => rfl) w
    | (refine fun _ w => tabWf_map ?_ w; intro e; (try dsimp only); split <;> rfl)
    | (refine fun w _ => tabWf_map ?_ w; intro e; (try dsimp only); split <;> rfl)
    | exact Nat.le_add_right _ _

theorem State.tileStrobed_keeps (s : State) (lane : Nat) (pos : Nat) (blank : Bool) : Keeps s (State.tileStrobed s lane pos blank) := by
  unfold State.tileStrobed
  repeat' first
    | with_reducible exact Keeps.refl _
    | with_reducible assumption
    | (extract_lets +onlyGivenNames x; have hx : Keeps s x := ?_; (on_goal 1 => clear_value x); (on_goal 2 => (unfold x; clear x)))
    | (extract_lets +onlyGivenNames x; have hx : Keeps s x.2 := ?_; (on_goal 1 => clear_value x); (on_goal 2 => (unfold x; clear x)))
    | (extract_lets +onlyGivenNames x; clear_value x)
    | with_reducible (apply Keeps.trans ?_ (State.setTile_keeps _ _ _))
    | with_reducible (apply Keeps.trans ?_ (Keeps.foldl (fun fs _ => ?_) _ _))
    | split
    | dsimp only
    | (refine Keeps.make ?_ rfl rfl rfl rfl rfl rfl ?_ ?_ ?_ ?_ ?_ ?_ ?_ ?_ ?_ ?_ ?_ ?_ ?_ ?_ ?_ ?_ ?_ ?_ ?_ ?_ ?_ ?_ ?_ ?_ ?_ ?_ ?_ ?_ ?_ ?_)
    | exact fun _ w => w
    | exact Nat.le_refl _
    | exact fun _ w => tabWf_put w
    | exact fun _ w => tabWf_del w
    | exact fun _ w => tabWf_drop w
    | exact fun _ w => tabWf_filter w
    | exact fun w _ => w
    | exact fun w _ => tabWf_put w
    | exact fun w _ => tabWf_del w
    | exact fun w _ => tabWf_drop w
    | exact fun w _ => tabWf_filter w
    | exact fun _ w => tabWf_map (fun _ => rfl) w
    | exact fun w _ => tabWf_map (fun _ => rfl) w
    | (refine fun _ w => tabWf_map ?_ w; intro e; (try dsimp only); split <;> rfl)
    | (refine fun w _ => tabWf_map ?_ w; intro e; (try dsimp only); split <;> rfl)
    | exact Nat.le_add_right _ _

theorem State.tilesStrobed_keeps (s : State) (lane : Nat) (mask : Nat) (blank : Bool) : Keeps s (State.tilesStrobed s lane mask blank) := by
  unfold State.tilesStrobed
  repeat' first
    | with_reducible exact Keeps.refl _
    | with_reducible assumption
    | (extract_lets +onlyGivenNames x; have hx : Keeps fs x := ?_; (on_goal 1 => clear_value x); (on_goal 2 => (unfold x; clear x)))
    | (extract_lets +onlyGivenNames x; have hx : Keeps fs x.2 := ?_; (on_goal 1 => clear_value x); (on_goal 2 => (unfold x; clear x)))
    | (extract_lets +onlyGivenNames x; have hx : Keeps s x := ?_; (on_goal 1 => clear_value x); (on_goal 2 => (unfold x; clear x)))
    | (extract_lets +onlyGivenNames x; have hx : Keeps s x.2 := ?_; (on_goal 1 => clear_value x); (on_goal 2 => (unfold x; clear x)))
    | (extract_lets +onlyGivenNames x; clear_value x)
    | with_reducible (apply Keeps.trans ?_ (State.tileStrobed_keeps _ _ _ _))
    | with_reducible (apply Keeps.trans ?_ (Keeps.foldl (fun fs _ => ?_) _ _))
    | split
    | dsimp only

theorem State.waveFail_keeps (s : State) (lane : Nat) (pos : Nat) (cause : Nat) (index : Nat) : Keeps s (State.waveFail s lane pos cause index) := by
  unfold State.waveFail
  repeat' first
    | with_reducible exact Keeps.refl _
    | with_reducible assumption
    | (extract_lets +onlyGivenNames x; have hx : Keeps s x := ?_; (on_goal 1 => clear_value x); (on_goal 2 => (unfold x; clear x)))
    | (extract_lets +onlyGivenNames x; have hx : Keeps s x.2 := ?_; (on_goal 1 => clear_value x); (on_goal 2 => (unfold x; clear x)))
    | (extract_lets +onlyGivenNames x; clear_value x)
    | with_reducible (apply Keeps.trans ?_ (State.laneEvent_keeps _ _ _ _))
    | with_reducible (apply Keeps.trans ?_ (State.setBit_keeps _ _ _ _))
    | with_reducible (apply Keeps.trans ?_ (Keeps.foldl (fun fs _ => ?_) _ _))
    | split
    | dsimp only

theorem State.retryFull_keeps (s : State) (lane : Nat) (mask : Nat) : Keeps s (State.retryFull s lane mask) := by
  unfold State.retryFull
  repeat' first
    | with_reducible exact Keeps.refl _
    | with_reducible assumption
    | (extract_lets +onlyGivenNames x; have hx : Keeps fs x := ?_; (on_goal 1 => clear_value x); (on_goal 2 => (unfold x; clear x)))
    | (extract_lets +onlyGivenNames x; have hx : Keeps fs x.2 := ?_; (on_goal 1 => clear_value x); (on_goal 2 => (unfold x; clear x)))
    | (extract_lets +onlyGivenNames x; have hx : Keeps s x := ?_; (on_goal 1 => clear_value x); (on_goal 2 => (unfold x; clear x)))
    | (extract_lets +onlyGivenNames x; have hx : Keeps s x.2 := ?_; (on_goal 1 => clear_value x); (on_goal 2 => (unfold x; clear x)))
    | (extract_lets +onlyGivenNames x; clear_value x)
    | with_reducible (apply Keeps.trans ?_ (State.bumpBy_keeps _ _ _))
    | with_reducible (apply Keeps.trans ?_ (State.setLane_keeps _ _ _))
    | with_reducible (apply Keeps.trans ?_ (State.waveFail_keeps _ _ _ _ _))
    | with_reducible (apply Keeps.trans ?_ (Keeps.foldl (fun fs _ => ?_) _ _))
    | split
    | dsimp only
    | (refine Keeps.make ?_ rfl rfl rfl rfl rfl rfl ?_ ?_ ?_ ?_ ?_ ?_ ?_ ?_ ?_ ?_ ?_ ?_ ?_ ?_ ?_ ?_ ?_ ?_ ?_ ?_ ?_ ?_ ?_ ?_ ?_ ?_ ?_ ?_ ?_ ?_)
    | exact fun _ w => w
    | exact Nat.le_refl _
    | exact fun _ w => tabWf_put w
    | exact fun _ w => tabWf_del w
    | exact fun _ w => tabWf_drop w
    | exact fun _ w => tabWf_filter w
    | exact fun w _ => w
    | exact fun w _ => tabWf_put w
    | exact fun w _ => tabWf_del w
    | exact fun w _ => tabWf_drop w
    | exact fun w _ => tabWf_filter w
    | exact fun _ w => tabWf_map (fun _ => rfl) w
    | exact fun w _ => tabWf_map (fun _ => rfl) w
    | (refine fun _ w => tabWf_map ?_ w; intro e; (try dsimp only); split <;> rfl)
    | (refine fun w _ => tabWf_map ?_ w; intro e; (try dsimp only); split <;> rfl)
    | exact Nat.le_add_right _ _

theorem State.schFlag_keeps (s : State) (lane : Nat) (b : Nat) : Keeps s (State.schFlag s lane b) := by
  unfold State.schFlag
  repeat' first
    | with_reducible exact Keeps.refl _
    | with_reducible assumption
    | (extract_lets +onlyGivenNames x; have hx : Keeps s x := ?_; (on_goal 1 => clear_value x); (on_goal 2 => (unfold x; clear x)))
    | (extract_lets +onlyGivenNames x; have hx : Keeps s x.2 := ?_; (on_goal 1 => clear_value x); (on_goal 2 => (unfold x; clear x)))
    | (extract_lets +onlyGivenNames x; clear_value x)
    | with_reducible (apply Keeps.trans ?_ (State.setStatus_keeps _ _ _ _ _))
    | with_reducible (apply Keeps.trans ?_ (Keeps.foldl (fun fs _ => ?_) _ _))
    | split
    | dsimp only

theorem State.lanePost_keeps (s : State) (lane : Nat) (kind : Nat) (axis : Nat) (stamp : Sys2Proof.W32) (detail : Nat) : Keeps s (State.lanePost s lane kind axis stamp detail) := by
  unfold State.lanePost
  repeat' first
    | with_reducible exact Keeps.refl _
    | with_reducible assumption
    | (extract_lets +onlyGivenNames x; have hx : Keeps s x := ?_; (on_goal 1 => clear_value x); (on_goal 2 => (unfold x; clear x)))
    | (extract_lets +onlyGivenNames x; have hx : Keeps s x.2 := ?_; (on_goal 1 => clear_value x); (on_goal 2 => (unfold x; clear x)))
    | (extract_lets +onlyGivenNames x; clear_value x)
    | with_reducible (apply Keeps.trans ?_ (State.postAt_keeps _ _ _ _ _ _ _))
    | with_reducible (apply Keeps.trans ?_ (Keeps.foldl (fun fs _ => ?_) _ _))
    | split
    | dsimp only

theorem State.queueCancel_keeps (s : State) (n : Nat) (cause : Nat) (p : Entry → Bool) : Keeps s (State.queueCancel s n cause p) := by
  unfold State.queueCancel
  repeat' first
    | with_reducible exact Keeps.refl _
    | with_reducible assumption
    | (extract_lets +onlyGivenNames x; have hx : Keeps fs x := ?_; (on_goal 1 => clear_value x); (on_goal 2 => (unfold x; clear x)))
    | (extract_lets +onlyGivenNames x; have hx : Keeps fs x.2 := ?_; (on_goal 1 => clear_value x); (on_goal 2 => (unfold x; clear x)))
    | (extract_lets +onlyGivenNames x; have hx : Keeps s x := ?_; (on_goal 1 => clear_value x); (on_goal 2 => (unfold x; clear x)))
    | (extract_lets +onlyGivenNames x; have hx : Keeps s x.2 := ?_; (on_goal 1 => clear_value x); (on_goal 2 => (unfold x; clear x)))
    | (extract_lets +onlyGivenNames x; clear_value x)
    | with_reducible (apply Keeps.trans ?_ (State.removeEntries_keeps _ _ _))
    | (refine Keeps.trans ?_ (State.removeEntries_keeps_eq (by assumption)))
    | with_reducible (apply Keeps.trans ?_ (State.lanePost_keeps _ _ _ _ _ _))
    | with_reducible (apply Keeps.trans ?_ (State.schFlag_keeps _ _ _))
    | with_reducible (apply Keeps.trans ?_ (Keeps.foldl (fun fs _ => ?_) _ _))
    | split
    | dsimp only

theorem State.confirmStrobes_keeps (s : State) (n : Nat) : Keeps s (State.confirmStrobes s n) := by
  unfold State.confirmStrobes
  repeat' first
    | with_reducible exact Keeps.refl _
    | with_reducible assumption
    | (extract_lets +onlyGivenNames x; have hx : Keeps s x := ?_; (on_goal 1 => clear_value x); (on_goal 2 => (unfold x; clear x)))
    | (extract_lets +onlyGivenNames x; have hx : Keeps s x.2 := ?_; (on_goal 1 => clear_value x); (on_goal 2 => (unfold x; clear x)))
    | (extract_lets +onlyGivenNames x; clear_value x)
    | with_reducible (apply Keeps.trans ?_ (Keeps.foldl (fun fs _ => ?_) _ _))
    | split
    | dsimp only
    | (refine Keeps.make ?_ rfl rfl rfl rfl rfl rfl ?_ ?_ ?_ ?_ ?_ ?_ ?_ ?_ ?_ ?_ ?_ ?_ ?_ ?_ ?_ ?_ ?_ ?_ ?_ ?_ ?_ ?_ ?_ ?_ ?_ ?_ ?_ ?_ ?_ ?_)
    | exact fun _ w => w
    | exact Nat.le_refl _
    | exact fun _ w => tabWf_put w
    | exact fun _ w => tabWf_del w
    | exact fun _ w => tabWf_drop w
    | exact fun _ w => tabWf_filter w
    | exact fun w _ => w
    | exact fun w _ => tabWf_put w
    | exact fun w _ => tabWf_del w
    | exact fun w _ => tabWf_drop w
    | exact fun w _ => tabWf_filter w
    | exact fun _ w => tabWf_map (fun _ => rfl) w
    | exact fun w _ => tabWf_map (fun _ => rfl) w
    | (refine fun _ w => tabWf_map ?_ w; intro e; (try dsimp only); split <;> rfl)
    | (refine fun w _ => tabWf_map ?_ w; intro e; (try dsimp only); split <;> rfl)
    | exact Nat.le_add_right _ _

theorem State.dropUnconfirmed_keeps (s : State) (n : Nat) : Keeps s (State.dropUnconfirmed s n) := by
  unfold State.dropUnconfirmed
  repeat' first
    | with_reducible exact Keeps.refl _
    | with_reducible assumption
    | (extract_lets +onlyGivenNames x; have hx : Keeps fs x := ?_; (on_goal 1 => clear_value x); (on_goal 2 => (unfold x; clear x)))
    | (extract_lets +onlyGivenNames x; have hx : Keeps fs x.2 := ?_; (on_goal 1 => clear_value x); (on_goal 2 => (unfold x; clear x)))
    | (extract_lets +onlyGivenNames x; have hx : Keeps s x := ?_; (on_goal 1 => clear_value x); (on_goal 2 => (unfold x; clear x)))
    | (extract_lets +onlyGivenNames x; have hx : Keeps s x.2 := ?_; (on_goal 1 => clear_value x); (on_goal 2 => (unfold x; clear x)))
    | (extract_lets +onlyGivenNames x; clear_value x)
    | with_reducible (apply Keeps.trans ?_ (State.setLane_keeps _ _ _))
    | with_reducible (apply Keeps.trans ?_ (State.wr_keeps _ _ _))
    | with_reducible (apply Keeps.trans ?_ (State.bumpBy_keeps _ _ _))
    | with_reducible (apply Keeps.trans ?_ (State.lanePost_keeps _ _ _ _ _ _))
    | with_reducible (apply Keeps.trans ?_ (State.schFlag_keeps _ _ _))
    | with_reducible (apply Keeps.trans ?_ (Keeps.foldl (fun fs _ => ?_) _ _))
    | split
    | dsimp only
    | (refine Keeps.make ?_ rfl rfl rfl rfl rfl rfl ?_ ?_ ?_ ?_ ?_ ?_ ?_ ?_ ?_ ?_ ?_ ?_ ?_ ?_ ?_ ?_ ?_ ?_ ?_ ?_ ?_ ?_ ?_ ?_ ?_ ?_ ?_ ?_ ?_ ?_)
    | exact fun _ w => w
    | exact Nat.le_refl _
    | exact fun _ w => tabWf_put w
    | exact fun _ w => tabWf_del w
    | exact fun _ w => tabWf_drop w
    | exact fun _ w => tabWf_filter w
    | exact fun w _ => w
    | exact fun w _ => tabWf_put w
    | exact fun w _ => tabWf_del w
    | exact fun w _ => tabWf_drop w
    | exact fun w _ => tabWf_filter w
    | exact fun _ w => tabWf_map (fun _ => rfl) w
    | exact fun w _ => tabWf_map (fun _ => rfl) w
    | (refine fun _ w => tabWf_map ?_ w; intro e; (try dsimp only); split <;> rfl)
    | (refine fun w _ => tabWf_map ?_ w; intro e; (try dsimp only); split <;> rfl)
    | exact Nat.le_add_right _ _

theorem State.missEntry_keeps (s : State) (n : Nat) (lane : Nat) (e : Entry) : Keeps s (State.missEntry s n lane e) := by
  unfold State.missEntry
  repeat' first
    | with_reducible exact Keeps.refl _
    | with_reducible assumption
    | (extract_lets +onlyGivenNames x; have hx : Keeps s x := ?_; (on_goal 1 => clear_value x); (on_goal 2 => (unfold x; clear x)))
    | (extract_lets +onlyGivenNames x; have hx : Keeps s x.2 := ?_; (on_goal 1 => clear_value x); (on_goal 2 => (unfold x; clear x)))
    | (extract_lets +onlyGivenNames x; clear_value x)
    | with_reducible (apply Keeps.trans ?_ (State.bumpBy_keeps _ _ _))
    | with_reducible (apply Keeps.trans ?_ (State.retryFull_keeps _ _ _))
    | with_reducible (apply Keeps.trans ?_ (State.tilesStrobed_keeps _ _ _ _))
    | with_reducible (apply Keeps.trans ?_ (State.sendSet_keeps _ _ _))
    | with_reducible (apply Keeps.trans ?_ (State.lanePost_keeps _ _ _ _ _ _))
    | with_reducible (apply Keeps.trans ?_ (State.schFlag_keeps _ _ _))
    | with_reducible (apply Keeps.trans ?_ (State.freeSlots_keeps _ _ _))
    | with_reducible (apply Keeps.trans ?_ (Keeps.foldl (fun fs _ => ?_) _ _))
    | split
    | dsimp only

theorem State.wakePending_keeps (s : State) (n : Nat) : Keeps s (State.wakePending s n) := by
  unfold State.wakePending
  repeat' first
    | with_reducible exact Keeps.refl _
    | with_reducible assumption
    | (extract_lets +onlyGivenNames x; have hx : Keeps fs x := ?_; (on_goal 1 => clear_value x); (on_goal 2 => (unfold x; clear x)))
    | (extract_lets +onlyGivenNames x; have hx : Keeps fs x.2 := ?_; (on_goal 1 => clear_value x); (on_goal 2 => (unfold x; clear x)))
    | (extract_lets +onlyGivenNames x; have hx : Keeps s x := ?_; (on_goal 1 => clear_value x); (on_goal 2 => (unfold x; clear x)))
    | (extract_lets +onlyGivenNames x; have hx : Keeps s x.2 := ?_; (on_goal 1 => clear_value x); (on_goal 2 => (unfold x; clear x)))
    | (extract_lets +onlyGivenNames x; clear_value x)
    | with_reducible (apply Keeps.trans ?_ (State.missEntry_keeps _ _ _ _))
    | with_reducible (apply Keeps.trans ?_ (State.setLane_keeps _ _ _))
    | with_reducible (apply Keeps.trans ?_ (Keeps.foldl (fun fs _ => ?_) _ _))
    | split
    | dsimp only
    | (refine Keeps.make ?_ rfl rfl rfl rfl rfl rfl ?_ ?_ ?_ ?_ ?_ ?_ ?_ ?_ ?_ ?_ ?_ ?_ ?_ ?_ ?_ ?_ ?_ ?_ ?_ ?_ ?_ ?_ ?_ ?_ ?_ ?_ ?_ ?_ ?_ ?_)
    | exact fun _ w => w
    | exact Nat.le_refl _
    | exact fun _ w => tabWf_put w
    | exact fun _ w => tabWf_del w
    | exact fun _ w => tabWf_drop w
    | exact fun _ w => tabWf_filter w
    | exact fun w _ => w
    | exact fun w _ => tabWf_put w
    | exact fun w _ => tabWf_del w
    | exact fun w _ => tabWf_drop w
    | exact fun w _ => tabWf_filter w
    | exact fun _ w => tabWf_map (fun _ => rfl) w
    | exact fun w _ => tabWf_map (fun _ => rfl) w
    | (refine fun _ w => tabWf_map ?_ w; intro e; (try dsimp only); split <;> rfl)
    | (refine fun w _ => tabWf_map ?_ w; intro e; (try dsimp only); split <;> rfl)
    | exact Nat.le_add_right _ _

theorem State.completeWait_keeps (s : State) (q : Nat) (rd : Nat) (code : Sys2Proof.W32) : Keeps s (State.completeWait s q rd code) := by
  unfold State.completeWait
  repeat' first
    | with_reducible exact Keeps.refl _
    | with_reducible assumption
    | (extract_lets +onlyGivenNames x; have hx : Keeps s x := ?_; (on_goal 1 => clear_value x); (on_goal 2 => (unfold x; clear x)))
    | (extract_lets +onlyGivenNames x; have hx : Keeps s x.2 := ?_; (on_goal 1 => clear_value x); (on_goal 2 => (unfold x; clear x)))
    | (extract_lets +onlyGivenNames x; clear_value x)
    | with_reducible (apply Keeps.trans ?_ (State.setSeq_keeps _ _ _))
    | with_reducible (apply Keeps.trans ?_ (Keeps.foldl (fun fs _ => ?_) _ _))
    | split
    | dsimp only
    | (refine Keeps.make ?_ rfl rfl rfl rfl rfl rfl ?_ ?_ ?_ ?_ ?_ ?_ ?_ ?_ ?_ ?_ ?_ ?_ ?_ ?_ ?_ ?_ ?_ ?_ ?_ ?_ ?_ ?_ ?_ ?_ ?_ ?_ ?_ ?_ ?_ ?_)
    | exact fun _ w => w
    | exact Nat.le_refl _
    | exact fun _ w => tabWf_put w
    | exact fun _ w => tabWf_del w
    | exact fun _ w => tabWf_drop w
    | exact fun _ w => tabWf_filter w
    | exact fun w _ => w
    | exact fun w _ => tabWf_put w
    | exact fun w _ => tabWf_del w
    | exact fun w _ => tabWf_drop w
    | exact fun w _ => tabWf_filter w
    | exact fun _ w => tabWf_map (fun _ => rfl) w
    | exact fun w _ => tabWf_map (fun _ => rfl) w
    | (refine fun _ w => tabWf_map ?_ w; intro e; (try dsimp only); split <;> rfl)
    | (refine fun w _ => tabWf_map ?_ w; intro e; (try dsimp only); split <;> rfl)
    | exact Nat.le_add_right _ _

theorem State.completeWaitp_keeps (s : State) (n : Nat) (code : Sys2Proof.W32) : Keeps s (State.completeWaitp s n code) := by
  unfold State.completeWaitp
  repeat' first
    | with_reducible exact Keeps.refl _
    | with_reducible assumption
    | (extract_lets +onlyGivenNames x; have hx : Keeps fs x := ?_; (on_goal 1 => clear_value x); (on_goal 2 => (unfold x; clear x)))
    | (extract_lets +onlyGivenNames x; have hx : Keeps fs x.2 := ?_; (on_goal 1 => clear_value x); (on_goal 2 => (unfold x; clear x)))
    | (extract_lets +onlyGivenNames x; have hx : Keeps s x := ?_; (on_goal 1 => clear_value x); (on_goal 2 => (unfold x; clear x)))
    | (extract_lets +onlyGivenNames x; have hx : Keeps s x.2 := ?_; (on_goal 1 => clear_value x); (on_goal 2 => (unfold x; clear x)))
    | (extract_lets +onlyGivenNames x; clear_value x)
    | with_reducible (apply Keeps.trans ?_ (State.completeWait_keeps _ _ _ _))
    | with_reducible (apply Keeps.trans ?_ (Keeps.foldl (fun fs _ => ?_) _ _))
    | split
    | dsimp only

theorem execLineBoundaryClose_runs (bar : Fin 8) (limit : Bool) (s : State) : ∃ t, execLineBoundaryClose bar limit s = .next t ∧ Keeps s t := by
  refine ⟨_, rfl, ?_⟩
  repeat' first
    | with_reducible exact Keeps.refl _
    | with_reducible assumption
    | (extract_lets +onlyGivenNames x; have hx : Keeps s x := ?_; (on_goal 1 => clear_value x); (on_goal 2 => (unfold x; clear x)))
    | (extract_lets +onlyGivenNames x; have hx : Keeps s x.2 := ?_; (on_goal 1 => clear_value x); (on_goal 2 => (unfold x; clear x)))
    | (extract_lets +onlyGivenNames x; clear_value x)
    | with_reducible (apply Keeps.trans ?_ (State.barCondRefresh_keeps _ _))
    | with_reducible (apply Keeps.trans ?_ (Keeps.foldl (fun fs _ => ?_) _ _))
    | split
    | dsimp only
    | (refine Keeps.make ?_ rfl rfl rfl rfl rfl rfl ?_ ?_ ?_ ?_ ?_ ?_ ?_ ?_ ?_ ?_ ?_ ?_ ?_ ?_ ?_ ?_ ?_ ?_ ?_ ?_ ?_ ?_ ?_ ?_ ?_ ?_ ?_ ?_ ?_ ?_)
    | exact fun _ w => w
    | exact Nat.le_refl _
    | exact fun _ w => tabWf_put w
    | exact fun _ w => tabWf_del w
    | exact fun _ w => tabWf_drop w
    | exact fun _ w => tabWf_filter w
    | exact fun w _ => w
    | exact fun w _ => tabWf_put w
    | exact fun w _ => tabWf_del w
    | exact fun w _ => tabWf_drop w
    | exact fun w _ => tabWf_filter w
    | exact fun _ w => tabWf_map (fun _ => rfl) w
    | exact fun w _ => tabWf_map (fun _ => rfl) w
    | (refine fun _ w => tabWf_map ?_ w; intro e; (try dsimp only); split <;> rfl)
    | (refine fun w _ => tabWf_map ?_ w; intro e; (try dsimp only); split <;> rfl)
    | exact Nat.le_add_right _ _

end Sys2Proof.Machine
end

