-- ==== Sys2Proof/Laws/KeepsAxes.lean ====
section
/-! SUPPORT. What each operation of Machine/Axes keeps, and that every command of it completes. -/

set_option maxRecDepth 4096

namespace Sys2Proof.Machine

theorem State.axFlag_keeps (s : State) (n : Nat) (b : Nat) (cause : Nat) (slice : Nat) : Keeps s (State.axFlag s n b cause slice) := by
  unfold State.axFlag
  repeat' first
    | with_reducible exact Keeps.refl _
    | with_reducible assumption
    | (extract_lets +onlyGivenNames x; have hx : Keeps s x := ?_; (on_goal 1 => clear_value x); (on_goal 2 => (unfold x; clear x)))
    | (extract_lets +onlyGivenNames x; have hx : Keeps s x.2 := ?_; (on_goal 1 => clear_value x); (on_goal 2 => (unfold x; clear x)))
    | (extract_lets +onlyGivenNames x; clear_value x)
    | with_reducible (apply Keeps.trans ?_ (State.setStatus_keeps _ _ _ _ _))
    | with_reducible (apply Keeps.trans ?_ (State.postAt_keeps _ _ _ _ _ _ _))
    | with_reducible (apply Keeps.trans ?_ (Keeps.foldl (fun fs _ => ?_) _ _))
    | split
    | dsimp only

theorem State.axisInvalid_keeps (s : State) (n : Nat) (st : AxState) : Keeps s (State.axisInvalid s n st) := by
  unfold State.axisInvalid
  repeat' first
    | with_reducible exact Keeps.refl _
    | with_reducible assumption
    | (extract_lets +onlyGivenNames x; have hx : Keeps s x := ?_; (on_goal 1 => clear_value x); (on_goal 2 => (unfold x; clear x)))
    | (extract_lets +onlyGivenNames x; have hx : Keeps s x.2 := ?_; (on_goal 1 => clear_value x); (on_goal 2 => (unfold x; clear x)))
    | (extract_lets +onlyGivenNames x; clear_value x)
    | with_reducible (apply Keeps.trans ?_ (State.setAxis_keeps _ _ _))
    | with_reducible (apply Keeps.trans ?_ (State.barsRefresh_keeps _ _))
    | with_reducible (apply Keeps.trans ?_ (State.completeWaitp_keeps _ _ _))
    | with_reducible (apply Keeps.trans ?_ (State.queueCancel_keeps _ _ _ _))
    | with_reducible (apply Keeps.trans ?_ (State.dropUnconfirmed_keeps _ _))
    | with_reducible (apply Keeps.trans ?_ (Keeps.foldl (fun fs _ => ?_) _ _))
    | split
    | dsimp only
    | (refine Keeps.make ?_ rfl rfl rfl rfl rfl rfl ?_ ?_ ?_ ?_ ?_ ?_ ?_ ?_ ?_ ?_ ?_ ?_ ?_ ?_ ?_ ?_ ?_ ?_ ?_ ?_ ?_ ?_ ?_ ?_ ?_ ?_ ?_ ?_ ?_ ?_)
    | exact fun _ w => w
    | exact Nat.le_refl _
    | exact fun _ w => tabWf_put w
    | exact fun _ w => tabWf_del w
    | exact fun _ w => tabWf_drop w
    | exact fun _ w => tabWf_filter w
    | exact fun w _ => w
    | exact fun w _ => tabWf_put w
    | exact fun w _ => tabWf_del w
    | exact fun w _ => tabWf_drop w
    | exact fun w _ => tabWf_filter w
    | exact fun _ w => tabWf_map (fun _ => rfl) w
    | exact fun w _ => tabWf_map (fun _ => rfl) w
    | (refine fun _ w => tabWf_map ?_ w; intro e; (try dsimp only); split <;> rfl)
    | (refine fun w _ => tabWf_map ?_ w; intro e; (try dsimp only); split <;> rfl)
    | exact Nat.le_add_right _ _

theorem State.axisLost_keeps (s : State) (n : Nat) (cause : Nat) (slice : Nat) : Keeps s (State.axisLost s n cause slice) := by
  unfold State.axisLost
  repeat' first
    | with_reducible exact Keeps.refl _
    | with_reducible assumption
    | (extract_lets +onlyGivenNames x; have hx : Keeps s x := ?_; (on_goal 1 => clear_value x); (on_goal 2 => (unfold x; clear x)))
    | (extract_lets +onlyGivenNames x; have hx : Keeps s x.2 := ?_; (on_goal 1 => clear_value x); (on_goal 2 => (unfold x; clear x)))
    | (extract_lets +onlyGivenNames x; clear_value x)
    | with_reducible (apply Keeps.trans ?_ (State.axFlag_keeps _ _ _ _ _))
    | with_reducible (apply Keeps.trans ?_ (State.axisInvalid_keeps _ _ _))
    | with_reducible (apply Keeps.trans ?_ (Keeps.foldl (fun fs _ => ?_) _ _))
    | split
    | dsimp only

theorem State.axisValid_keeps (s : State) (n : Nat) : Keeps s (State.axisValid s n) := by
  unfold State.axisValid
  repeat' first
    | with_reducible exact Keeps.refl _
    | with_reducible assumption
    | (extract_lets +onlyGivenNames x; have hx : Keeps s x := ?_; (on_goal 1 => clear_value x); (on_goal 2 => (unfold x; clear x)))
    | (extract_lets +onlyGivenNames x; have hx : Keeps s x.2 := ?_; (on_goal 1 => clear_value x); (on_goal 2 => (unfold x; clear x)))
    | (extract_lets +onlyGivenNames x; clear_value x)
    | with_reducible (apply Keeps.trans ?_ (State.setAxis_keeps _ _ _))
    | with_reducible (apply Keeps.trans ?_ (State.axFlag_keeps _ _ _ _ _))
    | with_reducible (apply Keeps.trans ?_ (State.barsRefresh_keeps _ _))
    | with_reducible (apply Keeps.trans ?_ (Keeps.foldl (fun fs _ => ?_) _ _))
    | split
    | dsimp only
    | (refine Keeps.make ?_ rfl rfl rfl rfl rfl rfl ?_ ?_ ?_ ?_ ?_ ?_ ?_ ?_ ?_ ?_ ?_ ?_ ?_ ?_ ?_ ?_ ?_ ?_ ?_ ?_ ?_ ?_ ?_ ?_ ?_ ?_ ?_ ?_ ?_ ?_)
    | exact fun _ w => w
    | exact Nat.le_refl _
    | exact fun _ w => tabWf_put w
    | exact fun _ w => tabWf_del w
    | exact fun _ w => tabWf_drop w
    | exact fun _ w => tabWf_filter w
    | exact fun w _ => w
    | exact fun w _ => tabWf_put w
    | exact fun w _ => tabWf_del w
    | exact fun w _ => tabWf_drop w
    | exact fun w _ => tabWf_filter w
    | exact fun _ w => tabWf_map (fun _ => rfl) w
    | exact fun w _ => tabWf_map (fun _ => rfl) w
    | (refine fun _ w => tabWf_map ?_ w; intro e; (try dsimp only); split <;> rfl)
    | (refine fun w _ => tabWf_map ?_ w; intro e; (try dsimp only); split <;> rfl)
    | exact Nat.le_add_right _ _

theorem State.axisLull_keeps (s : State) (n : Nat) (cause : Nat) : Keeps s (State.axisLull s n cause) := by
  unfold State.axisLull
  repeat' first
    | with_reducible exact Keeps.refl _
    | with_reducible assumption
    | (extract_lets +onlyGivenNames x; have hx : Keeps s x := ?_; (on_goal 1 => clear_value x); (on_goal 2 => (unfold x; clear x)))
    | (extract_lets +onlyGivenNames x; have hx : Keeps s x.2 := ?_; (on_goal 1 => clear_value x); (on_goal 2 => (unfold x; clear x)))
    | (extract_lets +onlyGivenNames x; clear_value x)
    | with_reducible (apply Keeps.trans ?_ (State.setAxis_keeps _ _ _))
    | with_reducible (apply Keeps.trans ?_ (State.axFlag_keeps _ _ _ _ _))
    | with_reducible (apply Keeps.trans ?_ (State.completeWaitp_keeps _ _ _))
    | with_reducible (apply Keeps.trans ?_ (State.dropUnconfirmed_keeps _ _))
    | with_reducible (apply Keeps.trans ?_ (Keeps.foldl (fun fs _ => ?_) _ _))
    | split
    | dsimp only
    | (refine Keeps.make ?_ rfl rfl rfl rfl rfl rfl ?_ ?_ ?_ ?_ ?_ ?_ ?_ ?_ ?_ ?_ ?_ ?_ ?_ ?_ ?_ ?_ ?_ ?_ ?_ ?_ ?_ ?_ ?_ ?_ ?_ ?_ ?_ ?_ ?_ ?_)
    | exact fun _ w => w
    | exact Nat.le_refl _
    | exact fun _ w => tabWf_put w
    | exact fun _ w => tabWf_del w
    | exact fun _ w => tabWf_drop w
    | exact fun _ w => tabWf_filter w
    | exact fun w _ => w
    | exact fun w _ => tabWf_put w
    | exact fun w _ => tabWf_del w
    | exact fun w _ => tabWf_drop w
    | exact fun w _ => tabWf_filter w
    | exact fun _ w => tabWf_map (fun _ => rfl) w
    | exact fun w _ => tabWf_map (fun _ => rfl) w
    | (refine fun _ w => tabWf_map ?_ w; intro e; (try dsimp only); split <;> rfl)
    | (refine fun w _ => tabWf_map ?_ w; intro e; (try dsimp only); split <;> rfl)
    | exact Nat.le_add_right _ _

theorem State.axisRelock_keeps (s : State) (n : Nat) : Keeps s (State.axisRelock s n) := by
  unfold State.axisRelock
  repeat' first
    | with_reducible exact Keeps.refl _
    | with_reducible assumption
    | (extract_lets +onlyGivenNames x; have hx : Keeps s x := ?_; (on_goal 1 => clear_value x); (on_goal 2 => (unfold x; clear x)))
    | (extract_lets +onlyGivenNames x; have hx : Keeps s x.2 := ?_; (on_goal 1 => clear_value x); (on_goal 2 => (unfold x; clear x)))
    | (extract_lets +onlyGivenNames x; clear_value x)
    | with_reducible (apply Keeps.trans ?_ (State.axisLull_keeps _ _ _))
    | with_reducible (apply Keeps.trans ?_ (State.setAxis_keeps _ _ _))
    | with_reducible (apply Keeps.trans ?_ (Keeps.foldl (fun fs _ => ?_) _ _))
    | split
    | dsimp only
    | (refine Keeps.make ?_ rfl rfl rfl rfl rfl rfl ?_ ?_ ?_ ?_ ?_ ?_ ?_ ?_ ?_ ?_ ?_ ?_ ?_ ?_ ?_ ?_ ?_ ?_ ?_ ?_ ?_ ?_ ?_ ?_ ?_ ?_ ?_ ?_ ?_ ?_)
    | exact fun _ w => w
    | exact Nat.le_refl _
    | exact fun _ w => tabWf_put w
    | exact fun _ w => tabWf_del w
    | exact fun _ w => tabWf_drop w
    | exact fun _ w => tabWf_filter w
    | exact fun w _ => w
    | exact fun w _ => tabWf_put w
    | exact fun w _ => tabWf_del w
    | exact fun w _ => tabWf_drop w
    | exact fun w _ => tabWf_filter w
    | exact fun _ w => tabWf_map (fun _ => rfl) w
    | exact fun w _ => tabWf_map (fun _ => rfl) w
    | (refine fun _ w => tabWf_map ?_ w; intro e; (try dsimp only); split <;> rfl)
    | (refine fun w _ => tabWf_map ?_ w; intro e; (try dsimp only); split <;> rfl)
    | exact Nat.le_add_right _ _

theorem State.eoFollow_keeps (s : State) (n : Nat) (d : Int) : Keeps s (State.eoFollow s n d) := by
  unfold State.eoFollow
  repeat' first
    | with_reducible exact Keeps.refl _
    | with_reducible assumption
    | (extract_lets +onlyGivenNames x; have hx : Keeps fs x := ?_; (on_goal 1 => clear_value x); (on_goal 2 => (unfold x; clear x)))
    | (extract_lets +onlyGivenNames x; have hx : Keeps fs x.2 := ?_; (on_goal 1 => clear_value x); (on_goal 2 => (unfold x; clear x)))
    | (extract_lets +onlyGivenNames x; have hx : Keeps s x := ?_; (on_goal 1 => clear_value x); (on_goal 2 => (unfold x; clear x)))
    | (extract_lets +onlyGivenNames x; have hx : Keeps s x.2 := ?_; (on_goal 1 => clear_value x); (on_goal 2 => (unfold x; clear x)))
    | (extract_lets +onlyGivenNames x; clear_value x)
    | with_reducible (apply Keeps.trans ?_ (State.postAt_keeps _ _ _ _ _ _ _))
    | with_reducible (apply Keeps.trans ?_ (State.set_keeps _ _ _))
    | with_reducible (apply Keeps.trans ?_ (Keeps.foldl (fun fs _ => ?_) _ _))
    | split
    | dsimp only
    | (refine Keeps.make ?_ rfl rfl rfl rfl rfl rfl ?_ ?_ ?_ ?_ ?_ ?_ ?_ ?_ ?_ ?_ ?_ ?_ ?_ ?_ ?_ ?_ ?_ ?_ ?_ ?_ ?_ ?_ ?_ ?_ ?_ ?_ ?_ ?_ ?_ ?_)
    | exact fun _ w => w
    | exact Nat.le_refl _
    | exact fun _ w => tabWf_put w
    | exact fun _ w => tabWf_del w
    | exact fun _ w => tabWf_drop w
    | exact fun _ w => tabWf_filter w
    | exact fun w _ => w
    | exact fun w _ => tabWf_put w
    | exact fun w _ => tabWf_del w
    | exact fun w _ => tabWf_drop w
    | exact fun w _ => tabWf_filter w
    | exact fun _ w => tabWf_map (fun _ => rfl) w
    | exact fun w _ => tabWf_map (fun _ => rfl) w
    | (refine fun _ w => tabWf_map ?_ w; intro e; (try dsimp only); split <;> rfl)
    | (refine fun w _ => tabWf_map ?_ w; intro e; (try dsimp only); split <;> rfl)
    | exact Nat.le_add_right _ _

theorem State.wrapCount_keeps (s : State) (n : Nat) (old : Sys2Proof.W32) (d : Int) : Keeps s (State.wrapCount s n old d) := by
  unfold State.wrapCount
  repeat' first
    | with_reducible exact Keeps.refl _
    | with_reducible assumption
    | (extract_lets +onlyGivenNames x; have hx : Keeps s x := ?_; (on_goal 1 => clear_value x); (on_goal 2 => (unfold x; clear x)))
    | (extract_lets +onlyGivenNames x; have hx : Keeps s x.2 := ?_; (on_goal 1 => clear_value x); (on_goal 2 => (unfold x; clear x)))
    | (extract_lets +onlyGivenNames x; clear_value x)
    | with_reducible (apply Keeps.trans ?_ (State.axFlag_keeps _ _ _ _ _))
    | with_reducible (apply Keeps.trans ?_ (State.setAxis_keeps _ _ _))
    | with_reducible (apply Keeps.trans ?_ (Keeps.foldl (fun fs _ => ?_) _ _))
    | split
    | dsimp only
    | (refine Keeps.make ?_ rfl rfl rfl rfl rfl rfl ?_ ?_ ?_ ?_ ?_ ?_ ?_ ?_ ?_ ?_ ?_ ?_ ?_ ?_ ?_ ?_ ?_ ?_ ?_ ?_ ?_ ?_ ?_ ?_ ?_ ?_ ?_ ?_ ?_ ?_)
    | exact fun _ w => w
    | exact Nat.le_refl _
    | exact fun _ w => tabWf_put w
    | exact fun _ w => tabWf_del w
    | exact fun _ w => tabWf_drop w
    | exact fun _ w => tabWf_filter w
    | exact fun w _ => w
    | exact fun w _ => tabWf_put w
    | exact fun w _ => tabWf_del w
    | exact fun w _ => tabWf_drop w
    | exact fun w _ => tabWf_filter w
    | exact fun _ w => tabWf_map (fun _ => rfl) w
    | exact fun w _ => tabWf_map (fun _ => rfl) w
    | (refine fun _ w => tabWf_map ?_ w; intro e; (try dsimp only); split <;> rfl)
    | (refine fun w _ => tabWf_map ?_ w; intro e; (try dsimp only); split <;> rfl)
    | exact Nat.le_add_right _ _

theorem State.updateSkew_keeps (s : State) (n : Nat) : Keeps s (State.updateSkew s n) := by
  unfold State.updateSkew
  repeat' first
    | with_reducible exact Keeps.refl _
    | with_reducible assumption
    | (extract_lets +onlyGivenNames x; have hx : Keeps s x := ?_; (on_goal 1 => clear_value x); (on_goal 2 => (unfold x; clear x)))
    | (extract_lets +onlyGivenNames x; have hx : Keeps s x.2 := ?_; (on_goal 1 => clear_value x); (on_goal 2 => (unfold x; clear x)))
    | (extract_lets +onlyGivenNames x; clear_value x)
    | with_reducible (apply Keeps.trans ?_ (State.setAxis_keeps _ _ _))
    | with_reducible (apply Keeps.trans ?_ (State.axFlag_keeps _ _ _ _ _))
    | with_reducible (apply Keeps.trans ?_ (Keeps.foldl (fun fs _ => ?_) _ _))
    | split
    | dsimp only
    | (refine Keeps.make ?_ rfl rfl rfl rfl rfl rfl ?_ ?_ ?_ ?_ ?_ ?_ ?_ ?_ ?_ ?_ ?_ ?_ ?_ ?_ ?_ ?_ ?_ ?_ ?_ ?_ ?_ ?_ ?_ ?_ ?_ ?_ ?_ ?_ ?_ ?_)
    | exact fun _ w => w
    | exact Nat.le_refl _
    | exact fun _ w => tabWf_put w
    | exact fun _ w => tabWf_del w
    | exact fun _ w => tabWf_drop w
    | exact fun _ w => tabWf_filter w
    | exact fun w _ => w
    | exact fun w _ => tabWf_put w
    | exact fun w _ => tabWf_del w
    | exact fun w _ => tabWf_drop w
    | exact fun w _ => tabWf_filter w
    | exact fun _ w => tabWf_map (fun _ => rfl) w
    | exact fun w _ => tabWf_map (fun _ => rfl) w
    | (refine fun _ w => tabWf_map ?_ w; intro e; (try dsimp only); split <;> rfl)
    | (refine fun w _ => tabWf_map ?_ w; intro e; (try dsimp only); split <;> rfl)
    | exact Nat.le_add_right _ _

theorem State.skewStep_keeps (s : State) (n : Nat) : Keeps s (State.skewStep s n) := by
  unfold State.skewStep
  repeat' first
    | with_reducible exact Keeps.refl _
    | with_reducible assumption
    | (extract_lets +onlyGivenNames x; have hx : Keeps s x := ?_; (on_goal 1 => clear_value x); (on_goal 2 => (unfold x; clear x)))
    | (extract_lets +onlyGivenNames x; have hx : Keeps s x.2 := ?_; (on_goal 1 => clear_value x); (on_goal 2 => (unfold x; clear x)))
    | (extract_lets +onlyGivenNames x; clear_value x)
    | with_reducible (apply Keeps.trans ?_ (State.confirmStrobes_keeps _ _))
    | with_reducible (apply Keeps.trans ?_ (State.updateSkew_keeps _ _))
    | with_reducible (apply Keeps.trans ?_ (Keeps.foldl (fun fs _ => ?_) _ _))
    | split
    | dsimp only

theorem State.declareReversal_keeps (s : State) (n : Nat) (d : Int) (te : Nat) : Keeps s (State.declareReversal s n d te) := by
  unfold State.declareReversal
  repeat' first
    | with_reducible exact Keeps.refl _
    | with_reducible assumption
    | (extract_lets +onlyGivenNames x; have hx : Keeps s x := ?_; (on_goal 1 => clear_value x); (on_goal 2 => (unfold x; clear x)))
    | (extract_lets +onlyGivenNames x; have hx : Keeps s x.2 := ?_; (on_goal 1 => clear_value x); (on_goal 2 => (unfold x; clear x)))
    | (extract_lets +onlyGivenNames x; clear_value x)
    | with_reducible (apply Keeps.trans ?_ (State.wrapCount_keeps _ _ _ _))
    | with_reducible (apply Keeps.trans ?_ (State.setAxis_keeps _ _ _))
    | with_reducible (apply Keeps.trans ?_ (State.dropUnconfirmed_keeps _ _))
    | with_reducible (apply Keeps.trans ?_ (State.updateSkew_keeps _ _))
    | with_reducible (apply Keeps.trans ?_ (State.axFlag_keeps _ _ _ _ _))
    | with_reducible (apply Keeps.trans ?_ (State.bump_keeps _ _))
    | with_reducible (apply Keeps.trans ?_ (State.completeWaitp_keeps _ _ _))
    | with_reducible (apply Keeps.trans ?_ (State.wakePending_keeps _ _))
    | with_reducible (apply Keeps.trans ?_ (State.queueCancel_keeps _ _ _ _))
    | with_reducible (apply Keeps.trans ?_ (Keeps.foldl (fun fs _ => ?_) _ _))
    | split
    | dsimp only
    | (refine Keeps.make ?_ rfl rfl rfl rfl rfl rfl ?_ ?_ ?_ ?_ ?_ ?_ ?_ ?_ ?_ ?_ ?_ ?_ ?_ ?_ ?_ ?_ ?_ ?_ ?_ ?_ ?_ ?_ ?_ ?_ ?_ ?_ ?_ ?_ ?_ ?_)
    | exact fun _ w => w
    | exact Nat.le_refl _
    | exact fun _ w => tabWf_put w
    | exact fun _ w => tabWf_del w
    | exact fun _ w => tabWf_drop w
    | exact fun _ w => tabWf_filter w
    | exact fun w _ => w
    | exact fun w _ => tabWf_put w
    | exact fun w _ => tabWf_del w
    | exact fun w _ => tabWf_drop w
    | exact fun w _ => tabWf_filter w
    | exact fun _ w => tabWf_map (fun _ => rfl) w
    | exact fun w _ => tabWf_map (fun _ => rfl) w
    | (refine fun _ w => tabWf_map ?_ w; intro e; (try dsimp only); split <;> rfl)
    | (refine fun w _ => tabWf_map ?_ w; intro e; (try dsimp only); split <;> rfl)
    | exact Nat.le_add_right _ _

theorem State.countChange_keeps (s : State) (n : Nat) (d0 : Int) (te : Nat) : Keeps s (State.countChange s n d0 te) := by
  unfold State.countChange
  repeat' first
    | with_reducible exact Keeps.refl _
    | with_reducible assumption
    | (extract_lets +onlyGivenNames x; have hx : Keeps s x := ?_; (on_goal 1 => clear_value x); (on_goal 2 => (unfold x; clear x)))
    | (extract_lets +onlyGivenNames x; have hx : Keeps s x.2 := ?_; (on_goal 1 => clear_value x); (on_goal 2 => (unfold x; clear x)))
    | (extract_lets +onlyGivenNames x; clear_value x)
    | with_reducible (apply Keeps.trans ?_ (State.declareReversal_keeps _ _ _ _))
    | with_reducible (apply Keeps.trans ?_ (State.wrapCount_keeps _ _ _ _))
    | with_reducible (apply Keeps.trans ?_ (State.setAxis_keeps _ _ _))
    | with_reducible (apply Keeps.trans ?_ (State.skewStep_keeps _ _))
    | with_reducible (apply Keeps.trans ?_ (State.eoFollow_keeps _ _ _))
    | with_reducible (apply Keeps.trans ?_ (Keeps.foldl (fun fs _ => ?_) _ _))
    | split
    | dsimp only
    | (refine Keeps.make ?_ rfl rfl rfl rfl rfl rfl ?_ ?_ ?_ ?_ ?_ ?_ ?_ ?_ ?_ ?_ ?_ ?_ ?_ ?_ ?_ ?_ ?_ ?_ ?_ ?_ ?_ ?_ ?_ ?_ ?_ ?_ ?_ ?_ ?_ ?_)
    | exact fun _ w => w
    | exact Nat.le_refl _
    | exact fun _ w => tabWf_put w
    | exact fun _ w => tabWf_del w
    | exact fun _ w => tabWf_drop w
    | exact fun _ w => tabWf_filter w
    | exact fun w _ => w
    | exact fun w _ => tabWf_put w
    | exact fun w _ => tabWf_del w
    | exact fun w _ => tabWf_drop w
    | exact fun w _ => tabWf_filter w
    | exact fun _ w => tabWf_map (fun _ => rfl) w
    | exact fun w _ => tabWf_map (fun _ => rfl) w
    | (refine fun _ w => tabWf_map ?_ w; intro e; (try dsimp only); split <;> rfl)
    | (refine fun w _ => tabWf_map ?_ w; intro e; (try dsimp only); split <;> rfl)
    | exact Nat.le_add_right _ _

theorem State.illegalA_keeps (s : State) (n : Nat) (qe : Nat) : Keeps s (State.illegalA s n qe) := by
  unfold State.illegalA
  repeat' first
    | with_reducible exact Keeps.refl _
    | with_reducible assumption
    | (extract_lets +onlyGivenNames x; have hx : Keeps s x := ?_; (on_goal 1 => clear_value x); (on_goal 2 => (unfold x; clear x)))
    | (extract_lets +onlyGivenNames x; have hx : Keeps s x.2 := ?_; (on_goal 1 => clear_value x); (on_goal 2 => (unfold x; clear x)))
    | (extract_lets +onlyGivenNames x; clear_value x)
    | with_reducible (apply Keeps.trans ?_ (State.axFlag_keeps _ _ _ _ _))
    | with_reducible (apply Keeps.trans ?_ (State.bump_keeps _ _))
    | with_reducible (apply Keeps.trans ?_ (State.setAxis_keeps _ _ _))
    | with_reducible (apply Keeps.trans ?_ (State.axisLost_keeps _ _ _ _))
    | with_reducible (apply Keeps.trans ?_ (Keeps.foldl (fun fs _ => ?_) _ _))
    | split
    | dsimp only
    | (refine Keeps.make ?_ rfl rfl rfl rfl rfl rfl ?_ ?_ ?_ ?_ ?_ ?_ ?_ ?_ ?_ ?_ ?_ ?_ ?_ ?_ ?_ ?_ ?_ ?_ ?_ ?_ ?_ ?_ ?_ ?_ ?_ ?_ ?_ ?_ ?_ ?_)
    | exact fun _ w => w
    | exact Nat.le_refl _
    | exact fun _ w => tabWf_put w
    | exact fun _ w => tabWf_del w
    | exact fun _ w => tabWf_drop w
    | exact fun _ w => tabWf_filter w
    | exact fun w _ => w
    | exact fun w _ => tabWf_put w
    | exact fun w _ => tabWf_del w
    | exact fun w _ => tabWf_drop w
    | exact fun w _ => tabWf_filter w
    | exact fun _ w => tabWf_map (fun _ => rfl) w
    | exact fun w _ => tabWf_map (fun _ => rfl) w
    | (refine fun _ w => tabWf_map ?_ w; intro e; (try dsimp only); split <;> rfl)
    | (refine fun w _ => tabWf_map ?_ w; intro e; (try dsimp only); split <;> rfl)
    | exact Nat.le_add_right _ _

theorem State.sideBLost_keeps (s : State) (n : Nat) (qe : Nat) : Keeps s (State.sideBLost s n qe) := by
  unfold State.sideBLost
  repeat' first
    | with_reducible exact Keeps.refl _
    | with_reducible assumption
    | (extract_lets +onlyGivenNames x; have hx : Keeps s x := ?_; (on_goal 1 => clear_value x); (on_goal 2 => (unfold x; clear x)))
    | (extract_lets +onlyGivenNames x; have hx : Keeps s x.2 := ?_; (on_goal 1 => clear_value x); (on_goal 2 => (unfold x; clear x)))
    | (extract_lets +onlyGivenNames x; clear_value x)
    | with_reducible (apply Keeps.trans ?_ (State.axFlag_keeps _ _ _ _ _))
    | with_reducible (apply Keeps.trans ?_ (State.setAxis_keeps _ _ _))
    | with_reducible (apply Keeps.trans ?_ (Keeps.foldl (fun fs _ => ?_) _ _))
    | split
    | dsimp only
    | (refine Keeps.make ?_ rfl rfl rfl rfl rfl rfl ?_ ?_ ?_ ?_ ?_ ?_ ?_ ?_ ?_ ?_ ?_ ?_ ?_ ?_ ?_ ?_ ?_ ?_ ?_ ?_ ?_ ?_ ?_ ?_ ?_ ?_ ?_ ?_ ?_ ?_)
    | exact fun _ w => w
    | exact Nat.le_refl _
    | exact fun _ w => tabWf_put w
    | exact fun _ w => tabWf_del w
    | exact fun _ w => tabWf_drop w
    | exact fun _ w => tabWf_filter w
    | exact fun w _ => w
    | exact fun w _ => tabWf_put w
    | exact fun w _ => tabWf_del w
    | exact fun w _ => tabWf_drop w
    | exact fun w _ => tabWf_filter w
    | exact fun _ w => tabWf_map (fun _ => rfl) w
    | exact fun w _ => tabWf_map (fun _ => rfl) w
    | (refine fun _ w => tabWf_map ?_ w; intro e; (try dsimp only); split <;> rfl)
    | (refine fun w _ => tabWf_map ?_ w; intro e; (try dsimp only); split <;> rfl)
    | exact Nat.le_add_right _ _

theorem State.illegalB_keeps (s : State) (n : Nat) (qe : Nat) : Keeps s (State.illegalB s n qe) := by
  unfold State.illegalB
  repeat' first
    | with_reducible exact Keeps.refl _
    | with_reducible assumption
    | (extract_lets +onlyGivenNames x; have hx : Keeps s x := ?_; (on_goal 1 => clear_value x); (on_goal 2 => (unfold x; clear x)))
    | (extract_lets +onlyGivenNames x; have hx : Keeps s x.2 := ?_; (on_goal 1 => clear_value x); (on_goal 2 => (unfold x; clear x)))
    | (extract_lets +onlyGivenNames x; clear_value x)
    | with_reducible (apply Keeps.trans ?_ (State.setAxis_keeps _ _ _))
    | with_reducible (apply Keeps.trans ?_ (State.sideBLost_keeps _ _ _))
    | with_reducible (apply Keeps.trans ?_ (Keeps.foldl (fun fs _ => ?_) _ _))
    | split
    | dsimp only
    | (refine Keeps.make ?_ rfl rfl rfl rfl rfl rfl ?_ ?_ ?_ ?_ ?_ ?_ ?_ ?_ ?_ ?_ ?_ ?_ ?_ ?_ ?_ ?_ ?_ ?_ ?_ ?_ ?_ ?_ ?_ ?_ ?_ ?_ ?_ ?_ ?_ ?_)
    | exact fun _ w => w
    | exact Nat.le_refl _
    | exact fun _ w => tabWf_put w
    | exact fun _ w => tabWf_del w
    | exact fun _ w => tabWf_drop w
    | exact fun _ w => tabWf_filter w
    | exact fun w _ => w
    | exact fun w _ => tabWf_put w
    | exact fun w _ => tabWf_del w
    | exact fun w _ => tabWf_drop w
    | exact fun w _ => tabWf_filter w
    | exact fun _ w => tabWf_map (fun _ => rfl) w
    | exact fun w _ => tabWf_map (fun _ => rfl) w
    | (refine fun _ w => tabWf_map ?_ w; intro e; (try dsimp only); split <;> rfl)
    | (refine fun w _ => tabWf_map ?_ w; intro e; (try dsimp only); split <;> rfl)
    | exact Nat.le_add_right _ _

theorem State.sideBChange_keeps (s : State) (n : Nat) (d0 : Int) (te : Nat) : Keeps s (State.sideBChange s n d0 te) := by
  unfold State.sideBChange
  repeat' first
    | with_reducible exact Keeps.refl _
    | with_reducible assumption
    | (extract_lets +onlyGivenNames x; have hx : Keeps s x := ?_; (on_goal 1 => clear_value x); (on_goal 2 => (unfold x; clear x)))
    | (extract_lets +onlyGivenNames x; have hx : Keeps s x.2 := ?_; (on_goal 1 => clear_value x); (on_goal 2 => (unfold x; clear x)))
    | (extract_lets +onlyGivenNames x; clear_value x)
    | with_reducible (apply Keeps.trans ?_ (State.skewStep_keeps _ _))
    | with_reducible (apply Keeps.trans ?_ (State.setAxis_keeps _ _ _))
    | with_reducible (apply Keeps.trans ?_ (Keeps.foldl (fun fs _ => ?_) _ _))
    | split
    | dsimp only
    | (refine Keeps.make ?_ rfl rfl rfl rfl rfl rfl ?_ ?_ ?_ ?_ ?_ ?_ ?_ ?_ ?_ ?_ ?_ ?_ ?_ ?_ ?_ ?_ ?_ ?_ ?_ ?_ ?_ ?_ ?_ ?_ ?_ ?_ ?_ ?_ ?_ ?_)
    | exact fun _ w => w
    | exact Nat.le_refl _
    | exact fun _ w => tabWf_put w
    | exact fun _ w => tabWf_del w
    | exact fun _ w => tabWf_drop w
    | exact fun _ w => tabWf_filter w
    | exact fun w _ => w
    | exact fun w _ => tabWf_put w
    | exact fun w _ => tabWf_del w
    | exact fun w _ => tabWf_drop w
    | exact fun w _ => tabWf_filter w
    | exact fun _ w => tabWf_map (fun _ => rfl) w
    | exact fun w _ => tabWf_map (fun _ => rfl) w
    | (refine fun _ w => tabWf_map ?_ w; intro e; (try dsimp only); split <;> rfl)
    | (refine fun w _ => tabWf_map ?_ w; intro e; (try dsimp only); split <;> rfl)
    | exact Nat.le_add_right _ _

theorem State.quadOn_keeps (s : State) (qe : Nat) (st : Option Int) (te : Nat) (n : Nat) : Keeps s (State.quadOn s qe st te n) := by
  unfold State.quadOn
  repeat' first
    | with_reducible exact Keeps.refl _
    | with_reducible assumption
    | (extract_lets +onlyGivenNames x; have hx : Keeps s x := ?_; (on_goal 1 => clear_value x); (on_goal 2 => (unfold x; clear x)))
    | (extract_lets +onlyGivenNames x; have hx : Keeps s x.2 := ?_; (on_goal 1 => clear_value x); (on_goal 2 => (unfold x; clear x)))
    | (extract_lets +onlyGivenNames x; clear_value x)
    | with_reducible (apply Keeps.trans ?_ (State.countChange_keeps _ _ _ _))
    | with_reducible (apply Keeps.trans ?_ (State.illegalA_keeps _ _ _))
    | with_reducible (apply Keeps.trans ?_ (State.sideBChange_keeps _ _ _ _))
    | with_reducible (apply Keeps.trans ?_ (State.illegalB_keeps _ _ _))
    | with_reducible (apply Keeps.trans ?_ (Keeps.foldl (fun fs _ => ?_) _ _))
    | split
    | dsimp only

theorem State.quadEdge_keeps (s : State) (qe : Nat) (a : Bool) (b : Bool) : Keeps s (State.quadEdge s qe a b) := by
  unfold State.quadEdge
  repeat' first
    | with_reducible exact Keeps.refl _
    | with_reducible assumption
    | (extract_lets +onlyGivenNames x; have hx : Keeps fs x := ?_; (on_goal 1 => clear_value x); (on_goal 2 => (unfold x; clear x)))
    | (extract_lets +onlyGivenNames x; have hx : Keeps fs x.2 := ?_; (on_goal 1 => clear_value x); (on_goal 2 => (unfold x; clear x)))
    | (extract_lets +onlyGivenNames x; have hx : Keeps s x := ?_; (on_goal 1 => clear_value x); (on_goal 2 => (unfold x; clear x)))
    | (extract_lets +onlyGivenNames x; have hx : Keeps s x.2 := ?_; (on_goal 1 => clear_value x); (on_goal 2 => (unfold x; clear x)))
    | (extract_lets +onlyGivenNames x; clear_value x)
    | with_reducible (apply Keeps.trans ?_ (State.setBit_keeps _ _ _ _))
    | with_reducible (apply Keeps.trans ?_ (State.quadOn_keeps _ _ _ _ _))
    | with_reducible (apply Keeps.trans ?_ (Keeps.foldl (fun fs _ => ?_) _ _))
    | split
    | dsimp only

theorem State.loadPosition_keeps (s : State) (n : Nat) (v : Sys2Proof.W32) : Keeps s (State.loadPosition s n v).2 := by
  unfold State.loadPosition
  repeat' first
    | with_reducible exact Keeps.refl _
    | with_reducible assumption
    | (extract_lets +onlyGivenNames x; have hx : Keeps s x := ?_; (on_goal 1 => clear_value x); (on_goal 2 => (unfold x; clear x)))
    | (extract_lets +onlyGivenNames x; have hx : Keeps s x.2 := ?_; (on_goal 1 => clear_value x); (on_goal 2 => (unfold x; clear x)))
    | (extract_lets +onlyGivenNames x; clear_value x)
    | with_reducible (apply Keeps.trans ?_ (State.axFlag_keeps _ _ _ _ _))
    | with_reducible (apply Keeps.trans ?_ (State.dropUnconfirmed_keeps _ _))
    | with_reducible (apply Keeps.trans ?_ (State.queueCancel_keeps _ _ _ _))
    | with_reducible (apply Keeps.trans ?_ (State.setAxis_keeps _ _ _))
    | with_reducible (apply Keeps.trans ?_ (Keeps.foldl (fun fs _ => ?_) _ _))
    | split
    | dsimp only
    | (refine Keeps.make ?_ rfl rfl rfl rfl rfl rfl ?_ ?_ ?_ ?_ ?_ ?_ ?_ ?_ ?_ ?_ ?_ ?_ ?_ ?_ ?_ ?_ ?_ ?_ ?_ ?_ ?_ ?_ ?_ ?_ ?_ ?_ ?_ ?_ ?_ ?_)
    | exact fun _ w => w
    | exact Nat.le_refl _
    | exact fun _ w => tabWf_put w
    | exact fun _ w => tabWf_del w
    | exact fun _ w => tabWf_drop w
    | exact fun _ w => tabWf_filter w
    | exact fun w _ => w
    | exact fun w _ => tabWf_put w
    | exact fun w _ => tabWf_del w
    | exact fun w _ => tabWf_drop w
    | exact fun w _ => tabWf_filter w
    | exact fun _ w => tabWf_map (fun _ => rfl) w
    | exact fun w _ => tabWf_map (fun _ => rfl) w
    | (refine fun _ w => tabWf_map ?_ w; intro e; (try dsimp only); split <;> rfl)
    | (refine fun w _ => tabWf_map ?_ w; intro e; (try dsimp only); split <;> rfl)
    | exact Nat.le_add_right _ _

theorem State.loadPosition_keeps_eq {s : State} {n : Nat} {v : Sys2Proof.W32} {val out} (h : State.loadPosition s n v = (val, out)) : Keeps s out := by
  have k := State.loadPosition_keeps s n v
  rw [h] at k
  exact k

theorem State.indexOn_keeps (s : State) (qe : Nat) (n : Nat) : Keeps s (State.indexOn s qe n) := by
  unfold State.indexOn
  repeat' first
    | with_reducible exact Keeps.refl _
    | with_reducible assumption
    | (extract_lets +onlyGivenNames x; have hx : Keeps s x := ?_; (on_goal 1 => clear_value x); (on_goal 2 => (unfold x; clear x)))
    | (extract_lets +onlyGivenNames x; have hx : Keeps s x.2 := ?_; (on_goal 1 => clear_value x); (on_goal 2 => (unfold x; clear x)))
    | (extract_lets +onlyGivenNames x; clear_value x)
    | with_reducible (apply Keeps.trans ?_ (State.axFlag_keeps _ _ _ _ _))
    | with_reducible (apply Keeps.trans ?_ (State.setAxis_keeps _ _ _))
    | with_reducible (apply Keeps.trans ?_ (State.loadPosition_keeps _ _ _))
    | (refine Keeps.trans ?_ (State.loadPosition_keeps_eq (by assumption)))
    | with_reducible (apply Keeps.trans ?_ (State.set_keeps _ _ _))
    | with_reducible (apply Keeps.trans ?_ (Keeps.foldl (fun fs _ => ?_) _ _))
    | split
    | dsimp only
    | (refine Keeps.make ?_ rfl rfl rfl rfl rfl rfl ?_ ?_ ?_ ?_ ?_ ?_ ?_ ?_ ?_ ?_ ?_ ?_ ?_ ?_ ?_ ?_ ?_ ?_ ?_ ?_ ?_ ?_ ?_ ?_ ?_ ?_ ?_ ?_ ?_ ?_)
    | exact fun _ w => w
    | exact Nat.le_refl _
    | exact fun _ w => tabWf_put w
    | exact fun _ w => tabWf_del w
    | exact fun _ w => tabWf_drop w
    | exact fun _ w => tabWf_filter w
    | exact fun w _ => w
    | exact fun w _ => tabWf_put w
    | exact fun w _ => tabWf_del w
    | exact fun w _ => tabWf_drop w
    | exact fun w _ => tabWf_filter w
    | exact fun _ w => tabWf_map (fun _ => rfl) w
    | exact fun w _ => tabWf_map (fun _ => rfl) w
    | (refine fun _ w => tabWf_map ?_ w; intro e; (try dsimp only); split <;> rfl)
    | (refine fun w _ => tabWf_map ?_ w; intro e; (try dsimp only); split <;> rfl)
    | exact Nat.le_add_right _ _

theorem State.zIndex_keeps (s : State) (qe : Nat) (level : Bool) : Keeps s (State.zIndex s qe level) := by
  unfold State.zIndex
  repeat' first
    | with_reducible exact Keeps.refl _
    | with_reducible assumption
    | (extract_lets +onlyGivenNames x; have hx : Keeps fs x := ?_; (on_goal 1 => clear_value x); (on_goal 2 => (unfold x; clear x)))
    | (extract_lets +onlyGivenNames x; have hx : Keeps fs x.2 := ?_; (on_goal 1 => clear_value x); (on_goal 2 => (unfold x; clear x)))
    | (extract_lets +onlyGivenNames x; have hx : Keeps s x := ?_; (on_goal 1 => clear_value x); (on_goal 2 => (unfold x; clear x)))
    | (extract_lets +onlyGivenNames x; have hx : Keeps s x.2 := ?_; (on_goal 1 => clear_value x); (on_goal 2 => (unfold x; clear x)))
    | (extract_lets +onlyGivenNames x; clear_value x)
    | with_reducible (apply Keeps.trans ?_ (State.setBit_keeps _ _ _ _))
    | with_reducible (apply Keeps.trans ?_ (State.indexOn_keeps _ _ _))
    | with_reducible (apply Keeps.trans ?_ (Keeps.foldl (fun fs _ => ?_) _ _))
    | split
    | dsimp only

theorem State.zctlWrite_keeps (s : State) (n : Nat) (v : Sys2Proof.W32) : Keeps s (State.zctlWrite s n v) := by
  unfold State.zctlWrite
  repeat' first
    | with_reducible exact Keeps.refl _
    | with_reducible assumption
    | (extract_lets +onlyGivenNames x; have hx : Keeps s x := ?_; (on_goal 1 => clear_value x); (on_goal 2 => (unfold x; clear x)))
    | (extract_lets +onlyGivenNames x; have hx : Keeps s x.2 := ?_; (on_goal 1 => clear_value x); (on_goal 2 => (unfold x; clear x)))
    | (extract_lets +onlyGivenNames x; clear_value x)
    | with_reducible (apply Keeps.trans ?_ (State.wr_keeps _ _ _))
    | with_reducible (apply Keeps.trans ?_ (Keeps.foldl (fun fs _ => ?_) _ _))
    | split
    | dsimp only

theorem State.enableAxis_keeps (s : State) (n : Nat) : Keeps s (State.enableAxis s n) := by
  unfold State.enableAxis
  repeat' first
    | with_reducible exact Keeps.refl _
    | with_reducible assumption
    | (extract_lets +onlyGivenNames x; have hx : Keeps s x := ?_; (on_goal 1 => clear_value x); (on_goal 2 => (unfold x; clear x)))
    | (extract_lets +onlyGivenNames x; have hx : Keeps s x.2 := ?_; (on_goal 1 => clear_value x); (on_goal 2 => (unfold x; clear x)))
    | (extract_lets +onlyGivenNames x; clear_value x)
    | with_reducible (apply Keeps.trans ?_ (State.wr_keeps _ _ _))
    | with_reducible (apply Keeps.trans ?_ (State.barsRefresh_keeps _ _))
    | with_reducible (apply Keeps.trans ?_ (State.setAxis_keeps _ _ _))
    | with_reducible (apply Keeps.trans ?_ (State.axisValid_keeps _ _))
    | with_reducible (apply Keeps.trans ?_ (State.sideBLost_keeps _ _ _))
    | with_reducible (apply Keeps.trans ?_ (Keeps.foldl (fun fs _ => ?_) _ _))
    | split
    | dsimp only
    | (refine Keeps.make ?_ rfl rfl rfl rfl rfl rfl ?_ ?_ ?_ ?_ ?_ ?_ ?_ ?_ ?_ ?_ ?_ ?_ ?_ ?_ ?_ ?_ ?_ ?_ ?_ ?_ ?_ ?_ ?_ ?_ ?_ ?_ ?_ ?_ ?_ ?_)
    | exact fun _ w => w
    | exact Nat.le_refl _
    | exact fun _ w => tabWf_put w
    | exact fun _ w => tabWf_del w
    | exact fun _ w => tabWf_drop w
    | exact fun _ w => tabWf_filter w
    | exact fun w _ => w
    | exact fun w _ => tabWf_put w
    | exact fun w _ => tabWf_del w
    | exact fun w _ => tabWf_drop w
    | exact fun w _ => tabWf_filter w
    | exact fun _ w => tabWf_map (fun _ => rfl) w
    | exact fun w _ => tabWf_map (fun _ => rfl) w
    | (refine fun _ w => tabWf_map ?_ w; intro e; (try dsimp only); split <;> rfl)
    | (refine fun w _ => tabWf_map ?_ w; intro e; (try dsimp only); split <;> rfl)
    | exact Nat.le_add_right _ _

theorem State.axisCfgWrite_keeps (s : State) (n : Nat) (v0 : Sys2Proof.W32) : Keeps s (State.axisCfgWrite s n v0) := by
  unfold State.axisCfgWrite
  repeat' first
    | with_reducible exact Keeps.refl _
    | with_reducible assumption
    | (extract_lets +onlyGivenNames x; have hx : Keeps s x := ?_; (on_goal 1 => clear_value x); (on_goal 2 => (unfold x; clear x)))
    | (extract_lets +onlyGivenNames x; have hx : Keeps s x.2 := ?_; (on_goal 1 => clear_value x); (on_goal 2 => (unfold x; clear x)))
    | (extract_lets +onlyGivenNames x; clear_value x)
    | with_reducible (apply Keeps.trans ?_ (State.axFlag_keeps _ _ _ _ _))
    | with_reducible (apply Keeps.trans ?_ (State.wr_keeps _ _ _))
    | with_reducible (apply Keeps.trans ?_ (State.enableAxis_keeps _ _))
    | with_reducible (apply Keeps.trans ?_ (State.axisInvalid_keeps _ _ _))
    | with_reducible (apply Keeps.trans ?_ (Keeps.foldl (fun fs _ => ?_) _ _))
    | split
    | dsimp only

theorem State.lullDeclared_keeps (s : State) (n : Nat) (sideB : Bool) : Keeps s (State.lullDeclared s n sideB) := by
  unfold State.lullDeclared
  repeat' first
    | with_reducible exact Keeps.refl _
    | with_reducible assumption
    | (extract_lets +onlyGivenNames x; have hx : Keeps s x := ?_; (on_goal 1 => clear_value x); (on_goal 2 => (unfold x; clear x)))
    | (extract_lets +onlyGivenNames x; have hx : Keeps s x.2 := ?_; (on_goal 1 => clear_value x); (on_goal 2 => (unfold x; clear x)))
    | (extract_lets +onlyGivenNames x; clear_value x)
    | with_reducible (apply Keeps.trans ?_ (State.skewStep_keeps _ _))
    | with_reducible (apply Keeps.trans ?_ (State.setAxis_keeps _ _ _))
    | with_reducible (apply Keeps.trans ?_ (State.axisLull_keeps _ _ _))
    | with_reducible (apply Keeps.trans ?_ (Keeps.foldl (fun fs _ => ?_) _ _))
    | split
    | dsimp only
    | (refine Keeps.make ?_ rfl rfl rfl rfl rfl rfl ?_ ?_ ?_ ?_ ?_ ?_ ?_ ?_ ?_ ?_ ?_ ?_ ?_ ?_ ?_ ?_ ?_ ?_ ?_ ?_ ?_ ?_ ?_ ?_ ?_ ?_ ?_ ?_ ?_ ?_)
    | exact fun _ w => w
    | exact Nat.le_refl _
    | exact fun _ w => tabWf_put w
    | exact fun _ w => tabWf_del w
    | exact fun _ w => tabWf_drop w
    | exact fun _ w => tabWf_filter w
    | exact fun w _ => w
    | exact fun w _ => tabWf_put w
    | exact fun w _ => tabWf_del w
    | exact fun w _ => tabWf_drop w
    | exact fun w _ => tabWf_filter w
    | exact fun _ w => tabWf_map (fun _ => rfl) w
    | exact fun w _ => tabWf_map (fun _ => rfl) w
    | (refine fun _ w => tabWf_map ?_ w; intro e; (try dsimp only); split <;> rfl)
    | (refine fun w _ => tabWf_map ?_ w; intro e; (try dsimp only); split <;> rfl)
    | exact Nat.le_add_right _ _

theorem State.frameFails_keeps (s : State) (n : Nat) (statBit : Nat) (cause : Nat) : Keeps s (State.frameFails s n statBit cause) := by
  unfold State.frameFails
  repeat' first
    | with_reducible exact Keeps.refl _
    | with_reducible assumption
    | (extract_lets +onlyGivenNames x; have hx : Keeps fs x := ?_; (on_goal 1 => clear_value x); (on_goal 2 => (unfold x; clear x)))
    | (extract_lets +onlyGivenNames x; have hx : Keeps fs x.2 := ?_; (on_goal 1 => clear_value x); (on_goal 2 => (unfold x; clear x)))
    | (extract_lets +onlyGivenNames x; have hx : Keeps s x := ?_; (on_goal 1 => clear_value x); (on_goal 2 => (unfold x; clear x)))
    | (extract_lets +onlyGivenNames x; have hx : Keeps s x.2 := ?_; (on_goal 1 => clear_value x); (on_goal 2 => (unfold x; clear x)))
    | (extract_lets +onlyGivenNames x; clear_value x)
    | with_reducible (apply Keeps.trans ?_ (State.bump_keeps _ _))
    | with_reducible (apply Keeps.trans ?_ (State.setBit_keeps _ _ _ _))
    | with_reducible (apply Keeps.trans ?_ (State.axFlag_keeps _ _ _ _ _))
    | with_reducible (apply Keeps.trans ?_ (State.axisLost_keeps _ _ _ _))
    | with_reducible (apply Keeps.trans ?_ (Keeps.foldl (fun fs _ => ?_) _ _))
    | split
    | dsimp only
    | (refine Keeps.make ?_ rfl rfl rfl rfl rfl rfl ?_ ?_ ?_ ?_ ?_ ?_ ?_ ?_ ?_ ?_ ?_ ?_ ?_ ?_ ?_ ?_ ?_ ?_ ?_ ?_ ?_ ?_ ?_ ?_ ?_ ?_ ?_ ?_ ?_ ?_)
    | exact fun _ w => w
    | exact Nat.le_refl _
    | exact fun _ w => tabWf_put w
    | exact fun _ w => tabWf_del w
    | exact fun _ w => tabWf_drop w
    | exact fun _ w => tabWf_filter w
    | exact fun w _ => w
    | exact fun w _ => tabWf_put w
    | exact fun w _ => tabWf_del w
    | exact fun w _ => tabWf_drop w
    | exact fun w _ => tabWf_filter w
    | exact fun _ w => tabWf_map (fun _ => rfl) w
    | exact fun w _ => tabWf_map (fun _ => rfl) w
    | (refine fun _ w => tabWf_map ?_ w; intro e; (try dsimp only); split <;> rfl)
    | (refine fun w _ => tabWf_map ?_ w; intro e; (try dsimp only); split <;> rfl)
    | exact Nat.le_add_right _ _

theorem State.frameStart_keeps (s : State) (n : Nat) (slo : Bool) : Keeps s (State.frameStart s n slo) := by
  unfold State.frameStart
  repeat' first
    | with_reducible exact Keeps.refl _
    | with_reducible assumption
    | (extract_lets +onlyGivenNames x; have hx : Keeps s x := ?_; (on_goal 1 => clear_value x); (on_goal 2 => (unfold x; clear x)))
    | (extract_lets +onlyGivenNames x; have hx : Keeps s x.2 := ?_; (on_goal 1 => clear_value x); (on_goal 2 => (unfold x; clear x)))
    | (extract_lets +onlyGivenNames x; clear_value x)
    | with_reducible (apply Keeps.trans ?_ (State.set_keeps _ _ _))
    | with_reducible (apply Keeps.trans ?_ (State.frameFails_keeps _ _ _ _))
    | with_reducible (apply Keeps.trans ?_ (Keeps.foldl (fun fs _ => ?_) _ _))
    | split
    | dsimp only
    | (refine Keeps.make ?_ rfl rfl rfl rfl rfl rfl ?_ ?_ ?_ ?_ ?_ ?_ ?_ ?_ ?_ ?_ ?_ ?_ ?_ ?_ ?_ ?_ ?_ ?_ ?_ ?_ ?_ ?_ ?_ ?_ ?_ ?_ ?_ ?_ ?_ ?_)
    | exact fun _ w => w
    | exact Nat.le_refl _
    | exact fun _ w => tabWf_put w
    | exact fun _ w => tabWf_del w
    | exact fun _ w => tabWf_drop w
    | exact fun _ w => tabWf_filter w
    | exact fun w _ => w
    | exact fun w _ => tabWf_put w
    | exact fun w _ => tabWf_del w
    | exact fun w _ => tabWf_drop w
    | exact fun w _ => tabWf_filter w
    | exact fun _ w => tabWf_map (fun _ => rfl) w
    | exact fun w _ => tabWf_map (fun _ => rfl) w
    | (refine fun _ w => tabWf_map ?_ w; intro e; (try dsimp only); split <;> rfl)
    | (refine fun w _ => tabWf_map ?_ w; intro e; (try dsimp only); split <;> rfl)
    | exact Nat.le_add_right _ _

theorem State.frameValue_keeps (s : State) (n : Nat) (raw : Nat) (k : Nat) : Keeps s (State.frameValue s n raw k) := by
  unfold State.frameValue
  repeat' first
    | with_reducible exact Keeps.refl _
    | with_reducible assumption
    | (extract_lets +onlyGivenNames x; have hx : Keeps s x := ?_; (on_goal 1 => clear_value x); (on_goal 2 => (unfold x; clear x)))
    | (extract_lets +onlyGivenNames x; have hx : Keeps s x.2 := ?_; (on_goal 1 => clear_value x); (on_goal 2 => (unfold x; clear x)))
    | (extract_lets +onlyGivenNames x; clear_value x)
    | with_reducible (apply Keeps.trans ?_ (State.setAxis_keeps _ _ _))
    | with_reducible (apply Keeps.trans ?_ (State.axisValid_keeps _ _))
    | with_reducible (apply Keeps.trans ?_ (State.countChange_keeps _ _ _ _))
    | with_reducible (apply Keeps.trans ?_ (Keeps.foldl (fun fs _ => ?_) _ _))
    | split
    | dsimp only
    | (refine Keeps.make ?_ rfl rfl rfl rfl rfl rfl ?_ ?_ ?_ ?_ ?_ ?_ ?_ ?_ ?_ ?_ ?_ ?_ ?_ ?_ ?_ ?_ ?_ ?_ ?_ ?_ ?_ ?_ ?_ ?_ ?_ ?_ ?_ ?_ ?_ ?_)
    | exact fun _ w => w
    | exact Nat.le_refl _
    | exact fun _ w => tabWf_put w
    | exact fun _ w => tabWf_del w
    | exact fun _ w => tabWf_drop w
    | exact fun _ w => tabWf_filter w
    | exact fun w _ => w
    | exact fun w _ => tabWf_put w
    | exact fun w _ => tabWf_del w
    | exact fun w _ => tabWf_drop w
    | exact fun w _ => tabWf_filter w
    | exact fun _ w => tabWf_map (fun _ => rfl) w
    | exact fun w _ => tabWf_map (fun _ => rfl) w
    | (refine fun _ w => tabWf_map ?_ w; intro e; (try dsimp only); split <;> rfl)
    | (refine fun w _ => tabWf_map ?_ w; intro e; (try dsimp only); split <;> rfl)
    | exact Nat.le_add_right _ _

theorem State.frameEnd_keeps (s : State) (n : Nat) (f : Sys2Proof.SerialFrame) : Keeps s (State.frameEnd s n f) := by
  unfold State.frameEnd
  repeat' first
    | with_reducible exact Keeps.refl _
    | with_reducible assumption
    | (extract_lets +onlyGivenNames x; have hx : Keeps fs x := ?_; (on_goal 1 => clear_value x); (on_goal 2 => (unfold x; clear x)))
    | (extract_lets +onlyGivenNames x; have hx : Keeps fs x.2 := ?_; (on_goal 1 => clear_value x); (on_goal 2 => (unfold x; clear x)))
    | (extract_lets +onlyGivenNames x; have hx : Keeps s x := ?_; (on_goal 1 => clear_value x); (on_goal 2 => (unfold x; clear x)))
    | (extract_lets +onlyGivenNames x; have hx : Keeps s x.2 := ?_; (on_goal 1 => clear_value x); (on_goal 2 => (unfold x; clear x)))
    | (extract_lets +onlyGivenNames x; clear_value x)
    | with_reducible (apply Keeps.trans ?_ (State.set_keeps _ _ _))
    | with_reducible (apply Keeps.trans ?_ (State.axFlag_keeps _ _ _ _ _))
    | with_reducible (apply Keeps.trans ?_ (State.frameFails_keeps _ _ _ _))
    | with_reducible (apply Keeps.trans ?_ (State.wr_keeps _ _ _))
    | with_reducible (apply Keeps.trans ?_ (State.frameValue_keeps _ _ _ _))
    | with_reducible (apply Keeps.trans ?_ (Keeps.foldl (fun fs _ => ?_) _ _))
    | split
    | dsimp only
    | (refine Keeps.make ?_ rfl rfl rfl rfl rfl rfl ?_ ?_ ?_ ?_ ?_ ?_ ?_ ?_ ?_ ?_ ?_ ?_ ?_ ?_ ?_ ?_ ?_ ?_ ?_ ?_ ?_ ?_ ?_ ?_ ?_ ?_ ?_ ?_ ?_ ?_)
    | exact fun _ w => w
    | exact Nat.le_refl _
    | exact fun _ w => tabWf_put w
    | exact fun _ w => tabWf_del w
    | exact fun _ w => tabWf_drop w
    | exact fun _ w => tabWf_filter w
    | exact fun w _ => w
    | exact fun w _ => tabWf_put w
    | exact fun w _ => tabWf_del w
    | exact fun w _ => tabWf_drop w
    | exact fun w _ => tabWf_filter w
    | exact fun _ w => tabWf_map (fun _ => rfl) w
    | exact fun w _ => tabWf_map (fun _ => rfl) w
    | (refine fun _ w => tabWf_map ?_ w; intro e; (try dsimp only); split <;> rfl)
    | (refine fun w _ => tabWf_map ?_ w; intro e; (try dsimp only); split <;> rfl)
    | exact Nat.le_add_right _ _

theorem State.handover_keeps (s : State) (n : Nat) (rev : Bool) : Keeps s (State.handover s n rev) := by
  unfold State.handover
  repeat' first
    | with_reducible exact Keeps.refl _
    | with_reducible assumption
    | (extract_lets +onlyGivenNames x; have hx : Keeps s x := ?_; (on_goal 1 => clear_value x); (on_goal 2 => (unfold x; clear x)))
    | (extract_lets +onlyGivenNames x; have hx : Keeps s x.2 := ?_; (on_goal 1 => clear_value x); (on_goal 2 => (unfold x; clear x)))
    | (extract_lets +onlyGivenNames x; clear_value x)
    | with_reducible (apply Keeps.trans ?_ (State.setAxis_keeps _ _ _))
    | with_reducible (apply Keeps.trans ?_ (State.countChange_keeps _ _ _ _))
    | with_reducible (apply Keeps.trans ?_ (Keeps.foldl (fun fs _ => ?_) _ _))
    | split
    | dsimp only
    | (refine Keeps.make ?_ rfl rfl rfl rfl rfl rfl ?_ ?_ ?_ ?_ ?_ ?_ ?_ ?_ ?_ ?_ ?_ ?_ ?_ ?_ ?_ ?_ ?_ ?_ ?_ ?_ ?_ ?_ ?_ ?_ ?_ ?_ ?_ ?_ ?_ ?_)
    | exact fun _ w => w
    | exact Nat.le_refl _
    | exact fun _ w => tabWf_put w
    | exact fun _ w => tabWf_del w
    | exact fun _ w => tabWf_drop w
    | exact fun _ w => tabWf_filter w
    | exact fun w _ => w
    | exact fun w _ => tabWf_put w
    | exact fun w _ => tabWf_del w
    | exact fun w _ => tabWf_drop w
    | exact fun w _ => tabWf_filter w
    | exact fun _ w => tabWf_map (fun _ => rfl) w
    | exact fun w _ => tabWf_map (fun _ => rfl) w
    | (refine fun _ w => tabWf_map ?_ w; intro e; (try dsimp only); split <;> rfl)
    | (refine fun w _ => tabWf_map ?_ w; intro e; (try dsimp only); split <;> rfl)
    | exact Nat.le_add_right _ _

theorem State.stepPulse_keeps (s : State) (n : Nat) (rev : Bool) : Keeps s (State.stepPulse s n rev) := by
  unfold State.stepPulse
  repeat' first
    | with_reducible exact Keeps.refl _
    | with_reducible assumption
    | (extract_lets +onlyGivenNames x; have hx : Keeps s x := ?_; (on_goal 1 => clear_value x); (on_goal 2 => (unfold x; clear x)))
    | (extract_lets +onlyGivenNames x; have hx : Keeps s x.2 := ?_; (on_goal 1 => clear_value x); (on_goal 2 => (unfold x; clear x)))
    | (extract_lets +onlyGivenNames x; clear_value x)
    | with_reducible (apply Keeps.trans ?_ (State.setAxis_keeps _ _ _))
    | with_reducible (apply Keeps.trans ?_ (State.bump_keeps _ _))
    | with_reducible (apply Keeps.trans ?_ (State.post_keeps _ _ _ _ _))
    | with_reducible (apply Keeps.trans ?_ (Keeps.foldl (fun fs _ => ?_) _ _))
    | split
    | dsimp only
    | (refine Keeps.make ?_ rfl rfl rfl rfl rfl rfl ?_ ?_ ?_ ?_ ?_ ?_ ?_ ?_ ?_ ?_ ?_ ?_ ?_ ?_ ?_ ?_ ?_ ?_ ?_ ?_ ?_ ?_ ?_ ?_ ?_ ?_ ?_ ?_ ?_ ?_)
    | exact fun _ w => w
    | exact Nat.le_refl _
    | exact fun _ w => tabWf_put w
    | exact fun _ w => tabWf_del w
    | exact fun _ w => tabWf_drop w
    | exact fun _ w => tabWf_filter w
    | exact fun w _ => w
    | exact fun w _ => tabWf_put w
    | exact fun w _ => tabWf_del w
    | exact fun w _ => tabWf_drop w
    | exact fun w _ => tabWf_filter w
    | exact fun _ w => tabWf_map (fun _ => rfl) w
    | exact fun w _ => tabWf_map (fun _ => rfl) w
    | (refine fun _ w => tabWf_map ?_ w; intro e; (try dsimp only); split <;> rfl)
    | (refine fun w _ => tabWf_map ?_ w; intro e; (try dsimp only); split <;> rfl)
    | exact Nat.le_add_right _ _

theorem State.vrateUpdate_keeps (s : State) (n : Nat) : Keeps s (State.vrateUpdate s n) := by
  unfold State.vrateUpdate
  repeat' first
    | with_reducible exact Keeps.refl _
    | with_reducible assumption
    | (extract_lets +onlyGivenNames x; have hx : Keeps s x := ?_; (on_goal 1 => clear_value x); (on_goal 2 => (unfold x; clear x)))
    | (extract_lets +onlyGivenNames x; have hx : Keeps s x.2 := ?_; (on_goal 1 => clear_value x); (on_goal 2 => (unfold x; clear x)))
    | (extract_lets +onlyGivenNames x; clear_value x)
    | with_reducible (apply Keeps.trans ?_ (State.setAxis_keeps _ _ _))
    | with_reducible (apply Keeps.trans ?_ (State.drawn_keeps _))
    | with_reducible (apply Keeps.trans ?_ (Keeps.foldl (fun fs _ => ?_) _ _))
    | split
    | dsimp only
    | (refine Keeps.make ?_ rfl rfl rfl rfl rfl rfl ?_ ?_ ?_ ?_ ?_ ?_ ?_ ?_ ?_ ?_ ?_ ?_ ?_ ?_ ?_ ?_ ?_ ?_ ?_ ?_ ?_ ?_ ?_ ?_ ?_ ?_ ?_ ?_ ?_ ?_)
    | exact fun _ w => w
    | exact Nat.le_refl _
    | exact fun _ w => tabWf_put w
    | exact fun _ w => tabWf_del w
    | exact fun _ w => tabWf_drop w
    | exact fun _ w => tabWf_filter w
    | exact fun w _ => w
    | exact fun w _ => tabWf_put w
    | exact fun w _ => tabWf_del w
    | exact fun w _ => tabWf_drop w
    | exact fun w _ => tabWf_filter w
    | exact fun _ w => tabWf_map (fun _ => rfl) w
    | exact fun w _ => tabWf_map (fun _ => rfl) w
    | (refine fun _ w => tabWf_map ?_ w; intro e; (try dsimp only); split <;> rfl)
    | (refine fun w _ => tabWf_map ?_ w; intro e; (try dsimp only); split <;> rfl)
    | exact Nat.le_add_right _ _

theorem State.virtualCarry_keeps (s : State) (n : Nat) (borrow : Bool) : Keeps s (State.virtualCarry s n borrow) := by
  unfold State.virtualCarry
  repeat' first
    | with_reducible exact Keeps.refl _
    | with_reducible assumption
    | (extract_lets +onlyGivenNames x; have hx : Keeps s x := ?_; (on_goal 1 => clear_value x); (on_goal 2 => (unfold x; clear x)))
    | (extract_lets +onlyGivenNames x; have hx : Keeps s x.2 := ?_; (on_goal 1 => clear_value x); (on_goal 2 => (unfold x; clear x)))
    | (extract_lets +onlyGivenNames x; clear_value x)
    | with_reducible (apply Keeps.trans ?_ (State.countChange_keeps _ _ _ _))
    | with_reducible (apply Keeps.trans ?_ (Keeps.foldl (fun fs _ => ?_) _ _))
    | split
    | dsimp only

theorem State.eoStep_keeps (s : State) (i : Nat) : Keeps s (State.eoStep s i) := by
  unfold State.eoStep
  repeat' first
    | with_reducible exact Keeps.refl _
    | with_reducible assumption
    | (extract_lets +onlyGivenNames x; have hx : Keeps s x := ?_; (on_goal 1 => clear_value x); (on_goal 2 => (unfold x; clear x)))
    | (extract_lets +onlyGivenNames x; have hx : Keeps s x.2 := ?_; (on_goal 1 => clear_value x); (on_goal 2 => (unfold x; clear x)))
    | (extract_lets +onlyGivenNames x; clear_value x)
    | with_reducible (apply Keeps.trans ?_ (State.wr_keeps _ _ _))
    | with_reducible (apply Keeps.trans ?_ (Keeps.foldl (fun fs _ => ?_) _ _))
    | split
    | dsimp only
    | (refine Keeps.make ?_ rfl rfl rfl rfl rfl rfl ?_ ?_ ?_ ?_ ?_ ?_ ?_ ?_ ?_ ?_ ?_ ?_ ?_ ?_ ?_ ?_ ?_ ?_ ?_ ?_ ?_ ?_ ?_ ?_ ?_ ?_ ?_ ?_ ?_ ?_)
    | exact fun _ w => w
    | exact Nat.le_refl _
    | exact fun _ w => tabWf_put w
    | exact fun _ w => tabWf_del w
    | exact fun _ w => tabWf_drop w
    | exact fun _ w => tabWf_filter w
    | exact fun w _ => w
    | exact fun w _ => tabWf_put w
    | exact fun w _ => tabWf_del w
    | exact fun w _ => tabWf_drop w
    | exact fun w _ => tabWf_filter w
    | exact fun _ w => tabWf_map (fun _ => rfl) w
    | exact fun w _ => tabWf_map (fun _ => rfl) w
    | (refine fun _ w => tabWf_map ?_ w; intro e; (try dsimp only); split <;> rfl)
    | (refine fun w _ => tabWf_map ?_ w; intro e; (try dsimp only); split <;> rfl)
    | exact Nat.le_add_right _ _

theorem State.eoRatioWrite_keeps (s : State) (i : Nat) (v : Sys2Proof.W32) : Keeps s (State.eoRatioWrite s i v) := by
  unfold State.eoRatioWrite
  repeat' first
    | with_reducible exact Keeps.refl _
    | with_reducible assumption
    | (extract_lets +onlyGivenNames x; have hx : Keeps s x := ?_; (on_goal 1 => clear_value x); (on_goal 2 => (unfold x; clear x)))
    | (extract_lets +onlyGivenNames x; have hx : Keeps s x.2 := ?_; (on_goal 1 => clear_value x); (on_goal 2 => (unfold x; clear x)))
    | (extract_lets +onlyGivenNames x; clear_value x)
    | with_reducible (apply Keeps.trans ?_ (State.set_keeps _ _ _))
    | with_reducible (apply Keeps.trans ?_ (State.wr_keeps _ _ _))
    | with_reducible (apply Keeps.trans ?_ (Keeps.foldl (fun fs _ => ?_) _ _))
    | split
    | dsimp only

theorem State.eoCfgWrite_keeps (s : State) (i : Nat) (v0 : Sys2Proof.W32) : Keeps s (State.eoCfgWrite s i v0) := by
  unfold State.eoCfgWrite
  repeat' first
    | with_reducible exact Keeps.refl _
    | with_reducible assumption
    | (extract_lets +onlyGivenNames x; have hx : Keeps s x := ?_; (on_goal 1 => clear_value x); (on_goal 2 => (unfold x; clear x)))
    | (extract_lets +onlyGivenNames x; have hx : Keeps s x.2 := ?_; (on_goal 1 => clear_value x); (on_goal 2 => (unfold x; clear x)))
    | (extract_lets +onlyGivenNames x; clear_value x)
    | with_reducible (apply Keeps.trans ?_ (State.set_keeps _ _ _))
    | with_reducible (apply Keeps.trans ?_ (State.wr_keeps _ _ _))
    | with_reducible (apply Keeps.trans ?_ (Keeps.foldl (fun fs _ => ?_) _ _))
    | split
    | dsimp only
    | (refine Keeps.make ?_ rfl rfl rfl rfl rfl rfl ?_ ?_ ?_ ?_ ?_ ?_ ?_ ?_ ?_ ?_ ?_ ?_ ?_ ?_ ?_ ?_ ?_ ?_ ?_ ?_ ?_ ?_ ?_ ?_ ?_ ?_ ?_ ?_ ?_ ?_)
    | exact fun _ w => w
    | exact Nat.le_refl _
    | exact fun _ w => tabWf_put w
    | exact fun _ w => tabWf_del w
    | exact fun _ w => tabWf_drop w
    | exact fun _ w => tabWf_filter w
    | exact fun w _ => w
    | exact fun w _ => tabWf_put w
    | exact fun w _ => tabWf_del w
    | exact fun w _ => tabWf_drop w
    | exact fun w _ => tabWf_filter w
    | exact fun _ w => tabWf_map (fun _ => rfl) w
    | exact fun w _ => tabWf_map (fun _ => rfl) w
    | (refine fun _ w => tabWf_map ?_ w; intro e; (try dsimp only); split <;> rfl)
    | (refine fun w _ => tabWf_map ?_ w; intro e; (try dsimp only); split <;> rfl)
    | exact Nat.le_add_right _ _

theorem State.axisTick_keeps (s : State) (n : Nat) : Keeps s (State.axisTick s n) := by
  unfold State.axisTick
  repeat' first
    | with_reducible exact Keeps.refl _
    | with_reducible assumption
    | (extract_lets +onlyGivenNames x; have hx : Keeps s x := ?_; (on_goal 1 => clear_value x); (on_goal 2 => (unfold x; clear x)))
    | (extract_lets +onlyGivenNames x; have hx : Keeps s x.2 := ?_; (on_goal 1 => clear_value x); (on_goal 2 => (unfold x; clear x)))
    | (extract_lets +onlyGivenNames x; clear_value x)
    | with_reducible (apply Keeps.trans ?_ (State.setAxis_keeps _ _ _))
    | with_reducible (apply Keeps.trans ?_ (State.virtualCarry_keeps _ _ _))
    | with_reducible (apply Keeps.trans ?_ (State.skewStep_keeps _ _))
    | with_reducible (apply Keeps.trans ?_ (Keeps.foldl (fun fs _ => ?_) _ _))
    | split
    | dsimp only
    | (refine Keeps.make ?_ rfl rfl rfl rfl rfl rfl ?_ ?_ ?_ ?_ ?_ ?_ ?_ ?_ ?_ ?_ ?_ ?_ ?_ ?_ ?_ ?_ ?_ ?_ ?_ ?_ ?_ ?_ ?_ ?_ ?_ ?_ ?_ ?_ ?_ ?_)
    | exact fun _ w => w
    | exact Nat.le_refl _
    | exact fun _ w => tabWf_put w
    | exact fun _ w => tabWf_del w
    | exact fun _ w => tabWf_drop w
    | exact fun _ w => tabWf_filter w
    | exact fun w _ => w
    | exact fun w _ => tabWf_put w
    | exact fun w _ => tabWf_del w
    | exact fun w _ => tabWf_drop w
    | exact fun w _ => tabWf_filter w
    | exact fun _ w => tabWf_map (fun _ => rfl) w
    | exact fun w _ => tabWf_map (fun _ => rfl) w
    | (refine fun _ w => tabWf_map ?_ w; intro e; (try dsimp only); split <;> rfl)
    | (refine fun w _ => tabWf_map ?_ w; intro e; (try dsimp only); split <;> rfl)
    | exact Nat.le_add_right _ _

theorem execQuadEdge_runs (qe : Fin 8) (a : Bool) (b : Bool) (s : State) : ∃ t, execQuadEdge qe a b s = .next t ∧ Keeps s t := by
  refine ⟨_, rfl, ?_⟩
  repeat' first
    | with_reducible exact Keeps.refl _
    | with_reducible assumption
    | (extract_lets +onlyGivenNames x; have hx : Keeps s x := ?_; (on_goal 1 => clear_value x); (on_goal 2 => (unfold x; clear x)))
    | (extract_lets +onlyGivenNames x; have hx : Keeps s x.2 := ?_; (on_goal 1 => clear_value x); (on_goal 2 => (unfold x; clear x)))
    | (extract_lets +onlyGivenNames x; clear_value x)
    | with_reducible (apply Keeps.trans ?_ (State.quadEdge_keeps _ _ _ _))
    | with_reducible (apply Keeps.trans ?_ (Keeps.foldl (fun fs _ => ?_) _ _))
    | split
    | dsimp only

theorem execPositionLoad_runs (n : Fin 8) (value : Sys2Proof.W32) (s : State) : ∃ t, execPositionLoad n value s = .next t ∧ Keeps s t := by
  refine ⟨_, rfl, ?_⟩
  repeat' first
    | with_reducible exact Keeps.refl _
    | with_reducible assumption
    | (extract_lets +onlyGivenNames x; have hx : Keeps s x := ?_; (on_goal 1 => clear_value x); (on_goal 2 => (unfold x; clear x)))
    | (extract_lets +onlyGivenNames x; have hx : Keeps s x.2 := ?_; (on_goal 1 => clear_value x); (on_goal 2 => (unfold x; clear x)))
    | (extract_lets +onlyGivenNames x; clear_value x)
    | with_reducible (apply Keeps.trans ?_ (State.loadPosition_keeps _ _ _))
    | (refine Keeps.trans ?_ (State.loadPosition_keeps_eq (by assumption)))
    | with_reducible (apply Keeps.trans ?_ (Keeps.foldl (fun fs _ => ?_) _ _))
    | split
    | dsimp only

theorem execZIndex_runs (qe : Fin 8) (level : Bool) (s : State) : ∃ t, execZIndex qe level s = .next t ∧ Keeps s t := by
  refine ⟨_, rfl, ?_⟩
  repeat' first
    | with_reducible exact Keeps.refl _
    | with_reducible assumption
    | (extract_lets +onlyGivenNames x; have hx : Keeps s x := ?_; (on_goal 1 => clear_value x); (on_goal 2 => (unfold x; clear x)))
    | (extract_lets +onlyGivenNames x; have hx : Keeps s x.2 := ?_; (on_goal 1 => clear_value x); (on_goal 2 => (unfold x; clear x)))
    | (extract_lets +onlyGivenNames x; clear_value x)
    | with_reducible (apply Keeps.trans ?_ (State.zIndex_keeps _ _ _))
    | with_reducible (apply Keeps.trans ?_ (Keeps.foldl (fun fs _ => ?_) _ _))
    | split
    | dsimp only

theorem execZArm_runs (n : Fin 8) (value : Sys2Proof.W32) (s : State) : ∃ t, execZArm n value s = .next t ∧ Keeps s t := by
  refine ⟨_, rfl, ?_⟩
  repeat' first
    | with_reducible exact Keeps.refl _
    | with_reducible assumption
    | (extract_lets +onlyGivenNames x; have hx : Keeps s x := ?_; (on_goal 1 => clear_value x); (on_goal 2 => (unfold x; clear x)))
    | (extract_lets +onlyGivenNames x; have hx : Keeps s x.2 := ?_; (on_goal 1 => clear_value x); (on_goal 2 => (unfold x; clear x)))
    | (extract_lets +onlyGivenNames x; clear_value x)
    | with_reducible (apply Keeps.trans ?_ (State.zctlWrite_keeps _ _ _))
    | with_reducible (apply Keeps.trans ?_ (Keeps.foldl (fun fs _ => ?_) _ _))
    | split
    | dsimp only

theorem execAxisEnable_runs (n : Fin 8) (value : Sys2Proof.W32) (s : State) : ∃ t, execAxisEnable n value s = .next t ∧ Keeps s t := by
  refine ⟨_, rfl, ?_⟩
  repeat' first
    | with_reducible exact Keeps.refl _
    | with_reducible assumption
    | (extract_lets +onlyGivenNames x; have hx : Keeps s x := ?_; (on_goal 1 => clear_value x); (on_goal 2 => (unfold x; clear x)))
    | (extract_lets +onlyGivenNames x; have hx : Keeps s x.2 := ?_; (on_goal 1 => clear_value x); (on_goal 2 => (unfold x; clear x)))
    | (extract_lets +onlyGivenNames x; clear_value x)
    | with_reducible (apply Keeps.trans ?_ (State.axisCfgWrite_keeps _ _ _))
    | with_reducible (apply Keeps.trans ?_ (Keeps.foldl (fun fs _ => ?_) _ _))
    | split
    | dsimp only

theorem execAxisDisable_runs (n : Fin 8) (value : Sys2Proof.W32) (s : State) : ∃ t, execAxisDisable n value s = .next t ∧ Keeps s t := by
  refine ⟨_, rfl, ?_⟩
  repeat' first
    | with_reducible exact Keeps.refl _
    | with_reducible assumption
    | (extract_lets +onlyGivenNames x; have hx : Keeps s x := ?_; (on_goal 1 => clear_value x); (on_goal 2 => (unfold x; clear x)))
    | (extract_lets +onlyGivenNames x; have hx : Keeps s x.2 := ?_; (on_goal 1 => clear_value x); (on_goal 2 => (unfold x; clear x)))
    | (extract_lets +onlyGivenNames x; clear_value x)
    | with_reducible (apply Keeps.trans ?_ (State.axisCfgWrite_keeps _ _ _))
    | with_reducible (apply Keeps.trans ?_ (Keeps.foldl (fun fs _ => ?_) _ _))
    | split
    | dsimp only

theorem execAxisCfgWrite_runs (n : Fin 8) (value : Sys2Proof.W32) (s : State) : ∃ t, execAxisCfgWrite n value s = .next t ∧ Keeps s t := by
  refine ⟨_, rfl, ?_⟩
  repeat' first
    | with_reducible exact Keeps.refl _
    | with_reducible assumption
    | (extract_lets +onlyGivenNames x; have hx : Keeps s x := ?_; (on_goal 1 => clear_value x); (on_goal 2 => (unfold x; clear x)))
    | (extract_lets +onlyGivenNames x; have hx : Keeps s x.2 := ?_; (on_goal 1 => clear_value x); (on_goal 2 => (unfold x; clear x)))
    | (extract_lets +onlyGivenNames x; clear_value x)
    | with_reducible (apply Keeps.trans ?_ (State.axisCfgWrite_keeps _ _ _))
    | with_reducible (apply Keeps.trans ?_ (Keeps.foldl (fun fs _ => ?_) _ _))
    | split
    | dsimp only

theorem execLullDeclared_runs (n : Fin 8) (sideB : Bool) (s : State) : ∃ t, execLullDeclared n sideB s = .next t ∧ Keeps s t := by
  refine ⟨_, rfl, ?_⟩
  repeat' first
    | with_reducible exact Keeps.refl _
    | with_reducible assumption
    | (extract_lets +onlyGivenNames x; have hx : Keeps s x := ?_; (on_goal 1 => clear_value x); (on_goal 2 => (unfold x; clear x)))
    | (extract_lets +onlyGivenNames x; have hx : Keeps s x.2 := ?_; (on_goal 1 => clear_value x); (on_goal 2 => (unfold x; clear x)))
    | (extract_lets +onlyGivenNames x; clear_value x)
    | with_reducible (apply Keeps.trans ?_ (State.lullDeclared_keeps _ _ _))
    | with_reducible (apply Keeps.trans ?_ (Keeps.foldl (fun fs _ => ?_) _ _))
    | split
    | dsimp only

theorem execSeFrameStart_runs (n : Fin 2) (slo : Bool) (s : State) : ∃ t, execSeFrameStart n slo s = .next t ∧ Keeps s t := by
  refine ⟨_, rfl, ?_⟩
  repeat' first
    | with_reducible exact Keeps.refl _
    | with_reducible assumption
    | (extract_lets +onlyGivenNames x; have hx : Keeps s x := ?_; (on_goal 1 => clear_value x); (on_goal 2 => (unfold x; clear x)))
    | (extract_lets +onlyGivenNames x; have hx : Keeps s x.2 := ?_; (on_goal 1 => clear_value x); (on_goal 2 => (unfold x; clear x)))
    | (extract_lets +onlyGivenNames x; clear_value x)
    | with_reducible (apply Keeps.trans ?_ (State.frameStart_keeps _ _ _))
    | with_reducible (apply Keeps.trans ?_ (Keeps.foldl (fun fs _ => ?_) _ _))
    | split
    | dsimp only

theorem execSeFrameEnd_runs (n : Fin 2) (frame : Sys2Proof.SerialFrame) (s : State) : ∃ t, execSeFrameEnd n frame s = .next t ∧ Keeps s t := by
  refine ⟨_, rfl, ?_⟩
  repeat' first
    | with_reducible exact Keeps.refl _
    | with_reducible assumption
    | (extract_lets +onlyGivenNames x; have hx : Keeps s x := ?_; (on_goal 1 => clear_value x); (on_goal 2 => (unfold x; clear x)))
    | (extract_lets +onlyGivenNames x; have hx : Keeps s x.2 := ?_; (on_goal 1 => clear_value x); (on_goal 2 => (unfold x; clear x)))
    | (extract_lets +onlyGivenNames x; clear_value x)
    | with_reducible (apply Keeps.trans ?_ (State.frameEnd_keeps _ _ _))
    | with_reducible (apply Keeps.trans ?_ (Keeps.foldl (fun fs _ => ?_) _ _))
    | split
    | dsimp only

theorem execSeTimeout_runs (n : Fin 2) (s : State) : ∃ t, execSeTimeout n s = .next t ∧ Keeps s t := by
  refine ⟨_, rfl, ?_⟩
  repeat' first
    | with_reducible exact Keeps.refl _
    | with_reducible assumption
    | (extract_lets +onlyGivenNames x; have hx : Keeps s x := ?_; (on_goal 1 => clear_value x); (on_goal 2 => (unfold x; clear x)))
    | (extract_lets +onlyGivenNames x; have hx : Keeps s x.2 := ?_; (on_goal 1 => clear_value x); (on_goal 2 => (unfold x; clear x)))
    | (extract_lets +onlyGivenNames x; clear_value x)
    | with_reducible (apply Keeps.trans ?_ (State.frameFails_keeps _ _ _ _))
    | with_reducible (apply Keeps.trans ?_ (Keeps.foldl (fun fs _ => ?_) _ _))
    | split
    | dsimp only

theorem execMicrostepHandover_runs (n : Fin 8) (rev : Bool) (s : State) : ∃ t, execMicrostepHandover n rev s = .next t ∧ Keeps s t := by
  refine ⟨_, rfl, ?_⟩
  repeat' first
    | with_reducible exact Keeps.refl _
    | with_reducible assumption
    | (extract_lets +onlyGivenNames x; have hx : Keeps s x := ?_; (on_goal 1 => clear_value x); (on_goal 2 => (unfold x; clear x)))
    | (extract_lets +onlyGivenNames x; have hx : Keeps s x.2 := ?_; (on_goal 1 => clear_value x); (on_goal 2 => (unfold x; clear x)))
    | (extract_lets +onlyGivenNames x; clear_value x)
    | with_reducible (apply Keeps.trans ?_ (State.handover_keeps _ _ _))
    | with_reducible (apply Keeps.trans ?_ (Keeps.foldl (fun fs _ => ?_) _ _))
    | split
    | dsimp only

theorem execVrateUpdate_runs (n : Fin 8) (s : State) : ∃ t, execVrateUpdate n s = .next t ∧ Keeps s t := by
  refine ⟨_, rfl, ?_⟩
  repeat' first
    | with_reducible exact Keeps.refl _
    | with_reducible assumption
    | (extract_lets +onlyGivenNames x; have hx : Keeps s x := ?_; (on_goal 1 => clear_value x); (on_goal 2 => (unfold x; clear x)))
    | (extract_lets +onlyGivenNames x; have hx : Keeps s x.2 := ?_; (on_goal 1 => clear_value x); (on_goal 2 => (unfold x; clear x)))
    | (extract_lets +onlyGivenNames x; clear_value x)
    | with_reducible (apply Keeps.trans ?_ (State.vrateUpdate_keeps _ _))
    | with_reducible (apply Keeps.trans ?_ (Keeps.foldl (fun fs _ => ?_) _ _))
    | split
    | dsimp only

theorem execVirtualCarry_runs (n : Fin 8) (borrow : Bool) (s : State) : ∃ t, execVirtualCarry n borrow s = .next t ∧ Keeps s t := by
  refine ⟨_, rfl, ?_⟩
  repeat' first
    | with_reducible exact Keeps.refl _
    | with_reducible assumption
    | (extract_lets +onlyGivenNames x; have hx : Keeps s x := ?_; (on_goal 1 => clear_value x); (on_goal 2 => (unfold x; clear x)))
    | (extract_lets +onlyGivenNames x; have hx : Keeps s x.2 := ?_; (on_goal 1 => clear_value x); (on_goal 2 => (unfold x; clear x)))
    | (extract_lets +onlyGivenNames x; clear_value x)
    | with_reducible (apply Keeps.trans ?_ (State.virtualCarry_keeps _ _ _))
    | with_reducible (apply Keeps.trans ?_ (Keeps.foldl (fun fs _ => ?_) _ _))
    | split
    | dsimp only

theorem execEoStep_runs (n : Fin 2) (s : State) : ∃ t, execEoStep n s = .next t ∧ Keeps s t := by
  refine ⟨_, rfl, ?_⟩
  repeat' first
    | with_reducible exact Keeps.refl _
    | with_reducible assumption
    | (extract_lets +onlyGivenNames x; have hx : Keeps s x := ?_; (on_goal 1 => clear_value x); (on_goal 2 => (unfold x; clear x)))
    | (extract_lets +onlyGivenNames x; have hx : Keeps s x.2 := ?_; (on_goal 1 => clear_value x); (on_goal 2 => (unfold x; clear x)))
    | (extract_lets +onlyGivenNames x; clear_value x)
    | with_reducible (apply Keeps.trans ?_ (State.eoStep_keeps _ _))
    | with_reducible (apply Keeps.trans ?_ (Keeps.foldl (fun fs _ => ?_) _ _))
    | split
    | dsimp only

theorem execEoCfgWrite_runs (n : Fin 2) (ratio : Bool) (value : Sys2Proof.W32) (s : State) : ∃ t, execEoCfgWrite n ratio value s = .next t ∧ Keeps s t := by
  refine ⟨_, rfl, ?_⟩
  repeat' first
    | with_reducible exact Keeps.refl _
    | with_reducible assumption
    | (extract_lets +onlyGivenNames x; have hx : Keeps s x := ?_; (on_goal 1 => clear_value x); (on_goal 2 => (unfold x; clear x)))
    | (extract_lets +onlyGivenNames x; have hx : Keeps s x.2 := ?_; (on_goal 1 => clear_value x); (on_goal 2 => (unfold x; clear x)))
    | (extract_lets +onlyGivenNames x; clear_value x)
    | with_reducible (apply Keeps.trans ?_ (State.eoRatioWrite_keeps _ _ _))
    | with_reducible (apply Keeps.trans ?_ (State.eoCfgWrite_keeps _ _ _))
    | with_reducible (apply Keeps.trans ?_ (Keeps.foldl (fun fs _ => ?_) _ _))
    | split
    | dsimp only

theorem execTileWeightWrite_runs (k : Fin 192) (value : Sys2Proof.W32) (s : State) : ∃ t, execTileWeightWrite k value s = .next t ∧ Keeps s t := by
  refine ⟨_, rfl, ?_⟩
  repeat' first
    | with_reducible exact Keeps.refl _
    | with_reducible assumption
    | (extract_lets +onlyGivenNames x; have hx : Keeps s x := ?_; (on_goal 1 => clear_value x); (on_goal 2 => (unfold x; clear x)))
    | (extract_lets +onlyGivenNames x; have hx : Keeps s x.2 := ?_; (on_goal 1 => clear_value x); (on_goal 2 => (unfold x; clear x)))
    | (extract_lets +onlyGivenNames x; clear_value x)
    | with_reducible (apply Keeps.trans ?_ (State.wr_keeps _ _ _))
    | with_reducible (apply Keeps.trans ?_ (Keeps.foldl (fun fs _ => ?_) _ _))
    | split
    | dsimp only

end Sys2Proof.Machine
end

