-- ==== Sys2Proof/Laws/KeepsSignals.lean ====
section
/-! SUPPORT. What each operation of Machine/Signals keeps. -/

set_option maxRecDepth 4096

namespace Sys2Proof.Machine

theorem State.setChan_keeps (s : State) (c : Nat) (x : Chan) : Keeps s (State.setChan s c x) := by
  unfold State.setChan
  repeat' first
    | with_reducible exact Keeps.refl _
    | with_reducible assumption
    | (extract_lets +onlyGivenNames x; have hx : Keeps s x := ?_; (on_goal 1 => clear_value x); (on_goal 2 => (unfold x; clear x)))
    | (extract_lets +onlyGivenNames x; have hx : Keeps s x.2 := ?_; (on_goal 1 => clear_value x); (on_goal 2 => (unfold x; clear x)))
    | (extract_lets +onlyGivenNames x; clear_value x)
    | with_reducible (apply Keeps.trans ?_ (Keeps.foldl (fun fs _ => ?_) _ _))
    | split
    | dsimp only
    | (refine Keeps.make ?_ rfl rfl rfl rfl rfl rfl ?_ ?_ ?_ ?_ ?_ ?_ ?_ ?_ ?_ ?_ ?_ ?_ ?_ ?_ ?_ ?_ ?_ ?_ ?_ ?_ ?_ ?_ ?_ ?_ ?_ ?_ ?_ ?_ ?_ ?_)
    | exact fun _ w => w
    | exact Nat.le_refl _
    | exact fun _ w => tabWf_put w
    | exact fun _ w => tabWf_del w
    | exact fun _ w => tabWf_drop w
    | exact fun _ w => tabWf_filter w
    | exact fun w _ => w
    | exact fun w _ => tabWf_put w
    | exact fun w _ => tabWf_del w
    | exact fun w _ => tabWf_drop w
    | exact fun w _ => tabWf_filter w
    | exact fun _ w => tabWf_map (fun _ => rfl) w
    | exact fun w _ => tabWf_map (fun _ => rfl) w
    | (refine fun _ w => tabWf_map ?_ w; intro e; (try dsimp only); split <;> rfl)
    | (refine fun w _ => tabWf_map ?_ w; intro e; (try dsimp only); split <;> rfl)
    | exact Nat.le_add_right _ _

theorem State.chAdvance_keeps (s : State) (c : Nat) (next : Int) : Keeps s (State.chAdvance s c next) := by
  unfold State.chAdvance
  repeat' first
    | with_reducible exact Keeps.refl _
    | with_reducible assumption
    | (extract_lets +onlyGivenNames x; have hx : Keeps s x := ?_; (on_goal 1 => clear_value x); (on_goal 2 => (unfold x; clear x)))
    | (extract_lets +onlyGivenNames x; have hx : Keeps s x.2 := ?_; (on_goal 1 => clear_value x); (on_goal 2 => (unfold x; clear x)))
    | (extract_lets +onlyGivenNames x; clear_value x)
    | with_reducible (apply Keeps.trans ?_ (State.set_keeps _ _ _))
    | with_reducible (apply Keeps.trans ?_ (State.setChan_keeps _ _ _))
    | with_reducible (apply Keeps.trans ?_ (Keeps.foldl (fun fs _ => ?_) _ _))
    | split
    | dsimp only
    | (refine Keeps.make ?_ rfl rfl rfl rfl rfl rfl ?_ ?_ ?_ ?_ ?_ ?_ ?_ ?_ ?_ ?_ ?_ ?_ ?_ ?_ ?_ ?_ ?_ ?_ ?_ ?_ ?_ ?_ ?_ ?_ ?_ ?_ ?_ ?_ ?_ ?_)
    | exact fun _ w => w
    | exact Nat.le_refl _
    | exact fun _ w => tabWf_put w
    | exact fun _ w => tabWf_del w
    | exact fun _ w => tabWf_drop w
    | exact fun _ w => tabWf_filter w
    | exact fun w _ => w
    | exact fun w _ => tabWf_put w
    | exact fun w _ => tabWf_del w
    | exact fun w _ => tabWf_drop w
    | exact fun w _ => tabWf_filter w
    | exact fun _ w => tabWf_map (fun _ => rfl) w
    | exact fun w _ => tabWf_map (fun _ => rfl) w
    | (refine fun _ w => tabWf_map ?_ w; intro e; (try dsimp only); split <;> rfl)
    | (refine fun w _ => tabWf_map ?_ w; intro e; (try dsimp only); split <;> rfl)
    | exact Nat.le_add_right _ _

theorem State.wakeSeq_keeps (s : State) (q : Nat) : Keeps s (State.wakeSeq s q) := by
  unfold State.wakeSeq
  repeat' first
    | with_reducible exact Keeps.refl _
    | with_reducible assumption
    | (extract_lets +onlyGivenNames x; have hx : Keeps s x := ?_; (on_goal 1 => clear_value x); (on_goal 2 => (unfold x; clear x)))
    | (extract_lets +onlyGivenNames x; have hx : Keeps s x.2 := ?_; (on_goal 1 => clear_value x); (on_goal 2 => (unfold x; clear x)))
    | (extract_lets +onlyGivenNames x; clear_value x)
    | with_reducible (apply Keeps.trans ?_ (State.completeWait_keeps _ _ _ _))
    | with_reducible (apply Keeps.trans ?_ (Keeps.foldl (fun fs _ => ?_) _ _))
    | split
    | dsimp only

theorem State.wakeWatchers_keeps (s : State) (sig : Nat) : Keeps s (State.wakeWatchers s sig) := by
  unfold State.wakeWatchers
  repeat' first
    | with_reducible exact Keeps.refl _
    | with_reducible assumption
    | (extract_lets +onlyGivenNames x; have hx : Keeps fs x := ?_; (on_goal 1 => clear_value x); (on_goal 2 => (unfold x; clear x)))
    | (extract_lets +onlyGivenNames x; have hx : Keeps fs x.2 := ?_; (on_goal 1 => clear_value x); (on_goal 2 => (unfold x; clear x)))
    | (extract_lets +onlyGivenNames x; have hx : Keeps s x := ?_; (on_goal 1 => clear_value x); (on_goal 2 => (unfold x; clear x)))
    | (extract_lets +onlyGivenNames x; have hx : Keeps s x.2 := ?_; (on_goal 1 => clear_value x); (on_goal 2 => (unfold x; clear x)))
    | (extract_lets +onlyGivenNames x; clear_value x)
    | with_reducible (apply Keeps.trans ?_ (State.wakeSeq_keeps _ _))
    | with_reducible (apply Keeps.trans ?_ (State.chAdvance_keeps _ _ _))
    | with_reducible (apply Keeps.trans ?_ (Keeps.foldl (fun fs _ => ?_) _ _))
    | split
    | dsimp only

theorem State.signalSet_keeps (s : State) (k : Nat) : Keeps s (State.signalSet s k) := by
  unfold State.signalSet
  repeat' first
    | with_reducible exact Keeps.refl _
    | with_reducible assumption
    | (extract_lets +onlyGivenNames x; have hx : Keeps s x := ?_; (on_goal 1 => clear_value x); (on_goal 2 => (unfold x; clear x)))
    | (extract_lets +onlyGivenNames x; have hx : Keeps s x.2 := ?_; (on_goal 1 => clear_value x); (on_goal 2 => (unfold x; clear x)))
    | (extract_lets +onlyGivenNames x; clear_value x)
    | with_reducible (apply Keeps.trans ?_ (State.wakeWatchers_keeps _ _))
    | with_reducible (apply Keeps.trans ?_ (State.setSignal_keeps _ _))
    | with_reducible (apply Keeps.trans ?_ (Keeps.foldl (fun fs _ => ?_) _ _))
    | split
    | dsimp only

theorem State.consume_keeps (s : State) (sig : Nat) (pos : Nat) : Keeps s (State.consume s sig pos) := by
  unfold State.consume
  repeat' first
    | with_reducible exact Keeps.refl _
    | with_reducible assumption
    | (extract_lets +onlyGivenNames x; have hx : Keeps s x := ?_; (on_goal 1 => clear_value x); (on_goal 2 => (unfold x; clear x)))
    | (extract_lets +onlyGivenNames x; have hx : Keeps s x.2 := ?_; (on_goal 1 => clear_value x); (on_goal 2 => (unfold x; clear x)))
    | (extract_lets +onlyGivenNames x; clear_value x)
    | with_reducible (apply Keeps.trans ?_ (State.clearSignal_keeps _ _))
    | with_reducible (apply Keeps.trans ?_ (State.wakeWatchers_keeps _ _))
    | with_reducible (apply Keeps.trans ?_ (Keeps.foldl (fun fs _ => ?_) _ _))
    | split
    | dsimp only
    | (refine Keeps.make ?_ rfl rfl rfl rfl rfl rfl ?_ ?_ ?_ ?_ ?_ ?_ ?_ ?_ ?_ ?_ ?_ ?_ ?_ ?_ ?_ ?_ ?_ ?_ ?_ ?_ ?_ ?_ ?_ ?_ ?_ ?_ ?_ ?_ ?_ ?_)
    | exact fun _ w => w
    | exact Nat.le_refl _
    | exact fun _ w => tabWf_put w
    | exact fun _ w => tabWf_del w
    | exact fun _ w => tabWf_drop w
    | exact fun _ w => tabWf_filter w
    | exact fun w _ => w
    | exact fun w _ => tabWf_put w
    | exact fun w _ => tabWf_del w
    | exact fun w _ => tabWf_drop w
    | exact fun w _ => tabWf_filter w
    | exact fun _ w => tabWf_map (fun _ => rfl) w
    | exact fun w _ => tabWf_map (fun _ => rfl) w
    | (refine fun _ w => tabWf_map ?_ w; intro e; (try dsimp only); split <;> rfl)
    | (refine fun w _ => tabWf_map ?_ w; intro e; (try dsimp only); split <;> rfl)
    | exact Nat.le_add_right _ _

end Sys2Proof.Machine
end

