-- ==== Sys2Proof/Laws/KeepsBus.lean ====
section
/-! SUPPORT. What each operation of Machine/Bus keeps, and that every command of it completes. -/

set_option maxRecDepth 4096

namespace Sys2Proof.Machine

theorem State.regionWrite_keeps (s : State) (i : Nat) (j : Nat) (a : Nat) (v : Sys2Proof.W32) : Keeps s (State.regionWrite s i j a v) := by
  unfold State.regionWrite
  repeat' first
    | with_reducible exact Keeps.refl _
    | with_reducible assumption
    | (extract_lets +onlyGivenNames x; have hx : Keeps s x := ?_; (on_goal 1 => clear_value x); (on_goal 2 => (unfold x; clear x)))
    | (extract_lets +onlyGivenNames x; have hx : Keeps s x.2 := ?_; (on_goal 1 => clear_value x); (on_goal 2 => (unfold x; clear x)))
    | (extract_lets +onlyGivenNames x; clear_value x)
    | with_reducible (apply Keeps.trans ?_ (State.plainWrite_keeps _ _ _))
    | with_reducible (apply Keeps.trans ?_ (State.set_keeps _ _ _))
    | with_reducible (apply Keeps.trans ?_ (Keeps.foldl (fun fs _ => ?_) _ _))
    | split
    | dsimp only

theorem State.ringBaseWrite_keeps (s : State) (r : Nat) (v : Sys2Proof.W32) : Keeps s (State.ringBaseWrite s r v) := by
  unfold State.ringBaseWrite
  repeat' first
    | with_reducible exact Keeps.refl _
    | with_reducible assumption
    | (extract_lets +onlyGivenNames x; have hx : Keeps s x := ?_; (on_goal 1 => clear_value x); (on_goal 2 => (unfold x; clear x)))
    | (extract_lets +onlyGivenNames x; have hx : Keeps s x.2 := ?_; (on_goal 1 => clear_value x); (on_goal 2 => (unfold x; clear x)))
    | (extract_lets +onlyGivenNames x; clear_value x)
    | with_reducible (apply Keeps.trans ?_ (State.setBit_keeps _ _ _ _))
    | with_reducible (apply Keeps.trans ?_ (State.plainWrite_keeps _ _ _))
    | with_reducible (apply Keeps.trans ?_ (Keeps.foldl (fun fs _ => ?_) _ _))
    | split
    | dsimp only

theorem State.rcCtlWrite_keeps (s : State) (n : Nat) (v : Sys2Proof.W32) : Keeps s (State.rcCtlWrite s n v) := by
  unfold State.rcCtlWrite
  repeat' first
    | with_reducible exact Keeps.refl _
    | with_reducible assumption
    | (extract_lets +onlyGivenNames x; have hx : Keeps s x := ?_; (on_goal 1 => clear_value x); (on_goal 2 => (unfold x; clear x)))
    | (extract_lets +onlyGivenNames x; have hx : Keeps s x.2 := ?_; (on_goal 1 => clear_value x); (on_goal 2 => (unfold x; clear x)))
    | (extract_lets +onlyGivenNames x; clear_value x)
    | with_reducible (apply Keeps.trans ?_ (State.plainWrite_keeps _ _ _))
    | with_reducible (apply Keeps.trans ?_ (State.tableDrop_keeps _ _))
    | with_reducible (apply Keeps.trans ?_ (Keeps.foldl (fun fs _ => ?_) _ _))
    | split
    | dsimp only

theorem State.secWrite_keeps (s : State) (m : Sys2Proof.Master) (a : Nat) (v : Sys2Proof.W32) : Keeps s (State.secWrite s m a v) := by
  unfold State.secWrite
  repeat' first
    | with_reducible exact Keeps.refl _
    | with_reducible assumption
    | (extract_lets +onlyGivenNames x; have hx : Keeps s x := ?_; (on_goal 1 => clear_value x); (on_goal 2 => (unfold x; clear x)))
    | (extract_lets +onlyGivenNames x; have hx : Keeps s x.2 := ?_; (on_goal 1 => clear_value x); (on_goal 2 => (unfold x; clear x)))
    | (extract_lets +onlyGivenNames x; clear_value x)
    | with_reducible (apply Keeps.trans ?_ (State.wr_keeps _ _ _))
    | with_reducible (apply Keeps.trans ?_ (Keeps.foldl (fun fs _ => ?_) _ _))
    | split
    | dsimp only

theorem State.gustRegister_keeps (s : State) (m : Sys2Proof.Master) (c : Card) (i : Nat) (a : Nat) (v : Sys2Proof.W32) : Keeps s (State.gustRegister s m c i a v) := by
  unfold State.gustRegister
  repeat' first
    | with_reducible exact Keeps.refl _
    | with_reducible assumption
    | (extract_lets +onlyGivenNames x; have hx : Keeps s x := ?_; (on_goal 1 => clear_value x); (on_goal 2 => (unfold x; clear x)))
    | (extract_lets +onlyGivenNames x; have hx : Keeps s x.2 := ?_; (on_goal 1 => clear_value x); (on_goal 2 => (unfold x; clear x)))
    | (extract_lets +onlyGivenNames x; clear_value x)
    | with_reducible (apply Keeps.trans ?_ (State.gustWriteReg_keeps _ _ _ _ _))
    | with_reducible (apply Keeps.trans ?_ (State.set_keeps _ _ _))
    | with_reducible (apply Keeps.trans ?_ (Keeps.foldl (fun fs _ => ?_) _ _))
    | split
    | dsimp only

theorem State.marchWrite_keeps (s : State) (v : Sys2Proof.W32) : Keeps s (State.marchWrite s v) := by
  unfold State.marchWrite
  repeat' first
    | with_reducible exact Keeps.refl _
    | with_reducible assumption
    | (extract_lets +onlyGivenNames x; have hx : Keeps s x := ?_; (on_goal 1 => clear_value x); (on_goal 2 => (unfold x; clear x)))
    | (extract_lets +onlyGivenNames x; have hx : Keeps s x.2 := ?_; (on_goal 1 => clear_value x); (on_goal 2 => (unfold x; clear x)))
    | (extract_lets +onlyGivenNames x; clear_value x)
    | with_reducible (apply Keeps.trans ?_ (State.plainWrite_keeps _ _ _))
    | with_reducible (apply Keeps.trans ?_ (State.marchGo_keeps _))
    | with_reducible (apply Keeps.trans ?_ (Keeps.foldl (fun fs _ => ?_) _ _))
    | split
    | dsimp only

theorem State.openWrite_keeps (s : State) (lane : Nat) (v : Sys2Proof.W32) : Keeps s (State.openWrite s lane v) := by
  unfold State.openWrite
  repeat' first
    | with_reducible exact Keeps.refl _
    | with_reducible assumption
    | (extract_lets +onlyGivenNames x; have hx : Keeps s x := ?_; (on_goal 1 => clear_value x); (on_goal 2 => (unfold x; clear x)))
    | (extract_lets +onlyGivenNames x; have hx : Keeps s x.2 := ?_; (on_goal 1 => clear_value x); (on_goal 2 => (unfold x; clear x)))
    | (extract_lets +onlyGivenNames x; clear_value x)
    | with_reducible (apply Keeps.trans ?_ (State.openRefresh_keeps _ _))
    | with_reducible (apply Keeps.trans ?_ (State.plainWrite_keeps _ _ _))
    | with_reducible (apply Keeps.trans ?_ (Keeps.foldl (fun fs _ => ?_) _ _))
    | split
    | dsimp only

theorem State.bootcmdWrite_keeps (s : State) (m : Sys2Proof.Master) (v : Sys2Proof.W32) : Keeps s (State.bootcmdWrite s m v) := by
  unfold State.bootcmdWrite
  repeat' first
    | with_reducible exact Keeps.refl _
    | with_reducible assumption
    | (extract_lets +onlyGivenNames x; have hx : Keeps s x := ?_; (on_goal 1 => clear_value x); (on_goal 2 => (unfold x; clear x)))
    | (extract_lets +onlyGivenNames x; have hx : Keeps s x.2 := ?_; (on_goal 1 => clear_value x); (on_goal 2 => (unfold x; clear x)))
    | (extract_lets +onlyGivenNames x; clear_value x)
    | with_reducible (apply Keeps.trans ?_ (State.plainWrite_keeps _ _ _))
    | with_reducible (apply Keeps.trans ?_ (Keeps.foldl (fun fs _ => ?_) _ _))
    | split
    | dsimp only

theorem State.dataRegEffect_keeps (s : State) (m : Sys2Proof.Master) (c : Card) (i : Nat) (j : Nat) (a : Nat) (v : Sys2Proof.W32) : Keeps s (State.dataRegEffect s m c i j a v) := by
  unfold State.dataRegEffect
  repeat' first
    | with_reducible exact Keeps.refl _
    | with_reducible assumption
    | (extract_lets +onlyGivenNames x; have hx : Keeps s x := ?_; (on_goal 1 => clear_value x); (on_goal 2 => (unfold x; clear x)))
    | (extract_lets +onlyGivenNames x; have hx : Keeps s x.2 := ?_; (on_goal 1 => clear_value x); (on_goal 2 => (unfold x; clear x)))
    | (extract_lets +onlyGivenNames x; clear_value x)
    | with_reducible (apply Keeps.trans ?_ (State.gustRegister_keeps _ _ _ _ _ _))
    | with_reducible (apply Keeps.trans ?_ (State.gringWrite_keeps _ _ _))
    | with_reducible (apply Keeps.trans ?_ (State.ethCfgWrite_keeps _ _ _))
    | with_reducible (apply Keeps.trans ?_ (State.ethRingWrite_keeps _ _ _ _))
    | with_reducible (apply Keeps.trans ?_ (State.gspWrite_keeps _ _ _ _))
    | with_reducible (apply Keeps.trans ?_ (State.msixRequest_keeps _ _))
    | with_reducible (apply Keeps.trans ?_ (State.msixWrite_keeps _ _ _ _))
    | with_reducible (apply Keeps.trans ?_ (State.ptpInch_keeps _ _))
    | with_reducible (apply Keeps.trans ?_ (State.ptpSet_keeps _ _))
    | with_reducible (apply Keeps.trans ?_ (State.ptpAdjust_keeps _ _))
    | with_reducible (apply Keeps.trans ?_ (State.plainWrite_keeps _ _ _))
    | with_reducible (apply Keeps.trans ?_ (Keeps.foldl (fun fs _ => ?_) _ _))
    | split
    | dsimp only

theorem State.motionRegEffect_keeps (s : State) (m : Sys2Proof.Master) (c : Card) (i : Nat) (j : Nat) (a : Nat) (v : Sys2Proof.W32) : Keeps s (State.motionRegEffect s m c i j a v) := by
  unfold State.motionRegEffect
  repeat' first
    | with_reducible exact Keeps.refl _
    | with_reducible assumption
    | (extract_lets +onlyGivenNames x; have hx : Keeps s x := ?_; (on_goal 1 => clear_value x); (on_goal 2 => (unfold x; clear x)))
    | (extract_lets +onlyGivenNames x; have hx : Keeps s x.2 := ?_; (on_goal 1 => clear_value x); (on_goal 2 => (unfold x; clear x)))
    | (extract_lets +onlyGivenNames x; clear_value x)
    | with_reducible (apply Keeps.trans ?_ (State.motCfgWrite_keeps _ _ _))
    | with_reducible (apply Keeps.trans ?_ (State.motPwmWrite_keeps _ _ _))
    | with_reducible (apply Keeps.trans ?_ (State.motCmdWrite_keeps _ _ _))
    | with_reducible (apply Keeps.trans ?_ (State.motSenseWrite_keeps _ _ _))
    | with_reducible (apply Keeps.trans ?_ (State.motDuty0Write_keeps _ _ _ _))
    | with_reducible (apply Keeps.trans ?_ (State.motDuty1Write_keeps _ _ _ _ _))
    | with_reducible (apply Keeps.trans ?_ (State.drawn_keeps _))
    | with_reducible (apply Keeps.trans ?_ (State.cmpWrite_keeps _ _ _))
    | with_reducible (apply Keeps.trans ?_ (State.cmpStatWrite_keeps _ _))
    | with_reducible (apply Keeps.trans ?_ (State.stepCfgWrite_keeps _ _ _))
    | with_reducible (apply Keeps.trans ?_ (State.stepCmdWrite_keeps _ _ _))
    | with_reducible (apply Keeps.trans ?_ (State.stepQdWrite_keeps _ _ _ _))
    | with_reducible (apply Keeps.trans ?_ (State.movePush_keeps _ _ _ _))
    | with_reducible (apply Keeps.trans ?_ (State.cmpRefresh_keeps _))
    | with_reducible (apply Keeps.trans ?_ (State.plainWrite_keeps _ _ _))
    | with_reducible (apply Keeps.trans ?_ (State.stallWrite_keeps _ _ _))
    | with_reducible (apply Keeps.trans ?_ (State.stepTableWrite_keeps _ _ _))
    | with_reducible (apply Keeps.trans ?_ (State.dataRegEffect_keeps _ _ _ _ _ _ _))
    | with_reducible (apply Keeps.trans ?_ (Keeps.foldl (fun fs _ => ?_) _ _))
    | split
    | dsimp only

theorem State.linkRegEffect_keeps (s : State) (m : Sys2Proof.Master) (c : Card) (i : Nat) (j : Nat) (a : Nat) (v : Sys2Proof.W32) : Keeps s (State.linkRegEffect s m c i j a v) := by
  unfold State.linkRegEffect
  repeat' first
    | with_reducible exact Keeps.refl _
    | with_reducible assumption
    | (extract_lets +onlyGivenNames x; have hx : Keeps s x := ?_; (on_goal 1 => clear_value x); (on_goal 2 => (unfold x; clear x)))
    | (extract_lets +onlyGivenNames x; have hx : Keeps s x.2 := ?_; (on_goal 1 => clear_value x); (on_goal 2 => (unfold x; clear x)))
    | (extract_lets +onlyGivenNames x; clear_value x)
    | with_reducible (apply Keeps.trans ?_ (State.laneCtlWrite_keeps _ _ _))
    | with_reducible (apply Keeps.trans ?_ (State.schedWrite_keeps _ _ _))
    | with_reducible (apply Keeps.trans ?_ (State.openWrite_keeps _ _ _))
    | with_reducible (apply Keeps.trans ?_ (State.sbcfgWrite_keeps _ _ _))
    | with_reducible (apply Keeps.trans ?_ (State.sbcmdWrite_keeps _ _ _))
    | with_reducible (apply Keeps.trans ?_ (State.mgcmdWrite_keeps _ _ _))
    | with_reducible (apply Keeps.trans ?_ (State.wvcmdWrite_keeps _ _ _))
    | with_reducible (apply Keeps.trans ?_ (State.limitsWrite_keeps _ _ _ _ _))
    | with_reducible (apply Keeps.trans ?_ (State.ecfgWrite_keeps _ _))
    | with_reducible (apply Keeps.trans ?_ (State.maskedMapWrite_keeps _ _ _))
    | with_reducible (apply Keeps.trans ?_ (State.tpushWrite_keeps _ _ _))
    | with_reducible (apply Keeps.trans ?_ (State.govWrite_keeps _ _ _))
    | with_reducible (apply Keeps.trans ?_ (State.ectestWrite_keeps _ _))
    | with_reducible (apply Keeps.trans ?_ (State.forgetUnclassified_keeps _))
    | with_reducible (apply Keeps.trans ?_ (State.plainWrite_keeps _ _ _))
    | with_reducible (apply Keeps.trans ?_ (State.rcCtlWrite_keeps _ _ _))
    | with_reducible (apply Keeps.trans ?_ (State.motionRegEffect_keeps _ _ _ _ _ _ _))
    | with_reducible (apply Keeps.trans ?_ (Keeps.foldl (fun fs _ => ?_) _ _))
    | split
    | dsimp only

theorem State.fireRegEffect_keeps (s : State) (m : Sys2Proof.Master) (c : Card) (i : Nat) (j : Nat) (a : Nat) (v : Sys2Proof.W32) : Keeps s (State.fireRegEffect s m c i j a v) := by
  unfold State.fireRegEffect
  repeat' first
    | with_reducible exact Keeps.refl _
    | with_reducible assumption
    | (extract_lets +onlyGivenNames x; have hx : Keeps s x := ?_; (on_goal 1 => clear_value x); (on_goal 2 => (unfold x; clear x)))
    | (extract_lets +onlyGivenNames x; have hx : Keeps s x.2 := ?_; (on_goal 1 => clear_value x); (on_goal 2 => (unfold x; clear x)))
    | (extract_lets +onlyGivenNames x; clear_value x)
    | with_reducible (apply Keeps.trans ?_ (State.axisCfgWrite_keeps _ _ _))
    | with_reducible (apply Keeps.trans ?_ (State.zctlWrite_keeps _ _ _))
    | with_reducible (apply Keeps.trans ?_ (State.loadPosition_keeps _ _ _))
    | (refine Keeps.trans ?_ (State.loadPosition_keeps_eq (by assumption)))
    | with_reducible (apply Keeps.trans ?_ (State.eoCfgWrite_keeps _ _ _))
    | with_reducible (apply Keeps.trans ?_ (State.eoRatioWrite_keeps _ _ _))
    | with_reducible (apply Keeps.trans ?_ (State.barCfgWrite_keeps _ _ _))
    | with_reducible (apply Keeps.trans ?_ (State.breezeWrite_keeps _ _ _))
    | with_reducible (apply Keeps.trans ?_ (State.tcpWrite_keeps _ _ _ _))
    | with_reducible (apply Keeps.trans ?_ (State.teqWrite_keeps _ _))
    | with_reducible (apply Keeps.trans ?_ (State.tileRegWrite_keeps _ _ _ _))
    | with_reducible (apply Keeps.trans ?_ (State.shutModeWrite_keeps _ _))
    | with_reducible (apply Keeps.trans ?_ (State.shutCmd_keeps _ _ _))
    | with_reducible (apply Keeps.trans ?_ (State.gateWrite_keeps _ _ _))
    | with_reducible (apply Keeps.trans ?_ (State.gateStatWrite_keeps _ _))
    | with_reducible (apply Keeps.trans ?_ (State.calCtlWrite_keeps _ _))
    | with_reducible (apply Keeps.trans ?_ (State.calLaneWrite_keeps _ _ _))
    | with_reducible (apply Keeps.trans ?_ (State.tcommitWrite_keeps _ _))
    | with_reducible (apply Keeps.trans ?_ (State.linkRegEffect_keeps _ _ _ _ _ _ _))
    | with_reducible (apply Keeps.trans ?_ (Keeps.foldl (fun fs _ => ?_) _ _))
    | split
    | dsimp only

theorem State.sysRegEffect_keeps (s : State) (m : Sys2Proof.Master) (c : Card) (i : Nat) (j : Nat) (a : Nat) (v : Sys2Proof.W32) : Keeps s (State.sysRegEffect s m c i j a v) := by
  unfold State.sysRegEffect
  repeat' first
    | with_reducible exact Keeps.refl _
    | with_reducible assumption
    | (extract_lets +onlyGivenNames x; have hx : Keeps s x := ?_; (on_goal 1 => clear_value x); (on_goal 2 => (unfold x; clear x)))
    | (extract_lets +onlyGivenNames x; have hx : Keeps s x.2 := ?_; (on_goal 1 => clear_value x); (on_goal 2 => (unfold x; clear x)))
    | (extract_lets +onlyGivenNames x; clear_value x)
    | with_reducible (apply Keeps.trans ?_ (State.clkCtlWrite_keeps _ _))
    | with_reducible (apply Keeps.trans ?_ (State.seqCtlWrite_keeps _ _ _))
    | with_reducible (apply Keeps.trans ?_ (State.swiWrite_keeps _ _ _))
    | with_reducible (apply Keeps.trans ?_ (State.sigSetWrite_keeps _ _ _))
    | with_reducible (apply Keeps.trans ?_ (State.sigClrWrite_keeps _ _ _))
    | with_reducible (apply Keeps.trans ?_ (State.rstctlWrite_keeps _ _))
    | with_reducible (apply Keeps.trans ?_ (State.bootcmdWrite_keeps _ _ _))
    | with_reducible (apply Keeps.trans ?_ (State.rloadWrite_keeps _ _))
    | with_reducible (apply Keeps.trans ?_ (State.faultnWrite_keeps _ _))
    | with_reducible (apply Keeps.trans ?_ (State.wdKick_keeps _ _ _))
    | with_reducible (apply Keeps.trans ?_ (State.toosWrite_keeps _ _ _))
    | with_reducible (apply Keeps.trans ?_ (State.stestWrite_keeps _ _))
    | with_reducible (apply Keeps.trans ?_ (State.heartbeat_keeps _ _ _))
    | with_reducible (apply Keeps.trans ?_ (State.ringBaseWrite_keeps _ _ _))
    | with_reducible (apply Keeps.trans ?_ (State.ringCfgWrite_keeps _ _ _))
    | with_reducible (apply Keeps.trans ?_ (State.ringRdWrite_keeps _ _ _))
    | with_reducible (apply Keeps.trans ?_ (State.fuseCmdWrite_keeps _ _ _))
    | with_reducible (apply Keeps.trans ?_ (State.vddFuse_keeps _ _))
    | with_reducible (apply Keeps.trans ?_ (State.drawn_keeps _))
    | with_reducible (apply Keeps.trans ?_ (State.regionWrite_keeps _ _ _ _ _))
    | with_reducible (apply Keeps.trans ?_ (State.marchWrite_keeps _ _))
    | with_reducible (apply Keeps.trans ?_ (State.secCmdWrite_keeps _ _ _))
    | with_reducible (apply Keeps.trans ?_ (State.secWrite_keeps _ _ _ _))
    | with_reducible (apply Keeps.trans ?_ (State.fireRegEffect_keeps _ _ _ _ _ _ _))
    | with_reducible (apply Keeps.trans ?_ (Keeps.foldl (fun fs _ => ?_) _ _))
    | split
    | dsimp only

theorem State.regEffect_keeps (s : State) (m : Sys2Proof.Master) (c : Card) (i : Nat) (j : Nat) (a : Nat) (v : Sys2Proof.W32) : Keeps s (State.regEffect s m c i j a v) := by
  unfold State.regEffect
  repeat' first
    | with_reducible exact Keeps.refl _
    | with_reducible assumption
    | (extract_lets +onlyGivenNames x; have hx : Keeps s x := ?_; (on_goal 1 => clear_value x); (on_goal 2 => (unfold x; clear x)))
    | (extract_lets +onlyGivenNames x; have hx : Keeps s x.2 := ?_; (on_goal 1 => clear_value x); (on_goal 2 => (unfold x; clear x)))
    | (extract_lets +onlyGivenNames x; clear_value x)
    | with_reducible (apply Keeps.trans ?_ (State.sysRegEffect_keeps _ _ _ _ _ _ _))
    | with_reducible (apply Keeps.trans ?_ (Keeps.foldl (fun fs _ => ?_) _ _))
    | split
    | dsimp only

theorem State.regWrite_keeps (s : State) (m : Sys2Proof.Master) (a : Nat) (v : Sys2Proof.W32) : Keeps s (State.regWrite s m a v) := by
  unfold State.regWrite
  repeat' first
    | with_reducible exact Keeps.refl _
    | with_reducible assumption
    | (extract_lets +onlyGivenNames x; have hx : Keeps s x := ?_; (on_goal 1 => clear_value x); (on_goal 2 => (unfold x; clear x)))
    | (extract_lets +onlyGivenNames x; have hx : Keeps s x.2 := ?_; (on_goal 1 => clear_value x); (on_goal 2 => (unfold x; clear x)))
    | (extract_lets +onlyGivenNames x; clear_value x)
    | with_reducible (apply Keeps.trans ?_ (State.regEffect_keeps _ _ _ _ _ _ _))
    | with_reducible (apply Keeps.trans ?_ (Keeps.foldl (fun fs _ => ?_) _ _))
    | split
    | dsimp only

theorem State.rcClear_keeps (s : State) (a : Nat) : Keeps s (State.rcClear s a) := by
  unfold State.rcClear
  repeat' first
    | with_reducible exact Keeps.refl _
    | with_reducible assumption
    | (extract_lets +onlyGivenNames x; have hx : Keeps s x := ?_; (on_goal 1 => clear_value x); (on_goal 2 => (unfold x; clear x)))
    | (extract_lets +onlyGivenNames x; have hx : Keeps s x.2 := ?_; (on_goal 1 => clear_value x); (on_goal 2 => (unfold x; clear x)))
    | (extract_lets +onlyGivenNames x; clear_value x)
    | with_reducible (apply Keeps.trans ?_ (State.wr_keeps _ _ _))
    | with_reducible (apply Keeps.trans ?_ (Keeps.foldl (fun fs _ => ?_) _ _))
    | split
    | dsimp only

theorem State.snapTake_keeps (s : State) (holder : Option Nat) (group : List Nat) : Keeps s (State.snapTake s holder group) := by
  unfold State.snapTake
  refine Keeps.trans ?_ (Keeps.foldl (fun t b => State.rcClear_keeps t b) _ _)
  split
  · refine Keeps.make (Keeps.refl s) rfl rfl rfl rfl rfl rfl ?_ ?_ ?_ ?_ ?_ ?_ ?_ ?_ ?_ ?_ ?_ ?_ ?_ ?_ ?_ ?_ ?_ ?_ ?_ ?_ ?_ ?_ ?_ ?_ ?_ ?_ ?_ ?_ ?_ ?_
    all_goals first
      | exact fun _ w => w
      | exact Nat.le_refl _
      | exact fun _ w => tabWf_foldl_put _ _ _ w
  · exact Keeps.refl s

theorem State.readEffect_keeps (s : State) (m : Sys2Proof.Master) (c : Card) (i : Nat) (a : Nat) : Keeps s (State.readEffect s m c i a).2 := by
  unfold State.readEffect
  repeat' first
    | with_reducible exact Keeps.refl _
    | with_reducible assumption
    | (extract_lets +onlyGivenNames x; have hx : Keeps s x := ?_; (on_goal 1 => clear_value x); (on_goal 2 => (unfold x; clear x)))
    | (extract_lets +onlyGivenNames x; have hx : Keeps s x.2 := ?_; (on_goal 1 => clear_value x); (on_goal 2 => (unfold x; clear x)))
    | (extract_lets +onlyGivenNames x; clear_value x)
    | with_reducible (apply Keeps.trans ?_ (State.gateRead_keeps _ _))
    | (refine Keeps.trans ?_ (State.gateRead_keeps_eq (by assumption)))
    | with_reducible (apply Keeps.trans ?_ (State.wr_keeps _ _ _))
    | with_reducible (apply Keeps.trans ?_ (State.snapTake_keeps _ _ _))
    | with_reducible (apply Keeps.trans ?_ (State.rcClear_keeps _ _))
    | with_reducible (apply Keeps.trans ?_ (Keeps.foldl (fun fs _ => ?_) _ _))
    | split
    | dsimp only
    | (refine Keeps.make ?_ rfl rfl rfl rfl rfl rfl ?_ ?_ ?_ ?_ ?_ ?_ ?_ ?_ ?_ ?_ ?_ ?_ ?_ ?_ ?_ ?_ ?_ ?_ ?_ ?_ ?_ ?_ ?_ ?_ ?_ ?_ ?_ ?_ ?_ ?_)
    | exact fun _ w => w
    | exact Nat.le_refl _
    | exact fun _ w => tabWf_put w
    | exact fun _ w => tabWf_del w
    | exact fun _ w => tabWf_drop w
    | exact fun _ w => tabWf_filter w
    | exact fun w _ => w
    | exact fun w _ => tabWf_put w
    | exact fun w _ => tabWf_del w
    | exact fun w _ => tabWf_drop w
    | exact fun w _ => tabWf_filter w
    | exact fun _ w => tabWf_map (fun _ => rfl) w
    | exact fun w _ => tabWf_map (fun _ => rfl) w
    | (refine fun _ w => tabWf_map ?_ w; intro e; (try dsimp only); split <;> rfl)
    | (refine fun w _ => tabWf_map ?_ w; intro e; (try dsimp only); split <;> rfl)
    | exact Nat.le_add_right _ _

theorem State.readEffect_keeps_eq {s : State} {m : Sys2Proof.Master} {c : Card} {i : Nat} {a : Nat} {val out} (h : State.readEffect s m c i a = (val, out)) : Keeps s out := by
  have k := State.readEffect_keeps s m c i a
  rw [h] at k
  exact k

theorem State.regRead_keeps (s : State) (m : Sys2Proof.Master) (a : Nat) : Keeps s (State.regRead s m a).2 := by
  unfold State.regRead
  repeat' first
    | with_reducible exact Keeps.refl _
    | with_reducible assumption
    | (extract_lets +onlyGivenNames x; have hx : Keeps s x := ?_; (on_goal 1 => clear_value x); (on_goal 2 => (unfold x; clear x)))
    | (extract_lets +onlyGivenNames x; have hx : Keeps s x.2 := ?_; (on_goal 1 => clear_value x); (on_goal 2 => (unfold x; clear x)))
    | (extract_lets +onlyGivenNames x; clear_value x)
    | with_reducible (apply Keeps.trans ?_ (State.readEffect_keeps _ _ _ _ _))
    | (refine Keeps.trans ?_ (State.readEffect_keeps_eq (by assumption)))
    | with_reducible (apply Keeps.trans ?_ (Keeps.foldl (fun fs _ => ?_) _ _))
    | split
    | dsimp only

theorem State.regRead_keeps_eq {s : State} {m : Sys2Proof.Master} {a : Nat} {val out} (h : State.regRead s m a = (val, out)) : Keeps s out := by
  have k := State.regRead_keeps s m a
  rw [h] at k
  exact k

theorem State.regRefused_keeps {s : State} {m : Sys2Proof.Master} {a : Nat} {len : Nat} {n : Needs} {out} (h : State.regRefused s m a len n = some out) : Keeps s out := by
  unfold State.regRefused at h
  try dsimp only at h
  repeat' first
    | (cases h; done)
    | (injection h with h; try (simp only [Prod.mk.injEq] at h); try (obtain ⟨_, h⟩ := h); try subst h)
    | (split at h)
  all_goals (try subst h)
  all_goals repeat' first
    | with_reducible exact Keeps.refl _
    | with_reducible assumption
    | (extract_lets +onlyGivenNames x; have hx : Keeps s x := ?_; (on_goal 1 => clear_value x); (on_goal 2 => (unfold x; clear x)))
    | (extract_lets +onlyGivenNames x; have hx : Keeps s x.2 := ?_; (on_goal 1 => clear_value x); (on_goal 2 => (unfold x; clear x)))
    | (extract_lets +onlyGivenNames x; clear_value x)
    | with_reducible (apply Keeps.trans ?_ (State.accessErr_keeps _ _ _))
    | with_reducible (apply Keeps.trans ?_ (State.regionFault_keeps _ _ _ _))
    | with_reducible (apply Keeps.trans ?_ (Keeps.foldl (fun fs _ => ?_) _ _))

theorem State.answered_keeps (s : State) (x : Answer) : Keeps s (State.answered s x) := by
  unfold State.answered
  repeat' first
    | with_reducible exact Keeps.refl _
    | with_reducible assumption
    | (extract_lets +onlyGivenNames x; have hx : Keeps s x := ?_; (on_goal 1 => clear_value x); (on_goal 2 => (unfold x; clear x)))
    | (extract_lets +onlyGivenNames x; have hx : Keeps s x.2 := ?_; (on_goal 1 => clear_value x); (on_goal 2 => (unfold x; clear x)))
    | (extract_lets +onlyGivenNames x; clear_value x)
    | with_reducible (apply Keeps.trans ?_ (Keeps.foldl (fun fs _ => ?_) _ _))
    | split
    | dsimp only
    | (refine Keeps.make ?_ rfl rfl rfl rfl rfl rfl ?_ ?_ ?_ ?_ ?_ ?_ ?_ ?_ ?_ ?_ ?_ ?_ ?_ ?_ ?_ ?_ ?_ ?_ ?_ ?_ ?_ ?_ ?_ ?_ ?_ ?_ ?_ ?_ ?_ ?_)
    | exact fun _ w => w
    | exact Nat.le_refl _
    | exact fun _ w => tabWf_put w
    | exact fun _ w => tabWf_del w
    | exact fun _ w => tabWf_drop w
    | exact fun _ w => tabWf_filter w
    | exact fun w _ => w
    | exact fun w _ => tabWf_put w
    | exact fun w _ => tabWf_del w
    | exact fun w _ => tabWf_drop w
    | exact fun w _ => tabWf_filter w
    | exact fun _ w => tabWf_map (fun _ => rfl) w
    | exact fun w _ => tabWf_map (fun _ => rfl) w
    | (refine fun _ w => tabWf_map ?_ w; intro e; (try dsimp only); split <;> rfl)
    | (refine fun w _ => tabWf_map ?_ w; intro e; (try dsimp only); split <;> rfl)
    | exact Nat.le_add_right _ _

theorem State.hostDiscards_keeps (s : State) (a : Nat) : Keeps s (State.hostDiscards s a) := by
  unfold State.hostDiscards
  repeat' first
    | with_reducible exact Keeps.refl _
    | with_reducible assumption
    | (extract_lets +onlyGivenNames x; have hx : Keeps s x := ?_; (on_goal 1 => clear_value x); (on_goal 2 => (unfold x; clear x)))
    | (extract_lets +onlyGivenNames x; have hx : Keeps s x.2 := ?_; (on_goal 1 => clear_value x); (on_goal 2 => (unfold x; clear x)))
    | (extract_lets +onlyGivenNames x; clear_value x)
    | with_reducible (apply Keeps.trans ?_ (State.answered_keeps _ _))
    | with_reducible (apply Keeps.trans ?_ (State.pcieFlag_keeps _ _ _))
    | with_reducible (apply Keeps.trans ?_ (State.bump_keeps _ _))
    | with_reducible (apply Keeps.trans ?_ (Keeps.foldl (fun fs _ => ?_) _ _))
    | split
    | dsimp only

theorem State.hostUr_keeps (s : State) (a : Nat) : Keeps s (State.hostUr s a) := by
  unfold State.hostUr
  repeat' first
    | with_reducible exact Keeps.refl _
    | with_reducible assumption
    | (extract_lets +onlyGivenNames x; have hx : Keeps s x := ?_; (on_goal 1 => clear_value x); (on_goal 2 => (unfold x; clear x)))
    | (extract_lets +onlyGivenNames x; have hx : Keeps s x.2 := ?_; (on_goal 1 => clear_value x); (on_goal 2 => (unfold x; clear x)))
    | (extract_lets +onlyGivenNames x; clear_value x)
    | with_reducible (apply Keeps.trans ?_ (State.answered_keeps _ _))
    | with_reducible (apply Keeps.trans ?_ (State.pcieFlag_keeps _ _ _))
    | with_reducible (apply Keeps.trans ?_ (State.bump_keeps _ _))
    | with_reducible (apply Keeps.trans ?_ (Keeps.foldl (fun fs _ => ?_) _ _))
    | split
    | dsimp only

theorem State.writeRefused_keeps (s : State) (m : Sys2Proof.Master) (a : Nat) : Keeps s (State.writeRefused s m a) := by
  unfold State.writeRefused
  repeat' first
    | with_reducible exact Keeps.refl _
    | with_reducible assumption
    | (extract_lets +onlyGivenNames x; have hx : Keeps s x := ?_; (on_goal 1 => clear_value x); (on_goal 2 => (unfold x; clear x)))
    | (extract_lets +onlyGivenNames x; have hx : Keeps s x.2 := ?_; (on_goal 1 => clear_value x); (on_goal 2 => (unfold x; clear x)))
    | (extract_lets +onlyGivenNames x; clear_value x)
    | with_reducible (apply Keeps.trans ?_ (State.hostDiscards_keeps _ _))
    | with_reducible (apply Keeps.trans ?_ (State.answered_keeps _ _))
    | with_reducible (apply Keeps.trans ?_ (Keeps.foldl (fun fs _ => ?_) _ _))
    | split
    | dsimp only

theorem State.readRefused_keeps (s : State) (m : Sys2Proof.Master) (a : Nat) : Keeps s (State.readRefused s m a) := by
  unfold State.readRefused
  repeat' first
    | with_reducible exact Keeps.refl _
    | with_reducible assumption
    | (extract_lets +onlyGivenNames x; have hx : Keeps s x := ?_; (on_goal 1 => clear_value x); (on_goal 2 => (unfold x; clear x)))
    | (extract_lets +onlyGivenNames x; have hx : Keeps s x.2 := ?_; (on_goal 1 => clear_value x); (on_goal 2 => (unfold x; clear x)))
    | (extract_lets +onlyGivenNames x; clear_value x)
    | with_reducible (apply Keeps.trans ?_ (State.hostUr_keeps _ _))
    | with_reducible (apply Keeps.trans ?_ (State.answered_keeps _ _))
    | with_reducible (apply Keeps.trans ?_ (Keeps.foldl (fun fs _ => ?_) _ _))
    | split
    | dsimp only

theorem State.busWrite_keeps (s : State) (m : Sys2Proof.Master) (a : Nat) (v : Sys2Proof.W32) : Keeps s (State.busWrite s m a v) := by
  unfold State.busWrite
  repeat' first
    | with_reducible exact Keeps.refl _
    | with_reducible assumption
    | (extract_lets +onlyGivenNames x; have hx : Keeps s x := ?_; (on_goal 1 => clear_value x); (on_goal 2 => (unfold x; clear x)))
    | (extract_lets +onlyGivenNames x; have hx : Keeps s x.2 := ?_; (on_goal 1 => clear_value x); (on_goal 2 => (unfold x; clear x)))
    | (extract_lets +onlyGivenNames x; clear_value x)
    | (refine Keeps.trans ?_ (State.regRefused_keeps (by assumption)))
    | with_reducible (apply Keeps.trans ?_ (State.writeRefused_keeps _ _ _))
    | with_reducible (apply Keeps.trans ?_ (State.answered_keeps _ _))
    | with_reducible (apply Keeps.trans ?_ (State.regWrite_keeps _ _ _ _))
    | with_reducible (apply Keeps.trans ?_ (Keeps.foldl (fun fs _ => ?_) _ _))
    | split
    | dsimp only

theorem State.busRead_keeps (s : State) (m : Sys2Proof.Master) (a : Nat) : Keeps s (State.busRead s m a) := by
  unfold State.busRead
  repeat' first
    | with_reducible exact Keeps.refl _
    | with_reducible assumption
    | (extract_lets +onlyGivenNames x; have hx : Keeps s x := ?_; (on_goal 1 => clear_value x); (on_goal 2 => (unfold x; clear x)))
    | (extract_lets +onlyGivenNames x; have hx : Keeps s x.2 := ?_; (on_goal 1 => clear_value x); (on_goal 2 => (unfold x; clear x)))
    | (extract_lets +onlyGivenNames x; clear_value x)
    | (refine Keeps.trans ?_ (State.regRefused_keeps (by assumption)))
    | with_reducible (apply Keeps.trans ?_ (State.readRefused_keeps _ _ _))
    | with_reducible (apply Keeps.trans ?_ (State.regRead_keeps _ _ _))
    | (refine Keeps.trans ?_ (State.regRead_keeps_eq (by assumption)))
    | with_reducible (apply Keeps.trans ?_ (State.answered_keeps _ _))
    | with_reducible (apply Keeps.trans ?_ (Keeps.foldl (fun fs _ => ?_) _ _))
    | split
    | dsimp only

theorem State.portWrite_keeps (s : State) (m : Sys2Proof.Master) (a : Nat) (bs : List Sys2Proof.W8) : Keeps s (State.portWrite s m a bs) := by
  unfold State.portWrite
  repeat' first
    | with_reducible exact Keeps.refl _
    | with_reducible assumption
    | (extract_lets +onlyGivenNames x; have hx : Keeps s x := ?_; (on_goal 1 => clear_value x); (on_goal 2 => (unfold x; clear x)))
    | (extract_lets +onlyGivenNames x; have hx : Keeps s x.2 := ?_; (on_goal 1 => clear_value x); (on_goal 2 => (unfold x; clear x)))
    | (extract_lets +onlyGivenNames x; clear_value x)
    | (refine Keeps.trans ?_ (State.memCheck_keeps (by assumption)))
    | with_reducible (apply Keeps.trans ?_ (State.writeRefused_keeps _ _ _))
    | with_reducible (apply Keeps.trans ?_ (State.mergeWrite_keeps _ _ _ _))
    | (refine Keeps.trans ?_ (State.mergeWrite_keeps_eq (by assumption)))
    | (refine Keeps.trans ?_ (State.mergeWrite_keeps_some (by assumption)))
    | with_reducible (apply Keeps.trans ?_ (State.answered_keeps _ _))
    | with_reducible (apply Keeps.trans ?_ (Keeps.foldl (fun fs _ => ?_) _ _))
    | split
    | dsimp only

theorem State.readUe_keeps (s : State) (m : Sys2Proof.Master) : Keeps s (State.readUe s m) := by
  unfold State.readUe
  repeat' first
    | with_reducible exact Keeps.refl _
    | with_reducible assumption
    | (extract_lets +onlyGivenNames x; have hx : Keeps s x := ?_; (on_goal 1 => clear_value x); (on_goal 2 => (unfold x; clear x)))
    | (extract_lets +onlyGivenNames x; have hx : Keeps s x.2 := ?_; (on_goal 1 => clear_value x); (on_goal 2 => (unfold x; clear x)))
    | (extract_lets +onlyGivenNames x; clear_value x)
    | with_reducible (apply Keeps.trans ?_ (State.answered_keeps _ _))
    | with_reducible (apply Keeps.trans ?_ (State.bump_keeps _ _))
    | with_reducible (apply Keeps.trans ?_ (Keeps.foldl (fun fs _ => ?_) _ _))
    | split
    | dsimp only

theorem State.portRead_keeps (s : State) (m : Sys2Proof.Master) (a : Nat) (len : Nat) : Keeps s (State.portRead s m a len) := by
  unfold State.portRead
  repeat' first
    | with_reducible exact Keeps.refl _
    | with_reducible assumption
    | (extract_lets +onlyGivenNames x; have hx : Keeps s x := ?_; (on_goal 1 => clear_value x); (on_goal 2 => (unfold x; clear x)))
    | (extract_lets +onlyGivenNames x; have hx : Keeps s x.2 := ?_; (on_goal 1 => clear_value x); (on_goal 2 => (unfold x; clear x)))
    | (extract_lets +onlyGivenNames x; clear_value x)
    | (refine Keeps.trans ?_ (State.memCheck_keeps (by assumption)))
    | with_reducible (apply Keeps.trans ?_ (State.readRefused_keeps _ _ _))
    | with_reducible (apply Keeps.trans ?_ (State.dataRead_keeps _ _ _ _))
    | (refine Keeps.trans ?_ (State.dataRead_keeps_eq (by assumption)))
    | with_reducible (apply Keeps.trans ?_ (State.answered_keeps _ _))
    | with_reducible (apply Keeps.trans ?_ (State.readUe_keeps _ _))
    | with_reducible (apply Keeps.trans ?_ (Keeps.foldl (fun fs _ => ?_) _ _))
    | split
    | dsimp only

theorem State.debugRom_keeps (s : State) (write : Bool) (a : Nat) : Keeps s (State.debugRom s write a) := by
  unfold State.debugRom
  repeat' first
    | with_reducible exact Keeps.refl _
    | with_reducible assumption
    | (extract_lets +onlyGivenNames x; have hx : Keeps s x := ?_; (on_goal 1 => clear_value x); (on_goal 2 => (unfold x; clear x)))
    | (extract_lets +onlyGivenNames x; have hx : Keeps s x.2 := ?_; (on_goal 1 => clear_value x); (on_goal 2 => (unfold x; clear x)))
    | (extract_lets +onlyGivenNames x; clear_value x)
    | with_reducible (apply Keeps.trans ?_ (State.answered_keeps _ _))
    | with_reducible (apply Keeps.trans ?_ (State.accessErr_keeps _ _ _))
    | with_reducible (apply Keeps.trans ?_ (State.regionFault_keeps _ _ _ _))
    | with_reducible (apply Keeps.trans ?_ (Keeps.foldl (fun fs _ => ?_) _ _))
    | split
    | dsimp only

theorem State.debugAccess_keeps (s : State) (write : Bool) (a : Nat) (v : Sys2Proof.W32) : Keeps s (State.debugAccess s write a v) := by
  unfold State.debugAccess
  repeat' first
    | with_reducible exact Keeps.refl _
    | with_reducible assumption
    | (extract_lets +onlyGivenNames x; have hx : Keeps s x := ?_; (on_goal 1 => clear_value x); (on_goal 2 => (unfold x; clear x)))
    | (extract_lets +onlyGivenNames x; have hx : Keeps s x.2 := ?_; (on_goal 1 => clear_value x); (on_goal 2 => (unfold x; clear x)))
    | (extract_lets +onlyGivenNames x; clear_value x)
    | with_reducible (apply Keeps.trans ?_ (State.answered_keeps _ _))
    | with_reducible (apply Keeps.trans ?_ (State.busWrite_keeps _ _ _ _))
    | with_reducible (apply Keeps.trans ?_ (State.busRead_keeps _ _ _))
    | with_reducible (apply Keeps.trans ?_ (State.debugRom_keeps _ _ _))
    | with_reducible (apply Keeps.trans ?_ (State.portWrite_keeps _ _ _ _))
    | with_reducible (apply Keeps.trans ?_ (State.portRead_keeps _ _ _ _))
    | with_reducible (apply Keeps.trans ?_ (Keeps.foldl (fun fs _ => ?_) _ _))
    | split
    | dsimp only

theorem State.winWrite_keeps (s : State) (off : Nat) (bs : List Sys2Proof.W8) : Keeps s (State.winWrite s off bs) := by
  unfold State.winWrite
  repeat' first
    | with_reducible exact Keeps.refl _
    | with_reducible assumption
    | (extract_lets +onlyGivenNames x; have hx : Keeps s x := ?_; (on_goal 1 => clear_value x); (on_goal 2 => (unfold x; clear x)))
    | (extract_lets +onlyGivenNames x; have hx : Keeps s x.2 := ?_; (on_goal 1 => clear_value x); (on_goal 2 => (unfold x; clear x)))
    | (extract_lets +onlyGivenNames x; clear_value x)
    | with_reducible (apply Keeps.trans ?_ (State.portWrite_keeps _ _ _ _))
    | with_reducible (apply Keeps.trans ?_ (State.writeRefused_keeps _ _ _))
    | with_reducible (apply Keeps.trans ?_ (State.accessErr_keeps _ _ _))
    | with_reducible (apply Keeps.trans ?_ (Keeps.foldl (fun fs _ => ?_) _ _))
    | split
    | dsimp only

theorem State.winRead_keeps (s : State) (off : Nat) (len : Nat) : Keeps s (State.winRead s off len) := by
  unfold State.winRead
  repeat' first
    | with_reducible exact Keeps.refl _
    | with_reducible assumption
    | (extract_lets +onlyGivenNames x; have hx : Keeps s x := ?_; (on_goal 1 => clear_value x); (on_goal 2 => (unfold x; clear x)))
    | (extract_lets +onlyGivenNames x; have hx : Keeps s x.2 := ?_; (on_goal 1 => clear_value x); (on_goal 2 => (unfold x; clear x)))
    | (extract_lets +onlyGivenNames x; clear_value x)
    | with_reducible (apply Keeps.trans ?_ (State.portRead_keeps _ _ _ _))
    | with_reducible (apply Keeps.trans ?_ (State.readRefused_keeps _ _ _))
    | with_reducible (apply Keeps.trans ?_ (State.accessErr_keeps _ _ _))
    | with_reducible (apply Keeps.trans ?_ (Keeps.foldl (fun fs _ => ?_) _ _))
    | split
    | dsimp only

theorem State.bar0Read_keeps (s : State) (off : Nat) : Keeps s (State.bar0Read s off) := by
  unfold State.bar0Read
  repeat' first
    | with_reducible exact Keeps.refl _
    | with_reducible assumption
    | (extract_lets +onlyGivenNames x; have hx : Keeps s x := ?_; (on_goal 1 => clear_value x); (on_goal 2 => (unfold x; clear x)))
    | (extract_lets +onlyGivenNames x; have hx : Keeps s x.2 := ?_; (on_goal 1 => clear_value x); (on_goal 2 => (unfold x; clear x)))
    | (extract_lets +onlyGivenNames x; clear_value x)
    | with_reducible (apply Keeps.trans ?_ (State.answered_keeps _ _))
    | with_reducible (apply Keeps.trans ?_ (State.busRead_keeps _ _ _))
    | with_reducible (apply Keeps.trans ?_ (Keeps.foldl (fun fs _ => ?_) _ _))
    | split
    | dsimp only

theorem bar0Words_keeps (a0 : Nat) (a1 : Nat) (a2 : List Sys2Proof.W8) (a3 : State) : Keeps a3 (bar0Words a0 a1 a2 a3) := by
  fun_induction bar0Words a0 a1 a2 a3
  all_goals repeat' first
    | with_reducible exact Keeps.refl _
    | with_reducible assumption
    | (refine Keeps.trans ?_ (by assumption : Keeps _ _))
    | (extract_lets +onlyGivenNames x; have hx : Keeps a3 x := ?_; (on_goal 1 => clear_value x); (on_goal 2 => (unfold x; clear x)))
    | (extract_lets +onlyGivenNames x; have hx : Keeps a3 x.2 := ?_; (on_goal 1 => clear_value x); (on_goal 2 => (unfold x; clear x)))
    | (extract_lets +onlyGivenNames x; clear_value x)
    | with_reducible (apply Keeps.trans ?_ (State.answered_keeps _ _))
    | with_reducible (apply Keeps.trans ?_ (State.bar0Read_keeps _ _))
    | with_reducible (apply Keeps.trans ?_ (Keeps.foldl (fun fs _ => ?_) _ _))
    | split
    | dsimp only

theorem winWrites_keeps (a0 : List (Nat × Nat)) (a1 : List Sys2Proof.W8) (a2 : State) : Keeps a2 (winWrites a0 a1 a2) := by
  fun_induction winWrites a0 a1 a2
  all_goals repeat' first
    | with_reducible exact Keeps.refl _
    | with_reducible assumption
    | (refine Keeps.trans ?_ (by assumption : Keeps _ _))
    | (extract_lets +onlyGivenNames x; have hx : Keeps a2 x := ?_; (on_goal 1 => clear_value x); (on_goal 2 => (unfold x; clear x)))
    | (extract_lets +onlyGivenNames x; have hx : Keeps a2 x.2 := ?_; (on_goal 1 => clear_value x); (on_goal 2 => (unfold x; clear x)))
    | (extract_lets +onlyGivenNames x; clear_value x)
    | with_reducible (apply Keeps.trans ?_ (State.answered_keeps _ _))
    | with_reducible (apply Keeps.trans ?_ (State.winWrite_keeps _ _ _))
    | with_reducible (apply Keeps.trans ?_ (Keeps.foldl (fun fs _ => ?_) _ _))
    | split
    | dsimp only

theorem winReads_keeps (a0 : List (Nat × Nat)) (a1 : List Sys2Proof.W8) (a2 : State) : Keeps a2 (winReads a0 a1 a2) := by
  fun_induction winReads a0 a1 a2
  all_goals repeat' first
    | with_reducible exact Keeps.refl _
    | with_reducible assumption
    | (refine Keeps.trans ?_ (by assumption : Keeps _ _))
    | (extract_lets +onlyGivenNames x; have hx : Keeps a2 x := ?_; (on_goal 1 => clear_value x); (on_goal 2 => (unfold x; clear x)))
    | (extract_lets +onlyGivenNames x; have hx : Keeps a2 x.2 := ?_; (on_goal 1 => clear_value x); (on_goal 2 => (unfold x; clear x)))
    | (extract_lets +onlyGivenNames x; clear_value x)
    | with_reducible (apply Keeps.trans ?_ (State.answered_keeps _ _))
    | with_reducible (apply Keeps.trans ?_ (State.winRead_keeps _ _ _))
    | with_reducible (apply Keeps.trans ?_ (Keeps.foldl (fun fs _ => ?_) _ _))
    | split
    | dsimp only

theorem State.hostRead_keeps (s : State) (bar2 : Bool) (addr : Nat) (len : Nat) : Keeps s (State.hostRead s bar2 addr len) := by
  unfold State.hostRead
  repeat' first
    | with_reducible exact Keeps.refl _
    | with_reducible assumption
    | (extract_lets +onlyGivenNames x; have hx : Keeps s x := ?_; (on_goal 1 => clear_value x); (on_goal 2 => (unfold x; clear x)))
    | (extract_lets +onlyGivenNames x; have hx : Keeps s x.2 := ?_; (on_goal 1 => clear_value x); (on_goal 2 => (unfold x; clear x)))
    | (extract_lets +onlyGivenNames x; clear_value x)
    | with_reducible (apply Keeps.trans ?_ (winReads_keeps _ _ _))
    | with_reducible (apply Keeps.trans ?_ (State.answered_keeps _ _))
    | with_reducible (apply Keeps.trans ?_ (bar0Words_keeps _ _ _ _))
    | with_reducible (apply Keeps.trans ?_ (State.readRefused_keeps _ _ _))
    | with_reducible (apply Keeps.trans ?_ (State.accessErr_keeps _ _ _))
    | with_reducible (apply Keeps.trans ?_ (Keeps.foldl (fun fs _ => ?_) _ _))
    | split
    | dsimp only

theorem execReadClear_runs (m : Sys2Proof.Master) (addr : Sys2Proof.W32) (s : State) : ∃ t, execReadClear m addr s = .next t ∧ Keeps s t := by
  refine ⟨_, rfl, ?_⟩
  repeat' first
    | with_reducible exact Keeps.refl _
    | with_reducible assumption
    | (extract_lets +onlyGivenNames x; have hx : Keeps s x := ?_; (on_goal 1 => clear_value x); (on_goal 2 => (unfold x; clear x)))
    | (extract_lets +onlyGivenNames x; have hx : Keeps s x.2 := ?_; (on_goal 1 => clear_value x); (on_goal 2 => (unfold x; clear x)))
    | (extract_lets +onlyGivenNames x; clear_value x)
    | with_reducible (apply Keeps.trans ?_ (State.busRead_keeps _ _ _))
    | with_reducible (apply Keeps.trans ?_ (Keeps.foldl (fun fs _ => ?_) _ _))
    | split
    | dsimp only

theorem execSnapshotCapture_runs (m : Sys2Proof.Master) (addr : Sys2Proof.W32) (s : State) : ∃ t, execSnapshotCapture m addr s = .next t ∧ Keeps s t := by
  refine ⟨_, rfl, ?_⟩
  repeat' first
    | with_reducible exact Keeps.refl _
    | with_reducible assumption
    | (extract_lets +onlyGivenNames x; have hx : Keeps s x := ?_; (on_goal 1 => clear_value x); (on_goal 2 => (unfold x; clear x)))
    | (extract_lets +onlyGivenNames x; have hx : Keeps s x.2 := ?_; (on_goal 1 => clear_value x); (on_goal 2 => (unfold x; clear x)))
    | (extract_lets +onlyGivenNames x; clear_value x)
    | with_reducible (apply Keeps.trans ?_ (State.busRead_keeps _ _ _))
    | with_reducible (apply Keeps.trans ?_ (Keeps.foldl (fun fs _ => ?_) _ _))
    | split
    | dsimp only

theorem execElogRead_runs (m : Sys2Proof.Master) (march : Bool) (s : State) : ∃ t, execElogRead m march s = .next t ∧ Keeps s t := by
  refine ⟨_, rfl, ?_⟩
  repeat' first
    | with_reducible exact Keeps.refl _
    | with_reducible assumption
    | (extract_lets +onlyGivenNames x; have hx : Keeps s x := ?_; (on_goal 1 => clear_value x); (on_goal 2 => (unfold x; clear x)))
    | (extract_lets +onlyGivenNames x; have hx : Keeps s x.2 := ?_; (on_goal 1 => clear_value x); (on_goal 2 => (unfold x; clear x)))
    | (extract_lets +onlyGivenNames x; clear_value x)
    | with_reducible (apply Keeps.trans ?_ (State.busRead_keeps _ _ _))
    | with_reducible (apply Keeps.trans ?_ (Keeps.foldl (fun fs _ => ?_) _ _))
    | split
    | dsimp only

theorem execDebugPortAccess_runs (write : Bool) (addr : BitVec 40) (data : Sys2Proof.W32) (s : State) : ∃ t, execDebugPortAccess write addr data s = .next t ∧ Keeps s t := by
  refine ⟨_, rfl, ?_⟩
  repeat' first
    | with_reducible exact Keeps.refl _
    | with_reducible assumption
    | (extract_lets +onlyGivenNames x; have hx : Keeps s x := ?_; (on_goal 1 => clear_value x); (on_goal 2 => (unfold x; clear x)))
    | (extract_lets +onlyGivenNames x; have hx : Keeps s x.2 := ?_; (on_goal 1 => clear_value x); (on_goal 2 => (unfold x; clear x)))
    | (extract_lets +onlyGivenNames x; clear_value x)
    | with_reducible (apply Keeps.trans ?_ (State.debugAccess_keeps _ _ _ _))
    | with_reducible (apply Keeps.trans ?_ (Keeps.foldl (fun fs _ => ?_) _ _))
    | split
    | dsimp only

theorem execPcieMemRead_runs (bar2 : Bool) (addr : Sys2Proof.W32) (len : BitVec 13) (s : State) : ∃ t, execPcieMemRead bar2 addr len s = .next t ∧ Keeps s t := by
  refine ⟨_, rfl, ?_⟩
  repeat' first
    | with_reducible exact Keeps.refl _
    | with_reducible assumption
    | (extract_lets +onlyGivenNames x; have hx : Keeps s x := ?_; (on_goal 1 => clear_value x); (on_goal 2 => (unfold x; clear x)))
    | (extract_lets +onlyGivenNames x; have hx : Keeps s x.2 := ?_; (on_goal 1 => clear_value x); (on_goal 2 => (unfold x; clear x)))
    | (extract_lets +onlyGivenNames x; clear_value x)
    | with_reducible (apply Keeps.trans ?_ (State.hostRead_keeps _ _ _ _))
    | with_reducible (apply Keeps.trans ?_ (Keeps.foldl (fun fs _ => ?_) _ _))
    | split
    | dsimp only

end Sys2Proof.Machine
end

