-- ==== Sys2Proof/Laws/Mem.lean ====
section
/-! SUPPORT. Reading a byte of memory after a write: the written bytes read as written, every other byte as before; and
which operations leave memory alone. -/

namespace Sys2Proof.Machine

theorem tabFind_del {α : Type} (a b : Nat) : ∀ t : Tab α, tabFind (tabDel t a) b = if b = a then none else tabFind t b
  | [] => by simp [tabDel, tabFind]
  | (k, v) :: t => by
    have ih := tabFind_del a b t
    simp only [tabDel] at ih ⊢
    by_cases hk : k = a
    · subst hk
      simp only [List.filter_cons, bne_self_eq_false, Bool.false_eq_true, if_false, ih]
      by_cases hb : b = k
      · simp [hb]
      · simp [hb, tabFind]
    · have : (k != a) = true := by simpa using hk
      simp only [List.filter_cons, this, if_true]
      unfold tabFind
      by_cases hb : b = k
      · subst hb; simp [hk]
      · simp [hb, ih]

theorem State.background_wrByte (s : State) (a : Nat) (b : W8) (x : Nat) : (s.wrByte a b).background x = s.background x := by
  unfold State.wrByte
  split <;> rfl

/-- A byte reads as it was written, every other as before. -/
theorem State.rdByte_wrByte (s : State) (a : Nat) (b : W8) (x : Nat) : (s.wrByte a b).rdByte x = if x = a then b else s.rdByte x := by
  have hbg := State.background_wrByte s a b x
  have hg : (s.wrByte a b).memGen = s.memGen := by unfold State.wrByte; split <;> rfl
  simp only [State.rdByte, hbg, hg]
  by_cases hb : s.background a = some b
  · have hm : (s.wrByte a b).mem = tabDel s.mem a := by unfold State.wrByte; rw [if_pos hb]
    rw [hm, tabFind_del]
    by_cases hx : x = a
    · subst hx; simp [hb]
    · simp [hx]
  · have hm : (s.wrByte a b).mem = tabPut s.mem a b := by unfold State.wrByte; rw [if_neg hb]
    rw [hm]
    by_cases hx : x = a
    · subst hx; simp
    · rw [tabFind_put_ne _ hx]; simp [hx]

/-- A run of bytes reads as it was written, every other byte as before. -/
theorem State.rdByte_wrBytes : ∀ (bs : List W8) (s : State) (a x : Nat),
    (s.wrBytes a bs).rdByte x = if a ≤ x ∧ x < a + bs.length then bs.getD (x - a) 0 else s.rdByte x
  | [], s, a, x => by
    have : ¬(a ≤ x ∧ x < a + ([] : List W8).length) := by simp
    rw [if_neg this]; rfl
  | b :: bs, s, a, x => by
    show ((s.wrByte a b).wrBytes (a + 1) bs).rdByte x = _
    rw [State.rdByte_wrBytes bs, State.rdByte_wrByte]
    simp only [List.length_cons]
    by_cases h1 : x = a
    · subst h1
      rw [if_neg (by omega), if_pos rfl, if_pos (by omega)]
      simp
    · by_cases h2 : a + 1 ≤ x ∧ x < a + 1 + bs.length
      · rw [if_pos h2, if_pos (by omega)]
        obtain ⟨k, rfl⟩ : ∃ k, x = a + 1 + k := ⟨x - (a + 1), by omega⟩
        simp only [Nat.add_sub_cancel_left, show a + 1 + k - a = k + 1 by omega, List.getD_cons_succ]
      · rw [if_neg h2, if_neg h1, if_neg (by omega)]

/-- Memory reads the same where bytes, cleared targets and generation are the same. -/
theorem State.rdByte_congr {s t : State} (h1 : t.mem = s.mem) (h2 : t.memZero = s.memZero) (h3 : t.memGen = s.memGen) (a : Nat) :
    t.rdByte a = s.rdByte a := by simp only [State.rdByte, State.background, h1, h2, h3]

/-- Writing bytes touches nothing but the listed bytes. -/
theorem State.wrByte_eq (s : State) (a : Nat) (b : W8) : s.wrByte a b = { s with mem := (s.wrByte a b).mem } := by
  unfold State.wrByte; split <;> rfl

theorem State.wrBytes_eq : ∀ (bs : List W8) (s : State) (a : Nat), s.wrBytes a bs = { s with mem := (s.wrBytes a bs).mem }
  | [], _, _ => rfl
  | b :: bs, s, a => by
    have h1 := State.wrBytes_eq bs (s.wrByte a b) (a + 1)
    have h2 := congrArg (fun u => ({ u with mem := ((s.wrByte a b).wrBytes (a + 1) bs).mem } : State)) (State.wrByte_eq s a b)
    exact h1.trans h2

end Sys2Proof.Machine
end

