-- ==== Sys2Proof/Laws/Regs.lean ====
section
/-! SUPPORT. Reading a register after a write: the same register holds the written value, every other keeps its own; and
the same of a register's fields. -/

namespace Sys2Proof.Machine

@[simp] theorem State.rd_wr_same (s : State) (a : Nat) (v : W32) : (s.wr a v).rd a = v := by
  simp [State.rd, State.wr]

theorem State.rd_wr_ne (s : State) {a b : Nat} (v : W32) (h : b ≠ a) : (s.wr a v).rd b = s.rd b := by
  simp [State.rd, State.wr, tabFind_put_ne _ h]

theorem State.get_wr_ne (s : State) {a : Nat} {f : Field} (v : W32) (h : f.addr ≠ a) : (s.wr a v).get f = s.get f := by
  simp [State.get, State.rd_wr_ne _ _ h]

theorem State.get_wr_same (s : State) (f : Field) (v : W32) : (s.wr f.addr v).get f = bitsOf v f.hi f.lo := by
  simp [State.get]

/-- The bits written are the bits read. -/
theorem bitsOf_putBits (w : W32) (hi lo v : Nat) (h1 : lo ≤ hi) (h2 : hi < 32) :
    bitsOf (putBits w hi lo v) hi lo = v % 2 ^ (hi + 1 - lo) := by
  have hw := w.isLt
  have e1 : 2 ^ (hi + 1) = 2 ^ lo * 2 ^ (hi + 1 - lo) := by rw [← Nat.pow_add]; congr 1; omega
  have e2 : 2 ^ 32 = 2 ^ (hi + 1) * 2 ^ (31 - hi) := by rw [← Nat.pow_add]; congr 1; omega
  have l1 : w.toNat % 2 ^ lo < 2 ^ lo := Nat.mod_lt _ (Nat.pow_pos (by omega))
  have l2 : v % 2 ^ (hi + 1 - lo) < 2 ^ (hi + 1 - lo) := Nat.mod_lt _ (Nat.pow_pos (by omega))
  have l3 : w.toNat / 2 ^ (hi + 1) < 2 ^ (31 - hi) := by
    apply Nat.div_lt_of_lt_mul; rw [← e2]; exact hw
  simp only [bitsOf, putBits, w32, BitVec.toNat_ofNat]
  have small : w.toNat / 2 ^ (hi + 1) * 2 ^ (hi + 1) + v % 2 ^ (hi + 1 - lo) * 2 ^ lo + w.toNat % 2 ^ lo < 2 ^ 32 := by
    have a1 : v % 2 ^ (hi + 1 - lo) * 2 ^ lo + w.toNat % 2 ^ lo < 2 ^ (hi + 1) := by
      rw [e1, Nat.mul_comm (2 ^ lo)]
      calc v % 2 ^ (hi + 1 - lo) * 2 ^ lo + w.toNat % 2 ^ lo < v % 2 ^ (hi + 1 - lo) * 2 ^ lo + 2 ^ lo := by omega
        _ = (v % 2 ^ (hi + 1 - lo) + 1) * 2 ^ lo := by rw [Nat.add_mul, Nat.one_mul]
        _ ≤ 2 ^ (hi + 1 - lo) * 2 ^ lo := Nat.mul_le_mul_right _ l2
    calc _ < w.toNat / 2 ^ (hi + 1) * 2 ^ (hi + 1) + 2 ^ (hi + 1) := by omega
      _ = (w.toNat / 2 ^ (hi + 1) + 1) * 2 ^ (hi + 1) := by rw [Nat.add_mul, Nat.one_mul]
      _ ≤ 2 ^ (31 - hi) * 2 ^ (hi + 1) := Nat.mul_le_mul_right _ l3
      _ = 2 ^ 32 := by rw [e2, Nat.mul_comm]
  rw [Nat.mod_eq_of_lt small]
  have split : w.toNat / 2 ^ (hi + 1) * 2 ^ (hi + 1) + v % 2 ^ (hi + 1 - lo) * 2 ^ lo + w.toNat % 2 ^ lo =
      w.toNat % 2 ^ lo + 2 ^ lo * (v % 2 ^ (hi + 1 - lo) + 2 ^ (hi + 1 - lo) * (w.toNat / 2 ^ (hi + 1))) := by
    rw [e1]; ring
  rw [split, Nat.add_mul_div_left _ _ (Nat.pow_pos (by omega)), Nat.div_eq_of_lt l1, Nat.zero_add,
    Nat.add_mul_mod_self_left, Nat.mod_mod]

/-- A bit of a word after bits `hi` to `lo` are replaced. -/
theorem putBits_testBit (w : W32) (hi lo v k : Nat) (h1 : lo ≤ hi) (h2 : hi < 32) :
    (putBits w hi lo v).toNat.testBit k = if lo ≤ k ∧ k ≤ hi then v.testBit (k - lo) else w.toNat.testBit k := by
  have hw := w.isLt
  have e1 : 2 ^ (hi + 1) = 2 ^ lo * 2 ^ (hi + 1 - lo) := by rw [← Nat.pow_add]; congr 1; omega
  have l1 : w.toNat % 2 ^ lo < 2 ^ lo := Nat.mod_lt _ (Nat.pow_pos (by omega))
  have l2 : v % 2 ^ (hi + 1 - lo) < 2 ^ (hi + 1 - lo) := Nat.mod_lt _ (Nat.pow_pos (by omega))
  have split : w.toNat / 2 ^ (hi + 1) * 2 ^ (hi + 1) + v % 2 ^ (hi + 1 - lo) * 2 ^ lo + w.toNat % 2 ^ lo =
      2 ^ lo * (2 ^ (hi + 1 - lo) * (w.toNat / 2 ^ (hi + 1)) + v % 2 ^ (hi + 1 - lo)) + w.toNat % 2 ^ lo := by
    rw [e1]; ring
  simp only [putBits, w32, BitVec.toNat_ofNat]
  rw [Nat.testBit_mod_two_pow, split, Nat.testBit_two_pow_mul_add _ l1]
  by_cases ha : k < lo
  · have : ¬(lo ≤ k ∧ k ≤ hi) := by omega
    have hk : k < 32 := by omega
    simp only [ha, if_true, this, if_false, hk, decide_true, Bool.true_and, Nat.testBit_mod_two_pow]
  · rw [if_neg ha, Nat.testBit_two_pow_mul_add _ l2]
    by_cases hb : k - lo < hi + 1 - lo
    · have hk : k < 32 := by omega
      have : lo ≤ k ∧ k ≤ hi := by omega
      simp only [hb, if_true, this, and_self, hk, decide_true, Bool.true_and, Nat.testBit_mod_two_pow]
    · have : ¬(lo ≤ k ∧ k ≤ hi) := by omega
      rw [if_neg hb, if_neg this, Nat.testBit_div_two_pow]
      have : k - lo - (hi + 1 - lo) + (hi + 1) = k := by omega
      rw [this]
      by_cases hk : k < 32
      · simp [hk]
      · have : w.toNat.testBit k = false := Nat.testBit_lt_two_pow (Nat.lt_of_lt_of_le hw (Nat.pow_le_pow_right (by omega) (by omega)))
        simp [hk, this]

theorem bitsOf_testBit (w : W32) (hi lo k : Nat) : (bitsOf w hi lo).testBit k = (decide (k < hi + 1 - lo) && w.toNat.testBit (k + lo)) := by
  simp only [bitsOf, Nat.testBit_mod_two_pow, Nat.testBit_div_two_pow]

/-- Fields that do not overlap do not see each other's writes. -/
theorem bitsOf_putBits_disjoint (w : W32) (hi lo v h l : Nat) (h1 : lo ≤ hi) (h2 : hi < 32) (hd : h < lo ∨ hi < l) :
    bitsOf (putBits w hi lo v) h l = bitsOf w h l := by
  apply Nat.eq_of_testBit_eq
  intro k
  rw [bitsOf_testBit, bitsOf_testBit, putBits_testBit _ _ _ _ _ h1 h2]
  by_cases hk : k < h + 1 - l
  · have : ¬(lo ≤ k + l ∧ k + l ≤ hi) := by omega
    simp [this]
  · simp [hk]

/-- A field reads what was written to it. -/
theorem State.get_set_same (s : State) (f : Field) (v : Nat) (h1 : f.lo ≤ f.hi) (h2 : f.hi < 32) :
    (s.set f v).get f = v % 2 ^ (f.hi + 1 - f.lo) := by
  simp only [State.set, State.get, State.rd_wr_same]
  exact bitsOf_putBits _ _ _ _ h1 h2

/-- A field of another register is not touched. -/
theorem State.get_set_ne (s : State) {f g : Field} (v : Nat) (h : g.addr ≠ f.addr) : (s.set f v).get g = s.get g :=
  State.get_wr_ne s _ h

/-- Another field of the same register is not touched. -/
theorem State.get_set_disjoint (s : State) {f g : Field} (v : Nat) (h : g.addr = f.addr) (h1 : f.lo ≤ f.hi) (h2 : f.hi < 32)
    (hd : g.hi < f.lo ∨ f.hi < g.lo) : (s.set f v).get g = s.get g := by
  simp only [State.set, State.get, h, State.rd_wr_same]
  exact bitsOf_putBits_disjoint _ _ _ _ _ _ h1 h2 hd

theorem State.rd_set_ne (s : State) {f : Field} {a : Nat} (v : Nat) (h : a ≠ f.addr) : (s.set f v).rd a = s.rd a :=
  State.rd_wr_ne s _ h

/-- The context of a sequencer after it is replaced. -/
@[simp] theorem State.seq_setSeq_same (s : State) (q : Nat) (c : Seq) : (s.setSeq q c).seq q = c := by
  have : (s.setSeq q c).ctxOf q = s.ctxOf q := rfl
  simp [State.seq, this]
  simp [State.setSeq]

/-- The contexts of the other sequencers. -/
theorem State.seq_setSeq_ne (s : State) {q r : Nat} (c : Seq) (h : s.ctxOf r ≠ s.ctxOf q) : (s.setSeq q c).seq r = s.seq r := by
  have : (s.setSeq q c).ctxOf r = s.ctxOf r := rfl
  simp only [State.seq, this]
  simp [State.setSeq, tabGet_put_ne _ _ _ h]

/-- g0 reads 0 (R50). -/
@[simp] theorem Seq.x_zero (c : Seq) : c.x 0 = 0 := rfl

/-- A general register after it is written. -/
theorem Seq.x_setX_same (c : Seq) (r : BitVec 5) (v : W32) (h : r ≠ 0) : (c.setX r v).x r = v := by
  simp only [Seq.x, Seq.setX, if_neg h, tabGet_put_same]

/-- A general register that is not the one written. -/
theorem Seq.x_setX_ne (c : Seq) (r t : BitVec 5) (v : W32) (h : t ≠ r) : (c.setX r v).x t = c.x t := by
  unfold Seq.x Seq.setX
  split
  · rfl
  · split
    · rfl
    · exact tabGet_put_ne _ _ _ (fun e => h (BitVec.eq_of_toNat_eq e))

/-- Writes to g0 are discarded (R50). -/
@[simp] theorem Seq.setX_zero (c : Seq) (v : W32) : c.setX 0 v = c := rfl

end Sys2Proof.Machine
end

