-- ==== Sys2Proof/Laws/State.lean ====
section
/-! SUPPORT. One lemma per field per update of the state, true by definition: a field an update does not name stays. -/

namespace Sys2Proof.Machine

/-! ### After `wr` -/

@[simp] theorem State.wr_pending (s : State) (a : Nat) (v : W32) : (s.wr a v).pending = s.pending := rfl
@[simp] theorem State.wr_variant (s : State) (a : Nat) (v : W32) : (s.wr a v).variant = s.variant := rfl
@[simp] theorem State.wr_lanesOff (s : State) (a : Nat) (v : W32) : (s.wr a v).lanesOff = s.lanesOff := rfl
@[simp] theorem State.wr_clustersOff (s : State) (a : Nat) (v : W32) : (s.wr a v).clustersOff = s.clustersOff := rfl
@[simp] theorem State.wr_dieBOff (s : State) (a : Nat) (v : W32) : (s.wr a v).dieBOff = s.dieBOff := rfl
@[simp] theorem State.wr_uptime (s : State) (a : Nat) (v : W32) : (s.wr a v).uptime = s.uptime := rfl
@[simp] theorem State.wr_freeCount (s : State) (a : Nat) (v : W32) : (s.wr a v).freeCount = s.freeCount := rfl
@[simp] theorem State.wr_memGen (s : State) (a : Nat) (v : W32) : (s.wr a v).memGen = s.memGen := rfl
@[simp] theorem State.wr_mem (s : State) (a : Nat) (v : W32) : (s.wr a v).mem = s.mem := rfl
@[simp] theorem State.wr_memZero (s : State) (a : Nat) (v : W32) : (s.wr a v).memZero = s.memZero := rfl
@[simp] theorem State.wr_march (s : State) (a : Nat) (v : W32) : (s.wr a v).march = s.march := rfl
@[simp] theorem State.wr_cells (s : State) (a : Nat) (v : W32) : (s.wr a v).cells = s.cells := rfl
@[simp] theorem State.wr_ceCount (s : State) (a : Nat) (v : W32) : (s.wr a v).ceCount = s.ceCount := rfl
@[simp] theorem State.wr_ceOpen (s : State) (a : Nat) (v : W32) : (s.wr a v).ceOpen = s.ceOpen := rfl
@[simp] theorem State.wr_elogHi (s : State) (a : Nat) (v : W32) : (s.wr a v).elogHi = s.elogHi := rfl
@[simp] theorem State.wr_mfailHi (s : State) (a : Nat) (v : W32) : (s.wr a v).mfailHi = s.mfailHi := rfl
@[simp] theorem State.wr_sparesUsed (s : State) (a : Nat) (v : W32) : (s.wr a v).sparesUsed = s.sparesUsed := rfl
@[simp] theorem State.wr_failedTargets (s : State) (a : Nat) (v : W32) : (s.wr a v).failedTargets = s.failedTargets := rfl
@[simp] theorem State.wr_held (s : State) (a : Nat) (v : W32) : (s.wr a v).held = s.held := rfl
@[simp] theorem State.wr_seqs (s : State) (a : Nat) (v : W32) : (s.wr a v).seqs = s.seqs := rfl
@[simp] theorem State.wr_splitPairs (s : State) (a : Nat) (v : W32) : (s.wr a v).splitPairs = s.splitPairs := rfl
@[simp] theorem State.wr_signals (s : State) (a : Nat) (v : W32) : (s.wr a v).signals = s.signals := rfl
@[simp] theorem State.wr_sigWinner (s : State) (a : Nat) (v : W32) : (s.wr a v).sigWinner = s.sigWinner := rfl
@[simp] theorem State.wr_ev (s : State) (a : Nat) (v : W32) : (s.wr a v).ev = s.ev := rfl
@[simp] theorem State.wr_monPassed (s : State) (a : Nat) (v : W32) : (s.wr a v).monPassed = s.monPassed := rfl
@[simp] theorem State.wr_msixSent (s : State) (a : Nat) (v : W32) : (s.wr a v).msixSent = s.msixSent := rfl
@[simp] theorem State.wr_msixFnMask (s : State) (a : Nat) (v : W32) : (s.wr a v).msixFnMask = s.msixFnMask := rfl
@[simp] theorem State.wr_axes (s : State) (a : Nat) (v : W32) : (s.wr a v).axes = s.axes := rfl
@[simp] theorem State.wr_serials (s : State) (a : Nat) (v : W32) : (s.wr a v).serials = s.serials := rfl
@[simp] theorem State.wr_encOuts (s : State) (a : Nat) (v : W32) : (s.wr a v).encOuts = s.encOuts := rfl
@[simp] theorem State.wr_lbUnits (s : State) (a : Nat) (v : W32) : (s.wr a v).lbUnits = s.lbUnits := rfl
@[simp] theorem State.wr_lbForce (s : State) (a : Nat) (v : W32) : (s.wr a v).lbForce = s.lbForce := rfl
@[simp] theorem State.wr_lanes (s : State) (a : Nat) (v : W32) : (s.wr a v).lanes = s.lanes := rfl
@[simp] theorem State.wr_motors (s : State) (a : Nat) (v : W32) : (s.wr a v).motors = s.motors := rfl
@[simp] theorem State.wr_steppers (s : State) (a : Nat) (v : W32) : (s.wr a v).steppers = s.steppers := rfl
@[simp] theorem State.wr_cmpIn (s : State) (a : Nat) (v : W32) : (s.wr a v).cmpIn = s.cmpIn := rfl
@[simp] theorem State.wr_adcRun (s : State) (a : Nat) (v : W32) : (s.wr a v).adcRun = s.adcRun := rfl
@[simp] theorem State.wr_adcWait (s : State) (a : Nat) (v : W32) : (s.wr a v).adcWait = s.adcWait := rfl
@[simp] theorem State.wr_adcCal (s : State) (a : Nat) (v : W32) : (s.wr a v).adcCal = s.adcCal := rfl
@[simp] theorem State.wr_tiles (s : State) (a : Nat) (v : W32) : (s.wr a v).tiles = s.tiles := rfl
@[simp] theorem State.wr_classes (s : State) (a : Nat) (v : W32) : (s.wr a v).classes = s.classes := rfl
@[simp] theorem State.wr_echoes (s : State) (a : Nat) (v : W32) : (s.wr a v).echoes = s.echoes := rfl
@[simp] theorem State.wr_gates (s : State) (a : Nat) (v : W32) : (s.wr a v).gates = s.gates := rfl
@[simp] theorem State.wr_answer (s : State) (a : Nat) (v : W32) : (s.wr a v).answer = s.answer := rfl
@[simp] theorem State.wr_chans (s : State) (a : Nat) (v : W32) : (s.wr a v).chans = s.chans := rfl
@[simp] theorem State.wr_capPulses (s : State) (a : Nat) (v : W32) : (s.wr a v).capPulses = s.capPulses := rfl
@[simp] theorem State.wr_steer (s : State) (a : Nat) (v : W32) : (s.wr a v).steer = s.steer := rfl
@[simp] theorem State.wr_streams (s : State) (a : Nat) (v : W32) : (s.wr a v).streams = s.streams := rfl
@[simp] theorem State.wr_wire (s : State) (a : Nat) (v : W32) : (s.wr a v).wire = s.wire := rfl
@[simp] theorem State.wr_ptpFrac (s : State) (a : Nat) (v : W32) : (s.wr a v).ptpFrac = s.ptpFrac := rfl
@[simp] theorem State.wr_ptpInc (s : State) (a : Nat) (v : W32) : (s.wr a v).ptpInc = s.ptpInc := rfl
@[simp] theorem State.wr_ratioFrom (s : State) (a : Nat) (v : W32) : (s.wr a v).ratioFrom = s.ratioFrom := rfl
@[simp] theorem State.wr_ppsUntil (s : State) (a : Nat) (v : W32) : (s.wr a v).ppsUntil = s.ppsUntil := rfl
@[simp] theorem State.wr_adcCalRun (s : State) (a : Nat) (v : W32) : (s.wr a v).adcCalRun = s.adcCalRun := rfl
@[simp] theorem State.wr_dieHot (s : State) (a : Nat) (v : W32) : (s.wr a v).dieHot = s.dieHot := rfl
@[simp] theorem State.wr_pllDue (s : State) (a : Nat) (v : W32) : (s.wr a v).pllDue = s.pllDue := rfl
@[simp] theorem State.wr_fuse (s : State) (a : Nat) (v : W32) : (s.wr a v).fuse = s.fuse := rfl
@[simp] theorem State.wr_shadow (s : State) (a : Nat) (v : W32) : (s.wr a v).shadow = s.shadow := rfl
@[simp] theorem State.wr_wordFlags (s : State) (a : Nat) (v : W32) : (s.wr a v).wordFlags = s.wordFlags := rfl
@[simp] theorem State.wr_fuseJob (s : State) (a : Nat) (v : W32) : (s.wr a v).fuseJob = s.fuseJob := rfl
@[simp] theorem State.wr_policy (s : State) (a : Nat) (v : W32) : (s.wr a v).policy = s.policy := rfl
@[simp] theorem State.wr_dbgBarred (s : State) (a : Nat) (v : W32) : (s.wr a v).dbgBarred = s.dbgBarred := rfl
@[simp] theorem State.wr_chalPending (s : State) (a : Nat) (v : W32) : (s.wr a v).chalPending = s.chalPending := rfl
@[simp] theorem State.wr_secFailing (s : State) (a : Nat) (v : W32) : (s.wr a v).secFailing = s.secFailing := rfl
@[simp] theorem State.wr_wdFirst (s : State) (a : Nat) (v : W32) : (s.wr a v).wdFirst = s.wdFirst := rfl
@[simp] theorem State.wr_beats (s : State) (a : Nat) (v : W32) : (s.wr a v).beats = s.beats := rfl
@[simp] theorem State.wr_testing (s : State) (a : Nat) (v : W32) : (s.wr a v).testing = s.testing := rfl
@[simp] theorem State.wr_monFailed (s : State) (a : Nat) (v : W32) : (s.wr a v).monFailed = s.monFailed := rfl
@[simp] theorem State.wr_resetting (s : State) (a : Nat) (v : W32) : (s.wr a v).resetting = s.resetting := rfl
@[simp] theorem State.wr_capture (s : State) (a : Nat) (v : W32) : (s.wr a v).capture = s.capture := rfl
@[simp] theorem State.wr_captureRail (s : State) (a : Nat) (v : W32) : (s.wr a v).captureRail = s.captureRail := rfl
@[simp] theorem State.wr_railBelow (s : State) (a : Nat) (v : W32) : (s.wr a v).railBelow = s.railBelow := rfl
@[simp] theorem State.wr_railOpen (s : State) (a : Nat) (v : W32) : (s.wr a v).railOpen = s.railOpen := rfl
@[simp] theorem State.wr_railDwell (s : State) (a : Nat) (v : W32) : (s.wr a v).railDwell = s.railDwell := rfl
@[simp] theorem State.wr_railEpisode (s : State) (a : Nat) (v : W32) : (s.wr a v).railEpisode = s.railEpisode := rfl
@[simp] theorem State.wr_scrubLate (s : State) (a : Nat) (v : W32) : (s.wr a v).scrubLate = s.scrubLate := rfl
@[simp] theorem State.wr_reloadSeq (s : State) (a : Nat) (v : W32) : (s.wr a v).reloadSeq = s.reloadSeq := rfl

/-! ### After `set` -/

@[simp] theorem State.set_pending (s : State) (f : Field) (v : Nat) : (s.set f v).pending = s.pending := rfl
@[simp] theorem State.set_variant (s : State) (f : Field) (v : Nat) : (s.set f v).variant = s.variant := rfl
@[simp] theorem State.set_lanesOff (s : State) (f : Field) (v : Nat) : (s.set f v).lanesOff = s.lanesOff := rfl
@[simp] theorem State.set_clustersOff (s : State) (f : Field) (v : Nat) : (s.set f v).clustersOff = s.clustersOff := rfl
@[simp] theorem State.set_dieBOff (s : State) (f : Field) (v : Nat) : (s.set f v).dieBOff = s.dieBOff := rfl
@[simp] theorem State.set_uptime (s : State) (f : Field) (v : Nat) : (s.set f v).uptime = s.uptime := rfl
@[simp] theorem State.set_freeCount (s : State) (f : Field) (v : Nat) : (s.set f v).freeCount = s.freeCount := rfl
@[simp] theorem State.set_memGen (s : State) (f : Field) (v : Nat) : (s.set f v).memGen = s.memGen := rfl
@[simp] theorem State.set_mem (s : State) (f : Field) (v : Nat) : (s.set f v).mem = s.mem := rfl
@[simp] theorem State.set_memZero (s : State) (f : Field) (v : Nat) : (s.set f v).memZero = s.memZero := rfl
@[simp] theorem State.set_march (s : State) (f : Field) (v : Nat) : (s.set f v).march = s.march := rfl
@[simp] theorem State.set_cells (s : State) (f : Field) (v : Nat) : (s.set f v).cells = s.cells := rfl
@[simp] theorem State.set_ceCount (s : State) (f : Field) (v : Nat) : (s.set f v).ceCount = s.ceCount := rfl
@[simp] theorem State.set_ceOpen (s : State) (f : Field) (v : Nat) : (s.set f v).ceOpen = s.ceOpen := rfl
@[simp] theorem State.set_elogHi (s : State) (f : Field) (v : Nat) : (s.set f v).elogHi = s.elogHi := rfl
@[simp] theorem State.set_mfailHi (s : State) (f : Field) (v : Nat) : (s.set f v).mfailHi = s.mfailHi := rfl
@[simp] theorem State.set_sparesUsed (s : State) (f : Field) (v : Nat) : (s.set f v).sparesUsed = s.sparesUsed := rfl
@[simp] theorem State.set_failedTargets (s : State) (f : Field) (v : Nat) : (s.set f v).failedTargets = s.failedTargets := rfl
@[simp] theorem State.set_held (s : State) (f : Field) (v : Nat) : (s.set f v).held = s.held := rfl
@[simp] theorem State.set_seqs (s : State) (f : Field) (v : Nat) : (s.set f v).seqs = s.seqs := rfl
@[simp] theorem State.set_splitPairs (s : State) (f : Field) (v : Nat) : (s.set f v).splitPairs = s.splitPairs := rfl
@[simp] theorem State.set_signals (s : State) (f : Field) (v : Nat) : (s.set f v).signals = s.signals := rfl
@[simp] theorem State.set_sigWinner (s : State) (f : Field) (v : Nat) : (s.set f v).sigWinner = s.sigWinner := rfl
@[simp] theorem State.set_ev (s : State) (f : Field) (v : Nat) : (s.set f v).ev = s.ev := rfl
@[simp] theorem State.set_monPassed (s : State) (f : Field) (v : Nat) : (s.set f v).monPassed = s.monPassed := rfl
@[simp] theorem State.set_msixSent (s : State) (f : Field) (v : Nat) : (s.set f v).msixSent = s.msixSent := rfl
@[simp] theorem State.set_msixFnMask (s : State) (f : Field) (v : Nat) : (s.set f v).msixFnMask = s.msixFnMask := rfl
@[simp] theorem State.set_axes (s : State) (f : Field) (v : Nat) : (s.set f v).axes = s.axes := rfl
@[simp] theorem State.set_serials (s : State) (f : Field) (v : Nat) : (s.set f v).serials = s.serials := rfl
@[simp] theorem State.set_encOuts (s : State) (f : Field) (v : Nat) : (s.set f v).encOuts = s.encOuts := rfl
@[simp] theorem State.set_lbUnits (s : State) (f : Field) (v : Nat) : (s.set f v).lbUnits = s.lbUnits := rfl
@[simp] theorem State.set_lbForce (s : State) (f : Field) (v : Nat) : (s.set f v).lbForce = s.lbForce := rfl
@[simp] theorem State.set_lanes (s : State) (f : Field) (v : Nat) : (s.set f v).lanes = s.lanes := rfl
@[simp] theorem State.set_motors (s : State) (f : Field) (v : Nat) : (s.set f v).motors = s.motors := rfl
@[simp] theorem State.set_steppers (s : State) (f : Field) (v : Nat) : (s.set f v).steppers = s.steppers := rfl
@[simp] theorem State.set_cmpIn (s : State) (f : Field) (v : Nat) : (s.set f v).cmpIn = s.cmpIn := rfl
@[simp] theorem State.set_adcRun (s : State) (f : Field) (v : Nat) : (s.set f v).adcRun = s.adcRun := rfl
@[simp] theorem State.set_adcWait (s : State) (f : Field) (v : Nat) : (s.set f v).adcWait = s.adcWait := rfl
@[simp] theorem State.set_adcCal (s : State) (f : Field) (v : Nat) : (s.set f v).adcCal = s.adcCal := rfl
@[simp] theorem State.set_tiles (s : State) (f : Field) (v : Nat) : (s.set f v).tiles = s.tiles := rfl
@[simp] theorem State.set_classes (s : State) (f : Field) (v : Nat) : (s.set f v).classes = s.classes := rfl
@[simp] theorem State.set_echoes (s : State) (f : Field) (v : Nat) : (s.set f v).echoes = s.echoes := rfl
@[simp] theorem State.set_gates (s : State) (f : Field) (v : Nat) : (s.set f v).gates = s.gates := rfl
@[simp] theorem State.set_answer (s : State) (f : Field) (v : Nat) : (s.set f v).answer = s.answer := rfl
@[simp] theorem State.set_chans (s : State) (f : Field) (v : Nat) : (s.set f v).chans = s.chans := rfl
@[simp] theorem State.set_capPulses (s : State) (f : Field) (v : Nat) : (s.set f v).capPulses = s.capPulses := rfl
@[simp] theorem State.set_steer (s : State) (f : Field) (v : Nat) : (s.set f v).steer = s.steer := rfl
@[simp] theorem State.set_streams (s : State) (f : Field) (v : Nat) : (s.set f v).streams = s.streams := rfl
@[simp] theorem State.set_wire (s : State) (f : Field) (v : Nat) : (s.set f v).wire = s.wire := rfl
@[simp] theorem State.set_ptpFrac (s : State) (f : Field) (v : Nat) : (s.set f v).ptpFrac = s.ptpFrac := rfl
@[simp] theorem State.set_ptpInc (s : State) (f : Field) (v : Nat) : (s.set f v).ptpInc = s.ptpInc := rfl
@[simp] theorem State.set_ratioFrom (s : State) (f : Field) (v : Nat) : (s.set f v).ratioFrom = s.ratioFrom := rfl
@[simp] theorem State.set_ppsUntil (s : State) (f : Field) (v : Nat) : (s.set f v).ppsUntil = s.ppsUntil := rfl
@[simp] theorem State.set_adcCalRun (s : State) (f : Field) (v : Nat) : (s.set f v).adcCalRun = s.adcCalRun := rfl
@[simp] theorem State.set_dieHot (s : State) (f : Field) (v : Nat) : (s.set f v).dieHot = s.dieHot := rfl
@[simp] theorem State.set_pllDue (s : State) (f : Field) (v : Nat) : (s.set f v).pllDue = s.pllDue := rfl
@[simp] theorem State.set_fuse (s : State) (f : Field) (v : Nat) : (s.set f v).fuse = s.fuse := rfl
@[simp] theorem State.set_shadow (s : State) (f : Field) (v : Nat) : (s.set f v).shadow = s.shadow := rfl
@[simp] theorem State.set_wordFlags (s : State) (f : Field) (v : Nat) : (s.set f v).wordFlags = s.wordFlags := rfl
@[simp] theorem State.set_fuseJob (s : State) (f : Field) (v : Nat) : (s.set f v).fuseJob = s.fuseJob := rfl
@[simp] theorem State.set_policy (s : State) (f : Field) (v : Nat) : (s.set f v).policy = s.policy := rfl
@[simp] theorem State.set_dbgBarred (s : State) (f : Field) (v : Nat) : (s.set f v).dbgBarred = s.dbgBarred := rfl
@[simp] theorem State.set_chalPending (s : State) (f : Field) (v : Nat) : (s.set f v).chalPending = s.chalPending := rfl
@[simp] theorem State.set_secFailing (s : State) (f : Field) (v : Nat) : (s.set f v).secFailing = s.secFailing := rfl
@[simp] theorem State.set_wdFirst (s : State) (f : Field) (v : Nat) : (s.set f v).wdFirst = s.wdFirst := rfl
@[simp] theorem State.set_beats (s : State) (f : Field) (v : Nat) : (s.set f v).beats = s.beats := rfl
@[simp] theorem State.set_testing (s : State) (f : Field) (v : Nat) : (s.set f v).testing = s.testing := rfl
@[simp] theorem State.set_monFailed (s : State) (f : Field) (v : Nat) : (s.set f v).monFailed = s.monFailed := rfl
@[simp] theorem State.set_resetting (s : State) (f : Field) (v : Nat) : (s.set f v).resetting = s.resetting := rfl
@[simp] theorem State.set_capture (s : State) (f : Field) (v : Nat) : (s.set f v).capture = s.capture := rfl
@[simp] theorem State.set_captureRail (s : State) (f : Field) (v : Nat) : (s.set f v).captureRail = s.captureRail := rfl
@[simp] theorem State.set_railBelow (s : State) (f : Field) (v : Nat) : (s.set f v).railBelow = s.railBelow := rfl
@[simp] theorem State.set_railOpen (s : State) (f : Field) (v : Nat) : (s.set f v).railOpen = s.railOpen := rfl
@[simp] theorem State.set_railDwell (s : State) (f : Field) (v : Nat) : (s.set f v).railDwell = s.railDwell := rfl
@[simp] theorem State.set_railEpisode (s : State) (f : Field) (v : Nat) : (s.set f v).railEpisode = s.railEpisode := rfl
@[simp] theorem State.set_scrubLate (s : State) (f : Field) (v : Nat) : (s.set f v).scrubLate = s.scrubLate := rfl
@[simp] theorem State.set_reloadSeq (s : State) (f : Field) (v : Nat) : (s.set f v).reloadSeq = s.reloadSeq := rfl

/-! ### After `setSeq` -/

@[simp] theorem State.setSeq_pending (s : State) (q : Nat) (c : Seq) : (s.setSeq q c).pending = s.pending := rfl
@[simp] theorem State.setSeq_variant (s : State) (q : Nat) (c : Seq) : (s.setSeq q c).variant = s.variant := rfl
@[simp] theorem State.setSeq_lanesOff (s : State) (q : Nat) (c : Seq) : (s.setSeq q c).lanesOff = s.lanesOff := rfl
@[simp] theorem State.setSeq_clustersOff (s : State) (q : Nat) (c : Seq) : (s.setSeq q c).clustersOff = s.clustersOff := rfl
@[simp] theorem State.setSeq_dieBOff (s : State) (q : Nat) (c : Seq) : (s.setSeq q c).dieBOff = s.dieBOff := rfl
@[simp] theorem State.setSeq_uptime (s : State) (q : Nat) (c : Seq) : (s.setSeq q c).uptime = s.uptime := rfl
@[simp] theorem State.setSeq_freeCount (s : State) (q : Nat) (c : Seq) : (s.setSeq q c).freeCount = s.freeCount := rfl
@[simp] theorem State.setSeq_memGen (s : State) (q : Nat) (c : Seq) : (s.setSeq q c).memGen = s.memGen := rfl
@[simp] theorem State.setSeq_mem (s : State) (q : Nat) (c : Seq) : (s.setSeq q c).mem = s.mem := rfl
@[simp] theorem State.setSeq_memZero (s : State) (q : Nat) (c : Seq) : (s.setSeq q c).memZero = s.memZero := rfl
@[simp] theorem State.setSeq_march (s : State) (q : Nat) (c : Seq) : (s.setSeq q c).march = s.march := rfl
@[simp] theorem State.setSeq_cells (s : State) (q : Nat) (c : Seq) : (s.setSeq q c).cells = s.cells := rfl
@[simp] theorem State.setSeq_ceCount (s : State) (q : Nat) (c : Seq) : (s.setSeq q c).ceCount = s.ceCount := rfl
@[simp] theorem State.setSeq_ceOpen (s : State) (q : Nat) (c : Seq) : (s.setSeq q c).ceOpen = s.ceOpen := rfl
@[simp] theorem State.setSeq_elogHi (s : State) (q : Nat) (c : Seq) : (s.setSeq q c).elogHi = s.elogHi := rfl
@[simp] theorem State.setSeq_mfailHi (s : State) (q : Nat) (c : Seq) : (s.setSeq q c).mfailHi = s.mfailHi := rfl
@[simp] theorem State.setSeq_sparesUsed (s : State) (q : Nat) (c : Seq) : (s.setSeq q c).sparesUsed = s.sparesUsed := rfl
@[simp] theorem State.setSeq_failedTargets (s : State) (q : Nat) (c : Seq) : (s.setSeq q c).failedTargets = s.failedTargets := rfl
@[simp] theorem State.setSeq_regs (s : State) (q : Nat) (c : Seq) : (s.setSeq q c).regs = s.regs := rfl
@[simp] theorem State.setSeq_held (s : State) (q : Nat) (c : Seq) : (s.setSeq q c).held = s.held := rfl
@[simp] theorem State.setSeq_splitPairs (s : State) (q : Nat) (c : Seq) : (s.setSeq q c).splitPairs = s.splitPairs := rfl
@[simp] theorem State.setSeq_signals (s : State) (q : Nat) (c : Seq) : (s.setSeq q c).signals = s.signals := rfl
@[simp] theorem State.setSeq_sigWinner (s : State) (q : Nat) (c : Seq) : (s.setSeq q c).sigWinner = s.sigWinner := rfl
@[simp] theorem State.setSeq_ev (s : State) (q : Nat) (c : Seq) : (s.setSeq q c).ev = s.ev := rfl
@[simp] theorem State.setSeq_monPassed (s : State) (q : Nat) (c : Seq) : (s.setSeq q c).monPassed = s.monPassed := rfl
@[simp] theorem State.setSeq_msixSent (s : State) (q : Nat) (c : Seq) : (s.setSeq q c).msixSent = s.msixSent := rfl
@[simp] theorem State.setSeq_msixFnMask (s : State) (q : Nat) (c : Seq) : (s.setSeq q c).msixFnMask = s.msixFnMask := rfl
@[simp] theorem State.setSeq_axes (s : State) (q : Nat) (c : Seq) : (s.setSeq q c).axes = s.axes := rfl
@[simp] theorem State.setSeq_serials (s : State) (q : Nat) (c : Seq) : (s.setSeq q c).serials = s.serials := rfl
@[simp] theorem State.setSeq_encOuts (s : State) (q : Nat) (c : Seq) : (s.setSeq q c).encOuts = s.encOuts := rfl
@[simp] theorem State.setSeq_lbUnits (s : State) (q : Nat) (c : Seq) : (s.setSeq q c).lbUnits = s.lbUnits := rfl
@[simp] theorem State.setSeq_lbForce (s : State) (q : Nat) (c : Seq) : (s.setSeq q c).lbForce = s.lbForce := rfl
@[simp] theorem State.setSeq_lanes (s : State) (q : Nat) (c : Seq) : (s.setSeq q c).lanes = s.lanes := rfl
@[simp] theorem State.setSeq_motors (s : State) (q : Nat) (c : Seq) : (s.setSeq q c).motors = s.motors := rfl
@[simp] theorem State.setSeq_steppers (s : State) (q : Nat) (c : Seq) : (s.setSeq q c).steppers = s.steppers := rfl
@[simp] theorem State.setSeq_cmpIn (s : State) (q : Nat) (c : Seq) : (s.setSeq q c).cmpIn = s.cmpIn := rfl
@[simp] theorem State.setSeq_adcRun (s : State) (q : Nat) (c : Seq) : (s.setSeq q c).adcRun = s.adcRun := rfl
@[simp] theorem State.setSeq_adcWait (s : State) (q : Nat) (c : Seq) : (s.setSeq q c).adcWait = s.adcWait := rfl
@[simp] theorem State.setSeq_adcCal (s : State) (q : Nat) (c : Seq) : (s.setSeq q c).adcCal = s.adcCal := rfl
@[simp] theorem State.setSeq_tiles (s : State) (q : Nat) (c : Seq) : (s.setSeq q c).tiles = s.tiles := rfl
@[simp] theorem State.setSeq_classes (s : State) (q : Nat) (c : Seq) : (s.setSeq q c).classes = s.classes := rfl
@[simp] theorem State.setSeq_echoes (s : State) (q : Nat) (c : Seq) : (s.setSeq q c).echoes = s.echoes := rfl
@[simp] theorem State.setSeq_gates (s : State) (q : Nat) (c : Seq) : (s.setSeq q c).gates = s.gates := rfl
@[simp] theorem State.setSeq_answer (s : State) (q : Nat) (c : Seq) : (s.setSeq q c).answer = s.answer := rfl
@[simp] theorem State.setSeq_chans (s : State) (q : Nat) (c : Seq) : (s.setSeq q c).chans = s.chans := rfl
@[simp] theorem State.setSeq_capPulses (s : State) (q : Nat) (c : Seq) : (s.setSeq q c).capPulses = s.capPulses := rfl
@[simp] theorem State.setSeq_steer (s : State) (q : Nat) (c : Seq) : (s.setSeq q c).steer = s.steer := rfl
@[simp] theorem State.setSeq_streams (s : State) (q : Nat) (c : Seq) : (s.setSeq q c).streams = s.streams := rfl
@[simp] theorem State.setSeq_wire (s : State) (q : Nat) (c : Seq) : (s.setSeq q c).wire = s.wire := rfl
@[simp] theorem State.setSeq_ptpFrac (s : State) (q : Nat) (c : Seq) : (s.setSeq q c).ptpFrac = s.ptpFrac := rfl
@[simp] theorem State.setSeq_ptpInc (s : State) (q : Nat) (c : Seq) : (s.setSeq q c).ptpInc = s.ptpInc := rfl
@[simp] theorem State.setSeq_ratioFrom (s : State) (q : Nat) (c : Seq) : (s.setSeq q c).ratioFrom = s.ratioFrom := rfl
@[simp] theorem State.setSeq_ppsUntil (s : State) (q : Nat) (c : Seq) : (s.setSeq q c).ppsUntil = s.ppsUntil := rfl
@[simp] theorem State.setSeq_adcCalRun (s : State) (q : Nat) (c : Seq) : (s.setSeq q c).adcCalRun = s.adcCalRun := rfl
@[simp] theorem State.setSeq_dieHot (s : State) (q : Nat) (c : Seq) : (s.setSeq q c).dieHot = s.dieHot := rfl
@[simp] theorem State.setSeq_pllDue (s : State) (q : Nat) (c : Seq) : (s.setSeq q c).pllDue = s.pllDue := rfl
@[simp] theorem State.setSeq_fuse (s : State) (q : Nat) (c : Seq) : (s.setSeq q c).fuse = s.fuse := rfl
@[simp] theorem State.setSeq_shadow (s : State) (q : Nat) (c : Seq) : (s.setSeq q c).shadow = s.shadow := rfl
@[simp] theorem State.setSeq_wordFlags (s : State) (q : Nat) (c : Seq) : (s.setSeq q c).wordFlags = s.wordFlags := rfl
@[simp] theorem State.setSeq_fuseJob (s : State) (q : Nat) (c : Seq) : (s.setSeq q c).fuseJob = s.fuseJob := rfl
@[simp] theorem State.setSeq_policy (s : State) (q : Nat) (c : Seq) : (s.setSeq q c).policy = s.policy := rfl
@[simp] theorem State.setSeq_dbgBarred (s : State) (q : Nat) (c : Seq) : (s.setSeq q c).dbgBarred = s.dbgBarred := rfl
@[simp] theorem State.setSeq_chalPending (s : State) (q : Nat) (c : Seq) : (s.setSeq q c).chalPending = s.chalPending := rfl
@[simp] theorem State.setSeq_secFailing (s : State) (q : Nat) (c : Seq) : (s.setSeq q c).secFailing = s.secFailing := rfl
@[simp] theorem State.setSeq_wdFirst (s : State) (q : Nat) (c : Seq) : (s.setSeq q c).wdFirst = s.wdFirst := rfl
@[simp] theorem State.setSeq_beats (s : State) (q : Nat) (c : Seq) : (s.setSeq q c).beats = s.beats := rfl
@[simp] theorem State.setSeq_testing (s : State) (q : Nat) (c : Seq) : (s.setSeq q c).testing = s.testing := rfl
@[simp] theorem State.setSeq_monFailed (s : State) (q : Nat) (c : Seq) : (s.setSeq q c).monFailed = s.monFailed := rfl
@[simp] theorem State.setSeq_resetting (s : State) (q : Nat) (c : Seq) : (s.setSeq q c).resetting = s.resetting := rfl
@[simp] theorem State.setSeq_capture (s : State) (q : Nat) (c : Seq) : (s.setSeq q c).capture = s.capture := rfl
@[simp] theorem State.setSeq_captureRail (s : State) (q : Nat) (c : Seq) : (s.setSeq q c).captureRail = s.captureRail := rfl
@[simp] theorem State.setSeq_railBelow (s : State) (q : Nat) (c : Seq) : (s.setSeq q c).railBelow = s.railBelow := rfl
@[simp] theorem State.setSeq_railOpen (s : State) (q : Nat) (c : Seq) : (s.setSeq q c).railOpen = s.railOpen := rfl
@[simp] theorem State.setSeq_railDwell (s : State) (q : Nat) (c : Seq) : (s.setSeq q c).railDwell = s.railDwell := rfl
@[simp] theorem State.setSeq_railEpisode (s : State) (q : Nat) (c : Seq) : (s.setSeq q c).railEpisode = s.railEpisode := rfl
@[simp] theorem State.setSeq_scrubLate (s : State) (q : Nat) (c : Seq) : (s.setSeq q c).scrubLate = s.scrubLate := rfl
@[simp] theorem State.setSeq_reloadSeq (s : State) (q : Nat) (c : Seq) : (s.setSeq q c).reloadSeq = s.reloadSeq := rfl

/-! ### After `drawn` -/

@[simp] theorem State.drawn_pending (s : State) : (s.drawn).pending = s.pending := rfl
@[simp] theorem State.drawn_variant (s : State) : (s.drawn).variant = s.variant := rfl
@[simp] theorem State.drawn_lanesOff (s : State) : (s.drawn).lanesOff = s.lanesOff := rfl
@[simp] theorem State.drawn_clustersOff (s : State) : (s.drawn).clustersOff = s.clustersOff := rfl
@[simp] theorem State.drawn_dieBOff (s : State) : (s.drawn).dieBOff = s.dieBOff := rfl
@[simp] theorem State.drawn_uptime (s : State) : (s.drawn).uptime = s.uptime := rfl
@[simp] theorem State.drawn_memGen (s : State) : (s.drawn).memGen = s.memGen := rfl
@[simp] theorem State.drawn_mem (s : State) : (s.drawn).mem = s.mem := rfl
@[simp] theorem State.drawn_memZero (s : State) : (s.drawn).memZero = s.memZero := rfl
@[simp] theorem State.drawn_march (s : State) : (s.drawn).march = s.march := rfl
@[simp] theorem State.drawn_cells (s : State) : (s.drawn).cells = s.cells := rfl
@[simp] theorem State.drawn_ceCount (s : State) : (s.drawn).ceCount = s.ceCount := rfl
@[simp] theorem State.drawn_ceOpen (s : State) : (s.drawn).ceOpen = s.ceOpen := rfl
@[simp] theorem State.drawn_elogHi (s : State) : (s.drawn).elogHi = s.elogHi := rfl
@[simp] theorem State.drawn_mfailHi (s : State) : (s.drawn).mfailHi = s.mfailHi := rfl
@[simp] theorem State.drawn_sparesUsed (s : State) : (s.drawn).sparesUsed = s.sparesUsed := rfl
@[simp] theorem State.drawn_failedTargets (s : State) : (s.drawn).failedTargets = s.failedTargets := rfl
@[simp] theorem State.drawn_regs (s : State) : (s.drawn).regs = s.regs := rfl
@[simp] theorem State.drawn_held (s : State) : (s.drawn).held = s.held := rfl
@[simp] theorem State.drawn_seqs (s : State) : (s.drawn).seqs = s.seqs := rfl
@[simp] theorem State.drawn_splitPairs (s : State) : (s.drawn).splitPairs = s.splitPairs := rfl
@[simp] theorem State.drawn_signals (s : State) : (s.drawn).signals = s.signals := rfl
@[simp] theorem State.drawn_sigWinner (s : State) : (s.drawn).sigWinner = s.sigWinner := rfl
@[simp] theorem State.drawn_ev (s : State) : (s.drawn).ev = s.ev := rfl
@[simp] theorem State.drawn_monPassed (s : State) : (s.drawn).monPassed = s.monPassed := rfl
@[simp] theorem State.drawn_msixSent (s : State) : (s.drawn).msixSent = s.msixSent := rfl
@[simp] theorem State.drawn_msixFnMask (s : State) : (s.drawn).msixFnMask = s.msixFnMask := rfl
@[simp] theorem State.drawn_axes (s : State) : (s.drawn).axes = s.axes := rfl
@[simp] theorem State.drawn_serials (s : State) : (s.drawn).serials = s.serials := rfl
@[simp] theorem State.drawn_encOuts (s : State) : (s.drawn).encOuts = s.encOuts := rfl
@[simp] theorem State.drawn_lbUnits (s : State) : (s.drawn).lbUnits = s.lbUnits := rfl
@[simp] theorem State.drawn_lbForce (s : State) : (s.drawn).lbForce = s.lbForce := rfl
@[simp] theorem State.drawn_lanes (s : State) : (s.drawn).lanes = s.lanes := rfl
@[simp] theorem State.drawn_motors (s : State) : (s.drawn).motors = s.motors := rfl
@[simp] theorem State.drawn_steppers (s : State) : (s.drawn).steppers = s.steppers := rfl
@[simp] theorem State.drawn_cmpIn (s : State) : (s.drawn).cmpIn = s.cmpIn := rfl
@[simp] theorem State.drawn_adcRun (s : State) : (s.drawn).adcRun = s.adcRun := rfl
@[simp] theorem State.drawn_adcWait (s : State) : (s.drawn).adcWait = s.adcWait := rfl
@[simp] theorem State.drawn_adcCal (s : State) : (s.drawn).adcCal = s.adcCal := rfl
@[simp] theorem State.drawn_tiles (s : State) : (s.drawn).tiles = s.tiles := rfl
@[simp] theorem State.drawn_classes (s : State) : (s.drawn).classes = s.classes := rfl
@[simp] theorem State.drawn_echoes (s : State) : (s.drawn).echoes = s.echoes := rfl
@[simp] theorem State.drawn_gates (s : State) : (s.drawn).gates = s.gates := rfl
@[simp] theorem State.drawn_answer (s : State) : (s.drawn).answer = s.answer := rfl
@[simp] theorem State.drawn_chans (s : State) : (s.drawn).chans = s.chans := rfl
@[simp] theorem State.drawn_capPulses (s : State) : (s.drawn).capPulses = s.capPulses := rfl
@[simp] theorem State.drawn_steer (s : State) : (s.drawn).steer = s.steer := rfl
@[simp] theorem State.drawn_streams (s : State) : (s.drawn).streams = s.streams := rfl
@[simp] theorem State.drawn_wire (s : State) : (s.drawn).wire = s.wire := rfl
@[simp] theorem State.drawn_ptpFrac (s : State) : (s.drawn).ptpFrac = s.ptpFrac := rfl
@[simp] theorem State.drawn_ptpInc (s : State) : (s.drawn).ptpInc = s.ptpInc := rfl
@[simp] theorem State.drawn_ratioFrom (s : State) : (s.drawn).ratioFrom = s.ratioFrom := rfl
@[simp] theorem State.drawn_ppsUntil (s : State) : (s.drawn).ppsUntil = s.ppsUntil := rfl
@[simp] theorem State.drawn_adcCalRun (s : State) : (s.drawn).adcCalRun = s.adcCalRun := rfl
@[simp] theorem State.drawn_dieHot (s : State) : (s.drawn).dieHot = s.dieHot := rfl
@[simp] theorem State.drawn_pllDue (s : State) : (s.drawn).pllDue = s.pllDue := rfl
@[simp] theorem State.drawn_fuse (s : State) : (s.drawn).fuse = s.fuse := rfl
@[simp] theorem State.drawn_shadow (s : State) : (s.drawn).shadow = s.shadow := rfl
@[simp] theorem State.drawn_wordFlags (s : State) : (s.drawn).wordFlags = s.wordFlags := rfl
@[simp] theorem State.drawn_fuseJob (s : State) : (s.drawn).fuseJob = s.fuseJob := rfl
@[simp] theorem State.drawn_policy (s : State) : (s.drawn).policy = s.policy := rfl
@[simp] theorem State.drawn_dbgBarred (s : State) : (s.drawn).dbgBarred = s.dbgBarred := rfl
@[simp] theorem State.drawn_chalPending (s : State) : (s.drawn).chalPending = s.chalPending := rfl
@[simp] theorem State.drawn_secFailing (s : State) : (s.drawn).secFailing = s.secFailing := rfl
@[simp] theorem State.drawn_wdFirst (s : State) : (s.drawn).wdFirst = s.wdFirst := rfl
@[simp] theorem State.drawn_beats (s : State) : (s.drawn).beats = s.beats := rfl
@[simp] theorem State.drawn_testing (s : State) : (s.drawn).testing = s.testing := rfl
@[simp] theorem State.drawn_monFailed (s : State) : (s.drawn).monFailed = s.monFailed := rfl
@[simp] theorem State.drawn_resetting (s : State) : (s.drawn).resetting = s.resetting := rfl
@[simp] theorem State.drawn_capture (s : State) : (s.drawn).capture = s.capture := rfl
@[simp] theorem State.drawn_captureRail (s : State) : (s.drawn).captureRail = s.captureRail := rfl
@[simp] theorem State.drawn_railBelow (s : State) : (s.drawn).railBelow = s.railBelow := rfl
@[simp] theorem State.drawn_railOpen (s : State) : (s.drawn).railOpen = s.railOpen := rfl
@[simp] theorem State.drawn_railDwell (s : State) : (s.drawn).railDwell = s.railDwell := rfl
@[simp] theorem State.drawn_railEpisode (s : State) : (s.drawn).railEpisode = s.railEpisode := rfl
@[simp] theorem State.drawn_scrubLate (s : State) : (s.drawn).scrubLate = s.scrubLate := rfl
@[simp] theorem State.drawn_reloadSeq (s : State) : (s.drawn).reloadSeq = s.reloadSeq := rfl

/-! ### After `answered` -/

@[simp] theorem State.answered_pending (s : State) (x : Answer) : (s.answered x).pending = s.pending := rfl
@[simp] theorem State.answered_variant (s : State) (x : Answer) : (s.answered x).variant = s.variant := rfl
@[simp] theorem State.answered_lanesOff (s : State) (x : Answer) : (s.answered x).lanesOff = s.lanesOff := rfl
@[simp] theorem State.answered_clustersOff (s : State) (x : Answer) : (s.answered x).clustersOff = s.clustersOff := rfl
@[simp] theorem State.answered_dieBOff (s : State) (x : Answer) : (s.answered x).dieBOff = s.dieBOff := rfl
@[simp] theorem State.answered_uptime (s : State) (x : Answer) : (s.answered x).uptime = s.uptime := rfl
@[simp] theorem State.answered_freeCount (s : State) (x : Answer) : (s.answered x).freeCount = s.freeCount := rfl
@[simp] theorem State.answered_memGen (s : State) (x : Answer) : (s.answered x).memGen = s.memGen := rfl
@[simp] theorem State.answered_mem (s : State) (x : Answer) : (s.answered x).mem = s.mem := rfl
@[simp] theorem State.answered_memZero (s : State) (x : Answer) : (s.answered x).memZero = s.memZero := rfl
@[simp] theorem State.answered_march (s : State) (x : Answer) : (s.answered x).march = s.march := rfl
@[simp] theorem State.answered_cells (s : State) (x : Answer) : (s.answered x).cells = s.cells := rfl
@[simp] theorem State.answered_ceCount (s : State) (x : Answer) : (s.answered x).ceCount = s.ceCount := rfl
@[simp] theorem State.answered_ceOpen (s : State) (x : Answer) : (s.answered x).ceOpen = s.ceOpen := rfl
@[simp] theorem State.answered_elogHi (s : State) (x : Answer) : (s.answered x).elogHi = s.elogHi := rfl
@[simp] theorem State.answered_mfailHi (s : State) (x : Answer) : (s.answered x).mfailHi = s.mfailHi := rfl
@[simp] theorem State.answered_sparesUsed (s : State) (x : Answer) : (s.answered x).sparesUsed = s.sparesUsed := rfl
@[simp] theorem State.answered_failedTargets (s : State) (x : Answer) : (s.answered x).failedTargets = s.failedTargets := rfl
@[simp] theorem State.answered_regs (s : State) (x : Answer) : (s.answered x).regs = s.regs := rfl
@[simp] theorem State.answered_held (s : State) (x : Answer) : (s.answered x).held = s.held := rfl
@[simp] theorem State.answered_seqs (s : State) (x : Answer) : (s.answered x).seqs = s.seqs := rfl
@[simp] theorem State.answered_splitPairs (s : State) (x : Answer) : (s.answered x).splitPairs = s.splitPairs := rfl
@[simp] theorem State.answered_signals (s : State) (x : Answer) : (s.answered x).signals = s.signals := rfl
@[simp] theorem State.answered_sigWinner (s : State) (x : Answer) : (s.answered x).sigWinner = s.sigWinner := rfl
@[simp] theorem State.answered_ev (s : State) (x : Answer) : (s.answered x).ev = s.ev := rfl
@[simp] theorem State.answered_monPassed (s : State) (x : Answer) : (s.answered x).monPassed = s.monPassed := rfl
@[simp] theorem State.answered_msixSent (s : State) (x : Answer) : (s.answered x).msixSent = s.msixSent := rfl
@[simp] theorem State.answered_msixFnMask (s : State) (x : Answer) : (s.answered x).msixFnMask = s.msixFnMask := rfl
@[simp] theorem State.answered_axes (s : State) (x : Answer) : (s.answered x).axes = s.axes := rfl
@[simp] theorem State.answered_serials (s : State) (x : Answer) : (s.answered x).serials = s.serials := rfl
@[simp] theorem State.answered_encOuts (s : State) (x : Answer) : (s.answered x).encOuts = s.encOuts := rfl
@[simp] theorem State.answered_lbUnits (s : State) (x : Answer) : (s.answered x).lbUnits = s.lbUnits := rfl
@[simp] theorem State.answered_lbForce (s : State) (x : Answer) : (s.answered x).lbForce = s.lbForce := rfl
@[simp] theorem State.answered_lanes (s : State) (x : Answer) : (s.answered x).lanes = s.lanes := rfl
@[simp] theorem State.answered_motors (s : State) (x : Answer) : (s.answered x).motors = s.motors := rfl
@[simp] theorem State.answered_steppers (s : State) (x : Answer) : (s.answered x).steppers = s.steppers := rfl
@[simp] theorem State.answered_cmpIn (s : State) (x : Answer) : (s.answered x).cmpIn = s.cmpIn := rfl
@[simp] theorem State.answered_adcRun (s : State) (x : Answer) : (s.answered x).adcRun = s.adcRun := rfl
@[simp] theorem State.answered_adcWait (s : State) (x : Answer) : (s.answered x).adcWait = s.adcWait := rfl
@[simp] theorem State.answered_adcCal (s : State) (x : Answer) : (s.answered x).adcCal = s.adcCal := rfl
@[simp] theorem State.answered_tiles (s : State) (x : Answer) : (s.answered x).tiles = s.tiles := rfl
@[simp] theorem State.answered_classes (s : State) (x : Answer) : (s.answered x).classes = s.classes := rfl
@[simp] theorem State.answered_echoes (s : State) (x : Answer) : (s.answered x).echoes = s.echoes := rfl
@[simp] theorem State.answered_gates (s : State) (x : Answer) : (s.answered x).gates = s.gates := rfl
@[simp] theorem State.answered_chans (s : State) (x : Answer) : (s.answered x).chans = s.chans := rfl
@[simp] theorem State.answered_capPulses (s : State) (x : Answer) : (s.answered x).capPulses = s.capPulses := rfl
@[simp] theorem State.answered_steer (s : State) (x : Answer) : (s.answered x).steer = s.steer := rfl
@[simp] theorem State.answered_streams (s : State) (x : Answer) : (s.answered x).streams = s.streams := rfl
@[simp] theorem State.answered_wire (s : State) (x : Answer) : (s.answered x).wire = s.wire := rfl
@[simp] theorem State.answered_ptpFrac (s : State) (x : Answer) : (s.answered x).ptpFrac = s.ptpFrac := rfl
@[simp] theorem State.answered_ptpInc (s : State) (x : Answer) : (s.answered x).ptpInc = s.ptpInc := rfl
@[simp] theorem State.answered_ratioFrom (s : State) (x : Answer) : (s.answered x).ratioFrom = s.ratioFrom := rfl
@[simp] theorem State.answered_ppsUntil (s : State) (x : Answer) : (s.answered x).ppsUntil = s.ppsUntil := rfl
@[simp] theorem State.answered_adcCalRun (s : State) (x : Answer) : (s.answered x).adcCalRun = s.adcCalRun := rfl
@[simp] theorem State.answered_dieHot (s : State) (x : Answer) : (s.answered x).dieHot = s.dieHot := rfl
@[simp] theorem State.answered_pllDue (s : State) (x : Answer) : (s.answered x).pllDue = s.pllDue := rfl
@[simp] theorem State.answered_fuse (s : State) (x : Answer) : (s.answered x).fuse = s.fuse := rfl
@[simp] theorem State.answered_shadow (s : State) (x : Answer) : (s.answered x).shadow = s.shadow := rfl
@[simp] theorem State.answered_wordFlags (s : State) (x : Answer) : (s.answered x).wordFlags = s.wordFlags := rfl
@[simp] theorem State.answered_fuseJob (s : State) (x : Answer) : (s.answered x).fuseJob = s.fuseJob := rfl
@[simp] theorem State.answered_policy (s : State) (x : Answer) : (s.answered x).policy = s.policy := rfl
@[simp] theorem State.answered_dbgBarred (s : State) (x : Answer) : (s.answered x).dbgBarred = s.dbgBarred := rfl
@[simp] theorem State.answered_chalPending (s : State) (x : Answer) : (s.answered x).chalPending = s.chalPending := rfl
@[simp] theorem State.answered_secFailing (s : State) (x : Answer) : (s.answered x).secFailing = s.secFailing := rfl
@[simp] theorem State.answered_wdFirst (s : State) (x : Answer) : (s.answered x).wdFirst = s.wdFirst := rfl
@[simp] theorem State.answered_beats (s : State) (x : Answer) : (s.answered x).beats = s.beats := rfl
@[simp] theorem State.answered_testing (s : State) (x : Answer) : (s.answered x).testing = s.testing := rfl
@[simp] theorem State.answered_monFailed (s : State) (x : Answer) : (s.answered x).monFailed = s.monFailed := rfl
@[simp] theorem State.answered_resetting (s : State) (x : Answer) : (s.answered x).resetting = s.resetting := rfl
@[simp] theorem State.answered_capture (s : State) (x : Answer) : (s.answered x).capture = s.capture := rfl
@[simp] theorem State.answered_captureRail (s : State) (x : Answer) : (s.answered x).captureRail = s.captureRail := rfl
@[simp] theorem State.answered_railBelow (s : State) (x : Answer) : (s.answered x).railBelow = s.railBelow := rfl
@[simp] theorem State.answered_railOpen (s : State) (x : Answer) : (s.answered x).railOpen = s.railOpen := rfl
@[simp] theorem State.answered_railDwell (s : State) (x : Answer) : (s.answered x).railDwell = s.railDwell := rfl
@[simp] theorem State.answered_railEpisode (s : State) (x : Answer) : (s.answered x).railEpisode = s.railEpisode := rfl
@[simp] theorem State.answered_scrubLate (s : State) (x : Answer) : (s.answered x).scrubLate = s.scrubLate := rfl
@[simp] theorem State.answered_reloadSeq (s : State) (x : Answer) : (s.answered x).reloadSeq = s.reloadSeq := rfl

/-! ### After `setSignal` -/

@[simp] theorem State.setSignal_pending (s : State) (k : Nat) : (s.setSignal k).pending = s.pending := rfl
@[simp] theorem State.setSignal_variant (s : State) (k : Nat) : (s.setSignal k).variant = s.variant := rfl
@[simp] theorem State.setSignal_lanesOff (s : State) (k : Nat) : (s.setSignal k).lanesOff = s.lanesOff := rfl
@[simp] theorem State.setSignal_clustersOff (s : State) (k : Nat) : (s.setSignal k).clustersOff = s.clustersOff := rfl
@[simp] theorem State.setSignal_dieBOff (s : State) (k : Nat) : (s.setSignal k).dieBOff = s.dieBOff := rfl
@[simp] theorem State.setSignal_uptime (s : State) (k : Nat) : (s.setSignal k).uptime = s.uptime := rfl
@[simp] theorem State.setSignal_freeCount (s : State) (k : Nat) : (s.setSignal k).freeCount = s.freeCount := rfl
@[simp] theorem State.setSignal_memGen (s : State) (k : Nat) : (s.setSignal k).memGen = s.memGen := rfl
@[simp] theorem State.setSignal_mem (s : State) (k : Nat) : (s.setSignal k).mem = s.mem := rfl
@[simp] theorem State.setSignal_memZero (s : State) (k : Nat) : (s.setSignal k).memZero = s.memZero := rfl
@[simp] theorem State.setSignal_march (s : State) (k : Nat) : (s.setSignal k).march = s.march := rfl
@[simp] theorem State.setSignal_cells (s : State) (k : Nat) : (s.setSignal k).cells = s.cells := rfl
@[simp] theorem State.setSignal_ceCount (s : State) (k : Nat) : (s.setSignal k).ceCount = s.ceCount := rfl
@[simp] theorem State.setSignal_ceOpen (s : State) (k : Nat) : (s.setSignal k).ceOpen = s.ceOpen := rfl
@[simp] theorem State.setSignal_elogHi (s : State) (k : Nat) : (s.setSignal k).elogHi = s.elogHi := rfl
@[simp] theorem State.setSignal_mfailHi (s : State) (k : Nat) : (s.setSignal k).mfailHi = s.mfailHi := rfl
@[simp] theorem State.setSignal_sparesUsed (s : State) (k : Nat) : (s.setSignal k).sparesUsed = s.sparesUsed := rfl
@[simp] theorem State.setSignal_failedTargets (s : State) (k : Nat) : (s.setSignal k).failedTargets = s.failedTargets := rfl
@[simp] theorem State.setSignal_regs (s : State) (k : Nat) : (s.setSignal k).regs = s.regs := rfl
@[simp] theorem State.setSignal_held (s : State) (k : Nat) : (s.setSignal k).held = s.held := rfl
@[simp] theorem State.setSignal_seqs (s : State) (k : Nat) : (s.setSignal k).seqs = s.seqs := rfl
@[simp] theorem State.setSignal_splitPairs (s : State) (k : Nat) : (s.setSignal k).splitPairs = s.splitPairs := rfl
@[simp] theorem State.setSignal_sigWinner (s : State) (k : Nat) : (s.setSignal k).sigWinner = s.sigWinner := rfl
@[simp] theorem State.setSignal_ev (s : State) (k : Nat) : (s.setSignal k).ev = s.ev := rfl
@[simp] theorem State.setSignal_monPassed (s : State) (k : Nat) : (s.setSignal k).monPassed = s.monPassed := rfl
@[simp] theorem State.setSignal_msixSent (s : State) (k : Nat) : (s.setSignal k).msixSent = s.msixSent := rfl
@[simp] theorem State.setSignal_msixFnMask (s : State) (k : Nat) : (s.setSignal k).msixFnMask = s.msixFnMask := rfl
@[simp] theorem State.setSignal_axes (s : State) (k : Nat) : (s.setSignal k).axes = s.axes := rfl
@[simp] theorem State.setSignal_serials (s : State) (k : Nat) : (s.setSignal k).serials = s.serials := rfl
@[simp] theorem State.setSignal_encOuts (s : State) (k : Nat) : (s.setSignal k).encOuts = s.encOuts := rfl
@[simp] theorem State.setSignal_lbUnits (s : State) (k : Nat) : (s.setSignal k).lbUnits = s.lbUnits := rfl
@[simp] theorem State.setSignal_lbForce (s : State) (k : Nat) : (s.setSignal k).lbForce = s.lbForce := rfl
@[simp] theorem State.setSignal_lanes (s : State) (k : Nat) : (s.setSignal k).lanes = s.lanes := rfl
@[simp] theorem State.setSignal_motors (s : State) (k : Nat) : (s.setSignal k).motors = s.motors := rfl
@[simp] theorem State.setSignal_steppers (s : State) (k : Nat) : (s.setSignal k).steppers = s.steppers := rfl
@[simp] theorem State.setSignal_cmpIn (s : State) (k : Nat) : (s.setSignal k).cmpIn = s.cmpIn := rfl
@[simp] theorem State.setSignal_adcRun (s : State) (k : Nat) : (s.setSignal k).adcRun = s.adcRun := rfl
@[simp] theorem State.setSignal_adcWait (s : State) (k : Nat) : (s.setSignal k).adcWait = s.adcWait := rfl
@[simp] theorem State.setSignal_adcCal (s : State) (k : Nat) : (s.setSignal k).adcCal = s.adcCal := rfl
@[simp] theorem State.setSignal_tiles (s : State) (k : Nat) : (s.setSignal k).tiles = s.tiles := rfl
@[simp] theorem State.setSignal_classes (s : State) (k : Nat) : (s.setSignal k).classes = s.classes := rfl
@[simp] theorem State.setSignal_echoes (s : State) (k : Nat) : (s.setSignal k).echoes = s.echoes := rfl
@[simp] theorem State.setSignal_gates (s : State) (k : Nat) : (s.setSignal k).gates = s.gates := rfl
@[simp] theorem State.setSignal_answer (s : State) (k : Nat) : (s.setSignal k).answer = s.answer := rfl
@[simp] theorem State.setSignal_chans (s : State) (k : Nat) : (s.setSignal k).chans = s.chans := rfl
@[simp] theorem State.setSignal_capPulses (s : State) (k : Nat) : (s.setSignal k).capPulses = s.capPulses := rfl
@[simp] theorem State.setSignal_steer (s : State) (k : Nat) : (s.setSignal k).steer = s.steer := rfl
@[simp] theorem State.setSignal_streams (s : State) (k : Nat) : (s.setSignal k).streams = s.streams := rfl
@[simp] theorem State.setSignal_wire (s : State) (k : Nat) : (s.setSignal k).wire = s.wire := rfl
@[simp] theorem State.setSignal_ptpFrac (s : State) (k : Nat) : (s.setSignal k).ptpFrac = s.ptpFrac := rfl
@[simp] theorem State.setSignal_ptpInc (s : State) (k : Nat) : (s.setSignal k).ptpInc = s.ptpInc := rfl
@[simp] theorem State.setSignal_ratioFrom (s : State) (k : Nat) : (s.setSignal k).ratioFrom = s.ratioFrom := rfl
@[simp] theorem State.setSignal_ppsUntil (s : State) (k : Nat) : (s.setSignal k).ppsUntil = s.ppsUntil := rfl
@[simp] theorem State.setSignal_adcCalRun (s : State) (k : Nat) : (s.setSignal k).adcCalRun = s.adcCalRun := rfl
@[simp] theorem State.setSignal_dieHot (s : State) (k : Nat) : (s.setSignal k).dieHot = s.dieHot := rfl
@[simp] theorem State.setSignal_pllDue (s : State) (k : Nat) : (s.setSignal k).pllDue = s.pllDue := rfl
@[simp] theorem State.setSignal_fuse (s : State) (k : Nat) : (s.setSignal k).fuse = s.fuse := rfl
@[simp] theorem State.setSignal_shadow (s : State) (k : Nat) : (s.setSignal k).shadow = s.shadow := rfl
@[simp] theorem State.setSignal_wordFlags (s : State) (k : Nat) : (s.setSignal k).wordFlags = s.wordFlags := rfl
@[simp] theorem State.setSignal_fuseJob (s : State) (k : Nat) : (s.setSignal k).fuseJob = s.fuseJob := rfl
@[simp] theorem State.setSignal_policy (s : State) (k : Nat) : (s.setSignal k).policy = s.policy := rfl
@[simp] theorem State.setSignal_dbgBarred (s : State) (k : Nat) : (s.setSignal k).dbgBarred = s.dbgBarred := rfl
@[simp] theorem State.setSignal_chalPending (s : State) (k : Nat) : (s.setSignal k).chalPending = s.chalPending := rfl
@[simp] theorem State.setSignal_secFailing (s : State) (k : Nat) : (s.setSignal k).secFailing = s.secFailing := rfl
@[simp] theorem State.setSignal_wdFirst (s : State) (k : Nat) : (s.setSignal k).wdFirst = s.wdFirst := rfl
@[simp] theorem State.setSignal_beats (s : State) (k : Nat) : (s.setSignal k).beats = s.beats := rfl
@[simp] theorem State.setSignal_testing (s : State) (k : Nat) : (s.setSignal k).testing = s.testing := rfl
@[simp] theorem State.setSignal_monFailed (s : State) (k : Nat) : (s.setSignal k).monFailed = s.monFailed := rfl
@[simp] theorem State.setSignal_resetting (s : State) (k : Nat) : (s.setSignal k).resetting = s.resetting := rfl
@[simp] theorem State.setSignal_capture (s : State) (k : Nat) : (s.setSignal k).capture = s.capture := rfl
@[simp] theorem State.setSignal_captureRail (s : State) (k : Nat) : (s.setSignal k).captureRail = s.captureRail := rfl
@[simp] theorem State.setSignal_railBelow (s : State) (k : Nat) : (s.setSignal k).railBelow = s.railBelow := rfl
@[simp] theorem State.setSignal_railOpen (s : State) (k : Nat) : (s.setSignal k).railOpen = s.railOpen := rfl
@[simp] theorem State.setSignal_railDwell (s : State) (k : Nat) : (s.setSignal k).railDwell = s.railDwell := rfl
@[simp] theorem State.setSignal_railEpisode (s : State) (k : Nat) : (s.setSignal k).railEpisode = s.railEpisode := rfl
@[simp] theorem State.setSignal_scrubLate (s : State) (k : Nat) : (s.setSignal k).scrubLate = s.scrubLate := rfl
@[simp] theorem State.setSignal_reloadSeq (s : State) (k : Nat) : (s.setSignal k).reloadSeq = s.reloadSeq := rfl

/-! ### After `clearSignal` -/

@[simp] theorem State.clearSignal_pending (s : State) (k : Nat) : (s.clearSignal k).pending = s.pending := rfl
@[simp] theorem State.clearSignal_variant (s : State) (k : Nat) : (s.clearSignal k).variant = s.variant := rfl
@[simp] theorem State.clearSignal_lanesOff (s : State) (k : Nat) : (s.clearSignal k).lanesOff = s.lanesOff := rfl
@[simp] theorem State.clearSignal_clustersOff (s : State) (k : Nat) : (s.clearSignal k).clustersOff = s.clustersOff := rfl
@[simp] theorem State.clearSignal_dieBOff (s : State) (k : Nat) : (s.clearSignal k).dieBOff = s.dieBOff := rfl
@[simp] theorem State.clearSignal_uptime (s : State) (k : Nat) : (s.clearSignal k).uptime = s.uptime := rfl
@[simp] theorem State.clearSignal_freeCount (s : State) (k : Nat) : (s.clearSignal k).freeCount = s.freeCount := rfl
@[simp] theorem State.clearSignal_memGen (s : State) (k : Nat) : (s.clearSignal k).memGen = s.memGen := rfl
@[simp] theorem State.clearSignal_mem (s : State) (k : Nat) : (s.clearSignal k).mem = s.mem := rfl
@[simp] theorem State.clearSignal_memZero (s : State) (k : Nat) : (s.clearSignal k).memZero = s.memZero := rfl
@[simp] theorem State.clearSignal_march (s : State) (k : Nat) : (s.clearSignal k).march = s.march := rfl
@[simp] theorem State.clearSignal_cells (s : State) (k : Nat) : (s.clearSignal k).cells = s.cells := rfl
@[simp] theorem State.clearSignal_ceCount (s : State) (k : Nat) : (s.clearSignal k).ceCount = s.ceCount := rfl
@[simp] theorem State.clearSignal_ceOpen (s : State) (k : Nat) : (s.clearSignal k).ceOpen = s.ceOpen := rfl
@[simp] theorem State.clearSignal_elogHi (s : State) (k : Nat) : (s.clearSignal k).elogHi = s.elogHi := rfl
@[simp] theorem State.clearSignal_mfailHi (s : State) (k : Nat) : (s.clearSignal k).mfailHi = s.mfailHi := rfl
@[simp] theorem State.clearSignal_sparesUsed (s : State) (k : Nat) : (s.clearSignal k).sparesUsed = s.sparesUsed := rfl
@[simp] theorem State.clearSignal_failedTargets (s : State) (k : Nat) : (s.clearSignal k).failedTargets = s.failedTargets := rfl
@[simp] theorem State.clearSignal_regs (s : State) (k : Nat) : (s.clearSignal k).regs = s.regs := rfl
@[simp] theorem State.clearSignal_held (s : State) (k : Nat) : (s.clearSignal k).held = s.held := rfl
@[simp] theorem State.clearSignal_seqs (s : State) (k : Nat) : (s.clearSignal k).seqs = s.seqs := rfl
@[simp] theorem State.clearSignal_splitPairs (s : State) (k : Nat) : (s.clearSignal k).splitPairs = s.splitPairs := rfl
@[simp] theorem State.clearSignal_sigWinner (s : State) (k : Nat) : (s.clearSignal k).sigWinner = s.sigWinner := rfl
@[simp] theorem State.clearSignal_ev (s : State) (k : Nat) : (s.clearSignal k).ev = s.ev := rfl
@[simp] theorem State.clearSignal_monPassed (s : State) (k : Nat) : (s.clearSignal k).monPassed = s.monPassed := rfl
@[simp] theorem State.clearSignal_msixSent (s : State) (k : Nat) : (s.clearSignal k).msixSent = s.msixSent := rfl
@[simp] theorem State.clearSignal_msixFnMask (s : State) (k : Nat) : (s.clearSignal k).msixFnMask = s.msixFnMask := rfl
@[simp] theorem State.clearSignal_axes (s : State) (k : Nat) : (s.clearSignal k).axes = s.axes := rfl
@[simp] theorem State.clearSignal_serials (s : State) (k : Nat) : (s.clearSignal k).serials = s.serials := rfl
@[simp] theorem State.clearSignal_encOuts (s : State) (k : Nat) : (s.clearSignal k).encOuts = s.encOuts := rfl
@[simp] theorem State.clearSignal_lbUnits (s : State) (k : Nat) : (s.clearSignal k).lbUnits = s.lbUnits := rfl
@[simp] theorem State.clearSignal_lbForce (s : State) (k : Nat) : (s.clearSignal k).lbForce = s.lbForce := rfl
@[simp] theorem State.clearSignal_lanes (s : State) (k : Nat) : (s.clearSignal k).lanes = s.lanes := rfl
@[simp] theorem State.clearSignal_motors (s : State) (k : Nat) : (s.clearSignal k).motors = s.motors := rfl
@[simp] theorem State.clearSignal_steppers (s : State) (k : Nat) : (s.clearSignal k).steppers = s.steppers := rfl
@[simp] theorem State.clearSignal_cmpIn (s : State) (k : Nat) : (s.clearSignal k).cmpIn = s.cmpIn := rfl
@[simp] theorem State.clearSignal_adcRun (s : State) (k : Nat) : (s.clearSignal k).adcRun = s.adcRun := rfl
@[simp] theorem State.clearSignal_adcWait (s : State) (k : Nat) : (s.clearSignal k).adcWait = s.adcWait := rfl
@[simp] theorem State.clearSignal_adcCal (s : State) (k : Nat) : (s.clearSignal k).adcCal = s.adcCal := rfl
@[simp] theorem State.clearSignal_tiles (s : State) (k : Nat) : (s.clearSignal k).tiles = s.tiles := rfl
@[simp] theorem State.clearSignal_classes (s : State) (k : Nat) : (s.clearSignal k).classes = s.classes := rfl
@[simp] theorem State.clearSignal_echoes (s : State) (k : Nat) : (s.clearSignal k).echoes = s.echoes := rfl
@[simp] theorem State.clearSignal_gates (s : State) (k : Nat) : (s.clearSignal k).gates = s.gates := rfl
@[simp] theorem State.clearSignal_answer (s : State) (k : Nat) : (s.clearSignal k).answer = s.answer := rfl
@[simp] theorem State.clearSignal_chans (s : State) (k : Nat) : (s.clearSignal k).chans = s.chans := rfl
@[simp] theorem State.clearSignal_capPulses (s : State) (k : Nat) : (s.clearSignal k).capPulses = s.capPulses := rfl
@[simp] theorem State.clearSignal_steer (s : State) (k : Nat) : (s.clearSignal k).steer = s.steer := rfl
@[simp] theorem State.clearSignal_streams (s : State) (k : Nat) : (s.clearSignal k).streams = s.streams := rfl
@[simp] theorem State.clearSignal_wire (s : State) (k : Nat) : (s.clearSignal k).wire = s.wire := rfl
@[simp] theorem State.clearSignal_ptpFrac (s : State) (k : Nat) : (s.clearSignal k).ptpFrac = s.ptpFrac := rfl
@[simp] theorem State.clearSignal_ptpInc (s : State) (k : Nat) : (s.clearSignal k).ptpInc = s.ptpInc := rfl
@[simp] theorem State.clearSignal_ratioFrom (s : State) (k : Nat) : (s.clearSignal k).ratioFrom = s.ratioFrom := rfl
@[simp] theorem State.clearSignal_ppsUntil (s : State) (k : Nat) : (s.clearSignal k).ppsUntil = s.ppsUntil := rfl
@[simp] theorem State.clearSignal_adcCalRun (s : State) (k : Nat) : (s.clearSignal k).adcCalRun = s.adcCalRun := rfl
@[simp] theorem State.clearSignal_dieHot (s : State) (k : Nat) : (s.clearSignal k).dieHot = s.dieHot := rfl
@[simp] theorem State.clearSignal_pllDue (s : State) (k : Nat) : (s.clearSignal k).pllDue = s.pllDue := rfl
@[simp] theorem State.clearSignal_fuse (s : State) (k : Nat) : (s.clearSignal k).fuse = s.fuse := rfl
@[simp] theorem State.clearSignal_shadow (s : State) (k : Nat) : (s.clearSignal k).shadow = s.shadow := rfl
@[simp] theorem State.clearSignal_wordFlags (s : State) (k : Nat) : (s.clearSignal k).wordFlags = s.wordFlags := rfl
@[simp] theorem State.clearSignal_fuseJob (s : State) (k : Nat) : (s.clearSignal k).fuseJob = s.fuseJob := rfl
@[simp] theorem State.clearSignal_policy (s : State) (k : Nat) : (s.clearSignal k).policy = s.policy := rfl
@[simp] theorem State.clearSignal_dbgBarred (s : State) (k : Nat) : (s.clearSignal k).dbgBarred = s.dbgBarred := rfl
@[simp] theorem State.clearSignal_chalPending (s : State) (k : Nat) : (s.clearSignal k).chalPending = s.chalPending := rfl
@[simp] theorem State.clearSignal_secFailing (s : State) (k : Nat) : (s.clearSignal k).secFailing = s.secFailing := rfl
@[simp] theorem State.clearSignal_wdFirst (s : State) (k : Nat) : (s.clearSignal k).wdFirst = s.wdFirst := rfl
@[simp] theorem State.clearSignal_beats (s : State) (k : Nat) : (s.clearSignal k).beats = s.beats := rfl
@[simp] theorem State.clearSignal_testing (s : State) (k : Nat) : (s.clearSignal k).testing = s.testing := rfl
@[simp] theorem State.clearSignal_monFailed (s : State) (k : Nat) : (s.clearSignal k).monFailed = s.monFailed := rfl
@[simp] theorem State.clearSignal_resetting (s : State) (k : Nat) : (s.clearSignal k).resetting = s.resetting := rfl
@[simp] theorem State.clearSignal_capture (s : State) (k : Nat) : (s.clearSignal k).capture = s.capture := rfl
@[simp] theorem State.clearSignal_captureRail (s : State) (k : Nat) : (s.clearSignal k).captureRail = s.captureRail := rfl
@[simp] theorem State.clearSignal_railBelow (s : State) (k : Nat) : (s.clearSignal k).railBelow = s.railBelow := rfl
@[simp] theorem State.clearSignal_railOpen (s : State) (k : Nat) : (s.clearSignal k).railOpen = s.railOpen := rfl
@[simp] theorem State.clearSignal_railDwell (s : State) (k : Nat) : (s.clearSignal k).railDwell = s.railDwell := rfl
@[simp] theorem State.clearSignal_railEpisode (s : State) (k : Nat) : (s.clearSignal k).railEpisode = s.railEpisode := rfl
@[simp] theorem State.clearSignal_scrubLate (s : State) (k : Nat) : (s.clearSignal k).scrubLate = s.scrubLate := rfl
@[simp] theorem State.clearSignal_reloadSeq (s : State) (k : Nat) : (s.clearSignal k).reloadSeq = s.reloadSeq := rfl

/-! ### After `setAxis` -/

@[simp] theorem State.setAxis_pending (s : State) (n : Nat) (x : Axis) : (s.setAxis n x).pending = s.pending := rfl
@[simp] theorem State.setAxis_variant (s : State) (n : Nat) (x : Axis) : (s.setAxis n x).variant = s.variant := rfl
@[simp] theorem State.setAxis_lanesOff (s : State) (n : Nat) (x : Axis) : (s.setAxis n x).lanesOff = s.lanesOff := rfl
@[simp] theorem State.setAxis_clustersOff (s : State) (n : Nat) (x : Axis) : (s.setAxis n x).clustersOff = s.clustersOff := rfl
@[simp] theorem State.setAxis_dieBOff (s : State) (n : Nat) (x : Axis) : (s.setAxis n x).dieBOff = s.dieBOff := rfl
@[simp] theorem State.setAxis_uptime (s : State) (n : Nat) (x : Axis) : (s.setAxis n x).uptime = s.uptime := rfl
@[simp] theorem State.setAxis_freeCount (s : State) (n : Nat) (x : Axis) : (s.setAxis n x).freeCount = s.freeCount := rfl
@[simp] theorem State.setAxis_memGen (s : State) (n : Nat) (x : Axis) : (s.setAxis n x).memGen = s.memGen := rfl
@[simp] theorem State.setAxis_mem (s : State) (n : Nat) (x : Axis) : (s.setAxis n x).mem = s.mem := rfl
@[simp] theorem State.setAxis_memZero (s : State) (n : Nat) (x : Axis) : (s.setAxis n x).memZero = s.memZero := rfl
@[simp] theorem State.setAxis_march (s : State) (n : Nat) (x : Axis) : (s.setAxis n x).march = s.march := rfl
@[simp] theorem State.setAxis_cells (s : State) (n : Nat) (x : Axis) : (s.setAxis n x).cells = s.cells := rfl
@[simp] theorem State.setAxis_ceCount (s : State) (n : Nat) (x : Axis) : (s.setAxis n x).ceCount = s.ceCount := rfl
@[simp] theorem State.setAxis_ceOpen (s : State) (n : Nat) (x : Axis) : (s.setAxis n x).ceOpen = s.ceOpen := rfl
@[simp] theorem State.setAxis_elogHi (s : State) (n : Nat) (x : Axis) : (s.setAxis n x).elogHi = s.elogHi := rfl
@[simp] theorem State.setAxis_mfailHi (s : State) (n : Nat) (x : Axis) : (s.setAxis n x).mfailHi = s.mfailHi := rfl
@[simp] theorem State.setAxis_sparesUsed (s : State) (n : Nat) (x : Axis) : (s.setAxis n x).sparesUsed = s.sparesUsed := rfl
@[simp] theorem State.setAxis_failedTargets (s : State) (n : Nat) (x : Axis) : (s.setAxis n x).failedTargets = s.failedTargets := rfl
@[simp] theorem State.setAxis_regs (s : State) (n : Nat) (x : Axis) : (s.setAxis n x).regs = s.regs := rfl
@[simp] theorem State.setAxis_held (s : State) (n : Nat) (x : Axis) : (s.setAxis n x).held = s.held := rfl
@[simp] theorem State.setAxis_seqs (s : State) (n : Nat) (x : Axis) : (s.setAxis n x).seqs = s.seqs := rfl
@[simp] theorem State.setAxis_splitPairs (s : State) (n : Nat) (x : Axis) : (s.setAxis n x).splitPairs = s.splitPairs := rfl
@[simp] theorem State.setAxis_signals (s : State) (n : Nat) (x : Axis) : (s.setAxis n x).signals = s.signals := rfl
@[simp] theorem State.setAxis_sigWinner (s : State) (n : Nat) (x : Axis) : (s.setAxis n x).sigWinner = s.sigWinner := rfl
@[simp] theorem State.setAxis_ev (s : State) (n : Nat) (x : Axis) : (s.setAxis n x).ev = s.ev := rfl
@[simp] theorem State.setAxis_monPassed (s : State) (n : Nat) (x : Axis) : (s.setAxis n x).monPassed = s.monPassed := rfl
@[simp] theorem State.setAxis_msixSent (s : State) (n : Nat) (x : Axis) : (s.setAxis n x).msixSent = s.msixSent := rfl
@[simp] theorem State.setAxis_msixFnMask (s : State) (n : Nat) (x : Axis) : (s.setAxis n x).msixFnMask = s.msixFnMask := rfl
@[simp] theorem State.setAxis_serials (s : State) (n : Nat) (x : Axis) : (s.setAxis n x).serials = s.serials := rfl
@[simp] theorem State.setAxis_encOuts (s : State) (n : Nat) (x : Axis) : (s.setAxis n x).encOuts = s.encOuts := rfl
@[simp] theorem State.setAxis_lbUnits (s : State) (n : Nat) (x : Axis) : (s.setAxis n x).lbUnits = s.lbUnits := rfl
@[simp] theorem State.setAxis_lbForce (s : State) (n : Nat) (x : Axis) : (s.setAxis n x).lbForce = s.lbForce := rfl
@[simp] theorem State.setAxis_lanes (s : State) (n : Nat) (x : Axis) : (s.setAxis n x).lanes = s.lanes := rfl
@[simp] theorem State.setAxis_motors (s : State) (n : Nat) (x : Axis) : (s.setAxis n x).motors = s.motors := rfl
@[simp] theorem State.setAxis_steppers (s : State) (n : Nat) (x : Axis) : (s.setAxis n x).steppers = s.steppers := rfl
@[simp] theorem State.setAxis_cmpIn (s : State) (n : Nat) (x : Axis) : (s.setAxis n x).cmpIn = s.cmpIn := rfl
@[simp] theorem State.setAxis_adcRun (s : State) (n : Nat) (x : Axis) : (s.setAxis n x).adcRun = s.adcRun := rfl
@[simp] theorem State.setAxis_adcWait (s : State) (n : Nat) (x : Axis) : (s.setAxis n x).adcWait = s.adcWait := rfl
@[simp] theorem State.setAxis_adcCal (s : State) (n : Nat) (x : Axis) : (s.setAxis n x).adcCal = s.adcCal := rfl
@[simp] theorem State.setAxis_tiles (s : State) (n : Nat) (x : Axis) : (s.setAxis n x).tiles = s.tiles := rfl
@[simp] theorem State.setAxis_classes (s : State) (n : Nat) (x : Axis) : (s.setAxis n x).classes = s.classes := rfl
@[simp] theorem State.setAxis_echoes (s : State) (n : Nat) (x : Axis) : (s.setAxis n x).echoes = s.echoes := rfl
@[simp] theorem State.setAxis_gates (s : State) (n : Nat) (x : Axis) : (s.setAxis n x).gates = s.gates := rfl
@[simp] theorem State.setAxis_answer (s : State) (n : Nat) (x : Axis) : (s.setAxis n x).answer = s.answer := rfl
@[simp] theorem State.setAxis_chans (s : State) (n : Nat) (x : Axis) : (s.setAxis n x).chans = s.chans := rfl
@[simp] theorem State.setAxis_capPulses (s : State) (n : Nat) (x : Axis) : (s.setAxis n x).capPulses = s.capPulses := rfl
@[simp] theorem State.setAxis_steer (s : State) (n : Nat) (x : Axis) : (s.setAxis n x).steer = s.steer := rfl
@[simp] theorem State.setAxis_streams (s : State) (n : Nat) (x : Axis) : (s.setAxis n x).streams = s.streams := rfl
@[simp] theorem State.setAxis_wire (s : State) (n : Nat) (x : Axis) : (s.setAxis n x).wire = s.wire := rfl
@[simp] theorem State.setAxis_ptpFrac (s : State) (n : Nat) (x : Axis) : (s.setAxis n x).ptpFrac = s.ptpFrac := rfl
@[simp] theorem State.setAxis_ptpInc (s : State) (n : Nat) (x : Axis) : (s.setAxis n x).ptpInc = s.ptpInc := rfl
@[simp] theorem State.setAxis_ratioFrom (s : State) (n : Nat) (x : Axis) : (s.setAxis n x).ratioFrom = s.ratioFrom := rfl
@[simp] theorem State.setAxis_ppsUntil (s : State) (n : Nat) (x : Axis) : (s.setAxis n x).ppsUntil = s.ppsUntil := rfl
@[simp] theorem State.setAxis_adcCalRun (s : State) (n : Nat) (x : Axis) : (s.setAxis n x).adcCalRun = s.adcCalRun := rfl
@[simp] theorem State.setAxis_dieHot (s : State) (n : Nat) (x : Axis) : (s.setAxis n x).dieHot = s.dieHot := rfl
@[simp] theorem State.setAxis_pllDue (s : State) (n : Nat) (x : Axis) : (s.setAxis n x).pllDue = s.pllDue := rfl
@[simp] theorem State.setAxis_fuse (s : State) (n : Nat) (x : Axis) : (s.setAxis n x).fuse = s.fuse := rfl
@[simp] theorem State.setAxis_shadow (s : State) (n : Nat) (x : Axis) : (s.setAxis n x).shadow = s.shadow := rfl
@[simp] theorem State.setAxis_wordFlags (s : State) (n : Nat) (x : Axis) : (s.setAxis n x).wordFlags = s.wordFlags := rfl
@[simp] theorem State.setAxis_fuseJob (s : State) (n : Nat) (x : Axis) : (s.setAxis n x).fuseJob = s.fuseJob := rfl
@[simp] theorem State.setAxis_policy (s : State) (n : Nat) (x : Axis) : (s.setAxis n x).policy = s.policy := rfl
@[simp] theorem State.setAxis_dbgBarred (s : State) (n : Nat) (x : Axis) : (s.setAxis n x).dbgBarred = s.dbgBarred := rfl
@[simp] theorem State.setAxis_chalPending (s : State) (n : Nat) (x : Axis) : (s.setAxis n x).chalPending = s.chalPending := rfl
@[simp] theorem State.setAxis_secFailing (s : State) (n : Nat) (x : Axis) : (s.setAxis n x).secFailing = s.secFailing := rfl
@[simp] theorem State.setAxis_wdFirst (s : State) (n : Nat) (x : Axis) : (s.setAxis n x).wdFirst = s.wdFirst := rfl
@[simp] theorem State.setAxis_beats (s : State) (n : Nat) (x : Axis) : (s.setAxis n x).beats = s.beats := rfl
@[simp] theorem State.setAxis_testing (s : State) (n : Nat) (x : Axis) : (s.setAxis n x).testing = s.testing := rfl
@[simp] theorem State.setAxis_monFailed (s : State) (n : Nat) (x : Axis) : (s.setAxis n x).monFailed = s.monFailed := rfl
@[simp] theorem State.setAxis_resetting (s : State) (n : Nat) (x : Axis) : (s.setAxis n x).resetting = s.resetting := rfl
@[simp] theorem State.setAxis_capture (s : State) (n : Nat) (x : Axis) : (s.setAxis n x).capture = s.capture := rfl
@[simp] theorem State.setAxis_captureRail (s : State) (n : Nat) (x : Axis) : (s.setAxis n x).captureRail = s.captureRail := rfl
@[simp] theorem State.setAxis_railBelow (s : State) (n : Nat) (x : Axis) : (s.setAxis n x).railBelow = s.railBelow := rfl
@[simp] theorem State.setAxis_railOpen (s : State) (n : Nat) (x : Axis) : (s.setAxis n x).railOpen = s.railOpen := rfl
@[simp] theorem State.setAxis_railDwell (s : State) (n : Nat) (x : Axis) : (s.setAxis n x).railDwell = s.railDwell := rfl
@[simp] theorem State.setAxis_railEpisode (s : State) (n : Nat) (x : Axis) : (s.setAxis n x).railEpisode = s.railEpisode := rfl
@[simp] theorem State.setAxis_scrubLate (s : State) (n : Nat) (x : Axis) : (s.setAxis n x).scrubLate = s.scrubLate := rfl
@[simp] theorem State.setAxis_reloadSeq (s : State) (n : Nat) (x : Axis) : (s.setAxis n x).reloadSeq = s.reloadSeq := rfl

/-! ### After `setLane` -/

@[simp] theorem State.setLane_pending (s : State) (n : Nat) (x : Lane) : (s.setLane n x).pending = s.pending := rfl
@[simp] theorem State.setLane_variant (s : State) (n : Nat) (x : Lane) : (s.setLane n x).variant = s.variant := rfl
@[simp] theorem State.setLane_lanesOff (s : State) (n : Nat) (x : Lane) : (s.setLane n x).lanesOff = s.lanesOff := rfl
@[simp] theorem State.setLane_clustersOff (s : State) (n : Nat) (x : Lane) : (s.setLane n x).clustersOff = s.clustersOff := rfl
@[simp] theorem State.setLane_dieBOff (s : State) (n : Nat) (x : Lane) : (s.setLane n x).dieBOff = s.dieBOff := rfl
@[simp] theorem State.setLane_uptime (s : State) (n : Nat) (x : Lane) : (s.setLane n x).uptime = s.uptime := rfl
@[simp] theorem State.setLane_freeCount (s : State) (n : Nat) (x : Lane) : (s.setLane n x).freeCount = s.freeCount := rfl
@[simp] theorem State.setLane_memGen (s : State) (n : Nat) (x : Lane) : (s.setLane n x).memGen = s.memGen := rfl
@[simp] theorem State.setLane_mem (s : State) (n : Nat) (x : Lane) : (s.setLane n x).mem = s.mem := rfl
@[simp] theorem State.setLane_memZero (s : State) (n : Nat) (x : Lane) : (s.setLane n x).memZero = s.memZero := rfl
@[simp] theorem State.setLane_march (s : State) (n : Nat) (x : Lane) : (s.setLane n x).march = s.march := rfl
@[simp] theorem State.setLane_cells (s : State) (n : Nat) (x : Lane) : (s.setLane n x).cells = s.cells := rfl
@[simp] theorem State.setLane_ceCount (s : State) (n : Nat) (x : Lane) : (s.setLane n x).ceCount = s.ceCount := rfl
@[simp] theorem State.setLane_ceOpen (s : State) (n : Nat) (x : Lane) : (s.setLane n x).ceOpen = s.ceOpen := rfl
@[simp] theorem State.setLane_elogHi (s : State) (n : Nat) (x : Lane) : (s.setLane n x).elogHi = s.elogHi := rfl
@[simp] theorem State.setLane_mfailHi (s : State) (n : Nat) (x : Lane) : (s.setLane n x).mfailHi = s.mfailHi := rfl
@[simp] theorem State.setLane_sparesUsed (s : State) (n : Nat) (x : Lane) : (s.setLane n x).sparesUsed = s.sparesUsed := rfl
@[simp] theorem State.setLane_failedTargets (s : State) (n : Nat) (x : Lane) : (s.setLane n x).failedTargets = s.failedTargets := rfl
@[simp] theorem State.setLane_regs (s : State) (n : Nat) (x : Lane) : (s.setLane n x).regs = s.regs := rfl
@[simp] theorem State.setLane_held (s : State) (n : Nat) (x : Lane) : (s.setLane n x).held = s.held := rfl
@[simp] theorem State.setLane_seqs (s : State) (n : Nat) (x : Lane) : (s.setLane n x).seqs = s.seqs := rfl
@[simp] theorem State.setLane_splitPairs (s : State) (n : Nat) (x : Lane) : (s.setLane n x).splitPairs = s.splitPairs := rfl
@[simp] theorem State.setLane_signals (s : State) (n : Nat) (x : Lane) : (s.setLane n x).signals = s.signals := rfl
@[simp] theorem State.setLane_sigWinner (s : State) (n : Nat) (x : Lane) : (s.setLane n x).sigWinner = s.sigWinner := rfl
@[simp] theorem State.setLane_ev (s : State) (n : Nat) (x : Lane) : (s.setLane n x).ev = s.ev := rfl
@[simp] theorem State.setLane_monPassed (s : State) (n : Nat) (x : Lane) : (s.setLane n x).monPassed = s.monPassed := rfl
@[simp] theorem State.setLane_msixSent (s : State) (n : Nat) (x : Lane) : (s.setLane n x).msixSent = s.msixSent := rfl
@[simp] theorem State.setLane_msixFnMask (s : State) (n : Nat) (x : Lane) : (s.setLane n x).msixFnMask = s.msixFnMask := rfl
@[simp] theorem State.setLane_axes (s : State) (n : Nat) (x : Lane) : (s.setLane n x).axes = s.axes := rfl
@[simp] theorem State.setLane_serials (s : State) (n : Nat) (x : Lane) : (s.setLane n x).serials = s.serials := rfl
@[simp] theorem State.setLane_encOuts (s : State) (n : Nat) (x : Lane) : (s.setLane n x).encOuts = s.encOuts := rfl
@[simp] theorem State.setLane_lbUnits (s : State) (n : Nat) (x : Lane) : (s.setLane n x).lbUnits = s.lbUnits := rfl
@[simp] theorem State.setLane_lbForce (s : State) (n : Nat) (x : Lane) : (s.setLane n x).lbForce = s.lbForce := rfl
@[simp] theorem State.setLane_motors (s : State) (n : Nat) (x : Lane) : (s.setLane n x).motors = s.motors := rfl
@[simp] theorem State.setLane_steppers (s : State) (n : Nat) (x : Lane) : (s.setLane n x).steppers = s.steppers := rfl
@[simp] theorem State.setLane_cmpIn (s : State) (n : Nat) (x : Lane) : (s.setLane n x).cmpIn = s.cmpIn := rfl
@[simp] theorem State.setLane_adcRun (s : State) (n : Nat) (x : Lane) : (s.setLane n x).adcRun = s.adcRun := rfl
@[simp] theorem State.setLane_adcWait (s : State) (n : Nat) (x : Lane) : (s.setLane n x).adcWait = s.adcWait := rfl
@[simp] theorem State.setLane_adcCal (s : State) (n : Nat) (x : Lane) : (s.setLane n x).adcCal = s.adcCal := rfl
@[simp] theorem State.setLane_tiles (s : State) (n : Nat) (x : Lane) : (s.setLane n x).tiles = s.tiles := rfl
@[simp] theorem State.setLane_classes (s : State) (n : Nat) (x : Lane) : (s.setLane n x).classes = s.classes := rfl
@[simp] theorem State.setLane_echoes (s : State) (n : Nat) (x : Lane) : (s.setLane n x).echoes = s.echoes := rfl
@[simp] theorem State.setLane_gates (s : State) (n : Nat) (x : Lane) : (s.setLane n x).gates = s.gates := rfl
@[simp] theorem State.setLane_answer (s : State) (n : Nat) (x : Lane) : (s.setLane n x).answer = s.answer := rfl
@[simp] theorem State.setLane_chans (s : State) (n : Nat) (x : Lane) : (s.setLane n x).chans = s.chans := rfl
@[simp] theorem State.setLane_capPulses (s : State) (n : Nat) (x : Lane) : (s.setLane n x).capPulses = s.capPulses := rfl
@[simp] theorem State.setLane_steer (s : State) (n : Nat) (x : Lane) : (s.setLane n x).steer = s.steer := rfl
@[simp] theorem State.setLane_streams (s : State) (n : Nat) (x : Lane) : (s.setLane n x).streams = s.streams := rfl
@[simp] theorem State.setLane_wire (s : State) (n : Nat) (x : Lane) : (s.setLane n x).wire = s.wire := rfl
@[simp] theorem State.setLane_ptpFrac (s : State) (n : Nat) (x : Lane) : (s.setLane n x).ptpFrac = s.ptpFrac := rfl
@[simp] theorem State.setLane_ptpInc (s : State) (n : Nat) (x : Lane) : (s.setLane n x).ptpInc = s.ptpInc := rfl
@[simp] theorem State.setLane_ratioFrom (s : State) (n : Nat) (x : Lane) : (s.setLane n x).ratioFrom = s.ratioFrom := rfl
@[simp] theorem State.setLane_ppsUntil (s : State) (n : Nat) (x : Lane) : (s.setLane n x).ppsUntil = s.ppsUntil := rfl
@[simp] theorem State.setLane_adcCalRun (s : State) (n : Nat) (x : Lane) : (s.setLane n x).adcCalRun = s.adcCalRun := rfl
@[simp] theorem State.setLane_dieHot (s : State) (n : Nat) (x : Lane) : (s.setLane n x).dieHot = s.dieHot := rfl
@[simp] theorem State.setLane_pllDue (s : State) (n : Nat) (x : Lane) : (s.setLane n x).pllDue = s.pllDue := rfl
@[simp] theorem State.setLane_fuse (s : State) (n : Nat) (x : Lane) : (s.setLane n x).fuse = s.fuse := rfl
@[simp] theorem State.setLane_shadow (s : State) (n : Nat) (x : Lane) : (s.setLane n x).shadow = s.shadow := rfl
@[simp] theorem State.setLane_wordFlags (s : State) (n : Nat) (x : Lane) : (s.setLane n x).wordFlags = s.wordFlags := rfl
@[simp] theorem State.setLane_fuseJob (s : State) (n : Nat) (x : Lane) : (s.setLane n x).fuseJob = s.fuseJob := rfl
@[simp] theorem State.setLane_policy (s : State) (n : Nat) (x : Lane) : (s.setLane n x).policy = s.policy := rfl
@[simp] theorem State.setLane_dbgBarred (s : State) (n : Nat) (x : Lane) : (s.setLane n x).dbgBarred = s.dbgBarred := rfl
@[simp] theorem State.setLane_chalPending (s : State) (n : Nat) (x : Lane) : (s.setLane n x).chalPending = s.chalPending := rfl
@[simp] theorem State.setLane_secFailing (s : State) (n : Nat) (x : Lane) : (s.setLane n x).secFailing = s.secFailing := rfl
@[simp] theorem State.setLane_wdFirst (s : State) (n : Nat) (x : Lane) : (s.setLane n x).wdFirst = s.wdFirst := rfl
@[simp] theorem State.setLane_beats (s : State) (n : Nat) (x : Lane) : (s.setLane n x).beats = s.beats := rfl
@[simp] theorem State.setLane_testing (s : State) (n : Nat) (x : Lane) : (s.setLane n x).testing = s.testing := rfl
@[simp] theorem State.setLane_monFailed (s : State) (n : Nat) (x : Lane) : (s.setLane n x).monFailed = s.monFailed := rfl
@[simp] theorem State.setLane_resetting (s : State) (n : Nat) (x : Lane) : (s.setLane n x).resetting = s.resetting := rfl
@[simp] theorem State.setLane_capture (s : State) (n : Nat) (x : Lane) : (s.setLane n x).capture = s.capture := rfl
@[simp] theorem State.setLane_captureRail (s : State) (n : Nat) (x : Lane) : (s.setLane n x).captureRail = s.captureRail := rfl
@[simp] theorem State.setLane_railBelow (s : State) (n : Nat) (x : Lane) : (s.setLane n x).railBelow = s.railBelow := rfl
@[simp] theorem State.setLane_railOpen (s : State) (n : Nat) (x : Lane) : (s.setLane n x).railOpen = s.railOpen := rfl
@[simp] theorem State.setLane_railDwell (s : State) (n : Nat) (x : Lane) : (s.setLane n x).railDwell = s.railDwell := rfl
@[simp] theorem State.setLane_railEpisode (s : State) (n : Nat) (x : Lane) : (s.setLane n x).railEpisode = s.railEpisode := rfl
@[simp] theorem State.setLane_scrubLate (s : State) (n : Nat) (x : Lane) : (s.setLane n x).scrubLate = s.scrubLate := rfl
@[simp] theorem State.setLane_reloadSeq (s : State) (n : Nat) (x : Lane) : (s.setLane n x).reloadSeq = s.reloadSeq := rfl

/-! ### After `setTile` -/

@[simp] theorem State.setTile_pending (s : State) (n : Nat) (x : Tile) : (s.setTile n x).pending = s.pending := rfl
@[simp] theorem State.setTile_variant (s : State) (n : Nat) (x : Tile) : (s.setTile n x).variant = s.variant := rfl
@[simp] theorem State.setTile_lanesOff (s : State) (n : Nat) (x : Tile) : (s.setTile n x).lanesOff = s.lanesOff := rfl
@[simp] theorem State.setTile_clustersOff (s : State) (n : Nat) (x : Tile) : (s.setTile n x).clustersOff = s.clustersOff := rfl
@[simp] theorem State.setTile_dieBOff (s : State) (n : Nat) (x : Tile) : (s.setTile n x).dieBOff = s.dieBOff := rfl
@[simp] theorem State.setTile_uptime (s : State) (n : Nat) (x : Tile) : (s.setTile n x).uptime = s.uptime := rfl
@[simp] theorem State.setTile_freeCount (s : State) (n : Nat) (x : Tile) : (s.setTile n x).freeCount = s.freeCount := rfl
@[simp] theorem State.setTile_memGen (s : State) (n : Nat) (x : Tile) : (s.setTile n x).memGen = s.memGen := rfl
@[simp] theorem State.setTile_mem (s : State) (n : Nat) (x : Tile) : (s.setTile n x).mem = s.mem := rfl
@[simp] theorem State.setTile_memZero (s : State) (n : Nat) (x : Tile) : (s.setTile n x).memZero = s.memZero := rfl
@[simp] theorem State.setTile_march (s : State) (n : Nat) (x : Tile) : (s.setTile n x).march = s.march := rfl
@[simp] theorem State.setTile_cells (s : State) (n : Nat) (x : Tile) : (s.setTile n x).cells = s.cells := rfl
@[simp] theorem State.setTile_ceCount (s : State) (n : Nat) (x : Tile) : (s.setTile n x).ceCount = s.ceCount := rfl
@[simp] theorem State.setTile_ceOpen (s : State) (n : Nat) (x : Tile) : (s.setTile n x).ceOpen = s.ceOpen := rfl
@[simp] theorem State.setTile_elogHi (s : State) (n : Nat) (x : Tile) : (s.setTile n x).elogHi = s.elogHi := rfl
@[simp] theorem State.setTile_mfailHi (s : State) (n : Nat) (x : Tile) : (s.setTile n x).mfailHi = s.mfailHi := rfl
@[simp] theorem State.setTile_sparesUsed (s : State) (n : Nat) (x : Tile) : (s.setTile n x).sparesUsed = s.sparesUsed := rfl
@[simp] theorem State.setTile_failedTargets (s : State) (n : Nat) (x : Tile) : (s.setTile n x).failedTargets = s.failedTargets := rfl
@[simp] theorem State.setTile_regs (s : State) (n : Nat) (x : Tile) : (s.setTile n x).regs = s.regs := rfl
@[simp] theorem State.setTile_held (s : State) (n : Nat) (x : Tile) : (s.setTile n x).held = s.held := rfl
@[simp] theorem State.setTile_seqs (s : State) (n : Nat) (x : Tile) : (s.setTile n x).seqs = s.seqs := rfl
@[simp] theorem State.setTile_splitPairs (s : State) (n : Nat) (x : Tile) : (s.setTile n x).splitPairs = s.splitPairs := rfl
@[simp] theorem State.setTile_signals (s : State) (n : Nat) (x : Tile) : (s.setTile n x).signals = s.signals := rfl
@[simp] theorem State.setTile_sigWinner (s : State) (n : Nat) (x : Tile) : (s.setTile n x).sigWinner = s.sigWinner := rfl
@[simp] theorem State.setTile_ev (s : State) (n : Nat) (x : Tile) : (s.setTile n x).ev = s.ev := rfl
@[simp] theorem State.setTile_monPassed (s : State) (n : Nat) (x : Tile) : (s.setTile n x).monPassed = s.monPassed := rfl
@[simp] theorem State.setTile_msixSent (s : State) (n : Nat) (x : Tile) : (s.setTile n x).msixSent = s.msixSent := rfl
@[simp] theorem State.setTile_msixFnMask (s : State) (n : Nat) (x : Tile) : (s.setTile n x).msixFnMask = s.msixFnMask := rfl
@[simp] theorem State.setTile_axes (s : State) (n : Nat) (x : Tile) : (s.setTile n x).axes = s.axes := rfl
@[simp] theorem State.setTile_serials (s : State) (n : Nat) (x : Tile) : (s.setTile n x).serials = s.serials := rfl
@[simp] theorem State.setTile_encOuts (s : State) (n : Nat) (x : Tile) : (s.setTile n x).encOuts = s.encOuts := rfl
@[simp] theorem State.setTile_lbUnits (s : State) (n : Nat) (x : Tile) : (s.setTile n x).lbUnits = s.lbUnits := rfl
@[simp] theorem State.setTile_lbForce (s : State) (n : Nat) (x : Tile) : (s.setTile n x).lbForce = s.lbForce := rfl
@[simp] theorem State.setTile_lanes (s : State) (n : Nat) (x : Tile) : (s.setTile n x).lanes = s.lanes := rfl
@[simp] theorem State.setTile_motors (s : State) (n : Nat) (x : Tile) : (s.setTile n x).motors = s.motors := rfl
@[simp] theorem State.setTile_steppers (s : State) (n : Nat) (x : Tile) : (s.setTile n x).steppers = s.steppers := rfl
@[simp] theorem State.setTile_cmpIn (s : State) (n : Nat) (x : Tile) : (s.setTile n x).cmpIn = s.cmpIn := rfl
@[simp] theorem State.setTile_adcRun (s : State) (n : Nat) (x : Tile) : (s.setTile n x).adcRun = s.adcRun := rfl
@[simp] theorem State.setTile_adcWait (s : State) (n : Nat) (x : Tile) : (s.setTile n x).adcWait = s.adcWait := rfl
@[simp] theorem State.setTile_adcCal (s : State) (n : Nat) (x : Tile) : (s.setTile n x).adcCal = s.adcCal := rfl
@[simp] theorem State.setTile_classes (s : State) (n : Nat) (x : Tile) : (s.setTile n x).classes = s.classes := rfl
@[simp] theorem State.setTile_echoes (s : State) (n : Nat) (x : Tile) : (s.setTile n x).echoes = s.echoes := rfl
@[simp] theorem State.setTile_gates (s : State) (n : Nat) (x : Tile) : (s.setTile n x).gates = s.gates := rfl
@[simp] theorem State.setTile_answer (s : State) (n : Nat) (x : Tile) : (s.setTile n x).answer = s.answer := rfl
@[simp] theorem State.setTile_chans (s : State) (n : Nat) (x : Tile) : (s.setTile n x).chans = s.chans := rfl
@[simp] theorem State.setTile_capPulses (s : State) (n : Nat) (x : Tile) : (s.setTile n x).capPulses = s.capPulses := rfl
@[simp] theorem State.setTile_steer (s : State) (n : Nat) (x : Tile) : (s.setTile n x).steer = s.steer := rfl
@[simp] theorem State.setTile_streams (s : State) (n : Nat) (x : Tile) : (s.setTile n x).streams = s.streams := rfl
@[simp] theorem State.setTile_wire (s : State) (n : Nat) (x : Tile) : (s.setTile n x).wire = s.wire := rfl
@[simp] theorem State.setTile_ptpFrac (s : State) (n : Nat) (x : Tile) : (s.setTile n x).ptpFrac = s.ptpFrac := rfl
@[simp] theorem State.setTile_ptpInc (s : State) (n : Nat) (x : Tile) : (s.setTile n x).ptpInc = s.ptpInc := rfl
@[simp] theorem State.setTile_ratioFrom (s : State) (n : Nat) (x : Tile) : (s.setTile n x).ratioFrom = s.ratioFrom := rfl
@[simp] theorem State.setTile_ppsUntil (s : State) (n : Nat) (x : Tile) : (s.setTile n x).ppsUntil = s.ppsUntil := rfl
@[simp] theorem State.setTile_adcCalRun (s : State) (n : Nat) (x : Tile) : (s.setTile n x).adcCalRun = s.adcCalRun := rfl
@[simp] theorem State.setTile_dieHot (s : State) (n : Nat) (x : Tile) : (s.setTile n x).dieHot = s.dieHot := rfl
@[simp] theorem State.setTile_pllDue (s : State) (n : Nat) (x : Tile) : (s.setTile n x).pllDue = s.pllDue := rfl
@[simp] theorem State.setTile_fuse (s : State) (n : Nat) (x : Tile) : (s.setTile n x).fuse = s.fuse := rfl
@[simp] theorem State.setTile_shadow (s : State) (n : Nat) (x : Tile) : (s.setTile n x).shadow = s.shadow := rfl
@[simp] theorem State.setTile_wordFlags (s : State) (n : Nat) (x : Tile) : (s.setTile n x).wordFlags = s.wordFlags := rfl
@[simp] theorem State.setTile_fuseJob (s : State) (n : Nat) (x : Tile) : (s.setTile n x).fuseJob = s.fuseJob := rfl
@[simp] theorem State.setTile_policy (s : State) (n : Nat) (x : Tile) : (s.setTile n x).policy = s.policy := rfl
@[simp] theorem State.setTile_dbgBarred (s : State) (n : Nat) (x : Tile) : (s.setTile n x).dbgBarred = s.dbgBarred := rfl
@[simp] theorem State.setTile_chalPending (s : State) (n : Nat) (x : Tile) : (s.setTile n x).chalPending = s.chalPending := rfl
@[simp] theorem State.setTile_secFailing (s : State) (n : Nat) (x : Tile) : (s.setTile n x).secFailing = s.secFailing := rfl
@[simp] theorem State.setTile_wdFirst (s : State) (n : Nat) (x : Tile) : (s.setTile n x).wdFirst = s.wdFirst := rfl
@[simp] theorem State.setTile_beats (s : State) (n : Nat) (x : Tile) : (s.setTile n x).beats = s.beats := rfl
@[simp] theorem State.setTile_testing (s : State) (n : Nat) (x : Tile) : (s.setTile n x).testing = s.testing := rfl
@[simp] theorem State.setTile_monFailed (s : State) (n : Nat) (x : Tile) : (s.setTile n x).monFailed = s.monFailed := rfl
@[simp] theorem State.setTile_resetting (s : State) (n : Nat) (x : Tile) : (s.setTile n x).resetting = s.resetting := rfl
@[simp] theorem State.setTile_capture (s : State) (n : Nat) (x : Tile) : (s.setTile n x).capture = s.capture := rfl
@[simp] theorem State.setTile_captureRail (s : State) (n : Nat) (x : Tile) : (s.setTile n x).captureRail = s.captureRail := rfl
@[simp] theorem State.setTile_railBelow (s : State) (n : Nat) (x : Tile) : (s.setTile n x).railBelow = s.railBelow := rfl
@[simp] theorem State.setTile_railOpen (s : State) (n : Nat) (x : Tile) : (s.setTile n x).railOpen = s.railOpen := rfl
@[simp] theorem State.setTile_railDwell (s : State) (n : Nat) (x : Tile) : (s.setTile n x).railDwell = s.railDwell := rfl
@[simp] theorem State.setTile_railEpisode (s : State) (n : Nat) (x : Tile) : (s.setTile n x).railEpisode = s.railEpisode := rfl
@[simp] theorem State.setTile_scrubLate (s : State) (n : Nat) (x : Tile) : (s.setTile n x).scrubLate = s.scrubLate := rfl
@[simp] theorem State.setTile_reloadSeq (s : State) (n : Nat) (x : Tile) : (s.setTile n x).reloadSeq = s.reloadSeq := rfl

/-! ### After `setMotor` -/

@[simp] theorem State.setMotor_pending (s : State) (n : Nat) (x : Motor) : (s.setMotor n x).pending = s.pending := rfl
@[simp] theorem State.setMotor_variant (s : State) (n : Nat) (x : Motor) : (s.setMotor n x).variant = s.variant := rfl
@[simp] theorem State.setMotor_lanesOff (s : State) (n : Nat) (x : Motor) : (s.setMotor n x).lanesOff = s.lanesOff := rfl
@[simp] theorem State.setMotor_clustersOff (s : State) (n : Nat) (x : Motor) : (s.setMotor n x).clustersOff = s.clustersOff := rfl
@[simp] theorem State.setMotor_dieBOff (s : State) (n : Nat) (x : Motor) : (s.setMotor n x).dieBOff = s.dieBOff := rfl
@[simp] theorem State.setMotor_uptime (s : State) (n : Nat) (x : Motor) : (s.setMotor n x).uptime = s.uptime := rfl
@[simp] theorem State.setMotor_freeCount (s : State) (n : Nat) (x : Motor) : (s.setMotor n x).freeCount = s.freeCount := rfl
@[simp] theorem State.setMotor_memGen (s : State) (n : Nat) (x : Motor) : (s.setMotor n x).memGen = s.memGen := rfl
@[simp] theorem State.setMotor_mem (s : State) (n : Nat) (x : Motor) : (s.setMotor n x).mem = s.mem := rfl
@[simp] theorem State.setMotor_memZero (s : State) (n : Nat) (x : Motor) : (s.setMotor n x).memZero = s.memZero := rfl
@[simp] theorem State.setMotor_march (s : State) (n : Nat) (x : Motor) : (s.setMotor n x).march = s.march := rfl
@[simp] theorem State.setMotor_cells (s : State) (n : Nat) (x : Motor) : (s.setMotor n x).cells = s.cells := rfl
@[simp] theorem State.setMotor_ceCount (s : State) (n : Nat) (x : Motor) : (s.setMotor n x).ceCount = s.ceCount := rfl
@[simp] theorem State.setMotor_ceOpen (s : State) (n : Nat) (x : Motor) : (s.setMotor n x).ceOpen = s.ceOpen := rfl
@[simp] theorem State.setMotor_elogHi (s : State) (n : Nat) (x : Motor) : (s.setMotor n x).elogHi = s.elogHi := rfl
@[simp] theorem State.setMotor_mfailHi (s : State) (n : Nat) (x : Motor) : (s.setMotor n x).mfailHi = s.mfailHi := rfl
@[simp] theorem State.setMotor_sparesUsed (s : State) (n : Nat) (x : Motor) : (s.setMotor n x).sparesUsed = s.sparesUsed := rfl
@[simp] theorem State.setMotor_failedTargets (s : State) (n : Nat) (x : Motor) : (s.setMotor n x).failedTargets = s.failedTargets := rfl
@[simp] theorem State.setMotor_regs (s : State) (n : Nat) (x : Motor) : (s.setMotor n x).regs = s.regs := rfl
@[simp] theorem State.setMotor_held (s : State) (n : Nat) (x : Motor) : (s.setMotor n x).held = s.held := rfl
@[simp] theorem State.setMotor_seqs (s : State) (n : Nat) (x : Motor) : (s.setMotor n x).seqs = s.seqs := rfl
@[simp] theorem State.setMotor_splitPairs (s : State) (n : Nat) (x : Motor) : (s.setMotor n x).splitPairs = s.splitPairs := rfl
@[simp] theorem State.setMotor_signals (s : State) (n : Nat) (x : Motor) : (s.setMotor n x).signals = s.signals := rfl
@[simp] theorem State.setMotor_sigWinner (s : State) (n : Nat) (x : Motor) : (s.setMotor n x).sigWinner = s.sigWinner := rfl
@[simp] theorem State.setMotor_ev (s : State) (n : Nat) (x : Motor) : (s.setMotor n x).ev = s.ev := rfl
@[simp] theorem State.setMotor_monPassed (s : State) (n : Nat) (x : Motor) : (s.setMotor n x).monPassed = s.monPassed := rfl
@[simp] theorem State.setMotor_msixSent (s : State) (n : Nat) (x : Motor) : (s.setMotor n x).msixSent = s.msixSent := rfl
@[simp] theorem State.setMotor_msixFnMask (s : State) (n : Nat) (x : Motor) : (s.setMotor n x).msixFnMask = s.msixFnMask := rfl
@[simp] theorem State.setMotor_axes (s : State) (n : Nat) (x : Motor) : (s.setMotor n x).axes = s.axes := rfl
@[simp] theorem State.setMotor_serials (s : State) (n : Nat) (x : Motor) : (s.setMotor n x).serials = s.serials := rfl
@[simp] theorem State.setMotor_encOuts (s : State) (n : Nat) (x : Motor) : (s.setMotor n x).encOuts = s.encOuts := rfl
@[simp] theorem State.setMotor_lbUnits (s : State) (n : Nat) (x : Motor) : (s.setMotor n x).lbUnits = s.lbUnits := rfl
@[simp] theorem State.setMotor_lbForce (s : State) (n : Nat) (x : Motor) : (s.setMotor n x).lbForce = s.lbForce := rfl
@[simp] theorem State.setMotor_lanes (s : State) (n : Nat) (x : Motor) : (s.setMotor n x).lanes = s.lanes := rfl
@[simp] theorem State.setMotor_steppers (s : State) (n : Nat) (x : Motor) : (s.setMotor n x).steppers = s.steppers := rfl
@[simp] theorem State.setMotor_cmpIn (s : State) (n : Nat) (x : Motor) : (s.setMotor n x).cmpIn = s.cmpIn := rfl
@[simp] theorem State.setMotor_adcRun (s : State) (n : Nat) (x : Motor) : (s.setMotor n x).adcRun = s.adcRun := rfl
@[simp] theorem State.setMotor_adcWait (s : State) (n : Nat) (x : Motor) : (s.setMotor n x).adcWait = s.adcWait := rfl
@[simp] theorem State.setMotor_adcCal (s : State) (n : Nat) (x : Motor) : (s.setMotor n x).adcCal = s.adcCal := rfl
@[simp] theorem State.setMotor_tiles (s : State) (n : Nat) (x : Motor) : (s.setMotor n x).tiles = s.tiles := rfl
@[simp] theorem State.setMotor_classes (s : State) (n : Nat) (x : Motor) : (s.setMotor n x).classes = s.classes := rfl
@[simp] theorem State.setMotor_echoes (s : State) (n : Nat) (x : Motor) : (s.setMotor n x).echoes = s.echoes := rfl
@[simp] theorem State.setMotor_gates (s : State) (n : Nat) (x : Motor) : (s.setMotor n x).gates = s.gates := rfl
@[simp] theorem State.setMotor_answer (s : State) (n : Nat) (x : Motor) : (s.setMotor n x).answer = s.answer := rfl
@[simp] theorem State.setMotor_chans (s : State) (n : Nat) (x : Motor) : (s.setMotor n x).chans = s.chans := rfl
@[simp] theorem State.setMotor_capPulses (s : State) (n : Nat) (x : Motor) : (s.setMotor n x).capPulses = s.capPulses := rfl
@[simp] theorem State.setMotor_steer (s : State) (n : Nat) (x : Motor) : (s.setMotor n x).steer = s.steer := rfl
@[simp] theorem State.setMotor_streams (s : State) (n : Nat) (x : Motor) : (s.setMotor n x).streams = s.streams := rfl
@[simp] theorem State.setMotor_wire (s : State) (n : Nat) (x : Motor) : (s.setMotor n x).wire = s.wire := rfl
@[simp] theorem State.setMotor_ptpFrac (s : State) (n : Nat) (x : Motor) : (s.setMotor n x).ptpFrac = s.ptpFrac := rfl
@[simp] theorem State.setMotor_ptpInc (s : State) (n : Nat) (x : Motor) : (s.setMotor n x).ptpInc = s.ptpInc := rfl
@[simp] theorem State.setMotor_ratioFrom (s : State) (n : Nat) (x : Motor) : (s.setMotor n x).ratioFrom = s.ratioFrom := rfl
@[simp] theorem State.setMotor_ppsUntil (s : State) (n : Nat) (x : Motor) : (s.setMotor n x).ppsUntil = s.ppsUntil := rfl
@[simp] theorem State.setMotor_adcCalRun (s : State) (n : Nat) (x : Motor) : (s.setMotor n x).adcCalRun = s.adcCalRun := rfl
@[simp] theorem State.setMotor_dieHot (s : State) (n : Nat) (x : Motor) : (s.setMotor n x).dieHot = s.dieHot := rfl
@[simp] theorem State.setMotor_pllDue (s : State) (n : Nat) (x : Motor) : (s.setMotor n x).pllDue = s.pllDue := rfl
@[simp] theorem State.setMotor_fuse (s : State) (n : Nat) (x : Motor) : (s.setMotor n x).fuse = s.fuse := rfl
@[simp] theorem State.setMotor_shadow (s : State) (n : Nat) (x : Motor) : (s.setMotor n x).shadow = s.shadow := rfl
@[simp] theorem State.setMotor_wordFlags (s : State) (n : Nat) (x : Motor) : (s.setMotor n x).wordFlags = s.wordFlags := rfl
@[simp] theorem State.setMotor_fuseJob (s : State) (n : Nat) (x : Motor) : (s.setMotor n x).fuseJob = s.fuseJob := rfl
@[simp] theorem State.setMotor_policy (s : State) (n : Nat) (x : Motor) : (s.setMotor n x).policy = s.policy := rfl
@[simp] theorem State.setMotor_dbgBarred (s : State) (n : Nat) (x : Motor) : (s.setMotor n x).dbgBarred = s.dbgBarred := rfl
@[simp] theorem State.setMotor_chalPending (s : State) (n : Nat) (x : Motor) : (s.setMotor n x).chalPending = s.chalPending := rfl
@[simp] theorem State.setMotor_secFailing (s : State) (n : Nat) (x : Motor) : (s.setMotor n x).secFailing = s.secFailing := rfl
@[simp] theorem State.setMotor_wdFirst (s : State) (n : Nat) (x : Motor) : (s.setMotor n x).wdFirst = s.wdFirst := rfl
@[simp] theorem State.setMotor_beats (s : State) (n : Nat) (x : Motor) : (s.setMotor n x).beats = s.beats := rfl
@[simp] theorem State.setMotor_testing (s : State) (n : Nat) (x : Motor) : (s.setMotor n x).testing = s.testing := rfl
@[simp] theorem State.setMotor_monFailed (s : State) (n : Nat) (x : Motor) : (s.setMotor n x).monFailed = s.monFailed := rfl
@[simp] theorem State.setMotor_resetting (s : State) (n : Nat) (x : Motor) : (s.setMotor n x).resetting = s.resetting := rfl
@[simp] theorem State.setMotor_capture (s : State) (n : Nat) (x : Motor) : (s.setMotor n x).capture = s.capture := rfl
@[simp] theorem State.setMotor_captureRail (s : State) (n : Nat) (x : Motor) : (s.setMotor n x).captureRail = s.captureRail := rfl
@[simp] theorem State.setMotor_railBelow (s : State) (n : Nat) (x : Motor) : (s.setMotor n x).railBelow = s.railBelow := rfl
@[simp] theorem State.setMotor_railOpen (s : State) (n : Nat) (x : Motor) : (s.setMotor n x).railOpen = s.railOpen := rfl
@[simp] theorem State.setMotor_railDwell (s : State) (n : Nat) (x : Motor) : (s.setMotor n x).railDwell = s.railDwell := rfl
@[simp] theorem State.setMotor_railEpisode (s : State) (n : Nat) (x : Motor) : (s.setMotor n x).railEpisode = s.railEpisode := rfl
@[simp] theorem State.setMotor_scrubLate (s : State) (n : Nat) (x : Motor) : (s.setMotor n x).scrubLate = s.scrubLate := rfl
@[simp] theorem State.setMotor_reloadSeq (s : State) (n : Nat) (x : Motor) : (s.setMotor n x).reloadSeq = s.reloadSeq := rfl

/-! ### After `setStepper` -/

@[simp] theorem State.setStepper_pending (s : State) (n : Nat) (x : Stepper) : (s.setStepper n x).pending = s.pending := rfl
@[simp] theorem State.setStepper_variant (s : State) (n : Nat) (x : Stepper) : (s.setStepper n x).variant = s.variant := rfl
@[simp] theorem State.setStepper_lanesOff (s : State) (n : Nat) (x : Stepper) : (s.setStepper n x).lanesOff = s.lanesOff := rfl
@[simp] theorem State.setStepper_clustersOff (s : State) (n : Nat) (x : Stepper) : (s.setStepper n x).clustersOff = s.clustersOff := rfl
@[simp] theorem State.setStepper_dieBOff (s : State) (n : Nat) (x : Stepper) : (s.setStepper n x).dieBOff = s.dieBOff := rfl
@[simp] theorem State.setStepper_uptime (s : State) (n : Nat) (x : Stepper) : (s.setStepper n x).uptime = s.uptime := rfl
@[simp] theorem State.setStepper_freeCount (s : State) (n : Nat) (x : Stepper) : (s.setStepper n x).freeCount = s.freeCount := rfl
@[simp] theorem State.setStepper_memGen (s : State) (n : Nat) (x : Stepper) : (s.setStepper n x).memGen = s.memGen := rfl
@[simp] theorem State.setStepper_mem (s : State) (n : Nat) (x : Stepper) : (s.setStepper n x).mem = s.mem := rfl
@[simp] theorem State.setStepper_memZero (s : State) (n : Nat) (x : Stepper) : (s.setStepper n x).memZero = s.memZero := rfl
@[simp] theorem State.setStepper_march (s : State) (n : Nat) (x : Stepper) : (s.setStepper n x).march = s.march := rfl
@[simp] theorem State.setStepper_cells (s : State) (n : Nat) (x : Stepper) : (s.setStepper n x).cells = s.cells := rfl
@[simp] theorem State.setStepper_ceCount (s : State) (n : Nat) (x : Stepper) : (s.setStepper n x).ceCount = s.ceCount := rfl
@[simp] theorem State.setStepper_ceOpen (s : State) (n : Nat) (x : Stepper) : (s.setStepper n x).ceOpen = s.ceOpen := rfl
@[simp] theorem State.setStepper_elogHi (s : State) (n : Nat) (x : Stepper) : (s.setStepper n x).elogHi = s.elogHi := rfl
@[simp] theorem State.setStepper_mfailHi (s : State) (n : Nat) (x : Stepper) : (s.setStepper n x).mfailHi = s.mfailHi := rfl
@[simp] theorem State.setStepper_sparesUsed (s : State) (n : Nat) (x : Stepper) : (s.setStepper n x).sparesUsed = s.sparesUsed := rfl
@[simp] theorem State.setStepper_failedTargets (s : State) (n : Nat) (x : Stepper) : (s.setStepper n x).failedTargets = s.failedTargets := rfl
@[simp] theorem State.setStepper_regs (s : State) (n : Nat) (x : Stepper) : (s.setStepper n x).regs = s.regs := rfl
@[simp] theorem State.setStepper_held (s : State) (n : Nat) (x : Stepper) : (s.setStepper n x).held = s.held := rfl
@[simp] theorem State.setStepper_seqs (s : State) (n : Nat) (x : Stepper) : (s.setStepper n x).seqs = s.seqs := rfl
@[simp] theorem State.setStepper_splitPairs (s : State) (n : Nat) (x : Stepper) : (s.setStepper n x).splitPairs = s.splitPairs := rfl
@[simp] theorem State.setStepper_signals (s : State) (n : Nat) (x : Stepper) : (s.setStepper n x).signals = s.signals := rfl
@[simp] theorem State.setStepper_sigWinner (s : State) (n : Nat) (x : Stepper) : (s.setStepper n x).sigWinner = s.sigWinner := rfl
@[simp] theorem State.setStepper_ev (s : State) (n : Nat) (x : Stepper) : (s.setStepper n x).ev = s.ev := rfl
@[simp] theorem State.setStepper_monPassed (s : State) (n : Nat) (x : Stepper) : (s.setStepper n x).monPassed = s.monPassed := rfl
@[simp] theorem State.setStepper_msixSent (s : State) (n : Nat) (x : Stepper) : (s.setStepper n x).msixSent = s.msixSent := rfl
@[simp] theorem State.setStepper_msixFnMask (s : State) (n : Nat) (x : Stepper) : (s.setStepper n x).msixFnMask = s.msixFnMask := rfl
@[simp] theorem State.setStepper_axes (s : State) (n : Nat) (x : Stepper) : (s.setStepper n x).axes = s.axes := rfl
@[simp] theorem State.setStepper_serials (s : State) (n : Nat) (x : Stepper) : (s.setStepper n x).serials = s.serials := rfl
@[simp] theorem State.setStepper_encOuts (s : State) (n : Nat) (x : Stepper) : (s.setStepper n x).encOuts = s.encOuts := rfl
@[simp] theorem State.setStepper_lbUnits (s : State) (n : Nat) (x : Stepper) : (s.setStepper n x).lbUnits = s.lbUnits := rfl
@[simp] theorem State.setStepper_lbForce (s : State) (n : Nat) (x : Stepper) : (s.setStepper n x).lbForce = s.lbForce := rfl
@[simp] theorem State.setStepper_lanes (s : State) (n : Nat) (x : Stepper) : (s.setStepper n x).lanes = s.lanes := rfl
@[simp] theorem State.setStepper_motors (s : State) (n : Nat) (x : Stepper) : (s.setStepper n x).motors = s.motors := rfl
@[simp] theorem State.setStepper_cmpIn (s : State) (n : Nat) (x : Stepper) : (s.setStepper n x).cmpIn = s.cmpIn := rfl
@[simp] theorem State.setStepper_adcRun (s : State) (n : Nat) (x : Stepper) : (s.setStepper n x).adcRun = s.adcRun := rfl
@[simp] theorem State.setStepper_adcWait (s : State) (n : Nat) (x : Stepper) : (s.setStepper n x).adcWait = s.adcWait := rfl
@[simp] theorem State.setStepper_adcCal (s : State) (n : Nat) (x : Stepper) : (s.setStepper n x).adcCal = s.adcCal := rfl
@[simp] theorem State.setStepper_tiles (s : State) (n : Nat) (x : Stepper) : (s.setStepper n x).tiles = s.tiles := rfl
@[simp] theorem State.setStepper_classes (s : State) (n : Nat) (x : Stepper) : (s.setStepper n x).classes = s.classes := rfl
@[simp] theorem State.setStepper_echoes (s : State) (n : Nat) (x : Stepper) : (s.setStepper n x).echoes = s.echoes := rfl
@[simp] theorem State.setStepper_gates (s : State) (n : Nat) (x : Stepper) : (s.setStepper n x).gates = s.gates := rfl
@[simp] theorem State.setStepper_answer (s : State) (n : Nat) (x : Stepper) : (s.setStepper n x).answer = s.answer := rfl
@[simp] theorem State.setStepper_chans (s : State) (n : Nat) (x : Stepper) : (s.setStepper n x).chans = s.chans := rfl
@[simp] theorem State.setStepper_capPulses (s : State) (n : Nat) (x : Stepper) : (s.setStepper n x).capPulses = s.capPulses := rfl
@[simp] theorem State.setStepper_steer (s : State) (n : Nat) (x : Stepper) : (s.setStepper n x).steer = s.steer := rfl
@[simp] theorem State.setStepper_streams (s : State) (n : Nat) (x : Stepper) : (s.setStepper n x).streams = s.streams := rfl
@[simp] theorem State.setStepper_wire (s : State) (n : Nat) (x : Stepper) : (s.setStepper n x).wire = s.wire := rfl
@[simp] theorem State.setStepper_ptpFrac (s : State) (n : Nat) (x : Stepper) : (s.setStepper n x).ptpFrac = s.ptpFrac := rfl
@[simp] theorem State.setStepper_ptpInc (s : State) (n : Nat) (x : Stepper) : (s.setStepper n x).ptpInc = s.ptpInc := rfl
@[simp] theorem State.setStepper_ratioFrom (s : State) (n : Nat) (x : Stepper) : (s.setStepper n x).ratioFrom = s.ratioFrom := rfl
@[simp] theorem State.setStepper_ppsUntil (s : State) (n : Nat) (x : Stepper) : (s.setStepper n x).ppsUntil = s.ppsUntil := rfl
@[simp] theorem State.setStepper_adcCalRun (s : State) (n : Nat) (x : Stepper) : (s.setStepper n x).adcCalRun = s.adcCalRun := rfl
@[simp] theorem State.setStepper_dieHot (s : State) (n : Nat) (x : Stepper) : (s.setStepper n x).dieHot = s.dieHot := rfl
@[simp] theorem State.setStepper_pllDue (s : State) (n : Nat) (x : Stepper) : (s.setStepper n x).pllDue = s.pllDue := rfl
@[simp] theorem State.setStepper_fuse (s : State) (n : Nat) (x : Stepper) : (s.setStepper n x).fuse = s.fuse := rfl
@[simp] theorem State.setStepper_shadow (s : State) (n : Nat) (x : Stepper) : (s.setStepper n x).shadow = s.shadow := rfl
@[simp] theorem State.setStepper_wordFlags (s : State) (n : Nat) (x : Stepper) : (s.setStepper n x).wordFlags = s.wordFlags := rfl
@[simp] theorem State.setStepper_fuseJob (s : State) (n : Nat) (x : Stepper) : (s.setStepper n x).fuseJob = s.fuseJob := rfl
@[simp] theorem State.setStepper_policy (s : State) (n : Nat) (x : Stepper) : (s.setStepper n x).policy = s.policy := rfl
@[simp] theorem State.setStepper_dbgBarred (s : State) (n : Nat) (x : Stepper) : (s.setStepper n x).dbgBarred = s.dbgBarred := rfl
@[simp] theorem State.setStepper_chalPending (s : State) (n : Nat) (x : Stepper) : (s.setStepper n x).chalPending = s.chalPending := rfl
@[simp] theorem State.setStepper_secFailing (s : State) (n : Nat) (x : Stepper) : (s.setStepper n x).secFailing = s.secFailing := rfl
@[simp] theorem State.setStepper_wdFirst (s : State) (n : Nat) (x : Stepper) : (s.setStepper n x).wdFirst = s.wdFirst := rfl
@[simp] theorem State.setStepper_beats (s : State) (n : Nat) (x : Stepper) : (s.setStepper n x).beats = s.beats := rfl
@[simp] theorem State.setStepper_testing (s : State) (n : Nat) (x : Stepper) : (s.setStepper n x).testing = s.testing := rfl
@[simp] theorem State.setStepper_monFailed (s : State) (n : Nat) (x : Stepper) : (s.setStepper n x).monFailed = s.monFailed := rfl
@[simp] theorem State.setStepper_resetting (s : State) (n : Nat) (x : Stepper) : (s.setStepper n x).resetting = s.resetting := rfl
@[simp] theorem State.setStepper_capture (s : State) (n : Nat) (x : Stepper) : (s.setStepper n x).capture = s.capture := rfl
@[simp] theorem State.setStepper_captureRail (s : State) (n : Nat) (x : Stepper) : (s.setStepper n x).captureRail = s.captureRail := rfl
@[simp] theorem State.setStepper_railBelow (s : State) (n : Nat) (x : Stepper) : (s.setStepper n x).railBelow = s.railBelow := rfl
@[simp] theorem State.setStepper_railOpen (s : State) (n : Nat) (x : Stepper) : (s.setStepper n x).railOpen = s.railOpen := rfl
@[simp] theorem State.setStepper_railDwell (s : State) (n : Nat) (x : Stepper) : (s.setStepper n x).railDwell = s.railDwell := rfl
@[simp] theorem State.setStepper_railEpisode (s : State) (n : Nat) (x : Stepper) : (s.setStepper n x).railEpisode = s.railEpisode := rfl
@[simp] theorem State.setStepper_scrubLate (s : State) (n : Nat) (x : Stepper) : (s.setStepper n x).scrubLate = s.scrubLate := rfl
@[simp] theorem State.setStepper_reloadSeq (s : State) (n : Nat) (x : Stepper) : (s.setStepper n x).reloadSeq = s.reloadSeq := rfl

/-! ### After `setChan` -/

@[simp] theorem State.setChan_pending (s : State) (n : Nat) (x : Chan) : (s.setChan n x).pending = s.pending := rfl
@[simp] theorem State.setChan_variant (s : State) (n : Nat) (x : Chan) : (s.setChan n x).variant = s.variant := rfl
@[simp] theorem State.setChan_lanesOff (s : State) (n : Nat) (x : Chan) : (s.setChan n x).lanesOff = s.lanesOff := rfl
@[simp] theorem State.setChan_clustersOff (s : State) (n : Nat) (x : Chan) : (s.setChan n x).clustersOff = s.clustersOff := rfl
@[simp] theorem State.setChan_dieBOff (s : State) (n : Nat) (x : Chan) : (s.setChan n x).dieBOff = s.dieBOff := rfl
@[simp] theorem State.setChan_uptime (s : State) (n : Nat) (x : Chan) : (s.setChan n x).uptime = s.uptime := rfl
@[simp] theorem State.setChan_freeCount (s : State) (n : Nat) (x : Chan) : (s.setChan n x).freeCount = s.freeCount := rfl
@[simp] theorem State.setChan_memGen (s : State) (n : Nat) (x : Chan) : (s.setChan n x).memGen = s.memGen := rfl
@[simp] theorem State.setChan_mem (s : State) (n : Nat) (x : Chan) : (s.setChan n x).mem = s.mem := rfl
@[simp] theorem State.setChan_memZero (s : State) (n : Nat) (x : Chan) : (s.setChan n x).memZero = s.memZero := rfl
@[simp] theorem State.setChan_march (s : State) (n : Nat) (x : Chan) : (s.setChan n x).march = s.march := rfl
@[simp] theorem State.setChan_cells (s : State) (n : Nat) (x : Chan) : (s.setChan n x).cells = s.cells := rfl
@[simp] theorem State.setChan_ceCount (s : State) (n : Nat) (x : Chan) : (s.setChan n x).ceCount = s.ceCount := rfl
@[simp] theorem State.setChan_ceOpen (s : State) (n : Nat) (x : Chan) : (s.setChan n x).ceOpen = s.ceOpen := rfl
@[simp] theorem State.setChan_elogHi (s : State) (n : Nat) (x : Chan) : (s.setChan n x).elogHi = s.elogHi := rfl
@[simp] theorem State.setChan_mfailHi (s : State) (n : Nat) (x : Chan) : (s.setChan n x).mfailHi = s.mfailHi := rfl
@[simp] theorem State.setChan_sparesUsed (s : State) (n : Nat) (x : Chan) : (s.setChan n x).sparesUsed = s.sparesUsed := rfl
@[simp] theorem State.setChan_failedTargets (s : State) (n : Nat) (x : Chan) : (s.setChan n x).failedTargets = s.failedTargets := rfl
@[simp] theorem State.setChan_regs (s : State) (n : Nat) (x : Chan) : (s.setChan n x).regs = s.regs := rfl
@[simp] theorem State.setChan_held (s : State) (n : Nat) (x : Chan) : (s.setChan n x).held = s.held := rfl
@[simp] theorem State.setChan_seqs (s : State) (n : Nat) (x : Chan) : (s.setChan n x).seqs = s.seqs := rfl
@[simp] theorem State.setChan_splitPairs (s : State) (n : Nat) (x : Chan) : (s.setChan n x).splitPairs = s.splitPairs := rfl
@[simp] theorem State.setChan_signals (s : State) (n : Nat) (x : Chan) : (s.setChan n x).signals = s.signals := rfl
@[simp] theorem State.setChan_sigWinner (s : State) (n : Nat) (x : Chan) : (s.setChan n x).sigWinner = s.sigWinner := rfl
@[simp] theorem State.setChan_ev (s : State) (n : Nat) (x : Chan) : (s.setChan n x).ev = s.ev := rfl
@[simp] theorem State.setChan_monPassed (s : State) (n : Nat) (x : Chan) : (s.setChan n x).monPassed = s.monPassed := rfl
@[simp] theorem State.setChan_msixSent (s : State) (n : Nat) (x : Chan) : (s.setChan n x).msixSent = s.msixSent := rfl
@[simp] theorem State.setChan_msixFnMask (s : State) (n : Nat) (x : Chan) : (s.setChan n x).msixFnMask = s.msixFnMask := rfl
@[simp] theorem State.setChan_axes (s : State) (n : Nat) (x : Chan) : (s.setChan n x).axes = s.axes := rfl
@[simp] theorem State.setChan_serials (s : State) (n : Nat) (x : Chan) : (s.setChan n x).serials = s.serials := rfl
@[simp] theorem State.setChan_encOuts (s : State) (n : Nat) (x : Chan) : (s.setChan n x).encOuts = s.encOuts := rfl
@[simp] theorem State.setChan_lbUnits (s : State) (n : Nat) (x : Chan) : (s.setChan n x).lbUnits = s.lbUnits := rfl
@[simp] theorem State.setChan_lbForce (s : State) (n : Nat) (x : Chan) : (s.setChan n x).lbForce = s.lbForce := rfl
@[simp] theorem State.setChan_lanes (s : State) (n : Nat) (x : Chan) : (s.setChan n x).lanes = s.lanes := rfl
@[simp] theorem State.setChan_motors (s : State) (n : Nat) (x : Chan) : (s.setChan n x).motors = s.motors := rfl
@[simp] theorem State.setChan_steppers (s : State) (n : Nat) (x : Chan) : (s.setChan n x).steppers = s.steppers := rfl
@[simp] theorem State.setChan_cmpIn (s : State) (n : Nat) (x : Chan) : (s.setChan n x).cmpIn = s.cmpIn := rfl
@[simp] theorem State.setChan_adcRun (s : State) (n : Nat) (x : Chan) : (s.setChan n x).adcRun = s.adcRun := rfl
@[simp] theorem State.setChan_adcWait (s : State) (n : Nat) (x : Chan) : (s.setChan n x).adcWait = s.adcWait := rfl
@[simp] theorem State.setChan_adcCal (s : State) (n : Nat) (x : Chan) : (s.setChan n x).adcCal = s.adcCal := rfl
@[simp] theorem State.setChan_tiles (s : State) (n : Nat) (x : Chan) : (s.setChan n x).tiles = s.tiles := rfl
@[simp] theorem State.setChan_classes (s : State) (n : Nat) (x : Chan) : (s.setChan n x).classes = s.classes := rfl
@[simp] theorem State.setChan_echoes (s : State) (n : Nat) (x : Chan) : (s.setChan n x).echoes = s.echoes := rfl
@[simp] theorem State.setChan_gates (s : State) (n : Nat) (x : Chan) : (s.setChan n x).gates = s.gates := rfl
@[simp] theorem State.setChan_answer (s : State) (n : Nat) (x : Chan) : (s.setChan n x).answer = s.answer := rfl
@[simp] theorem State.setChan_capPulses (s : State) (n : Nat) (x : Chan) : (s.setChan n x).capPulses = s.capPulses := rfl
@[simp] theorem State.setChan_steer (s : State) (n : Nat) (x : Chan) : (s.setChan n x).steer = s.steer := rfl
@[simp] theorem State.setChan_streams (s : State) (n : Nat) (x : Chan) : (s.setChan n x).streams = s.streams := rfl
@[simp] theorem State.setChan_wire (s : State) (n : Nat) (x : Chan) : (s.setChan n x).wire = s.wire := rfl
@[simp] theorem State.setChan_ptpFrac (s : State) (n : Nat) (x : Chan) : (s.setChan n x).ptpFrac = s.ptpFrac := rfl
@[simp] theorem State.setChan_ptpInc (s : State) (n : Nat) (x : Chan) : (s.setChan n x).ptpInc = s.ptpInc := rfl
@[simp] theorem State.setChan_ratioFrom (s : State) (n : Nat) (x : Chan) : (s.setChan n x).ratioFrom = s.ratioFrom := rfl
@[simp] theorem State.setChan_ppsUntil (s : State) (n : Nat) (x : Chan) : (s.setChan n x).ppsUntil = s.ppsUntil := rfl
@[simp] theorem State.setChan_adcCalRun (s : State) (n : Nat) (x : Chan) : (s.setChan n x).adcCalRun = s.adcCalRun := rfl
@[simp] theorem State.setChan_dieHot (s : State) (n : Nat) (x : Chan) : (s.setChan n x).dieHot = s.dieHot := rfl
@[simp] theorem State.setChan_pllDue (s : State) (n : Nat) (x : Chan) : (s.setChan n x).pllDue = s.pllDue := rfl
@[simp] theorem State.setChan_fuse (s : State) (n : Nat) (x : Chan) : (s.setChan n x).fuse = s.fuse := rfl
@[simp] theorem State.setChan_shadow (s : State) (n : Nat) (x : Chan) : (s.setChan n x).shadow = s.shadow := rfl
@[simp] theorem State.setChan_wordFlags (s : State) (n : Nat) (x : Chan) : (s.setChan n x).wordFlags = s.wordFlags := rfl
@[simp] theorem State.setChan_fuseJob (s : State) (n : Nat) (x : Chan) : (s.setChan n x).fuseJob = s.fuseJob := rfl
@[simp] theorem State.setChan_policy (s : State) (n : Nat) (x : Chan) : (s.setChan n x).policy = s.policy := rfl
@[simp] theorem State.setChan_dbgBarred (s : State) (n : Nat) (x : Chan) : (s.setChan n x).dbgBarred = s.dbgBarred := rfl
@[simp] theorem State.setChan_chalPending (s : State) (n : Nat) (x : Chan) : (s.setChan n x).chalPending = s.chalPending := rfl
@[simp] theorem State.setChan_secFailing (s : State) (n : Nat) (x : Chan) : (s.setChan n x).secFailing = s.secFailing := rfl
@[simp] theorem State.setChan_wdFirst (s : State) (n : Nat) (x : Chan) : (s.setChan n x).wdFirst = s.wdFirst := rfl
@[simp] theorem State.setChan_beats (s : State) (n : Nat) (x : Chan) : (s.setChan n x).beats = s.beats := rfl
@[simp] theorem State.setChan_testing (s : State) (n : Nat) (x : Chan) : (s.setChan n x).testing = s.testing := rfl
@[simp] theorem State.setChan_monFailed (s : State) (n : Nat) (x : Chan) : (s.setChan n x).monFailed = s.monFailed := rfl
@[simp] theorem State.setChan_resetting (s : State) (n : Nat) (x : Chan) : (s.setChan n x).resetting = s.resetting := rfl
@[simp] theorem State.setChan_capture (s : State) (n : Nat) (x : Chan) : (s.setChan n x).capture = s.capture := rfl
@[simp] theorem State.setChan_captureRail (s : State) (n : Nat) (x : Chan) : (s.setChan n x).captureRail = s.captureRail := rfl
@[simp] theorem State.setChan_railBelow (s : State) (n : Nat) (x : Chan) : (s.setChan n x).railBelow = s.railBelow := rfl
@[simp] theorem State.setChan_railOpen (s : State) (n : Nat) (x : Chan) : (s.setChan n x).railOpen = s.railOpen := rfl
@[simp] theorem State.setChan_railDwell (s : State) (n : Nat) (x : Chan) : (s.setChan n x).railDwell = s.railDwell := rfl
@[simp] theorem State.setChan_railEpisode (s : State) (n : Nat) (x : Chan) : (s.setChan n x).railEpisode = s.railEpisode := rfl
@[simp] theorem State.setChan_scrubLate (s : State) (n : Nat) (x : Chan) : (s.setChan n x).scrubLate = s.scrubLate := rfl
@[simp] theorem State.setChan_reloadSeq (s : State) (n : Nat) (x : Chan) : (s.setChan n x).reloadSeq = s.reloadSeq := rfl

/-! ### After `setStream` -/

@[simp] theorem State.setStream_pending (s : State) (n : Nat) (x : Stream) : (s.setStream n x).pending = s.pending := rfl
@[simp] theorem State.setStream_variant (s : State) (n : Nat) (x : Stream) : (s.setStream n x).variant = s.variant := rfl
@[simp] theorem State.setStream_lanesOff (s : State) (n : Nat) (x : Stream) : (s.setStream n x).lanesOff = s.lanesOff := rfl
@[simp] theorem State.setStream_clustersOff (s : State) (n : Nat) (x : Stream) : (s.setStream n x).clustersOff = s.clustersOff := rfl
@[simp] theorem State.setStream_dieBOff (s : State) (n : Nat) (x : Stream) : (s.setStream n x).dieBOff = s.dieBOff := rfl
@[simp] theorem State.setStream_uptime (s : State) (n : Nat) (x : Stream) : (s.setStream n x).uptime = s.uptime := rfl
@[simp] theorem State.setStream_freeCount (s : State) (n : Nat) (x : Stream) : (s.setStream n x).freeCount = s.freeCount := rfl
@[simp] theorem State.setStream_memGen (s : State) (n : Nat) (x : Stream) : (s.setStream n x).memGen = s.memGen := rfl
@[simp] theorem State.setStream_mem (s : State) (n : Nat) (x : Stream) : (s.setStream n x).mem = s.mem := rfl
@[simp] theorem State.setStream_memZero (s : State) (n : Nat) (x : Stream) : (s.setStream n x).memZero = s.memZero := rfl
@[simp] theorem State.setStream_march (s : State) (n : Nat) (x : Stream) : (s.setStream n x).march = s.march := rfl
@[simp] theorem State.setStream_cells (s : State) (n : Nat) (x : Stream) : (s.setStream n x).cells = s.cells := rfl
@[simp] theorem State.setStream_ceCount (s : State) (n : Nat) (x : Stream) : (s.setStream n x).ceCount = s.ceCount := rfl
@[simp] theorem State.setStream_ceOpen (s : State) (n : Nat) (x : Stream) : (s.setStream n x).ceOpen = s.ceOpen := rfl
@[simp] theorem State.setStream_elogHi (s : State) (n : Nat) (x : Stream) : (s.setStream n x).elogHi = s.elogHi := rfl
@[simp] theorem State.setStream_mfailHi (s : State) (n : Nat) (x : Stream) : (s.setStream n x).mfailHi = s.mfailHi := rfl
@[simp] theorem State.setStream_sparesUsed (s : State) (n : Nat) (x : Stream) : (s.setStream n x).sparesUsed = s.sparesUsed := rfl
@[simp] theorem State.setStream_failedTargets (s : State) (n : Nat) (x : Stream) : (s.setStream n x).failedTargets = s.failedTargets := rfl
@[simp] theorem State.setStream_regs (s : State) (n : Nat) (x : Stream) : (s.setStream n x).regs = s.regs := rfl
@[simp] theorem State.setStream_held (s : State) (n : Nat) (x : Stream) : (s.setStream n x).held = s.held := rfl
@[simp] theorem State.setStream_seqs (s : State) (n : Nat) (x : Stream) : (s.setStream n x).seqs = s.seqs := rfl
@[simp] theorem State.setStream_splitPairs (s : State) (n : Nat) (x : Stream) : (s.setStream n x).splitPairs = s.splitPairs := rfl
@[simp] theorem State.setStream_signals (s : State) (n : Nat) (x : Stream) : (s.setStream n x).signals = s.signals := rfl
@[simp] theorem State.setStream_sigWinner (s : State) (n : Nat) (x : Stream) : (s.setStream n x).sigWinner = s.sigWinner := rfl
@[simp] theorem State.setStream_ev (s : State) (n : Nat) (x : Stream) : (s.setStream n x).ev = s.ev := rfl
@[simp] theorem State.setStream_monPassed (s : State) (n : Nat) (x : Stream) : (s.setStream n x).monPassed = s.monPassed := rfl
@[simp] theorem State.setStream_msixSent (s : State) (n : Nat) (x : Stream) : (s.setStream n x).msixSent = s.msixSent := rfl
@[simp] theorem State.setStream_msixFnMask (s : State) (n : Nat) (x : Stream) : (s.setStream n x).msixFnMask = s.msixFnMask := rfl
@[simp] theorem State.setStream_axes (s : State) (n : Nat) (x : Stream) : (s.setStream n x).axes = s.axes := rfl
@[simp] theorem State.setStream_serials (s : State) (n : Nat) (x : Stream) : (s.setStream n x).serials = s.serials := rfl
@[simp] theorem State.setStream_encOuts (s : State) (n : Nat) (x : Stream) : (s.setStream n x).encOuts = s.encOuts := rfl
@[simp] theorem State.setStream_lbUnits (s : State) (n : Nat) (x : Stream) : (s.setStream n x).lbUnits = s.lbUnits := rfl
@[simp] theorem State.setStream_lbForce (s : State) (n : Nat) (x : Stream) : (s.setStream n x).lbForce = s.lbForce := rfl
@[simp] theorem State.setStream_lanes (s : State) (n : Nat) (x : Stream) : (s.setStream n x).lanes = s.lanes := rfl
@[simp] theorem State.setStream_motors (s : State) (n : Nat) (x : Stream) : (s.setStream n x).motors = s.motors := rfl
@[simp] theorem State.setStream_steppers (s : State) (n : Nat) (x : Stream) : (s.setStream n x).steppers = s.steppers := rfl
@[simp] theorem State.setStream_cmpIn (s : State) (n : Nat) (x : Stream) : (s.setStream n x).cmpIn = s.cmpIn := rfl
@[simp] theorem State.setStream_adcRun (s : State) (n : Nat) (x : Stream) : (s.setStream n x).adcRun = s.adcRun := rfl
@[simp] theorem State.setStream_adcWait (s : State) (n : Nat) (x : Stream) : (s.setStream n x).adcWait = s.adcWait := rfl
@[simp] theorem State.setStream_adcCal (s : State) (n : Nat) (x : Stream) : (s.setStream n x).adcCal = s.adcCal := rfl
@[simp] theorem State.setStream_tiles (s : State) (n : Nat) (x : Stream) : (s.setStream n x).tiles = s.tiles := rfl
@[simp] theorem State.setStream_classes (s : State) (n : Nat) (x : Stream) : (s.setStream n x).classes = s.classes := rfl
@[simp] theorem State.setStream_echoes (s : State) (n : Nat) (x : Stream) : (s.setStream n x).echoes = s.echoes := rfl
@[simp] theorem State.setStream_gates (s : State) (n : Nat) (x : Stream) : (s.setStream n x).gates = s.gates := rfl
@[simp] theorem State.setStream_answer (s : State) (n : Nat) (x : Stream) : (s.setStream n x).answer = s.answer := rfl
@[simp] theorem State.setStream_chans (s : State) (n : Nat) (x : Stream) : (s.setStream n x).chans = s.chans := rfl
@[simp] theorem State.setStream_capPulses (s : State) (n : Nat) (x : Stream) : (s.setStream n x).capPulses = s.capPulses := rfl
@[simp] theorem State.setStream_steer (s : State) (n : Nat) (x : Stream) : (s.setStream n x).steer = s.steer := rfl
@[simp] theorem State.setStream_wire (s : State) (n : Nat) (x : Stream) : (s.setStream n x).wire = s.wire := rfl
@[simp] theorem State.setStream_ptpFrac (s : State) (n : Nat) (x : Stream) : (s.setStream n x).ptpFrac = s.ptpFrac := rfl
@[simp] theorem State.setStream_ptpInc (s : State) (n : Nat) (x : Stream) : (s.setStream n x).ptpInc = s.ptpInc := rfl
@[simp] theorem State.setStream_ratioFrom (s : State) (n : Nat) (x : Stream) : (s.setStream n x).ratioFrom = s.ratioFrom := rfl
@[simp] theorem State.setStream_ppsUntil (s : State) (n : Nat) (x : Stream) : (s.setStream n x).ppsUntil = s.ppsUntil := rfl
@[simp] theorem State.setStream_adcCalRun (s : State) (n : Nat) (x : Stream) : (s.setStream n x).adcCalRun = s.adcCalRun := rfl
@[simp] theorem State.setStream_dieHot (s : State) (n : Nat) (x : Stream) : (s.setStream n x).dieHot = s.dieHot := rfl
@[simp] theorem State.setStream_pllDue (s : State) (n : Nat) (x : Stream) : (s.setStream n x).pllDue = s.pllDue := rfl
@[simp] theorem State.setStream_fuse (s : State) (n : Nat) (x : Stream) : (s.setStream n x).fuse = s.fuse := rfl
@[simp] theorem State.setStream_shadow (s : State) (n : Nat) (x : Stream) : (s.setStream n x).shadow = s.shadow := rfl
@[simp] theorem State.setStream_wordFlags (s : State) (n : Nat) (x : Stream) : (s.setStream n x).wordFlags = s.wordFlags := rfl
@[simp] theorem State.setStream_fuseJob (s : State) (n : Nat) (x : Stream) : (s.setStream n x).fuseJob = s.fuseJob := rfl
@[simp] theorem State.setStream_policy (s : State) (n : Nat) (x : Stream) : (s.setStream n x).policy = s.policy := rfl
@[simp] theorem State.setStream_dbgBarred (s : State) (n : Nat) (x : Stream) : (s.setStream n x).dbgBarred = s.dbgBarred := rfl
@[simp] theorem State.setStream_chalPending (s : State) (n : Nat) (x : Stream) : (s.setStream n x).chalPending = s.chalPending := rfl
@[simp] theorem State.setStream_secFailing (s : State) (n : Nat) (x : Stream) : (s.setStream n x).secFailing = s.secFailing := rfl
@[simp] theorem State.setStream_wdFirst (s : State) (n : Nat) (x : Stream) : (s.setStream n x).wdFirst = s.wdFirst := rfl
@[simp] theorem State.setStream_beats (s : State) (n : Nat) (x : Stream) : (s.setStream n x).beats = s.beats := rfl
@[simp] theorem State.setStream_testing (s : State) (n : Nat) (x : Stream) : (s.setStream n x).testing = s.testing := rfl
@[simp] theorem State.setStream_monFailed (s : State) (n : Nat) (x : Stream) : (s.setStream n x).monFailed = s.monFailed := rfl
@[simp] theorem State.setStream_resetting (s : State) (n : Nat) (x : Stream) : (s.setStream n x).resetting = s.resetting := rfl
@[simp] theorem State.setStream_capture (s : State) (n : Nat) (x : Stream) : (s.setStream n x).capture = s.capture := rfl
@[simp] theorem State.setStream_captureRail (s : State) (n : Nat) (x : Stream) : (s.setStream n x).captureRail = s.captureRail := rfl
@[simp] theorem State.setStream_railBelow (s : State) (n : Nat) (x : Stream) : (s.setStream n x).railBelow = s.railBelow := rfl
@[simp] theorem State.setStream_railOpen (s : State) (n : Nat) (x : Stream) : (s.setStream n x).railOpen = s.railOpen := rfl
@[simp] theorem State.setStream_railDwell (s : State) (n : Nat) (x : Stream) : (s.setStream n x).railDwell = s.railDwell := rfl
@[simp] theorem State.setStream_railEpisode (s : State) (n : Nat) (x : Stream) : (s.setStream n x).railEpisode = s.railEpisode := rfl
@[simp] theorem State.setStream_scrubLate (s : State) (n : Nat) (x : Stream) : (s.setStream n x).scrubLate = s.scrubLate := rfl
@[simp] theorem State.setStream_reloadSeq (s : State) (n : Nat) (x : Stream) : (s.setStream n x).reloadSeq = s.reloadSeq := rfl

/-! ### After `setGate` -/

@[simp] theorem State.setGate_pending (s : State) (n : Nat) (x : Gate) : (s.setGate n x).pending = s.pending := rfl
@[simp] theorem State.setGate_variant (s : State) (n : Nat) (x : Gate) : (s.setGate n x).variant = s.variant := rfl
@[simp] theorem State.setGate_lanesOff (s : State) (n : Nat) (x : Gate) : (s.setGate n x).lanesOff = s.lanesOff := rfl
@[simp] theorem State.setGate_clustersOff (s : State) (n : Nat) (x : Gate) : (s.setGate n x).clustersOff = s.clustersOff := rfl
@[simp] theorem State.setGate_dieBOff (s : State) (n : Nat) (x : Gate) : (s.setGate n x).dieBOff = s.dieBOff := rfl
@[simp] theorem State.setGate_uptime (s : State) (n : Nat) (x : Gate) : (s.setGate n x).uptime = s.uptime := rfl
@[simp] theorem State.setGate_freeCount (s : State) (n : Nat) (x : Gate) : (s.setGate n x).freeCount = s.freeCount := rfl
@[simp] theorem State.setGate_memGen (s : State) (n : Nat) (x : Gate) : (s.setGate n x).memGen = s.memGen := rfl
@[simp] theorem State.setGate_mem (s : State) (n : Nat) (x : Gate) : (s.setGate n x).mem = s.mem := rfl
@[simp] theorem State.setGate_memZero (s : State) (n : Nat) (x : Gate) : (s.setGate n x).memZero = s.memZero := rfl
@[simp] theorem State.setGate_march (s : State) (n : Nat) (x : Gate) : (s.setGate n x).march = s.march := rfl
@[simp] theorem State.setGate_cells (s : State) (n : Nat) (x : Gate) : (s.setGate n x).cells = s.cells := rfl
@[simp] theorem State.setGate_ceCount (s : State) (n : Nat) (x : Gate) : (s.setGate n x).ceCount = s.ceCount := rfl
@[simp] theorem State.setGate_ceOpen (s : State) (n : Nat) (x : Gate) : (s.setGate n x).ceOpen = s.ceOpen := rfl
@[simp] theorem State.setGate_elogHi (s : State) (n : Nat) (x : Gate) : (s.setGate n x).elogHi = s.elogHi := rfl
@[simp] theorem State.setGate_mfailHi (s : State) (n : Nat) (x : Gate) : (s.setGate n x).mfailHi = s.mfailHi := rfl
@[simp] theorem State.setGate_sparesUsed (s : State) (n : Nat) (x : Gate) : (s.setGate n x).sparesUsed = s.sparesUsed := rfl
@[simp] theorem State.setGate_failedTargets (s : State) (n : Nat) (x : Gate) : (s.setGate n x).failedTargets = s.failedTargets := rfl
@[simp] theorem State.setGate_regs (s : State) (n : Nat) (x : Gate) : (s.setGate n x).regs = s.regs := rfl
@[simp] theorem State.setGate_held (s : State) (n : Nat) (x : Gate) : (s.setGate n x).held = s.held := rfl
@[simp] theorem State.setGate_seqs (s : State) (n : Nat) (x : Gate) : (s.setGate n x).seqs = s.seqs := rfl
@[simp] theorem State.setGate_splitPairs (s : State) (n : Nat) (x : Gate) : (s.setGate n x).splitPairs = s.splitPairs := rfl
@[simp] theorem State.setGate_signals (s : State) (n : Nat) (x : Gate) : (s.setGate n x).signals = s.signals := rfl
@[simp] theorem State.setGate_sigWinner (s : State) (n : Nat) (x : Gate) : (s.setGate n x).sigWinner = s.sigWinner := rfl
@[simp] theorem State.setGate_ev (s : State) (n : Nat) (x : Gate) : (s.setGate n x).ev = s.ev := rfl
@[simp] theorem State.setGate_monPassed (s : State) (n : Nat) (x : Gate) : (s.setGate n x).monPassed = s.monPassed := rfl
@[simp] theorem State.setGate_msixSent (s : State) (n : Nat) (x : Gate) : (s.setGate n x).msixSent = s.msixSent := rfl
@[simp] theorem State.setGate_msixFnMask (s : State) (n : Nat) (x : Gate) : (s.setGate n x).msixFnMask = s.msixFnMask := rfl
@[simp] theorem State.setGate_axes (s : State) (n : Nat) (x : Gate) : (s.setGate n x).axes = s.axes := rfl
@[simp] theorem State.setGate_serials (s : State) (n : Nat) (x : Gate) : (s.setGate n x).serials = s.serials := rfl
@[simp] theorem State.setGate_encOuts (s : State) (n : Nat) (x : Gate) : (s.setGate n x).encOuts = s.encOuts := rfl
@[simp] theorem State.setGate_lbUnits (s : State) (n : Nat) (x : Gate) : (s.setGate n x).lbUnits = s.lbUnits := rfl
@[simp] theorem State.setGate_lbForce (s : State) (n : Nat) (x : Gate) : (s.setGate n x).lbForce = s.lbForce := rfl
@[simp] theorem State.setGate_lanes (s : State) (n : Nat) (x : Gate) : (s.setGate n x).lanes = s.lanes := rfl
@[simp] theorem State.setGate_motors (s : State) (n : Nat) (x : Gate) : (s.setGate n x).motors = s.motors := rfl
@[simp] theorem State.setGate_steppers (s : State) (n : Nat) (x : Gate) : (s.setGate n x).steppers = s.steppers := rfl
@[simp] theorem State.setGate_cmpIn (s : State) (n : Nat) (x : Gate) : (s.setGate n x).cmpIn = s.cmpIn := rfl
@[simp] theorem State.setGate_adcRun (s : State) (n : Nat) (x : Gate) : (s.setGate n x).adcRun = s.adcRun := rfl
@[simp] theorem State.setGate_adcWait (s : State) (n : Nat) (x : Gate) : (s.setGate n x).adcWait = s.adcWait := rfl
@[simp] theorem State.setGate_adcCal (s : State) (n : Nat) (x : Gate) : (s.setGate n x).adcCal = s.adcCal := rfl
@[simp] theorem State.setGate_tiles (s : State) (n : Nat) (x : Gate) : (s.setGate n x).tiles = s.tiles := rfl
@[simp] theorem State.setGate_classes (s : State) (n : Nat) (x : Gate) : (s.setGate n x).classes = s.classes := rfl
@[simp] theorem State.setGate_echoes (s : State) (n : Nat) (x : Gate) : (s.setGate n x).echoes = s.echoes := rfl
@[simp] theorem State.setGate_answer (s : State) (n : Nat) (x : Gate) : (s.setGate n x).answer = s.answer := rfl
@[simp] theorem State.setGate_chans (s : State) (n : Nat) (x : Gate) : (s.setGate n x).chans = s.chans := rfl
@[simp] theorem State.setGate_capPulses (s : State) (n : Nat) (x : Gate) : (s.setGate n x).capPulses = s.capPulses := rfl
@[simp] theorem State.setGate_steer (s : State) (n : Nat) (x : Gate) : (s.setGate n x).steer = s.steer := rfl
@[simp] theorem State.setGate_streams (s : State) (n : Nat) (x : Gate) : (s.setGate n x).streams = s.streams := rfl
@[simp] theorem State.setGate_wire (s : State) (n : Nat) (x : Gate) : (s.setGate n x).wire = s.wire := rfl
@[simp] theorem State.setGate_ptpFrac (s : State) (n : Nat) (x : Gate) : (s.setGate n x).ptpFrac = s.ptpFrac := rfl
@[simp] theorem State.setGate_ptpInc (s : State) (n : Nat) (x : Gate) : (s.setGate n x).ptpInc = s.ptpInc := rfl
@[simp] theorem State.setGate_ratioFrom (s : State) (n : Nat) (x : Gate) : (s.setGate n x).ratioFrom = s.ratioFrom := rfl
@[simp] theorem State.setGate_ppsUntil (s : State) (n : Nat) (x : Gate) : (s.setGate n x).ppsUntil = s.ppsUntil := rfl
@[simp] theorem State.setGate_adcCalRun (s : State) (n : Nat) (x : Gate) : (s.setGate n x).adcCalRun = s.adcCalRun := rfl
@[simp] theorem State.setGate_dieHot (s : State) (n : Nat) (x : Gate) : (s.setGate n x).dieHot = s.dieHot := rfl
@[simp] theorem State.setGate_pllDue (s : State) (n : Nat) (x : Gate) : (s.setGate n x).pllDue = s.pllDue := rfl
@[simp] theorem State.setGate_fuse (s : State) (n : Nat) (x : Gate) : (s.setGate n x).fuse = s.fuse := rfl
@[simp] theorem State.setGate_shadow (s : State) (n : Nat) (x : Gate) : (s.setGate n x).shadow = s.shadow := rfl
@[simp] theorem State.setGate_wordFlags (s : State) (n : Nat) (x : Gate) : (s.setGate n x).wordFlags = s.wordFlags := rfl
@[simp] theorem State.setGate_fuseJob (s : State) (n : Nat) (x : Gate) : (s.setGate n x).fuseJob = s.fuseJob := rfl
@[simp] theorem State.setGate_policy (s : State) (n : Nat) (x : Gate) : (s.setGate n x).policy = s.policy := rfl
@[simp] theorem State.setGate_dbgBarred (s : State) (n : Nat) (x : Gate) : (s.setGate n x).dbgBarred = s.dbgBarred := rfl
@[simp] theorem State.setGate_chalPending (s : State) (n : Nat) (x : Gate) : (s.setGate n x).chalPending = s.chalPending := rfl
@[simp] theorem State.setGate_secFailing (s : State) (n : Nat) (x : Gate) : (s.setGate n x).secFailing = s.secFailing := rfl
@[simp] theorem State.setGate_wdFirst (s : State) (n : Nat) (x : Gate) : (s.setGate n x).wdFirst = s.wdFirst := rfl
@[simp] theorem State.setGate_beats (s : State) (n : Nat) (x : Gate) : (s.setGate n x).beats = s.beats := rfl
@[simp] theorem State.setGate_testing (s : State) (n : Nat) (x : Gate) : (s.setGate n x).testing = s.testing := rfl
@[simp] theorem State.setGate_monFailed (s : State) (n : Nat) (x : Gate) : (s.setGate n x).monFailed = s.monFailed := rfl
@[simp] theorem State.setGate_resetting (s : State) (n : Nat) (x : Gate) : (s.setGate n x).resetting = s.resetting := rfl
@[simp] theorem State.setGate_capture (s : State) (n : Nat) (x : Gate) : (s.setGate n x).capture = s.capture := rfl
@[simp] theorem State.setGate_captureRail (s : State) (n : Nat) (x : Gate) : (s.setGate n x).captureRail = s.captureRail := rfl
@[simp] theorem State.setGate_railBelow (s : State) (n : Nat) (x : Gate) : (s.setGate n x).railBelow = s.railBelow := rfl
@[simp] theorem State.setGate_railOpen (s : State) (n : Nat) (x : Gate) : (s.setGate n x).railOpen = s.railOpen := rfl
@[simp] theorem State.setGate_railDwell (s : State) (n : Nat) (x : Gate) : (s.setGate n x).railDwell = s.railDwell := rfl
@[simp] theorem State.setGate_railEpisode (s : State) (n : Nat) (x : Gate) : (s.setGate n x).railEpisode = s.railEpisode := rfl
@[simp] theorem State.setGate_scrubLate (s : State) (n : Nat) (x : Gate) : (s.setGate n x).scrubLate = s.scrubLate := rfl
@[simp] theorem State.setGate_reloadSeq (s : State) (n : Nat) (x : Gate) : (s.setGate n x).reloadSeq = s.reloadSeq := rfl

end Sys2Proof.Machine
end

