-- ==== Sys2Proof/Laws/Post.lean ====
section
/-! SUPPORT. What raising an interrupt request and posting an event can do: pending lines, MSI-X messages and their pending
bits, the event buffers and their drop counter. Everything else stays. `Touches` says the same of any operation that
writes registers, posts and requests, with the registers it may write. -/

namespace Sys2Proof.Machine

/-- From `s` to `t` only registers of `P`, event buffers, latched interrupt lines and messages sent may change, and no
record leaves a buffer. -/
structure Touches (P : Nat → Prop) (s t : State) : Prop where
  core : t = { s with regs := t.regs, ev := t.ev, seqs := t.seqs, msixSent := t.msixSent }
  rd : ∀ a, ¬ P a → t.rd a = s.rd a
  seq : ∀ q, t.seq q = { s.seq q with latched := (t.seq q).latched }
  ev : ∀ src, ∀ r ∈ tabGet [] s.ev.buf src, r ∈ tabGet [] t.ev.buf src

/-- A register that an interrupt request or a posted event may write: the MSI-X pending bits and SUP_DROP. -/
def postReg (a : Nat) : Prop := a = R.SUP_DROP ∨ (0x400E9000 ≤ a ∧ a < 0x400E9010)

/-- What posting and requesting may change. -/
abbrev Quiet (s t : State) : Prop := Touches postReg s t

theorem Touches.refl (P : Nat → Prop) (s : State) : Touches P s s := ⟨rfl, fun _ _ => rfl, fun _ => rfl, fun _ _ h => h⟩

theorem Touches.trans {P : Nat → Prop} {s t u : State} (h : Touches P s t) (g : Touches P t u) : Touches P s u := by
  refine ⟨?_, fun a ha => (g.rd a ha).trans (h.rd a ha), fun q => ?_, fun src r hr => g.ev src r (h.ev src r hr)⟩
  · have e := g.core
    rw [h.core] at e
    exact e
  · have e := g.seq q
    rw [h.seq q] at e
    exact e

theorem Touches.mono {P Q : Nat → Prop} {s t : State} (h : Touches P s t) (hpq : ∀ a, P a → Q a) : Touches Q s t :=
  ⟨h.core, fun a ha => h.rd a (fun hp => ha (hpq a hp)), h.seq, h.ev⟩

theorem Touches.foldl {P : Nat → Prop} {α : Type} {f : State → α → State} : ∀ (l : List α) (s : State),
    (∀ x ∈ l, ∀ t, Touches P t (f t x)) → Touches P s (l.foldl f s)
  | [], s, _ => Touches.refl P s
  | x :: l, s, h => (h x (by simp) s).trans (Touches.foldl l (f s x) (fun y hy => h y (by simp [hy])))

theorem State.wr_touches (s : State) (a : Nat) (v : W32) : Touches (· = a) s (s.wr a v) :=
  ⟨rfl, fun _ h => State.rd_wr_ne s v h, fun _ => rfl, fun _ _ h => h⟩

theorem State.set_touches (s : State) (f : Field) (v : Nat) : Touches (· = f.addr) s (s.set f v) := s.wr_touches _ _

theorem State.latchLine_touches (P : Nat → Prop) (s : State) (q line : Nat) : Touches P s (s.latchLine q line) := by
  refine ⟨rfl, fun _ _ => rfl, fun r => ?_, fun _ _ h => h⟩
  by_cases h : s.ctxOf r = s.ctxOf q
  · have e : s.seq r = s.seq q := by simp only [State.seq, h]
    have e2 : (s.latchLine q line).seq r = (s.latchLine q line).seq q := by
      have : (s.latchLine q line).ctxOf r = (s.latchLine q line).ctxOf q := h
      simp only [State.seq, this]
    rw [e2, e]
    simp only [State.latchLine, State.seq_setSeq_same]
  · rw [show (s.latchLine q line).seq r = s.seq r from State.seq_setSeq_ne s _ h]

theorem State.msixRequest_quiet (s : State) (v : Nat) (h : v < 128) : Quiet s (s.msixRequest v) := by
  unfold State.msixRequest
  split
  · refine (State.set_touches s _ _).mono (fun a ha => Or.inr ?_)
    subst ha
    have : 0x400E9000 ≤ 0x400E9000 + v / 32 * 4 ∧ 0x400E9000 + v / 32 * 4 < 0x400E9010 := by omega
    exact this
  · exact ⟨rfl, fun _ _ => rfl, fun _ => rfl, fun _ _ h => h⟩

theorem State.raiseIrq_quiet (s : State) (src : Nat) : Quiet s (s.raiseIrq src) := by
  unfold State.raiseIrq
  refine (Touches.foldl _ s (fun x _ t => t.latchLine_touches _ _ _)).trans (Touches.foldl _ _ (fun v hv t => t.msixRequest_quiet v ?_))
  simp only [List.mem_flatMap, routedVectors] at hv
  obtain ⟨e, -, he⟩ := hv
  split at he
  · next hr =>
    simp only [List.mem_map, List.mem_filter, List.mem_range] at he
    obtain ⟨b, ⟨hb, -⟩, rfl⟩ := he
    omega
  · simp at he

theorem State.postRec_quiet (s : State) (r : Rec) : Quiet s (s.postRec r) := by
  unfold State.postRec
  have h1 : Quiet s (if (tabGet [] s.ev.buf r.src).length < 4 then
      { s with ev := { s.ev with buf := tabPut s.ev.buf r.src (tabGet [] s.ev.buf r.src ++ [r]) } }
      else { s.bump F.SUP_DROP_count with ev := { s.ev with gap := tabPut s.ev.gap r.src true } }) := by
    split
    · refine ⟨rfl, fun _ _ => rfl, fun _ => rfl, fun src x hx => ?_⟩
      by_cases e : src = r.src
      · subst e
        show x ∈ tabGet [] (tabPut _ _ _) _
        rw [tabGet_put_same]
        exact List.mem_append_left _ hx
      · show x ∈ tabGet [] (tabPut _ _ _) _
        rw [tabGet_put_ne _ _ _ e]; exact hx
    · refine ⟨rfl, fun a ha => ?_, fun _ => rfl, fun _ _ h => h⟩
      refine State.rd_set_ne s _ ?_
      intro e
      exact ha (Or.inl e)
  dsimp only
  split
  · exact ⟨rfl, fun _ _ => rfl, fun _ => rfl, fun _ _ h => h⟩
  · split
    · exact h1.trans (State.raiseIrq_quiet _ _)
    · exact h1

theorem State.post_quiet (s : State) (src kind : Nat) (loc : W64) (detail : W32) : Quiet s (s.post src kind loc detail) := s.postRec_quiet _

theorem State.postInjected_quiet (s : State) (src kind : Nat) (loc : W64) (detail : W32) : Quiet s (s.postInjected src kind loc detail) :=
  s.postRec_quiet _

theorem State.postAt_quiet (s : State) (src kind axis : Nat) (stamp : W32) (loc : W64) (detail : W32) :
    Quiet s (s.postAt src kind axis stamp loc detail) := s.postRec_quiet _

/-- A flag set with its request: the flag register, and otherwise what a request does. -/
theorem State.setStatus_touches (s : State) (stat ien b src : Nat) :
    Touches (fun a => a = stat ∨ postReg a) s (s.setStatus stat ien b src) := by
  have h := (State.set_touches s ⟨stat, 31, 0⟩ (natSetBit (s.get ⟨stat, 31, 0⟩) b true)).mono (Q := fun a => a = stat ∨ postReg a) (fun a ha => Or.inl ha)
  unfold State.setStatus
  dsimp only
  split
  · exact h.trans ((State.raiseIrq_quiet _ _).mono (fun a ha => Or.inr ha))
  · exact h

theorem Touches.get {P : Nat → Prop} {s t : State} (h : Touches P s t) (f : Field) (hf : ¬ P f.addr) : t.get f = s.get f := by
  simp only [State.get, h.rd _ hf]

theorem Touches.flag {P : Nat → Prop} {s t : State} (h : Touches P s t) (f : Field) (hf : ¬ P f.addr) : t.flag f = s.flag f := by
  simp only [State.flag, h.get _ hf]

theorem Touches.mem {P : Nat → Prop} {s t : State} (h : Touches P s t) (a : Nat) : t.rdByte a = s.rdByte a := by
  rw [h.core]; rfl

/-- A record joins its source's buffer while there is room (R3, R427). -/
theorem State.postRec_buf (s : State) (r : Rec) (h : s.room r.src = true) : r ∈ tabGet [] (s.postRec r).ev.buf r.src := by
  simp only [State.room, Bool.and_eq_true, Bool.not_eq_true', decide_eq_true_eq] at h
  unfold State.postRec
  simp only [h.1, h.2, if_true, Bool.false_eq_true, if_false]
  split
  · apply (State.raiseIrq_quiet _ _).ev
    show r ∈ tabGet [] (tabPut _ _ _) _
    rw [tabGet_put_same]
    simp
  · show r ∈ tabGet [] (tabPut _ _ _) _
    rw [tabGet_put_same]
    simp

/-- Bit `i` of a field after it is written. -/
theorem State.setBit_natBit (s : State) (f : Field) (i : Nat) (b : Bool) (h1 : f.lo ≤ f.hi) (h2 : f.hi < 32) (h3 : i < f.hi + 1 - f.lo) :
    natBit ((s.setBit f i b).get f) i = b := by
  rw [State.setBit, State.get_set_same _ _ _ h1 h2, natBit_eq, Nat.testBit_mod_two_pow, ← natBit_eq, natBit_setBit]
  simp [h3]

end Sys2Proof.Machine
end

