-- ==== Sys2Proof/WellFormed.lean ====
section
/-! DEFINITION. The checks a command's operands must pass. Register numbers, unit numbers and field widths are in range by
their types; what a type does not say is checked here: where an address may lie, how many bytes or words a message
carries, which cells a memory word has. A meaning still answers for an ill-formed command. -/

namespace Sys2Proof

/-- A word-aligned address of the register space (R24, R27, R29). -/
def registerAddress (a : W32) : Bool := decide (0x40000000 ≤ a.toNat) && decide (a.toNat < 0x41000000) && a.toNat % 4 == 0

/-- The erroneous cell lies in a word of `data` data bits and `check` check bits (R325, R334). -/
def CellErr.fits (data check : Nat) : CellErr → Bool
  | .single b => decide (b < data)
  | .checkBit b => decide (b < check)
  | .double => true
  | .multi => true

/-- The first byte of a memory word: 4 bytes of SRAM with 7 check bits, 8 bytes of DRAM with 8 (R320, R321, R333, R334). -/
def memoryWord (a : Nat) : Bool :=
  (decide (a < 0x06000000) && a % 4 == 0) || (decide (0x0100000000 ≤ a) && decide (a < 0x0300000000) && a % 8 == 0)

/-- The cell error fits the memory word at an address. -/
def CellErr.fitsAt (a : Nat) (e : CellErr) : Bool := if a < 0x06000000 then e.fits 32 7 else e.fits 64 8

/-- What a fetch or read may find in the word it reads. -/
def foundFits (a : Nat) : Option CellErr → Bool
  | none => true
  | some e => e.fitsAt a

/-- No two equal elements. -/
def distinct {α : Type} [DecidableEq α] : List α → Bool
  | [] => true
  | x :: t => !t.contains x && distinct t

/-- A command's operands are such as the spec lets occur. -/
def Instr.wellFormed : Instr → Bool
  | .registerWrite _ a _ => registerAddress a
  | .readClear _ a => registerAddress a
  | .snapshotCapture _ a => registerAddress a
  | .lw _ _ _ _ found => match found with | none => true | some e => e.fits 64 8
  | .correctionWriteback w => memoryWord w.toNat
  | .scrubRead w found => memoryWord w.toNat && foundFits w.toNat found
  | .stampPass _ _ slips => decide (slips.length ≤ 16)
  | .dataSend _ _ _ parity => distinct parity
  | .delayDone _ _ rest => rest.length == 63
  | .sbPoll _ readings => decide (readings.length ≤ 16)
  | .adcScan codes _ => decide (codes.length ≤ 16)
  | .marchComplete rows => distinct rows
  | .frameReceive _ _ frame _ _ => decide (14 ≤ frame.length)
  | .pcieMemWrite _ _ bytes => decide (1 ≤ bytes.length) && decide (bytes.length ≤ 512)
  | .pcieMemRead _ _ len => decide (1 ≤ len.toNat) && decide (len.toNat ≤ 4096)
  | .spiGo f => !(f.head? == some 2 && decide (6 ≤ f.length) && decide (f.length ≤ 261)) && !(f.head? == some 5 && f.length == 5)
  | .bootPacket p => p.ip.length == 16
  | .shutModeSelect mode => mode == 1 || mode == 2
  | .debugPortAccess _ a _ => a.toNat % 4 == 0
  | _ => true

end Sys2Proof
end

