-- ==== Sys2Proof/Tests/Slice0.lean ====
section
/-! SUPPORT. The package's own tests: for each statement a small state and operands that meet the hypotheses of its clauses,
an ill-formed command for each check of WellFormed, and a few results the spec writes out. -/

namespace Sys2Proof.Machine

/-- A machine out of reset with some register fields set. -/
def machine (fs : List (Field × Nat)) : State := fs.foldl (fun s f => s.set f.1 f.2) { State.reset with resetting := false }

/-- The machine with sequencer `q` RUNNING on a context. -/
def State.runs' (s : State) (q : Nat) (c : Seq) : State := s.setSeq q { c with run := .running }

/-- Where no cell is in error every range is sound. -/
theorem sound_of_no_cells (s : State) (f n : Nat) (h : s.cells = []) : s.sound f n := by
  intro e he; rw [h] at he; cases he

/-! ### Whole machine -/

theorem test_reset_form : State.reset.wf = true := by decide

theorem test_step_premises : ({ machine [] with pending := [.wfi 0, .dramTrained] } : State).pending = .wfi 0 :: [.dramTrained] := rfl

theorem test_tick_premises : State.reset.pending = [] ∧ State.reset.resetting = true ∧ (machine []).pending = [] ∧
    (machine []).resetting = false ∧ (∀ n, n < 8 → ((machine []).axis n).valid = false) ∧ (machine []).seqFused 24 = false := by decide

theorem test_form_premises : State.reset.wf = true ∧ State.reset.evFits = true := by decide

theorem test_reset_idles : step State.reset = .next State.reset := rfl

theorem test_checker_premises :
    let s := machine [(F.SYS_AP_BASE_en 0 0, 1), (F.SYS_AP_BASE_base 0 0, 0x10), (F.SYS_AP_BASE_en 0 3, 1), (F.SYS_AP_BASE_base 0 3, 0x2F)]
    s.lockstep 0 = true ∧ s.mayReg .host (R.SYS_AP_BASE 1 0) Needs.write ∧ s.mayReg .host (R.SYS_AP_BASE 1 0) Needs.read ∧
    s.flag (F.SYS_AP_BASE_en 0 0) = true ∧ s.get (F.SYS_AP_BASE_base 0 0) = 0x10 ∧ s.flag (F.SYS_AP_BASE_en 0 3) = true ∧
    s.get (F.SYS_AP_BASE_base 0 3) = 0x2F := by unfold State.mayReg; decide

/-! ### The sequencers -/

theorem test_alu_premises : ((machine []).runs' 47 {}).executes 47 = true := by decide

theorem test_divide_premises :
    let c : Seq := { g := [(1, 0x80000000), (2, 0xFFFFFFFF), (3, 7)] }
    let s := (machine []).runs' 0 c
    s.executes 0 = true ∧ (s.seq 0).x 1 = 0x80000000 ∧ (s.seq 0).x 2 = 0xFFFFFFFF ∧ (s.seq 0).x 3 ≠ 0 ∧ (s.seq 0).x 0 = 0 := by decide

theorem test_load_premises :
    let s := (machine []).runs' 0 { g := [(1, 0x100)] }
    s.executes 0 = true ∧ s.cells = [] ∧ s.place 0 ((s.seq 0).x 1 + (4 : W16).signExtend 32).toNat = .mem 0x104 ∧
    s.memCheck 0 0x104 4 Needs.read = none ∧ s.place 0 ((s.seq 0).x 1 + (2 : W16).signExtend 32).toNat = .mem 0x102 ∧
    s.memCheck 0 0x102 2 Needs.read = none ∧ s.place 0 ((s.seq 0).x 1 + (0xFFFF : W16).signExtend 32).toNat = .mem 0xFF ∧
    s.memCheck 0 0xFF 1 Needs.read = none := by decide

theorem test_store_premises :
    let s := (machine [(F.MEM_DSTAT_rdy, 15), (F.SYS_AP_BASE_en 0 0, 1), (F.SYS_AP_BASE_base 0 0, 0x10)]).runs' 0 { g := [(1, 0x100), (2, 0x80000000)] }
    s.executes 0 = true ∧ s.cells = [] ∧ s.place 0 ((s.seq 0).x 1 + (4 : W16).signExtend 32).toNat = .mem 0x104 ∧
    s.memCheck 0 0x104 4 Needs.write = none ∧ s.memCheck 0 0x104 2 Needs.both = none ∧ s.memCheck 0 0x104 1 Needs.both = none ∧
    s.place 0 ((s.seq 0).x 2 + (8 : W16).signExtend 32).toNat = .mem 0x0100000008 ∧ isSram 0x0100000008 = false ∧
    s.memCheck 0 0x0100000008 4 Needs.both = none := by decide

theorem test_atomic_premises :
    let s := ((machine []).runs' 4 { g := [(1, 0x05FFFFFC), (4, 0x01020304)] }).wrBytes 0x05FFFFFC [4, 3, 2, 1]
    let old := s.rdByte 0x05FFFFFF ++ s.rdByte 0x05FFFFFE ++ s.rdByte 0x05FFFFFD ++ s.rdByte 0x05FFFFFC
    s.executes 4 = true ∧ isSram ((s.seq 4).x 1).toNat = true ∧ ((s.seq 4).x 1).toNat % 4 = 0 ∧
    s.memCheck 4 0x05FFFFFC 4 Needs.both = none ∧ s.cells = [] ∧ old = (s.seq 4).x 4 ∧ old ≠ (s.seq 4).x 0 := by decide

theorem test_jump_premises :
    let s := (machine []).runs' 8 { g := [(1, 0x100)] }
    s.executes 8 = true ∧ (s.seq 8).inh = false ∧ ((s.seq 8).x 1 + (4 : W16).signExtend 32).toNat % 4 = 0 ∧
    ((s.seq 8).x 1 + (0xFFFF : W16).signExtend 32).toNat % 4 ≠ 0 := by decide

theorem test_system_premises :
    let s := (machine [(F.SEC_LC_state, 4)]).runs' 8 {}
    let u := (machine [(F.SEC_LC_dbg, 1)]).runs' 8 {}
    s.executes 8 = true ∧ (s.seq 8).inh = false ∧ s.dbgOpen = false ∧ u.executes 8 = true ∧ u.dbgOpen = true ∧ groupOf 8 = 2 := by decide

theorem test_csr_premises :
    let s := (machine []).runs' 9 { g := [(1, 3), (2, 0x7F), (3, 0x7C)], scratch := 0x7C }
    s.executes 9 = true ∧ csrListed 8 = true ∧ (1 : BitVec 5) ≠ 0 ∧ (s.seq 9).x 2 = s.csr 9 8 ||| (s.seq 9).x 1 ∧
    (s.seq 9).x 3 = s.csr 9 8 &&& ~~~(s.seq 9).x 1 ∧ csrListed 0xFFF = false ∧ (s.seq 9).inh = false := by decide

theorem test_trap_premises :
    let at_ := fun (pc : W32) => (machine []).runs' 24 { pc := pc, g := [(1, 0x40000000), (2, 0x103), (3, 0x102)] }
    let s := at_ 0x40FFFFFC
    s.executes 24 = true ∧ (s.seq 24).inh = false ∧ legalWord 24 0xFFFFFFFF = false ∧
    (0x40000000 ≤ (s.seq 24).pc.toNat ∧ (s.seq 24).pc.toNat < 0x41000000) ∧
    (0x80000000 ≤ ((at_ 0xBFFFFFFC).seq 24).pc.toNat ∧ ((at_ 0xBFFFFFFC).seq 24).pc.toNat < 0xC0000000) ∧
    (let pc := ((at_ 0x100).seq 24).pc.toNat;
      isSram pc = true ∧ (at_ 0x100).memAbsent pc = false ∧ (at_ 0x100).permitted 24 pc 4 Needs.fetch = true) ∧
    ((s.seq 24).x 3 + (0 : W16).signExtend 32).toNat % 4 ≠ 0 ∧ ((s.seq 24).x 2 + (0 : W16).signExtend 32).toNat % 2 ≠ 0 ∧
    ((s.seq 24).x 2).toNat % 4 ≠ 0 ∧ ((s.seq 24).x 1).toNat % 4 = 0 ∧ 0x40000000 ≤ ((s.seq 24).x 1).toNat ∧
    ((s.seq 24).x 1).toNat < 0x41000000 := by decide

theorem test_aperture_fetch_premises :
    let s := (machine [(F.MEM_DSTAT_rdy, 15), (F.SYS_AP_BASE_en 24 3, 1), (F.SYS_AP_BASE_base 24 3, 0x10)]).runs' 24 { pc := 0xB0000000 }
    s.aperture 24 (s.seq 24).pc.toNat = some 0x0100000000 ∧ s.memAbsent 0x0100000000 = false := by decide

theorem test_double_fault_premises :
    let s := (machine []).runs' 2 { inh := true, g := [(1, 2), (2, 4)] }
    s.executes 2 = true ∧ (s.seq 2).inh = true ∧ s.room 63 = true ∧ legalWord 2 0xFFFFFFFF = false ∧
    ((s.seq 2).x 1 + (0 : W16).signExtend 32).toNat % 4 ≠ 0 ∧ ((s.seq 2).x 1).getLsbD 2 = false ∧
    (((machine []).runs' 2 {}).seq 2).inh = false := by decide

theorem test_interrupt_premises :
    let c : Seq := { swi := true, ieMask := 0xFFFFFFFF, timecmp := 0xFFFFFFFF }
    let s := (machine []).runs' 8 { c with ie := true }
    let u := (machine []).setSeq 8 { c with run := .waiting, wait := .wfi, ie := true }
    let w := (machine []).setSeq 8 { c with run := .waiting, wait := .wfi }
    (s.isShadow 8 = false ∧ s.seqFused 8 = false) ∧ (s.seqIp 8 &&& (s.seq 8).ieMask).getLsbD 1 = true ∧
    (∀ k, k < 1 → (s.seqIp 8 &&& (s.seq 8).ieMask).getLsbD k = false) ∧ (s.seq 8).ie = true ∧ (s.seq 8).run = .running ∧
    (u.seqIp 8 &&& (u.seq 8).ieMask).getLsbD 1 = true ∧ (u.seq 8).run = .waiting ∧ (u.seq 8).wait = .wfi ∧ (u.seq 8).ie = true ∧
    (w.seqIp 8 &&& (w.seq 8).ieMask).getLsbD 1 = true ∧ (w.seq 8).run = .waiting ∧ (w.seq 8).wait = .wfi ∧ (w.seq 8).ie = false := by decide

theorem test_timer_premises : (machine []).isShadow 46 = false ∧ (machine []).seqFused 46 = false := by decide

/-! ### Signals, PYR-T and POST -/

theorem nobody_waits (n : Nat) (consume : Bool) (m : Nat) : (machine []).seqWaits n consume m = false ∧ (machine []).chWaits n consume m = false := by
  constructor
  · simp [machine, State.seqWaits, State.seq, State.reset, tabGet, tabFind]
  · simp [machine, State.chWaits, State.chan, State.reset, tabGet, tabFind]

theorem test_signal_premises :
    let s := ((machine []).runs' 8 { g := [(1, 0x1FF), (2, 5)] }).setSeq 10 { run := .waiting, wait := .signal 255 false 31 true }
    let u := { s with signals := BitVec.ofNat 256 (2 ^ 255) }
    s.executes 8 = true ∧ ((s.seq 8).x 1).toNat % 256 = 255 ∧ s.signal 255 = false ∧ u.signal 255 = true ∧ s.isShadow 10 = false ∧
    (s.seq 10).run = .waiting ∧ (s.seq 10).wait = .signal 255 false (31 : BitVec 5).toNat true ∧
    (∀ m < 48, m ≠ 10 → s.seqWaits 255 false m = false) := by decide

theorem test_signal_wait_premises :
    let s := (machine []).setSeq 9 { run := .waiting, wait := .signal (7 : BitVec 8).toNat true (31 : BitVec 5).toNat true }
    let u := { s with signals := BitVec.ofNat 256 (2 ^ 7) }
    u.isShadow 9 = false ∧ (u.seq 9).run = .waiting ∧ (u.seq 9).wait = .signal (7 : BitVec 8).toNat true (31 : BitVec 5).toNat true ∧
    u.signal 7 = true ∧ (∀ m < 48, m ≠ 9 → u.seqWaits 7 true m = false) := by decide

/-- Lane 0 with a line's tile enabled on bar 0, axis 0 valid at count 0 going forward. -/
def armable (extra : List (Field × Nat)) (stamp desc : W32) (queue : List Entry) : State :=
  ((((machine ([(F.LANE_SCHED_en 0, 1), (F.BAR_CFG_en 0, 1), (F.BAR_STAT_rdy 0, 1), (F.FIRE_TILE_CFG_en 0, 1)] ++ extra)).setAxis 0
    { st := .lull }).setLane 0 { queue := queue }).runs' 24 { g := [(1, stamp), (2, desc)] })

theorem test_position_premises :
    let at_ := fun (a : Axis) => ((machine []).setAxis 7 a).runs' 24 { g := [(1, 7), (2, 0x100), (3, 5)] }
    let s := at_ { st := .lull, sillF := 0x100 }
    let u := at_ { st := .moving, sillF := 0x0FF }
    let w := ((machine []).setAxis 7 { st := .lull, sillF := 0x100 }).setSeq 24
      { run := .waiting, wait := .position 7 false 0x100 4 5 0, g := [(1, 7), (2, 0x100), (3, 5)] }
    s.executes 24 = true ∧ ((at_ {}).axis 7).valid = false ∧ (s.axis 7).valid = true ∧ atOrBeyond false (s.axisSill 7 false) 0x100 = true ∧
    (u.axis 7).valid = true ∧ atOrBeyond false (u.axisSill 7 false) 0x100 = false ∧ (4 : BitVec 5).toNat % 2 = 0 ∧
    ((machine []).runs' 23 {}).executes 23 = true ∧ (((machine []).runs' 23 {}).seq 23).inh = false ∧
    (w.seq 24).run = .waiting ∧ (w.seq 24).wait = .position 7 false 0x100 4 5 0 ∧ 0 + 5 ≤ ({ w with uptime := 5 } : State).uptime := by decide

theorem test_arm_premises :
    let e : Entry := { stamp := 0, mask := 1, tag := 9, bar := 0, rev := false, ahead := true }
    let ok := armable [] 5 0x00010900 []
    let hit := fun (s : State) (p : Nat) => atOrBeyond false (s.tileSill 0 (0 * 16 + p) false) ((s.seq 24).x 1)
    let good := fun (s : State) => s.executes 24 = true ∧ s.flag (F.LANE_SCHED_en 0) = true ∧ ((s.seq 24).x 2).toNat / 2 ^ 16 = 1 ∧
      ((s.seq 24).x 2).toNat % 16 = 0 ∧ s.flag (F.BAR_CFG_en 0) = true ∧ s.flag (F.BAR_STAT_rdy 0) = true ∧ ((s.seq 24).x 2).getLsbD 4 = false ∧
      s.flag (F.FIRE_TILE_CFG_en 0) = true ∧ s.get (F.FIRE_TILE_CFG_bar 0) = 0
    good ok ∧ (ok.axis 0).valid = true ∧ hit ok 0 = false ∧ hit (armable [] 0 0x00010900 []) 0 = true ∧
    good (armable [] 5 0x00010900 [e]) ∧ ((armable [] 5 0x00010900 [e]).lane 0).queue = [e] ∧
    good (armable [] 5 0x00010900 (List.replicate 64 { e with tag := 8 })) ∧
    ((ok.setAxis 0 {}).axis 0).valid = false ∧ (armable [(F.LANE_SCHED_en 0, 0)] 5 0x00010900 []).flag (F.LANE_SCHED_en 0) = false := by decide

theorem test_post_premises :
    let at_ := fun (fs : List (Field × Nat)) (ctl : W32) => (machine fs).runs' 0 { g := [(1, ctl)] }
    let on := [(F.SUP_RING_CFG_en 0, 1)]
    let src := fun (s : State) => ((s.seq 0).x 1).toNat / 2 ^ 24
    let kind := fun (s : State) => ((s.seq 0).x 1).toNat % 2 ^ 16
    (at_ [] 0).executes 0 = true ∧ (3 : BitVec 5).toNat % 2 = 1 ∧ ((at_ [] 0).seq 0).inh = false ∧
    src (at_ [] 0x75008000) = 117 ∧ src (at_ [] 0x76008000) = 118 ∧ (at_ [] 0).flag (F.SUP_FWG_en 0) = false ∧
    (at_ [(F.SUP_FWG_en 0, 1)] 0).get (F.SUP_FWG_seq 0) = 0 ∧ kind (at_ [] 0x7FFF) = 0x7FFF ∧ kind (at_ on 0x8000) = 0x8000 ∧
    tabGet [] (at_ on 0x8000).ev.buf 0 = [] ∧ (at_ on 0x8000).flag (F.SUP_RING_CFG_en ((at_ on 0x8000).ringOf 0)) = true ∧
    (at_ on 0x8000).ev.holding = [] ∧ (at_ on 0x8000).ringRefuses 0 0 = false ∧
    (at_ (on ++ [(F.SUP_RING_RD_rd 0, 1)]) 0x8000).ringRefuses 0 0 = true ∧ (at_ [] 0x8000).flag (F.SUP_RING_CFG_en 0) = false ∧
    ({ at_ [] 0x8000 with ev := { holding := List.replicate 64 (0, 0, []) } } : State).ev.holding.length = 64 := by decide

/-! ### PYR-M and PYR-V -/

theorem test_motor_instruction_premises :
    let s := ((machine []).runs' 4 { g := [(1, 0x40004000)] }).runs' 8 {}
    s.executes 4 = true ∧ (4 : BitVec 5).toNat % 2 = 0 ∧ (4 : BitVec 5) ≠ 0 ∧ (s.seq 4).x 2 = 0 ∧
    (((s.seq 4).x 1).extractLsb' 0 16).toInt ^ 2 + (((s.seq 4).x 1).extractLsb' 16 16).toInt ^ 2 ≤ 2 ^ 30 ∧
    s.executes 8 = true ∧ (s.seq 8).inh = false ∧ (5 : BitVec 5).toNat % 2 = 1 := by decide

theorem test_vector_premises :
    let s := (machine [(F.RC_CTL_res_inj 15, 1)]).runs' 8 { g := [(1, 0x05FFFF00), (2, 0x101), (3, 4)], m := [(1, 0x8000000000000001)] }
    let u := s.runs' 23 {}
    s.executes 8 = true ∧ s.flag (F.RC_CTL_res_inj 0) = false ∧ (7 : BitVec 5).truncate 3 ≠ (0 : BitVec 3) ∧ (s.seq 8).inh = false ∧
    ((s.seq 8).mask 1).getLsbD 63 = true ∧ ((s.seq 8).mask 1).getLsbD 1 = false ∧ s.room 8 = true ∧ u.executes 23 = true ∧
    u.flag (F.RC_CTL_res_inj 15) = true ∧ (∀ k < 64, k < 0 → ((u.seq 23).mask 0).getLsbD k = false) ∧ u.room 23 = true ∧
    ((machine []).runs' 24 {}).executes 24 = true := by decide

theorem test_vector_memory_premises :
    let s := (machine []).runs' 8 { g := [(1, 0x05FFFF00), (2, 0x101), (3, 4)] }
    let addr := fun (k : Nat) => ((s.seq 8).x 1 + BitVec.ofNat 32 k * 4).toNat
    s.executes 8 = true ∧ s.cells = [] ∧ (∀ k < 64, addr k % 4 = 0 ∧ isSram (addr k) = true ∧ s.memCheck 8 (addr k) 4 Needs.read = none ∧
      s.memCheck 8 (addr k) 4 Needs.write = none) ∧ (s.seq 8).inh = false ∧ ((s.seq 8).x 2 + 0).toNat % 4 ≠ 0 := by decide

set_option maxRecDepth 4000 in
theorem test_table_premises :
    let s := (machine [(F.RC_TBUF_valid 0, 1), (F.RC_TBUF_base 0, 4)]).runs' 8 { g := [(1, 0x1000), (2, 0x2000)] }
    s.executes 8 = true ∧ s.flag (F.RC_TBUF_valid 0) = true ∧ s.get (F.RC_TBUF_base 0) = ((s.seq 8).x 1 &&& 0xFFFFFC00).toNat / 1024 ∧
    s.get (F.RC_TBUF_base 0) ≠ ((s.seq 8).x 2 &&& 0xFFFFFC00).toNat / 1024 ∧ s.cells = [] ∧
    (∀ i < 256, isSram (0x2000 + 4 * i) = true ∧ s.memCheck 8 (0x2000 + 4 * i) 4 Needs.read = none) := by decide

theorem test_nozzle_map_premises :
    let s := (machine []).runs' 8 { g := [(1, 786368), (2, 786369)] }
    s.executes 8 = true ∧ ((s.seq 8).x 1).toNat + 63 ≤ 786431 ∧ s.flag (F.RC_CTL_res_inj 0) = false ∧ s.cells = [] ∧
    (∀ k < 64, s.memCheck 8 (4 * (786368 + k)) 4 Needs.read = none) ∧ 786368 % 2048 ≠ 0 ∧ s.memCheck 8 (4 * 786367) 4 Needs.read = none ∧
    (786368 + 64) % 2048 = 0 ∧ 786431 < ((s.seq 8).x 2).toNat + 63 ∧ (s.seq 8).inh = false := by decide

theorem test_screen_premises :
    let s := ((machine []).runs' 8 { g := [(1, 0x1000)] }).wrBytes 0x1000 [0, 0x20, 0, 0, 0, 0, 3, 7]
    s.executes 8 = true ∧ s.cells = [] ∧ s.memCheck 8 0x1000 4 Needs.read = none ∧ s.memCheck 8 0x1004 4 Needs.read = none ∧
    s.wordAt 0x1000 = 0x2000 ∧ (s.wordAt 0x1004).extractLsb' 24 8 = 7 ∧
    (∀ k < 8, s.memCheck 8 (0x2000 + 4 * k) 4 Needs.read = none) := by decide

theorem test_pack_premises :
    let s := (machine []).runs' 8 { g := [(1, 0x1000), (2, 1)] }
    s.executes 8 = true ∧ s.cells = [] ∧ 2 + ((s.seq 8).x 2).toNat % 2 = 3 ∧
    (∀ i < 6, isSram (0x1000 + 4 * i) = true ∧ s.memCheck 8 (0x1000 + 4 * i) 4 Needs.write = none) := by decide

/-! ### Control of clusters and sequencers -/

theorem test_cluster_premises : (machine []).rcFused 15 = false := by decide

theorem test_sequencer_premises :
    let s := machine [(F.SEC_LC_dbg, 1)]
    s.seqReached 47 = true ∧ (s.seq 47).run = .halted ∧ s.flag F.SEC_LC_dbg = true ∧
    ((s.runs' 47 {}).seq 47).run = .running ∧ ((s.setSeq 47 { run := .waiting }).seq 47).run = .waiting ∧
    ((s.setSeq 47 { run := .debug }).seq 47).run = .debug := by decide

theorem test_lockstep_premises :
    let s := machine [(F.SEC_LC_state, 1)]
    let u := (machine [(F.SEC_LC_state, 2)]).runs' 6 {}
    s.seqFused 6 = false ∧ s.flag (F.SYS_SEQ_CTL_split 6) = false ∧ (8 : W32).getLsbD 3 = true ∧ (8 : W32).extractLsb' 0 3 = 0 ∧
    (s.seq 6).run = .halted ∧ (s.seq 7).run = .halted ∧ s.lockstep 6 = true ∧ s.get F.SEC_LC_state ≤ 1 ∧ (u.seq 6).run ≠ .halted ∧
    natBit u.policy 2 = false ∧ s.room 63 = true ∧ u.lockstep 6 = true ∧ (u.seq 6).run ≠ .faulted ∧ (u.seq 6).run ≠ .reset := by decide

/-! ### Registers and ports -/

theorem test_register_premises :
    let s := { machine [] with held := [(heldKey 51 (R.AX_STATE 7), 5)] }
    let is := fun (a : Nat) (p : Card → Nat → Bool) => (cardAt a).any (fun c => p c.1 c.2.1) = true
    (s.mayReg .host 0x40FFFFFC Needs.write ∧ s.mayReg .host 0x40FFFFFC Needs.read ∧ cardAt 0x40FFFFFC = none) ∧
    (s.mayReg .host (R.SYS_SEQ_CTL 1) Needs.write ∧ is (R.SYS_SEQ_CTL 1) (fun c i => s.regDeaf c i)) ∧
    (s.mayReg .host (R.AX_VRATE 7) Needs.write ∧ is (R.AX_VRATE 7) (fun c i => !effectRegs.contains c.id && !s.regDeaf c i)) ∧
    (s.mayReg .host (R.LANE_LATE 23) Needs.read ∧ is (R.LANE_LATE 23) (fun c i => !s.regHidden c i && (snapGroup c.id i).isEmpty &&
      !snapMember c.id && !decide (c.id ∈ [RegId.OG_RESA, .MEM_ELOG0, .MEM_MFAIL0, .MEM_SCRSTAT]))) ∧
    (s.mayReg .host (R.AX_STATE 7) Needs.read ∧ is (R.AX_STATE 7) (fun c i => !s.regHidden c i && (snapGroup c.id i).isEmpty && snapMember c.id) ∧
      s.holderOf .host = some 51 ∧ tabFind s.held (heldKey 51 (R.AX_STATE 7)) = some 5) ∧
    (s.mayReg .host (R.AX_POS 0) Needs.read ∧ is (R.AX_POS 0) (fun c i => !s.regHidden c i && !(snapGroup c.id i).isEmpty)) ∧
    s.mayReg .host R.MEM_ELOG0 Needs.read ∧ s.mayReg .host R.MEM_MFAIL0 Needs.read := by unfold State.mayReg; decide

theorem test_port_premises :
    let s := machine [(F.SEC_LC_dbg, 1), (F.PCIE_WIN_en 15, 1)]
    let shut := machine [(F.SYS_BOOTSTAT_straps, 24)]
    let f := s.get (F.PCIE_WIN_base 15) * 2 ^ 28 + (0xF0000FFF : W32).toNat % 2 ^ 28
    (machine [(F.SEC_LC_dbg, 0)]).flag F.SEC_LC_dbg = false ∧ s.flag F.SEC_LC_dbg = true ∧ s.memCheck 52 0x05FFFFFC 4 Needs.read = none ∧
    s.memCheck 52 0x05FFFFFC 4 Needs.write = none ∧ s.cells = [] ∧ s.hostShut = false ∧ (s.winAddr 0xF0000FFF).2 = true ∧
    (0xF0000FFF : W32).toNat % 4096 + 1 ≤ 4096 ∧ s.memCheck 51 f 1 (if partialWord f 1 then Needs.both else Needs.write) = none ∧
    s.memCheck 51 f 1 Needs.read = none ∧ (0x00FFFFFC : W32).toNat < 0x01000000 ∧ (0x00FFFFFC : W32).toNat % 4 = 0 ∧ shut.hostShut = true := by decide

theorem test_host_port_premises :
    let s := (machine [(F.PCIE_STAT_flags, 0)]).wr (R.PCIE_PBA 1) 0x80000000
    let m := s.wr (R.PCIE_MSIX 63 3) 1
    let u := s.wr (R.PCIE_MSIX 63 3) 0
    (m.rd (R.PCIE_MSIX 63 3)).getLsbD 0 = true ∧ u.msixFnMask = false ∧ (u.rd (R.PCIE_MSIX 63 3)).getLsbD 0 = false ∧
    (s.rd (R.PCIE_PBA (63 / 32))).getLsbD (63 % 32) = true ∧ (s.rd (R.PCIE_PBA (62 / 32))).getLsbD (62 % 32) = false ∧
    ({ s with msixFnMask := true } : State).msixFnMask = true ∧ s.room 106 = true ∧ s.bit F.PCIE_STAT_flags 0 = false := by decide

/-! ### Position -/

theorem test_position_input_premises :
    let s := (machine [(F.AX_CFG_en 7, 1), (F.AX_CFG_src 7, 1), (F.AX_CFG_sel_a 7, 3), (F.QE_CFG_lvl 3, 0), (F.AX_ZCTL_zmode 7, 1), (F.AX_CFG_qerr_max 7, 0)]).setAxis 7
      { st := .lull }
    let at_ := fun (src : Nat) => (machine [(F.AX_CFG_en 7, 1), (F.AX_CFG_src 7, src), (F.PTP_STAT_stat, 1)]).setAxis 7
      { st := .lull, fwdPulses := 7, revPulses := 1 }
    let bar := (machine [(F.BAR_CFG_en 0, 1), (F.BAR_CFG_axis 0, 7), (F.SHUT_GSTAT_latch, 0), (F.SHUT_B_STAT_latch 0, 0)]).setAxis 7 { st := .lull }
    (s.axis 7).valid = true ∧ s.flag (F.AX_CFG_en 7) = true ∧ s.get (F.AX_CFG_src 7) = 1 ∧ s.get (F.AX_CFG_sel_a 7) = 3 ∧
    (∀ k < 8, k ≠ 7 → s.flag (F.AX_CFG_en k) = false ∧ (s.axis k).valid = false) ∧
    (natBit (s.get (F.QE_CFG_lvl 3)) 0, natBit (s.get (F.QE_CFG_lvl 3)) 1, true, false) = (false, false, true, false) ∧
    (s.axis 7).a.rev = false ∧ s.get (F.AX_CFG_qerr_max 7) = 0 ∧ s.flag (F.AX_ZCTL_zqual_en 7) = false ∧ s.get (F.AX_ZCTL_zmode 7) = 1 ∧
    natBit (s.get (F.QE_CFG_lvl 3)) 2 = s.flag (F.QE_CFG_zinv 3) ∧ (at_ 3).get (F.AX_CFG_src 7) = 3 ∧ ((at_ 3).axis 7).fwdPulses = 7 ∧
    ((at_ 3).axis 7).revPulses = 1 ∧ (at_ 4).get (F.AX_CFG_src 7) = 4 ∧ (at_ 4).flag F.PTP_STAT_stat = true ∧
    s.axisCanFire 7 = false ∧ bar.axisCanFire 7 = true := by decide

theorem test_axis_config_premises :
    let off := machine [(F.EO_CFG_en 1, 1), (F.EO_CFG_sp 1, 38)]
    let on := (machine [(F.AX_CFG_en 7, 1), (F.AX_CFG_src 7, 4), (F.PTP_STAT_stat, 1)]).setAxis 7 { st := .moving, a := { te := 0 } }
    let late := { on with uptime := 1000 * 390625 }
    let fused := { (machine [(F.AX_CFG_src 7, 5), (F.AX_CFG_en 7, 1)]).setAxis 7 { st := .lull, b := { moving := true } } with uptime := 1000 * 390625 }
    let eo := { off with encOuts := [(1, { pend := 1, lastStep := some 0 })], uptime := 39 }
    let f := fun (s : State) (v : W32) => (v ^^^ s.rd (R.AX_CFG 7)) &&& 0x077F0003
    off.flag (F.AX_CFG_en 7) = false ∧ (off.axis 7).st = .off ∧ on.flag (F.AX_CFG_en 7) = true ∧ f on (on.rd (R.AX_CFG 7)) = 0 ∧
    f on 0x80000000 ≠ 0 ∧ (late.axis 7).st = .moving ∧ (late.axis 7).a.te + 1000 * 390625 ≤ late.uptime ∧ (late.axis 7).a.hist = [] ∧
    on.uptime < (on.axis 7).a.te + 1000 * 390625 ∧ fused.isFused 7 = true ∧ (fused.axis 7).b.moving = true ∧
    (fused.axis 7).b.te + 1000 * 390625 ≤ fused.uptime ∧ on.get (F.AX_CFG_src 7) = 4 ∧ on.flag F.PTP_STAT_stat = true ∧
    (eo.encOut 1).lastStep = some 0 ∧ 0 + max 39 (eo.get (F.EO_CFG_sp 1)) ≤ eo.uptime ∧ eo.flag (F.EO_CFG_en 1) = true ∧ (eo.encOut 1).pend ≠ 0 ∧
    ({ eo with uptime := 38 } : State).uptime < 0 + max 39 (eo.get (F.EO_CFG_sp 1)) ∧ off.flag (F.EO_CFG_en 0) = false ∧
    natBit off.lanesOff (191 / 8) = false := by decide

theorem test_serial_premises :
    let s := { (machine [(F.AX_CFG_en 0, 1), (F.AX_CFG_src 0, 2), (F.SE_CFG_proto 1, 2), (F.AX_CFG_sel_a 0, 1), (F.SE_CFG_bits 1, 11),
      (F.SE_LIM_jlim 1, 3), (F.SE_MEAS_consec 1, 2)]).setAxis 0 { st := .acquire } with serials := [(1, ⟨true, 9⟩)] }
    let u := (s.set (F.SE_MEAS_consec 1) 0).setAxis 0 { st := .lull, rPrev := some 4095 }
    (s.serial 1).running = true ∧ ((machine []).serial 1).running = false ∧ s.serialAxes 1 = [0] ∧ 2 ≤ s.get (F.SE_MEAS_consec 1) ∧
    u.get (F.SE_MEAS_consec 1) < 2 ∧ (s.axis 0).st = .acquire ∧ s.get (F.SE_CFG_proto 1) = 2 ∧ (s.axis 0).rPrev = none ∧
    (u.axis 0).rPrev = some 4095 ∧ (u.axis 0).valid = true ∧ u.get (F.SE_LIM_jlim 1) = 3 ∧ ((2 : Int) - 4095) % 4096 = 3 ∧
    ((3 : Int) - 4095) % 4096 = 4 ∧ (machine [(F.SE_CFG_proto 1, 3)]).get (F.SE_CFG_proto 1) = 3 ∧
    (machine [(F.SE_CFG_par 0, 1)]).get (F.SE_CFG_par 0) = 1 ∧
    crc6 ((List.range 12).reverse.map (Nat.testBit 0) ++ [true, true]) 0 ≤ 63 := by decide

/-! ### Fire scheduling -/

theorem test_fire_premises :
    let e : Entry := { stamp := 0x100, mask := 1, tag := 9, bar := 0, rev := false, ahead := true }
    let hd := slotHeader 0 0 9
    let lane := fun (s : State) => (s.setLane 0 { queue := [e] }).wrBytes hd [0, 0, 9, 0x40]
    let s := { lane (machine [(F.LANE_STATE_state 0, 5)]) with uptime := 4 }
    let ready := s.setAxis 0 { st := .lull, sillF := 0x100 }
    let decided := ready.setLane 0 { queue := [{ e with drops := 1 }] }
    (s.lane 0).queue[0]? = some e ∧ natBit e.mask 0 = true ∧ natBit e.sent 0 = false ∧ natBit e.dead 0 = false ∧ natBit e.blank 0 = false ∧
    natBit e.passed 0 = false ∧ s.get (F.LANE_STATE_state 0) = 5 ∧ e.tag < 256 ∧ s.cells = [] ∧ (s.wordAt hd).extractLsb' 30 2 = 1 ∧
    (s.wordAt hd).extractLsb' 16 8 = BitVec.ofNat 8 e.tag ∧ tabFind (s.lane 0).slotTimes (0 * 16 + 9 % 16) = none ∧
    ((machine []).wrBytes hd [0, 0, 9, 0x80]).wordAt hd = 0x80090000 ∧ (machine [(F.LANE_STATE_state 0, 7)]).get (F.LANE_STATE_state 0) = 7 ∧
    (decided.lane 0).queue = [{ e with drops := 1 }] ∧ decided.isFused 0 = false ∧
    atOrBeyond false (stampOf (decided.axis 0).sillF) e.stamp = true ∧ atOrBeyond false (stampOf 0) e.stamp = false ∧ e.ahead = true ∧ e.passed = 0 := by decide

theorem test_fire_config_premises :
    let s := machine [(F.BAR_PITCH_pitch 0, 1), (F.FIRE_TILE_CFG_en 0, 1), (F.LANE_STATE_state 0, 5), (F.LANE_PRES_link 0, 1)]
    let on := s.set (F.BAR_CFG_en 0) 1
    natBit s.lanesOff 0 = false ∧ (0x80000000 : W32).getLsbD 1 = false ∧ s.flag (F.BAR_CFG_en 0) = false ∧ s.get (F.BAR_PITCH_pitch 0) ≠ 0 ∧
    s.barTiles 0 ≠ [] ∧ s.barTiles 1 = [] ∧ 0 ∈ s.barTiles 0 ∧ s.get (F.LANE_STATE_state 0) = 5 ∧ natBit (s.get (F.LANE_PRES_link 0)) 0 = true ∧
    s.bit (F.LANE_EXCL_excl 0) 0 = false ∧ on.flag (F.BAR_CFG_en 0) = true ∧ on.get (F.BAR_CFG_axis 0) = 0 ∧
    on.rd (R.FIRE_TILE_CFG 0) ≠ 0 ∧ s.get F.FIRE_EQ_teq_ns ≠ 7 ∧ (∀ n < 24, (machine []).get (F.LANE_STATE_state n) = 0) := by decide

/-! ### Nozzle health -/

theorem test_health_premises :
    let s := machine [(F.HEALTH_MWIDX_index 1, 786431), (F.HEALTH_ECFG_en, 1)]
    let rec_ : EchoMsg := ⟨31, 9, List.replicate 64 0⟩
    let lane := machine [(F.LANE_STATE_state 23, 5), (F.HEALTH_TPUSH_busy 22, 1)]
    s.get (F.HEALTH_MWIDX_index 1) = 786431 ∧ s.cells = [] ∧ (machine [(F.HEALTH_MWIDX_index 1, 786432)]).get (F.HEALTH_MWIDX_index 1) = 786432 ∧
    natBit lane.lanesOff 23 = false ∧ lane.flag (F.HEALTH_TPUSH_busy 22) = true ∧ lane.flag (F.HEALTH_TPUSH_busy 23) = false ∧
    lane.get (F.LANE_STATE_state 23) = 5 ∧ lane.get (F.LANE_STATE_state 22) < 5 ∧ (lane.lane 23).mgmt = [] ∧ echoOf [] = none ∧
    ({ s with echoes := [(383, rec_)] } : State).echoes = [(383, rec_)] ∧ s.flag F.HEALTH_ECSTAT_halt = false ∧ rec_.words.length = 64 ∧
    (machine []).flag F.HEALTH_ECFG_en = false ∧ s.flag F.HEALTH_ECFG_en = true ∧ s.get F.HEALTH_ECFG_kcode ≠ 7 ∧
    (machine [(F.HEALTH_ECSTAT_wbusy, 1)]).flag F.HEALTH_ECSTAT_wbusy = true ∧ s.flag F.HEALTH_ECSTAT_wbusy = false ∧ s.room 63 = true := by decide

theorem test_gate_premises :
    let s := machine [(F.OG_CFG_en 1, 1)]
    let at_ := fun (w : GateWindow) (n : Nat) => s.setGate 1 { window := w, fifo := List.replicate n (1, 2) }
    (machine []).flag (F.OG_CFG_en 1) = false ∧ s.flag (F.OG_CFG_en 1) = true ∧ (s.gate 1).window = .none ∧ ((at_ .delay 0).gate 1).window = .delay ∧
    ((at_ .opened 63).gate 1).window = .opened ∧ ((at_ .opened 63).gate 1).fifo.length = 63 ∧ ((at_ .opened 64).gate 1).fifo.length = 64 ∧
    (at_ .opened 64).room 109 = true ∧ (s.gate 1).fifo = [] := by decide

theorem test_governor_premises :
    let s := machine [(F.HEALTH_GOV_CFG_en 0, 1), (F.HEALTH_GOV_CFG_en 23, 0), (F.SHUT_MODE_mode, 2)]
    natBit s.lanesOff 23 = false ∧ s.flag (F.HEALTH_GOV_CFG_en 0) = true ∧ ((0x81000000 : W32).extractLsb' 24 3).toNat ≠ s.get (F.HEALTH_GOV_CFG_wcode 0) ∧
    s.get F.SHUT_MODE_mode = 2 ∧ s.flag (F.HEALTH_GOV_CFG_en 23) = false := by decide

/-! ### The Vilhel link -/

/-- The blocks of a transom as they come back. -/
def returned (type pos tag spec : Nat) (payload : List W8) : List LinkBlock :=
  match transomOut type pos tag spec payload with
  | .transom h p => ⟨true, h⟩ :: (List.range (p.length / 8)).map (fun i => ⟨false, BitVec.ofNat 64 (leNat ((p.drop (8 * i)).take 8))⟩)
  | _ => []

set_option maxRecDepth 8000 in
theorem test_block_premises :
    let reply := orderedSet 0x33 (15 * 2 ^ 44 + 2 * 2 ^ 40 + 9 * 2 ^ 32 + 1 * 2 ^ 28)
    answerOf reply = .reply ⟨15, 2, 9, 1, 0⟩ ∧ answerOf (reply ^^^ 0x100) = .badCheck ∧ answerOf 0 = .unknown ∧ answerOf (markBlock 0 0) = .other ∧
    (statOf (returned 8 15 0 0 (List.replicate 64 1))).isSome = true ∧ statOf [] = none ∧ responseOf [] = none ∧
    responseOf (returned 4 1 7 0x10 []) = some ⟨1, 7, 1, []⟩ := by decide

theorem test_lane_training_premises :
    let at_ := fun (st : Nat) => machine [(F.LANE_STATE_state 23, st), (F.LANE_PRES_link 23, 0x8000), (F.LANE_SBCFG_poll 23, 1), (F.LANE_RINGCFG_expect 23, 3)]
    let s := at_ 3
    natBit s.lanesOff 23 = false ∧ s.room (24 + 23) = true ∧ (s.lane 23).auto = false ∧ ((s.setLane 23 { auto := true }).lane 23).auto = true ∧
    ((0x40000000 : W32).extractLsb' 30 1).toNat ≠ s.get (F.LANE_CTL_legacy 23) ∧ (0x10000000 : W32).getLsbD 28 = true ∧
    (at_ 0).get (F.LANE_STATE_state 23) = 0 ∧ (at_ 1).get (F.LANE_STATE_state 23) = 1 ∧ (at_ 2).get (F.LANE_STATE_state 23) = 2 ∧
    s.get (F.LANE_STATE_state 23) = 3 ∧ (at_ 5).get (F.LANE_STATE_state 23) = 5 ∧ (at_ 6).get (F.LANE_STATE_state 23) = 6 ∧
    (at_ 6).flag (F.LANE_SBCFG_poll 23) = true ∧ (s.get (F.LANE_RINGCFG_expect 23) ≠ 0 ∧ (4 : W16).toNat ≠ s.get (F.LANE_RINGCFG_expect 23)) ∧
    (3 : W16).toNat = s.get (F.LANE_RINGCFG_expect 23) ∧ s.flag (F.LANE_CTL_legacy 23) = false ∧ ((s.lane 23).enumTries < 2) ∧
    2000000 < 25 * 82500 ∧ 24 * 82500 ≤ 2000000 ∧ natBit (s.get (F.LANE_PRES_link 23)) 15 = true := by decide

theorem test_link_traffic_premises :
    let x : Tx := ⟨15, false, 9, 0, false, .set 0⟩
    let r : MgReq := ⟨15, 7, 1, 0x20, 1, [1], .firmware, 0⟩
    let e : Entry := { stamp := 0, mask := 0x8000, tag := 9, bar := 0, rev := false, ahead := true, sent := 0x8000 }
    let l : Lane := { txs := [x], mgmt := [r], queue := [e], grants := [⟨0, 15, 1⟩, ⟨3, 15, 2⟩], sets := [.cancel 1 9 2, .strobe ⟨1, 9, false, false, 0, 0⟩],
                      limitsDue := 0x8000, checkFail := some 0 }
    let s := ((machine [(F.LANE_STATE_state 23, 5), (F.LANE_PRES_link 23, 0x8000), (F.LANE_CTL_retry_max 23, 1), (F.HEALTH_ECFG_en, 1)]).setLane 23 l).setTile
      (23 * 16 + 15) { echoDue := 1 }
    let mine := fun (kind : Nat) (g : Grant) => g.kind == kind && g.pos == 15
    s.get (F.LANE_STATE_state 23) = 5 ∧ natBit (s.get (F.LANE_PRES_link 23)) 15 = true ∧ natBit (s.get (F.LANE_EXCL_excl 23)) 15 = false ∧
    (({ l with grants := [] } : Lane).grants.filter (mine 0)).length < (l.txs.filter (fun x => x.pos == 15 && !x.full)).length ∧
    (s.tile (23 * 16 + 15)).echoDue ≠ 0 ∧ (∃ r ∈ (s.lane 23).mgmt, r.pos = 15) ∧ (∃ g ∈ (s.lane 23).grants, mine 3 g = true) ∧
    (∃ g ∈ (s.lane 23).grants, mine 0 g = true) ∧ (∀ g ∈ (s.lane 23).grants, mine 1 g = false) ∧
    (s.lane 23).txs.find? (fun x => x.pos == 15 && !x.full) = some x ∧ x.tries < s.get (F.LANE_CTL_retry_max 23) ∧
    (machine []).get (F.LANE_CTL_retry_max 23) ≠ 0 ∧ (s.lane 23).sets = .cancel 1 9 2 :: [.strobe ⟨1, 9, false, false, 0, 0⟩] ∧
    (SentSet.cancel 1 9 2).cancelOf = some (1, 9, 2) ∧ (SentSet.strobe ⟨1, 9, false, false, 0, 0⟩).cancelOf = none ∧ s.uptime ≤ 0 + 390625 ∧
    (s.tile (23 * 16 + 15)).silent = false ∧ natBit (s.lane 23).limitsDue 15 = true ∧ natBit (s.lane 23).limitsDue 14 = false := by decide

theorem test_classified_premise :
    let s := (machine [(F.LANE_STATE_state 0, 5), (F.LANE_PRES_link 0, 1), (F.HEALTH_ECFG_en, 1), (F.HEALTH_ECLANE_lanes, 1)])
    ({ s with classes := [(s.tileClass 0, { en := true })] } : State).classified 0 = true ∧ s.classified 0 = false := by decide

theorem test_link_management_premises :
    let r : MgReq := ⟨15, 7, 0, 0x20, 2, [], .firmware, 3⟩
    let u : Upload := ⟨3, true, [], 1⟩
    let s := (machine [(F.LANE_STATE_state 23, 5), (F.LANE_PRES_link 23, 1), (F.LANE_SBCFG_poll 23, 1), (F.FIRE_WVCFG_en, 1), (F.LANE_WVSRC_addr 23, 0x017FFFE0),
      (F.LANE_TEMP_link 23 0, 0x20), (F.FIRE_RANK_f 0, 0x3000)]).setLane 23 { mgmt := [r], sbq := [.firmware], upload := some u, breezeDue := 1 }
    let opens := machine [(F.LANE_STATE_state 23, 7), (F.LANE_MGCMD_busy 23, 1), (F.LANE_SBCMD_busy 23, 1), (F.LANE_WVCMD_busy 23, 1)]
    natBit s.lanesOff 23 = false ∧ (0x00030000 : W32).extractLsb' 16 2 = 3 ∧ s.flag (F.LANE_MGCMD_busy 23) = false ∧ s.get (F.LANE_STATE_state 23) = 5 ∧
    opens.flag (F.LANE_MGCMD_busy 23) = true ∧ opens.get (F.LANE_STATE_state 23) = 7 ∧
    (s.lane 23).mgmt.find? (fun r => r.pos == 15 && r.seq == 7) = some r ∧ r.why = .firmware ∧ 3 ≤ r.tries ∧
    (s.lane 23).mgmt.find? (fun r => r.pos == 14 && r.seq == 7) = none ∧ opens.flag (F.LANE_SBCMD_busy 23) = true ∧
    s.flag (F.LANE_SBCMD_busy 23) = false ∧ (s.lane 23).sbq.head? = some .firmware ∧ (opens.lane 23).sbq = [] ∧
    s.flag (F.LANE_SBCFG_poll 23) = true ∧ opens.flag (F.LANE_SBCFG_poll 23) = false ∧ opens.flag (F.LANE_WVCMD_busy 23) = true ∧
    s.flag (F.LANE_WVCMD_busy 23) = false ∧ (s.rd (R.LANE_WVSRC 23)).toNat + 127 < 0x06000000 ∧ s.cells = [] ∧
    (s.lane 23).upload = some u ∧ (s.lane 23).txs.any (fun x => x.wave) = false ∧ (opens.lane 23).upload = none ∧ s.flag F.FIRE_WVCFG_en = true ∧
    opens.flag F.FIRE_WVCFG_en = false ∧ s.get (F.LANE_TEMP_link 23 0) ≠ 0x8000 ∧ s.flag (F.FIRE_TILE_CFG_en (23 * 16)) = false ∧
    natBit (s.lane 23).breezeDue 0 = true ∧ s.runs 23 0 = true := by decide

/-! ### Clocks, resets, supply and boot -/

theorem test_clock_premises :
    let s := machine [(F.SYS_CLK_STAT_lock, 0x3FF), (F.SHUT_GSTAT_latch, 1)]
    let u := machine [(F.SYS_CLK_STAT_lock, 0x3FF), (F.LANE_STATE_state 23, 5), (F.SYS_CLK_CTL_lref_sel, 1)]
    s.get F.SHUT_GSTAT_latch ≠ 0 ∧ (∀ n < 24, s.get (F.LANE_STATE_state n) = 0) ∧ s.get F.SYS_CLK_CTL_lref_sel = 0 ∧
    u.get (F.LANE_STATE_state 23) ≠ 0 ∧ u.get F.SYS_CLK_CTL_lref_sel = 1 ∧ natBit (s.get F.SYS_CLK_STAT_lock) 9 = true ∧
    natBit (s.get F.SYS_CLK_STAT_lock) 15 = false ∧ natBit s.lanesOff 23 = false ∧ s.room 63 = true := by decide

theorem test_reset_premises :
    let s := machine [(F.SUP_WDOG_en, 1), (F.SUP_WDOG_stage1, 1), (F.SEC_LC_dbg, 1)]
    ({ s with pllDue := 4 } : State).pllDue = 4 ∧ natBit 4 2 = true ∧ natBit s.pllDue 0 = false ∧
    ((0xD1E50001 : W32).toNat / 65536 = 0xD1E5 ∧ (0xD1E50001 : W32).getLsbD 0 = true) ∧ s.dbgOpen = true ∧
    (machine [(F.SEC_LC_dbg, 0)]).dbgOpen = false ∧ s.flag F.SUP_WDOG_en = true ∧ s.flag F.SUP_WDOG_stage1 = true ∧
    State.reset.resetting = true ∧ (State.reset.capture = 1 ∧ State.reset.railOpen = 0) ∧ State.reset.fuse = [] := by decide

theorem test_supply_premises :
    let s := { machine [] with railOpen := 2 ^ 9, railBelow := 2 ^ 9 }
    (∀ r < 11, resetLevel r ≤ warnLevel r ∧ warnLevel r ≤ recoverLevel r ∧ 0 < resetLevel r) ∧ natBit s.railOpen 9 = true ∧ natBit s.railOpen 0 = false ∧
    natBit ({ s with railDwell := 2 ^ 9 } : State).railDwell 9 = true ∧ natBit s.railDwell 9 = false ∧ s.room 107 = true := by decide

theorem test_boot_premises :
    let at_ := fun (sel phase : Nat) => machine [(F.SYS_BOOTSTAT_phase, phase), (F.SYS_BOOTSTAT_straps, 8 * sel), (F.MEM_DSTAT_rdy, 15)]
    let p : BootPacket := ⟨[], 9, 6, 0, 0, 0, 0, 0, 0, 0, []⟩
    (machine []).get F.MEM_DSTAT_rdy = 0 ∧ natBit ((at_ 2 1).get F.MEM_DSTAT_rdy) 0 = true ∧ (machine []).dieBOff = false ∧
    (at_ 2 1).resetting = false ∧ (at_ 2 1).get F.SYS_BOOTSTAT_phase = 1 ∧ (at_ 2 1).get F.SYS_BOOTSTAT_straps / 8 = 2 ∧ (at_ 2 1).cells = [] ∧
    headerOk (List.replicate 256 0) 5 = false ∧ (at_ 0 0).mayReg .host R.SYS_BOOTCMD Needs.write ∧
    (at_ 2 1).memAbsent 0x0100000000 = false ∧ (at_ 2 1).memAbsent (0x0100000000 + 255) = false ∧ (7 : W8) ∉ ([0x02, 0x05, 0x0B] : List W8) ∧
    (at_ 1 1).get F.SYS_BOOTSTAT_straps / 8 = 1 ∧ p.type = 6 ∧ p.stream = 0 ∧ p.line = 0 ∧ p.length.toNat = p.payload.length ∧
    crc32c p.payload = p.crc.toNat ∧ p.seq = (at_ 1 1).rd (R.GSP_EXP 0) := by unfold State.mayReg; decide

theorem test_reload_premises :
    let s := machine [(F.SYS_RLOAD_busy, 1)]
    s.flag F.SYS_RLOAD_busy = true ∧ (machine []).flag F.SYS_RLOAD_busy = false ∧ (47 : W32).toNat % 64 < 48 ∧ (machine []).seqFused 47 = false ∧
    ((machine []).seq 47).run = .halted ∧ s.cells = [] := by decide

/-- An image of two sections: 4 bytes of TEXT for SRAM at 0 and an entry. -/
def image : List W8 := leBytes 388 0xDF9B571355B852781B9995A44C939B64E441AE2724B96F99C8F4FB9A141CFC9842C4B0E30000000000000001000000000000000000000000030000000000000000000006E3D02F668BB72C854F51ADFE26E6377C9916446B4B32559F8BBA08D39552308C0000000000000001000000000000018000000000030000000000000400010002000000000000000000000000000000000000000000000000000000000000000000000000000000000000000000000000000000000000000000000000000000000AB10A904433C2D095C886657893975479D2F02A26338A89E797DC22E3404A165C4126FCA30B172DB82961CC70E3DEAA7B89BA77C66FC8741A29AB22FFB98B08B400F4C1861A5EC5211B04CB3336C7530090F5A6839F066D361833E0BD1DEB73A3B28731702806305BEF0FA8B8F8F97E60FB017C6630BB25467BBFA06F3B538E0000000000000000000000000000000000000000000000000000000000000000000000000000000000000000000007000976000200000184000000014D495A47

/-- What the signature covers (R392). -/
def signed : List W8 := (image.take 256).take 0x80 ++ (image.take 256).drop 0xC0 ++ (image.drop 256).take 128

theorem test_image_hash : beNat (sha256 signed) = 0x81D53B01351C6227894B9F4029776E353D979E3F38771252469D82DD84DE6970 := by decide +kernel

theorem test_image_signature : signatureOk (image.take 256) (sha256 signed) = true := by decide +kernel

/-- Bytes from an address on, as memory lists them. -/
def bytesAt : Nat → List W8 → Tab W8
  | _, [] => []
  | a, b :: t => (a, b) :: bytesAt (a + 1) t

theorem bytesAt_find (l : List W8) : ∀ a k, k < l.length → tabFind (bytesAt a l) (a + k) = l[k]? := by
  induction l with
  | nil => intro a k h; simp at h
  | cons b t ih =>
    intro a k h
    cases k with
    | zero => simp [bytesAt, tabFind]
    | succ k =>
      have h2 := ih (a + 1) k (by simpa using h)
      have h3 : a + (k + 1) = a + 1 + k := by omega
      simp only [bytesAt, tabFind, h3]
      rw [if_neg (by omega), h2]
      simp

theorem rdBytes_of_mem (s : State) (a n : Nat) (l : List W8) (d : Nat) (h : s.mem = bytesAt a l) (hn : d + n ≤ l.length) :
    s.rdBytes (a + d) n = (l.drop d).take n := by
  apply List.ext_getElem
  · simp [State.rdBytes]; omega
  · intro i h1 h2
    have hi : d + i < l.length := by simp [State.rdBytes] at h1; omega
    simp [State.rdBytes, State.rdByte, h, Nat.add_assoc, bytesAt_find l a (d + i) hi, hi]

/-- The device with the image in its staging area, no key slot burnt. -/
def staged : State := { machine [(F.SYS_BOOTSTAT_phase, 1), (F.MEM_DSTAT_rdy, 15)] with mem := bytesAt 0x0100000000 image }

theorem image_length : image.length = 388 := by decide +kernel

theorem test_staged_bytes : staged.imageHeader = image.take 256 ∧ staged.imageTable = (image.drop 256).take 128 := by
  have h : staged.imageHeader = image.take 256 :=
    rdBytes_of_mem staged 0x0100000000 256 image 0 rfl (by rw [image_length]; decide)
  refine ⟨h, ?_⟩
  have hn : 64 * fieldLE (image.take 256) 0xC 2 = 128 := by decide +kernel
  unfold State.imageTable
  rw [h, hn]
  exact rdBytes_of_mem staged 0x0100000000 128 image 256 rfl (by rw [image_length]; decide)

theorem test_image_checks :
    let h := image.take 256
    let xs := sectionsOf (fieldLE h 0xC 2) ((image.drop 256).take 128)
    headerOk h 388 = true ∧ staged.partOk h = true ∧ staged.keyCheck ((h.drop 0x40).take 64) ≠ .none ∧ staged.sectionsOk (fieldLE h 0xC 2) 388 xs = true ∧
    (loadSections xs (staged.set F.SYS_BOOTSTAT_phase 2)).1 = true ∧ (loadSections xs (staged.set F.SYS_BOOTSTAT_phase 2)).2.resetting = false ∧
    staged.resetting = false ∧ staged.cells = [] := by decide +kernel

theorem loads_of_checks (s : State) (len : Nat) (h tb : List W8) (eh : s.imageHeader = h) (et : s.imageTable = tb)
    (c : let xs := sectionsOf (fieldLE h 0xC 2) tb
      headerOk h len = true ∧ s.partOk h = true ∧ s.keyCheck ((h.drop 0x40).take 64) ≠ .none ∧ s.sectionsOk (fieldLE h 0xC 2) len xs = true ∧
      (loadSections xs (s.set F.SYS_BOOTSTAT_phase 2)).1 = true ∧ (loadSections xs (s.set F.SYS_BOOTSTAT_phase 2)).2.resetting = false ∧
      s.resetting = false ∧ s.cells = [])
    (hs : signatureOk h (sha256 (h.take 0x80 ++ h.drop 0xC0 ++ tb)) = true) : ∃ t, s.imageLoads len t := by
  subst eh; subst et
  exact ⟨_, c.1, c.2.1, c.2.2.1, hs, c.2.2.2.1, Prod.ext c.2.2.2.2.1 rfl, c.2.2.2.2.2.1, c.2.2.2.2.2.2.1, c.2.2.2.2.2.2.2⟩

theorem test_image_loads : ∃ t, staged.imageLoads 388 t :=
  loads_of_checks staged 388 _ _ test_staged_bytes.1 test_staged_bytes.2 test_image_checks test_image_signature

/-! ### Motors and steppers -/

theorem test_motor_premises :
    let at_ := fun (st : Nat) (m : Motor) =>
      (machine [(F.SYS_CLK_STAT_lock, 0x3FF), (F.MOT_BUS_ov_trip 1, 100), (F.MOT_CFG_en 1, 1), (F.MOT_RATED_rated 1, 100), (F.MOT_SPDLIM_obs_min 1, 10),
        (F.MOT_STATE_state 1, st), (F.MOT_TRIP_mask 1, 0x80), (F.MOT_HFI_amp 1, 1), (F.MOT_CFG_wd 1, 1)]).setMotor 1 m
    let clear := fun (s : State) => s.bit F.SHUT_GCOND_cond 2 = false ∧ s.bit F.SYS_CLK_STAT_lock 8 = true ∧ s.bit F.SYS_CLK_STAT_lock 9 = true ∧
      (s.seq (4 + 2 * s.get (F.MOT_CFG_owner 1))).mismatch = false ∧ (s.get (F.MOT_TRIP_mask 1) &&& s.get F.ANA_CMPSTAT_live) = 0 ∧
      ¬(s.get (F.MOT_BUS_ov_trip 1) ≤ (s.motor 1).vdc)
    let live := (at_ 3 {}).set F.ANA_CMPSTAT_live 0x80
    let turns := fun (v : Int) => at_ 1 { measured := some (some v), window := 2 ^ 20 }
    clear (at_ 0 {}) ∧ (at_ 0 {}).flag (F.MOT_CFG_en 1) = true ∧ (machine []).flag (F.MOT_CFG_en 1) = false ∧
    (machine []).bit F.SYS_CLK_STAT_lock 8 = false ∧ isOwner (.seq 4) 0 = true ∧ isOwner .host 0 = false ∧
    (5000 + 2000 - 1) / 2000 ≤ 2 + 1 ∧ ¬((5000 + 2000 - 1) / 2000 ≤ 0 + 1) ∧ (at_ 3 {}).get (F.MOT_CFG_wd 1) < (1 : Nat) + 1 ∧
    0 ≤ (at_ 3 {}).get (F.MOT_CFG_wd 1) ∧ (at_ 4 {}).get (F.MOT_HFI_amp 1) ≠ 0 ∧ ((at_ 0 {}).set (F.MOT_HFI_amp 1) 0).get (F.MOT_HFI_amp 1) = 0 ∧
    (machine []).adcRun = none ∧ ({ machine [] with adcRun := some 1 } : State).adcRun = some 1 ∧
    (at_ 3 {}).get (F.MOT_BUS_ov_trip 1) ≤ calCode (at_ 3 {}).adcCal.2 0xFFF ∧ calCode (at_ 0 {}).adcCal.2 0 < (at_ 0 {}).get (F.MOT_BUS_ov_trip 1) ∧
    natBit (live.get (F.MOT_TRIP_mask 1)) 7 = true ∧ natBit (live.get F.ANA_CMPSTAT_live) 7 = true ∧
    (at_ 1 {}).get (F.MOT_RATED_rated 1) * (at_ 1 {}).get (F.MOT_SPDLIM_obs_min 1) ≤ 200 * 1000 ∧
    204800000000 ≤ ((turns 200).motor 1).window * (2 * max 2000 ((turns 200).get (F.MOT_PWM_period 1))) * 200 ∧
    ¬((at_ 1 {}).get (F.MOT_RATED_rated 1) * (at_ 1 {}).get (F.MOT_SPDLIM_obs_min 1) ≤ 0 * 1000) := by decide

theorem test_stepper_premises :
    let e : Move := ⟨-3, 0, 1000, true⟩
    let c : Stepper := { cur := some e, left := 1, v6 := 10 ^ 11, acc := 4 * 10 ^ 14, queue := [e] }
    let at_ := fun (st : Nat) (c : Stepper) => (machine [(F.SYS_CLK_STAT_lock, 0x3FF), (F.ST_STATE_state 3, st), (F.ST_CFG_en 3, 1), (F.ST_CFG_cmp_a 3, 6),
        (F.ST_CFG_cmp_b 3, 7), (F.AX_CFG_en 7, 1), (F.AX_CFG_src 7, 3), (F.AX_CFG_sel_a 7, 3), (F.ST_STALL_en 3, 1), (F.ST_STALL_act 3, 1)]).setStepper 3 c
    let owner := (at_ 4 {}).get (F.ST_CFG_owner 3)
    let p := (at_ 2 c).profileOf 3 e
    let moves := (at_ 1 {}).setAxis 7 { st := .moving }
    ((0x403E0000 : W32).extractLsb' 16 3).toNat = 6 ∧ ((0x403E0000 : W32).extractLsb' 19 3).toNat = 7 ∧
    ((0x40360000 : W32).extractLsb' 16 3).toNat = ((0x40360000 : W32).extractLsb' 19 3).toNat ∧
    [0, 1, 2].all (fun k => (at_ 1 {}).flag (F.ST_CFG_en k) == false) = true ∧ [0, 1].all (fun k => (at_ 1 {}).get (F.MOT_TRIP_mask k) == 0) = true ∧
    (machine []).flag (F.ST_CFG_en 3) = false ∧ (at_ 1 {}).bit F.SHUT_GCOND_cond 2 = false ∧ (at_ 1 {}).bit F.SYS_CLK_STAT_lock 8 = true ∧
    ((at_ 1 {}).seq (4 + 2 * owner)).mismatch = false ∧ (moves.axis 7).valid = true ∧ ((at_ 1 {}).axis 7).valid = false ∧
    isOwner (.seq 4) owner = true ∧ isOwner .host owner = false ∧ (c.queue.length < 16 ∧ ¬ 16 ≤ c.queue.length) ∧
    p.vstop < c.v6 ∧ c.v6 ≠ 0 ∧ p.mustBrake c.v6 0 (c.left * 4 * 10 ^ 14 - (c.acc + 400 * (c.v6 : Int))) = true ∧
    p.mustBrake c.v6 0 (10 ^ 12 * 4 * 10 ^ 14) = false ∧ 4 * 10 ^ 14 ≤ c.acc + 400 * (c.v6 : Int) ∧ (c.cur = some e ∧ e.blend = true ∧ c.vEnd = none) ∧
    moves.flag (F.AX_CFG_en 7) = true ∧ moves.get (F.AX_CFG_src 7) = 3 ∧ (moves.rd (R.ST_STALL 3)).getLsbD 31 = true ∧
    (moves.rd (R.ST_STALL 3)).getLsbD 30 = true ∧ ((moves.rd (R.ST_STALL 3)).extractLsb' 24 3).toNat = 0 := by decide

theorem test_chop_premises :
    let s := (machine [(F.ST_STATE_state 0, 2), (F.ST_CFG_en 0, 1), (F.ST_CFG_cmp_a 0, 1), (F.ST_CUR_run 0, 0x200), (F.ST_CHOP_tblank 0, 5),
      (F.ST_CHOP2_ton_max 0, 100), (F.ST_CHOP_toff_min 0, 1), (F.ANA_CMP_en 1, 1)])
    let t : State := { s with cmpIn := s.cmpIn.set 1 1023 }
    let x : Bridge := ⟨true, 7, true, 3⟩
    s.get (F.ST_STATE_state 0) = 2 ∧ s.setCode 0 false ≠ 0 ∧ (s.stepper 0).bridgeA.on = true ∧ ((({ bridgeA := { x with on := false } } : Stepper)).bridgeA.on = false) ∧ min 4 (x.longOns + 1) = 4 ∧
    s.get (F.ST_CHOP2_ton_max 0) ≤ 100 ∧ s.get (F.ST_CHOP_tblank 0) ≤ 5 ∧ 10 * s.get (F.ST_CHOP_toff_min 0) ≤ 10 ∧ s.cmpAsserts 1 = false ∧ t.cmpAsserts 1 = true ∧
    s.flag (F.ST_CFG_adapt 0) = true ∧ ((s.set (F.ST_CFG_adapt 0) 0).flag (F.ST_CFG_adapt 0) = false) ∧ s.flag (F.ST_CFG_open_flt 0) = false := by decide

/-! ### Shutters and the supervisor -/

theorem test_shutter_premises :
    let s := machine [(F.SHUT_T_latch 383, 3), (F.SHUT_T_cond 383, 2), (F.SHUT_GSTAT_latch, 1), (F.SHUT_MODE_mode, 1), (F.HEALTH_GOV_CFG_en 23, 0)]
    let due : State := { machine [] with lbUnits := [(7, 3)] }
    natBit s.lanesOff (383 / 16) = false ∧ ¬((511 : Nat) < 384) ∧ ((0x017F0000 : W32).extractLsb' 16 9).toNat = 383 ∧ (0x017F0000 : W32).getLsbD 29 = false ∧
    (3 : Nat) = s.get (F.SHUT_T_latch 383) ∧ s.get (F.SHUT_T_cond 383) &&& 3 ≠ 0 ∧ s.get (F.SHUT_T_cond 383) &&& 1 = 0 ∧
    s.get F.SHUT_GSTAT_latch = 1 ∧ s.get F.SHUT_GCOND_cond &&& 1 = 0 ∧ tabGet 0 due.lbUnits 7 ≠ 0 ∧ tabGet 0 s.lbUnits 7 = 0 ∧ due.halfPassed 7 = false ∧
    s.get F.SHUT_MODE_mode = 1 ∧ (machine []).get F.SHUT_MODE_mode = 0 ∧ s.flag (F.HEALTH_GOV_CFG_en 23) = false := by decide

theorem test_ring_premises :
    let r : Rec := { src := 117, kind := 0x480, sev := 3, axis := 0, injected := false, stamp := 0, loc := 0, detail := 0 }
    let s := machine [(F.SUP_RING_CFG_en 0, 1), (F.SUP_RING_CFG_size 0, 1), (F.SUP_RING_RSV_n 1, 15), (F.SUP_RING_CFG_rsv_sev 1, 9)]
    let held := fun (n : Nat) => { s with ev := { s.ev with buf := [(117, [r])], holding := List.replicate n (0, 5, List.replicate 8 0) } }
    let free := 2 ^ (min (s.get (F.SUP_RING_CFG_size 1)) 12 + 4) - 1
    tabGet [] (held 0).ev.buf 117 = [r] ∧ r.src = 117 ∧ ((s.rd (R.SUP_SRCMAP (117 / 8))).extractLsb' (117 % 8 * 4) 4).toNat < 2 ∧ s.flag (F.SUP_RING_CFG_en 0) = true ∧
    (held 0).ev.holding.length < 64 ∧ 64 ≤ (held 64).ev.holding.length ∧ s.flag (F.SUP_RING_CFG_en 1) = false ∧
    (free ≤ s.get (F.SUP_RING_RSV_n 1) ∧ r.sev < s.get (F.SUP_RING_CFG_rsv_sev 1)) ∧ ¬(free ≤ s.get (F.SUP_RING_RSV_n 0)) ∧
    (∀ x ∈ (held 1).ev.holding.tail, x.1 ≠ 0) ∧ ((0x80100000 : W32).extractLsb' 20 4).toNat = s.get (F.SUP_RING_CFG_size 0) ∧
    ((0x80000000 : W32).extractLsb' 20 4).toNat ≠ s.get (F.SUP_RING_CFG_size 0) ∧ s.get (F.SUP_RING_BASE_off 0) * 32 % (2 ^ 5 * 32) = 0 := by decide

theorem test_supervisor_premises :
    let s := ((machine [(F.SUP_WDOG_en, 1), (F.SUP_GCOND_cond, 2), (F.SUP_HBCFG_en 47, 1), (F.SUP_TOOS_oos 11, 0x80000000)]).runs' 47 {})
    let kicked : State := { s with wdFirst := true, beats := [(47, ())], testing := 0x200 }
    s.flag F.SUP_WDOG_en = true ∧ s.flag F.SUP_WDOG_stage1 = false ∧ kicked.wdFirst = true ∧ [0, 1, 3, 4].any (fun k => natBit (s.get F.SUP_GCOND_cond) k) = true ∧
    [0, 1, 3, 4].any (fun k => natBit ((machine []).get F.SUP_GCOND_cond) k) = false ∧ s.flag (F.SUP_HBCFG_en 47) = true ∧ s.seqFused 47 = false ∧ s.ctxOf 47 = 47 ∧
    s.ctxOf 46 ≠ 47 ∧ (tabFind kicked.beats 47).isSome = true ∧ (tabFind s.beats 47).isSome = false ∧ (s.seq 47).run = .running ∧ (s.seq 45).run ≠ .running ∧
    natBit (s.get (F.SUP_TOOS_oos 11)) 31 = true ∧ natBit s.lanesOff 23 = false ∧ natBit kicked.testing 9 = true ∧ natBit s.testing 9 = false ∧ s.room 63 = true := by decide

/-! ### Memory and Gust -/

theorem test_memory_engine_premises :
    let s : State := { machine [(F.MEM_SCRUB_en, 1)] with cells := [(0, .single 31), (4, .double), (8, .multi)] }
    let m : March := ⟨0, true, true, 831, 1⟩
    tabFind s.cells (memWordBase 0) = some (.single 31) ∧ tabFind s.cells (memWordBase 4) = some .double ∧ tabFind s.cells (memWordBase 8) = some .multi ∧
    tabFind s.cells (memWordBase 12) = none ∧ s.flag F.MEM_SCRUB_en = true ∧ s.memAbsent 0 = false ∧ (tabFind s.ceOpen (ceUnit 0)).isNone = true ∧
    (tabFind ({ s with ceOpen := [(771, ())] } : State).ceOpen 771).isSome = true ∧ isSram 0 = true ∧ isSram 0x0100000000 = false ∧
    (machine []).march = none ∧ ({ s with march := some m } : State).march = some m ∧ (machine []).get F.MEM_MARCH_mode ≠ 3 ∧ m.covers 831 = true ∧
    m.covers 830 = false ∧ s.targetFused 831 = false ∧ tabGet 0 s.sparesUsed 831 < 4 ∧ 4 ≤ tabGet 0 ({ s with sparesUsed := [(831, 4)] } : State).sparesUsed 831 := by decide

/-- The words of an instruction of a program. -/
def gust (op flags : Nat) (rest : List W32) : List W32 := (BitVec.ofNat 32 (op + flags) :: rest) ++ List.replicate (7 - rest.length) 0

theorem test_gust_premises :
    let ws := [gust 1 0 [0x100, 0x300, 0x200, 0x00010000], gust 5 0 [0, 0x300, 0x200, 0x00010000], gust 6 0x10000 [0, 0x300, 0x200, 0x00010000],
      gust 7 0x30000 [0x100, 0, 0x200, 0], gust 2 0x10000 [0xFFFF, 2, 0, 0], gust 3 0x10000 [255], gust 4 0x20000 [0x80], gust 15 0x10000 [7]]
    let s := fun (g : List W32) => (machine [(F.GUST_CH_STAT_state 39, 1), (F.GUST_CH_CFG_class 39, 2), (F.GUST_CH_CFG_share 38, 1)]).setChan 39 { cur := g }
    ws.all (fun g => !GInstr.bad g (if GInstr.op g = 5 ∨ GInstr.op g = 6 then 1 else 2) true {}) = true ∧ ws.all (fun g => g.length == 8) = true ∧ ws.map GInstr.op = [1, 5, 6, 7, 2, 3, 4, 15] ∧
    GInstr.bad (gust 0 0 []) 2 false {} = true ∧ (s []).get (F.GUST_CH_STAT_state 39) = 1 ∧ (s []).fetchAddr 39 % 32 = 0 ∧
    (s []).memCheck (chMaster 0) ((s []).fetchAddr 0) 32 .read = none ∧ ((s []).memCheck (chMaster 0) 0x05FFFFFF 32 .read).isSome = true ∧ (s []).cells = [] ∧
    (s []).get (F.GUST_CH_CFG_share 39) = 0 ∧ (s []).get (F.GUST_CH_CFG_share 38) ≠ 0 ∧ min 64 ((s []).get (F.GUST_CH_CFG_share 38)) * 1000 ≤ 1000 ∧
    ((s []).wrWord 0x100 0).wordAt 0x100 = ~~~(BitVec.ofNat 32 0xFFFFFFFF) ∧ ((s []).wrWord 0x100 1).wordAt 0x100 ≠ ~~~(BitVec.ofNat 32 0xFFFFFFFF) := by decide
theorem test_gust_wait_premises :
    let at_ := fun (st : Nat) (w : ChWait) => (machine [(F.GUST_CH_STAT_state 31, st), (F.GUST_RING_WR_wr 0, 15)]).setChan 31 { wait := w }
    let set : State := { at_ 2 (.signal 255 true true) with signals := BitVec.ofNat 256 (2 ^ 255) }
    let n := 2 ^ (min ((at_ 1 .none).get (F.GUST_RING_SIZE_size 0)) 12 + 4)
    set.signal 255 = true ∧ (set.chan 31).wait = .signal 255 true true ∧ set.winner 255 = some (64 + 31) ∧ (at_ 2 .delay).get (F.GUST_CH_STAT_state 31) = 2 ∧
    (at_ 2 .none).signal 255 = false ∧ (at_ 3 .none).get (F.GUST_CH_STAT_state 31) = 3 ∧ (15 + n - (at_ 1 .none).get (F.GUST_RING_RD_rd 0) % n) % n = n - 1 ∧
    (0 + n - (machine []).get (F.GUST_RING_RD_rd 0) % n) % n ≠ n - 1 ∧ (machine []).memCheck 48 0x100 16 .write = none ∧
    ((machine []).memCheck 48 0x06000000 16 .write).isSome = true ∧ ((at_ 2 (.ring [0, 0, 0, 0] 4 true)).chan 31).wait = .ring [0, 0, 0, 0] 4 true ∧
    (set.consumers 7 = [] ∧ tabFind set.sigWinner 7 = none) ∧ tabGet 0 ({ set with capPulses := [(7, 1)] } : State).capPulses 7 ≠ 0 ∧ tabGet 0 set.capPulses 7 = 0 := by
  decide

/-! ### Network, timebase and calibration -/

/-- A frame of the stream protocol to sub-port 0 of port 0, at address 0 with UDP port 0: type 1, one byte of payload. -/
def planeFrame : List W8 :=
  List.replicate 12 0 ++ [0x08, 0x00, 0x45, 0, 0, 61, 0, 0, 0, 0, 9, 17, 0, 0] ++ List.replicate 8 0 ++ [0, 0, 0, 0, 0, 41, 0, 0, 1, 1] ++ List.replicate 31 0

theorem test_network_premises :
    let s := machine [(F.ETH_CFG_en 0, 1), (F.ETH_CFG_mode 0, 3), (F.ETH_GSPCFG_en, 1), (F.ETH_GSPCFG_port, 0), (F.ETH_VLAN_vid 1, 5), (F.ETH_RXWR_wr 0, 15),
      (F.ETH_TXWR_wr 0, 1), (F.ETH_STAT_up 0, 8)]
    let ring := (s.wr (R.ETH_RXRING 0) 0x80000000).wr (R.ETH_TXRING 0) 0x80000000
    let n := 2 ^ (min ((ring.rd (R.ETH_RXRING 0)).extractLsb' 16 4).toNat 12 + 4)
    let f := planeFrame
    f.length = 75 ∧ s.flag (F.ETH_CFG_en 0) = true ∧ s.get (F.ETH_CFG_mode 0) = 3 ∧ s.flag (F.ETH_CFG_en 1) = false ∧ f.length + 4 ≤ max 1518 (s.get (F.ETH_CFG_mtu 0)) ∧
    (f.getD 12 0).toNat * 256 + (f.getD 13 0).toNat = 0x800 ∧ s.flag (F.ETH_VLAN_en 0) = false ∧ (s.gspOf 0 0 f).isSome = true ∧
    ((s.gspOf 0 0 f).any (fun u => u.payload.getD 1 0 == 1 && u.sumFine)) = true ∧ (s.gspOf 0 1 []).isSome = false ∧ s.get F.SYS_BOOTSTAT_phase ≠ 1 ∧
    ((ring.rd (R.ETH_RXRING 0)).getLsbD 31 = true ∧ (s.rd (R.ETH_RXRING 0)).getLsbD 31 = false) ∧ (15 + n - s.get (F.ETH_RXRD_rd 0) % n) % n = n - 1 ∧
    (0 + n - s.get (F.ETH_RXRD_rd 0) % n) % n ≠ n - 1 ∧ s.get (F.ETH_TXRD_rd 0) ≠ s.get (F.ETH_TXWR_wr 0) ∧ s.cells = [] ∧
    (s.firstRefused 50 .write (bursts 0x400 75 76)).isNone = true ∧ (s.firstRefused 50 .write (bursts 0x06000000 75 76)).isSome = true ∧
    natBit (s.get (F.ETH_STAT_up 0)) 3 = true ∧ natBit (s.get (F.ETH_STAT_up 0)) 0 = false ∧ natBit (s.get (F.ETH_STAT_flags 0)) 0 = false ∧ s.room 105 = true := by decide

theorem test_stream_premises :
    let p : GspPkt := ⟨0, 0, [], 0, 63, 0, 0, 1, 1, 0, 0, 0, 0, []⟩
    let s := machine [(F.GSP_CFG_en 63, 1), (F.GSP_CFG_ports 63, 1), (F.GSP_CFG_format 63, 1), (F.ETH_GSPTIM_nack_us, 1), (F.ETH_GSPCFG_ack_every, 2)]
    let t : State := { s with steer := [p], streams := [(63, { placed := 1, bands := [4], lastNack := some 0 })] }
    t.steer = [p] ∧ (s.flag (F.GSP_CFG_en 63) = true ∧ natBit (s.get (F.GSP_CFG_ports 63)) p.port = true ∧ s.flag (F.GSP_CFG_en 62) = false) ∧
    p.format = s.get (F.GSP_CFG_format 63) ∧ p.plane = s.get (F.GSP_GEOM_plane 63) ∧ (2 : Nat) ≠ s.get (F.GSP_CFG_format 63) ∧
    p.offset + p.length ≤ s.get (F.GSP_LEN_len 63) ∧ p.length = p.payload.length ∧ crc32c p.payload = p.crc ∧ crc32c p.payload ≠ 1 ∧
    p.seq = s.rd (R.GSP_EXP 63) ∧ 0 < ((1 : W32) - s.rd (R.GSP_EXP 63)).toInt ∧ ((0xFFFFFFFF : W32) - s.rd (R.GSP_EXP 63)).toInt < 0 ∧
    (t.stream 63).lastNack.any (fun w => decide (t.uptime < w + cyclesOfUs (t.get F.ETH_GSPTIM_nack_us))) = true ∧ (s.stream 63).lastNack = none ∧
    max 1 (s.get F.ETH_GSPCFG_ack_every) ≤ (t.stream 63).placed + 1 ∧ (s.stream 63).placed + 1 < max 1 (s.get F.ETH_GSPCFG_ack_every) ∧ (t.stream 63).bands = [4] := by
  decide

theorem test_calibration_premises :
    let s := machine [(F.CAL_STAT_stale, 1), (F.CAL_TCOMMIT_busy, 1), (F.SHUT_B_STAT_latch 7, 1), (F.PTP_ALCTL_en, 1), (F.PTP_PPS_en, 1), (F.CAL_TALARM_hi, 100)]
    ({ s with adcCalRun := true } : State).adcCalRun = true ∧ ((10 : Nat) + 1843 ≤ 2058 ∧ 2058 ≤ (10 : Nat) + 2253) ∧ ¬((0 : Nat) + 1843 ≤ 0) ∧
    natBit (s.get F.CAL_STAT_stale) 0 = true ∧ natBit (s.get F.CAL_STAT_stale) 1 = false ∧ s.flag F.CAL_TCOMMIT_busy = true ∧
    (machine []).flag F.CAL_TCOMMIT_busy = false ∧ s.isClosed (.bar 7) = true ∧ (machine [(F.SHUT_B_STAT_latch 7, 0)]).isClosed (.bar 7) = false ∧
    ((machine []).axis ((machine []).get (F.BAR_CFG_axis 7))).st ≠ .lull ∧ s.flag F.PTP_ALCTL_en = true ∧ s.get F.PTP_ALNS_alns ≤ s.get F.PTP_NS_ns ∧
    s.flag F.PTP_PPS_en = true ∧ s.dieHot = false ∧ ({ s with dieHot := true } : State).dieHot = true ∧ s.getInt F.CAL_TALARM_hi ≤ 100 + s.getInt (F.CAL_TS_off 3) ∧
    s.getInt (F.CAL_TS_off 0) < s.getInt F.CAL_TALARM_hi - 32 ∧ s.room 108 = true ∧ s.commitsPending = false := by decide

/-! ### Fuses and access -/

theorem test_fuse_premises :
    let s := fun (lc : Nat) => machine [(F.SEC_LC_state, lc), (F.FUSE_VMON_inwin, 1)]
    let j : FuseJob := ⟨0, 3, [(384, 0), (384, 38)], 0⟩
    let runs : State := { (s 1) with fuseJob := some j, fuse := [(384, 1)] }
    (1746 ≤ (1746 : Nat) ∧ 1854 ≤ (1854 : Nat) ∧ (s 1).flag F.FUSE_VMON_inwin = true ∧ (machine []).flag F.FUSE_VMON_inwin = false) ∧ (s 1).fuseJob = none ∧
    runs.fuseJob = some j ∧ runs.flag F.FUSE_PSTAT_paused = false ∧ (runs.set F.FUSE_PSTAT_paused 1).flag F.FUSE_PSTAT_paused = true ∧
    ((s 2).get F.SEC_LC_state = 2 ∧ (s 3).get F.SEC_LC_state = 3 ∧ (s 4).get F.SEC_LC_state = 4) ∧ tabGet 0 runs.fuse 384 &&& 2 ≠ tabGet 0 runs.fuse 384 ∧
    tabGet 0 (s 1).fuse 384 &&& 2 = tabGet 0 (s 1).fuse 384 ∧ (s 1).supNow 14 = 0 ∧ (s 1).lockedNow 3 = false ∧
    ((s 1).set (F.FUSE_BSTAT_locked 3) 1).lockedNow 3 = true ∧ (s 1).flag (F.FUSE_BSTAT_superseded 1) = false ∧
    natBit (tabGet 0 (s 1).wordFlags 2047) 4 = false ∧ (s 1).room 62 = true ∧ j.op ≠ 9 := by decide

theorem test_access_premises :
    let s := machine [(F.SEC_LC_state, 3), (F.SEC_LC_lockout, 1), (F.SEC_CMD_busy, 1), (F.SYS_BOOTSTAT_straps, 24)]
    let keyed : State := { machine [(F.SEC_LC_state, 3)] with shadow := [(132, 1), (140, 1)], policy := 0xB, chalPending := true }
    s.flag F.SEC_LC_lockout = true ∧ s.flag F.SEC_CMD_busy = true ∧ keyed.flag F.SEC_CMD_busy = false ∧ keyed.flag F.SEC_LC_lockout = false ∧
    s.get F.SYS_BOOTSTAT_straps / 8 = 3 ∧ keyed.deviceKey.isSome = true ∧ s.deviceKey = none ∧ natBit keyed.policy 0 = true ∧ natBit keyed.policy 1 = true ∧
    natBit keyed.policy 3 = true ∧ natBit s.policy 1 = false ∧ keyed.dbgBarred = false ∧ keyed.chalPending = true ∧
    (keyed.shadowBytes 1 12 8).all (fun x => x == 0) = false ∧ natBit (keyed.get F.FUSE_INTEGRITY_alarm) 1 = false ∧
    ({ s with secFailing := true } : State).secFailing = true ∧ s.secFailing = false := by decide

/-! ### Ill-formed commands: each check refuses a term -/

theorem test_wf_addresses :
    (Instr.registerWrite .host 0x40000002 0).wellFormed = false ∧ (Instr.registerWrite .host 0x41000000 0).wellFormed = false ∧
    (Instr.readClear .host 0x3FFFFFFC).wellFormed = false ∧ (Instr.snapshotCapture .host 1).wellFormed = false ∧
    (Instr.debugPortAccess true 2 0).wellFormed = false ∧ (Instr.registerWrite .host 0x40FFFFFC 0).wellFormed = true := by decide

theorem test_wf_memory :
    (Instr.lw 0 0 0 0 (some (.single 64))).wellFormed = false ∧ (Instr.correctionWriteback 2).wellFormed = false ∧
    (Instr.correctionWriteback 0x0100000004).wellFormed = false ∧ (Instr.scrubRead 0x06000000 none).wellFormed = false ∧
    (Instr.scrubRead 0 (some (.single 32))).wellFormed = false ∧ (Instr.scrubRead 0x0100000000 (some (.checkBit 8))).wellFormed = false ∧
    (Instr.marchComplete [5, 5]).wellFormed = false ∧ (Instr.scrubRead 0x05FFFFFC (some (.checkBit 6))).wellFormed = true := by decide

theorem test_wf_link :
    (Instr.stampPass 0 0 (List.replicate 17 0)).wellFormed = false ∧ (Instr.dataSend 0 0 0 [7, 7]).wellFormed = false ∧
    (Instr.delayDone 0 0 []).wellFormed = false ∧ (Instr.sbPoll 0 (List.replicate 17 .nack)).wellFormed = false ∧
    (Instr.adcScan (List.replicate 17 0) 0).wellFormed = false ∧ (Instr.shutModeSelect 3).wellFormed = false := by decide

set_option maxRecDepth 8000 in
theorem test_wf_packets :
    (Instr.frameReceive 0 0 (List.replicate 13 0) true 0).wellFormed = false ∧ (Instr.pcieMemWrite false 0 []).wellFormed = false ∧
    (Instr.pcieMemWrite false 0 (List.replicate 513 0)).wellFormed = false ∧ (Instr.pcieMemRead false 0 0).wellFormed = false ∧
    (Instr.pcieMemRead false 0 4097).wellFormed = false ∧ (Instr.spiGo [2, 0, 0, 0, 0, 1]).wellFormed = false ∧
    (Instr.spiGo [5, 0, 0, 0, 0]).wellFormed = false ∧ (Instr.spiGo [9]).wellFormed = true ∧
    (Instr.bootPacket ⟨[1], 0, 0, 0, 0, 0, 0, 0, 0, 0, []⟩).wellFormed = false := by decide

/-! ### Worked cases of the spec -/

/-- The command answers a next state of which `p` holds. -/
def nextHas (c : Instr) (s : State) (p : State → Bool) : Bool :=
  match exec c s with
  | .next t => p t
  | _ => false

/-- spec/01_architecture.md, after R19, and spec/12_memory.md, after R333. -/
theorem test_error_locations :
    memLoc 1 0x04A32C48 17 = 0x10284A010012C491 ∧ memLoc 2 0x04A32C48 0 = 0x20284A010012C480 ∧ memLoc 1 0x0234567A18 41 = 0x1229020D0D1598E9 := by decide

/-- spec/18_calibration.md, after R448. -/
theorem test_calibrated_codes :
    calCode (BitVec.ofNat 32 (16529 * 2 ^ 16 + 3)) 1030 = 1024 ∧ calCode (BitVec.ofNat 32 (16529 * 2 ^ 16 + 3)) 3060 = 3072 := by decide

/-- spec/18_calibration.md, after R448: the words that the two conversions give. -/
theorem test_calibration_words :
    nextHas (.adcCalDone 1030 3060 1030 3060) { machine [] with adcCalRun := true } (fun t => t.rd (R.CAL_ADC_PEND 0) == BitVec.ofNat 32 (16529 * 2 ^ 16 + 3)) = true := by
  decide

/-- spec/08_waveforms.md, Worked case: tile 37 at 38.25 degrees. -/
theorem test_scale : (((17040 : Int) * curveAt [(320, 18022), (400, 17367), (480, 16876), (560, 16384), (640, 15892), (720, 15483), (800, 15073), (880, 14746)] 612
    + 2 ^ 13) / 2 ^ 14) = 0x4143 := by decide

/-- spec/04_fire_scheduling.md, Worked cases: the slot of line 1,000 of tile 37, and its header. -/
theorem test_slot : slotAddr 2 5 0xE8 = 0x02556000 ∧ slotHeader 2 5 0xE8 = 0x025563F0 := by decide

/-- R53: addition modulo 2^32; g0 reads 0 (R50). -/
theorem test_add_wraps :
    let s := (machine []).runs' 0 (({} : Seq).setX 1 0xFFFFFFFF |>.setX 2 2)
    nextHas (.add 0 3 1 2) s (fun t => (t.seq 0).x 3 == 1 && (t.seq 0).x 0 == 0) = true ∧ nextHas (.add 0 0 1 2) s (fun t => (t.seq 0).x 0 == 0) = true := by decide

end Sys2Proof.Machine
end

section
/-! SUPPORT. What a load from memory gives: reads of ranges with no erroneous cell, the value that a load makes of the bytes,
and the statement that rests on them (R8, R54, R55). -/

namespace Sys2Proof.Machine

/-! ### One result to rd -/

@[simp] theorem Seq.setX_pc (c : Seq) (r : BitVec 5) (v : W32) : (c.setX r v).pc = c.pc := by
  unfold Seq.setX; split <;> rfl

@[simp] theorem Seq.setX_instret (c : Seq) (r : BitVec 5) (v : W32) : (c.setX r v).instret = c.instret := by
  unfold Seq.setX; split <;> rfl

/-- Where the sequencer executes, `alu` is the completion the statements speak of. -/
theorem State.alu_eq_withResult {s : State} {q : Nat} (h : s.executes q = true) (rd : BitVec 5) (v : W32) :
    s.alu q rd v = s.withResult q rd v := by
  simp [State.alu, State.withResult, Seq.retired, h]

/-! ### Reading a range with no erroneous cell -/

theorem State.eccRange_of_sound {s : State} {a len : Nat} (h : s.sound a len) (reader : Nat) :
    s.eccRange reader a len = (.good, s) := by
  have none_hit : s.cells.any (fun e => decide (memWordBase a ≤ e.1) && decide (e.1 < a + len)) = false := by
    simpa [State.sound] using h
  simp [State.eccRange, none_hit]

theorem State.dataRead_of_sound {s : State} {a len : Nat} (h : s.sound a len) (reader : Nat) :
    s.dataRead reader a len = (some (s.rdBytes a len), s) := by
  simp [State.dataRead, State.eccRange_of_sound h]

/-! ### The value of the bytes -/

@[simp] theorem leNat_single (b : W8) : leNat [b] = b.toNat := by simp [leNat]

/-- A byte put below a vector is the first of the little-endian bytes (R8). -/
theorem leNat_cons {n : Nat} {x : BitVec n} {bs : List W8} (b : W8) (h : leNat bs = x.toNat) :
    leNat (b :: bs) = (x ++ b).toNat := by
  rw [leNat, h, BitVec.toNat_append, Nat.shiftLeft_eq, Nat.mul_comm x.toNat, ← Nat.two_pow_add_eq_or_of_lt b.isLt, Nat.add_comm]

theorem signedOf_toNat {n : Nat} (x : BitVec n) : signedOf n x.toNat = x.toInt := by
  rw [signedOf, Nat.mod_eq_of_lt x.isLt, BitVec.toInt_eq_toNat_cond]
  cases n with
  | zero => simp [BitVec.toNat_of_zero_length]
  | succ k =>
    have sign_bit : x.toNat < 2 ^ k ↔ 2 * x.toNat < 2 ^ (k + 1) := by omega
    simp only [Nat.add_sub_cancel, sign_bit]

theorem wordOfInt_eq_ofInt (i : Int) : wordOfInt i = BitVec.ofInt 32 i := by
  apply BitVec.eq_of_toNat_eq
  simp only [wordOfInt, unsignedOf, BitVec.toNat_ofNat, BitVec.toNat_ofInt]
  omega

theorem State.leNat_rdBytes_one (s : State) (f : Nat) : leNat (s.rdBytes f 1) = (s.rdByte f).toNat :=
  leNat_single _

theorem State.leNat_rdBytes_two (s : State) (f : Nat) : leNat (s.rdBytes f 2) = (s.rdByte (f + 1) ++ s.rdByte f).toNat :=
  leNat_cons _ (leNat_single _)

theorem State.leNat_rdBytes_four (s : State) (f : Nat) :
    leNat (s.rdBytes f 4) = (s.rdByte (f + 3) ++ s.rdByte (f + 2) ++ s.rdByte (f + 1) ++ s.rdByte f).toNat :=
  leNat_cons _ (leNat_cons _ (leNat_cons _ (leNat_single _)))

/-- LH and LB sign-extend the bytes read (R55). -/
theorem extend_signed {size : Nat} {x : BitVec (8 * size)} {bs : List W8} (h : leNat bs = x.toNat) :
    extend size true bs = x.signExtend 32 := by
  simp [extend, h, signedOf_toNat, wordOfInt_eq_ofInt, BitVec.signExtend]

/-- LHU and LBU zero-extend the bytes read (R55). -/
theorem extend_unsigned {n : Nat} {x : BitVec n} {bs : List W8} (size : Nat) (h : leNat bs = x.toNat) :
    extend size false bs = x.zeroExtend 32 := by
  simp [extend, h]

/-! ### Loads -/

theorem exec_lw (q : Fin 48) (rd rs1 : BitVec 5) (imm : W16) (found : Option CellErr) (s : State) :
    exec (.lw q rd rs1 imm found) s = .next (s.load q rd rs1 imm 4 false found) := rfl

theorem exec_lh (q : Fin 48) (rd rs1 : BitVec 5) (imm : W16) (s : State) :
    exec (.lh q rd rs1 imm) s = .next (s.load q rd rs1 imm 2 true none) := rfl

theorem exec_lhu (q : Fin 48) (rd rs1 : BitVec 5) (imm : W16) (s : State) :
    exec (.lhu q rd rs1 imm) s = .next (s.load q rd rs1 imm 2 false none) := rfl

theorem exec_lb (q : Fin 48) (rd rs1 : BitVec 5) (imm : W16) (s : State) :
    exec (.lb q rd rs1 imm) s = .next (s.load q rd rs1 imm 1 true none) := rfl

theorem exec_lbu (q : Fin 48) (rd rs1 : BitVec 5) (imm : W16) (s : State) :
    exec (.lbu q rd rs1 imm) s = .next (s.load q rd rs1 imm 1 false none) := rfl

/-- A load from memory that is aligned, permitted and finds no erroneous cell: rd receives the bytes, extended. -/
theorem State.load_of_sound {s : State} {q : Fin 48} {rs1 : BitVec 5} {imm : W16} {f size : Nat}
    (hrun : s.executes q = true) (hplace : s.place q ((s.seq q).x rs1 + sx16 imm).toNat = .mem f)
    (halign : ((s.seq q).x rs1 + sx16 imm).toNat % size = 0) (hcheck : s.memCheck q f size Needs.read = none)
    (hsound : s.sound f size) (rd : BitVec 5) (signed : Bool) :
    s.load q rd rs1 imm size signed none = s.withResult q rd (extend size signed (s.rdBytes f size)) := by
  have hmem (a : W32) : s.loadMem q rd a f size signed none = s.withResult q rd (extend size signed (s.rdBytes f size)) := by
    simp [State.loadMem, hcheck, State.cellFound, State.dataRead_of_sound hsound, State.alu_eq_withResult hrun]
  simp [State.load, hrun, halign, hplace, hmem, -BitVec.toNat_add]

/-- Settles O12: a load that is aligned and finds no erroneous cell reads exactly the bytes (`State.load_of_sound`), whose
little-endian value is the word that the statement writes out. -/
theorem loadResults : Obligations.LoadResults := by
  intro q rd rs1 imm f s hrun hplace a
  have result {size : Nat} (halign : a % size = 0) (hcheck : s.memCheck q f size Needs.read = none) (hsound : s.sound f size)
      (signed : Bool) := State.load_of_sound hrun hplace halign hcheck hsound rd signed
  refine ⟨fun halign hcheck hsound => ?word, fun halign hcheck hsound => ⟨?half, ?halfUnsigned⟩,
    fun hcheck hsound => ⟨?byte, ?byteUnsigned⟩⟩
  case word =>
    rw [exec_lw, result halign hcheck hsound, extend_unsigned 4 (s.leNat_rdBytes_four f), BitVec.zeroExtend_eq_setWidth,
      BitVec.setWidth_eq]
  case half => rw [exec_lh, result halign hcheck hsound, extend_signed (size := 2) (s.leNat_rdBytes_two f)]
  case halfUnsigned => rw [exec_lhu, result halign hcheck hsound, extend_unsigned 2 (s.leNat_rdBytes_two f)]
  case byte => rw [exec_lb, result (Nat.mod_one _) hcheck hsound, extend_signed (size := 1) (s.leNat_rdBytes_one f)]
  case byteUnsigned => rw [exec_lbu, result (Nat.mod_one _) hcheck hsound, extend_unsigned 1 (s.leNat_rdBytes_one f)]

end Sys2Proof.Machine
end

section
/-! SUPPORT. What every command and every step keeps, put together from what each command keeps. -/

namespace Sys2Proof.Machine

/-- Every command ends in a next state, and keeps the form, the capacities, the fuse cells and the queue. -/
theorem exec_runs : ∀ (c : Instr) (s : State), ∃ t, exec c s = .next t ∧ Keeps s t
  | .registerWrite .., s => execRegisterWrite_runs _ _ _ s
  | .readClear .., s => execReadClear_runs _ _ s
  | .snapshotCapture .., s => execSnapshotCapture_runs _ _ s
  | .elogRead .., s => execElogRead_runs _ _ s
  | .lrefSelWrite .., s => execLrefSelWrite_runs _ s
  | .pllLock .., s => execPllLock_runs _ _ _ _ _ s
  | .pllLockLoss .., s => execPllLockLoss_runs _ s
  | .pllLossResetTimer .., s => execPllLossResetTimer_runs _ s
  | .seqRun .., s => execSeqRun_runs _ s
  | .seqHalt .., s => execSeqHalt_runs _ s
  | .seqRst .., s => execSeqRst_runs _ s
  | .splitWrite .., s => execSplitWrite_runs _ _ s
  | .swiSet .., s => execSwiSet_runs _ s
  | .swiClr .., s => execSwiClr_runs _ s
  | .sigSetReg .., s => execSigSetReg_runs _ _ s
  | .sigClrReg .., s => execSigClrReg_runs _ _ s
  | .debugHalt .., s => execDebugHalt_runs _ s
  | .debugResume .., s => execDebugResume_runs _ s
  | .lockstepMismatch .., s => execLockstepMismatch_runs _ s
  | .interruptTake .., s => execInterruptTake_runs _ s
  | .timecmpMatch .., s => execTimecmpMatch_runs _ s
  | .add .., s => execAdd_runs _ _ _ _ s
  | .sub .., s => execSub_runs _ _ _ _ s
  | .and .., s => execAnd_runs _ _ _ _ s
  | .or .., s => execOr_runs _ _ _ _ s
  | .xor .., s => execXor_runs _ _ _ _ s
  | .sll .., s => execSll_runs _ _ _ _ s
  | .srl .., s => execSrl_runs _ _ _ _ s
  | .sra .., s => execSra_runs _ _ _ _ s
  | .slt .., s => execSlt_runs _ _ _ _ s
  | .sltu .., s => execSltu_runs _ _ _ _ s
  | .mul .., s => execMul_runs _ _ _ _ s
  | .mulh .., s => execMulh_runs _ _ _ _ s
  | .mulhu .., s => execMulhu_runs _ _ _ _ s
  | .div .., s => execDiv_runs _ _ _ _ s
  | .divu .., s => execDivu_runs _ _ _ _ s
  | .rem .., s => execRem_runs _ _ _ _ s
  | .remu .., s => execRemu_runs _ _ _ _ s
  | .min .., s => execMin_runs _ _ _ _ s
  | .max .., s => execMax_runs _ _ _ _ s
  | .minu .., s => execMinu_runs _ _ _ _ s
  | .maxu .., s => execMaxu_runs _ _ _ _ s
  | .slli .., s => execSlli_runs _ _ _ _ s
  | .srli .., s => execSrli_runs _ _ _ _ s
  | .srai .., s => execSrai_runs _ _ _ _ s
  | .clz .., s => execClz_runs _ _ _ s
  | .popc .., s => execPopc_runs _ _ _ s
  | .addi .., s => execAddi_runs _ _ _ _ s
  | .andi .., s => execAndi_runs _ _ _ _ s
  | .ori .., s => execOri_runs _ _ _ _ s
  | .xori .., s => execXori_runs _ _ _ _ s
  | .slti .., s => execSlti_runs _ _ _ _ s
  | .sltiu .., s => execSltiu_runs _ _ _ _ s
  | .lui .., s => execLui_runs _ _ _ s
  | .lw .., s => execLw_runs _ _ _ _ _ s
  | .lh .., s => execLh_runs _ _ _ _ s
  | .lhu .., s => execLhu_runs _ _ _ _ s
  | .lb .., s => execLb_runs _ _ _ _ s
  | .lbu .., s => execLbu_runs _ _ _ _ s
  | .sw .., s => execSw_runs _ _ _ _ s
  | .sh .., s => execSh_runs _ _ _ _ s
  | .sb .., s => execSb_runs _ _ _ _ s
  | .amoswap .., s => execAmoswap_runs _ _ _ _ s
  | .amoadd .., s => execAmoadd_runs _ _ _ _ s
  | .amoand .., s => execAmoand_runs _ _ _ _ s
  | .amoor .., s => execAmoor_runs _ _ _ _ s
  | .amocas .., s => execAmocas_runs _ _ _ _ _ s
  | .beq .., s => execBeq_runs _ _ _ _ s
  | .bne .., s => execBne_runs _ _ _ _ s
  | .blt .., s => execBlt_runs _ _ _ _ s
  | .bge .., s => execBge_runs _ _ _ _ s
  | .bltu .., s => execBltu_runs _ _ _ _ s
  | .bgeu .., s => execBgeu_runs _ _ _ _ s
  | .jal .., s => execJal_runs _ _ _ s
  | .jalr .., s => execJalr_runs _ _ _ _ s
  | .ecall .., s => execEcall_runs _ s
  | .ebreak .., s => execEbreak_runs _ s
  | .eret .., s => execEret_runs _ s
  | .wfi .., s => execWfi_runs _ s
  | .wfiWake .., s => execWfiWake_runs _ s
  | .csrrw .., s => execCsrrw_runs _ _ _ _ s
  | .csrrs .., s => execCsrrs_runs _ _ _ _ s
  | .csrrc .., s => execCsrrc_runs _ _ _ _ s
  | .fence .., s => execFence_runs _ s
  | .fenceI .., s => execFenceI_runs _ s
  | .sigset .., s => execSigset_runs _ _ s
  | .sigclr .., s => execSigclr_runs _ _ s
  | .sigwait .., s => execSigwait_runs _ _ _ _ s
  | .sigwaitn .., s => execSigwaitn_runs _ _ _ _ s
  | .sigwaitWake .., s => execSigwaitWake_runs _ s
  | .sigwaitTimeout .., s => execSigwaitTimeout_runs _ s
  | .sigtst .., s => execSigtst_runs _ _ _ s
  | .sigtstc .., s => execSigtstc_runs _ _ _ s
  | .post .., s => execPost_runs _ _ _ _ _ s
  | .waitp .., s => execWaitp_runs _ _ _ _ _ s
  | .waitpPassed .., s => execWaitpPassed_runs _ s
  | .waitpTimeout .., s => execWaitpTimeout_runs _ s
  | .stamp .., s => execStamp_runs _ _ _ _ _ s
  | .arm .., s => execArm_runs _ _ _ _ s
  | .cancel .., s => execCancel_runs _ _ _ s
  | .axrd .., s => execAxrd_runs _ _ _ s
  | .clarke .., s => execClarke_runs _ _ _ s
  | .park .., s => execPark_runs _ _ _ _ s
  | .ipark .., s => execIpark_runs _ _ _ _ s
  | .svm .., s => execSvm_runs _ _ _ s
  | .sincos .., s => execSincos_runs _ _ _ s
  | .macs .., s => execMacs_runs _ _ _ _ s
  | .pistep .., s => execPistep_runs _ _ _ _ s
  | .vadd .., s => execVadd_runs _ _ _ _ _ _ _ s
  | .vsub .., s => execVsub_runs _ _ _ _ _ _ _ s
  | .vmul .., s => execVmul_runs _ _ _ _ _ _ _ s
  | .vmulq .., s => execVmulq_runs _ _ _ _ _ _ _ s
  | .vmac .., s => execVmac_runs _ _ _ _ _ _ _ s
  | .vmin .., s => execVmin_runs _ _ _ _ _ _ s
  | .vmax .., s => execVmax_runs _ _ _ _ _ _ s
  | .vminu .., s => execVminu_runs _ _ _ _ _ _ s
  | .vmaxu .., s => execVmaxu_runs _ _ _ _ _ _ s
  | .vand .., s => execVand_runs _ _ _ _ _ _ s
  | .vor .., s => execVor_runs _ _ _ _ _ _ s
  | .vxor .., s => execVxor_runs _ _ _ _ _ _ s
  | .vsll .., s => execVsll_runs _ _ _ _ _ _ s
  | .vsrl .., s => execVsrl_runs _ _ _ _ _ _ s
  | .vsra .., s => execVsra_runs _ _ _ _ _ _ s
  | .vcmpeq .., s => execVcmpeq_runs _ _ _ _ _ _ s
  | .vcmplt .., s => execVcmplt_runs _ _ _ _ _ _ s
  | .vcmpltu .., s => execVcmpltu_runs _ _ _ _ _ _ s
  | .vsplat .., s => execVsplat_runs _ _ _ _ s
  | .vext .., s => execVext_runs _ _ _ _ s
  | .viota .., s => execViota_runs _ _ _ s
  | .mand .., s => execMand_runs _ _ _ _ s
  | .mor .., s => execMor_runs _ _ _ _ s
  | .mnot .., s => execMnot_runs _ _ _ s
  | .mpop .., s => execMpop_runs _ _ _ s
  | .vld .., s => execVld_runs _ _ _ _ _ s
  | .vst .., s => execVst_runs _ _ _ _ _ s
  | .vldx .., s => execVldx_runs _ _ _ _ _ s
  | .vstx .., s => execVstx_runs _ _ _ _ _ s
  | .vlut .., s => execVlut_runs _ _ _ _ _ s
  | .vnmap .., s => execVnmap_runs _ _ _ _ _ _ s
  | .vspread .., s => execVspread_runs _ _ _ _ _ _ s
  | .vthr .., s => execVthr_runs _ _ _ _ _ s
  | .vmask .., s => execVmask_runs _ _ _ _ _ s
  | .vpack .., s => execVpack_runs _ _ _ _ _ s
  | .tbufInvalidate .., s => execTbufInvalidate_runs _ s
  | .residueInjectArm .., s => execResidueInjectArm_runs _ s
  | .quadEdge .., s => execQuadEdge_runs _ _ _ s
  | .zIndex .., s => execZIndex_runs _ _ s
  | .zArm .., s => execZArm_runs _ _ s
  | .positionLoad .., s => execPositionLoad_runs _ _ s
  | .axisEnable .., s => execAxisEnable_runs _ _ s
  | .axisDisable .., s => execAxisDisable_runs _ _ s
  | .axisCfgWrite .., s => execAxisCfgWrite_runs _ _ s
  | .lullDeclared .., s => execLullDeclared_runs _ _ s
  | .seFrameStart .., s => execSeFrameStart_runs _ _ s
  | .seFrameEnd .., s => execSeFrameEnd_runs _ _ s
  | .seTimeout .., s => execSeTimeout_runs _ s
  | .microstepHandover .., s => execMicrostepHandover_runs _ _ s
  | .vrateUpdate .., s => execVrateUpdate_runs _ s
  | .virtualCarry .., s => execVirtualCarry_runs _ _ s
  | .eoStep .., s => execEoStep_runs _ s
  | .eoCfgWrite .., s => execEoCfgWrite_runs _ _ _ s
  | .tileWeightWrite .., s => execTileWeightWrite_runs _ _ s
  | .stampPass .., s => execStampPass_runs _ _ _ s
  | .dataSend .., s => execDataSend_runs _ _ _ _ s
  | .commitPoint .., s => execCommitPoint_runs _ s
  | .schedEnable .., s => execSchedEnable_runs _ _ s
  | .schedDisable .., s => execSchedDisable_runs _ _ s
  | .schedFlush .., s => execSchedFlush_runs _ _ s
  | .barEnable .., s => execBarEnable_runs _ _ s
  | .barDisable .., s => execBarDisable_runs _ _ s
  | .tileCfgWrite .., s => execTileCfgWrite_runs _ _ _ s
  | .teqWrite .., s => execTeqWrite_runs _ s
  | .maskedMapWrite .., s => execMaskedMapWrite_runs _ _ s
  | .trimPush .., s => execTrimPush_runs _ _ s
  | .trimPushDone .., s => execTrimPushDone_runs _ s
  | .echoReceive .., s => execEchoReceive_runs _ _ _ s
  | .classifierUpdate, s => execClassifierUpdate_runs s
  | .classifierEnable .., s => execClassifierEnable_runs _ s
  | .classifierDisable .., s => execClassifierDisable_runs _ s
  | .classTableLoad .., s => execClassTableLoad_runs _ s
  | .classLoadDone, s => execClassLoadDone_runs s
  | .classifierParityError .., s => execClassifierParityError_runs _ s
  | .echoTest .., s => execEchoTest_runs _ s
  | .ogTrigger .., s => execOgTrigger_runs _ _ s
  | .ogWindowOpen .., s => execOgWindowOpen_runs _ _ s
  | .ogWindowClose .., s => execOgWindowClose_runs _ _ _ s
  | .ogResultRead .., s => execOgResultRead_runs _ s
  | .govEnable .., s => execGovEnable_runs _ _ s
  | .laneEnable .., s => execLaneEnable_runs _ _ s
  | .laneDisable .., s => execLaneDisable_runs _ _ s
  | .laneRetrain .., s => execLaneRetrain_runs _ _ s
  | .laneOpen .., s => execLaneOpen_runs _ _ s
  | .legacyWrite .., s => execLegacyWrite_runs _ _ s
  | .blockLock .., s => execBlockLock_runs _ s
  | .lockTimeout .., s => execLockTimeout_runs _ s
  | .enumReturn .., s => execEnumReturn_runs _ _ _ s
  | .enumTimeout .., s => execEnumTimeout_runs _ s
  | .delayDone .., s => execDelayDone_runs _ _ _ s
  | .blockLockLoss .., s => execBlockLockLoss_runs _ s
  | .replyGrant .., s => execReplyGrant_runs _ _ s
  | .statGrant .., s => execStatGrant_runs _ _ s
  | .echoGrant .., s => execEchoGrant_runs _ _ s
  | .mgmtGrant .., s => execMgmtGrant_runs _ _ s
  | .grantUnfilled .., s => execGrantUnfilled_runs _ _ _ s
  | .replyReceive .., s => execReplyReceive_runs _ _ _ s
  | .replyTimeout .., s => execReplyTimeout_runs _ _ s
  | .strobeReturn .., s => execStrobeReturn_runs _ _ s
  | .strobeReturnTimeout .., s => execStrobeReturnTimeout_runs _ s
  | .statReceive .., s => execStatReceive_runs _ _ _ s
  | .statTimeout .., s => execStatTimeout_runs _ _ s
  | .mgmtRequest .., s => execMgmtRequest_runs _ _ s
  | .mgmtResponseReceive .., s => execMgmtResponseReceive_runs _ _ s
  | .mgmtRetryTimeout .., s => execMgmtRetryTimeout_runs _ _ _ s
  | .sbCommand .., s => execSbCommand_runs _ _ s
  | .sbTransactionDone .., s => execSbTransactionDone_runs _ _ s
  | .sbStretchTimeout .., s => execSbStretchTimeout_runs _ s
  | .sbPoll .., s => execSbPoll_runs _ _ s
  | .sbPollWrite .., s => execSbPollWrite_runs _ _ s
  | .waveUpload .., s => execWaveUpload_runs _ _ s
  | .waveUploadDone .., s => execWaveUploadDone_runs _ s
  | .scaleTick .., s => execScaleTick_runs _ s
  | .breezePush .., s => execBreezePush_runs _ s
  | .sensorGateChange .., s => execSensorGateChange_runs _ _ s
  | .shutCloseCmd .., s => execShutCloseCmd_runs _ _ s
  | .shutOpenCmd .., s => execShutOpenCmd_runs _ _ s
  | .lineBoundaryClose .., s => execLineBoundaryClose_runs _ _ s
  | .shutModeSelect .., s => execShutModeSelect_runs _ s
  | .tlimPush .., s => execTlimPush_runs _ _ s
  | .motorStart .., s => execMotorStart_runs _ _ s
  | .motorStop .., s => execMotorStop_runs _ s
  | .motorDisable .., s => execMotorDisable_runs _ _ s
  | .dutyCommit .., s => execDutyCommit_runs _ _ _ _ s
  | .pwmUpdate .., s => execPwmUpdate_runs _ s
  | .senseTrigger .., s => execSenseTrigger_runs _ _ s
  | .senseDone .., s => execSenseDone_runs _ _ s
  | .observeWindowEnd .., s => execObserveWindowEnd_runs _ _ s
  | .polarityPulseEnd .., s => execPolarityPulseEnd_runs _ _ s
  | .locateTimeout .., s => execLocateTimeout_runs _ s
  | .startupTimeout .., s => execStartupTimeout_runs _ s
  | .retryCoastEnd .., s => execRetryCoastEnd_runs _ s
  | .recatchTimeout .., s => execRecatchTimeout_runs _ s
  | .tripComparator .., s => execTripComparator_runs _ _ s
  | .adcScan .., s => execAdcScan_runs _ _ s
  | .stepperEnable .., s => execStepperEnable_runs _ _ s
  | .stepperDisable .., s => execStepperDisable_runs _ _ s
  | .stepStop .., s => execStepStop_runs _ s
  | .stepHalt .., s => execStepHalt_runs _ s
  | .stepClr .., s => execStepClr_runs _ s
  | .movePush .., s => execMovePush_runs _ _ _ s
  | .profileUpdate .., s => execProfileUpdate_runs _ s
  | .microstep .., s => execMicrostep_runs _ s
  | .standstillDelay .., s => execStandstillDelay_runs _ s
  | .chopOnEnd .., s => execChopOnEnd_runs _ _ _ _ s
  | .chopDecayEnd .., s => execChopDecayEnd_runs _ _ _ s
  | .stallCheck .., s => execStallCheck_runs _ s
  | .stallEnable .., s => execStallEnable_runs _ _ s
  | .correctionWriteback .., s => execCorrectionWriteback_runs _ s
  | .ceWindowExpire .., s => execCeWindowExpire_runs _ s
  | .scrubRead .., s => execScrubRead_runs _ _ s
  | .scrubPassEnd .., s => execScrubPassEnd_runs _ _ s
  | .starve .., s => execStarve_runs _ _ s
  | .marchGo, s => execMarchGo_runs s
  | .marchComplete .., s => execMarchComplete_runs _ s
  | .gustGo .., s => execGustGo_runs _ _ _ s
  | .gustAbort .., s => execGustAbort_runs _ _ _ s
  | .gustAbortDone .., s => execGustAbortDone_runs _ s
  | .gustDisable .., s => execGustDisable_runs _ _ _ s
  | .gustMove .., s => execGustMove_runs _ s
  | .gustFill .., s => execGustFill_runs _ s
  | .gustCmp .., s => execGustCmp_runs _ s
  | .gustCrc .., s => execGustCrc_runs _ s
  | .gustLoop .., s => execGustLoop_runs _ s
  | .gustWait .., s => execGustWait_runs _ s
  | .gustWaitDone .., s => execGustWaitDone_runs _ s
  | .gustWaitTimeout .., s => execGustWaitTimeout_runs _ s
  | .gustSignal .., s => execGustSignal_runs _ s
  | .gustEnd .., s => execGustEnd_runs _ s
  | .ringSpace .., s => execRingSpace_runs _ s
  | .gustRateWindow, s => execGustRateWindow_runs s
  | .axisCapturePulse .., s => execAxisCapturePulse_runs _ s
  | .frameReceive .., s => execFrameReceive_runs _ _ _ _ _ s
  | .gspPlace, s => execGspPlace_runs s
  | .bandDone .., s => execBandDone_runs _ s
  | .ackTimer .., s => execAckTimer_runs _ s
  | .frameTransmit .., s => execFrameTransmit_runs _ _ s
  | .ethLinkChange .., s => execEthLinkChange_runs _ _ _ s
  | .ptpIncCommit .., s => execPtpIncCommit_runs _ s
  | .ptpSetTime .., s => execPtpSetTime_runs _ s
  | .ptpAdjust .., s => execPtpAdjust_runs _ s
  | .ptpRatioMeasure, s => execPtpRatioMeasure_runs s
  | .ptpAlarm, s => execPtpAlarm_runs s
  | .ppsPulse, s => execPpsPulse_runs s
  | .pcieMemWrite .., s => execPcieMemWrite_runs _ _ _ s
  | .pcieMemRead .., s => execPcieMemRead_runs _ _ _ s
  | .pcieDoorbell .., s => execPcieDoorbell_runs _ s
  | .msixUnmask .., s => execMsixUnmask_runs _ s
  | .perst, s => execPerst_runs s
  | .powerOnReset .., s => execPowerOnReset_runs _ s
  | .systemResetPin, s => execSystemResetPin_runs s
  | .resetRequest .., s => execResetRequest_runs _ s
  | .debugReset, s => execDebugReset_runs s
  | .resetEnd .., s => execResetEnd_runs _ _ _ _ _ _ s
  | .dramTrained, s => execDramTrained_runs s
  | .bootGo .., s => execBootGo_runs _ _ s
  | .bootPacket .., s => execBootPacket_runs _ s
  | .bootAnnounce, s => execBootAnnounce_runs s
  | .spiWrite .., s => execSpiWrite_runs _ _ s
  | .spiStatus, s => execSpiStatus_runs s
  | .spiGo .., s => execSpiGo_runs _ s
  | .reloadGo .., s => execReloadGo_runs _ s
  | .reloadDone, s => execReloadDone_runs s
  | .supplyWarning .., s => execSupplyWarning_runs _ _ s
  | .railRecoveryCross .., s => execRailRecoveryCross_runs _ _ _ s
  | .supplyRecovered .., s => execSupplyRecovered_runs _ s
  | .supplyReset .., s => execSupplyReset_runs _ _ s
  | .fuseProg .., s => execFuseProg_runs _ _ s
  | .fuseCommit .., s => execFuseCommit_runs _ _ s
  | .fuseSeal .., s => execFuseSeal_runs _ _ s
  | .fuseLock .., s => execFuseLock_runs _ _ s
  | .fuseCtrl .., s => execFuseCtrl_runs _ _ s
  | .fuseSupersede .., s => execFuseSupersede_runs _ _ s
  | .fuseLcadv .., s => execFuseLcadv_runs _ _ s
  | .fuseResume .., s => execFuseResume_runs _ _ s
  | .fuseAbort .., s => execFuseAbort_runs _ _ s
  | .fuseReread .., s => execFuseReread_runs _ s
  | .fuseOpComplete .., s => execFuseOpComplete_runs _ _ _ s
  | .fuseSupplyExit .., s => execFuseSupplyExit_runs _ _ s
  | .secChal .., s => execSecChal_runs _ s
  | .secResp .., s => execSecResp_runs _ s
  | .secPwd .., s => execSecPwd_runs _ s
  | .secAttest .., s => execSecAttest_runs _ s
  | .secRma .., s => execSecRma_runs _ _ s
  | .secClose .., s => execSecClose_runs _ s
  | .secFailReport, s => execSecFailReport_runs s
  | .eventAccept .., s => execEventAccept_runs _ s
  | .eventRingEnable .., s => execEventRingEnable_runs _ _ s
  | .eventRingRdWrite .., s => execEventRingRdWrite_runs _ _ s
  | .watchdogStart .., s => execWatchdogStart_runs _ s
  | .watchdogKick .., s => execWatchdogKick_runs _ _ s
  | .watchdogStage1, s => execWatchdogStage1_runs s
  | .watchdogReset, s => execWatchdogReset_runs s
  | .faultnAssert .., s => execFaultnAssert_runs _ s
  | .faultnRelease, s => execFaultnRelease_runs s
  | .heartbeat .., s => execHeartbeat_runs _ _ s
  | .heartbeatTimeout .., s => execHeartbeatTimeout_runs _ s
  | .tileOutOfService .., s => execTileOutOfService_runs _ _ s
  | .leDuplicateMismatch .., s => execLeDuplicateMismatch_runs _ _ s
  | .selftestRun .., s => execSelftestRun_runs _ s
  | .selftestComplete .., s => execSelftestComplete_runs _ _ s
  | .adcCalStart, s => execAdcCalStart_runs s
  | .adcCalDone .., s => execAdcCalDone_runs _ _ _ _ s
  | .adcCalApply .., s => execAdcCalApply_runs _ s
  | .calStaleTimeout .., s => execCalStaleTimeout_runs _ s
  | .tempSample .., s => execTempSample_runs _ _ _ _ s
  | .trimCommit .., s => execTrimCommit_runs _ s
  | .trimCommitDone, s => execTrimCommitDone_runs s
  | .illegalInstruction .., s => execIllegalInstruction_runs _ _ s
  | .instructionAccessFault .., s => execInstructionAccessFault_runs _ _ s
  | .debugPortAccess .., s => execDebugPortAccess_runs _ _ _ s
  | .pcieLinkUp .., s => execPcieLinkUp_runs _ _ s
  | .dieBInitDone, s => execDieBInitDone_runs s
  | .comparatorChange .., s => execComparatorChange_runs _ _ s

/-- Every step ends in a next state; it takes the front command off the queue and keeps the rest. -/
theorem step_runs (s : State) : ∃ t, step s = .next t ∧ Keeps { s with pending := s.pending.tail } t := by
  unfold step
  cases hp : s.pending with
  | nil =>
    refine ⟨s.tick, rfl, ?_⟩
    have unqueued : { s with pending := [] } = s := by rw [← hp]
    rw [List.tail_nil, unqueued]
    exact s.tick_keeps
  | cons c rest => exact exec_runs c { s with pending := rest }

/-- Settles O5: the form does not speak of the queue, and a step keeps everything else that it speaks of. -/
theorem stepKeepsForm : Obligations.StepKeepsForm := by
  intro s t hform hstep
  obtain ⟨u, hnext, hkeeps⟩ := step_runs s
  obtain rfl : u = t := Host.Outcome.next.inj (hnext.symm.trans hstep)
  exact hkeeps.form hform

end Sys2Proof.Machine
end

section
/-! SUPPORT. What a master's write to memory leaves where no erroneous cell lies in the range (R321, R328, R334): the bytes, fresh
check bits and the times of line slots; and the stores of PYR-32 that rest on it (R55, R165). -/

namespace Sys2Proof.Machine

/-! ### Bytes written with fresh check bits -/

/-- Noting the writes of line slots changes lanes alone. -/
theorem State.slotsTouched_eq (s : State) (a len : Nat) : s.slotsTouched a len = { s with lanes := (s.slotsTouched a len).lanes } := by
  unfold State.slotsTouched
  generalize slotsIn a len = slots
  induction slots generalizing s with
  | nil => rfl
  | cons x slots ih =>
    rw [List.foldl_cons]
    exact ih (s.slotTouched x.1 x.2)

/-- What a write of bytes by a master leaves: the bytes, and fresh check bits. -/
def State.bytesStored (s : State) (a : Nat) (bs : List W8) : State := (s.wrBytes a bs).written a bs.length

/-- A write of bytes changes memory, erroneous cells and the slot times that lanes keep. -/
theorem State.bytesStored_eq (s : State) (a : Nat) (bs : List W8) :
    s.bytesStored a bs = { s with mem := (s.wrBytes a bs).mem, cells := (s.bytesStored a bs).cells, lanes := (s.bytesStored a bs).lanes } := by
  have touched := ((s.wrBytes a bs).cellsCleared a bs.length).slotsTouched_eq a bs.length
  have wrote := State.wrBytes_eq bs s a
  calc s.bytesStored a bs
      = { (s.wrBytes a bs) with cells := (s.bytesStored a bs).cells, lanes := (s.bytesStored a bs).lanes } := by
        unfold State.bytesStored State.written
        rw [touched]
        rfl
    _ = _ := by rw [wrote]

@[simp] theorem State.bytesStored_regs (s : State) (a : Nat) (bs : List W8) : (s.bytesStored a bs).regs = s.regs := by
  rw [State.bytesStored_eq]

@[simp] theorem State.bytesStored_seqs (s : State) (a : Nat) (bs : List W8) : (s.bytesStored a bs).seqs = s.seqs := by
  rw [State.bytesStored_eq]

@[simp] theorem State.bytesStored_rd (s : State) (a : Nat) (bs : List W8) (r : Nat) : (s.bytesStored a bs).rd r = s.rd r := by
  rw [State.bytesStored_eq]; rfl

@[simp] theorem State.bytesStored_seq (s : State) (a : Nat) (bs : List W8) (q : Nat) : (s.bytesStored a bs).seq q = s.seq q := by
  rw [State.bytesStored_eq]; rfl

@[simp] theorem State.bytesStored_ctxOf (s : State) (a : Nat) (bs : List W8) (q : Nat) : (s.bytesStored a bs).ctxOf q = s.ctxOf q := by
  rw [State.bytesStored_eq]; rfl

/-- The bytes stored read as written, every other byte as before. -/
theorem State.bytesStored_rdByte (s : State) (a : Nat) (bs : List W8) (x : Nat) :
    (s.bytesStored a bs).rdByte x = if a ≤ x ∧ x < a + bs.length then bs.getD (x - a) 0 else s.rdByte x := by
  rw [← State.rdByte_wrBytes bs s a x, State.bytesStored_eq, State.wrBytes_eq bs s a]
  rfl

/-! ### A write that merges with no erroneous word -/

theorem tabFind_none_of_forall {α : Type} {k : Nat} : ∀ {t : Tab α}, (∀ e ∈ t, e.1 ≠ k) → tabFind t k = none
  | [], _ => rfl
  | (j, v) :: t, h => by
    have hj : k ≠ j := fun e => h (j, v) (by simp) e.symm
    simp only [tabFind, hj, if_false]
    exact tabFind_none_of_forall (fun e he => h e (List.mem_cons_of_mem _ he))

theorem memWordBase_mono {a b : Nat} (h : a ≤ b) : memWordBase a ≤ memWordBase b := by
  simp only [memWordBase, isSram, decide_eq_true_eq]
  split <;> split <;> omega

theorem memWordBase_le (a : Nat) : memWordBase a ≤ a := by
  unfold memWordBase
  split <;> omega

/-- The word of a byte in a range with no erroneous cell is read without a report. -/
theorem State.eccRead_of_sound {s : State} {f n a : Nat} (h : s.sound f n) (hlo : f ≤ a) (hhi : a < f + n) (reader : Nat) :
    s.eccRead reader a = (.good, s) := by
  have no_cell : tabFind s.cells (memWordBase a) = none := by
    refine tabFind_none_of_forall (fun e he hkey => h e he ?_)
    rw [hkey]
    exact ⟨memWordBase_mono hlo, Nat.lt_of_le_of_lt (memWordBase_le a) hhi⟩
  simp only [State.eccRead, no_cell]

/-- A write to a range with no erroneous cell is performed, whichever words it fills in part. -/
theorem State.mergeWrite_of_sound {s : State} {f : Nat} {bs : List W8} (h : s.sound f bs.length) (hbs : 0 < bs.length) (reader : Nat) :
    s.mergeWrite reader f bs = (some (s.bytesStored f bs), s) := by
  have first := State.eccRead_of_sound h (Nat.le_refl f) (by omega) reader
  have last := State.eccRead_of_sound (a := f + bs.length - 1) h (by omega) (by omega) reader
  have head (c : Bool) : (if c then s.eccRead reader f else (.good, s)) = (.good, s) := by cases c <;> simp [first]
  have tail (c : Bool) : (if c then s.eccRead reader (f + bs.length - 1) else (.good, s)) = (.good, s) := by cases c <;> simp [last]
  simp only [State.mergeWrite, head, tail, State.mergeOld, State.bytesStored]
  rfl

/-! ### Stores into memory -/

theorem cluster_of_hasV {q : Nat} (h : hasV q = true) : q - 8 < 16 := by
  by_contra far
  have g : groupOf q = 3 := by unfold groupOf; rw [if_neg, if_neg, if_neg] <;> omega
  simp [hasV, g] at h

/-- A store leaves the table buffer alone, or invalidates it: the copy is gone and its cluster's RC_TBUF is not valid (R165). -/
theorem State.tableStored_cases (s : State) (q f : Nat) : s.tableStored q f = s ∨
    q - 8 < 16 ∧ s.tableStored q f = (s.setSeq q { s.seq q with tbuf := [] }).set (F.RC_TBUF_valid (q - 8)) 0 := by
  unfold State.tableStored
  split
  · next copied =>
    simp only [Bool.and_eq_true] at copied
    obtain ⟨⟨hv, -⟩, -⟩ := copied
    exact Or.inr ⟨cluster_of_hasV hv, by rw [State.tableDrop, if_pos hv]⟩
  · exact Or.inl rfl

@[simp] theorem State.tableStored_rdByte (s : State) (q f x : Nat) : (s.tableStored q f).rdByte x = s.rdByte x := by
  obtain h | ⟨-, h⟩ := s.tableStored_cases q f <;> rw [h]
  rfl

@[simp] theorem State.tableStored_ctxOf (s : State) (q f r : Nat) : (s.tableStored q f).ctxOf r = s.ctxOf r := by
  obtain h | ⟨-, h⟩ := s.tableStored_cases q f <;> rw [h]
  rfl

theorem State.tableStored_seq_ne (s : State) {q r : Nat} (f : Nat) (h : s.ctxOf r ≠ s.ctxOf q) :
    (s.tableStored q f).seq r = s.seq r := by
  obtain e | ⟨-, e⟩ := s.tableStored_cases q f <;> rw [e]
  exact State.seq_setSeq_ne s _ h

theorem State.tableStored_seq_same (s : State) (q f : Nat) :
    (s.tableStored q f).seq q = { s.seq q with tbuf := ((s.tableStored q f).seq q).tbuf } := by
  obtain e | ⟨-, e⟩ := s.tableStored_cases q f <;> rw [e]
  have dropped : ((s.setSeq q { s.seq q with tbuf := [] }).set (F.RC_TBUF_valid (q - 8)) 0).seq q = { s.seq q with tbuf := [] } :=
    State.seq_setSeq_same s q _
  rw [dropped]

theorem State.tableStored_rd (s : State) (q f a : Nat) (ha : ∀ k, k < 16 → a ≠ R.RC_TBUF k) : (s.tableStored q f).rd a = s.rd a := by
  obtain e | ⟨cluster, e⟩ := s.tableStored_cases q f <;> rw [e]
  exact State.rd_set_ne _ _ (ha _ cluster)

/-- A store that is permitted and merges with no erroneous word stores its bytes and retires. -/
theorem State.storeMem_of_sound {s : State} {q f : Nat} {bs : List W8} {n : Needs}
    (hneeds : (if partialWord f bs.length then Needs.both else Needs.write) = n) (hcheck : s.memCheck q f bs.length n = none)
    (hsound : s.sound f bs.length) (hbs : 0 < bs.length) (a : W32) :
    Stored q f bs s (s.storeMem q a f bs) ∧ Retires q 0 0 s (s.storeMem q a f bs) := by
  have result : s.storeMem q a f bs =
      ((s.bytesStored f bs).tableStored q f).setSeq q (((s.bytesStored f bs).tableStored q f).seq q).retired := by
    simp only [State.storeMem, hneeds, hcheck, State.mergeWrite_of_sound hsound hbs]
  rw [result]
  refine ⟨⟨fun x => ?bytes, fun r hr => ?others, fun x hx => ?registers⟩, ?retires⟩
  case bytes => exact ((s.bytesStored f bs).tableStored_rdByte q f x).trans (s.bytesStored_rdByte f bs x)
  case others =>
    rw [State.seq_setSeq_ne _ _ (by simpa using hr), State.tableStored_seq_ne _ _ (by simpa using hr), State.bytesStored_seq]
  case registers => exact (State.tableStored_rd _ q f x hx).trans (s.bytesStored_rd f bs x)
  case retires =>
    rw [Retires, State.seq_setSeq_same, State.tableStored_seq_same, State.bytesStored_seq]
    rfl

theorem State.aperture_mod {s : State} {q a f : Nat} (h : s.aperture q a = some f) : f % 8 = a % 8 := by
  simp only [State.aperture, Option.ite_none_right_eq_some, Option.some.injEq] at h
  omega

/-- An address that leads to memory leads to a byte at the same place of a 64-bit word (R25, R30). -/
theorem State.place_mem_mod {s : State} {q a f : Nat} (h : s.place q a = .mem f) : f % 8 = a % 8 := by
  unfold State.place at h
  split at h
  · cases h; rfl
  · split at h
    · cases h
    · split at h
      · cases h
      · split at h
        · split at h
          · next through => cases h; exact State.aperture_mod through
          · cases h
        · cases h

/-- A store whose address leads to memory and is aligned to its size stores the low bytes of the register. -/
theorem State.store_of_sound {s : State} {q : Fin 48} {rs1 : BitVec 5} {imm : W16} {f size : Nat} {n : Needs} (rd : BitVec 5)
    {bs : List W8} (hbs : leBytes size ((s.seq q).x rd).toNat = bs) (hsize : 0 < bs.length)
    (hrun : s.executes q = true) (hplace : s.place q ((s.seq q).x rs1 + sx16 imm).toNat = .mem f)
    (halign : ((s.seq q).x rs1 + sx16 imm).toNat % size = 0)
    (hneeds : (if partialWord f bs.length then Needs.both else Needs.write) = n) (hcheck : s.memCheck q f bs.length n = none)
    (hsound : s.sound f bs.length) :
    Stored q f bs s (s.store q rd rs1 imm size) ∧ Retires q 0 0 s (s.store q rd rs1 imm size) := by
  have result : s.store q rd rs1 imm size = s.storeMem q ((s.seq q).x rs1 + sx16 imm) f bs := by
    simp [State.store, hrun, halign, hplace, hbs, -BitVec.toNat_add]
  rw [result]
  exact State.storeMem_of_sound hneeds hcheck hsound hsize _

theorem ofNat_div_eq_extract (v : W32) (k : Nat) : BitVec.ofNat 8 (v.toNat / 2 ^ k) = v.extractLsb' k 8 := by
  apply BitVec.eq_of_toNat_eq
  rw [BitVec.extractLsb'_toNat, Nat.shiftRight_eq_div_pow, BitVec.toNat_ofNat]

theorem leBytes_one (v : W32) : leBytes 1 v.toNat = [v.extractLsb' 0 8] := by
  rw [← ofNat_div_eq_extract, Nat.pow_zero, Nat.div_one]
  rfl

theorem leBytes_two (v : W32) : leBytes 2 v.toNat = [v.extractLsb' 0 8, v.extractLsb' 8 8] := by
  rw [← ofNat_div_eq_extract v 8, ← List.singleton_append, ← leBytes_one]
  rfl

theorem leBytes_four (v : W32) :
    leBytes 4 v.toNat = [v.extractLsb' 0 8, v.extractLsb' 8 8, v.extractLsb' 16 8, v.extractLsb' 24 8] := by
  simp only [leBytes, Nat.div_div_eq_div_mul, ← ofNat_div_eq_extract, Nat.reducePow, Nat.reduceMul, Nat.div_one]

theorem partialWord_word {f : Nat} (h : f % 4 = 0) : partialWord f 4 = !isSram f := by
  unfold partialWord
  cases isSram f with
  | true =>
    have aligned : f % 4 = 0 ∧ (f + 4) % 4 = 0 := by omega
    simp [aligned]
  | false =>
    have within : f % 8 ≠ 0 ∨ (f + 4) % 8 ≠ 0 := by omega
    simpa using within

theorem partialWord_narrow (f : Nat) {size : Nat} (h : 0 < size) (hsize : size < 4) : partialWord f size = true := by
  unfold partialWord
  cases isSram f with
  | true =>
    have within : f % 4 ≠ 0 ∨ (f + size) % 4 ≠ 0 := by omega
    simpa using within
  | false =>
    have within : f % 8 ≠ 0 ∨ (f + size) % 8 ≠ 0 := by omega
    simpa using within

/-- Settles O13: each store is `State.store_of_sound` at its size, with the needs that its place in the memory word gives. -/
theorem storeResults : Obligations.StoreResults := by
  intro q rd rs1 imm f s hrun hplace a v
  refine ⟨fun halign hcheck hsound => ⟨_, rfl, ?word⟩, fun halign hcheck hsound => ⟨_, rfl, ?half⟩,
    fun hcheck hsound => ⟨_, rfl, ?byte⟩⟩
  case word =>
    have aligned : f % 4 = 0 := by have := State.place_mem_mod hplace; omega
    have needs : (if partialWord f 4 then Needs.both else Needs.write) = if isSram f then Needs.write else Needs.both := by
      rw [partialWord_word aligned]
      cases isSram f <;> rfl
    exact State.store_of_sound rd (leBytes_four v) (Nat.succ_pos _) hrun hplace halign needs hcheck hsound
  case half =>
    have narrow : partialWord f 2 = true := partialWord_narrow f (by decide) (by decide)
    exact State.store_of_sound rd (leBytes_two v) (Nat.succ_pos _) hrun hplace halign (if_pos narrow) hcheck hsound
  case byte =>
    have narrow : partialWord f 1 = true := partialWord_narrow f (by decide) (by decide)
    exact State.store_of_sound rd (leBytes_one v) (Nat.succ_pos _) hrun hplace (Nat.mod_one _) (if_pos narrow) hcheck hsound

end Sys2Proof.Machine
end

section
/-! SUPPORT. What the debug port and the host port reach: memory where no erroneous cell lies, through BAR2's windows or directly,
and the registers through BAR0 (R26 to R29, R321, R381, R382, R420). -/

namespace Sys2Proof.Machine

/-! ### Memory -/

/-- A port's write that is permitted and merges with no erroneous word stores its bytes. -/
theorem State.portWrite_of_sound {s : State} {m : Master} {f : Nat} {bs : List W8} {n : Needs}
    (hneeds : (if partialWord f bs.length then Needs.both else Needs.write) = n)
    (hcheck : s.memCheck (s.masterNo m) f bs.length n = none) (hsound : s.sound f bs.length) (hbs : 0 < bs.length) :
    s.portWrite m f bs = (s.bytesStored f bs).answered .done := by
  simp only [State.portWrite, hneeds, hcheck, State.mergeWrite_of_sound hsound hbs]

/-- A port's read that is permitted and finds no erroneous cell answers the bytes. -/
theorem State.portRead_of_sound {s : State} {m : Master} {f len : Nat} (hcheck : s.memCheck (s.masterNo m) f len Needs.read = none)
    (hsound : s.sound f len) : s.portRead m f len = s.answered (.data (s.rdBytes f len)) := by
  simp only [State.portRead, hcheck, State.dataRead_of_sound hsound]

/-- What a port's write of bytes leaves, in the words of the statement. -/
theorem State.bytesStored_answered (s : State) (f : Nat) (bs : List W8) :
    let t := (s.bytesStored f bs).answered .done
    t.answer = .done ∧ t.regs = s.regs ∧ t.seqs = s.seqs ∧
      ∀ x, t.rdByte x = if f ≤ x ∧ x < f + bs.length then bs.getD (x - f) 0 else s.rdByte x :=
  ⟨rfl, s.bytesStored_regs f bs, s.bytesStored_seqs f bs, s.bytesStored_rdByte f bs⟩

/-! ### The debug port -/

theorem not_isRegSpace_of_isSram {a : Nat} (h : isSram a = true) : isRegSpace a = false := by
  simp only [isSram, decide_eq_true_eq] at h
  simp only [isRegSpace, Bool.and_eq_false_imp, decide_eq_true_eq, decide_eq_false_iff_not]
  omega

theorem not_isRom_of_isSram {a : Nat} (h : isSram a = true) : isRom a = false := by
  simp only [isSram, decide_eq_true_eq] at h
  simp only [isRom, Bool.and_eq_false_imp, decide_eq_true_eq, decide_eq_false_iff_not]
  omega

/-- With debug access open an access to SRAM is a port's access to memory. -/
theorem State.debugAccess_sram {s : State} {a : Nat} (hopen : s.dbgOpen = true) (hsram : isSram a = true) (write : Bool) (v : W32) :
    s.debugAccess write a v = if write then s.portWrite .debug a (leBytes 4 v.toNat) else s.portRead .debug a 4 := by
  simp [State.debugAccess, hopen, not_isRegSpace_of_isSram hsram, not_isRom_of_isSram hsram]

theorem State.debugAccess_closed {s : State} {a : Nat} (hclosed : s.dbgOpen = false) (hsec : isSec a = false) (write : Bool) (v : W32) :
    s.debugAccess write a v = s.answered .error := by
  simp [State.debugAccess, hclosed, hsec]

theorem partialWord_sram_word {a : Nat} (hsram : isSram a = true) (halign : a % 4 = 0) : partialWord a 4 = false := by
  rw [partialWord_word halign, hsram]
  rfl

/-! ### BAR2 -/

theorem pages_empty (fuel a : Nat) : pages fuel a 0 = [] := by
  cases fuel <;> simp [pages]

/-- A range within one page is one piece. -/
theorem pages_within_page {a len : Nat} (hlen : 0 < len) (hpage : a % 4096 + len ≤ 4096) (fuel : Nat) :
    pages (fuel + 2) a len = [(a, len)] := by
  have whole : min len (4096 - a % 4096) = len := by omega
  simp only [pages, Nat.pos_iff_ne_zero.mp hlen, whole, Nat.sub_self, if_true, if_false]

/-- A BAR2 write within a page, through a window that maps, is one write of the host port to memory. -/
theorem State.hostWrite_window {s : State} {addr : Nat} {bs : List W8} (hshut : s.hostShut = false) (hmaps : (s.winAddr addr).2 = true)
    (hbs : 0 < bs.length) (hpage : addr % 4096 + bs.length ≤ 4096) :
    s.hostWrite true addr bs = (s.portWrite .host (s.winAddr addr).1 bs).answered .done := by
  simp [State.hostWrite, hshut, pages_within_page hbs hpage, winWrites, State.winWrite, hmaps]

/-- A BAR2 read within a page, through a window that maps, to memory that answers with data. -/
theorem State.hostRead_window {s : State} {addr len : Nat} {bs : List W8} (hshut : s.hostShut = false) (hmaps : (s.winAddr addr).2 = true)
    (hlen : 0 < len) (hpage : addr % 4096 + len ≤ 4096) (hread : s.portRead .host (s.winAddr addr).1 len = s.answered (.data bs)) :
    s.hostRead true addr len = s.answered (.data bs) := by
  have piece : s.winRead addr len = s.answered (.data bs) := by simp [State.winRead, hmaps, hread]
  simp [State.hostRead, hshut, pages_within_page hlen hpage, winReads, piece, State.answered]

/-! ### BAR0 -/

/-- A BAR0 write of one aligned word is a write of the register there. -/
theorem State.hostWrite_word {s : State} {addr : Nat} (hshut : s.hostShut = false) (hreg : addr < 0x01000000) (halign : addr % 4 = 0)
    (b0 b1 b2 b3 : W8) :
    s.hostWrite false addr [b0, b1, b2, b3] = (s.masterWrite .host (0x40000000 + addr) (w32 (leNat [b0, b1, b2, b3]))).answered .done := by
  have within : barBeyond addr = false := by simpa [barBeyond] using hreg
  simp [State.hostWrite, hshut, within, bar0Whole, halign, wordsOf, bar0Writes]

/-- A read of one word answers what the register access answers: its data, or the refusal. -/
theorem bar0Words_one (off : Nat) (s : State) : bar0Words 1 off [] s = s.bar0Read off := by
  unfold bar0Words
  dsimp only
  split
  · next bs hanswer => rw [bar0Words, List.nil_append, State.answered, ← hanswer]
  · rfl

/-- A BAR0 read of one aligned word is a read of the register there. -/
theorem State.hostRead_word {s : State} {addr : Nat} (hshut : s.hostShut = false) (hreg : addr < 0x01000000) (halign : addr % 4 = 0) :
    s.hostRead false addr 4 = s.busRead .host (0x40000000 + addr) := by
  have within : barBeyond addr = false := by simpa [barBeyond] using hreg
  simp [State.hostRead, hshut, within, bar0Whole, halign, bar0Words_one, State.bar0Read]

/-- Above the register space BAR0 ignores writes and reads 0. -/
theorem State.hostWrite_beyond {s : State} {addr : Nat} (hshut : s.hostShut = false) (hbeyond : 0x01000000 ≤ addr) (bs : List W8) :
    s.hostWrite false addr bs = s.answered .done := by
  simp [State.hostWrite, hshut, barBeyond, hbeyond]

theorem State.hostRead_beyond {s : State} {addr : Nat} (hshut : s.hostShut = false) (hbeyond : 0x01000000 ≤ addr) (len : Nat) :
    s.hostRead false addr len = s.answered (.data (List.replicate len 0)) := by
  simp [State.hostRead, hshut, barBeyond, hbeyond]

/-- A host port shut by the straps does nothing (R390). -/
theorem State.hostWrite_shut {s : State} (hshut : s.hostShut = true) (bar2 : Bool) (addr : Nat) (bs : List W8) :
    s.hostWrite bar2 addr bs = s := if_pos hshut

theorem State.hostRead_shut {s : State} (hshut : s.hostShut = true) (bar2 : Bool) (addr len : Nat) : s.hostRead bar2 addr len = s :=
  if_pos hshut

theorem leNat_four (b0 b1 b2 b3 : W8) : w32 (leNat [b0, b1, b2, b3]) = b3 ++ b2 ++ b1 ++ b0 := by
  rw [leNat_cons b0 (leNat_cons b1 (leNat_cons b2 (leNat_single b3)))]
  simp [w32]

/-- An offset of BAR0's registers lies above the base of the register space without a carry. -/
theorem toNat_regSpace {addr : W32} (h : addr.toNat < 0x01000000) : (0x40000000 + addr).toNat = 0x40000000 + addr.toNat := by
  bv_omega

/-! ### The statement -/

theorem exec_debugPortAccess (write : Bool) (addr : BitVec 40) (data : W32) (s : State) :
    exec (.debugPortAccess write addr data) s = .next (s.debugAccess write addr.toNat data) := rfl

theorem exec_pcieMemWrite (bar2 : Bool) (addr : W32) (bs : List W8) (s : State) :
    exec (.pcieMemWrite bar2 addr bs) s = .next (s.hostWrite bar2 addr.toNat bs) := rfl

theorem exec_pcieMemRead (bar2 : Bool) (addr : W32) (len : BitVec 13) (s : State) :
    exec (.pcieMemRead bar2 addr len) s = .next (s.hostRead bar2 addr.toNat len.toNat) := rfl

theorem exec_registerWrite (m : Master) (addr value : W32) (s : State) :
    exec (.registerWrite m addr value) s = .next (s.masterWrite m addr.toNat value) := rfl

theorem exec_readClear (m : Master) (addr : W32) (s : State) : exec (.readClear m addr) s = .next (s.busRead m addr.toNat) := rfl

theorem toNat_requestLength {n : Nat} (h : n < 4097) : (BitVec.ofNat 13 n).toNat = n := by
  rw [BitVec.toNat_ofNat, Nat.mod_eq_of_lt]
  omega

/-- Settles O42: each port's access is the memory access or the register access that the lemmas above name. -/
theorem portAccessResults : Obligations.PortAccessResults := by
  intro s
  refine ⟨fun write addr data hclosed hfar => ?closed, fun addr data hopen husable => ?debugRead,
    fun addr data hopen husable => ?debugWrite, fun addr bs => ?window,
    fun addr b0 b1 b2 b3 hreg halign hshut => ⟨?wordWrite, ?wordRead⟩,
    fun addr bs hshut hbeyond hlen => ?beyond, fun bar2 addr bs n hshut => ?shut⟩
  case closed =>
    have hsec : isSec addr.toNat = false := by simpa [isSec] using hfar
    rw [exec_debugPortAccess, State.debugAccess_closed hclosed hsec]
  case debugRead =>
    obtain ⟨-, hsram, hcheck, hsound⟩ := husable
    rw [exec_debugPortAccess, State.debugAccess_sram hopen hsram, if_neg Bool.false_ne_true,
      State.portRead_of_sound (m := .debug) hcheck hsound]
  case debugWrite =>
    obtain ⟨halign, hsram, hcheck, hsound⟩ := husable
    have whole : (if partialWord addr.toNat 4 then Needs.both else Needs.write) = Needs.write := by
      rw [partialWord_sram_word hsram halign]
      rfl
    have stored : s.portWrite .debug addr.toNat (leBytes 4 data.toNat) = (s.bytesStored addr.toNat (leBytes 4 data.toNat)).answered .done :=
      State.portWrite_of_sound (m := .debug) whole hcheck hsound (Nat.succ_pos _)
    rw [Completes, exec_debugPortAccess, State.debugAccess_sram hopen hsram, if_pos rfl, stored]
    exact ⟨_, rfl, s.bytesStored_answered _ _⟩
  case window =>
    intro f hshut hmaps hbs hpage hsound
    refine ⟨fun hcheck => ?_, fun hcheck hlen => ?_⟩
    · have stored : s.portWrite .host (s.winAddr addr.toNat).1 bs = (s.bytesStored f bs).answered .done :=
        State.portWrite_of_sound rfl hcheck hsound hbs
      rw [Completes, exec_pcieMemWrite, State.hostWrite_window hshut hmaps hbs hpage, stored]
      exact ⟨_, rfl, s.bytesStored_answered f bs⟩
    · have read : s.portRead .host (s.winAddr addr.toNat).1 bs.length = s.answered (.data (s.rdBytes f bs.length)) :=
        State.portRead_of_sound hcheck hsound
      rw [exec_pcieMemRead, toNat_requestLength hlen, State.hostRead_window hshut hmaps hbs hpage read]
  case wordWrite =>
    refine ⟨_, exec_registerWrite _ _ _ s, ?_⟩
    rw [exec_pcieMemWrite, State.hostWrite_word hshut hreg halign, leNat_four, toNat_regSpace hreg]
  case wordRead =>
    rw [exec_pcieMemRead, exec_readClear, toNat_regSpace hreg, ← State.hostRead_word hshut hreg halign]
    rfl
  case beyond =>
    rw [exec_pcieMemWrite, exec_pcieMemRead, toNat_requestLength hlen, State.hostWrite_beyond hshut hbeyond,
      State.hostRead_beyond hshut hbeyond]
    exact ⟨rfl, rfl⟩
  case shut =>
    rw [exec_pcieMemWrite, exec_pcieMemRead, State.hostWrite_shut hshut, State.hostRead_shut hshut]
    exact ⟨rfl, rfl⟩

end Sys2Proof.Machine
end

section
/-! SUPPORT. The state after a power-on reset: no table has an entry, so every register reads its reset value and every unit is as its
chapter leaves it (R29, R43, R389). -/

namespace Sys2Proof.Machine

theorem State.reset_rd (a : Nat) : State.reset.rd a = resetValue a := rfl

theorem State.reset_lockstep {q : Nat} (h : q < 8) : State.reset.lockstep q = true := by
  simp [State.lockstep, h, State.reset, tabFind]

/-- A sequencer that is HALTED executes nothing. -/
theorem State.executes_of_halted {s : State} {q : Nat} (h : (s.seq q).run = .halted) : s.executes q = false := by
  simp [State.executes, h]

theorem State.reset_signal (k : Nat) : State.reset.signal k = false := BitVec.getLsbD_zero

theorem State.reset_laneState : ∀ n < 24, State.reset.get (F.LANE_STATE_state n) = 0 := by decide

/-- Settles O4: the lemmas above, and the reset values of three more status fields. -/
theorem resetValues : Obligations.ResetValues :=
  ⟨State.reset_rd, rfl, rfl, fun q _ => ⟨rfl, rfl, State.executes_of_halted rfl⟩,
    fun _ hp => State.reset_lockstep hp, fun k _ => State.reset_signal k, rfl, rfl, fun _ => ⟨rfl, rfl, rfl⟩, fun _ => rfl, rfl,
    fun _ _ => rfl, by decide, by decide, State.reset_laneState⟩

end Sys2Proof.Machine
end

section
/-! SUPPORT. The PLL of a link group whose four lanes are fused off takes neither a lock nor a loss of lock (R3), which the statement
about PLLs does not except. -/

namespace Sys2Proof.Machine

/-- The PLL of a fused-off link group takes no lock. -/
theorem State.pllLocked_of_fused {s : State} {p : Nat} (h : s.pllFused p = true) (skews : List W8) : s.pllLocked p skews = s := by
  simp [State.pllLocked, h]

/-- The GZ9-384-FE, whose lanes 12 to 23 and with them link groups 3 to 5 are fused off (R3, R418). -/
def halfDevice : State := { State.reset with variant := 1, lanesOff := 0xFFF000, clustersOff := 0xFF00, dieBOff := true }

theorem halfDevice_pllFused : halfDevice.pllFused 13 = true := by decide

theorem halfDevice_unlocked : natBit (halfDevice.get F.SYS_CLK_STAT_lock) 13 = false := by decide

/-- Refutes O53: the statement has PLL_LOCK set the lock bit of every PLL that is not locked. On the GZ9-384-FE the PLL of link
group 3 (bit 13) is fused off, so that PLL_LOCK leaves the state, and the bit clear. -/
theorem not_clockResetSupplyResults : ¬ Obligations.ClockResetSupplyResults := by
  intro h
  obtain ⟨-, locks, -⟩ := h halfDevice
  obtain ⟨t, hnext, hlocked, -⟩ := (locks 13 0 0 0 0).2 halfDevice_unlocked
  obtain rfl : halfDevice = t :=
    (State.pllLocked_of_fused halfDevice_pllFused _).symm.trans (Host.Outcome.next.inj hnext)
  exact Bool.false_ne_true (halfDevice_unlocked.symm.trans hlocked)

end Sys2Proof.Machine
end

section
/-! SUPPORT. The register, multiply, immediate and branch instructions of PYR-32: the number that each result word is, and the
statements that rest on it (R50, R53, R54, R57). -/

namespace Sys2Proof.Machine

/-! ### Comparisons as words -/

theorem b2w_slt (a b : W32) : b2w (a.slt b) = if a.toInt < b.toInt then 1 else 0 := by
  simp only [b2w, BitVec.slt, decide_eq_true_eq]

theorem b2w_ult (a b : W32) : b2w (a.ult b) = if a.toNat < b.toNat then 1 else 0 := by
  simp only [b2w, BitVec.ult, decide_eq_true_eq]

/-- Settles O9: each result is `State.alu_eq_withResult`, a comparison's word by `b2w_slt` or `b2w_ult`. -/
theorem registerAluResults : Obligations.RegisterAluResults := by
  intro q rd rs1 rs2 s hrun a b
  have result (v : W32) : Host.Outcome.next (s.alu q rd v) = (.next (s.withResult q rd v) : Host.Outcome State Fault Refusal) :=
    congrArg _ (State.alu_eq_withResult hrun rd v)
  exact ⟨result _, result _, result _, result _, result _, result _, result _, result _,
    b2w_slt a b ▸ result _, b2w_ult a b ▸ result _⟩

/-! ### Products and quotients -/

theorem toInt_wordOfInt {i : Int} (hlo : -2 ^ 31 ≤ i) (hhi : i < 2 ^ 31) : (wordOfInt i).toInt = i := by
  rw [wordOfInt_eq_ofInt, BitVec.toInt_ofInt, Int.bmod_eq_of_le] <;> omega

/-- The high half of a signed product is in the range of a word. -/
theorem toInt_mulh (a b : W32) : (wordOfInt (a.toInt * b.toInt / 2 ^ 32)).toInt = a.toInt * b.toInt / 2 ^ 32 := by
  have alo := a.le_two_mul_toInt
  have ahi := a.two_mul_toInt_lt
  have blo := b.le_two_mul_toInt
  have bhi := b.two_mul_toInt_lt
  have small : |a.toInt * b.toInt| ≤ 2 ^ 31 * 2 ^ 31 := by
    rw [abs_mul]
    exact mul_le_mul (abs_le.mpr ⟨by omega, by omega⟩) (abs_le.mpr ⟨by omega, by omega⟩) (abs_nonneg _) (by positivity)
  obtain ⟨plo, phi⟩ := abs_le.mp small
  exact toInt_wordOfInt (by omega) (by omega)

theorem toNat_mulhu (a b : W32) : (w32 (a.toNat * b.toNat / 2 ^ 32)).toNat = a.toNat * b.toNat / 2 ^ 32 := by
  have product : a.toNat * b.toNat < 2 ^ 32 * 2 ^ 32 := Nat.mul_lt_mul_of_lt_of_lt a.isLt b.isLt
  rw [w32, BitVec.toNat_ofNat, Nat.mod_eq_of_lt (Nat.div_lt_of_lt_mul product)]

@[simp] theorem divS_zero (a : W32) : divS a 0 = 0xFFFFFFFF := if_pos rfl

theorem divS_of_ne {a b : W32} (h : b ≠ 0) : divS a b = a.sdiv b := if_neg h

/-- The quotient of R53 but for the divide corners. -/
theorem toInt_divS {a b : W32} (h : b ≠ 0) (hfits : ¬(a = 0x80000000 ∧ b = 0xFFFFFFFF)) : (divS a b).toInt = a.toInt.tdiv b.toInt := by
  rw [divS_of_ne h]
  exact BitVec.toInt_sdiv_of_ne_or_ne a b (not_and_or.mp hfits)

@[simp] theorem divU_zero (a : W32) : divU a 0 = 0xFFFFFFFF := if_pos rfl

theorem toNat_divU {a b : W32} (h : b ≠ 0) : (divU a b).toNat = a.toNat / b.toNat := by
  rw [divU, if_neg h]
  exact BitVec.toNat_udiv

@[simp] theorem remS_zero (a : W32) : remS a 0 = a := if_pos rfl

theorem toInt_remS {a b : W32} (h : b ≠ 0) : (remS a b).toInt = a.toInt.tmod b.toInt := by
  rw [remS, if_neg h]
  exact BitVec.toInt_srem a b

@[simp] theorem remU_zero (a : W32) : remU a 0 = a := if_pos rfl

theorem toNat_remU {a b : W32} (h : b ≠ 0) : (remU a b).toNat = a.toNat % b.toNat := by
  rw [remU, if_neg h]
  exact BitVec.toNat_umod

theorem toInt_minS (a b : W32) : (minS a b).toInt = min a.toInt b.toInt := by
  unfold minS
  split <;> next h => simp only [BitVec.slt, decide_eq_true_eq] at h; omega

theorem toInt_maxS (a b : W32) : (maxS a b).toInt = max a.toInt b.toInt := by
  unfold maxS
  split <;> next h => simp only [BitVec.slt, decide_eq_true_eq] at h; omega

theorem toNat_minU (a b : W32) : (minU a b).toNat = min a.toNat b.toNat := by
  unfold minU
  split <;> next h => simp only [BitVec.ult, decide_eq_true_eq] at h; omega

theorem toNat_maxU (a b : W32) : (maxU a b).toNat = max a.toNat b.toNat := by
  unfold maxU
  split <;> next h => simp only [BitVec.ult, decide_eq_true_eq] at h; omega

/-- Settles O10: the result words are the numbers that the lemmas above name; a divisor of 0 and the one quotient that does not
fit a word have clauses of their own. -/
theorem multiplyDivideResults : Obligations.MultiplyDivideResults := by
  intro q rd rs1 rs2 s hrun a b
  have result (v : W32) : Host.Outcome.next (s.alu q rd v) = (.next (s.withResult q rd v) : Host.Outcome State Fault Refusal) :=
    congrArg _ (State.alu_eq_withResult hrun rd v)
  have byZero {f : W32 → W32 → W32} {v : W32} (h : f a 0 = v) : b = 0 → f a b = v := fun e => e ▸ h
  refine ⟨⟨_, result _, BitVec.toNat_mul a b⟩, ⟨_, result _, toInt_mulh a b⟩, ⟨_, result _, toNat_mulhu a b⟩,
    ⟨_, result _, byZero (divS_zero a), fun hb corner => ?corner, toInt_divS⟩, ⟨_, result _, byZero (divU_zero a), toNat_divU⟩,
    ⟨_, result _, byZero (remS_zero a), toInt_remS⟩, ⟨_, result _, byZero (remU_zero a), toNat_remU⟩,
    ⟨_, result _, toInt_minS a b⟩, ⟨_, result _, toInt_maxS a b⟩, ⟨_, result _, toNat_minU a b⟩, ⟨_, result _, toNat_maxU a b⟩⟩
  case corner =>
    obtain ⟨ha, hb'⟩ := corner
    show divS a b = 0x80000000
    rw [ha, hb']
    decide

/-! ### Immediates, leading zeros and set bits -/

theorem toInt_sx16 (imm : W16) : (sx16 imm).toInt = imm.toInt := BitVec.toInt_signExtend_of_le (by decide)

theorem toNat_lui (imm : W16) : (zx16 imm <<< 16).toNat = imm.toNat * 2 ^ 16 := by
  have := imm.isLt
  rw [zx16, BitVec.toNat_shiftLeft, BitVec.zeroExtend_eq_setWidth, BitVec.toNat_setWidth, Nat.shiftLeft_eq]
  omega

theorem natBit_toNat {n : Nat} (w : BitVec n) (k : Nat) : natBit w.toNat k = w.getLsbD k := by
  rw [natBit_eq]
  rfl

/-- The first `takeWhile` elements of a list satisfy the predicate, and the next one does not. -/
theorem takeWhile_range_length (p : Nat → Bool) (n : Nat) :
    let k := ((List.range n).takeWhile p).length
    k ≤ n ∧ (∀ i, i < k → p i = true) ∧ (k < n → p k = false) := by
  have len : ((List.range n).takeWhile p).length = (List.range n).findIdx (fun i => !p i) := by
    rw [List.takeWhile_eq_take_findIdx_not, List.length_take_of_le List.findIdx_le_length]
  intro k
  have hk : k = (List.range n).findIdx (fun i => !p i) := len
  refine ⟨?_, fun i hi => ?_, fun hlt => ?_⟩
  · rw [hk]
    exact List.findIdx_le_length.trans (by simp)
  · have := List.not_of_lt_findIdx (hk ▸ hi)
    simpa using this
  · have within : (List.range n).findIdx (fun i => !p i) < (List.range n).length := by simpa only [← hk, List.length_range] using hlt
    simpa [← hk] using List.findIdx_getElem (w := within)

/-- CLZ counts the clear bits above the highest set one. -/
theorem leadingZeros_spec (w : W32) : leadingZeros w ≤ 32 ∧ (∀ k, 32 - leadingZeros w ≤ k → w.getLsbD k = false) ∧
    (leadingZeros w < 32 → w.getLsbD (31 - leadingZeros w) = true) := by
  obtain ⟨hle, hclear, hset⟩ := takeWhile_range_length (fun k => !natBit w.toNat (31 - k)) 32
  refine ⟨hle, fun k hk => ?_, fun hlt => ?_⟩
  · by_cases far : 32 ≤ k
    · exact BitVec.getLsbD_of_ge w k far
    · have clear := hclear (31 - k) (by unfold leadingZeros at hk; omega)
      simpa [natBit_toNat, show 31 - (31 - k) = k by omega] using clear
  · have next := hset hlt
    rwa [Bool.not_eq_false', natBit_toNat] at next

theorem countBits_toNat {n : Nat} (k : Nat) (w : BitVec n) : countBits k w.toNat = ((List.range k).filter (fun i => w.getLsbD i)).length := by
  simp only [countBits, ← natBit_toNat]

theorem countBits_le (k x : Nat) : countBits k x ≤ k :=
  (List.length_filter_le _ _).trans_eq List.length_range

theorem toNat_w32 {n : Nat} (h : n < 2 ^ 32) : (w32 n).toNat = n := by
  rw [w32, BitVec.toNat_ofNat, Nat.mod_eq_of_lt h]

/-- Settles O11: the results by `State.alu_eq_withResult`, the counts of CLZ and POPC by the lemmas above. -/
theorem immediateResults : Obligations.ImmediateResults := by
  intro q rd rs1 sh imm s hrun a
  have result (v : W32) : Host.Outcome.next (s.alu q rd v) = (.next (s.withResult q rd v) : Host.Outcome State Fault Refusal) :=
    congrArg _ (State.alu_eq_withResult hrun rd v)
  obtain ⟨zeros_le, zeros_clear, zeros_set⟩ := leadingZeros_spec a
  have zeros : (w32 (leadingZeros a)).toNat = leadingZeros a := toNat_w32 (by omega)
  have ones : (w32 (countBits 32 a.toNat)).toNat = countBits 32 a.toNat := toNat_w32 (by have := countBits_le 32 a.toNat; omega)
  exact ⟨result _, result _, result _, result _, toInt_sx16 imm ▸ b2w_slt a (sx16 imm) ▸ result _, b2w_ult a (sx16 imm) ▸ result _,
    ⟨_, result _, toNat_lui imm⟩, result _, result _, result _,
    ⟨_, result _, zeros.symm ▸ zeros_le, zeros.symm ▸ zeros_clear, zeros.symm ▸ zeros_set⟩,
    ⟨_, result _, ones.trans (countBits_toNat 32 a)⟩⟩

/-! ### Traps and branches -/

theorem State.isShadow_of_executes {s : State} {q : Nat} (h : s.executes q = true) : s.isShadow q = false := by
  simp only [State.executes, Bool.and_eq_true, Bool.not_eq_true'] at h
  exact h.1.2

theorem State.run_of_executes {s : State} {q : Nat} (h : s.executes q = true) : (s.seq q).run = .running := by
  simp only [State.executes, Bool.and_eq_true, beq_iff_eq] at h
  exact h.1.1

theorem State.seqFused_of_executes {s : State} {q : Nat} (h : s.executes q = true) : s.seqFused q = false := by
  simp only [State.executes, Bool.and_eq_true, Bool.not_eq_true'] at h
  exact h.2

@[simp] theorem State.setSeq_ctxOf (s : State) (q : Nat) (c : Seq) (r : Nat) : (s.setSeq q c).ctxOf r = s.ctxOf r := rfl

@[simp] theorem State.setSeq_rdByte (s : State) (q : Nat) (c : Seq) (a : Nat) : (s.setSeq q c).rdByte a = s.rdByte a := rfl

@[simp] theorem State.setSeq_rd (s : State) (q : Nat) (c : Seq) (a : Nat) : (s.setSeq q c).rd a = s.rd a := rfl

/-- What replacing a context leaves of the other contexts. -/
theorem State.setSeq_others (s : State) (q : Nat) (c : Seq) : OtherSeqsSame q s (s.setSeq q c) :=
  fun _ hr => State.seq_setSeq_ne s c hr

/-- Outside a handler an exception saves what R72 says and goes to VBASE. -/
theorem State.trap_taken {s : State} {q : Nat} (hinh : (s.seq q).inh = false) (code : Nat) (tval : W32) :
    TrapTaken q code tval s (s.trap q code tval) := by
  have taken : s.trap q code tval = s.setSeq q ((s.seq q).trapped code tval) := by simp [State.trap, hinh]
  have context : (s.setSeq q ((s.seq q).trapped code tval)).seq q = (s.seq q).trapped code tval := State.seq_setSeq_same _ _ _
  rw [taken, TrapTaken, context]
  exact ⟨rfl, rfl, rfl, rfl, rfl, rfl, rfl, fun _ => rfl, rfl, s.setSeq_others q _, rfl, fun _ => rfl⟩

/-- A branch continues where its condition says. -/
theorem State.branch_eq {s : State} {q : Nat} (hrun : s.executes q = true) (taken : Bool) (off : W16) :
    s.branch q taken off = s.continuesAt q (if taken then (s.seq q).pc + 4 * off.signExtend 32 else (s.seq q).pc + 4) := by
  simp only [State.branch, hrun, if_true, State.continuesAt, off16, BitVec.mul_comm (4 : W32)]
  cases taken <;> rfl

theorem Seq.retiredTo_setX (c : Seq) (rd : BitVec 5) (v target : W32) :
    (c.setX rd v).retiredTo target = { c.setX rd v with pc := target, instret := c.instret + 1 } := by
  rw [Seq.retiredTo, Seq.setX_instret]

/-- Settles O15: a branch is `State.branch_eq` at its condition; a jump that traps is `State.trap_taken`. -/
theorem branchAndJumpResults : Obligations.BranchAndJumpResults := by
  intro q rd rs1 rs2 off joff s hrun a b pc there target
  have branches (taken : Bool) (p : Prop) [Decidable p] (h : taken = decide p) :
      Host.Outcome.next (s.branch q taken off) =
        (.next (s.continuesAt q (if p then there else pc + 4)) : Host.Outcome State Fault Refusal) := by
    rw [State.branch_eq hrun, h]
    simp only [decide_eq_true_eq]
    rfl
  have skips (taken : Bool) (p : Prop) [Decidable p] (h : taken = !decide p) :
      Host.Outcome.next (s.branch q taken off) =
        (.next (s.continuesAt q (if p then pc + 4 else there)) : Host.Outcome State Fault Refusal) := by
    rw [branches taken (¬p) (by simpa using h)]
    simp only [ite_not]
  have jal : execJal q rd joff s = .next (s.setSeq q { (s.seq q).setX rd (pc + 4) with
      pc := pc + 4 * joff.signExtend 32, instret := (s.seq q).instret + 1 }) := by
    simp only [execJal, hrun, if_true, Seq.retiredTo_setX, off21, BitVec.mul_comm (4 : W32), pc]
  have jump : execJalr q rd rs1 off s = .next (if target.toNat % 4 = 0 then s.setSeq q (((s.seq q).setX rd (pc + 4)).retiredTo target)
      else s.trap q trapTarget target) := by
    simp only [execJalr, hrun, if_true]
    rfl
  refine ⟨branches _ _ rfl, skips _ _ rfl, branches _ _ rfl, skips _ _ rfl, branches _ _ rfl, skips _ _ rfl, jal,
    fun aligned => ?link, fun misaligned hinh => ⟨_, jump, ?trap⟩⟩
  case link =>
    show execJalr q rd rs1 off s = _
    rw [jump, if_pos aligned, Seq.retiredTo_setX]
  case trap =>
    rw [if_neg misaligned]
    exact State.trap_taken hinh _ _

end Sys2Proof.Machine
end

section
/-! SUPPORT. The system instructions and the CSRs: what a dropped table buffer leaves, what a CSR instruction reads and writes, and
the statements that rest on it (R58, R59, R71, R72, R76, R165). -/

namespace Sys2Proof.Machine

/-! ### The table buffer dropped -/

/-- Dropping the table buffer touches a cluster's copy and its RC_TBUF alone (R165). -/
theorem State.tableDrop_cases (s : State) (q : Nat) : hasV q = false ∧ s.tableDrop q = s ∨
    hasV q = true ∧ q - 8 < 16 ∧ s.tableDrop q = (s.setSeq q { s.seq q with tbuf := [] }).set (F.RC_TBUF_valid (q - 8)) 0 := by
  unfold State.tableDrop
  split
  · next hv => exact Or.inr ⟨hv, cluster_of_hasV hv, rfl⟩
  · next hv => exact Or.inl ⟨Bool.eq_false_iff.mpr hv, rfl⟩

@[simp] theorem State.tableDrop_rdByte (s : State) (q x : Nat) : (s.tableDrop q).rdByte x = s.rdByte x := by
  obtain ⟨-, h⟩ | ⟨-, -, h⟩ := s.tableDrop_cases q <;> rw [h]
  rfl

@[simp] theorem State.tableDrop_ctxOf (s : State) (q r : Nat) : (s.tableDrop q).ctxOf r = s.ctxOf r := by
  obtain ⟨-, h⟩ | ⟨-, -, h⟩ := s.tableDrop_cases q <;> rw [h]
  rfl

@[simp] theorem State.tableDrop_isShadow (s : State) (q r : Nat) : (s.tableDrop q).isShadow r = s.isShadow r := by
  obtain ⟨-, h⟩ | ⟨-, -, h⟩ := s.tableDrop_cases q <;> rw [h]
  rfl

@[simp] theorem State.tableDrop_seqFused (s : State) (q r : Nat) : (s.tableDrop q).seqFused r = s.seqFused r := by
  obtain ⟨-, h⟩ | ⟨-, -, h⟩ := s.tableDrop_cases q <;> rw [h]
  rfl

@[simp] theorem State.tableDrop_signals (s : State) (q : Nat) : (s.tableDrop q).signals = s.signals := by
  obtain ⟨-, h⟩ | ⟨-, -, h⟩ := s.tableDrop_cases q <;> rw [h]
  rfl

@[simp] theorem State.tableDrop_signal (s : State) (q k : Nat) : (s.tableDrop q).signal k = s.signal k := by
  rw [State.signal, s.tableDrop_signals]
  rfl

@[simp] theorem State.tableDrop_chans (s : State) (q : Nat) : (s.tableDrop q).chans = s.chans := by
  obtain ⟨-, h⟩ | ⟨-, -, h⟩ := s.tableDrop_cases q <;> rw [h]
  rfl

@[simp] theorem State.tableDrop_sigWinner (s : State) (q : Nat) : (s.tableDrop q).sigWinner = s.sigWinner := by
  obtain ⟨-, h⟩ | ⟨-, -, h⟩ := s.tableDrop_cases q <;> rw [h]
  rfl

theorem State.tableDrop_seq_same (s : State) (q : Nat) :
    (s.tableDrop q).seq q = { s.seq q with tbuf := if hasV q then [] else (s.seq q).tbuf } := by
  obtain ⟨hv, h⟩ | ⟨hv, -, h⟩ := s.tableDrop_cases q <;> rw [h, hv]
  · rfl
  · exact State.seq_setSeq_same s q _

theorem State.tableDrop_seq_ne (s : State) {q r : Nat} (h : s.ctxOf r ≠ s.ctxOf q) : (s.tableDrop q).seq r = s.seq r := by
  obtain ⟨-, e⟩ | ⟨-, -, e⟩ := s.tableDrop_cases q <;> rw [e]
  exact State.seq_setSeq_ne s _ h

theorem State.tableDrop_rd (s : State) (q a : Nat) (ha : ∀ k, k < 16 → a ≠ R.RC_TBUF k) : (s.tableDrop q).rd a = s.rd a := by
  obtain ⟨-, e⟩ | ⟨-, cluster, e⟩ := s.tableDrop_cases q <;> rw [e]
  exact State.rd_set_ne _ _ (ha _ cluster)

theorem State.tableDrop_valid (s : State) {q : Nat} (h : hasV q = true) : (s.tableDrop q).get (F.RC_TBUF_valid (q - 8)) = 0 := by
  obtain ⟨hv, -⟩ | ⟨-, -, e⟩ := s.tableDrop_cases q
  · simp [h] at hv
  · rw [e]
    exact State.get_set_same _ (F.RC_TBUF_valid (q - 8)) 0 (Nat.le_refl 0) (Nat.succ_pos 31)

@[simp] theorem State.tableDrop_x (s : State) (q : Nat) (r : BitVec 5) : ((s.tableDrop q).seq q).x r = (s.seq q).x r := by
  rw [State.tableDrop_seq_same]
  rfl

@[simp] theorem State.tableDrop_executes (s : State) (q : Nat) : (s.tableDrop q).executes q = s.executes q := by
  simp only [State.executes, State.tableDrop_seq_same, State.tableDrop_isShadow, State.tableDrop_seqFused]

/-! ### The system instructions -/

/-- FENCE stores nothing and retires, a cluster's table buffer dropped. -/
theorem State.fence_stored {s : State} {q : Nat} (hrun : s.executes q = true) :
    Stored q 0 [] s (s.fence q) ∧ Retires q 0 0 s (s.fence q) := by
  have fence : s.fence q = (s.tableDrop q).setSeq q ((s.tableDrop q).seq q).retired := if_pos hrun
  rw [fence]
  refine ⟨⟨fun a => ?bytes, fun r hr => ?others, fun a ha => State.tableDrop_rd s q a ha⟩, ?retires⟩
  case bytes =>
    rw [if_neg (by simp), State.setSeq_rdByte, State.tableDrop_rdByte]
  case others => rw [State.seq_setSeq_ne _ _ (by simpa using hr), State.tableDrop_seq_ne s hr]
  case retires =>
    rw [Retires, State.seq_setSeq_same, State.tableDrop_seq_same]
    rfl

theorem State.fence_tbuf {s : State} {q : Nat} (hrun : s.executes q = true) (hv : hasV q = true) :
    ((s.fence q).seq q).tbuf = [] ∧ (s.fence q).get (F.RC_TBUF_valid (q - 8)) = 0 := by
  have fence : s.fence q = (s.tableDrop q).setSeq q ((s.tableDrop q).seq q).retired := if_pos hrun
  rw [fence]
  refine ⟨?_, s.tableDrop_valid hv⟩
  rw [State.seq_setSeq_same, State.tableDrop_seq_same, hv]
  rfl

/-- Settles O16: the traps are `State.trap_taken`, the fences `State.fence_stored`; ERET and WFI are one replaced context. -/
theorem systemInstructionResults : Obligations.SystemInstructionResults := by
  intro q s hrun
  have executing {t u : State} : (if s.executes q then t else u) = t := if_pos hrun
  have dropped : s.fenceI q = (s.fence q).setSeq q { (s.fence q).seq q with prefetch := [] } := executing
  obtain ⟨stored, retires⟩ := State.fence_stored hrun
  obtain ⟨bytes, others, -⟩ := stored
  refine ⟨fun hinh => ⟨_, congrArg Host.Outcome.next executing, State.trap_taken hinh _ _⟩,
    fun hclosed hinh => ⟨_, congrArg Host.Outcome.next (executing.trans (if_neg (by simp [hclosed]))), State.trap_taken hinh _ _⟩,
    fun hopen => ⟨_, congrArg Host.Outcome.next (executing.trans (if_pos hopen)), ?debug⟩,
    congrArg Host.Outcome.next executing, congrArg Host.Outcome.next executing,
    ⟨_, rfl, State.fence_stored hrun |>.1, retires, fun hcluster => State.fence_tbuf hrun (by simp [hasV, hcluster])⟩,
    ⟨_, rfl, ?prefetch⟩⟩
  case debug =>
    refine ⟨by rw [State.seq_setSeq_same], fun r => ?_, s.drawn.setSeq_others q _, rfl, fun _ => rfl⟩
    rw [State.seq_setSeq_same]
    rfl
  case prefetch =>
    rw [dropped]
    beta_reduce
    rw [State.seq_setSeq_same]
    refine ⟨rfl, congrArg Seq.pc retires, fun r => congrArg (fun c => c.x r) retires, fun a => ?_, fun r hr => ?_⟩
    · rw [State.setSeq_rdByte, bytes, if_neg (by simp)]
    · have same : (s.fence q).ctxOf r ≠ (s.fence q).ctxOf q := by simpa [State.fence, hrun] using hr
      rw [State.seq_setSeq_ne _ _ same, others r hr]

/-! ### CSRs -/

/-- A CSR instruction that writes a listed CSR: the old value to rd, then the new one to the CSR. -/
theorem State.csrOp_some {s : State} {q : Nat} {n : BitVec 12} (hrun : s.executes q = true) (hlisted : csrListed n.toNat = true)
    (rd rs1 : BitVec 5) (sub : Nat) (v : W32) :
    s.csrOp q rd rs1 sub n (some v) =
      s.setSeq q ((((s.seq q).csrLatched n.toNat).setX rd (s.csr q n.toNat)).csrWritten n.toNat v).retired := by
  simp only [State.csrOp, hrun, hlisted, Bool.not_true, Bool.false_eq_true, if_false]

/-- A CSR instruction that only reads a listed CSR. -/
theorem State.csrOp_none {s : State} {q : Nat} {n : BitVec 12} (hrun : s.executes q = true) (hlisted : csrListed n.toNat = true)
    (rd rs1 : BitVec 5) (sub : Nat) :
    s.csrOp q rd rs1 sub n none = s.setSeq q (((s.seq q).csrLatched n.toNat).setX rd (s.csr q n.toNat)).retired := by
  simp only [State.csrOp, hrun, hlisted, Bool.not_true, Bool.false_eq_true, if_false]

/-- A CSR instruction on a number that R59 does not list is illegal. -/
theorem State.csrOp_unlisted {s : State} {q : Nat} {n : BitVec 12} (hrun : s.executes q = true) (hlisted : csrListed n.toNat = false)
    (rd rs1 : BitVec 5) (sub : Nat) (new : Option W32) :
    ∃ word, s.csrOp q rd rs1 sub n new = s.trap q trapIllegal word := by
  refine ⟨iWord 0x31 rd rs1 (BitVec.ofNat 16 (sub * 2 ^ 12 + n.toNat)), ?_⟩
  simp only [State.csrOp, hrun, hlisted, Bool.not_true, Bool.not_false, Bool.false_eq_true, if_false, if_true, State.illegal]

theorem Seq.status_eq (c : Seq) :
    c.status = (if c.ie then 1 else 0) + (if c.pie then 2 else 0) + (if c.inh then 4 else 0) := by
  unfold Seq.status
  cases c.ie <;> cases c.pie <;> cases c.inh <;> rfl

theorem extractLsb'_low (w : W64) : w.truncate 32 = w.extractLsb' 0 32 := by
  apply BitVec.eq_of_toNat_eq
  simp

theorem extractLsb'_high (w : W64) : (w >>> 32).truncate 32 = w.extractLsb' 32 32 := by
  apply BitVec.eq_of_toNat_eq
  simp

theorem groupOf_le (q : Nat) : groupOf q ≤ 3 := by
  unfold groupOf
  repeat' split
  all_goals omega

/-- SEQID names its sequencer in bits [7:0]. -/
theorem State.seqId_mod (s : State) (q : Fin 48) : (s.seqId q).toNat % 256 = q := by
  have := groupOf_le q
  unfold State.seqId
  rw [BitVec.toNat_ofNat]
  split <;> omega

theorem Seq.csrWritten_sigmask {k : Nat} (h : k < 8) (c : Seq) (v : W32) :
    c.csrWritten (BitVec.ofNat 12 (0x20 + k)).toNat v = { c with sigmask := tabPut c.sigmask k v } := by
  interval_cases k <;> rfl

theorem Seq.csrLatched_sigmask (c : Seq) (n : Nat) : (c.csrLatched n).sigmask = c.sigmask := by
  unfold Seq.csrLatched
  split
  · rfl
  · split <;> rfl

theorem Seq.setX_sigmask (c : Seq) (r : BitVec 5) (v : W32) : (c.setX r v).sigmask = c.sigmask := by
  unfold Seq.setX
  split <;> rfl

/-- A write of SIGMASKk replaces that mask alone. -/
theorem Seq.sigmask_written {k : Nat} (h : k < 8) (c : Seq) (n : Nat) (rd : BitVec 5) (old v : W32) :
    ((((c.csrLatched n).setX rd old).csrWritten (BitVec.ofNat 12 (0x20 + k)).toNat v).retired).sigmask = tabPut c.sigmask k v := by
  rw [Seq.csrWritten_sigmask h]
  show tabPut ((c.csrLatched n).setX rd old).sigmask k v = _
  rw [Seq.setX_sigmask, Seq.csrLatched_sigmask]

/-- Settles O17: a listed CSR's write is `State.csrOp_some`; what remains is the equation of the two contexts, CSR by CSR. -/
theorem csrWriteResults : Obligations.CsrWriteResults := by
  intro q rd rs1 s hrun v c e
  have writes {n : BitVec 12} {d : Seq} (hlisted : csrListed n.toNat = true)
      (hd : ((((s.seq q).csrLatched n.toNat).setX rd (s.csr q n.toNat)).csrWritten n.toNat v).retired = d) : e n d :=
    congrArg Host.Outcome.next ((State.csrOp_some hrun hlisted rd rs1 0 v).trans (congrArg _ hd))
  have status : s.csr q 1 = _ := (s.seq q).status_eq
  have cycle : s.csr q 0x10 = _ := extractLsb'_low (s.seq q).cycle
  have instret : s.csr q 0x12 = _ := extractLsb'_low (s.seq q).instret
  refine ⟨writes rfl ?status, writes rfl ?epc, writes rfl ?cause, writes rfl ?tval, writes rfl ?vbase, writes rfl ?ieMask,
    writes rfl ?scratch, writes rfl ?timecmp, writes rfl ?timecmpH, writes rfl ?cycle, writes rfl ?cycleH, writes rfl ?instret,
    writes rfl ?instretH, writes rfl ?ip, ⟨s.seqId q, writes rfl ?id, s.seqId_mod q⟩, fun k hk => ⟨_, writes ?listed rfl, ?mask, ?masks⟩⟩
  case status => rw [show (1 : BitVec 12).toNat = 1 from rfl, status]; dsimp only [c]; unfold Seq.setX; split <;> rfl
  case cycle =>
    rw [show (0x10 : BitVec 12).toNat = 0x10 from rfl, cycle, ← extractLsb'_high]
    dsimp only [c]; unfold Seq.setX; split <;> rfl
  case instret =>
    rw [show (0x12 : BitVec 12).toNat = 0x12 from rfl, instret, ← extractLsb'_high]
    dsimp only [c]; unfold Seq.setX; split <;> rfl
  case listed => interval_cases k <;> rfl
  case mask => rw [Seq.sigmask_written hk, tabGet_put_same]
  case masks =>
    intro j hj
    rw [Seq.sigmask_written hk, tabGet_put_ne _ _ _ hj]
  all_goals dsimp only [c]; unfold Seq.setX; split <;> rfl

/-! ### CSRRS and CSRRC -/

@[simp] theorem Seq.csrWritten_g (c : Seq) (n : Nat) (v : W32) : (c.csrWritten n v).g = c.g := by
  unfold Seq.csrWritten
  split
  case h_10 => split <;> rfl
  all_goals rfl

@[simp] theorem Seq.csrWritten_pc (c : Seq) (n : Nat) (v : W32) : (c.csrWritten n v).pc = c.pc := by
  unfold Seq.csrWritten
  split
  case h_10 => split <;> rfl
  all_goals rfl

@[simp] theorem Seq.csrWritten_instret (c : Seq) (n : Nat) (v : W32) : (c.csrWritten n v).instret = c.instret := by
  unfold Seq.csrWritten
  split
  case h_10 => split <;> rfl
  all_goals rfl

/-- A read of a CSR latches at most a high half. -/
theorem Seq.csrLatched_eq (c : Seq) (n : Nat) :
    c.csrLatched n = { c with cycleH := (c.csrLatched n).cycleH, instretH := (c.csrLatched n).instretH } := by
  unfold Seq.csrLatched
  split
  · rfl
  · split <;> rfl

theorem Seq.setX_eq (c : Seq) (r : BitVec 5) (v : W32) : c.setX r v = { c with g := (c.setX r v).g } := by
  unfold Seq.setX
  split <;> rfl

theorem Seq.setX_g_congr {c d : Seq} (h : c.g = d.g) (r : BitVec 5) (v : W32) : (c.setX r v).g = (d.setX r v).g := by
  unfold Seq.setX
  split
  · exact h
  · exact congrArg (fun g => tabPut g r.toNat v) h

theorem Seq.x_congr {c d : Seq} (h : c.g = d.g) (r : BitVec 5) : c.x r = d.x r := by
  rw [Seq.x, Seq.x, h]

/-- The context in which a CSR's old value has gone to rd. -/
theorem Seq.csrRead_eq (c : Seq) (n : Nat) (rd : BitVec 5) (old : W32) :
    (c.csrLatched n).setX rd old =
      { c with g := (c.setX rd old).g, cycleH := (c.csrLatched n).cycleH, instretH := (c.csrLatched n).instretH } := by
  have same : ((c.csrLatched n).setX rd old).g = (c.setX rd old).g := Seq.setX_g_congr (by rw [c.csrLatched_eq n]) rd old
  rw [Seq.setX_eq, same, c.csrLatched_eq n]

/-- The CSRs whose value is a field that a read of another leaves alone. -/
theorem State.csr_setSeq_read (s : State) (q n : Nat) (rd : BitVec 5) (old : W32) :
    ∀ k ∈ [1, 2, 3, 4, 5, 6, 8, 0x14, 0x15, 0x20, 0x21, 0x22, 0x23, 0x24, 0x25, 0x26, 0x27],
      (s.setSeq q (((s.seq q).csrLatched n).setX rd old).retired).csr q k = s.csr q k := by
  intro k hk
  simp only [State.csr, State.seq_setSeq_same, Seq.csrRead_eq]
  fin_cases hk <;> rfl

/-- What a CSR instruction that may write leaves: rd holds the old value, and only its own context changes. -/
theorem State.csrOp_reads {s : State} {q : Nat} {n : BitVec 12} (hrun : s.executes q = true) (hlisted : csrListed n.toNat = true)
    (rd rs1 : BitVec 5) (sub : Nat) (v : W32) :
    let t := s.csrOp q rd rs1 sub n (if rs1 = 0 then none else some v)
    (t.seq q).pc = (s.seq q).pc + 4 ∧ (t.seq q).instret = (s.seq q).instret + 1 ∧
      (∀ j, (t.seq q).x j = ((s.seq q).setX rd (s.csr q n.toNat)).x j) ∧ OtherSeqsSame q s t ∧ t.regs = s.regs ∧ SameMemory s t ∧
      (rs1 = 0 → ∀ k ∈ [1, 2, 3, 4, 5, 6, 8, 0x14, 0x15, 0x20, 0x21, 0x22, 0x23, 0x24, 0x25, 0x26, 0x27], t.csr q k = s.csr q k) := by
  have same := Seq.csrRead_eq (s.seq q) n.toNat rd (s.csr q n.toNat)
  by_cases h0 : rs1 = 0
  · simp only [h0, if_true, State.csrOp_none hrun hlisted, State.seq_setSeq_same, same]
    exact ⟨rfl, rfl, fun j => Seq.x_congr rfl j, s.setSeq_others q _, rfl, fun _ => rfl,
      fun _ => same ▸ s.csr_setSeq_read q n.toNat rd _⟩
  · simp only [h0, if_false, State.csrOp_some hrun hlisted, State.seq_setSeq_same, same]
    refine ⟨?_, ?_, fun j => Seq.x_congr ?_ j, s.setSeq_others q _, rfl, fun _ => rfl, fun h => h.elim⟩
    · simp [Seq.retired]
    · simp [Seq.retired]
    · simp [Seq.retired]

/-- An unlisted CSR takes exception 2 at its own address. -/
theorem State.csrOp_traps {s : State} {q : Nat} {n : BitVec 12} (hrun : s.executes q = true) (hinh : (s.seq q).inh = false)
    (hlisted : csrListed n.toNat = false) (rd rs1 : BitVec 5) (sub : Nat) (new : Option W32) :
    let t := s.csrOp q rd rs1 sub n new
    (t.seq q).cause = 2 ∧ (t.seq q).epc = (s.seq q).pc := by
  obtain ⟨word, h⟩ := State.csrOp_unlisted hrun hlisted rd rs1 sub new
  obtain ⟨hepc, hcause, -⟩ := State.trap_taken hinh trapIllegal word
  rw [h]
  exact ⟨hcause, hepc⟩

/-- Settles O18: a set or clear is the write of `State.csrOp_some` with the bits combined, whose sub-operation number shows in
the illegal word alone. -/
theorem csrSetClearResults : Obligations.CsrSetClearResults := by
  intro q rd rs1 r n s hrun reads
  have scratch (sub : Nat) : Host.Outcome.next (s.csrOp q rd 0 sub 8 none) =
      (.next (s.withResult q rd (s.seq q).scratch) : Host.Outcome State Fault Refusal) :=
    congrArg _ ((State.csrOp_none (n := 8) hrun rfl rd 0 sub).trans (State.alu_eq_withResult hrun rd _ ▸ (if_pos hrun).symm))
  refine ⟨fun hlisted => ⟨⟨_, rfl, State.csrOp_reads hrun hlisted rd rs1 1 _⟩, ⟨_, rfl, State.csrOp_reads hrun hlisted rd rs1 2 _⟩⟩,
    fun hlisted hne => ⟨_, _, rfl, rfl, fun hset => ?set, fun hclear => ?clear⟩, ?readSet, ?readClear,
    fun hlisted hinh => ⟨⟨_, rfl, State.csrOp_traps hrun hinh hlisted rd rs1 0 _⟩, ⟨_, rfl, State.csrOp_traps hrun hinh hlisted rd rs1 1 _⟩,
      ⟨_, rfl, State.csrOp_traps hrun hinh hlisted rd rs1 2 _⟩⟩⟩
  case set =>
    show Host.Outcome.next (s.csrOp q rd r 0 n (some ((s.seq q).x r))) = .next (s.csrOp q rd rs1 1 n _)
    rw [if_neg hne, State.csrOp_some hrun hlisted, State.csrOp_some hrun hlisted, hset]
  case clear =>
    show Host.Outcome.next (s.csrOp q rd r 0 n (some ((s.seq q).x r))) = .next (s.csrOp q rd rs1 2 n _)
    rw [if_neg hne, State.csrOp_some hrun hlisted, State.csrOp_some hrun hlisted, hclear]
  case readSet => exact (congrArg (fun new => Host.Outcome.next (s.csrOp q rd 0 1 8 new)) (if_pos rfl)).trans (scratch 1)
  case readClear => exact (congrArg (fun new => Host.Outcome.next (s.csrOp q rd 0 2 8 new)) (if_pos rfl)).trans (scratch 2)

end Sys2Proof.Machine
end

section
/-! SUPPORT. Traps, double faults and interrupts: the addresses and words that trap, what a global supervisor condition touches, the line
that is due, and the statements that rest on them (R42, R59, R71 to R76, R435). -/

namespace Sys2Proof.Machine

/-! ### Misaligned and refused addresses -/

theorem State.load_misaligned {s : State} {q : Fin 48} {rs1 : BitVec 5} {imm : W16} {size : Nat} (hrun : s.executes q = true)
    (h : ((s.seq q).x rs1 + sx16 imm).toNat % size ≠ 0) (rd : BitVec 5) (signed : Bool) (found : Option CellErr) :
    s.load q rd rs1 imm size signed found = s.trap q trapLoadAlign ((s.seq q).x rs1 + sx16 imm) := by
  simp [State.load, hrun, h, -BitVec.toNat_add]

theorem State.store_misaligned {s : State} {q : Fin 48} {rs1 : BitVec 5} {imm : W16} {size : Nat} (hrun : s.executes q = true)
    (h : ((s.seq q).x rs1 + sx16 imm).toNat % size ≠ 0) (rd : BitVec 5) :
    s.store q rd rs1 imm size = s.trap q trapStoreAlign ((s.seq q).x rs1 + sx16 imm) := by
  simp [State.store, hrun, h, -BitVec.toNat_add]

theorem State.atomic_misaligned {s : State} {q : Nat} {rs1 : BitVec 5} (hrun : s.executes q = true)
    (h : ((s.seq q).x rs1).toNat % 4 ≠ 0) (rd : BitVec 5) (new : W32 → Option W32) :
    s.atomic q rd rs1 new = s.trap q trapStoreAlign ((s.seq q).x rs1) := by
  simp [State.atomic, hrun, h]

theorem not_isSram_of_ge {a : Nat} (h : 0x06000000 ≤ a) : isSram a = false := by
  simpa [isSram] using h

theorem isRegSpace_of_bounds {a : Nat} (hlo : 0x40000000 ≤ a) (hhi : a < 0x41000000) : isRegSpace a = true := by
  simp [isRegSpace, hlo, hhi]

/-- An atomic on the register space is refused without a report (R56). -/
theorem State.atomic_register {s : State} {q : Nat} {rs1 : BitVec 5} (hrun : s.executes q = true)
    (halign : ((s.seq q).x rs1).toNat % 4 = 0) (hlo : 0x40000000 ≤ ((s.seq q).x rs1).toNat)
    (hhi : ((s.seq q).x rs1).toNat < 0x41000000) (rd : BitVec 5) (new : W32 → Option W32) :
    s.atomic q rd rs1 new = s.trap q trapStore ((s.seq q).x rs1) := by
  have place : s.place q ((s.seq q).x rs1).toNat = .reg := by
    simp [State.place, not_isSram_of_ge (a := ((s.seq q).x rs1).toNat) (by omega), isRegSpace_of_bounds hlo hhi]
  simp [State.atomic, hrun, halign, place]

/-! ### Fetches -/

theorem not_isRom_of_bounds {a : Nat} (h : a < 0x70000000 ∨ 0x70040000 ≤ a) : isRom a = false := by
  simp only [isRom, Bool.and_eq_false_imp, decide_eq_true_eq, decide_eq_false_iff_not]
  omega

/-- A fetch from the register space is refused by R42 alone. -/
theorem State.fetchFault_register {a : Nat} (hlo : 0x40000000 ≤ a) (hhi : a < 0x41000000) (s : State) (q : Nat) :
    s.fetchFault q a = some s := by
  simp [State.fetchFault, not_isRom_of_bounds (a := a) (by omega), not_isSram_of_ge (a := a) (by omega), isRegSpace_of_bounds hlo hhi]

/-- A fetch through an aperture is refused, after at most a report of R27. -/
theorem State.fetchFault_aperture {a : Nat} (hlo : 0x80000000 ≤ a) (hhi : a < 0xC0000000) (s : State) (q : Nat) :
    ∃ u, s.fetchFault q a = some u ∧ Quiet s u ∧ ∀ f, s.aperture q a = some f → s.memAbsent f = false → u = s := by
  have rom : isRom a = false := not_isRom_of_bounds (by omega)
  have sram : isSram a = false := not_isSram_of_ge (by omega)
  have reg : isRegSpace a = false := by
    simp only [isRegSpace, Bool.and_eq_false_imp, decide_eq_true_eq, decide_eq_false_iff_not]
    omega
  have through : inAperture a = true := by simp [inAperture, hlo, hhi]
  cases leads : s.aperture q a with
  | none =>
    refine ⟨s.accessErr q a, by simp [State.fetchFault, rom, sram, reg, through, leads], s.post_quiet _ _ _ _, ?_⟩
    simp
  | some f =>
    refine ⟨if s.memAbsent f then s.accessErr q f else s, by simp [State.fetchFault, rom, sram, reg, through, leads], ?_, ?_⟩
    · split
      · exact s.post_quiet _ _ _ _
      · exact Touches.refl _ s
    · intro g hg present
      obtain rfl : f = g := Option.some.inj hg
      exact if_neg (by simp [present])

/-- A fetch from SRAM that is present and permitted is performed. -/
theorem State.fetchFault_sram {s : State} {q a : Nat} (hsram : isSram a = true) (hpresent : s.memAbsent a = false)
    (hpermit : s.permitted q a 4 Needs.fetch = true) : s.fetchFault q a = none := by
  simp [State.fetchFault, not_isRom_of_isSram hsram, hsram, hpresent, hpermit]

/-- An exception after a quiet report still saves what R72 says. -/
theorem State.trap_after_quiet {P : Nat → Prop} {s u : State} {q : Nat} (quiet : Touches P s u) (hinh : (s.seq q).inh = false)
    (code : Nat) (tval : W32) :
    ((u.trap q code tval).seq q).cause = w32 code ∧ ((u.trap q code tval).seq q).epc = (s.seq q).pc ∧
      ((u.trap q code tval).seq q).tval = tval ∧ ((u.trap q code tval).seq q).pc = (s.seq q).vbase := by
  have context := quiet.seq q
  have hinh' : (u.seq q).inh = false := by rw [context]; exact hinh
  obtain ⟨epc, cause, tv, -, -, -, pc, -⟩ := State.trap_taken hinh' code tval
  rw [context] at epc pc
  exact ⟨cause, epc, tv, pc⟩

/-- The error log and a count of errors touch their registers alone. -/
theorem State.memUE_seq (s : State) (reader a q : Nat) :
    (s.memUE reader a).seq q = { s.seq q with latched := ((s.memUE reader a).seq q).latched } :=
  (((s.bump F.MEM_UECNT_v).logError (memLoc 2 a 0)).post_quiet 63 0x441 (memLoc 2 a 0) (w32 (reader % 256))).seq q

/-- A word found uncorrectable is reported, and every context stays but for latched lines. -/
theorem State.found_double_seq (s : State) (reader a q : Nat) :
    let t := ((s.cellFound a (some .double)).eccRead reader a).2
    t.seq q = { s.seq q with latched := (t.seq q).latched } := by
  have found : tabFind (s.cellFound a (some .double)).cells (memWordBase a) = some .double := tabFind_put_same _ _ _
  have read : ((s.cellFound a (some .double)).eccRead reader a).2 = (s.cellFound a (some .double)).memUE reader a := by
    simp only [State.eccRead, found]
  intro t
  rw [show t = _ from read]
  exact (s.cellFound a (some .double)).memUE_seq reader a q

/-- Settles O19: each clause is one exception outside a handler, on the state itself or after a quiet report. -/
theorem trapEntries : Obligations.TrapEntries := by
  intro q rd rs1 rs2 imm word s hrun hinh pc a m
  have executing {t u : State} : (if s.executes q then t else u) = t := if_pos hrun
  have traps (code : Nat) (tval : W32) {t : State} {c : Instr} (hexec : exec c s = .next t) (h : t = s.trap q code tval) :
      Completes c s (TrapTaken q code tval s) := ⟨t, hexec, h ▸ State.trap_taken hinh code tval⟩
  have fetch (bad : Bool) : exec (.instructionAccessFault q bad) s = .next (match s.fetchFault q pc.toNat with
      | some t => t.trap q trapFetch pc
      | none => if bad then (((s.cellFound pc.toNat (some .double)).eccRead q pc.toNat).2).trap q trapFetchUe pc else s) :=
    congrArg Host.Outcome.next executing
  have atomics (new : W32 → Option W32) (halign : a.toNat % 4 = 0) (hlo : 0x40000000 ≤ a.toNat) (hhi : a.toNat < 0x41000000) :
      s.atomic q rd rs1 new = s.trap q trapStore a := State.atomic_register hrun halign hlo hhi rd new
  refine ⟨fun hillegal => traps 2 word rfl (by simp [hrun, hillegal, trapIllegal]), fun hlo hhi => traps 0 pc (fetch false) ?register,
    fun hlo hhi => ?aperture, fun hsram hpresent hpermit => ⟨_, fetch true, ?uncorrectable⟩,
    fun hm => ⟨traps 4 m rfl (State.load_misaligned hrun hm rd false none), traps 6 m rfl (State.store_misaligned hrun hm rd)⟩,
    fun hm => ⟨traps 4 m rfl (State.load_misaligned hrun hm rd true none), traps 4 m rfl (State.load_misaligned hrun hm rd false none),
      traps 6 m rfl (State.store_misaligned hrun hm rd)⟩,
    fun ha => ⟨traps 6 a rfl (State.atomic_misaligned hrun ha rd _), traps 6 a rfl (State.atomic_misaligned hrun ha rd _)⟩,
    fun halign hlo hhi => ⟨traps 7 a rfl (atomics _ halign hlo hhi), traps 7 a rfl (atomics _ halign hlo hhi)⟩⟩
  case register => rw [State.fetchFault_register hlo hhi]; rfl
  case aperture =>
    obtain ⟨u, hfault, quiet, same⟩ := s.fetchFault_aperture hlo hhi q
    obtain ⟨cause, epc, tval, vbase⟩ := State.trap_after_quiet quiet hinh trapFetch pc
    refine ⟨u.trap q trapFetch pc, (fetch false).trans (by rw [hfault]), cause, epc, tval, vbase, fun f leads present => ?_⟩
    rw [same f leads present]
    exact State.trap_taken hinh _ _
  case uncorrectable =>
    rw [State.fetchFault_sram hsram hpresent hpermit]
    have context := s.found_double_seq q pc.toNat q
    have hinh' : (((s.cellFound pc.toNat (some .double)).eccRead q pc.toNat).2.seq q).inh = false := by rw [context]; exact hinh
    obtain ⟨epc, cause, tval, -, -, -, vbase, -⟩ := State.trap_taken hinh' trapFetchUe pc
    rw [context] at epc vbase
    exact ⟨cause, epc, tval, vbase⟩

/-! ### Global supervisor conditions and double faults -/

/-- The registers that a condition of the global shutter writes, and those of a report. -/
def globalShutterReg (a : Nat) : Prop := a = R.SHUT_GCOND ∨ a = R.SHUT_GSTAT ∨ postReg a

theorem State.setLatch_global (s : State) (v : Nat) : Touches globalShutterReg s (s.setLatch .global v) :=
  ((s.set_touches F.SHUT_GSTAT_latch v).mono (fun _ h => Or.inr (Or.inl h))).trans
    ((State.set_touches _ F.SHUT_GSTAT_closed _).mono (fun _ h => Or.inr (Or.inl h)))

theorem State.setCond_global (s : State) (bit : Nat) (b : Bool) : Touches globalShutterReg s (s.setCond .global bit b) := by
  have cond (v : Nat) : Touches globalShutterReg s (s.set F.SHUT_GCOND_cond v) := (s.set_touches _ v).mono (fun _ h => Or.inl h)
  unfold State.setCond
  dsimp only
  split
  · refine (cond (natSetBit (s.condOf .global) bit b)).trans ?_
    unfold State.latchCause
    split
    · exact Touches.refl _ _
    · exact (State.setLatch_global _ _).trans ((State.post_quiet _ _ _ _ _).mono (fun _ h => Or.inr (Or.inr h)))
  · exact cond _

/-- The registers that a global supervisor condition writes but its own. -/
def gcondReg (a : Nat) : Prop := a = R.SUP_FAULTN ∨ globalShutterReg a

theorem not_gcondReg : ¬ gcondReg R.SUP_GCOND := by
  unfold gcondReg globalShutterReg postReg
  decide

/-- A global supervisor condition writes its bit, and else FAULT_N's latch and the global shutter (R435, R436). -/
theorem State.setGcond_touches (s : State) (i : Nat) (b : Bool) : Touches gcondReg (s.setBit F.SUP_GCOND_cond i b) (s.setGcond i b) := by
  have latch (t : State) (v : Nat) : Touches gcondReg t (t.setFaultLatch v) :=
    ((t.set_touches F.SUP_FAULTN_latch v).mono (fun _ h => Or.inl h)).trans
      ((State.set_touches _ F.SUP_FAULTN_asserted _).mono (fun _ h => Or.inl h))
  exact (latch _ _).trans ((State.setCond_global _ _ _).mono (fun _ h => Or.inr h))

theorem State.setGcond_touches_all (s : State) (i : Nat) (b : Bool) : Touches (fun _ => True) s (s.setGcond i b) :=
  ((s.set_touches _ _).mono (fun _ _ => trivial)).trans ((s.setGcond_touches i b).mono (fun _ _ => trivial))

/-- The condition's own bit reads as it was set. -/
theorem State.setGcond_bit (s : State) {i : Nat} (hi : i < 6) (b : Bool) : natBit ((s.setGcond i b).get F.SUP_GCOND_cond) i = b := by
  rw [(s.setGcond_touches i b).get F.SUP_GCOND_cond not_gcondReg]
  exact s.setBit_natBit F.SUP_GCOND_cond i b (by decide) (by decide) hi

/-- A double fault: FAULTED at the same place, the report in its buffer, a control pair's condition set (R73, R435). -/
theorem State.doubleFault_spec {s : State} (q : Nat) (hroom : s.room 63 = true) :
    let t := s.doubleFault q
    (t.seq q).run = .faulted ∧ (t.seq q).pc = (s.seq q).pc ∧ (∀ r, (t.seq q).x r = (s.seq q).x r) ∧
      (∃ e ∈ tabGet [] t.ev.buf 63, e.src = 63 ∧ e.kind = 0x4E0 ∧ e.loc = seqLoc q ∧ e.detail = BitVec.ofNat 32 (0x100 + q)) ∧
      SameMemory s t ∧ (q < 4 → natBit (t.get F.SUP_GCOND_cond) (q / 2) = true) := by
  let c : Seq := { s.seq q with run := .faulted, wait := .none }
  let e : Rec := ⟨63, 0x4E0, s.severityOf 0x4E0, 0xF, 0, seqLoc q, w32 (0x100 + q), false⟩
  let posted := (s.setSeq q c).postRec e
  have joined : e ∈ tabGet [] posted.ev.buf 63 := State.postRec_buf (s.setSeq q c) e hroom
  have result : s.doubleFault q = if q < 4 then posted.setGcond (q / 2) true else posted := rfl
  have quiet : Touches (fun _ => True) (s.setSeq q c) (s.doubleFault q) := by
    rw [result]
    have report := (State.postRec_quiet (s.setSeq q c) e).mono (Q := fun _ => True) (fun _ _ => trivial)
    split
    · exact report.trans (State.setGcond_touches_all _ _ _)
    · exact report
  have context := quiet.seq q
  rw [State.seq_setSeq_same] at context
  refine ⟨by rw [context], by rw [context], fun r => by rw [context]; rfl, ⟨e, ?held, rfl, rfl, rfl, rfl⟩, fun a => quiet.mem a, fun hq => ?_⟩
  case held =>
    rw [result]
    split
    · exact (State.setGcond_touches_all _ _ _).ev 63 e joined
    · exact joined
  · rw [result, if_pos hq]
    exact State.setGcond_bit posted (by omega) true

/-- Inside a handler an exception is a double fault. -/
theorem State.trap_in_handler {s : State} {q : Nat} (hinh : (s.seq q).inh = true) (code : Nat) (tval : W32) :
    s.trap q code tval = s.doubleFault q := if_pos hinh

/-- Settles O20: every exception inside a handler is `State.doubleFault_spec`. -/
theorem doubleFaultEntry : Obligations.DoubleFaultEntry := by
  intro q rd rs1 imm word s hrun m faults
  refine ⟨fun hinh hroom => ?_, fun hclear => ⟨_, congrArg Host.Outcome.next (State.csrOp_some (n := 1) hrun rfl 0 rs1 0 _), ?status⟩,
    fun hinh => ⟨_, congrArg Host.Outcome.next (if_pos hrun), State.trap_taken hinh _ _⟩⟩
  · have fault : faults (s.doubleFault q) := State.doubleFault_spec q hroom
    have traps (code : Nat) (tval : W32) {t : State} {c : Instr} (hexec : exec c s = .next t) (h : t = s.trap q code tval) :
        Completes c s faults :=
      ⟨t, hexec, (h.trans (State.trap_in_handler hinh code tval)) ▸ fault⟩
    exact ⟨traps trapCall 0 rfl (if_pos hrun), fun hillegal => traps trapIllegal word rfl (by simp [hrun, hillegal]),
      fun hm => ⟨traps _ m rfl (State.load_misaligned hrun hm rd false none), traps _ m rfl (State.store_misaligned hrun hm rd)⟩⟩
  case status =>
    beta_reduce
    rw [State.seq_setSeq_same]
    exact ⟨hclear, rfl, rfl, rfl⟩

/-! ### Interrupts and the timer -/

theorem find_range_least {p : Nat → Bool} {l n : Nat} (hl : l < n) (hp : p l = true) (hleast : ∀ k, k < l → p k = false) :
    (List.range n).find? p = some l := by
  rw [List.find?_eq_some_iff_getElem]
  refine ⟨hp, l, by simpa using hl, by simp, fun j hj => ?_⟩
  simpa using hleast j hj

/-- The lowest line that is pending and enabled is due. -/
theorem State.lineDue_of_least {s : State} {q l : Nat} (hl : l < 32) (hdue : (s.seqIp q &&& (s.seq q).ieMask).getLsbD l = true)
    (hleast : ∀ k, k < l → (s.seqIp q &&& (s.seq q).ieMask).getLsbD k = false) : s.lineDue q = some l :=
  find_range_least hl (by rw [natBit_toNat]; exact hdue) (fun k hk => by rw [natBit_toNat]; exact hleast k hk)

/-- Settles O21: the line due is taken by the command for it, and by WFI_WAKE where STATUS.ie = 1. -/
theorem interruptEntry : Obligations.InterruptEntry := by
  intro q l s hshadow hfused hl hdue hleast taken
  have line : s.lineDue q = some l := State.lineDue_of_least hl hdue hleast
  have takes (hie : (s.seq q).ie = true) : s.takeInterrupt q = s.setSeq q taken := by
    simp only [State.takeInterrupt, line, Seq.interrupted, hie]
    rfl
  refine ⟨fun hie hrun => ?take, fun hrun hwait => ⟨fun hie => ?trap, fun hie => ?resume⟩⟩
  case take =>
    have runs : ((s.seq q).run == .running || (s.seq q).run == .waiting) = true := by simpa using hrun
    have guard : ((s.seq q).run == .running || (s.seq q).run == .waiting) && (s.seq q).ie && !s.isShadow q && !s.seqFused q := by
      simp [runs, hie, hshadow, hfused]
    exact congrArg Host.Outcome.next ((if_pos guard).trans (takes hie))
  all_goals
    have guard : ((s.seq q).run == .waiting && (s.seq q).wait == .wfi && !s.isShadow q && (s.lineDue q).isSome) = true := by
      simp [hrun, hwait, hshadow, line]
  case trap => exact congrArg Host.Outcome.next ((if_pos guard).trans ((if_pos hie).trans (takes hie)))
  case resume => exact congrArg Host.Outcome.next ((if_pos guard).trans (if_neg (by simp [hie])))

/-- Line 0 is the comparator's. -/
theorem State.seqIp_timer (s : State) (q : Nat) : (s.seqIp q).getLsbD 0 = decide ((s.seq q).compare.toNat ≤ (s.seq q).cycle.toNat) := by
  have bit (b : Bool) : (b2w b).getLsbD 0 = b := by cases b <;> rfl
  simp only [State.seqIp, BitVec.getLsbD_or, BitVec.getLsbD_and, BitVec.getLsbD_shiftLeft, bit]
  simp

/-- Settles O22: CYCLE is moved up to TIMECMP where it has not reached it. -/
theorem timerLine : Obligations.TimerLine := by
  intro q s hshadow hfused
  by_cases reached : (s.seq q).compare.toNat ≤ (s.seq q).cycle.toNat
  · have stays : execTimecmpMatch q s = .next s := congrArg Host.Outcome.next (if_pos (by simp [reached]))
    refine ⟨s, stays, ?_, Nat.le_refl _, rfl, fun _ => rfl, fun _ _ => rfl, fun _ => rfl⟩
    rw [State.seqIp_timer]
    simpa using reached
  · have moves : execTimecmpMatch q s = .next (s.setSeq q { s.seq q with cycle := (s.seq q).compare }) :=
      congrArg Host.Outcome.next (if_neg (by simp [hshadow, hfused]; omega))
    refine ⟨_, moves, ?_, ?_, by rw [State.seq_setSeq_same], fun r => ?_, s.setSeq_others q _, fun _ => rfl⟩
    · rw [State.seqIp_timer, State.seq_setSeq_same]
      exact decide_eq_true (Nat.le_refl (s.seq q).compare.toNat)
    · rw [State.seq_setSeq_same]
      exact Nat.le_of_not_le reached
    · rw [State.seq_setSeq_same]
      rfl

end Sys2Proof.Machine
end

section
/-! SUPPORT. The atomics: one indivisible read and write of an SRAM word with no erroneous cell, and the statement that rests on it
(R56, R165, R330). -/

namespace Sys2Proof.Machine

@[simp] theorem State.tableStored_executes (s : State) (q f : Nat) : (s.tableStored q f).executes q = s.executes q := by
  have run : ((s.tableStored q f).seq q).run = (s.seq q).run := by rw [State.tableStored_seq_same]
  obtain e | ⟨-, e⟩ := s.tableStored_cases q f
  · rw [e]
  · simp only [State.executes, run]
    rw [e]
    rfl

@[simp] theorem State.bytesStored_executes (s : State) (a : Nat) (bs : List W8) (q : Nat) :
    (s.bytesStored a bs).executes q = s.executes q := by
  rw [State.bytesStored_eq]; rfl

/-- Bytes stored by a sequencer that then writes rd and retires. -/
theorem State.bytesStored_alu {s : State} {q : Nat} (hrun : s.executes q = true) (f : Nat) (bs : List W8) (rd : BitVec 5) (v : W32) :
    let t := ((s.bytesStored f bs).tableStored q f).alu q rd v
    Stored q f bs s t ∧ Retires q rd v s t := by
  intro t
  have result : t = ((s.bytesStored f bs).tableStored q f).withResult q rd v := State.alu_eq_withResult (by simpa using hrun) rd v
  rw [result]
  refine ⟨⟨fun x => ?bytes, fun r hr => ?others, fun x hx => ?registers⟩, ?retires⟩
  case bytes => exact ((s.bytesStored f bs).tableStored_rdByte q f x).trans (s.bytesStored_rdByte f bs x)
  case others =>
    rw [State.withResult, State.seq_setSeq_ne _ _ (by simpa using hr), State.tableStored_seq_ne _ _ (by simpa using hr),
      State.bytesStored_seq]
  case registers => exact (State.tableStored_rd _ q f x hx).trans (s.bytesStored_rd f bs x)
  case retires =>
    rw [Retires, State.withResult, State.seq_setSeq_same, State.tableStored_seq_same, State.bytesStored_seq]
    unfold Seq.setX
    split <;> rfl

/-- An atomic on a word that the initiator may read and write reads it whole; what memory receives is the operation's own. -/
theorem State.atomic_of_sound {s : State} {q : Fin 48} {rs1 : BitVec 5} (hrun : s.executes q = true)
    (hsram : isSram ((s.seq q).x rs1).toNat = true) (halign : ((s.seq q).x rs1).toNat % 4 = 0)
    (hcheck : s.memCheck q ((s.seq q).x rs1).toNat 4 Needs.both = none) (hsound : s.sound ((s.seq q).x rs1).toNat 4)
    (rd : BitVec 5) (new : W32 → Option W32) {f : Nat} (hf : ((s.seq q).x rs1).toNat = f) {old : W32} (hold : s.wordAt f = old) :
    (∀ v, new old = some v → s.atomic q rd rs1 new = ((s.bytesStored f (leBytes 4 v.toNat)).tableStored q f).alu q rd old) ∧
    (new old = none → s.atomic q rd rs1 new = s.alu q rd old) := by
  subst hf hold
  have place : s.place q ((s.seq q).x rs1).toNat = .mem ((s.seq q).x rs1).toNat := if_pos hsram
  have word (f : Nat) : w32 (leNat (s.rdBytes f 4)) = s.wordAt f := by
    rw [State.leNat_rdBytes_four]
    exact (BitVec.ofNat_toNat 32 _).trans (BitVec.setWidth_eq _)
  have reached : s.atomic q rd rs1 new = s.atomicMem q rd ((s.seq q).x rs1) new := by
    simp [State.atomic, hrun, halign, place, hsram]
  rw [reached]
  constructor
  · intro v hv
    simp only [State.atomicMem, hcheck, State.dataRead_of_sound hsound, word, hv]
    rfl
  · intro hv
    simp only [State.atomicMem, hcheck, State.dataRead_of_sound hsound, word, hv]

/-- Settles O14: each atomic is `State.atomic_of_sound` with the word it stores. -/
theorem atomicResults : Obligations.AtomicResults := by
  intro q rd rs1 rs2 rs3 s hrun f b old bytes hsram halign hcheck hsound
  have atomic (new : W32 → Option W32) := State.atomic_of_sound hrun hsram halign hcheck hsound rd new (f := f) rfl (old := old) rfl
  have stores (new : W32 → Option W32) (v : W32) (hnew : new old = some v) :
      Stored q f (bytes v) s (s.atomic q rd rs1 new) ∧ Retires q rd old s (s.atomic q rd rs1 new) := by
    rw [(atomic new).1 v hnew, leBytes_four]
    exact State.bytesStored_alu hrun f (bytes v) rd old
  refine ⟨⟨_, rfl, stores _ b rfl⟩, ⟨_, rfl, stores _ (old + b) rfl⟩, ⟨_, rfl, stores _ (old &&& b) rfl⟩,
    ⟨_, rfl, stores _ (old ||| b) rfl⟩, fun heq => ⟨_, rfl, stores _ b (if_pos heq)⟩, fun hne => ?_⟩
  exact congrArg Host.Outcome.next (((atomic _).2 (if_neg hne)).trans (State.alu_eq_withResult hrun rd old))

end Sys2Proof.Machine
end

section
/-! SUPPORT. Waits that complete and hardware signals: which bits an operation sets or clears, whom a set signal wakes, who wins a
consumed one, and the statements that rest on them (R76, R80, R81). -/

namespace Sys2Proof.Machine

/-! ### A waiting instruction completes -/

/-- The context in which a waiting instruction has completed with a code. -/
def Seq.completed (c : Seq) (rd : Nat) (code : W32) : Seq :=
  { c.setX (BitVec.ofNat 5 rd) code with run := .running, wait := .none, pc := c.pc + 4, instret := c.instret + 1 }

theorem State.completeWait_eq (s : State) (q rd : Nat) (code : W32) :
    s.completeWait q rd code = s.setSeq q ((s.seq q).completed rd code) := rfl

theorem Seq.x_setX (c : Seq) (rd r : BitVec 5) (v : W32) : (c.setX rd v).x r = if r = rd ∧ rd ≠ 0 then v else c.x r := by
  split
  · next h =>
    obtain ⟨rfl, hr⟩ := h
    exact Seq.x_setX_same c r v hr
  · next h =>
    by_cases hr : r = rd
    · have hzero : rd = 0 := by simpa [hr] using h
      rw [Seq.setX, if_pos hzero]
    · exact Seq.x_setX_ne c rd r v hr

/-- A context that a wait has completed, with memory as before, is what the statements call a wait done. -/
theorem waitDone_of_completed {q : Nat} {rd : BitVec 5} {code : W32} {s t : State} {c : Seq} (hseq : t.seq q = c.completed rd.toNat code)
    (hpc : c.pc = (s.seq q).pc) (hinstret : c.instret = (s.seq q).instret) (hg : c.g = (s.seq q).g) (hmem : SameMemory s t) :
    WaitDone q rd code s t := by
  rw [Seq.completed, BitVec.ofNat_toNat, BitVec.setWidth_eq] at hseq
  refine ⟨?_, ?_, ?_, ?_, fun r => ?_, hmem⟩ <;> rw [hseq]
  · exact congrArg (· + 4) hpc
  · exact congrArg (· + 1) hinstret
  · refine (Seq.x_setX c rd r code).trans ?_
    rw [Seq.x_congr hg]

/-- A context that differs from the retired one in the table buffer alone. -/
theorem retires_of_seq {q : Nat} {rd : BitVec 5} {v : W32} {s t : State} {b : List W32}
    (h : t.seq q = { (s.seq q).setX rd v with pc := (s.seq q).pc + 4, instret := (s.seq q).instret + 1, tbuf := b }) : Retires q rd v s t := by
  rw [Retires, h]

/-! ### The bits of the signals -/

theorem signalBit (k : Nat) {i : Nat} (hi : i < 256) : (BitVec.ofNat 256 (2 ^ (k % 256))).getLsbD i = (i == k % 256) := by
  rw [BitVec.getLsbD_ofNat, Nat.testBit_two_pow, Bool.beq_eq_decide_eq]
  simp [hi, eq_comm]

@[simp] theorem State.setSignal_signal (s : State) (k : Nat) {i : Nat} (hi : i < 256) :
    (s.setSignal k).signal i = (s.signal i || i == k % 256) := by
  rw [State.signal, State.setSignal, BitVec.getLsbD_or, signalBit k hi]
  rfl

@[simp] theorem State.clearSignal_signal (s : State) (k : Nat) {i : Nat} (hi : i < 256) :
    (s.clearSignal k).signal i = (s.signal i && i != k % 256) := by
  rw [State.signal, State.clearSignal, BitVec.getLsbD_and, BitVec.getLsbD_not, signalBit k hi]
  simp [State.signal, hi, bne]

/-! ### Waking -/

/-- From `s` to `t` only the sequencers' contexts, the Gust channels and the registers may differ. -/
def OnlyWaiters (s t : State) : Prop := t = { s with seqs := t.seqs, chans := t.chans, regs := t.regs }

theorem OnlyWaiters.refl (s : State) : OnlyWaiters s s := rfl

theorem OnlyWaiters.trans {s t u : State} (h : OnlyWaiters s t) (k : OnlyWaiters t u) : OnlyWaiters s u := by
  rw [OnlyWaiters] at h k ⊢
  rw [k, h]

theorem OnlyWaiters.foldl {f : State → Nat → State} (h : ∀ s k, OnlyWaiters s (f s k)) :
    ∀ (l : List Nat) (s : State), OnlyWaiters s (l.foldl f s)
  | [], s => OnlyWaiters.refl s
  | k :: l, s => (h s k).trans (OnlyWaiters.foldl h l (f s k))

theorem OnlyWaiters.ctxOf {s t : State} (h : OnlyWaiters s t) (q : Nat) : t.ctxOf q = s.ctxOf q := by
  rw [h]; rfl

theorem OnlyWaiters.isShadow {s t : State} (h : OnlyWaiters s t) (q : Nat) : t.isShadow q = s.isShadow q := by
  rw [h]; rfl

theorem OnlyWaiters.signals {s t : State} (h : OnlyWaiters s t) : t.signals = s.signals := by
  rw [h]

theorem OnlyWaiters.sameMemory {s t : State} (h : OnlyWaiters s t) : SameMemory s t := by
  intro a
  rw [h]
  rfl

theorem State.set_onlyWaiters (s : State) (f : Field) (v : Nat) : OnlyWaiters s (s.set f v) := rfl

theorem State.setChan_onlyWaiters (s : State) (c : Nat) (x : Chan) : OnlyWaiters s (s.setChan c x) := rfl

theorem State.chAdvance_onlyWaiters (s : State) (c : Nat) (next : Int) : OnlyWaiters s (s.chAdvance c next) :=
  ((s.setChan_onlyWaiters c _).trans (State.set_onlyWaiters _ _ _)).trans (State.set_onlyWaiters _ _ _)

theorem State.chAdvance_seq (s : State) (c : Nat) (next : Int) (q : Nat) : (s.chAdvance c next).seq q = s.seq q := rfl

theorem State.wakeSeq_onlyWaiters (s : State) (q : Nat) : OnlyWaiters s (s.wakeSeq q) := by
  unfold State.wakeSeq
  split <;> rfl

theorem State.wakeSeq_of_wait {s : State} {q n rd : Nat} {consume timed : Bool} (h : (s.seq q).wait = .signal n consume rd timed) :
    s.wakeSeq q = s.setSeq q ((s.seq q).completed rd 0) := by
  rw [State.wakeSeq, h]
  rfl

theorem State.wakeSeq_regs (s : State) (q : Nat) : (s.wakeSeq q).regs = s.regs := by
  unfold State.wakeSeq
  split <;> rfl

theorem State.wakeSeq_seq_ne (s : State) {q r : Nat} (h : s.ctxOf r ≠ s.ctxOf q) : (s.wakeSeq q).seq r = s.seq r := by
  unfold State.wakeSeq
  split
  · exact State.seq_setSeq_ne s _ h
  · rfl

theorem State.ctxOf_of_not_shadow {s : State} {q : Nat} (h : s.isShadow q = false) : s.ctxOf q = q := by
  rw [State.ctxOf, h]
  rfl

theorem State.isShadow_of_seqWaits {s : State} {n q : Nat} {consume : Bool} (h : s.seqWaits n consume q = true) : s.isShadow q = false := by
  simp only [State.seqWaits, Bool.and_eq_true, Bool.not_eq_true'] at h
  exact h.1.2

theorem State.seqWaits_of_wait {s : State} {q n rd : Nat} {consume timed : Bool} (hshadow : s.isShadow q = false)
    (hrun : (s.seq q).run = .waiting) (hwait : (s.seq q).wait = .signal n consume rd timed) : s.seqWaits n consume q = true := by
  simp [State.seqWaits, hshadow, hrun, hwait]

/-- Waking a list of sequencers leaves the contexts of all others. -/
theorem State.foldl_wakeSeq_seq_ne : ∀ (l : List Nat) (s : State) {q : Nat}, (∀ r ∈ l, s.ctxOf q ≠ s.ctxOf r) →
    (l.foldl State.wakeSeq s).seq q = s.seq q
  | [], _, _, _ => rfl
  | r :: l, s, q, h => by
    have first : (s.wakeSeq r).seq q = s.seq q := State.wakeSeq_seq_ne s (h r (by simp))
    refine (State.foldl_wakeSeq_seq_ne l (s.wakeSeq r) fun x hx => ?_).trans first
    simpa only [(s.wakeSeq_onlyWaiters r).ctxOf] using h x (List.mem_cons_of_mem r hx)

/-- Each of a list of different waiting sequencers, none a lockstep checker, completes with 0. -/
theorem State.foldl_wakeSeq_seq {q n rd : Nat} {consume timed : Bool} (l : List Nat) (s : State) (hdup : l.Nodup)
    (hshadow : ∀ r ∈ l, s.isShadow r = false) (hq : q ∈ l) (hwait : (s.seq q).wait = .signal n consume rd timed) :
    (l.foldl State.wakeSeq s).seq q = (s.seq q).completed rd 0 := by
  induction l generalizing s with
  | nil => cases hq
  | cons r l ih =>
    obtain ⟨hr, hdup⟩ := List.nodup_cons.mp hdup
    have ctx (x : Nat) (hx : x ∈ r :: l) : s.ctxOf x = x := State.ctxOf_of_not_shadow (hshadow x hx)
    have woken := s.wakeSeq_onlyWaiters r
    rw [List.foldl_cons]
    obtain rfl | hne := eq_or_ne q r
    · have rest : (l.foldl State.wakeSeq (s.wakeSeq q)).seq q = (s.wakeSeq q).seq q := by
        refine State.foldl_wakeSeq_seq_ne l _ fun x hx heq => hr ?_
        rw [woken.ctxOf, woken.ctxOf, ctx q List.mem_cons_self, ctx x (List.mem_cons_of_mem q hx)] at heq
        exact heq ▸ hx
      rw [rest, State.wakeSeq_of_wait hwait, State.seq_setSeq_same]
    · have same : (s.wakeSeq r).seq q = s.seq q := State.wakeSeq_seq_ne s (by rwa [ctx q hq, ctx r List.mem_cons_self])
      have later (x : Nat) (hx : x ∈ l) : (s.wakeSeq r).isShadow x = false :=
        (woken.isShadow x).trans (hshadow x (List.mem_cons_of_mem r hx))
      rw [ih (s.wakeSeq r) hdup later ((List.mem_cons.mp hq).resolve_left hne) (same ▸ hwait), same]

/-- The sequencers that wait for a signal without consuming it, in order. -/
def State.watchers (s : State) (sig : Nat) : List Nat := (List.range 48).filter (s.seqWaits sig false)

theorem State.wakeWatchers_onlyWaiters (s : State) (sig : Nat) : OnlyWaiters s (s.wakeWatchers sig) :=
  (OnlyWaiters.foldl State.wakeSeq_onlyWaiters _ s).trans (OnlyWaiters.foldl (fun s c => s.chAdvance_onlyWaiters c _) _ _)

/-- What a set signal makes of the sequencers is what waking the watchers makes of them: a Gust channel that goes on changes none. -/
theorem State.wakeWatchers_seq (s : State) (sig q : Nat) :
    (s.wakeWatchers sig).seq q = ((s.watchers sig).foldl State.wakeSeq s).seq q :=
  List.foldlRecOn (motive := fun (u : State) => u.seq q = ((s.watchers sig).foldl State.wakeSeq s).seq q) _ _ rfl
    fun _ h _ _ => h

/-- A sequencer that does not wait keeps its context. -/
theorem State.wakeWatchers_seq_idle {s : State} {sig q : Nat} (h : s.seqWaits sig false (s.ctxOf q) = false) :
    (s.wakeWatchers sig).seq q = s.seq q := by
  rw [State.wakeWatchers_seq]
  refine State.foldl_wakeSeq_seq_ne _ s fun r hr heq => ?_
  have waits : s.seqWaits sig false r = true := (List.mem_filter.mp hr).2
  rw [State.ctxOf_of_not_shadow (State.isShadow_of_seqWaits waits)] at heq
  rw [heq, waits] at h
  exact absurd h (by decide)

/-- A sequencer that watches the signal completes with 0. -/
theorem State.wakeWatchers_seq_woken {s : State} {sig rd : Nat} {timed : Bool} (q : Fin 48) (hshadow : s.isShadow q = false)
    (hrun : (s.seq q).run = .waiting) (hwait : (s.seq q).wait = .signal sig false rd timed) :
    (s.wakeWatchers sig).seq q = (s.seq q).completed rd 0 := by
  rw [State.wakeWatchers_seq]
  refine State.foldl_wakeSeq_seq _ s (List.nodup_range.filter _) (fun r hr => ?_) ?_ hwait
  · exact State.isShadow_of_seqWaits (List.mem_filter.mp hr).2
  · exact List.mem_filter.mpr ⟨List.mem_range.mpr q.isLt, State.seqWaits_of_wait hshadow hrun hwait⟩

/-- Nobody watches the signal: neither a sequencer nor a Gust channel. -/
def State.unwatched (s : State) (sig : Nat) : Prop :=
  (∀ m, m < 48 → s.seqWaits sig false m = false) ∧ ∀ c, c < 40 → s.chWaits sig false c = false

theorem State.wakeWatchers_unwatched {s : State} {sig : Nat} (h : s.unwatched sig) : s.wakeWatchers sig = s := by
  obtain ⟨hseq, hchan⟩ := h
  have seqs : (List.range 48).filter (s.seqWaits sig false) = [] :=
    List.filter_eq_nil_iff.mpr fun m hm => by simp [hseq m (List.mem_range.mp hm)]
  have chans : (List.range 40).filter (s.chWaits sig false) = [] :=
    List.filter_eq_nil_iff.mpr fun c hc => by simp [hchan c (List.mem_range.mp hc)]
  rw [State.wakeWatchers, seqs, chans]
  rfl

/-! ### A signal set -/

theorem State.signalSet_onlyWaiters (s : State) (k : Nat) :
    OnlyWaiters { s with signals := (s.signalSet k).signals } (s.signalSet k) := by
  unfold State.signalSet
  split
  · rfl
  · have woken := (s.setSignal k).wakeWatchers_onlyWaiters (k % 256)
    rw [woken.signals]
    exact woken

theorem State.signalSet_sameMemory (s : State) (k : Nat) : SameMemory s (s.signalSet k) := (s.signalSet_onlyWaiters k).sameMemory

theorem State.signalSet_signal (s : State) (k : Nat) {i : Nat} (hi : i < 256) :
    (s.signalSet k).signal i = (s.signal i || i == k % 256) := by
  unfold State.signalSet
  split
  · next set =>
    by_cases hik : i = k % 256 <;> simp [hik, set]
  · rw [State.signal, (State.wakeWatchers_onlyWaiters _ _).signals]
    exact s.setSignal_signal k hi

/-- Where nobody watches, or the signal is set already, setting it changes the signals alone. -/
theorem State.signalSet_unwatched {s : State} {k : Nat} (h : s.signal (k % 256) = true ∨ s.unwatched (k % 256)) :
    s.signalSet k = { s with signals := (s.signalSet k).signals } := by
  unfold State.signalSet
  split
  · rfl
  · next clear =>
    have nobody : (s.setSignal k).unwatched (k % 256) := h.resolve_left clear
    rw [State.wakeWatchers_unwatched nobody]
    rfl

theorem State.signalSet_seq_idle {s : State} {k q : Nat} (h : s.seqWaits (k % 256) false (s.ctxOf q) = false) :
    (s.signalSet k).seq q = s.seq q := by
  unfold State.signalSet
  split
  · rfl
  · exact State.wakeWatchers_seq_idle (s := s.setSignal k) h

theorem State.signalSet_seq_woken {s : State} {k rd : Nat} {timed : Bool} (q : Fin 48) (hclear : s.signal (k % 256) = false)
    (hshadow : s.isShadow q = false) (hrun : (s.seq q).run = .waiting) (hwait : (s.seq q).wait = .signal (k % 256) false rd timed) :
    (s.signalSet k).seq q = (s.seq q).completed rd 0 := by
  rw [State.signalSet, if_neg (by simp [hclear])]
  exact State.wakeWatchers_seq_woken (s := s.setSignal k) q hshadow hrun hwait

end Sys2Proof.Machine
end

section
/-! SUPPORT. Who wins a consumed signal, and what a signal instruction leaves; the statements on signals (R76, R80, R81). -/

namespace Sys2Proof.Machine

/-! ### Who waits, where one sequencer's context is replaced -/

theorem State.seqWaits_of_run {s : State} {q n : Nat} {consume : Bool} (h : (s.seq q).run = .running) : s.seqWaits n consume q = false := by
  simp [State.seqWaits, h]

theorem State.seq_of_ctxOf {s : State} {q r : Nat} (h : s.ctxOf r = s.ctxOf q) : s.seq r = s.seq q := by
  rw [State.seq, State.seq, h]

theorem State.seqWaits_congr {s t : State} {m : Nat} (hseq : t.seq m = s.seq m) (hshadow : t.isShadow m = s.isShadow m)
    (n : Nat) (consume : Bool) : t.seqWaits n consume m = s.seqWaits n consume m := by
  simp only [State.seqWaits, hseq, hshadow]

/-- A running sequencer that goes on running waits for nothing, before or after. -/
theorem State.seqWaits_setSeq_running {s : State} {q : Nat} {c : Seq} (hs : (s.seq q).run = .running) (hc : c.run = .running)
    (n : Nat) (consume : Bool) (m : Nat) : (s.setSeq q c).seqWaits n consume m = s.seqWaits n consume m := by
  by_cases hm : s.ctxOf m = s.ctxOf q
  · have after : ((s.setSeq q c).seq m).run = .running := by
      rw [State.seq_of_ctxOf (s := s.setSeq q c) (q := q) hm, State.seq_setSeq_same, hc]
    rw [State.seqWaits_of_run after, State.seqWaits_of_run (by rw [State.seq_of_ctxOf hm, hs])]
  · exact State.seqWaits_congr (State.seq_setSeq_ne s c hm) rfl n consume

/-- Where sequencer `q` begins to wait for a signal, it waits so, and every other sequencer as before. -/
theorem State.seqWaits_setSeq_waiting {s : State} {q n rd : Nat} {consume timed : Bool} {c : Seq} (hs : s.isShadow q = false)
    (hrun : c.run = .waiting) (hwait : c.wait = .signal n consume rd timed) (k : Bool) (m : Nat) (hm : m ≠ q → s.seqWaits n k m = false) :
    (s.setSeq q c).seqWaits n k m = (m == q && consume == k) := by
  obtain rfl | hne := eq_or_ne m q
  · have after : (s.setSeq m c).seq m = c := State.seq_setSeq_same s m c
    have shadow : (s.setSeq m c).isShadow m = false := hs
    simp [State.seqWaits, after, shadow, hrun, hwait]
  · have idle : (s.setSeq q c).seqWaits n k m = false := by
      by_cases hshadow : s.isShadow m = true
      · have shadow : (s.setSeq q c).isShadow m = true := hshadow
        simp [State.seqWaits, shadow]
      · have apart : s.ctxOf m ≠ s.ctxOf q := by
          rwa [State.ctxOf_of_not_shadow hs, State.ctxOf_of_not_shadow (Bool.eq_false_iff.mpr hshadow)]
        exact (State.seqWaits_congr (State.seq_setSeq_ne s c apart) rfl n k).trans (hm hne)
    simp [idle, hne]

/-! ### Who wins -/

theorem State.winner_of_single {s : State} {sig p : Nat} (h : s.consumers sig = [p]) : s.winner sig = some p := by
  rw [State.winner, h]
  cases tabFind s.sigWinner sig with
  | none => rfl
  | some last => by_cases hp : last < p <;> simp [List.find?, hp]

theorem filter_range_single {p : Nat → Bool} {q n : Nat} (hq : q < n) (h : ∀ m, m < n → p m = (m == q)) : (List.range n).filter p = [q] := by
  have same : (List.range n).filter p = (List.range n).filter (· == q) :=
    List.filter_congr fun m hm => h m (List.mem_range.mp hm)
  rw [same, List.filter_beq, List.count_eq_one_of_mem List.nodup_range (List.mem_range.mpr hq)]
  rfl

/-- No sequencer but `q` and no Gust channel waits to consume the signal: `q` is the one position of the round-robin. -/
theorem State.consumers_of_single {s : State} {sig : Nat} {q : Fin 48} (hseq : ∀ m, m < 48 → s.seqWaits sig true m = (m == q.val))
    (hchan : ∀ c, c < 40 → s.chWaits sig true c = false) : s.consumers sig = [q.val] := by
  have chans : (List.range 40).filter (s.chWaits sig true) = [] :=
    List.filter_eq_nil_iff.mpr fun c hc => by simp [hchan c (List.mem_range.mp hc)]
  rw [State.consumers, filter_range_single q.isLt hseq, chans]
  rfl

/-- The state in which a consuming operation has taken a signal that nobody watches. -/
def State.signalTaken (s : State) (sig pos : Nat) : State := { s.clearSignal sig with sigWinner := tabPut s.sigWinner sig pos }

theorem State.consume_unwatched {s : State} {sig : Nat} (h : s.unwatched sig) (pos : Nat) : s.consume sig pos = s.signalTaken sig pos := by
  rw [State.consume, State.wakeWatchers_unwatched h]
  rfl

/-- The only consumer takes a set signal that nobody watches, and its wait ends. -/
theorem State.sigWake_of_single {s : State} {sig : Nat} {q : Fin 48} (hset : s.signal sig = true) (hun : s.unwatched sig)
    (hcons : s.consumers sig = [q.val]) : s.sigWake sig = (s.signalTaken sig q).wakeSeq q := by
  have below : q.val < 64 := by omega
  simp only [State.sigWake, hset, if_true, State.winner_of_single hcons, State.consume_unwatched hun, below]

theorem State.signalTaken_signal (s : State) {sig : Nat} (hsig : sig < 256) (pos : Nat) {i : Nat} (hi : i < 256) :
    (s.signalTaken sig pos).signal i = (s.signal i && i != sig) := by
  have cleared := s.clearSignal_signal sig hi
  rwa [Nat.mod_eq_of_lt hsig] at cleared

/-! ### An instruction after the table buffer is dropped -/

theorem State.tableDrop_chWaits (s : State) (q n : Nat) (consume : Bool) (c : Nat) :
    (s.tableDrop q).chWaits n consume c = s.chWaits n consume c := by
  have stat : (s.tableDrop q).rd (R.GUST_CH_STAT c) = s.rd (R.GUST_CH_STAT c) := by
    refine State.tableDrop_rd s q _ fun k hk => ?_
    simp only [R.GUST_CH_STAT, R.RC_TBUF]
    omega
  have state : (s.tableDrop q).chState c = s.chState c := congrArg (fun w => bitsOf w 18 16) stat
  simp only [State.chWaits, State.chan, state, State.tableDrop_chans]

/-- The state in which sequencer `q` waits for a signal, its table buffer dropped. -/
def State.awaiting (s : State) (q sig : Nat) (consume : Bool) (rd : BitVec 5) (timed : Bool) : State :=
  (s.tableDrop q).setSeq q { (s.tableDrop q).seq q with run := .waiting, wait := .signal sig consume rd.toNat timed }

theorem State.awaiting_seqWaits {s : State} {q sig : Nat} {consume : Bool} (hs : s.isShadow q = false) (rd : BitVec 5) (timed : Bool)
    (k : Bool) {m : Nat} (hm : m ≠ q → s.seqWaits sig k m = false) :
    (s.awaiting q sig consume rd timed).seqWaits sig k m = (m == q && consume == k) := by
  refine State.seqWaits_setSeq_waiting (s := s.tableDrop q) (by simpa using hs) rfl rfl k m fun hne => ?_
  rw [← hm hne]
  by_cases hshadow : s.isShadow m = true
  · simp [State.seqWaits, hshadow]
  · have apart : s.ctxOf m ≠ s.ctxOf q := by
      rwa [State.ctxOf_of_not_shadow hs, State.ctxOf_of_not_shadow (Bool.eq_false_iff.mpr hshadow)]
    exact State.seqWaits_congr (s.tableDrop_seq_ne apart) (s.tableDrop_isShadow q m) sig k

/-- Nobody waits for the signal, neither a sequencer nor a Gust channel. -/
def State.alone (s : State) (sig : Nat) : Prop :=
  ∀ m, s.seqWaits sig true m = false ∧ s.seqWaits sig false m = false ∧ s.chWaits sig true m = false ∧ s.chWaits sig false m = false

/-- Where nobody else waits, a sequencer that begins a consuming wait has no competitor, and nobody watches. -/
theorem State.awaiting_single {s : State} {q : Fin 48} {sig : Nat} (hs : s.isShadow q = false) (h : s.alone sig) (rd : BitVec 5) (timed : Bool) :
    (s.awaiting q sig true rd timed).consumers sig = [q.val] ∧ (s.awaiting q sig true rd timed).unwatched sig := by
  have chans (c : Nat) (k : Bool) : (s.awaiting q sig true rd timed).chWaits sig k c = false := by
    refine (s.tableDrop_chWaits q sig k c).trans ?_
    obtain ⟨-, -, consuming, watching⟩ := h c
    cases k
    · exact watching
    · exact consuming
  constructor
  · refine State.consumers_of_single (fun m _ => ?_) fun c _ => chans c true
    rw [State.awaiting_seqWaits hs rd timed true fun _ => (h m).1]
    simp
  · refine ⟨fun m _ => ?_, fun c _ => chans c false⟩
    rw [State.awaiting_seqWaits hs rd timed false fun _ => (h m).2.1]
    simp

theorem State.sigwait_clear {s : State} {q : Nat} (hrun : s.executes q = true) (consume : Bool) (rd rs1 rs2 : BitVec 5)
    (hclear : s.signal (((s.seq q).x rs1).toNat % 256) = false) : s.sigwait q consume rd rs1 rs2 =
      s.awaiting q (((s.seq q).x rs1).toNat % 256) consume rd ((s.seq q).x rs2 != 0) := by
  simp only [State.sigwait, hrun, Seq.sigOf, State.tableDrop_x, hclear, if_true, Bool.false_eq_true, if_false]
  rfl

theorem State.sigwait_set {s : State} {q : Nat} (hrun : s.executes q = true) (consume : Bool) (rd rs1 rs2 : BitVec 5)
    {n : Nat} (hn : ((s.seq q).x rs1).toNat % 256 = n) (hset : s.signal n = true) : s.sigwait q consume rd rs1 rs2 =
      if consume then (s.awaiting q n consume rd ((s.seq q).x rs2 != 0)).sigWake n
      else (s.awaiting q n consume rd ((s.seq q).x rs2 != 0)).wakeSeq q := by
  simp only [State.sigwait, hrun, Seq.sigOf, State.tableDrop_x, hn, hset, if_true]
  rfl

theorem State.awaiting_seq (s : State) (q sig : Nat) (consume : Bool) (rd : BitVec 5) (timed : Bool) :
    (s.awaiting q sig consume rd timed).seq q =
      { (s.tableDrop q).seq q with run := .waiting, wait := .signal sig consume rd.toNat timed } := State.seq_setSeq_same _ q _

theorem State.awaiting_seq_ne {s : State} {q r : Nat} (h : s.ctxOf r ≠ s.ctxOf q) (sig : Nat) (consume : Bool) (rd : BitVec 5) (timed : Bool) :
    (s.awaiting q sig consume rd timed).seq r = s.seq r :=
  (State.seq_setSeq_ne (s.tableDrop q) _ (by simpa using h)).trans (State.tableDrop_seq_ne s h)

/-- A wait that has just begun and ends at once: what a state shows that differs from it in signals alone. -/
theorem State.awaiting_wakeSeq {s u : State} {q sig : Nat} {consume : Bool} {rd : BitVec 5} {timed : Bool}
    (hu : u = { s.awaiting q sig consume rd timed with signals := u.signals, sigWinner := u.sigWinner }) :
    WaitDone q rd 0 s (u.wakeSeq q) ∧ OtherSeqsSame q s (u.wakeSeq q) := by
  have before (r : Nat) : u.seq r = (s.awaiting q sig consume rd timed).seq r := by rw [hu]; rfl
  have ctx (r : Nat) : u.ctxOf r = s.ctxOf r := by
    rw [hu]
    exact s.tableDrop_ctxOf q r
  have waits : (u.seq q).wait = .signal sig consume rd.toNat timed := by rw [before, State.awaiting_seq]
  have woken : (u.wakeSeq q).seq q = (u.seq q).completed rd.toNat 0 := by
    rw [State.wakeSeq_of_wait waits, State.seq_setSeq_same]
  have same : u.seq q = { (s.tableDrop q).seq q with run := .waiting, wait := .signal sig consume rd.toNat timed } := by
    rw [before, State.awaiting_seq]
  rw [State.tableDrop_seq_same] at same
  refine ⟨waitDone_of_completed woken (by rw [same]) (by rw [same]) (by rw [same]) fun a => ?_, fun r hr => ?_⟩
  · rw [(u.wakeSeq_onlyWaiters q).sameMemory a, hu]
    exact s.tableDrop_rdByte q a
  · rw [State.wakeSeq_seq_ne u (by simpa only [ctx] using hr), before, State.awaiting_seq_ne hr]

/-- An instruction that drops the table buffer, may take a signal, and retires with a result. -/
theorem State.tableDrop_alu {s u : State} {q : Nat} (hrun : s.executes q = true)
    (hu : u = { s.tableDrop q with signals := u.signals, sigWinner := u.sigWinner }) (rd : BitVec 5) (v : W32) :
    Retires q rd v s (u.alu q rd v) ∧ OtherSeqsSame q s (u.alu q rd v) ∧ SameMemory s (u.alu q rd v) ∧ (u.alu q rd v).signals = u.signals := by
  have before (r : Nat) : u.seq r = (s.tableDrop q).seq r := by rw [hu]; rfl
  have ctx (r : Nat) : u.ctxOf r = s.ctxOf r := by
    rw [hu]
    exact s.tableDrop_ctxOf q r
  have running : u.executes q = true := by
    rw [hu]
    exact (s.tableDrop_executes q).trans hrun
  rw [State.alu_eq_withResult running]
  refine ⟨?_, fun r hr => ?_, fun a => ?_, rfl⟩
  · rw [Retires, State.withResult, State.seq_setSeq_same, before, State.tableDrop_seq_same]
    unfold Seq.setX
    split <;> rfl
  · rw [State.withResult, State.seq_setSeq_ne _ _ (by simpa only [ctx] using hr), before, State.tableDrop_seq_ne s hr]
  · rw [State.withResult, State.setSeq_rdByte, hu]
    exact s.tableDrop_rdByte q a

/-! ### The register forms -/

theorem State.unwatched_of_forall {s : State} {n : Nat} (h : ∀ m, s.seqWaits n false m = false ∧ s.chWaits n false m = false) :
    s.unwatched n := ⟨fun m _ => (h m).1, fun c _ => (h c).2⟩

theorem State.foldl_signalSet_signal {f : Nat → Nat} {i : Nat} (hi : i < 256) : ∀ (l : List Nat) (s : State),
    (l.foldl (fun t j => t.signalSet (f j)) s).signal i = (s.signal i || l.any fun j => i == f j % 256)
  | [], s => by simp
  | j :: l, s => by
    rw [List.foldl_cons, State.foldl_signalSet_signal hi l, State.signalSet_signal s (f j) hi, List.any_cons, Bool.or_assoc]

theorem State.foldl_signalSet_sameMemory {f : Nat → Nat} : ∀ (l : List Nat) (s : State),
    SameMemory s (l.foldl (fun t j => t.signalSet (f j)) s)
  | [], _, _ => rfl
  | j :: l, s, a => (State.foldl_signalSet_sameMemory l (s.signalSet (f j)) a).trans (s.signalSet_sameMemory (f j) a)

/-- Where nobody watches any signal, setting some changes the signals alone. -/
theorem State.foldl_signalSet_unwatched {f : Nat → Nat} : ∀ (l : List Nat) (s : State), (∀ n, s.unwatched n) →
    l.foldl (fun t j => t.signalSet (f j)) s = { s with signals := (l.foldl (fun t j => t.signalSet (f j)) s).signals }
  | [], _, _ => rfl
  | j :: l, s, h => by
    have first := State.signalSet_unwatched (k := f j) (Or.inr (h (f j % 256)))
    have later (n : Nat) : (s.signalSet (f j)).unwatched n := by
      rw [first]
      exact h n
    rw [List.foldl_cons, State.foldl_signalSet_unwatched l _ later, first]

/-- The bits of a word that lies at word `k` of the signals. -/
theorem any_wordBits {k : Nat} (hk : k < 8) (v : W32) {i : Nat} (hi : i < 256) :
    ((List.range 32).filter fun j => v.getLsbD j).any (fun j => i == (32 * k + j) % 256) = (i / 32 == k && v.getLsbD (i % 32)) := by
  rw [Bool.eq_iff_iff]
  simp only [List.any_eq_true, List.mem_filter, List.mem_range, beq_iff_eq, Bool.and_eq_true]
  constructor
  · rintro ⟨j, ⟨hj, hv⟩, heq⟩
    have place : i / 32 = k ∧ i % 32 = j := by omega
    exact ⟨place.1, place.2 ▸ hv⟩
  · rintro ⟨rfl, hv⟩
    exact ⟨i % 32, ⟨Nat.mod_lt i (by decide), hv⟩, by omega⟩

theorem getLsbD_wordAt {k : Nat} (v : W32) {i : Nat} (hi : i < 256) :
    (BitVec.ofNat 256 (v.toNat * 2 ^ (32 * k))).getLsbD i = (i / 32 == k && v.getLsbD (i % 32)) := by
  rw [BitVec.getLsbD_ofNat, Nat.testBit_mul_two_pow, Bool.eq_iff_iff]
  simp only [Bool.and_eq_true, decide_eq_true_eq, beq_iff_eq, hi, true_and, BitVec.testBit_toNat]
  constructor
  · rintro ⟨hle, hbit⟩
    have below : i - 32 * k < 32 := by
      by_contra far
      rw [BitVec.getLsbD_of_ge v _ (by omega)] at hbit
      exact absurd hbit (by decide)
    have place : i / 32 = k ∧ i - 32 * k = i % 32 := by omega
    exact ⟨place.1, place.2 ▸ hbit⟩
  · rintro ⟨rfl, hbit⟩
    have place : i - 32 * (i / 32) = i % 32 := by omega
    exact ⟨by omega, place ▸ hbit⟩

/-! ### The statements -/

/-- What SIGSET leaves (R80, R81). -/
theorem State.sigset_results {q : Fin 48} {s : State} (hrun : s.executes q = true) {n : Nat} (hn : n < 256) :
    let t := (s.setSeq q (s.seq q).retired).signalSet n
    (∀ i, i < 256 → t.signal i = (s.signal i || i == n)) ∧ Retires q 0 0 s t ∧ SameMemory s t ∧
      (s.signal n = true ∨ (∀ m, s.seqWaits n false m = false ∧ s.chWaits n false m = false) → t.regs = s.regs ∧ OtherSeqsSame q s t) ∧
      ∀ (r : Fin 48) (w : BitVec 5) (timed : Bool), s.signal n = false → s.isShadow r = false → (s.seq r).run = .waiting →
        (s.seq r).wait = .signal n false w.toNat timed → WaitDone r w 0 s t := by
  intro t
  have hmod : n % 256 = n := Nat.mod_eq_of_lt hn
  have running : (s.seq q).run = .running := State.run_of_executes hrun
  have waits (k : Bool) (m : Nat) : (s.setSeq q (s.seq q).retired).seqWaits n k m = s.seqWaits n k m :=
    State.seqWaits_setSeq_running (c := (s.seq q).retired) running running n k m
  have mem : SameMemory s t := State.signalSet_sameMemory _ n
  refine ⟨fun i hi => ?bits, ?retires, mem, fun hquiet => ?frame, fun r w timed hclear hshadow hrunr hwait => ?woken⟩
  case bits =>
    have bit := State.signalSet_signal (s.setSeq q (s.seq q).retired) n hi
    rwa [hmod] at bit
  case retires =>
    have ctx : (s.setSeq q (s.seq q).retired).ctxOf q = q :=
      State.ctxOf_of_not_shadow (s := s) (State.isShadow_of_executes hrun)
    have kept : t.seq q = (s.setSeq q (s.seq q).retired).seq q := by
      refine State.signalSet_seq_idle ?_
      rw [hmod, ctx, waits, State.seqWaits_of_run running]
    rw [Retires, kept, State.seq_setSeq_same]
    rfl
  case frame =>
    have only : t = { s.setSeq q (s.seq q).retired with signals := t.signals } := by
      refine State.signalSet_unwatched ?_
      rw [hmod]
      exact hquiet.imp id fun h => ⟨fun m _ => (waits false m).trans (h m).1, fun c _ => (h c).2⟩
    rw [only]
    exact ⟨rfl, s.setSeq_others q _⟩
  case woken =>
    have apart : s.ctxOf r ≠ s.ctxOf q := fun heq => by
      rw [State.seq_of_ctxOf heq, running] at hrunr
      cases hrunr
    have same : (s.setSeq q (s.seq q).retired).seq r = s.seq r := State.seq_setSeq_ne s _ apart
    have done : t.seq r = (s.seq r).completed w.toNat 0 := by
      rw [← same]
      exact State.signalSet_seq_woken r (by rw [hmod]; exact hclear) hshadow (by rw [same, hrunr]) (by rw [same, hwait, hmod])
    exact waitDone_of_completed done rfl rfl rfl mem

/-- What SIGTSTC leaves where the signal is clear or nobody else waits for it (R80, R81). -/
theorem State.sigtstc_results {q : Fin 48} {s : State} (hrun : s.executes q = true) (rd rs1 : BitVec 5) {n : Nat}
    (hn : ((s.seq q).x rs1).toNat % 256 = n) (h : s.alone n ∨ s.signal n = false) :
    let t := s.sigtstc q rd rs1
    Retires q rd (if s.signal n then 1 else 0) s t ∧ (∀ i, i < 256 → t.signal i = (s.signal i && i != n)) ∧ OtherSeqsSame q s t ∧
      SameMemory s t := by
  intro t
  have below : n < 256 := by omega
  cases hset : s.signal n
  · have result : t = (s.tableDrop q).alu q rd 0 := by
      simp [t, State.sigtstc, hrun, Seq.sigOf, hn, hset]
    obtain ⟨retires, others, mem, signals⟩ := State.tableDrop_alu hrun (u := s.tableDrop q) rfl rd 0
    rw [result]
    refine ⟨retires, fun i hi => ?_, others, mem⟩
    rw [State.signal, signals, State.tableDrop_signals]
    by_cases hin : i = n
    · rw [hin]
      simpa [State.signal] using hset
    · simp [State.signal, hin]
  · have lone : s.alone n := h.resolve_right (by simp [hset])
    have shadow := State.isShadow_of_executes hrun
    have wins : (s.awaiting q n true rd false).winner n = some q.val :=
      State.winner_of_single (State.awaiting_single shadow lone rd false).1
    have apart : (s.tableDrop q).unwatched n := by
      refine ⟨fun m _ => ?_, fun c _ => (s.tableDrop_chWaits q n false c).trans (lone c).2.2.2⟩
      by_cases hm : (s.tableDrop q).ctxOf m = (s.tableDrop q).ctxOf q
      · refine State.seqWaits_of_run ?_
        rw [State.seq_of_ctxOf hm, State.tableDrop_seq_same]
        exact State.run_of_executes hrun
      · have same : (s.tableDrop q).seq m = s.seq m := State.tableDrop_seq_ne s (by simpa using hm)
        exact (State.seqWaits_congr same (s.tableDrop_isShadow q m) n false).trans (lone m).2.1
    have result : t = ((s.tableDrop q).signalTaken n q).alu q rd 1 := by
      rw [← State.consume_unwatched apart]
      have taken : s.sigtstc q rd rs1 = if (s.awaiting q n true rd false).winner n = some q.val then ((s.tableDrop q).consume n q).alu q rd 1
          else ((s.tableDrop q).sigWake n).alu q rd 0 := by
        simp only [State.sigtstc, hrun, Seq.sigOf, State.tableDrop_x, hn, State.tableDrop_signal, hset, if_true]
        rfl
      rw [if_pos wins] at taken
      exact taken
    obtain ⟨retires, others, mem, signals⟩ := State.tableDrop_alu hrun (u := (s.tableDrop q).signalTaken n q) rfl rd 1
    rw [result]
    refine ⟨retires, fun i hi => ?_, others, mem⟩
    rw [State.signal, signals]
    exact ((s.tableDrop q).signalTaken_signal below q hi).trans (by rw [State.tableDrop_signal])

/-- What a wait that ends at once leaves, for a consuming wait with no competitor (R80, R81). -/
theorem State.sigwait_taken {q : Fin 48} {s : State} (hrun : s.executes q = true) {n : Nat} (hn : n < 256) (lone : s.alone n)
    (hset : s.signal n = true) (rd : BitVec 5) (timed : Bool) :
    let t := (s.awaiting q n true rd timed).sigWake n
    WaitDone q rd 0 s t ∧ (∀ i, i < 256 → t.signal i = (s.signal i && i != n)) ∧ OtherSeqsSame q s t := by
  intro t
  have kept (i : Nat) : (s.awaiting q n true rd timed).signal i = s.signal i := s.tableDrop_signal q i
  obtain ⟨single, unwatched⟩ := State.awaiting_single (State.isShadow_of_executes hrun) lone rd timed
  have result : t = ((s.awaiting q n true rd timed).signalTaken n q).wakeSeq q :=
    State.sigWake_of_single ((kept n).trans hset) unwatched single
  obtain ⟨done, others⟩ := State.awaiting_wakeSeq (s := s) (u := (s.awaiting q n true rd timed).signalTaken n q) (q := q) rfl
  rw [result]
  refine ⟨done, fun i hi => ?_, others⟩
  rw [State.signal, (State.wakeSeq_onlyWaiters _ _).signals, ← kept i]
  exact State.signalTaken_signal _ hn q hi

/-- Settles O23: SIGSET and SIGTSTC by their own lemmas, the waits by `State.awaiting_wakeSeq`, the register forms bit by bit. -/
theorem signalResults : Obligations.SignalResults := by
  intro q rd rs1 rs2 k v s hrun n alone
  have below : n < 256 := Nat.mod_lt _ (by decide)
  have begins (consume : Bool) : let t := s.awaiting q n consume rd ((s.seq q).x rs2 != 0)
      (t.seq q).run = .waiting ∧ (t.seq q).pc = (s.seq q).pc ∧
        (t.seq q).wait = .signal n consume rd.toNat ((s.seq q).x rs2 != 0) ∧ t.signals = s.signals := by
    refine ⟨?_, ?_, ?_, s.tableDrop_signals q⟩ <;> rw [State.awaiting_seq]
    rw [State.tableDrop_seq_same]
  refine ⟨⟨_, congrArg Host.Outcome.next (if_pos hrun), State.sigset_results hrun below⟩,
    ⟨_, congrArg Host.Outcome.next (if_pos hrun), ?sigclr⟩, ⟨_, congrArg Host.Outcome.next (if_pos hrun), ?sigtst⟩,
    fun h => ⟨_, rfl, State.sigtstc_results hrun rd rs1 rfl h⟩,
    fun hclear => ⟨_, congrArg Host.Outcome.next (State.sigwait_clear hrun true rd rs1 rs2 hclear), begins true⟩,
    fun hclear => ⟨_, congrArg Host.Outcome.next (State.sigwait_clear hrun false rd rs1 rs2 hclear), begins false⟩,
    fun lone hset => ⟨_, congrArg Host.Outcome.next (State.sigwait_set hrun true rd rs1 rs2 rfl hset),
      State.sigwait_taken hrun below lone hset rd _⟩,
    fun hset => ⟨_, congrArg Host.Outcome.next (State.sigwait_set hrun false rd rs1 rs2 rfl hset), ?seen⟩,
    ⟨_, rfl, ?setReg⟩, ⟨_, rfl, fun i hi => ?clrReg, rfl, rfl⟩⟩
  case sigclr =>
    refine ⟨fun i hi => ?_, ?_, rfl, s.setSeq_others q _, fun _ => rfl⟩
    · have bit := (s.setSeq q (s.seq q).retired).clearSignal_signal n hi
      rw [Nat.mod_eq_of_lt below] at bit
      exact bit
    · exact retires_of_seq (t := (s.setSeq q (s.seq q).retired).clearSignal n) (b := (s.seq q).tbuf) (State.seq_setSeq_same s q _)
  case sigtst =>
    obtain ⟨retires, others, mem, signals⟩ := State.tableDrop_alu hrun (u := s.tableDrop q) rfl rd (b2w (s.signal n))
    exact ⟨retires, signals.trans (s.tableDrop_signals q), others, mem⟩
  case seen =>
    obtain ⟨done, others⟩ := State.awaiting_wakeSeq (u := s.awaiting q n false rd ((s.seq q).x rs2 != 0)) rfl
    exact ⟨done, (State.wakeSeq_onlyWaiters _ _).signals.trans (s.tableDrop_signals q), others⟩
  case setReg =>
    refine ⟨fun i hi => ?_, State.foldl_signalSet_sameMemory _ s, fun quiet => ?_⟩
    · exact (State.foldl_signalSet_signal hi _ s).trans (by rw [any_wordBits k.isLt v hi])
    · have only := State.foldl_signalSet_unwatched (f := fun j => 32 * k.val + j) ((List.range 32).filter fun j => v.getLsbD j) s
        fun i => State.unwatched_of_forall (quiet i)
      exact ⟨(congrArg State.regs only :), (congrArg State.seqs only :)⟩
  case clrReg =>
    have bit := getLsbD_wordAt (k := k) v hi
    show (s.signals &&& ~~~(BitVec.ofNat 256 (v.toNat * 2 ^ (32 * k.val)))).getLsbD i = _
    rw [BitVec.getLsbD_and, BitVec.getLsbD_not, bit]
    simp [State.signal, hi]

/-- Settles O24: the only consumer wins (`State.sigWake_of_single`); a timeout completes the wait with 1. -/
theorem signalWaitEnds : Obligations.SignalWaitEnds := by
  intro q n rd timed s hshadow hrun
  constructor
  · intro hwait hset others watchers chans
    have single : s.consumers n.toNat = [q.val] := by
      refine State.consumers_of_single (fun m _ => ?_) fun c _ => (chans c).1
      obtain rfl | hne := eq_or_ne m q.val
      · simp [State.seqWaits_of_wait hshadow hrun hwait]
      · simp [others m hne, hne]
    have unwatched : s.unwatched n.toNat := ⟨fun m _ => watchers m, fun c _ => (chans c).2⟩
    have woken : ((s.signalTaken n.toNat q).wakeSeq q).seq q = (s.seq q).completed rd.toNat 0 := by
      rw [State.wakeSeq_of_wait (s := s.signalTaken n.toNat q) hwait, State.seq_setSeq_same]
      rfl
    refine ⟨_, congrArg Host.Outcome.next (State.sigWake_of_single hset unwatched single), ?_, State.wakeSeq_regs _ _, fun i hi => ?_⟩
    · exact waitDone_of_completed woken rfl rfl rfl (State.wakeSeq_onlyWaiters _ _).sameMemory
    · rw [State.signal, (State.wakeSeq_onlyWaiters _ _).signals]
      exact s.signalTaken_signal n.isLt q hi
  · intro consume hwait
    have timeout : exec (.sigwaitTimeout q) s = .next (s.completeWait q rd.toNat 1) := by
      show execSigwaitTimeout q s = _
      simp only [execSigwaitTimeout, hrun, hwait, hshadow, Bool.false_eq_true, if_false]
    exact ⟨_, timeout, waitDone_of_completed (State.seq_setSeq_same s q _) rfl rfl rfl (fun _ => rfl), rfl, rfl⟩

end Sys2Proof.Machine
end

section
/-! SUPPORT. What the vector instructions share: the cycles that RCn_VCYC counts first, lanes and masks written through a list of
active lanes, and the context that retires (R66, R67, R178). -/

namespace Sys2Proof.Machine

/-! ### Lanes -/

theorem Seq.lane_setLane_same (c : Seq) (v : BitVec 5) (k : Nat) (w : W32) : (c.setLane v k w).lane v k = w := by
  simp only [Seq.lane, Seq.setLane, tabGet_put_same]

theorem Seq.lane_setLane_ne (c : Seq) {v r : BitVec 5} {k j : Nat} (w : W32) (hk : k < 64) (hj : j < 64) (h : r ≠ v ∨ j ≠ k) :
    (c.setLane v k w).lane r j = c.lane r j := by
  have apart : r.toNat * 64 + j ≠ v.toNat * 64 + k := by
    intro heq
    have same : r.toNat = v.toNat ∧ j = k := by omega
    exact h.elim (fun hr => hr (BitVec.eq_of_toNat_eq same.1)) fun hjk => hjk same.2
  simp only [Seq.lane, Seq.setLane, tabGet_put_ne _ _ _ apart]

theorem Seq.setLanes_eq (c : Seq) (vd : BitVec 5) (xs : List (Nat × W32)) : c.setLanes vd xs = { c with v := (c.setLanes vd xs).v } :=
  List.foldlRecOn (motive := fun (d : Seq) => d = { c with v := d.v }) xs _ rfl fun _ h _ _ => by
    rw [h]
    rfl

/-- Lanes written from a function: those of the list receive its value, every other lane keeps its own. -/
theorem Seq.lane_setLanes (vd : BitVec 5) (f : Nat → W32) {r : BitVec 5} {j : Nat} (hj : j < 64) : ∀ (l : List Nat) (c : Seq),
    (∀ k ∈ l, k < 64) → (c.setLanes vd (l.map fun k => (k, f k))).lane r j = if r = vd ∧ j ∈ l then f j else c.lane r j
  | [], c, _ => by simp [Seq.setLanes]
  | k :: l, c, h => by
    have hk : k < 64 := h k List.mem_cons_self
    have first : c.setLanes vd ((k :: l).map fun k => (k, f k)) = (c.setLane vd k (f k)).setLanes vd (l.map fun k => (k, f k)) := rfl
    rw [first, Seq.lane_setLanes vd f hj l _ fun x hx => h x (List.mem_cons_of_mem k hx)]
    by_cases hr : r = vd
    · subst hr
      obtain rfl | hne := eq_or_ne j k
      · simp [Seq.lane_setLane_same]
      · simp [hne, Seq.lane_setLane_ne c (f k) hk hj (Or.inr hne)]
    · simp [hr, Seq.lane_setLane_ne c (f k) hk hj (Or.inl hr)]

theorem Seq.mem_active {c : Seq} {m : BitVec 3} {k : Nat} : k ∈ c.active m ↔ k < 64 ∧ (c.mask m).getLsbD k = true := by
  simp [Seq.active]

theorem Seq.active_pairwise (c : Seq) (m : BitVec 3) : (c.active m).Pairwise (· < ·) := List.pairwise_lt_range.filter _

/-- The lowest active lane heads the list. -/
theorem Seq.active_of_lowest {c : Seq} {m : BitVec 3} {k : Nat} (hk : k < 64) (hon : (c.mask m).getLsbD k = true)
    (hlow : ∀ j, j < k → (c.mask m).getLsbD j = false) : ∃ rest, c.active m = k :: rest := by
  have member : k ∈ c.active m := Seq.mem_active.mpr ⟨hk, hon⟩
  have order := c.active_pairwise m
  cases lanes : c.active m with
  | nil => simp [lanes] at member
  | cons low rest =>
    rw [lanes] at member order
    obtain rfl | later := List.mem_cons.mp member
    · exact ⟨rest, rfl⟩
    · have below : low < k := List.rel_of_pairwise_cons order later
      have on : (c.mask m).getLsbD low = true := (Seq.mem_active.mp (lanes ▸ List.mem_cons_self)).2
      simp [hlow low below] at on

/-! ### Masks -/

theorem natBit_foldl_setBit (f : Nat → Bool) {j : Nat} : ∀ (l : List Nat) (n : Nat),
    natBit ((l.map fun k => (k, f k)).foldl (fun n e => natSetBit n e.1 e.2) n) j = if j ∈ l then f j else natBit n j
  | [], n => by simp
  | k :: l, n => by
    rw [List.map_cons, List.foldl_cons, natBit_foldl_setBit f l, natBit_setBit]
    obtain rfl | hne := eq_or_ne j k
    · simp
    · simp [hne]

/-- Mask bits written from a function. -/
theorem getLsbD_maskWith (w : W64) (f : Nat → Bool) {j : Nat} (hj : j < 64) (l : List Nat) :
    (maskWith w (l.map fun k => (k, f k))).getLsbD j = if j ∈ l then f j else w.getLsbD j := by
  rw [maskWith, BitVec.getLsbD_ofNat, ← natBit_eq, natBit_foldl_setBit, natBit_toNat]
  simp [hj]

theorem Seq.mask_setMask_same {c : Seq} {m : BitVec 3} (h : m ≠ 0) (w : W64) : (c.setMask m w).mask m = w := by
  simp only [Seq.mask, Seq.setMask, if_neg h, tabGet_put_same]

theorem Seq.mask_setMask_ne (c : Seq) {m r : BitVec 3} (h : r ≠ m) (w : W64) : (c.setMask m w).mask r = c.mask r := by
  have apart : r.toNat ≠ m.toNat := fun heq => h (BitVec.eq_of_toNat_eq heq)
  simp only [Seq.mask, Seq.setMask, tabGet_put_ne _ _ _ apart]

/-! ### The cycles that a vector instruction counts -/

/-- The state in which a vector instruction of a cluster's sequencer does its work: its cycles are counted in RCn_VCYC (R178). -/
def State.vecStart (s : State) (q : Nat) : State := s.drawn.bumpBy (F.RC_VCYC_cycles (q - 8)) s.freeN

@[simp] theorem State.vecStart_seq (s : State) (q r : Nat) : (s.vecStart q).seq r = s.seq r := rfl

@[simp] theorem State.vecStart_ctxOf (s : State) (q r : Nat) : (s.vecStart q).ctxOf r = s.ctxOf r := rfl

@[simp] theorem State.vecStart_rdByte (s : State) (q a : Nat) : (s.vecStart q).rdByte a = s.rdByte a := rfl

theorem State.vecStart_rd (s : State) {q a : Nat} (h : a ≠ R.RC_VCYC (q - 8)) : (s.vecStart q).rd a = s.rd a :=
  State.rd_set_ne (f := F.RC_VCYC_cycles (q - 8)) s.drawn _ h

theorem State.vecStart_get (s : State) {q : Nat} {f : Field} (h : f.addr ≠ R.RC_VCYC (q - 8)) : (s.vecStart q).get f = s.get f := by
  simp only [State.get, s.vecStart_rd h]

theorem State.vecStart_flag (s : State) {q : Nat} {f : Field} (h : f.addr ≠ R.RC_VCYC (q - 8)) : (s.vecStart q).flag f = s.flag f := by
  simp only [State.flag, s.vecStart_get h]

/-- On a cluster's sequencer a vector instruction does its work after its cycles are counted. -/
theorem State.vecInsn_of_cluster {s : State} {q : Nat} (hrun : s.executes q = true) (hv : hasV q = true) (word : W32)
    (f : State → State) : s.vecInsn q word true f = f (s.vecStart q) := by
  simp [State.vecInsn, hrun, hv, State.vecStart]

/-- Elsewhere, or with m0 as destination, it is an illegal instruction. -/
theorem State.vecInsn_illegal {s : State} {q : Nat} {ok : Bool} (hrun : s.executes q = true) (h : hasV q = false ∨ ok = false)
    (word : W32) (f : State → State) : s.vecInsn q word ok f = s.trap q trapIllegal word := by
  have refused : (!hasV q || !ok) = true := by simpa using h
  simp [State.vecInsn, hrun, refused, State.illegal]

theorem hasV_of_bounds {q : Nat} (hlo : 8 ≤ q) (hhi : q < 24) : hasV q = true := by
  have far : ¬ q < 4 ∧ ¬ q < 8 := by omega
  simp [hasV, groupOf, far, hhi]

theorem hasV_outside {q : Nat} (h : q < 8 ∨ 24 ≤ q) : hasV q = false := by
  unfold hasV groupOf
  split
  · rfl
  · split
    · rfl
    · rw [if_neg (by omega)]
      rfl

/-- A context that retires after a vector instruction: the frame that all of them keep. -/
theorem State.vecDone_frame {s : State} {q : Nat} {d : Seq} (hpc : d.pc = (s.seq q).pc) (hinstret : d.instret = (s.seq q).instret) :
    VectorFrame q s ((s.vecStart q).vecDone q d) := by
  have after : ((s.vecStart q).vecDone q d).seq q = d.retired := State.seq_setSeq_same _ q _
  refine ⟨?_, ?_, fun r hr => ?_, fun a => rfl, fun a ha => s.vecStart_rd ha⟩
  · rw [after, ← hpc]
    rfl
  · rw [after, ← hinstret]
    rfl
  · exact State.seq_setSeq_ne (s.vecStart q) _ hr

/-- A lane-by-lane result: what it leaves. -/
theorem State.vecDone_lanes (s : State) (q : Nat) (m : BitVec 3) (vd : BitVec 5) (f : Nat → W32) :
    let t := (s.vecStart q).vecDone q ((s.seq q).setLanes vd (((s.seq q).active m).map fun k => (k, f k)))
    VectorFrame q s t ∧ LanesGet q m vd f s t := by
  intro t
  have after : t.seq q = ((s.seq q).setLanes vd (((s.seq q).active m).map fun k => (k, f k))).retired := State.seq_setSeq_same _ q _
  have bounded (k : Nat) (hk : k ∈ (s.seq q).active m) : k < 64 := (Seq.mem_active.mp hk).1
  have written := (s.seq q).setLanes_eq vd (((s.seq q).active m).map fun k => (k, f k))
  have lane (r : BitVec 5) (k : Nat) (hk : k < 64) :
      (t.seq q).lane r k = if r = vd ∧ k ∈ (s.seq q).active m then f k else (s.seq q).lane r k := by
    rw [after]
    exact Seq.lane_setLanes vd f hk _ (s.seq q) bounded
  refine ⟨State.vecDone_frame (by rw [written]) (by rw [written]), fun k hk => ?_, fun r k hr hk => ?_, fun r => ?_, fun r => ?_⟩
  · rw [lane vd k hk]
    simp [Seq.mem_active, hk]
  · rw [lane r k hk, if_neg fun h => hr h.1]
  · rw [after, written]
    rfl
  · rw [after, written]
    rfl

/-- A mask written: what it leaves. -/
theorem State.vecDone_mask (s : State) (q : Nat) {md : BitVec 3} (hmd : md ≠ 0) (w : W64) :
    let t := (s.vecStart q).vecDone q ((s.seq q).setMask md w)
    VectorFrame q s t ∧ MaskGets q md w.getLsbD s t := by
  intro t
  have after : t.seq q = ((s.seq q).setMask md w).retired := State.seq_setSeq_same _ q _
  refine ⟨State.vecDone_frame rfl rfl, fun k _ => ?_, fun r hr => ?_, fun r k _ => ?_, fun r => ?_⟩ <;> rw [after]
  · exact congrArg (fun x => BitVec.getLsbD x k) (Seq.mask_setMask_same hmd w)
  · exact Seq.mask_setMask_ne (s.seq q) hr w
  · rfl
  · rfl

/-- A general register written by a vector instruction. -/
theorem State.vecDone_setX (s : State) (q : Nat) (rd : BitVec 5) (v : W32) :
    let t := (s.vecStart q).vecDone q ((s.seq q).setX rd v)
    VectorFrame q s t ∧ ∀ r, (t.seq q).x r = if r = rd ∧ rd ≠ 0 then v else (s.seq q).x r := by
  intro t
  have after : t.seq q = ((s.seq q).setX rd v).retired := State.seq_setSeq_same _ q _
  refine ⟨State.vecDone_frame (by simp) (by simp), fun r => ?_⟩
  rw [after]
  exact Seq.x_setX (s.seq q) rd r v

end Sys2Proof.Machine
end

section
/-! SUPPORT. The vector arithmetic, the masks and the residue check; the statements that rest on them (R41, R66, R67, R70, R172). -/

namespace Sys2Proof.Machine

/-- With no injection armed and no lane in which the two paths differ, the residue check passes. -/
theorem State.residue_passes {s : State} {q : Nat} (h : s.flag (F.RC_CTL_res_inj (q - 8)) = false) (m : BitVec 3) (op func : Nat)
    (t : State) : s.residue q m op func none t = t := by
  unfold State.residue
  split
  · rfl
  · rw [h]
    rfl

theorem rc_ctl_ne_vcyc (i j : Nat) : R.RC_CTL i ≠ R.RC_VCYC j := by
  simp only [R.RC_CTL, R.RC_VCYC]
  omega

/-- An unchecked lane-by-lane instruction of a cluster's sequencer. -/
theorem State.vecPlain_results {s : State} {q : Nat} (hrun : s.executes q = true) (hv : hasV q = true) (fn : Nat) (m : BitVec 3) (vx : Bool)
    (vd vs1 vs2 : BitVec 5) (op : W32 → W32 → W32) :
    let t := s.vecPlain q fn m vx vd vs1 vs2 op
    VectorFrame q s t ∧ LanesGet q m vd (fun k => op ((s.seq q).lane vs1 k) ((s.seq q).operand vx vs2 k)) s t := by
  intro t
  have result : t = (s.vecStart q).vecLanes q m vx vd vs1 vs2 fun _ a b => op a b := State.vecInsn_of_cluster hrun hv _ _
  rw [result]
  exact s.vecDone_lanes q m vd _

theorem State.vecChecked_of_cluster {s : State} {q : Nat} (hrun : s.executes q = true) (hv : hasV q = true) (fn : Nat) (m : BitVec 3) (vx : Bool)
    (vd vs1 vs2 : BitVec 5) (mism : Option (Fin 64)) (op : W32 → W32 → W32 → W32) : s.vecChecked q fn m vx vd vs1 vs2 mism op =
      (s.vecStart q).residue q m 0x3C (vfunc vx fn) mism ((s.vecStart q).vecLanes q m vx vd vs1 vs2 op) :=
  State.vecInsn_of_cluster hrun hv _ _

/-- A residue-checked one, where the check passes. -/
theorem State.vecChecked_results {s : State} {q : Nat} (hrun : s.executes q = true) (hv : hasV q = true)
    (hquiet : s.flag (F.RC_CTL_res_inj (q - 8)) = false) (fn : Nat) (m : BitVec 3) (vx : Bool) (vd vs1 vs2 : BitVec 5)
    (op : W32 → W32 → W32 → W32) :
    let t := s.vecChecked q fn m vx vd vs1 vs2 none op
    VectorFrame q s t ∧
      LanesGet q m vd (fun k => op ((s.seq q).lane vd k) ((s.seq q).lane vs1 k) ((s.seq q).operand vx vs2 k)) s t := by
  intro t
  have quiet : (s.vecStart q).flag (F.RC_CTL_res_inj (q - 8)) = false := by
    rw [s.vecStart_flag (rc_ctl_ne_vcyc _ _), hquiet]
  have result : t = (s.vecStart q).vecLanes q m vx vd vs1 vs2 op :=
    (State.vecChecked_of_cluster hrun hv fn m vx vd vs1 vs2 none op).trans (State.residue_passes quiet m 0x3C (vfunc vx fn) _)
  rw [result]
  exact s.vecDone_lanes q m vd _

/-- The same statement for another description of the lanes' values. -/
theorem LanesGet.congr {q : Nat} {m : BitVec 3} {vd : BitVec 5} {f g : Nat → W32} {s t : State} (h : LanesGet q m vd f s t)
    (hfg : ∀ k, f k = g k) : LanesGet q m vd g s t := by
  rwa [← funext hfg]

theorem MaskGets.congr {q : Nat} {md : BitVec 3} {f g : Nat → Bool} {s t : State} (h : MaskGets q md f s t)
    (hfg : ∀ k, k < 64 → f k = g k) : MaskGets q md g s t := by
  obtain ⟨bits, masks, lanes, regs⟩ := h
  exact ⟨fun k hk => (bits k hk).trans (hfg k hk), masks, lanes, regs⟩

theorem minS_eq (a b : W32) : minS a b = if a.toInt < b.toInt then a else b := by
  simp only [minS, BitVec.slt_iff_toInt_lt]

theorem maxS_eq (a b : W32) : maxS a b = if a.toInt < b.toInt then b else a := by
  simp only [maxS, BitVec.slt_iff_toInt_lt]

theorem minU_eq (a b : W32) : minU a b = if a.toNat < b.toNat then a else b := by
  simp only [minU, BitVec.ult_iff_toNat_lt]

theorem maxU_eq (a b : W32) : maxU a b = if a.toNat < b.toNat then b else a := by
  simp only [maxU, BitVec.ult_iff_toNat_lt]

/-- Settles O30: the checked and the unchecked lane-by-lane instructions, each with its own operation. -/
theorem vectorArithmeticResults : Obligations.VectorArithmeticResults := by
  intro q m vx vd vs1 vs2 s hrun hlo hhi a b gets
  have hv : hasV q = true := hasV_of_bounds hlo hhi
  have plain (fn : Nat) (op : W32 → W32 → W32) := State.vecPlain_results hrun hv fn m vx vd vs1 vs2 op
  have relaned {f g : Nat → W32} {t : State} (hfg : ∀ k, f k = g k) (h : VectorFrame q s t ∧ LanesGet q m vd f s t) :
      VectorFrame q s t ∧ LanesGet q m vd g s t := ⟨h.1, h.2.congr hfg⟩
  refine ⟨fun hquiet => ?checked, ⟨_, rfl, relaned (fun _ => minS_eq _ _) (plain 5 minS)⟩,
    ⟨_, rfl, relaned (fun _ => maxS_eq _ _) (plain 6 maxS)⟩, ⟨_, rfl, relaned (fun _ => minU_eq _ _) (plain 7 minU)⟩,
    ⟨_, rfl, relaned (fun _ => maxU_eq _ _) (plain 8 maxU)⟩, ⟨_, rfl, plain 9 _⟩, ⟨_, rfl, plain 0xA _⟩, ⟨_, rfl, plain 0xB _⟩,
    ⟨_, rfl, plain 0xC _⟩, ⟨_, rfl, plain 0xD _⟩, ⟨_, rfl, plain 0xE _⟩⟩
  have checked (fn : Nat) (op : W32 → W32 → W32 → W32) := State.vecChecked_results hrun hv hquiet fn m vx vd vs1 vs2 op
  exact ⟨⟨_, rfl, checked 0 _⟩, ⟨_, rfl, checked 1 _⟩, ⟨_, rfl, checked 2 _⟩,
    ⟨_, rfl, relaned (fun _ => wordOfInt_eq_ofInt _) (checked 3 fun _ a b => mulQ16 a b)⟩, ⟨_, rfl, checked 4 _⟩⟩

/-! ### Masks -/

/-- A comparison of a cluster's sequencer into a mask other than m0. -/
theorem State.vecCompare_results {s : State} {q : Nat} (hrun : s.executes q = true) (hv : hasV q = true) (fn : Nat) (m : BitVec 3) (vx : Bool)
    {vd : BitVec 5} (hmd : vd.truncate 3 ≠ (0 : BitVec 3)) (vs1 vs2 : BitVec 5) (op : W32 → W32 → Bool) :
    let t := s.vecCompare q fn m vx vd vs1 vs2 op
    VectorFrame q s t ∧ MaskGets q (vd.truncate 3) (fun k => if ((s.seq q).mask m).getLsbD k then
      op ((s.seq q).lane vs1 k) ((s.seq q).operand vx vs2 k) else ((s.seq q).mask (vd.truncate 3)).getLsbD k) s t := by
  intro t
  let bits := ((s.seq q).active m).map fun k => (k, op ((s.seq q).lane vs1 k) ((s.seq q).operand vx vs2 k))
  have destination : (vd.truncate 3 != (0 : BitVec 3)) = true := by simpa using hmd
  have result : t = (s.vecStart q).vecDone q ((s.seq q).setMask (vd.truncate 3) (maskWith ((s.seq q).mask (vd.truncate 3)) bits)) := by
    simp only [t, State.vecCompare, destination]
    exact State.vecInsn_of_cluster hrun hv _ _
  obtain ⟨frame, gets⟩ := s.vecDone_mask q hmd (maskWith ((s.seq q).mask (vd.truncate 3)) bits)
  rw [result]
  refine ⟨frame, gets.congr fun k hk => ?_⟩
  rw [getLsbD_maskWith _ (fun k => op ((s.seq q).lane vs1 k) ((s.seq q).operand vx vs2 k)) hk]
  simp [Seq.mem_active, hk]

theorem State.maskLogic_results {s : State} {q : Nat} (hrun : s.executes q = true) (hv : hasV q = true) (fn : Nat) {md : BitVec 3}
    (hmd : md ≠ 0) (ms1 ms2 : BitVec 3) (v : W64) :
    let t := s.maskLogic q fn md ms1 ms2 v
    VectorFrame q s t ∧ MaskGets q md v.getLsbD s t := by
  intro t
  have destination : (md != (0 : BitVec 3)) = true := by simpa using hmd
  have result : t = (s.vecStart q).vecDone q ((s.seq q).setMask md v) := by
    simp only [t, State.maskLogic, destination]
    exact State.vecInsn_of_cluster hrun hv _ _
  rw [result]
  exact s.vecDone_mask q hmd v

/-- Settles O31: comparisons and mask logic bit by bit, splat and iota lane by lane, extract and count into a general register. -/
theorem vectorMaskResults : Obligations.VectorMaskResults := by
  intro q m ma mb vx vd vs1 vs2 s hrun hlo hhi md a b on old gets
  have hv : hasV q = true := hasV_of_bounds hlo hhi
  have works (word : W32) (f : State → State) : s.vecInsn q word true f = f (s.vecStart q) := State.vecInsn_of_cluster hrun hv word f
  have lanes := s.vecDone_lanes q m vd
  have general := s.vecDone_setX q vd
  refine ⟨fun hmd => ?masks, ⟨_, congrArg Host.Outcome.next (works _ _), lanes fun _ => (s.seq q).x vs1⟩,
    ⟨_, congrArg Host.Outcome.next (works _ _), lanes w32⟩,
    ⟨_, congrArg Host.Outcome.next (works _ _), general _⟩, ⟨_, congrArg Host.Outcome.next (works _ _), ?count⟩, rfl, fun hinh => ?illegal⟩
  case masks =>
    have compare (fn : Nat) (op : W32 → W32 → Bool) := State.vecCompare_results hrun hv fn m vx hmd vs1 vs2 op
    have logic (fn : Nat) (ms2 : BitVec 3) (v : W64) := State.maskLogic_results hrun hv fn hmd ma ms2 v
    have relabelled {f g : Nat → Bool} {t : State} (hfg : ∀ k, k < 64 → f k = g k) (h : VectorFrame q s t ∧ MaskGets q md f s t) :
        VectorFrame q s t ∧ MaskGets q md g s t := ⟨h.1, h.2.congr hfg⟩
    refine ⟨⟨_, rfl, compare 0x10 _⟩, ⟨_, rfl, relabelled (fun k _ => ?_) (compare 0x11 _)⟩,
      ⟨_, rfl, relabelled (fun k _ => ?_) (compare 0x12 _)⟩, ⟨_, rfl, relabelled (fun k _ => ?_) (logic 0x28 mb _)⟩,
      ⟨_, rfl, relabelled (fun k _ => ?_) (logic 0x29 mb _)⟩, ⟨_, rfl, relabelled (fun k hk => ?_) (logic 0x2A 0 _)⟩⟩
    · rw [BitVec.slt_eq_decide]
      rfl
    · rw [BitVec.ult_eq_decide]
      rfl
    · rw [BitVec.getLsbD_and]
    · rw [BitVec.getLsbD_or]
    · simp [hk]
  case count =>
    obtain ⟨frame, regs⟩ := general (w32 (countBits 64 ((s.seq q).mask ma).toNat))
    refine ⟨frame, fun r => (regs r).trans ?_⟩
    rw [countBits_toNat]
  case illegal =>
    have refused := State.vecInsn_illegal (ok := (0 : BitVec 3) != 0) hrun (Or.inr rfl)
      (vWord 0x3C ((0 : BitVec 3).zeroExtend 5) (ma.zeroExtend 5) ((0 : BitVec 3).zeroExtend 5) 0 0x2A)
      fun t => t.vecDone q ((t.seq q).setMask 0 (~~~(s.seq q).mask ma))
    obtain ⟨epc, cause, -⟩ := State.trap_taken hinh trapIllegal
      (vWord 0x3C ((0 : BitVec 3).zeroExtend 5) (ma.zeroExtend 5) ((0 : BitVec 3).zeroExtend 5) 0 0x2A)
    exact ⟨_, congrArg Host.Outcome.next refused, cause, epc⟩

/-! ### The residue check -/

theorem not_postReg_of_rc {a : Nat} (hlo : 0x40070000 ≤ a) (hhi : a < 0x40080000) : ¬ postReg a := by
  simp only [postReg, R.SUP_DROP]
  omega

theorem State.trap_eq {s : State} {q : Nat} (hinh : (s.seq q).inh = false) (code : Nat) (tval : W32) :
    s.trap q code tval = s.setSeq q ((s.seq q).trapped code tval) := by
  simp [State.trap, hinh]

/-- The record that a residue mismatch posts (R70). -/
def residueRec (s : State) (q op func lane : Nat) (injected : Bool) : Rec :=
  ⟨q, 0x340, s.severityOf 0x340, 0xF, 0, loc4 (q - 8) (lane / 8),
    w32 ((if injected then 2 ^ 31 else 0) + op * 2 ^ 16 + func * 2 ^ 8 + lane), false⟩

/-- What the cluster's registers note of a mismatch that has been posted: an injection is spent, a real one is counted. -/
def State.residueNote (s : State) (q : Nat) (injected : Bool) : State :=
  if injected then ((s.set (F.RC_STAT_inj_done (q - 8)) 1).set (F.RC_CTL_res_inj (q - 8)) 0).monitorPassed 6
  else (s.set (F.RC_STAT_res_err (q - 8)) 1).bump (F.RC_RESCNT_count (q - 8))

/-- Noting a mismatch changes registers, and of an injection the time of the self-test. -/
theorem State.residueNote_cases (s : State) (q : Nat) (injected : Bool) :
    ∃ regs passed, s.residueNote q injected = { s with regs := regs, monPassed := passed } := by
  cases injected
  · exact ⟨_, _, rfl⟩
  · exact ⟨_, _, rfl⟩

/-- The state after a residue mismatch is posted and noted, before the trap. -/
def State.residueNoted (s : State) (q op func lane : Nat) (injected : Bool) : State :=
  (s.postRec (residueRec s q op func lane injected)).residueNote q injected

theorem State.residueError_eq (s : State) (q op func lane : Nat) (injected : Bool) :
    s.residueError q op func lane injected = (s.residueNoted q op func lane injected).trap q trapResidue (w32 lane) := rfl

/-- A residue mismatch outside a handler writes nothing, posts its record and takes exception 11 with the lane. -/
theorem State.residueError_trapped {s : State} {q : Nat} (hinh : (s.seq q).inh = false) (hroom : s.room q = true)
    (op func lane : Nat) (injected : Bool) :
    let t := s.residueError q op func lane injected
    (t.seq q).cause = 11 ∧ (t.seq q).tval = BitVec.ofNat 32 lane ∧ (t.seq q).epc = (s.seq q).pc ∧
      (∀ r j, (t.seq q).lane r j = (s.seq q).lane r j) ∧ SameMemory s t ∧
      residueRec s q op func lane injected ∈ tabGet [] t.ev.buf q ∧ t.regs = (s.residueNoted q op func lane injected).regs := by
  intro t
  obtain ⟨regs, passed, noting⟩ := (s.postRec (residueRec s q op func lane injected)).residueNote_cases q injected
  have posted := s.postRec_quiet (residueRec s q op func lane injected)
  let u := s.residueNoted q op func lane injected
  have noted : u.seq q = { s.seq q with latched := (u.seq q).latched } := by
    simp only [u, State.residueNoted, noting]
    exact posted.seq q
  have outside : (u.seq q).inh = false := by rw [noted, hinh]
  have taken : t = u.setSeq q ((u.seq q).trapped 11 (w32 lane)) := State.trap_eq outside 11 (w32 lane)
  have after : t.seq q = (u.seq q).trapped 11 (w32 lane) := by rw [taken, State.seq_setSeq_same]
  have held : t.ev = (s.postRec (residueRec s q op func lane injected)).ev := by
    simp only [taken, u, State.residueNoted, noting]
    rfl
  refine ⟨?_, ?_, ?_, fun r j => ?_, fun a => ?_, ?_, by rw [taken]; rfl⟩
  · rw [after]
    rfl
  · rw [after]
    rfl
  · rw [after, noted]
    rfl
  · rw [after, noted]
    rfl
  · simp only [taken, u, State.residueNoted, noting]
    exact posted.mem a
  · rw [held]
    exact s.postRec_buf _ hroom

/-- A mismatch in a lane that is active, with no injection armed. -/
theorem State.residue_mismatch {s : State} {q : Nat} {m : BitVec 3} {k : Fin 64} (hon : ((s.seq q).mask m).getLsbD k = true)
    (hquiet : s.flag (F.RC_CTL_res_inj (q - 8)) = false) (op func : Nat) (t : State) :
    s.residue q m op func (some k) t = s.residueError q op func k false := by
  have active : k.val ∈ (s.seq q).active m := Seq.mem_active.mpr ⟨k.isLt, hon⟩
  unfold State.residue
  split
  · next none => simp [none] at active
  · next low rest lanes =>
    rw [lanes] at active
    simp [hquiet, List.contains_eq_mem, active]

/-- An armed injection shows in the lowest active lane. -/
theorem State.residue_injected {s : State} {q : Nat} {m : BitVec 3} {k : Nat} (hk : k < 64) (hon : ((s.seq q).mask m).getLsbD k = true)
    (hlow : ∀ j, j < k → ((s.seq q).mask m).getLsbD j = false) (harmed : s.flag (F.RC_CTL_res_inj (q - 8)) = true)
    (op func : Nat) (mism : Option (Fin 64)) (t : State) : s.residue q m op func mism t = s.residueError q op func k true := by
  obtain ⟨rest, lanes⟩ := Seq.active_of_lowest hk hon hlow
  simp [State.residue, lanes, harmed]

/-- What a real mismatch leaves in the cluster's registers. -/
theorem State.residueNoted_counted {s : State} {q : Nat} (hq : q < 24) (op func lane : Nat) :
    let u := s.residueNoted q op func lane false
    u.get (F.RC_STAT_res_err (q - 8)) = 1 ∧
      u.get (F.RC_RESCNT_count (q - 8)) = min (s.get (F.RC_RESCNT_count (q - 8)) + 1) (2 ^ 32 - 1) := by
  intro u
  let p := s.postRec (residueRec s q op func lane false)
  have apart : R.RC_STAT (q - 8) ≠ R.RC_RESCNT (q - 8) := by simp [R.RC_STAT, R.RC_RESCNT]
  have old : p.get (F.RC_RESCNT_count (q - 8)) = s.get (F.RC_RESCNT_count (q - 8)) :=
    (s.postRec_quiet _).get _ (not_postReg_of_rc (by simp only [F.RC_RESCNT_count, R.RC_RESCNT]; omega)
      (by simp only [F.RC_RESCNT_count, R.RC_RESCNT]; omega))
  have kept : (p.set (F.RC_STAT_res_err (q - 8)) 1).get (F.RC_RESCNT_count (q - 8)) = s.get (F.RC_RESCNT_count (q - 8)) :=
    (State.get_set_ne p 1 (g := F.RC_RESCNT_count (q - 8)) (Ne.symm apart)).trans old
  constructor
  · have flagged := State.get_set_same p (F.RC_STAT_res_err (q - 8)) 1 (Nat.le_refl 0) (Nat.succ_pos 31)
    exact (State.get_set_ne _ _ (f := F.RC_RESCNT_count (q - 8)) (g := F.RC_STAT_res_err (q - 8)) apart).trans flagged
  · refine (State.get_set_same (p.set (F.RC_STAT_res_err (q - 8)) 1) (F.RC_RESCNT_count (q - 8)) _ (Nat.zero_le 31) (Nat.lt_succ_self 31)).trans ?_
    rw [kept]
    exact Nat.mod_eq_of_lt (by simp only [F.RC_RESCNT_count]; omega)

/-- What an injection leaves in the cluster's registers. -/
theorem State.residueNoted_injected {s : State} {q : Nat} (hq : q < 24) (op func lane : Nat) :
    let u := s.residueNoted q op func lane true
    u.get (F.RC_CTL_res_inj (q - 8)) = 0 ∧ u.get (F.RC_STAT_inj_done (q - 8)) = 1 ∧
      u.get (F.RC_RESCNT_count (q - 8)) = s.get (F.RC_RESCNT_count (q - 8)) := by
  intro u
  let p := s.postRec (residueRec s q op func lane true)
  have stat : R.RC_STAT (q - 8) ≠ R.RC_CTL (q - 8) := by simp [R.RC_STAT, R.RC_CTL]
  have count : R.RC_RESCNT (q - 8) ≠ R.RC_CTL (q - 8) ∧ R.RC_RESCNT (q - 8) ≠ R.RC_STAT (q - 8) := by
    simp [R.RC_RESCNT, R.RC_STAT, R.RC_CTL]
  refine ⟨State.get_set_same _ (F.RC_CTL_res_inj (q - 8)) 0 (Nat.le_refl 0) (Nat.succ_pos 31), ?_, ?_⟩
  · have done := State.get_set_same p (F.RC_STAT_inj_done (q - 8)) 1 (Nat.le_refl 1) (Nat.lt_of_sub_pos (show 0 < 31 from Nat.succ_pos 30))
    exact (State.get_set_ne _ _ (f := F.RC_CTL_res_inj (q - 8)) (g := F.RC_STAT_inj_done (q - 8)) stat).trans done
  · have posted : p.get (F.RC_RESCNT_count (q - 8)) = s.get (F.RC_RESCNT_count (q - 8)) :=
      (s.postRec_quiet _).get _ (not_postReg_of_rc (by simp only [F.RC_RESCNT_count, R.RC_RESCNT]; omega)
        (by simp only [F.RC_RESCNT_count, R.RC_RESCNT]; omega))
    have noted := State.get_set_ne p 1 (f := F.RC_STAT_inj_done (q - 8)) (g := F.RC_RESCNT_count (q - 8)) count.2
    exact ((State.get_set_ne _ _ (f := F.RC_CTL_res_inj (q - 8)) (g := F.RC_RESCNT_count (q - 8)) count.1).trans noted).trans posted

theorem State.get_congr {s t : State} (h : t.regs = s.regs) (f : Field) : t.get f = s.get f := by
  simp only [State.get, State.rd, h]

/-- Settles O32: outside the clusters an illegal instruction; in one, `State.residueError_trapped` and what is noted first. -/
theorem residueCheck : Obligations.ResidueCheck := by
  intro q m vx vd vs1 vs2 k s hrun hinh
  refine ⟨fun outside => ?outside, fun hlo hhi hon hroom => ⟨fun hquiet => ?mismatch, fun harmed hlow => ?injection⟩⟩
  case outside =>
    have hv := hasV_outside outside
    have refused (word : W32) : ((s.trap q trapIllegal word).seq q).cause = 2 := by
      rw [State.trap_eq hinh, State.seq_setSeq_same]
      rfl
    exact ⟨⟨_, congrArg Host.Outcome.next (State.vecInsn_illegal hrun (Or.inl hv) _ _), refused _⟩,
      ⟨_, congrArg Host.Outcome.next (State.vecInsn_illegal hrun (Or.inl hv) _ _), refused _⟩⟩
  case mismatch =>
    have hv := hasV_of_bounds hlo hhi
    have quiet : (s.vecStart q).flag (F.RC_CTL_res_inj (q - 8)) = false := by rw [s.vecStart_flag (rc_ctl_ne_vcyc _ _), hquiet]
    have result := (State.vecChecked_of_cluster hrun hv 0 m vx vd vs1 vs2 (some k) fun _ a b => a + b).trans
      (State.residue_mismatch (s := s.vecStart q) hon quiet 0x3C (vfunc vx 0) _)
    obtain ⟨cause, tval, epc, lanes, mem, posted, regs⟩ :=
      State.residueError_trapped (s := s.vecStart q) hinh hroom 0x3C (vfunc vx 0) k false
    obtain ⟨flagged, counted⟩ := State.residueNoted_counted (s := s.vecStart q) hhi 0x3C (vfunc vx 0) k
    refine ⟨_, congrArg Host.Outcome.next result, ⟨cause, tval, epc, lanes, mem⟩, ⟨_, posted, rfl, rfl, ?_⟩,
      (State.get_congr regs _).trans flagged, ((State.get_congr regs _).trans counted).trans ?_⟩
    · cases vx <;> simp [residueRec, vfunc, w32]
    · rw [s.vecStart_get]
      simp [F.RC_RESCNT_count, R.RC_RESCNT, R.RC_VCYC]
  case injection =>
    have hv := hasV_of_bounds hlo hhi
    have armed : (s.vecStart q).flag (F.RC_CTL_res_inj (q - 8)) = true := by rw [s.vecStart_flag (rc_ctl_ne_vcyc _ _), harmed]
    have result := (State.vecChecked_of_cluster hrun hv 2 m vx vd vs1 vs2 none fun _ a b => a * b).trans
      (State.residue_injected (s := s.vecStart q) k.isLt hon hlow armed 0x3C (vfunc vx 2) none _)
    obtain ⟨cause, tval, epc, lanes, mem, -, regs⟩ :=
      State.residueError_trapped (s := s.vecStart q) hinh hroom 0x3C (vfunc vx 2) k true
    obtain ⟨spent, done, uncounted⟩ := State.residueNoted_injected (s := s.vecStart q) hhi 0x3C (vfunc vx 2) k
    refine ⟨_, congrArg Host.Outcome.next result, ⟨cause, tval, epc, lanes, mem⟩, (State.get_congr regs _).trans spent,
      (State.get_congr regs _).trans done, ((State.get_congr regs _).trans uncounted).trans ?_⟩
    rw [s.vecStart_get]
    simp [F.RC_RESCNT_count, R.RC_RESCNT, R.RC_VCYC]

end Sys2Proof.Machine
end

section
/-! SUPPORT. Vector memory: which addresses pass, words read and stored one after another, and the statement that rests on them (R68,
R163, R165, R321, R330). -/

namespace Sys2Proof.Machine

/-! ### Checks before any access -/

/-- A check of memory that passes still passes after the cycles are counted. -/
theorem State.vecStart_memCheck {s : State} {q m a len : Nat} {n : Needs} (hq : q < 24) (h : s.memCheck m a len n = none) :
    (s.vecStart q).memCheck m a len n = none := by
  have get (f : Field) (hf : 0x40080000 ≤ f.addr) : (s.vecStart q).get f = s.get f :=
    s.vecStart_get (by simp only [R.RC_VCYC]; omega)
  have region (f : Nat → Nat → Field) (hf : ∀ m k, 0x40080000 ≤ (f m k).addr) (m k : Nat) :
      (s.vecStart q).get (f m k) = s.get (f m k) ∧ (s.vecStart q).flag (f m k) = s.flag (f m k) := by
    simp only [State.flag, get _ (hf m k), and_self]
  have base := region F.MEM_RGN_BASE_base fun m k => by simp only [F.MEM_RGN_BASE_base, R.MEM_RGN_BASE]; omega
  have limit := region F.MEM_RGN_LIM_limit fun m k => by simp only [F.MEM_RGN_LIM_limit, R.MEM_RGN_LIM]; omega
  have en := region F.MEM_RGN_CTL_en fun m k => by simp only [F.MEM_RGN_CTL_en, R.MEM_RGN_CTL]; omega
  have r := region F.MEM_RGN_CTL_r fun m k => by simp only [F.MEM_RGN_CTL_r, R.MEM_RGN_CTL]; omega
  have w := region F.MEM_RGN_CTL_w fun m k => by simp only [F.MEM_RGN_CTL_w, R.MEM_RGN_CTL]; omega
  have x := region F.MEM_RGN_CTL_x fun m k => by simp only [F.MEM_RGN_CTL_x, R.MEM_RGN_CTL]; omega
  have permitted : (s.vecStart q).permitted m a len n = s.permitted m a len n := by
    simp only [State.permitted, State.regionPermits, base, limit, en, r, w, x]
  have ready : (s.vecStart q).get F.MEM_DSTAT_rdy = s.get F.MEM_DSTAT_rdy := get _ (by decide)
  have absent : (s.vecStart q).memAbsent = s.memAbsent := by
    funext b
    simp only [State.memAbsent, State.bit, ready]
    rfl
  simp only [State.memCheck, permitted, absent] at h ⊢
  split at h
  · cases h
  · next here =>
    rw [if_neg here]
    split at h
    · next allowed => rw [if_pos allowed]
    · cases h

theorem State.vecStart_usable {s : State} {q a : Nat} {n : Needs} (hq : q < 24) (h : s.usable q n a) : (s.vecStart q).usable q n a := by
  obtain ⟨align, sram, check, sound⟩ := h
  exact ⟨align, sram, State.vecStart_memCheck hq check, sound⟩

theorem State.wordCheck_usable {s : State} {q : Nat} {n : Needs} {a : W32} (h : s.usable q n a.toNat) : s.wordCheck q n a = none := by
  obtain ⟨align, sram, check, -⟩ := h
  have place : s.place q a.toNat = .mem a.toNat := if_pos sram
  simp [State.wordCheck, align, place, sram, check]

theorem State.checkWords_usable {s : State} {q : Nat} {n : Needs} : ∀ (as : List W32), (∀ a ∈ as, s.usable q n a.toNat) →
    s.checkWords q n (selfNamed as) = none
  | [], _ => rfl
  | a :: as, h => by
    have first := State.wordCheck_usable (h a List.mem_cons_self)
    have rest := State.checkWords_usable as fun b hb => h b (List.mem_cons_of_mem a hb)
    simpa [selfNamed, State.checkWords, first] using rest

/-- The lowest lane whose address is misaligned is the one reported, where every lower one passes. -/
theorem State.checkWords_misaligned {s : State} {q : Nat} {n : Needs} {addr : Nat → W32} {k : Nat} : ∀ (l : List Nat), l.Pairwise (· < ·) →
    k ∈ l → (addr k).toNat % 4 ≠ 0 → (∀ j ∈ l, j < k → s.usable q n (addr j).toNat) →
    s.checkWords q n (selfNamed (l.map addr)) = some (true, addr k, s)
  | j :: l, order, hk, hbad, hlow => by
    obtain ⟨before, order⟩ := List.pairwise_cons.mp order
    obtain rfl | hk := List.mem_cons.mp hk
    · simp [selfNamed, State.checkWords, State.wordCheck, hbad]
    · have first := State.wordCheck_usable (hlow j List.mem_cons_self (before k hk))
      have rest := State.checkWords_misaligned (s := s) (q := q) (n := n) l order hk hbad fun i hi => hlow i (List.mem_cons_of_mem j hi)
      simpa [selfNamed, State.checkWords, first] using rest

theorem State.afterCheck_usable {s : State} {q : Nat} {store : Bool} {as : List W32}
    (h : ∀ a ∈ as, s.usable q (if store then Needs.write else Needs.read) a.toNat) (t : State) :
    s.afterCheck q store (selfNamed as) t = t := by
  rw [State.afterCheck, State.checkWords_usable as h]

theorem State.afterCheck_misaligned {s : State} {q : Nat} {store : Bool} {addr : Nat → W32} {k : Nat} {l : List Nat}
    (order : l.Pairwise (· < ·)) (hk : k ∈ l) (hbad : (addr k).toNat % 4 ≠ 0)
    (hlow : ∀ j ∈ l, j < k → s.usable q (if store then Needs.write else Needs.read) (addr j).toNat) (t : State) :
    s.afterCheck q store (selfNamed (l.map addr)) t = s.trap q (if store then trapStoreAlign else trapLoadAlign) (addr k) := by
  rw [State.afterCheck, State.checkWords_misaligned l order hk hbad hlow]

/-! ### Words read -/

theorem State.dataRead_word {s : State} {a : Nat} (h : s.sound a 4) (reader : Nat) :
    s.dataRead reader a 4 = (some (s.rdBytes a 4), s) := State.dataRead_of_sound h reader

theorem State.word_rdBytes (s : State) (a : Nat) : w32 (leNat (s.rdBytes a 4)) = s.wordAt a := by
  rw [State.leNat_rdBytes_four]
  exact (BitVec.ofNat_toNat 32 _).trans (BitVec.setWidth_eq _)

/-- Words with no erroneous cell are read in order, without a report. -/
theorem readWords_of_sound {q : Nat} {s : State} : ∀ (as : List W32), (∀ a ∈ as, s.sound a.toNat 4) →
    readWords q as s = (.inr (as.map fun a => s.wordAt a.toNat), s)
  | [], _ => rfl
  | a :: as, h => by
    have rest := readWords_of_sound (q := q) as fun b hb => h b (List.mem_cons_of_mem a hb)
    simp only [readWords, State.dataRead_word (h a List.mem_cons_self), rest, State.word_rdBytes, List.map_cons]

theorem State.withWords_of_sound {s : State} {q : Nat} {as : List W32} (h : ∀ a ∈ as, s.sound a.toNat 4) (f : List W32 → State → State) :
    s.withWords q as f = f (as.map fun a => s.wordAt a.toNat) s := by
  rw [State.withWords, readWords_of_sound as h]

/-! ### Words written and stored -/

theorem append_extract_bytes (v : W32) :
    v.extractLsb' 24 8 ++ v.extractLsb' 16 8 ++ v.extractLsb' 8 8 ++ v.extractLsb' 0 8 = v := by
  rw [BitVec.extractLsb'_append_extractLsb'_eq_extractLsb' (by decide),
    BitVec.extractLsb'_append_extractLsb'_eq_extractLsb' (by decide),
    BitVec.extractLsb'_append_extractLsb'_eq_extractLsb' (by decide)]
  exact BitVec.extractLsb'_eq_self

theorem State.wrWord_rdByte (s : State) (a : Nat) (v : W32) (x : Nat) :
    (s.wrWord a v).rdByte x = if a ≤ x ∧ x < a + 4 then (leBytes 4 v.toNat).getD (x - a) 0 else s.rdByte x :=
  State.rdByte_wrBytes (leBytes 4 v.toNat) s a x

theorem State.wrWord_wordAt_same (s : State) (a : Nat) (v : W32) : (s.wrWord a v).wordAt a = v := by
  refine Eq.trans ?_ (append_extract_bytes v)
  simp only [State.wordAt, State.wrWord_rdByte, leBytes_four]
  simp

/-- A word written leaves every word that does not overlap it. -/
theorem State.wrWord_wordAt_ne (s : State) {a b : Nat} (v : W32) (h : b + 4 ≤ a ∨ a + 4 ≤ b) : (s.wrWord a v).wordAt b = s.wordAt b := by
  have kept (i : Nat) (hi : i < 4) : (s.wrWord a v).rdByte (b + i) = s.rdByte (b + i) := by
    rw [State.wrWord_rdByte, if_neg (by omega)]
  rw [State.wordAt, kept 3 (by decide), kept 2 (by decide), kept 1 (by decide), ← Nat.add_zero b, kept 0 (by decide)]
  rfl

/-- One word stored by a sequencer, whose table buffer may drop (R165). -/
def State.wordStored (s : State) (q : Nat) (a v : W32) : State := (s.bytesStored a.toNat (leBytes 4 v.toNat)).tableStored q a.toNat

theorem storeWords_cons (q : Nat) (a v : W32) (rest : List (W32 × W32)) (s : State) :
    storeWords q ((a, v) :: rest) s = storeWords q rest (s.wordStored q a v) := rfl

/-- What it makes of memory is the word written. -/
theorem State.wordStored_rdByte (s : State) (q : Nat) (a v : W32) (x : Nat) :
    (s.wordStored q a v).rdByte x = (s.wrWord a.toNat v).rdByte x := by
  rw [State.wordStored, State.tableStored_rdByte, State.bytesStored_rdByte, State.wrWord, State.rdByte_wrBytes]

theorem State.wordStored_wordAt (s : State) (q : Nat) (a v : W32) (x : Nat) :
    (s.wordStored q a v).wordAt x = (s.wrWord a.toNat v).wordAt x := by
  simp only [State.wordAt, State.wordStored_rdByte]

theorem State.wordStored_ctxOf (s : State) (q : Nat) (a v : W32) (r : Nat) : (s.wordStored q a v).ctxOf r = s.ctxOf r := by
  simp [State.wordStored]

theorem State.wordStored_seq_ne (s : State) {q r : Nat} (a v : W32) (h : s.ctxOf r ≠ s.ctxOf q) :
    (s.wordStored q a v).seq r = s.seq r := by
  rw [State.wordStored, State.tableStored_seq_ne _ _ (by simpa using h), State.bytesStored_seq]

theorem State.wordStored_seq_same (s : State) (q : Nat) (a v : W32) :
    (s.wordStored q a v).seq q = { s.seq q with tbuf := ((s.wordStored q a v).seq q).tbuf } := by
  have stored := State.tableStored_seq_same (s.bytesStored a.toNat (leBytes 4 v.toNat)) q a.toNat
  rwa [State.bytesStored_seq] at stored

theorem State.wordStored_rd (s : State) (q : Nat) (a v : W32) {x : Nat} (hx : ∀ k, k < 16 → x ≠ R.RC_TBUF k) :
    (s.wordStored q a v).rd x = s.rd x :=
  (State.tableStored_rd _ q a.toNat x hx).trans (s.bytesStored_rd a.toNat _ x)

/-- What storing words leaves of everything but memory. -/
theorem storeWords_frame (q : Nat) : ∀ (xs : List (W32 × W32)) (s : State),
    (∀ r, (storeWords q xs s).ctxOf r = s.ctxOf r) ∧ (∀ r, s.ctxOf r ≠ s.ctxOf q → (storeWords q xs s).seq r = s.seq r) ∧
      (storeWords q xs s).seq q = { s.seq q with tbuf := ((storeWords q xs s).seq q).tbuf } ∧
      ∀ x, (∀ k, k < 16 → x ≠ R.RC_TBUF k) → (storeWords q xs s).rd x = s.rd x
  | [], _ => ⟨fun _ => rfl, fun _ _ => rfl, rfl, fun _ _ => rfl⟩
  | (a, v) :: xs, s => by
    obtain ⟨ctx, others, own, regs⟩ := storeWords_frame q xs (s.wordStored q a v)
    rw [storeWords_cons]
    refine ⟨fun r => (ctx r).trans (s.wordStored_ctxOf q a v r), fun r hr => ?_, ?_, fun x hx => (regs x hx).trans (s.wordStored_rd q a v hx)⟩
    · exact (others r (by simpa only [State.wordStored_ctxOf] using hr)).trans (s.wordStored_seq_ne a v hr)
    · rw [s.wordStored_seq_same] at own
      exact own

/-- A byte in none of the words stored stays. -/
theorem storeWords_rdByte {q b : Nat} : ∀ (xs : List (W32 × W32)) (s : State),
    (∀ e ∈ xs, ¬(e.1.toNat ≤ b ∧ b < e.1.toNat + 4)) → (storeWords q xs s).rdByte b = s.rdByte b
  | [], _, _ => rfl
  | (a, v) :: xs, s, h => by
    rw [storeWords_cons, storeWords_rdByte xs _ fun e he => h e (List.mem_cons_of_mem _ he), State.wordStored_rdByte,
      State.wrWord_rdByte, if_neg (h (a, v) List.mem_cons_self)]

/-- A word at none of the addresses stored stays. -/
theorem storeWords_wordAt {q : Nat} {b : W32} (hb : b.toNat % 4 = 0) : ∀ (xs : List (W32 × W32)) (s : State),
    (∀ e ∈ xs, e.1.toNat % 4 = 0 ∧ e.1 ≠ b) → (storeWords q xs s).wordAt b.toNat = s.wordAt b.toNat
  | [], _, _ => rfl
  | (a, v) :: xs, s, h => by
    obtain ⟨align, apart⟩ : a.toNat % 4 = 0 ∧ a ≠ b := h (a, v) List.mem_cons_self
    have disjoint : a.toNat ≠ b.toNat := fun heq => apart (BitVec.eq_of_toNat_eq heq)
    rw [storeWords_cons, storeWords_wordAt hb xs _ fun e he => h e (List.mem_cons_of_mem _ he), State.wordStored_wordAt,
      State.wrWord_wordAt_ne s v (by omega)]

/-- Of lanes stored in increasing order, one that no higher lane shares its address with leaves its word. -/
theorem storeWords_lane {q : Nat} {addr val : Nat → W32} {k : Nat} (l : List Nat) (s : State) (order : l.Pairwise (· < ·)) (hk : k ∈ l)
    (halign : ∀ j ∈ l, (addr j).toNat % 4 = 0) (hlast : ∀ j ∈ l, k < j → addr j ≠ addr k) :
    (storeWords q (l.map fun k => (addr k, val k)) s).wordAt (addr k).toNat = val k := by
  induction l generalizing s with
  | nil => cases hk
  | cons j l ih =>
    obtain ⟨before, order⟩ := List.pairwise_cons.mp order
    rw [List.map_cons, storeWords_cons]
    obtain rfl | hmem := List.mem_cons.mp hk
    · rw [storeWords_wordAt (halign k List.mem_cons_self), State.wordStored_wordAt, State.wrWord_wordAt_same]
      intro e he
      obtain ⟨i, hi, rfl⟩ := List.mem_map.mp he
      exact ⟨halign i (List.mem_cons_of_mem k hi), hlast i (List.mem_cons_of_mem k hi) (before i hi)⟩
    · exact ih _ order hmem (fun i hi => halign i (List.mem_cons_of_mem j hi)) fun i hi => hlast i (List.mem_cons_of_mem j hi)

/-! ### The four instructions -/

/-- A vector load whose active addresses all pass. -/
theorem State.vecLoad_results {s : State} {q : Nat} (hq : q < 24) (m : BitVec 3) (vd : BitVec 5) {addr : Nat → W32}
    (h : ∀ k, k < 64 → ((s.seq q).mask m).getLsbD k = true → s.usable q Needs.read (addr k).toNat) :
    let t := (s.vecStart q).vecLoad q m vd addr
    VectorFrame q s t ∧ LanesGet q m vd (fun k => s.wordAt (addr k).toNat) s t := by
  intro t
  have usable (a : W32) (ha : a ∈ ((s.seq q).active m).map addr) : (s.vecStart q).usable q Needs.read a.toNat := by
    obtain ⟨k, hk, rfl⟩ := List.mem_map.mp ha
    obtain ⟨bound, on⟩ := Seq.mem_active.mp hk
    exact State.vecStart_usable hq (h k bound on)
  have sound (a : W32) (ha : a ∈ ((s.seq q).active m).map addr) : (s.vecStart q).sound a.toNat 4 := (usable a ha).2.2.2
  have result : t = (s.vecStart q).vecDone q ((s.seq q).setLanes vd
      (((s.seq q).active m).map fun k => (k, s.wordAt (addr k).toNat))) := by
    refine (State.afterCheck_usable (store := false) usable _).trans ?_
    rw [State.vecStart_seq, State.withWords_of_sound sound, List.map_map, ← List.map_prod_left_eq_zip]
    rfl
  rw [result]
  exact s.vecDone_lanes q m vd _

/-- A vector store whose active addresses all pass. -/
theorem State.vecStore_results {s : State} {q : Nat} (hq : q < 24) (m : BitVec 3) (vd : BitVec 5) {addr : Nat → W32}
    (h : ∀ k, k < 64 → ((s.seq q).mask m).getLsbD k = true → s.usable q Needs.write (addr k).toNat) :
    let t := (s.vecStart q).vecStore q m vd addr
    VectorStoreFrame q s t ∧
      (∀ k, k < 64 → ((s.seq q).mask m).getLsbD k = true →
        (∀ j, j < 64 → k < j → ((s.seq q).mask m).getLsbD j = true → addr j ≠ addr k) → t.wordAt (addr k).toNat = (s.seq q).lane vd k) ∧
      ∀ b, (∀ k, k < 64 → ((s.seq q).mask m).getLsbD k = true → ¬((addr k).toNat ≤ b ∧ b < (addr k).toNat + 4)) →
        t.rdByte b = s.rdByte b := by
  intro t
  let xs := ((s.seq q).active m).map fun k => (addr k, (s.seq q).lane vd k)
  let u := storeWords q xs (s.vecStart q)
  have on {k : Nat} (hk : k ∈ (s.seq q).active m) := Seq.mem_active.mp hk
  have usable (a : W32) (ha : a ∈ xs.map fun e => e.1) : (s.vecStart q).usable q Needs.write a.toNat := by
    rw [List.map_map] at ha
    obtain ⟨k, hk, rfl⟩ := List.mem_map.mp ha
    exact State.vecStart_usable hq (h k (on hk).1 (on hk).2)
  have result : t = u.vecDone q (u.seq q) := State.afterCheck_usable (store := true) usable _
  obtain ⟨ctx, others, own, regs⟩ := storeWords_frame q xs (s.vecStart q)
  have after : t.seq q = (u.seq q).retired := by
    rw [result]
    exact State.seq_setSeq_same u q _
  have mem (b : Nat) : t.rdByte b = u.rdByte b := by
    rw [result]
    rfl
  have word (a : Nat) : t.wordAt a = u.wordAt a := by simp only [State.wordAt, mem]
  refine ⟨⟨?_, ?_, fun r => ?_, fun r k => ?_, fun r => ?_, fun r hr => ?_, fun a hv ht => ?_⟩, fun k hk hon hlast => ?_, fun b hb => ?_⟩
  · rw [after, own]
    rfl
  · rw [after, own]
    rfl
  · rw [after, own]
    rfl
  · rw [after, own]
    rfl
  · rw [after, own]
    rfl
  · rw [result]
    exact (State.seq_setSeq_ne u _ (by rw [ctx, ctx]; exact hr)).trans (others r hr)
  · rw [result]
    exact (regs a ht).trans (s.vecStart_rd hv)
  · rw [word]
    exact storeWords_lane _ _ ((s.seq q).active_pairwise m) (Seq.mem_active.mpr ⟨hk, hon⟩)
      (fun j hj => (h j (on hj).1 (on hj).2).1) fun j hj hkj => hlast j (on hj).1 hkj (on hj).2
  · rw [mem]
    refine storeWords_rdByte xs _ fun e he => ?_
    obtain ⟨k, hk, rfl⟩ := List.mem_map.mp he
    exact hb k (on hk).1 (on hk).2

/-- The trap of a misaligned address: the lowest active lane that has one, before any lane is accessed. -/
theorem State.vecStart_trap {s : State} {q : Nat} (hinh : (s.seq q).inh = false) (code : Nat) (tval : W32) :
    let t := (s.vecStart q).trap q code tval
    (t.seq q).cause = BitVec.ofNat 32 code ∧ (t.seq q).tval = tval ∧ (t.seq q).epc = (s.seq q).pc ∧
      (∀ r j, (t.seq q).lane r j = (s.seq q).lane r j) ∧ SameMemory s t := by
  intro t
  have taken : t = (s.vecStart q).setSeq q ((s.seq q).trapped code tval) := State.trap_eq (s := s.vecStart q) hinh code tval
  have after : t.seq q = (s.seq q).trapped code tval := by rw [taken, State.seq_setSeq_same]
  refine ⟨by rw [after]; rfl, by rw [after]; rfl, by rw [after]; rfl, fun r j => by rw [after]; rfl, fun a => ?_⟩
  rw [taken]
  rfl

/-- Settles O33: loads and stores whose addresses pass, and the trap of the lowest misaligned one. -/
theorem vectorMemoryResults : Obligations.VectorMemoryResults := by
  intro q m vd gb gs vs2 s hrun hlo hhi on strided indexed loads stores admits traps lowest
  have hv : hasV q = true := hasV_of_bounds hlo hhi
  have works (word : W32) (f : State → State) : s.vecInsn q word true f = f (s.vecStart q) := State.vecInsn_of_cluster hrun hv word f
  have trapped {store : Bool} {addr : Nat → W32} {k : Nat} (h : lowest (if store then Needs.write else Needs.read) addr k) (t : State) :
      traps (if store then 6 else 4) addr k ((s.vecStart q).afterCheck q store (selfNamed (((s.seq q).active m).map addr)) t) := by
    obtain ⟨hinh, hk, hon, hbad, hlow⟩ := h
    have reported := State.afterCheck_misaligned (s := s.vecStart q) ((s.seq q).active_pairwise m) (Seq.mem_active.mpr ⟨hk, hon⟩) hbad
      (fun j hj hjk => State.vecStart_usable hhi (hlow j hjk (Seq.mem_active.mp hj).2)) t
    rw [reported]
    cases store
    · exact State.vecStart_trap hinh 4 (addr k)
    · exact State.vecStart_trap hinh 6 (addr k)
  have storing {addr : Nat → W32} : (((s.seq q).active m).map fun k => (addr k, (s.seq q).lane vd k)).map (fun e => e.1) =
      ((s.seq q).active m).map addr := List.map_map ..
  have trappedStore {addr : Nat → W32} {k : Nat} (h : lowest Needs.write addr k) : traps 6 addr k ((s.vecStart q).vecStore q m vd addr) := by
    rw [State.vecStore, State.vecStart_seq, storing]
    exact trapped (store := true) h _
  exact ⟨fun h => ⟨_, congrArg Host.Outcome.next (works _ _), State.vecLoad_results hhi m vd h⟩,
    fun h => ⟨_, congrArg Host.Outcome.next (works _ _), State.vecLoad_results hhi m vd h⟩,
    fun h => ⟨_, congrArg Host.Outcome.next (works _ _), State.vecStore_results hhi m vd h⟩,
    fun h => ⟨_, congrArg Host.Outcome.next (works _ _), State.vecStore_results hhi m vd h⟩,
    fun k h => ⟨_, congrArg Host.Outcome.next (works _ _), trapped (store := false) h _⟩,
    fun k h => ⟨_, congrArg Host.Outcome.next (works _ _), trapped (store := false) h _⟩,
    fun k h => ⟨_, congrArg Host.Outcome.next (works _ _), trappedStore h⟩,
    fun k h => ⟨_, congrArg Host.Outcome.next (works _ _), trappedStore h⟩⟩

end Sys2Proof.Machine
end

section
/-! SUPPORT. POST: the checks of a record, what the ring and the holding queue receive, and the statement that rests on them (R82, R83,
R426, R427, R429 to R431, R433). -/

namespace Sys2Proof.Machine

/-! ### Words at rising addresses -/

theorem State.wrWords_cons (s : State) (a : Nat) (w : W32) (ws : List W32) :
    s.wrWords a (w :: ws) = (s.wrWord a w).wrWords (a + 4) ws := rfl

theorem State.wrWords_eq : ∀ (ws : List W32) (s : State) (a : Nat), s.wrWords a ws = { s with mem := (s.wrWords a ws).mem }
  | [], _, _ => rfl
  | w :: ws, s, a => by
    have first : s.wrWord a w = { s with mem := (s.wrWord a w).mem } := State.wrBytes_eq _ s a
    have rest := State.wrWords_eq ws (s.wrWord a w) (a + 4)
    rw [first] at rest
    rw [State.wrWords_cons, first]
    exact rest

theorem State.wrWords_rdByte_ne : ∀ (ws : List W32) (s : State) {a x : Nat}, x < a ∨ a + 4 * ws.length ≤ x →
    (s.wrWords a ws).rdByte x = s.rdByte x
  | [], _, _, _, _ => rfl
  | w :: ws, s, a, x, h => by
    rw [List.length_cons] at h
    rw [State.wrWords_cons, State.wrWords_rdByte_ne ws _ (by omega), State.wrWord_rdByte, if_neg (by omega)]

theorem State.wrWords_wordAt_ne : ∀ (ws : List W32) (s : State) {a b : Nat}, b + 4 ≤ a → (s.wrWords a ws).wordAt b = s.wordAt b
  | [], _, _, _, _ => rfl
  | w :: ws, s, a, b, h => by
    rw [State.wrWords_cons, State.wrWords_wordAt_ne ws _ (by omega), State.wrWord_wordAt_ne s w (Or.inl h)]

/-- Each of the words written is read at its place. -/
theorem State.wrWords_wordAt {w : W32} (ws : List W32) (s : State) (a i : Nat) (h : ws[i]? = some w) :
    (s.wrWords a ws).wordAt (a + 4 * i) = w := by
  induction ws generalizing s a i with
  | nil => cases h
  | cons v ws ih =>
    rw [State.wrWords_cons]
    cases i with
    | zero =>
      obtain rfl : v = w := by simpa using h
      exact (State.wrWords_wordAt_ne ws (s.wrWord a v) (Nat.le_refl _)).trans (s.wrWord_wordAt_same a v)
    | succ i =>
      have place : a + 4 * (i + 1) = a + 4 + 4 * i := by omega
      rw [place]
      exact ih _ _ _ (by simpa using h)

/-! ### A record enters a ring -/

theorem State.raiseIrq_ev (s : State) (src : Nat) : (s.raiseIrq src).ev = s.ev := by
  have latched (l : List (Nat × Nat)) (t : State) : (l.foldl (fun t l => t.latchLine l.1 l.2) t).ev = t.ev :=
    List.foldlRecOn (motive := fun (u : State) => u.ev = t.ev) l _ rfl fun _ h _ _ => h
  have sent (l : List Nat) (t : State) : (l.foldl State.msixRequest t).ev = t.ev :=
    List.foldlRecOn (motive := fun (u : State) => u.ev = t.ev) l _ rfl fun u h v _ => by
      unfold State.msixRequest
      split <;> exact h
  exact (sent _ _).trans (latched _ _)

/-- The state in which a ring has received a record's words and its WR has advanced. -/
def State.ringFilled (s : State) (r : Nat) (words : List W32) : State :=
  ((s.wrWords (eventBank + s.ringOffset r + s.get (F.SUP_RING_WR_wr r) * 32) words).cellsCleared
    (eventBank + s.ringOffset r + s.get (F.SUP_RING_WR_wr r) * 32) 32).set (F.SUP_RING_WR_wr r)
    ((s.get (F.SUP_RING_WR_wr r) + 1) % s.ringEntries r)

/-- Beyond that a ring's write may request an interrupt. -/
theorem State.ringWrite_quiet (s : State) (r : Nat) (words : List W32) : Quiet (s.ringFilled r words) (s.ringWrite r words) := by
  unfold State.ringWrite
  extract_lets was wr a t
  have filled : t = s.ringFilled r words := rfl
  rw [← filled]
  split
  · exact t.raiseIrq_quiet 63
  · exact Touches.refl _ t

theorem State.ringFilled_eq (s : State) (r : Nat) (words : List W32) : ∃ mem cells, s.ringFilled r words =
    { s with mem := mem, cells := cells, regs := (s.ringFilled r words).regs } := by
  refine ⟨(s.ringFilled r words).mem, (s.ringFilled r words).cells, ?_⟩
  unfold State.ringFilled
  rw [State.wrWords_eq words s]
  rfl

theorem State.ringWrite_ev (s : State) (r : Nat) (words : List W32) : (s.ringWrite r words).ev = s.ev := by
  have filled : (s.ringFilled r words).ev = s.ev := by
    obtain ⟨mem, cells, h⟩ := s.ringFilled_eq r words
    rw [h]
  refine Eq.trans ?_ filled
  unfold State.ringWrite
  extract_lets was wr a t
  split
  · exact t.raiseIrq_ev 63
  · rfl

/-- A ring's write pointer after a record. -/
theorem State.ringWrite_wr (s : State) {r : Nat} (hr : r < 16) (words : List W32) :
    (s.ringWrite r words).get (F.SUP_RING_WR_wr r) = (s.get (F.SUP_RING_WR_wr r) + 1) % s.ringEntries r := by
  have apart : ¬ postReg (R.SUP_RING_WR r) := by
    simp only [postReg, R.SUP_DROP, R.SUP_RING_WR]
    omega
  have entries : s.ringEntries r ≤ 2 ^ 16 := Nat.pow_le_pow_right (by decide) (by omega)
  have positive : 0 < s.ringEntries r := Nat.pow_pos (by decide)
  have below : (s.get (F.SUP_RING_WR_wr r) + 1) % s.ringEntries r < 2 ^ 16 := Nat.lt_of_lt_of_le (Nat.mod_lt _ positive) entries
  refine ((s.ringWrite_quiet r words).get (F.SUP_RING_WR_wr r) apart).trans ?_
  exact (State.get_set_same _ (F.SUP_RING_WR_wr r) _ (Nat.zero_le 15) (by simp only [F.SUP_RING_WR_wr]; omega)).trans
    (Nat.mod_eq_of_lt below)

theorem State.ringWrite_rdByte (s : State) (r : Nat) (words : List W32) (x : Nat) : (s.ringWrite r words).rdByte x =
    (s.wrWords (eventBank + s.ringOffset r + s.get (F.SUP_RING_WR_wr r) * 32) words).rdByte x :=
  (s.ringWrite_quiet r words).mem x

theorem State.ringWrite_seq (s : State) (r : Nat) (words : List W32) (q : Nat) :
    (s.ringWrite r words).seq q = { s.seq q with latched := ((s.ringWrite r words).seq q).latched } := by
  have filled : (s.ringFilled r words).seq q = s.seq q := by
    obtain ⟨mem, cells, h⟩ := s.ringFilled_eq r words
    rw [h]
    rfl
  have quiet := (s.ringWrite_quiet r words).seq q
  rwa [filled] at quiet

/-- A sequencer that executes still does where its context's run state and the variant are as before. -/
theorem State.executes_congr {s t : State} {q : Nat} (hrun : (t.seq q).run = (s.seq q).run) (hpairs : t.splitPairs = s.splitPairs)
    (hlanes : t.lanesOff = s.lanesOff) (hclusters : t.clustersOff = s.clustersOff) : t.executes q = s.executes q := by
  simp only [State.executes, State.isShadow, State.lockstep, State.seqFused, State.laneFused, State.rcFused, hrun, hpairs, hlanes,
    hclusters]

theorem State.ringWrite_executes (s : State) (r : Nat) (words : List W32) (q : Nat) : (s.ringWrite r words).executes q = s.executes q := by
  have core := (s.ringWrite_quiet r words).core
  obtain ⟨mem, cells, filled⟩ := s.ringFilled_eq r words
  refine State.executes_congr (by rw [s.ringWrite_seq]) ?_ ?_ ?_ <;> rw [core, filled]

/-! ### The checks of a record -/

theorem bitsOf_high (w : W32) : bitsOf w 31 24 = w.toNat / 2 ^ 24 := Nat.mod_eq_of_lt (by simp only [Nat.reducePow]; omega)

theorem bitsOf_lt (w : W32) (hi lo : Nat) : bitsOf w hi lo < 2 ^ (hi + 1 - lo) := Nat.mod_lt _ (Nat.pow_pos (by decide))

theorem State.ringOf_lt (s : State) (src : Nat) : s.ringOf src < 16 := by
  have width : src % 8 * 4 + 3 + 1 - src % 8 * 4 = 4 := by omega
  have bound := bitsOf_lt (s.rd (R.SUP_SRCMAP (src / 8))) (src % 8 * 4 + 3) (src % 8 * 4)
  rwa [width] at bound

theorem bitsOf_low (w : W32) : bitsOf w 15 0 = w.toNat % 2 ^ 16 := by
  rw [bitsOf, Nat.pow_zero, Nat.div_one]

/-- A source id that POST may not use. -/
theorem State.postCheck_other {s : State} {q : Nat} {ctl : W32} {src : Nat} (hsrc : bitsOf ctl 31 24 = src) (hlo : 1 ≤ src) (hhi : src ≤ 117)
    (hne : src ≠ q) : s.postCheck q ctl = 4 := by
  simp [State.postCheck, hsrc, hlo, hhi, hne]

/-- A firmware source that is granted to another sequencer, or to none. -/
theorem State.postCheck_ungranted {s : State} {q : Nat} {ctl : W32} {src : Nat} (hsrc : bitsOf ctl 31 24 = src) (hsource : 118 ≤ src)
    (h : ¬(s.flag (F.SUP_FWG_en (src - 118)) = true ∧ s.get (F.SUP_FWG_seq (src - 118)) = q)) : s.postCheck q ctl = 2 := by
  have high : ¬ src ≤ 117 := by omega
  have refused : (s.flag (F.SUP_FWG_en (src - 118)) && s.get (F.SUP_FWG_seq (src - 118)) == q) = false := by
    rw [Bool.eq_false_iff]
    simpa using h
  simp [State.postCheck, hsrc, high, hsource, refused]

/-- A source that POST may use: its own, by 0 or by name, or one granted; the kind decides. -/
theorem State.postCheck_own {s : State} {q : Nat} {ctl : W32} {src kind : Nat} (hsrc : bitsOf ctl 31 24 = src) (hkind : bitsOf ctl 15 0 = kind)
    (hq : q < 118)
    (h : src = 0 ∨ src = q ∨ 118 ≤ src ∧ s.flag (F.SUP_FWG_en (src - 118)) = true ∧ s.get (F.SUP_FWG_seq (src - 118)) = q) :
    s.postCheck q ctl = if kind < 0x8000 then 3 else 0 := by
  have first : ¬(1 ≤ src ∧ src ≤ 117 ∧ src ≠ q) := by omega
  have second : ¬(118 ≤ src && !(s.flag (F.SUP_FWG_en (src - 118)) && s.get (F.SUP_FWG_seq (src - 118)) == q)) = true := by
    obtain rfl | rfl | ⟨-, en, owner⟩ := h
    · simp
    · simp
      omega
    · simp [en, owner]
  simp only [State.postCheck, hsrc, hkind, if_neg first, if_neg second]

/-- POST with an even rs3: the code of the failing check in rd. -/
theorem State.postInsn_refused {s : State} {q : Nat} (hrun : s.executes q = true) {rs3 : BitVec 5} (heven : rs3.toNat % 2 = 0)
    (rd rs1 rs2 : BitVec 5) {code : Nat} (hcode : s.postCheck q ((s.seq q).x rs1) = code) (hne : code ≠ 0) :
    s.postInsn q rd rs1 rs2 rs3 = s.withResult q rd (w32 code) := by
  rw [← State.alu_eq_withResult hrun]
  simp [State.postInsn, hrun, heven, hcode, hne]

/-- The location a POST names: its own, or a register pair (R82). -/
def Seq.postLoc (c : Seq) (q : Nat) (rs3 : BitVec 5) : W64 := if rs3 = 0 then seqLoc q else (c.x (rs3 + 1)) ++ (c.x rs3)

theorem State.postInsn_checked {s : State} {q : Nat} (hrun : s.executes q = true) {rs3 : BitVec 5} (heven : rs3.toNat % 2 = 0)
    (rd rs1 rs2 : BitVec 5) (hcode : s.postCheck q ((s.seq q).x rs1) = 0) :
    let r := s.postFirmware (s.postRecord q ((s.seq q).x rs1) ((s.seq q).x rs2) ((s.seq q).postLoc q rs3))
    s.postInsn q rd rs1 rs2 rs3 = r.2.alu q rd (w32 r.1) := by
  simp [State.postInsn, hrun, heven, hcode, Seq.postLoc]

theorem State.sourceDrained_of_empty {s : State} {r : Rec} (h : tabGet [] s.ev.buf r.src = []) : s.sourceDrained r.src = s := by
  rw [State.sourceDrained, h]
  rfl

theorem State.accept_ring {s : State} {r : Rec} (hen : s.flag (F.SUP_RING_CFG_en (s.ringOf r.src)) = true)
    (hfirst : ∀ h ∈ s.ev.holding, h.1 ≠ s.ringOf r.src) : s.accept r =
      if s.ringRefuses (s.ringOf r.src) r.sev then (.refusedByRing, s)
      else (.ring, (s.ringWrite (s.ringOf r.src) (s.recordWords r)).numbered r.src) := by
  have nobody : s.ev.holding.any (fun h => h.1 == s.ringOf r.src) = false := by
    simpa [List.any_eq_false] using hfirst
  simp [State.accept, hen, nobody]

theorem State.accept_hold {s : State} {r : Rec} (hen : s.flag (F.SUP_RING_CFG_en (s.ringOf r.src)) = false) : s.accept r =
      if 64 ≤ s.ev.holding.length then (.holdFull, s)
      else (.held, { s with ev := { s.ev with holding := s.ev.holding ++ [(s.ringOf r.src, r.sev, s.recordWords r)] } }.numbered r.src) := by
  simp [State.accept, hen]

/-- A source's number used and rd written: what that leaves of the state in which the record stands. -/
theorem State.numbered_alu {u : State} {q : Nat} (hrun : u.executes q = true) (src : Nat) (rd : BitVec 5) :
    let t := (u.numbered src).alu q rd (w32 0)
    t.seq q = { (u.seq q).setX rd 0 with pc := (u.seq q).pc + 4, instret := (u.seq q).instret + 1 } ∧ OtherSeqsSame q u t ∧
      t.regs = u.regs ∧ SameMemory u t ∧ t.ev.seqNo = tabPut u.ev.seqNo src ((tabGet 0 u.ev.seqNo src + 1) % 2 ^ 24) ∧
      t.ev.holding = u.ev.holding := by
  intro t
  have result : t = (u.numbered src).withResult q rd 0 := State.alu_eq_withResult (s := u.numbered src) hrun rd 0
  rw [result]
  exact ⟨State.seq_setSeq_same (u.numbered src) q _, (u.numbered src).setSeq_others q _, rfl, fun _ => rfl, rfl, rfl⟩

/-- A record accepted into its ring: what POST leaves. -/
theorem State.posted_ring {s : State} {q : Nat} (hrun : s.executes q = true) {r : Rec} {ring : Nat} (hring : ring < 16)
    (rd : BitVec 5) {words : List W32} (hwords : words.length = 8) {w0 w7 : W32} (h0 : words[0]? = some w0) (h7 : words[7]? = some w7) :
    let t := ((s.ringWrite ring words).numbered r.src).alu q rd (w32 0)
    let entry := eventBank + s.ringOffset ring + s.get (F.SUP_RING_WR_wr ring) * 32
    (t.seq q).pc = (s.seq q).pc + 4 ∧ (t.seq q).instret = (s.seq q).instret + 1 ∧
      (∀ g, (t.seq q).x g = if g = rd ∧ rd ≠ 0 then 0 else (s.seq q).x g) ∧
      tabGet 0 t.ev.seqNo r.src = (tabGet 0 s.ev.seqNo r.src + 1) % 2 ^ 24 ∧
      t.get (F.SUP_RING_WR_wr ring) = (s.get (F.SUP_RING_WR_wr ring) + 1) % s.ringEntries ring ∧
      t.wordAt entry = w0 ∧ t.wordAt (entry + 28) = w7 ∧ ∀ a, a < entry ∨ entry + 32 ≤ a → t.rdByte a = s.rdByte a := by
  intro t entry
  obtain ⟨after, -, regs, memory, numbered, -⟩ :=
    State.numbered_alu (u := s.ringWrite ring words) ((s.ringWrite_executes ring words q).trans hrun) r.src rd
  have byte (a : Nat) : t.rdByte a = (s.wrWords entry words).rdByte a := (memory a).trans (s.ringWrite_rdByte ring words a)
  have word (a : Nat) : t.wordAt a = (s.wrWords entry words).wordAt a := by simp only [State.wordAt, byte]
  rw [s.ringWrite_seq] at after
  rw [s.ringWrite_ev] at numbered
  refine ⟨by rw [after], by rw [after], fun g => ?_, by rw [numbered, tabGet_put_same], ?_, ?_, ?_, fun a ha => ?_⟩
  · rw [after]
    exact Seq.x_setX _ rd g 0
  · exact (State.get_congr regs _).trans (s.ringWrite_wr hring words)
  · exact (word entry).trans (State.wrWords_wordAt words s entry 0 h0)
  · exact (word (entry + 28)).trans (State.wrWords_wordAt words s entry 7 h7)
  · rw [byte, State.wrWords_rdByte_ne words s (by omega)]

/-- A record held for its ring: what POST leaves. -/
theorem State.posted_held {s : State} {q : Nat} (hrun : s.executes q = true) (r : Rec) (held : Nat × Nat × List W32) (rd : BitVec 5) :
    let t := (({ s with ev := { s.ev with holding := s.ev.holding ++ [held] } } : State).numbered r.src).alu q rd (w32 0)
    Retires q rd 0 s t ∧ t.regs = s.regs ∧ SameMemory s t ∧ OtherSeqsSame q s t ∧
      tabGet 0 t.ev.seqNo r.src = (tabGet 0 s.ev.seqNo r.src + 1) % 2 ^ 24 ∧ t.ev.holding = s.ev.holding ++ [held] := by
  intro t
  obtain ⟨after, others, regs, memory, numbered, holding⟩ :=
    State.numbered_alu (u := { s with ev := { s.ev with holding := s.ev.holding ++ [held] } }) hrun r.src rd
  exact ⟨retires_of_seq (b := ((s.seq q).setX rd 0).tbuf) after, regs, memory, others, by rw [numbered, tabGet_put_same], holding⟩

/-- Settles O26: the checks in their order, then `State.accept_ring` or `State.accept_hold`. -/
theorem postResults : Obligations.PostResults := by
  intro q rd rs1 rs2 rs3 s hrun
  refine ⟨fun hodd hinh => ?odd, fun heven => ?even⟩
  case odd =>
    have result : s.postInsn q rd rs1 rs2 rs3 = s.trap q trapIllegal (xWord 0x34 rd rs1 rs2 rs3 0x10) := by
      simp [State.postInsn, hrun, hodd, State.illegal]
    obtain ⟨epc, cause, -⟩ := State.trap_taken hinh trapIllegal (xWord 0x34 rd rs1 rs2 rs3 0x10)
    exact ⟨_, congrArg Host.Outcome.next result, cause, epc⟩
  extract_lets ctl src kind granted own ring entry
  have hsrc : bitsOf ctl 31 24 = src := bitsOf_high ctl
  have hkind : bitsOf ctl 15 0 = kind := bitsOf_low ctl
  have refused {code : Nat} (h : s.postCheck q ctl = code) (hne : code ≠ 0) :
      exec (.post q rd rs1 rs2 rs3) s = .next (s.withResult q rd (w32 code)) :=
    congrArg Host.Outcome.next (State.postInsn_refused hrun heven rd rs1 rs2 h hne)
  have owned (h : src = 0 ∨ src = q ∨ 118 ≤ src ∧ granted) : s.postCheck q ctl = if kind < 0x8000 then 3 else 0 := by
    refine State.postCheck_own hsrc hkind (by omega) (h.imp_right (Or.imp_right fun ⟨hfirm, hgranted⟩ => ⟨hfirm, ?_⟩))
    exact hgranted.resolve_left (by omega)
  let r := s.postRecord q ctl ((s.seq q).x rs2) ((s.seq q).postLoc q rs3)
  have source : r.src = own := by
    simp only [r, State.postRecord, hsrc, own]
  have severity : r.sev = ctl.toNat / 2 ^ 16 % 16 := rfl
  have target : s.ringOf r.src = ring := by rw [source]
  have words0 : (s.recordWords r)[0]? = some (BitVec.ofNat 32 (own * 2 ^ 24 + tabGet 0 s.ev.seqNo own % 2 ^ 24)) := by
    rw [← source]
    rfl
  have offered (h : src = 0 ∨ src = q ∨ 118 ≤ src ∧ granted) (hfirm : 0x8000 ≤ kind) :
      exec (.post q rd rs1 rs2 rs3) s = .next ((s.postFirmware r).2.alu q rd (w32 (s.postFirmware r).1)) :=
    congrArg Host.Outcome.next (State.postInsn_checked hrun heven rd rs1 rs2 ((owned h).trans (if_neg (by omega))))
  refine ⟨fun hlo hhi hne => refused (State.postCheck_other hsrc hlo hhi hne) (by decide), fun hungranted => ?ungranted,
    fun h hlow => refused ((owned h).trans (if_pos hlow)) (by decide), fun h hfirm hempty hen hfirst => ?ring,
    fun h hfirm hempty hen => ?hold⟩
  case ungranted =>
    have parts := not_or.mp hungranted
    exact refused (State.postCheck_ungranted hsrc (by omega) parts.2) (by decide)
  case ring =>
    have drained : s.sourceDrained r.src = s := State.sourceDrained_of_empty (source ▸ hempty)
    have accepted := State.accept_ring (r := r) (by rw [target]; exact hen) (by rw [target]; exact hfirst)
    rw [target, severity] at accepted
    constructor
    · intro hroom
      rw [hroom] at accepted
      have result : s.postFirmware r = (0, (s.ringWrite ring (s.recordWords r)).numbered r.src) := by
        simp [State.postFirmware, drained, accepted]
      refine ⟨_, (offered h hfirm).trans (by rw [result]), ?_⟩
      rw [← source] at words0 ⊢
      exact State.posted_ring hrun (s.ringOf_lt own) rd rfl words0 rfl
    · intro hfull
      rw [hfull] at accepted
      have result : s.postFirmware r = (1, s) := by
        simp [State.postFirmware, drained, accepted]
      exact (offered h hfirm).trans (by rw [result]; exact congrArg Host.Outcome.next (State.alu_eq_withResult hrun rd 1))
  case hold =>
    have drained : s.sourceDrained r.src = s := State.sourceDrained_of_empty (source ▸ hempty)
    have accepted := State.accept_hold (r := r) (by rw [target]; exact hen)
    rw [target, severity] at accepted
    constructor
    · intro hroom
      rw [if_neg (by omega)] at accepted
      have result : s.postFirmware r = (0, ({ s with ev := { s.ev with
          holding := s.ev.holding ++ [(ring, ctl.toNat / 2 ^ 16 % 16, s.recordWords r)] } } : State).numbered r.src) := by
        simp [State.postFirmware, drained, accepted]
      obtain ⟨retires, regs, memory, others, numbered, holding⟩ :=
        State.posted_held hrun r (ring, ctl.toNat / 2 ^ 16 % 16, s.recordWords r) rd
      refine ⟨_, (offered h hfirm).trans (by rw [result]), retires, regs, memory, others, ?_, _, holding, words0, rfl⟩
      rw [← source]
      exact numbered
    · intro hfull
      rw [if_pos hfull] at accepted
      have result : s.postFirmware r = (1, s) := by
        simp [State.postFirmware, drained, accepted]
      exact (offered h hfirm).trans (by rw [result]; exact congrArg Host.Outcome.next (State.alu_eq_withResult hrun rd 1))

end Sys2Proof.Machine
end

section
/-! SUPPORT. The position instructions: waits, stamps and pairs, arming and cancelling; what freeing the slots of a cancelled entry leaves,
and the statement that rests on them (R61, R62, R123, R134, R137, R138, R142, R150). -/

namespace Sys2Proof.Machine

/-! ### What freeing slots and sending CANCELs leaves -/

/-- From `s` to `t` no sequencer changes but in its latched lines, no lane but the one named, and that one keeps its queue. -/
structure LaneAside (lane : Nat) (s t : State) : Prop where
  seq : ∀ q, t.seq q = { s.seq q with latched := (t.seq q).latched }
  pairs : t.splitPairs = s.splitPairs
  lanesOff : t.lanesOff = s.lanesOff
  clustersOff : t.clustersOff = s.clustersOff
  uptime : t.uptime = s.uptime
  others : ∀ j, j ≠ lane → t.lane j = s.lane j
  queue : (t.lane lane).queue = (s.lane lane).queue

theorem LaneAside.refl (lane : Nat) (s : State) : LaneAside lane s s := ⟨fun _ => rfl, rfl, rfl, rfl, rfl, fun _ _ => rfl, rfl⟩

theorem LaneAside.trans {lane : Nat} {s t u : State} (h : LaneAside lane s t) (k : LaneAside lane t u) : LaneAside lane s u := by
  refine ⟨fun q => ?_, k.pairs.trans h.pairs, k.lanesOff.trans h.lanesOff, k.clustersOff.trans h.clustersOff,
    k.uptime.trans h.uptime, fun j hj => (k.others j hj).trans (h.others j hj), k.queue.trans h.queue⟩
  have later := k.seq q
  rwa [h.seq q] at later

theorem LaneAside.foldl {α : Type} {lane : Nat} {f : State → α → State} (h : ∀ s x, LaneAside lane s (f s x)) :
    ∀ (l : List α) (s : State), LaneAside lane s (l.foldl f s)
  | [], s => LaneAside.refl lane s
  | x :: l, s => (h s x).trans (LaneAside.foldl h l (f s x))

theorem Touches.laneAside {P : Nat → Prop} {s t : State} (h : Touches P s t) (lane : Nat) : LaneAside lane s t := by
  have core := h.core
  refine ⟨h.seq, ?_, ?_, ?_, ?_, fun j _ => ?_, ?_⟩ <;> rw [core]
  · rfl
  · rfl

/-- Where sequencers and lanes are untouched, the rest is free. -/
theorem LaneAside.of_fields {s t : State} (lane : Nat) (hseqs : t.seqs = s.seqs) (hpairs : t.splitPairs = s.splitPairs)
    (hlanesOff : t.lanesOff = s.lanesOff) (hclustersOff : t.clustersOff = s.clustersOff) (huptime : t.uptime = s.uptime)
    (hlanes : t.lanes = s.lanes) : LaneAside lane s t := by
  have shadow (q : Nat) : t.isShadow q = s.isShadow q := by simp only [State.isShadow, State.lockstep, hpairs]
  have context (q : Nat) : t.seq q = s.seq q := by rw [State.seq, State.seq, State.ctxOf, State.ctxOf, shadow, hseqs]
  have same (j : Nat) : t.lane j = s.lane j := by simp only [State.lane, hlanes]
  exact ⟨fun q => by rw [context], hpairs, hlanesOff, hclustersOff, huptime, fun j _ => same j, by rw [same]⟩

theorem State.memCE_aside (lane : Nat) (s : State) (a : Nat) (loc : W64) (extra : Nat) : LaneAside lane s (s.memCE a loc extra) := by
  unfold State.memCE
  extract_lets u n t
  have logged : LaneAside lane s t := LaneAside.of_fields lane rfl rfl rfl rfl rfl rfl
  split
  · exact (logged.trans ((t.post_quiet 63 0x440 loc _).laneAside lane)).trans (LaneAside.of_fields lane rfl rfl rfl rfl rfl rfl)
  · exact logged.trans (LaneAside.of_fields lane rfl rfl rfl rfl rfl rfl)

theorem State.memUE_aside (lane : Nat) (s : State) (reader a : Nat) : LaneAside lane s (s.memUE reader a) := by
  have logged : LaneAside lane s ((s.bump F.MEM_UECNT_v).logError (memLoc 2 a 0)) := LaneAside.of_fields lane rfl rfl rfl rfl rfl rfl
  exact logged.trans ((State.post_quiet _ 63 0x441 (memLoc 2 a 0) (w32 (reader % 256))).laneAside lane)

theorem State.drawn_aside (lane : Nat) (s : State) : LaneAside lane s s.drawn := LaneAside.of_fields lane rfl rfl rfl rfl rfl rfl

theorem State.eccRead_aside (lane : Nat) (s : State) (reader a : Nat) : LaneAside lane s (s.eccRead reader a).2 := by
  unfold State.eccRead
  split
  · exact LaneAside.refl lane s
  · exact s.memCE_aside lane a _ _
  · split
    · exact s.memCE_aside lane a _ _
    · exact s.memCE_aside lane a _ _
  · exact s.memUE_aside lane reader a
  · split
    · exact (s.drawn_aside lane).trans (s.drawn.memUE_aside lane reader a)
    · exact (s.drawn_aside lane).trans (s.drawn.memCE_aside lane a _ _)
    · exact s.drawn_aside lane

theorem eccSpan_aside (lane reader : Nat) {stop : Nat} : ∀ (n a : Nat) (s : State), LaneAside lane s (eccSpan reader a stop n s).2
  | 0, _, s => LaneAside.refl lane s
  | n + 1, a, s => by
    have first := s.eccRead_aside lane reader a
    unfold eccSpan
    split
    · exact LaneAside.refl lane s
    · split
      · next read => rwa [read] at first
      · next t _ read =>
        rw [read] at first
        have rest := eccSpan_aside lane reader (stop := stop) n (memWordBase a + if isSram a then 4 else 8) t
        dsimp only
        split
        · next u span =>
          rw [span] at rest
          exact first.trans rest
        · exact first.trans rest

theorem State.dataRead_aside (lane : Nat) (s : State) (reader a len : Nat) : LaneAside lane s (s.dataRead reader a len).2 := by
  have range : LaneAside lane s (s.eccRange reader a len).2 := by
    unfold State.eccRange
    split
    · exact eccSpan_aside lane reader _ a s
    · exact LaneAside.refl lane s
  unfold State.dataRead
  split
  · next read => rwa [read] at range
  · next read =>
    rw [read] at range
    exact range.trans (LaneAside.of_fields lane rfl rfl rfl rfl rfl rfl)
  · next read => rwa [read] at range

theorem State.putHeader_aside (lane : Nat) (s : State) (l pos tag : Nat) (h : W32) : LaneAside lane s (s.putHeader l pos tag h) := by
  have wrote : s.wrWord (slotHeader l pos tag) h = { s with mem := (s.wrWord (slotHeader l pos tag) h).mem } := State.wrBytes_eq _ s _
  unfold State.putHeader State.cellCleared
  rw [wrote]
  exact LaneAside.of_fields lane rfl rfl rfl rfl rfl rfl

theorem State.headerRead_aside (lane : Nat) (s : State) (l pos tag : Nat) : LaneAside lane s (s.headerRead l pos tag).2 := by
  have read := s.dataRead_aside lane 0xFF (slotHeader l pos tag) 4
  unfold State.headerRead
  split <;> next found => rwa [found] at read

theorem State.freeSlot_aside (lane : Nat) (s : State) (l pos tag : Nat) : LaneAside lane s (s.freeSlot l pos tag) := by
  have read := s.headerRead_aside lane l pos tag
  unfold State.freeSlot
  split
  · next header =>
    rw [header] at read
    split
    · exact read.trans (State.putHeader_aside lane _ l pos tag _)
    · exact read
  · next header =>
    rw [header] at read
    exact read.trans (State.putHeader_aside lane _ l pos tag _)

theorem State.lane_setLane_same (s : State) (n : Nat) (l : Lane) : (s.setLane n l).lane n = l := by
  simp only [State.lane, State.setLane, tabGet_put_same]

theorem State.lane_setLane_ne (s : State) {n j : Nat} (l : Lane) (h : j ≠ n) : (s.setLane n l).lane j = s.lane j := by
  simp only [State.lane, State.setLane, tabGet_put_ne _ _ _ h]

theorem State.sendCancel_aside (lane : Nat) (s : State) (e : Entry) : LaneAside lane s (s.sendCancel lane e) := by
  unfold State.sendCancel State.sendSet
  extract_lets m l
  split
  · exact LaneAside.refl lane s
  · split
    · refine ⟨fun _ => rfl, rfl, rfl, rfl, rfl, fun j hj => s.lane_setLane_ne _ hj, ?_⟩
      rw [s.lane_setLane_same]
    · exact LaneAside.refl lane s

/-- What follows once the entries have left the queue leaves the rest aside. -/
theorem State.removeEntries_aside (s : State) (lane : Nat) (p : Entry → Bool) :
    LaneAside lane (s.setLane lane { s.lane lane with queue := (s.lane lane).queue.filter (fun e => !p e) }) (s.removeEntries lane p).2 :=
  LaneAside.foldl (f := fun u e => (u.freeSlots lane e).sendCancel lane e)
    (fun u e => (LaneAside.foldl (fun v x => v.freeSlot_aside lane lane x e.tag) (positions e.mask) u).trans
      (State.sendCancel_aside lane _ e)) _ _

/-- Entries removed from a lane's queue: their number, what stays, and what that leaves of the rest (R150). -/
theorem State.removeEntries_spec (s : State) (lane : Nat) (p : Entry → Bool) :
    let r := s.removeEntries lane p
    r.1 = ((s.lane lane).queue.filter p).length ∧ (r.2.lane lane).queue = (s.lane lane).queue.filter (fun e => !p e) ∧
      (∀ j, j ≠ lane → r.2.lane j = s.lane j) ∧ (∀ q, r.2.seq q = { s.seq q with latched := (r.2.seq q).latched }) ∧
      ∀ q, r.2.executes q = s.executes q := by
  intro r
  have aside := s.removeEntries_aside lane p
  refine ⟨rfl, ?_, fun j hj => ?_, aside.seq, fun q => ?_⟩
  · rw [aside.queue, s.lane_setLane_same]
  · rw [aside.others j hj, s.lane_setLane_ne _ hj]
  · exact State.executes_congr (by rw [aside.seq]; rfl) aside.pairs aside.lanesOff aside.clustersOff

end Sys2Proof.Machine
end

section
/-! SUPPORT. The position instructions themselves, and the statement on them (R61, R62, R123, R134, R137, R138, R142, R150). -/

namespace Sys2Proof.Machine

theorem bitsOf_bit (w : W32) (k : Nat) : (bitsOf w k k == 1) = w.getLsbD k := by
  have width : k + 1 - k = 1 := by omega
  rw [bitsOf, width, Nat.pow_one, ← natBit_toNat]
  rfl

theorem hasT_of_ge {q : Nat} (h : 24 ≤ q) : hasT q = true := by
  unfold hasT groupOf
  rw [if_neg (by omega), if_neg (by omega), if_neg (by omega)]
  rfl

theorem hasT_of_lt {q : Nat} (h : q < 24) : hasT q = false := by
  unfold hasT groupOf
  split
  · rfl
  · split
    · rfl
    · rfl

/-! ### Waits and pairs -/

/-- WAITP on a link engine, its operands taken apart. -/
theorem State.waitp_eq {s : State} {q : Nat} (hrun : s.executes q = true) (ht : hasT q = true) (rd rs1 rs2 rs3 : BitVec 5) :
    s.waitp q rd rs1 rs2 rs3 =
      let n := ((s.seq q).x rs1).toNat % 8
      let rev := ((s.seq q).x rs1).getLsbD 8
      if (s.axis n).valid = false then s.withResult q rd 4
      else if atOrBeyond rev (s.axisSill n rev) ((s.seq q).x rs2) then s.withResult q rd 0
      else s.setSeq q { s.seq q with run := .waiting, wait := .position n rev ((s.seq q).x rs2) rd.toNat ((s.seq q).x rs3).toNat s.uptime } := by
  have unit : bitsOf ((s.seq q).x rs1) 2 0 = ((s.seq q).x rs1).toNat % 8 := by
    rw [bitsOf, Nat.pow_zero, Nat.div_one]
    rfl
  simp only [State.waitp, hrun, ht, unit, bitsOf_bit, State.alu_eq_withResult hrun, Bool.not_true, Bool.false_eq_true, if_false,
    Bool.not_eq_true']

theorem State.axisGroup_eq (s : State) (n : Nat) {g : Nat} (hg : g < 4) : s.axisGroup n g =
    (if g = 0 then (s.axis n).a.count else if g = 1 then (s.axisPos n).setWidth 32
        else if g = 2 then BitVec.ofNat 32 (s.axis n).a.te else (s.axis n).sillF.setWidth 32,
      if g = 0 then s.axisWord .AX_STATE n &&& 0xFF07C0FF
        else if g = 1 then (if (s.axis n).a.rev then (s.axis n).sillR else (s.axis n).sillF).setWidth 32
        else if g = 2 then s.axisWord .AX_SPEED n else (s.axis n).sillR.setWidth 32) := by
  obtain rfl | rfl | rfl | rfl : g = 0 ∨ g = 1 ∨ g = 2 ∨ g = 3 := by omega
  all_goals rfl

theorem pairOk_of_even {rd : BitVec 5} (heven : rd.toNat % 2 = 0) (hne : rd ≠ 0) : pairOk rd = true := by
  simp only [pairOk, heven, bne_iff_ne.mpr hne]
  rfl

theorem pairOk_of_bad {rd : BitVec 5} (h : rd.toNat % 2 = 1 ∨ rd = 0) : pairOk rd = false := by
  obtain hodd | rfl := h
  · simp [pairOk, hodd]
  · rfl

/-- An exception of code 2, as the statements on illegal words put it. -/
theorem State.illegal_taken {s : State} {q : Nat} (hinh : (s.seq q).inh = false) (word : W32) :
    ((s.illegal q word).seq q).cause = 2 ∧ ((s.illegal q word).seq q).epc = (s.seq q).pc := by
  obtain ⟨epc, cause, -⟩ := State.trap_taken hinh trapIllegal word
  exact ⟨cause, epc⟩

/-- A wait for a position that ends with a code. -/
theorem State.completeWait_done (s : State) (q : Nat) (rd : BitVec 5) (code : W32) : WaitDone q rd code s (s.completeWait q rd.toNat code) :=
  waitDone_of_completed (State.seq_setSeq_same s q _) rfl rfl rfl fun _ => rfl

/-! ### Arming -/

/-- A descriptor that ARM refuses with code 3 (R138). -/
def State.armBad (s : State) (lane : Nat) (d : W32) : Prop :=
  s.flag (F.LANE_SCHED_en lane) = false ∨ d.toNat / 2 ^ 16 = 0 ∨ d.toNat % 16 ≠ 0 ∨ s.flag (F.BAR_CFG_en (d.toNat / 2 ^ 5 % 8)) = false ∨
    s.flag (F.BAR_STAT_rdy (d.toNat / 2 ^ 5 % 8)) = false ∨
    (d.getLsbD 4 = true ∧ s.flag (F.AX_CFG_bidir (s.get (F.BAR_CFG_axis (d.toNat / 2 ^ 5 % 8)))) = false) ∨
    ∃ p < 16, natBit (d.toNat / 2 ^ 16) p = true ∧
      (s.flag (F.FIRE_TILE_CFG_en (lane * 16 + p)) = false ∨ s.get (F.FIRE_TILE_CFG_bar (lane * 16 + p)) ≠ d.toNat / 2 ^ 5 % 8)

theorem entryOf_eq (stamp d : W32) : entryOf stamp d =
    { stamp := stamp, mask := d.toNat / 2 ^ 16, tag := d.toNat / 2 ^ 8 % 256, bar := d.toNat / 2 ^ 5 % 8, rev := d.getLsbD 4,
      ahead := false } := by
  have mask : bitsOf d 31 16 = d.toNat / 2 ^ 16 := Nat.mod_eq_of_lt (by simp only [Nat.reducePow, Nat.reduceAdd, Nat.reduceSub]; omega)
  rw [entryOf, mask, bitsOf_bit]
  rfl

theorem State.inBar_eq_false (s : State) (k b : Nat) :
    s.inBar k b = false ↔ s.flag (F.FIRE_TILE_CFG_en k) = false ∨ s.get (F.FIRE_TILE_CFG_bar k) ≠ b := by
  simp only [State.inBar, Bool.and_eq_false_iff, beq_eq_false_iff_ne]

/-- The model's check of code 3. -/
def State.armRefuses (s : State) (lane : Nat) (e : Entry) (d : W32) : Bool :=
  !s.flag (F.LANE_SCHED_en lane) || e.mask == 0 || bitsOf d 3 0 != 0 || !s.flag (F.BAR_CFG_en e.bar) || !s.flag (F.BAR_STAT_rdy e.bar) ||
    (positions e.mask).any (fun p => !s.inBar (lane * 16 + p) e.bar) || (e.rev && !s.flag (F.AX_CFG_bidir (s.entryAxis e)))

theorem mem_positions {mask p : Nat} : p ∈ positions mask ↔ p < 16 ∧ natBit mask p = true := by
  simp [positions]

theorem State.armRefuses_iff (s : State) (lane : Nat) (stamp d : W32) : s.armRefuses lane (entryOf stamp d) d = true ↔ s.armBad lane d := by
  have low : bitsOf d 3 0 = d.toNat % 16 := by
    rw [bitsOf, Nat.pow_zero, Nat.div_one]
    rfl
  have tiles (mask b : Nat) : (positions mask).any (fun p => !s.inBar (lane * 16 + p) b) = true ↔ ∃ p < 16, natBit mask p = true ∧
      (s.flag (F.FIRE_TILE_CFG_en (lane * 16 + p)) = false ∨ s.get (F.FIRE_TILE_CFG_bar (lane * 16 + p)) ≠ b) := by
    simp only [List.any_eq_true, mem_positions, Bool.not_eq_true', State.inBar_eq_false, and_assoc]
  simp only [State.armRefuses, entryOf_eq, State.entryAxis, low, Bool.or_eq_true, Bool.and_eq_true, Bool.not_eq_true', beq_iff_eq,
    bne_iff_ne, tiles, State.armBad, or_assoc]
  exact or_congr_right (or_congr_right (or_congr_right (or_congr_right (or_congr_right or_comm))))

theorem State.armCode_eq (s : State) (lane : Nat) (stamp d : W32) :
    let e := entryOf stamp d
    s.armCode lane stamp d =
      if s.armRefuses lane e d then 3 else if !(s.axis (s.entryAxis e)).valid then 4
      else if (s.lane lane).queue.any (fun x => x.bar == e.bar && x.tag == e.tag && (x.mask &&& e.mask) != 0) then 5
      else if 64 ≤ (s.lane lane).queue.length then 1
      else if e.rev == (s.axis (s.entryAxis e)).a.rev && s.entryBehind (s.entryAxis e) lane e then 2 else 0 := rfl

/-- An entry of the queue that ARM would clash with (R138). -/
theorem clashes_iff (l : List Entry) (bar tag mask : Nat) :
    l.any (fun x => x.bar == bar && x.tag == tag && (x.mask &&& mask) != 0) = true ↔
      ∃ x ∈ l, x.bar = bar ∧ x.tag = tag ∧ x.mask &&& mask ≠ 0 := by
  simp only [List.any_eq_true, Bool.and_eq_true, beq_iff_eq, bne_iff_ne, and_assoc]

theorem State.entryBehind_iff (s : State) (n lane : Nat) (e : Entry) : s.entryBehind n lane e = true ↔
    ∃ p < 16, natBit e.mask p = true ∧ atOrBeyond e.rev (s.tileSill n (lane * 16 + p) e.rev) e.stamp = true := by
  simp only [State.entryBehind, List.any_eq_true, mem_positions, and_assoc]

/-- ARM on a link engine that refuses. -/
theorem State.armInsn_refused {s : State} {q : Nat} (hrun : s.executes q = true) (ht : hasT q = true) (rd rs1 rs2 : BitVec 5) {code : Nat}
    (hcode : s.armCode (q - 24) ((s.seq q).x rs1) ((s.seq q).x rs2) = code) (hne : code ≠ 0) :
    s.armInsn q rd rs1 rs2 = s.withResult q rd (w32 code) := by
  rw [← State.alu_eq_withResult hrun]
  simp [State.armInsn, hrun, ht, State.arm, hcode, hne]

/-- The state in which a lane's queue has taken an armed entry. -/
def State.armed (s : State) (lane : Nat) (e : Entry) : State :=
  (s.setLane lane { s.lane lane with queue := (s.lane lane).queue ++ [{ e with ahead := e.rev == (s.axis (s.entryAxis e)).a.rev }] }).set
    (F.LANE_QSTAT_hwm lane) (max (s.get (F.LANE_QSTAT_hwm lane)) ((s.lane lane).queue.length + 1))

theorem State.armInsn_armed {s : State} {q : Nat} (hrun : s.executes q = true) (ht : hasT q = true) (rd rs1 rs2 : BitVec 5)
    (hcode : s.armCode (q - 24) ((s.seq q).x rs1) ((s.seq q).x rs2) = 0) :
    s.armInsn q rd rs1 rs2 = (s.armed (q - 24) (entryOf ((s.seq q).x rs1) ((s.seq q).x rs2))).alu q rd 0 := by
  simp only [State.armInsn, hrun, ht, State.arm, hcode, List.length_append]
  rfl

/-- What a result written by a sequencer whose own context is otherwise as before leaves in it. -/
theorem State.alu_gives {s u : State} {q : Nat} (hrun : u.executes q = true)
    (hseq : u.seq q = { s.seq q with latched := (u.seq q).latched }) (rd : BitVec 5) (v : W32) :
    let t := u.alu q rd v
    (t.seq q).pc = (s.seq q).pc + 4 ∧ (t.seq q).instret = (s.seq q).instret + 1 ∧
      ∀ r, (t.seq q).x r = if r = rd ∧ rd ≠ 0 then v else (s.seq q).x r := by
  intro t
  have result : t = u.withResult q rd v := State.alu_eq_withResult hrun rd v
  have after : t.seq q = { (u.seq q).setX rd v with pc := (u.seq q).pc + 4, instret := (u.seq q).instret + 1 } := by
    rw [result]
    exact State.seq_setSeq_same u q _
  rw [after, hseq]
  exact ⟨rfl, rfl, fun r => Seq.x_setX _ rd r v⟩

/-- AXRD of a link engine's sequencer into a legal pair: two words of one instant (R123). -/
theorem axrd_pair {q : Fin 48} {s : State} (hrun : s.executes q = true) (ht : hasT q = true) {rd : BitVec 5} (hpair : pairOk rd = true)
    (rs1 : BitVec 5) : execAxrd q rd rs1 s = .next (s.setSeq q { (s.seq q).setPair rd
      (s.axisGroup (((s.seq q).x rs1).toNat % 8) (((s.seq q).x rs1).toNat / 256 % 4)) with
        pc := (s.seq q).pc + 4, instret := (s.seq q).instret + 1 }) := by
  have unit : bitsOf ((s.seq q).x rs1) 2 0 = ((s.seq q).x rs1).toNat % 8 := by
    rw [bitsOf, Nat.pow_zero, Nat.div_one]
    rfl
  have group : bitsOf ((s.seq q).x rs1) 9 8 = ((s.seq q).x rs1).toNat / 256 % 4 := rfl
  have legal : (!hasT q || !pairOk rd) = false := by rw [ht, hpair]; rfl
  have running : (!s.executes q) = false := by rw [hrun]; rfl
  simp only [execAxrd, running, legal, unit, group, Bool.false_eq_true, if_false, Seq.setPair, Seq.retired, Seq.setX_pc, Seq.setX_instret]

/-- The later ends of a WAITP (R142). -/
theorem waitp_ends {q : Fin 48} {s : State} {n : Nat} {rev : Bool} {stamp : W32} {rd : BitVec 5} {limit issued : Nat}
    (hrun : (s.seq q).run = .waiting) (hwait : (s.seq q).wait = .position n rev stamp rd.toNat limit issued) :
    ((s.axis n).valid = true → atOrBeyond rev (s.axisSill n rev) stamp = true → Completes (.waitpPassed q) s (WaitDone q rd 0 s)) ∧
      (limit ≠ 0 → issued + limit ≤ s.uptime → Completes (.waitpTimeout q) s
        (WaitDone q rd (if (s.axis n).valid = true ∧ atOrBeyond rev (s.axisSill n rev) stamp = true then 0 else 1) s)) := by
  constructor
  · intro hv hat
    have passed : execWaitpPassed q s = .next (s.completeWait q rd.toNat 0) := by
      simp only [execWaitpPassed, hrun, hwait, hv, hat, Bool.and_self, if_true]
    exact ⟨_, passed, s.completeWait_done q rd 0⟩
  · intro hlimit hdue
    have timeout : execWaitpTimeout q s = .next (s.completeWait q rd.toNat
        (if (s.axis n).valid = true ∧ atOrBeyond rev (s.axisSill n rev) stamp = true then 0 else 1)) := by
      simp only [execWaitpTimeout, hrun, hwait, hlimit, hdue, ne_eq, not_false_eq_true, and_self, if_true, Bool.and_eq_true]
    exact ⟨_, timeout, s.completeWait_done q rd _⟩

/-- What the queueing of an armed entry leaves, the result written (R137, R138). -/
theorem State.armed_results {s : State} {q : Nat} (hrun : s.executes q = true) (lane : Nat) (e : Entry) (rd : BitVec 5) :
    let t := (s.armed lane e).alu q rd 0
    ((t.seq q).pc = (s.seq q).pc + 4 ∧ (t.seq q).instret = (s.seq q).instret + 1 ∧
        ∀ r, (t.seq q).x r = if r = rd ∧ rd ≠ 0 then BitVec.ofNat 32 0 else (s.seq q).x r) ∧ OtherSeqsSame q s t ∧ SameMemory s t ∧
      (t.lane lane).queue = (s.lane lane).queue ++ [{ e with ahead := e.rev == (s.axis (s.entryAxis e)).a.rev }] ∧
      (∀ j, j ≠ lane → t.lane j = s.lane j) ∧ ∀ x, x ≠ R.LANE_QSTAT lane → t.rd x = s.rd x := by
  intro t
  have running : (s.armed lane e).executes q = true := hrun
  have result : t = (s.armed lane e).withResult q rd 0 := State.alu_eq_withResult running rd 0
  refine ⟨State.alu_gives running rfl rd 0, ?_, ?_, ?_, fun j hj => ?_, fun x hx => ?_⟩ <;> rw [result]
  · exact (s.armed lane e).setSeq_others q _
  · exact fun _ => rfl
  · exact congrArg Lane.queue (s.lane_setLane_same lane _)
  · exact s.lane_setLane_ne _ hj
  · exact State.rd_set_ne (f := F.LANE_QSTAT_hwm lane) _ _ hx

/-- CANCEL of a link engine's sequencer: the entries it removes, and their number (R150). -/
theorem cancel_results {q : Fin 48} {s : State} (hrun : s.executes q = true) (ht : hasT q = true) {lane : Nat} (hlane : q.val - 24 = lane)
    (rd rs1 : BitVec 5) :
    let gone := fun (e : Entry) => ((s.seq q).x rs1).getLsbD 31 || e.tag == ((s.seq q).x rs1).toNat % 256
    Completes (.cancel q rd rs1) s fun t => ((t.seq q).pc = (s.seq q).pc + 4 ∧ (t.seq q).instret = (s.seq q).instret + 1 ∧
        ∀ r, (t.seq q).x r = if r = rd ∧ rd ≠ 0 then BitVec.ofNat 32 ((s.lane lane).queue.filter gone).length else (s.seq q).x r) ∧
      (t.lane lane).queue = (s.lane lane).queue.filter (fun e => !gone e) ∧ ∀ j, j ≠ lane → t.lane j = s.lane j := by
  intro gone
  have low : bitsOf ((s.seq q).x rs1) 7 0 = ((s.seq q).x rs1).toNat % 256 := by
    rw [bitsOf, Nat.pow_zero, Nat.div_one]
    rfl
  have removal : s.cancelTag lane ((s.seq q).x rs1) = s.removeEntries lane gone := by
    simp only [State.cancelTag, bitsOf_bit, low, gone]
  have result : s.cancelInsn q rd rs1 = (s.removeEntries lane gone).2.alu q rd (w32 (s.removeEntries lane gone).1) := by
    simp only [State.cancelInsn, hrun, ht, hlane, removal, Bool.not_true, Bool.false_eq_true, if_false]
  obtain ⟨count, queue, others, seqs, executes⟩ := s.removeEntries_spec lane gone
  rw [count] at result
  refine ⟨_, congrArg Host.Outcome.next result, State.alu_gives ((executes q).trans hrun) (seqs q) rd _, ?_, fun j hj => ?_⟩
  · rw [State.alu_eq_withResult ((executes q).trans hrun)]
    exact queue
  · rw [State.alu_eq_withResult ((executes q).trans hrun)]
    exact others j hj

/-- Settles O25: the waits and pairs by unfolding what the operands name, ARM check by check, CANCEL by `State.removeEntries_spec`. -/
theorem positionInstructionResults : Obligations.PositionInstructionResults := by
  refine ⟨fun q rd rs1 rs2 rs3 s => ?_, fun lane rd rs1 rs2 s => ?_⟩
  · extract_lets a b d n rev g
    refine ⟨fun hrun hq => ?engine, fun hrun hq hinh => ?elsewhere, fun limit issued hrun hwait => waitp_ends hrun hwait⟩
    case engine =>
      have ht := hasT_of_ge hq
      have wait := State.waitp_eq hrun ht rd rs1 rs2 rs3
      refine ⟨?stamp, fun h => congrArg Host.Outcome.next (wait.trans (if_pos h)), fun hv hat => congrArg Host.Outcome.next ?passed,
        fun hv hat => congrArg Host.Outcome.next ?waits, fun heven hne => ?pair, fun hbad hinh => ?bad⟩
      case stamp =>
        refine congrArg Host.Outcome.next ((if_pos ht).trans ((State.alu_eq_withResult hrun rd _).trans ?_))
        rw [stampAt, wordOfInt_eq_ofInt]
        rfl
      case passed => exact wait.trans ((if_neg (ne_false_of_eq_true hv)).trans (if_pos hat))
      case waits => exact wait.trans ((if_neg (ne_false_of_eq_true hv)).trans (if_neg (ne_true_of_eq_false hat)))
      case pair =>
        have read := axrd_pair hrun ht (pairOk_of_even heven hne) rs1
        rw [s.axisGroup_eq _ (Nat.mod_lt _ (by decide))] at read
        exact read
      case bad =>
        have illegal : (!hasT q || !pairOk rd) = true := by rw [pairOk_of_bad hbad, Bool.not_false, Bool.or_true]
        exact ⟨_, congrArg Host.Outcome.next ((if_neg (by simp [hrun])).trans (if_pos illegal)), State.illegal_taken hinh _⟩
    case elsewhere =>
      have ht : (!hasT q) = true := by rw [hasT_of_lt hq]; rfl
      have running : ¬(!s.executes q) = true := by simp [hrun]
      have notEngine : ¬hasT q = true := by simp [hasT_of_lt hq]
      have illegal : (!hasT q || !pairOk rd) = true := by rw [ht, Bool.true_or]
      exact ⟨⟨_, congrArg Host.Outcome.next ((if_neg running).trans (if_pos ht)), State.illegal_taken hinh _⟩,
        ⟨_, congrArg Host.Outcome.next ((if_neg notEngine).trans (if_pos hrun)), State.illegal_taken hinh _⟩,
        ⟨_, congrArg Host.Outcome.next ((if_neg running).trans (if_pos ht)), State.illegal_taken hinh _⟩,
        ⟨_, congrArg Host.Outcome.next ((if_neg running).trans (if_pos ht)), State.illegal_taken hinh _⟩,
        ⟨_, congrArg Host.Outcome.next ((if_neg running).trans (if_pos illegal)), State.illegal_taken hinh _⟩⟩
  · extract_lets q l stamp d mask tag bar rev n a gives bad clash behind
    intro hrun
    have ht : hasT q = true := hasT_of_ge (Nat.le_add_right 24 lane)
    have own : q.val - 24 = lane := Nat.add_sub_cancel_left 24 lane
    have isBad : s.armRefuses lane (entryOf stamp d) d = true ↔ bad := s.armRefuses_iff lane stamp d
    have isClash := clashes_iff l.queue bar tag mask
    have isBehind : (rev == a.a.rev && s.entryBehind n lane (entryOf stamp d)) = true ↔ behind := by
      rw [Bool.and_eq_true, beq_iff_eq, State.entryBehind_iff, entryOf_eq]
    have code : s.armCode (q - 24) ((s.seq q).x rs1) ((s.seq q).x rs2) = if bad then 3 else if a.valid = false then 4 else if clash then 5
        else if 64 ≤ l.queue.length then 1 else if behind then 2 else 0 := by
      rw [entryOf_eq] at isBad isBehind
      rw [own, State.armCode_eq, entryOf_eq]
      exact if_congr isBad rfl (if_congr (by rw [Bool.not_eq_true']; rfl) rfl (if_congr isClash rfl
        (if_congr Iff.rfl rfl (if_congr isBehind rfl rfl))))
    have refused {c : Nat} (h : s.armCode (q - 24) ((s.seq q).x rs1) ((s.seq q).x rs2) = c) (hne : c ≠ 0) :
        exec (.arm q rd rs1 rs2) s = .next (s.withResult q rd (w32 c)) :=
      congrArg Host.Outcome.next (State.armInsn_refused hrun ht rd rs1 rs2 h hne)
    refine ⟨fun hbad => refused (code.trans (if_pos hbad)) (by decide),
      fun hbad hv => refused (code.trans ((if_neg hbad).trans (if_pos hv))) (by decide),
      fun hbad hv hclash => refused (code.trans ((if_neg hbad).trans ((if_neg (ne_false_of_eq_true hv)).trans (if_pos hclash)))) (by decide),
      fun hbad hv hclash hfull => ?full, fun hbad hv hclash hroom hbehind => ?behind, fun hbad hv hclash hroom hbehind => ?armed,
      cancel_results hrun ht own rd rs1⟩
    case full =>
      refine refused (code.trans ?_) (c := 1) (by decide)
      rw [if_neg hbad, if_neg (ne_false_of_eq_true hv), if_neg hclash, if_pos hfull]
    case behind =>
      refine refused (code.trans ?_) (c := 2) (by decide)
      rw [if_neg hbad, if_neg (ne_false_of_eq_true hv), if_neg hclash, if_neg (Nat.not_le.mpr hroom), if_pos hbehind]
    case armed =>
      have free : s.armCode (q - 24) ((s.seq q).x rs1) ((s.seq q).x rs2) = 0 := by
        rw [code, if_neg hbad, if_neg (ne_false_of_eq_true hv), if_neg hclash, if_neg (Nat.not_le.mpr hroom), if_neg hbehind]
      have result := State.armInsn_armed hrun ht rd rs1 rs2 free
      rw [own, entryOf_eq] at result
      exact ⟨_, congrArg Host.Outcome.next result, State.armed_results hrun lane _ rd⟩

end Sys2Proof.Machine
end

section
/-! SUPPORT. Running, halting, resetting and splitting sequencers, and lockstep mismatches: what supervisor conditions, line-boundary
requests and the safe states of motors leave of sequencers, memory and posted records (R43 to R45, R48, R49, R265, R296, R315, R435). -/

namespace Sys2Proof.Machine

/-! ### What conditions, requests and safe states leave -/

/-- From `s` to `t` no sequencer changes but in its latched lines, memory stays, and no record leaves a buffer. -/
structure Calm (s t : State) : Prop where
  seq : ∀ q, t.seq q = { s.seq q with latched := (t.seq q).latched }
  pairs : t.splitPairs = s.splitPairs
  mem : SameMemory s t
  ev : ∀ src, ∀ r ∈ tabGet [] s.ev.buf src, r ∈ tabGet [] t.ev.buf src

theorem Calm.refl (s : State) : Calm s s := ⟨fun _ => rfl, rfl, fun _ => rfl, fun _ _ h => h⟩

theorem Calm.trans {s t u : State} (h : Calm s t) (k : Calm t u) : Calm s u := by
  refine ⟨fun q => ?_, k.pairs.trans h.pairs, fun a => (k.mem a).trans (h.mem a), fun src r hr => k.ev src r (h.ev src r hr)⟩
  have later := k.seq q
  rwa [h.seq q] at later

theorem Calm.foldl {α : Type} {f : State → α → State} (h : ∀ s x, Calm s (f s x)) : ∀ (l : List α) (s : State), Calm s (l.foldl f s)
  | [], s => Calm.refl s
  | x :: l, s => (h s x).trans (Calm.foldl h l (f s x))

theorem Touches.calm {P : Nat → Prop} {s t : State} (h : Touches P s t) : Calm s t := by
  refine ⟨h.seq, ?_, h.mem, h.ev⟩
  rw [h.core]

theorem State.set_calm (s : State) (f : Field) (v : Nat) : Calm s (s.set f v) := (s.set_touches f v).calm

theorem State.setCond_calm (s : State) (h : Sh) (bit : Nat) (b : Bool) : Calm s (s.setCond h bit b) := by
  have posted (t : State) (kind low : Nat) : Calm t (t.shutPost h kind low) := by
    cases h with
    | global => exact (t.post_quiet 63 kind _ _).calm
    | bar b => exact (t.post_quiet (110 + b) kind _ _).calm.trans (State.raiseIrq_quiet _ _).calm
    | tile k => exact (t.post_quiet (24 + k / 16) kind _ _).calm
  have latched (t : State) : Calm t (t.latchCause h bit) := by
    unfold State.latchCause
    split
    · exact Calm.refl t
    · exact ((t.set_calm _ _).trans (State.set_calm _ _ _)).trans (posted _ _ _)
  unfold State.setCond
  extract_lets t
  split
  · exact (s.set_calm _ _).trans (latched t)
  · exact s.set_calm _ _

theorem State.lineRequest_calm (s : State) (unit n : Nat) : Calm s (s.lineRequest unit n) := by
  refine Calm.foldl (fun t b => ?_) _ s
  exact ⟨fun _ => rfl, rfl, fun _ => rfl, fun _ _ h => h⟩

theorem State.barCondRefresh_calm (s : State) (b : Nat) : Calm s (s.barCondRefresh b) := s.setCond_calm _ _ _

theorem State.lineWithdraw_calm (s : State) (unit : Nat) : Calm s (s.lineWithdraw unit) := by
  refine Calm.foldl (fun t b => ?_) _ s
  dsimp only
  split
  · split
    · refine Calm.trans ?_ (State.barCondRefresh_calm _ b)
      exact ⟨fun _ => rfl, rfl, fun _ => rfl, fun _ _ h => h⟩
    · exact ⟨fun _ => rfl, rfl, fun _ => rfl, fun _ _ h => h⟩
  · exact Calm.refl t

theorem State.setStatus_calm (s : State) (stat ien b src : Nat) : Calm s (s.setStatus stat ien b src) :=
  (s.setStatus_touches stat ien b src).calm

theorem State.motFlag_calm (s : State) (n b : Nat) (detail : W32) : Calm s (s.motFlag n b detail) := by
  unfold State.motFlag
  extract_lets was t
  have flagged : Calm s t := s.setStatus_calm _ _ _ _
  split
  · exact flagged
  · exact flagged.trans (t.post_quiet _ _ _ _).calm

theorem State.motEnter_calm (s : State) (n new : Nat) : Calm s (s.motEnter n new) := by
  unfold State.motEnter
  extract_lets old u t
  have source : Calm s u := by
    unfold u
    split
    · exact Calm.refl s
    · exact s.set_calm _ _
  split
  · exact Calm.refl s
  · exact (source.trans (u.set_calm _ _)).trans (t.motFlag_calm _ _ _)

theorem State.setMotor_calm (s : State) (n : Nat) (m : Motor) : Calm s (s.setMotor n m) :=
  ⟨fun _ => rfl, rfl, fun _ => rfl, fun _ _ h => h⟩

theorem State.setStepper_calm (s : State) (n : Nat) (c : Stepper) : Calm s (s.setStepper n c) :=
  ⟨fun _ => rfl, rfl, fun _ => rfl, fun _ _ h => h⟩

theorem State.motorFault_calm (s : State) (n cause : Nat) : Calm s (s.motorFault n cause) := by
  unfold State.motorFault
  extract_lets t u v w
  have cause : Calm s t := s.set_calm _ _
  have first : Calm t v := (t.set_calm _ _).trans (u.setMotor_calm _ _)
  have line : Calm v (v.motLine n) := by
    unfold State.motLine
    split
    · exact v.lineRequest_calm _ _
    · exact Calm.refl v
  split
  · split
    · exact cause.trans (t.setMotor_calm _ _)
    · exact cause
  · exact (cause.trans (first.trans (line.trans (State.motEnter_calm _ _ _)))).trans (w.motFlag_calm _ _ _)

theorem State.stepFlag_calm (s : State) (n b : Nat) (detail : W32) : Calm s (s.stepFlag n b detail) := by
  unfold State.stepFlag
  extract_lets was t
  have flagged : Calm s t := s.setStatus_calm _ _ _ _
  split
  · exact flagged
  · exact flagged.trans (t.post_quiet _ _ _ _).calm

theorem State.stepFlush_calm (s : State) (n : Nat) : Calm s (s.stepFlush n) := by
  have queue : Calm s (s.stepQueue n []) :=
    Calm.trans (t := s.drawn.setStepper n { s.stepper n with queue := [] }) ⟨fun _ => rfl, rfl, fun _ => rfl, fun _ _ h => h⟩
      (State.set_calm _ _ _)
  have speed : Calm (s.stepQueue n []) ((s.stepQueue n []).stepSpeed n 0) := by
    unfold State.stepSpeed
    extract_lets c neg
    exact (State.setStepper_calm _ _ _).trans (State.wr_touches _ _ _).calm
  exact (queue.trans speed).trans (State.setStepper_calm _ _ _)

theorem State.stepFault_calm (s : State) (n cause : Nat) : Calm s (s.stepFault n cause) := by
  unfold State.stepFault
  extract_lets t c w u v
  have cause : Calm s w := (s.set_calm _ _).trans (t.setStepper_calm _ _)
  have flush : Calm w u := (w.set_calm _ _).trans (State.stepFlush_calm _ _)
  have requests : Calm u ((s.stepAxes n).foldl (fun w k => w.lineRequest (5 + n) k) u) :=
    Calm.foldl (fun x k => x.lineRequest_calm (5 + n) k) _ u
  have entered (x : State) : Calm x (x.stepEnter n 4) := by
    unfold State.stepEnter
    extract_lets old
    split
    · exact Calm.refl x
    · exact (x.set_calm _ _).trans (State.stepFlag_calm _ _ _ _)
  split
  · exact cause
  · exact ((cause.trans flush).trans (requests.trans (entered _))).trans (v.stepFlag_calm _ _ _)

/-- The safe states of a motion pair's channels (R48, R265, R296, R315). -/
theorem State.motionMismatch_calm (s : State) (o : Nat) : Calm s (s.motionMismatch o) := by
  unfold State.motionMismatch
  extract_lets t
  have motors : Calm s t := by
    refine Calm.foldl (fun u n => ?_) _ s
    split
    · dsimp only
      split
      · exact (u.motorFault_calm n 3).trans (State.lineRequest_calm _ _ _)
      · exact u.motorFault_calm n 3
    · exact Calm.refl u
  refine motors.trans (Calm.foldl (fun u n => ?_) _ t)
  split
  · exact (u.stepFault_calm n 3).trans (Calm.foldl (fun v k => v.lineRequest_calm o k) _ _)
  · exact Calm.refl u

end Sys2Proof.Machine
end

section
/-! SUPPORT. What a write of SYS_SEQn_CTL does, and the statements on sequencer control and lockstep (R43 to R45, R48, R49, R435). -/

namespace Sys2Proof.Machine

/-! ### Splitting -/

theorem State.ctxOf_of_even {s : State} {q : Nat} (h : q % 2 = 0) : s.ctxOf q = q :=
  State.ctxOf_of_not_shadow (by simp [State.isShadow, h])

theorem State.ctxOf_congr {s t : State} {q : Nat} (h : t.isShadow q = s.isShadow q) : t.ctxOf q = s.ctxOf q := by
  rw [State.ctxOf, State.ctxOf, h]

theorem State.seq_of_own {s : State} {q : Nat} (h : s.ctxOf q = q) : s.seq q = tabGet {} s.seqs q := by
  rw [State.seq, h]

/-- A pair that is split already stays as it is. -/
theorem State.splitPair_of_split {s : State} {p : Nat} (h : (tabFind s.splitPairs p).isSome = true) : s.splitPair p = s := if_pos h

theorem State.splitPair_of_pair {s : State} {p : Nat} (h : tabFind s.splitPairs p = none) : s.splitPair p =
    { s with splitPairs := tabPut s.splitPairs p (), seqs := tabPut s.seqs (p + 1) (tabGet {} s.seqs p) } := by
  rw [State.splitPair, h]
  rfl

/-- Splitting leaves every sequencer but the pair's: a checker in lockstep is the only one whose context moves. -/
theorem State.splitPair_other (s : State) {q r : Nat} (heven : q % 2 = 0) (hq : q < 8) (hr : s.ctxOf r ≠ q) :
    (s.splitPair q).ctxOf r = s.ctxOf r ∧ (s.splitPair q).seq r = s.seq r := by
  cases found : tabFind s.splitPairs q with
  | some u => rw [State.splitPair_of_split (by rw [found]; rfl)]; exact ⟨rfl, rfl⟩
  | none =>
    have apart : r ≠ q + 1 := by
      rintro rfl
      have shadow : s.isShadow (q + 1) = true := by
        have pair : (q + 1) / 2 * 2 = q := by omega
        have odd : (q + 1) % 2 = 1 := by omega
        have low : q + 1 < 8 := by omega
        simp [State.isShadow, State.lockstep, pair, odd, low, found]
      exact hr (by rw [State.ctxOf, shadow]; rfl)
    have context : (s.splitPair q).ctxOf r = s.ctxOf r := by
      rw [State.splitPair_of_pair found]
      by_cases hpair : r / 2 * 2 = q
      · have own : r = q := by omega
        rw [own, State.ctxOf_of_even heven, State.ctxOf_of_even heven]
      · exact State.ctxOf_congr (by simp only [State.isShadow, State.lockstep, tabFind_put_ne _ hpair])
    have bound : s.ctxOf r ≠ q + 1 := by
      unfold State.ctxOf
      split
      · next hs =>
        have odd : r % 2 = 1 := by
          simp only [State.isShadow, Bool.and_eq_true, beq_iff_eq] at hs
          exact hs.1
        omega
      · exact apart
    refine ⟨context, ?_⟩
    rw [State.seq, context, State.splitPair_of_pair found]
    exact tabGet_put_ne _ _ _ bound

theorem State.splitPair_own (s : State) {q : Nat} (heven : q % 2 = 0) : (s.splitPair q).seq q = s.seq q := by
  rw [State.seq_of_own (State.ctxOf_of_even heven), State.seq_of_own (State.ctxOf_of_even heven)]
  cases found : tabFind s.splitPairs q with
  | some u => rw [State.splitPair_of_split (by rw [found]; rfl)]
  | none =>
    rw [State.splitPair_of_pair found]
    exact tabGet_put_ne _ _ _ (Nat.ne_of_lt (Nat.lt_succ_self q))

theorem State.splitPair_frame (s : State) (p : Nat) : (s.splitPair p).regs = s.regs ∧ SameMemory s (s.splitPair p) := by
  unfold State.splitPair
  split
  · exact ⟨rfl, fun _ => rfl⟩
  · exact ⟨rfl, fun _ => rfl⟩

/-! ### A write of SYS_SEQn_CTL -/

/-- What a control word that leaves split as it is makes of a state before run, halt or rst act: the sequencers stay, for a
pair whose word holds split but whose checker has no context of its own too. -/
structure CtlSettled (q : Nat) (s u : State) : Prop where
  own : u.ctxOf q = q
  seq : u.seq q = s.seq q
  others : ∀ r, s.ctxOf r ≠ s.ctxOf q → u.ctxOf r = s.ctxOf r ∧ u.seq r = s.seq r
  mem : SameMemory s u
  rd : ∀ a, a ≠ R.SYS_SEQ_CTL q → u.rd a = s.rd a

theorem State.ctlWritten_settled {s : State} {q : Nat} (hown : s.ctxOf q = q) (w : W32) (split : Bool) (h : split = true → q < 8 ∧ q % 2 = 0) :
    CtlSettled q s (if split then (s.wr (R.SYS_SEQ_CTL q) w).splitPair q else s.wr (R.SYS_SEQ_CTL q) w) := by
  cases split with
  | false => exact ⟨hown, rfl, fun _ _ => ⟨rfl, rfl⟩, fun _ => rfl, fun _ ha => State.rd_wr_ne s w ha⟩
  | true =>
    obtain ⟨low, even⟩ := h rfl
    obtain ⟨regs, mem⟩ := (s.wr (R.SYS_SEQ_CTL q) w).splitPair_frame q
    refine ⟨State.ctxOf_of_even even, State.splitPair_own _ even, fun r hr => ?_, mem, fun a ha => ?_⟩
    · rw [hown] at hr
      exact State.splitPair_other (s.wr (R.SYS_SEQ_CTL q) w) even low hr
    · exact Eq.trans (by simp only [if_true, State.rd, regs]) (State.rd_wr_ne s w ha)

theorem State.flag_bit (s : State) (a k : Nat) : s.flag ⟨a, k, k⟩ = (s.rd a).getLsbD k := by
  have width : bitsOf (s.rd a) k k < 2 := by
    have bound := bitsOf_lt (s.rd a) k k
    rwa [Nat.add_sub_cancel_left] at bound
  rw [← bitsOf_bit, State.flag, State.get]
  obtain h | h : bitsOf (s.rd a) k k = 0 ∨ bitsOf (s.rd a) k k = 1 := by omega
  · rw [h]
    rfl
  · rw [h]
    rfl

/-- A control word that leaves split as it is: rst goes before halt, and halt before run (R45). -/
theorem State.seqCtlWrite_kept {s : State} {q : Nat} (hreached : s.seqReached q = true) (low : W32) (hlow : low.getLsbD 3 = false) :
    ∃ u, CtlSettled q s u ∧ s.seqCtlWrite q (s.seqCtlKeep q low) =
      if low.getLsbD 2 then u.seqReset q else if low.getLsbD 1 then u.seqStop q else if low.getLsbD 0 then u.seqStart q else u := by
  have hown : s.ctxOf q = q := by
    refine State.ctxOf_of_not_shadow ?_
    simp only [State.seqReached, Bool.and_eq_true, Bool.not_eq_true'] at hreached
    exact hreached.1
  have kept (k : Nat) : (s.seqCtlKeep q low).getLsbD k = ((s.rd (R.SYS_SEQ_CTL q)).getLsbD k && (8 : W32).getLsbD k || low.getLsbD k) := by
    rw [State.seqCtlKeep, BitVec.getLsbD_or, BitVec.getLsbD_and]
  have bit (k : Nat) (hk : (8 : W32).getLsbD k = false) : (bitsOf (s.seqCtlKeep q low) k k = 1) = (low.getLsbD k = true) := by
    have read := bitsOf_bit (s.seqCtlKeep q low) k
    rw [kept, hk, Bool.and_false, Bool.false_or] at read
    rw [← read, beq_iff_eq]
  have same : (bitsOf (s.seqCtlKeep q low) 3 3 == 1) = s.flag (F.SYS_SEQ_CTL_split q) := by
    rw [bitsOf_bit, kept, hlow, Bool.or_false, show (8 : W32).getLsbD 3 = true from rfl, Bool.and_true]
    exact (s.flag_bit (R.SYS_SEQ_CTL q) 3).symm
  have settled (w : W32) := State.ctlWritten_settled hown w ((decide (q < 8) && q % 2 == 0) && s.flag (F.SYS_SEQ_CTL_split q)) fun h => by
    simpa only [Bool.and_eq_true, decide_eq_true_eq, beq_iff_eq] using (Bool.and_eq_true_iff.mp h).1
  refine ⟨_, settled (w32 ((if (decide (q < 8) && q % 2 == 0) && s.flag (F.SYS_SEQ_CTL_split q) then 8 else 0) +
    (if s.flag (F.SYS_SEQ_CTL_split_err q) && bitsOf (s.seqCtlKeep q low) 4 4 == 0 then 16 else 0))), ?_⟩
  simp only [State.seqCtlWrite, hreached, same, bit 2 rfl, bit 1 rfl, bit 0 rfl, bne_self_eq_false, Bool.and_false, Bool.false_and,
    Bool.not_true, Bool.false_eq_true, if_false]

/-! ### Reset -/

/-- The context after RESET: a software interrupt and the last trap's cause stay (R29, R44, R45). -/
def Seq.afterReset (c : Seq) : Seq := { swi := c.swi, lastCause := c.lastCause, lastIrq := c.lastIrq }

theorem State.coreReset_eq (s : State) (q : Nat) : ∃ regs beats, s.coreReset q =
    { s with regs := regs, beats := beats, seqs := tabPut s.seqs q (tabGet {} s.seqs q).afterReset } := by
  unfold State.coreReset State.setUnit
  extract_lets c t
  split
  · exact ⟨_, _, rfl⟩
  · exact ⟨_, _, rfl⟩

theorem State.pairReset_calm (s : State) (p : Nat) : Calm s (s.pairReset p) := by
  unfold State.pairReset
  split
  · split
    · exact (s.setGcond_touches_all _ _).calm
    · exact Calm.refl s
  · exact s.lineWithdraw_calm _

/-- rst of a sequencer with a context of its own (R44, R45, R49). -/
theorem State.seqReset_spec {s : State} {q : Nat} (hown : s.ctxOf q = q) :
    (s.seqReset q).seq q = { (s.seq q).afterReset with latched := ((s.seqReset q).seq q).latched } ∧
      (8 ≤ q → ((s.seqReset q).seq q).latched = 0) ∧ SameMemory s (s.seqReset q) := by
  obtain ⟨regs, beats, first⟩ := s.coreReset_eq q
  have raw : s.seq q = tabGet {} s.seqs q := State.seq_of_own hown
  have core : (s.coreReset q).seq q = (s.seq q).afterReset := by
    have own : (s.coreReset q).ctxOf q = q := by
      rw [first]
      exact hown
    rw [State.seq_of_own own, raw, first]
    exact tabGet_put_same _ _ _ _
  have memory : SameMemory s (s.coreReset q) := by
    intro a
    rw [first]
    rfl
  by_cases hq : q < 8
  · have tail {t : State} (hseq : t.seq q = (s.seq q).afterReset) (hmem : SameMemory s t) {u : State} (calm : Calm t u) :
        u.seq q = { (s.seq q).afterReset with latched := (u.seq q).latched } ∧ (8 ≤ q → (u.seq q).latched = 0) ∧ SameMemory s u := by
      refine ⟨?_, fun far => absurd far (by omega), fun a => (calm.mem a).trans (hmem a)⟩
      have later := calm.seq q
      rwa [hseq] at later
    by_cases heven : q % 2 = 0
    · obtain ⟨regs', beats', second⟩ := (s.coreReset q).coreReset_eq (q + 1)
      have both : ((s.coreReset q).coreReset (q + 1)).seq q = (s.seq q).afterReset := by
        rw [← core, State.seq_of_own (State.ctxOf_of_even heven), State.seq_of_own (State.ctxOf_of_even heven), second]
        exact tabGet_put_ne _ _ _ (Nat.ne_of_lt (Nat.lt_succ_self q))
      have bothMemory : SameMemory s ((s.coreReset q).coreReset (q + 1)) := by
        intro a
        rw [second]
        exact memory a
      have rejoined : (((s.coreReset q).coreReset (q + 1)).rejoin q).seq q = (s.seq q).afterReset := by
        rw [← both, State.seq_of_own (State.ctxOf_of_even heven), State.seq_of_own (State.ctxOf_of_even heven)]
        simp [State.rejoin, tabGet, tabFind_del]
      simp only [State.seqReset, if_pos hq, if_pos heven]
      split
      · exact tail both bothMemory (State.pairReset_calm _ q)
      · exact tail rejoined bothMemory (State.pairReset_calm _ q)
    · simp only [State.seqReset, if_pos hq, if_neg heven]
      split
      · exact tail core memory (Calm.refl _)
      · exact tail core memory (State.pairReset_calm _ (q - 1))
  · have result : s.seqReset q = s.coreReset q := if_neg hq
    rw [result, core]
    exact ⟨rfl, fun _ => rfl, memory⟩

/-! ### The statements -/

/-- A sequencer's context replaced after its control word has settled. -/
theorem CtlSettled.gives {q : Nat} {s u : State} (h : CtlSettled q s u) (hown : s.ctxOf q = q) (d : Seq) :
    (u.setSeq q d).seq q = d ∧ OtherSeqsSame q s (u.setSeq q d) ∧ SameMemory s (u.setSeq q d) := by
  refine ⟨State.seq_setSeq_same u q d, fun r hr => ?_, h.mem⟩
  obtain ⟨context, same⟩ := h.others r hr
  have apart : u.ctxOf r ≠ u.ctxOf q := by
    rw [context, h.own, ← hown]
    exact hr
  exact (State.seq_setSeq_ne u d apart).trans same

/-- Settles O39: run, halt and rst by `State.seqCtlWrite_kept`, the others are one replaced context. -/
theorem sequencerControlResults : Obligations.SequencerControlResults := by
  intro q s hreached c gives
  have hown : s.ctxOf q = q := by
    refine State.ctxOf_of_not_shadow ?_
    simp only [State.seqReached, Bool.and_eq_true, Bool.not_eq_true'] at hreached
    exact hreached.1
  have unreached : (!s.seqReached q) = false := by rw [hreached]; rfl
  refine ⟨fun hhalted => ?run, fun hrun => ?halt, ?rst, ?swiSet, ?swiClr, fun hopen hrun => ?debugHalt, fun hopen hrun => ?debugResume⟩
  case run =>
    obtain ⟨u, settled, written⟩ := State.seqCtlWrite_kept hreached 1 rfl
    have halted : (u.seq q).run = .halted := by rw [settled.seq]; exact hhalted
    have started : u.seqStart q = u.setSeq q { c with run := .running, pc := s.rd (R.SYS_SEQ_ENTRY q) &&& 0xFFFFFFFC } := by
      rw [State.seqStart, if_pos halted, settled.seq, settled.rd (R.SYS_SEQ_ENTRY q) (by simp [R.SYS_SEQ_CTL, R.SYS_SEQ_ENTRY])]
    exact ⟨_, congrArg Host.Outcome.next (written.trans started), settled.gives hown _⟩
  case halt =>
    obtain ⟨u, settled, written⟩ := State.seqCtlWrite_kept hreached 2 rfl
    have stopped : u.seqStop q = u.setSeq q { c with run := .halted, wait := .none } := by
      rw [State.seqStop, settled.seq]
      exact if_pos hrun
    exact ⟨_, congrArg Host.Outcome.next (written.trans stopped), settled.gives hown _⟩
  case rst =>
    obtain ⟨u, settled, written⟩ := State.seqCtlWrite_kept hreached 4 rfl
    obtain ⟨context, latched, memory⟩ := State.seqReset_spec settled.own
    rw [settled.seq] at context
    exact ⟨_, congrArg Host.Outcome.next written, context, latched, fun a => (memory a).trans (settled.mem a)⟩
  case swiSet =>
    show Host.Outcome.next (s.swiWrite q 1) = _
    simp only [State.swiWrite, unreached]
    rfl
  case swiClr =>
    show Host.Outcome.next (s.swiWrite q 2) = _
    simp only [State.swiWrite, unreached]
    rfl
  case debugHalt =>
    have enters : (s.dbgOpen && s.seqReached q && (c.run == .halted || c.run == .running)) = true := by
      have open_ : s.dbgOpen = true := hopen
      obtain h | h := hrun <;> simp [open_, hreached, h]
    exact congrArg Host.Outcome.next (if_pos enters)
  case debugResume =>
    have leaves : (s.dbgOpen && s.seqReached q && c.run == .debug) = true := by
      have open_ : s.dbgOpen = true := hopen
      simp [open_, hreached, hrun]
    exact congrArg Host.Outcome.next (if_pos leaves)

end Sys2Proof.Machine
end

section
/-! SUPPORT. Splitting a pair, and a lockstep mismatch (R48, R49, R435). -/

namespace Sys2Proof.Machine

/-! ### An accepted split -/

/-- A control word's low bits are 0 where its low field is. -/
theorem bitsOf_of_extract {v : W32} (h : v.extractLsb' 0 3 = 0) {k : Nat} (hk : k < 3) : bitsOf v k k ≠ 1 := by
  have bit : v.getLsbD k = false := by
    have low := congrArg (fun w => w.getLsbD k) h
    simpa [BitVec.getLsbD_extractLsb', hk] using low
  have read := bitsOf_bit v k
  rw [bit] at read
  exact fun one => by simp [one] at read

/-- A word that holds split and no other command, for a pair not split: accepted of a HALTED pair where the policy permits
it, and otherwise split_err is set (R49). -/
theorem State.seqCtlWrite_split {s : State} {q : Nat} (hq : q < 8) (heven : q % 2 = 0) (hreached : s.seqReached q = true) {v : W32}
    (hflag : s.flag (F.SYS_SEQ_CTL_split q) = false) (hsplit : v.getLsbD 3 = true) (hlow : v.extractLsb' 0 3 = 0) :
    s.seqCtlWrite q v =
      if (s.seq q).run = .halted ∧ (s.seq (q + 1)).run = .halted ∧ s.splitAllowed = true then
        (s.wr (R.SYS_SEQ_CTL q) (w32 (8 + if s.flag (F.SYS_SEQ_CTL_split_err q) && bitsOf v 4 4 == 0 then 16 else 0))).splitPair q
      else s.set (F.SYS_SEQ_CTL_split_err q) 1 := by
  have primary : (decide (q < 8) && q % 2 == 0) = true := by simp [hq, heven]
  have now : (bitsOf v 3 3 == 1) = true := by rw [bitsOf_bit, hsplit]
  have bit {k : Nat} (hk : k < 3) : (bitsOf v k k = 1) = False := eq_false (bitsOf_of_extract hlow hk)
  by_cases accepted : (s.seq q).run = .halted ∧ (s.seq (q + 1)).run = .halted ∧ s.splitAllowed = true
  · obtain ⟨first, second, allowed⟩ := accepted
    simp [State.seqCtlWrite, hreached, primary, hflag, now, first, second, allowed, bit]
  · have ignored : ((s.seq q).run == .halted && (s.seq (q + 1)).run == .halted && s.splitAllowed) = false := by
      rw [Bool.eq_false_iff]
      simpa only [ne_eq, Bool.and_eq_true, beq_iff_eq, and_assoc] using accepted
    rw [if_neg accepted]
    simp [State.seqCtlWrite, hreached, primary, hflag, now, ignored]

/-- The control word of an accepted split holds split, whatever split_err was. -/
theorem splitWord_bit (b : Bool) : (w32 (8 + if b then 16 else 0)).getLsbD 3 = true := by
  cases b <;> decide

/-- What an accepted split leaves: the checker goes on from the primary's context, as a core of its own. -/
theorem State.splitPair_spec {s : State} {q : Nat} (heven : q % 2 = 0) (hlock : s.lockstep q = true) :
    (s.splitPair q).isShadow (q + 1) = false ∧ (s.splitPair q).seq (q + 1) = s.seq q := by
  have together : tabFind s.splitPairs q = none := by
    have pair : q / 2 * 2 = q := by omega
    simp only [State.lockstep, pair, Bool.and_eq_true, Option.isNone_iff_eq_none] at hlock
    exact hlock.2
  have pair : (q + 1) / 2 * 2 = q := by omega
  have shadow : (s.splitPair q).isShadow (q + 1) = false := by
    rw [State.splitPair_of_pair together]
    simp [State.isShadow, State.lockstep, pair, tabFind_put_same]
  refine ⟨shadow, ?_⟩
  rw [State.seq_of_own (State.ctxOf_of_not_shadow shadow), State.seq_of_own (State.ctxOf_of_even heven),
    State.splitPair_of_pair together]
  exact tabGet_put_same _ _ _ _

/-! ### A mismatch -/

/-- A mismatch of a pair in lockstep (R48, R435). -/
theorem State.mismatchPair_spec {s : State} {p : Nat} (hp : p < 4) (hlock : s.lockstep (2 * p) = true)
    (hfaulted : (s.seq (2 * p)).run ≠ .faulted) (hreset : (s.seq (2 * p)).run ≠ .reset) (hroom : s.room 63 = true) :
    let t := s.mismatchPair p
    (t.seq (2 * p)).run = .faulted ∧ (t.seq (2 * p + 1)).run = .faulted ∧ HoldsEvent 63 0x4E0 (2 * p) t ∧
      (p < 2 → natBit (t.get F.SUP_GCOND_cond) p = true) ∧ SameMemory s t := by
  intro t
  let c : Seq := { s.seq (2 * p) with run := .faulted, wait := .none, mismatch := true }
  let e : Rec := ⟨63, 0x4E0, s.severityOf 0x4E0, 0xF, 0, seqLoc (2 * p), w32 (2 * p), false⟩
  let posted := (s.setSeq (2 * p) c).postRec e
  have taken : (s.lockstep (2 * p) && (s.seq (2 * p)).run != .faulted && (s.seq (2 * p)).run != .reset) = true := by
    simp [hlock, hfaulted, hreset]
  have result : t = if p < 2 then posted.setGcond p true else posted.motionMismatch (p - 2) := if_pos taken
  have joined : e ∈ tabGet [] posted.ev.buf 63 := State.postRec_buf (s.setSeq (2 * p) c) e hroom
  have report : Calm (s.setSeq (2 * p) c) posted := (State.postRec_quiet (s.setSeq (2 * p) c) e).calm
  have safe : Calm posted t := by
    rw [result]
    split
    · exact (State.setGcond_touches_all _ _ _).calm
    · exact State.motionMismatch_calm _ _
  have calm := report.trans safe
  have context : ((s.setSeq (2 * p) c).seq (2 * p)) = c := State.seq_setSeq_same s (2 * p) c
  have checker : (s.setSeq (2 * p) c).seq (2 * p + 1) = (s.setSeq (2 * p) c).seq (2 * p) := by
    have shadow : (s.setSeq (2 * p) c).isShadow (2 * p + 1) = true := by
      have pair : (2 * p + 1) / 2 * 2 = 2 * p / 2 * 2 := by omega
      have odd : (2 * p + 1) % 2 = 1 := by omega
      have low : 2 * p + 1 < 8 := by omega
      have whole := (Bool.and_eq_true_iff.mp hlock).2
      rw [← pair] at whole
      simp only [State.isShadow, State.lockstep, State.setSeq, odd, low, decide_true, Bool.true_and, beq_self_eq_true]
      exact whole
    have own : (s.setSeq (2 * p) c).ctxOf (2 * p) = 2 * p := State.ctxOf_of_even (by omega)
    have follows : (s.setSeq (2 * p) c).ctxOf (2 * p + 1) = 2 * p := by
      rw [State.ctxOf, shadow]
      rfl
    rw [State.seq, State.seq, own, follows]
  refine ⟨by rw [calm.seq, context], by rw [calm.seq, checker, context], ⟨e, safe.ev 63 e joined, rfl, rfl, rfl⟩, fun control => ?_,
    fun a => calm.mem a⟩
  rw [result, if_pos control]
  exact State.setGcond_bit posted (by omega) true

/-- Settles O40: a split by `State.seqCtlWrite_split`, a mismatch by `State.mismatchPair_spec`. -/
theorem lockstepResults : Obligations.LockstepResults := by
  refine ⟨?split, ?mismatch⟩
  case mismatch =>
    intro p s q hlock hfaulted hreset hroom
    exact ⟨_, rfl, State.mismatchPair_spec p.isLt hlock hfaulted hreset hroom⟩
  case split =>
    intro p s v q allowed hfused hflag hsplit hlow
    have even : q.val % 2 = 0 := Nat.mul_mod_right 2 p
    have low : q.val < 8 := by
      have bound := p.isLt
      show 2 * p.val < 8
      omega
    have reached : s.seqReached q = true := by simp [State.seqReached, State.isShadow, even, hfused]
    have policy : allowed ↔ s.splitAllowed = true := by simp [allowed, State.splitAllowed]
    have written := State.seqCtlWrite_split low even reached hflag hsplit hlow
    refine ⟨fun hprimary hchecker hlock hallowed => ?accepted, fun hrefused => ?refused⟩
    case accepted =>
      rw [if_pos ⟨hprimary, hchecker, policy.mp hallowed⟩] at written
      obtain ⟨regs, mem⟩ := State.splitPair_frame (s.wr (R.SYS_SEQ_CTL q)
        (w32 (8 + if s.flag (F.SYS_SEQ_CTL_split_err q) && bitsOf v 4 4 == 0 then 16 else 0))) q
      obtain ⟨own, started⟩ := State.splitPair_spec (s := s.wr (R.SYS_SEQ_CTL q)
        (w32 (8 + if s.flag (F.SYS_SEQ_CTL_split_err q) && bitsOf v 4 4 == 0 then 16 else 0))) even hlock
      refine ⟨_, congrArg Host.Outcome.next written, own, started, State.splitPair_own _ even, ?_, mem⟩
      rw [F.SYS_SEQ_CTL_split, State.flag_bit, State.rd, regs]
      exact (congrArg (fun w => w.getLsbD 3) (State.rd_wr_same s (R.SYS_SEQ_CTL q) _)).trans (splitWord_bit _)
    case refused =>
      have ignored : ¬((s.seq q).run = .halted ∧ (s.seq (q + 1)).run = .halted ∧ s.splitAllowed = true) := by
        rintro ⟨first, second, permitted⟩
        obtain h | h | h := hrefused
        · exact h first
        · exact h second
        · exact h (policy.mpr permitted)
      rw [if_neg ignored] at written
      refine ⟨_, congrArg Host.Outcome.next written, ?_, ?_, fun _ => rfl, fun _ => rfl⟩
      · exact State.get_set_same s _ 1 Nat.le.refl (by simp [F.SYS_SEQ_CTL_split_err])
      · rw [State.flag, State.get_set_disjoint]
        · exact hflag
        all_goals simp [F.SYS_SEQ_CTL_split, F.SYS_SEQ_CTL_split_err]

end Sys2Proof.Machine
end

section
/-! SUPPORT. The motor-control instructions: where they are implemented, and how R64 rounds (R41, R63, R64, R65). -/

namespace Sys2Proof.Machine

/-! ### Where they are implemented -/

theorem hasM_of_motion {q : Nat} (hlo : 4 ≤ q) (hhi : q < 8) : hasM q = true := by
  unfold hasM groupOf
  rw [if_neg (by omega), if_pos hhi]
  rfl

theorem hasM_outside {q : Nat} (h : q < 4 ∨ 8 ≤ q) : hasM q = false := by
  unfold hasM groupOf
  split
  · rfl
  · split
    · omega
    · split
      · rfl
      · rfl

theorem State.motionInsn_done {s : State} {q : Nat} (hrun : s.executes q = true) (hm : hasM q = true) (word : W32) (t : State) :
    s.motionInsn q word true t = t := by
  simp [State.motionInsn, hrun, hm]

theorem State.motionInsn_illegal {s : State} {q : Nat} (hrun : s.executes q = true) {ok : Bool} (h : hasM q = false ∨ ok = false)
    (word : W32) (t : State) : s.motionInsn q word ok t = s.illegal q word := by
  have bad : (!hasM q || !ok) = true := by
    obtain h | h := h <;> simp [h]
  rw [State.motionInsn, hrun, bad]
  rfl

/-- Settles O29, by `State.motionInsn_illegal`. -/
theorem motorInstructionsIllegal : Obligations.MotorInstructionsIllegal := by
  intro q rd rs1 rs2 s hrun hinh trapped
  have traps (word : W32) {ok : Bool} (h : hasM q = false ∨ ok = false) (t : State) :
      ∃ u, Host.Outcome.next (s.motionInsn q word ok t) = (.next u : Host.Outcome State Fault Refusal) ∧ trapped u := by
    obtain ⟨epc, cause, -, -, -, -, pc, -⟩ := State.trap_taken hinh trapIllegal word
    exact ⟨_, congrArg _ (State.motionInsn_illegal hrun h word t), cause, epc, pc⟩
  refine ⟨fun hq => ?elsewhere, fun hbad => ?pair⟩
  case elsewhere =>
    have h {ok : Bool} : hasM q = false ∨ ok = false := Or.inl (hasM_outside hq)
    exact ⟨traps _ h _, traps _ h _, traps _ h _, traps _ h _, traps _ h _, traps _ h _, traps _ h _⟩
  case pair =>
    have h : hasM q = false ∨ pairOk rd = false := Or.inr (pairOk_of_bad hbad)
    exact ⟨traps _ h _, traps _ h _⟩

/-! ### Halves -/

theorem clampInt_eq {lo hi : Int} (h : lo ≤ hi) (i : Int) : clampInt lo hi i = max lo (min hi i) := by
  unfold clampInt
  split
  · omega
  · split
    · omega
    · omega

theorem signedOf_mod (n : Nat) : signedOf 16 (n % 2 ^ 16) = signedOf 16 n := by
  rw [signedOf, signedOf, Nat.mod_mod]

theorem signedOf_unsignedOf {i : Int} (hlo : -32768 ≤ i) (hhi : i ≤ 32767) : signedOf 16 (unsignedOf 16 i) = i := by
  unfold signedOf unsignedOf
  split
  · omega
  · omega

theorem loHalf_eq (w : W32) : loHalf w = (w.extractLsb' 0 16).toInt := by
  rw [loHalf, ← signedOf_mod, ← signedOf_toNat]
  rfl

theorem hiHalf_eq (w : W32) : hiHalf w = (w.extractLsb' 16 16).toInt := by
  rw [hiHalf, ← signedOf_mod, ← signedOf_toNat, BitVec.extractLsb'_toNat, Nat.shiftRight_eq_div_pow]

theorem unsignedOf_lt (i : Int) : unsignedOf 16 i < 2 ^ 16 := by
  unfold unsignedOf
  omega

theorem halves_toNat (hi lo : Int) : (halves hi lo).toNat =
    unsignedOf 16 (clampInt (-32768) 32767 hi) * 2 ^ 16 + unsignedOf 16 (clampInt (-32768) 32767 lo) := by
  have high := unsignedOf_lt (clampInt (-32768) 32767 hi)
  have low := unsignedOf_lt (clampInt (-32768) 32767 lo)
  exact toNat_w32 (by omega)

/-- A value held within the Q1.15 bounds. -/
theorem sat_eq (i : Int) : signedOf 16 (unsignedOf 16 (clampInt (-32768) 32767 i)) = max (-32768) (min 32767 i) := by
  rw [clampInt_eq (by decide)]
  exact signedOf_unsignedOf (by omega) (by omega)

theorem loHalf_halves (hi lo : Int) : ((halves hi lo).extractLsb' 0 16).toInt = max (-32768) (min 32767 lo) := by
  have low := unsignedOf_lt (clampInt (-32768) 32767 lo)
  rw [← loHalf_eq, loHalf, ← signedOf_mod, halves_toNat, Nat.mul_add_mod_self_right, Nat.mod_eq_of_lt low, sat_eq]

theorem hiHalf_halves (hi lo : Int) : ((halves hi lo).extractLsb' 16 16).toInt = max (-32768) (min 32767 hi) := by
  have low := unsignedOf_lt (clampInt (-32768) 32767 lo)
  have shifted : (halves hi lo).toNat / 2 ^ 16 = unsignedOf 16 (clampInt (-32768) 32767 hi) := by
    rw [halves_toNat]
    omega
  rw [← hiHalf_eq, hiHalf, shifted, sat_eq]

theorem half_bounds (w : W16) : -32768 ≤ w.toInt ∧ w.toInt ≤ 32767 := by
  have lo := w.le_two_mul_toInt
  have hi := w.two_mul_toInt_lt
  omega

/-! ### Rounding -/

/-- A free rounding gives one of the two places beside the exact quotient. -/
theorem State.roundedFree_bounds (s : State) (num : Int) {den : Int} (h : 0 < den) :
    den * s.roundedFree num den - den < num ∧ num < den * s.roundedFree num den + den := by
  have parts := Int.mul_ediv_add_emod num den
  have nonneg := Int.emod_nonneg num (Int.ne_of_gt h)
  have below := Int.emod_lt_of_pos num h
  unfold State.roundedFree
  split
  · omega
  · obtain free | free : s.freeN % 2 = 0 ∨ s.freeN % 2 = 1 := by omega
    · rw [free, Nat.cast_zero, Int.add_zero]
      omega
    · rw [free, Nat.cast_one, Int.mul_add, Int.mul_one]
      omega

/-- Bit by bit, the root keeps its square below the number and its next value's square above. -/
theorem isqrtFrom_spec (n : Nat) : ∀ (k r : Nat), r * r ≤ n → n < (r + 2 ^ k) * (r + 2 ^ k) →
    isqrtFrom k n r * isqrtFrom k n r ≤ n ∧ n < (isqrtFrom k n r + 1) * (isqrtFrom k n r + 1) := by
  intro k
  induction k with
  | zero => exact fun r low high => ⟨low, high⟩
  | succ k ih =>
    intro r low high
    have double : r + 2 ^ (k + 1) = r + 2 ^ k + 2 ^ k := by omega
    rw [double] at high
    simp only [isqrtFrom]
    split
    · next h => exact ih _ h high
    · next h => exact ih _ low (Nat.lt_of_not_le h)

theorem isqrt_spec {n : Nat} (h : n < 2 ^ 128) : isqrt n * isqrt n ≤ n ∧ n < (isqrt n + 1) * (isqrt n + 1) :=
  isqrtFrom_spec n 64 0 (Nat.zero_le n) (by rw [Nat.zero_add, ← Nat.pow_add]; exact h)

/-- The free rounding of n / √3: one of the two places beside it, with its sign. -/
theorem State.overRoot3_spec (s : State) {n : Int} (h : n.natAbs < 2 ^ 64) :
    (s.overRoot3 n = 0 ∨ 3 * ((s.overRoot3 n).natAbs - 1) ^ 2 ≤ n.natAbs ^ 2) ∧ n.natAbs ^ 2 < 3 * ((s.overRoot3 n).natAbs + 1) ^ 2 ∧
      (0 < s.overRoot3 n → 0 < n) ∧ (s.overRoot3 n < 0 → n < 0) := by
  by_cases zero : n = 0
  · have none : s.overRoot3 n = 0 := by simp [State.overRoot3, zero]
    rw [none, zero]
    exact ⟨Or.inl rfl, by decide, fun h => absurd h (by decide), fun h => absurd h (by decide)⟩
  have square : n.natAbs * n.natAbs < 2 ^ 64 * 2 ^ 64 := Nat.mul_self_lt_mul_self h
  obtain ⟨low, high⟩ := isqrt_spec (n := n.natAbs * n.natAbs / 3) (by omega)
  have value : s.overRoot3 n = if n < 0 then -((isqrt (n.natAbs * n.natAbs / 3) + s.freeN % 2 : Nat) : Int)
      else (isqrt (n.natAbs * n.natAbs / 3) + s.freeN % 2 : Nat) := by
    simp only [State.overRoot3, if_neg zero]
  have beside : isqrt (n.natAbs * n.natAbs / 3) + s.freeN % 2 = isqrt (n.natAbs * n.natAbs / 3) ∨
      isqrt (n.natAbs * n.natAbs / 3) + s.freeN % 2 = isqrt (n.natAbs * n.natAbs / 3) + 1 := by omega
  generalize isqrt (n.natAbs * n.natAbs / 3) + s.freeN % 2 = m at value beside
  generalize isqrt (n.natAbs * n.natAbs / 3) = r at low high beside
  have magnitude : (s.overRoot3 n).natAbs = m := by
    rw [value]
    split <;> omega
  have below : 3 * ((m - 1) * (m - 1)) ≤ n.natAbs * n.natAbs := by
    have small : m - 1 ≤ r := by omega
    have squares := Nat.mul_self_le_mul_self small
    omega
  have above : n.natAbs * n.natAbs < 3 * ((m + 1) * (m + 1)) := by
    have large : r + 1 ≤ m + 1 := by omega
    have squares := Nat.mul_self_le_mul_self large
    omega
  rw [magnitude, Nat.pow_two, Nat.pow_two, Nat.pow_two]
  refine ⟨Or.inr below, above, fun positive => ?_, fun negative => ?_⟩
  · rw [value] at positive
    split at positive <;> omega
  · rw [value] at negative
    split at negative <;> omega

/-- A sine that is a Q1.15 value is met within 2 places. -/
theorem State.within2_bounds (s : State) {v : Int} {y : Int} (h : v = y * 2 ^ 33) : y - 2 ≤ s.within2 v ∧ s.within2 v ≤ y + 2 := by
  have whole : v % 2 ^ 33 = 0 := by omega
  have quotient : v / 2 ^ 33 = y := by omega
  rw [State.within2, if_pos whole, quotient]
  omega

/-! ### The statement -/

/-- The four angles whose sine and cosine are Q1.15 values or 1. -/
theorem sinFixed_quadrants : (sinFixed 0 = 0 * 2 ^ 33 ∧ sinFixed (0 + 0x4000) = 32768 * 2 ^ 33) ∧
    (sinFixed 0x4000 = 32768 * 2 ^ 33 ∧ sinFixed (0x4000 + 0x4000) = 0 * 2 ^ 33) ∧
    (sinFixed 0x8000 = 0 * 2 ^ 33 ∧ sinFixed (0x8000 + 0x4000) = -32768 * 2 ^ 33) ∧
    (sinFixed 0xC000 = -32768 * 2 ^ 33 ∧ sinFixed (0xC000 + 0x4000) = 0 * 2 ^ 33) := by decide

/-- What an ALU result leaves, whatever was drawn before it. -/
theorem State.alu_drawn {s : State} {q : Nat} (hrun : s.executes q = true) (n : Nat) (rd : BitVec 5) (v : W32) :
    let t := ({ s with freeCount := n } : State).alu q rd v
    Retires q rd v s t ∧ OtherSeqsSame q s t ∧ t.regs = s.regs ∧ SameMemory s t := by
  intro t
  have result : t = ({ s with freeCount := n } : State).withResult q rd v := State.alu_eq_withResult (s := { s with freeCount := n }) hrun rd v
  have context : t.seq q = { (s.seq q).setX rd v with pc := (s.seq q).pc + 4, instret := (s.seq q).instret + 1 } := by
    rw [result]
    exact State.seq_setSeq_same { s with freeCount := n } q _
  refine ⟨?_, fun r hr => ?_, ?_, fun a => ?_⟩
  · rw [Retires, context]
  · rw [result]
    exact State.setSeq_others { s with freeCount := n } q _ r hr
  · rw [result]
    rfl
  · rw [result]
    rfl

/-- Settles O27: each result is one rounding or none, in its half by `loHalf_halves` and `hiHalf_halves`. -/
theorem motorInstructionResults : Obligations.MotorInstructionResults := by
  intro q rd rs1 rs2 s hrun hlo hhi lo hi sat near a b frame
  have motion := hasM_of_motion hlo hhi
  have gives (n : Nat) (word v : W32) : ∃ t, Host.Outcome.next (s.motionInsn q word true (({ s with freeCount := n } : State).alu q rd v)) =
      (.next t : Host.Outcome State Fault Refusal) ∧ frame v t :=
    ⟨_, congrArg _ (State.motionInsn_done hrun motion word _), State.alu_drawn hrun n rd v⟩
  have lowHalf (w : W32) : loHalf w = lo w := loHalf_eq w
  have highHalf (w : W32) : hiHalf w = hi w := hiHalf_eq w
  have low (x y : Int) : lo (halves x y) = sat y := loHalf_halves x y
  have high (x y : Int) : hi (halves x y) = sat x := hiHalf_halves x y
  have rounded (t : State) {x : Int} {n : Int} (h : x = sat (t.roundedFree n 32768)) : near x n :=
    ⟨_, h, t.roundedFree_bounds n (by decide)⟩
  refine ⟨⟨_, gives _ _ _, ?clarkeLow, ?clarke⟩, ⟨_, gives _ _ _, ?parkLow, ?parkHigh⟩, ⟨_, gives _ _ _, ?iparkLow, ?iparkHigh⟩,
    ⟨_, gives _ _ _, ?zero, ?quarter, ?half, ?threeQuarters⟩, ⟨_, gives s.freeCount _ _, ?macs⟩⟩
  case clarkeLow =>
    obtain ⟨least, most⟩ := half_bounds (a.extractLsb' 0 16)
    show lo (halves _ (loHalf a)) = lo a
    rw [low, lowHalf]
    show max (-32768) (min 32767 (a.extractLsb' 0 16).toInt) = (a.extractLsb' 0 16).toInt
    omega
  case clarke =>
    obtain ⟨least, most⟩ := half_bounds (a.extractLsb' 0 16)
    obtain ⟨least', most'⟩ := half_bounds (a.extractLsb' 16 16)
    have small : (loHalf a + 2 * hiHalf a).natAbs < 2 ^ 64 := by
      rw [loHalf_eq, hiHalf_eq]
      omega
    have root := s.overRoot3_spec small
    refine ⟨_, high _ _, ?_⟩
    rw [← lowHalf, ← highHalf]
    exact root
  case parkLow =>
    rw [← lowHalf a, ← lowHalf b, ← highHalf a, ← highHalf b]
    exact rounded s.drawn (low _ _)
  case parkHigh =>
    rw [← lowHalf a, ← lowHalf b, ← highHalf a, ← highHalf b]
    exact rounded s (high _ _)
  case iparkLow =>
    rw [← lowHalf a, ← lowHalf b, ← highHalf a, ← highHalf b]
    exact rounded s.drawn (low _ _)
  case iparkHigh =>
    rw [← lowHalf a, ← lowHalf b, ← highHalf a, ← highHalf b]
    exact rounded s (high _ _)
  case macs =>
    rw [← lowHalf a, ← lowHalf b, sat32, clampInt_eq (by decide)]
    exact toInt_wordOfInt (by omega) (by omega)
  all_goals
    intro angle
    have bits := (bitsOf_low a).trans angle
    rw [low, high, bits]
    obtain ⟨zero, quarter, half, threeQuarters⟩ := sinFixed_quadrants
    simp only [sat]
  case zero =>
    obtain ⟨sinLo, sinHi⟩ := s.within2_bounds zero.1
    obtain ⟨cosLo, cosHi⟩ := s.drawn.within2_bounds zero.2
    omega
  case quarter =>
    obtain ⟨sinLo, sinHi⟩ := s.within2_bounds quarter.1
    obtain ⟨cosLo, cosHi⟩ := s.drawn.within2_bounds quarter.2
    omega
  case half =>
    obtain ⟨sinLo, sinHi⟩ := s.within2_bounds half.1
    obtain ⟨cosLo, cosHi⟩ := s.drawn.within2_bounds half.2
    omega
  case threeQuarters =>
    obtain ⟨sinLo, sinHi⟩ := s.within2_bounds threeQuarters.1
    obtain ⟨cosLo, cosHi⟩ := s.drawn.within2_bounds threeQuarters.2
    omega

end Sys2Proof.Machine
end

section
/-! SUPPORT. The motor-control instructions that write a register pair: the duties of SVM and the formula of PISTEP (R63 to R65). -/

namespace Sys2Proof.Machine

/-! ### Writing a pair -/

/-- What a pair written into the even register `rd` leaves, whatever was drawn before it. -/
theorem State.pair_written {s : State} {q : Nat} {rd : BitVec 5} (heven : rd.toNat % 2 = 0) (hne : rd ≠ 0) (n : Nat) (v w : W32) :
    let t := ({ s with freeCount := n } : State).setSeq q ((s.seq q).setPair rd (v, w)).retired
    (t.seq q).pc = (s.seq q).pc + 4 ∧ (∀ r, (t.seq q).x r = if r = rd + 1 then w else if r = rd then v else (s.seq q).x r) ∧
      OtherSeqsSame q s t ∧ t.regs = s.regs ∧ SameMemory s t := by
  intro t
  have context : t.seq q = ((s.seq q).setPair rd (v, w)).retired := State.seq_setSeq_same { s with freeCount := n } q _
  have odd : rd + 1 ≠ 0 := by
    intro h
    have sum := congrArg BitVec.toNat h
    rw [BitVec.toNat_add] at sum
    change (rd.toNat + 1) % 32 = 0 at sum
    omega
  refine ⟨?_, fun r => ?_, State.setSeq_others { s with freeCount := n } q _, rfl, fun _ => rfl⟩
  · rw [context]
    simp only [Seq.retired, Seq.setPair, Seq.setX_pc]
  · have reads : (t.seq q).x r = ((s.seq q).setPair rd (v, w)).x r := by
      rw [context]
      rfl
    rw [reads, Seq.setPair, Seq.x_setX, Seq.x_setX]
    simp only [odd, hne, ne_eq, not_false_eq_true, and_true]

/-! ### Space-vector modulation -/

/-- A vector no longer than 1.0 is not scaled. -/
theorem svmPhases_of_short {alpha beta : Int} (h : alpha * alpha + beta * beta ≤ 2 ^ 30) : svmPhases alpha beta =
    (2 * (alpha * 2 ^ 48), beta * root3 - alpha * 2 ^ 48, -(alpha * 2 ^ 48) - beta * root3) := by
  have scaled (x : Int) : svmScaled x (alpha * alpha + beta * beta) = x * 2 ^ 48 := if_pos h
  have third : beta * 2 ^ 48 * root3 / 2 ^ 48 = beta * root3 := by
    rw [Int.mul_right_comm, Int.mul_ediv_cancel _ (by decide)]
  simp only [svmPhases, scaled, third]

/-- Cauchy's inequality for a vector no longer than 1.0, with 1.7321 above √3. -/
theorem weighted_le {x y : Int} (h : x * x + y * y ≤ 2 ^ 30) : 17321 * x + 10000 * y ≤ 10000 * 65538 := by
  by_contra large
  have rest := sq_nonneg (17321 * y - 10000 * x)
  have square : (10000 * 65538 + 1) * (10000 * 65538 + 1) ≤ (17321 * x + 10000 * y) * (17321 * x + 10000 * y) :=
    mul_self_le_mul_self (by decide) (by omega)
  nlinarith

theorem component_le {x y : Int} (h : x * x + y * y ≤ 2 ^ 30) : |x| ≤ 2 ^ 15 := by
  refine abs_le_of_sq_le_sq ?_ (by decide)
  nlinarith [mul_self_nonneg y]

/-- Twice √3: the divisor of a duty. -/
theorem twice_root3 : 2 * root3 = 975063584958892 := rfl

/-- A duty lies within 2 places of half plus its phase, for phases hardly longer than a half (R64). -/
theorem State.svmDuty_near (s : State) {v zero2 : Int} (h : |2 * v - zero2| ≤ 32769 * (2 * root3)) :
    |(s.svmDuty v zero2 : Int) * (2 * root3) - 2 ^ 15 * (2 * root3) - (2 * v - zero2)| ≤ 2 * (2 * root3) := by
  obtain ⟨low, high⟩ := s.roundedFree_bounds ((2 * v - zero2) * 2 ^ 46) (den := root3 * 2 ^ 47) (by decide)
  have duty : (s.svmDuty v zero2 : Int) = max 0 (min 0xFFFF (0x8000 + s.roundedFree ((2 * v - zero2) * 2 ^ 46) (root3 * 2 ^ 47))) := by
    rw [State.svmDuty, clampInt_eq (by decide), Int.toNat_of_nonneg (by omega)]
  rw [duty]
  generalize s.roundedFree ((2 * v - zero2) * 2 ^ 46) (root3 * 2 ^ 47) = y at low high
  simp only [root3] at low high h ⊢
  rw [abs_le] at h ⊢
  omega

theorem State.svmDuty_lt (s : State) (v zero2 : Int) : s.svmDuty v zero2 < 2 ^ 16 := by
  rw [State.svmDuty, clampInt_eq (by decide)]
  omega

/-- The sum of the largest and the smallest of three phases. -/
def phaseSum (v : Int × Int × Int) : Int := max v.1 (max v.2.1 v.2.2) + min v.1 (min v.2.1 v.2.2)

/-- Phases whose differences are bounded lie within that bound of the zero sequence. -/
theorem phase_bounds {a b k : Int} (h1 : |2 * b| ≤ k) (h2 : |3 * a - b| ≤ k) (h3 : |3 * a + b| ≤ k) :
    |2 * (2 * a) - phaseSum (2 * a, b - a, -a - b)| ≤ k ∧ |2 * (b - a) - phaseSum (2 * a, b - a, -a - b)| ≤ k ∧
      |2 * (-a - b) - phaseSum (2 * a, b - a, -a - b)| ≤ k := by
  simp only [phaseSum]
  rw [abs_le] at h1 h2 h3 ⊢
  rw [abs_le, abs_le]
  omega

/-- The phases of a vector no longer than 1.0 differ by hardly more than V_DC. -/
theorem spread_le {alpha beta : Int} (h : alpha * alpha + beta * beta ≤ 2 ^ 30) : |2 * (beta * root3)| ≤ 32769 * (2 * root3) ∧
    |3 * (alpha * 2 ^ 48) - beta * root3| ≤ 32769 * (2 * root3) ∧ |3 * (alpha * 2 ^ 48) + beta * root3| ≤ 32769 * (2 * root3) := by
  have side := component_le (x := beta) (y := alpha) (by rwa [add_comm])
  have first := weighted_le h
  have second := weighted_le (x := -alpha) (y := beta) (by rwa [neg_mul_neg])
  have third := weighted_le (x := alpha) (y := -beta) (by rwa [neg_mul_neg])
  have fourth := weighted_le (x := -alpha) (y := -beta) (by rwa [neg_mul_neg, neg_mul_neg])
  simp only [root3]
  rw [abs_le] at side ⊢
  rw [abs_le, abs_le]
  omega

/-- Duties within 2 places of half plus their phases keep B and C apart by v_β, and the extremes even about a half. -/
theorem duties_even {a b dA dB dC beta : Int} (hb : b = beta * root3)
    (hA : |dA * (2 * root3) - 2 ^ 15 * (2 * root3) - (2 * (2 * a) - phaseSum (2 * a, b - a, -a - b))| ≤ 2 * (2 * root3))
    (hB : |dB * (2 * root3) - 2 ^ 15 * (2 * root3) - (2 * (b - a) - phaseSum (2 * a, b - a, -a - b))| ≤ 2 * (2 * root3))
    (hC : |dC * (2 * root3) - 2 ^ 15 * (2 * root3) - (2 * (-a - b) - phaseSum (2 * a, b - a, -a - b))| ≤ 2 * (2 * root3)) :
    |dB - dC - 2 * beta| ≤ 4 ∧ |max dA (max dB dC) + min dA (min dB dC) - 2 ^ 16| ≤ 4 := by
  subst hb
  simp only [phaseSum, root3] at hA hB hC
  rw [abs_le] at hA hB hC ⊢
  rw [abs_le]
  omega

/-- The three duties of phases, with the free values that round them drawn in turn. -/
def State.duties (s : State) (v : Int × Int × Int) : Nat × Nat × Nat :=
  (s.svmDuty v.1 (phaseSum v), s.drawn.svmDuty v.2.1 (phaseSum v), s.drawn.drawn.svmDuty v.2.2 (phaseSum v))

theorem State.svm_eq (s : State) (w : W32) : s.svm w =
    let d := s.duties (svmPhases (loHalf w) (hiHalf w))
    (w32 (d.2.1 * 2 ^ 16 + d.1), w32 (s.drawn.drawn.drawn.freeN % 8 * 2 ^ 16 + d.2.2)) := by
  rw [State.svm]
  rfl

theorem State.duties_lt (s : State) (v : Int × Int × Int) : (s.duties v).1 < 2 ^ 16 ∧ (s.duties v).2.1 < 2 ^ 16 ∧ (s.duties v).2.2 < 2 ^ 16 :=
  ⟨s.svmDuty_lt _ _, s.drawn.svmDuty_lt _ _, s.drawn.drawn.svmDuty_lt _ _⟩

/-- The zero vector gives every phase half. -/
theorem State.duties_zero (s : State) : s.duties (svmPhases 0 0) = (0x8000, 0x8000, 0x8000) := rfl

theorem State.duties_of_phases (s : State) {a b beta : Int} (hb : b = beta * root3) (h1 : |2 * b| ≤ 32769 * (2 * root3))
    (h2 : |3 * a - b| ≤ 32769 * (2 * root3)) (h3 : |3 * a + b| ≤ 32769 * (2 * root3)) :
    let d := s.duties (2 * a, b - a, -a - b)
    |(d.2.1 : Int) - d.2.2 - 2 * beta| ≤ 4 ∧
      |max (d.1 : Int) (max (d.2.1 : Int) d.2.2) + min (d.1 : Int) (min (d.2.1 : Int) d.2.2) - 2 ^ 16| ≤ 4 := by
  obtain ⟨hA, hB, hC⟩ := phase_bounds h1 h2 h3
  exact duties_even hb (s.svmDuty_near hA) (s.drawn.svmDuty_near hB) (s.drawn.drawn.svmDuty_near hC)

/-- The duties of a vector no longer than 1.0. -/
theorem State.duties_of_short (s : State) {alpha beta : Int} (h : alpha * alpha + beta * beta ≤ 2 ^ 30) :
    let d := s.duties (svmPhases alpha beta)
    |(d.2.1 : Int) - d.2.2 - 2 * beta| ≤ 4 ∧
      |max (d.1 : Int) (max (d.2.1 : Int) d.2.2) + min (d.1 : Int) (min (d.2.1 : Int) d.2.2) - 2 ^ 16| ≤ 4 := by
  obtain ⟨lineBC, lineAB, lineCA⟩ := spread_le h
  rw [svmPhases_of_short h]
  exact s.duties_of_phases rfl lineBC lineAB lineCA

/-- What the words of SVM hold, for duties below 1.0. -/
theorem svmWords_spec {dA dB dC sector : Nat} (hA : dA < 2 ^ 16) (hB : dB < 2 ^ 16) (hC : dC < 2 ^ 16) (hsector : sector < 8) :
    (w32 (dB * 2 ^ 16 + dA)).toNat % 2 ^ 16 = dA ∧ (w32 (dB * 2 ^ 16 + dA)).toNat / 2 ^ 16 = dB ∧
      (w32 (sector * 2 ^ 16 + dC)).toNat % 2 ^ 16 = dC ∧ (w32 (sector * 2 ^ 16 + dC)).toNat < 2 ^ 19 := by
  rw [toNat_w32 (by omega), toNat_w32 (by omega)]
  omega

/-- What SVM computes: two duties, the sector and the third. -/
theorem State.svm_spec (s : State) (w : W32) :
    let dA : Int := ((s.svm w).1.toNat % 2 ^ 16 : Nat)
    let dB : Int := ((s.svm w).1.toNat / 2 ^ 16 : Nat)
    let dC : Int := ((s.svm w).2.toNat % 2 ^ 16 : Nat)
    (s.svm w).2.toNat < 2 ^ 19 ∧ (w = 0 → (s.svm w).1 = 0x80008000 ∧ (s.svm w).2.toNat % 2 ^ 16 = 0x8000) ∧
      (loHalf w * loHalf w + hiHalf w * hiHalf w ≤ 2 ^ 30 →
        |dB - dC - 2 * hiHalf w| ≤ 4 ∧ |max dA (max dB dC) + min dA (min dB dC) - 2 ^ 16| ≤ 4) := by
  obtain ⟨ltA, ltB, ltC⟩ := s.duties_lt (svmPhases (loHalf w) (hiHalf w))
  obtain ⟨isA, isB, isC, reserved⟩ := svmWords_spec ltA ltB ltC (Nat.mod_lt s.drawn.drawn.drawn.freeN (by decide : 0 < 8))
  rw [s.svm_eq]
  refine ⟨reserved, fun zero => ?zero, fun short => ?short⟩
  case zero =>
    have half : s.duties (svmPhases (loHalf w) (hiHalf w)) = (0x8000, 0x8000, 0x8000) := zero ▸ s.duties_zero
    simp only [half] at isC ⊢
    exact ⟨rfl, isC⟩
  case short =>
    simp only [isA, isB, isC]
    exact s.duties_of_short short

/-! ### PISTEP -/

theorem bitsOf_upper (w : W32) : bitsOf w 31 16 = w.toNat / 2 ^ 16 := by
  have bound := w.isLt
  rw [bitsOf]
  exact Nat.mod_eq_of_lt (by omega)

theorem loHalf_wordOfInt {i : Int} (hlo : -32768 ≤ i) (hhi : i ≤ 32767) : loHalf (wordOfInt i) = i := by
  have bound : unsignedOf 32 i < 2 ^ 32 := by
    unfold unsignedOf
    omega
  rw [loHalf, wordOfInt, toNat_w32 bound]
  unfold signedOf unsignedOf
  split
  · omega
  · omega

/-- What PISTEP computes, by R65's formula. -/
theorem piStep_spec (i : W32) (le kk : W32) :
    let e := loHalf le
    let limit : Int := (le.toNat / 2 ^ 16 : Nat)
    let inew := max (-2 ^ 31) (min (2 ^ 31 - 1) (i.toInt + ((kk.toNat / 2 ^ 16 : Nat) : Int) * e * 16))
    let u := max (-32768) (min 32767 (((kk.toNat % 2 ^ 16 : Nat) : Int) * e / 4096 + inew / 65536))
    (piStep i.toInt le kk).1.toInt = (if limit < |u| ∧ e.sign = u.sign then i.toInt else inew) ∧
      ((piStep i.toInt le kk).2.extractLsb' 0 16).toInt = max (-limit) (min limit u) := by
  intro e limit inew u
  have integrator : clampInt (-(2 : Int) ^ 31) (2 ^ 31 - 1) (i.toInt + ((kk.toNat / 2 ^ 16 : Nat) : Int) * e * 16) = inew :=
    clampInt_eq (by decide) _
  have output : clampInt (-32768) 32767 (((kk.toNat % 2 ^ 16 : Nat) : Int) * e / 4096 + inew / 65536) = u := clampInt_eq (by decide) _
  have step : piStep i.toInt le kk = (wordOfInt (if decide (limit < u.natAbs) && decide (e.sign = u.sign) then i.toInt else inew),
      wordOfInt (clampInt (-limit) limit u)) := by
    simp only [piStep, bitsOf_upper, bitsOf_low]
    rw [integrator, output]
  have range : -2 ^ 31 ≤ inew ∧ inew < 2 ^ 31 := by omega
  have held : -32768 ≤ u ∧ u ≤ 32767 := by omega
  rw [step]
  constructor
  · have condition : (decide (limit < u.natAbs) && decide (e.sign = u.sign)) = decide (limit < |u| ∧ e.sign = u.sign) := by
      rw [Int.abs_eq_natAbs, Bool.decide_and]
    simp only [condition, decide_eq_true_eq]
    split
    · rw [wordOfInt_eq_ofInt, BitVec.ofInt_toInt]
    · exact toInt_wordOfInt range.1 range.2
  · rw [clampInt_eq (by omega), ← loHalf_eq]
    exact loHalf_wordOfInt (by omega) (by omega)

/-- Settles O28: the duties by `State.svm_spec`, the integrator and the output by `piStep_spec`. -/
theorem motorPairResults : Obligations.MotorPairResults := by
  intro q rd rs1 rs2 s hrun hlo hhi heven hne a b frame
  have motion := hasM_of_motion hlo hhi
  have pair := pairOk_of_even heven hne
  have gives (n : Nat) (word : W32) (p : W32 × W32) : ∃ t, Host.Outcome.next (s.motionInsn q word (pairOk rd)
      (({ s with freeCount := n } : State).setSeq q ((s.seq q).setPair rd p).retired)) =
      (.next t : Host.Outcome State Fault Refusal) ∧ frame p.1 p.2 t := by
    rw [pair]
    exact ⟨_, congrArg _ (State.motionInsn_done hrun motion word _), State.pair_written heven hne n p.1 p.2⟩
  refine ⟨⟨(s.svm a).1, (s.svm a).2, gives _ _ (s.svm a), ?svm⟩,
    ⟨(piStep ((s.seq q).x rd).toInt a b).1, (piStep ((s.seq q).x rd).toInt a b).2, gives s.freeCount _ _, ?pistep⟩⟩
  case svm =>
    have spec := s.svm_spec a
    rw [loHalf_eq, hiHalf_eq] at spec
    exact spec
  case pistep =>
    have spec := piStep_spec ((s.seq q).x rd) a b
    rw [loHalf_eq] at spec
    exact spec

end Sys2Proof.Machine
end

section
/-! SUPPORT. One D4 FIRE cycle: what an axis's part of it leaves of the clocks, and the statement on an empty queue (R59, R87, R102, R370). -/

namespace Sys2Proof.Machine

/-! ### What keeps the clocks -/

/-- From `s` to `t` FT, every sequencer's CYCLE and the shape of the sequencers stay. -/
structure ClockKept (s t : State) : Prop where
  cycle : ∀ q, (t.seq q).cycle = (s.seq q).cycle
  pairs : t.splitPairs = s.splitPairs
  lanesOff : t.lanesOff = s.lanesOff
  clustersOff : t.clustersOff = s.clustersOff
  uptime : t.uptime = s.uptime

theorem ClockKept.refl (s : State) : ClockKept s s := ⟨fun _ => rfl, rfl, rfl, rfl, rfl⟩

theorem ClockKept.trans {s t u : State} (h : ClockKept s t) (k : ClockKept t u) : ClockKept s u :=
  ⟨fun q => (k.cycle q).trans (h.cycle q), k.pairs.trans h.pairs, k.lanesOff.trans h.lanesOff, k.clustersOff.trans h.clustersOff,
    k.uptime.trans h.uptime⟩

theorem ClockKept.foldl {α : Type} {f : State → α → State} (h : ∀ s x, ClockKept s (f s x)) : ∀ (l : List α) (s : State), ClockKept s (l.foldl f s)
  | [], s => ClockKept.refl s
  | x :: l, s => (h s x).trans (ClockKept.foldl h l (f s x))

theorem LaneAside.clockKept {lane : Nat} {s t : State} (h : LaneAside lane s t) : ClockKept s t :=
  ⟨fun q => by rw [h.seq], h.pairs, h.lanesOff, h.clustersOff, h.uptime⟩

theorem Touches.clockKept {P : Nat → Prop} {s t : State} (h : Touches P s t) : ClockKept s t := (h.laneAside 0).clockKept

theorem State.wr_clock (s : State) (a : Nat) (v : W32) : ClockKept s (s.wr a v) := (s.wr_touches a v).clockKept

theorem State.set_clock (s : State) (f : Field) (v : Nat) : ClockKept s (s.set f v) := (s.set_touches f v).clockKept

theorem State.setAxis_clock (s : State) (n : Nat) (a : Axis) : ClockKept s (s.setAxis n a) := ⟨fun _ => rfl, rfl, rfl, rfl, rfl⟩

theorem State.setLane_clock (s : State) (n : Nat) (l : Lane) : ClockKept s (s.setLane n l) := ⟨fun _ => rfl, rfl, rfl, rfl, rfl⟩

theorem State.setTile_clock (s : State) (k : Nat) (x : Tile) : ClockKept s (s.setTile k x) := ⟨fun _ => rfl, rfl, rfl, rfl, rfl⟩

theorem State.postAt_clock (s : State) (src kind axis : Nat) (stamp : W32) (loc : W64) (detail : W32) :
    ClockKept s (s.postAt src kind axis stamp loc detail) := (s.postAt_quiet src kind axis stamp loc detail).clockKept

theorem State.setStatus_clock (s : State) (stat ien b src : Nat) : ClockKept s (s.setStatus stat ien b src) :=
  (s.setStatus_touches stat ien b src).clockKept

/-! ### The queues -/

theorem State.completeWait_clock (s : State) (q rd : Nat) (code : W32) : ClockKept s (s.completeWait q rd code) := by
  refine ⟨fun r => ?_, rfl, rfl, rfl, rfl⟩
  by_cases h : s.ctxOf r = s.ctxOf q
  · have same : s.seq r = s.seq q := State.seq_of_ctxOf h
    have context : (s.completeWait q rd code).seq r = (s.completeWait q rd code).seq q := State.seq_of_ctxOf h
    rw [context, same, State.completeWait, State.seq_setSeq_same, Seq.setX_eq]
  · rw [State.completeWait, State.seq_setSeq_ne _ _ h]

theorem State.completeWaitp_clock (s : State) (n : Nat) (code : W32) : ClockKept s (s.completeWaitp n code) := by
  refine ClockKept.foldl (fun t e => ?_) _ s
  split
  · split
    · exact t.completeWait_clock _ _ _
    · exact ClockKept.refl t
  · exact ClockKept.refl t

theorem State.lanePost_clock (s : State) (lane kind axis : Nat) (stamp : W32) (detail : Nat) :
    ClockKept s (s.lanePost lane kind axis stamp detail) := s.postAt_clock _ _ _ _ _ _

theorem State.schFlag_clock (s : State) (lane b : Nat) : ClockKept s (s.schFlag lane b) := s.setStatus_clock _ _ _ _

theorem State.dropUnconfirmed_clock (s : State) (n : Nat) : ClockKept s (s.dropUnconfirmed n) := by
  refine ClockKept.foldl (fun t l => ?_) _ s
  extract_lets mine k queues u
  clear_value mine
  split
  · exact ClockKept.refl t
  · extract_lets last v
    have counted : ClockKept t v := ((t.setLane_clock _ _).trans (u.set_clock _ _)).trans (State.wr_clock _ _ _)
    exact ((counted.trans (v.wr_clock _ _)).trans (State.schFlag_clock _ _ _)).trans (State.lanePost_clock _ _ _ _ _ _)

theorem State.removeEntries_clock (s : State) (lane : Nat) (p : Entry → Bool) : ClockKept s (s.removeEntries lane p).2 :=
  (s.setLane_clock _ _).trans (s.removeEntries_aside lane p).clockKept

theorem State.queueCancel_clock (s : State) (n cause : Nat) (p : Entry → Bool) : ClockKept s (s.queueCancel n cause p) := by
  unfold State.queueCancel
  extract_lets bit
  refine ClockKept.foldl (fun t l => ?_) _ s
  have removed := t.removeEntries_clock l.1 (fun e => t.selects e.bar n && p e)
  split
  next found =>
    rw [found] at removed
    split
    · exact ClockKept.refl t
    · exact (removed.trans (State.schFlag_clock _ _ _)).trans (State.lanePost_clock _ _ _ _ _ _)

theorem State.sendSet_clock (s : State) (lane : Nat) (x : SentSet) : ClockKept s (s.sendSet lane x) := by
  unfold State.sendSet
  split
  · exact s.setLane_clock _ _
  · exact ClockKept.refl s

theorem State.tilesStrobed_clock (s : State) (lane mask : Nat) (blank : Bool) : ClockKept s (s.tilesStrobed lane mask blank) :=
  ClockKept.foldl (fun t _ => t.setTile_clock _ _) _ s

theorem State.waveFail_clock (s : State) (lane pos cause index : Nat) : ClockKept s (s.waveFail lane pos cause index) :=
  (s.set_clock _ _).trans (State.post_quiet _ _ _ _ _).clockKept

theorem State.retryFull_clock (s : State) (lane mask : Nat) : ClockKept s (s.retryFull lane mask) := by
  unfold State.retryFull
  extract_lets l due again sent lost txs t
  have first : ClockKept s t := (s.setLane_clock _ _).trans (State.set_clock _ _ _)
  exact first.trans (ClockKept.foldl (fun u x => u.waveFail_clock _ _ _ _) _ t)

theorem State.freeSlots_clock (s : State) (lane : Nat) (e : Entry) : ClockKept s (s.freeSlots lane e) :=
  ClockKept.foldl (fun t p => (t.freeSlot_aside lane lane p e.tag).clockKept) _ s

theorem State.missEntry_clock (s : State) (n lane : Nat) (e : Entry) : ClockKept s (s.missEntry n lane e) := by
  unfold State.missEntry
  extract_lets k t u
  have counted : ClockKept s t := (s.set_clock _ _).trans (State.set_clock _ _ _)
  have strobed : ClockKept t u := ((t.sendSet_clock _ _).trans (State.tilesStrobed_clock _ _ _ _)).trans (State.retryFull_clock _ _ _)
  exact ((counted.trans strobed).trans ((u.freeSlots_clock lane e).trans (State.schFlag_clock _ _ _))).trans (State.lanePost_clock _ _ _ _ _ _)

theorem State.wakePending_clock (s : State) (n : Nat) : ClockKept s (s.wakePending n) := by
  unfold State.wakePending
  extract_lets rev
  refine ClockKept.foldl (fun t l => ?_) _ s
  extract_lets mine missed q
  exact (t.setLane_clock _ _).trans (ClockKept.foldl (fun u e => u.missEntry_clock n l.1 e) _ _)

/-! ### The axes -/

theorem State.axisFlag_clock (s : State) (n b cause slice : Nat) : ClockKept s (s.axFlag n b cause slice) := by
  unfold State.axFlag
  extract_lets was t
  have flagged : ClockKept s t := s.setStatus_clock _ _ _ _
  split
  · exact flagged
  · exact flagged.trans (t.postAt_clock _ _ _ _ _ _)

theorem State.eoFollow_clock (s : State) (n : Nat) (d : Int) : ClockKept s (s.eoFollow n d) := by
  refine ClockKept.foldl (fun t i => ?_) _ s
  split
  · split
    next o ovr _ =>
      have followed : ClockKept t { t with encOuts := tabPut t.encOuts i o } := ⟨fun _ => rfl, rfl, rfl, rfl, rfl⟩
      extract_lets u
      split
      · exact (followed.trans (u.set_clock _ _)).trans (State.postAt_clock _ _ _ _ _ _ _)
      · exact followed
  · exact ClockKept.refl t

theorem State.wrapCount_clock (s : State) (n : Nat) (old : W32) (d : Int) : ClockKept s (s.wrapCount n old d) := by
  unfold State.wrapCount
  extract_lets sum a
  split
  · exact (s.setAxis_clock _ _).trans (State.axisFlag_clock _ _ _ _ _)
  · split
    · exact (s.setAxis_clock _ _).trans (State.axisFlag_clock _ _ _ _ _)
    · exact ClockKept.refl s

theorem State.updateSkew_clock (s : State) (n : Nat) : ClockKept s (s.updateSkew n) := by
  unfold State.updateSkew
  extract_lets a raw lim
  split
  · split
    · exact s.setAxis_clock _ _
    · split
      · exact (s.setAxis_clock _ _).trans (State.axisFlag_clock _ _ _ _ _)
      · exact s.setAxis_clock _ _
  · exact ClockKept.refl s

theorem State.skewStep_clock (s : State) (n : Nat) : ClockKept s (s.skewStep n) :=
  (s.updateSkew_clock n).trans ⟨fun _ => rfl, rfl, rfl, rfl, rfl⟩

theorem State.declareReversal_clock (s : State) (n : Nat) (d : Int) (te : Nat) : ClockKept s (s.declareReversal n d te) := by
  unfold State.declareReversal
  extract_lets a0 oldRev m a1 a2 t u
  have turned : ClockKept s t := ((s.dropUnconfirmed_clock n).trans (State.setAxis_clock _ _ _)).trans (State.wrapCount_clock _ _ _ _)
  have flagged : ClockKept t u := ((t.set_clock _ _).trans (State.axisFlag_clock _ _ _ _ _)).trans (State.updateSkew_clock _ _)
  exact (turned.trans flagged).trans (((u.queueCancel_clock _ _ _).trans (State.wakePending_clock _ _)).trans (State.completeWaitp_clock _ _ _))

theorem State.countChange_clock (s : State) (n : Nat) (d0 : Int) (te : Nat) : ClockKept s (s.countChange n d0 te) := by
  unfold State.countChange
  extract_lets d a against c b t
  split
  · exact ClockKept.refl s
  · have changed : ClockKept s t := by
      unfold t
      split
      · split
        · exact s.declareReversal_clock n d te
        · exact (s.setAxis_clock _ _).trans (State.wrapCount_clock _ _ _ _)
      · exact (s.setAxis_clock _ _).trans (State.wrapCount_clock _ _ _ _)
    exact (changed.trans (t.eoFollow_clock n d)).trans (State.skewStep_clock _ n)

theorem State.axisTick_clock (s : State) (n : Nat) : ClockKept s (s.axisTick n) := by
  unfold State.axisTick
  extract_lets a p sum b t u
  split
  · exact ClockKept.refl s
  · have moved : ClockKept s t := s.setAxis_clock _ _
    have carried : ClockKept t u := by
      unfold u State.virtualCarry
      split
      · split
        · exact t.countChange_clock _ _ _
        · exact ClockKept.refl t
      · exact ClockKept.refl t
    exact (moved.trans carried).trans (u.skewStep_clock n)

/-! ### The sequencers' clocks -/

/-- From `s` to `t` nothing but sequencers' CYCLE changes. -/
structure CycleOnly (s t : State) : Prop where
  core : t = { s with seqs := t.seqs }
  seq : ∀ q, t.seq q = { s.seq q with cycle := (t.seq q).cycle }

theorem CycleOnly.refl (s : State) : CycleOnly s s := ⟨rfl, fun _ => rfl⟩

theorem CycleOnly.uptime {s t : State} (h : CycleOnly s t) : t.uptime = s.uptime := by
  rw [h.core]

theorem CycleOnly.trans {s t u : State} (h : CycleOnly s t) (k : CycleOnly t u) : CycleOnly s u := by
  refine ⟨?_, fun q => ?_⟩
  · have later := k.core
    rw [h.core] at later
    exact later
  · have later := k.seq q
    rwa [h.seq q] at later

theorem CycleOnly.foldl {α : Type} {f : State → α → State} (h : ∀ s x, CycleOnly s (f s x)) : ∀ (l : List α) (s : State), CycleOnly s (l.foldl f s)
  | [], s => CycleOnly.refl s
  | x :: l, s => (h s x).trans (CycleOnly.foldl h l (f s x))

theorem State.seqTick_only (s : State) (q : Nat) : CycleOnly s (s.seqTick q) := by
  unfold State.seqTick
  split
  · exact CycleOnly.refl s
  · refine ⟨rfl, fun r => ?_⟩
    by_cases h : s.ctxOf r = s.ctxOf q
    · have same : s.seq r = s.seq q := State.seq_of_ctxOf h
      have moved (c : Seq) : (s.setSeq q c).seq r = c :=
        (State.seq_of_ctxOf (s := s.setSeq q c) h).trans (State.seq_setSeq_same s q c)
      rw [moved, same]
    · rw [State.seq_setSeq_ne _ _ h]

/-- A link engine that is present. -/
def State.engineHere (s : State) (q : Nat) : Prop := 24 ≤ q ∧ s.seqFused q = false

theorem State.ctxOf_of_engine (s : State) {q : Nat} (h : 24 ≤ q) : s.ctxOf q = q :=
  State.ctxOf_of_not_shadow (by
    have high : decide (q < 8) = false := decide_eq_false (by omega)
    rw [State.isShadow, State.lockstep, high, Bool.false_and, Bool.and_false])

theorem State.ctxOf_eq_engine {s : State} {q r : Nat} (h : 24 ≤ q) (hr : s.ctxOf r = q) : r = q := by
  unfold State.ctxOf at hr
  split at hr
  · next shadow =>
    have low : r < 8 := by
      simp only [State.isShadow, State.lockstep, Bool.and_eq_true, decide_eq_true_eq] at shadow
      exact shadow.2.1
    omega
  · exact hr

/-- Another sequencer's cycle leaves a link engine's CYCLE. -/
theorem State.seqTick_cycle_ne (s : State) {q r : Nat} (h : 24 ≤ q) (hr : r ≠ q) : ((s.seqTick r).seq q).cycle = (s.seq q).cycle := by
  unfold State.seqTick
  split
  · rfl
  · have apart : s.ctxOf q ≠ s.ctxOf r := fun same => hr (State.ctxOf_eq_engine h (same.symm.trans (s.ctxOf_of_engine h)))
    rw [State.seq_setSeq_ne _ _ apart]

theorem State.seqTicks_cycle_ne {q : Nat} (h : 24 ≤ q) : ∀ (l : List Nat) (s : State), q ∉ l →
    ((l.foldl State.seqTick s).seq q).cycle = (s.seq q).cycle
  | [], _, _ => rfl
  | r :: l, s, hl => (State.seqTicks_cycle_ne h l (s.seqTick r) fun mem => hl (List.mem_cons_of_mem r mem)).trans
      (s.seqTick_cycle_ne h fun same => hl (same ▸ List.mem_cons_self))

/-- One cycle of D4 FIRE is one cycle of a link engine. -/
theorem State.seqTick_cycle_same (s : State) {q : Nat} (h : s.engineHere q) : ((s.seqTick q).seq q).cycle = (s.seq q).cycle + 1 := by
  obtain ⟨high, present⟩ := h
  have runs : (s.isShadow q || s.seqFused q) = false := by
    have own : decide (q < 8) = false := decide_eq_false (by omega)
    rw [present, State.isShadow, State.lockstep, own, Bool.false_and, Bool.and_false, Bool.or_false]
  have domain : domainOf q = 4 := by
    unfold domainOf groupOf
    rw [if_neg (by omega), if_neg (by omega), if_neg (by omega)]
    rfl
  have one : BitVec.ofNat 64 (s.cyclesIn (domainOf q)) = 1 := by
    rw [domain]
    rfl
  rw [State.seqTick, runs, one]
  exact congrArg Seq.cycle (State.seq_setSeq_same s q _)

theorem State.seqTicks_cycle {s : State} {q : Nat} (h : s.engineHere q) {l : List Nat} (hmem : q ∈ l) (hnodup : l.Nodup) :
    ((l.foldl State.seqTick s).seq q).cycle = (s.seq q).cycle + 1 := by
  obtain ⟨before, after, rfl⟩ := List.append_of_mem hmem
  obtain ⟨-, hafter, hbefore⟩ := List.nodup_append.mp hnodup
  have absent : q ∉ before := fun mem => hbefore q mem q List.mem_cons_self rfl
  have passed : q ∉ after := (List.nodup_cons.mp hafter).1
  have only := CycleOnly.foldl State.seqTick_only before s
  have here : (before.foldl State.seqTick s).engineHere q := by
    rw [only.core]
    exact h
  rw [List.foldl_append, List.foldl_cons, State.seqTicks_cycle_ne h.1 after _ passed, State.seqTick_cycle_same _ here,
    State.seqTicks_cycle_ne h.1 before s absent]

/-! ### The statement -/

/-- Axes that hold no position do nothing. -/
theorem State.axisTicks_of_invalid {s : State} : ∀ (l : List Nat), (∀ n ∈ l, (s.axis n).valid = false) → l.foldl State.axisTick s = s
  | [], _ => rfl
  | n :: l, h => by
    have idle : s.axisTick n = s := by
      have invalid := h n List.mem_cons_self
      rw [State.axisTick]
      exact if_pos (by rw [invalid]; rfl)
    rw [List.foldl_cons, idle]
    exact State.axisTicks_of_invalid l fun m hm => h m (List.mem_cons_of_mem n hm)

/-- A cycle outside reset: the axes, the sequencers, and the timebase set. -/
theorem State.tick_eq {s : State} (h : s.resetting = false) : ∃ sec ns frac, s.tick =
    ((List.range 48).foldl State.seqTick ((List.range 8).foldl State.axisTick { s with uptime := s.uptime + 1 })).setPtp sec ns frac := by
  rw [State.tick, h]
  exact ⟨_, _, _, rfl⟩

theorem State.setPtp_eq (s : State) (sec ns frac : Nat) : ∃ regs, s.setPtp sec ns frac = { s with regs := regs, ptpFrac := frac } := by
  unfold State.setPtp State.wr
  exact ⟨_, rfl⟩

theorem State.setPtp_uptime (s : State) (sec ns frac : Nat) : (s.setPtp sec ns frac).uptime = s.uptime := by
  obtain ⟨regs, written⟩ := s.setPtp_eq sec ns frac
  rw [written]

theorem State.setPtp_seq (s : State) (sec ns frac q : Nat) : (s.setPtp sec ns frac).seq q = s.seq q := by
  obtain ⟨regs, written⟩ := s.setPtp_eq sec ns frac
  rw [written]
  rfl

theorem State.setPtp_rd (s : State) (sec ns frac : Nat) {a : Nat} (h1 : a ≠ R.PTP_NS) (h2 : a ≠ R.PTP_SECL) (h3 : a ≠ R.PTP_SECH) :
    (s.setPtp sec ns frac).rd a = s.rd a := by
  show (((s.wr R.PTP_NS (w32 ns)).wr R.PTP_SECL (w32 sec)).wr R.PTP_SECH (w32 (sec / 2 ^ 32 % 2 ^ 16))).rd a = s.rd a
  rw [State.rd_wr_ne _ _ h3, State.rd_wr_ne _ _ h2, State.rd_wr_ne _ _ h1]

/-- What the timebase leaves where only CYCLE has changed before it. -/
theorem CycleOnly.setPtp {s u : State} (only : CycleOnly s u) (sec ns frac : Nat) :
    let t := u.setPtp sec ns frac
    t.axes = s.axes ∧ t.lanes = s.lanes ∧ t.signals = s.signals ∧ t.ev = s.ev ∧ SameMemory s t ∧
      (∀ q, (t.seq q).run = (s.seq q).run ∧ (t.seq q).pc = (s.seq q).pc ∧ ∀ r, (t.seq q).x r = (s.seq q).x r) ∧
      ∀ a, a ≠ R.PTP_NS → a ≠ R.PTP_SECL → a ≠ R.PTP_SECH → t.rd a = s.rd a := by
  intro t
  obtain ⟨regs, written⟩ := u.setPtp_eq sec ns frac
  have core := only.core
  have registers (a : Nat) : u.rd a = s.rd a := by
    rw [core]
    rfl
  have memory (a : Nat) : u.rdByte a = s.rdByte a := by
    rw [core]
    rfl
  obtain ⟨axes, lanes, signals, ev⟩ : u.axes = s.axes ∧ u.lanes = s.lanes ∧ u.signals = s.signals ∧ u.ev = s.ev := by
    rw [core]
    exact ⟨rfl, rfl, rfl, rfl⟩
  have registers' (a : Nat) (h1 : a ≠ R.PTP_NS) (h2 : a ≠ R.PTP_SECL) (h3 : a ≠ R.PTP_SECH) : t.rd a = s.rd a :=
    (u.setPtp_rd sec ns frac h1 h2 h3).trans (registers a)
  have context (q : Nat) : t.seq q = { s.seq q with cycle := (u.seq q).cycle } := by
    rw [← only.seq q, show t = _ from written]
    rfl
  obtain ⟨axes', lanes', signals', ev'⟩ : t.axes = u.axes ∧ t.lanes = u.lanes ∧ t.signals = u.signals ∧ t.ev = u.ev := by
    rw [show t = _ from written]
    exact ⟨rfl, rfl, rfl, rfl⟩
  have memory' (a : Nat) : t.rdByte a = u.rdByte a := by
    rw [show t = _ from written]
    rfl
  refine ⟨axes'.trans axes, lanes'.trans lanes, signals'.trans signals, ev'.trans ev, fun a => (memory' a).trans (memory a), fun q => ?_,
    registers'⟩
  rw [context]
  exact ⟨rfl, rfl, fun _ => rfl⟩

/-- Settles O3: the axes keep the clocks, the sequencers count each once, the timebase writes its three registers. -/
theorem emptyQueueTick : Obligations.EmptyQueueTick := by
  intro s hempty
  have ticks : step s = .next s.tick := by rw [step, hempty]
  refine ⟨fun hreset => ?_, fun hreset => ⟨s.tick, ticks, ?uptime, ?pending, fun q hlo hhi hfused => ?cycle, fun hinvalid => ?idle⟩⟩
  · rw [ticks, State.tick, if_pos hreset]
  all_goals
    obtain ⟨sec, ns, frac, tick⟩ := State.tick_eq hreset
    have axes := ClockKept.foldl State.axisTick_clock (List.range 8) { s with uptime := s.uptime + 1 }
    have only := CycleOnly.foldl State.seqTick_only (List.range 48) ((List.range 8).foldl State.axisTick { s with uptime := s.uptime + 1 })
  case uptime =>
    rw [tick, State.setPtp_uptime]
    exact only.uptime.trans axes.uptime
  case pending => exact s.tick_keeps.queue.trans hempty
  case cycle =>
    have here : ((List.range 8).foldl State.axisTick { s with uptime := s.uptime + 1 }).engineHere q := by
      refine ⟨hlo, ?_⟩
      rw [← hfused]
      simp only [State.seqFused, State.rcFused, State.laneFused, axes.lanesOff, axes.clustersOff]
    have before : (({ s with uptime := s.uptime + 1 } : State).seq q).cycle = (s.seq q).cycle := rfl
    rw [tick, State.setPtp_seq, State.seqTicks_cycle here (List.mem_range.mpr hhi) List.nodup_range, axes.cycle q, before]
  case idle =>
    have still := State.axisTicks_of_invalid (s := { s with uptime := s.uptime + 1 }) (List.range 8)
      (fun n hn => hinvalid n (List.mem_range.mp hn))
    rw [still] at only tick
    rw [tick]
    exact only.setPtp sec ns frac

end Sys2Proof.Machine
end

section
/-! SUPPORT. What the boot ROM reads and writes: the checks of an image, its records, the release and the rejection (R85, R86, R391 to R400). -/

namespace Sys2Proof.Machine

/-! ### Bytes -/

theorem leNat_leBytes : ∀ (n v : Nat), leNat (leBytes n v) = v % 256 ^ n
  | 0, v => by rw [leBytes, leNat, Nat.pow_zero, Nat.mod_one]
  | n + 1, v => by
    rw [leBytes, leNat, leNat_leBytes n, Nat.pow_succ, Nat.mul_comm (256 ^ n) 256, Nat.mod_mul, BitVec.toNat_ofNat]

theorem leNat_word (v : W32) : leNat (leBytes 4 v.toNat) = v.toNat := by
  rw [leNat_leBytes]
  exact Nat.mod_eq_of_lt v.isLt

theorem leBytes_length : ∀ (n v : Nat), (leBytes n v).length = n
  | 0, _ => rfl
  | n + 1, v => congrArg Nat.succ (leBytes_length n (v / 256))

theorem State.rdBytes_succ (s : State) (a n : Nat) : s.rdBytes a (n + 1) = s.rdByte a :: s.rdBytes (a + 1) n := by
  rw [State.rdBytes, List.range_succ_eq_map, List.map_cons, List.map_map]
  refine congrArg (s.rdByte a :: ·) (List.map_congr_left fun k _ => ?_)
  show s.rdByte (a + (k + 1)) = s.rdByte (a + 1 + k)
  rw [Nat.add_right_comm, Nat.add_assoc]

theorem State.rdBytes_congr {s t : State} (h : SameMemory s t) (a n : Nat) : t.rdBytes a n = s.rdBytes a n :=
  List.map_congr_left fun k _ => h (a + k)

/-- An image whose first byte is not that of R85's magic has a bad header. -/
theorem headerOk_of_first {s : State} {a : Nat} (h : s.rdByte a ≠ 0x47) (len : Nat) : headerOk (s.rdBytes a 256) len = false := by
  have magic : fieldLE (s.rdBytes a 256) 0 4 ≠ 0x4D495A47 := by
    intro same
    rw [State.rdBytes_succ, fieldLE, List.drop_zero, List.take_succ_cons, leNat] at same
    exact h (BitVec.eq_of_toNat_eq (by simp; omega))
  have bad : (fieldLE (s.rdBytes a 256) 0 4 == 0x4D495A47) = false := beq_eq_false_iff_ne.mpr magic
  simp only [headerOk, bad, Bool.false_and]

/-! ### The boot status -/

/-- From `s` to `t` a register alone may differ, and nothing else. -/
def WithReg (a : Nat) (s t : State) : Prop := ∃ regs, t = { s with regs := regs } ∧ ∀ b, b ≠ a → t.rd b = s.rd b

theorem State.set_withReg (s : State) (f : Field) (v : Nat) : WithReg f.addr s (s.set f v) := ⟨_, rfl, fun _ h => State.rd_wr_ne s _ h⟩

theorem WithReg.trans {a : Nat} {s t u : State} (h : WithReg a s t) (k : WithReg a t u) : WithReg a s u := by
  obtain ⟨regs, rfl, first⟩ := h
  obtain ⟨regs', rfl, second⟩ := k
  exact ⟨regs', rfl, fun b hb => (second b hb).trans (first b hb)⟩

theorem WithReg.get {a : Nat} {s t : State} (h : WithReg a s t) {f : Field} (hf : f.addr ≠ a) : t.get f = s.get f := by
  obtain ⟨-, -, same⟩ := h
  rw [State.get, State.get, same _ hf]

theorem WithReg.mem {a : Nat} {s t : State} (h : WithReg a s t) : SameMemory s t := by
  obtain ⟨regs, rfl, -⟩ := h
  exact fun _ => rfl

theorem WithReg.seqs {a : Nat} {s t : State} (h : WithReg a s t) : t.seqs = s.seqs := by
  obtain ⟨regs, rfl, -⟩ := h
  rfl

theorem WithReg.resetting {a : Nat} {s t : State} (h : WithReg a s t) : t.resetting = s.resetting := by
  obtain ⟨regs, rfl, -⟩ := h
  rfl

theorem WithReg.cells {a : Nat} {s t : State} (h : WithReg a s t) : t.cells = s.cells := by
  obtain ⟨regs, rfl, -⟩ := h
  rfl

/-! ### The checks look past the boot status -/

theorem WithReg.memAbsent {s t : State} (h : WithReg R.SYS_BOOTSTAT s t) (a : Nat) : t.memAbsent a = s.memAbsent a := by
  have ready : t.bit F.MEM_DSTAT_rdy (dramChannel a) = s.bit F.MEM_DSTAT_rdy (dramChannel a) := by
    rw [State.bit, State.bit, h.get (by decide)]
  rw [State.memAbsent, State.memAbsent, ready]
  obtain ⟨regs, rfl, -⟩ := h
  rfl

theorem WithReg.partOk {s t : State} (h : WithReg R.SYS_BOOTSTAT s t) (header : List W8) : t.partOk header = s.partOk header := by
  rw [State.partOk, State.partOk, h.get (by decide), h.get (by decide)]
  obtain ⟨regs, rfl, -⟩ := h
  rfl

theorem WithReg.sectionsOk {s t : State} (h : WithReg R.SYS_BOOTSTAT s t) (n len : Nat) (xs : List Section) :
    t.sectionsOk n len xs = s.sectionsOk n len xs := by
  have each : t.sectionOk len = s.sectionOk len := by
    funext x
    simp only [State.sectionOk, h.memAbsent]
  rw [State.sectionsOk, State.sectionsOk, each]

theorem WithReg.shadowWord {s t : State} (h : WithReg R.SYS_BOOTSTAT s t) (b w : Nat) :
    t.shadowWord b w = s.shadowWord b w := by
  have apart : (F.FUSE_BSTAT_superseded b).addr ≠ R.SYS_BOOTSTAT := by
    simp only [F.FUSE_BSTAT_superseded, R.FUSE_BSTAT, R.SYS_BOOTSTAT]
    omega
  have effect : t.bankInEffect b = s.bankInEffect b := by
    rw [State.bankInEffect, State.bankInEffect, State.flag, State.flag, h.get apart]
  rw [State.shadowWord, State.shadowWord, effect]
  obtain ⟨regs, rfl, -⟩ := h
  rfl

theorem WithReg.keyCheck {s t : State} (h : WithReg R.SYS_BOOTSTAT s t) (key : List W8) : t.keyCheck key = s.keyCheck key := by
  have bytes (w n : Nat) : t.shadowBytes 4 w n = s.shadowBytes 4 w n := by
    simp only [State.shadowBytes, h.shadowWord]
  have effect : t.bankInEffect 4 = s.bankInEffect 4 := by
    rw [State.bankInEffect, State.bankInEffect, State.flag, State.flag, h.get (by decide)]
  have alarm : t.bankAlarm 4 = s.bankAlarm 4 := by rw [State.bankAlarm, State.bankAlarm, State.bit, State.bit, h.get (by decide)]
  have tables : t.wordFlags = s.wordFlags ∧ t.shadow = s.shadow := by
    obtain ⟨regs, rfl, -⟩ := h
    exact ⟨rfl, rfl⟩
  have trusted : t.slotTrusted = s.slotTrusted := by
    funext k
    simp only [State.slotTrusted, bytes, effect, alarm, tables, h.shadowWord]
  have hash : t.slotHash = s.slotHash := by
    funext k
    exact bytes _ _
  have blank : t.slotBlank = s.slotBlank := by
    funext k
    rw [State.slotBlank, State.slotBlank, hash]
  rw [State.keyCheck, State.keyCheck, trusted, hash, blank, h.get (by decide)]

/-! ### Rejection -/

theorem State.err_set_phase (s : State) (v : Nat) : (s.set F.SYS_BOOTSTAT_phase v).get F.SYS_BOOTSTAT_err = s.get F.SYS_BOOTSTAT_err :=
  State.get_set_disjoint s v rfl (by decide) (by decide) (by decide)

theorem State.bootSel_set_phase (s : State) (v : Nat) : (s.set F.SYS_BOOTSTAT_phase v).bootSel = s.bootSel :=
  congrArg (· / 8) (State.get_set_disjoint s v rfl (by decide) (by decide) (by decide))

theorem State.bootSel_bootErr (s : State) (code : Nat) : (s.bootErr code).bootSel = s.bootSel :=
  congrArg (· / 8) (State.get_set_disjoint s code rfl (by decide) (by decide) (by decide))

theorem State.err_bootErr (s : State) {code : Nat} (h : code < 16) : (s.bootErr code).get F.SYS_BOOTSTAT_err = code :=
  (State.get_set_same s F.SYS_BOOTSTAT_err code (by decide) (by decide)).trans (Nat.mod_eq_of_lt h)

theorem State.phase_bootErr (s : State) (code : Nat) : (s.bootErr code).get F.SYS_BOOTSTAT_phase = s.get F.SYS_BOOTSTAT_phase :=
  State.get_set_disjoint s code rfl (by decide) (by decide) (by decide)

/-- A rejection before any section is loaded (R394). -/
theorem State.bootReject_spec {s t : State} (h : WithReg R.SYS_BOOTSTAT s t) (hreset : s.resetting = false) {code : Nat} (hcode : code < 16) :
    Rejected code s (t.bootReject code) ∧ (t.bootSel = 1 → (t.bootReject code).rd (R.GSP_EXP 0) = 0) := by
  obtain ⟨u, hu⟩ : ∃ u, u = (t.bootErr code).set F.SYS_BOOTSTAT_phase 1 := ⟨_, rfl⟩
  have status : WithReg R.SYS_BOOTSTAT s u := by
    rw [hu]
    exact (h.trans (t.set_withReg F.SYS_BOOTSTAT_err code)).trans (State.set_withReg _ F.SYS_BOOTSTAT_phase 1)
  have err : u.get F.SYS_BOOTSTAT_err = code := by rw [hu, State.err_set_phase, State.err_bootErr _ hcode]
  have phase : u.get F.SYS_BOOTSTAT_phase = 1 := by
    rw [hu]
    exact State.get_set_same _ _ _ (by decide) (by decide)
  have port : u.bootSel = t.bootSel := by rw [hu, State.bootSel_set_phase, State.bootSel_bootErr]
  have rejects : t.bootReject code =
      if u.bootSel = 1 then { u.wr (R.GSP_EXP 0) 0 with wire := .bootResult (u.stream 0).ip (u.stream 0).udp code :: u.wire } else u := by
    rw [State.bootReject, h.resetting, hreset, hu]
    rfl
  rw [rejects]
  by_cases hport : u.bootSel = 1
  · rw [if_pos hport]
    have other {f : Field} (hf : f.addr ≠ R.GSP_EXP 0) : (u.wr (R.GSP_EXP 0) 0).get f = u.get f := State.get_wr_ne u 0 hf
    exact ⟨⟨(other (by decide)).trans err, (other (by decide)).trans phase, status.seqs, status.mem⟩, fun _ => State.rd_wr_same u _ 0⟩
  · rw [if_neg hport]
    exact ⟨⟨err, phase, status.seqs, status.mem⟩, fun one => absurd (port.trans one) hport⟩

/-! ### The go -/

theorem State.imageRead_clean {s t : State} (h : WithReg R.SYS_BOOTSTAT s t) (hcells : s.cells = []) (off n : Nat) :
    t.imageRead off n = (some (s.rdBytes (stagingBase + off) n), t) := by
  rw [State.imageRead, State.dataRead_of_sound (sound_of_no_cells t _ _ (h.cells.trans hcells)), State.rdBytes_congr h.mem]

/-- The boot status while the checks run. -/
def State.checking (s : State) : State := s.set F.SYS_BOOTSTAT_phase 2

theorem State.checking_withReg (s : State) : WithReg R.SYS_BOOTSTAT s s.checking := s.set_withReg F.SYS_BOOTSTAT_phase 2

/-- The first checks of an image without an erroneous cell: its header, then its part. -/
theorem State.bootGo_clean {s : State} (hcells : s.cells = []) (len : Nat) : s.bootGo len =
    if headerOk s.imageHeader len = false then s.checking.bootReject 1
    else if s.partOk s.imageHeader = false then s.checking.bootReject 2 else s.checking.bootVerify len s.imageHeader := by
  have read := State.imageRead_clean s.checking_withReg hcells 0 256
  have part := s.checking_withReg.partOk s.imageHeader
  rw [State.bootGo, show s.set F.SYS_BOOTSTAT_phase 2 = s.checking from rfl, read]
  show (if (!headerOk s.imageHeader len) = true then _ else if (!s.checking.partOk s.imageHeader) = true then _ else _) = _
  rw [part]
  cases headerOk s.imageHeader len <;> cases s.partOk s.imageHeader <;> rfl

theorem State.bootVerify_none {s : State} {len : Nat} {h : List W8} (hkey : s.keyCheck ((h.drop 0x40).take 64) = .none) :
    s.bootVerify len h = s.bootReject 3 := by
  rw [State.bootVerify, hkey]

theorem State.bootVerify_some {s : State} {len : Nat} {h table : List W8} (hkey : s.keyCheck ((h.drop 0x40).take 64) ≠ .none)
    (hread : s.imageRead 0x100 (64 * fieldLE h 0xC 2) = (some table, s))
    (hsign : signatureOk h (sha256 (h.take 0x80 ++ h.drop 0xC0 ++ table)) = true) :
    s.bootVerify len h = s.bootLoad len h table (sha256 (h.take 0x80 ++ h.drop 0xC0 ++ table)) (s.keyCheck ((h.drop 0x40).take 64)) := by
  unfold State.bootVerify
  split
  · next none => exact absurd none hkey
  · rw [hread]
    exact if_pos hsign

theorem State.bootLoad_loads {s u : State} {len : Nat} {h table : List W8} (hash : List W8) (key : KeyFound)
    (hsections : s.sectionsOk (fieldLE h 0xC 2) len (sectionsOf (fieldLE h 0xC 2) table) = true)
    (hload : loadSections (sectionsOf (fieldLE h 0xC 2) table) s = (true, u)) :
    s.bootLoad len h table hash key = u.bootAccept hash key (sectionsOf (fieldLE h 0xC 2) table) := by
  simp only [State.bootLoad, hsections, hload, Bool.not_true, Bool.false_eq_true, if_false]

/-- An image that passes every check is accepted where its sections left the state. -/
theorem State.bootGo_loads {s u : State} {len : Nat} (h : s.imageLoads len u) : ∃ key xs,
    s.bootGo len = u.bootAccept (sha256 (s.imageHeader.take 0x80 ++ s.imageHeader.drop 0xC0 ++ s.imageTable)) key xs ∧ u.resetting = false := by
  obtain ⟨header, part, key, signature, sections, load, resets, -, cells⟩ := h
  have status := s.checking_withReg
  have keyed : s.checking.keyCheck ((s.imageHeader.drop 0x40).take 64) ≠ .none := by
    rw [status.keyCheck]
    exact key
  have checked : s.checking.sectionsOk (fieldLE s.imageHeader 0xC 2) len (sectionsOf (fieldLE s.imageHeader 0xC 2) s.imageTable) = true := by
    rw [status.sectionsOk]
    exact sections
  refine ⟨s.checking.keyCheck ((s.imageHeader.drop 0x40).take 64), sectionsOf (fieldLE s.imageHeader 0xC 2) s.imageTable, ?_, resets⟩
  rw [State.bootGo_clean cells, if_neg (by simp [header]), if_neg (by simp [part]),
    State.bootVerify_some keyed (State.imageRead_clean status cells 0x100 _) signature]
  exact State.bootLoad_loads _ _ checked load

end Sys2Proof.Machine
end

section
/-! SUPPORT. What the boot ROM leaves when it releases an image: its record, the sequencers started and CP0's jump (R86, R398, R399). -/

namespace Sys2Proof.Machine

/-! ### Registers written in a row -/

theorem wrEach_rd_ne (a : Nat) (g : Nat → W32) {x : Nat} (s : State) : ∀ n, (∀ k < n, x ≠ a + 4 * k) →
    ((List.range n).foldl (fun t k => t.wr (a + 4 * k) (g k)) s).rd x = s.rd x
  | 0, _ => rfl
  | n + 1, h => by
    rw [List.range_succ, List.foldl_append, List.foldl_cons, List.foldl_nil, State.rd_wr_ne _ _ (h n (Nat.lt_succ_self n))]
    exact wrEach_rd_ne a g s n fun k hk => h k (Nat.lt_succ_of_lt hk)

theorem wrEach_rd_same (a : Nat) (g : Nat → W32) {k : Nat} (s : State) : ∀ n, k < n →
    ((List.range n).foldl (fun t k => t.wr (a + 4 * k) (g k)) s).rd (a + 4 * k) = g k
  | n + 1, h => by
    rw [List.range_succ, List.foldl_append, List.foldl_cons, List.foldl_nil]
    by_cases last : k = n
    · rw [last]
      exact State.rd_wr_same _ _ _
    · rw [State.rd_wr_ne _ _ (by omega)]
      exact wrEach_rd_same a g s n (by omega)

theorem State.putHash_rd_ne (s : State) {a x : Nat} (h : List W8) (hx : ∀ k < 8, x ≠ a + 4 * k) : (s.putHash a h).rd x = s.rd x :=
  wrEach_rd_ne a _ s 8 hx

theorem State.putHash_rd_same (s : State) (a : Nat) (h : List W8) {k : Nat} (hk : k < 8) :
    (s.putHash a h).rd (a + 4 * k) = w32 (leNat ((h.drop (4 * k)).take 4)) :=
  wrEach_rd_same a _ s 8 hk

/-! ### The boot record -/

theorem State.fill_rd (s : State) (a : Nat) (bs : List W8) (x : Nat) : (s.fill a bs).rd x = s.rd x := s.bytesStored_rd a bs x

theorem retain_rd (x : Nat) : ∀ (xs : List Section) (at_ : Nat) (table : List W8) (s : State), (retain xs at_ table s).2.rd x = s.rd x
  | [], _, _, _ => rfl
  | y :: ys, at_, table, s => by
    rw [retain]
    exact (retain_rd x ys _ _ _).trans (s.fill_rd _ _ x)

/-- The record before it says how the key was trusted: the retained area, its hash, the image hash, the time and the code 0. -/
def State.bootNoted (s : State) (hash : List W8) (xs : List Section) : State :=
  let r := retain (xs.filter Section.kept) 0x10000 [] s
  let u := ((r.2.fill retainedBase r.1).putHash (R.SYS_RTHASH 0) (sha256 r.1)).wr R.SYS_RTCNT (w32 (xs.filter Section.kept).length)
  ((u.putHash (R.SYS_BOOTHASH 0) hash).wr R.SYS_BOOTTIME (w32 s.usNow)).bootErr 0

/-- How the key was trusted, noted in the boot status. -/
def State.bootTrust (s : State) : KeyFound → State
  | .slot k => (s.set F.SYS_BOOTSTAT_slot k).set F.SYS_BOOTSTAT_unauth 0
  | _ => s.set F.SYS_BOOTSTAT_unauth 1

theorem State.bootRecord_eq (s : State) (hash : List W8) (key : KeyFound) (xs : List Section) :
    s.bootRecord hash key xs = (s.bootNoted hash xs).bootTrust key := by
  rw [State.bootRecord, State.bootNoted]
  cases key <;> rfl

theorem State.bootTrust_withReg (s : State) (key : KeyFound) : WithReg R.SYS_BOOTSTAT s (s.bootTrust key) := by
  cases key with
  | slot k => exact (s.set_withReg F.SYS_BOOTSTAT_slot k).trans (State.set_withReg _ F.SYS_BOOTSTAT_unauth 0)
  | none => exact s.set_withReg F.SYS_BOOTSTAT_unauth 1
  | unauth => exact s.set_withReg F.SYS_BOOTSTAT_unauth 1

theorem State.err_bootTrust (s : State) (key : KeyFound) : (s.bootTrust key).get F.SYS_BOOTSTAT_err = s.get F.SYS_BOOTSTAT_err := by
  have unauth (t : State) (v : Nat) : (t.set F.SYS_BOOTSTAT_unauth v).get F.SYS_BOOTSTAT_err = t.get F.SYS_BOOTSTAT_err :=
    State.get_set_disjoint t v rfl (by decide) (by decide) (by decide)
  cases key with
  | slot k => exact (unauth _ 0).trans (State.get_set_disjoint s k rfl (by decide) (by decide) (by decide))
  | none => exact unauth s 1
  | unauth => exact unauth s 1

theorem State.bootNoted_entry (s : State) (hash : List W8) (xs : List Section) :
    (s.bootNoted hash xs).rd (R.SYS_SEQ_ENTRY 0) = s.rd (R.SYS_SEQ_ENTRY 0) := by
  rw [State.bootNoted, State.bootErr, State.rd_set_ne _ _ (by decide), State.rd_wr_ne _ _ (by decide),
    State.putHash_rd_ne _ _ (by decide), State.rd_wr_ne _ _ (by decide), State.putHash_rd_ne _ _ (by decide), State.fill_rd, retain_rd]

theorem bootHash_ne (k : Nat) : R.SYS_BOOTHASH k ≠ R.SYS_BOOTTIME ∧ R.SYS_BOOTHASH k ≠ R.SYS_BOOTSTAT := by
  simp only [R.SYS_BOOTHASH, R.SYS_BOOTTIME, R.SYS_BOOTSTAT]
  omega

theorem State.bootNoted_hash (s : State) (hash : List W8) (xs : List Section) {k : Nat} (hk : k < 8) :
    (s.bootNoted hash xs).rd (R.SYS_BOOTHASH k) = w32 (leNat ((hash.drop (4 * k)).take 4)) := by
  obtain ⟨time, status⟩ := bootHash_ne k
  have place : R.SYS_BOOTHASH k = R.SYS_BOOTHASH 0 + 4 * k := by
    simp only [R.SYS_BOOTHASH]
    omega
  rw [State.bootNoted, State.bootErr, State.rd_set_ne _ _ status, State.rd_wr_ne _ _ time, place, State.putHash_rd_same _ _ _ hk]

/-- The boot record's registers: the code 0, the entry of CP0 as the sections left it, and the image hash. -/
theorem State.bootRecord_rd (s : State) (hash : List W8) (key : KeyFound) (xs : List Section) :
    let t := s.bootRecord hash key xs
    t.get F.SYS_BOOTSTAT_err = 0 ∧ t.rd (R.SYS_SEQ_ENTRY 0) = s.rd (R.SYS_SEQ_ENTRY 0) ∧
      ∀ k < 8, t.rd (R.SYS_BOOTHASH k) = w32 (leNat ((hash.drop (4 * k)).take 4)) := by
  obtain ⟨-, -, same⟩ := (s.bootNoted hash xs).bootTrust_withReg key
  rw [s.bootRecord_eq]
  refine ⟨?_, (same _ (by decide)).trans (s.bootNoted_entry hash xs), fun k hk => (same _ (bootHash_ne k).2).trans (s.bootNoted_hash hash xs hk)⟩
  rw [State.err_bootTrust]
  exact State.err_bootErr _ (by decide)

/-! ### The release -/

/-- Registers that a released image's record and entry stand in. -/
def bootReg (a : Nat) : Prop := a = R.SYS_BOOTSTAT ∨ a = R.SYS_SEQ_ENTRY 0 ∨ ∃ k < 8, a = R.SYS_BOOTHASH k

theorem bootReg_ne_ctl {a q : Nat} (h : bootReg a) (hq : q < 48) : a ≠ R.SYS_SEQ_CTL q := by
  obtain rfl | rfl | ⟨k, hk, rfl⟩ := h <;> simp only [R.SYS_BOOTSTAT, R.SYS_SEQ_ENTRY, R.SYS_BOOTHASH, R.SYS_SEQ_CTL] <;> omega

theorem State.seqStart_rd (s : State) (q a : Nat) : (s.seqStart q).rd a = s.rd a := by
  unfold State.seqStart
  extract_lets c
  split
  · rfl
  · rfl

/-- Starting a sequencer writes its control register alone. -/
theorem State.seqRun_rd (s : State) {q a : Nat} (h : a ≠ R.SYS_SEQ_CTL q) : (s.seqCtlWrite q (s.seqCtlKeep q 1)).rd a = s.rd a := by
  by_cases hreached : s.seqReached q = true
  · obtain ⟨u, settled, written⟩ := State.seqCtlWrite_kept hreached 1 rfl
    exact (congrArg (fun t => t.rd a) written).trans ((u.seqStart_rd q a).trans (settled.rd a h))
  · rw [State.seqCtlWrite, if_pos (by simpa using hreached)]

theorem State.seqRuns_rd {a : Nat} (h : bootReg a) : ∀ (l : List Nat) (s : State), (∀ q ∈ l, q < 48) →
    (l.foldl (fun u q => u.seqCtlWrite q (u.seqCtlKeep q 1)) s).rd a = s.rd a
  | [], _, _ => rfl
  | q :: l, s, hl => (State.seqRuns_rd h l _ fun r hr => hl r (List.mem_cons_of_mem q hr)).trans
      (s.seqRun_rd (bootReg_ne_ctl h (hl q List.mem_cons_self)))

theorem State.bootLeaves_rd (s : State) {a : Nat} (h : bootReg a) : s.bootLeaves.rd a = s.rd a := by
  have window : a ≠ R.PCIE_WIN 0 := by
    obtain rfl | rfl | ⟨k, hk, rfl⟩ := h <;> simp only [R.SYS_BOOTSTAT, R.SYS_SEQ_ENTRY, R.SYS_BOOTHASH, R.PCIE_WIN] <;> omega
  have stream : a ≠ R.GSP_EXP 0 := by
    obtain rfl | rfl | ⟨k, hk, rfl⟩ := h <;> simp only [R.SYS_BOOTSTAT, R.SYS_SEQ_ENTRY, R.SYS_BOOTHASH, R.GSP_EXP] <;> omega
  unfold State.bootLeaves
  split
  · exact State.rd_wr_ne s 0 window
  · exact State.rd_wr_ne s 0 stream
  · rfl

/-- The release: phase 3, CP0 at its entry, the record as it was (R398). -/
theorem State.bootRelease_spec (s : State) (xs : List Section) :
    let t := s.bootRelease xs
    t.get F.SYS_BOOTSTAT_phase = 3 ∧ t.get F.SYS_BOOTSTAT_err = s.get F.SYS_BOOTSTAT_err ∧ (t.seq 0).run = .running ∧
      (t.seq 0).pc = s.rd (R.SYS_SEQ_ENTRY 0) &&& 0xFFFFFFFC ∧ ∀ k < 8, t.rd (R.SYS_BOOTHASH k) = s.rd (R.SYS_BOOTHASH k) := by
  obtain ⟨u, hu⟩ : ∃ u, u = ((List.range 48).filter (fun q => q != 0 && xs.any (fun x => x.type == secEntry && natBit x.mask q))).foldl
    (fun u q => u.seqCtlWrite q (u.seqCtlKeep q 1)) s.bootLeaves := ⟨_, rfl⟩
  have kept {a : Nat} (h : bootReg a) : u.rd a = s.rd a := by
    rw [hu, State.seqRuns_rd h _ _ fun q hq => List.mem_range.mp (List.mem_of_mem_filter hq), State.bootLeaves_rd s h]
  have release : s.bootRelease xs = (u.set F.SYS_BOOTSTAT_phase 3).leftovers := by
    rw [hu]
    rfl
  have entry : (u.set F.SYS_BOOTSTAT_phase 3).rd (R.SYS_SEQ_ENTRY 0) = s.rd (R.SYS_SEQ_ENTRY 0) := by
    rw [State.rd_set_ne _ _ (by decide)]
    exact kept (Or.inr (Or.inl rfl))
  have cp0 (v : State) : (v.leftovers.seq 0).run = .running ∧ (v.leftovers.seq 0).pc = v.rd (R.SYS_SEQ_ENTRY 0) &&& 0xFFFFFFFC := by
    have context : v.leftovers.seq 0 = { v.seq 0 with
        run := .running, pc := v.rd (R.SYS_SEQ_ENTRY 0) &&& 0xFFFFFFFC,
        g := (List.range 31).map (fun k => (k + 1, Config.freeWord (v.freeCount + k))) } := State.seq_setSeq_same v 0 _
    rw [context]
    exact ⟨rfl, rfl⟩
  have registers (v : State) (a : Nat) : v.leftovers.rd a = v.rd a := rfl
  intro t
  rw [show t = _ from release]
  refine ⟨?_, ?_, (cp0 _).1, (cp0 _).2.trans (congrArg (· &&& 0xFFFFFFFC) entry), fun k hk => ?_⟩
  · rw [State.get, registers]
    exact State.get_set_same u F.SYS_BOOTSTAT_phase 3 (by decide) (by decide)
  · rw [State.get, registers]
    refine (u.err_set_phase 3).trans ?_
    exact congrArg (fun w => bitsOf w 19 16) (kept (Or.inl rfl))
  · rw [registers, State.rd_set_ne _ _ (bootHash_ne k).2]
    exact kept (Or.inr (Or.inr ⟨k, hk, rfl⟩))

/-- An accepted image is released with the record of its hash. -/
theorem State.bootAccept_spec {u : State} (hreset : u.resetting = false) (hash : List W8) (key : KeyFound) (xs : List Section) :
    let t := u.bootAccept hash key xs
    t.get F.SYS_BOOTSTAT_phase = 3 ∧ t.get F.SYS_BOOTSTAT_err = 0 ∧ (t.seq 0).run = .running ∧
      (t.seq 0).pc = u.rd (R.SYS_SEQ_ENTRY 0) &&& 0xFFFFFFFC ∧
      ∀ k < 8, t.rd (R.SYS_BOOTHASH k) = w32 (leNat ((hash.drop (4 * k)).take 4)) := by
  obtain ⟨err, entry, hashes⟩ := u.bootRecord_rd hash key xs
  have accepted (v : State) (hv : ∀ a, v.rd a = (u.bootRecord hash key xs).rd a) :
      let t := v.bootRelease xs
      t.get F.SYS_BOOTSTAT_phase = 3 ∧ t.get F.SYS_BOOTSTAT_err = 0 ∧ (t.seq 0).run = .running ∧
        (t.seq 0).pc = u.rd (R.SYS_SEQ_ENTRY 0) &&& 0xFFFFFFFC ∧
        ∀ k < 8, t.rd (R.SYS_BOOTHASH k) = w32 (leNat ((hash.drop (4 * k)).take 4)) := by
    obtain ⟨phase, code, run, pc, record⟩ := v.bootRelease_spec xs
    refine ⟨phase, code.trans ?_, run, pc.trans ?_, fun k hk => (record k hk).trans ((hv _).trans (hashes k hk))⟩
    · rw [State.get, hv]
      exact err
    · rw [hv, entry]
  rw [State.bootAccept, hreset]
  simp only [Bool.false_eq_true, if_false]
  split
  · exact accepted _ fun _ => rfl
  · exact accepted _ fun _ => rfl

end Sys2Proof.Machine
end

section
/-! SUPPORT. The boot ports, what each carries, and the reload of one sequencer (R85, R86, R390 to R400, R404). -/

namespace Sys2Proof.Machine

/-! ### The port opens -/

theorem State.bootWaits_iff (s : State) (k : Nat) :
    s.bootWaits k = true ↔ s.resetting = false ∧ s.get F.SYS_BOOTSTAT_phase = 1 ∧ s.get F.SYS_BOOTSTAT_straps / 8 = k := by
  simp [State.bootWaits, State.bootSel, and_assoc]

theorem State.straps_lt (s : State) : s.get F.SYS_BOOTSTAT_straps < 32 := bitsOf_lt _ 28 24

theorem State.ready_lt (s : State) : s.get F.MEM_DSTAT_rdy < 16 := bitsOf_lt _ 3 0

/-- ETH0 as the boot ROM sets it up writes ETH0's own registers (R396). -/
theorem State.bootEth_spec (s : State) : s.bootEth.get (F.ETH_CFG_mode 0) = s.get F.SYS_BOOTSTAT_straps % 4 + 1 ∧ s.bootEth.get (F.ETH_CFG_en 0) = 1 ∧
    s.bootEth.get F.MEM_DSTAT_rdy = s.get F.MEM_DSTAT_rdy := by
  obtain ⟨t, ht⟩ : ∃ t, t = (s.set (F.ETH_CFG_mode 0) (s.bootCfg + 1)).set (F.ETH_CFG_en 0) 1 := ⟨_, rfl⟩
  have addresses {f : Field} (h : f.addr = R.ETH_CFG 0 ∨ f.addr = R.MEM_DSTAT) : s.bootEth.get f = t.get f := by
    rw [State.bootEth, ← ht]
    obtain h | h := h <;>
      rw [State.get_wr_ne _ _ (by rw [h]; decide), State.get_wr_ne _ _ (by rw [h]; decide), State.get_wr_ne _ _ (by rw [h]; decide),
        State.get_wr_ne _ _ (by rw [h]; decide), State.get_wr_ne _ _ (by rw [h]; decide), State.get_wr_ne _ _ (by rw [h]; decide)]
  have mode : t.get (F.ETH_CFG_mode 0) = s.bootCfg + 1 := by
    have small : s.bootCfg + 1 < 8 := by
      have bound := Nat.mod_lt (s.get F.SYS_BOOTSTAT_straps) (by decide : 0 < 4)
      rw [State.bootCfg]
      omega
    rw [ht, State.get_set_disjoint (f := F.ETH_CFG_en 0) (g := F.ETH_CFG_mode 0) _ _ rfl (by decide) (by decide) (by decide),
      State.get_set_same s (F.ETH_CFG_mode 0) _ (by decide) (by decide)]
    exact Nat.mod_eq_of_lt small
  have enabled : t.get (F.ETH_CFG_en 0) = 1 := by
    rw [ht]
    exact State.get_set_same _ (F.ETH_CFG_en 0) 1 (by decide) (by decide)
  have ready : t.get F.MEM_DSTAT_rdy = s.get F.MEM_DSTAT_rdy := by
    rw [ht, State.get_set_ne _ _ (by decide), State.get_set_ne _ _ (by decide)]
  exact ⟨(addresses (Or.inl rfl)).trans mode, (addresses (Or.inl rfl)).trans enabled, (addresses (Or.inr rfl)).trans ready⟩

/-- The strapped port opens; without one the boot ROM reports error 9 (R390, R395, R396). -/
theorem State.bootOpen_spec (s : State) : let t := s.bootOpen
    let sel := s.get F.SYS_BOOTSTAT_straps / 8
    t.get F.MEM_DSTAT_rdy = s.get F.MEM_DSTAT_rdy ∧ (sel = 0 → t.rd (R.PCIE_WIN 0) = 0x80000010) ∧
      (sel = 1 → t.get (F.ETH_CFG_mode 0) = s.get F.SYS_BOOTSTAT_straps % 4 + 1 ∧ t.get (F.ETH_CFG_en 0) = 1) ∧
      (sel ≠ 3 → t.get F.SYS_BOOTSTAT_phase = 1) ∧
      (sel = 3 → t.get F.SYS_BOOTSTAT_err = 9 ∧ t.get F.SYS_BOOTSTAT_phase = s.get F.SYS_BOOTSTAT_phase) := by
  have phase (t : State) : (t.set F.SYS_BOOTSTAT_phase 1).get F.SYS_BOOTSTAT_phase = 1 := State.get_set_same _ _ _ (by decide) (by decide)
  have other (t : State) {f : Field} (h : f.addr ≠ R.SYS_BOOTSTAT) : (t.set F.SYS_BOOTSTAT_phase 1).get f = t.get f := State.get_set_ne _ _ h
  have bound := s.straps_lt
  intro t sel
  have cases : sel = 0 ∨ sel = 1 ∨ sel = 2 ∨ sel = 3 := by omega
  have opened : t = s.bootOpen := rfl
  clear_value t
  rw [opened, State.bootOpen, show s.bootSel = sel from rfl]
  clear_value sel
  obtain rfl | rfl | rfl | rfl := cases
  · refine ⟨(other _ (by decide)).trans (State.get_wr_ne s _ (by decide)), fun _ => ?_, fun h => absurd h (by decide), fun _ => phase _,
      fun h => absurd h (by decide)⟩
    exact (State.rd_set_ne _ _ (by decide)).trans (State.rd_wr_same s _ _)
  · obtain ⟨mode, enabled, ready⟩ := s.bootEth_spec
    exact ⟨(other _ (by decide)).trans ready, fun h => absurd h (by decide), fun _ => ⟨(other _ (by decide)).trans mode, (other _ (by decide)).trans enabled⟩,
      fun _ => phase _, fun h => absurd h (by decide)⟩
  · exact ⟨other _ (by decide), fun h => absurd h (by decide), fun h => absurd h (by decide), fun _ => phase _, fun h => absurd h (by decide)⟩
  · exact ⟨State.get_set_ne _ _ (by decide), fun h => absurd h (by decide), fun h => absurd h (by decide), fun h => absurd rfl h,
      fun _ => ⟨s.err_bootErr (by decide), s.phase_bootErr 9⟩⟩

/-! ### SPI -/

theorem fieldLE_word (v : W32) (bs : List W8) : fieldLE (leBytes 4 v.toNat ++ bs) 0 4 = v.toNat := by
  rw [fieldLE, List.drop_zero, List.take_left' (leBytes_length 4 _), leNat_word]

/-- A frame that is no WRITE, STATUS or GO of the right length sets error 7 while the port waits (R397). -/
theorem State.spiFrame_bad {s : State} {frame : List W8} (h : frame.headD 0 ∉ [0x02, 0x05, 0x0B] ∨ frame.headD 0 ≠ 0x02 ∧ frame.length ≠ 5 ∨
    frame.length < 6 ∧ frame.headD 0 = 0x02 ∨ 261 < frame.length) : s.spiFrame frame = s.spiBad := by
  cases frame with
  | nil => rfl
  | cons c bs =>
    simp only [List.headD_cons, List.length_cons, List.mem_cons, List.not_mem_nil, or_false, not_or] at h
    by_cases write : c = 2
    · have count : bs.length < 5 ∨ 260 < bs.length := by
        obtain ⟨other, -⟩ | ⟨other, -⟩ | ⟨few, -⟩ | many := h
        · exact absurd write other
        · exact absurd write other
        · exact Or.inl (by omega)
        · exact Or.inr (by omega)
      have refused : ((bs.drop 4).isEmpty || decide (256 < (bs.drop 4).length) || s.memAbsent (stagingBase + fieldLE bs 0 4) ||
          s.memAbsent (stagingBase + fieldLE bs 0 4 + (bs.drop 4).length - 1)) = true := by
        obtain few | many := count
        · have empty : bs.drop 4 = [] := List.drop_eq_nil_of_le (by omega)
          rw [empty]
          rfl
        · have long : decide (256 < (bs.drop 4).length) = true := decide_eq_true (by rw [List.length_drop]; omega)
          rw [long, Bool.or_true, Bool.true_or, Bool.true_or]
      rw [State.spiFrame, if_pos write, State.spiStore, State.spiBad]
      simp only [refused, if_true]
      cases s.bootWaits 2 <;> rfl
    · have length (known : c = 5 ∨ c = 0x0B) : bs.length ≠ 4 := by
        obtain ⟨-, notStatus, notGo⟩ | ⟨-, count⟩ | ⟨-, isWrite⟩ | many := h
        · exact absurd known (not_or.mpr ⟨notStatus, notGo⟩)
        · omega
        · exact absurd isWrite write
        · omega
      by_cases status : c = 5
      · rw [State.spiFrame, if_neg write, if_pos status, if_neg (length (Or.inl status))]
      · by_cases go : c = 0x0B
        · rw [State.spiFrame, if_neg write, if_neg status, if_pos go, if_pos (bne_iff_ne.mpr (length (Or.inr go)))]
        · rw [State.spiFrame, if_neg write, if_neg status, if_neg go]

theorem State.spiFrame_go (s : State) (len : W32) : s.spiFrame (0x0B :: leBytes 4 len.toNat) = if s.bootWaits 2 then s.bootGo len.toNat else s := by
  have count : ¬((leBytes 4 len.toNat).length != 4) = true := by simp [leBytes_length]
  rw [State.spiFrame, if_neg (by decide), if_neg (by decide), if_pos rfl, if_neg count, leNat_word]

theorem State.spiFrame_write (s : State) (off : W32) (data : List W8) : s.spiFrame (2 :: (leBytes 4 off.toNat ++ data)) =
    if !s.bootWaits 2 then s
    else if data.isEmpty || decide (256 < data.length) || s.memAbsent (0x0100000000 + off.toNat) ||
        s.memAbsent (0x0100000000 + off.toNat + data.length - 1) then s.bootErr 7
    else s.fill (0x0100000000 + off.toNat) data := by
  rw [State.spiFrame, if_pos rfl, State.spiStore, fieldLE_word, List.drop_left' (leBytes_length 4 _)]
  rfl

/-! ### PCIe -/

/-- From `s` to `t` the host port's write of SYS_BOOTCMD has been answered: SYS_BOOTCMD alone may differ (R395). -/
def Commanded (s t : State) : Prop := ∃ u, WithReg R.SYS_BOOTCMD s u ∧ t = u.answered .done

theorem WithReg.refl (a : Nat) (s : State) : WithReg a s s := ⟨s.regs, rfl, fun _ _ => rfl⟩

theorem State.plainWrite_withReg (s : State) (a : Nat) (v : W32) : WithReg a s (s.plainWrite a v) := by
  unfold State.plainWrite
  split
  · exact ⟨_, rfl, fun _ h => State.rd_wr_ne s _ h⟩
  · exact WithReg.refl a s

theorem cardAt_bootcmd : (cardAt R.SYS_BOOTCMD).map (fun c => c.1.id) = some .SYS_BOOTCMD := by decide

theorem State.bootcmd_withReg (s : State) (v : W32) : WithReg R.SYS_BOOTCMD s (s.regWrite .host R.SYS_BOOTCMD v) := by
  have card := cardAt_bootcmd
  unfold State.regWrite
  split
  · exact WithReg.refl _ s
  · next c i j found =>
    rw [found] at card
    have id : c.id = .SYS_BOOTCMD := Option.some.inj card
    split
    · exact WithReg.refl _ s
    · simp only [State.regEffect, State.sysRegEffect, id, State.bootcmdWrite]
      split
      · exact s.plainWrite_withReg _ v
      · exact WithReg.refl _ s

theorem State.regRefused_none {s : State} {m : Master} {a : Nat} {n : Needs} (h : s.mayReg m a n) : s.regRefused m a 4 n = none := by
  obtain ⟨align, space, permitted, -⟩ := h
  simp [State.regRefused, align, space, permitted]

theorem State.busWrite_commanded {s : State} (h : s.mayReg .host R.SYS_BOOTCMD Needs.write) (v : W32) :
    Commanded s (s.busWrite .host R.SYS_BOOTCMD v) := by
  have shut : (Master.host == .host && s.hostShut) = false := by
    rw [h.2.2.2 rfl, Bool.and_false]
  refine ⟨_, s.bootcmd_withReg v, ?_⟩
  rw [State.busWrite, State.regRefused_none h, shut]
  rfl

/-- BOOT_GO of the host port: the write, and the go while the boot ROM waits. -/
theorem State.bootGo_host {s : State} (h : s.mayReg .host R.SYS_BOOTCMD Needs.write) (v : W32) :
    exec (.bootGo .host v) s = .next (if s.get F.SYS_BOOTSTAT_phase = 1 ∧ s.resetting = false then
      ((s.busWrite .host R.SYS_BOOTCMD (putBits v 31 31 1)).bootGo (v.toNat % 2 ^ 29)).answered .done
      else s.busWrite .host R.SYS_BOOTCMD (putBits v 31 31 1)) := by
  have length : bitsOf (putBits v 31 31 1) 28 0 = v.toNat % 2 ^ 29 := by
    rw [bitsOf_putBits_disjoint _ _ _ _ _ _ (by decide) (by decide) (by decide), bitsOf, Nat.pow_zero, Nat.div_one]
  have go : (bitsOf (putBits v 31 31 1) 31 31 == 1) = true := by
    rw [bitsOf_putBits _ _ _ _ (by decide) (by decide)]
    rfl
  show Host.Outcome.next (s.masterWrite .host R.SYS_BOOTCMD (putBits v 31 31 1)) = _
  simp [State.masterWrite, State.regRefused_none h, go, length]

theorem Commanded.spec {s t : State} (h : Commanded s t) : t.seqs = s.seqs ∧ SameMemory s t ∧ t.cells = s.cells ∧ t.resetting = s.resetting ∧
    ∀ f : Field, f.addr ≠ R.SYS_BOOTCMD → t.get f = s.get f := by
  obtain ⟨u, written, rfl⟩ := h
  exact ⟨written.seqs, written.mem, written.cells, written.resetting, fun f hf => written.get hf⟩

/-! ### The records of an answer -/

theorem Rejected.answered {code : Nat} {s t : State} (h : Rejected code s t) (x : Answer) : Rejected code s (t.answered x) := h

theorem Released.answered {s u t : State} (h : Released s u t) (x : Answer) : Released s u (t.answered x) := h

theorem Rejected.mono {code : Nat} {s w t : State} (h : Rejected code w t) (hseqs : w.seqs = s.seqs) (hmem : SameMemory s w) : Rejected code s t := by
  obtain ⟨err, phase, seqs, mem⟩ := h
  exact ⟨err, phase, seqs.trans hseqs, fun a => (mem a).trans (hmem a)⟩

theorem State.imageHeader_congr {s w : State} (h : SameMemory s w) : w.imageHeader = s.imageHeader := State.rdBytes_congr h _ _

theorem State.imageTable_congr {s w : State} (h : SameMemory s w) : w.imageTable = s.imageTable := by
  rw [State.imageTable, State.imageTable, State.imageHeader_congr h, State.rdBytes_congr h]

/-- An image that loads is released, whichever port named it. -/
theorem State.bootGo_released {s w u : State} {len : Nat} (hmem : SameMemory s w) (h : w.imageLoads len u) : Released s u (w.bootGo len) := by
  obtain ⟨key, xs, accepted, resets⟩ := State.bootGo_loads h
  obtain ⟨phase, err, run, pc, hashes⟩ :=
    State.bootAccept_spec resets (sha256 (w.imageHeader.take 0x80 ++ w.imageHeader.drop 0xC0 ++ w.imageTable)) key xs
  rw [accepted]
  refine ⟨phase, err, run, pc, ?_⟩
  intro hash k hk
  rw [hashes k hk, State.imageHeader_congr hmem, State.imageTable_congr hmem]

/-- The first three refusals of an image without an erroneous cell (R392 to R394). -/
theorem State.bootGo_rejected {s : State} (hcells : s.cells = []) (hreset : s.resetting = false) (len : Nat) :
    (headerOk s.imageHeader len = false → Rejected 1 s (s.bootGo len) ∧ (s.bootSel = 1 → (s.bootGo len).rd (R.GSP_EXP 0) = 0)) ∧
    (headerOk s.imageHeader len = true → s.partOk s.imageHeader = false → Rejected 2 s (s.bootGo len)) ∧
    (headerOk s.imageHeader len = true → s.partOk s.imageHeader = true → s.keyCheck ((s.imageHeader.drop 0x40).take 64) = .none →
      Rejected 3 s (s.bootGo len)) := by
  have rejected {code : Nat} (hcode : code < 16) := State.bootReject_spec s.checking_withReg hreset hcode
  refine ⟨fun header => ?_, fun header part => ?_, fun header part key => ?_⟩ <;> rw [State.bootGo_clean hcells]
  · rw [if_pos header]
    obtain ⟨outcome, stream⟩ := rejected (code := 1) (by decide)
    exact ⟨outcome, fun port => stream ((s.bootSel_set_phase 2).trans port)⟩
  · rw [if_neg (by simp [header]), if_pos part]
    exact (rejected (by decide)).1
  · have none : s.checking.keyCheck ((s.imageHeader.drop 0x40).take 64) = .none := (s.checking_withReg.keyCheck _).trans key
    rw [if_neg (by simp [header]), if_neg (by simp [part]), State.bootVerify_none none]
    exact (rejected (by decide)).1

end Sys2Proof.Machine
end

section
/-! SUPPORT. The packets of an image over Ethernet, and the reload of one sequencer (R377, R396, R399, R400, R404). -/

namespace Sys2Proof.Machine

/-! ### What replies leave -/

/-- From `s` to `t` nothing but a port's counters, streams, the wire and drawn values changes. -/
structure Replied (s t : State) : Prop where
  seqs : t.seqs = s.seqs
  mem : SameMemory s t
  cells : t.cells = s.cells
  resetting : t.resetting = s.resetting
  rd : ∀ a, a ≠ R.ETH_NACKSUP 0 → (∀ k, a ≠ R.ETH_TXFRM k) → t.rd a = s.rd a

theorem Replied.refl (s : State) : Replied s s := ⟨rfl, fun _ => rfl, rfl, rfl, fun _ _ _ => rfl⟩

theorem Replied.trans {s t u : State} (h : Replied s t) (k : Replied t u) : Replied s u :=
  ⟨k.seqs.trans h.seqs, fun a => (k.mem a).trans (h.mem a), k.cells.trans h.cells, k.resetting.trans h.resetting,
    fun a h1 h2 => (k.rd a h1 h2).trans (h.rd a h1 h2)⟩

theorem Replied.get {s t : State} (h : Replied s t) : t.rd R.SYS_BOOTSTAT = s.rd R.SYS_BOOTSTAT ∧ t.rd (R.GSP_EXP 0) = s.rd (R.GSP_EXP 0) := by
  have status := h.rd R.SYS_BOOTSTAT (by decide) fun k => by
    simp only [R.SYS_BOOTSTAT, R.ETH_TXFRM]
    omega
  have sequence := h.rd (R.GSP_EXP 0) (by decide) fun k => by
    simp only [R.GSP_EXP, R.ETH_TXFRM]
    omega
  exact ⟨status, sequence⟩

theorem State.setStream_replied (s : State) (k : Nat) (x : Stream) : Replied s (s.setStream k x) := ⟨rfl, fun _ => rfl, rfl, rfl, fun _ _ _ => rfl⟩

theorem State.gspReply_replied (s : State) (k : Nat) (nack : Bool) (reason : Nat) : Replied s (s.gspReply k nack reason) :=
  ⟨rfl, fun _ => rfl, rfl, rfl, fun _ _ h => State.rd_set_ne s _ (h _)⟩

theorem State.gspAck_replied (s : State) (k : Nat) : Replied s (s.gspAck k) :=
  (s.gspReply_replied k false 0).trans (State.setStream_replied _ _ _)

theorem State.bump_replied (s : State) {f : Field} (h : f.addr = R.ETH_NACKSUP 0) : Replied s (s.bump f) :=
  ⟨rfl, fun _ => rfl, rfl, rfl, fun _ ha _ => State.rd_set_ne s _ (h ▸ ha)⟩

/-- A refused packet: error 7 and at most a NACK (R377, R386). -/
theorem State.bootNack_spec (s : State) (reason : Nat) : (s.bootNack reason).get F.SYS_BOOTSTAT_err = 7 ∧ SameMemory s (s.bootNack reason) ∧
    (s.bootNack reason).rd (R.GSP_EXP 0) = s.rd (R.GSP_EXP 0) := by
  have noted : Replied (s.bootErr 7) (s.bootNack reason) := by
    unfold State.bootNack
    extract_lets t held
    split
    · exact t.bump_replied rfl
    · exact (t.gspReply_replied 0 true reason).trans (State.setStream_replied _ _ _)
  obtain ⟨status, sequence⟩ := noted.get
  refine ⟨(congrArg (fun w => bitsOf w 19 16) status).trans (s.err_bootErr (by decide)), noted.mem, sequence.trans (State.rd_set_ne s _ (by decide))⟩

/-! ### Packets -/

/-- The sender of the last packet, noted in stream 0. -/
def State.senderNoted (s : State) (p : BootPacket) : State := s.setStream 0 { s.stream 0 with port := 0, sub := 0, ip := p.ip, udp := p.udp.toNat }

theorem bootRefusal_isSome (p : BootPacket) : (bootRefusal p).isSome = true ↔
    (p.stream ≠ 0 ∨ p.line ≠ 0 ∨ 8192 < p.payload.length ∨ 0x10000000 < p.offset.toNat + p.length.toNat ∨ p.length.toNat ≠ p.payload.length ∨
      crc32c p.payload ≠ p.crc.toNat) := by
  simp only [bootRefusal, bne_iff_ne, ne_eq, Bool.or_eq_true, decide_eq_true_eq]
  unfold stagingSize
  split
  · next stream => exact ⟨fun _ => Or.inl stream, fun _ => rfl⟩
  · next stream =>
    split
    · next range =>
      refine ⟨fun _ => ?_, fun _ => rfl⟩
      tauto
    · next range =>
      split
      · next body =>
        refine ⟨fun _ => ?_, fun _ => rfl⟩
        tauto
      · next body =>
        refine ⟨fun none => absurd none Bool.false_ne_true, fun bad => ?_⟩
        tauto

theorem State.fill_cells (s : State) (a : Nat) (bs : List W8) (h : s.cells = []) : (s.fill a bs).cells = [] := by
  have touched (l : List (Nat × Nat)) : ∀ t : State, (l.foldl (fun u x => u.slotTouched x.1 x.2) t).cells = t.cells := by
    induction l with
    | nil => exact fun _ => rfl
    | cons x l ih => exact fun t => ih (t.slotTouched x.1 x.2)
  have wrote : (s.wrBytes a bs).cells = [] := by rw [State.wrBytes_eq, h]
  refine (touched _ _).trans ?_
  rw [State.cellsCleared, wrote]
  rfl

/-- The packet that is expected: its bytes stand in the staging area, and the sequence moves on (R396). -/
theorem State.bootPlaced_spec (s : State) (p : BootPacket) : let t := s.bootPlaced p
    t.rd (R.GSP_EXP 0) = p.seq + 1 ∧ t.seqs = s.seqs ∧ t.resetting = s.resetting ∧ t.bootSel = s.bootSel ∧ (s.cells = [] → t.cells = []) ∧
      (∀ x, t.rdByte x = if 0x0100000000 + p.offset.toNat ≤ x ∧ x < 0x0100000000 + p.offset.toNat + p.payload.length
        then p.payload.getD (x - (0x0100000000 + p.offset.toNat)) 0 else s.rdByte x) := by
  obtain ⟨u, hu⟩ : ∃ u, u = (s.fill (stagingBase + p.offset.toNat) p.payload).wr (R.GSP_EXP 0) (p.seq + 1) := ⟨_, rfl⟩
  have bytes (x : Nat) : u.rdByte x = if 0x0100000000 + p.offset.toNat ≤ x ∧ x < 0x0100000000 + p.offset.toNat + p.payload.length
      then p.payload.getD (x - (0x0100000000 + p.offset.toNat)) 0 else s.rdByte x := by
    rw [hu]
    exact s.bytesStored_rdByte _ _ x
  have sequence : u.rd (R.GSP_EXP 0) = p.seq + 1 := by
    rw [hu]
    exact State.rd_wr_same _ _ _
  have contexts : u.seqs = s.seqs := by
    rw [hu]
    exact s.bytesStored_seqs _ _
  have resets : u.resetting = s.resetting := by
    have stored := s.bytesStored_eq (stagingBase + p.offset.toNat) p.payload
    rw [hu]
    show (s.bytesStored (stagingBase + p.offset.toNat) p.payload).resetting = s.resetting
    rw [stored]
  have status : u.rd R.SYS_BOOTSTAT = s.rd R.SYS_BOOTSTAT := by rw [hu, State.rd_wr_ne _ _ (by decide), State.fill_rd]
  have replied : Replied u (s.bootPlaced p) := by
    rw [hu]
    unfold State.bootPlaced
    extract_lets t n x w
    have counted : Replied t w := t.setStream_replied _ _
    split
    · exact counted.trans (w.gspAck_replied 0)
    · exact counted
  refine ⟨replied.get.2.trans sequence, replied.seqs.trans contexts, replied.resetting.trans resets, ?_, fun clean => ?_,
    fun x => (replied.mem x).trans (bytes x)⟩
  · exact congrArg (fun w => bitsOf w 28 24 / 8) (replied.get.1.trans status)
  · rw [replied.cells, hu]
    exact s.fill_cells _ _ clean

theorem State.bootPacket_refused {s : State} {p : BootPacket} (hwaits : s.bootWaits 1 = true) (htype : p.type = 6) {r : Nat}
    (h : bootRefusal p = some r) : s.bootPacket p = (s.senderNoted p).bootNack r := by
  rw [State.bootPacket, hwaits, htype, h]
  rfl

/-- What a sound BOOT packet does while the boot ROM waits on ETH0, by its sequence number (R396). -/
theorem State.bootPacket_sound {s : State} {p : BootPacket} (hwaits : s.bootWaits 1 = true) (htype : p.type = 6)
    (h : bootRefusal p = none) : s.bootPacket p =
      if 0 < (p.seq - s.rd (R.GSP_EXP 0)).toInt then (s.senderNoted p).bootNack 1
      else if (p.seq - s.rd (R.GSP_EXP 0)).toInt < 0 then (s.senderNoted p).gspAck 0
      else if p.flags.getLsbD 0 then ((s.senderNoted p).bootPlaced p).bootGo (p.offset.toNat + p.length.toNat)
      else (s.senderNoted p).bootPlaced p := by
  rw [State.bootPacket, hwaits, htype, h]
  rfl

theorem State.bootPacket_ignored {s : State} {p : BootPacket} (h : ¬(s.bootWaits 1 = true ∧ p.type = 6)) : s.bootPacket p = s := by
  have ignored : (!s.bootWaits 1 || p.type != 6) = true := by
    by_cases waits : s.bootWaits 1 = true
    · have type : p.type ≠ 6 := fun six => h ⟨waits, six⟩
      rw [bne_iff_ne.mpr type, Bool.or_true]
    · simp [waits]
  rw [State.bootPacket, if_pos ignored]

/-! ### Reload -/

theorem State.reloadable_iff (s : State) (q : Nat) : s.reloadable q = true ↔
    q < 48 ∧ s.seqFused q = false ∧ (s.seq q).run = .halted ∧ (8 ≤ q ∨ (s.seq (q / 2 * 2)).run = .halted) := by
  simp [State.reloadable, and_assoc]

/-- RELOAD_GO: refused while busy or of a sequencer that may not be reloaded (R400). -/
theorem State.rloadWrite_go (s : State) (v : W32) : s.rloadWrite (putBits v 31 31 1) =
    if s.flag F.SYS_RLOAD_busy = true ∨ s.reloadable (v.toNat % 64) = false then s.set F.SYS_RLOAD_err 1
    else { (s.plainWrite R.SYS_RLOAD (putBits v 31 31 1)).set F.SYS_RLOAD_busy 1 with reloadSeq := v.toNat % 64 } := by
  have go : bitsOf (putBits v 31 31 1) 31 31 = 1 := bitsOf_putBits _ _ _ _ (by decide) (by decide)
  have sequencer : bitsOf (putBits v 31 31 1) 5 0 = v.toNat % 64 := by
    rw [bitsOf_putBits_disjoint _ _ _ _ _ _ (by decide) (by decide) (by decide), bitsOf, Nat.pow_zero, Nat.div_one]
    rfl
  rw [State.rloadWrite, if_pos go, sequencer]
  simp only [Bool.or_eq_true, Bool.not_eq_true']

theorem State.plainWrite_mem (s : State) (a : Nat) (v : W32) : (s.plainWrite a v).mem = s.mem := by
  obtain ⟨regs, written, -⟩ := s.plainWrite_withReg a v
  rw [written]

/-- A reload that has been accepted runs: busy, its sequencer noted, memory as before. -/
theorem State.reload_taken (s : State) (w : W32) (q : Nat) :
    let t : State := { (s.plainWrite R.SYS_RLOAD w).set F.SYS_RLOAD_busy 1 with reloadSeq := q }
    t.flag F.SYS_RLOAD_busy = true ∧ t.reloadSeq = q ∧ t.mem = s.mem := by
  have set (u : State) : (u.set F.SYS_RLOAD_busy 1).get F.SYS_RLOAD_busy ≠ 0 := by
    rw [State.get_set_same u F.SYS_RLOAD_busy 1 (by decide) (by decide)]
    decide
  have same (u : State) : ({ u with reloadSeq := q } : State).flag F.SYS_RLOAD_busy = (u.get F.SYS_RLOAD_busy != 0) := rfl
  exact ⟨(same _).trans (bne_iff_ne.mpr (set _)), rfl, s.plainWrite_mem _ _⟩

/-- The end of a reload: not busy, its status, and a report of a failure (R400, R404). -/
theorem State.reloadEnds_spec (s : State) {status : Nat} (hstatus : status < 4) : let t := s.reloadEnds status
    t.flag F.SYS_RLOAD_busy = false ∧ t.get F.SYS_RLOAD_status = status ∧ SameMemory s t ∧
      (status ≠ 1 → s.room 63 = true → HoldsEvent 63 0x4A2 (status * 256 + s.reloadSeq) t) := by
  obtain ⟨u, hu⟩ : ∃ u, u = (s.set F.SYS_RLOAD_busy 0).set F.SYS_RLOAD_status status := ⟨_, rfl⟩
  have busy : u.flag F.SYS_RLOAD_busy = false := by
    have cleared : u.get F.SYS_RLOAD_busy = 0 := by
      rw [hu, State.get_set_disjoint (f := F.SYS_RLOAD_status) (g := F.SYS_RLOAD_busy) _ _ rfl (by decide) (by decide) (by decide),
        State.get_set_same _ F.SYS_RLOAD_busy 0 (by decide) (by decide)]
      rfl
    rw [State.flag, cleared]
    rfl
  have noted : u.get F.SYS_RLOAD_status = status := by
    rw [hu, State.get_set_same _ F.SYS_RLOAD_status _ (by decide) (by decide)]
    exact Nat.mod_eq_of_lt hstatus
  have memory : SameMemory s u := by
    rw [hu]
    exact fun _ => rfl
  have room : u.room 63 = s.room 63 := by
    rw [hu]
    rfl
  have ends : s.reloadEnds status =
      if status = 1 then u else u.post 63 0x4A2 (seqLoc s.reloadSeq) (w32 (status * 256 + s.reloadSeq)) := by
    rw [hu]
    rfl
  intro t
  rw [show t = _ from ends]
  split
  · next one => exact ⟨busy, noted, memory, fun other => absurd one other⟩
  · have quiet := u.post_quiet 63 0x4A2 (seqLoc s.reloadSeq) (w32 (status * 256 + s.reloadSeq))
    refine ⟨?_, ?_, fun a => (quiet.mem a).trans (memory a), fun _ hroom => ?_⟩
    · exact (quiet.flag F.SYS_RLOAD_busy (by simp [postReg, F.SYS_RLOAD_busy, R.SYS_RLOAD, R.SUP_DROP])).trans busy
    · exact (quiet.get F.SYS_RLOAD_status (by simp [postReg, F.SYS_RLOAD_status, R.SYS_RLOAD, R.SUP_DROP])).trans noted
    · exact ⟨_, State.postRec_buf u _ (room.trans hroom), rfl, rfl, rfl⟩

theorem State.plainWrite_rdByte (s : State) (a : Nat) (v : W32) : SameMemory s (s.plainWrite a v) := (s.plainWrite_withReg a v).mem

theorem reloadEntries_mem (q : Nat) : ∀ (xs : List Section) (s : State), SameMemory s (reloadEntries q xs s)
  | [], _ => fun _ => rfl
  | x :: xs, s => by
    have rest := reloadEntries_mem q xs
    intro a
    rw [reloadEntries, List.foldl_cons]
    split
    · exact (rest _ a).trans (s.plainWrite_rdByte _ _ a)
    · exact rest s a

/-- The retained table of a device without an erroneous cell. -/
def State.retainedTable (s : State) : List W8 := s.rdBytes retainedBase (64 * s.get F.SYS_RTCNT_n)

theorem State.retainedTable_read {s : State} (hcells : s.cells = []) :
    s.dataRead 0xFF retainedBase (64 * s.get F.SYS_RTCNT_n) = (some s.retainedTable, s) :=
  State.dataRead_of_sound (sound_of_no_cells s retainedBase (64 * s.get F.SYS_RTCNT_n) hcells) 0xFF

theorem State.reload_unsealed {s : State} (hcells : s.cells = []) (h : sha256 s.retainedTable ≠ s.hashRegs (R.SYS_RTHASH 0)) :
    s.reload = s.reloadEnds 2 := by
  simp only [State.reload, State.retainedTable_read hcells, bne_iff_ne.mpr h, if_true]

theorem State.reload_copied {s u : State} (hcells : s.cells = []) (h : sha256 s.retainedTable = s.hashRegs (R.SYS_RTHASH 0))
    (hcopies : reloadCopies s.reloadSeq (sectionsOf (s.get F.SYS_RTCNT_n) s.retainedTable) s = (true, u)) :
    s.reload = (reloadEntries s.reloadSeq (sectionsOf (s.get F.SYS_RTCNT_n) s.retainedTable) u).reloadEnds 1 := by
  have sealed_ : (sha256 s.retainedTable != s.hashRegs (R.SYS_RTHASH 0)) = false := by rw [h, bne_self_eq_false]
  simp only [State.reload, State.retainedTable_read hcells, sealed_, hcopies, Bool.false_eq_true, if_false]

theorem State.reload_spoilt {s u : State} (hcells : s.cells = []) (h : sha256 s.retainedTable = s.hashRegs (R.SYS_RTHASH 0))
    (hcopies : reloadCopies s.reloadSeq (sectionsOf (s.get F.SYS_RTCNT_n) s.retainedTable) s = (false, u)) : s.reload = u.reloadEnds 3 := by
  have sealed_ : (sha256 s.retainedTable != s.hashRegs (R.SYS_RTHASH 0)) = false := by rw [h, bne_self_eq_false]
  simp only [State.reload, State.retainedTable_read hcells, sealed_, hcopies, Bool.false_eq_true, if_false]

theorem State.hashRegs_eq (s : State) : s.hashRegs (R.SYS_RTHASH 0) = (List.range 8).flatMap (fun k => leBytes 4 (s.rd (R.SYS_RTHASH k)).toNat) := by
  have place (k : Nat) : R.SYS_RTHASH 0 + 4 * k = R.SYS_RTHASH k := by
    simp only [R.SYS_RTHASH]
    omega
  simp only [State.hashRegs, place]

/-- A counter raised by one, saturating. -/
theorem State.get_bump (s : State) {f : Field} (h1 : f.lo ≤ f.hi) (h2 : f.hi < 32) :
    (s.bump f).get f = min (s.get f + 1) (2 ^ (f.hi + 1 - f.lo) - 1) := by
  have positive := Nat.two_pow_pos (f.hi + 1 - f.lo)
  rw [State.bump, State.bumpBy, State.get_set_same s f _ h1 h2]
  exact Nat.mod_eq_of_lt (by omega)

end Sys2Proof.Machine
end

section
/-! SUPPORT. The statement on boot and reload (R85, R86, R390 to R400, R404). -/

namespace Sys2Proof.Machine

/-- Memory as a fill leaves it, by the offset from its start. -/
theorem getD_of_filled {f g : Nat → W8} {a : Nat} {bs : List W8}
    (h : ∀ x, f x = if a ≤ x ∧ x < a + bs.length then bs.getD (x - a) 0 else g x) :
    (∀ i < bs.length, f (a + i) = bs.getD i 0) ∧ ∀ x, ¬(a ≤ x ∧ x < a + bs.length) → f x = g x := by
  refine ⟨fun i hi => ?_, fun x hx => (h x).trans (if_neg hx)⟩
  rw [h, if_pos ⟨Nat.le_add_right a i, Nat.add_lt_add_left hi a⟩, Nat.add_sub_cancel_left]

/-- DRAM_TRAINED opens the strapped port once (R391). -/
theorem dramTrained_results (s : State) :
    let phase := s.get F.SYS_BOOTSTAT_phase
    let sel := s.get F.SYS_BOOTSTAT_straps / 8
    (s.resetting = true ∨ natBit (s.get F.MEM_DSTAT_rdy) 0 = true → exec .dramTrained s = .next s) ∧
    (s.resetting = false → natBit (s.get F.MEM_DSTAT_rdy) 0 = false → Completes .dramTrained s (fun t => t.get F.MEM_DSTAT_rdy = s.get F.MEM_DSTAT_rdy ||| 3 ∧
      (sel = 0 → t.rd (R.PCIE_WIN 0) = 0x80000010) ∧ (sel = 1 → t.get (F.ETH_CFG_mode 0) = s.get F.SYS_BOOTSTAT_straps % 4 + 1 ∧ t.get (F.ETH_CFG_en 0) = 1) ∧
      (sel ≠ 3 → t.get F.SYS_BOOTSTAT_phase = 1) ∧ (sel = 3 → t.get F.SYS_BOOTSTAT_err = 9 ∧ t.get F.SYS_BOOTSTAT_phase = phase))) := by
  refine ⟨fun h => congrArg Host.Outcome.next (if_pos ?_), fun hreset hready => ?_⟩
  · obtain h | h := h
    · rw [h, Bool.true_or]
    · rw [State.bit, h, Bool.or_true]
  · have opens : ¬(s.resetting || s.bit F.MEM_DSTAT_rdy 0) = true := by simp [hreset, State.bit, hready]
    obtain ⟨u, hu⟩ : ∃ u, u = s.set F.MEM_DSTAT_rdy (s.get F.MEM_DSTAT_rdy ||| 3) := ⟨_, rfl⟩
    have ready : u.get F.MEM_DSTAT_rdy = s.get F.MEM_DSTAT_rdy ||| 3 := by
      have small : s.get F.MEM_DSTAT_rdy ||| 3 < 2 ^ 4 := Nat.or_lt_two_pow s.ready_lt (by decide)
      rw [hu, State.get_set_same _ _ _ (by decide) (by decide)]
      exact Nat.mod_eq_of_lt small
    have straps : u.get F.SYS_BOOTSTAT_straps = s.get F.SYS_BOOTSTAT_straps := by rw [hu, State.get_set_ne _ _ (by decide)]
    have phase : u.get F.SYS_BOOTSTAT_phase = s.get F.SYS_BOOTSTAT_phase := by rw [hu, State.get_set_ne _ _ (by decide)]
    have spec := u.bootOpen_spec
    simp only [ready, straps, phase] at spec
    exact ⟨_, congrArg Host.Outcome.next ((if_neg opens).trans (by rw [hu])), spec⟩

/-- Settles O54: the ports by the lemmas on each, the checks and the release by `State.bootGo_rejected` and `State.bootGo_released`,
the reload by `State.reloadEnds_spec`. -/
theorem bootResults : Obligations.BootResults := by
  intro s phase sel waits
  have waiting (k : Nat) : s.bootWaits k = true ↔ waits k := s.bootWaits_iff k
  obtain ⟨trained, opened⟩ := dramTrained_results s
  refine ⟨trained, opened, ?dieAbsent, ?dieReady, ?spiGo, ?host, ?spiWrite, ?status, ?noStatus, ?badFrame, ?silent, ?announce, ?packet,
    ?reloadGo, ?noReload, ?reloadDone⟩
  case dieAbsent =>
    intro h
    refine congrArg Host.Outcome.next (if_pos ?_)
    obtain h | h := h <;> simp [h]
  case dieReady =>
    intro hreset hdie
    exact congrArg Host.Outcome.next (if_neg (by simp [hreset, hdie]))
  case spiGo =>
    intro len frame
    have go := s.spiFrame_go len
    refine ⟨fun h => ?_, fun h hcells => ?_, fun h u hloads => ?_⟩
    · rw [if_neg fun w => h ((waiting 2).mp w)] at go
      exact congrArg Host.Outcome.next go
    · rw [if_pos ((waiting 2).mpr h)] at go
      obtain ⟨header, part, key⟩ := State.bootGo_rejected hcells h.1 len.toNat
      have outcome : exec (.spiGo frame) s = .next (s.bootGo len.toNat) := congrArg Host.Outcome.next go
      exact ⟨fun h1 => ⟨_, outcome, (header h1).1⟩, fun h1 h2 => ⟨_, outcome, part h1 h2⟩, fun h1 h2 h3 => ⟨_, outcome, key h1 h2 h3⟩⟩
    · rw [if_pos ((waiting 2).mpr h)] at go
      exact ⟨_, congrArg Host.Outcome.next go, State.bootGo_released (fun _ => rfl) hloads⟩
  case host =>
    intro v w len hmay
    have go := State.bootGo_host hmay v
    obtain ⟨seqs, mem, cells, resets, fields⟩ := (State.busWrite_commanded hmay (putBits v 31 31 1)).spec
    refine ⟨fun hphase _ => ?_, fun hphase hreset hcells header _ => ?_, fun hphase u hloads => ?_⟩
    · rw [if_neg fun h => hphase h.1] at go
      exact ⟨_, go, seqs, fields _ (by decide)⟩
    · rw [if_pos ⟨hphase, hreset⟩] at go
      have bad : headerOk w.imageHeader len = false := by
        rw [State.imageHeader_congr mem]
        exact header
      obtain ⟨rejected, -⟩ := (State.bootGo_rejected (cells.trans hcells) (resets.trans hreset) len).1 bad
      exact ⟨_, go, (rejected.mono seqs mem).answered .done⟩
    · have reset : s.resetting = false := resets.symm.trans hloads.2.2.2.2.2.2.2.1
      rw [if_pos ⟨hphase, reset⟩] at go
      exact ⟨_, go, (State.bootGo_released mem hloads).answered .done⟩
  case spiWrite =>
    intro off data a bad
    have write := s.spiFrame_write off data
    refine ⟨fun h => ?_, fun h hbad => ?_, fun h hbad => ?_⟩
    · have shut : s.bootWaits 2 = false := Bool.eq_false_iff.mpr fun w => h ((waiting 2).mp w)
      rw [shut] at write
      exact congrArg Host.Outcome.next write
    all_goals
      rw [(waiting 2).mpr h] at write
      have refused : (data.isEmpty || decide (256 < data.length) || s.memAbsent (0x0100000000 + off.toNat) ||
          s.memAbsent (0x0100000000 + off.toNat + data.length - 1)) = true ↔ bad := by
        simp [bad, a, or_assoc]
    · exact congrArg Host.Outcome.next (write.trans (if_pos (refused.mpr hbad)))
    · obtain ⟨inside, outside⟩ := getD_of_filled fun x => s.bytesStored_rdByte a data x
      exact ⟨_, congrArg Host.Outcome.next (write.trans (if_neg fun r => hbad (refused.mp r))), s.bytesStored_regs a data,
        s.bytesStored_seqs a data, inside, outside⟩
  case status =>
    intro hreset hphase hsel
    refine congrArg Host.Outcome.next (if_pos ?_)
    have port : s.bootSel = 2 := hsel
    simp [hreset, port]
    exact hphase
  case noStatus =>
    intro h
    refine congrArg Host.Outcome.next (if_neg ?_)
    simp only [Bool.and_eq_true, Bool.not_eq_true', bne_iff_ne, beq_iff_eq, not_and]
    intro ⟨hreset, hphase⟩ hsel
    obtain h | h | h := h
    · exact absurd (hreset.symm.trans h) (by decide)
    · exact hphase h
    · exact h hsel
  case badFrame =>
    intro frame h
    refine congrArg Host.Outcome.next ((State.spiFrame_bad h).trans ?_)
    exact if_congr (waiting 2) rfl rfl
  case silent =>
    intro h
    exact congrArg Host.Outcome.next (if_neg fun w => h ((waiting 1).mp w))
  case announce =>
    intro h
    exact ⟨_, congrArg Host.Outcome.next (if_pos ((waiting 1).mpr h)), rfl, s.get_bump (by decide) (by decide)⟩
  case packet =>
    intro p e a bad
    have refusal : (bootRefusal p).isSome = true ↔ bad := bootRefusal_isSome p
    have accepted (h : ¬bad) : bootRefusal p = none := Option.not_isSome_iff_eq_none.mp fun r => h (refusal.mp r)
    have sound (hwaits : waits 1) (htype : p.type = 6) (h : bootRefusal p = none) := State.bootPacket_sound ((waiting 1).mpr hwaits) htype h
    have ahead (h : p.seq = e) : (p.seq - e).toInt = 0 := by rw [h, BitVec.sub_self, BitVec.toInt_zero]
    refine ⟨fun h => ?ignored, fun hwaits htype h => ?refused, fun hwaits htype hgood hbehind => ?behind, fun hwaits htype hgood hseq hlast => ?placed,
      fun hwaits htype hgood hseq hlast hoffset hcells hlength hfirst => ?last⟩
    case ignored =>
      refine congrArg Host.Outcome.next (State.bootPacket_ignored fun w => h ⟨(waiting 1).mp w.1, w.2⟩)
    case refused =>
      have nack (r : Nat) (result : s.bootPacket p = (s.senderNoted p).bootNack r) : Completes (.bootPacket p) s (fun t =>
          t.get F.SYS_BOOTSTAT_err = 7 ∧ SameMemory s t ∧ t.rd (R.GSP_EXP 0) = e) :=
        ⟨_, congrArg Host.Outcome.next result, (s.senderNoted p).bootNack_spec r⟩
      cases found : bootRefusal p with
      | some r => exact nack r (State.bootPacket_refused ((waiting 1).mpr hwaits) htype found)
      | none =>
        have good : ¬bad := fun b => by
          have refused := refusal.mpr b
          rw [found] at refused
          exact absurd refused Bool.false_ne_true
        exact nack 1 ((sound hwaits htype found).trans (if_pos (h.resolve_left good)))
    case behind =>
      have result := sound hwaits htype (accepted hgood)
      rw [if_neg (not_lt.mpr (le_of_lt hbehind)), if_pos hbehind] at result
      have ack := (s.senderNoted p).gspAck_replied 0
      exact ⟨_, congrArg Host.Outcome.next result, ack.mem, ack.get.2⟩
    all_goals
      have result := sound hwaits htype (accepted hgood)
      rw [if_neg (by rw [ahead hseq]; decide), if_neg (by rw [ahead hseq]; decide)] at result
      obtain ⟨sequence, seqs, resets, port, cells, bytes⟩ := (s.senderNoted p).bootPlaced_spec p
    case placed =>
      obtain ⟨inside, outside⟩ := getD_of_filled bytes
      rw [if_neg (ne_true_of_eq_false hlast)] at result
      exact ⟨_, congrArg Host.Outcome.next result, by rw [sequence, hseq], seqs, inside, outside⟩
    case last =>
      obtain ⟨hreset, -, hport⟩ := hwaits
      obtain ⟨inside, -⟩ := getD_of_filled bytes
      have first := inside 0 (by omega)
      rw [Nat.add_zero, hoffset] at first
      have bad := headerOk_of_first (ne_of_eq_of_ne first hfirst) (p.offset.toNat + p.length.toNat)
      obtain ⟨⟨err, again, -, -⟩, stream⟩ := (State.bootGo_rejected (cells hcells) (resets.trans hreset) _).1 bad
      rw [if_pos hlast] at result
      exact ⟨_, congrArg Host.Outcome.next result, err, again, stream (port.trans hport)⟩
  case reloadGo =>
    intro v q may
    have go := s.rloadWrite_go v
    have reloadable : s.reloadable q = true ↔ may := s.reloadable_iff q
    refine ⟨fun h => ?_, fun hbusy hmay => ?_⟩
    · rw [if_pos (h.imp_right fun no => Bool.eq_false_iff.mpr fun r => no (reloadable.mp r))] at go
      exact congrArg Host.Outcome.next go
    · rw [if_neg (by simp [hbusy, show s.reloadable (v.toNat % 64) = true from reloadable.mpr hmay])] at go
      exact ⟨_, congrArg Host.Outcome.next go, s.reload_taken _ _⟩
  case noReload =>
    intro h
    exact congrArg Host.Outcome.next (if_neg (by simp [h]))
  case reloadDone =>
    intro hbusy hcells table sealed_
    have sealing : sealed_ ↔ sha256 s.retainedTable = s.hashRegs (R.SYS_RTHASH 0) := by
      rw [s.hashRegs_eq]
      exact Iff.rfl
    have done : exec .reloadDone s = .next s.reload := congrArg Host.Outcome.next (if_pos hbusy)
    refine ⟨fun open_ => ?_, fun closed u hcopies => ?_, fun closed u hcopies => ?_⟩
    · obtain ⟨busy, status, mem, event⟩ := s.reloadEnds_spec (status := 2) (by decide)
      rw [State.reload_unsealed hcells fun same => open_ (sealing.mpr same)] at done
      exact ⟨_, done, busy, status, mem, event (by decide)⟩
    · obtain ⟨busy, status, mem, -⟩ := (reloadEntries s.reloadSeq (sectionsOf (s.get F.SYS_RTCNT_n) table) u).reloadEnds_spec (status := 1)
        (by decide)
      rw [State.reload_copied hcells (sealing.mp closed) hcopies] at done
      exact ⟨_, done, busy, status, fun a => (mem a).trans (reloadEntries_mem _ _ u a)⟩
    · obtain ⟨busy, status, mem, -⟩ := u.reloadEnds_spec (status := 3) (by decide)
      rw [State.reload_spoilt hcells (sealing.mp closed) hcopies] at done
      exact ⟨_, done, busy, status, mem⟩

end Sys2Proof.Machine
end

section
/-! SUPPORT. What an operation leaves of the axes, the serial inputs and the registers of the position unit; which operations of the queues,
the memory they free and the waiting sequencers leave all of them alone (R103, R104, R139, R142, R150 to R152). -/

namespace Sys2Proof.Machine

/-! ### The frame -/

/-- A register outside the page of the position unit, 0x4003_0000 to 0x4003_FFFF. -/
def offPage (a : Nat) : Prop := a < 0x40030000 ∨ 0x40040000 ≤ a

theorem offPage_of_post {a : Nat} (h : postReg a) : offPage a := by
  rcases h with rfl | ⟨low, -⟩
  · exact Or.inl (by decide)
  · exact Or.inr (Nat.le_trans (by decide) low)

/-- The registers that stand once per lane lie above the page. -/
theorem offPage_lane (base lane : Nat) (h : 0x40040000 ≤ base) : offPage (base + lane * 0x800) :=
  Or.inr (Nat.le_trans h (Nat.le_add_right _ _))

/-- From `s` to `t` no axis but those of `A`, no serial input and no register but those of `P` changes, and a flag set in AXn_STAT stays
set. -/
structure AxisFrame (A P : Nat → Prop) (s t : State) : Prop where
  axis : ∀ k, ¬ A k → t.axis k = s.axis k
  serials : t.serials = s.serials
  rd : ∀ a, ¬ P a → t.rd a = s.rd a
  flags : ∀ k < 8, ∀ b, (s.rd (R.AX_STAT k)).getLsbD b = true → (t.rd (R.AX_STAT k)).getLsbD b = true

/-- Axes, serial inputs and the registers of the position unit are as before. -/
abbrev AxesAside (s t : State) : Prop := AxisFrame (fun _ => False) offPage s t

section
variable {A B P Q : Nat → Prop} {s t u : State}

theorem AxisFrame.refl (A P : Nat → Prop) (s : State) : AxisFrame A P s s := ⟨fun _ _ => rfl, rfl, fun _ _ => rfl, fun _ _ _ h => h⟩

theorem AxisFrame.trans (h : AxisFrame A P s t) (k : AxisFrame A P t u) : AxisFrame A P s u :=
  ⟨fun n hn => (k.axis n hn).trans (h.axis n hn), k.serials.trans h.serials, fun a ha => (k.rd a ha).trans (h.rd a ha),
    fun n hn b set => k.flags n hn b (h.flags n hn b set)⟩

theorem AxisFrame.mono (h : AxisFrame A P s t) (hA : ∀ k, A k → B k) (hP : ∀ a, P a → Q a) : AxisFrame B Q s t :=
  ⟨fun k hk => h.axis k (fun ha => hk (hA k ha)), h.serials, fun a ha => h.rd a (fun hp => ha (hP a hp)), h.flags⟩

theorem AxisFrame.foldl {α : Type} {f : State → α → State} : ∀ (l : List α) (s : State),
    (∀ x ∈ l, ∀ t, AxisFrame A P t (f t x)) → AxisFrame A P s (l.foldl f s)
  | [], s, _ => AxisFrame.refl A P s
  | x :: l, s, h => (h x (by simp) s).trans (AxisFrame.foldl l (f s x) (fun y hy => h y (by simp [hy])))

theorem AxisFrame.get (h : AxisFrame A P s t) (f : Field) (hf : ¬ P f.addr) : t.get f = s.get f := by simp only [State.get, h.rd _ hf]

theorem AxisFrame.flag (h : AxisFrame A P s t) (f : Field) (hf : ¬ P f.addr) : t.flag f = s.flag f := by
  simp only [State.flag, h.get f hf]

end

theorem State.axis_congr {s t : State} (h : t.axes = s.axes) (k : Nat) : t.axis k = s.axis k := by rw [State.axis, State.axis, h]

@[simp] theorem State.axis_setAxis_same (s : State) (n : Nat) (a : Axis) : (s.setAxis n a).axis n = a := tabGet_put_same _ _ _ _

theorem State.axis_setAxis_ne (s : State) {n k : Nat} (a : Axis) (h : k ≠ n) : (s.setAxis n a).axis k = s.axis k := tabGet_put_ne _ _ _ h

theorem State.setAxis_frame (P : Nat → Prop) (s : State) (n : Nat) (a : Axis) : AxisFrame (· = n) P s (s.setAxis n a) :=
  ⟨fun _ hk => s.axis_setAxis_ne a hk, rfl, fun _ _ => rfl, fun _ _ _ h => h⟩

theorem not_offPage_stat {k : Nat} (h : k < 8) : ¬ offPage (R.AX_STAT k) := by unfold offPage R.AX_STAT; omega

/-- Where axes and serial inputs stay, and only registers off the page are written. -/
theorem AxesAside.of_rd {s t : State} (axes : t.axes = s.axes) (serials : t.serials = s.serials)
    (rd : ∀ a, ¬ offPage a → t.rd a = s.rd a) : AxesAside s t :=
  ⟨fun k _ => State.axis_congr axes k, serials, rd, fun k hk b set => by rw [rd _ (not_offPage_stat hk)]; exact set⟩

/-- Where axes, serial inputs and registers stay. -/
theorem AxesAside.of_fields {s t : State} (axes : t.axes = s.axes) (serials : t.serials = s.serials) (regs : t.regs = s.regs) :
    AxesAside s t := AxesAside.of_rd axes serials (fun a _ => by rw [State.rd, State.rd, regs])

theorem Touches.axesAside {P : Nat → Prop} {s t : State} (h : Touches P s t) (off : ∀ a, P a → offPage a) : AxesAside s t := by
  refine AxesAside.of_rd ?_ ?_ (fun a ha => h.rd a (fun hp => ha (off a hp))) <;> rw [h.core]

theorem Touches.axesAside_of_quiet {s t : State} (h : Quiet s t) : AxesAside s t := h.axesAside (fun _ => offPage_of_post)

theorem State.wr_axesAside (s : State) {a : Nat} (v : W32) (h : offPage a) : AxesAside s (s.wr a v) :=
  (s.wr_touches a v).axesAside (fun _ e => e ▸ h)

theorem State.set_axesAside (s : State) {f : Field} (v : Nat) (h : offPage f.addr) : AxesAside s (s.set f v) := s.wr_axesAside _ h

/-! ### Memory -/

theorem offPage_memCE : offPage R.MEM_CECNT := Or.inr (by decide)

theorem offPage_memUE : offPage R.MEM_UECNT := Or.inr (by decide)

theorem offPage_errorLog : offPage R.MEM_ELOG0 := Or.inr (by decide)

/-- An error is counted in a register off the page, and logged. -/
theorem State.errorLogged_axesAside (s : State) {f : Field} (h : offPage f.addr) (v : Nat) (loc : W64) :
    AxesAside s ((s.set f v).logError loc) :=
  ((s.set_axesAside v h).trans (State.wr_axesAside _ _ offPage_errorLog)).trans (AxesAside.of_fields rfl rfl rfl)

theorem State.memCE_axesAside (s : State) (a : Nat) (loc : W64) (extra : Nat) : AxesAside s (s.memCE a loc extra) := by
  unfold State.memCE
  extract_lets u n t
  have logged : AxesAside s t := s.errorLogged_axesAside (f := F.MEM_CECNT_v) offPage_memCE _ loc
  split
  · exact (logged.trans (t.post_quiet 63 0x440 loc _).axesAside_of_quiet).trans (AxesAside.of_fields rfl rfl rfl)
  · exact logged.trans (AxesAside.of_fields rfl rfl rfl)

theorem State.memUE_axesAside (s : State) (reader a : Nat) : AxesAside s (s.memUE reader a) := by
  have logged : AxesAside s ((s.bump F.MEM_UECNT_v).logError (memLoc 2 a 0)) :=
    s.errorLogged_axesAside (f := F.MEM_UECNT_v) offPage_memUE _ _
  exact logged.trans (State.post_quiet _ 63 0x441 (memLoc 2 a 0) (w32 (reader % 256))).axesAside_of_quiet

theorem State.drawn_axesAside (s : State) : AxesAside s s.drawn := AxesAside.of_fields rfl rfl rfl

theorem State.eccRead_axesAside (s : State) (reader a : Nat) : AxesAside s (s.eccRead reader a).2 := by
  unfold State.eccRead
  split
  · exact AxisFrame.refl _ _ s
  · exact s.memCE_axesAside a _ _
  · split
    · exact s.memCE_axesAside a _ _
    · exact s.memCE_axesAside a _ _
  · exact s.memUE_axesAside reader a
  · split
    · exact s.drawn_axesAside.trans (s.drawn.memUE_axesAside reader a)
    · exact s.drawn_axesAside.trans (s.drawn.memCE_axesAside a _ _)
    · exact s.drawn_axesAside

theorem eccSpan_axesAside (reader : Nat) {stop : Nat} : ∀ (n a : Nat) (s : State), AxesAside s (eccSpan reader a stop n s).2
  | 0, _, s => AxisFrame.refl _ _ s
  | n + 1, a, s => by
    have first := s.eccRead_axesAside reader a
    unfold eccSpan
    split
    · exact AxisFrame.refl _ _ s
    · split
      · next read => rwa [read] at first
      · next t _ read =>
        rw [read] at first
        have rest := eccSpan_axesAside reader (stop := stop) n (memWordBase a + if isSram a then 4 else 8) t
        dsimp only
        split
        · next span =>
          rw [span] at rest
          exact first.trans rest
        · exact first.trans rest

theorem State.eccRange_axesAside (s : State) (reader a len : Nat) : AxesAside s (s.eccRange reader a len).2 := by
  unfold State.eccRange
  split
  · exact eccSpan_axesAside reader _ a s
  · exact AxisFrame.refl _ _ s

theorem State.dataRead_axesAside (s : State) (reader a len : Nat) : AxesAside s (s.dataRead reader a len).2 := by
  have range := s.eccRange_axesAside reader a len
  unfold State.dataRead
  split <;> next read =>
    rw [read] at range
    exact range.trans (AxesAside.of_fields rfl rfl rfl)

/-! ### Slots -/

theorem State.putHeader_axesAside (s : State) (lane pos tag : Nat) (h : W32) : AxesAside s (s.putHeader lane pos tag h) := by
  have wrote : s.wrWord (slotHeader lane pos tag) h = { s with mem := (s.wrWord (slotHeader lane pos tag) h).mem } := State.wrBytes_eq _ s _
  unfold State.putHeader State.cellCleared
  rw [wrote]
  exact AxesAside.of_fields rfl rfl rfl

theorem State.headerRead_axesAside (s : State) (lane pos tag : Nat) : AxesAside s (s.headerRead lane pos tag).2 := by
  have read := s.dataRead_axesAside 0xFF (slotHeader lane pos tag) 4
  unfold State.headerRead
  split <;> next found => rwa [found] at read

theorem State.freeSlot_axesAside (s : State) (lane pos tag : Nat) : AxesAside s (s.freeSlot lane pos tag) := by
  have read := s.headerRead_axesAside lane pos tag
  unfold State.freeSlot
  split
  · next header =>
    rw [header] at read
    split
    · exact read.trans (State.putHeader_axesAside _ lane pos tag _)
    · exact read
  · next header =>
    rw [header] at read
    exact read.trans (State.putHeader_axesAside _ lane pos tag _)

theorem State.freeSlots_axesAside (s : State) (lane : Nat) (e : Entry) : AxesAside s (s.freeSlots lane e) :=
  AxisFrame.foldl _ s (fun p _ t => t.freeSlot_axesAside lane p e.tag)

/-! ### Lanes -/

theorem State.setLane_axesAside (s : State) (n : Nat) (l : Lane) : AxesAside s (s.setLane n l) := AxesAside.of_fields rfl rfl rfl

theorem State.setTile_axesAside (s : State) (k : Nat) (x : Tile) : AxesAside s (s.setTile k x) := AxesAside.of_fields rfl rfl rfl

theorem State.sendSet_axesAside (s : State) (lane : Nat) (x : SentSet) : AxesAside s (s.sendSet lane x) := by
  unfold State.sendSet
  split
  · exact s.setLane_axesAside _ _
  · exact AxisFrame.refl _ _ s

theorem State.sendCancel_axesAside (s : State) (lane : Nat) (e : Entry) : AxesAside s (s.sendCancel lane e) := by
  unfold State.sendCancel
  extract_lets m
  split
  · exact AxisFrame.refl _ _ s
  · exact s.sendSet_axesAside _ _

theorem State.removeEntries_axesAside (s : State) (lane : Nat) (p : Entry → Bool) : AxesAside s (s.removeEntries lane p).2 :=
  (s.setLane_axesAside _ _).trans
    (AxisFrame.foldl _ _ (fun e _ u => (u.freeSlots_axesAside lane e).trans (State.sendCancel_axesAside _ lane e)))

theorem State.schFlag_axesAside (s : State) (lane b : Nat) : AxesAside s (s.schFlag lane b) := by
  refine (s.setStatus_touches _ _ _ _).axesAside (fun a ha => ?_)
  rcases ha with rfl | posted
  · exact offPage_lane _ lane (by decide)
  · exact offPage_of_post posted

theorem State.lanePost_axesAside (s : State) (lane kind axis : Nat) (stamp : W32) (detail : Nat) :
    AxesAside s (s.lanePost lane kind axis stamp detail) := (s.postAt_quiet _ _ _ _ _ _).axesAside_of_quiet

theorem State.tilesStrobed_axesAside (s : State) (lane mask : Nat) (blank : Bool) : AxesAside s (s.tilesStrobed lane mask blank) :=
  AxisFrame.foldl _ s (fun _ _ t => t.setTile_axesAside _ _)

theorem State.waveFail_axesAside (s : State) (lane pos cause index : Nat) : AxesAside s (s.waveFail lane pos cause index) :=
  (s.set_axesAside _ (offPage_lane _ lane (by decide))).trans (State.post_quiet _ _ _ _ _).axesAside_of_quiet

theorem State.retryFull_axesAside (s : State) (lane mask : Nat) : AxesAside s (s.retryFull lane mask) := by
  unfold State.retryFull
  extract_lets l due again sent lost txs t
  have first : AxesAside s t := (s.setLane_axesAside _ _).trans (State.set_axesAside _ _ (offPage_lane _ lane (by decide)))
  exact first.trans (AxisFrame.foldl _ t (fun x _ u => u.waveFail_axesAside _ _ _ _))

/-! ### The queues of an axis -/

theorem State.dropUnconfirmed_axesAside (s : State) (n : Nat) : AxesAside s (s.dropUnconfirmed n) := by
  refine AxisFrame.foldl _ s (fun l _ t => ?_)
  extract_lets mine k queues u
  clear_value mine
  split
  · exact AxisFrame.refl _ _ t
  · extract_lets last v
    have counted : AxesAside t v := ((t.setLane_axesAside _ _).trans (u.set_axesAside _ (offPage_lane _ l.1 (by decide)))).trans
      (State.wr_axesAside _ _ (offPage_lane _ l.1 (by decide)))
    exact ((counted.trans (v.wr_axesAside _ (offPage_lane _ l.1 (by decide)))).trans (State.schFlag_axesAside _ _ _)).trans
      (State.lanePost_axesAside _ _ _ _ _ _)

theorem State.queueCancel_axesAside (s : State) (n cause : Nat) (p : Entry → Bool) : AxesAside s (s.queueCancel n cause p) := by
  unfold State.queueCancel
  extract_lets bit
  refine AxisFrame.foldl _ s (fun l _ t => ?_)
  have removed := t.removeEntries_axesAside l.1 (fun e => t.selects e.bar n && p e)
  split
  next found =>
    rw [found] at removed
    split
    · exact AxisFrame.refl _ _ t
    · exact (removed.trans (State.schFlag_axesAside _ _ _)).trans (State.lanePost_axesAside _ _ _ _ _ _)

theorem State.missEntry_axesAside (s : State) (n lane : Nat) (e : Entry) : AxesAside s (s.missEntry n lane e) := by
  unfold State.missEntry
  extract_lets k t u
  have counted : AxesAside s t := (s.set_axesAside _ (offPage_lane _ lane (by decide))).trans
    (State.set_axesAside _ _ (offPage_lane _ lane (by decide)))
  have strobed : AxesAside t u :=
    ((t.sendSet_axesAside _ _).trans (State.tilesStrobed_axesAside _ _ _ _)).trans (State.retryFull_axesAside _ _ _)
  exact ((counted.trans strobed).trans ((u.freeSlots_axesAside lane e).trans (State.schFlag_axesAside _ _ _))).trans
    (State.lanePost_axesAside _ _ _ _ _ _)

theorem State.wakePending_axesAside (s : State) (n : Nat) : AxesAside s (s.wakePending n) := by
  unfold State.wakePending
  extract_lets rev
  refine AxisFrame.foldl _ s (fun l _ t => ?_)
  extract_lets mine missed q
  exact (t.setLane_axesAside _ _).trans (AxisFrame.foldl _ _ (fun e _ u => u.missEntry_axesAside n l.1 e))

theorem State.completeWaitp_axesAside (s : State) (n : Nat) (code : W32) : AxesAside s (s.completeWaitp n code) := by
  refine AxisFrame.foldl _ s (fun e _ t => ?_)
  split
  · split
    · exact AxesAside.of_fields rfl rfl rfl
    · exact AxisFrame.refl _ _ t
  · exact AxisFrame.refl _ _ t

theorem State.confirmStrobes_axesAside (s : State) (n : Nat) : AxesAside s (s.confirmStrobes n) := AxesAside.of_fields rfl rfl rfl

/-! ### The bars of an axis -/

theorem State.setCond_axesAside (s : State) {b : Nat} (bit : Nat) (c : Bool) : AxesAside s (s.setCond (.bar b) bit c) := by
  have above (base : Nat) (h : 0x40040000 ≤ base) : offPage (base + b * 0x10) := Or.inr (Nat.le_trans h (Nat.le_add_right _ _))
  have latched (t : State) : AxesAside t (t.latchCause (.bar b) bit) := by
    unfold State.latchCause
    split
    · exact AxisFrame.refl _ _ t
    · have latch : AxesAside t (t.setLatch (.bar b) (natSetBit (t.latchOf (.bar b)) bit true)) :=
        (t.set_axesAside _ (above _ (by decide))).trans (State.set_axesAside _ _ (above _ (by decide)))
      exact (latch.trans (State.post_quiet _ _ _ _ _).axesAside_of_quiet).trans (State.raiseIrq_quiet _ _).axesAside_of_quiet
  unfold State.setCond
  extract_lets t
  have cond : AxesAside s t := s.set_axesAside _ (above _ (by decide))
  split
  · exact cond.trans (latched t)
  · exact cond

theorem State.barsRefresh_axesAside (s : State) (n : Nat) : AxesAside s (s.barsRefresh n) :=
  AxisFrame.foldl _ s (fun _ _ t => t.setCond_axesAside _ _)

end Sys2Proof.Machine
end

section
/-! SUPPORT. The flags and the count of an axis: what an AXn_STAT flag, a count change, a reversal and the loss of an axis leave, and a count
change as the statements put it (R90, R103 to R105, R110 to R119, R121, R124). -/

namespace Sys2Proof.Machine

/-! ### Flags -/

/-- A bit set in a register: that bit reads 1, every other as before. -/
theorem State.setBit_getLsbD (s : State) (a : Nat) {i : Nat} (hi : i < 32) (j : Nat) :
    ((s.setBit ⟨a, 31, 0⟩ i true).rd a).getLsbD j = (decide (j = i) || (s.rd a).getLsbD j) := by
  have written : ((s.setBit ⟨a, 31, 0⟩ i true).rd a) = putBits (s.rd a) 31 0 (natSetBit (bitsOf (s.rd a) 31 0) i true) :=
    State.rd_wr_same _ _ _
  rw [written, BitVec.getLsbD, BitVec.getLsbD, putBits_testBit _ _ _ _ _ (by decide) (by decide)]
  by_cases hj : j ≤ 31
  · rw [if_pos ⟨Nat.zero_le j, hj⟩, ← natBit_eq, natBit_setBit, natBit_eq, bitsOf_testBit]
    by_cases e : j = i
    · simp [e]
    · simp [e, show j < 32 by omega]
  · rw [if_neg (fun h => hj h.2)]
    simp [show j ≠ i by omega]

/-- The registers that a flag of axis `n` may write, and the requests and events it raises. -/
def flagReg (n a : Nat) : Prop := offPage a ∨ a = R.AX_STAT n

/-- A flag set, then a request and an event. -/
theorem State.axFlag_quiet (s : State) (n b cause slice : Nat) :
    Quiet (s.setBit ⟨R.AX_STAT n, 31, 0⟩ b true) (s.axFlag n b cause slice) := by
  unfold State.axFlag
  extract_lets was t
  have requested : Quiet (s.setBit ⟨R.AX_STAT n, 31, 0⟩ b true) t := by
    unfold t State.setStatus
    dsimp only
    split
    · exact State.raiseIrq_quiet _ _
    · exact Touches.refl _ _
  split
  · exact requested
  · exact requested.trans (t.postAt_quiet _ _ _ _ _ _)

theorem not_postReg_stat {k : Nat} (h : k < 8) : ¬ postReg (R.AX_STAT k) := fun posted => not_offPage_stat h (offPage_of_post posted)

theorem State.axFlag_axes (s : State) (n b cause slice : Nat) : (s.axFlag n b cause slice).axes = s.axes := by
  rw [(s.axFlag_quiet n b cause slice).core]
  rfl

/-- A flag of an axis reads set. -/
theorem State.axFlag_set (s : State) {n b : Nat} (hn : n < 8) (hb : b < 32) (cause slice : Nat) :
    ((s.axFlag n b cause slice).rd (R.AX_STAT n)).getLsbD b = true := by
  rw [(s.axFlag_quiet n b cause slice).rd _ (not_postReg_stat hn), s.setBit_getLsbD _ hb]
  simp

theorem State.axFlag_frame (s : State) (n : Nat) {b : Nat} (hb : b < 32) (cause slice : Nat) :
    AxisFrame (fun _ => False) (flagReg n) s (s.axFlag n b cause slice) := by
  have quiet := s.axFlag_quiet n b cause slice
  refine ⟨fun k _ => State.axis_congr (s.axFlag_axes n b cause slice) k, by rw [quiet.core]; rfl, fun a ha => ?_, fun k hk j set => ?_⟩
  · rw [quiet.rd a (fun posted => ha (Or.inl (offPage_of_post posted))), State.setBit, State.rd_set_ne _ _ (fun e => ha (Or.inr e))]
  · rw [quiet.rd _ (not_postReg_stat hk)]
    by_cases e : R.AX_STAT k = R.AX_STAT n
    · rw [e] at set ⊢
      rw [s.setBit_getLsbD _ hb, set, Bool.or_true]
    · rwa [State.setBit, State.rd_set_ne _ _ e]

theorem State.axFlag_calm (s : State) (n b cause slice : Nat) : Calm s (s.axFlag n b cause slice) :=
  (s.set_calm _ _).trans (s.axFlag_quiet n b cause slice).calm

theorem State.setAxis_calm (s : State) (n : Nat) (a : Axis) : Calm s (s.setAxis n a) := ⟨fun _ => rfl, rfl, fun _ => rfl, fun _ _ h => h⟩

theorem State.wrapCount_calm (s : State) (n : Nat) (old : W32) (d : Int) : Calm s (s.wrapCount n old d) := by
  unfold State.wrapCount
  extract_lets sum a
  split
  · exact (s.setAxis_calm _ _).trans (State.axFlag_calm _ _ _ _ _)
  · split
    · exact (s.setAxis_calm _ _).trans (State.axFlag_calm _ _ _ _ _)
    · exact Calm.refl s

theorem State.confirmStrobes_calm (s : State) (n : Nat) : Calm s (s.confirmStrobes n) := ⟨fun _ => rfl, rfl, fun _ => rfl, fun _ _ h => h⟩

theorem State.skewStep_calm (s : State) (n : Nat) : Calm s (s.skewStep n) := by
  have skewed : Calm s (s.updateSkew n) := by
    unfold State.updateSkew
    extract_lets a raw lim
    split
    · split
      · exact s.setAxis_calm _ _
      · split
        · exact (s.setAxis_calm _ _).trans (State.axFlag_calm _ _ _ _ _)
        · exact s.setAxis_calm _ _
    · exact Calm.refl s
  exact skewed.trans (State.confirmStrobes_calm _ n)

theorem State.eoFollow_calm (s : State) (n : Nat) (d : Int) : Calm s (s.eoFollow n d) := by
  refine Calm.foldl (fun t i => ?_) _ s
  split
  · split
    next o ovr _ =>
      have followed : Calm t { t with encOuts := tabPut t.encOuts i o } := ⟨fun _ => rfl, rfl, fun _ => rfl, fun _ _ h => h⟩
      extract_lets u
      split
      · exact (followed.trans (u.set_calm _ _)).trans (State.postAt_quiet _ _ _ _ _ _ _).calm
      · exact followed
  · exact Calm.refl t

/-! ### Steps of one axis -/

/-- The registers that a step of axis `n` may write. -/
def axisStepReg (n a : Nat) : Prop := flagReg n a ∨ a = R.AX_ERRCNT n ∨ a = R.EO_STAT 0 ∨ a = R.EO_STAT 1

/-- A step of axis `n` leaves the other axes and their registers. -/
abbrev AxisStep (n : Nat) (s t : State) : Prop := AxisFrame (· = n) (axisStepReg n) s t

theorem AxesAside.step {s t : State} (h : AxesAside s t) (n : Nat) : AxisStep n s t :=
  h.mono (fun _ => False.elim) (fun _ off => Or.inl (Or.inl off))

theorem State.axFlag_step (s : State) (n : Nat) {b : Nat} (hb : b < 32) (cause slice : Nat) : AxisStep n s (s.axFlag n b cause slice) :=
  (s.axFlag_frame n hb cause slice).mono (fun _ => False.elim) (fun _ => Or.inl)

theorem State.setAxis_step (s : State) (n : Nat) (a : Axis) : AxisStep n s (s.setAxis n a) := s.setAxis_frame _ n a

theorem State.wrapCount_step (s : State) (n : Nat) (old : W32) (d : Int) : AxisStep n s (s.wrapCount n old d) := by
  unfold State.wrapCount
  extract_lets sum a
  split
  · exact (s.setAxis_step n _).trans (State.axFlag_step _ n (by decide) _ _)
  · split
    · exact (s.setAxis_step n _).trans (State.axFlag_step _ n (by decide) _ _)
    · exact AxisFrame.refl _ _ s

theorem State.updateSkew_step (s : State) (n : Nat) : AxisStep n s (s.updateSkew n) := by
  unfold State.updateSkew
  extract_lets a raw lim
  split
  · split
    · exact s.setAxis_step n _
    · split
      · exact (s.setAxis_step n _).trans (State.axFlag_step _ n (by decide) _ _)
      · exact s.setAxis_step n _
  · exact AxisFrame.refl _ _ s

theorem State.skewStep_step (s : State) (n : Nat) : AxisStep n s (s.skewStep n) :=
  (s.updateSkew_step n).trans ((State.confirmStrobes_axesAside _ n).step n)

/-- The encoder outputs that follow an axis leave every axis alone. -/
theorem State.eoFollow_frame (s : State) (n : Nat) (d : Int) : AxisFrame (fun _ => False) (axisStepReg n) s (s.eoFollow n d) := by
  refine AxisFrame.foldl _ s (fun i hi t => ?_)
  have stat : R.EO_STAT i = R.EO_STAT 0 ∨ R.EO_STAT i = R.EO_STAT 1 := by
    obtain rfl | rfl : i = 0 ∨ i = 1 := by have := List.mem_range.mp hi; omega
    · exact Or.inl rfl
    · exact Or.inr rfl
  split
  · split
    next o ovr _ =>
      have followed (x : Tab EncOut) : AxisFrame (fun _ => False) (axisStepReg n) t { t with encOuts := x } :=
        ⟨fun _ _ => rfl, rfl, fun _ _ => rfl, fun _ _ _ h => h⟩
      extract_lets u
      have overrun : AxisFrame (fun _ => False) (axisStepReg n) u (u.set (F.EO_STAT_ovr i) 1) := by
        refine ⟨fun _ _ => rfl, rfl, fun a ha => State.rd_set_ne _ _ ?_, fun k hk b set => ?_⟩
        · rintro rfl
          exact ha (Or.inr (Or.inr stat))
        have apart : R.AX_STAT k ≠ R.EO_STAT i := by
          have := List.mem_range.mp hi
          unfold R.AX_STAT R.EO_STAT
          omega
        rwa [State.rd_set_ne _ _ apart]
      split
      · have posted := (State.postAt_quiet (u.set (F.EO_STAT_ovr i) 1) (48 + n) 0x306 n (stampOf ((u.set (F.EO_STAT_ovr i) 1).axisPos n))
          (axisLoc (0x2A + i)) ((u.set (F.EO_STAT_ovr i) 1).axisDetail n 11)).axesAside_of_quiet
        exact ((followed _).trans overrun).trans (posted.mono (fun _ => id) (fun _ off => Or.inl (Or.inl off)))
      · exact followed _
  · exact AxisFrame.refl _ _ t

theorem State.eoFollow_step (s : State) (n : Nat) (d : Int) : AxisStep n s (s.eoFollow n d) :=
  (s.eoFollow_frame n d).mono (fun _ => False.elim) (fun _ => id)

/-- A write of a field of AXn_ERRCNT. -/
theorem State.setErrcnt_step (s : State) {n : Nat} {f : Field} (h : f.addr = R.AX_ERRCNT n) (v : Nat) : AxisStep n s (s.set f v) := by
  refine ⟨fun _ _ => rfl, rfl, fun a ha => State.rd_set_ne _ _ ?_, fun k _ b set => ?_⟩
  · rintro rfl
    exact ha (Or.inr (Or.inl h))
  · have apart : R.AX_STAT k ≠ f.addr := by
      rw [h]
      unfold R.AX_STAT R.AX_ERRCNT
      omega
    rwa [State.rd_set_ne _ _ apart]

/-- What a reversal does to the queues and the waits of its axis (R139, R142, R151). -/
theorem State.reversalQueues_axesAside (s : State) (n : Nat) (p : Entry → Bool) :
    AxesAside s (((s.queueCancel n 0 p).wakePending n).completeWaitp n 2) :=
  ((s.queueCancel_axesAside _ _ _).trans (State.wakePending_axesAside _ _)).trans (State.completeWaitp_axesAside _ _ _)

/-- What the loss of a valid position does to the queues, the waits and the bars of its axis (R104, R142, R151, R152). -/
theorem State.invalidQueues_axesAside (s : State) (n : Nat) :
    AxesAside s ((((s.dropUnconfirmed n).queueCancel n 2 (fun _ => true)).completeWaitp n 4).barsRefresh n) :=
  (((s.dropUnconfirmed_axesAside n).trans (State.queueCancel_axesAside _ _ _ _)).trans
    (State.completeWaitp_axesAside _ _ _)).trans (State.barsRefresh_axesAside _ _)

theorem State.declareReversal_step (s : State) (n : Nat) (d : Int) (te : Nat) : AxisStep n s (s.declareReversal n d te) := by
  unfold State.declareReversal
  extract_lets a0 oldRev m a1 a2 t u
  have turned : AxisStep n s t := (((s.dropUnconfirmed_axesAside n).step n).trans (State.setAxis_step _ n _)).trans (State.wrapCount_step _ n _ _)
  have counted : AxisStep n t (t.bump (F.AX_ERRCNT_rev_cnt n)) := t.setErrcnt_step rfl _
  have flagged : AxisStep n t u := (counted.trans (State.axFlag_step _ n (by decide) _ _)).trans (State.updateSkew_step _ n)
  exact (turned.trans flagged).trans ((u.reversalQueues_axesAside n _).step n)

/-- A change of `d` counts made, before the encoder outputs and the skew follow it. -/
def State.countMoved (s : State) (n : Nat) (d : Int) (te : Nat) : State :=
  let a := s.axis n
  let c := a.a.count + BitVec.ofInt 32 d
  if decide (d < 0) != a.a.rev then
    if a.reverses c (s.get (F.AX_CFG_eddy n)) then s.declareReversal n d te
    else (s.setAxis n { a with a := a.a.stepBack d te, st := .moving }).wrapCount n a.a.count d
  else (s.setAxis n (({ a with a := a.a.step (s.navg n) d te, st := .moving } : Axis).raiseSill (countPos c))).wrapCount n a.a.count d

/-- A change of source counts in the direction that dir_inv gives it (R90). -/
def State.directed (s : State) (n : Nat) (d0 : Int) : Int := if s.flag (F.AX_CFG_dir_inv n) then -d0 else d0

theorem State.directed_ne_zero {s : State} {n : Nat} {d0 : Int} (h : d0 ≠ 0) : s.directed n d0 ≠ 0 := by
  unfold State.directed
  split <;> omega

theorem State.countChange_eq (s : State) (n : Nat) (d0 : Int) (te : Nat) : s.countChange n d0 te =
    if !(s.axis n).valid || s.directed n d0 == 0 then s
    else ((s.countMoved n (s.directed n d0) te).eoFollow n (s.directed n d0)).skewStep n := rfl

theorem State.countMoved_step (s : State) (n : Nat) (d : Int) (te : Nat) : AxisStep n s (s.countMoved n d te) := by
  unfold State.countMoved
  extract_lets a c
  split
  · split
    · exact s.declareReversal_step n d te
    · exact (s.setAxis_step n _).trans (State.wrapCount_step _ n _ _)
  · exact (s.setAxis_step n _).trans (State.wrapCount_step _ n _ _)

theorem State.countChange_step (s : State) (n : Nat) (d0 : Int) (te : Nat) : AxisStep n s (s.countChange n d0 te) := by
  rw [State.countChange_eq]
  split
  · exact AxisFrame.refl _ _ s
  · exact ((s.countMoved_step n _ te).trans (State.eoFollow_step _ n _)).trans (State.skewStep_step _ n)

theorem State.axisInvalid_step (s : State) (n : Nat) (st : AxState) : AxisStep n s (s.axisInvalid n st) := by
  unfold State.axisInvalid
  extract_lets a m t
  exact (s.setAxis_step n _).trans ((t.invalidQueues_axesAside n).step n)

theorem State.axisLost_step (s : State) (n cause slice : Nat) : AxisStep n s (s.axisLost n cause slice) := by
  unfold State.axisLost
  split
  · exact (s.axisInvalid_step n .lost).trans (State.axFlag_step _ n (by decide) _ _)
  · exact AxisFrame.refl _ _ s

theorem State.axisValid_step (s : State) (n : Nat) : AxisStep n s (s.axisValid n) := by
  unfold State.axisValid
  extract_lets a m t
  exact ((s.setAxis_step n _).trans ((t.barsRefresh_axesAside n).step n)).trans (State.axFlag_step _ n (by decide) _ _)

/-! ### The axis itself -/

theorem AxesAside.axis_eq {s t : State} (h : AxesAside s t) (n : Nat) : t.axis n = s.axis n := h.axis n id

theorem State.axFlag_axis (s : State) (n b cause slice k : Nat) : (s.axFlag n b cause slice).axis k = s.axis k :=
  State.axis_congr (s.axFlag_axes n b cause slice) k

theorem State.axis_set (s : State) (f : Field) (v k : Nat) : (s.set f v).axis k = s.axis k := rfl

/-- The epoch after a change of the count (R105). -/
def wrapEpoch (old : W32) (d : Int) (e : BitVec 8) : BitVec 8 :=
  if 2 ^ 32 ≤ (old.toNat : Int) + d then e + 1 else if (old.toNat : Int) + d < 0 then e - 1 else e

theorem State.wrapCount_axis (s : State) (n : Nat) (old : W32) (d : Int) :
    (s.wrapCount n old d).axis n = { s.axis n with epoch := wrapEpoch old d (s.axis n).epoch } := by
  unfold State.wrapCount wrapEpoch
  extract_lets sum a
  split
  · rw [State.axFlag_axis, State.axis_setAxis_same]
  · split
    · rw [State.axFlag_axis, State.axis_setAxis_same]
    · rfl

/-- An update of the skew changes nothing else of the axis (R119). -/
theorem State.updateSkew_axis (s : State) (n : Nat) : ∃ k h, (s.updateSkew n).axis n = { s.axis n with skew := k, skewHold := h } := by
  unfold State.updateSkew
  extract_lets a raw lim
  split
  · split
    · exact ⟨_, _, State.axis_setAxis_same _ _ _⟩
    · split
      · refine ⟨a.skew, true, ?_⟩
        rw [State.axFlag_axis, State.axis_setAxis_same]
      · exact ⟨_, _, State.axis_setAxis_same _ _ _⟩
  · exact ⟨a.skew, a.skewHold, rfl⟩

theorem State.skewStep_axis (s : State) (n : Nat) : ∃ k h, (s.skewStep n).axis n = { s.axis n with skew := k, skewHold := h } := by
  obtain ⟨k, h, skewed⟩ := s.updateSkew_axis n
  exact ⟨k, h, ((State.confirmStrobes_axesAside _ n).axis_eq n).trans skewed⟩

/-- The axis turned by a change of `d` counts: its new sill starts at the new count, forward only where it takes lines both ways (R112). -/
def Axis.turned (a : Axis) (bidir : Bool) (d : Int) (te : Nat) : Axis :=
  let m := a.a.stepTurn d te
  let b := { a with a := m, st := .moving }
  if m.rev then { b with sillR := countPos m.count } else if bidir then { b with sillF := countPos m.count } else b

theorem State.declareReversal_axis (s : State) (n : Nat) (d : Int) (te : Nat) :
    let b := (s.axis n).turned (s.flag (F.AX_CFG_bidir n)) d te
    ∃ k h, (s.declareReversal n d te).axis n =
      { b with epoch := wrapEpoch (s.axis n).a.count d b.epoch, skew := k, skewHold := h } := by
  intro b
  unfold State.declareReversal
  extract_lets a0 oldRev m a1 a2 t u
  have turned : t.axis n = { b with epoch := wrapEpoch a0.a.count d b.epoch } := by
    unfold t
    rw [State.wrapCount_axis, State.axis_setAxis_same]
    rfl
  obtain ⟨k, h, skewed⟩ := ((t.bump (F.AX_ERRCNT_rev_cnt n)).axFlag n 2 0 n).updateSkew_axis n
  refine ⟨k, h, ((u.reversalQueues_axesAside n _).axis_eq n).trans (skewed.trans ?_)⟩
  rw [State.axFlag_axis]
  exact congrArg (fun x : Axis => { x with skew := k, skewHold := h }) turned

/-- The axis after a change of `d` counts, but for its epoch and skew (R103, R110 to R112). -/
def Axis.counted (a : Axis) (navg eddy : Nat) (bidir : Bool) (d : Int) (te : Nat) : Axis :=
  let c := a.a.count + BitVec.ofInt 32 d
  if decide (d < 0) != a.a.rev then
    if a.reverses c eddy then a.turned bidir d te else { a with a := a.a.stepBack d te, st := .moving }
  else ({ a with a := a.a.step navg d te, st := .moving } : Axis).raiseSill (countPos c)

/-- A movement against the direction turns the axis beyond the eddy window (R111). -/
def Axis.turns (a : Axis) (eddy : Nat) (d : Int) : Bool :=
  (decide (d < 0) != a.a.rev) && a.reverses (a.a.count + BitVec.ofInt 32 d) eddy

/-- The window of `Counts` is that of `Axis.reverses`. -/
theorem Axis.turns_eq (a : Axis) (eddy : Nat) (d : Int) : a.turns eddy d = ((decide (d < 0) != a.a.rev) &&
    decide ((eddy : Int) * 256 < (if a.a.rev then (countPos (a.a.count + BitVec.ofInt 32 d) - a.sillR).toInt
      else (a.sillF - countPos (a.a.count + BitVec.ofInt 32 d)).toInt))) := by
  unfold Axis.turns Axis.reverses
  split <;> rfl

section
variable (a : Axis) (navg eddy : Nat) (bidir : Bool) (d : Int) (te : Nat)

/-- In the direction: the count moves and its sill follows. -/
theorem Axis.counted_along (h : decide (d < 0) = a.a.rev) : a.counted navg eddy bidir d te =
    ({ a with a := a.a.step navg d te, st := .moving } : Axis).raiseSill (countPos (a.a.count + BitVec.ofInt 32 d)) := by
  simp only [Axis.counted, h, bne_self_eq_false, Bool.false_eq_true, if_false]

/-- Against the direction, inside the eddy window: the sills stay. -/
theorem Axis.counted_back (h : decide (d < 0) ≠ a.a.rev) (inside : a.turns eddy d = false) :
    a.counted navg eddy bidir d te = { a with a := a.a.stepBack d te, st := .moving } := by
  have against : (decide (d < 0) != a.a.rev) = true := bne_iff_ne.mpr h
  have stays : a.reverses (a.a.count + BitVec.ofInt 32 d) eddy = false := by simpa only [Axis.turns, against, Bool.true_and] using inside
  simp only [Axis.counted, against, stays, if_true, Bool.false_eq_true, if_false]

theorem Axis.counted_turned (h : a.turns eddy d = true) : a.counted navg eddy bidir d te = a.turned bidir d te := by
  obtain ⟨against, reverses⟩ := Bool.and_eq_true_iff.mp h
  simp only [Axis.counted, against, reverses, if_true]

theorem Axis.turned_motion : (a.turned bidir d te).a = a.a.stepTurn d te ∧ (a.turned bidir d te).st = .moving ∧
    (a.turned bidir d te).epoch = a.epoch := by
  unfold Axis.turned
  dsimp only
  split
  · exact ⟨rfl, rfl, rfl⟩
  · split <;> exact ⟨rfl, rfl, rfl⟩

theorem Axis.raiseSill_motion (p : BitVec 40) : (a.raiseSill p).a = a.a ∧ (a.raiseSill p).st = a.st ∧ (a.raiseSill p).epoch = a.epoch := by
  unfold Axis.raiseSill
  split <;> split <;> exact ⟨rfl, rfl, rfl⟩

theorem Axis.raiseSill_forward (p : BitVec 40) (h : a.a.rev = false) :
    (a.raiseSill p).sillF = (if 0 < (p - a.sillF).toInt then p else a.sillF) ∧ (a.raiseSill p).sillR = a.sillR := by
  simp only [Axis.raiseSill, h, Bool.false_eq_true, if_false]
  split <;> exact ⟨rfl, rfl⟩

theorem Axis.raiseSill_reverse (p : BitVec 40) (h : a.a.rev = true) :
    (a.raiseSill p).sillR = (if (p - a.sillR).toInt < 0 then p else a.sillR) ∧ (a.raiseSill p).sillF = a.sillF := by
  simp only [Axis.raiseSill, h, if_true]
  split <;> exact ⟨rfl, rfl⟩

/-- Count, state, time, direction and epoch after a change. -/
theorem Axis.counted_motion : let b := a.counted navg eddy bidir d te
    b.a.count = a.a.count + BitVec.ofInt 32 d ∧ b.st = .moving ∧ b.a.te = te ∧ b.a.rev = (a.a.rev ^^ a.turns eddy d) ∧
      b.epoch = a.epoch := by
  intro b
  cases turning : a.turns eddy d with
  | true =>
    obtain ⟨motion, st, epoch⟩ := a.turned_motion bidir d te
    rw [show b = a.turned bidir d te from a.counted_turned navg eddy bidir d te turning, motion]
    exact ⟨rfl, st, rfl, (Bool.xor_true _).symm, epoch⟩
  | false =>
    rw [Bool.xor_false]
    by_cases along : decide (d < 0) = a.a.rev
    · obtain ⟨motion, st, epoch⟩ := ({ a with a := a.a.step navg d te, st := .moving } : Axis).raiseSill_motion
        (countPos (a.a.count + BitVec.ofInt 32 d))
      rw [show b = _ from a.counted_along navg eddy bidir d te along, motion]
      exact ⟨rfl, st, rfl, rfl, epoch⟩
    · rw [show b = _ from a.counted_back navg eddy bidir d te along turning]
      exact ⟨rfl, rfl, rfl, rfl, rfl⟩

theorem Axis.turned_kept : (a.turned bidir d te).rPrev = a.rPrev ∧ (a.turned bidir d te).fwdPulses = a.fwdPulses ∧
    (a.turned bidir d te).revPulses = a.revPulses := by
  unfold Axis.turned
  dsimp only
  split
  · exact ⟨rfl, rfl, rfl⟩
  · split <;> exact ⟨rfl, rfl, rfl⟩

theorem Axis.raiseSill_kept (p : BitVec 40) : (a.raiseSill p).rPrev = a.rPrev ∧ (a.raiseSill p).fwdPulses = a.fwdPulses ∧
    (a.raiseSill p).revPulses = a.revPulses := by
  unfold Axis.raiseSill
  split <;> split <;> exact ⟨rfl, rfl, rfl⟩

/-- The last raw value and the pending pulses are none of a change's. -/
theorem Axis.counted_kept : let b := a.counted navg eddy bidir d te
    b.rPrev = a.rPrev ∧ b.fwdPulses = a.fwdPulses ∧ b.revPulses = a.revPulses := by
  intro b
  cases turning : a.turns eddy d with
  | true =>
    rw [show b = a.turned bidir d te from a.counted_turned navg eddy bidir d te turning]
    exact a.turned_kept bidir d te
  | false =>
    by_cases along : decide (d < 0) = a.a.rev
    · rw [show b = _ from a.counted_along navg eddy bidir d te along]
      exact Axis.raiseSill_kept _ _
    · rw [show b = _ from a.counted_back navg eddy bidir d te along turning]
      exact ⟨rfl, rfl, rfl⟩

/-- A reversal out of forward starts the reverse sill at the new count. -/
theorem Axis.turned_sillR (h : a.a.rev = false) : (a.turned bidir d te).sillR = countPos (a.a.count + BitVec.ofInt 32 d) := by
  have reverse : (a.a.stepTurn d te).rev = true := by simp [Motion.stepTurn, h]
  simp only [Axis.turned, reverse, if_true]
  rfl

end

/-- A change of `d` counts that does not turn the axis. -/
theorem State.countMoved_of_not_turns (s : State) (n : Nat) {d : Int} (te : Nat) (h : (s.axis n).turns (s.get (F.AX_CFG_eddy n)) d = false) :
    s.countMoved n d te = (s.setAxis n ((s.axis n).counted (s.navg n) (s.get (F.AX_CFG_eddy n)) (s.flag (F.AX_CFG_bidir n)) d te)).wrapCount
      n (s.axis n).a.count d := by
  by_cases along : decide (d < 0) = (s.axis n).a.rev
  · rw [Axis.counted_along _ _ _ _ _ _ along]
    exact if_neg (by simp [along])
  · have against : (decide (d < 0) != (s.axis n).a.rev) = true := bne_iff_ne.mpr along
    rw [Axis.counted_back _ _ _ _ _ _ along h]
    rw [Axis.turns, against, Bool.true_and] at h
    exact (if_pos against).trans (if_neg (by simp [h]))

theorem State.countMoved_of_turns (s : State) (n : Nat) {d : Int} (te : Nat) (h : (s.axis n).turns (s.get (F.AX_CFG_eddy n)) d = true) :
    s.countMoved n d te = s.declareReversal n d te := by
  obtain ⟨against, reverses⟩ := Bool.and_eq_true_iff.mp h
  exact (if_pos against).trans (if_pos reverses)

theorem State.countMoved_axis (s : State) (n : Nat) (d : Int) (te : Nat) :
    let b := (s.axis n).counted (s.navg n) (s.get (F.AX_CFG_eddy n)) (s.flag (F.AX_CFG_bidir n)) d te
    ∃ k h, (s.countMoved n d te).axis n = { b with epoch := wrapEpoch (s.axis n).a.count d b.epoch, skew := k, skewHold := h } := by
  intro b
  cases turning : (s.axis n).turns (s.get (F.AX_CFG_eddy n)) d with
  | true =>
    rw [s.countMoved_of_turns n te turning, show b = _ from Axis.counted_turned _ _ _ _ d te turning]
    exact s.declareReversal_axis n d te
  | false =>
    refine ⟨b.skew, b.skewHold, ?_⟩
    rw [s.countMoved_of_not_turns n te turning, State.wrapCount_axis, State.axis_setAxis_same]

/-- What a change of source counts makes of a valid axis. -/
theorem State.countChange_axis (s : State) (n : Nat) {d0 : Int} (te : Nat) (valid : (s.axis n).valid = true) (hd : d0 ≠ 0) :
    let d := s.directed n d0
    let b := (s.axis n).counted (s.navg n) (s.get (F.AX_CFG_eddy n)) (s.flag (F.AX_CFG_bidir n)) d te
    ∃ k h, (s.countChange n d0 te).axis n = { b with epoch := wrapEpoch (s.axis n).a.count d b.epoch, skew := k, skewHold := h } := by
  intro d b
  have moves : ¬ (!(s.axis n).valid || d == 0) = true := by simp [valid, d, State.directed_ne_zero hd]
  obtain ⟨k, h, moved⟩ := s.countMoved_axis n d te
  obtain ⟨k', h', skewed⟩ := ((s.countMoved n d te).eoFollow n d).skewStep_axis n
  have followed : ((s.countMoved n d te).eoFollow n d).axis n = (s.countMoved n d te).axis n :=
    (State.eoFollow_frame _ n d).axis n id
  refine ⟨k', h', ?_⟩
  rw [State.countChange_eq, if_neg moves, skewed, followed, moved]

/-! ### A count change as the statements put it -/

/-- A change of source counts on a valid axis is what the statements call a count. -/
theorem State.countChange_counts (s : State) (n : Nat) {d0 : Int} (te : Nat) (valid : (s.axis n).valid = true) (hd : d0 ≠ 0) :
    Counts n (s.directed n d0) te s (s.countChange n d0 te) := by
  obtain ⟨k, h, counted⟩ := s.countChange_axis n te valid hd
  generalize s.directed n d0 = d at counted ⊢
  obtain ⟨count, st, time, rev, epoch⟩ := (s.axis n).counted_motion (s.navg n) (s.get (F.AX_CFG_eddy n)) (s.flag (F.AX_CFG_bidir n)) d te
  unfold Counts
  extract_lets a b c eddy against turns
  have turning : a.turns (s.get (F.AX_CFG_eddy n)) d = turns := a.turns_eq _ _
  rw [show b = _ from counted]
  refine ⟨count, st, time, by rw [← turning]; exact rev, ?epoch, ?forward, ?reverse, ?turned, ?back,
    fun k hk => (s.countChange_step n d0 te).axis k hk⟩
  case epoch =>
    rw [epoch]
    rfl
  case forward =>
    rintro ⟨along, forward⟩
    rw [Axis.counted_along _ _ _ _ _ _ (by simpa [against] using along)]
    exact Axis.raiseSill_forward _ _ forward
  case reverse =>
    rintro ⟨along, reverse⟩
    rw [Axis.counted_along _ _ _ _ _ _ (by simpa [against] using along)]
    exact Axis.raiseSill_reverse _ _ reverse
  case turned =>
    rintro ⟨turned, forward⟩
    rw [Axis.counted_turned _ _ _ _ _ _ (turning.trans turned)]
    exact Axis.turned_sillR _ _ _ _ forward
  case back =>
    rintro ⟨back, stays⟩
    rw [Axis.counted_back _ _ _ _ _ _ (bne_iff_ne.mp back) (turning.trans stays)]
    exact ⟨rfl, rfl⟩

/-- A change of the count keeps the axis's last raw value and pending pulses. -/
theorem State.countChange_kept (s : State) (n : Nat) {d0 : Int} (te : Nat) (valid : (s.axis n).valid = true) (hd : d0 ≠ 0) :
    let t := s.countChange n d0 te
    (t.axis n).rPrev = (s.axis n).rPrev ∧ (t.axis n).fwdPulses = (s.axis n).fwdPulses ∧ (t.axis n).revPulses = (s.axis n).revPulses := by
  intro t
  obtain ⟨k, h, counted⟩ := s.countChange_axis n te valid hd
  rw [show t.axis n = _ from counted]
  exact Axis.counted_kept _ _ _ _ _ _

/-- A change that turns no axis writes no memory: no queue is cancelled. -/
theorem State.countChange_mem (s : State) (n : Nat) {d0 : Int} (te : Nat)
    (inside : (s.axis n).turns (s.get (F.AX_CFG_eddy n)) (s.directed n d0) = false) : SameMemory s (s.countChange n d0 te) := by
  have moved : Calm s (s.countMoved n (s.directed n d0) te) := by
    rw [s.countMoved_of_not_turns n te inside]
    exact (s.setAxis_calm n _).trans (State.wrapCount_calm _ n _ _)
  rw [State.countChange_eq]
  split
  · exact fun _ => rfl
  · exact ((moved.trans (State.eoFollow_calm _ n _)).trans (State.skewStep_calm _ n)).mem

/-- A count from a state in which the axes' counts, directions, sills and epochs are as in another is one from that other. -/
theorem Counts.congr {n : Nat} {d : Int} {te : Nat} {s u t : State} (h : Counts n d te u t) (motion : (u.axis n).a = (s.axis n).a)
    (epoch : (u.axis n).epoch = (s.axis n).epoch) (sillF : (u.axis n).sillF = (s.axis n).sillF) (sillR : (u.axis n).sillR = (s.axis n).sillR)
    (others : ∀ k, k ≠ n → u.axis k = s.axis k) (eddy : u.get (F.AX_CFG_eddy n) = s.get (F.AX_CFG_eddy n)) : Counts n d te s t := by
  dsimp only [Counts] at h ⊢
  rw [motion, epoch, sillF, sillR, eddy] at h
  obtain ⟨count, st, time, rev, wrap, forward, reverse, turned, back, rest⟩ := h
  exact ⟨count, st, time, rev, wrap, forward, reverse, turned, back, fun k hk => (rest k hk).trans (others k hk)⟩

end Sys2Proof.Machine
end

section
/-! SUPPORT. The inputs of the position axes: quadrature transitions, an index, step pacing, virtual axes and position loads; the statement
that rests on them (R93, R95, R101, R102, R105, R106, R110 to R112). -/

namespace Sys2Proof.Machine

/-! ### One axis of eight -/

/-- A pass over `0` to `m - 1` of which only `n` acts, on states that satisfy `I`. -/
theorem foldl_range_at {α : Type} {f : α → Nat → α} {I : α → Prop} {s : α} {n : Nat} (start : I s) (next : I (f s n)) :
    ∀ {m : Nat}, n < m → (∀ u k, I u → k < m → k ≠ n → f u k = u) → (List.range m).foldl f s = f s n
  | m + 1, hn, skip => by
    rw [List.range_succ, List.foldl_append]
    have skip' : ∀ u k, I u → k < m → k ≠ n → f u k = u := fun u k hu hk => skip u k hu (by omega)
    by_cases h : n = m
    · have idle : ∀ j, j ≤ n → (List.range j).foldl f s = s := by
        intro j
        induction j with
        | zero => exact fun _ => rfl
        | succ j ih =>
          intro hj
          rw [List.range_succ, List.foldl_append, ih (by omega)]
          exact skip s j start (by omega) (by omega)
      rw [← h, idle n (Nat.le_refl n)]
      rfl
    · rw [foldl_range_at start next (by omega) skip']
      exact skip _ m next (by omega) (Ne.symm h)

theorem State.get_of_rd {s t : State} {f : Field} (h : t.rd f.addr = s.rd f.addr) : t.get f = s.get f := by rw [State.get, State.get, h]

theorem State.flag_of_rd {s t : State} {f : Field} (h : t.rd f.addr = s.rd f.addr) : t.flag f = s.flag f := by
  rw [State.flag, State.flag, State.get_of_rd h]

/-- A counter after it is raised by one. -/
theorem State.get_bump_same (s : State) {f : Field} (h1 : f.lo ≤ f.hi) (h2 : f.hi < 32) :
    (s.bump f).get f = min (s.get f + 1) (2 ^ (f.hi + 1 - f.lo) - 1) := by
  have positive := Nat.two_pow_pos (f.hi + 1 - f.lo)
  rw [State.bump, State.bumpBy, State.get_set_same _ _ _ h1 h2]
  exact Nat.mod_eq_of_lt (by omega)

/-! ### Quadrature -/

/-- Transitions of A and B, from the first two levels to the last two: A leads in a forward one, B in a reverse one (R93). -/
def forwardMoves : List (Bool × Bool × Bool × Bool) :=
  [(false, false, true, false), (true, false, true, true), (true, true, false, true), (false, true, false, false)]
def reverseMoves : List (Bool × Bool × Bool × Bool) :=
  [(false, false, false, true), (true, false, false, false), (true, true, true, false), (false, true, true, true)]

theorem quadStep_of_move : ∀ {a0 b0 a1 b1 : Bool}, (a0, b0, a1, b1) ∈ forwardMoves ∨ (a0, b0, a1, b1) ∈ reverseMoves →
    quadStep a0 b0 a1 b1 = some (if (a0, b0, a1, b1) ∈ forwardMoves then 1 else -1) := by decide

theorem quadStep_of_both : ∀ {a0 b0 a1 b1 : Bool}, a1 ≠ a0 → b1 ≠ b0 → quadStep a0 b0 a1 b1 = none := by decide

/-- The state in which an input's levels are those accepted. -/
def State.levelled (s : State) (qe : Nat) (a b : Bool) : State := (s.setBit (F.QE_CFG_lvl qe) 0 a).setBit (F.QE_CFG_lvl qe) 1 b

theorem State.levelled_calm (s : State) (qe : Nat) (a b : Bool) : Calm s (s.levelled qe a b) := (s.set_calm _ _).trans (State.set_calm _ _ _)

/-- The registers of axis `k` are none of an input's. -/
theorem axisPage_ne_quad {k offset : Nat} (hk : k < 8) (ho : offset < 0x100) (qe : Nat) : 0x40030000 + offset + k * 0x100 ≠ R.QE_CFG qe := by
  unfold R.QE_CFG
  omega

theorem State.levelled_rd (s : State) (qe : Nat) (a b : Bool) {x : Nat} (h : x ≠ R.QE_CFG qe) : (s.levelled qe a b).rd x = s.rd x :=
  (State.rd_set_ne _ _ h).trans (State.rd_set_ne _ _ h)

theorem State.levelled_cfg (s : State) (qe : Nat) (a b : Bool) {k : Nat} (hk : k < 8) :
    (s.levelled qe a b).rd (R.AX_CFG k) = s.rd (R.AX_CFG k) := s.levelled_rd qe a b (axisPage_ne_quad (offset := 0) hk (by decide) qe)

theorem State.usesQuad_congr {s t : State} {k : Nat} (h : t.rd (R.AX_CFG k) = s.rd (R.AX_CFG k)) (qe : Nat) :
    t.usesQuad k qe ↔ s.usesQuad k qe := by
  unfold State.usesQuad
  rw [State.flag_of_rd (f := F.AX_CFG_en k) h, State.get_of_rd (f := F.AX_CFG_src k) h, State.get_of_rd (f := F.AX_CFG_sel_a k) h,
    State.get_of_rd (f := F.AX_CFG_sel_b k) h]

/-- An axis that does not use an input does not see its transitions. -/
theorem State.quadOn_unused {s : State} {k qe : Nat} (h : ¬ s.usesQuad k qe) (st : Option Int) (te : Nat) : s.quadOn qe st te k = s := by
  unfold State.quadOn
  extract_lets src isA isB t
  have noA : isA = false := by
    by_contra used
    simp only [Bool.not_eq_false, isA, src, Bool.and_eq_true, Bool.or_eq_true, beq_iff_eq] at used
    exact h ⟨used.2, Or.inl used.1⟩
  have noB : isB = false := by
    by_contra used
    simp only [Bool.not_eq_false, isB, src, Bool.and_eq_true, beq_iff_eq] at used
    exact h ⟨used.2, Or.inr used.1.1⟩
  simp only [t, noA, noB, Bool.false_eq_true, if_false]

section
variable {s : State} {n qe : Nat} (used : s.usesQuad n qe) (src : s.get (F.AX_CFG_src n) = 1)
include used src

theorem State.quadOn_single_sel : s.get (F.AX_CFG_sel_a n) = qe := by
  obtain ⟨-, ⟨-, sel⟩ | ⟨fused, -⟩⟩ := used
  · exact sel
  · omega

/-- An axis with one quadrature source sees its transitions as side A: a legal one changes its count. -/
theorem State.quadOn_legal (d : Int) (te : Nat) : s.quadOn qe (some d) te n = s.countChange n d te := by
  unfold State.quadOn
  simp only [src, State.quadOn_single_sel used src, used.1, beq_self_eq_true, Bool.true_or, Bool.and_self, if_true, Nat.reduceBEq,
    Bool.false_and, Bool.false_eq_true, if_false]

/-- A transition of both levels is an illegal one of side A. -/
theorem State.quadOn_illegal (te : Nat) : s.quadOn qe none te n = s.illegalA n qe := by
  unfold State.quadOn
  simp only [src, State.quadOn_single_sel used src, used.1, beq_self_eq_true, Bool.true_or, Bool.and_self, if_true, Nat.reduceBEq,
    Bool.false_and, Bool.false_eq_true, if_false]

end

theorem State.bumpErrors_step (s : State) (n : Nat) : AxisStep n s (s.bump (F.AX_ERRCNT_err_cnt n)) := s.setErrcnt_step rfl _

theorem State.illegalA_step (s : State) (n qe : Nat) : AxisStep n s (s.illegalA n qe) := by
  unfold State.illegalA
  extract_lets a k m t q
  have flagged : AxisStep n s t := ((s.setAxis_step n _).trans (State.bumpErrors_step _ n)).trans (State.axFlag_step _ n (by decide) _ _)
  split
  · exact flagged.trans (t.axisLost_step n _ _)
  · exact flagged

/-- Without a limit an illegal transition is counted on the axis and in its registers, and flagged (R93). -/
theorem State.illegalA_unlimited (s : State) (n qe : Nat) (unlimited : s.get (F.AX_CFG_qerr_max n) = 0) :
    s.illegalA n qe = ((s.setAxis n { s.axis n with a := { (s.axis n).a with illegal := (s.axis n).a.illegal + 1 } }).bump
      (F.AX_ERRCNT_err_cnt n)).axFlag n 6 1 (0x20 + qe) := by
  unfold State.illegalA
  simp only [unlimited, bne_self_eq_false, Bool.false_and, Bool.false_eq_true, if_false]

theorem not_axisStepReg_cfg (n : Nat) {k : Nat} (hk : k < 8) : ¬ axisStepReg n (R.AX_CFG k) := by
  unfold axisStepReg flagReg offPage R.AX_CFG R.AX_STAT R.AX_ERRCNT R.EO_STAT
  omega

/-- A transition of an input that one axis uses, as side A, is seen by that axis alone. -/
theorem State.quadEdge_single {s : State} {n qe : Nat} (hn : n < 8) (used : s.usesQuad n qe) (src : s.get (F.AX_CFG_src n) = 1)
    (alone : ∀ k < 8, k ≠ n → ¬ s.usesQuad k qe) (a b : Bool) : s.quadEdge qe a b = (s.levelled qe a b).quadOn qe
      (quadStep (natBit (s.get (F.QE_CFG_lvl qe)) 0) (natBit (s.get (F.QE_CFG_lvl qe)) 1) a b)
      (filteredTime s.uptime (s.get (F.QE_CFG_filt qe))) n := by
  have cfg {k : Nat} (hk : k < 8) := s.levelled_cfg qe a b hk
  have used' := (State.usesQuad_congr (cfg hn) qe).mpr used
  have src' := (State.get_of_rd (f := F.AX_CFG_src n) (cfg hn)).trans src
  have step (st : Option Int) (te : Nat) : AxisStep n (s.levelled qe a b) ((s.levelled qe a b).quadOn qe st te n) := by
    cases st with
    | some d =>
      rw [State.quadOn_legal used' src']
      exact State.countChange_step _ n d te
    | none =>
      rw [State.quadOn_illegal used' src']
      exact State.illegalA_step _ n qe
  refine foldl_range_at (I := fun u => ∀ k < 8, u.rd (R.AX_CFG k) = s.rd (R.AX_CFG k)) (fun k hk => cfg hk)
    (fun k hk => ((step _ _).rd _ (not_axisStepReg_cfg n hk)).trans (cfg hk)) hn (fun u k hu hk hne => ?_)
  exact State.quadOn_unused (fun h => alone k hk hne ((State.usesQuad_congr (hu k hk) qe).mp h)) _ _

/-! ### What the statement asks of a transition -/

section
variable {s : State} {n qe : Nat} (hn : n < 8) (valid : (s.axis n).valid = true) (used : s.usesQuad n qe)
  (src : s.get (F.AX_CFG_src n) = 1) (alone : ∀ k < 8, k ≠ n → ¬ s.usesQuad k qe)
include hn valid used src alone

/-- A legal transition that turns no axis counts, and writes no memory. -/
theorem State.quadEdge_counts {a b : Bool} {d0 : Int}
    (move : quadStep (natBit (s.get (F.QE_CFG_lvl qe)) 0) (natBit (s.get (F.QE_CFG_lvl qe)) 1) a b = some d0) (hd : d0 ≠ 0)
    (inside : (s.axis n).turns (s.get (F.AX_CFG_eddy n)) (s.directed n d0) = false) :
    Counts n (s.directed n d0) (filteredTime s.uptime (s.get (F.QE_CFG_filt qe))) s (s.quadEdge qe a b) ∧
      SameMemory s (s.quadEdge qe a b) := by
  have cfg := s.levelled_cfg qe a b hn
  have src' : (s.levelled qe a b).get (F.AX_CFG_src n) = 1 := (State.get_of_rd cfg).trans src
  have eddy : (s.levelled qe a b).get (F.AX_CFG_eddy n) = s.get (F.AX_CFG_eddy n) := State.get_of_rd cfg
  have directed : (s.levelled qe a b).directed n d0 = s.directed n d0 := by
    rw [State.directed, State.directed, State.flag_of_rd (f := F.AX_CFG_dir_inv n) cfg]
  rw [State.quadEdge_single hn used src alone, move, State.quadOn_legal ((State.usesQuad_congr cfg qe).mpr used) src']
  constructor
  · have counts := (s.levelled qe a b).countChange_counts n (filteredTime s.uptime (s.get (F.QE_CFG_filt qe))) valid hd
    rw [directed] at counts
    exact counts.congr rfl rfl rfl rfl (fun _ _ => rfl) eddy
  · have inside' : ((s.levelled qe a b).axis n).turns ((s.levelled qe a b).get (F.AX_CFG_eddy n)) ((s.levelled qe a b).directed n d0) = false := by
      rw [eddy, directed]
      exact inside
    exact fun x => ((s.levelled qe a b).countChange_mem n _ inside' x).trans ((s.levelled_calm qe a b).mem x)

omit valid in
/-- A change of both levels, on an axis without a limit of such: counted, flagged, and the count stays. -/
theorem State.quadEdge_illegal {a b : Bool} (ha : a ≠ natBit (s.get (F.QE_CFG_lvl qe)) 0) (hb : b ≠ natBit (s.get (F.QE_CFG_lvl qe)) 1)
    (unlimited : s.get (F.AX_CFG_qerr_max n) = 0) : let t := s.quadEdge qe a b
    t.axis n = { s.axis n with a := { (s.axis n).a with illegal := (s.axis n).a.illegal + 1 } } ∧
      t.get (F.AX_ERRCNT_err_cnt n) = min (s.get (F.AX_ERRCNT_err_cnt n) + 1) 65535 ∧
      (t.rd (R.AX_STAT n)).getLsbD 6 = true ∧ SameMemory s t := by
  intro t
  have cfg := s.levelled_cfg qe a b hn
  have src' : (s.levelled qe a b).get (F.AX_CFG_src n) = 1 := (State.get_of_rd cfg).trans src
  have unlimited' : (s.levelled qe a b).get (F.AX_CFG_qerr_max n) = 0 := (State.get_of_rd cfg).trans unlimited
  let counted := ((s.levelled qe a b).setAxis n { s.axis n with a := { (s.axis n).a with illegal := (s.axis n).a.illegal + 1 } }).bump
    (F.AX_ERRCNT_err_cnt n)
  have result : t = counted.axFlag n 6 1 (0x20 + qe) := by
    unfold t
    rw [State.quadEdge_single hn used src alone, quadStep_of_both ha hb,
      State.quadOn_illegal ((State.usesQuad_congr cfg qe).mpr used) src', State.illegalA_unlimited _ _ _ unlimited']
    rfl
  have apart : ¬ flagReg n (R.AX_ERRCNT n) := by
    unfold flagReg offPage R.AX_ERRCNT R.AX_STAT
    omega
  have before : (s.levelled qe a b).get (F.AX_ERRCNT_err_cnt n) = s.get (F.AX_ERRCNT_err_cnt n) :=
    State.get_of_rd (s.levelled_rd qe a b (axisPage_ne_quad (offset := 0x34) hn (by decide) qe))
  rw [result]
  refine ⟨?_, ?_, State.axFlag_set _ hn (by decide) _ _, ?_⟩
  · rw [State.axFlag_axis]
    exact (State.axis_set _ _ _ n).trans (State.axis_setAxis_same _ _ _)
  · rw [(State.axFlag_frame counted n (by decide) 1 (0x20 + qe)).get (F.AX_ERRCNT_err_cnt n) apart,
      State.get_bump_same _ (Nat.zero_le _) (show 15 < 32 by decide)]
    exact congrArg (fun x => min (x + 1) (2 ^ (15 + 1 - 0) - 1)) before
  · have wrote : Calm s counted := ((s.levelled_calm qe a b).trans (State.setAxis_calm _ n _)).trans (State.set_calm _ _ _)
    exact (wrote.trans (counted.axFlag_calm n 6 1 (0x20 + qe))).mem

end

/-! ### An index -/

/-- An axis whose side A does not use an input, or that is not valid, does not see its index. -/
theorem State.indexOn_other {s : State} {k qe : Nat} (h : (s.axis k).valid = false ∨ s.get (F.AX_CFG_sel_a k) ≠ qe) : s.indexOn qe k = s := by
  unfold State.indexOn
  extract_lets src a l mine qual mode
  have notMine : mine = false := by
    rcases h with invalid | other
    · simp only [mine, a, invalid, Bool.and_false]
    · simp only [mine, beq_eq_false_iff_ne.mpr other, Bool.and_false, Bool.false_and]
  simp only [notMine, Bool.false_and, Bool.false_eq_true, if_false]

/-- With zmode 1 and no qualification an index captures the count and is flagged, no more (R95). -/
theorem State.indexOn_capture {s : State} {n qe : Nat} (valid : (s.axis n).valid = true)
    (src : s.get (F.AX_CFG_src n) = 1 ∨ s.get (F.AX_CFG_src n) = 5) (sel : s.get (F.AX_CFG_sel_a n) = qe)
    (unqualified : s.flag (F.AX_ZCTL_zqual_en n) = false) (mode : s.get (F.AX_ZCTL_zmode n) = 1) :
    s.indexOn qe n = (s.setAxis n { s.axis n with zcap := (s.axis n).a.count }).axFlag n 9 0 n := by
  have mine : (s.get (F.AX_CFG_src n) == 1 || s.get (F.AX_CFG_src n) == 5) = true := by simpa using src
  unfold State.indexOn
  simp only [mine, sel, valid, unqualified, mode, beq_self_eq_true, Bool.and_self, Bool.not_false, Bool.true_or, if_true, Nat.reduceBEq,
    Nat.reduceBNe, Bool.false_and, Bool.false_eq_true, if_false]

/-- An index of an input that no other valid axis uses as side A. -/
theorem State.zIndex_capture {s : State} {n qe : Nat} (hn : n < 8) (valid : (s.axis n).valid = true)
    (src : s.get (F.AX_CFG_src n) = 1 ∨ s.get (F.AX_CFG_src n) = 5) (sel : s.get (F.AX_CFG_sel_a n) = qe)
    (others : ∀ k < 8, k ≠ n → (s.axis k).valid = false ∨ s.get (F.AX_CFG_sel_a k) ≠ qe)
    (unqualified : s.flag (F.AX_ZCTL_zqual_en n) = false) (mode : s.get (F.AX_ZCTL_zmode n) = 1)
    (low : natBit (s.get (F.QE_CFG_lvl qe)) 2 = s.flag (F.QE_CFG_zinv qe)) : let t := s.zIndex qe (!s.flag (F.QE_CFG_zinv qe))
    t.axis n = { s.axis n with zcap := (s.axis n).a.count } ∧ (t.rd (R.AX_STAT n)).getLsbD 9 = true ∧ SameMemory s t := by
  intro t
  let u := s.setBit (F.QE_CFG_lvl qe) 2 (!s.flag (F.QE_CFG_zinv qe))
  have rd {offset k : Nat} (ho : offset < 0x100) (hk : k < 8) :
      u.rd (0x40030000 + offset + k * 0x100) = s.rd (0x40030000 + offset + k * 0x100) :=
    State.rd_set_ne _ _ (axisPage_ne_quad hk ho qe)
  have cfg {k : Nat} (hk : k < 8) : u.rd (R.AX_CFG k) = s.rd (R.AX_CFG k) := rd (offset := 0) (by decide) hk
  have zctl : u.rd (R.AX_ZCTL n) = s.rd (R.AX_ZCTL n) := rd (offset := 8) (by decide) hn
  have src' : u.get (F.AX_CFG_src n) = s.get (F.AX_CFG_src n) := State.get_of_rd (cfg hn)
  have sel' {k : Nat} (hk : k < 8) : u.get (F.AX_CFG_sel_a k) = s.get (F.AX_CFG_sel_a k) := State.get_of_rd (cfg hk)
  have captured : u.indexOn qe n = (u.setAxis n { s.axis n with zcap := (s.axis n).a.count }).axFlag n 9 0 n :=
    State.indexOn_capture valid (by rw [src']; exact src) ((sel' hn).trans sel) ((State.flag_of_rd zctl).trans unqualified)
      ((State.get_of_rd zctl).trans mode)
  have step : AxisStep n u (u.indexOn qe n) := by
    rw [captured]
    exact (u.setAxis_step n _).trans (State.axFlag_step _ n (by decide) _ _)
  have edge : t = (List.range 8).foldl (fun u k => u.indexOn qe k) u := by
    unfold t State.zIndex
    rw [low]
    exact if_pos (by cases s.flag (F.QE_CFG_zinv qe) <;> rfl)
  have result : t = u.indexOn qe n := by
    rw [edge]
    refine foldl_range_at (I := fun v => ∀ k < 8, k ≠ n → v.axis k = s.axis k ∧ v.rd (R.AX_CFG k) = s.rd (R.AX_CFG k))
      (fun k hk _ => ⟨rfl, cfg hk⟩)
      (fun k hk hne => ⟨step.axis k hne, (step.rd _ (not_axisStepReg_cfg n hk)).trans (cfg hk)⟩) hn (fun v k hv hk hne => ?_)
    obtain ⟨axis, same⟩ := hv k hk hne
    refine State.indexOn_other ?_
    rw [axis, State.get_of_rd (f := F.AX_CFG_sel_a k) same]
    exact others k hk hne
  rw [result, captured]
  refine ⟨?_, State.axFlag_set _ hn (by decide) _ _, ?_⟩
  · rw [State.axFlag_axis]
    exact State.axis_setAxis_same _ _ _
  · exact (((s.set_calm _ _).trans (u.setAxis_calm n _)).trans (State.axFlag_calm _ n 9 0 n)).mem

/-! ### Step pacing, virtual axes and loads -/

/-- The axis whose pending pulses of one direction are handed over. -/
def Axis.handedOver (a : Axis) (rev : Bool) : Axis := if rev then { a with revPulses := 0 } else { a with fwdPulses := 0 }

/-- A handover of a step-paced axis counts its pending pulses of the direction, and leaves none (R101). -/
theorem State.handover_counts {s : State} {n : Nat} (rev : Bool) (valid : (s.axis n).valid = true) (en : s.flag (F.AX_CFG_en n) = true)
    (src : s.get (F.AX_CFG_src n) = 3) : let k : Int := if rev then (s.axis n).revPulses else (s.axis n).fwdPulses
    let t := s.handover n rev
    0 < k → Counts n (if rev != s.flag (F.AX_CFG_dir_inv n) then -k else k) s.uptime s t ∧
      (if rev then (t.axis n).revPulses else (t.axis n).fwdPulses) = 0 := by
  intro k t hk
  let u := s.setAxis n ((s.axis n).handedOver rev)
  let d0 : Int := if rev then -k else k
  have hd : d0 ≠ 0 := by unfold d0; split <;> omega
  have at_n : u.axis n = (s.axis n).handedOver rev := State.axis_setAxis_same _ _ _
  have valid' : (u.axis n).valid = true := by
    rw [at_n]
    cases rev <;> exact valid
  have result : t = u.countChange n d0 s.uptime := by
    unfold t State.handover
    simp only [en, src, beq_self_eq_true, Bool.and_self, if_true]
    cases rev <;> rfl
  have direction : u.directed n d0 = if rev != s.flag (F.AX_CFG_dir_inv n) then -k else k := by
    change (if s.flag (F.AX_CFG_dir_inv n) then -d0 else d0) = _
    unfold d0
    cases rev <;> cases s.flag (F.AX_CFG_dir_inv n) <;> simp
  have counts := u.countChange_counts n s.uptime valid' hd
  obtain ⟨-, forward, reverse⟩ := u.countChange_kept n s.uptime valid' hd
  rw [direction] at counts
  rw [result]
  refine ⟨counts.congr ?_ ?_ ?_ ?_ (fun j hj => s.axis_setAxis_ne _ hj) rfl, ?_⟩
  iterate 4 rw [at_n]; cases rev <;> rfl
  rw [forward, reverse, at_n]
  cases rev <;> rfl

/-- A carry or borrow of a virtual axis is one count (R102). -/
theorem State.virtualCarry_counts {s : State} {n : Nat} (borrow : Bool) (valid : (s.axis n).valid = true)
    (en : s.flag (F.AX_CFG_en n) = true) (src : s.get (F.AX_CFG_src n) = 4) (timebase : s.flag F.PTP_STAT_stat = true) :
    Counts n (if borrow then -1 else 1) s.uptime s (s.virtualCarry n borrow) := by
  have hd : (if borrow != s.flag (F.AX_CFG_dir_inv n) then -1 else 1 : Int) ≠ 0 := by split <;> decide
  have direction : s.directed n (if borrow != s.flag (F.AX_CFG_dir_inv n) then -1 else 1) = if borrow then -1 else 1 := by
    unfold State.directed
    cases borrow <;> cases s.flag (F.AX_CFG_dir_inv n) <;> rfl
  have counts := s.countChange_counts n s.uptime valid hd
  rw [direction] at counts
  unfold State.virtualCarry
  simp only [en, src, timebase, beq_self_eq_true, Bool.and_self, if_true]
  exact counts

/-- A position load that is accepted (R106, R118). -/
theorem State.loadPosition_accepted {s : State} {n : Nat} (v : W32) (free : s.axisCanFire n = false) : let t := (s.loadPosition n v).2
    t.axis n = { s.axis n with a := { (s.axis n).a with count := v }, sillF := countPos v, sillR := countPos v, b :=
      { (s.axis n).b with count := (s.axis n).b.count + (v - (s.axis n).a.count) } } := by
  intro t
  have dropped : (s.dropUnconfirmed n).axis n = s.axis n := (s.dropUnconfirmed_axesAside n).axis_eq n
  unfold t State.loadPosition
  simp only [free, Bool.false_eq_true, if_false]
  rw [(State.queueCancel_axesAside _ n 1 _).axis_eq n, State.axis_setAxis_same, dropped]

theorem State.loadPosition_refused {s : State} {n : Nat} (v : W32) (fires : s.axisCanFire n = true) :
    (s.loadPosition n v).2 = s.axFlag n 10 0 n := by
  unfold State.loadPosition
  rw [if_pos fires]

/-- Arming writes AXn_ZCTL, with the arm bit set and zmode as written (R95). -/
theorem State.zctlWrite_armed (s : State) (n : Nat) (v : W32) : let t := s.zctlWrite n (putBits v 31 31 1)
    t = s.wr (R.AX_ZCTL n) (t.rd (R.AX_ZCTL n)) ∧ t.get (F.AX_ZCTL_arm n) = 1 ∧ t.get (F.AX_ZCTL_zmode n) = (v.extractLsb' 0 2).toNat := by
  intro t
  have armed : t = s.wr (R.AX_ZCTL n) (putBits (putBits v 31 31 1 &&& 0x3B) 31 31 1) := by
    unfold t State.zctlWrite
    simp only [bitsOf_putBits v 31 31 1 (by decide) (by decide), Nat.add_sub_cancel_left, Nat.pow_one, Nat.reduceMod, beq_self_eq_true,
      Bool.or_true, if_true]
  have stored : t.rd (R.AX_ZCTL n) = putBits (putBits v 31 31 1 &&& 0x3B) 31 31 1 := by rw [armed, State.rd_wr_same]
  refine ⟨by rw [stored]; exact armed, ?_, ?_⟩
  · change bitsOf (t.rd (R.AX_ZCTL n)) 31 31 = 1
    rw [stored, bitsOf_putBits _ _ _ _ (by decide) (by decide)]
    rfl
  · change bitsOf (t.rd (R.AX_ZCTL n)) 1 0 = _
    rw [stored]
    refine Nat.eq_of_testBit_eq (fun k => ?_)
    rw [bitsOf_testBit, putBits_testBit _ _ _ _ _ (by decide) (by decide), BitVec.toNat_and, Nat.testBit_and,
      putBits_testBit _ _ _ _ _ (by decide) (by decide), BitVec.testBit_toNat, BitVec.testBit_toNat, BitVec.testBit_toNat,
      BitVec.getLsbD_extractLsb']
    match k with
    | 0 => simp
    | 1 => simp
    | k + 2 => simp

/-! ### The statement -/

/-- Inside the eddy window a single count turns no axis. -/
theorem Axis.not_turns_of_window {a : Axis} {eddy : Nat} {d : Int} (single : d = 1 ∨ d = -1)
    (window : a.a.rev = decide (d < 0) ∨
      (if d < 0 then (a.sillF - countPos (a.a.count - 1)).toInt else (countPos (a.a.count + 1) - a.sillR).toInt) ≤ eddy * 256) :
    a.turns eddy d = false := by
  rw [Axis.turns_eq]
  rcases window with along | inside
  · simp [along]
  · rcases single with rfl | rfl
    · cases rev : a.a.rev with
      | false => simp
      | true => simpa using inside
    · cases rev : a.a.rev with
      | false => simpa [sub_eq_add_neg] using inside
      | true => simp

/-- Settles O44: each input is one pass over the axes of which one acts, and each count is `State.countChange_counts`. -/
theorem positionInputResults : Obligations.PositionInputResults := by
  intro n s valid inv
  have hn := n.isLt
  refine ⟨fun qe a b used src alone => ?quad, ?index, ?pulses, ?carry, ?load, ?refused, ?arm⟩
  case quad =>
    intro l move fwd back d te out
    refine ⟨fun legal window => ?_, fun ha hb unlimited => ?_⟩
    · have legal' : (natBit l 0, natBit l 1, a, b) ∈ forwardMoves ∨ (natBit l 0, natBit l 1, a, b) ∈ reverseMoves := legal
      let d0 : Int := if (natBit l 0, natBit l 1, a, b) ∈ forwardMoves then 1 else -1
      have step : quadStep (natBit l 0) (natBit l 1) a b = some d0 := quadStep_of_move legal'
      have direction : s.directed n d0 = d := by
        change (if inv then -(if move ∈ fwd then 1 else -1 : Int) else if move ∈ fwd then 1 else -1) = d
        unfold d
        by_cases forward : move ∈ fwd <;> cases inv <;> simp [forward]
      have single : d = 1 ∨ d = -1 := by unfold d; split <;> simp
      have counts := State.quadEdge_counts hn valid used src alone step (by unfold d0; split <;> decide)
        (by rw [direction]; exact Axis.not_turns_of_window single window)
      rw [direction] at counts
      exact ⟨_, rfl, counts⟩
    · exact ⟨_, rfl, State.quadEdge_illegal hn used src alone ha hb unlimited⟩
  case index =>
    intro qe src sel others unqualified mode low
    exact ⟨_, rfl, State.zIndex_capture hn valid src sel others unqualified mode low⟩
  case pulses =>
    intro rev k en src hk
    exact ⟨_, rfl, State.handover_counts rev valid en src hk⟩
  case carry =>
    intro borrow en src timebase
    exact ⟨_, rfl, State.virtualCarry_counts borrow valid en src timebase⟩
  case load =>
    intro v free
    refine ⟨_, rfl, ?_⟩
    dsimp only
    rw [State.loadPosition_accepted v free]
    exact ⟨rfl, rfl, rfl, add_sub_cancel_left _ _, rfl⟩
  case refused =>
    intro v fires
    refine ⟨_, congrArg Host.Outcome.next (State.loadPosition_refused v fires), ?_⟩
    exact ⟨s.axFlag_axes n 10 0 n, State.axFlag_set s hn (by decide) 0 n, (s.axFlag_calm n 10 0 n).mem⟩
  case arm =>
    intro v
    exact ⟨_, rfl, s.zctlWrite_armed n v⟩

end Sys2Proof.Machine
end

section
/-! SUPPORT. Serial encoder frames that fail: one pass over the axes of an input, and what a failing frame leaves (R97 to R100, R103). -/

namespace Sys2Proof.Machine

/-! ### One pass over the axes of an input -/

/-- Nothing of axis `k` changes. -/
abbrev Elsewhere (k : Nat) (s t : State) : Prop := AxisFrame (· ≠ k) (fun a => ∃ j, j ≠ k ∧ axisStepReg j a) s t

theorem not_elsewhere_errcnt {k : Nat} (hk : k < 8) : ¬ ∃ j, j ≠ k ∧ axisStepReg j (R.AX_ERRCNT k) := by
  rintro ⟨j, hj, (off | stat) | count | zero | one⟩
  · unfold offPage R.AX_ERRCNT at off
    omega
  all_goals
    simp only [R.AX_ERRCNT, R.AX_STAT, R.EO_STAT] at *
    omega

/-- In a pass of steps, one for each axis of a list, axis `k` sees its own step alone. -/
theorem foldl_step_at {f : State → Nat → State} (step : ∀ u k, AxisStep k u (f u k)) {l : List Nat} {k : Nat} (nodup : l.Nodup) (hk : k ∈ l)
    (s : State) : ∃ u, Elsewhere k s u ∧ Elsewhere k (f u k) (l.foldl f s) := by
  obtain ⟨before, after, rfl⟩ := List.append_of_mem hk
  rw [List.nodup_append] at nodup
  obtain ⟨-, nodup, apart⟩ := nodup
  have others (l' : List Nat) (hl : ∀ j ∈ l', j ≠ k) (v : State) : Elsewhere k v (l'.foldl f v) :=
    AxisFrame.foldl l' v (fun j hj w => (step w j).mono (fun _ e => e ▸ hl j hj) (fun _ ha => ⟨j, hl j hj, ha⟩))
  refine ⟨before.foldl f s, others before (fun j hj => apart j hj k (by simp)) s, ?_⟩
  rw [List.foldl_append, List.foldl_cons]
  exact others after (fun j hj e => (List.nodup_cons.mp nodup).1 (e ▸ hj)) _

/-- The registers that steps of the eight axes may write. -/
def axesReg (a : Nat) : Prop := ∃ k < 8, axisStepReg k a

theorem foldl_step_frame {f : State → Nat → State} (step : ∀ u k, AxisStep k u (f u k)) (l : List Nat) (hl : ∀ k ∈ l, k < 8) (s : State) :
    AxisFrame (fun _ => True) axesReg s (l.foldl f s) :=
  AxisFrame.foldl l s (fun k hk u => (step u k).mono (fun _ _ => trivial) (fun _ ha => ⟨k, hl k hk, ha⟩))

/-- The registers of a serial input are none of an axis's. -/
theorem not_axesReg_serial {a : Nat} (low : 0x40030800 ≤ a) (high : a < 0x40030880) : ¬ axesReg a := by
  rintro ⟨k, hk, (off | rfl) | rfl | rfl | rfl⟩
  · unfold offPage at off
    omega
  all_goals
    simp only [R.AX_STAT, R.AX_ERRCNT, R.EO_STAT] at *
    omega

theorem State.mem_serialAxes {s : State} {n k : Nat} (h : k ∈ s.serialAxes n) : k < 8 := List.mem_range.mp (List.mem_of_mem_filter h)

theorem State.serialAxes_nodup (s : State) (n : Nat) : (s.serialAxes n).Nodup := List.nodup_range.filter _

/-- An input is used by the same axes where their configurations are the same. -/
theorem State.serialAxes_congr {s t : State} (h : ∀ k < 8, t.rd (R.AX_CFG k) = s.rd (R.AX_CFG k)) (n : Nat) :
    t.serialAxes n = s.serialAxes n := by
  unfold State.serialAxes
  refine List.filter_congr (fun k hk => ?_)
  have cfg := h k (List.mem_range.mp hk)
  rw [State.flag_of_rd (f := F.AX_CFG_en k) cfg, State.get_of_rd (f := F.AX_CFG_src k) cfg, State.get_of_rd (f := F.AX_CFG_sel_a k) cfg]

/-! ### One axis of a failing frame -/

/-- What a failing frame does to one axis: counted, flagged, and the axis lost after the third in a row. -/
def State.axisFails (s : State) (k cause slice : Nat) (lose : Bool) : State :=
  let v := (s.bump (F.AX_ERRCNT_err_cnt k)).axFlag k 6 cause slice
  if lose then v.axisLost k cause slice else v

theorem State.axisFails_step (s : State) (k cause slice : Nat) (lose : Bool) : AxisStep k s (s.axisFails k cause slice lose) := by
  have flagged : AxisStep k s ((s.bump (F.AX_ERRCNT_err_cnt k)).axFlag k 6 cause slice) :=
    (s.bumpErrors_step k).trans (State.axFlag_step _ k (by decide) _ _)
  cases lose with
  | true => exact flagged.trans (State.axisLost_step _ k _ _)
  | false => exact flagged

theorem State.axisFails_flag (s : State) {k : Nat} (hk : k < 8) (cause slice : Nat) (lose : Bool) :
    ((s.axisFails k cause slice lose).rd (R.AX_STAT k)).getLsbD 6 = true := by
  have flagged := (s.bump (F.AX_ERRCNT_err_cnt k)).axFlag_set hk (b := 6) (by decide) cause slice
  cases lose with
  | true => exact (State.axisLost_step _ k cause slice).flags k hk 6 flagged
  | false => exact flagged

/-- Before the third failure the axis stays as it is. -/
theorem State.axisFails_axis (s : State) (k cause slice : Nat) : (s.axisFails k cause slice false).axis k = s.axis k :=
  (State.axFlag_axis _ k 6 cause slice k).trans (State.axis_set _ _ _ k)

theorem State.axisFails_errors (s : State) {k : Nat} (hk : k < 8) (cause slice : Nat) :
    (s.axisFails k cause slice false).get (F.AX_ERRCNT_err_cnt k) = min (s.get (F.AX_ERRCNT_err_cnt k) + 1) 65535 := by
  have apart : ¬ flagReg k (R.AX_ERRCNT k) := by
    unfold flagReg offPage R.AX_ERRCNT R.AX_STAT
    omega
  rw [show s.axisFails k cause slice false = (s.bump (F.AX_ERRCNT_err_cnt k)).axFlag k 6 cause slice from rfl,
    (State.axFlag_frame _ k (by decide) cause slice).get (F.AX_ERRCNT_err_cnt k) apart]
  exact State.get_bump_same _ (Nat.zero_le _) (show 15 < 32 by decide)

/-- An axis that enters OFF or LOST keeps its count (R104). -/
theorem State.axisInvalid_axis (s : State) (n : Nat) (st : AxState) : (s.axisInvalid n st).axis n =
    { s.axis n with st := st, a := { (s.axis n).a with spdValid := false, moving := false, hist := [] } } := by
  unfold State.axisInvalid
  extract_lets a m t
  exact ((t.invalidQueues_axesAside n).axis_eq n).trans (State.axis_setAxis_same _ _ _)

/-- At the third failure in a row an axis that is valid or acquiring is lost, with the count it has (R100). -/
theorem State.axisFails_lost (s : State) (k cause slice : Nat) (h : (s.axis k).valid = true ∨ (s.axis k).st = .acquire) :
    let t := s.axisFails k cause slice true
    (t.axis k).st = .lost ∧ (t.axis k).a.count = (s.axis k).a.count := by
  intro t
  let v := (s.bump (F.AX_ERRCNT_err_cnt k)).axFlag k 6 cause slice
  have before : v.axis k = s.axis k := s.axisFails_axis k cause slice
  have leaves : ((v.axis k).valid || (v.axis k).st == .acquire) = true := by
    rw [before]
    simpa using h
  have lost : t = (v.axisInvalid k .lost).axFlag k 5 cause slice := if_pos leaves
  rw [lost, State.axFlag_axis, State.axisInvalid_axis, before]
  exact ⟨rfl, rfl⟩

/-! ### A failing frame -/

/-- A failing frame ended, flagged and counted on its input. -/
def State.failureCounted (s : State) (n statBit : Nat) : State :=
  ({ s with serials := tabPut s.serials n { s.serial n with running := false } }.setBit ⟨R.SE_STAT n, 31, 0⟩ statBit true).bump
    (F.SE_MEAS_consec n)

theorem State.frameFails_eq (s : State) (n statBit cause : Nat) : s.frameFails n statBit cause =
    (s.serialAxes n).foldl (fun u k => u.axisFails k cause (0x28 + n) (decide (3 ≤ (s.failureCounted n statBit).get (F.SE_MEAS_consec n))))
      (s.failureCounted n statBit) := rfl

section
variable (s : State) (n statBit : Nat)

theorem State.failureCounted_rd {a : Nat} (stat : a ≠ R.SE_STAT n) (meas : a ≠ R.SE_MEAS n) : (s.failureCounted n statBit).rd a = s.rd a :=
  (State.rd_set_ne _ _ meas).trans (State.rd_set_ne _ _ stat)

theorem serial_apart : R.SE_STAT n ≠ R.SE_MEAS n := by
  unfold R.SE_STAT R.SE_MEAS
  omega

theorem State.failureCounted_consec : (s.failureCounted n statBit).get (F.SE_MEAS_consec n) = min (s.get (F.SE_MEAS_consec n) + 1) 255 := by
  unfold State.failureCounted
  rw [State.get_bump_same _ (show 8 ≤ 15 by decide) (show 15 < 32 by decide), State.setBit,
    State.get_set_ne _ (f := ⟨R.SE_STAT n, 31, 0⟩) _ (serial_apart n).symm]
  rfl

theorem State.failureCounted_stat (h : statBit < 32) (j : Nat) : ((s.failureCounted n statBit).rd (R.SE_STAT n)).getLsbD j =
    (decide (j = statBit) || (s.rd (R.SE_STAT n)).getLsbD j) := by
  unfold State.failureCounted
  rw [State.bump, State.bumpBy, State.rd_set_ne _ _ (serial_apart n), State.setBit_getLsbD _ _ h]
  rfl

theorem State.failureCounted_running : ((s.failureCounted n statBit).serial n).running = false :=
  congrArg SerialIn.running (tabGet_put_same _ _ _ _)

end

/-- What the statement asks of a frame of input `n` that fails with flag `b` of SEn_STAT. -/
def FrameFailed (n b : Nat) (s t : State) : Prop :=
  (t.serial n).running = false ∧
  (s.get (F.SE_MEAS_consec n) < 2 → t.get (F.SE_MEAS_consec n) = s.get (F.SE_MEAS_consec n) + 1 ∧ (t.rd (R.SE_STAT n)).getLsbD b = true ∧
    ∀ k ∈ s.serialAxes n, t.axis k = s.axis k ∧ (t.rd (R.AX_STAT k)).getLsbD 6 = true ∧
      t.get (F.AX_ERRCNT_err_cnt k) = min (s.get (F.AX_ERRCNT_err_cnt k) + 1) 65535) ∧
  (2 ≤ s.get (F.SE_MEAS_consec n) → ∀ k ∈ s.serialAxes n, (s.axis k).valid = true ∨ (s.axis k).st = .acquire →
    (t.axis k).st = .lost ∧ (t.axis k).a.count = (s.axis k).a.count)

theorem serialRegs_not_axes {n : Nat} (hn : n < 2) : ¬ axesReg (R.SE_STAT n) ∧ ¬ axesReg (R.SE_MEAS n) := by
  constructor
  · exact not_axesReg_serial (by unfold R.SE_STAT; omega) (by unfold R.SE_STAT; omega)
  · exact not_axesReg_serial (by unfold R.SE_MEAS; omega) (by unfold R.SE_MEAS; omega)

section
variable (s : State) {n statBit : Nat} (hn : n < 2) (hb : statBit < 32) (cause : Nat)

/-- After the frame is counted only the axes of the input and their registers change. -/
theorem State.frameFails_frame : AxisFrame (fun _ => True) axesReg (s.failureCounted n statBit) (s.frameFails n statBit cause) := by
  rw [State.frameFails_eq]
  exact foldl_step_frame (fun u k => u.axisFails_step k _ _ _) _ (fun k hk => State.mem_serialAxes hk) _

include hn hb

theorem State.frameFails_stat (j : Nat) : ((s.frameFails n statBit cause).rd (R.SE_STAT n)).getLsbD j =
    (decide (j = statBit) || (s.rd (R.SE_STAT n)).getLsbD j) := by
  rw [(s.frameFails_frame cause).rd _ (serialRegs_not_axes hn).1, s.failureCounted_stat n statBit hb]

/-- What a failing frame leaves (R97 to R100). -/
theorem State.frameFails_failed : FrameFailed n statBit s (s.frameFails n statBit cause) := by
  have frame := s.frameFails_frame (n := n) (statBit := statBit) cause
  have consec : (s.frameFails n statBit cause).get (F.SE_MEAS_consec n) = min (s.get (F.SE_MEAS_consec n) + 1) 255 :=
    (frame.get (F.SE_MEAS_consec n) (serialRegs_not_axes hn).2).trans (s.failureCounted_consec n statBit)
  have own {k : Nat} (hk : k ∈ s.serialAxes n) := foldl_step_at
    (f := fun u k => u.axisFails k cause (0x28 + n) (decide (3 ≤ (s.failureCounted n statBit).get (F.SE_MEAS_consec n))))
    (fun u k => u.axisFails_step k _ _ _) (s.serialAxes_nodup n) hk (s.failureCounted n statBit)
  refine ⟨?running, fun few => ⟨by omega, by simp [s.frameFails_stat hn hb], fun k hk => ?stays⟩, fun many k hk active => ?lost⟩
  case running =>
    rw [State.serial, frame.serials]
    exact s.failureCounted_running n statBit
  case stays =>
    have k_lt := State.mem_serialAxes hk
    obtain ⟨u, before, after⟩ := own hk
    have keeps : decide (3 ≤ (s.failureCounted n statBit).get (F.SE_MEAS_consec n)) = false := by
      rw [s.failureCounted_consec]
      exact decide_eq_false (by omega)
    rw [keeps] at after
    have counted : (s.failureCounted n statBit).rd (R.AX_ERRCNT k) = s.rd (R.AX_ERRCNT k) :=
      s.failureCounted_rd n statBit (by unfold R.AX_ERRCNT R.SE_STAT; omega) (by unfold R.AX_ERRCNT R.SE_MEAS; omega)
    rw [State.frameFails_eq, keeps]
    refine ⟨?_, after.flags k k_lt 6 (u.axisFails_flag k_lt _ _ _), ?_⟩
    · exact (after.axis k (fun h => h rfl)).trans ((u.axisFails_axis k _ _).trans (before.axis k (fun h => h rfl)))
    · rw [after.get (F.AX_ERRCNT_err_cnt k) (not_elsewhere_errcnt k_lt), u.axisFails_errors k_lt,
        before.get (F.AX_ERRCNT_err_cnt k) (not_elsewhere_errcnt k_lt), State.get_of_rd (f := F.AX_ERRCNT_err_cnt k) counted]
  case lost =>
    obtain ⟨u, before, after⟩ := own hk
    have loses : decide (3 ≤ (s.failureCounted n statBit).get (F.SE_MEAS_consec n)) = true := by
      rw [s.failureCounted_consec]
      exact decide_eq_true (by omega)
    rw [loses] at after
    have same : u.axis k = s.axis k := before.axis k (fun h => h rfl)
    rw [State.frameFails_eq, loses, after.axis k (fun h => h rfl), ← same]
    exact u.axisFails_lost k _ _ (by rw [same]; exact active)

end

/-- A failure from a state whose axes, their error counts and the failures in a row are as in another is one from that other. -/
theorem FrameFailed.congr {n b : Nat} {s u t : State} (h : FrameFailed n b u t) (axes : u.serialAxes n = s.serialAxes n)
    (axis : ∀ k, u.axis k = s.axis k) (consec : u.get (F.SE_MEAS_consec n) = s.get (F.SE_MEAS_consec n))
    (errors : ∀ k < 8, u.get (F.AX_ERRCNT_err_cnt k) = s.get (F.AX_ERRCNT_err_cnt k)) : FrameFailed n b s t := by
  unfold FrameFailed at h ⊢
  simp only [axes, axis, consec] at h
  obtain ⟨running, stays, lost⟩ := h
  refine ⟨running, fun few => ?_, lost⟩
  obtain ⟨counted, flagged, each⟩ := stays few
  refine ⟨counted, flagged, fun k hk => ?_⟩
  rw [← errors k (State.mem_serialAxes hk)]
  exact each k hk

end Sys2Proof.Machine
end

section
/-! SUPPORT. The checks of a serial frame, the axis that takes a good one, and the statement on serial frames (R96 to R100, R103). -/

namespace Sys2Proof.Machine

/-! ### The checks of a frame -/

/-- Parity of a frame's data bits is wrong (R97). -/
def State.parityFails (s : State) (n : Nat) (f : SerialFrame) : Bool :=
  let ones := countBits (s.frameBits n) (f.data.toNat % 2 ^ s.frameBits n)
  let par := s.get (F.SE_CFG_par n)
  s.get (F.SE_CFG_proto n) ≤ 1 && ((par == 1 && (ones % 2 == 1) != f.parity) || (par == 2 && (ones % 2 == 0) != f.parity))

/-- The check sum of a BiSS frame is wrong (R98). -/
def State.crcFails (s : State) (n : Nat) (f : SerialFrame) : Bool :=
  s.get (F.SE_CFG_proto n) == 2 &&
    f.crc.toNat != 63 - crc6 (msbBits (s.frameBits n) (f.data.toNat % 2 ^ s.frameBits n) ++ [f.nE, f.nW]) 0

/-- The raw value of a frame: Gray code is converted (R97). -/
def State.rawValue (s : State) (n : Nat) (f : SerialFrame) : Nat :=
  let data := f.data.toNat % 2 ^ s.frameBits n
  if s.get (F.SE_CFG_proto n) == 1 then grayToBinary (s.frameBits n) data 0 else data

/-- A BiSS frame's line delay. -/
def State.delayNoted (s : State) (n : Nat) (f : SerialFrame) : State :=
  if s.get (F.SE_CFG_proto n) == 2 then s.set (F.SE_MEAS_ldly n) f.ldly.toNat else s

/-- A BiSS frame's line delay and warning, which a failing frame leaves too (R98). -/
def State.warned (s : State) (n : Nat) (f : SerialFrame) : State :=
  if s.get (F.SE_CFG_proto n) == 2 && !f.nW then
    (s.serialAxes n).foldl (fun v k => v.axFlag k 7 0 (0x28 + n)) ((s.delayNoted n f).set (F.SE_STAT_warn n) 1)
  else s.delayNoted n f

/-- The input after a good frame: its raw value shown, no failure in a row. -/
def State.frameShown (s : State) (n raw : Nat) : State :=
  ({ s with serials := tabPut s.serials n { s.serial n with running := false } }.wr (R.SE_RAW n) (w32 raw)).set (F.SE_MEAS_consec n) 0

theorem State.frameEnd_eq {s : State} {n : Nat} (f : SerialFrame) (running : (s.serial n).running = true) : s.frameEnd n f =
    if s.get (F.SE_CFG_proto n) == 3 then (s.warned n f).frameFails n 5 6
    else if s.parityFails n f then (s.warned n f).frameFails n 2 3
    else if s.crcFails n f then (s.warned n f).frameFails n 3 5
    else if s.get (F.SE_CFG_proto n) == 2 && !f.nE then (s.warned n f).frameFails n 4 4
    else if (s.warned n f).frameJumps n (s.rawValue n f) then (s.warned n f).frameFails n 6 7
    else (s.serialAxes n).foldl (fun v k => v.frameValue n (s.rawValue n f) k) ((s.warned n f).frameShown n (s.rawValue n f)) := by
  unfold State.frameEnd
  rw [if_neg (by simp [running])]
  rfl

/-- Whether an odd number of the low `bits` bits are set. -/
theorem countBits_odd (bits data : Nat) : (countBits bits data % 2 == 1) =
    decide (((List.range bits).filter data.testBit).length % 2 = 1) := by
  rw [countBits, show natBit data = data.testBit from funext (natBit_eq data)]
  rfl

theorem State.parityFails_iff (s : State) (n : Nat) (f : SerialFrame) :
    let odd := decide (((List.range (s.frameBits n)).filter (f.data.toNat % 2 ^ s.frameBits n).testBit).length % 2 = 1)
    s.parityFails n f = true ↔ s.get (F.SE_CFG_proto n) ≤ 1 ∧
      (s.get (F.SE_CFG_par n) = 1 ∧ f.parity ≠ odd ∨ s.get (F.SE_CFG_par n) = 2 ∧ f.parity = odd) := by
  intro odd
  have even : (countBits (s.frameBits n) (f.data.toNat % 2 ^ s.frameBits n) % 2 == 0) = !odd := by
    rw [show odd = _ from (countBits_odd _ _).symm]
    rcases Nat.mod_two_eq_zero_or_one (countBits (s.frameBits n) (f.data.toNat % 2 ^ s.frameBits n)) with h | h <;> rw [h] <;> rfl
  unfold State.parityFails
  simp only [countBits_odd, even, Bool.and_eq_true, Bool.or_eq_true, decide_eq_true_eq, beq_iff_eq, bne_iff_ne]
  change _ ∧ (_ ∧ odd ≠ f.parity ∨ _ ∧ (!odd) ≠ f.parity) ↔ _
  cases odd <;> cases f.parity <;> simp

theorem State.parityFails_of_biss (s : State) (n : Nat) (f : SerialFrame) (h : s.get (F.SE_CFG_proto n) = 2) : ¬ s.parityFails n f = true := by
  intro bad
  have := ((s.parityFails_iff n f).mp bad).1
  omega

theorem State.crcFails_iff (s : State) (n : Nat) (f : SerialFrame) :
    s.crcFails n f = true ↔ s.get (F.SE_CFG_proto n) = 2 ∧ f.crc.toNat ≠ 63 - crc6 ((List.range (s.frameBits n)).reverse.map
      (f.data.toNat % 2 ^ s.frameBits n).testBit ++ [f.nE, f.nW]) 0 := by
  rw [← show natBit (f.data.toNat % 2 ^ s.frameBits n) = _ from funext (natBit_eq _)]
  unfold State.crcFails msbBits
  simp only [Bool.and_eq_true, beq_iff_eq, bne_iff_ne]

/-! ### Warnings -/

/-- The registers that a line delay and a warning of input `n` may write. -/
def warnReg (n a : Nat) : Prop := a = R.SE_MEAS n ∨ a = R.SE_STAT n ∨ ∃ k < 8, flagReg k a

theorem not_warnReg {n a : Nat} (low : 0x40030000 ≤ a) (high : a < 0x40040000) (meas : a ≠ R.SE_MEAS n) (stat : a ≠ R.SE_STAT n)
    (flags : ∀ k < 8, a ≠ R.AX_STAT k) : ¬ warnReg n a := by
  rintro (e | e | ⟨k, hk, off | e⟩)
  · exact meas e
  · exact stat e
  · unfold offPage at off
    omega
  · exact flags k hk e

section
variable (s : State) {n : Nat} (f : SerialFrame)

theorem State.serialSet_frame {g : Field} (v : Nat) (h : g.addr = R.SE_MEAS n ∨ g.addr = R.SE_STAT n) :
    AxisFrame (fun _ => False) (warnReg n) s (s.set g v) := by
  have apart {k : Nat} (hk : k < 8) : R.AX_STAT k ≠ g.addr := by
    rcases h with e | e <;> rw [e] <;> simp only [R.AX_STAT, R.SE_MEAS, R.SE_STAT] <;> omega
  refine ⟨fun _ _ => rfl, rfl, fun a ha => State.rd_set_ne _ _ ?_, fun k hk b set => by rwa [State.rd_set_ne _ _ (apart hk)]⟩
  rintro rfl
  exact ha (h.elim Or.inl (fun e => Or.inr (Or.inl e)))

theorem State.delayNoted_frame : AxisFrame (fun _ => False) (warnReg n) s (s.delayNoted n f) := by
  unfold State.delayNoted
  split
  · exact s.serialSet_frame _ (Or.inl rfl)
  · exact AxisFrame.refl _ _ s

theorem State.warned_frame : AxisFrame (fun _ => False) (warnReg n) s (s.warned n f) := by
  unfold State.warned
  split
  · refine ((s.delayNoted_frame f).trans (State.serialSet_frame _ (g := F.SE_STAT_warn n) 1 (Or.inr rfl))).trans
      (AxisFrame.foldl _ _ (fun k hk v => ?_))
    exact (v.axFlag_frame k (by decide) 0 (0x28 + n)).mono (fun _ => id) (fun a ha => Or.inr (Or.inr ⟨k, State.mem_serialAxes hk, ha⟩))
  · exact s.delayNoted_frame f

variable (hn : n < 2)
include hn

/-- A line delay and a warning leave the failures in a row. -/
theorem State.warned_consec : (s.warned n f).get (F.SE_MEAS_consec n) = s.get (F.SE_MEAS_consec n) := by
  have delay : (s.delayNoted n f).get (F.SE_MEAS_consec n) = s.get (F.SE_MEAS_consec n) := by
    unfold State.delayNoted
    split
    · exact State.get_set_disjoint (f := F.SE_MEAS_ldly n) (g := F.SE_MEAS_consec n) s _ rfl (Nat.zero_le _) (show 7 < 32 by decide)
        (Or.inr (show 7 < 8 by decide))
    · rfl
  unfold State.warned
  split
  · have flags : AxisFrame (fun _ => False) axesReg ((s.delayNoted n f).set (F.SE_STAT_warn n) 1)
        ((s.serialAxes n).foldl (fun v k => v.axFlag k 7 0 (0x28 + n)) ((s.delayNoted n f).set (F.SE_STAT_warn n) 1)) :=
      AxisFrame.foldl _ _ (fun k hk v => (v.axFlag_frame k (by decide) 0 (0x28 + n)).mono (fun _ => id)
        (fun a ha => ⟨k, State.mem_serialAxes hk, Or.inl ha⟩))
    rw [flags.get (F.SE_MEAS_consec n) (serialRegs_not_axes hn).2,
      State.get_set_ne _ (f := F.SE_STAT_warn n) (g := F.SE_MEAS_consec n) _ (serial_apart n).symm, delay]
  · exact delay

/-- A warning is flagged on the input and on its axes (R98). -/
theorem State.warned_flags (biss : s.get (F.SE_CFG_proto n) = 2) (warns : f.nW = false) :
    ((s.warned n f).rd (R.SE_STAT n)).getLsbD 0 = true ∧ ∀ k ∈ s.serialAxes n, ((s.warned n f).rd (R.AX_STAT k)).getLsbD 7 = true := by
  let u := (s.delayNoted n f).set (F.SE_STAT_warn n) 1
  have step (v : State) (k : Nat) : AxisStep k v (v.axFlag k 7 0 (0x28 + n)) := v.axFlag_step k (by decide) _ _
  have result : s.warned n f = (s.serialAxes n).foldl (fun v k => v.axFlag k 7 0 (0x28 + n)) u := by
    unfold State.warned
    exact if_pos (by rw [biss, warns]; rfl)
  rw [result]
  refine ⟨?_, fun k hk => ?_⟩
  · rw [(foldl_step_frame step (s.serialAxes n) (fun k hk => State.mem_serialAxes hk) u).rd _ (serialRegs_not_axes hn).1, ← bitsOf_bit]
    exact beq_iff_eq.mpr (State.get_set_same _ (F.SE_STAT_warn n) 1 (Nat.zero_le _) (show 0 < 32 by decide))
  · obtain ⟨v, -, after⟩ := foldl_step_at step (s.serialAxes_nodup n) hk u
    exact after.flags k (State.mem_serialAxes hk) 7 (v.axFlag_set (State.mem_serialAxes hk) (by decide) _ _)

/-- What the checks of a frame read of its input and axes is as before the warning. -/
theorem State.warned_config : let u := s.warned n f
    u.rd (R.SE_CFG n) = s.rd (R.SE_CFG n) ∧ u.rd (R.SE_LIM n) = s.rd (R.SE_LIM n) ∧ (∀ k < 8, u.rd (R.AX_CFG k) = s.rd (R.AX_CFG k)) ∧
      ∀ k < 8, u.rd (R.AX_ERRCNT k) = s.rd (R.AX_ERRCNT k) := by
  have frame := s.warned_frame (n := n) f
  refine ⟨frame.rd _ (not_warnReg ?_ ?_ ?_ ?_ ?_), frame.rd _ (not_warnReg ?_ ?_ ?_ ?_ ?_),
    fun k hk => frame.rd _ (not_warnReg ?_ ?_ ?_ ?_ ?_), fun k hk => frame.rd _ (not_warnReg ?_ ?_ ?_ ?_ ?_)⟩
  all_goals
    simp only [R.SE_CFG, R.SE_LIM, R.AX_CFG, R.AX_ERRCNT, R.SE_MEAS, R.SE_STAT, R.AX_STAT]
    omega

/-- A failure after a warning is one of the frame. -/
theorem State.warned_failed {b : Nat} {t : State} (h : FrameFailed n b (s.warned n f) t) : FrameFailed n b s t := by
  obtain ⟨-, -, cfg, errors⟩ := s.warned_config f hn
  exact h.congr (State.serialAxes_congr cfg n) (fun k => (s.warned_frame f).axis k id) (s.warned_consec f hn)
    (fun k hk => State.get_of_rd (f := F.AX_ERRCNT_err_cnt k) (errors k hk))

end

/-! ### A good frame -/

/-- The difference of two raw values as a signed number of their width (R99). -/
theorem signedOf_difference (w r p : Nat) : signedOf w (r + 2 ^ w - p % 2 ^ w) =
    (let d0 := ((r : Int) - p) % 2 ^ w
     if 2 ^ w ≤ 2 * d0 then d0 - 2 ^ w else d0) := by
  have positive : 0 < 2 ^ w := Nat.two_pow_pos w
  have below : p % 2 ^ w < 2 ^ w := Nat.mod_lt _ positive
  have residue : (((r + 2 ^ w - p % 2 ^ w) % 2 ^ w : Nat) : Int) = ((r : Int) - p) % 2 ^ w := by
    have split : (r : Int) - p = ((r + 2 ^ w - p % 2 ^ w : Nat) : Int) + 2 ^ w * (-(p / 2 ^ w : Nat) - 1) := by
      have whole : (p : Int) = 2 ^ w * (p / 2 ^ w : Nat) + (p % 2 ^ w : Nat) := by exact_mod_cast (Nat.div_add_mod p (2 ^ w)).symm
      rw [Int.ofNat_sub (by omega)]
      push_cast at whole ⊢
      linear_combination -whole
    rw [split, Int.add_mul_emod_self_left]
    push_cast
    rfl
  unfold signedOf
  dsimp only
  rw [← residue]
  have bound : (r + 2 ^ w - p % 2 ^ w) % 2 ^ w < 2 ^ w := Nat.mod_lt _ positive
  generalize (r + 2 ^ w - p % 2 ^ w) % 2 ^ w = m at bound ⊢
  have half : m < 2 ^ (w - 1) ↔ ¬ (2 : Int) ^ w ≤ 2 * m := by
    have cast : (2 : Int) ^ w = ((2 ^ w : Nat) : Int) := by push_cast; rfl
    rw [cast]
    cases w with
    | zero => omega
    | succ w =>
      rw [Nat.add_sub_cancel, pow_succ]
      omega
  by_cases h : m < 2 ^ (w - 1)
  · rw [if_pos h, if_neg (half.mp h)]
  · rw [if_neg h, if_pos (not_not.mp (mt half.mpr h))]
    push_cast
    rfl

section
variable (s : State) (n raw k : Nat)

theorem State.frameValue_step : AxisStep k s (s.frameValue n raw k) := by
  unfold State.frameValue
  extract_lets a w r t
  split
  · split
    · exact (s.setAxis_step k _).trans (t.axisValid_step k)
    · exact s.setAxis_step k _
  · extract_lets d
    exact (s.setAxis_step k _).trans (State.countChange_step _ k _ _)

theorem State.axisValid_axis : (s.axisValid k).axis k =
    { s.axis k with st := .lull, a := { (s.axis k).a with spdValid := true, moving := false, hist := [] } } := by
  unfold State.axisValid
  extract_lets a m t
  rw [State.axFlag_axis, (t.barsRefresh_axesAside k).axis_eq k]
  exact State.axis_setAxis_same _ _ _

/-- The first raw value makes an acquiring axis valid, with the count it has (R99, R103). -/
theorem State.frameValue_first (first : (s.axis k).rPrev = none) (acquires : (s.axis k).st = .acquire) :
    let t := s.frameValue n raw k
    (t.axis k).st = .lull ∧ (t.axis k).rPrev = some (raw / 2 ^ s.get (F.SE_CFG_drop n)) ∧ (t.axis k).a.count = (s.axis k).a.count := by
  intro t
  have result : t = (s.setAxis k { s.axis k with rPrev := some (raw / 2 ^ s.get (F.SE_CFG_drop n)) }).axisValid k := by
    unfold t State.frameValue
    simp only [first, acquires, beq_self_eq_true, if_true]
  rw [result, State.axisValid_axis, State.axis_setAxis_same]
  exact ⟨rfl, rfl, rfl⟩

/-- The difference of a raw value from the one before (R99). -/
def State.frameChange (p : Nat) : Int :=
  let w := s.frameBits n - s.get (F.SE_CFG_drop n)
  signedOf w (raw / 2 ^ s.get (F.SE_CFG_drop n) + 2 ^ w - p % 2 ^ w)

/-- A later raw value counts its difference from the one before, at the frame's latch instant (R99). -/
theorem State.frameValue_later {p : Nat} (later : (s.axis k).rPrev = some p) (valid : (s.axis k).valid = true)
    (moves : s.frameChange n raw p ≠ 0) : let t := s.frameValue n raw k
    Counts k (s.directed k (s.frameChange n raw p)) (s.serial n).latch s t ∧
      (t.axis k).rPrev = some (raw / 2 ^ s.get (F.SE_CFG_drop n)) := by
  intro t
  let u := s.setAxis k { s.axis k with rPrev := some (raw / 2 ^ s.get (F.SE_CFG_drop n)) }
  have at_k : u.axis k = { s.axis k with rPrev := some (raw / 2 ^ s.get (F.SE_CFG_drop n)) } := State.axis_setAxis_same _ _ _
  have result : t = u.countChange k (s.frameChange n raw p) (s.serial n).latch := by
    unfold t State.frameValue
    simp only [later]
    rfl
  have valid' : (u.axis k).valid = true := by
    rw [at_k]
    exact valid
  have counts := u.countChange_counts k (s.serial n).latch valid' moves
  obtain ⟨last, -, -⟩ := u.countChange_kept k (s.serial n).latch valid' moves
  rw [result]
  refine ⟨counts.congr ?_ ?_ ?_ ?_ (fun j hj => s.axis_setAxis_ne _ hj) rfl, ?_⟩
  iterate 4 rw [at_k]
  rw [last, at_k]

/-- With one axis on the input, the first value never jumps. -/
theorem State.frameJumps_first (alone : s.serialAxes n = [k]) (first : (s.axis k).rPrev = none) : s.frameJumps n raw = false := by
  unfold State.frameJumps
  simp only [alone, List.any_cons, List.any_nil, first, Bool.or_false, Bool.and_false]

/-- With one axis on the input, a value jumps that differs by more than the limit, where there is one (R99). -/
theorem State.frameJumps_later {p : Nat} (alone : s.serialAxes n = [k]) (later : (s.axis k).rPrev = some p) :
    s.frameJumps n raw = true ↔ s.get (F.SE_LIM_jlim n) ≠ 0 ∧ s.get (F.SE_LIM_jlim n) < (s.frameChange n raw p).natAbs := by
  unfold State.frameJumps
  simp only [alone, List.any_cons, List.any_nil, later, Bool.or_false, Bool.and_eq_true, bne_iff_ne, decide_eq_true_eq]
  rfl

end

/-! ### The end of a frame -/

theorem SE_apart (n : Nat) : R.SE_RAW n ≠ R.SE_MEAS n ∧ R.SE_CFG n ≠ R.SE_MEAS n ∧ R.SE_CFG n ≠ R.SE_RAW n ∧ R.SE_STAT n ≠ R.SE_RAW n := by
  simp only [R.SE_RAW, R.SE_MEAS, R.SE_CFG, R.SE_STAT]
  omega

section
variable (s : State) {n : Nat} (raw : Nat)

theorem State.frameShown_rd {a : Nat} (value : a ≠ R.SE_RAW n) (meas : a ≠ R.SE_MEAS n) : (s.frameShown n raw).rd a = s.rd a :=
  (State.rd_set_ne _ _ meas).trans (State.rd_wr_ne _ _ value)

theorem State.frameShown_serial : (s.frameShown n raw).serial n = { s.serial n with running := false } := tabGet_put_same _ _ _ _

theorem State.frameShown_consec : (s.frameShown n raw).get (F.SE_MEAS_consec n) = 0 :=
  State.get_set_same _ _ _ (show 8 ≤ 15 by decide) (show 15 < 32 by decide)

theorem State.frameShown_raw : (s.frameShown n raw).rd (R.SE_RAW n) = w32 raw := by
  unfold State.frameShown
  rw [State.rd_set_ne _ _ (SE_apart n).1, State.rd_wr_same]

theorem State.frameShown_page {a : Nat} (high : a < 0x40030800 + n * 0x40) : (s.frameShown n raw).rd a = s.rd a :=
  s.frameShown_rd raw (by unfold R.SE_RAW; omega) (by unfold R.SE_MEAS; omega)

end

section
variable {s : State} {n : Nat} (hn : n < 2) (f : SerialFrame) (running : (s.serial n).running = true)
include hn running

/-- A warning stands whether the frame fails or not (R98). -/
theorem State.frameEnd_warns (biss : s.get (F.SE_CFG_proto n) = 2) (warns : f.nW = false) : let t := s.frameEnd n f
    t.get (F.SE_STAT_warn n) = 1 ∧ ∀ k ∈ s.serialAxes n, (t.rd (R.AX_STAT k)).getLsbD 7 = true := by
  intro t
  obtain ⟨input, axes⟩ := s.warned_flags f hn biss warns
  have failing {b : Nat} (hb : b < 32) (cause : Nat) : (((s.warned n f).frameFails n b cause).rd (R.SE_STAT n)).getLsbD 0 = true ∧
      ∀ k ∈ s.serialAxes n, (((s.warned n f).frameFails n b cause).rd (R.AX_STAT k)).getLsbD 7 = true := by
    refine ⟨by rw [State.frameFails_stat _ hn hb, input, Bool.or_true], fun k hk => ?_⟩
    have k_lt := State.mem_serialAxes hk
    refine ((s.warned n f).frameFails_frame cause).flags k k_lt 7 ?_
    rw [State.failureCounted_rd _ n b (by unfold R.AX_STAT R.SE_STAT; omega) (by unfold R.AX_STAT R.SE_MEAS; omega)]
    exact axes k hk
  have taken (raw : Nat) : let u := (s.serialAxes n).foldl (fun v k => v.frameValue n raw k) ((s.warned n f).frameShown n raw)
      (u.rd (R.SE_STAT n)).getLsbD 0 = true ∧ ∀ k ∈ s.serialAxes n, (u.rd (R.AX_STAT k)).getLsbD 7 = true := by
    have frame := foldl_step_frame (fun v k => v.frameValue_step n raw k) (s.serialAxes n) (fun k hk => State.mem_serialAxes hk)
      ((s.warned n f).frameShown n raw)
    refine ⟨?_, fun k hk => frame.flags k (State.mem_serialAxes hk) 7 ?_⟩
    · rw [frame.rd _ (serialRegs_not_axes hn).1, State.frameShown_rd _ raw (SE_apart n).2.2.2 (serial_apart n)]
      exact input
    · have k_lt := State.mem_serialAxes hk
      rw [State.frameShown_page _ raw (by unfold R.AX_STAT; omega)]
      exact axes k hk
  have flags : (t.rd (R.SE_STAT n)).getLsbD 0 = true ∧ ∀ k ∈ s.serialAxes n, (t.rd (R.AX_STAT k)).getLsbD 7 = true := by
    unfold t
    rw [State.frameEnd_eq f running]
    split
    · exact failing (by decide) 6
    split
    · exact failing (by decide) 3
    split
    · exact failing (by decide) 5
    split
    · exact failing (by decide) 4
    split
    · exact failing (by decide) 7
    · exact taken _
  exact ⟨beq_iff_eq.mp ((bitsOf_bit (t.rd (R.SE_STAT n)) 0).trans flags.1), flags.2⟩

/-- The checks of a frame, in their order: the first that fails fails the frame with its flag. -/
theorem State.frameEnd_reserved (h : s.get (F.SE_CFG_proto n) = 3) : FrameFailed n 5 s (s.frameEnd n f) := by
  rw [State.frameEnd_eq f running, if_pos (beq_iff_eq.mpr h)]
  exact s.warned_failed f hn (State.frameFails_failed _ hn (by decide) 6)

theorem State.frameEnd_parity (h : s.parityFails n f = true) : FrameFailed n 2 s (s.frameEnd n f) := by
  have proto := ((s.parityFails_iff n f).mp h).1
  rw [State.frameEnd_eq f running, if_neg (by rw [beq_iff_eq]; omega), if_pos h]
  exact s.warned_failed f hn (State.frameFails_failed _ hn (by decide) 3)

theorem State.frameEnd_crc (h : s.crcFails n f = true) : FrameFailed n 3 s (s.frameEnd n f) := by
  have proto := ((s.crcFails_iff n f).mp h).1
  rw [State.frameEnd_eq f running, if_neg (by rw [beq_iff_eq]; omega), if_neg (s.parityFails_of_biss n f proto), if_pos h]
  exact s.warned_failed f hn (State.frameFails_failed _ hn (by decide) 5)

theorem State.frameEnd_error (biss : s.get (F.SE_CFG_proto n) = 2) (crc : ¬ s.crcFails n f = true) (error : f.nE = false) :
    FrameFailed n 4 s (s.frameEnd n f) := by
  rw [State.frameEnd_eq f running, if_neg (by rw [beq_iff_eq]; omega), if_neg (s.parityFails_of_biss n f biss), if_neg crc,
    if_pos (by rw [biss, error]; rfl)]
  exact s.warned_failed f hn (State.frameFails_failed _ hn (by decide) 4)

end

/-! ### A good frame of an input with one axis -/

/-- What the checks and the axis read of the input's configuration is the same. -/
theorem State.frameChange_congr {s t : State} {n : Nat} (h : t.rd (R.SE_CFG n) = s.rd (R.SE_CFG n)) (raw p : Nat) :
    t.frameChange n raw p = s.frameChange n raw p := by
  unfold State.frameChange State.frameBits
  rw [State.get_of_rd (f := F.SE_CFG_bits n) h, State.get_of_rd (f := F.SE_CFG_drop n) h]

section
variable {s : State} {n k : Nat} (hn : n < 2) (f : SerialFrame) (running : (s.serial n).running = true)
  (proto : s.get (F.SE_CFG_proto n) ≤ 2) (parity : ¬ s.parityFails n f = true) (crc : ¬ s.crcFails n f = true)
  (clear : s.get (F.SE_CFG_proto n) = 2 → f.nE = true ∧ f.nW = true) (alone : s.serialAxes n = [k])

section
include hn alone

theorem State.warned_alone : (s.warned n f).serialAxes n = [k] :=
  (State.serialAxes_congr (s.warned_config f hn).2.2.1 n).trans alone

/-- The state in which the axis takes a good frame's value. -/
theorem State.shown_same (raw : Nat) : let u := (s.warned n f).frameShown n raw
    u.axis k = s.axis k ∧ (∀ j, u.axis j = s.axis j) ∧ u.rd (R.SE_CFG n) = s.rd (R.SE_CFG n) ∧ u.rd (R.AX_CFG k) = s.rd (R.AX_CFG k) ∧
      u.serial n = { s.serial n with running := false } := by
  intro u
  have k_lt : k < 8 := State.mem_serialAxes (alone ▸ List.mem_singleton.mpr rfl)
  have frame := s.warned_frame (n := n) f
  obtain ⟨input, -, axes, -⟩ := s.warned_config f hn
  refine ⟨frame.axis k id, fun j => frame.axis j id, ?_, ?_, ?_⟩
  · exact (State.frameShown_rd _ raw (SE_apart n).2.2.1 (SE_apart n).2.1).trans input
  · exact (State.frameShown_page _ raw (by unfold R.AX_CFG; omega)).trans (axes k k_lt)
  · have serial : (s.warned n f).serial n = s.serial n := by rw [State.serial, State.serial, frame.serials]
    exact (State.frameShown_serial _ raw).trans (by rw [serial])

/-- Whether a later frame jumps, in terms of the state before it. -/
theorem State.warned_jumps {p : Nat} (later : (s.axis k).rPrev = some p) : (s.warned n f).frameJumps n (s.rawValue n f) = true ↔
    s.get (F.SE_LIM_jlim n) ≠ 0 ∧ s.get (F.SE_LIM_jlim n) < (s.frameChange n (s.rawValue n f) p).natAbs := by
  obtain ⟨input, limit, -, -⟩ := s.warned_config f hn
  rw [State.frameJumps_later _ n _ k (State.warned_alone hn f alone) (by rw [(s.warned_frame f).axis k id]; exact later),
    State.get_of_rd (f := F.SE_LIM_jlim n) limit, State.frameChange_congr input]

end

include running proto parity crc clear alone

/-- Past the other checks the frame jumps, or the axis takes its value. -/
theorem State.frameEnd_checked : s.frameEnd n f =
    if (s.warned n f).frameJumps n (s.rawValue n f) then (s.warned n f).frameFails n 6 7
    else ((s.warned n f).frameShown n (s.rawValue n f)).frameValue n (s.rawValue n f) k := by
  have noError : ¬ (s.get (F.SE_CFG_proto n) == 2 && !f.nE) = true := by
    intro error
    obtain ⟨biss, nE⟩ := Bool.and_eq_true_iff.mp error
    rw [(clear (beq_iff_eq.mp biss)).1] at nE
    cases nE
  rw [State.frameEnd_eq f running, if_neg (by rw [beq_iff_eq]; omega), if_neg parity, if_neg crc, if_neg noError, alone]
  rfl

include hn

/-- The first good frame makes its axis valid (R99, R103). -/
theorem State.frameEnd_first (first : (s.axis k).rPrev = none) (acquires : (s.axis k).st = .acquire) : let t := s.frameEnd n f
    (t.axis k).st = .lull ∧ (t.axis k).rPrev = some (s.rawValue n f / 2 ^ s.get (F.SE_CFG_drop n)) ∧
      (t.axis k).a.count = (s.axis k).a.count ∧ t.rd (R.SE_RAW n) = w32 (s.rawValue n f) ∧ t.get (F.SE_MEAS_consec n) = 0 ∧
      (t.serial n).running = false := by
  intro t
  let u := (s.warned n f).frameShown n (s.rawValue n f)
  obtain ⟨axis, -, input, -, serial⟩ := State.shown_same hn f alone (s.rawValue n f)
  have k_lt : k < 8 := State.mem_serialAxes (alone ▸ List.mem_singleton.mpr rfl)
  have calm : (s.warned n f).frameJumps n (s.rawValue n f) = false :=
    State.frameJumps_first _ n _ k (State.warned_alone hn f alone) (by rw [(s.warned_frame f).axis k id]; exact first)
  have result : t = u.frameValue n (s.rawValue n f) k := by
    unfold t
    rw [State.frameEnd_checked f running proto parity crc clear alone, calm]
    rfl
  have frame : AxisFrame (fun _ => True) axesReg u (u.frameValue n (s.rawValue n f) k) :=
    (u.frameValue_step n _ k).mono (fun _ _ => trivial) (fun _ ha => ⟨k, k_lt, ha⟩)
  have raw_apart : ¬ axesReg (R.SE_RAW n) := not_axesReg_serial (by unfold R.SE_RAW; omega) (by unfold R.SE_RAW; omega)
  obtain ⟨st, last, count⟩ := u.frameValue_first n (s.rawValue n f) k (by rw [axis]; exact first) (by rw [axis]; exact acquires)
  rw [axis] at count
  rw [State.get_of_rd (f := F.SE_CFG_drop n) input] at last
  rw [result]
  refine ⟨st, last, count, ?_, ?_, ?_⟩
  · rw [frame.rd _ raw_apart, State.frameShown_raw]
  · rw [frame.get (F.SE_MEAS_consec n) (serialRegs_not_axes hn).2, State.frameShown_consec]
  · rw [State.serial, frame.serials]
    exact congrArg SerialIn.running serial

section
variable {p : Nat} (later : (s.axis k).rPrev = some p)
include later

/-- A later good frame counts (R99). -/
theorem State.frameEnd_counts (valid : (s.axis k).valid = true) (moves : s.frameChange n (s.rawValue n f) p ≠ 0)
    (inside : s.get (F.SE_LIM_jlim n) = 0 ∨ (s.frameChange n (s.rawValue n f) p).natAbs ≤ s.get (F.SE_LIM_jlim n)) : let t := s.frameEnd n f
    Counts k (s.directed k (s.frameChange n (s.rawValue n f) p)) (s.serial n).latch s t ∧
      (t.axis k).rPrev = some (s.rawValue n f / 2 ^ s.get (F.SE_CFG_drop n)) := by
  intro t
  let u := (s.warned n f).frameShown n (s.rawValue n f)
  obtain ⟨axis, others, input, config, serial⟩ := State.shown_same hn f alone (s.rawValue n f)
  have calm : ¬ (s.warned n f).frameJumps n (s.rawValue n f) = true := by
    rw [State.warned_jumps hn f alone later]
    omega
  have result : t = u.frameValue n (s.rawValue n f) k := by
    unfold t
    rw [State.frameEnd_checked f running proto parity crc clear alone, if_neg calm]
  have change : u.frameChange n (s.rawValue n f) p = s.frameChange n (s.rawValue n f) p := State.frameChange_congr input _ _
  have direction : u.directed k = s.directed k := by
    funext d
    rw [State.directed, State.directed, State.flag_of_rd (f := F.AX_CFG_dir_inv k) config]
  have latch : (u.serial n).latch = (s.serial n).latch := by rw [show u.serial n = _ from serial]
  obtain ⟨counts, last⟩ := u.frameValue_later n (s.rawValue n f) k (by rw [axis]; exact later) (by rw [axis]; exact valid)
    (by rw [change]; exact moves)
  rw [change, direction, latch] at counts
  rw [State.get_of_rd (f := F.SE_CFG_drop n) input] at last
  rw [result]
  refine ⟨counts.congr ?_ ?_ ?_ ?_ (fun j _ => others j) (State.get_of_rd config), last⟩
  iterate 4 rw [axis]

/-- A later frame beyond the jump limit fails (R99, R100). -/
theorem State.frameEnd_jumps (limit : s.get (F.SE_LIM_jlim n) ≠ 0)
    (beyond : s.get (F.SE_LIM_jlim n) < (s.frameChange n (s.rawValue n f) p).natAbs) : FrameFailed n 6 s (s.frameEnd n f) := by
  have jumps := (State.warned_jumps hn f alone later).mpr ⟨limit, beyond⟩
  rw [State.frameEnd_checked f running proto parity crc clear alone, if_pos jumps]
  exact s.warned_failed f hn (State.frameFails_failed _ hn (by decide) 7)

end

end

/-! ### The statement -/

/-- A raw value as the statement writes it. -/
theorem State.rawValue_eq (s : State) (n : Nat) (f : SerialFrame) : s.rawValue n f =
    if s.get (F.SE_CFG_proto n) = 1 then grayToBinary (s.frameBits n) (f.data.toNat % 2 ^ s.frameBits n) 0
    else f.data.toNat % 2 ^ s.frameBits n := by
  unfold State.rawValue
  simp only [beq_iff_eq]

/-- Settles O46: the frame's checks in their order, each failure `State.frameFails_failed`, and the axis of a good frame. -/
theorem serialFrameResults : Obligations.SerialFrameResults := by
  intro n s proto bits fails
  have hn := n.isLt
  refine ⟨fun running slo => ?skipped, fun idle slo => ⟨?notReady, ?starts⟩, fun running => ?timeout, fun f running => ?ends⟩
  case skipped =>
    exact congrArg Host.Outcome.next (if_pos running)
  case notReady =>
    rintro ⟨ssi, low⟩
    have result : s.frameStart n slo = s.frameFails n 1 2 := by
      unfold State.frameStart
      rw [if_neg (by simp [idle]), if_pos (by simpa [low] using ssi)]
    exact ⟨_, congrArg Host.Outcome.next result, s.frameFails_failed hn (by decide) 2⟩
  case starts =>
    intro ready
    have result : s.frameStart n slo = { s with serials := tabPut s.serials n ⟨true, s.uptime + s.get (F.SE_TIM_lat n)⟩ } := by
      unfold State.frameStart
      rw [if_neg (by simp [idle]), if_neg]
      rcases ready with biss | high
      · simp; omega
      · simp [high]
    exact ⟨_, congrArg Host.Outcome.next result, tabGet_put_same _ _ _ _, rfl⟩
  case timeout =>
    exact ⟨_, congrArg Host.Outcome.next (if_pos running), s.frameFails_failed hn (by decide) 6⟩
  case ends =>
    intro data par odd parBad crcBad raw drop r w
    have parity : s.parityFails n f = true ↔ parBad := s.parityFails_iff n f
    have crc : s.crcFails n f = true ↔ crcBad := s.crcFails_iff n f
    have value : s.rawValue n f = raw := s.rawValue_eq n f
    refine ⟨fun biss warns => ⟨_, rfl, State.frameEnd_warns hn f running biss warns⟩,
      fun reserved => ⟨_, rfl, State.frameEnd_reserved hn f running reserved⟩,
      fun bad => ⟨_, rfl, State.frameEnd_parity hn f running (parity.mpr bad)⟩,
      fun bad => ⟨_, rfl, State.frameEnd_crc hn f running (crc.mpr bad)⟩,
      fun biss good error => ⟨_, rfl, State.frameEnd_error hn f running biss (mt crc.mp good) error⟩,
      fun known evenOdd good clear k alone => ⟨fun first acquires => ?_, fun p later valid => ?_⟩⟩
    · have taken := State.frameEnd_first hn f running known (mt parity.mp evenOdd) (mt crc.mp good) clear alone first acquires
      rw [value] at taken
      exact ⟨_, rfl, taken⟩
    · intro d0 d
      have change : s.frameChange n (s.rawValue n f) p = d := by
        rw [value]
        exact signedOf_difference w r p
      refine ⟨fun moves inside => ?_, fun limit beyond => ?_⟩
      · have counts := State.frameEnd_counts hn f running known (mt parity.mp evenOdd) (mt crc.mp good) clear alone later valid
          (by rw [change]; exact moves) (by rw [change]; exact inside)
        rw [change, value] at counts
        exact ⟨_, rfl, counts⟩
      · exact ⟨_, rfl, State.frameEnd_jumps hn f running known (mt parity.mp evenOdd) (mt crc.mp good) clear alone later limit
          (by rw [change]; exact beyond)⟩

end Sys2Proof.Machine
end

section
/-! SUPPORT. A write of AXn_CFG compares with the stored word a field that the card does not have (R127): the statement on axis
configuration, which looks at the fields alone, does not except a stored word with such a bit. -/

namespace Sys2Proof.Machine

/-- While the axis is enabled a write that differs from the stored word outside en, navg, eddy and qerr_max is refused and flagged. -/
theorem State.axisCfgWrite_refused {s : State} {n : Nat} {v : W32} (en : s.flag (F.AX_CFG_en n) = true)
    (differs : v &&& 0x877FFFF3 &&& ~~~0x8000FFF0 ≠ s.rd (R.AX_CFG n) &&& ~~~0x8000FFF0) : s.axisCfgWrite n v = s.axFlag n 11 0 n := by
  unfold State.axisCfgWrite
  extract_lets written old free was t
  rw [if_pos]
  exact Bool.and_eq_true_iff.mpr ⟨en, bne_iff_ne.mpr differs⟩

/-- Axis 0 in LULL, enabled, with bit 2 of AX0_CFG set, which belongs to no field: no write sets it, but a state may hold it. -/
def unusedBitHeld : State := { State.reset with regs := [(R.AX_CFG 0, 0x80000004)], axes := [(0, { st := .lull })] }

/-- A disable of the axis is refused there: a written word has bit 2 clear. -/
theorem unusedBitHeld_refuses : unusedBitHeld.axisCfgWrite 0 (putBits 0x80000004 31 31 0) = unusedBitHeld.axFlag 0 11 0 0 :=
  State.axisCfgWrite_refused (by decide) (by decide)

/-- Refutes O45: the statement has a write of AXn_CFG that changes no field but en disable the axis, over every stored word. Where the
stored word holds bit 2, which is no field, the write is refused, and the axis stays in LULL. -/
theorem not_axisConfigResults : ¬ Obligations.AxisConfigResults := by
  intro h
  obtain ⟨-, enabled, -⟩ := h 0 0x80000004 unusedBitHeld
  obtain ⟨⟨t, hnext, disabled, -⟩, -⟩ := enabled (by decide) (by decide)
  obtain rfl : unusedBitHeld.axFlag 0 11 0 0 = t := unusedBitHeld_refuses.symm.trans (Host.Outcome.next.inj hnext)
  have stays : (unusedBitHeld.axFlag 0 11 0 0).axis 0 = unusedBitHeld.axis 0 := State.axFlag_axis _ 0 11 0 0 0
  have off : (unusedBitHeld.axis 0).st = .off := by
    rw [← stays]
    exact congrArg Axis.st disabled
  exact absurd off (by decide)

end Sys2Proof.Machine
end

section
/-! SUPPORT. Fields of register words, masks of ring positions, the registers that stand once per lane and bar, and what freeing
slots leaves of lanes and registers: the ground that the statements on fire scheduling stand on (R8, R136, R141, R150, R155). -/

namespace Sys2Proof.Machine

/-! ### Fields of a word -/

theorem bitsOf_extract (w : W32) (hi lo : Nat) : (w.extractLsb' lo (hi + 1 - lo)).toNat = bitsOf w hi lo := by
  rw [BitVec.extractLsb'_toNat, Nat.shiftRight_eq_div_pow, bitsOf]

theorem putBits_getLsbD (w : W32) (hi lo v k : Nat) (h1 : lo ≤ hi) (h2 : hi < 32) :
    (putBits w hi lo v).getLsbD k = if lo ≤ k ∧ k ≤ hi then v.testBit (k - lo) else w.getLsbD k := putBits_testBit w hi lo v k h1 h2

/-- A bit set. -/
theorem putBits_bit_one (v : W32) {k : Nat} (hk : k < 32) : putBits v k k 1 = v ||| BitVec.twoPow 32 k := by
  refine BitVec.eq_of_getLsbD_eq fun j hj => ?_
  rw [putBits_getLsbD _ _ _ _ _ (Nat.le_refl k) hk, BitVec.getLsbD_or, BitVec.getLsbD_twoPow]
  by_cases h : k = j
  · simp [h, hj]
  · rw [if_neg (by omega)]
    simp [h]

/-- A bit cleared. -/
theorem putBits_bit_zero (v : W32) {k : Nat} (hk : k < 32) : putBits v k k 0 = v &&& ~~~BitVec.twoPow 32 k := by
  refine BitVec.eq_of_getLsbD_eq fun j hj => ?_
  rw [putBits_getLsbD _ _ _ _ _ (Nat.le_refl k) hk, BitVec.getLsbD_and, BitVec.getLsbD_not, BitVec.getLsbD_twoPow]
  by_cases h : k = j
  · simp [h]
  · rw [if_neg (by omega)]
    simp [h, hj]

/-- A field that a mask passes whole. -/
theorem bitsOf_and_mask (w m : W32) (hi lo : Nat) (h : bitsOf m hi lo = 2 ^ (hi + 1 - lo) - 1) : bitsOf (w &&& m) hi lo = bitsOf w hi lo := by
  refine Nat.eq_of_testBit_eq fun k => ?_
  have ones := congrArg (fun n => n.testBit k) h
  simp only [bitsOf_testBit, Nat.testBit_two_pow_sub_one] at ones
  rw [bitsOf_testBit, bitsOf_testBit, BitVec.toNat_and, Nat.testBit_and]
  by_cases inside : k < hi + 1 - lo
  · simp only [inside, decide_true, Bool.true_and] at ones
    simp [ones]
  · simp [inside]

/-! ### Masks of ring positions -/

/-- The mask of the ring positions that satisfy a test. -/
def maskOf (p : Nat → Bool) : Nat := (((List.range 16).filter p).map (2 ^ ·)).sum

/-- Weights of distinct bits, all clear in a number, added to it: those bits are set. -/
theorem natBit_add_weights : ∀ (l : List Nat) (a k : Nat), l.Nodup → (∀ q ∈ l, natBit a q = false) →
    natBit (a + (l.map (2 ^ ·)).sum) k = (natBit a k || decide (k ∈ l))
  | [], a, k, _, _ => by simp
  | q :: l, a, k, nodup, clear => by
    obtain ⟨fresh, rest⟩ := List.nodup_cons.mp nodup
    have first (j : Nat) : natBit (a + 2 ^ q) j = (natBit a j || decide (j = q)) := by
      have clear' := clear q List.mem_cons_self
      rw [natBit_eq] at clear'
      rw [natBit_eq, natBit_eq, testBit_add_weight a q j clear']
      by_cases h : j = q <;> simp [h]
    have clear' : ∀ r ∈ l, natBit (a + 2 ^ q) r = false := fun r hr => by
      rw [first, clear r (List.mem_cons_of_mem q hr)]
      simpa using fun e : r = q => fresh (e ▸ hr)
    rw [List.map_cons, List.sum_cons, ← Nat.add_assoc, natBit_add_weights l _ k rest clear', first, Bool.or_assoc]
    simp

/-- A mask added to a number in which its bits are clear. -/
theorem natBit_add_maskOf {a : Nat} {p : Nat → Bool} (clear : ∀ k < 16, p k = true → natBit a k = false) (k : Nat) :
    natBit (a + maskOf p) k = (natBit a k || (decide (k < 16) && p k)) := by
  rw [maskOf, natBit_add_weights _ a k (List.nodup_range.filter p) fun q hq => by
    rw [List.mem_filter, List.mem_range] at hq
    exact clear q hq.1 hq.2]
  simp [List.mem_filter]

theorem natBit_zero (k : Nat) : natBit 0 k = false := by
  rw [natBit_eq, Nat.zero_testBit]

theorem natBit_maskOf (p : Nat → Bool) (k : Nat) : natBit (maskOf p) k = (decide (k < 16) && p k) := by
  have bits := natBit_add_maskOf (p := p) (fun j _ _ => natBit_zero j) k
  rwa [Nat.zero_add, natBit_zero, Bool.false_or] at bits

theorem eq_of_natBit {a b : Nat} (h : ∀ k, natBit a k = natBit b k) : a = b :=
  Nat.eq_of_testBit_eq fun k => by rw [← natBit_eq, ← natBit_eq, h]

theorem maskOf_congr {p q : Nat → Bool} (h : ∀ k < 16, p k = q k) : maskOf p = maskOf q := by
  rw [maskOf, maskOf, List.filter_congr fun k hk => h k (List.mem_range.mp hk)]

/-- A mask without those of its bits that satisfy another test. -/
theorem maskOf_sub {p q : Nat → Bool} (within : ∀ k < 16, q k = true → p k = true) :
    maskOf p - maskOf q = maskOf (fun k => p k && !q k) := by
  have whole : maskOf p = maskOf (fun k => p k && !q k) + maskOf q := by
    refine eq_of_natBit fun k => ?_
    rw [natBit_add_maskOf (fun j hj hq => by rw [natBit_maskOf]; simp [hq]), natBit_maskOf, natBit_maskOf]
    by_cases hk : k < 16
    · have inside := within k hk
      cases hq : q k <;> simp_all
    · simp [hk]
  omega

theorem maskOf_natBit {m : Nat} (h : m < 65536) : maskOf (natBit m) = m := by
  refine eq_of_natBit fun k => ?_
  rw [natBit_maskOf]
  by_cases hk : k < 16
  · simp [hk]
  · have high : m < 2 ^ k := Nat.lt_of_lt_of_le h (Nat.pow_le_pow_right (by decide) (Nat.le_of_not_lt hk) : 2 ^ 16 ≤ 2 ^ k)
    rw [natBit_eq, Nat.testBit_lt_two_pow high]
    simp [hk]

theorem maskOf_eq_zero {p : Nat → Bool} : maskOf p = 0 ↔ (List.range 16).filter p = [] := by
  constructor
  · intro h
    refine List.filter_eq_nil_iff.mpr fun k hk => ?_
    have bit := natBit_maskOf p k
    rw [h, natBit_zero, decide_eq_true (List.mem_range.mp hk), Bool.true_and] at bit
    simp [← bit]
  · intro h
    rw [maskOf, h]
    rfl

theorem positions_maskOf (p : Nat → Bool) : positions (maskOf p) = (List.range 16).filter p := by
  refine List.filter_congr fun k hk => ?_
  rw [natBit_maskOf, decide_eq_true (List.mem_range.mp hk), Bool.true_and]

theorem countBits_maskOf (p : Nat → Bool) : countBits 16 (maskOf p) = ((List.range 16).filter p).length :=
  congrArg List.length (positions_maskOf p)

/-- Weights added one by one. -/
theorem foldl_weights (l : List Nat) : l.foldl (fun m q => m + 2 ^ q) 0 = (l.map (2 ^ ·)).sum := by
  rw [List.sum_eq_foldl, List.foldl_map]

theorem maskWhere_eq (mask : Nat) (p : Nat → Bool) : maskWhere mask p = maskOf (fun k => natBit mask k && p k) := by
  rw [maskWhere, foldl_weights, positions, List.filter_filter, maskOf]
  simp only [Bool.and_comm]

/-- Positions whose sill is at or beyond a stamp. -/
theorem State.reached_eq (s : State) (lane : Nat) (e : Entry) (x : W32) (mask : Nat) :
    s.reached lane e x mask = maskOf (fun k => natBit mask k && atOrBeyond e.rev (s.tileSill (s.entryAxis e) (lane * 16 + k) e.rev) x) :=
  maskWhere_eq mask _

/-! ### Registers that stand once per lane -/

/-- The register `base` of lane 0, on another lane. -/
theorem not_postReg_lane {lane base : Nat} (hl : lane < 24) (low : 0x40050000 ≤ base) (high : base < 0x40050800) :
    ¬ postReg (base + lane * 0x800) := by
  unfold postReg R.SUP_DROP
  omega

theorem lane_reg_ne {lane a b : Nat} (h : a ≠ b) : a + lane * 0x800 ≠ b + lane * 0x800 := by omega

/-- A counter of a whole register, raised by a number. -/
theorem State.get_bumpBy_whole (s : State) (a n : Nat) :
    (s.bumpBy ⟨a, 31, 0⟩ n).get ⟨a, 31, 0⟩ = min (s.get ⟨a, 31, 0⟩ + n) 0xFFFFFFFF := by
  have bound : min (s.get ⟨a, 31, 0⟩ + n) 0xFFFFFFFF < 2 ^ 32 := by omega
  exact (s.get_set_same ⟨a, 31, 0⟩ _ (Nat.zero_le 31) (Nat.lt_succ_self 31)).trans (Nat.mod_eq_of_lt bound)

theorem State.get_whole_le (s : State) (a : Nat) : s.get ⟨a, 31, 0⟩ ≤ 0xFFFFFFFF := Nat.le_of_lt_succ (bitsOf_lt (s.rd a) 31 0)

theorem State.bumpBy_touches (s : State) (f : Field) (n : Nat) : Touches (· = f.addr) s (s.bumpBy f n) := s.set_touches _ _

/-! ### What freeing slots leaves -/

/-- A register that a read of memory with erroneous cells may write, and those of its report. -/
def memReg (a : Nat) : Prop := a = R.MEM_CECNT ∨ a = R.MEM_UECNT ∨ a = R.MEM_ELOG0 ∨ postReg a

theorem not_memReg_of_bounds {a : Nat} (low : 0x40040000 ≤ a) (high : a < 0x40060000) : ¬ memReg a := by
  unfold memReg postReg R.MEM_CECNT R.MEM_UECNT R.MEM_ELOG0 R.SUP_DROP
  omega

/-- From `s` to `t` the lanes stay, and every register but those of memory errors and their reports. -/
structure SlotWork (s t : State) : Prop where
  lanes : t.lanes = s.lanes
  rd : ∀ a, ¬ memReg a → t.rd a = s.rd a

section
variable {s t u : State}

theorem SlotWork.refl (s : State) : SlotWork s s := ⟨rfl, fun _ _ => rfl⟩

theorem SlotWork.trans (h : SlotWork s t) (k : SlotWork t u) : SlotWork s u :=
  ⟨k.lanes.trans h.lanes, fun a ha => (k.rd a ha).trans (h.rd a ha)⟩

theorem SlotWork.foldl {α : Type} {f : State → α → State} (h : ∀ s x, SlotWork s (f s x)) : ∀ (l : List α) (s : State),
    SlotWork s (l.foldl f s)
  | [], s => SlotWork.refl s
  | x :: l, s => (h s x).trans (SlotWork.foldl h l (f s x))

/-- Where lanes and registers are untouched. -/
theorem SlotWork.of_fields (lanes : t.lanes = s.lanes) (regs : t.regs = s.regs) : SlotWork s t :=
  ⟨lanes, fun _ _ => by rw [State.rd, State.rd, regs]⟩

theorem Touches.slotWork {P : Nat → Prop} (h : Touches P s t) (mem : ∀ a, P a → memReg a) : SlotWork s t := by
  refine ⟨?_, fun a ha => h.rd a fun hp => ha (mem a hp)⟩
  rw [h.core]

theorem Touches.slotWork_of_quiet (h : Quiet s t) : SlotWork s t := h.slotWork fun _ posted => Or.inr (Or.inr (Or.inr posted))

theorem Touches.lane {P : Nat → Prop} (h : Touches P s t) (n : Nat) : t.lane n = s.lane n := by
  rw [State.lane, h.core]
  rfl

end

theorem State.errorLogged_slotWork (s : State) {f : Field} (h : memReg f.addr) (v : Nat) (loc : W64) :
    SlotWork s ((s.set f v).logError loc) := by
  have counted : SlotWork s (s.set f v) := (s.set_touches f v).slotWork fun _ e => e ▸ h
  have logged : SlotWork (s.set f v) ((s.set f v).wr R.MEM_ELOG0 (loc.truncate 32)) :=
    (State.wr_touches _ _ _).slotWork fun _ e => Or.inr (Or.inr (Or.inl e))
  exact (counted.trans logged).trans (SlotWork.of_fields rfl rfl)

theorem State.memCE_slotWork (s : State) (a : Nat) (loc : W64) (extra : Nat) : SlotWork s (s.memCE a loc extra) := by
  unfold State.memCE
  extract_lets u n t
  have logged : SlotWork s t := s.errorLogged_slotWork (f := F.MEM_CECNT_v) (Or.inl rfl) _ loc
  split
  · exact (logged.trans (t.post_quiet 63 0x440 loc _).slotWork_of_quiet).trans (SlotWork.of_fields rfl rfl)
  · exact logged.trans (SlotWork.of_fields rfl rfl)

theorem State.memUE_slotWork (s : State) (reader a : Nat) : SlotWork s (s.memUE reader a) :=
  (s.errorLogged_slotWork (f := F.MEM_UECNT_v) (Or.inr (Or.inl rfl)) _ _).trans (State.post_quiet _ 63 0x441 _ _).slotWork_of_quiet

theorem State.drawn_slotWork (s : State) : SlotWork s s.drawn := SlotWork.of_fields rfl rfl

theorem State.eccRead_slotWork (s : State) (reader a : Nat) : SlotWork s (s.eccRead reader a).2 := by
  unfold State.eccRead
  split
  · exact SlotWork.refl s
  · exact s.memCE_slotWork a _ _
  · split
    · exact s.memCE_slotWork a _ _
    · exact s.memCE_slotWork a _ _
  · exact s.memUE_slotWork reader a
  · split
    · exact s.drawn_slotWork.trans (s.drawn.memUE_slotWork reader a)
    · exact s.drawn_slotWork.trans (s.drawn.memCE_slotWork a _ _)
    · exact s.drawn_slotWork

theorem eccSpan_slotWork (reader : Nat) {stop : Nat} : ∀ (n a : Nat) (s : State), SlotWork s (eccSpan reader a stop n s).2
  | 0, _, s => SlotWork.refl s
  | n + 1, a, s => by
    have first := s.eccRead_slotWork reader a
    unfold eccSpan
    split
    · exact SlotWork.refl s
    · split
      · next read => rwa [read] at first
      · next t _ read =>
        rw [read] at first
        have rest := eccSpan_slotWork reader (stop := stop) n (memWordBase a + if isSram a then 4 else 8) t
        dsimp only
        split
        · next span =>
          rw [span] at rest
          exact first.trans rest
        · exact first.trans rest

theorem State.headerRead_slotWork (s : State) (lane pos tag : Nat) : SlotWork s (s.headerRead lane pos tag).2 := by
  have range (a len : Nat) : SlotWork s (s.eccRange 0xFF a len).2 := by
    unfold State.eccRange
    split
    · exact eccSpan_slotWork 0xFF _ a s
    · exact SlotWork.refl s
  have read (a len : Nat) : SlotWork s (s.dataRead 0xFF a len).2 := by
    have reported := range a len
    unfold State.dataRead
    split <;> next found =>
      rw [found] at reported
      exact reported.trans (SlotWork.of_fields rfl rfl)
  have header := read (slotHeader lane pos tag) 4
  unfold State.headerRead
  split <;> next found => rwa [found] at header

theorem State.putHeader_eq (s : State) (lane pos tag : Nat) (h : W32) : s.putHeader lane pos tag h =
    { s with mem := (s.wrWord (slotHeader lane pos tag) h).mem, cells := tabDel s.cells (memWordBase (slotHeader lane pos tag)) } := by
  have wrote : s.wrWord (slotHeader lane pos tag) h = { s with mem := (s.wrWord (slotHeader lane pos tag) h).mem } := State.wrBytes_eq _ s _
  rw [State.putHeader, wrote]
  rfl

theorem State.putHeader_slotWork (s : State) (lane pos tag : Nat) (h : W32) : SlotWork s (s.putHeader lane pos tag h) := by
  rw [s.putHeader_eq]
  exact SlotWork.of_fields rfl rfl

theorem State.freeSlot_slotWork (s : State) (lane pos tag : Nat) : SlotWork s (s.freeSlot lane pos tag) := by
  have read := s.headerRead_slotWork lane pos tag
  unfold State.freeSlot
  split
  · next header =>
    rw [header] at read
    split
    · exact read.trans (State.putHeader_slotWork _ lane pos tag _)
    · exact read
  · next header =>
    rw [header] at read
    exact read.trans (State.putHeader_slotWork _ lane pos tag _)

theorem State.freeSlots_slotWork (s : State) (lane : Nat) (e : Entry) : SlotWork s (s.freeSlots lane e) :=
  SlotWork.foldl (fun t p => t.freeSlot_slotWork lane p e.tag) _ s

/-- A removal of entries writes no register of fire scheduling. -/
theorem State.removeEntries_rd (s : State) (lane : Nat) (p : Entry → Bool) {a : Nat} (ha : ¬ memReg a) :
    (s.removeEntries lane p).2.rd a = s.rd a := by
  have cancels (t : State) (e : Entry) : (t.sendCancel lane e).rd a = t.rd a := by
    unfold State.sendCancel State.sendSet
    dsimp only
    split
    · rfl
    · split <;> rfl
  refine List.foldlRecOn (motive := fun t : State => t.rd a = s.rd a) _ _ rfl fun t ht e _ => ?_
  exact ((cancels _ e).trans ((t.freeSlots_slotWork lane e).rd a ha)).trans ht

/-! ### Flags and events of a lane's schedule -/

theorem State.lanePost_quiet (s : State) (lane kind axis : Nat) (stamp : W32) (detail : Nat) :
    Quiet s (s.lanePost lane kind axis stamp detail) := s.postAt_quiet _ _ _ _ _ _

theorem State.schFlag_touches (s : State) (lane b : Nat) : Touches (fun a => a = R.LANE_SCHSTAT lane ∨ postReg a) s (s.schFlag lane b) :=
  s.setStatus_touches _ _ _ _

/-- A flag of LANEn_SCHSTAT set: that bit reads 1, every other as before. -/
theorem State.schFlag_getLsbD (s : State) {lane b : Nat} (hl : lane < 24) (hb : b < 32) (j : Nat) :
    ((s.schFlag lane b).rd (R.LANE_SCHSTAT lane)).getLsbD j = (decide (j = b) || (s.rd (R.LANE_SCHSTAT lane)).getLsbD j) := by
  have requested : Quiet (s.setBit ⟨R.LANE_SCHSTAT lane, 31, 0⟩ b true) (s.schFlag lane b) := by
    unfold State.schFlag State.setStatus
    dsimp only
    split
    · exact State.raiseIrq_quiet _ _
    · exact Touches.refl _ _
  rw [requested.rd (R.LANE_SCHSTAT lane) (not_postReg_lane hl (by decide) (by decide)), State.setBit_getLsbD s _ hb]

end Sys2Proof.Machine
end

section
/-! SUPPORT. What a write of LANEn_SCHED, BARn_CFG, FIRE_TILEk_CFG and FIRE_EQ leaves, and the statement on the configuration of fire
scheduling (R130, R131, R150, R151, R154, R156). -/

namespace Sys2Proof.Machine

/-! ### The schedule of a lane (R151) -/

/-- Registers cleared one after another. -/
theorem State.clearRegs_touches (l : List Nat) (s : State) : Touches (· ∈ l) s (l.foldl (fun w a => w.wr a 0) s) :=
  Touches.foldl l s fun x hx t => (t.wr_touches x 0).mono fun _ e => e ▸ hx

theorem State.clearRegs_rd {a : Nat} : ∀ (l : List Nat) (s : State), a ∈ l → (l.foldl (fun w a => w.wr a 0) s).rd a = 0
  | [], _, h => absurd h List.not_mem_nil
  | x :: l, s, h => by
    rw [List.foldl_cons]
    by_cases later : a ∈ l
    · exact State.clearRegs_rd l (s.wr x 0) later
    · obtain rfl | inside := List.mem_cons.mp h
      · exact ((State.clearRegs_touches l (s.wr a 0)).rd a later).trans (s.rd_wr_same a 0)
      · exact absurd inside later

theorem schedCounters_ne {lane a : Nat} (h : a ∈ schedCounters lane) : a ≠ R.LANE_SCHED lane := by
  simp only [schedCounters, List.mem_cons, List.not_mem_nil, or_false, R.LANE_STROBES, R.LANE_BLANKS, R.LANE_LATE, R.LANE_UNDELIV,
    R.LANE_MISSED, R.LANE_SLIP, R.LANE_UNCONF, R.LANE_UNCONF_FIRST, R.LANE_UNCONF_LAST] at h
  unfold R.LANE_SCHED
  omega

/-- The counters cleared where the schedule is newly enabled. -/
def State.schedCleared (s : State) (lane : Nat) (fresh : Bool) : State :=
  if fresh then (schedCounters lane).foldl (fun w a => w.wr a 0) s else s

theorem State.schedCleared_touches (s : State) (lane : Nat) (fresh : Bool) :
    Touches (· ∈ schedCounters lane) s (s.schedCleared lane fresh) := by
  unfold State.schedCleared
  split
  · exact State.clearRegs_touches _ s
  · exact Touches.refl _ s

theorem State.schedCleared_rd (s : State) {lane a : Nat} (fresh : Bool) (h : a ∈ schedCounters lane) :
    (s.schedCleared lane fresh).rd a = if fresh then 0 else s.rd a := by
  cases fresh
  · rfl
  · exact State.clearRegs_rd _ s h

/-- A write that disables or flushes cancels every entry. -/
theorem State.schedWrite_cancels (s : State) (lane : Nat) (v : W32) (h : bitsOf v 31 31 ≠ 1 ∨ bitsOf v 1 1 = 1) :
    let t := s.schedWrite lane v
    (t.lane lane).queue = [] ∧ t.rd (R.LANE_SCHED lane) = v &&& 0x80000000 ∧ ∀ j, j ≠ lane → t.lane j = s.lane j := by
  obtain ⟨-, queue, others, -⟩ := s.removeEntries_spec lane (fun _ => true)
  have cancels : (!(bitsOf v 31 31 == 1) || bitsOf v 1 1 == 1) = true := by
    rcases h with off | flush
    · rw [beq_eq_false_iff_ne.mpr off]
      rfl
    · rw [flush, beq_self_eq_true, Bool.or_true]
  have same (j : Nat) : (s.schedWrite lane v).lane j = (s.removeEntries lane (fun _ => true)).2.lane j := by
    unfold State.schedWrite
    extract_lets on t u
    have removed : t = (s.removeEntries lane (fun _ => true)).2 := if_pos cancels
    rw [← removed]
    exact (t.schedCleared_touches lane (on && !s.flag (F.LANE_SCHED_en lane))).lane j
  refine ⟨?_, State.rd_wr_same _ _ _, fun j hj => (same j).trans (others j hj)⟩
  rw [same, queue]
  exact List.filter_eq_nil_iff.mpr fun _ _ => by decide

/-- A write that enables without a flush cancels nothing, and clears the counters where the schedule was off. -/
theorem State.schedWrite_enables (s : State) (lane : Nat) (v : W32) (on : bitsOf v 31 31 = 1) (keep : bitsOf v 1 1 ≠ 1) :
    s.schedWrite lane v = (s.schedCleared lane (!s.flag (F.LANE_SCHED_en lane))).wr (R.LANE_SCHED lane) (v &&& 0x80000000) := by
  have stays : (!(bitsOf v 31 31 == 1) || bitsOf v 1 1 == 1) = false := by
    rw [on, beq_eq_false_iff_ne.mpr keep]
    rfl
  rw [State.schedWrite, on, State.schedCleared]
  rw [on] at stays
  rw [stays]
  simp

/-- The written word of a command that sets bit 31, behind a mask that passes it. -/
theorem enableWord (v m : W32) : putBits v 31 31 1 &&& (m ||| 0x80000000) = (v &&& m) ||| 0x80000000 := by
  have absorbs (x y z : W32) : (x ||| z) &&& (y ||| z) = (x &&& y) ||| z := by
    ext k hk
    simp [Bool.or_and_distrib_right]
  exact (congrArg (· &&& _) (putBits_bit_one v (by decide))).trans (absorbs v m 0x80000000)

/-- The written word of a command that clears bit 31. -/
theorem disableWord (v m : W32) : putBits v 31 31 0 &&& m = v &&& (0x7FFFFFFF &&& m) := by
  rw [putBits_bit_zero v (by decide), BitVec.and_assoc]
  rfl

theorem schedOffWord (v : W32) : putBits v 31 31 0 &&& 0x80000000 = 0 := (disableWord v _).trans BitVec.and_zero

theorem schedOnWord (v : W32) : putBits v 31 31 1 &&& 0x80000000 = 0x80000000 :=
  (enableWord v 0).trans ((congrArg (· ||| 0x80000000) BitVec.and_zero).trans BitVec.zero_or)

/-- The written word of a flush. -/
theorem flushWord (v : W32) : putBits v 1 1 1 &&& 0x80000000 = v &&& 0x80000000 := by
  rw [putBits_bit_one v (by decide), BitVec.and_or_distrib_right]
  exact BitVec.or_zero

/-! ### Bars (R156) -/

/-- The bits that a write of BARn_CFG or FIRE_TILEk_CFG keeps. -/
theorem bitsOf_cfgWord (v : W32) : bitsOf (v &&& 0x87000000) 31 31 = bitsOf v 31 31 ∧
    bitsOf (v &&& 0x87000000) 26 24 = bitsOf v 26 24 :=
  ⟨bitsOf_and_mask v _ 31 31 (by decide), bitsOf_and_mask v _ 26 24 (by decide)⟩

theorem bitsOf_barWord (v : W32) {x : Nat} (hx : x < 2) : bitsOf (putBits v 31 31 x &&& 0x87000000) 31 31 = x ∧
    bitsOf (putBits v 31 31 x &&& 0x87000000) 26 24 = (v.extractLsb' 24 3).toNat := by
  obtain ⟨top, axis⟩ := bitsOf_cfgWord (putBits v 31 31 x)
  refine ⟨?_, ?_⟩
  · rw [top, bitsOf_putBits _ _ _ _ (by decide) (by decide)]
    exact Nat.mod_eq_of_lt hx
  · rw [axis, bitsOf_putBits_disjoint _ _ _ _ _ _ (by decide) (by decide) (by decide)]
    exact (bitsOf_extract v 26 24).symm

/-- The registers that a condition of a bar's shutter writes, and those of a report. -/
def barShutterReg (b a : Nat) : Prop := a = R.SHUT_B_COND b ∨ a = R.SHUT_B_STAT b ∨ postReg a

theorem State.barCondRefresh_touches (s : State) (b : Nat) : Touches (barShutterReg b) s (s.barCondRefresh b) := by
  have cond (v : Nat) : Touches (barShutterReg b) s (s.set (F.SHUT_B_COND_cond b) v) := (s.set_touches _ v).mono fun _ h => Or.inl h
  have latched (t : State) (v : Nat) : Touches (barShutterReg b) t (t.setLatch (.bar b) v) :=
    ((t.set_touches (F.SHUT_B_STAT_latch b) v).mono fun _ h => Or.inr (Or.inl h)).trans
      ((State.set_touches _ (F.SHUT_B_STAT_closed b) _).mono fun _ h => Or.inr (Or.inl h))
  have posted (t : State) (kind low : Nat) : Touches (barShutterReg b) t (t.shutPost (.bar b) kind low) :=
    ((t.post_quiet _ _ _ _).trans (State.raiseIrq_quiet _ _)).mono fun _ h => Or.inr (Or.inr h)
  unfold State.barCondRefresh State.setCond
  extract_lets t
  have stored : Touches (barShutterReg b) s t := cond _
  split
  · refine stored.trans ?_
    unfold State.latchCause
    split
    · exact Touches.refl _ t
    · exact (latched t _).trans (posted _ _ _)
  · exact stored

theorem not_barShutterReg {b a : Nat} (hb : b < 8) (low : 0x40040000 ≤ a) (high : a < 0x40042000) : ¬ barShutterReg b a := by
  unfold barShutterReg postReg R.SHUT_B_COND R.SHUT_B_STAT R.SUP_DROP
  omega

theorem not_barShutterReg_stat {b : Nat} (hb : b < 8) : ¬ barShutterReg b (R.BAR_STAT b) :=
  not_barShutterReg hb (by unfold R.BAR_STAT; omega) (by unfold R.BAR_STAT; omega)

theorem State.barReady_touches (s : State) (b : Nat) : Touches (· = R.BAR_STAT b) s (s.barReady b) := by
  unfold State.barReady
  split
  · exact s.set_touches (F.BAR_STAT_rdy b) 1
  · exact Touches.refl _ s

/-! ### Row phases (R131, R156, R228, R236) -/

/-- The row phases of one tile of a bar's list are sent, where its lane runs and it takes part. -/
def State.rowPhaseTo (t : State) (b k : Nat) : State :=
  if t.laneRuns (k / 16) && natBit (t.present (k / 16)) (k % 16) && !t.excluded (k / 16) (k % 16) then
    t.mgWrite (k / 16) (k % 16) 8 [t.rowPhases k false, t.rowPhases k true] (.rowPhase b)
  else t

theorem State.rowPhaseTo_eq (t : State) (b k : Nat) : t.rowPhaseTo b k = { t with lanes := (t.rowPhaseTo b k).lanes } := by
  unfold State.rowPhaseTo
  split <;> rfl

theorem foldl_rowPhaseTo_eq (b : Nat) (l : List Nat) (s : State) :
    l.foldl (fun t k => t.rowPhaseTo b k) s = { s with lanes := (l.foldl (fun t k => t.rowPhaseTo b k) s).lanes } := by
  refine List.foldlRecOn (motive := fun t : State => t = { s with lanes := t.lanes }) l _ rfl fun t ht k _ => ?_
  have sent := t.rowPhaseTo_eq b k
  rw [ht] at sent ⊢
  exact sent

theorem State.sendRowPhases_eq (s : State) (b : Nat) : s.sendRowPhases b = { s with lanes := (s.sendRowPhases b).lanes } :=
  foldl_rowPhaseTo_eq b (s.barTiles b) s

theorem State.sendRowPhases_rd (s : State) (b a : Nat) : (s.sendRowPhases b).rd a = s.rd a := by
  rw [s.sendRowPhases_eq]
  rfl

theorem State.sendRowPhases_rdByte (s : State) (b a : Nat) : (s.sendRowPhases b).rdByte a = s.rdByte a := by
  rw [s.sendRowPhases_eq]
  rfl

/-- An MGMT WRITE joins the requests of its lane, but in OPEN, where nothing is granted. -/
theorem State.mgWrite_mgmt (s : State) (lane pos addr : Nat) (data : List W32) (why : MgWhy) :
    ((s.mgWrite lane pos addr data why).lane lane).mgmt = if s.laneState lane = 7 then (s.lane lane).mgmt
      else (s.lane lane).mgmt ++ [⟨pos, (s.lane lane).mgSeq, 1, addr, data.length, data, why, 0⟩] := by
  rw [State.mgWrite, State.mgSend, State.lane_setLane_same]
  by_cases h : s.laneState lane = 7 <;> simp [h]

theorem State.rowPhaseTo_keeps {t : State} {j : Nat} {r : MgReq} (h : r ∈ (t.lane j).mgmt) (b k : Nat) :
    r ∈ ((t.rowPhaseTo b k).lane j).mgmt := by
  unfold State.rowPhaseTo
  split
  · obtain rfl | hj := eq_or_ne j (k / 16)
    · rw [State.mgWrite_mgmt]
      split
      · exact h
      · exact List.mem_append_left _ h
    · have other : (t.mgWrite (k / 16) (k % 16) 8 [t.rowPhases k false, t.rowPhases k true] (.rowPhase b)).lane j = t.lane j :=
        t.lane_setLane_ne _ hj
      rwa [other]
  · exact h

/-- The request that carries a tile's row phases waits in a lane. -/
def RowPhasesSent (s : State) (b k : Nat) (l : Lane) : Prop :=
  ∃ r ∈ l.mgmt, r.pos = k % 16 ∧ r.op = 1 ∧ r.addr = 8 ∧ r.data = [s.rowPhases k false, s.rowPhases k true] ∧ r.why = .rowPhase b

theorem State.rowPhaseTo_sends {s : State} {k : Nat} (up : s.laneState (k / 16) = 5) (here : natBit (s.present (k / 16)) (k % 16) = true)
    (takes : s.excluded (k / 16) (k % 16) = false) (b : Nat) : RowPhasesSent s b k ((s.rowPhaseTo b k).lane (k / 16)) := by
  have runs : s.laneRuns (k / 16) = true := by rw [State.laneRuns, up]; rfl
  rw [State.rowPhaseTo, runs, here, takes]
  refine ⟨⟨k % 16, (s.lane (k / 16)).mgSeq, 1, 8, 2, [s.rowPhases k false, s.rowPhases k true], .rowPhase b, 0⟩, ?_, rfl, rfl, rfl, rfl, rfl⟩
  rw [if_pos (by decide), State.mgWrite_mgmt, if_neg (by rw [up]; decide)]
  exact List.mem_append_right _ List.mem_cons_self

/-- Every tile of a list that takes part is sent its row phases. -/
theorem foldl_rowPhaseTo_sends {b k : Nat} : ∀ (l : List Nat) (s : State), k ∈ l → s.laneState (k / 16) = 5 →
    natBit (s.present (k / 16)) (k % 16) = true → s.excluded (k / 16) (k % 16) = false →
    RowPhasesSent s b k ((l.foldl (fun t k => t.rowPhaseTo b k) s).lane (k / 16))
  | [], _, member, _, _, _ => absurd member List.not_mem_nil
  | x :: l, s, member, up, here, takes => by
    rw [List.foldl_cons]
    by_cases later : k ∈ l
    · have rest := foldl_rowPhaseTo_sends (b := b) (k := k) l (s.rowPhaseTo b x)
      rw [s.rowPhaseTo_eq b x] at rest ⊢
      exact rest later up here takes
    · obtain rfl | inside := List.mem_cons.mp member
      · obtain ⟨r, waits, fields⟩ := State.rowPhaseTo_sends up here takes b
        exact ⟨r, List.foldlRecOn (motive := fun t : State => r ∈ (t.lane (k / 16)).mgmt) l _ waits
          fun t ht j _ => State.rowPhaseTo_keeps ht b j, fields⟩
      · exact absurd inside later

theorem mem_tabPut {α : Type} {e : Nat × α} {a : Nat} {b : α} : ∀ {t : Tab α}, e ∈ tabPut t a b → e = (a, b) ∨ e ∈ t
  | [], h => Or.inl (List.mem_singleton.mp h)
  | (k, w) :: t, h => by
    unfold tabPut at h
    split at h
    · exact (List.mem_cons.mp h).imp_right (List.mem_cons_of_mem _)
    · split at h
      · exact List.mem_cons.mp h
      · obtain rfl | later := List.mem_cons.mp h
        · exact Or.inr List.mem_cons_self
        · exact (mem_tabPut later).imp_right (List.mem_cons_of_mem _)

theorem mem_of_tabFind {α : Type} {a : Nat} {v : α} : ∀ {t : Tab α}, tabFind t a = some v → (a, v) ∈ t
  | (k, w) :: t, h => by
    unfold tabFind at h
    split at h
    · next same =>
      rw [same, Option.some.inj h]
      exact List.mem_cons_self
    · exact List.mem_cons_of_mem _ (mem_of_tabFind h)

/-- The requests of a lane are those of its entry in the table. -/
theorem State.mem_lanes_of_mgmt {s : State} {n : Nat} {r : MgReq} (h : r ∈ (s.lane n).mgmt) : ∃ l ∈ s.lanes, r ∈ l.2.mgmt := by
  unfold State.lane tabGet at h
  cases found : tabFind s.lanes n with
  | none =>
    rw [found] at h
    exact absurd h List.not_mem_nil
  | some l =>
    rw [found] at h
    exact ⟨(n, l), mem_of_tabFind found, h⟩

/-- No row-phase write of a bar waits for its answer. -/
def State.rowsAnswered (s : State) (b : Nat) : Prop := ∀ l ∈ s.lanes, ∀ r ∈ l.2.mgmt, r.why ≠ .rowPhase b

theorem State.rowPending_eq_false {s : State} {b : Nat} (h : s.rowsAnswered b) : s.rowPending b = false := by
  simp only [State.rowPending, List.any_eq_false, beq_iff_eq, Bool.not_eq_true]
  exact h

/-- A tile on a lane that is not UP leaves no write to answer. -/
theorem State.rowPhaseTo_answered {t : State} {b k : Nat} (h : t.rowsAnswered b) (down : t.laneState (k / 16) ≠ 5) :
    (t.rowPhaseTo b k).rowsAnswered b := by
  unfold State.rowPhaseTo
  split
  · next sends =>
    have opened : t.laneState (k / 16) = 7 := by
      simp only [State.laneRuns, Bool.and_eq_true, Bool.or_eq_true, beq_iff_eq] at sends
      exact sends.1.1.resolve_left down
    intro l hl r hr
    obtain rfl | before := mem_tabPut hl
    · have kept := State.mgWrite_mgmt t (k / 16) (k % 16) 8 [t.rowPhases k false, t.rowPhases k true] (.rowPhase b)
      rw [if_pos opened, State.mgWrite, State.mgSend, State.lane_setLane_same] at kept
      rw [kept] at hr
      obtain ⟨l, hl, hr⟩ := State.mem_lanes_of_mgmt hr
      exact h l hl r hr
    · exact h l before r hr
  · exact h

theorem State.sendRowPhases_answered {s : State} {b : Nat} (h : s.rowsAnswered b)
    (down : ∀ k ∈ s.barTiles b, s.laneState (k / 16) ≠ 5) : (s.sendRowPhases b).rowsAnswered b := by
  have both : (s.sendRowPhases b).rowsAnswered b ∧ (s.sendRowPhases b).regs = s.regs := by
    refine List.foldlRecOn (motive := fun t : State => t.rowsAnswered b ∧ t.regs = s.regs) (s.barTiles b) _ ⟨h, rfl⟩ fun t ht k hk => ?_
    obtain ⟨answered, regs⟩ := ht
    have same : t.laneState (k / 16) = s.laneState (k / 16) := by simp only [State.laneState, State.get, State.rd, regs]
    refine ⟨State.rowPhaseTo_answered answered (by rw [same]; exact down k hk), ?_⟩
    show (t.rowPhaseTo b k).regs = s.regs
    rw [t.rowPhaseTo_eq b k]
    exact regs
  exact both.1

/-! ### A bar disabled -/

/-- Entries of a bar removed from the lanes of a list. -/
theorem foldl_cancel_queue (b j : Nat) : ∀ (l : List (Nat × Lane)) (s : State),
    ((l.foldl (fun t x => (t.removeEntries x.1 (fun e => e.bar == b)).2) s).lane j).queue =
      if j ∈ l.map Prod.fst then (s.lane j).queue.filter (fun e => e.bar != b) else (s.lane j).queue
  | [], s => rfl
  | x :: l, s => by
    obtain ⟨-, queue, others, -⟩ := s.removeEntries_spec x.1 (fun e => e.bar == b)
    rw [List.foldl_cons, foldl_cancel_queue b j l, List.map_cons]
    obtain rfl | hj := eq_or_ne j x.1
    · have same : ((s.removeEntries x.1 (fun e => e.bar == b)).2.lane x.1).queue = (s.lane x.1).queue.filter (fun e => e.bar != b) := queue
      have twice : ((s.lane x.1).queue.filter (fun e => e.bar != b)).filter (fun e => e.bar != b) =
          (s.lane x.1).queue.filter (fun e => e.bar != b) := by
        rw [List.filter_filter]
        exact List.filter_congr fun e _ => Bool.and_self _
      rw [if_pos List.mem_cons_self, same, twice, ite_self]
    · have member : j ∈ x.1 :: l.map Prod.fst ↔ j ∈ l.map Prod.fst := List.mem_cons.trans (or_iff_right hj)
      rw [others j hj]
      exact if_congr member.symm rfl rfl

theorem State.cancelBar_queue (s : State) (b j : Nat) :
    ((s.cancelBar b).lane j).queue = (s.lane j).queue.filter (fun e => e.bar != b) := by
  rw [State.cancelBar, foldl_cancel_queue]
  split
  · rfl
  · next absent =>
    have unlisted : tabFind s.lanes j = none := tabFind_none_of_forall fun l hl same => absent (List.mem_map.mpr ⟨l, hl, same⟩)
    have empty : (s.lane j).queue = [] := by
      rw [State.lane, tabGet, unlisted]
      rfl
    rw [empty, List.filter_nil]

theorem State.cancelBar_rd (s : State) (b : Nat) {a : Nat} (ha : ¬ memReg a) : (s.cancelBar b).rd a = s.rd a :=
  List.foldlRecOn (motive := fun t : State => t.rd a = s.rd a) s.lanes _ rfl fun t ht l _ => (t.removeEntries_rd l.1 _ ha).trans ht

/-! ### A write of BARn_CFG -/

/-- The axis of an enabled bar does not change. -/
theorem State.barCfgWrite_axis {s : State} {b : Nat} {v : W32} (en : s.flag (F.BAR_CFG_en b) = true)
    (differs : bitsOf (v &&& 0x87000000) 26 24 ≠ s.get (F.BAR_CFG_axis b)) : s.barCfgWrite b v = s.set (F.BAR_STAT_cfg_err b) 1 := by
  rw [State.barCfgWrite, if_pos]
  rw [en, Bool.true_and]
  exact bne_iff_ne.mpr differs

/-- A bar is not enabled without a pitch or without tiles. -/
theorem State.barCfgWrite_refused {s : State} {b : Nat} {v : W32} (en : s.flag (F.BAR_CFG_en b) = false)
    (on : bitsOf (v &&& 0x87000000) 31 31 = 1) (bad : s.get (F.BAR_PITCH_pitch b) = 0 ∨ s.barTiles b = []) :
    s.barCfgWrite b v = s.set (F.BAR_STAT_cfg_err b) 1 := by
  have lacks : (s.get (F.BAR_PITCH_pitch b) == 0 || (s.barTiles b).isEmpty) = true := by
    rw [Bool.or_eq_true, beq_iff_eq, List.isEmpty_iff]
    exact bad
  simp only [State.barCfgWrite, en, on, lacks]
  rfl

theorem State.barCfgWrite_on {s : State} {b : Nat} {v : W32} (en : s.flag (F.BAR_CFG_en b) = false)
    (on : bitsOf (v &&& 0x87000000) 31 31 = 1) (pitch : s.get (F.BAR_PITCH_pitch b) ≠ 0) (tiles : s.barTiles b ≠ []) :
    s.barCfgWrite b v =
      (((((s.wr (R.BAR_CFG b) (v &&& 0x87000000)).set (F.BAR_LATE_late b) 0).sendRowPhases b).barReady b).barCondRefresh b) := by
  have fits : (s.get (F.BAR_PITCH_pitch b) == 0 || (s.barTiles b).isEmpty) = false := by
    rw [Bool.or_eq_false_iff, beq_eq_false_iff_ne, List.isEmpty_eq_false_iff]
    exact ⟨pitch, tiles⟩
  simp only [State.barCfgWrite, en, on, fits]
  rfl

theorem State.barCfgWrite_off {s : State} {b : Nat} {v : W32} (en : s.flag (F.BAR_CFG_en b) = true)
    (off : bitsOf (v &&& 0x87000000) 31 31 = 0) (same : bitsOf (v &&& 0x87000000) 26 24 = s.get (F.BAR_CFG_axis b)) :
    s.barCfgWrite b v = (((s.wr (R.BAR_CFG b) (v &&& 0x87000000)).cancelBar b).set (F.BAR_STAT_rdy b) 0).barCondRefresh b := by
  simp only [State.barCfgWrite, en, off, same, bne_self_eq_false]
  rfl

/-- A bar whose word is written, with its count of late lines cleared. -/
def State.barOpened (s : State) (b : Nat) (w : W32) : State := (s.wr (R.BAR_CFG b) w).set (F.BAR_LATE_late b) 0

theorem State.barOpened_touches (s : State) (b : Nat) (w : W32) : Touches (fun a => a = R.BAR_CFG b ∨ a = R.BAR_LATE b) s (s.barOpened b w) :=
  ((s.wr_touches _ w).mono fun _ => Or.inl).trans ((State.set_touches _ (F.BAR_LATE_late b) 0).mono fun _ => Or.inr)

theorem State.barOpened_rd (s : State) {b a : Nat} (hb : b < 8) (w : W32) (ha : 0x40041000 ≤ a) : (s.barOpened b w).rd a = s.rd a :=
  (s.barOpened_touches b w).rd a (by unfold R.BAR_CFG R.BAR_LATE; omega)

theorem State.barOpened_word (s : State) (b : Nat) (w : W32) : (s.barOpened b w).rd (R.BAR_CFG b) = w :=
  (State.rd_set_ne _ _ (show R.BAR_CFG b ≠ R.BAR_LATE b by unfold R.BAR_CFG R.BAR_LATE; omega)).trans (s.rd_wr_same _ w)

/-- The tile lists and row phases are those of before. -/
theorem State.barOpened_barTiles (s : State) {b : Nat} (hb : b < 8) (w : W32) : (s.barOpened b w).barTiles b = s.barTiles b := by
  have listed (k : Nat) : (s.barOpened b w).inBar k b = s.inBar k b := by
    have cfg : (s.barOpened b w).rd (R.FIRE_TILE_CFG k) = s.rd (R.FIRE_TILE_CFG k) :=
      s.barOpened_rd hb w (by unfold R.FIRE_TILE_CFG; omega)
    rw [State.inBar, State.inBar, State.flag_of_rd (f := F.FIRE_TILE_CFG_en k) cfg, State.get_of_rd (f := F.FIRE_TILE_CFG_bar k) cfg]
  exact List.filter_congr fun k _ => listed k

theorem State.barOpened_rowPhases (s : State) {b : Nat} (hb : b < 8) (w : W32) (k : Nat) (rev : Bool) :
    (s.barOpened b w).rowPhases k rev = s.rowPhases k rev := by
  have low : (s.barOpened b w).rd (R.FIRE_TILE_ROW01 k) = s.rd (R.FIRE_TILE_ROW01 k) :=
    s.barOpened_rd hb w (by unfold R.FIRE_TILE_ROW01; omega)
  have high : (s.barOpened b w).rd (R.FIRE_TILE_ROW23 k) = s.rd (R.FIRE_TILE_ROW23 k) :=
    s.barOpened_rd hb w (by unfold R.FIRE_TILE_ROW23; omega)
  simp only [State.rowPhases, State.getInt, State.get_of_rd (f := F.FIRE_TILE_ROW01_even k) low,
    State.get_of_rd (f := F.FIRE_TILE_ROW01_odd k) low, State.get_of_rd (f := F.FIRE_TILE_ROW23_even k) high,
    State.get_of_rd (f := F.FIRE_TILE_ROW23_odd k) high]

theorem State.barOpened_lane (s : State) {b : Nat} (hb : b < 8) (w : W32) {f : Field} (lane : Nat) (base : Nat)
    (h : f.addr = base + lane * 0x800) (low : 0x40050000 ≤ base) : (s.barOpened b w).get f = s.get f :=
  State.get_of_rd (s.barOpened_rd hb w (by omega))

/-- The row phases leave the registers and memory, and a flag and a condition follow. -/
theorem State.barFinish_touches (s : State) (b : Nat) :
    Touches (fun a => a = R.BAR_STAT b ∨ barShutterReg b a) s ((s.barReady b).barCondRefresh b) :=
  ((s.barReady_touches b).mono fun _ => Or.inl).trans (((s.barReady b).barCondRefresh_touches b).mono fun _ => Or.inr)

/-- A bar without a row-phase write to answer is ready. -/
theorem State.barReady_rdy {s : State} {b : Nat} (en : s.flag (F.BAR_CFG_en b) = true) (answered : s.rowsAnswered b) :
    (s.barReady b).get (F.BAR_STAT_rdy b) = 1 := by
  rw [State.barReady, en, State.rowPending_eq_false answered]
  exact s.get_set_same (F.BAR_STAT_rdy b) 1 (Nat.le_refl 2) (show 2 < 32 by decide)

/-- A bar enabled: its word and count of late lines, the row phases sent, and ready where none has to be answered. -/
theorem State.barEnable_spec {s : State} {b : Nat} (hb : b < 8) {v : W32} (en : s.flag (F.BAR_CFG_en b) = false)
    (on : bitsOf (v &&& 0x87000000) 31 31 = 1) (pitch : s.get (F.BAR_PITCH_pitch b) ≠ 0) (tiles : s.barTiles b ≠ []) :
    let t := s.barCfgWrite b v
    t.rd (R.BAR_CFG b) = v &&& 0x87000000 ∧ t.get (F.BAR_LATE_late b) = 0 ∧ SameMemory s t ∧
    (∀ k ∈ s.barTiles b, s.laneState (k / 16) = 5 → natBit (s.present (k / 16)) (k % 16) = true → s.excluded (k / 16) (k % 16) = false →
      RowPhasesSent s b k (t.lane (k / 16))) ∧
    ((∀ k ∈ s.barTiles b, s.laneState (k / 16) ≠ 5) → s.rowsAnswered b → t.get (F.BAR_STAT_rdy b) = 1) := by
  intro t
  let x := s.barOpened b (v &&& 0x87000000)
  let y := x.sendRowPhases b
  have result : t = (y.barReady b).barCondRefresh b := State.barCfgWrite_on en on pitch tiles
  have finish : Touches _ y t := result ▸ y.barFinish_touches b
  have rd {a : Nat} (low : 0x40040000 ≤ a) (high : a < 0x40042000) (ne : a ≠ R.BAR_STAT b) : t.rd a = x.rd a := by
    rw [finish.rd a (fun h => h.elim ne (not_barShutterReg hb low high)), x.sendRowPhases_rd]
  have cfg : t.rd (R.BAR_CFG b) = x.rd (R.BAR_CFG b) := rd (by unfold R.BAR_CFG; omega) (by unfold R.BAR_CFG; omega)
    (by unfold R.BAR_CFG R.BAR_STAT; omega)
  have late : t.rd (R.BAR_LATE b) = x.rd (R.BAR_LATE b) := rd (by unfold R.BAR_LATE; omega) (by unfold R.BAR_LATE; omega)
    (by unfold R.BAR_LATE R.BAR_STAT; omega)
  have list : x.barTiles b = s.barTiles b := s.barOpened_barTiles hb _
  have state (lane : Nat) : x.laneState lane = s.laneState lane := s.barOpened_lane hb _ lane 0x40050004 rfl (by decide)
  refine ⟨cfg.trans (s.barOpened_word b _), ?_, fun a => ?_, fun k hk up here takes => ?_, fun down answered => ?_⟩
  · exact (State.get_of_rd (f := F.BAR_LATE_late b) late).trans
      (State.get_set_same _ (F.BAR_LATE_late b) 0 (Nat.zero_le 31) (Nat.lt_succ_self 31))
  · rw [finish.mem, x.sendRowPhases_rdByte, (s.barOpened_touches b _).mem]
  · have present : x.present (k / 16) = s.present (k / 16) := s.barOpened_lane hb _ (k / 16) 0x40050010 rfl (by decide)
    have excl : x.get (F.LANE_EXCL_excl (k / 16)) = s.get (F.LANE_EXCL_excl (k / 16)) :=
      s.barOpened_lane hb _ (k / 16) 0x40050014 rfl (by decide)
    have excluded : x.excluded (k / 16) (k % 16) = s.excluded (k / 16) (k % 16) := by simp only [State.excluded, State.bit, excl]
    obtain ⟨r, waits, pos, op, addr, data, why⟩ := foldl_rowPhaseTo_sends (b := b) (x.barTiles b) x (list ▸ hk)
      ((state _).trans up) (present ▸ here) (excluded.trans takes)
    rw [finish.lane]
    refine ⟨r, waits, pos, op, addr, ?_, why⟩
    rw [data, s.barOpened_rowPhases hb, s.barOpened_rowPhases hb]
  · have en' : y.flag (F.BAR_CFG_en b) = true := by
      have word : y.get (F.BAR_CFG_en b) = 1 := by
        rw [State.get, x.sendRowPhases_rd]
        exact (congrArg (fun w => bitsOf w 31 31) (s.barOpened_word b _)).trans on
      rw [State.flag, word]
      rfl
    have rows : y.rowsAnswered b := State.sendRowPhases_answered answered fun k hk => by
      rw [state]
      exact down k (list ▸ hk)
    rw [result, ((y.barReady b).barCondRefresh_touches b).get (F.BAR_STAT_rdy b) (not_barShutterReg_stat hb)]
    exact State.barReady_rdy en' rows

/-- A bar disabled: its word, not ready, and its entries cancelled in every lane. -/
theorem State.barDisable_spec {s : State} {b : Nat} (hb : b < 8) {v : W32} (en : s.flag (F.BAR_CFG_en b) = true)
    (off : bitsOf (v &&& 0x87000000) 31 31 = 0) (same : bitsOf (v &&& 0x87000000) 26 24 = s.get (F.BAR_CFG_axis b)) :
    let t := s.barCfgWrite b v
    t.rd (R.BAR_CFG b) = v &&& 0x87000000 ∧ t.get (F.BAR_STAT_rdy b) = 0 ∧
      ∀ j, (t.lane j).queue = (s.lane j).queue.filter (fun e => e.bar != b) := by
  intro t
  let x := s.wr (R.BAR_CFG b) (v &&& 0x87000000)
  let y := (x.cancelBar b).set (F.BAR_STAT_rdy b) 0
  have result : t = y.barCondRefresh b := State.barCfgWrite_off en off same
  have finish : Touches (barShutterReg b) y t := result ▸ y.barCondRefresh_touches b
  refine ⟨?_, ?_, fun j => ?_⟩
  · rw [finish.rd _ (not_barShutterReg hb (by unfold R.BAR_CFG; omega) (by unfold R.BAR_CFG; omega)),
      State.rd_set_ne _ _ (show R.BAR_CFG b ≠ R.BAR_STAT b by unfold R.BAR_CFG R.BAR_STAT; omega),
      x.cancelBar_rd b (not_memReg_of_bounds (by unfold R.BAR_CFG; omega) (by unfold R.BAR_CFG; omega))]
    exact s.rd_wr_same _ _
  · rw [finish.get (F.BAR_STAT_rdy b)
      (not_barShutterReg_stat hb)]
    exact State.get_set_same _ (F.BAR_STAT_rdy b) 0 (Nat.le_refl 2) (show 2 < 32 by decide)
  · rw [finish.lane]
    exact x.cancelBar_queue b j

/-! ### Tiles (R156, R258) -/

theorem State.tileExists_of_here {s : State} (k : Fin 384) (here : natBit s.lanesOff (k / 16) = false) : s.tileExists k = true := by
  rw [State.tileExists, State.laneFused, here, decide_eq_true k.isLt]
  rfl

/-- The tile of a word is in an enabled bar. -/
def State.heldIn (s : State) (w : W32) : Bool := w.getLsbD 31 && s.flag (F.BAR_CFG_en (w.extractLsb' 24 3).toNat)

/-- A write of FIRE_TILEk_CFG that would take the tile out of an enabled bar, or put it into one. -/
theorem State.tileCfgWrite_refused {s : State} {k : Nat} {v : W32} (moves : v &&& 0x87000000 ≠ s.rd (R.FIRE_TILE_CFG k))
    (held : s.heldIn (s.rd (R.FIRE_TILE_CFG k)) = true ∨ s.heldIn (v &&& 0x87000000) = true) :
    s.tileCfgWrite k v = s.set (F.BAR_STAT_cfg_err
      ((if s.heldIn (s.rd (R.FIRE_TILE_CFG k)) = true then s.rd (R.FIRE_TILE_CFG k) else v &&& 0x87000000).extractLsb' 24 3).toNat) 1 := by
  have differs : (v &&& 0x87000000 != s.rd (R.FIRE_TILE_CFG k)) = true := bne_iff_ne.mpr moves
  have bar (w : W32) : bitsOf w 26 24 = (w.extractLsb' 24 3).toNat := (bitsOf_extract w 26 24).symm
  unfold State.tileCfgWrite
  simp only [differs, bitsOf_bit, bar, ← State.heldIn.eq_def, held, Bool.true_and, Bool.or_eq_true, if_true]
  split <;> rfl

/-- Any other write is stored, and the tile's breeze setting is due. -/
theorem State.tileCfgWrite_stored {s : State} {k : Nat} {v : W32} (free : v &&& 0x87000000 = s.rd (R.FIRE_TILE_CFG k) ∨
    s.heldIn (s.rd (R.FIRE_TILE_CFG k)) = false ∧ s.heldIn (v &&& 0x87000000) = false) :
    s.tileCfgWrite k v = (s.wr (R.FIRE_TILE_CFG k) (v &&& 0x87000000)).breezeDue k := by
  have bar (w : W32) : bitsOf w 26 24 = (w.extractLsb' 24 3).toNat := (bitsOf_extract w 26 24).symm
  unfold State.tileCfgWrite
  simp only [bitsOf_bit, bar, ← State.heldIn.eq_def]
  rcases free with same | ⟨out, into⟩
  · simp only [same, bne_self_eq_false, Bool.false_and, Bool.false_eq_true, if_false]
  · simp only [out, into, Bool.or_false, Bool.and_false, Bool.false_eq_true, if_false]

/-- The tile whose breeze setting is due, and what else that leaves. -/
theorem State.breezeDue_spec (s : State) (k : Nat) : natBit ((s.breezeDue k).lane (k / 16)).breezeDue (k % 16) = true ∧
    (s.breezeDue k).regs = s.regs ∧ SameMemory s (s.breezeDue k) := by
  refine ⟨?_, rfl, fun _ => rfl⟩
  rw [State.breezeDue, State.lane_setLane_same, natBit_setBit, if_pos rfl]

theorem State.tileRowWrite_eq (s : State) (k a : Nat) (v : W32) : s.tileRowWrite k a v =
    if s.flag (F.FIRE_TILE_CFG_en k) = true ∧ s.flag (F.BAR_CFG_en (s.get (F.FIRE_TILE_CFG_bar k))) = true ∧ v ≠ s.rd a then
      s.set (F.BAR_STAT_cfg_err (s.get (F.FIRE_TILE_CFG_bar k))) 1 else s.wr a v := by
  simp only [State.tileRowWrite, Bool.and_eq_true, bne_iff_ne, and_assoc]

/-! ### The equalisation time (R154) -/

theorem State.anyLane_iff (s : State) : (List.range 24).any (fun n => s.laneState n != 0) = true ↔ ∃ n < 24, s.laneState n ≠ 0 := by
  simp only [List.any_eq_true, List.mem_range, bne_iff_ne]

theorem State.teqWrite_refused {s : State} {v : W32} (changes : bitsOf v 12 0 ≠ s.get F.FIRE_EQ_teq_ns)
    (running : ∃ n < 24, s.laneState n ≠ 0) : s.teqWrite v = s.set F.FIRE_EQ_err 1 := by
  rw [State.teqWrite, s.anyLane_iff.mpr running, Bool.and_true, if_pos (bne_iff_ne.mpr changes)]

/-- The time stored, err cleared by a 1, and nothing else. -/
theorem State.teqWrite_stored {s : State} {v : W32} (free : bitsOf v 12 0 = s.get F.FIRE_EQ_teq_ns ∨ ∀ n < 24, s.laneState n = 0) :
    (s.teqWrite v).get F.FIRE_EQ_teq_ns = bitsOf v 12 0 ∧
    (s.teqWrite v).get F.FIRE_EQ_err = (if v.getLsbD 31 = true then 0 else s.get F.FIRE_EQ_err) ∧
    ∀ a, a ≠ R.FIRE_EQ → (s.teqWrite v).rd a = s.rd a := by
  let kept := s.rd R.FIRE_EQ &&& if bitsOf v 31 31 == 1 then 0x7FFFFFFF else 0xFFFFFFFF
  have stored : s.teqWrite v = s.wr R.FIRE_EQ (putBits kept 12 0 (bitsOf v 12 0)) := by
    refine if_neg fun refused => ?_
    obtain ⟨changes, running⟩ := Bool.and_eq_true_iff.mp refused
    obtain ⟨n, hn, runs⟩ := s.anyLane_iff.mp running
    exact free.elim (bne_iff_ne.mp changes) fun down => runs (down n hn)
  have word : (s.teqWrite v).rd R.FIRE_EQ = putBits kept 12 0 (bitsOf v 12 0) := by rw [stored, State.rd_wr_same]
  have err : bitsOf kept 31 31 = if v.getLsbD 31 = true then 0 else s.get F.FIRE_EQ_err := by
    show bitsOf (s.rd R.FIRE_EQ &&& _) 31 31 = if v.getLsbD 31 = true then 0 else bitsOf (s.rd R.FIRE_EQ) 31 31
    rw [bitsOf_bit]
    cases v.getLsbD 31
    · exact bitsOf_and_mask _ _ 31 31 (by decide)
    · refine Nat.eq_of_testBit_eq fun k => ?_
      have clear : (0x7FFFFFFF : Nat).testBit 31 = false := by decide
      rw [bitsOf_testBit]
      by_cases hk : k = 0 <;> simp [hk, clear]
  refine ⟨?_, ?_, fun a ha => ?_⟩
  · have time : bitsOf (putBits kept 12 0 (bitsOf v 12 0)) 12 0 = bitsOf v 12 0 :=
      (bitsOf_putBits _ _ _ _ (by decide) (by decide)).trans (Nat.mod_eq_of_lt (bitsOf_lt v 12 0))
    exact (congrArg (fun w => bitsOf w 12 0) word).trans time
  · have above : bitsOf (putBits kept 12 0 (bitsOf v 12 0)) 31 31 = bitsOf kept 31 31 :=
      bitsOf_putBits_disjoint _ _ _ _ _ _ (by decide) (by decide) (by decide)
    exact ((congrArg (fun w => bitsOf w 31 31) word).trans above).trans err
  · rw [stored]
    exact s.rd_wr_ne _ ha

/-! ### The statement -/

/-- A write of LANEn_SCHED, by its three commands. -/
theorem schedule_results (lane : Fin 24) (v : W32) {s : State} (here : natBit s.lanesOff lane = false) :
    Completes (.schedDisable lane v) s (fun t => (t.lane lane).queue = [] ∧ t.rd (R.LANE_SCHED lane) = 0 ∧
      ∀ j, j ≠ lane.val → t.lane j = s.lane j) ∧
    Completes (.schedFlush lane v) s (fun t => (t.lane lane).queue = [] ∧ t.rd (R.LANE_SCHED lane) = v &&& 0x80000000 ∧
      ∀ j, j ≠ lane.val → t.lane j = s.lane j) ∧
    (v.getLsbD 1 = false → Completes (.schedEnable lane v) s (fun t => t.lanes = s.lanes ∧ t.rd (R.LANE_SCHED lane) = 0x80000000 ∧
      SameMemory s t ∧ ∀ r ∈ schedCounters lane, t.rd r = if s.flag (F.LANE_SCHED_en lane) then s.rd r else 0)) := by
  have runs (c : Instr) (w : W32) (h : exec c s = .next (if s.laneFused lane.val then s else s.schedWrite lane.val w)) :
      exec c s = .next (s.schedWrite lane.val w) := by
    rwa [State.laneFused, here] at h
  refine ⟨⟨_, runs _ _ rfl, ?_⟩, ⟨_, runs _ _ rfl, ?_⟩, fun keep => ⟨_, runs _ _ rfl, ?_⟩⟩
  · have off : bitsOf (putBits v 31 31 0) 31 31 ≠ 1 := by
      rw [bitsOf_putBits _ _ _ _ (by decide) (by decide)]
      decide
    have cancels := s.schedWrite_cancels lane _ (Or.inl off)
    rw [schedOffWord] at cancels
    exact cancels
  · have flush : bitsOf (putBits v 1 1 1) 1 1 = 1 := bitsOf_putBits _ _ _ _ (by decide) (by decide)
    have cancels := s.schedWrite_cancels lane _ (Or.inr flush)
    rw [flushWord] at cancels
    exact cancels
  · have on : bitsOf (putBits v 31 31 1) 31 31 = 1 := bitsOf_putBits _ _ _ _ (by decide) (by decide)
    have noFlush : bitsOf (putBits v 31 31 1) 1 1 ≠ 1 := by
      rw [bitsOf_putBits_disjoint _ _ _ _ _ _ (by decide) (by decide) (by decide)]
      intro flush
      rw [← bitsOf_bit, flush] at keep
      exact Bool.noConfusion keep
    have cleared := s.schedCleared_touches lane (!s.flag (F.LANE_SCHED_en lane))
    rw [s.schedWrite_enables lane _ on noFlush]
    refine ⟨?_, (State.rd_wr_same _ _ _).trans (schedOnWord v), cleared.mem, fun r hr => ?_⟩
    · rw [State.wr_lanes, cleared.core]
    · rw [State.rd_wr_ne _ _ (schedCounters_ne hr), s.schedCleared_rd _ hr]
      cases s.flag (F.LANE_SCHED_en lane) <;> rfl

/-- Settles O48: a write of LANEn_SCHED, BARn_CFG, FIRE_TILEk_CFG and FIRE_EQ, each by its cases above. -/
theorem fireConfigResults : Obligations.FireConfigResults := by
  refine ⟨fun lane v s here => ?_,
    fun b v s => ⟨fun en => ⟨fun bad => ?_, fun pitch tiles => ?_⟩, fun en => ⟨fun differs c hc => ?_, fun same => ?_⟩⟩,
    fun k v s here => ?_, fun v s => ⟨fun free => ?_, fun changes running => ?_⟩⟩
  · obtain ⟨disabled, flushed, enabled⟩ := schedule_results lane v here
    refine ⟨disabled, flushed, fun keep => ?_⟩
    obtain ⟨t, runs, lanes, word, mem, counters⟩ := enabled keep
    exact ⟨t, runs, lanes, word, mem, fun r hr =>
      counters r (List.mem_append_left [R.LANE_UNCONF_FIRST lane, R.LANE_UNCONF_LAST lane] hr)⟩
  · exact congrArg Host.Outcome.next (State.barCfgWrite_refused en (bitsOf_barWord v (by decide)).1 bad)
  · obtain ⟨word, late, mem, rows, ready⟩ := State.barEnable_spec b.isLt en (bitsOf_barWord v (by decide)).1 pitch tiles
    exact ⟨_, rfl, word.trans (enableWord v 0x07000000), late, mem, rows, ready⟩
  · have axis (x : Nat) (hx : x < 2) : s.barCfgWrite b (putBits v 31 31 x) = s.set (F.BAR_STAT_cfg_err b) 1 :=
      State.barCfgWrite_axis en fun same => differs ((bitsOf_barWord v hx).2.symm.trans same)
    obtain rfl | hc := List.mem_cons.mp hc
    · exact congrArg Host.Outcome.next (axis 1 (by decide))
    · rw [List.mem_singleton.mp hc]
      exact congrArg Host.Outcome.next (axis 0 (by decide))
  · obtain ⟨off, axis⟩ := bitsOf_barWord v (x := 0) (by decide)
    obtain ⟨word, ready, queues⟩ := State.barDisable_spec b.isLt en off (axis.trans same)
    exact ⟨_, rfl, word.trans (disableWord v _), ready, queues⟩
  · have runs (reg : TileReg) : exec (.tileCfgWrite k reg v) s = .next (s.tileRegWrite k reg v) :=
      congrArg Host.Outcome.next (if_pos (State.tileExists_of_here k here))
    refine ⟨fun free => ⟨_, (runs .cfg).trans (congrArg Host.Outcome.next (State.tileCfgWrite_stored free)), ?_⟩,
      fun moves held => ?_, ?_⟩
    · obtain ⟨due, regs, mem⟩ := (s.wr (R.FIRE_TILE_CFG k) (v &&& 0x87000000)).breezeDue_spec k
      refine ⟨?_, due, mem⟩
      rw [State.rd, regs]
      exact s.rd_wr_same _ _
    · exact (runs .cfg).trans (congrArg Host.Outcome.next (State.tileCfgWrite_refused moves held))
    · exact (runs .row01).trans (congrArg Host.Outcome.next (s.tileRowWrite_eq k _ v))
  · rw [bitsOf_extract v 12 0] at free ⊢
    exact ⟨_, rfl, State.teqWrite_stored free⟩
  · rw [bitsOf_extract v 12 0] at changes
    exact congrArg Host.Outcome.next (State.teqWrite_refused changes running)

end Sys2Proof.Machine
end

section
/-! SUPPORT. A line that leaves for its tile: what the link engine finds in a slot, what the governor makes of the line, and the lane
behind it (R39, R135, R136, R143, R200, R201, R236). -/

namespace Sys2Proof.Machine

/-! ### The slot as the link engine finds it (R39, R136) -/

theorem State.slotSeen_eq (s : State) (lane pos tag : Nat) : s.slotSeen lane pos tag =
    (tabFind (s.lane lane).slotTimes (pos * 16 + tag % 16)).all (fun u => decide (u + 4 ≤ s.uptime)) := by
  unfold State.slotSeen
  cases tabFind (s.lane lane).slotTimes (pos * 16 + tag % 16) <;> rfl

theorem State.slotSeen_iff (s : State) (lane pos tag : Nat) : s.slotSeen lane pos tag = true ↔
    ∀ u, tabFind (s.lane lane).slotTimes (pos * 16 + tag % 16) = some u → u + 4 ≤ s.uptime := by
  rw [s.slotSeen_eq]
  cases tabFind (s.lane lane).slotTimes (pos * 16 + tag % 16) <;> simp

theorem headerReady_eq (h : W32) {e : Entry} (tag : e.tag < 256) :
    headerReady h e = (h.extractLsb' 30 2 == 1 && h.extractLsb' 16 8 == BitVec.ofNat 8 e.tag) := by
  have state : (bitsOf h 31 30 == 1) = (h.extractLsb' 30 2 == 1) := by
    rw [← bitsOf_extract, Bool.eq_iff_iff, beq_iff_eq, beq_iff_eq, ← BitVec.toNat_inj]
    rfl
  have line : (bitsOf h 23 16 == e.tag) = (h.extractLsb' 16 8 == BitVec.ofNat 8 e.tag) := by
    rw [← bitsOf_extract, Bool.eq_iff_iff, beq_iff_eq, beq_iff_eq, ← BitVec.toNat_inj, BitVec.toNat_ofNat, Nat.mod_eq_of_lt tag]
  rw [headerReady, state, line]

/-- The slot of an entry is seen and holds its line, ready. -/
def State.slotReady (s : State) (lane pos : Nat) (e : Entry) : Bool :=
  s.slotSeen lane pos e.tag && headerReady (s.wordAt (slotHeader lane pos e.tag)) e

/-- A slot whose header has no erroneous cell. -/
theorem State.viewSlot_of_sound {s : State} {lane pos : Nat} {e : Entry} (h : s.sound (slotHeader lane pos e.tag) 4) :
    s.viewSlot lane pos e = (if s.slotReady lane pos e then .ready (s.wordAt (slotHeader lane pos e.tag)) else .waiting, s) := by
  have read : s.headerRead lane pos e.tag = (some (s.wordAt (slotHeader lane pos e.tag)), s) := by
    rw [State.headerRead, State.dataRead_of_sound h, ← State.word_rdBytes]
  unfold State.viewSlot State.slotReady
  rw [read]
  cases s.slotSeen lane pos e.tag <;> rfl

/-- The header of a line that has left: its state is sent. -/
theorem sentHeader_eq (h : W32) : putBits h 31 30 2 = (h &&& 0x3FFFFFFF) ||| 0x80000000 := by
  have low : ∀ k < 32, (0x3FFFFFFF : W32).getLsbD k = decide (k < 30) := by decide
  have top : ∀ k < 32, (0x80000000 : W32).getLsbD k = decide (k = 31) := by decide
  have two : ∀ k < 32, 30 ≤ k → Nat.testBit 2 (k - 30) = decide (k = 31) := by decide
  refine BitVec.eq_of_getLsbD_eq fun k hk => ?_
  rw [putBits_getLsbD _ _ _ _ _ (by decide) (by decide), BitVec.getLsbD_or, BitVec.getLsbD_and, low k hk, top k hk]
  by_cases state : 30 ≤ k
  · rw [if_pos ⟨state, by omega⟩, two k hk state, decide_eq_false (Nat.not_lt.mpr state), Bool.and_false, Bool.false_or]
  · rw [if_neg (fun h => state h.1), decide_eq_true (Nat.lt_of_not_le state), Bool.and_true,
      decide_eq_false (p := k = 31) (by omega), Bool.or_false]

/-! ### The governor (R200, R201) -/

theorem govNozzle_limit_zero (emax : Nat) (ew : Nat → Nat) (j x : Nat) (g : GovLine) : (govNozzle 0 emax ew [] j x g).1 = 0 := by
  by_cases h : x = 0 <;> simp [govNozzle, h]

theorem govNozzles_limit_zero (emax : Nat) (ew : Nat → Nat) : ∀ (xs : List Nat) (j : Nat) (g : GovLine),
    ∀ y ∈ (govNozzles 0 emax ew [] j xs g).1, y = 0
  | [], _, _, _, h => absurd h List.not_mem_nil
  | x :: xs, j, g, y, h => by
    obtain rfl | later := List.mem_cons.mp h
    · exact govNozzle_limit_zero emax ew j x g
    · exact govNozzles_limit_zero emax ew xs (j + 1) _ y later

theorem packLevels_blank (bits : Nat) : ∀ (ys : List Nat), (∀ y ∈ ys, y = 0) → packLevels bits ys = 0
  | [], _ => rfl
  | y :: ys, h => by
    rw [packLevels, h y List.mem_cons_self, packLevels_blank bits ys fun z hz => h z (List.mem_cons_of_mem y hz)]
    simp

theorem leBytes_zero : ∀ n, leBytes n 0 = List.replicate n 0
  | 0 => rfl
  | n + 1 => congrArg (0 :: ·) (leBytes_zero n)

/-- A line's levels as the governor lets them through, and its running values behind them. -/
def State.govLine (s : State) (lane pos tag bits : Nat) (parity : List (Fin 2048)) : List Nat × GovLine :=
  govNozzles (s.get (F.HEALTH_GOV_CFG_dmax lane)) (s.get (F.HEALTH_GOV_EMAX_emax lane)) (s.energyWeight lane) parity 0
    (unpackLevels bits 2048 (leNat (s.rdBytes (slotAddr lane pos tag) (256 * bits)))) { tile := s.tile (lane * 16 + pos) }

/-- What the governor counts and reports of a line. -/
def State.govReported (t : State) (lane pos tag : Nat) (g : GovLine) (parity : List (Fin 2048)) : State :=
  let u := (t.bumpBy (F.HEALTH_GOV_SUPN_count lane) g.supn).bumpBy (F.HEALTH_GOV_SUPE_count lane) g.supe
  let v := match g.first with
    | none => u
    | some c =>
      let w := u.setBit (F.HEALTH_GOV_STAT_sup lane) pos true
      if u.bit (F.HEALTH_GOV_STAT_sup lane) pos then w else w.govLimit lane pos c tag
  if parity.isEmpty then v else (v.set (F.HEALTH_GOV_STAT_par_err lane) 1).govLimit lane pos 2 tag

theorem State.govReported_touches (t : State) (lane pos tag : Nat) (g : GovLine) (parity : List (Fin 2048)) :
    Touches (fun _ => True) t (t.govReported lane pos tag g parity) := by
  have stored (x : State) (f : Field) (n : Nat) : Touches (fun _ => True) x (x.set f n) := (x.set_touches f n).mono fun _ _ => trivial
  have posted (x : State) (cause : Nat) : Touches (fun _ => True) x (x.govLimit lane pos cause tag) :=
    (x.post_quiet _ _ _ _).mono fun _ _ => trivial
  unfold State.govReported
  extract_lets u w v
  have counted : Touches (fun _ => True) t u := (stored _ _ _).trans (stored _ _ _)
  have reported : Touches (fun _ => True) u v := by
    unfold v
    split
    · exact Touches.refl _ u
    · split
      · exact stored _ _ _
      · exact (stored _ _ _).trans (posted _ _)
  split
  · exact counted.trans reported
  · exact (counted.trans reported).trans ((stored _ _ _).trans (posted _ _))

theorem State.govern_off {s : State} {lane : Nat} (off : s.flag (F.HEALTH_GOV_CFG_en lane) = false) (pos tag bits : Nat)
    (parity : List (Fin 2048)) : s.govern lane pos tag bits parity = s := by
  rw [State.govern, off]
  rfl

/-- The governor writes the line's levels, and beside them the tile's counts, its own registers and an event. -/
theorem State.govern_on {s : State} {lane : Nat} (on : s.flag (F.HEALTH_GOV_CFG_en lane) = true) (pos tag bits : Nat)
    (parity : List (Fin 2048)) : s.govern lane pos tag bits parity =
      (((s.wrBytes (slotAddr lane pos tag) (leBytes (256 * bits) (packLevels bits (s.govLine lane pos tag bits parity).1))).cellsCleared
        (slotAddr lane pos tag) (256 * bits)).setTile (lane * 16 + pos) (s.govLine lane pos tag bits parity).2.tile).govReported
        lane pos tag (s.govLine lane pos tag bits parity).2 parity := by
  unfold State.govern
  extract_lets a len k dmax levels
  have line : govNozzles dmax (s.get (F.HEALTH_GOV_EMAX_emax lane)) (s.energyWeight lane) parity 0 levels { tile := s.tile k } =
      s.govLine lane pos tag bits parity := rfl
  rw [on, line]
  generalize s.govLine lane pos tag bits parity = r
  obtain ⟨ys, g⟩ := r
  simp only [Bool.not_true, Bool.false_eq_true, if_false, State.govReported]
  rfl

theorem State.govern_lanes (s : State) (lane pos tag bits : Nat) (parity : List (Fin 2048)) :
    (s.govern lane pos tag bits parity).lanes = s.lanes := by
  cases en : s.flag (F.HEALTH_GOV_CFG_en lane)
  · rw [State.govern_off en]
  · rw [State.govern_on en, (State.govReported_touches _ _ _ _ _ _).core, State.wrBytes_eq]
    rfl

/-- At limit 0 every level of the line is blank. -/
theorem State.govern_blanks {s : State} {lane : Nat} (on : s.flag (F.HEALTH_GOV_CFG_en lane) = true)
    (limit : s.get (F.HEALTH_GOV_CFG_dmax lane) = 0) (pos tag bits : Nat) {k : Nat} (hk : k < 256 * bits) :
    (s.govern lane pos tag bits []).rdByte (slotAddr lane pos tag + k) = 0 := by
  have blank : packLevels bits (s.govLine lane pos tag bits []).1 = 0 := by
    refine packLevels_blank bits _ ?_
    rw [State.govLine, limit]
    exact govNozzles_limit_zero _ _ _ 0 _
  rw [State.govern_on on, (State.govReported_touches _ _ _ _ _ _).mem, blank, leBytes_zero]
  refine (State.rdByte_wrBytes _ s _ _).trans ?_
  rw [List.length_replicate, if_pos ⟨Nat.le_add_right _ k, Nat.add_lt_add_left hk _⟩, Nat.add_sub_cancel_left]
  simp

/-! ### The line leaves (R135, R212, R220, R236) -/

/-- The slot of a line that leaves: governed, its header marked sent. -/
def State.slotSent (s : State) (lane pos : Nat) (e : Entry) (h : W32) (parity : List (Fin 2048)) : State :=
  (s.govern lane pos e.tag (2 + bitsOf h 24 24) parity).putHeader lane pos e.tag (putBits h 31 30 2)

theorem State.slotSent_lane (s : State) (lane pos : Nat) (e : Entry) (h : W32) (parity : List (Fin 2048)) (n : Nat) :
    (s.slotSent lane pos e h parity).lane n = s.lane n := by
  rw [State.lane, State.slotSent, ((s.govern lane pos e.tag (2 + bitsOf h 24 24) parity).putHeader_slotWork lane pos e.tag _).lanes,
    s.govern_lanes]
  rfl

theorem State.putHeader_rdByte (s : State) (lane pos tag : Nat) (h : W32) (x : Nat) :
    (s.putHeader lane pos tag h).rdByte x = (s.wrWord (slotHeader lane pos tag) h).rdByte x := State.rdByte_congr rfl rfl rfl x

theorem State.slotSent_rdByte (s : State) (lane pos : Nat) (e : Entry) (h : W32) (parity : List (Fin 2048)) {x : Nat}
    (hx : ¬(slotHeader lane pos e.tag ≤ x ∧ x < slotHeader lane pos e.tag + 4)) :
    (s.slotSent lane pos e h parity).rdByte x = (s.govern lane pos e.tag (2 + bitsOf h 24 24) parity).rdByte x := by
  rw [State.slotSent, State.putHeader_rdByte, State.wrWord_rdByte, if_neg hx]

theorem State.slotSent_header (s : State) (lane pos : Nat) (e : Entry) (h : W32) (parity : List (Fin 2048)) :
    (s.slotSent lane pos e h parity).wordAt (slotHeader lane pos e.tag) = (h &&& 0x3FFFFFFF) ||| 0x80000000 := by
  rw [State.slotSent, State.wordAt]
  simp only [State.putHeader_rdByte]
  exact (State.wrWord_wordAt_same _ _ _).trans (sentHeader_eq h)

/-- The entry of a line that has left for a position; in OPEN it counts as acknowledged. -/
def Entry.sentTo (e : Entry) (pos : Nat) (opn : Bool) : Entry :=
  { e with sent := natSetBit e.sent pos true, acked := if opn then natSetBit e.acked pos true else e.acked }

/-- The lane behind a line that has left: the transom has gone out, and but in OPEN waits for its REPLY. -/
def Lane.lineSent (l : Lane) (i pos : Nat) (e : Entry) (x : LinkOut) (copies : List LinkOut) (opn : Bool) : Lane :=
  { l with
    queue := l.queue.set i (e.sentTo pos opn)
    txs := if opn then l.txs else l.txs ++ [⟨pos, false, e.tag, 0, false, x⟩]
    out := l.out ++ copies }

theorem State.setLane_rdByte (s : State) (n : Nat) (l : Lane) (a : Nat) : (s.setLane n l).rdByte a = s.rdByte a := rfl

theorem State.lineLeaves_spec (s : State) (lane i pos : Nat) (e : Entry) (h : W32) (parity : List (Fin 2048)) :
    let u := s.slotSent lane pos e h parity
    let x := transomOut 1 pos e.tag (bitsOf h 24 24) (u.rdBytes (slotAddr lane pos e.tag) (256 * (2 + bitsOf h 24 24)))
    (s.lineLeaves lane i pos e h parity).lane lane = (s.lane lane).lineSent i pos e x (s.copies lane x) (s.laneState lane == 7) ∧
    SameMemory u (s.lineLeaves lane i pos e h parity) := by
  intro u x
  have before : u.lane lane = s.lane lane := s.slotSent_lane lane pos e h parity lane
  unfold State.lineLeaves
  extract_lets mode u' opn x' v record
  have left : v.lane lane = { s.lane lane with
      queue := (s.lane lane).queue.set i (e.sentTo pos opn), out := (s.lane lane).out ++ s.copies lane x } := by
    have slot : u'.lane lane = s.lane lane := before
    unfold v State.emit State.setEntry
    rw [State.lane_setLane_same, State.lane_setLane_same, slot]
    rfl
  have mem : SameMemory u v := fun a => (State.setLane_rdByte _ _ _ a).trans (State.setLane_rdByte _ _ _ a)
  have kind : (s.laneState lane == 7) = opn := rfl
  have sent : x' = x := rfl
  have recorded : record = v.lane lane := rfl
  rw [kind]
  clear_value opn v x' record
  cases opn
  · refine ⟨?_, fun a => (State.setLane_rdByte _ _ _ a).trans (mem a)⟩
    rw [if_neg Bool.false_ne_true, State.lane_setLane_same, recorded, left, sent]
    rfl
  · refine ⟨?_, mem⟩
    rw [if_pos rfl, left]
    rfl

/-! ### DATA_SEND (R143) -/

theorem State.maySend_iff (s : State) (lane i pos : Nat) (e : Entry) : s.maySend lane i pos e = true ↔
    natBit e.mask pos = true ∧
    (natBit e.sent pos = false ∧ natBit e.dead pos = false ∧ natBit e.blank pos = false ∧ natBit e.passed pos = false) ∧
    (s.laneState lane = 5 ∨ s.laneState lane = 7) ∧
    ((s.lane lane).queue.filter (fun x => natBit x.sent pos && !natBit x.passed pos)).length < 4 ∧
    ∀ x ∈ (s.lane lane).queue.take i, natBit x.mask pos = true → natBit x.sent pos = true := by
  have before (x : Entry) : natBit x.mask pos = false ∨ natBit x.sent pos = true ↔
      (natBit x.mask pos = true → natBit x.sent pos = true) := by
    cases natBit x.mask pos <;> simp
  simp only [State.maySend, State.laneRuns, Bool.and_eq_true, Bool.or_eq_true, Bool.not_eq_true', beq_iff_eq, decide_eq_true_eq,
    List.all_eq_true, and_assoc, before]

/-- A line whose slot is not seen ready does not leave. -/
theorem State.dataSend_waits {s : State} {lane i pos : Nat} {e : Entry} (entry : (s.lane lane).queue[i]? = some e)
    (sound : s.sound (slotHeader lane pos e.tag) 4) (wait : s.slotReady lane pos e = false) (parity : List (Fin 2048)) :
    s.dataSend lane i pos parity = s := by
  rw [State.dataSend, entry]
  dsimp only
  rw [State.viewSlot_of_sound sound, wait]
  exact ite_self s

/-- A line that may leave, its slot seen ready and without an erroneous cell, leaves. -/
theorem State.dataSend_leaves {s : State} {lane i pos : Nat} {e : Entry} (entry : (s.lane lane).queue[i]? = some e)
    (may : s.maySend lane i pos e = true) (header : s.sound (slotHeader lane pos e.tag) 4) (ready : s.slotReady lane pos e = true)
    (line : s.sound (slotAddr lane pos e.tag) (256 * (2 + bitsOf (s.wordAt (slotHeader lane pos e.tag)) 24 24))) (parity : List (Fin 2048)) :
    s.dataSend lane i pos parity = s.lineLeaves lane i pos e (s.wordAt (slotHeader lane pos e.tag)) parity := by
  rw [State.dataSend, entry]
  dsimp only
  rw [may, State.viewSlot_of_sound header, ready]
  simp only [Bool.not_true, Bool.false_eq_true, if_false, if_true]
  rw [State.engineRead, State.dataRead_of_sound line]

theorem lineBits_eq (w : W32) : (if w.getLsbD 24 = true then 3 else 2) = 2 + bitsOf w 24 24 := by
  have bound : bitsOf w 24 24 < 2 := bitsOf_lt w 24 24
  simp only [← bitsOf_bit, beq_iff_eq]
  split <;> omega

theorem State.wordAt_congr {s t : State} (h : SameMemory s t) (a : Nat) : t.wordAt a = s.wordAt a := by
  rw [State.wordAt, State.wordAt, h, h, h, h]

/-- What a line that leaves makes of its entry, its lane and memory (R135, R136, R143, R200, R236). -/
theorem State.lineLeaves_results {s : State} {lane i pos : Nat} {e : Entry} (entry : (s.lane lane).queue[i]? = some e) :
    let hd := slotHeader lane pos e.tag
    let word := s.wordAt hd
    let bits := if word.getLsbD 24 then 3 else 2
    let inOpen := decide (s.laneState lane = 7)
    let l := s.lane lane
    let t := s.lineLeaves lane i pos e word []
    let x := transomOut 1 pos e.tag (bits - 2) (t.rdBytes (slotAddr lane pos e.tag) (256 * bits))
    (t.lane lane).queue[i]? = some (e.sentTo pos inOpen) ∧
    (t.lane lane).txs = (if inOpen then l.txs else l.txs ++ [⟨pos, false, e.tag, 0, false, x⟩]) ∧
    (t.lane lane).out = l.out ++ (if inOpen then [x, x] else [x]) ∧ t.wordAt hd = (word &&& 0x3FFFFFFF) ||| 0x80000000 ∧
    (s.flag (F.HEALTH_GOV_CFG_en lane) = false → ∀ x, ¬(hd ≤ x ∧ x < hd + 4) → t.rdByte x = s.rdByte x) ∧
    (s.flag (F.HEALTH_GOV_CFG_en lane) = true → s.get (F.HEALTH_GOV_CFG_dmax lane) = 0 →
      ∀ k < 256 * bits, t.rdByte (slotAddr lane pos e.tag + k) = 0) := by
  intro hd word bits inOpen l t x
  obtain ⟨left, mem⟩ := s.lineLeaves_spec lane i pos e word []
  have width : bits = 2 + bitsOf word 24 24 := lineBits_eq word
  have opened : (s.laneState lane == 7) = inOpen := rfl
  have payload : transomOut 1 pos e.tag (bitsOf word 24 24)
      ((s.slotSent lane pos e word []).rdBytes (slotAddr lane pos e.tag) (256 * (2 + bitsOf word 24 24))) = x := by
    rw [← State.rdBytes_congr mem, ← width, ← Nat.add_sub_cancel_left (n := 2) (m := bitsOf word 24 24), ← width]
  have copies : s.copies lane x = if inOpen then [x, x] else [x] := by
    simp only [State.copies, inOpen, decide_eq_true_eq]
  rw [payload, opened, copies] at left
  have place : i < l.queue.length := (List.getElem?_eq_some_iff.mp entry).1
  refine ⟨?_, ?_, ?_, ?_, fun off a ha => ?_, fun on limit k hk => ?_⟩
  · rw [left, Lane.lineSent, List.getElem?_set_self place]
  · rw [left, Lane.lineSent]
  · rw [left, Lane.lineSent]
  · exact (State.wordAt_congr mem hd).trans (s.slotSent_header lane pos e word [])
  · rw [mem, s.slotSent_rdByte lane pos e word [] ha, State.govern_off off]
  · have levels : bitsOf word 24 24 < 2 := bitsOf_lt word 24 24
    rw [mem, s.slotSent_rdByte lane pos e word [] (by unfold slotHeader; omega)]
    exact State.govern_blanks on limit pos e.tag _ (width ▸ hk)

end Sys2Proof.Machine
end

section
/-! SUPPORT. Commitment: which tiles of an entry reach their commit point, what becomes of each, and what is counted and flagged
(R134, R144, R145). -/

namespace Sys2Proof.Machine

/-! ### The tiles that commit (R144, R145) -/

/-- A position of an entry is open and at or beyond its commit point. -/
def State.due (s : State) (lane : Nat) (e : Entry) (p : Nat) : Bool :=
  e.ahead && (natBit e.mask p && !natBit e.drops p && !natBit e.blank p && !natBit e.passed p) &&
    atOrBeyond e.rev (s.tileSill (s.entryAxis e) (lane * 16 + p) e.rev) (e.back (s.commitDistance lane e.bar (s.entryAxis e)))

/-- The line of a position was in its slot in time, or its slot cannot be read. -/
def State.filled (s : State) (lane : Nat) (e : Entry) (p : Nat) : Bool := natBit e.sent p || natBit e.dead p || s.slotReady lane p e

/-- The line of a position was acknowledged, on a lane that runs. -/
def State.delivered (s : State) (lane : Nat) (e : Entry) (p : Nat) : Bool := s.filled lane e p && natBit e.acked p && s.laneRuns lane

/-- Slots without an erroneous header cell: the late ones are those that are not ready. -/
theorem State.lateSlots_of_sound {s : State} {lane : Nat} {e : Entry} : ∀ (ps : List Nat),
    (∀ p ∈ ps, s.sound (slotHeader lane p e.tag) 4) →
    s.lateSlots lane e ps = (((ps.filter (fun p => !s.slotReady lane p e)).map (2 ^ ·)).sum, s)
  | [], _ => rfl
  | p :: ps, sound => by
    have rest := State.lateSlots_of_sound ps fun q hq => sound q (List.mem_cons_of_mem p hq)
    rw [State.lateSlots, State.viewSlot_of_sound (sound p List.mem_cons_self)]
    dsimp only
    rw [rest]
    cases ready : s.slotReady lane p e
    · simp [ready, Nat.add_comm]
    · simp [ready]

/-- The entry with the outcome of some positions fixed; the transmission of its blank lines stops. -/
def State.committed (s : State) (lane i : Nat) (e : Entry) (blank : Nat) : State :=
  let t := s.setEntry lane i e
  t.setLane lane { t.lane lane with txs := (t.lane lane).txs.filter (fun x => x.wave || x.tag != e.tag || !natBit blank x.pos) }

theorem State.committed_lane (s : State) (lane i : Nat) (e : Entry) (blank : Nat) : (s.committed lane i e blank).lane lane =
    { s.lane lane with
      queue := (s.lane lane).queue.set i e
      txs := (s.lane lane).txs.filter (fun x => x.wave || x.tag != e.tag || !natBit blank x.pos) } := by
  unfold State.committed State.setEntry
  dsimp only
  rw [State.lane_setLane_same, State.lane_setLane_same]

/-- The entry with more positions committed to drops and to blank. -/
def Entry.commits (e : Entry) (drops blank : Nat) : Entry := { e with drops := e.drops + drops, blank := e.blank + blank }

/-- Commitment of an entry that is not ahead does nothing. -/
theorem State.commitEntry_behind {s : State} {lane i : Nat} {e : Entry} (entry : (s.lane lane).queue[i]? = some e) (behind : e.ahead = false) :
    s.commitEntry lane i = s := by
  rw [State.commitEntry, entry]
  dsimp only
  rw [behind]
  rfl

/-- Commitment of an ahead entry whose due slots have no erroneous header cell. -/
theorem State.commitEntry_eq {s : State} {lane i : Nat} {e : Entry} (entry : (s.lane lane).queue[i]? = some e) (ahead : e.ahead = true)
    (sound : ∀ p < 16, s.due lane e p = true → s.sound (slotHeader lane p e.tag) 4) :
    let drops := maskOf (fun p => s.due lane e p && s.delivered lane e p)
    let blank := maskOf (fun p => s.due lane e p && !s.delivered lane e p)
    s.commitEntry lane i =
      ((s.committed lane i (e.commits drops blank) blank).lateLines lane e
        (maskOf (fun p => s.due lane e p && !s.filled lane e p))).undeliveredLines lane e
        (maskOf (fun p => s.due lane e p && s.filled lane e p && !s.delivered lane e p)) := by
  have reached : s.reached lane e (e.back (s.commitDistance lane e.bar (s.entryAxis e)))
      (maskWhere e.mask (fun p => !natBit e.drops p && !natBit e.blank p && !natBit e.passed p)) = maskOf (s.due lane e) := by
    rw [State.reached_eq]
    refine maskOf_congr fun k hk => ?_
    rw [maskWhere_eq, natBit_maskOf, decide_eq_true hk, State.due, ahead]
    simp only [Bool.true_and, Bool.and_assoc]
  have waiting : s.lateSlots lane e ((positions (maskOf (s.due lane e))).filter (fun p => !natBit e.sent p && !natBit e.dead p)) =
      (maskOf (fun p => s.due lane e p && !s.filled lane e p), s) := by
    rw [positions_maskOf, State.lateSlots_of_sound, List.filter_filter, List.filter_filter, maskOf]
    · refine congrArg (fun l : List Nat => ((l.map (2 ^ ·)).sum, s)) (List.filter_congr fun p _ => ?_)
      rw [State.filled]
      cases s.due lane e p <;> cases natBit e.sent p <;> cases natBit e.dead p <;> simp
    · intro p hp
      obtain ⟨member, -⟩ := List.mem_filter.mp hp
      obtain ⟨place, due⟩ := List.mem_filter.mp member
      exact sound p (List.mem_range.mp place) due
  have inTime : maskOf (s.due lane e) - maskOf (fun p => s.due lane e p && !s.filled lane e p) =
      maskOf (fun p => s.due lane e p && s.filled lane e p) := by
    rw [maskOf_sub fun k _ h => (Bool.and_eq_true_iff.mp h).1]
    refine maskOf_congr fun k _ => ?_
    cases s.due lane e k <;> simp
  have drops : maskWhere (maskOf (fun p => s.due lane e p && s.filled lane e p)) (fun p => natBit e.acked p && s.laneRuns lane) =
      maskOf (fun p => s.due lane e p && s.delivered lane e p) := by
    rw [maskWhere_eq]
    refine maskOf_congr fun k hk => ?_
    rw [natBit_maskOf, decide_eq_true hk, State.delivered]
    simp only [Bool.true_and, Bool.and_assoc]
  have blank : maskOf (s.due lane e) - maskOf (fun p => s.due lane e p && s.delivered lane e p) =
      maskOf (fun p => s.due lane e p && !s.delivered lane e p) := by
    rw [maskOf_sub fun k _ h => (Bool.and_eq_true_iff.mp h).1]
    refine maskOf_congr fun k _ => ?_
    cases s.due lane e k <;> simp
  have undelivered : maskOf (fun p => s.due lane e p && s.filled lane e p) - maskOf (fun p => s.due lane e p && s.delivered lane e p) =
      maskOf (fun p => s.due lane e p && s.filled lane e p && !s.delivered lane e p) := by
    rw [maskOf_sub fun k _ h => ?_]
    · refine maskOf_congr fun k _ => ?_
      cases s.due lane e k <;> simp
    · simp only [State.delivered, Bool.and_eq_true] at h ⊢
      exact ⟨h.1, h.2.1.1⟩
  intro dropped blanked
  rw [State.commitEntry, entry]
  dsimp only
  rw [if_neg (by rw [ahead]; decide), reached, waiting]
  dsimp only
  rw [inTime, drops, blank, undelivered]
  rfl

/-! ### What is counted and flagged (R145, R155) -/

/-- The registers that a report of late or undelivered lines writes beside its counter. -/
def lateReg (lane bar a : Nat) : Prop := a = R.BAR_LATE bar ∨ a = R.BAR_STAT bar ∨ a = R.LANE_SCHSTAT lane ∨ postReg a

/-- The counters of a lane's schedule are not among them. -/
theorem not_lateReg {lane bar base : Nat} (hb : bar < 8) (low : 0x40050410 ≤ base) (high : base < 0x40050438) :
    ¬ lateReg lane bar (base + lane * 0x800) := by
  unfold lateReg postReg R.BAR_LATE R.BAR_STAT R.LANE_SCHSTAT R.SUP_DROP
  omega

/-- From `s` to `t` positions of an entry are reported under a flag of LANEn_SCHSTAT, and counted in the register `base` of the lane. -/
structure Reported (lane bar base b n : Nat) (s t : State) : Prop where
  touches : Touches (fun a => a = base + lane * 0x800 ∨ lateReg lane bar a) s t
  count : t.get ⟨base + lane * 0x800, 31, 0⟩ = min (s.get ⟨base + lane * 0x800, 31, 0⟩ + n) 0xFFFFFFFF
  flag : 0 < n → (t.rd (R.LANE_SCHSTAT lane)).getLsbD b = true
  flags : ∀ j, (s.rd (R.LANE_SCHSTAT lane)).getLsbD j = true → (t.rd (R.LANE_SCHSTAT lane)).getLsbD j = true

/-- Nothing to report. -/
theorem Reported.none (lane bar base b : Nat) (s : State) : Reported lane bar base b 0 s s :=
  ⟨Touches.refl _ s, (Nat.min_eq_left (s.get_whole_le _)).symm, fun h => absurd h (Nat.lt_irrefl 0), fun _ h => h⟩

/-- A counter raised, other registers of the report written, a flag set and an event posted. -/
theorem State.reported {lane bar base b n : Nat} (hl : lane < 24) (hb : bar < 8) (low : 0x40050410 ≤ base) (high : base < 0x40050438)
    (bit : b < 32) {s t : State}
    (counted : Touches (fun a => a = R.BAR_LATE bar ∨ a = R.BAR_STAT bar) (s.bumpBy ⟨base + lane * 0x800, 31, 0⟩ n) t)
    (kind axis : Nat) (stamp : W32) (detail : Nat) : Reported lane bar base b n s ((t.schFlag lane b).lanePost lane kind axis stamp detail) := by
  have posted := (t.schFlag lane b).lanePost_quiet lane kind axis stamp detail
  have flagged : Touches (lateReg lane bar) t ((t.schFlag lane b).lanePost lane kind axis stamp detail) :=
    ((t.schFlag_touches lane b).mono fun _ h => Or.inr (Or.inr h)).trans (posted.mono fun _ h => Or.inr (Or.inr (Or.inr h)))
  have after := (counted.mono (Q := lateReg lane bar) fun _ h => h.imp_right Or.inl).trans flagged
  have flags (j : Nat) : ((((t.schFlag lane b).lanePost lane kind axis stamp detail).rd (R.LANE_SCHSTAT lane)).getLsbD j) =
      (decide (j = b) || (s.rd (R.LANE_SCHSTAT lane)).getLsbD j) := by
    have before : t.rd (R.LANE_SCHSTAT lane) = s.rd (R.LANE_SCHSTAT lane) := by
      rw [counted.rd _ (by unfold R.LANE_SCHSTAT R.BAR_LATE R.BAR_STAT; omega)]
      exact State.rd_set_ne s _ (lane_reg_ne (by omega))
    rw [posted.rd (R.LANE_SCHSTAT lane) (not_postReg_lane hl (by decide) (by decide)), t.schFlag_getLsbD hl bit, before]
  refine ⟨((s.bumpBy_touches _ n).mono fun _ => Or.inl).trans (after.mono fun _ => Or.inr), ?_, fun _ => ?_, fun j set => ?_⟩
  · rw [after.get _ (not_lateReg hb low high)]
    exact s.get_bumpBy_whole _ n
  · rw [flags, decide_eq_true rfl, Bool.true_or]
  · rw [flags, set, Bool.or_true]

theorem State.lateLines_reported {lane : Nat} (hl : lane < 24) {e : Entry} (hb : e.bar < 8) (s : State) (m : Nat) :
    Reported lane e.bar 0x4005041C 0 (countBits 16 m) s (s.lateLines lane e m) := by
  unfold State.lateLines
  split
  · next h =>
    rw [h]
    exact Reported.none lane e.bar _ 0 s
  · exact State.reported hl hb (by decide) (by decide) (by decide)
      (((State.bumpBy_touches _ (F.BAR_LATE_late e.bar) _).mono fun _ => Or.inl).trans
        ((State.set_touches _ (F.BAR_STAT_late e.bar) 1).mono fun _ => Or.inr)) _ _ _ _

theorem State.undeliveredLines_reported {lane : Nat} (hl : lane < 24) {e : Entry} (hb : e.bar < 8) (s : State) (m : Nat) :
    Reported lane e.bar 0x40050420 1 (countBits 16 m) s (s.undeliveredLines lane e m) := by
  unfold State.undeliveredLines
  split
  · next h =>
    rw [h]
    exact Reported.none lane e.bar _ 1 s
  · exact State.reported hl hb (by decide) (by decide) (by decide) (Touches.refl _ _) _ _ _ _

/-- A register of the lane that a report does not write. -/
theorem Reported.get_other {lane bar base b n : Nat} {s t : State} (h : Reported lane bar base b n s t) (hb : bar < 8)
    {other : Nat} (low : 0x40050410 ≤ other) (high : other < 0x40050438) (ne : other ≠ base) :
    t.get ⟨other + lane * 0x800, 31, 0⟩ = s.get ⟨other + lane * 0x800, 31, 0⟩ :=
  h.touches.get _ fun written => written.elim (lane_reg_ne ne) (not_lateReg hb low high)

/-! ### COMMIT_POINT on one entry -/

theorem State.due_open {s : State} {lane : Nat} {e : Entry} {p : Nat} (h : s.due lane e p = true) :
    natBit e.drops p = false ∧ natBit e.blank p = false := by
  simp only [State.due, Bool.and_eq_true, Bool.not_eq_true'] at h
  exact ⟨h.1.2.1.1.2, h.1.2.1.2⟩

theorem State.commitPoint_single {s : State} {lane : Nat} {e : Entry} (queue : (s.lane lane).queue = [e]) :
    s.commitPoint lane = s.commitEntry lane 0 := by
  rw [State.commitPoint, queue]
  rfl

/-- What commitment of a lane's one entry leaves (R144, R145). -/
theorem State.commitPoint_results {s : State} {lane : Nat} (hl : lane < 24) {e : Entry} (queue : (s.lane lane).queue = [e]) (hb : e.bar < 8)
    (sound : ∀ p < 16, s.sound (slotHeader lane p e.tag) 4) :
    let t := s.commitPoint lane
    let f := (t.lane lane).queue.headD e
    let late := ((List.range 16).filter (fun p => s.due lane e p && !s.filled lane e p)).length
    let undelivered := ((List.range 16).filter (fun p => s.due lane e p && s.filled lane e p && !s.delivered lane e p)).length
    (t.lane lane).queue = [{ e with drops := f.drops, blank := f.blank }] ∧
    (∀ p < 16, natBit e.mask p = true → natBit e.drops p = false → natBit e.blank p = false →
      natBit f.drops p = (s.due lane e p && s.delivered lane e p) ∧ natBit f.blank p = (s.due lane e p && !s.delivered lane e p)) ∧
    t.get (F.LANE_LATE_count lane) = min (s.get (F.LANE_LATE_count lane) + late) 0xFFFFFFFF ∧
    t.get (F.LANE_UNDELIV_count lane) = min (s.get (F.LANE_UNDELIV_count lane) + undelivered) 0xFFFFFFFF ∧
    (0 < late → (t.rd (R.LANE_SCHSTAT lane)).getLsbD 0 = true) ∧ (0 < undelivered → (t.rd (R.LANE_SCHSTAT lane)).getLsbD 1 = true) ∧
    SameMemory s t := by
  have entry : (s.lane lane).queue[0]? = some e := by
    rw [queue]
    rfl
  intro t f late undelivered
  obtain ahead | ahead := (Bool.eq_false_or_eq_true e.ahead).symm
  · have same : t = s := (State.commitPoint_single queue).trans (State.commitEntry_behind entry ahead)
    have stays : f = e := by
      show (t.lane lane).queue.headD e = e
      rw [same, queue]
      rfl
    have undue (p : Nat) : s.due lane e p = false := by
      rw [State.due, ahead]
      rfl
    have noneLate : late = 0 := by simp [late, undue]
    have noneUndelivered : undelivered = 0 := by simp [undelivered, undue]
    rw [same, stays, noneLate, noneUndelivered]
    refine ⟨queue, fun p _ _ drops blank => ?_, (Nat.min_eq_left (s.get_whole_le _)).symm, (Nat.min_eq_left (s.get_whole_le _)).symm,
      fun h => absurd h (Nat.lt_irrefl 0), fun h => absurd h (Nat.lt_irrefl 0), fun _ => rfl⟩
    rw [undue, drops, blank]
    exact ⟨rfl, rfl⟩
  · let drops := maskOf (fun p => s.due lane e p && s.delivered lane e p)
    let blank := maskOf (fun p => s.due lane e p && !s.delivered lane e p)
    let u := s.committed lane 0 (e.commits drops blank) blank
    have result := (State.commitPoint_single queue).trans (State.commitEntry_eq entry ahead fun p hp _ => sound p hp)
    have reportsLate := u.lateLines_reported hl hb (maskOf fun p => s.due lane e p && !s.filled lane e p)
    have reports := (u.lateLines lane e (maskOf fun p => s.due lane e p && !s.filled lane e p)).undeliveredLines_reported hl hb
      (maskOf fun p => s.due lane e p && s.filled lane e p && !s.delivered lane e p)
    rw [← result, countBits_maskOf] at reports
    rw [countBits_maskOf] at reportsLate
    have left : (t.lane lane).queue = [e.commits drops blank] := by
      rw [reports.touches.lane, reportsLate.touches.lane, State.committed_lane, queue]
      rfl
    have entry' : f = e.commits drops blank := by
      show (t.lane lane).queue.headD e = _
      rw [left]
      rfl
    refine ⟨?_, fun p hp _ open_ open' => ⟨?_, ?_⟩, ?_, ?_, fun h => reports.flags 0 (reportsLate.flag h), reports.flag, fun a => ?_⟩
    · rw [left, entry']
      rfl
    · rw [entry', Entry.commits, natBit_add_maskOf fun k _ h => (State.due_open (Bool.and_eq_true_iff.mp h).1).1]
      simp [open_, hp]
    · rw [entry', Entry.commits, natBit_add_maskOf fun k _ h => (State.due_open (Bool.and_eq_true_iff.mp h).1).2]
      simp [open', hp]
    · exact (reports.get_other hb (other := 0x4005041C) (by decide) (by decide) (by decide)).trans reportsLate.count
    · have before : (u.lateLines lane e _).get (F.LANE_UNDELIV_count lane) = u.get (F.LANE_UNDELIV_count lane) :=
        reportsLate.get_other hb (other := 0x40050420) (by decide) (by decide) (by decide)
      exact reports.count.trans (congrArg (fun c => min (c + undelivered) 0xFFFFFFFF) before)
    · exact (reports.touches.mem a).trans (reportsLate.touches.mem a)

end Sys2Proof.Machine
end

section
/-! SUPPORT. A pass of the comparator: the strobes that leave, what they leave of the lane and its counters, and the retirement of an
entry (R134, R140, R141, R146, R147, R149, R220). -/

namespace Sys2Proof.Machine

/-! ### Strobes that leave -/

/-- From `s` to `t` strobes leave on a lane in UP, oldest first, the queue and the transoms that wait stay, and numbers of tiles fired and
strobed blank are counted. -/
structure Strobed (lane : Nat) (xs : List StrobeSet) (fired blanked : Nat) (s t : State) : Prop where
  queue : (t.lane lane).queue = (s.lane lane).queue
  txs : (t.lane lane).txs = (s.lane lane).txs
  sets : (t.lane lane).sets = (s.lane lane).sets ++ xs.map SentSet.strobe
  out : (t.lane lane).out = (s.lane lane).out ++ (xs.map SentSet.strobe).map SentSet.out
  state : t.laneState lane = s.laneState lane
  strobes : t.get (F.LANE_STROBES_count lane) = min (s.get (F.LANE_STROBES_count lane) + fired) 0xFFFFFFFF
  blanks : t.get (F.LANE_BLANKS_count lane) = min (s.get (F.LANE_BLANKS_count lane) + blanked) 0xFFFFFFFF

section
variable {lane : Nat} {s t u : State}

theorem Strobed.trans {xs ys : List StrobeSet} {m n m' n' : Nat} (h : Strobed lane xs m n s t) (k : Strobed lane ys m' n' t u) :
    Strobed lane (xs ++ ys) (m + m') (n + n') s u := by
  refine ⟨k.queue.trans h.queue, k.txs.trans h.txs, ?_, ?_, k.state.trans h.state, ?_, ?_⟩
  · rw [k.sets, h.sets, List.map_append, List.append_assoc]
  · rw [k.out, h.out, List.map_append, List.map_append, List.append_assoc]
  · rw [k.strobes, h.strobes]
    omega
  · rw [k.blanks, h.blanks]
    omega

/-- Where the lane and the three registers stay. -/
theorem Strobed.of_kept (queue : (t.lane lane).queue = (s.lane lane).queue) (txs : (t.lane lane).txs = (s.lane lane).txs)
    (sets : (t.lane lane).sets = (s.lane lane).sets) (out : (t.lane lane).out = (s.lane lane).out)
    (rd : ∀ a ∈ [R.LANE_STATE lane, R.LANE_STROBES lane, R.LANE_BLANKS lane], t.rd a = s.rd a) : Strobed lane [] 0 0 s t := by
  have state : t.laneState lane = s.laneState lane :=
    State.get_of_rd (f := F.LANE_STATE_state lane) (rd (R.LANE_STATE lane) (by simp))
  have strobes : t.get (F.LANE_STROBES_count lane) = s.get (F.LANE_STROBES_count lane) :=
    State.get_of_rd (f := F.LANE_STROBES_count lane) (rd (R.LANE_STROBES lane) (by simp))
  have blanks : t.get (F.LANE_BLANKS_count lane) = s.get (F.LANE_BLANKS_count lane) :=
    State.get_of_rd (f := F.LANE_BLANKS_count lane) (rd (R.LANE_BLANKS lane) (by simp))
  refine ⟨queue, txs, by rw [sets]; simp, by rw [out]; simp, state, ?_, ?_⟩
  · rw [strobes]
    exact (Nat.min_eq_left (s.get_whole_le _)).symm
  · rw [blanks]
    exact (Nat.min_eq_left (s.get_whole_le _)).symm

theorem Strobed.refl (lane : Nat) (s : State) : Strobed lane [] 0 0 s s := Strobed.of_kept rfl rfl rfl rfl fun _ _ => rfl

theorem Touches.strobed {P : Nat → Prop} (h : Touches P s t)
    (ne : ∀ a ∈ [R.LANE_STATE lane, R.LANE_STROBES lane, R.LANE_BLANKS lane], ¬ P a) :
    Strobed lane [] 0 0 s t := by
  have kept := h.lane lane
  exact Strobed.of_kept (by rw [kept]) (by rw [kept]) (by rw [kept]) (by rw [kept]) fun a ha => h.rd a (ne a ha)

end

theorem State.laneRuns_of_up {s : State} {lane : Nat} (up : s.laneState lane = 5) : s.laneRuns lane = true := by
  rw [State.laneRuns, up]
  rfl

/-- A strobe leaves on a lane in UP, and is kept until it returns (R224). -/
theorem State.sendSet_strobed {s : State} {lane : Nat} (up : s.laneState lane = 5) (x : StrobeSet) :
    Strobed lane [x] 0 0 s (s.sendSet lane (.strobe x)) := by
  have sent : s.sendSet lane (.strobe x) = s.setLane lane { s.lane lane with
      out := (s.lane lane).out ++ [(SentSet.strobe x).out], sets := (s.lane lane).sets ++ [.strobe x] } := by
    rw [State.sendSet, State.laneRuns_of_up up, up]
    rfl
  rw [sent]
  refine ⟨?_, ?_, ?_, ?_, rfl, (Nat.min_eq_left (s.get_whole_le _)).symm, (Nat.min_eq_left (s.get_whole_le _)).symm⟩
  all_goals rw [State.lane_setLane_same]
  all_goals rfl

theorem State.drawn_strobed (s : State) (lane : Nat) : Strobed lane [] 0 0 s s.drawn := Strobed.of_kept rfl rfl rfl rfl fun _ _ => rfl

theorem State.provisional_strobed (s : State) (lane : Nat) (e : Entry) (fire : Nat) : Strobed lane [] 0 0 s (s.provisional lane e fire) := by
  unfold State.provisional
  extract_lets n c new
  refine Strobed.of_kept ?_ ?_ ?_ ?_ fun _ _ => rfl
  all_goals rw [State.lane_setLane_same]

/-- Tiles fired are counted. -/
theorem State.bumpStrobes_strobed (s : State) (lane n : Nat) : Strobed lane [] n 0 s (s.bumpBy (F.LANE_STROBES_count lane) n) := by
  have touched := s.bumpBy_touches (F.LANE_STROBES_count lane) n
  have kept := touched.lane lane
  have ne {base : Nat} (h : base ≠ 0x40050414) : base + lane * 0x800 ≠ R.LANE_STROBES lane := lane_reg_ne h
  refine ⟨by rw [kept], by rw [kept], by rw [kept]; simp, by rw [kept]; simp, touched.get _ (ne (by decide)), s.get_bumpBy_whole _ n, ?_⟩
  exact (touched.get (F.LANE_BLANKS_count lane) (ne (by decide))).trans (Nat.min_eq_left (s.get_whole_le _)).symm

/-- Tiles strobed blank are counted. -/
theorem State.bumpBlanks_strobed (s : State) (lane n : Nat) : Strobed lane [] 0 n s (s.bumpBy (F.LANE_BLANKS_count lane) n) := by
  have touched := s.bumpBy_touches (F.LANE_BLANKS_count lane) n
  have kept := touched.lane lane
  have ne {base : Nat} (h : base ≠ 0x40050418) : base + lane * 0x800 ≠ R.LANE_BLANKS lane := lane_reg_ne h
  refine ⟨by rw [kept], by rw [kept], by rw [kept]; simp, by rw [kept]; simp, touched.get _ (ne (by decide)), ?_, s.get_bumpBy_whole _ n⟩
  exact (touched.get (F.LANE_STROBES_count lane) (ne (by decide))).trans (Nat.min_eq_left (s.get_whole_le _)).symm

/-- The registers of a slip. -/
def slipReg (lane a : Nat) : Prop := a = R.LANE_SLIP lane ∨ a = R.LANE_SCHSTAT lane ∨ postReg a

theorem not_slipReg {lane : Nat} (hl : lane < 24) :
    ∀ a ∈ [R.LANE_STATE lane, R.LANE_STROBES lane, R.LANE_BLANKS lane], ¬ slipReg lane a := by
  intro a ha
  simp only [List.mem_cons, List.not_mem_nil, or_false, R.LANE_STATE, R.LANE_STROBES, R.LANE_BLANKS] at ha
  unfold slipReg postReg R.LANE_SLIP R.LANE_SCHSTAT R.SUP_DROP
  omega

/-- The strobe of a firing set, if any tile fires (R146, R149). -/
theorem State.fireStrobe_strobed {s : State} {lane : Nat} (hl : lane < 24) (up : s.laneState lane = 5) (e : Entry) (fire phase slip : Nat)
    (used : List Int) : ∃ xs, Strobed lane xs (countBits 16 fire) 0 s (s.fireStrobe lane e fire phase slip used).2 ∧
      xs.length = (if fire = 0 then 0 else 1) ∧ ∀ x ∈ xs, x.tag = e.tag ∧ x.rev = e.rev ∧ x.mask = fire ∧ x.blank = false := by
  unfold State.fireStrobe
  split
  · next none =>
    rw [none]
    exact ⟨[], Strobed.refl lane s, rfl, fun _ h => absurd h List.not_mem_nil⟩
  · extract_lets n u slips s1 x t
    have drawn : Strobed lane [] 0 0 s s1.drawn :=
      ((s.drawn_strobed lane).trans (s.drawn.drawn_strobed lane)).trans (s1.drawn_strobed lane)
    have sent : Strobed lane [x] (countBits 16 fire) 0 s t := by
      have left := ((drawn.trans (State.sendSet_strobed (drawn.state.trans up) x)).trans (State.provisional_strobed _ lane e fire)).trans
        (State.bumpStrobes_strobed _ lane (countBits 16 fire))
      simpa using left
    have reported (y : State) (axis : Nat) (stamp : W32) (detail : Nat) :
        Strobed lane [] 0 0 y (((y.bump (F.LANE_SLIP_count lane)).schFlag lane 4).lanePost lane 0x324 axis stamp detail) :=
      Touches.strobed (P := slipReg lane) ((((y.bumpBy_touches (F.LANE_SLIP_count lane) 1).mono fun _ => Or.inl).trans
        ((State.schFlag_touches _ lane 4).mono fun _ => Or.inr)).trans ((State.lanePost_quiet _ lane 0x324 axis stamp detail).mono
          fun _ h => Or.inr (Or.inr h))) (not_slipReg hl)
    refine ⟨[x], ?_, rfl, fun y hy => ?_⟩
    · dsimp only
      split
      · exact sent
      · exact sent.trans (reported t _ _ _)
    · rw [List.mem_singleton.mp hy]
      exact ⟨rfl, rfl, rfl, rfl⟩

/-- The strobe of a blank set, if any tile is blank (R147). -/
theorem State.blankSet_strobed {s : State} {lane : Nat} (up : s.laneState lane = 5) (e : Entry) (blank : Nat) :
    ∃ xs, Strobed lane xs 0 (countBits 16 blank) s (s.blankSet lane e blank) ∧ xs.length = (if blank = 0 then 0 else 1) ∧
      ∀ x ∈ xs, x.tag = e.tag ∧ x.rev = e.rev ∧ x.mask = blank ∧ x.blank = true ∧ x.fine = 0 := by
  unfold State.blankSet
  split
  · next none =>
    rw [none]
    exact ⟨[], Strobed.refl lane s, rfl, fun _ h => absurd h List.not_mem_nil⟩
  · let x : StrobeSet := ⟨blank, e.tag, e.rev, true, 0, s.pixelTime e.bar (s.entryAxis e)⟩
    refine ⟨[x], ?_, rfl, fun y hy => ?_⟩
    · have sent := (s.drawn_strobed lane).trans (State.sendSet_strobed ((s.drawn_strobed lane).state.trans up) x)
      have left := sent.trans (State.bumpBlanks_strobed _ lane (countBits 16 blank))
      simpa using left
    · rw [List.mem_singleton.mp hy]
      exact ⟨rfl, rfl, rfl, rfl, rfl⟩

theorem State.tilesStrobed_eq (s : State) (lane mask : Nat) (blank : Bool) :
    s.tilesStrobed lane mask blank = { s with tiles := (s.tilesStrobed lane mask blank).tiles } := by
  refine List.foldlRecOn (motive := fun t : State => t = { s with tiles := t.tiles }) (positions mask) _ rfl fun t ht p _ => ?_
  have struck : t.tileStrobed lane p blank = { t with tiles := (t.tileStrobed lane p blank).tiles } := rfl
  rw [struck]
  exact congrArg (fun u : State => { u with tiles := (t.tileStrobed lane p blank).tiles }) ht

theorem State.tilesStrobed_strobed (s : State) (lane mask : Nat) (blank : Bool) : Strobed lane [] 0 0 s (s.tilesStrobed lane mask blank) := by
  rw [s.tilesStrobed_eq]
  exact Strobed.of_kept rfl rfl rfl rfl fun _ _ => rfl

/-! ### A pass of one entry (R140, R220) -/

/-- Transoms sent again after a strobe: the queue and the sets stay, and with no transom waiting nothing leaves. -/
theorem State.retryFull_kept (s : State) {lane : Nat} (hl : lane < 24) (mask : Nat) :
    ((s.retryFull lane mask).lane lane).queue = (s.lane lane).queue ∧ ((s.retryFull lane mask).lane lane).sets = (s.lane lane).sets ∧
    ((s.lane lane).txs = [] → ((s.retryFull lane mask).lane lane).out = (s.lane lane).out) ∧
    ∀ a ∈ [R.LANE_STATE lane, R.LANE_STROBES lane, R.LANE_BLANKS lane], (s.retryFull lane mask).rd a = s.rd a := by
  have failed (t : State) (pos index : Nat) : Touches (fun a => a = R.LANE_WVSTAT lane ∨ postReg a) t (t.waveFail lane pos 1 index) :=
    ((t.set_touches (F.LANE_WVSTAT_fail lane) _).mono fun _ => Or.inl).trans ((State.post_quiet _ _ _ _ _).mono fun _ => Or.inr)
  unfold State.retryFull
  extract_lets l due again sent lost txs t
  have after := Touches.foldl lost t fun x _ u => failed u x.pos (u.uploadIndex lane)
  have before : t.lane lane = { l with txs := txs, out := l.out ++ sent.map (fun x => x.out) } := by
    rw [(State.bumpBy_touches _ _ _).lane, State.lane_setLane_same]
  rw [after.lane, before]
  refine ⟨rfl, rfl, fun none => ?_, fun a ha => ?_⟩
  · have noneSent : sent = [] := by
      show l.txs.filter again = []
      rw [show l.txs = [] from none]
      rfl
    rw [noneSent]
    exact List.append_nil _
  · simp only [List.mem_cons, List.not_mem_nil, or_false, R.LANE_STATE, R.LANE_STROBES, R.LANE_BLANKS] at ha
    rw [after.rd a (by unfold postReg R.LANE_WVSTAT R.SUP_DROP; omega)]
    exact State.rd_set_ne _ _ (by show a ≠ R.LANE_RETX lane; unfold R.LANE_RETX; omega)

/-- Where an entry's sill is at or beyond its stamp, all its tiles pass; else none. -/
theorem State.reached_all {s : State} {lane : Nat} {e : Entry} (mask : e.mask < 65536) (single : s.isFused (s.entryAxis e) = false) :
    s.reached lane e e.stamp e.mask = if atOrBeyond e.rev (s.axisSill (s.entryAxis e) e.rev) e.stamp then e.mask else 0 := by
  have sill (k : Nat) : s.tileSill (s.entryAxis e) k e.rev = s.axisSill (s.entryAxis e) e.rev := by
    rw [State.tileSill, State.tileCorr, single, State.axisSill]
    exact congrArg stampOf (BitVec.add_zero _)
  rw [State.reached_eq]
  simp only [sill]
  cases atOrBeyond e.rev (s.axisSill (s.entryAxis e) e.rev) e.stamp
  · simp only [Bool.and_false]
    exact maskOf_eq_zero.mpr (List.filter_eq_nil_iff.mpr fun _ _ => Bool.false_ne_true)
  · simp only [Bool.and_true]
    exact maskOf_natBit mask

/-- The mask of an entry that may still pass. -/
theorem passMask {e : Entry} (fresh : e.passed = 0) : e.mask - (e.mask &&& e.passed) = e.mask := by
  rw [fresh, Nat.and_zero, Nat.sub_zero]

theorem State.passEntry_waits {s : State} {lane i phase : Nat} {slips : List (BitVec 4)} {used : List Int} {e : Entry}
    (entry : (s.lane lane).queue[i]? = some e) (ahead : e.ahead = true) (fresh : e.passed = 0) (mask : e.mask < 65536)
    (single : s.isFused (s.entryAxis e) = false) (before : atOrBeyond e.rev (s.axisSill (s.entryAxis e) e.rev) e.stamp = false) :
    s.passEntry lane i phase slips used = ((slips, used), s) := by
  rw [State.passEntry, entry]
  dsimp only
  rw [if_pos ahead, passMask fresh, State.reached_all mask single, before]
  rfl

/-- The tiles of an entry that fire at its pass, and those strobed blank (R147). -/
def State.fires (s : State) (lane : Nat) (e : Entry) (p : Nat) : Bool := natBit e.drops p && !s.tileShut lane e.bar p

theorem State.passEntry_passes {s : State} {lane i phase : Nat} {slips : List (BitVec 4)} {used : List Int} {e : Entry}
    (entry : (s.lane lane).queue[i]? = some e) (ahead : e.ahead = true) (fresh : e.passed = 0) (mask : e.mask < 65536) (tiles : e.mask ≠ 0)
    (single : s.isFused (s.entryAxis e) = false) (at' : atOrBeyond e.rev (s.axisSill (s.entryAxis e) e.rev) e.stamp = true) :
    let fire := maskOf (fun p => natBit e.mask p && s.fires lane e p)
    let blank := maskOf (fun p => natBit e.mask p && !s.fires lane e p)
    let t := (s.fireStrobe lane e fire phase (slips.headD 0).toNat used).2.blankSet lane e blank
    (s.passEntry lane i phase slips used).2 =
      (((t.tilesStrobed lane fire false).tilesStrobed lane blank true).setEntry lane i { e with passed := e.mask }).retryFull lane e.mask := by
  intro fire blank t
  have firing : maskWhere e.mask (fun p => natBit e.drops p && !s.tileShut lane e.bar p) = fire := maskWhere_eq _ _
  have rest : e.mask - fire = blank := by
    have whole := maskOf_sub (p := natBit e.mask) (q := fun p => natBit e.mask p && s.fires lane e p)
      fun k _ h => (Bool.and_eq_true_iff.mp h).1
    rw [maskOf_natBit mask] at whole
    refine whole.trans (maskOf_congr fun k _ => ?_)
    cases natBit e.mask k <;> rfl
  have all : 0 + e.mask = e.mask := Nat.zero_add _
  rw [State.passEntry, entry]
  dsimp only
  rw [if_pos ahead, passMask fresh, State.reached_all mask single, at', if_pos rfl, if_neg tiles, firing, rest, fresh, all]

/-! ### Retirement (R141) -/

theorem SlotWork.lane {s t : State} (h : SlotWork s t) (lane : Nat) : t.lane lane = s.lane lane := by
  rw [State.lane, h.lanes]
  rfl

/-- The entries whose every tile has been strobed leave the queue; their slots are freed. -/
theorem State.retire_spec (s : State) (lane : Nat) :
    (s.retire lane).lane lane = { s.lane lane with queue := (s.lane lane).queue.filter (fun e => e.passed != e.mask) } ∧
    ∀ a, ¬ memReg a → (s.retire lane).rd a = s.rd a := by
  have freed := SlotWork.foldl (f := fun t e => t.freeSlots lane e) (fun t e => t.freeSlots_slotWork lane e)
    ((s.lane lane).queue.filter (fun e => e.passed == e.mask))
    (s.setLane lane { s.lane lane with queue := (s.lane lane).queue.filter (fun e => e.passed != e.mask) })
  exact ⟨(freed.lane lane).trans (s.lane_setLane_same lane _), freed.rd⟩

/-- A lane whose one entry has tiles yet to pass stays. -/
theorem State.retire_stays {s : State} {lane : Nat} {e : Entry} (queue : (s.lane lane).queue = [e]) (ne : e.passed ≠ e.mask) :
    (s.retire lane).lane lane = s.lane lane := by
  have stays : (s.lane lane).queue.filter (fun e => e.passed != e.mask) = (s.lane lane).queue := by
    rw [queue]
    exact List.filter_cons_of_pos (bne_iff_ne.mpr ne)
  rw [(s.retire_spec lane).1, stays]

/-! ### STAMP_PASS on one entry -/

/-- An entry whose every tile has its outcome is committed no further. -/
theorem State.commitPoint_settled {s : State} {lane : Nat} {e : Entry} (queue : (s.lane lane).queue = [e]) (ahead : e.ahead = true)
    (settled : ∀ p < 16, s.due lane e p = false) :
    ∃ lanes, s.commitPoint lane = { s with lanes := lanes } ∧ tabGet {} lanes lane = s.lane lane := by
  have entry : (s.lane lane).queue[0]? = some e := by
    rw [queue]
    rfl
  have none {q : Nat → Bool} (h : ∀ p, q p = true → s.due lane e p = true) : maskOf q = 0 :=
    maskOf_eq_zero.mpr (List.filter_eq_nil_iff.mpr fun p hp on =>
      Bool.false_ne_true ((settled p (List.mem_range.mp hp)).symm.trans (h p on)))
  have committed := State.commitEntry_eq entry ahead fun p hp due => absurd due (by rw [settled p hp]; exact Bool.false_ne_true)
  dsimp only at committed
  rw [none fun p h => (Bool.and_eq_true_iff.mp h).1, none fun p h => (Bool.and_eq_true_iff.mp h).1,
    none fun p h => (Bool.and_eq_true_iff.mp h).1, none fun p h => (Bool.and_eq_true_iff.mp (Bool.and_eq_true_iff.mp h).1).1] at committed
  refine ⟨(s.committed lane 0 (e.commits 0 0) 0).lanes, (State.commitPoint_single queue).trans (committed.trans rfl), ?_⟩
  refine (State.committed_lane s lane 0 (e.commits 0 0) 0).trans ?_
  have all : (s.lane lane).txs.filter (fun x => x.wave || x.tag != (e.commits 0 0).tag || !natBit 0 x.pos) = (s.lane lane).txs :=
    List.filter_eq_self.mpr fun x _ => by rw [natBit_zero, Bool.not_false, Bool.or_true]
  rw [all, queue]
  show ({ s.lane lane with queue := [e] } : Lane) = s.lane lane
  rw [← queue]

theorem State.stampPass_single {s t : State} {lane : Nat} {e : Entry} (committed : s.commitPoint lane = t) (queue : (t.lane lane).queue = [e])
    (phase : Nat) (slips : List (BitVec 4)) : s.stampPass lane phase slips = (t.passEntry lane 0 phase slips []).2.retire lane := by
  rw [State.stampPass, committed, queue]
  rfl

/-- The one entry of a queue leaves once all its tiles have passed. -/
theorem State.passed_leaves {u : State} {lane : Nat} (hl : lane < 24) {e : Entry} (queue : (u.lane lane).queue = [e]) (mask : Nat) :
    let t := ((u.setEntry lane 0 { e with passed := e.mask }).retryFull lane mask).retire lane
    (t.lane lane).queue = [] ∧ (t.lane lane).sets = (u.lane lane).sets ∧
      ((u.lane lane).txs = [] → (t.lane lane).out = (u.lane lane).out) ∧
      ∀ a ∈ [R.LANE_STROBES lane, R.LANE_BLANKS lane], t.rd a = u.rd a := by
  intro t
  have set : (u.setEntry lane 0 { e with passed := e.mask }).lane lane =
      { u.lane lane with queue := [{ e with passed := e.mask }] } := by
    rw [State.setEntry, State.lane_setLane_same, queue]
    rfl
  obtain ⟨retired, rd⟩ := ((u.setEntry lane 0 { e with passed := e.mask }).retryFull lane mask).retire_spec lane
  obtain ⟨queued, sets, out, kept⟩ := (u.setEntry lane 0 { e with passed := e.mask }).retryFull_kept hl mask
  rw [set] at queued sets out
  refine ⟨?_, (congrArg Lane.sets retired).trans sets, fun none => (congrArg Lane.out retired).trans (out none), fun a ha => ?_⟩
  · rw [retired, queued]
    simp
  · refine (rd a ?_).trans (kept a (List.mem_cons_of_mem _ ha))
    simp only [List.mem_cons, List.not_mem_nil, or_false, R.LANE_STROBES, R.LANE_BLANKS] at ha
    exact not_memReg_of_bounds (by omega) (by omega)

/-- What the pass of a lane's one entry leaves (R140, R141, R146, R147). -/
theorem State.passEntry_results {s : State} {lane : Nat} (hl : lane < 24) {e : Entry} (queue : (s.lane lane).queue = [e])
    (ahead : e.ahead = true) (fresh : e.passed = 0) (mask : e.mask < 65536) (tiles : e.mask ≠ 0) (single : s.isFused (s.entryAxis e) = false)
    (up : s.laneState lane = 5) (at' : atOrBeyond e.rev (s.axisSill (s.entryAxis e) e.rev) e.stamp = true) (phase : Nat)
    (slips : List (BitVec 4)) :
    let fire := maskOf (fun p => natBit e.mask p && s.fires lane e p)
    let blank := maskOf (fun p => natBit e.mask p && !s.fires lane e p)
    let t := (s.passEntry lane 0 phase slips []).2.retire lane
    ∃ xs : List StrobeSet, (t.lane lane).queue = [] ∧ (t.lane lane).sets = (s.lane lane).sets ++ xs.map SentSet.strobe ∧
      ((s.lane lane).txs = [] → (t.lane lane).out = (s.lane lane).out ++ (xs.map SentSet.strobe).map SentSet.out) ∧
      xs.length = (if fire = 0 then 0 else 1) + (if blank = 0 then 0 else 1) ∧
      (∀ x ∈ xs, x.tag = e.tag ∧ x.rev = e.rev ∧ x.mask = (if x.blank = true then blank else fire) ∧ (x.blank = true → x.fine = 0)) ∧
      t.get (F.LANE_STROBES_count lane) = min (s.get (F.LANE_STROBES_count lane) + countBits 16 fire) 0xFFFFFFFF ∧
      t.get (F.LANE_BLANKS_count lane) = min (s.get (F.LANE_BLANKS_count lane) + countBits 16 blank) 0xFFFFFFFF := by
  intro fire blank t
  have entry : (s.lane lane).queue[0]? = some e := by
    rw [queue]
    rfl
  obtain ⟨xs, fired, count, each⟩ := State.fireStrobe_strobed hl up e fire phase (slips.headD 0).toNat []
  obtain ⟨ys, blanked, count', each'⟩ := State.blankSet_strobed (fired.state.trans up) e blank
  have strobed := ((fired.trans blanked).trans (State.tilesStrobed_strobed _ lane fire false)).trans
    (State.tilesStrobed_strobed _ lane blank true)
  simp only [List.append_nil, Nat.add_zero, Nat.zero_add] at strobed
  have passed := State.passEntry_passes (phase := phase) (slips := slips) (used := []) entry ahead fresh mask tiles single at'
  obtain ⟨empty, sets, out, rd⟩ := State.passed_leaves hl (strobed.queue.trans queue) e.mask
  rw [← passed] at empty sets out rd
  refine ⟨xs ++ ys, empty, sets.trans strobed.sets, fun none => (out (strobed.txs.trans none)).trans strobed.out, ?_, ?_, ?_, ?_⟩
  · rw [List.length_append, count, count']
  · intro x hx
    obtain hx | hx := List.mem_append.mp hx
    · obtain ⟨tag, rev, set, live⟩ := each x hx
      exact ⟨tag, rev, by simp [set, live], by simp [live]⟩
    · obtain ⟨tag, rev, set, dark, fine⟩ := each' x hx
      exact ⟨tag, rev, by simp [set, dark], fun _ => fine⟩
  · exact (State.get_of_rd (f := F.LANE_STROBES_count lane) (rd (R.LANE_STROBES lane) (by simp))).trans strobed.strobes
  · exact (State.get_of_rd (f := F.LANE_BLANKS_count lane) (rd (R.LANE_BLANKS lane) (by simp))).trans strobed.blanks

end Sys2Proof.Machine
end

section
/-! The statement on fire scheduling: DATA_SEND, COMMIT_POINT and STAMP_PASS (R139 to R149). -/

namespace Sys2Proof.Machine

/-! ### DATA_SEND (R39, R136, R143) -/

theorem State.slotReady_iff {s : State} {lane pos : Nat} {e : Entry} (tag : e.tag < 256) : s.slotReady lane pos e = true ↔
    (∀ u, tabFind (s.lane lane).slotTimes (pos * 16 + e.tag % 16) = some u → u + 4 ≤ s.uptime) ∧
    (s.wordAt (slotHeader lane pos e.tag)).extractLsb' 30 2 = 1 ∧
    (s.wordAt (slotHeader lane pos e.tag)).extractLsb' 16 8 = BitVec.ofNat 8 e.tag := by
  rw [State.slotReady, headerReady_eq _ tag, Bool.and_eq_true, Bool.and_eq_true, s.slotSeen_iff, beq_iff_eq, beq_iff_eq]

/-! ### STAMP_PASS on an entry whose tiles all have their outcome (R140, R141, R146, R147) -/

/-- An entry all of whose tiles are committed has none that comes due. -/
theorem State.not_due_of_outcomes {s : State} {lane : Nat} {e : Entry} (outcomes : e.drops ||| e.blank = e.mask) (p : Nat) :
    s.due lane e p = false := by
  have tile : natBit e.mask p = (natBit e.drops p || natBit e.blank p) := by
    rw [← outcomes, natBit_eq, natBit_eq, natBit_eq, Nat.testBit_or]
  rw [State.due, tile]
  cases natBit e.drops p <;> cases natBit e.blank p <;> simp

/-- The pass of a lane's one entry behind its commitment, which touches only the table of lanes and not this lane. -/
theorem State.stampPass_committed {s : State} {lane : Nat} {e : Entry} (queue : (s.lane lane).queue = [e]) (ahead : e.ahead = true)
    (outcomes : e.drops ||| e.blank = e.mask) (phase : Nat) (slips : List (BitVec 4)) :
    ∃ lanes, ({ s with lanes := lanes } : State).lane lane = s.lane lane ∧
      s.stampPass lane phase slips = (({ s with lanes := lanes } : State).passEntry lane 0 phase slips []).2.retire lane := by
  obtain ⟨lanes, committed, same⟩ := State.commitPoint_settled queue ahead fun p _ => State.not_due_of_outcomes outcomes p
  have lane' : ({ s with lanes := lanes } : State).lane lane = s.lane lane := same
  exact ⟨lanes, lane', State.stampPass_single committed ((congrArg Lane.queue lane').trans queue) phase slips⟩

/-- Before the stamp the entry stays. -/
theorem State.stampPass_before {s : State} {lane : Nat} {e : Entry} (queue : (s.lane lane).queue = [e]) (ahead : e.ahead = true)
    (fresh : e.passed = 0) (mask : e.mask < 65536) (outcomes : e.drops ||| e.blank = e.mask) (tiles : e.mask ≠ 0)
    (single : s.isFused (s.entryAxis e) = false) (before : atOrBeyond e.rev (s.axisSill (s.entryAxis e) e.rev) e.stamp = false)
    (phase : Nat) (slips : List (BitVec 4)) :
    ((s.stampPass lane phase slips).lane lane).queue = [e] ∧ ((s.stampPass lane phase slips).lane lane).sets = (s.lane lane).sets := by
  obtain ⟨lanes, same, pass⟩ := State.stampPass_committed queue ahead outcomes phase slips
  have queue' : (({ s with lanes := lanes } : State).lane lane).queue = [e] := (congrArg Lane.queue same).trans queue
  have entry : (({ s with lanes := lanes } : State).lane lane).queue[0]? = some e := by
    rw [queue']
    rfl
  have stays := (State.retire_stays queue' (fresh ▸ tiles.symm)).trans same
  rw [pass, State.passEntry_waits entry ahead fresh mask single before]
  exact ⟨(congrArg Lane.queue stays).trans queue, congrArg Lane.sets stays⟩

/-- At the stamp the tiles that fire share one strobe and the others a blank one, both are counted, and the entry retires. -/
theorem State.stampPass_at {s : State} {lane : Nat} (hl : lane < 24) {e : Entry} (queue : (s.lane lane).queue = [e]) (ahead : e.ahead = true)
    (fresh : e.passed = 0) (mask : e.mask < 65536) (outcomes : e.drops ||| e.blank = e.mask) (tiles : e.mask ≠ 0)
    (single : s.isFused (s.entryAxis e) = false) (up : s.laneState lane = 5)
    (passes : atOrBeyond e.rev (s.axisSill (s.entryAxis e) e.rev) e.stamp = true) (phase : Nat) (slips : List (BitVec 4)) :
    let fire := (List.range 16).filter (s.fires lane e)
    let blank := (List.range 16).filter (fun p => natBit e.mask p && !s.fires lane e p)
    let t := s.stampPass lane phase slips
    let sets := (t.lane lane).sets.drop (s.lane lane).sets.length
    (t.lane lane).queue = [] ∧ ((s.lane lane).txs = [] → (t.lane lane).out = (s.lane lane).out ++ sets.map SentSet.out) ∧
    (t.lane lane).sets = (s.lane lane).sets ++ sets ∧
    sets.length = (if fire = [] then 0 else 1) + (if blank = [] then 0 else 1) ∧
    (∀ x ∈ sets, x = .strobe x.asStrobe ∧ x.asStrobe.tag = e.tag ∧ x.asStrobe.rev = e.rev ∧
      x.asStrobe.mask = ((if x.asStrobe.blank then blank else fire).map (fun p => 2 ^ p)).sum ∧
      (x.asStrobe.blank = true → x.asStrobe.fine = 0)) ∧
    t.get (F.LANE_STROBES_count lane) = min (s.get (F.LANE_STROBES_count lane) + fire.length) 0xFFFFFFFF ∧
    t.get (F.LANE_BLANKS_count lane) = min (s.get (F.LANE_BLANKS_count lane) + blank.length) 0xFFFFFFFF := by
  intro fire blank t sets
  obtain ⟨lanes, same, pass⟩ := State.stampPass_committed queue ahead outcomes phase slips
  have queue' : (({ s with lanes := lanes } : State).lane lane).queue = [e] := (congrArg Lane.queue same).trans queue
  obtain ⟨xs, empty, left, out, count, each, strobes, blanks⟩ :=
    State.passEntry_results hl queue' ahead fresh mask tiles single up passes phase slips
  have within (p : Nat) : (natBit e.mask p && s.fires lane e p) = s.fires lane e p := by
    rw [← outcomes, State.fires, natBit_eq, natBit_eq, Nat.testBit_or]
    cases e.drops.testBit p <;> simp
  have fired : maskOf (fun p => natBit e.mask p && ({ s with lanes := lanes } : State).fires lane e p) = maskOf (s.fires lane e) :=
    maskOf_congr fun p _ => within p
  have dark : maskOf (fun p => natBit e.mask p && !({ s with lanes := lanes } : State).fires lane e p) =
    maskOf (fun p => natBit e.mask p && !s.fires lane e p) := rfl
  rw [← pass] at empty left out strobes blanks
  rw [same] at left out
  rw [fired, dark] at count
  rw [fired, dark] at each
  rw [fired, countBits_maskOf] at strobes
  rw [dark, countBits_maskOf] at blanks
  have tail : sets = xs.map SentSet.strobe := by
    show (t.lane lane).sets.drop (s.lane lane).sets.length = _
    rw [left, List.drop_left]
  rw [tail]
  refine ⟨empty, out, left, ?_, fun x hx => ?_, strobes, blanks⟩
  · rw [List.length_map, count]
    simp only [maskOf_eq_zero]
    rfl
  · obtain ⟨y, hy, rfl⟩ := List.mem_map.mp hx
    obtain ⟨tag, rev, set, fine⟩ := each y hy
    refine ⟨rfl, tag, rev, set.trans ?_, fine⟩
    show _ = ((if y.blank = true then blank else fire).map (fun p => 2 ^ p)).sum
    split <;> rfl

/-- Settles O47: a line that leaves or waits, the commitment of a lane's one entry, and its pass before the stamp and at it. -/
theorem fireSchedulingResults : Obligations.FireSchedulingResults := by
  refine fun lane s => ⟨fun i p e entry => ?_, fun e queue => ?_, fun e queue => ?_⟩
  · intro hd word bits idle seen inOpen member quiet up tag sound
    have results := State.lineLeaves_results entry (pos := p)
    refine ⟨fun seen' state line few earlier slot => ⟨_, ?_, results⟩, fun wait => ?_⟩
    · have may := (s.maySend_iff lane i p e).mpr ⟨member, quiet, up.imp_right of_decide_eq_true, few, earlier⟩
      have ready := (State.slotReady_iff tag).mpr ⟨seen', state, line⟩
      have width : bits = 2 + bitsOf word 24 24 := lineBits_eq word
      exact congrArg Host.Outcome.next (State.dataSend_leaves entry may sound ready (width ▸ slot) [])
    · have waits : s.slotReady lane p e = false := by
        refine Bool.eq_false_iff.mpr fun ready => ?_
        obtain ⟨seen', state, line⟩ := (State.slotReady_iff tag).mp ready
        exact wait.elim (fun h => h seen') fun h => h.elim (fun h => h state) fun h => h line
      exact congrArg Host.Outcome.next (State.dataSend_waits entry sound waits [])
  · intro n a v dist point open_ due seen filled good late undelivered tag bar sound
    have results := State.commitPoint_results lane.isLt queue bar sound
    have ready (p : Nat) : s.filled lane e p = filled p := by
      rw [State.filled, State.slotReady, s.slotSeen_eq, headerReady_eq _ tag, ← Bool.and_assoc]
    have delivered (p : Nat) : s.delivered lane e p = good p := by
      rw [State.delivered, ready]
      rfl
    simp only [ready, delivered] at results
    exact ⟨_, rfl, results⟩
  · intro n a ahead fresh mask _ outcomes tiles single up passes shut fire blank setOf phase slips
    exact ⟨fun before => ⟨_, rfl, State.stampPass_before queue ahead fresh mask outcomes tiles single before _ _⟩,
      fun at' => ⟨_, rfl, State.stampPass_at lane.isLt queue ahead fresh mask outcomes tiles single up at' _ _⟩⟩

end Sys2Proof.Machine
end

section
/-! SUPPORT. A write of RCn_CTL, and the statement that rests on it (R165, R172). -/

namespace Sys2Proof.Machine

/-- RCn_CTL has a card of its own, whose one stored bit is set by writing 1 (R172). -/
theorem cardAt_rc_ctl : ∀ n : Fin 16, (cardAt (R.RC_CTL n)).map (fun c => (c.1.rw, c.1.w1c, c.1.w1s)) = some (0, 0, 1) := by decide

/-- A write of RCn_CTL that does not drop the table buffer is a write by the field rules. -/
theorem State.rcCtlWrite_keeping {v : W32} (h : bitsOf v 1 1 ≠ 1) (s : State) (n : Nat) :
    s.rcCtlWrite n v = s.plainWrite (R.RC_CTL n) v := by
  rw [State.rcCtlWrite, if_neg h]

theorem State.rcCtlWrite_dropping {v : W32} (h : bitsOf v 1 1 = 1) (s : State) (n : Nat) :
    s.rcCtlWrite n v = (s.tableDrop (8 + n)).plainWrite (R.RC_CTL n) v := by
  rw [State.rcCtlWrite, if_pos h]

/-- A 1 written to res_inj arms an injection. -/
theorem State.plainWrite_res_inj (s : State) (n : Fin 16) : (s.plainWrite (R.RC_CTL n) 1).get (F.RC_CTL_res_inj n) = 1 := by
  have card := cardAt_rc_ctl n
  rw [State.plainWrite]
  split
  · next c i j found =>
    rw [found] at card
    simp only [Option.map_some, Option.some.injEq, Prod.mk.injEq] at card
    obtain ⟨rw_, w1c, w1s⟩ := card
    refine (State.get_wr_same s (F.RC_CTL_res_inj n) _).trans (beq_iff_eq.mp ((bitsOf_bit _ 0).trans ?_))
    simp [Card.written, rw_, w1c, w1s]
  · next absent =>
    rw [absent] at card
    cases card

/-- Settles O38: each write is a write of RCn_CTL, the one after the table buffer is dropped. -/
theorem clusterControlResults : Obligations.ClusterControlResults := by
  intro n s present
  have here (t : State) : (if s.rcFused n = true then s else t) = t := if_neg (by simp [present])
  refine ⟨⟨_, rfl, ?invalidate⟩, ⟨_, rfl, ?arm⟩⟩
  case invalidate =>
    rw [here, State.rcCtlWrite_dropping (by decide)]
    have vector : hasV (8 + n) = true := hasV_of_bounds (Nat.le_add_right 8 n) (by omega)
    have valid : (s.tableDrop (8 + n)).get (F.RC_TBUF_valid n) = 0 := by
      simpa using s.tableDrop_valid vector
    have written := (s.tableDrop (8 + n)).plainWrite_withReg (R.RC_CTL n) 2
    have apart : R.RC_TBUF n ≠ R.RC_CTL n := by simp [R.RC_TBUF, R.RC_CTL]
    exact ⟨(written.get apart).trans valid, fun a => (written.mem a).trans (s.tableDrop_rdByte _ a)⟩
  case arm =>
    rw [here, State.rcCtlWrite_keeping (by decide)]
    have written := s.plainWrite_withReg (R.RC_CTL n) 1
    refine ⟨s.plainWrite_res_inj n, written.mem, fun q => ?_⟩
    obtain ⟨regs, only, -⟩ := written
    rw [only]
    rfl

end Sys2Proof.Machine
end

section
/-! SUPPORT. What the screening instructions share: the fields of tone words, addresses that pass, array descriptors; and the statement on
VTHR and VMASK (R161 to R163, R169, R170). -/

namespace Sys2Proof.Machine

/-! ### Fields of words -/

theorem extract_toNat {m : Nat} (w : BitVec m) (lo n : Nat) : (w.extractLsb' lo n).toNat = w.toNat / 2 ^ lo % 2 ^ n := by
  rw [BitVec.extractLsb'_toNat, Nat.shiftRight_eq_div_pow]

theorem chanOf_eq (w : W32) (c : Nat) : chanOf w c = (w.extractLsb' (9 * c) 9).toNat := by
  rw [extract_toNat, chanOf, bitsOf, show 9 * c + 8 + 1 - 9 * c = 9 by omega]

theorem stateOf_eq (w : W32) : stateOf w = (w.extractLsb' 30 2).toNat := (bitsOf_extract w 31 30).symm

theorem modeOf_eq (w : W32) : modeOf w = (w.extractLsb' 27 3).toNat := (bitsOf_extract w 29 27).symm

/-! ### Addresses that pass, each named by another -/

theorem State.checkWords_passes {s : State} {q : Nat} {n : Needs} : ∀ (as : List (W32 × W32)), (∀ e ∈ as, s.usable q n e.2.toNat) →
    s.checkWords q n as = none
  | [], _ => rfl
  | (tv, a) :: as, h => by
    have first : s.wordCheck q n a = none := State.wordCheck_usable (h (tv, a) List.mem_cons_self)
    rw [State.checkWords, first]
    exact State.checkWords_passes as fun e he => h e (List.mem_cons_of_mem _ he)

theorem State.afterCheck_passes {s : State} {q : Nat} {as : List (W32 × W32)} (h : ∀ e ∈ as, s.usable q Needs.read e.2.toNat) (t : State) :
    s.afterCheck q false as t = t := by
  have passes : s.checkWords q Needs.read as = none := State.checkWords_passes as h
  rw [State.afterCheck, if_neg Bool.false_ne_true, passes]

/-- An address of each active lane that a vector instruction may use it still may after its cycles are counted. -/
theorem State.active_usable {s : State} {q : Nat} (hq : q < 24) {m : BitVec 3} {n : Needs} {addr : Nat → Nat}
    (h : ∀ k < 64, ((s.seq q).mask m).getLsbD k = true → s.usable q n (addr k)) (k : Nat) (hk : k ∈ (s.seq q).active m) :
    (s.vecStart q).usable q n (addr k) := by
  obtain ⟨bound, on⟩ := Seq.mem_active.mp hk
  exact State.vecStart_usable hq (h k bound on)

theorem State.vecStart_wordAt (s : State) (q a : Nat) : (s.vecStart q).wordAt a = s.wordAt a := rfl

/-- Lanes that are written from the words read at their addresses. -/
theorem zip_words (l : List Nat) (word : Nat → W32) (f : Nat → W32 → W32) :
    ((l.zip (l.map word)).map fun e => (e.1, f e.1 e.2)) = l.map fun k => (k, f k (word k)) := by
  rw [← List.map_prod_left_eq_zip, List.map_map]
  rfl

/-! ### Array descriptors (R162, R163) -/

/-- The second word of a descriptor lies 4 bytes on: the address does not wrap. -/
theorem desc_second (g : W32) : ((g &&& 0xFFFFFF00) + 4).toNat = (g &&& 0xFFFFFF00).toNat + 4 := by
  have bound : (g &&& 0xFFFFFF00).toNat ≤ 0xFFFFFF00 := by
    rw [BitVec.toNat_and]
    exact Nat.and_le_right
  rw [BitVec.toNat_add]
  exact Nat.mod_eq_of_lt (Nat.lt_of_le_of_lt (Nat.add_le_add_right bound 4) (by decide))

/-- A descriptor whose two words pass is read. -/
theorem State.withDesc_usable {s : State} {q : Nat} {g : W32} (first : s.usable q Needs.read (g &&& 0xFFFFFF00).toNat)
    (second : s.usable q Needs.read ((g &&& 0xFFFFFF00).toNat + 4)) (f : ArrayDesc → State → State) :
    s.withDesc q g f = f (descOf (s.wordAt (g &&& 0xFFFFFF00).toNat) (s.wordAt ((g &&& 0xFFFFFF00).toNat + 4))) s := by
  have usable : ∀ a ∈ [g &&& 0xFFFFFF00, (g &&& 0xFFFFFF00) + 4], s.usable q Needs.read a.toNat := by
    simp only [List.forall_mem_cons, desc_second, first, second, List.not_mem_nil, false_imp_iff, implies_true, and_self]
  rw [State.withDesc, State.afterCheck_usable (store := false) usable, State.withWords_of_sound fun a ha => (usable a ha).2.2.2]
  simp only [List.map_cons, desc_second]
  rfl

theorem descOf_cell (d0 d1 : W32) (u k : Nat) : (descOf d0 d1).cell u k =
    (d1.extractLsb' 8 8).toNat % ((d1.extractLsb' 16 8).toNat + 1) * ((d1.extractLsb' 24 8).toNat + 1) +
      (u + k) % ((d1.extractLsb' 24 8).toNat + 1) := by
  simp only [extract_toNat]
  rfl

/-! ### VTHR (R169) -/

/-- The level of a lane, screened with priority or as binary drop weights. -/
theorem levelOf_eq (binary : Bool) (w t : W32) :
    let above := fun (c : Nat) => (t.extractLsb' (9 * c) 9).toNat < (w.extractLsb' (9 * c) 9).toNat
    w32 (levelOf binary w t) = if 2 ≤ (w.extractLsb' 30 2).toNat then 0
      else if binary = false then if above 2 then 3 else if above 1 then 2 else if above 0 then 1 else 0
      else (if above 2 then 4 else 0) + (if above 1 then 2 else 0) + (if above 0 then 1 else 0) := by
  intro above
  simp only [levelOf, chanOf_eq, stateOf_eq, decide_eq_true_eq]
  cases binary
  · simp only [Bool.false_eq_true, if_false, if_true, apply_ite w32]
    rfl
  · simp only [if_true, Bool.true_eq_false, if_false, apply_ite w32, w32, BitVec.ofNat_add]
    rfl

theorem descOf_binary (d0 d1 : W32) : ((descOf d0 d1).low % 2 == 1) = d1.getLsbD 0 := by
  rw [← bitsOf_bit d1 0]
  simp only [descOf, bitsOf, Nat.pow_zero, Nat.div_one]
  rw [Nat.mod_mod_of_dvd _ (by decide)]
  rfl

/-- A vector of tones screened against a descriptor and thresholds that pass. -/
theorem State.vthr_results {s : State} {q : Nat} (hq : q < 24) (m : BitVec 3) (vd vs1 g : BitVec 5) {d : ArrayDesc}
    (first : s.usable q Needs.read ((s.seq q).x g &&& 0xFFFFFF00).toNat)
    (second : s.usable q Needs.read (((s.seq q).x g &&& 0xFFFFFF00).toNat + 4))
    (desc : descOf (s.wordAt ((s.seq q).x g &&& 0xFFFFFF00).toNat) (s.wordAt (((s.seq q).x g &&& 0xFFFFFF00).toNat + 4)) = d)
    (thresholds : ∀ k < 64, ((s.seq q).mask m).getLsbD k = true →
      s.usable q Needs.read (d.base + w32 (4 * d.cell (((s.seq q).x g).toNat % 256) k)).toNat) :
    let t := (s.vecStart q).vthr q m vd vs1 g
    VectorFrame q s t ∧ LanesGet q m vd (fun k => w32 (levelOf (d.low % 2 == 1) ((s.seq q).lane vs1 k)
      (s.wordAt (d.base + w32 (4 * d.cell (((s.seq q).x g).toNat % 256) k)).toNat))) s t := by
  intro t
  let addr := fun k => d.base + w32 (4 * d.cell (((s.seq q).x g).toNat % 256) k)
  have usable : ∀ a ∈ ((s.seq q).active m).map addr, (s.vecStart q).usable q Needs.read a.toNat :=
    List.forall_mem_map.mpr (State.active_usable hq (addr := fun k => (addr k).toNat) thresholds)
  have result : t = (s.vecStart q).vecDone q ((s.seq q).setLanes vd (((s.seq q).active m).map fun k =>
      (k, w32 (levelOf (d.low % 2 == 1) ((s.seq q).lane vs1 k) (s.wordAt (addr k).toNat))))) := by
    simp only [t, State.vthr, State.vecStart_seq]
    rw [State.withDesc_usable (State.vecStart_usable hq first) (State.vecStart_usable hq second), State.vecStart_wordAt,
      State.vecStart_wordAt, desc, State.afterCheck_usable (store := false) usable,
      State.withWords_of_sound fun a ha => (usable a ha).2.2.2, List.map_map]
    exact congrArg (fun xs => (s.vecStart q).vecDone q ((s.seq q).setLanes vd xs)) (zip_words ((s.seq q).active m)
      (fun k => s.wordAt (addr k).toNat) fun k word => w32 (levelOf (d.low % 2 == 1) ((s.seq q).lane vs1 k) word))
  rw [result]
  exact s.vecDone_lanes q m vd _

/-! ### VMASK (R170) -/

/-- A bit of a word is a bit of one of its bytes (R8). -/
theorem State.wordAt_getLsbD (s : State) (a : Nat) {k : Nat} (hk : k < 32) :
    (s.wordAt a).getLsbD k = (s.rdByte (a + k / 8)).getLsbD (k % 8) := by
  have byte : k / 8 = 0 ∧ k < 8 ∨ k / 8 = 1 ∧ 8 ≤ k ∧ k < 16 ∨ k / 8 = 2 ∧ 16 ≤ k ∧ k < 24 ∨ k / 8 = 3 ∧ 24 ≤ k := by omega
  simp only [State.wordAt, BitVec.getLsbD_append]
  obtain ⟨place, bounds⟩ | ⟨place, bounds⟩ | ⟨place, bounds⟩ | ⟨place, bounds⟩ := byte
  · rw [if_pos bounds, place, show k % 8 = k by omega, Nat.add_zero]
  · rw [if_neg (by omega), if_pos (by omega), place, show k % 8 = k - 8 by omega]
  · rw [if_neg (by omega), if_neg (by omega), if_pos (by omega), place, show k % 8 = k - 8 - 8 by omega]
  · rw [if_neg (by omega), if_neg (by omega), if_neg (by omega), place, show k % 8 = k - 8 - 8 - 8 by omega]

/-- The low nibble of a byte, found in the word that holds it. -/
theorem State.nibble_of_word (s : State) (a : Nat) :
    (s.wordAt (a / 4 * 4)).toNat / 256 ^ (a % 4) % 16 = ((s.rdByte a).extractLsb' 0 4).toNat := by
  have power : 256 ^ (a % 4) = 2 ^ (8 * (a % 4)) := by rw [Nat.pow_mul]
  rw [power, BitVec.extractLsb'_toNat, Nat.shiftRight_zero]
  refine Nat.eq_of_testBit_eq fun j => ?_
  rw [show (16 : Nat) = 2 ^ 4 from rfl, Nat.testBit_mod_two_pow, Nat.testBit_mod_two_pow, Nat.testBit_div_two_pow]
  by_cases low : j < 4
  · have bit := s.wordAt_getLsbD (a / 4 * 4) (k := j + 8 * (a % 4)) (by omega)
    rw [show a / 4 * 4 + (j + 8 * (a % 4)) / 8 = a by omega, show (j + 8 * (a % 4)) % 8 = j by omega] at bit
    exact congrArg _ bit
  · simp [low]

/-- The two low bits of an address dropped. -/
theorem and_word_mask (a : W32) : (a &&& 0xFFFFFFFC).toNat = a.toNat / 4 * 4 := by
  have shifted : a &&& (0xFFFFFFFC : W32) = (a >>> 2) <<< 2 := by
    refine BitVec.eq_of_getElem_eq fun i hi => ?_
    rw [BitVec.getElem_and, BitVec.getElem_shiftLeft]
    interval_cases i <;> simp
  have room : a.toNat / 4 * 4 < 2 ^ 32 := Nat.lt_of_le_of_lt (Nat.div_mul_le_self _ 4) a.isLt
  rw [shifted, BitVec.toNat_shiftLeft, BitVec.toNat_ushiftRight, Nat.shiftLeft_eq, Nat.shiftRight_eq_div_pow]
  exact Nat.mod_eq_of_lt room

/-- The word of a pattern byte, where the array is word aligned. -/
theorem patternWord_toNat {base : W32} (h : base.toNat % 4 = 0) (a : W32) : (patternWord base a).toNat = a.toNat / 4 * 4 := by
  have aligned : ¬(base.toNat % 4 != 0) = true := by simp [h]
  rw [patternWord, if_neg aligned, and_word_mask]

/-- A vector masked by a descriptor and pattern words that pass. -/
theorem State.vmask_results {s : State} {q : Nat} (hq : q < 24) (m : BitVec 3) (vd vs1 g : BitVec 5) {d : ArrayDesc}
    (first : s.usable q Needs.read ((s.seq q).x g &&& 0xFFFFFF00).toNat)
    (second : s.usable q Needs.read (((s.seq q).x g &&& 0xFFFFFF00).toNat + 4))
    (desc : descOf (s.wordAt ((s.seq q).x g &&& 0xFFFFFF00).toNat) (s.wordAt (((s.seq q).x g &&& 0xFFFFFF00).toNat + 4)) = d)
    (aligned : d.base.toNat % 4 = 0)
    (patterns : ∀ k < 64, ((s.seq q).mask m).getLsbD k = true →
      s.usable q Needs.read ((d.base + w32 (d.cell (((s.seq q).x g).toNat % 256) k)).toNat / 4 * 4)) :
    let t := (s.vecStart q).vmask q m vd vs1 g
    VectorFrame q s t ∧ LanesGet q m vd (fun k =>
      if ((s.rdByte (d.base + w32 (d.cell (((s.seq q).x g).toNat % 256) k)).toNat).extractLsb' 0 4).toNat = d.low
      then (s.seq q).lane vs1 k else 0) s t := by
  intro t
  let byteAt := fun k => d.base + w32 (d.cell (((s.seq q).x g).toNat % 256) k)
  let word := fun k => patternWord d.base (byteAt k)
  have usable : ∀ k ∈ (s.seq q).active m, (s.vecStart q).usable q Needs.read (word k).toNat := fun k hk => by
    rw [patternWord_toNat aligned]
    exact State.active_usable hq (addr := fun k => (byteAt k).toNat / 4 * 4) patterns k hk
  have result : t = (s.vecStart q).vecDone q ((s.seq q).setLanes vd (((s.seq q).active m).map fun k =>
      (k, if (s.wordAt (word k).toNat).toNat / 256 ^ ((byteAt k).toNat % 4) % 16 = d.low then (s.seq q).lane vs1 k else 0))) := by
    simp only [t, State.vmask, State.vecStart_seq]
    rw [State.withDesc_usable (State.vecStart_usable hq first) (State.vecStart_usable hq second), State.vecStart_wordAt,
      State.vecStart_wordAt, desc, State.afterCheck_passes (List.forall_mem_map.mpr usable),
      State.withWords_of_sound (List.forall_mem_map.mpr fun k hk => (usable k hk).2.2.2), List.map_map]
    exact congrArg (fun xs => (s.vecStart q).vecDone q ((s.seq q).setLanes vd xs)) (zip_words ((s.seq q).active m)
      (fun k => s.wordAt (word k).toNat) fun k w =>
        if w.toNat / 256 ^ ((byteAt k).toNat % 4) % 16 = d.low then (s.seq q).lane vs1 k else 0)
  rw [result]
  obtain ⟨frame, lanes⟩ := s.vecDone_lanes q m vd _
  refine ⟨frame, lanes.congr fun k => ?_⟩
  rw [patternWord_toNat aligned, s.nibble_of_word]

theorem descOf_low (d0 d1 : W32) : (descOf d0 d1).low = (d1.extractLsb' 0 4).toNat := (bitsOf_extract d1 3 0).symm

/-- Settles O36: VTHR and VMASK by `State.vthr_results` and `State.vmask_results`, with the descriptor's fields written out. -/
theorem screenAndMaskResults : Obligations.ScreenAndMaskResults := by
  intro q m vd vs1 g s hrun hlo hhi on gd d d0 d1 width row cell threshold pattern w above descriptor
  have hv : hasV q = true := hasV_of_bounds hlo hhi
  have works (word : W32) (f : State → State) : s.vecInsn q word true f = f (s.vecStart q) := State.vecInsn_of_cluster hrun hv word f
  have cells (k : Nat) : (descOf d0 d1).cell (gd.toNat % 256) k = cell k := descOf_cell d0 d1 _ k
  refine ⟨fun passes thresholds => ⟨_, congrArg Host.Outcome.next (works _ _), ?thr⟩,
    fun passes aligned patterns => ⟨_, congrArg Host.Outcome.next (works _ _), ?mask⟩⟩
  case thr =>
    obtain ⟨frame, lanes⟩ := State.vthr_results hhi m vd vs1 g passes.1 passes.2 rfl fun k hk hon => by
      rw [cells]
      exact thresholds k hk hon
    refine ⟨frame, lanes.congr fun k => ?_⟩
    rw [cells, levelOf_eq, descOf_binary]
    rfl
  case mask =>
    obtain ⟨frame, lanes⟩ := State.vmask_results hhi m vd vs1 g passes.1 passes.2 rfl aligned fun k hk hon => by
      rw [cells]
      exact patterns k hk hon
    refine ⟨frame, lanes.congr fun k => ?_⟩
    rw [cells, descOf_low]
    simp only [BitVec.toNat_inj]
    rfl

end Sys2Proof.Machine
end

section
/-! SUPPORT. What a screening instruction keeps that waits for a port or loads its table; tone words put together; and the statement on
VNMAP and VSPREAD (R161, R166 to R168). -/

namespace Sys2Proof.Machine

/-! ### A screening instruction that has read what it needs -/

/-- From `s` to `u` a screening instruction of sequencer `q` has counted its cycles and waits and may have loaded its table. -/
structure Readied (q : Nat) (s u : State) : Prop where
  ctx : ∀ r, u.ctxOf r = s.ctxOf r
  own : u.seq q = { s.seq q with tbuf := (u.seq q).tbuf }
  others : OtherSeqsSame q s u
  mem : SameMemory s u
  regs : ∀ a, a ≠ R.RC_VCYC (q - 8) → a ≠ R.RC_NMWAIT (q - 8) → a ≠ R.RC_TBUF (q - 8) → u.rd a = s.rd a

/-- Its lanes are written and it retires. -/
theorem Readied.screened {q : Nat} {s u : State} (h : Readied q s u) (m : BitVec 3) (vd : BitVec 5) (f : Nat → W32) :
    let t := u.vecDone q ((u.seq q).setLanes vd (((s.seq q).active m).map fun k => (k, f k)))
    ScreenFrame q s t ∧ LanesGet q m vd f s t := by
  intro t
  let xs := ((s.seq q).active m).map fun k => (k, f k)
  have after : t.seq q = ((u.seq q).setLanes vd xs).retired := State.seq_setSeq_same u q _
  have written : (u.seq q).setLanes vd xs = { u.seq q with v := ((u.seq q).setLanes vd xs).v } := Seq.setLanes_eq _ vd xs
  have lane (r : BitVec 5) {k : Nat} (hk : k < 64) : (t.seq q).lane r k =
      if r = vd ∧ k ∈ (s.seq q).active m then f k else (s.seq q).lane r k := by
    have old : (u.seq q).lane r k = (s.seq q).lane r k := by rw [h.own]; rfl
    rw [after, ← old]
    exact Seq.lane_setLanes vd f hk _ (u.seq q) fun j hj => (Seq.mem_active.mp hj).1
  refine ⟨⟨?_, ?_, fun r hr => ?_, h.mem, h.regs⟩, ⟨fun k hk => ?_, fun r k hr hk => ?_, fun r => ?_, fun r => ?_⟩⟩
  · rw [after, written, h.own]
    rfl
  · rw [after, written, h.own]
    rfl
  · exact (State.seq_setSeq_ne u _ (by rw [h.ctx, h.ctx]; exact hr)).trans (h.others r hr)
  · rw [lane vd hk]
    simp [Seq.mem_active, hk]
  · rw [lane r hk, if_neg fun e => hr e.1]
  · rw [after, written, h.own]
    rfl
  · rw [after, written, h.own]
    rfl

/-- Port waits are counted in RCn_NMWAIT alone (R167). -/
theorem State.portWait_rd (s : State) {q a : Nat} (h : a ≠ R.RC_NMWAIT (q - 8)) : (s.portWait q).rd a = s.rd a :=
  State.rd_set_ne (f := F.RC_NMWAIT_cycles (q - 8)) s.drawn _ h

@[simp] theorem State.portWait_cells (s : State) (q : Nat) : (s.portWait q).cells = s.cells := rfl

theorem State.portWait_sound {s : State} {a n : Nat} (h : s.sound a n) (q : Nat) : (s.portWait q).sound a n := by
  rwa [State.sound, State.portWait_cells]

/-- The state in which a nozzle-map instruction writes its lanes: its cycles and its port waits are counted. -/
theorem State.portWait_readied (s : State) (q : Nat) : Readied q s ((s.vecStart q).portWait q) where
  ctx _ := rfl
  own := rfl
  others _ _ := rfl
  mem _ := rfl
  regs _ hv hn _ := ((s.vecStart q).portWait_rd hn).trans (s.vecStart_rd hv)

theorem State.portWait_quiet {s : State} {q : Nat} (h : s.flag (F.RC_CTL_res_inj (q - 8)) = false) :
    ((s.vecStart q).portWait q).flag (F.RC_CTL_res_inj (q - 8)) = false := by
  have apart : R.RC_CTL (q - 8) ≠ R.RC_NMWAIT (q - 8) := by simp [R.RC_CTL, R.RC_NMWAIT]
  rw [← h, ← s.vecStart_flag (rc_ctl_ne_vcyc _ _), State.flag, State.flag]
  exact congrArg (· != 0) (State.get_of_rd ((s.vecStart q).portWait_rd apart))

/-! ### Tone words (R161) -/

theorem toNat_append_add {n m : Nat} (x : BitVec n) (y : BitVec m) : (x ++ y).toNat = x.toNat * 2 ^ m + y.toNat := by
  rw [BitVec.toNat_append, Nat.shiftLeft_eq, Nat.mul_comm, ← Nat.two_pow_add_eq_or_of_lt y.isLt]

/-- A tone word is its upper five bits and its three channels, one above the other. -/
theorem toneWord_eq (top : BitVec 5) {u : Nat → Nat} (h : ∀ c, u c < 512) :
    toneWord top.toNat u = top ++ BitVec.ofNat 9 (u 2) ++ BitVec.ofNat 9 (u 1) ++ BitVec.ofNat 9 (u 0) := by
  have small (c : Nat) : (BitVec.ofNat 9 (u c)).toNat = u c := Nat.mod_eq_of_lt (h c)
  have bounds := And.intro (h 0) (And.intro (h 1) (h 2))
  refine BitVec.eq_of_toNat_eq ?_
  rw [toNat_append_add, toNat_append_add, toNat_append_add, small, small, small, toneWord, BitVec.toNat_ofNat]
  omega

theorem chanOf_lt (w : W32) (c : Nat) : chanOf w c < 512 := by
  rw [chanOf_eq]
  exact BitVec.isLt _

theorem min_tone_lt (n : Nat) : min 511 n < 512 := Nat.lt_of_le_of_lt (Nat.min_le_left 511 n) (by decide)

/-! ### VNMAP (R166) -/

/-- State and mode of a map entry, as they stand in a tone word. -/
theorem entryTop_toNat (e : W32) : (e.extractLsb' 30 2 ++ e.extractLsb' 16 3).toNat = bitsOf e 31 30 * 8 + bitsOf e 18 16 := by
  rw [toNat_append_add, extract_toNat, extract_toNat]
  rfl

theorem gained_eq (e w : W32) :
    let gain := fun (c : Nat) => BitVec.ofNat 9 (min 511 (((w.extractLsb' (9 * c) 9).toNat * (e.extractLsb' 8 8).toNat + 64) / 128))
    gained e w = (((e.extractLsb' 30 2 ++ e.extractLsb' 16 3) ++ gain 2) ++ gain 1) ++ gain 0 := by
  intro gain
  rw [gained, ← entryTop_toNat, toneWord_eq _ fun _ => min_tone_lt _]
  simp only [chanOf_eq, gain, extract_toNat]
  rfl

theorem entryAddr_toNat {i : Nat} (h : i < 2 ^ 30) : (entryAddr i).toNat = 4 * i := by
  rw [entryAddr, BitVec.toNat_ofNat]
  exact Nat.mod_eq_of_lt (by omega)

/-- A range within the map passes the range check; one beyond it is a load access fault (R166). -/
theorem State.nozzlesIn_within {gn : Nat} (h : gn + 63 ≤ 786431) (s : State) (q : Nat) (t : State) : s.nozzlesIn q gn t = t := if_pos h

theorem State.nozzlesIn_beyond {gn : Nat} (h : 786431 < gn + 63) (s : State) (q : Nat) (t : State) :
    s.nozzlesIn q gn t = s.trap q 5 (BitVec.ofNat 32 (4 * max gn 786432)) := if_neg (Nat.not_le.mpr h)

/-- The words of map entries, as the state that counts the port waits reads them. -/
theorem State.portWait_wordAt (s : State) (q a : Nat) : ((s.vecStart q).portWait q).wordAt a = s.wordAt a :=
  State.wordAt_congr (s.portWait_readied q).mem a

theorem State.portWait_words (s : State) (q : Nat) {f : Nat → W32} {place : Nat → Nat} {l : List Nat} (h : ∀ k ∈ l, (f k).toNat = place k) :
    (l.map f).map (fun a => ((s.vecStart q).portWait q).wordAt a.toNat) = l.map fun k => s.wordAt (place k) := by
  rw [List.map_map]
  refine List.map_congr_left fun k hk => ?_
  rw [Function.comp_apply, State.portWait_wordAt, h k hk]

/-- Density gain of a range within the map, with no residue mismatch. -/
theorem State.vnmap_results {s : State} {q gn : Nat} (hq : q < 24) (m : BitVec 3) (vd vs1 g : BitVec 5) (start : ((s.seq q).x g).toNat = gn)
    (within : gn + 63 ≤ 786431) (quiet : s.flag (F.RC_CTL_res_inj (q - 8)) = false)
    (entries : ∀ k < 64, ((s.seq q).mask m).getLsbD k = true → s.usable q Needs.read (4 * (gn + k))) :
    let t := (s.vecStart q).vnmap q m vd vs1 g none
    ScreenFrame q s t ∧ LanesGet q m vd (fun k => gained (s.wordAt (4 * (gn + k))) ((s.seq q).lane vs1 k)) s t := by
  intro t
  let u := (s.vecStart q).portWait q
  have place : ∀ k ∈ (s.seq q).active m, (entryAddr (gn + k)).toNat = 4 * (gn + k) := fun k hk => by
    have bound : k < 64 := (Seq.mem_active.mp hk).1
    exact entryAddr_toNat (by omega)
  have usable : ∀ a ∈ ((s.seq q).active m).map (fun k => entryAddr (gn + k)), (s.vecStart q).usable q Needs.read a.toNat :=
    List.forall_mem_map.mpr fun k hk => by
      rw [place k hk]
      exact State.active_usable hq (addr := fun k => 4 * (gn + k)) entries k hk
  have result : t = u.vecDone q ((u.seq q).setLanes vd (((s.seq q).active m).map fun k =>
      (k, gained (s.wordAt (4 * (gn + k))) ((s.seq q).lane vs1 k)))) := by
    have sound : ∀ a ∈ ((s.seq q).active m).map (fun k => entryAddr (gn + k)), u.sound a.toNat 4 :=
      fun a ha => State.portWait_sound (usable a ha).2.2.2 q
    simp only [t, State.vnmap, State.vecStart_seq, start]
    rw [State.nozzlesIn_within within, State.afterCheck_usable (store := false) usable, State.withWords_of_sound sound,
      State.residue_passes (State.portWait_quiet quiet), s.portWait_words q place,
      zip_words _ (fun k => s.wordAt (4 * (gn + k))) fun k word => gained word ((s.seq q).lane vs1 k)]
  rw [result]
  exact (s.portWait_readied q).screened m vd _

/-! ### VSPREAD (R168) -/

/-- The half-shares that a neighbour hands on; `full` is the mode that sends them all to this side. -/
def shareOf (l : Option W32) (full : Nat) : Nat :=
  match l with
  | some w => if 2 ≤ stateOf w then (if modeOf w = full then 2 else if modeOf w = 3 then 1 else 0) else 0
  | none => 0

theorem halvesGot_eq (l r : Option W32) : halvesGot l r = shareOf l 2 + shareOf r 1 := by
  cases l <;> cases r <;> rfl

/-- A map entry at the edge in the places of a tone word: its upper five bits. -/
theorem edgeWord_top (e : W32) : (edgeWord e).toNat = (bitsOf e 31 30 * 8 + bitsOf e 18 16) * 2 ^ 27 := by
  have state : bitsOf e 31 30 < 4 := bitsOf_lt e 31 30
  have mode : bitsOf e 18 16 < 8 := bitsOf_lt e 18 16
  rw [edgeWord, BitVec.toNat_ofNat]
  omega

theorem stateOf_edgeWord (e : W32) : stateOf (edgeWord e) = (e.extractLsb' 30 2).toNat := by
  have state : bitsOf e 31 30 < 4 := bitsOf_lt e 31 30
  have mode : bitsOf e 18 16 < 8 := bitsOf_lt e 18 16
  rw [← stateOf_eq]
  show (edgeWord e).toNat / 2 ^ 30 % 2 ^ 2 = bitsOf e 31 30
  rw [edgeWord_top]
  omega

theorem modeOf_edgeWord (e : W32) : modeOf (edgeWord e) = (e.extractLsb' 16 3).toNat := by
  have mode : bitsOf e 18 16 < 8 := bitsOf_lt e 18 16
  have field : (e.extractLsb' 16 3).toNat = bitsOf e 18 16 := bitsOf_extract e 18 16
  rw [field]
  show (edgeWord e).toNat / 2 ^ 27 % 2 ^ 3 = bitsOf e 18 16
  rw [edgeWord_top]
  omega

/-- What a neighbour hands on, where there is one: an entry at the edge, or another lane. -/
theorem shareOf_neighbour {there : Prop} [Decidable there] {l : Option W32} {edge : Prop} [Decidable edge] {e w : W32} (full : Nat)
    (h : l = if there then some (if edge then edgeWord e else w) else none) :
    let st := if edge then (e.extractLsb' 30 2).toNat else (w.extractLsb' 30 2).toNat
    let md := (if edge then e.extractLsb' 16 3 else w.extractLsb' 27 3).toNat
    shareOf l full = if there ∧ 2 ≤ st then (if md = full then 2 else if md = 3 then 1 else 0) else 0 := by
  intro st md
  have state : stateOf (if edge then edgeWord e else w) = st := by
    rw [apply_ite stateOf, stateOf_edgeWord, stateOf_eq]
  have mode : modeOf (if edge then edgeWord e else w) = md := by
    rw [apply_ite modeOf, modeOf_edgeWord, modeOf_eq, ← apply_ite BitVec.toNat]
  rw [h]
  by_cases here : there
  · simp only [here, if_true, shareOf, state, mode, true_and]
  · simp [here, shareOf]

/-- A lane after redistribution, with the half-shares it receives. -/
theorem spreadLane_eq (w : W32) (l r : Option W32) :
    let moved := fun (c : Nat) => BitVec.ofNat 9 (min 511 ((w.extractLsb' (9 * c) 9).toNat +
      (w.extractLsb' (9 * c) 9).toNat * (shareOf l 2 + shareOf r 1) / 2))
    spreadLane w l r = if 2 ≤ (w.extractLsb' 30 2).toNat then w &&& 0xF8000000
      else ((w.extractLsb' 27 5 ++ moved 2) ++ moved 1) ++ moved 0 := by
  intro moved
  have top : bitsOf w 31 27 = (w.extractLsb' 27 5).toNat := (bitsOf_extract w 31 27).symm
  rw [spreadLane, stateOf_eq, top, toneWord_eq _ fun _ => min_tone_lt _]
  simp only [chanOf_eq, halvesGot_eq, moved]

/-- The edge entries that VSPREAD reads: one on each side that goes on in the same tile. -/
def edgePlaces (gn : Nat) : List Nat := (if gn % 2048 ≠ 0 then [gn - 1] else []) ++ (if (gn + 64) % 2048 ≠ 0 then [gn + 64] else [])

/-- The left edge of the range, where it goes on in the same tile, is the first entry read. -/
theorem edgePlaces_left {gn : Nat} (h : gn % 2048 ≠ 0) (word : Nat → W32) : ((edgePlaces gn).map word).headD 0 = word (gn - 1) := by
  simp [edgePlaces, h]

/-- The right edge is the last. -/
theorem edgePlaces_right {gn : Nat} (h : (gn + 64) % 2048 ≠ 0) (word : Nat → W32) :
    ((edgePlaces gn).map word).getLastD 0 = word (gn + 64) := by
  simp [edgePlaces, h]

theorem edgePlaces_addr (gn : Nat) : (if (gn % 2048 != 0) = true then [entryAddr (gn - 1)] else []) ++
    (if ((gn + 64) % 2048 != 0) = true then [entryAddr (gn + 64)] else []) = (edgePlaces gn).map entryAddr := by
  simp only [edgePlaces, List.map_append, apply_ite (List.map entryAddr), List.map_cons, List.map_nil, bne_iff_ne]

theorem mem_edgePlaces {gn i : Nat} (h : i ∈ edgePlaces gn) : gn % 2048 ≠ 0 ∧ i = gn - 1 ∨ (gn + 64) % 2048 ≠ 0 ∧ i = gn + 64 := by
  simpa [edgePlaces, List.mem_ite_nil_right] using h

/-- The word to the left of a lane; the edge entry counts where it is read. -/
theorem leftOf_eq (c : Seq) (vs1 : BitVec 5) {gn : Nat} {edge e : W32} (h : gn % 2048 ≠ 0 → edge = e) (k : Nat) :
    leftOf c vs1 gn edge k = if (gn + k) % 2048 ≠ 0 then some (if k = 0 then edgeWord e else c.lane vs1 (k - 1)) else none := by
  rw [leftOf, ite_not]
  by_cases first : k = 0
  · subst first
    by_cases start : gn % 2048 = 0
    · simp [start]
    · rw [h start]
  · simp only [first, if_false]

/-- The word to its right. -/
theorem rightOf_eq (c : Seq) (vs1 : BitVec 5) {gn : Nat} {edge e : W32} (h : (gn + 64) % 2048 ≠ 0 → edge = e) (k : Nat) :
    rightOf c vs1 gn edge k = if (gn + k + 1) % 2048 ≠ 0 then some (if k = 63 then edgeWord e else c.lane vs1 (k + 1)) else none := by
  simp only [rightOf, sameTile, bne_iff_ne]
  by_cases last : k = 63
  · subst last
    by_cases stop : (gn + 64) % 2048 = 0
    · simp [stop]
    · rw [h stop]
  · simp only [last, if_false]

/-- Redistribution over a range within the map, with no residue mismatch. -/
theorem State.vspread_results {s : State} {q gn : Nat} (hq : q < 24) (m : BitVec 3) (vd vs1 g : BitVec 5) (start : ((s.seq q).x g).toNat = gn)
    (within : gn + 63 ≤ 786431) (quiet : s.flag (F.RC_CTL_res_inj (q - 8)) = false)
    (low : gn % 2048 ≠ 0 → s.usable q Needs.read (4 * (gn - 1))) (high : (gn + 64) % 2048 ≠ 0 → s.usable q Needs.read (4 * (gn + 64))) :
    let t := (s.vecStart q).vspread q m vd vs1 g none
    let words := (edgePlaces gn).map fun i => s.wordAt (4 * i)
    ScreenFrame q s t ∧ LanesGet q m vd (fun k => spreadLane ((s.seq q).lane vs1 k) (leftOf (s.seq q) vs1 gn (words.headD 0) k)
      (rightOf (s.seq q) vs1 gn (words.getLastD 0) k)) s t := by
  intro t words
  let u := (s.vecStart q).portWait q
  have place : ∀ i ∈ edgePlaces gn, (entryAddr i).toNat = 4 * i := fun i hi => by
    refine entryAddr_toNat ?_
    obtain ⟨-, rfl⟩ | ⟨-, rfl⟩ := mem_edgePlaces hi <;> omega
  have usable : ∀ a ∈ (edgePlaces gn).map entryAddr, (s.vecStart q).usable q Needs.read a.toNat :=
    List.forall_mem_map.mpr fun i hi => by
      rw [place i hi]
      obtain ⟨here, rfl⟩ | ⟨here, rfl⟩ := mem_edgePlaces hi
      · exact State.vecStart_usable hq (low here)
      · exact State.vecStart_usable hq (high here)
  have result : t = u.vecDone q ((u.seq q).setLanes vd (((s.seq q).active m).map fun k => (k, spreadLane ((s.seq q).lane vs1 k)
      (leftOf (s.seq q) vs1 gn (words.headD 0) k) (rightOf (s.seq q) vs1 gn (words.getLastD 0) k)))) := by
    have sound : ∀ a ∈ (edgePlaces gn).map entryAddr, u.sound a.toNat 4 :=
      fun a ha => State.portWait_sound (usable a ha).2.2.2 q
    simp only [t, State.vspread, State.vecStart_seq, start]
    rw [edgePlaces_addr, State.nozzlesIn_within within, State.afterCheck_usable (store := false) usable, State.withWords_of_sound sound,
      State.residue_passes (State.portWait_quiet quiet), s.portWait_words q place]
  rw [result]
  exact (s.portWait_readied q).screened m vd _

/-- Settles O35: within the map by `State.vnmap_results` and `State.vspread_results`, beyond it by the range check's trap. -/
theorem nozzleMapResults : Obligations.NozzleMapResults := by
  intro q m vd vs1 g s hrun hlo hhi on gn w entry tone gained' state share halves moved quiet
  have hv : hasV q = true := hasV_of_bounds hlo hhi
  have works (word : W32) (f : State → State) : s.vecInsn q word true f = f (s.vecStart q) := State.vecInsn_of_cluster hrun hv word f
  refine ⟨fun within still entries => ⟨_, congrArg Host.Outcome.next (works _ _), ?map⟩,
    fun within still low high => ⟨_, congrArg Host.Outcome.next (works _ _), ?spread⟩, fun beyond hinh c hc => ?beyond⟩
  case map =>
    obtain ⟨frame, lanes⟩ := State.vnmap_results hhi m vd vs1 g rfl within still entries
    exact ⟨frame, lanes.congr fun k => gained_eq _ _⟩
  case spread =>
    obtain ⟨frame, lanes⟩ := State.vspread_results (gn := gn) hhi m vd vs1 g rfl within still low high
    refine ⟨frame, lanes.congr fun k => ?_⟩
    have left := shareOf_neighbour 2 (leftOf_eq (s.seq q) vs1 (gn := gn) (fun h => edgePlaces_left h fun i => s.wordAt (4 * i)) k)
    have right := shareOf_neighbour 1 (rightOf_eq (s.seq q) vs1 (gn := gn) (fun h => edgePlaces_right h fun i => s.wordAt (4 * i)) k)
    rw [spreadLane_eq, left, right]
  case beyond =>
    have trapped := State.vecStart_trap (s := s) (q := q) hinh 5 (BitVec.ofNat 32 (4 * max gn 786432))
    obtain rfl | rfl := hc <;>
      exact ⟨_, congrArg Host.Outcome.next ((works _ _).trans (State.nozzlesIn_beyond beyond _ _ _)), trapped⟩

end Sys2Proof.Machine
end

section
/-! SUPPORT. The tone table: what a source selector reads, what a table entry or an interpolated pixel gives, the buffer and its loading; and
the statement on VLUT (R161, R162, R164, R165). -/

namespace Sys2Proof.Machine

/-! ### Interpolation -/

/-- Between two channel values, both of 9 bits, lies a 9-bit value. -/
theorem interp_bounds {a b f : Nat} (ha : a < 512) (hb : b < 512) (hf : f < 256) :
    0 ≤ (a : Int) + (((b : Int) - a) * f + 128) / 256 ∧ (a : Int) + (((b : Int) - a) * f + 128) / 256 < 512 := by
  obtain up | down := Nat.le_total a b
  · have lo : 0 ≤ ((b : Int) - a) * f := mul_nonneg (by omega) (by omega)
    have hi : ((b : Int) - a) * f ≤ ((b : Int) - a) * 255 := mul_le_mul_of_nonneg_left (by omega) (by omega)
    omega
  · have hi : ((b : Int) - a) * f ≤ 0 := mul_nonpos_of_nonpos_of_nonneg (by omega) (by omega)
    have lo : ((b : Int) - a) * 255 ≤ ((b : Int) - a) * f := mul_le_mul_of_nonpos_left (by omega) (by omega)
    omega

theorem ofNat_toNat_of_nonneg {n : Nat} {i : Int} (h : 0 ≤ i) : BitVec.ofNat n i.toNat = BitVec.ofInt n i := by
  rw [← BitVec.ofInt_natCast, Int.toNat_of_nonneg h]

/-- A 16-bit pixel lies between two entries, channel by channel. -/
theorem interpTone_eq (t : Nat → W32) (x : Nat) :
    let channel := fun (a b : W32) (f c : Nat) => BitVec.ofInt 9 (((a.extractLsb' (9 * c) 9).toNat : Int) +
      ((((b.extractLsb' (9 * c) 9).toNat : Int) - (a.extractLsb' (9 * c) 9).toNat) * f + 128) / 256)
    let a := t (x / 256)
    let b := t (min (x / 256 + 1) 255)
    interpTone t x = ((0#5 ++ channel a b (x % 256) 2) ++ channel a b (x % 256) 1) ++ channel a b (x % 256) 0 := by
  intro channel a b
  have bounds (c : Nat) := interp_bounds (chanOf_lt a c) (chanOf_lt b c) (Nat.mod_lt x (show 0 < 256 by decide))
  have small (c : Nat) : ((chanOf a c : Int) + (((chanOf b c : Int) - chanOf a c) * (x % 256 : Nat) + 128) / 256).toNat < 512 := by
    obtain ⟨-, upper⟩ := bounds c
    omega
  have same (c : Nat) : BitVec.ofNat 9 ((chanOf a c : Int) + (((chanOf b c : Int) - chanOf a c) * (x % 256 : Nat) + 128) / 256).toNat =
      channel a b (x % 256) c := by
    rw [ofNat_toNat_of_nonneg (bounds c).1, chanOf_eq, chanOf_eq]
  refine (toneWord_eq 0#5 small).trans ?_
  rw [same, same, same]

/-- Its upper five bits are 0, so the mask of a table entry leaves it. -/
theorem interpTone_masked (t : Nat → W32) (x : Nat) : interpTone t x &&& 0x07FFFFFF = interpTone t x := by
  have value : (interpTone t x).toNat < 2 ^ 27 := by
    have zero : (0#5).toNat = 0 := rfl
    rw [interpTone_eq, toNat_append_add, toNat_append_add, toNat_append_add, zero]
    omega
  exact BitVec.eq_of_toNat_eq ((Nat.and_two_pow_sub_one_eq_mod _ 27).trans (Nat.mod_eq_of_lt value))

/-! ### What a source word gives (R164) -/

/-- What a source word reads: an entry of the table, or for a 16-bit pixel the value between two. -/
def lutTone (t : Nat → W32) (src : Nat × Bool) : W32 := if src.2 then interpTone t src.1 else t src.1

theorem lutOf_eq (c : Seq) (table : List W32) (vs1 : BitVec 5) (sel k : Nat) :
    lutOf c table vs1 sel k = lutTone (fun i => table.getD i 0) (sourceOf c vs1 sel k) &&& 0x07FFFFFF#32 := by
  rw [lutOf, lutTone]
  generalize sourceOf c vs1 sel k = src
  obtain ⟨x, _ | _⟩ := src
  · rfl
  · exact (interpTone_masked _ x).symm

/-- A source word is a byte or narrower, or a 16-bit pixel. -/
theorem sourceOf_lt (c : Seq) (vs1 : BitVec 5) (sel k : Nat) :
    (sourceOf c vs1 sel k).1 < if (sourceOf c vs1 sel k).2 then 65536 else 256 := by
  unfold sourceOf
  by_cases byte : sel ≤ 3
  · rw [if_pos byte]
    exact Nat.mod_lt _ (by decide)
  · rw [if_neg byte]
    by_cases halfword : sel ≤ 5
    · rw [if_pos halfword]
      exact Nat.mod_lt _ (by decide)
    · rw [if_neg halfword]
      by_cases lowByte : sel = 6
      · rw [if_pos lowByte]
        exact Nat.mod_lt _ (by decide)
      · rw [if_neg lowByte]
        by_cases lowHalf : sel = 7
        · rw [if_pos lowHalf]
          exact Nat.mod_lt _ (by decide)
        · rw [if_neg lowHalf]
          by_cases pair : sel ≤ 23
          · rw [if_pos pair]
            exact Nat.lt_of_lt_of_le (Nat.mod_lt _ (by decide)) (by decide : 4 ≤ 256)
          · rw [if_neg pair]
            exact Nat.lt_of_lt_of_le (Nat.mod_lt _ (by decide)) (by decide : 8 ≤ 256)

/-- Two tables that agree on their 256 entries give a source word the same tone. -/
theorem lutTone_congr {t u : Nat → W32} (h : ∀ i < 256, t i = u i) {src : Nat × Bool} (bound : src.1 < if src.2 then 65536 else 256) :
    lutTone t src = lutTone u src := by
  obtain ⟨x, _ | _⟩ := src
  · rw [if_neg Bool.false_ne_true] at bound
    simp only [lutTone, Bool.false_eq_true, if_false, h x bound]
  · rw [if_pos rfl] at bound
    simp only [lutTone, if_true, interpTone]
    rw [h (x / 256) (by omega), h (min (x / 256 + 1) 255) (by omega)]

/-- The table entries that a lane uses are among the 256. -/
theorem lutEntries_lt {c : Seq} {vs1 : BitVec 5} {sel k i : Nat} (h : i ∈ lutEntries c vs1 sel k) : i < 256 := by
  have bound := sourceOf_lt c vs1 sel k
  unfold lutEntries at h
  generalize sourceOf c vs1 sel k = src at h bound
  obtain ⟨x, _ | _⟩ := src
  · rw [if_neg Bool.false_ne_true] at bound
    exact List.mem_singleton.mp h ▸ bound
  · rw [if_pos rfl] at bound
    simp only [List.mem_cons, List.not_mem_nil, or_false] at h
    omega

/-! ### The fields that a selector reads (R159, R164) -/

/-- A field of `n` bits among equal fields of a word. -/
theorem field_toNat (w : W32) (n j : Nat) : (w.extractLsb' (n * j) n).toNat = w.toNat / (2 ^ n) ^ j % 2 ^ n := by
  rw [extract_toNat, Nat.pow_mul]

/-- A 3-bit field of a stream of words: it may reach into the next word. -/
theorem streamField_toNat (lo hi : W32) {r : Nat} (hr : r < 32) :
    ((hi ++ lo).extractLsb' r 3).toNat = (lo.toNat + if r ≤ 29 then 0 else hi.toNat * 2 ^ 32) / 2 ^ r % 8 := by
  rw [extract_toNat, toNat_append_add]
  by_cases within : r ≤ 29
  · have split : (2 : Nat) ^ 32 = 2 ^ r * (2 ^ 3 * 2 ^ (29 - r)) := by
      rw [← Nat.pow_add, ← Nat.pow_add]
      congr 1
      omega
    rw [if_pos within, Nat.add_zero, Nat.add_comm, split, ← Nat.mul_assoc, Nat.mul_comm _ (2 ^ r), Nat.mul_assoc,
      Nat.add_mul_div_left _ _ (Nat.pow_pos (by decide)), ← Nat.mul_assoc, Nat.mul_comm hi.toNat, Nat.mul_assoc, Nat.add_mul_mod_self_left]
    rfl
  · rw [if_neg within, Nat.add_comm]
    rfl

/-- What a lane looks up, selector by selector. -/
theorem lutTone_source (c : Seq) (t : Nat → W32) (vs1 : BitVec 5) (sel k : Nat) :
    let w := fun (i : Nat) => c.lane vs1 i
    lutTone t (sourceOf c vs1 sel k) =
      if sel ≤ 3 then t ((w (16 * sel + k / 4)).extractLsb' (8 * (k % 4)) 8).toNat
      else if sel ≤ 5 then interpTone t ((w (32 * (sel - 4) + k / 2)).extractLsb' (16 * (k % 2)) 16).toNat
      else if sel = 6 then t ((w k).extractLsb' 0 8).toNat
      else if sel = 7 then interpTone t ((w k).extractLsb' 0 16).toNat
      else if sel ≤ 23 then t ((w (4 * (sel - 8) + k / 16)).extractLsb' (2 * (k % 16)) 2).toNat
      else t ((w (6 * (sel - 24) + 3 * k / 32 + 1) ++ w (6 * (sel - 24) + 3 * k / 32)).extractLsb' (3 * k % 32) 3).toNat := by
  intro w
  simp only [streamField_toNat _ _ (Nat.mod_lt (3 * k) (show 0 < 32 by decide)), field_toNat, extract_toNat _ 0, sourceOf, apply_ite (lutTone t)]
  simp only [lutTone, Nat.pow_zero, Nat.div_one, if_true, if_false, Bool.false_eq_true, Nat.reducePow, w]

/-! ### The table buffer (R165) -/

theorem State.vecDone_rd (s : State) (q : Nat) (c : Seq) (a : Nat) : (s.vecDone q c).rd a = s.rd a := rfl

/-- Lanes that are written leave the table buffer. -/
theorem State.vecDone_tbuf (s : State) (q : Nat) (vd : BitVec 5) (xs : List (Nat × W32)) :
    ((s.vecDone q ((s.seq q).setLanes vd xs)).seq q).tbuf = (s.seq q).tbuf := by
  have after : (s.vecDone q ((s.seq q).setLanes vd xs)).seq q = ((s.seq q).setLanes vd xs).retired := State.seq_setSeq_same s q _
  rw [after, Seq.setLanes_eq]
  rfl

theorem rc_tbuf_ne_vcyc (i j : Nat) : R.RC_TBUF i ≠ R.RC_VCYC j := by
  simp only [R.RC_TBUF, R.RC_VCYC]
  omega

/-- The buffer holds the table at a base exactly where RCn_TBUF says so. -/
theorem State.vecStart_tableHeld (s : State) (q : Nat) (base : W32) : (s.vecStart q).tableHeld (q - 8) base = true ↔
    s.flag (F.RC_TBUF_valid (q - 8)) = true ∧ s.get (F.RC_TBUF_base (q - 8)) = base.toNat / 1024 := by
  rw [State.tableHeld, s.vecStart_flag (rc_tbuf_ne_vcyc _ _), s.vecStart_get (rc_tbuf_ne_vcyc _ _), Bool.and_eq_true, beq_iff_eq]

/-- A table is 1 KiB aligned, so none of its 256 words wraps. -/
theorem tableAddr_toNat (g : W32) {i : Nat} (h : i < 256) : ((g &&& 0xFFFFFC00) + w32 (4 * i)).toNat = (g &&& 0xFFFFFC00).toNat + 4 * i := by
  have bound : (g &&& 0xFFFFFC00).toNat ≤ 0xFFFFFC00 := by
    rw [BitVec.toNat_and]
    exact Nat.and_le_right
  rw [BitVec.toNat_add, BitVec.toNat_ofNat, Nat.mod_eq_of_lt (show 4 * i < 2 ^ 32 by omega)]
  exact Nat.mod_eq_of_lt (by omega)

/-- Every word that is checked is one of the table's 256. -/
theorem mem_tableWords {c : Seq} {m : BitVec 3} {vs1 : BitVec 5} {base a : W32} {sel : Nat} (h : a ∈ tableWords c m vs1 base sel) :
    ∃ i < 256, base + w32 (4 * i) = a := by
  obtain ⟨i, hi, rfl⟩ := List.mem_map.mp h
  refine ⟨i, ?_, rfl⟩
  obtain lane | whole := List.mem_append.mp hi
  · obtain ⟨k, -, used⟩ := List.mem_flatMap.mp lane
    exact lutEntries_lt used
  · exact List.mem_range.mp whole

/-- The state in which a table has been loaded: the buffer holds its words, and RCn_TBUF its base. -/
def State.tableLoaded (s : State) (q : Nat) (base : W32) (words : List W32) : State :=
  (s.setSeq q { s.seq q with tbuf := words }).wr (R.RC_TBUF (q - 8)) (base ||| 1)

theorem State.tableLoaded_seq (s : State) (q : Nat) (base : W32) (words : List W32) :
    (s.tableLoaded q base words).seq q = { s.seq q with tbuf := words } := State.seq_setSeq_same s q _

@[simp] theorem State.tableLoaded_ctxOf (s : State) (q : Nat) (base : W32) (words : List W32) (r : Nat) :
    (s.tableLoaded q base words).ctxOf r = s.ctxOf r := rfl

@[simp] theorem State.tableLoaded_rdByte (s : State) (q : Nat) (base : W32) (words : List W32) (a : Nat) :
    (s.tableLoaded q base words).rdByte a = s.rdByte a := rfl

theorem State.tableLoaded_seq_ne (s : State) {q r : Nat} (base : W32) (words : List W32) (h : s.ctxOf r ≠ s.ctxOf q) :
    (s.tableLoaded q base words).seq r = s.seq r := State.seq_setSeq_ne s _ h

theorem State.tableLoaded_rd_ne (s : State) {q a : Nat} (base : W32) (words : List W32) (h : a ≠ R.RC_TBUF (q - 8)) :
    (s.tableLoaded q base words).rd a = s.rd a := State.rd_wr_ne _ _ h

theorem State.tableLoaded_rd_same (s : State) (q : Nat) (base : W32) (words : List W32) :
    (s.tableLoaded q base words).rd (R.RC_TBUF (q - 8)) = base ||| 1 := State.rd_wr_same _ _ _

theorem State.tableLoaded_readied (s : State) (q : Nat) (base : W32) (words : List W32) :
    Readied q s ((s.vecStart q).tableLoaded q base words) where
  ctx r := by rw [State.tableLoaded_ctxOf, State.vecStart_ctxOf]
  own := by rw [State.tableLoaded_seq, State.vecStart_seq]
  others r hr := by rw [State.tableLoaded_seq_ne (s.vecStart q) _ _ hr, State.vecStart_seq]
  mem a := by rw [State.tableLoaded_rdByte, State.vecStart_rdByte]
  regs _ hv _ ht := (State.tableLoaded_rd_ne _ _ _ ht).trans (s.vecStart_rd hv)

/-- A table whose words all pass is read whole. -/
theorem State.tableLoad_of_sound {s : State} {q : Nat} {base : W32} (sound : ∀ i < 256, s.sound (base + w32 (4 * i)).toNat 4)
    (order : List W32) (f : State → State) : s.tableLoad q base order f =
      f (s.tableLoaded q base ((List.range 256).map fun i => s.wordAt (base + w32 (4 * i)).toNat)) := by
  have read := readWords_of_sound (q := q) (s := s) ((List.range 256).map fun i => base + w32 (4 * i))
    (List.forall_mem_map.mpr fun i hi => sound i (List.mem_range.mp hi))
  rw [State.tableLoad, read, List.map_map]
  rfl

theorem getD_map_range (f : Nat → W32) {n i : Nat} (h : i < n) : ((List.range n).map f).getD i 0 = f i := by
  rw [List.getD_eq_getElem?_getD, List.getElem?_map, List.getElem?_range h]
  rfl

/-! ### The two ways of VLUT -/

/-- Lanes looked up in the table that the buffer holds. -/
theorem State.vlut_held {s : State} {q : Nat} (m : BitVec 3) (vd vs1 g : BitVec 5)
    (held : (s.vecStart q).tableHeld (q - 8) ((s.seq q).x g &&& 0xFFFFFC00) = true) :
    let t := (s.vecStart q).vlut q m vd vs1 g
    VectorFrame q s t ∧ LanesGet q m vd (fun k => lutOf (s.seq q) (s.seq q).tbuf vs1 (((s.seq q).x g).toNat / 4 % 32) k) s t ∧
      (t.seq q).tbuf = (s.seq q).tbuf := by
  intro t
  have result : t = (s.vecStart q).lutDone q m vd vs1 (((s.seq q).x g).toNat / 4 % 32) := if_pos held
  rw [result]
  obtain ⟨frame, lanes⟩ := s.vecDone_lanes q m vd fun k => lutOf (s.seq q) (s.seq q).tbuf vs1 (((s.seq q).x g).toNat / 4 % 32) k
  exact ⟨frame, lanes, (s.vecStart q).vecDone_tbuf q vd _⟩

/-- Lanes looked up in a table that is loaded first. -/
theorem State.vlut_loaded {s : State} {q : Nat} (hq : q < 24) (m : BitVec 3) (vd vs1 g : BitVec 5) {base : W32}
    (place : (s.seq q).x g &&& 0xFFFFFC00 = base) (held : ¬(s.vecStart q).tableHeld (q - 8) base = true)
    (entries : ∀ i < 256, s.usable q Needs.read (base.toNat + 4 * i)) :
    let t := (s.vecStart q).vlut q m vd vs1 g
    let words := (List.range 256).map fun i => s.wordAt (base.toNat + 4 * i)
    ScreenFrame q s t ∧ LanesGet q m vd (fun k => lutOf (s.seq q) words vs1 (((s.seq q).x g).toNat / 4 % 32) k) s t ∧
      (t.seq q).tbuf = words ∧ t.rd (R.RC_TBUF (q - 8)) = base ||| 1 := by
  intro t words
  let u := (s.vecStart q).tableLoaded q base words
  have addr (i : Nat) (hi : i < 256) : (base + w32 (4 * i)).toNat = base.toNat + 4 * i := by
    rw [← place]
    exact tableAddr_toNat _ hi
  have usable (i : Nat) (hi : i < 256) : (s.vecStart q).usable q Needs.read (base + w32 (4 * i)).toNat := by
    rw [addr i hi]
    exact State.vecStart_usable hq (entries i hi)
  have read : ((List.range 256).map fun i => (s.vecStart q).wordAt (base + w32 (4 * i)).toNat) = words :=
    List.map_congr_left fun i hi => by rw [State.vecStart_wordAt, addr i (List.mem_range.mp hi)]
  have result : t = u.lutDone q m vd vs1 (((s.seq q).x g).toNat / 4 % 32) := by
    have checked : ∀ a ∈ tableWords (s.seq q) m vs1 base (((s.seq q).x g).toNat / 4 % 32), (s.vecStart q).usable q Needs.read a.toNat :=
      fun a ha => by
        obtain ⟨i, hi, rfl⟩ := mem_tableWords ha
        exact usable i hi
    simp only [t, State.vlut, State.vecStart_seq, place]
    rw [if_neg held, State.afterCheck_usable (store := false) checked, State.tableLoad_of_sound fun i hi => (usable i hi).2.2.2, read]
  have loaded : u.seq q = { s.seq q with tbuf := words } := (s.vecStart q).tableLoaded_seq q base words
  have shape : u.lutDone q m vd vs1 (((s.seq q).x g).toNat / 4 % 32) = u.vecDone q ((u.seq q).setLanes vd
      (((s.seq q).active m).map fun k => (k, lutOf (s.seq q) words vs1 (((s.seq q).x g).toNat / 4 % 32) k))) := by
    rw [State.lutDone, loaded]
    rfl
  obtain ⟨frame, lanes⟩ := (s.tableLoaded_readied q base words).screened m vd fun k =>
    lutOf (s.seq q) words vs1 (((s.seq q).x g).toNat / 4 % 32) k
  rw [result, shape]
  refine ⟨frame, lanes, ?_, (State.vecDone_rd _ q _ _).trans ((s.vecStart q).tableLoaded_rd_same q base words)⟩
  rw [State.vecDone_tbuf, loaded]

/-- Settles O34: the two ways of VLUT, with what each selector reads written out by `lutTone_source`. -/
theorem tableLookupResults : Obligations.TableLookupResults := by
  intro q m vd vs1 g s hrun hlo hhi w base sel channel interp entry held stored
  have hv : hasV q = true := hasV_of_bounds hlo hhi
  have works (word : W32) (f : State → State) : s.vecInsn q word true f = f (s.vecStart q) := State.vecInsn_of_cluster hrun hv word f
  have holds : (s.vecStart q).tableHeld (q - 8) base = true ↔ held := s.vecStart_tableHeld q base
  have looked (t : Nat → W32) (k : Nat) : lutTone t (sourceOf (s.seq q) vs1 sel k) &&& 0x07FFFFFF#32 = entry t k := by
    rw [lutTone_source]
    simp only [interpTone_eq]
    rfl
  refine ⟨fun here => ⟨_, congrArg Host.Outcome.next (works _ _), ?held⟩,
    fun absent entries => ⟨_, congrArg Host.Outcome.next (works _ _), ?loaded⟩⟩
  case held =>
    obtain ⟨frame, lanes, buffer⟩ := State.vlut_held m vd vs1 g (holds.mpr here)
    exact ⟨frame, lanes.congr fun k => (lutOf_eq _ _ _ _ k).trans (looked _ k), buffer⟩
  case loaded =>
    obtain ⟨frame, lanes, buffer, register⟩ := State.vlut_loaded hhi m vd vs1 g rfl (fun h => absent (holds.mp h)) entries
    have words (i : Nat) (hi : i < 256) : ((List.range 256).map fun i => s.wordAt (base.toNat + 4 * i)).getD i 0 = stored i :=
      getD_map_range stored hi
    refine ⟨frame, lanes.congr fun k => ?_, fun i hi => ?_, register⟩
    · rw [lutOf_eq, lutTone_congr words (sourceOf_lt _ _ _ k)]
      exact looked stored k
    · rw [buffer]
      exact words i hi

end Sys2Proof.Machine
end

section
/-! SUPPORT. The packed stream: fields replaced in a number, the words that hold bits of an active lane, and the statement on VPACK (R159,
R163, R171). -/

namespace Sys2Proof.Machine

/-! ### Fields of a number -/

/-- A field of `n` bits replaced in a number: its bits are the new ones, every other stays. -/
theorem testBit_replaceField (x p : Nat) {n v : Nat} (hv : v < 2 ^ n) (b : Nat) :
    (x - x / 2 ^ p % 2 ^ n * 2 ^ p + v * 2 ^ p).testBit b = if p ≤ b ∧ b < p + n then v.testBit (b - p) else x.testBit b := by
  have low : x % 2 ^ p < 2 ^ p := Nat.mod_lt _ (Nat.two_pow_pos p)
  have field : x / 2 ^ p % 2 ^ n < 2 ^ n := Nat.mod_lt _ (Nat.two_pow_pos n)
  have whole : x = 2 ^ p * (2 ^ n * (x / 2 ^ p / 2 ^ n) + x / 2 ^ p % 2 ^ n) + x % 2 ^ p := by
    rw [Nat.div_add_mod, Nat.div_add_mod]
  have replaced : x - x / 2 ^ p % 2 ^ n * 2 ^ p + v * 2 ^ p = 2 ^ p * (2 ^ n * (x / 2 ^ p / 2 ^ n) + v) + x % 2 ^ p := by
    have parts := whole
    rw [Nat.mul_add] at parts ⊢
    rw [Nat.mul_comm (x / 2 ^ p % 2 ^ n), Nat.mul_comm v]
    omega
  rw [replaced, Nat.testBit_two_pow_mul_add _ low, Nat.testBit_two_pow_mul_add _ hv]
  have old : x.testBit b = if b < p then (x % 2 ^ p).testBit b
      else if b - p < n then (x / 2 ^ p % 2 ^ n).testBit (b - p) else (x / 2 ^ p / 2 ^ n).testBit (b - p - n) := by
    conv_lhs => rw [whole]
    rw [Nat.testBit_two_pow_mul_add _ low, Nat.testBit_two_pow_mul_add _ field]
  rw [old]
  by_cases below : b < p
  · simp [below, Nat.not_le.mpr below]
  · by_cases inside : b - p < n
    · rw [if_neg below, if_pos inside, if_pos (by omega)]
    · rw [if_neg below, if_neg inside, if_neg (by omega), if_neg below, if_neg inside]

/-- The `k`-th of the equal fields of a number replaced. -/
theorem testBit_replaceNth (x k : Nat) {n v : Nat} (hn : 0 < n) (hv : v < 2 ^ n) (b : Nat) :
    (x - x / 2 ^ (n * k) % 2 ^ n * 2 ^ (n * k) + v * 2 ^ (n * k)).testBit b = if b / n = k then v.testBit (b % n) else x.testBit b := by
  have place : n * k ≤ b ∧ b < n * k + n ↔ b / n = k := by
    rw [Nat.div_eq_iff hn, Nat.mul_comm n k]
    omega
  rw [testBit_replaceField x _ hv]
  by_cases own : b / n = k
  · rw [if_pos (place.mpr own), if_pos own, ← own, ← Nat.mod_eq_sub_mul_div]
  · rw [if_neg (place.not.mpr own), if_neg own]

/-- A stream into which lanes have put their levels (R171). -/
theorem packStream_testBit {n : Nat} (hn : 0 < n) {level : Nat → Nat} (hlevel : ∀ k, level k < 2 ^ n) (b : Nat) :
    ∀ (lanes : List Nat) (old : Nat),
    (packStream n lanes level old).testBit b = if b / n ∈ lanes then (level (b / n)).testBit (b % n) else old.testBit b
  | [], old => by simp [packStream]
  | k :: lanes, old => by
    have first : packStream n (k :: lanes) level old =
        packStream n lanes level (old - old / 2 ^ (n * k) % 2 ^ n * 2 ^ (n * k) + level k * 2 ^ (n * k)) := rfl
    rw [first, packStream_testBit hn hlevel b lanes, testBit_replaceNth _ _ hn (hlevel k)]
    by_cases own : b / n = k
    · subst own
      simp
    · simp [own]

/-- Words gathered into one number, each at its own place, which was clear. -/
theorem testBit_gathered (word : Nat → W32) (b : Nat) :
    ∀ (l : List Nat) (x : Nat), l.Nodup → (∀ j, j / 32 ∈ l → x.testBit j = false) →
    ((l.map fun i => (i, word i)).foldl (fun x e => x + e.2.toNat * 2 ^ (32 * e.1)) x).testBit b =
      if b / 32 ∈ l then (word (b / 32)).getLsbD (b % 32) else x.testBit b
  | [], x, _, _ => by simp
  | i :: l, x, nodup, clear => by
    obtain ⟨fresh, rest⟩ := List.nodup_cons.mp nodup
    have empty : x / 2 ^ (32 * i) % 2 ^ 32 = 0 := by
      refine Nat.eq_of_testBit_eq fun j => ?_
      rw [Nat.testBit_mod_two_pow, Nat.testBit_div_two_pow, Nat.zero_testBit]
      by_cases inside : j < 32
      · rw [clear (j + 32 * i) (List.mem_cons.mpr (Or.inl (by omega))), Bool.and_false]
      · simp [inside]
    have put (j : Nat) : (x + (word i).toNat * 2 ^ (32 * i)).testBit j = if j / 32 = i then (word i).getLsbD (j % 32) else x.testBit j := by
      have replaced := testBit_replaceNth x i (show 0 < 32 by decide) (word i).isLt j
      rwa [empty, Nat.zero_mul, Nat.sub_zero] at replaced
    have others (j : Nat) (hj : j / 32 ∈ l) : (x + (word i).toNat * 2 ^ (32 * i)).testBit j = false := by
      have apart : j / 32 ≠ i := fun own => fresh (own ▸ hj)
      rw [put, if_neg apart, clear j (List.mem_cons_of_mem i hj)]
    rw [List.map_cons, List.foldl_cons, testBit_gathered word b l _ rest others, put]
    by_cases own : b / 32 = i
    · subst own
      simp
    · simp [own]

/-! ### The words of a stream -/

theorem packLevel_lt (n : Nat) (w : W32) : packLevel n w < 2 ^ n := by
  have positive : 0 < 2 ^ n := Nat.two_pow_pos n
  unfold packLevel
  split <;> omega

/-- The words that VPACK accesses hold bits of an active lane. -/
theorem mem_packWords {n i : Nat} {lanes : List Nat} :
    i ∈ packWords n lanes ↔ i < 2 * n ∧ ∃ k ∈ lanes, n * k < 32 * (i + 1) ∧ 32 * i < n * k + n := by
  simp [packWords]

theorem packWords_pairwise (n : Nat) (lanes : List Nat) : (packWords n lanes).Pairwise (· < ·) := List.pairwise_lt_range.filter _

/-- The word of a bit of an active lane is among them. -/
theorem packWords_of_bit {n b : Nat} (hn : 0 < n) (hb : b < 64 * n) {lanes : List Nat} (h : b / n ∈ lanes) : b / 32 ∈ packWords n lanes := by
  have lane : n * (b / n) ≤ b ∧ b < n * (b / n) + n := ⟨Nat.mul_div_le b n, Nat.lt_mul_div_succ b hn⟩
  exact mem_packWords.mpr ⟨by omega, b / n, h, by omega, by omega⟩

/-- A bit of a word-aligned stream is a bit of one of its words. -/
theorem State.streamBit_word (s : State) (a b : Nat) : s.streamBit a b = (s.wordAt (a + 4 * (b / 32))).getLsbD (b % 32) := by
  rw [State.wordAt_getLsbD _ _ (Nat.mod_lt b (by decide)), State.streamBit, show a + 4 * (b / 32) + b % 32 / 8 = a + b / 8 by omega,
    show b % 32 % 8 = b % 8 by omega]

/-! ### Words stored by a vector instruction -/

/-- A vector instruction that stores words and retires. -/
theorem State.storeWords_done (s : State) (q : Nat) (xs : List (W32 × W32)) :
    let u := storeWords q xs (s.vecStart q)
    let t := u.vecDone q (u.seq q)
    VectorStoreFrame q s t ∧ SameMemory u t := by
  intro u t
  obtain ⟨ctx, others, own, regs⟩ := storeWords_frame q xs (s.vecStart q)
  have after : t.seq q = (u.seq q).retired := State.seq_setSeq_same u q _
  refine ⟨⟨?_, ?_, fun r => ?_, fun r k => ?_, fun r => ?_, fun r hr => ?_, fun a hv ht => ?_⟩, fun _ => rfl⟩
  · rw [after, own]
    rfl
  · rw [after, own]
    rfl
  · rw [after, own]
    rfl
  · rw [after, own]
    rfl
  · rw [after, own]
    rfl
  · exact (State.seq_setSeq_ne u _ (by rw [ctx, ctx]; exact hr)).trans (others r hr)
  · exact (regs a ht).trans (s.vecStart_rd hv)

/-! ### VPACK (R171) -/

/-- The stream that VPACK stores: the levels of the active lanes put into the words that hold their bits. -/
def State.packed (s : State) (n : Nat) (lanes : List Nat) (level : Nat → Nat) (addr : Nat → W32) : Nat :=
  packStream n lanes level (((packWords n lanes).map fun i => (i, s.wordAt (addr i).toNat)).foldl (fun x e => x + e.2.toNat * 2 ^ (32 * e.1)) 0)

theorem State.packed_testBit {n : Nat} (hn : 0 < n) {level : Nat → Nat} (hlevel : ∀ k, level k < 2 ^ n) (s : State) {lanes : List Nat}
    (addr : Nat → W32) {b : Nat} (hb : b / 32 ∈ packWords n lanes) : (s.packed n lanes level addr).testBit b =
      if b / n ∈ lanes then (level (b / n)).testBit (b % n) else (s.wordAt (addr (b / 32)).toNat).getLsbD (b % 32) := by
  have distinct : (packWords n lanes).Nodup := (packWords_pairwise n lanes).imp Nat.ne_of_lt
  rw [State.packed, packStream_testBit hn hlevel,
    testBit_gathered (fun i => s.wordAt (addr i).toNat) b _ 0 distinct fun j _ => Nat.zero_testBit j, if_pos hb]

/-- The words that VPACK stores, each to its address. -/
def State.packStores (s : State) (n : Nat) (lanes : List Nat) (level : Nat → Nat) (addr : Nat → W32) : List (W32 × W32) :=
  (packWords n lanes).map fun i => (addr i, w32 (s.packed n lanes level addr / 2 ^ (32 * i)))

/-- Words that all pass are read, merged and stored. -/
theorem State.vpack_stores {s : State} {q n : Nat} {m : BitVec 3} {ga vs1 gf : BitVec 5} (mode : 2 + ((s.seq q).x gf).toNat % 2 = n)
    (usable : ∀ i ∈ packWords n ((s.seq q).active m), s.usable q Needs.write ((s.seq q).x ga + w32 (4 * i)).toNat) :
    let u := storeWords q (s.packStores n ((s.seq q).active m) (fun k => packLevel n ((s.seq q).lane vs1 k))
      fun i => (s.seq q).x ga + w32 (4 * i)) s
    s.vpack q m ga vs1 gf = u.vecDone q (u.seq q) := by
  have passes := List.forall_mem_map (f := fun i => (s.seq q).x ga + w32 (4 * i)) (P := fun a => s.usable q Needs.write a.toNat) |>.mpr usable
  have read := readWords_of_sound (q := q) _ fun a ha => (passes a ha).2.2.2
  simp only [State.vpack, mode]
  rw [State.afterCheck_usable (store := true) passes, read]
  dsimp only
  rw [List.map_map, ← List.map_prod_left_eq_zip]
  rfl

/-- An SRAM word past an address does not wrap. -/
theorem sramAddr_toNat {x : W32} {i : Nat} (h : isSram (x.toNat + 4 * i) = true) : (x + w32 (4 * i)).toNat = x.toNat + 4 * i := by
  have bound : x.toNat + 4 * i < 0x06000000 := of_decide_eq_true h
  rw [BitVec.toNat_add, BitVec.toNat_ofNat, Nat.mod_eq_of_lt (show 4 * i < 2 ^ 32 by omega)]
  exact Nat.mod_eq_of_lt (by omega)

/-- VPACK over words that all pass: what the words then hold, and that every other byte stays. -/
theorem State.vpack_results {s : State} {q n a : Nat} (hq : q < 24) {m : BitVec 3} {ga vs1 gf : BitVec 5}
    (mode : 2 + ((s.seq q).x gf).toNat % 2 = n) (start : ((s.seq q).x ga).toNat = a)
    (usable : ∀ i ∈ packWords n ((s.seq q).active m), s.usable q Needs.write (a + 4 * i)) :
    let t := (s.vecStart q).vpack q m ga vs1 gf
    VectorStoreFrame q s t ∧
      (∀ i ∈ packWords n ((s.seq q).active m), t.wordAt (a + 4 * i) = w32 (s.packed n ((s.seq q).active m)
        (fun k => packLevel n ((s.seq q).lane vs1 k)) (fun i => (s.seq q).x ga + w32 (4 * i)) / 2 ^ (32 * i))) ∧
      ∀ c, (∀ i ∈ packWords n ((s.seq q).active m), ¬(a + 4 * i ≤ c ∧ c < a + 4 * i + 4)) → t.rdByte c = s.rdByte c := by
  intro t
  let lanes := (s.seq q).active m
  let level := fun k => packLevel n ((s.seq q).lane vs1 k)
  let addr := fun i => (s.seq q).x ga + w32 (4 * i)
  have place : ∀ i ∈ packWords n lanes, (addr i).toNat = a + 4 * i := fun i hi => by
    obtain ⟨-, sram, -, -⟩ := usable i hi
    rw [← start] at sram ⊢
    exact sramAddr_toNat sram
  let u := storeWords q ((s.vecStart q).packStores n lanes level addr) (s.vecStart q)
  have result : t = u.vecDone q (u.seq q) := State.vpack_stores mode fun i hi => by
    rw [State.vecStart_seq, place i hi]
    exact State.vecStart_usable hq (usable i hi)
  obtain ⟨frame, mem⟩ := s.storeWords_done q ((s.vecStart q).packStores n lanes level addr)
  rw [result]
  refine ⟨frame, fun i hi => ?_, fun c hc => (mem c).trans (storeWords_rdByte _ _ fun e he => ?_)⟩
  · have stored := storeWords_lane (q := q) (addr := addr) (val := fun i => w32 ((s.vecStart q).packed n lanes level addr / 2 ^ (32 * i)))
      (packWords n lanes) (s.vecStart q) (packWords_pairwise n lanes) hi
      (fun j hj => by rw [place j hj]; exact (usable j hj).1)
      (fun j hj above same => by
        have equal := congrArg BitVec.toNat same
        rw [place j hj, place i hi] at equal
        omega)
    rw [State.wordAt_congr mem, ← place i hi]
    exact stored
  · obtain ⟨i, hi, rfl⟩ := List.mem_map.mp he
    rw [place i hi]
    exact hc i hi

/-- Settles O37: bit by bit, in the words that hold bits of an active lane by `State.packed_testBit`, elsewhere unchanged. -/
theorem packResults : Obligations.PackResults := by
  intro q m ga vs1 gf s hrun hlo hhi on n a level usable
  have hv : hasV q = true := hasV_of_bounds hlo hhi
  have works (word : W32) (f : State → State) : s.vecInsn q word true f = f (s.vecStart q) := State.vecInsn_of_cluster hrun hv word f
  have positive : 0 < n := Nat.add_pos_left (by decide) _
  have active (k : Nat) : k ∈ (s.seq q).active m ↔ k < 64 ∧ on k := Seq.mem_active
  have passes : ∀ i ∈ packWords n ((s.seq q).active m), s.usable q Needs.write (a + 4 * i) := fun i hi => by
    obtain ⟨bound, k, lane, before, beyond⟩ := mem_packWords.mp hi
    exact usable i bound ⟨k, ((active k).mp lane).1, ((active k).mp lane).2, before, beyond⟩
  obtain ⟨frame, words, bytes⟩ := State.vpack_results (n := n) (a := a) hhi (vs1 := vs1) rfl rfl passes
  refine ⟨_, congrArg Host.Outcome.next (works _ _), frame, fun b hb => ?bits, fun c hc => bytes c fun i hi => ?outside⟩
  case bits =>
    have lane : b / n < 64 := Nat.div_lt_of_lt_mul (by rwa [Nat.mul_comm])
    by_cases held : b / 32 ∈ packWords n ((s.seq q).active m)
    · have place : ((s.seq q).x ga + w32 (4 * (b / 32))).toNat = a + 4 * (b / 32) := sramAddr_toNat (passes _ held).2.1
      rw [State.streamBit_word, words _ held, BitVec.getLsbD_ofNat, Nat.testBit_div_two_pow, Nat.mod_add_div,
        State.packed_testBit positive (fun k => packLevel_lt n _) s _ held, place, ← s.streamBit_word,
        decide_eq_true (Nat.mod_lt b (by decide)), Bool.true_and]
      simp only [active, lane, true_and]
      rfl
    · have off : ¬on (b / n) := fun h => held (packWords_of_bit positive (by omega) ((active _).mpr ⟨lane, h⟩))
      rw [if_neg off, State.streamBit, State.streamBit, bytes _ fun i hi inside => held ?_]
      rwa [show b / 32 = i by omega]
  case outside =>
    obtain ⟨bound, -⟩ := mem_packWords.mp hi
    omega

end Sys2Proof.Machine
end

section
/-! SUPPORT. A write of HEALTH_GOVn_CFG that turns the governor on (R202): the bits that are no field keep what the register held
(R29), which the statement on nozzle health, over every stored word, does not except. -/

namespace Sys2Proof.Machine

/-- Clearing the governor's counts changes no register. -/
theorem State.govClear_regs (s : State) (lane : Nat) : (s.govClear lane).regs = s.regs :=
  List.foldlRecOn (motive := fun t : State => t.regs = s.regs) _ _ rfl fun _ same _ _ => same

/-- HEALTH_GOVn_CFG has the fields en, wcode and dmax, all RW (R202). -/
theorem cardAt_gov_cfg : ∀ n : Fin 24,
    (cardAt (R.HEALTH_GOV_CFG n)).map (fun c => (c.1.rw, c.1.w1c, c.1.w1s)) = some (0x87000FFF, 0, 0) := by decide

/-- The register after a write by its field rules: the fields as written, every other bit as it was. -/
theorem State.plainWrite_gov_cfg (s : State) (n : Fin 24) (v : W32) : (s.plainWrite (R.HEALTH_GOV_CFG n) v).rd (R.HEALTH_GOV_CFG n) =
    (s.rd (R.HEALTH_GOV_CFG n) &&& ~~~0x87000FFF) ||| (v &&& 0x87000FFF) := by
  have card := cardAt_gov_cfg n
  rw [State.plainWrite]
  split
  · next c i j found =>
    rw [found] at card
    simp only [Option.map_some, Option.some.injEq, Prod.mk.injEq] at card
    obtain ⟨rw_, w1c, w1s⟩ := card
    rw [State.rd_wr_same, Card.written, rw_, w1c, w1s, show w32 0 = 0#32 from rfl, BitVec.and_zero, BitVec.not_zero, BitVec.and_allOnes,
      BitVec.or_zero]
    rfl
  · next absent =>
    rw [absent] at card
    cases card

/-- A write of en = 1 over en = 0 is never refused: it clears the counts of the lane's tiles. -/
theorem State.govWrite_enables {s : State} {lane : Nat} {v : W32} (off : s.flag (F.HEALTH_GOV_CFG_en lane) = false)
    (on : bitsOf v 31 31 = 1) : s.govWrite lane v = (s.plainWrite (R.HEALTH_GOV_CFG lane) v).govClear lane := by
  simp [State.govWrite, off, on]

/-- The register after the governor is turned on. -/
theorem State.govWrite_enables_rd {s : State} {n : Fin 24} {v : W32} (off : s.flag (F.HEALTH_GOV_CFG_en n) = false)
    (on : bitsOf v 31 31 = 1) : (s.govWrite n v).rd (R.HEALTH_GOV_CFG n) =
      (s.rd (R.HEALTH_GOV_CFG n) &&& ~~~0x87000FFF) ||| (v &&& 0x87000FFF) := by
  rw [State.govWrite_enables off on, State.rd, State.govClear_regs]
  exact s.plainWrite_gov_cfg n v

/-- Governor 0 off, with bit 12 of HEALTH_GOV0_CFG set, which belongs to no field: no write sets it, but a state may hold it. -/
def unusedGovBitHeld : State := { State.reset with regs := [(R.HEALTH_GOV_CFG 0, 0x1000)] }

/-- Turning governor 0 on leaves bit 12 set. -/
theorem unusedGovBitHeld_kept : (unusedGovBitHeld.govWrite 0 0x80000000).rd (R.HEALTH_GOV_CFG 0) = 0x80001000 :=
  State.govWrite_enables_rd (n := 0) (by decide) (by decide)

/-- Refutes O49: the statement has HEALTH_GOVn_CFG hold just the written fields after the governor is turned on, over every stored
word. Where the stored word holds bit 12, which is no field, the bit stays set. -/
theorem not_nozzleHealthResults : ¬ Obligations.NozzleHealthResults := by
  intro h
  obtain ⟨-, -, -, -, -, -, -, -, -, governor⟩ := h unusedGovBitHeld
  obtain ⟨-, enabled⟩ := governor 0 0x80000000 (by decide)
  obtain ⟨t, hnext, stored, -⟩ := enabled (by decide) (by decide)
  obtain rfl : unusedGovBitHeld.govWrite 0 0x80000000 = t := Host.Outcome.next.inj hnext
  exact absurd (unusedGovBitHeld_kept.symm.trans stored) (by decide)

end Sys2Proof.Machine
end

section
/-! SUPPORT. The frame of a link engine's work: which registers, lanes and tiles an operation of a lane leaves, its flags and events, and
the link-fault reasons of its tiles (R216, R235, R238, R262). -/

namespace Sys2Proof.Machine

/-! ### Folds over a list without repeats -/

/-- A fold that does something for each element of a list without repeats: what is so of an element before its turn stays so at the
turns of others, and so does what its own turn brings about. -/
theorem foldl_each {σ α : Type} {f : σ → α → σ} {before after : α → σ → Prop} : ∀ (l : List α) (s : σ), l.Nodup →
    (∀ x ∈ l, ∀ y ∈ l, ∀ t, x ≠ y → before y t → before y (f t x)) → (∀ x ∈ l, ∀ t, before x t → after x (f t x)) →
    (∀ x ∈ l, ∀ y ∈ l, ∀ t, x ≠ y → after y t → after y (f t x)) → (∀ x ∈ l, before x s) → ∀ x ∈ l, after x (l.foldl f s)
  | [], _, _, _, _, _, _, _, h => absurd h List.not_mem_nil
  | x :: l, s, nodup, waits, does, stays, ready, y, hy => by
    obtain ⟨fresh, rest⟩ := List.nodup_cons.mp nodup
    have head : x ∈ x :: l := List.mem_cons_self
    have tail {z : α} (hz : z ∈ l) : z ∈ x :: l := List.mem_cons_of_mem x hz
    have others {z : α} (hz : z ∈ l) : x ≠ z := fun e => fresh (e ▸ hz)
    rw [List.foldl_cons]
    obtain rfl | later := List.mem_cons.mp hy
    · exact List.foldlRecOn (motive := after y) l f (does y head s (ready y head)) fun t ht z hz =>
        stays z (tail hz) y head t (others hz).symm ht
    · exact foldl_each l (f s x) rest (fun z hz w hw => waits z (tail hz) w (tail hw)) (fun z hz => does z (tail hz))
        (fun z hz w hw => stays z (tail hz) w (tail hw)) (fun z hz => waits x head z (tail hz) s (others hz) (ready z (tail hz))) y later

theorem positions_nodup (mask : Nat) : (positions mask).Nodup := List.nodup_range.filter _

/-! ### The frame -/

/-- The registers that an engine's work may write: those of its lane at the given addresses of lane 0, the tiles' shutters, and those of
requests and posted events. -/
def laneWrites (lane : Nat) (bases : List Nat) (a : Nat) : Prop :=
  (∃ b ∈ bases, a = b + lane * 0x800) ∨ (0x40042800 ≤ a ∧ a < 0x40042E00) ∨ postReg a

/-- A register of the lane that is not named. -/
theorem not_laneWrites {lane base : Nat} {bases : List Nat} (hl : lane < 24) (low : 0x40050000 ≤ base) (high : base < 0x40050800)
    (ne : base ∉ bases) : ¬ laneWrites lane bases (base + lane * 0x800) := by
  rintro (⟨b, hb, same⟩ | shutter | posted)
  · exact ne ((Nat.add_right_cancel same).symm ▸ hb)
  · omega
  · exact not_postReg_lane hl low high posted

/-- A register of the lane that stands once per position, and is not named. -/
theorem not_laneWrites_at {lane base off : Nat} {bases : List Nat} (hl : lane < 24) (low : 0x40050000 ≤ base)
    (high : base + off < 0x40050800) (ne : base + off ∉ bases) : ¬ laneWrites lane bases (base + lane * 0x800 + off) := by
  rw [Nat.add_right_comm]
  exact not_laneWrites hl (Nat.le_trans low (Nat.le_add_right _ _)) high ne

/-- A register below those of the tiles' shutters. -/
theorem not_laneWrites_below {lane a : Nat} {bases : List Nat} (low : 0x40020000 ≤ a) (high : a < 0x40042800)
    (page : ∀ b ∈ bases, 0x40050000 ≤ b) : ¬ laneWrites lane bases a := by
  rintro (⟨b, hb, same⟩ | shutter | posted)
  · have := page b hb
    omega
  · omega
  · unfold postReg R.SUP_DROP at posted
    omega

theorem laneWrites.mono {lane : Nat} {xs ys : List Nat} (sub : xs ⊆ ys) (a : Nat) (h : laneWrites lane xs a) : laneWrites lane ys a :=
  h.imp_left fun ⟨b, hb, same⟩ => ⟨b, sub hb, same⟩

/-- From `s` to `t` the engine of a lane has worked: lanes, tiles, registers of `P`, requests, events and draws of free values may change,
a flag set in LANEn_LSTAT stays set, and no record leaves a buffer. -/
structure LinkWork (lane : Nat) (P : Nat → Prop) (s t : State) : Prop where
  core : t = { s with regs := t.regs, ev := t.ev, seqs := t.seqs, msixSent := t.msixSent, lanes := t.lanes, tiles := t.tiles,
                      freeCount := t.freeCount }
  rd : ∀ a, ¬ P a → t.rd a = s.rd a
  flags : ∀ b, s.bit (F.LANE_LSTAT_flags lane) b = true → t.bit (F.LANE_LSTAT_flags lane) b = true
  ev : ∀ src, ∀ r ∈ tabGet [] s.ev.buf src, r ∈ tabGet [] t.ev.buf src

section
variable {lane : Nat} {P Q : Nat → Prop} {s t u : State}

theorem LinkWork.refl (lane : Nat) (P : Nat → Prop) (s : State) : LinkWork lane P s s := ⟨rfl, fun _ _ => rfl, fun _ h => h, fun _ _ h => h⟩

theorem LinkWork.trans (h : LinkWork lane P s t) (k : LinkWork lane P t u) : LinkWork lane P s u := by
  refine ⟨?_, fun a ha => (k.rd a ha).trans (h.rd a ha), fun b set => k.flags b (h.flags b set), fun src r hr => k.ev src r (h.ev src r hr)⟩
  have later := k.core
  rw [h.core] at later
  exact later

theorem LinkWork.mono (h : LinkWork lane P s t) (sub : ∀ a, P a → Q a) : LinkWork lane Q s t :=
  ⟨h.core, fun a ha => h.rd a fun hp => ha (sub a hp), h.flags, h.ev⟩

theorem LinkWork.foldl {α : Type} {f : State → α → State} : ∀ (l : List α) (s : State),
    (∀ x ∈ l, ∀ t, LinkWork lane P t (f t x)) → LinkWork lane P s (l.foldl f s)
  | [], s, _ => LinkWork.refl lane P s
  | x :: l, s, h => (h x List.mem_cons_self s).trans (LinkWork.foldl l (f s x) fun y hy => h y (List.mem_cons_of_mem x hy))

/-- Where registers and event buffers stay. -/
theorem LinkWork.of_regs (regs : t.regs = s.regs) (ev : t.ev = s.ev)
    (core : t = { s with regs := t.regs, ev := t.ev, seqs := t.seqs, msixSent := t.msixSent, lanes := t.lanes, tiles := t.tiles,
                         freeCount := t.freeCount }) : LinkWork lane P s t := by
  have same (a : Nat) : t.rd a = s.rd a := by rw [State.rd, State.rd, regs]
  refine ⟨core, fun a _ => same a, fun b set => ?_, fun _ r hr => by rwa [ev]⟩
  rwa [State.bit, State.get, same] at *

theorem LinkWork.get (h : LinkWork lane P s t) (f : Field) (hf : ¬ P f.addr) : t.get f = s.get f := by simp only [State.get, h.rd _ hf]

theorem LinkWork.flag (h : LinkWork lane P s t) (f : Field) (hf : ¬ P f.addr) : t.flag f = s.flag f := by
  simp only [State.flag, h.get f hf]

theorem LinkWork.bit (h : LinkWork lane P s t) (f : Field) (hf : ¬ P f.addr) (i : Nat) : t.bit f i = s.bit f i := by
  simp only [State.bit, h.get f hf]

theorem LinkWork.uptime (h : LinkWork lane P s t) : t.uptime = s.uptime := by rw [h.core]

theorem LinkWork.holds (h : LinkWork lane P s t) {src kind detail : Nat} (held : HoldsEvent src kind detail s) :
    HoldsEvent src kind detail t := by
  obtain ⟨r, waits, fields⟩ := held
  exact ⟨r, h.ev src r waits, fields⟩

/-- What writes registers, posts and requests is an engine's work, but for a write of LANEn_LSTAT. -/
theorem Touches.linkWork (h : Touches P s t) (clear : ¬ P (R.LANE_LSTAT lane)) : LinkWork lane P s t := by
  refine ⟨?_, h.rd, fun b set => ?_, h.ev⟩
  · rw [h.core]
  · rwa [State.bit, h.get (F.LANE_LSTAT_flags lane) clear]

theorem Touches.tile (h : Touches P s t) (k : Nat) : t.tile k = s.tile k := by
  rw [State.tile, h.core]
  rfl

end

theorem State.setLane_work (s : State) (lane : Nat) (P : Nat → Prop) (n : Nat) (l : Lane) : LinkWork lane P s (s.setLane n l) :=
  LinkWork.of_regs rfl rfl rfl

theorem State.setTile_work (s : State) (lane : Nat) (P : Nat → Prop) (k : Nat) (x : Tile) : LinkWork lane P s (s.setTile k x) :=
  LinkWork.of_regs rfl rfl rfl

theorem State.drawn_work (s : State) (lane : Nat) (P : Nat → Prop) : LinkWork lane P s s.drawn := LinkWork.of_regs rfl rfl rfl

@[simp] theorem State.tile_setTile_same (s : State) (k : Nat) (x : Tile) : (s.setTile k x).tile k = x := tabGet_put_same _ _ _ _

theorem State.tile_setTile_ne (s : State) {k j : Nat} (x : Tile) (h : j ≠ k) : (s.setTile k x).tile j = s.tile j := tabGet_put_ne _ _ _ h

/-- A table with an entry written twice. -/
theorem tabPut_put {α : Type} (a : Nat) (x y : α) : ∀ t : Tab α, tabPut (tabPut t a x) a y = tabPut t a y
  | [] => by simp only [tabPut, if_true]
  | (k, w) :: t => by
    rw [tabPut, tabPut]
    split
    · rw [tabPut, if_pos rfl]
    · split
      · rw [tabPut, if_pos rfl]
      · next ne le => rw [tabPut, if_neg ne, if_neg le, tabPut_put a x y t]

theorem State.setLane_setLane (s : State) (n : Nat) (x y : Lane) : (s.setLane n x).setLane n y = s.setLane n y := by
  unfold State.setLane
  dsimp only
  rw [tabPut_put]

/-! ### Registers of a lane written -/

/-- A field that is wide enough reads what is written to it. -/
theorem State.get_set_fits (s : State) {a hi lo v : Nat} (h1 : lo ≤ hi) (h2 : hi < 32) (fits : v < 2 ^ (hi + 1 - lo)) :
    (s.set ⟨a, hi, lo⟩ v).get ⟨a, hi, lo⟩ = v :=
  (s.get_set_same ⟨a, hi, lo⟩ v h1 h2).trans (Nat.mod_eq_of_lt fits)

/-- Another field of the register written. -/
theorem State.get_set_beside (s : State) {a hi lo h l : Nat} (v : Nat) (h1 : lo ≤ hi) (h2 : hi < 32) (apart : h < lo ∨ hi < l) :
    (s.set ⟨a, hi, lo⟩ v).get ⟨a, h, l⟩ = s.get ⟨a, h, l⟩ := s.get_set_disjoint v rfl h1 h2 apart

/-- A register of the lane written. -/
theorem State.wr_work (s : State) {lane base : Nat} (bases : List Nat) (v : W32) (ne : base ≠ 0x4005001C)
    (named : base ∈ bases) : LinkWork lane (laneWrites lane bases) s (s.wr (base + lane * 0x800) v) := by
  have clear : R.LANE_LSTAT lane ≠ base + lane * 0x800 := lane_reg_ne ne.symm
  exact ((s.wr_touches _ v).linkWork clear).mono fun _ e => Or.inl ⟨base, named, e⟩

/-- A field of a register of the lane written. -/
theorem State.set_work (s : State) {f : Field} {lane base : Nat} (bases : List Nat) (v : Nat)
    (addr : f.addr = base + lane * 0x800) (ne : base ≠ 0x4005001C) (named : base ∈ bases) :
    LinkWork lane (laneWrites lane bases) s (s.set f v) := by
  rw [State.set, addr]
  exact s.wr_work bases _ ne named

theorem Touches.linkWork_of_quiet {lane : Nat} {s t : State} (h : Quiet s t) (hl : lane < 24) (bases : List Nat) :
    LinkWork lane (laneWrites lane bases) s t :=
  (h.linkWork (not_postReg_lane hl (by decide) (by decide))).mono fun _ posted => Or.inr (Or.inr posted)

/-! ### Flags and events (R238) -/

theorem State.laneEvent_quiet (s : State) (lane kind detail : Nat) : Quiet s (s.laneEvent lane kind detail) := s.post_quiet _ _ _ _

theorem State.laneEvent_work (s : State) {lane : Nat} (hl : lane < 24) (bases : List Nat) (kind detail : Nat) :
    LinkWork lane (laneWrites lane bases) s (s.laneEvent lane kind detail) := (s.laneEvent_quiet _ _ _).linkWork_of_quiet hl bases

/-- A flag set, then a request and an event. -/
theorem State.laneFlag_quiet (s : State) (lane b detail : Nat) :
    Quiet (s.setBit ⟨R.LANE_LSTAT lane, 31, 0⟩ b true) (s.laneFlag lane b detail) := by
  unfold State.laneFlag State.setStatus
  dsimp only
  split
  · exact (State.raiseIrq_quiet _ _).trans (State.post_quiet _ _ _ _ _)
  · exact State.post_quiet _ _ _ _ _

theorem State.laneFlag_touches (s : State) (lane b detail : Nat) :
    Touches (fun a => a = R.LANE_LSTAT lane ∨ postReg a) s (s.laneFlag lane b detail) :=
  ((s.set_touches ⟨R.LANE_LSTAT lane, 31, 0⟩ _).mono fun _ => Or.inl).trans ((s.laneFlag_quiet lane b detail).mono fun _ => Or.inr)

@[simp] theorem State.laneFlag_lane (s : State) (lane b detail n : Nat) : (s.laneFlag lane b detail).lane n = s.lane n :=
  (s.laneFlag_touches lane b detail).lane n

@[simp] theorem State.laneFlag_tile (s : State) (lane b detail k : Nat) : (s.laneFlag lane b detail).tile k = s.tile k :=
  (s.laneFlag_touches lane b detail).tile k

theorem not_postReg_lstat {lane : Nat} (hl : lane < 24) : ¬ postReg (R.LANE_LSTAT lane) :=
  not_postReg_lane (base := 0x4005001C) hl (by decide) (by decide)

/-- A flag of the lane, as a bit of its register. -/
theorem State.lstat_bit (s : State) (lane b : Nat) :
    s.bit (F.LANE_LSTAT_flags lane) b = (decide (b < 11) && (s.rd (R.LANE_LSTAT lane)).getLsbD b) := by
  rw [State.bit, natBit_eq, State.get, bitsOf_testBit]
  rfl

/-- The flags after one is set. -/
theorem State.laneFlag_bit (s : State) {lane b : Nat} (hl : lane < 24) (hb : b < 11) (detail j : Nat) :
    (s.laneFlag lane b detail).bit (F.LANE_LSTAT_flags lane) j = (decide (j = b) || s.bit (F.LANE_LSTAT_flags lane) j) := by
  rw [State.lstat_bit, State.lstat_bit, (s.laneFlag_quiet lane b detail).rd _ (not_postReg_lstat hl),
    s.setBit_getLsbD _ (by omega)]
  by_cases h : j = b
  · simp [h, hb]
  · simp [h]

theorem State.laneFlag_set (s : State) {lane b : Nat} (hl : lane < 24) (hb : b < 11) (detail : Nat) :
    (s.laneFlag lane b detail).bit (F.LANE_LSTAT_flags lane) b = true := by
  rw [s.laneFlag_bit hl hb, decide_eq_true rfl, Bool.true_or]

theorem State.laneFlag_work (s : State) {lane b : Nat} (hl : lane < 24) (hb : b < 11) {bases : List Nat} (named : 0x4005001C ∈ bases)
    (detail : Nat) : LinkWork lane (laneWrites lane bases) s (s.laneFlag lane b detail) := by
  have touched := s.laneFlag_touches lane b detail
  refine ⟨?_, fun a ha => touched.rd a ?_, fun j set => ?_, touched.ev⟩
  · rw [touched.core]
  · rintro (rfl | posted)
    · exact ha (Or.inl ⟨_, named, rfl⟩)
    · exact ha (Or.inr (Or.inr posted))
  · rw [s.laneFlag_bit hl hb, set, Bool.or_true]

/-- The event of a flag waits in the lane's buffer, where it has room. -/
theorem State.laneFlag_holds (s : State) (lane b detail : Nat) (room : s.room (24 + lane) = true) :
    HoldsEvent (24 + lane) (0x380 + b) detail (s.laneFlag lane b detail) := by
  have kept : ((s.setStatus (R.LANE_LSTAT lane) (R.LANE_LIEN lane) b (24 + lane)).room (24 + lane)) = s.room (24 + lane) := by
    have core := (s.setStatus_touches (R.LANE_LSTAT lane) (R.LANE_LIEN lane) b (24 + lane)).core
    have ev : (s.setStatus (R.LANE_LSTAT lane) (R.LANE_LIEN lane) b (24 + lane)).ev = s.ev := by
      unfold State.setStatus
      dsimp only
      split
      · exact State.raiseIrq_ev _ _
      · rfl
    rw [core, ev]
    rfl
  exact ⟨_, State.postRec_buf _ _ (kept.trans room), rfl, rfl, rfl⟩

/-! ### Link-fault reasons (R262, R264) -/

/-- A condition of a tile's shutter writes its register, and posts. -/
theorem State.setCond_tile (s : State) (k bit : Nat) (b : Bool) :
    Touches (fun a => a = R.SHUT_T k ∨ postReg a) s (s.setCond (.tile k) bit b) := by
  have shutter (t : State) (f : Field) (v : Nat) (addr : f.addr = R.SHUT_T k) :
      Touches (fun a => a = R.SHUT_T k ∨ postReg a) t (t.set f v) :=
    (t.set_touches f v).mono fun a ha => Or.inl (ha.trans addr)
  unfold State.setCond
  extract_lets t
  have cond : Touches _ s t := shutter s _ _ rfl
  split
  · refine cond.trans ?_
    unfold State.latchCause
    split
    · exact Touches.refl _ t
    · exact ((shutter t _ _ rfl).trans (shutter _ _ _ rfl)).trans ((State.post_quiet _ _ _ _ _).mono fun _ => Or.inr)
  · exact cond

theorem State.setCond_tile_work (s : State) {lane k : Nat} (hl : lane < 24) (hk : k < 384) (bases : List Nat) (bit : Nat) (b : Bool) :
    LinkWork lane (laneWrites lane bases) s (s.setCond (.tile k) bit b) := by
  refine ((s.setCond_tile k bit b).linkWork ?_).mono fun a ha => Or.inr (ha.imp_left fun e => ?_)
  · rintro (shutter | posted)
    · unfold R.LANE_LSTAT R.SHUT_T at shutter
      omega
    · exact not_postReg_lstat hl posted
  · rw [e, R.SHUT_T]
    omega

theorem State.linkFault_work (s : State) {lane k : Nat} (hl : lane < 24) (hk : k < 384) (bases : List Nat) (r : LinkReason) (b : Bool) :
    LinkWork lane (laneWrites lane bases) s (s.linkFault k r b) := by
  unfold State.linkFault
  extract_lets t f
  split
  · exact LinkWork.refl lane _ s
  · exact (s.setTile_work lane _ k _).trans (State.setCond_tile_work _ hl hk bases _ _)

@[simp] theorem State.linkFault_lane (s : State) (k : Nat) (r : LinkReason) (b : Bool) (n : Nat) :
    (s.linkFault k r b).lane n = s.lane n := by
  unfold State.linkFault
  extract_lets t f
  split
  · rfl
  · exact (State.setCond_tile _ k _ _).lane n

/-- A reason changes the tile's fault reasons alone, and of the tile named alone. -/
theorem State.linkFault_tile (s : State) (k : Nat) (r : LinkReason) (b : Bool) (j : Nat) :
    (s.linkFault k r b).tile j =
      if j = k then { s.tile k with faults := natSetBit (s.tile k).faults r.bit b } else s.tile j := by
  unfold State.linkFault
  extract_lets t f
  split
  · next same =>
    split
    · next named =>
      rw [named]
      show s.tile k = { s.tile k with faults := f }
      rw [same]
    · rfl
  · rw [(State.setCond_tile _ k _ _).tile]
    split
    · next named => rw [named, State.tile_setTile_same]
    · next other => rw [State.tile_setTile_ne _ _ other]

/-- From `s` to `t` link-fault reasons of one kind have changed: nothing else of a tile, no lane, and no register of the lane. -/
structure FaultWork (lane : Nat) (r : LinkReason) (s t : State) : Prop where
  work : LinkWork lane (laneWrites lane []) s t
  lanes : ∀ n, t.lane n = s.lane n
  tile : ∀ k, t.tile k = { s.tile k with faults := (t.tile k).faults }
  others : ∀ k j, j ≠ r.bit → natBit (t.tile k).faults j = natBit (s.tile k).faults j

theorem FaultWork.refl (lane : Nat) (r : LinkReason) (s : State) : FaultWork lane r s s :=
  ⟨LinkWork.refl lane _ s, fun _ => rfl, fun _ => rfl, fun _ _ _ => rfl⟩

theorem FaultWork.trans {lane : Nat} {r : LinkReason} {s t u : State} (h : FaultWork lane r s t) (k : FaultWork lane r t u) :
    FaultWork lane r s u := by
  refine ⟨h.work.trans k.work, fun n => (k.lanes n).trans (h.lanes n), fun n => ?_, fun n j hj => (k.others n j hj).trans (h.others n j hj)⟩
  have later := k.tile n
  rwa [h.tile n] at later

theorem FaultWork.foldl {lane : Nat} {r : LinkReason} {α : Type} {f : State → α → State} : ∀ (l : List α) (s : State),
    (∀ x ∈ l, ∀ t, FaultWork lane r t (f t x)) → FaultWork lane r s (l.foldl f s)
  | [], s, _ => FaultWork.refl lane r s
  | x :: l, s, h => (h x List.mem_cons_self s).trans (FaultWork.foldl l (f s x) fun y hy => h y (List.mem_cons_of_mem x hy))

theorem State.linkFault_faultWork (s : State) {lane k : Nat} (hl : lane < 24) (hk : k < 384) (r : LinkReason) (b : Bool) :
    FaultWork lane r s (s.linkFault k r b) := by
  refine ⟨s.linkFault_work hl hk _ r b, s.linkFault_lane k r b, fun j => ?_, fun j i hi => ?_⟩
  all_goals
    rw [s.linkFault_tile]
    split
  · next named => rw [named]
  · rfl
  · next named => rw [named, natBit_setBit, if_neg hi]
  · rfl

theorem tile_lt {lane p : Nat} (hl : lane < 24) (hp : p < 16) : lane * 16 + p < 384 := by omega

/-- The reason of a tile after it is set. -/
theorem State.linkFault_bit (s : State) (k : Nat) (r : LinkReason) (b : Bool) : natBit ((s.linkFault k r b).tile k).faults r.bit = b := by
  rw [s.linkFault_tile, if_pos rfl, natBit_setBit, if_pos rfl]

theorem State.laneFault_faultWork (s : State) {lane : Nat} (hl : lane < 24) (mask : Nat) (r : LinkReason) (b : Bool) :
    FaultWork lane r s (s.laneFault lane mask r b) :=
  FaultWork.foldl _ s fun _ hp t => t.linkFault_faultWork hl (tile_lt hl (mem_positions.mp hp).1) r b

/-- Every tile of the mask has the reason as it is set. -/
theorem State.laneFault_bit (s : State) (lane : Nat) {mask p : Nat} (hp : p < 16) (named : natBit mask p = true) (r : LinkReason) (b : Bool) :
    natBit ((s.laneFault lane mask r b).tile (lane * 16 + p)).faults r.bit = b := by
  refine foldl_each (before := fun _ _ => True) (after := fun q t => natBit (t.tile (lane * 16 + q)).faults r.bit = b) (positions mask) s
    (positions_nodup mask) (fun _ _ _ _ _ _ _ => trivial) (fun q _ t _ => t.linkFault_bit _ r b) (fun x _ y _ t ne set => ?_)
    (fun _ _ => trivial) p (mem_positions.mpr ⟨hp, named⟩)
  rwa [t.linkFault_tile, if_neg (by omega)]

end Sys2Proof.Machine
end

section
/-! SUPPORT. The states of a lane: what a change of state leaves, what it shows, training, its failure, the broken ring and open-ring mode
(R156, R216, R235, R236, R238). -/

namespace Sys2Proof.Machine

/-! ### What a lane shows of a change of state -/

/-- The lane is in a state, entered with an error code if one is given, and the flag of a change of state is set (R216, R238). -/
def Enters (lane new err : Nat) (t : State) : Prop :=
  t.get (F.LANE_STATE_state lane) = new ∧ (err ≠ 0 → t.get (F.LANE_STATE_err lane) = err) ∧ t.bit (F.LANE_LSTAT_flags lane) 0 = true

/-- From `s` to `t` the lane has left state `old`, and its event waits if there was room for it (R238, R427). -/
def Shows (lane old new err : Nat) (s t : State) : Prop :=
  Enters lane new err t ∧ (s.room (24 + lane) = true → HoldsEvent (24 + lane) 0x380 (err * 2 ^ 24 + new * 2 ^ 8 + old) t)

/-- Later work that leaves LANEn_STATE keeps what is shown. -/
theorem Enters.after {lane new err : Nat} {P : Nat → Prop} {t u : State} (h : Enters lane new err t) (k : LinkWork lane P t u)
    (clear : ¬ P (R.LANE_STATE lane)) : Enters lane new err u := by
  obtain ⟨state, code, flag⟩ := h
  exact ⟨(k.get _ clear).trans state, fun he => (k.get (F.LANE_STATE_err lane) clear).trans (code he), k.flags 0 flag⟩

theorem Shows.after {lane old new err : Nat} {P : Nat → Prop} {s t u : State} (h : Shows lane old new err s t) (k : LinkWork lane P t u)
    (clear : ¬ P (R.LANE_STATE lane)) : Shows lane old new err s u :=
  ⟨h.1.after k clear, fun room => k.holds (h.2 room)⟩

/-! ### The state is left -/

/-- The registers that a change of state may write: besides those of the state and its report the lane's open bit, where it leaves OPEN,
and the ready bits of bars, where it leaves UP or OPEN. -/
def enterWrites (lane old a : Nat) : Prop :=
  laneWrites lane [0x40050004, 0x4005001C] a ∨ (old = 7 ∧ a = R.LANE_CTL lane) ∨ ((old = 5 ∨ old = 7) ∧ a % 64 = 24)

theorem not_enterWrites {lane old base : Nat} (hl : lane < 24) (low : 0x40050000 ≤ base) (high : base < 0x40050800)
    (ne : base ∉ [0x40050000, 0x40050004, 0x4005001C]) (bar : base % 64 ≠ 24) : ¬ enterWrites lane old (base + lane * 0x800) := by
  simp only [List.mem_cons, List.not_mem_nil, or_false, not_or] at ne
  obtain ⟨ctl, state, lstat⟩ := ne
  rintro (own | ⟨-, control⟩ | ⟨-, row⟩)
  · exact not_laneWrites hl low high (by simp [state, lstat]) own
  · exact ctl (Nat.add_right_cancel control)
  · omega

/-- From a state that is neither UP nor OPEN only the state and its report are written. -/
theorem laneWrites_of_enter {lane old a : Nat} (up : old ≠ 5) (opened : old ≠ 7) (h : enterWrites lane old a) :
    laneWrites lane [0x40050004, 0x4005001C] a := by
  rcases h with own | ⟨is, -⟩ | ⟨is, -⟩
  · exact own
  · exact absurd is opened
  · exact absurd is (by omega)

/-- From `s` to `t` an engine prepares a change of state: it reports nothing, sends nothing, and of a tile it forgets at most the echo
windows. -/
structure Leaving (lane : Nat) (P : Nat → Prop) (s t : State) : Prop where
  work : LinkWork lane P s t
  ev : t.ev = s.ev
  out : (t.lane lane).out = (s.lane lane).out
  auto : (t.lane lane).auto = (s.lane lane).auto
  tile : ∀ k, t.tile k = { s.tile k with echoSeq := (t.tile k).echoSeq }

theorem Leaving.refl (lane : Nat) (P : Nat → Prop) (s : State) : Leaving lane P s s :=
  ⟨LinkWork.refl lane P s, rfl, rfl, rfl, fun _ => rfl⟩

theorem Leaving.trans {lane : Nat} {P : Nat → Prop} {s t u : State} (h : Leaving lane P s t) (k : Leaving lane P t u) :
    Leaving lane P s u := by
  refine ⟨h.work.trans k.work, k.ev.trans h.ev, k.out.trans h.out, k.auto.trans h.auto, fun n => ?_⟩
  have later := k.tile n
  rwa [h.tile n] at later

theorem Leaving.room {lane : Nat} {P : Nat → Prop} {s t : State} (h : Leaving lane P s t) (src : Nat) : t.room src = s.room src := by
  rw [h.work.core, h.ev]
  rfl

/-- A field written. -/
theorem State.set_leaving (s : State) {lane : Nat} {P : Nat → Prop} (f : Field) (v : Nat) (named : P f.addr)
    (clear : f.addr ≠ R.LANE_LSTAT lane) : Leaving lane P s (s.set f v) :=
  ⟨((s.set_touches f v).linkWork clear.symm).mono fun _ e => e ▸ named, rfl, rfl, rfl, fun _ => rfl⟩

/-- What the engine keeps of the lane replaced, but for what has left and whether the training is an automatic one. -/
theorem State.setLane_leaving (s : State) {lane : Nat} {P : Nat → Prop} {l : Lane} (out : l.out = (s.lane lane).out)
    (auto : l.auto = (s.lane lane).auto) : Leaving lane P s (s.setLane lane l) :=
  ⟨s.setLane_work lane P lane l, rfl, by rw [State.lane_setLane_same, out], by rw [State.lane_setLane_same, auto], fun _ => rfl⟩

theorem tabFind_map_snd {α : Type} (f : Nat × α → α) (a : Nat) : ∀ t : Tab α,
    tabFind (t.map (fun e => (e.1, f e))) a = (tabFind t a).map (fun x => f (a, x))
  | [] => rfl
  | (k, w) :: t => by
    rw [List.map_cons, tabFind, tabFind]
    split
    · next same => rw [same]; rfl
    · exact tabFind_map_snd f a t

theorem State.forgetWindows_tile (s : State) (p : Nat → Bool) (k : Nat) :
    (s.forgetWindows p).tile k = { s.tile k with echoSeq := ((s.forgetWindows p).tile k).echoSeq } := by
  let f : Nat × Tile → Tile := fun e => if p e.1 then { e.2 with echoSeq := [] } else e.2
  have mapped : (s.forgetWindows p).tiles = s.tiles.map (fun e => (e.1, f e)) := by
    refine List.map_congr_left fun e _ => ?_
    dsimp only [f]
    split <;> rfl
  rw [State.tile, State.tile, tabGet, tabGet, mapped, tabFind_map_snd f k]
  cases tabFind s.tiles k with
  | none => rfl
  | some x =>
    dsimp only [Option.map_some, Option.getD_some, f]
    split <;> rfl

theorem State.forgetWindows_leaving (s : State) (lane : Nat) (P : Nat → Prop) (p : Nat → Bool) :
    Leaving lane P s (s.forgetWindows p) :=
  ⟨LinkWork.of_regs rfl rfl rfl, rfl, rfl, rfl, s.forgetWindows_tile p⟩

theorem State.barReady_leaving (s : State) {lane : Nat} {P : Nat → Prop} (rows : ∀ a, a % 64 = 24 → P a) (b : Nat) :
    Leaving lane P s (s.barReady b) := by
  unfold State.barReady
  split
  · refine s.set_leaving _ _ (rows _ ?_) ?_
    · show (0x40040018 + b * 0x40) % 64 = 24
      omega
    · show 0x40040018 + b * 0x40 ≠ 0x4005001C + lane * 0x800
      omega
  · exact Leaving.refl lane P s

theorem State.dropRowPhases_leaving (s : State) {lane : Nat} {P : Nat → Prop} (rows : ∀ a, a % 64 = 24 → P a) :
    Leaving lane P s (s.dropRowPhases lane) := by
  unfold State.dropRowPhases
  extract_lets l row bars
  exact List.foldlRecOn (motive := Leaving lane P s) bars _ (s.setLane_leaving rfl rfl) fun t ht b _ => ht.trans (t.barReady_leaving rows b)

/-- The state as a change of state leaves it before anything is sent or reported. -/
def State.laneLeft (s : State) (lane new err : Nat) : State :=
  let old := s.laneState lane
  let t := s.set (F.LANE_STATE_state lane) new
  let u := if err = 0 then t else t.set (F.LANE_STATE_err lane) err
  let v := if old = 7 then u.set (F.LANE_CTL_open lane) 0 else u
  let w0 := if old = 4 then v.setLane lane (v.lane lane).dropTraining else v
  let w1 := if new = 7 then w0.forgetWindows (fun k => k / 16 == lane) else w0
  if (old == 5 || old == 7) && new != 5 && new != 7 then w1.dropRowPhases lane else w1

theorem State.laneEnter_eq {s : State} {lane new : Nat} (h : s.laneState lane ≠ new) (err : Nat) : s.laneEnter lane new err =
    ((s.laneLeft lane new err).emit lane (trainingMarks new)).laneFlag lane 0 (err * 2 ^ 24 + new * 2 ^ 8 + s.laneState lane) := if_neg h

/-- The state, its error code and the open bit are written; then the engine drops what ends with the state. -/
theorem State.laneLeft_spec (s : State) {lane new err : Nat} (hnew : new < 8) (herr : err < 256) :
    Leaving lane (enterWrites lane (s.laneState lane)) s (s.laneLeft lane new err) ∧
      (s.laneLeft lane new err).get (F.LANE_STATE_state lane) = new ∧
      (err ≠ 0 → (s.laneLeft lane new err).get (F.LANE_STATE_err lane) = err) ∧
      (s.laneState lane = 7 → (s.laneLeft lane new err).flag (F.LANE_CTL_open lane) = false) ∧
      ∀ {hi lo : Nat}, hi < 28 ∨ 28 < lo → (s.laneLeft lane new err).get ⟨R.LANE_CTL lane, hi, lo⟩ = s.get ⟨R.LANE_CTL lane, hi, lo⟩ := by
  unfold State.laneLeft
  extract_lets old t u v w0 w1
  have ctl : R.LANE_CTL lane ≠ R.LANE_STATE lane := lane_reg_ne (a := 0x40050000) (b := 0x40050004) (by decide)
  have report {base : Nat} (ne : base ≠ 0x4005001C) : base + lane * 0x800 ≠ R.LANE_LSTAT lane := lane_reg_ne ne
  have state : enterWrites lane old (R.LANE_STATE lane) := Or.inl (Or.inl ⟨0x40050004, by decide, rfl⟩)
  have stored : Leaving lane (enterWrites lane old) s t := s.set_leaving _ _ state (report (by decide))
  have coded : Leaving lane (enterWrites lane old) t u := by
    unfold u
    split
    · exact Leaving.refl _ _ t
    · exact t.set_leaving _ _ state (report (by decide))
  have cleared : Leaving lane (enterWrites lane old) u v := by
    unfold v
    split
    · next is => exact u.set_leaving _ _ (Or.inr (Or.inl ⟨is, rfl⟩)) (report (base := 0x40050000) (by decide))
    · exact Leaving.refl _ _ u
  have dropped {P : Nat → Prop} : Leaving lane P v w1 := by
    have trained : Leaving lane P v w0 := by
      unfold w0
      split
      · exact v.setLane_leaving rfl rfl
      · exact Leaving.refl _ _ v
    refine trained.trans ?_
    unfold w1
    split
    · exact w0.forgetWindows_leaving _ _ _
    · exact Leaving.refl _ _ w0
  have ended (P : Nat → Prop) (rows : (old = 5 ∨ old = 7) → ∀ a, a % 64 = 24 → P a) :
      Leaving lane P v (if (old == 5 || old == 7) && new != 5 && new != 7 then w1.dropRowPhases lane else w1) := by
    split
    · next leaves =>
      simp only [Bool.and_eq_true, Bool.or_eq_true, beq_iff_eq] at leaves
      exact dropped.trans (w1.dropRowPhases_leaving (rows leaves.1.1))
    · exact dropped
  have last := ended (fun a => a % 64 = 24) fun _ _ h => h
  have keeps (f : Field) {base : Nat} (addr : f.addr = base + lane * 0x800) (off : base % 64 ≠ 24) :
      State.get (if (old == 5 || old == 7) && new != 5 && new != 7 then w1.dropRowPhases lane else w1) f = v.get f := by
    refine last.work.get f ?_
    rw [addr]
    omega
  have entered : v.get (F.LANE_STATE_state lane) = u.get (F.LANE_STATE_state lane) := by
    unfold v
    split
    · exact u.get_set_ne _ ctl.symm
    · rfl
  have failed : v.get (F.LANE_STATE_err lane) = u.get (F.LANE_STATE_err lane) := by
    unfold v
    split
    · exact u.get_set_ne _ ctl.symm
    · rfl
  refine ⟨((stored.trans coded).trans cleared).trans (ended _ fun leaves a row => Or.inr (Or.inr ⟨leaves, row⟩)), ?_, fun he => ?_, fun is => ?_,
    fun {hi lo} apart => ?_⟩
  · rw [keeps _ (base := 0x40050004) rfl (by decide), entered]
    have first : t.get (F.LANE_STATE_state lane) = new :=
      s.get_set_fits (by decide) (by decide) hnew
    unfold u
    split
    · exact first
    · exact (t.get_set_beside err (by decide) (by decide) (by decide)).trans first
  · rw [keeps _ (base := 0x40050004) rfl (by decide), failed]
    unfold u
    rw [if_neg he]
    exact t.get_set_fits (by decide) (by decide) herr
  · rw [State.flag, keeps _ (base := 0x40050000) rfl (by decide)]
    unfold v
    have clear : (u.set (F.LANE_CTL_open lane) 0).get (F.LANE_CTL_open lane) = 0 := u.get_set_fits (by decide) (by decide) (by decide)
    rw [if_pos is, clear]
    rfl
  · have coded' : u.get ⟨R.LANE_CTL lane, hi, lo⟩ = s.get ⟨R.LANE_CTL lane, hi, lo⟩ := by
      unfold u
      split
      · exact s.get_set_ne _ ctl
      · exact (t.get_set_ne _ ctl).trans (s.get_set_ne _ ctl)
    have cleared' : v.get ⟨R.LANE_CTL lane, hi, lo⟩ = u.get ⟨R.LANE_CTL lane, hi, lo⟩ := by
      unfold v
      split
      · exact u.get_set_beside 0 (by decide) (by decide) apart
      · rfl
    rw [keeps _ (base := 0x40050000) rfl (by decide), cleared', coded']

/-- Outside CONFIG, UP and OPEN the lane itself is left as it is. -/
theorem State.laneLeft_lane {s : State} {lane : Nat} (config : s.laneState lane ≠ 4) (up : s.laneState lane ≠ 5)
    (opened : s.laneState lane ≠ 7) (new err n : Nat) : (s.laneLeft lane new err).lane n = s.lane n := by
  unfold State.laneLeft
  extract_lets old t u v w0 w1
  have coded : u.lane n = s.lane n := by
    unfold u
    split <;> rfl
  have kept : w1.lane n = u.lane n := by
    unfold w1 w0 v
    rw [if_neg opened, if_neg config]
    split <;> rfl
  have stays : ((old == 5 || old == 7) && new != 5 && new != 7) = false := by
    rw [beq_eq_false_iff_ne.mpr up, beq_eq_false_iff_ne.mpr opened]
    rfl
  rw [stays, if_neg Bool.false_ne_true, kept, coded]

/-! ### The state is entered -/

section
variable {s : State} {lane new err : Nat}

theorem State.laneEnter_same (h : s.laneState lane = new) (err : Nat) : s.laneEnter lane new err = s := if_pos h

theorem State.laneEnter_work (s : State) (hl : lane < 24) (hnew : new < 8) (herr : err < 256) :
    LinkWork lane (enterWrites lane (s.laneState lane)) s (s.laneEnter lane new err) := by
  by_cases h : s.laneState lane = new
  · rw [State.laneEnter_same h]
    exact LinkWork.refl lane _ s
  · rw [State.laneEnter_eq h]
    exact ((s.laneLeft_spec hnew herr).1.work.trans (State.setLane_work _ lane _ _ _)).trans
      ((State.laneFlag_work _ hl (by decide) (bases := [0x40050004, 0x4005001C]) (by decide) _).mono fun _ => Or.inl)

/-- A change of state shows. -/
theorem State.laneEnter_shows (hl : lane < 24) (h : s.laneState lane ≠ new) (hnew : new < 8) (herr : err < 256) :
    Shows lane (s.laneState lane) new err s (s.laneEnter lane new err) := by
  obtain ⟨left, state, code, -, -⟩ := s.laneLeft_spec (lane := lane) hnew herr
  rw [State.laneEnter_eq h]
  have reported := State.laneFlag_work ((s.laneLeft lane new err).emit lane (trainingMarks new)) hl (b := 0) (by decide)
    (bases := [0x4005001C]) (by decide) (err * 2 ^ 24 + new * 2 ^ 8 + s.laneState lane)
  have clear : ¬ laneWrites lane [0x4005001C] (R.LANE_STATE lane) := not_laneWrites hl (by decide) (by decide) (by decide)
  refine ⟨⟨(reported.get (F.LANE_STATE_state lane) clear).trans state,
    fun he => (reported.get (F.LANE_STATE_err lane) clear).trans (code he), State.laneFlag_set _ hl (by decide) _⟩, fun room => ?_⟩
  exact State.laneFlag_holds _ lane 0 _ ((left.room (24 + lane)).trans room)

/-- What the lane sends on entering the state. -/
theorem State.laneEnter_out (h : s.laneState lane ≠ new) (hnew : new < 8) (herr : err < 256) :
    ((s.laneEnter lane new err).lane lane).out = (s.lane lane).out ++ trainingMarks new := by
  rw [State.laneEnter_eq h, State.laneFlag_lane, State.emit, State.lane_setLane_same, (s.laneLeft_spec hnew herr).1.out]

theorem State.laneEnter_auto (s : State) (lane : Nat) (hnew : new < 8) (herr : err < 256) :
    ((s.laneEnter lane new err).lane lane).auto = (s.lane lane).auto := by
  by_cases h : s.laneState lane = new
  · rw [State.laneEnter_same h]
  · rw [State.laneEnter_eq h, State.laneFlag_lane, State.emit, State.lane_setLane_same, (s.laneLeft_spec hnew herr).1.auto]

theorem State.laneEnter_tile (s : State) (lane : Nat) (hnew : new < 8) (herr : err < 256) (k : Nat) :
    (s.laneEnter lane new err).tile k = { s.tile k with echoSeq := ((s.laneEnter lane new err).tile k).echoSeq } := by
  by_cases h : s.laneState lane = new
  · rw [State.laneEnter_same h]
  · rw [State.laneEnter_eq h, State.laneFlag_tile]
    exact (s.laneLeft_spec hnew herr).1.tile k

theorem State.laneEnter_faults (s : State) (lane : Nat) (hnew : new < 8) (herr : err < 256) (k : Nat) :
    ((s.laneEnter lane new err).tile k).faults = (s.tile k).faults := by rw [s.laneEnter_tile lane hnew herr]

/-- Leaving OPEN clears the open bit (R236). -/
theorem State.laneEnter_open (hl : lane < 24) (opened : s.laneState lane = 7) (h : new ≠ 7) (hnew : new < 8) (herr : err < 256) :
    (s.laneEnter lane new err).flag (F.LANE_CTL_open lane) = false := by
  have ne : s.laneState lane ≠ new := fun e => h (e.symm.trans opened)
  have reported := State.laneFlag_work ((s.laneLeft lane new err).emit lane (trainingMarks new)) hl (b := 0) (by decide)
    (bases := [0x4005001C]) (by decide) (err * 2 ^ 24 + new * 2 ^ 8 + s.laneState lane)
  rw [State.laneEnter_eq ne, reported.flag _ (not_laneWrites (base := 0x40050000) hl (by decide) (by decide) (by decide))]
  obtain ⟨-, -, -, cleared, -⟩ := s.laneLeft_spec (lane := lane) hnew herr
  exact cleared opened

/-- The fields of LANEn_CTL beside the open bit stay. -/
theorem State.laneEnter_ctl (s : State) (hl : lane < 24) (hnew : new < 8) (herr : err < 256) {hi lo : Nat} (apart : hi < 28 ∨ 28 < lo) :
    (s.laneEnter lane new err).get ⟨R.LANE_CTL lane, hi, lo⟩ = s.get ⟨R.LANE_CTL lane, hi, lo⟩ := by
  by_cases h : s.laneState lane = new
  · rw [State.laneEnter_same h]
  · obtain ⟨-, -, -, -, kept⟩ := s.laneLeft_spec (lane := lane) hnew herr
    have reported := State.laneFlag_work ((s.laneLeft lane new err).emit lane (trainingMarks new)) hl (b := 0) (by decide)
      (bases := [0x4005001C]) (by decide) (err * 2 ^ 24 + new * 2 ^ 8 + s.laneState lane)
    rw [State.laneEnter_eq h, reported.get _ (not_laneWrites (base := 0x40050000) hl (by decide) (by decide) (by decide))]
    exact kept apart

/-- From a state outside CONFIG, UP and OPEN the lane keeps all but what has left. -/
theorem State.laneEnter_lane (config : s.laneState lane ≠ 4) (up : s.laneState lane ≠ 5) (opened : s.laneState lane ≠ 7)
    (h : s.laneState lane ≠ new) (err : Nat) :
    (s.laneEnter lane new err).lane lane = { s.lane lane with out := (s.lane lane).out ++ trainingMarks new } := by
  rw [State.laneEnter_eq h, State.laneFlag_lane, State.emit, State.lane_setLane_same, State.laneLeft_lane config up opened]

end

/-! ### Training and its failure -/

theorem not_enterWrites_pres {lane old : Nat} (hl : lane < 24) : ¬ enterWrites lane old (R.LANE_PRES lane) :=
  not_enterWrites (base := 0x40050010) hl (by decide) (by decide) (by decide) (by decide)

/-- A broken ring: the lane is in BROKEN, RING_BREAK is flagged, and every tile on the lane is held closed (R235). -/
theorem State.ringBreak_spec {s : State} {lane err : Nat} (hl : lane < 24) (h : s.laneState lane ≠ 6) (herr : err < 256) :
    let t := s.ringBreak lane err
    LinkWork lane (enterWrites lane (s.laneState lane)) s t ∧ Enters lane 6 err t ∧ t.bit (F.LANE_LSTAT_flags lane) 2 = true ∧
      (t.lane lane).auto = false ∧ (s.laneState lane = 7 → t.flag (F.LANE_CTL_open lane) = false) ∧
      ∀ p < 16, natBit (s.present lane) p = true → natBit (t.tile (lane * 16 + p)).faults 4 = true := by
  intro t
  have fault := s.laneFault_faultWork hl (s.present lane) .lockLoss true
  let u := s.laneFault lane (s.present lane) .lockLoss true
  have state : u.laneState lane = s.laneState lane :=
    fault.work.get (F.LANE_STATE_state lane) (not_laneWrites hl (by decide) (by decide) List.not_mem_nil)
  let v := u.laneEnter lane 6 err
  have enter := u.laneEnter_work (new := 6) (err := err) hl (by decide) herr
  have shown := u.laneEnter_shows (new := 6) hl (by rw [state]; exact h) (by decide) herr
  rw [state] at enter
  let w := v.setLane lane { v.lane lane with auto := false }
  have last : LinkWork lane (laneWrites lane [0x4005001C]) v t :=
    (v.setLane_work lane _ lane _).trans (w.laneFlag_work hl (by decide) (by decide) (s.present lane))
  refine ⟨((fault.work.mono fun a own => Or.inl (own.mono (by simp) a)).trans enter).trans
      (last.mono fun a own => Or.inl (own.mono (by simp) a)),
    shown.1.after last (not_laneWrites hl (by decide) (by decide) (by decide)), w.laneFlag_set hl (by decide) _, ?_, fun opened => ?_,
    fun p hp here => ?_⟩
  · show ((w.laneFlag lane 2 (s.present lane)).lane lane).auto = false
    rw [State.laneFlag_lane, State.lane_setLane_same]
  · rw [last.flag _ (not_laneWrites (base := 0x40050000) hl (by decide) (by decide) (by decide))]
    exact State.laneEnter_open hl (state.trans opened) (by decide) (by decide) herr
  · show natBit ((w.laneFlag lane 2 (s.present lane)).tile (lane * 16 + p)).faults 4 = true
    rw [State.laneFlag_tile]
    show natBit (v.tile (lane * 16 + p)).faults 4 = true
    rw [u.laneEnter_faults lane (by decide) herr]
    exact s.laneFault_bit lane hp here .lockLoss true

/-- What a failure of training from `s` leaves in `t`: DOWN with the error, or BROKEN where the training was an automatic one (R216,
R235). -/
def TrainingFails (lane err : Nat) (s t : State) : Prop :=
  ((s.lane lane).auto = false → Shows lane (s.laneState lane) 0 err s t) ∧
  ((s.lane lane).auto = true → Enters lane 6 err t ∧ t.bit (F.LANE_LSTAT_flags lane) 2 = true ∧
    ∀ p < 16, natBit (t.get (F.LANE_PRES_link lane)) p = true → natBit (t.tile (lane * 16 + p)).faults 4 = true)

theorem State.trainFail_fails {s : State} {lane err : Nat} (hl : lane < 24) (down : s.laneState lane ≠ 0) (broken : s.laneState lane ≠ 6)
    (herr : err < 256) : TrainingFails lane err s (s.trainFail lane err) := by
  unfold State.trainFail
  refine ⟨fun auto => ?_, fun auto => ?_⟩
  · rw [auto, if_neg Bool.false_ne_true]
    exact s.laneEnter_shows hl down (by decide) herr
  · rw [auto, if_pos rfl]
    obtain ⟨work, enters, flag, -, -, closed⟩ := s.ringBreak_spec hl broken herr
    refine ⟨enters, flag, fun p hp here => closed p hp ?_⟩
    rwa [work.get (F.LANE_PRES_link lane) (not_enterWrites_pres hl)] at here

/-- Training starts: the lane sends MARK DOWN and enters LOCK (R216). -/
theorem State.laneTrain_spec {s : State} {lane : Nat} (hl : lane < 24) (h : s.laneState lane ≠ 1) (auto : Bool) :
    let t := s.laneTrain lane auto
    LinkWork lane (enterWrites lane (s.laneState lane)) s t ∧ Shows lane (s.laneState lane) 1 0 s t ∧
      (t.lane lane).out = (s.lane lane).out ++ marksDown ∧ (t.lane lane).auto = auto ∧ (∀ k, (t.tile k).faults = (s.tile k).faults) ∧
      (s.laneState lane = 7 → t.flag (F.LANE_CTL_open lane) = false) := by
  intro t
  let u := s.setLane lane { (s.lane lane).dropTraining with enumTries := 0, auto := auto }
  have work := u.laneEnter_work (new := 1) (err := 0) hl (by decide) (by decide)
  refine ⟨(s.setLane_work lane _ lane _).trans work, State.laneEnter_shows (s := u) hl h (by decide) (by decide), ?_, ?_, fun k => ?_,
    fun opened => State.laneEnter_open (s := u) hl opened (by decide) (by decide) (by decide)⟩
  · rw [show t = u.laneEnter lane 1 0 from rfl, State.laneEnter_out (s := u) h (by decide) (by decide), State.lane_setLane_same]
    rfl
  · rw [show t = u.laneEnter lane 1 0 from rfl, u.laneEnter_auto lane (by decide) (by decide), State.lane_setLane_same]
  · exact u.laneEnter_faults lane (by decide) (by decide) k

/-! ### Open-ring mode (R236) -/

/-- Whether a tile may fire in OPEN rests on the lane's registers and on the tile's sideband status. -/
theorem State.mayFireOpen_congr {lane : Nat} {P : Nat → Prop} {s t : State} (work : LinkWork lane P s t) (hopen : ¬ P (R.LANE_OPEN lane))
    (hstale : ¬ P (R.LANE_SBSTALE lane)) (hcfg : ¬ P (R.LANE_SBCFG lane)) {p : Nat}
    (status : (t.tile (lane * 16 + p)).sbStatus = (s.tile (lane * 16 + p)).sbStatus) : t.mayFireOpen lane p = s.mayFireOpen lane p := by
  rw [State.mayFireOpen, State.mayFireOpen, State.pollPeriod, State.pollPeriod, work.bit _ hopen, work.bit _ hstale,
    work.get (F.LANE_SBCFG_per_ms lane) hcfg, status]

theorem FaultWork.mayFireOpen {lane : Nat} {r : LinkReason} {s t : State} (h : FaultWork lane r s t) (hl : lane < 24) (p : Nat) :
    t.mayFireOpen lane p = s.mayFireOpen lane p := by
  have clear {base : Nat} (low : 0x40050000 ≤ base) (high : base < 0x40050800) : ¬ laneWrites lane [] (base + lane * 0x800) :=
    not_laneWrites hl low high List.not_mem_nil
  exact State.mayFireOpen_congr h.work (clear (base := 0x40050018) (by decide) (by decide)) (clear (base := 0x40050028) (by decide) (by decide))
    (clear (base := 0x40050024) (by decide) (by decide)) (by rw [h.tile])

theorem State.openRefresh_faultWork (s : State) {lane : Nat} (hl : lane < 24) : FaultWork lane .openRing s (s.openRefresh lane) := by
  unfold State.openRefresh
  split
  · exact FaultWork.foldl _ s fun p hp t => t.linkFault_faultWork hl (tile_lt hl (mem_positions.mp hp).1) _ _
  · exact FaultWork.refl lane _ s

/-- In OPEN the tiles on the lane that may not fire are held closed, and the others are not. -/
theorem State.openRefresh_bit {s : State} {lane p : Nat} (hl : lane < 24) (opened : s.laneState lane = 7) (hp : p < 16)
    (here : natBit (s.present lane) p = true) :
    natBit ((s.openRefresh lane).tile (lane * 16 + p)).faults 5 = !s.mayFireOpen lane p := by
  unfold State.openRefresh
  rw [if_pos opened]
  refine foldl_each (before := fun q t => t.mayFireOpen lane q = s.mayFireOpen lane q)
    (after := fun q t => natBit (t.tile (lane * 16 + q)).faults 5 = !s.mayFireOpen lane q) (positions (s.present lane)) s
    (positions_nodup _) (fun x hx y _ t _ same => ?_) (fun x _ t same => ?_) (fun x _ y _ t ne set => ?_) (fun _ _ => rfl) p
    (mem_positions.mpr ⟨hp, here⟩)
  · exact ((t.linkFault_faultWork hl (tile_lt hl (mem_positions.mp hx).1) .openRing _).mayFireOpen hl y).trans same
  · rw [← same]
    exact t.linkFault_bit _ .openRing _
  · rwa [t.linkFault_tile, if_neg (by omega)]

/-- A lane enters OPEN from BROKEN: the broken ring no longer holds its tiles, and those that may not fire are held as such. -/
theorem State.laneOpen_spec {s : State} {lane : Nat} (hl : lane < 24) (broken : s.laneState lane = 6) :
    let t := s.laneOpen lane
    Shows lane 6 7 0 s t ∧ t.flag (F.LANE_CTL_open lane) = true ∧
      ∀ p < 16, natBit (s.present lane) p = true → natBit (t.tile (lane * 16 + p)).faults 4 = false ∧
        natBit (t.tile (lane * 16 + p)).faults 5 = !s.mayFireOpen lane p := by
  intro t
  let u := s.set (F.LANE_CTL_open lane) 1
  let v := u.laneEnter lane 7 0
  let w := v.openRefresh lane
  have clear {bases : List Nat} {base : Nat} (low : 0x40050000 ≤ base) (high : base < 0x40050800) (ne : base ∉ bases) :
      ¬ laneWrites lane bases (base + lane * 0x800) := not_laneWrites hl low high ne
  have set : LinkWork lane (laneWrites lane [0x40050000]) s u :=
    s.set_work (base := 0x40050000) [0x40050000] 1 rfl (by decide) (by decide)
  have state : u.laneState lane = 6 := (set.get (F.LANE_STATE_state lane) (clear (by decide) (by decide) (by decide))).trans broken
  have enter : LinkWork lane (laneWrites lane [0x40050004, 0x4005001C]) u v := by
    refine (u.laneEnter_work (new := 7) (err := 0) hl (by decide) (by decide)).mono fun a => laneWrites_of_enter ?_ ?_
    all_goals rw [state]; decide
  have shown := State.laneEnter_shows (s := u) (new := 7) (err := 0) hl (by rw [state]; decide) (by decide) (by decide)
  have refresh : FaultWork lane .openRing v w := v.openRefresh_faultWork hl
  have unbroken : FaultWork lane .lockLoss w t := w.laneFault_faultWork hl 0xFFFF .lockLoss false
  have entered : v.laneState lane = 7 := shown.1.1
  rw [state] at shown
  have work := refresh.work.trans unbroken.work
  refine ⟨shown.after work (clear (by decide) (by decide) List.not_mem_nil), ?_, fun p hp here => ⟨?_, ?_⟩⟩
  · have stored : u.get (F.LANE_CTL_open lane) = 1 := s.get_set_fits (by decide) (by decide) (by decide)
    rw [work.flag _ (clear (base := 0x40050000) (by decide) (by decide) List.not_mem_nil),
      enter.flag _ (clear (base := 0x40050000) (by decide) (by decide) (by decide)), State.flag, stored]
    rfl
  · exact w.laneFault_bit lane hp (by rw [natBit_eq]; exact (by decide : ∀ q : Fin 16, Nat.testBit 0xFFFF q = true) ⟨p, hp⟩) .lockLoss false
  · have both := set.mono (laneWrites.mono (ys := [0x40050000, 0x40050004, 0x4005001C]) (by simp)) |>.trans
      (enter.mono (laneWrites.mono (by simp)))
    have aside {base : Nat} (low : 0x40050000 ≤ base) (high : base < 0x40050800) (ne : base ∉ [0x40050000, 0x40050004, 0x4005001C]) :
        ¬ laneWrites lane [0x40050000, 0x40050004, 0x4005001C] (base + lane * 0x800) := clear low high ne
    have fires : v.mayFireOpen lane p = s.mayFireOpen lane p :=
      State.mayFireOpen_congr both (aside (base := 0x40050018) (by decide) (by decide) (by decide))
        (aside (base := 0x40050028) (by decide) (by decide) (by decide)) (aside (base := 0x40050024) (by decide) (by decide) (by decide))
        (by rw [u.laneEnter_tile lane (by decide) (by decide)]; rfl)
    have tiles : v.present lane = s.present lane :=
      both.get (F.LANE_PRES_link lane) (aside (base := 0x40050010) (by decide) (by decide) (by decide))
    have kept : natBit (t.tile (lane * 16 + p)).faults 5 = natBit (w.tile (lane * 16 + p)).faults 5 := unbroken.others _ 5 (by decide)
    rw [kept, ← fires]
    exact State.openRefresh_bit hl entered hp (by rw [tiles]; exact here)

end Sys2Proof.Machine
end

section
/-! SUPPORT. Requests and sideband transactions joining a lane's lists (R229, R231), writes of LANEn_CTL (R216, R236, R237), and the steps of
training up to CONFIG (R216 to R219). -/

namespace Sys2Proof.Machine

/-! ### Requests and sideband transactions -/

/-- A request joins its lane's list, but a WRITE in OPEN, where nothing is granted. -/
theorem State.mgSend_mgmt (s : State) (lane pos op addr count : Nat) (data : List W32) (why : MgWhy) :
    ((s.mgSend lane pos op addr count data why).lane lane).mgmt = if s.laneState lane = 7 ∧ op = 1 then (s.lane lane).mgmt
      else (s.lane lane).mgmt ++ [⟨pos, (s.lane lane).mgSeq, op, addr, count, data, why, 0⟩] := by
  rw [State.mgSend, State.lane_setLane_same]
  by_cases opened : s.laneState lane = 7 <;> by_cases write : op = 1 <;> simp [opened, write]

theorem State.mgSend_keeps_request {s : State} {lane : Nat} {r : MgReq} (h : r ∈ (s.lane lane).mgmt) (pos op addr count : Nat) (data : List W32)
    (why : MgWhy) : r ∈ ((s.mgSend lane pos op addr count data why).lane lane).mgmt := by
  rw [State.mgSend_mgmt]
  split
  · exact h
  · exact List.mem_append_left _ h

/-- A request that is kept waits for its answer. -/
theorem State.mgSend_waits {s : State} {lane op : Nat} (kept : s.laneState lane ≠ 7 ∨ op ≠ 1) (pos addr count : Nat) (data : List W32)
    (why : MgWhy) : (⟨pos, (s.lane lane).mgSeq, op, addr, count, data, why, 0⟩ : MgReq) ∈
      ((s.mgSend lane pos op addr count data why).lane lane).mgmt := by
  rw [State.mgSend_mgmt, if_neg (by omega)]
  exact List.mem_append_right _ List.mem_cons_self

theorem State.sbLog_lane (s : State) (lane address offset : Nat) (written : List W8) : (s.sbLog lane address offset written).lane lane =
    { s.lane lane with sbOut := (s.lane lane).sbOut ++ [.start address offset written (s.flag (F.LANE_SBCFG_fm lane))] } :=
  s.lane_setLane_same lane _

theorem State.sbStart_eq (s : State) (lane : Nat) : s.sbStart lane = { s with lanes := (s.sbStart lane).lanes } := by
  unfold State.sbStart
  split <;> rfl

/-- A transaction that starts shows on the bus alone. -/
theorem State.sbStart_lane (s : State) (lane : Nat) :
    (s.sbStart lane).lane lane = { s.lane lane with sbOut := ((s.sbStart lane).lane lane).sbOut } := by
  unfold State.sbStart
  split
  · rfl
  all_goals rw [State.sbLog_lane]

theorem State.sbPush_eq (s : State) (lane : Nat) (ws : List SbWhy) : s.sbPush lane ws = { s with lanes := (s.sbPush lane ws).lanes } := by
  unfold State.sbPush
  extract_lets l t
  split
  · rw [t.sbStart_eq]
    rfl
  · rfl

/-- Transactions that join the lane's list change the list, and what shows on the bus. -/
theorem State.sbPush_lane (s : State) (lane : Nat) (ws : List SbWhy) : (s.sbPush lane ws).lane lane =
    { s.lane lane with sbq := (s.lane lane).sbq ++ ws, sbOut := ((s.sbPush lane ws).lane lane).sbOut } := by
  unfold State.sbPush
  extract_lets l t
  have joined : t.lane lane = { l with sbq := l.sbq ++ ws } := s.lane_setLane_same lane _
  split
  · rw [t.sbStart_lane, joined]
  · rw [joined]

theorem State.sbPush_work (s : State) (lane : Nat) (P : Nat → Prop) (ws : List SbWhy) : LinkWork lane P s (s.sbPush lane ws) := by
  rw [s.sbPush_eq]
  exact LinkWork.of_regs rfl rfl rfl

/-! ### Writes of LANEn_CTL (R216, R236, R237) -/

/-- The state with LANEn_CTL as written, and the counters cleared where the lane is newly enabled. -/
def State.ctlWritten (s : State) (lane : Nat) (v : W32) : State :=
  let t := s.wr (R.LANE_CTL lane) (putBits (v &&& 0xEFFF0000) 28 28 (s.get (F.LANE_CTL_open lane)))
  if bitsOf v 31 31 == 1 && !s.flag (F.LANE_CTL_en lane) then (linkCounters lane).foldl (fun w a => w.wr a 0) t else t

/-- The registers of a lane that a write of LANEn_CTL stores or clears, at lane 0. -/
def ctlBases : List Nat := [0x40050000, 0x40050200, 0x40050204, 0x40050208, 0x4005020C, 0x40050210, 0x40050214]

theorem linkCounters_base {lane a : Nat} (h : a ∈ linkCounters lane) : ∃ b ∈ ctlBases.tail, a = b + lane * 0x800 := by
  simp only [linkCounters, List.mem_cons, List.not_mem_nil, or_false] at h
  rcases h with rfl | rfl | rfl | rfl | rfl | rfl <;> exact ⟨_, by decide, rfl⟩

section
variable {s : State} {lane : Nat} {v : W32}

theorem State.ctlWritten_regs (s : State) (lane : Nat) (v : W32) : s.ctlWritten lane v = { s with regs := (s.ctlWritten lane v).regs } := by
  unfold State.ctlWritten
  extract_lets t
  split
  · exact (List.foldlRecOn (motive := fun u : State => u = { s with regs := u.regs }) _ _ rfl fun u hu a _ => by
      rw [hu]
      rfl)
  · rfl

theorem State.ctlWritten_work (s : State) (lane : Nat) (v : W32) : LinkWork lane (laneWrites lane ctlBases) s (s.ctlWritten lane v) := by
  unfold State.ctlWritten
  extract_lets t
  have stored : LinkWork lane (laneWrites lane ctlBases) s t := s.wr_work (base := 0x40050000) ctlBases _ (by decide) (by decide)
  split
  · refine stored.trans (LinkWork.foldl _ t fun a ha u => ?_)
    obtain ⟨b, hb, rfl⟩ := linkCounters_base ha
    exact u.wr_work ctlBases 0 (by rintro rfl; exact absurd hb (by decide)) (List.mem_of_mem_tail hb)
  · exact stored

/-- LANEn_CTL after the write. -/
theorem State.ctlWritten_rd (s : State) (lane : Nat) (v : W32) :
    (s.ctlWritten lane v).rd (R.LANE_CTL lane) = putBits (v &&& 0xEFFF0000) 28 28 (s.get (F.LANE_CTL_open lane)) := by
  unfold State.ctlWritten
  extract_lets t
  have stored : t.rd (R.LANE_CTL lane) = putBits (v &&& 0xEFFF0000) 28 28 (s.get (F.LANE_CTL_open lane)) := State.rd_wr_same _ _ _
  split
  · refine ((State.clearRegs_touches _ t).rd _ fun counter => ?_).trans stored
    obtain ⟨b, hb, same⟩ := linkCounters_base counter
    exact absurd (Nat.add_right_cancel same ▸ hb) (by decide)
  · exact stored

/-- A field of LANEn_CTL other than the open bit holds what was written. -/
theorem State.ctlWritten_get (s : State) (lane : Nat) (v : W32) {hi lo : Nat} (apart : hi < 28 ∨ 28 < lo)
    (stored : bitsOf (0xEFFF0000 : W32) hi lo = 2 ^ (hi + 1 - lo) - 1) : (s.ctlWritten lane v).get ⟨R.LANE_CTL lane, hi, lo⟩ = bitsOf v hi lo := by
  rw [State.get, State.ctlWritten_rd, bitsOf_putBits_disjoint _ _ _ _ _ _ (by decide) (by decide) apart]
  exact bitsOf_and_mask v _ hi lo stored

/-- The open bit stays. -/
theorem State.ctlWritten_open (s : State) (lane : Nat) (v : W32) :
    (s.ctlWritten lane v).get (F.LANE_CTL_open lane) = s.get (F.LANE_CTL_open lane) := by
  show bitsOf ((s.ctlWritten lane v).rd (R.LANE_CTL lane)) 28 28 = _
  rw [State.ctlWritten_rd]
  exact (bitsOf_putBits _ 28 28 _ (by decide) (by decide)).trans (Nat.mod_eq_of_lt (bitsOf_lt _ 28 28))

/-- The counters of a lane newly enabled are cleared (R239). -/
theorem State.ctlWritten_counter {a : Nat} (on : bitsOf v 31 31 = 1) (off : s.flag (F.LANE_CTL_en lane) = false) (counter : a ∈ linkCounters lane) :
    (s.ctlWritten lane v).rd a = 0 := by
  unfold State.ctlWritten
  rw [on, off]
  exact State.clearRegs_rd _ _ counter

theorem State.ctlWritten_room (s : State) (lane : Nat) (v : W32) (src : Nat) : (s.ctlWritten lane v).room src = s.room src := by
  rw [s.ctlWritten_regs]
  rfl

theorem State.ctlWritten_lane (s : State) (lane : Nat) (v : W32) (n : Nat) : (s.ctlWritten lane v).lane n = s.lane n := by
  rw [s.ctlWritten_regs]
  rfl

theorem State.ctlWritten_tile (s : State) (lane : Nat) (v : W32) (k : Nat) : (s.ctlWritten lane v).tile k = s.tile k := by
  rw [s.ctlWritten_regs]
  rfl

theorem State.ctlWritten_state (s : State) {lane : Nat} (hl : lane < 24) (v : W32) : (s.ctlWritten lane v).laneState lane = s.laneState lane :=
  (s.ctlWritten_work lane v).get (F.LANE_STATE_state lane) (not_laneWrites hl (by decide) (by decide) (by decide))

/-- A write that changes legacy outside DOWN is refused (R237). -/
theorem State.laneCtlWrite_legacy (change : bitsOf v 30 30 ≠ s.get (F.LANE_CTL_legacy lane)) (up : s.laneState lane ≠ 0) :
    s.laneCtlWrite lane v = s.laneCfgErr lane := by
  simp [State.laneCtlWrite, change, up]

/-- A write of open = 1 outside BROKEN, or without polling, is refused (R236). -/
theorem State.laneCtlWrite_open (opens : bitsOf v 28 28 = 1) (refused : ¬(s.laneState lane = 6 ∧ s.flag (F.LANE_SBCFG_poll lane) = true)) :
    s.laneCtlWrite lane v = s.laneCfgErr lane := by
  have closed : (s.laneState lane == 6 && s.flag (F.LANE_SBCFG_poll lane)) = false := by
    rwa [Bool.eq_false_iff, ne_eq, Bool.and_eq_true, beq_iff_eq]
  simp [State.laneCtlWrite, opens, closed]

/-- A write that is not refused. -/
theorem State.laneCtlWrite_accepted (legacy : bitsOf v 30 30 = s.get (F.LANE_CTL_legacy lane) ∨ s.laneState lane = 0)
    (opens : bitsOf v 28 28 = 1 → s.laneState lane = 6 ∧ s.flag (F.LANE_SBCFG_poll lane) = true) :
    s.laneCtlWrite lane v = let u := s.ctlWritten lane v
      if bitsOf v 31 31 ≠ 1 then u.laneDown lane
      else if s.laneState lane = 0 then u.laneTrain lane false
      else if bitsOf v 0 0 = 1 ∧ 5 ≤ s.laneState lane then u.laneTrain lane false
      else if bitsOf v 28 28 = 1 then u.laneOpen lane
      else u := by
  have first : (bitsOf v 30 30 != s.get (F.LANE_CTL_legacy lane) && s.laneState lane != 0) = false := by
    rcases legacy with same | down
    · simp [same]
    · simp [down]
  have second : (bitsOf v 28 28 == 1 && !(s.laneState lane == 6 && s.flag (F.LANE_SBCFG_poll lane))) = false := by
    by_cases h : bitsOf v 28 28 = 1
    · obtain ⟨broken, poll⟩ := opens h
      simp [broken, poll]
    · simp [h]
  unfold State.laneCtlWrite State.ctlWritten
  simp only [first, second, Bool.false_eq_true, if_false, Bool.not_eq_true', beq_eq_false_iff_ne, beq_iff_eq, Bool.and_eq_true, decide_eq_true_eq]

end

/-- A lane taken down: disabled, in DOWN, out of OPEN (R35, R216, R236). -/
theorem State.laneDown_spec {s : State} {lane : Nat} (hl : lane < 24) :
    let t := s.laneDown lane
    t.flag (F.LANE_CTL_en lane) = false ∧ (s.laneState lane ≠ 0 → Shows lane (s.laneState lane) 0 0 s t) ∧
      t.get (F.LANE_STATE_state lane) = 0 ∧ t.get (F.LANE_CTL_legacy lane) = s.get (F.LANE_CTL_legacy lane) ∧
      (s.laneState lane = 7 → t.flag (F.LANE_CTL_open lane) = false) := by
  intro t
  let a := s.set (F.LANE_CTL_en lane) 0
  let marks := if s.laneState lane != 0 && s.bit F.SYS_CLK_STAT_lock (10 + lane / 4) then marksDown else []
  let b := (a.setLane lane { a.lane lane with auto := false }).emit lane marks
  have disabled : LinkWork lane (laneWrites lane [0x40050000]) s b :=
    (s.set_work (base := 0x40050000) [0x40050000] 0 rfl (by decide) (by decide)).trans
      ((a.setLane_work lane _ lane _).trans (State.setLane_work _ lane _ lane _))
  have state : b.laneState lane = s.laneState lane :=
    disabled.get (F.LANE_STATE_state lane) (not_laneWrites hl (by decide) (by decide) (by decide))
  have off : b.get (F.LANE_CTL_en lane) = 0 := s.get_set_fits (by decide) (by decide) (by decide)
  have legacy : b.get (F.LANE_CTL_legacy lane) = s.get (F.LANE_CTL_legacy lane) := s.get_set_beside 0 (by decide) (by decide) (by decide)
  have shown (up : s.laneState lane ≠ 0) : Shows lane (s.laneState lane) 0 0 s t := by
    have shows' := State.laneEnter_shows (s := b) (new := 0) (err := 0) hl (by rw [state]; exact up) (by decide) (by decide)
    rw [state] at shows'
    exact shows'
  refine ⟨?_, shown, ?_, ?_, fun opened => State.laneEnter_open hl (state.trans opened) (by decide) (by decide) (by decide)⟩
  · have stays : t.get (F.LANE_CTL_en lane) = 0 := (b.laneEnter_ctl hl (by decide) (by decide) (by decide)).trans off
    rw [State.flag, stays]
    rfl
  · by_cases up : s.laneState lane = 0
    · have same : t = b := State.laneEnter_same (state.trans up) 0
      rw [same]
      exact state.trans up
    · exact (shown up).1.1
  · exact (b.laneEnter_ctl hl (by decide) (by decide) (by decide)).trans legacy

end Sys2Proof.Machine
end

section
/-! SUPPORT. The commands that write LANEn_CTL (R216, R236, R237, R239). -/

namespace Sys2Proof.Machine

section
variable {s t : State} {lane : Fin 24} {v w : W32}

/-- A command on a lane that is not fused off. -/
theorem next_of_lane_on (on : natBit s.lanesOff lane = false) (t : State) :
    (Host.Outcome.next (if s.laneFused lane.val then s else t) : Host.Outcome State Fault Refusal) = .next t := by
  rw [if_neg (by rw [State.laneFused, on]; exact Bool.false_ne_true)]

/-- A bit of a word after another of its bits is written. -/
theorem bitsOf_putBits_other (v : W32) {i j b : Nat} (hi : i < 32) (ne : j ≠ i) : bitsOf (putBits v i i b) j j = bitsOf v j j :=
  bitsOf_putBits_disjoint v i i b j j (Nat.le_refl i) hi (by omega)

/-- A bit of a word, written. -/
theorem bitsOf_putBits_bit (v : W32) {i b : Nat} (hi : i < 32) (hb : b < 2) : bitsOf (putBits v i i b) i i = b := by
  rw [bitsOf_putBits v i i b (Nat.le_refl i) hi, show i + 1 - i = 1 by omega]
  exact Nat.mod_eq_of_lt hb

theorem bitsOf_of_bit (h : v.getLsbD i = true) : bitsOf v i i = 1 := by rwa [← bitsOf_bit, beq_iff_eq] at h

theorem bitsOf_of_not_bit (h : v.getLsbD i = false) : bitsOf v i i ≠ 1 := by rwa [← bitsOf_bit, beq_eq_false_iff_ne] at h

/-- Every command that writes LANEn_CTL writes a word with legacy as given, and with open set if it is given so. -/
theorem exec_ctl_command (on : natBit s.lanesOff lane = false) {c : Instr}
    (hc : c ∈ [Instr.laneEnable lane v, .laneDisable lane v, .laneRetrain lane v, .laneOpen lane v, .legacyWrite lane v]) :
    ∃ w, exec c s = .next (s.laneCtlWrite lane w) ∧ bitsOf w 30 30 = bitsOf v 30 30 ∧ (bitsOf v 28 28 = 1 → bitsOf w 28 28 = 1) := by
  have named {i b : Nat} (hi : i < 32) (legacy : 30 ≠ i) (opens : bitsOf v 28 28 = 1 → bitsOf (putBits v i i b) 28 28 = 1) :
      bitsOf (putBits v i i b) 30 30 = bitsOf v 30 30 ∧ (bitsOf v 28 28 = 1 → bitsOf (putBits v i i b) 28 28 = 1) :=
    ⟨bitsOf_putBits_other v hi legacy, opens⟩
  simp only [List.mem_cons, List.not_mem_nil, or_false] at hc
  rcases hc with rfl | rfl | rfl | rfl | rfl
  · exact ⟨putBits v 31 31 1, next_of_lane_on on _, named (by decide) (by decide) fun o => (bitsOf_putBits_other v (by decide) (by decide)).trans o⟩
  · exact ⟨putBits v 31 31 0, next_of_lane_on on _, named (by decide) (by decide) fun o => (bitsOf_putBits_other v (by decide) (by decide)).trans o⟩
  · exact ⟨putBits v 0 0 1, next_of_lane_on on _, named (by decide) (by decide) fun o => (bitsOf_putBits_other v (by decide) (by decide)).trans o⟩
  · exact ⟨putBits v 28 28 1, next_of_lane_on on _, named (by decide) (by decide) fun _ => bitsOf_putBits_bit v (by decide) (by decide)⟩
  · exact ⟨v, next_of_lane_on on _, rfl, id⟩

/-- A change of legacy outside DOWN is refused (R237). -/
theorem exec_ctl_legacy_refused (on : natBit s.lanesOff lane = false) (change : bitsOf v 30 30 ≠ s.get (F.LANE_CTL_legacy lane))
    (up : s.laneState lane ≠ 0) {c : Instr}
    (hc : c ∈ [Instr.laneEnable lane v, .laneDisable lane v, .laneRetrain lane v, .laneOpen lane v, .legacyWrite lane v]) :
    exec c s = .next (s.set (F.LANE_LSTAT_cfg_err lane) 1) := by
  obtain ⟨w, run, legacy, -⟩ := exec_ctl_command on hc
  rw [run, State.laneCtlWrite_legacy (by rwa [legacy]) up]
  rfl

/-- open = 1 outside BROKEN, or without polling, is refused (R236). -/
theorem exec_ctl_open_refused (on : natBit s.lanesOff lane = false) (opens : bitsOf v 28 28 = 1)
    (refused : ¬(s.laneState lane = 6 ∧ s.flag (F.LANE_SBCFG_poll lane) = true)) {c : Instr}
    (hc : c ∈ [Instr.laneEnable lane v, .laneDisable lane v, .laneRetrain lane v, .laneOpen lane v, .legacyWrite lane v]) :
    exec c s = .next (s.set (F.LANE_LSTAT_cfg_err lane) 1) := by
  obtain ⟨w, run, legacy, stays⟩ := exec_ctl_command on hc
  by_cases change : bitsOf w 30 30 ≠ s.get (F.LANE_CTL_legacy lane) ∧ s.laneState lane ≠ 0
  · rw [run, State.laneCtlWrite_legacy change.1 change.2]
    rfl
  · rw [run, State.laneCtlWrite_open (stays opens) refused]
    rfl

/-- What is shown from the state with LANEn_CTL written is shown from the state before. -/
theorem Shows.of_written {old new err : Nat} (h : Shows lane old new err (s.ctlWritten lane v) t) : Shows lane old new err s t :=
  ⟨h.1, fun room => h.2 ((s.ctlWritten_room lane v _).trans room)⟩

/-- From a state other than OPEN a change of state leaves LANEn_CTL. -/
theorem not_enterWrites_ctl {n old : Nat} (hn : n < 24) (h : old ≠ 7) : ¬ enterWrites n old (R.LANE_CTL n) := by
  rintro (own | ⟨opened, -⟩ | ⟨-, row⟩)
  · exact not_laneWrites (base := 0x40050000) hn (by decide) (by decide) (by decide) own
  · exact h opened
  · unfold R.LANE_CTL at row
    omega

/-- LANE_ENABLE in DOWN: training starts (R216, R239). -/
theorem exec_laneEnable_down (on : natBit s.lanesOff lane = false) (closed : v.getLsbD 28 = false) (down : s.laneState lane = 0) :
    Completes (.laneEnable lane v) s (fun t => Shows lane (s.laneState lane) 1 0 s t ∧
      (t.lane lane).out = (s.lane lane).out ++ marksDown ∧ t.flag (F.LANE_CTL_en lane) = true ∧
      t.get (F.LANE_CTL_legacy lane) = (v.extractLsb' 30 1).toNat ∧ t.get (F.LANE_CTL_auto lane) = (v.extractLsb' 29 1).toNat ∧
      t.get (F.LANE_CTL_retry_max lane) = (v.extractLsb' 24 4).toNat ∧ t.get (F.LANE_CTL_stat_per lane) = (v.extractLsb' 16 8).toNat ∧
      (s.flag (F.LANE_CTL_en lane) = false → ∀ a ∈ linkCounters lane, t.rd a = 0)) := by
  have hl := lane.isLt
  let w := putBits v 31 31 1
  let u := s.ctlWritten lane w
  have enables : bitsOf w 31 31 = 1 := bitsOf_putBits_bit v (by decide) (by decide)
  have shut : bitsOf w 28 28 ≠ 1 := by
    rw [bitsOf_putBits_other v (by decide) (by decide)]
    exact bitsOf_of_not_bit closed
  have run : s.laneCtlWrite lane w = u.laneTrain lane false := by
    rw [State.laneCtlWrite_accepted (Or.inr down) fun opens => absurd opens shut]
    dsimp only
    rw [if_neg (not_not.mpr enables), if_pos down]
  have state : u.laneState lane = s.laneState lane := s.ctlWritten_state hl w
  obtain ⟨work, shown, out, -, -, -⟩ := State.laneTrain_spec (s := u) hl (by rw [state, down]; decide) false
  rw [state] at work shown
  have clear {base : Nat} (low : 0x40050000 ≤ base) (high : base < 0x40050800) (ne : base ∉ [0x40050004, 0x4005001C]) :
      (u.laneTrain lane false).rd (base + lane * 0x800) = u.rd (base + lane * 0x800) :=
    work.rd _ fun own => not_laneWrites hl low high ne (laneWrites_of_enter (by omega) (by omega) own)
  have ctl : (u.laneTrain lane false).rd (R.LANE_CTL lane) = u.rd (R.LANE_CTL lane) := clear (by decide) (by decide) (by decide)
  have field {hi lo : Nat} (apart : hi < 28 ∨ 28 < lo) (stored : bitsOf (0xEFFF0000 : W32) hi lo = 2 ^ (hi + 1 - lo) - 1) :
      (u.laneTrain lane false).get ⟨R.LANE_CTL lane, hi, lo⟩ = bitsOf w hi lo := by
    rw [State.get, ctl]
    exact s.ctlWritten_get lane w apart stored
  have given {hi lo : Nat} (below : hi < 31) : bitsOf w hi lo = (v.extractLsb' lo (hi + 1 - lo)).toNat := by
    rw [bitsOf_extract]
    exact bitsOf_putBits_disjoint v 31 31 1 hi lo (by decide) (by decide) (Or.inl below)
  refine ⟨_, (next_of_lane_on on _).trans (congrArg _ run), shown.of_written, ?_, ?_, (field (by decide) (by decide)).trans (given (by decide)),
    (field (by decide) (by decide)).trans (given (by decide)), (field (by decide) (by decide)).trans (given (by decide)),
    (field (by decide) (by decide)).trans (given (by decide)), fun off a counter => ?_⟩
  · rw [out, s.ctlWritten_lane]
  · have en : (u.laneTrain lane false).get (F.LANE_CTL_en lane) = 1 := (field (by decide) (by decide)).trans enables
    rw [State.flag, en]
    rfl
  · obtain ⟨b, hb, rfl⟩ := linkCounters_base counter
    have among : ∀ c ∈ ctlBases.tail, 0x40050000 ≤ c ∧ c < 0x40050800 ∧ c ∉ [0x40050004, 0x4005001C] := by decide
    obtain ⟨low, high, ne⟩ := among b hb
    rw [clear low high ne]
    exact State.ctlWritten_counter enables off counter

/-- LANE_DISABLE: the lane is down (R216, R236). -/
theorem exec_laneDisable (on : natBit s.lanesOff lane = false) (closed : v.getLsbD 28 = false)
    (legacy : s.laneState lane = 0 ∨ (v.extractLsb' 30 1).toNat = s.get (F.LANE_CTL_legacy lane)) :
    Completes (.laneDisable lane v) s (fun t => t.flag (F.LANE_CTL_en lane) = false ∧
      (s.laneState lane ≠ 0 → Shows lane (s.laneState lane) 0 0 s t) ∧ t.get (F.LANE_STATE_state lane) = 0 ∧
      (s.laneState lane = 7 → t.flag (F.LANE_CTL_open lane) = false)) := by
  have hl := lane.isLt
  let w := putBits v 31 31 0
  let u := s.ctlWritten lane w
  have disables : bitsOf w 31 31 = 0 := bitsOf_putBits_bit v (by decide) (by decide)
  have shut : bitsOf w 28 28 ≠ 1 := by
    rw [bitsOf_putBits_other v (by decide) (by decide)]
    exact bitsOf_of_not_bit closed
  have same : bitsOf w 30 30 = (v.extractLsb' 30 1).toNat := (bitsOf_putBits_other v (by decide) (by decide)).trans (bitsOf_extract v 30 30).symm
  have run : s.laneCtlWrite lane w = u.laneDown lane := by
    rw [State.laneCtlWrite_accepted (legacy.symm.imp_left same.trans) fun opens => absurd opens shut]
    dsimp only
    rw [if_pos (by rw [disables]; decide)]
  have state : u.laneState lane = s.laneState lane := s.ctlWritten_state hl w
  obtain ⟨off, shown, down, -, opened⟩ := State.laneDown_spec (s := u) hl
  rw [state] at shown opened
  exact ⟨_, (next_of_lane_on on _).trans (congrArg _ run), off, fun up => (shown up).of_written, down, opened⟩

/-- LANE_RETRAIN outside DOWN and training: training starts again (R216, R236). -/
theorem exec_laneRetrain (on : natBit s.lanesOff lane = false) (enables : v.getLsbD 31 = true) (closed : v.getLsbD 28 = false)
    (legacy : (v.extractLsb' 30 1).toNat = s.get (F.LANE_CTL_legacy lane)) (trained : 5 ≤ s.laneState lane) :
    Completes (.laneRetrain lane v) s (fun t => Shows lane (s.laneState lane) 1 0 s t ∧
      (s.flag (F.LANE_CTL_open lane) = false ∨ s.laneState lane = 7 → t.flag (F.LANE_CTL_open lane) = false)) := by
  have hl := lane.isLt
  let w := putBits v 0 0 1
  let u := s.ctlWritten lane w
  have bit {j : Nat} (ne : j ≠ 0) : bitsOf w j j = bitsOf v j j := bitsOf_putBits_other v (by decide) ne
  have shut : bitsOf w 28 28 ≠ 1 := by
    rw [bit (by decide)]
    exact bitsOf_of_not_bit closed
  have run : s.laneCtlWrite lane w = u.laneTrain lane false := by
    rw [State.laneCtlWrite_accepted (Or.inl ((bit (by decide)).trans ((bitsOf_extract v 30 30).symm.trans legacy)))
      fun opens => absurd opens shut]
    dsimp only
    rw [if_neg (not_not.mpr ((bit (by decide)).trans (bitsOf_of_bit enables))), if_neg (by omega),
      if_pos ⟨bitsOf_putBits_bit v (by decide) (by decide), trained⟩]
  have state : u.laneState lane = s.laneState lane := s.ctlWritten_state hl w
  obtain ⟨work, shown, -, -, -, opened⟩ := State.laneTrain_spec (s := u) hl (by rw [state]; omega) false
  rw [state] at work shown opened
  refine ⟨_, (next_of_lane_on on _).trans (congrArg _ run), shown.of_written, fun clear => ?_⟩
  by_cases was : s.laneState lane = 7
  · exact opened was
  · have before := clear.resolve_right was
    rwa [work.flag _ (not_enterWrites_ctl hl was), State.flag, s.ctlWritten_open]

/-- LANE_OPEN in BROKEN with polling on: the lane is in OPEN, and only tiles that may fire are not held closed (R236). -/
theorem exec_laneOpen (on : natBit s.lanesOff lane = false) (enables : v.getLsbD 31 = true) (trains : v.getLsbD 0 = false)
    (legacy : (v.extractLsb' 30 1).toNat = s.get (F.LANE_CTL_legacy lane)) (broken : s.laneState lane = 6)
    (polled : s.flag (F.LANE_SBCFG_poll lane) = true) :
    Completes (.laneOpen lane v) s (fun t => Shows lane (s.laneState lane) 7 0 s t ∧ t.flag (F.LANE_CTL_open lane) = true ∧
      ∀ p < 16, natBit (s.present lane) p = true → natBit (t.tile (lane * 16 + p)).faults 4 = false ∧
        natBit (t.tile (lane * 16 + p)).faults 5 = !s.mayFireOpen lane p) := by
  have hl := lane.isLt
  let w := putBits v 28 28 1
  let u := s.ctlWritten lane w
  have bit {j : Nat} (ne : j ≠ 28) : bitsOf w j j = bitsOf v j j := bitsOf_putBits_other v (by decide) ne
  have opens : bitsOf w 28 28 = 1 := bitsOf_putBits_bit v (by decide) (by decide)
  have run : s.laneCtlWrite lane w = u.laneOpen lane := by
    rw [State.laneCtlWrite_accepted (Or.inl ((bit (by decide)).trans ((bitsOf_extract v 30 30).symm.trans legacy)))
      fun _ => ⟨broken, polled⟩]
    dsimp only
    rw [if_neg (not_not.mpr ((bit (by decide)).trans (bitsOf_of_bit enables))), if_neg (by omega),
      if_neg fun again => bitsOf_of_not_bit trains ((bit (by decide)).symm.trans again.1), if_pos opens]
  have state : u.laneState lane = s.laneState lane := s.ctlWritten_state hl w
  have written := s.ctlWritten_work lane w
  have aside {base : Nat} (low : 0x40050000 ≤ base) (high : base < 0x40050800) (ne : base ∉ ctlBases) :
      ¬ laneWrites lane ctlBases (base + lane * 0x800) := not_laneWrites hl low high ne
  have fires (p : Nat) : u.mayFireOpen lane p = s.mayFireOpen lane p :=
    State.mayFireOpen_congr written (aside (base := 0x40050018) (by decide) (by decide) (by decide))
      (aside (base := 0x40050028) (by decide) (by decide) (by decide)) (aside (base := 0x40050024) (by decide) (by decide) (by decide))
      (by rw [s.ctlWritten_tile])
  have tiles : u.present lane = s.present lane :=
    written.get (F.LANE_PRES_link lane) (aside (base := 0x40050010) (by decide) (by decide) (by decide))
  obtain ⟨shown, opened, held⟩ := State.laneOpen_spec (s := u) hl (state.trans broken)
  refine ⟨_, (next_of_lane_on on _).trans (congrArg _ run), ?_, opened, fun p hp here => ?_⟩
  · rw [broken]
    exact shown.of_written
  · rw [← fires]
    exact held p hp (by rwa [tiles])

/-- LEGACY_WRITE of a disabled lane in DOWN stores legacy (R237). -/
theorem exec_legacyWrite_down (on : natBit s.lanesOff lane = false) (disables : v.getLsbD 31 = false) (closed : v.getLsbD 28 = false)
    (down : s.laneState lane = 0) : Completes (.legacyWrite lane v) s (fun t =>
      t.get (F.LANE_CTL_legacy lane) = (v.extractLsb' 30 1).toNat ∧ t.get (F.LANE_STATE_state lane) = 0) := by
  have run : s.laneCtlWrite lane v = (s.ctlWritten lane v).laneDown lane := by
    rw [State.laneCtlWrite_accepted (Or.inr down) fun opens => absurd opens (bitsOf_of_not_bit closed)]
    dsimp only
    rw [if_pos (bitsOf_of_not_bit disables)]
  obtain ⟨-, -, state, legacy, -⟩ := State.laneDown_spec (s := s.ctlWritten lane v) lane.isLt
  exact ⟨_, (next_of_lane_on on _).trans (congrArg _ run),
    legacy.trans ((s.ctlWritten_get lane v (by decide) (by decide)).trans (bitsOf_extract v 30 30).symm), state⟩

end

end Sys2Proof.Machine
end

section
/-! SUPPORT. The steps of training up to CONFIG and the loss of lock (R216 to R219, R235), and the statement on the states of a lane. -/

namespace Sys2Proof.Machine

/-! ### The failure of a command of training -/

section
variable {s t u : State} {lane : Fin 24} {c : Instr}

/-- A failure that begins after work that leaves the lane's state, what is kept of the lane, and its events. -/
theorem TrainingFails.of_before {n err : Nat} (state : u.laneState n = s.laneState n) (auto : (u.lane n).auto = (s.lane n).auto)
    (room : u.room (24 + n) = s.room (24 + n)) (h : TrainingFails n err u t) : TrainingFails n err s t := by
  obtain ⟨manual, automatic⟩ := h
  rw [state, auto] at manual
  rw [auto] at automatic
  refine ⟨fun off => ?_, automatic⟩
  obtain ⟨enters, event⟩ := manual off
  exact ⟨enters, fun free => event (room.trans free)⟩

/-- A command whose outcome is a failure of training, in the words of the statement. -/
theorem completes_trainingFails {err : Nat} (run : exec c s = .next t) (h : TrainingFails lane err s t) :
    ((s.lane lane).auto = false → Completes c s (Shows lane (s.laneState lane) 0 err s)) ∧
    ((s.lane lane).auto = true → Completes c s (fun t => Enters lane 6 err t ∧ t.bit (F.LANE_LSTAT_flags lane) 2 = true ∧
      ∀ p < 16, natBit (t.get (F.LANE_PRES_link lane)) p = true → natBit (t.tile (lane * 16 + p)).faults 4 = true)) :=
  ⟨fun off => ⟨t, run, h.1 off⟩, fun on => ⟨t, run, h.2 on⟩⟩

/-! ### Block lock, ENUM (R216, R217) -/

/-- BLOCK_LOCK in LOCK. -/
theorem exec_blockLock (lock : s.laneState lane = 1) : Completes (.blockLock lane) s (fun t => Shows lane (s.laneState lane) 2 0 s t ∧
    (t.lane lane).out = (s.lane lane).out ++ trainingMarks 2) := by
  have ne : s.laneState lane ≠ 2 := by rw [lock]; decide
  exact ⟨_, congrArg Host.Outcome.next (if_pos lock), State.laneEnter_shows lane.isLt ne (by decide) (by decide),
    State.laneEnter_out ne (by decide) (by decide)⟩

/-- LOCK_TIMEOUT in LOCK. -/
theorem exec_lockTimeout (lock : s.laneState lane = 1) :
    ∃ t, exec (.lockTimeout lane) s = .next t ∧ TrainingFails lane 1 s t :=
  ⟨_, congrArg Host.Outcome.next (if_pos lock), State.trainFail_fails lane.isLt (by rw [lock]; decide) (by rw [lock]; decide) (by decide)⟩

/-- What a valid ENUM return that does not agree with LANEn_RINGCFG.expect, or names positions a legacy ring lacks, is (R216, R237). -/
theorem State.enumReturn_eq (s : State) (lane mask : Nat) (order : Bool) (enum : s.laneState lane = 2) : s.enumReturn lane mask order =
    if order = true then s.trainFail lane 3
    else if (s.get (F.LANE_RINGCFG_expect lane) ≠ 0 ∧ mask ≠ s.get (F.LANE_RINGCFG_expect lane)) ∨
      (s.flag (F.LANE_CTL_legacy lane) = true ∧ 16 ≤ mask) then s.trainFail lane 4
    else (s.set (F.LANE_PRES_link lane) mask).laneEnter lane 3 0 := by
  unfold State.enumReturn
  rw [enum]
  simp only [bne_self_eq_false, Bool.false_eq_true, if_false, Bool.or_eq_true, Bool.and_eq_true, bne_iff_ne, ne_eq, decide_eq_true_eq]

/-- A wrong ENUM return ends training (R216). -/
theorem State.enumReturn_fails {mask : Nat} {order : Bool} (enum : s.laneState lane = 2) :
    (order = true → TrainingFails lane 3 s (s.enumReturn lane mask order)) ∧
    (order = false → (s.get (F.LANE_RINGCFG_expect lane) ≠ 0 ∧ mask ≠ s.get (F.LANE_RINGCFG_expect lane)) ∨
      (s.flag (F.LANE_CTL_legacy lane) = true ∧ 16 ≤ mask) → TrainingFails lane 4 s (s.enumReturn lane mask order)) := by
  have fails {err : Nat} (herr : err < 256) : TrainingFails lane err s (s.trainFail lane err) :=
    State.trainFail_fails lane.isLt (by rw [enum]; decide) (by rw [enum]; decide) herr
  rw [s.enumReturn_eq lane mask order enum]
  refine ⟨fun bad => ?_, fun good wrong => ?_⟩
  · rw [if_pos bad]
    exact fails (by decide)
  · rw [if_neg (by rw [good]; exact Bool.false_ne_true), if_pos wrong]
    exact fails (by decide)

/-- A right ENUM return is the lane's link mask, and the delay measurement begins (R217, R218). -/
theorem exec_enumReturn {mask : W16} (enum : s.laneState lane = 2)
    (right : ¬((s.get (F.LANE_RINGCFG_expect lane) ≠ 0 ∧ mask.toNat ≠ s.get (F.LANE_RINGCFG_expect lane)) ∨
      (s.flag (F.LANE_CTL_legacy lane) = true ∧ 16 ≤ mask.toNat))) :
    Completes (.enumReturn lane mask false) s (fun t => Shows lane (s.laneState lane) 3 0 s t ∧
      (t.lane lane).out = (s.lane lane).out ++ marksDelay ∧ t.get (F.LANE_PRES_link lane) = mask.toNat) := by
  have hl := lane.isLt
  let u := s.set (F.LANE_PRES_link lane) mask.toNat
  have run : s.enumReturn lane mask.toNat false = u.laneEnter lane 3 0 := by
    rw [s.enumReturn_eq lane mask.toNat false enum, if_neg Bool.false_ne_true, if_neg right]
  have state : u.laneState lane = s.laneState lane :=
    s.get_set_ne _ (lane_reg_ne (a := 0x40050004) (b := 0x40050010) (by decide))
  have ne : u.laneState lane ≠ 3 := by rw [state, enum]; decide
  have shown := State.laneEnter_shows (s := u) (new := 3) (err := 0) hl ne (by decide) (by decide)
  have work := u.laneEnter_work (new := 3) (err := 0) hl (by decide) (by decide)
  rw [state] at shown
  exact ⟨_, congrArg Host.Outcome.next run, shown, State.laneEnter_out (s := u) ne (by decide) (by decide),
    (work.get (F.LANE_PRES_link lane) (not_enterWrites_pres hl)).trans (s.get_set_fits (by decide) (by decide) mask.isLt)⟩

/-- ENUM_TIMEOUT before the third attempt sends MARK ENUM again (R216). -/
theorem exec_enumTimeout_again (enum : s.laneState lane = 2) (early : (s.lane lane).enumTries < 2) :
    exec (.enumTimeout lane) s = .next (s.setLane lane { s.lane lane with
      enumTries := (s.lane lane).enumTries + 1, out := (s.lane lane).out ++ trainingMarks 2 }) := by
  have run : s.enumTimeout lane = (s.setLane lane { s.lane lane with enumTries := (s.lane lane).enumTries + 1 }).emit lane (trainingMarks 2) := by
    unfold State.enumTimeout
    rw [enum]
    exact (if_neg Bool.false_ne_true).trans (if_neg (by omega))
  rw [State.emit, State.setLane_setLane, State.lane_setLane_same] at run
  exact congrArg Host.Outcome.next run

/-- ENUM_TIMEOUT of the third attempt. -/
theorem exec_enumTimeout_fails (enum : s.laneState lane = 2) (late : 2 ≤ (s.lane lane).enumTries) :
    ∃ t, exec (.enumTimeout lane) s = .next t ∧ TrainingFails lane 2 s t := by
  have run : s.enumTimeout lane = s.trainFail lane 2 := by
    unfold State.enumTimeout
    rw [enum]
    exact (if_neg Bool.false_ne_true).trans (if_pos (by omega))
  exact ⟨_, congrArg Host.Outcome.next run, State.trainFail_fails lane.isLt (by rw [enum]; decide) (by rw [enum]; decide) (by decide)⟩

end

/-! ### The delay measurement (R218) -/

/-- The nearest integer of a quotient lies within a half of it. -/
theorem nearest_close (up : Bool) (num : Int) {den : Nat} (hden : 0 < den) :
    2 * den * nearest up num den ≤ 2 * num + den ∧ 2 * num ≤ 2 * den * nearest up num den + den := by
  have split := Int.mul_ediv_add_emod num den
  have low := Int.emod_nonneg num (b := den) (by omega)
  have high := Int.emod_lt_of_pos num (b := den) (by omega)
  have twice : 2 * (den : Int) * (num / den) = 2 * (den * (num / den)) := by ring
  unfold nearest
  dsimp only
  split
  · next down =>
    have below : 2 * (num % (den : Int)) ≤ den := by
      simp only [Bool.or_eq_true, Bool.and_eq_true, decide_eq_true_eq, beq_iff_eq] at down
      omega
    omega
  · next rises =>
    have above : (den : Int) ≤ 2 * (num % (den : Int)) := by
      simp only [Bool.or_eq_true, decide_eq_true_eq, not_or] at rises
      omega
    have more : 2 * (den : Int) * (num / den + 1) = 2 * (den * (num / den)) + 2 * den := by ring
    omega

/-- The loop time of R218 in ps is the mean of the measurements of 82.5 ps each, to the nearest integer. -/
theorem State.meanLoop_close (s : State) {units : List Nat} (some : units ≠ []) :
    20 * units.length * s.meanLoop units ≤ 1650 * units.sum + 10 * units.length ∧
      1650 * units.sum ≤ 20 * units.length * s.meanLoop units + 10 * units.length := by
  have long : 0 < units.length := List.length_pos_iff.mpr some
  obtain ⟨low, high⟩ := nearest_close (s.freeN % 2 == 1) ((units.sum * 825 : Nat) : Int) (den := 10 * units.length) (by omega)
  unfold State.meanLoop State.nearestFree
  generalize nearest (s.freeN % 2 == 1) ((units.sum * 825 : Nat) : Int) (10 * units.length) = q at *
  have nonneg : 0 ≤ q := by
    by_contra negative
    have : 2 * ((10 * units.length : Nat) : Int) * q ≤ 2 * ((10 * units.length : Nat) : Int) * (-1) :=
      Int.mul_le_mul_of_nonneg_left (by omega) (by omega)
    omega
  obtain ⟨n, rfl⟩ := Int.eq_ofNat_of_zero_le nonneg
  have cast : 2 * ((10 * units.length : Nat) : Int) * (n : Int) = ((20 * units.length * n : Nat) : Int) := by push_cast; ring
  rw [cast] at low high
  rw [Int.toNat_natCast]
  omega

/-- A list of measurements of 17 bits sums to less than its length times 2^17. -/
theorem sum_le_of_forall_le {bound : Nat} : ∀ l : List Nat, (∀ x ∈ l, x ≤ bound) → l.sum ≤ l.length * bound
  | [], _ => by simp
  | x :: l, h => by
    have first := h x List.mem_cons_self
    have rest := sum_le_of_forall_le l fun y hy => h y (List.mem_cons_of_mem x hy)
    rw [List.sum_cons, List.length_cons, Nat.add_mul]
    omega

/-- The loop time fits its field. -/
theorem State.meanLoop_lt (s : State) {units : List Nat} (some : units ≠ []) (fits : ∀ x ∈ units, x ≤ 131071) : s.meanLoop units < 2 ^ 24 := by
  have long : 0 < units.length := List.length_pos_iff.mpr some
  obtain ⟨low, -⟩ := s.meanLoop_close some
  have total := sum_le_of_forall_le units fits
  by_contra big
  have : 20 * units.length * 2 ^ 24 ≤ 20 * units.length * s.meanLoop units := Nat.mul_le_mul_left _ (by omega)
  omega

/-! ### CONFIG begins (R217, R219) -/

theorem State.mgSend_work (s : State) (n : Nat) (P : Nat → Prop) (lane pos op addr count : Nat) (data : List W32) (why : MgWhy) :
    LinkWork n P s (s.mgSend lane pos op addr count data why) := s.setLane_work n P lane _

theorem State.mgSend_sbq (s : State) (lane pos op addr count : Nat) (data : List W32) (why : MgWhy) :
    ((s.mgSend lane pos op addr count data why).lane lane).sbq = (s.lane lane).sbq := by
  rw [State.mgSend, State.lane_setLane_same]

/-- Requests sent to the positions of a mask wait for their answers, but WRITEs in OPEN. -/
theorem State.mgSends_wait {s : State} {lane op mask p : Nat} (kept : s.laneState lane ≠ 7 ∨ op ≠ 1) (addr count : Nat) (data : List W32)
    (why : MgWhy) (hp : p < 16) (named : natBit mask p = true) :
    ∃ r ∈ (((positions mask).foldl (fun w p => w.mgSend lane p op addr count data why) s).lane lane).mgmt,
      r.pos = p ∧ r.op = op ∧ r.addr = addr ∧ r.count = count ∧ r.data = data ∧ r.why = why := by
  refine foldl_each (f := fun w p => w.mgSend lane p op addr count data why) (before := fun _ t => t.laneState lane = s.laneState lane)
    (after := fun q t => ∃ r ∈ (t.lane lane).mgmt, r.pos = q ∧ r.op = op ∧ r.addr = addr ∧ r.count = count ∧ r.data = data ∧ r.why = why)
    (positions mask) s (positions_nodup mask) (fun _ _ _ _ t _ same => same) (fun q _ t same => ?_) (fun x _ y _ t _ waits => ?_)
    (fun _ _ => rfl) p (mem_positions.mpr ⟨hp, named⟩)
  · exact ⟨_, State.mgSend_waits (by rwa [same]) q addr count data why, rfl, rfl, rfl, rfl, rfl, rfl⟩
  · obtain ⟨r, hr, fields⟩ := waits
    exact ⟨r, State.mgSend_keeps_request hr _ _ _ _ _ _, fields⟩

/-- CONFIG begins from DELAY: nothing is excluded, every sideband address is probed, and every position of the link mask is asked for TID
and HOP (R217, R219). -/
theorem State.configStart_spec {s : State} {lane : Nat} (hl : lane < 24) (delay : s.laneState lane = 3) :
    let t := s.configStart lane
    Shows lane (s.laneState lane) 4 0 s t ∧ LinkWork lane (laneWrites lane [0x40050004, 0x4005001C, 0x40050010, 0x40050014]) s t ∧
      t.get (F.LANE_EXCL_excl lane) = 0 ∧ (t.lane lane).sbq = (s.lane lane).sbq ++ (List.range 16).map SbWhy.probe ∧
      ∀ p < 16, natBit (s.get (F.LANE_PRES_link lane)) p = true →
        ∃ r ∈ (t.lane lane).mgmt, r.pos = p ∧ r.op = 0 ∧ r.addr = 0 ∧ r.count = 2 ∧ r.why = .identity := by
  intro t
  let a := s.set (F.LANE_EXCL_excl lane) 0
  let b := a.set (F.LANE_PRES_sb lane) 0
  let c := b.laneEnter lane 4 0
  let step : State → Nat → State := fun w p =>
    w.setTile (lane * 16 + p) { w.tile (lane * 16 + p) with hop := none, record := [], sbStatus := 0, sbOk := false }
  let d := (List.range 16).foldl step c
  let e := d.sbPush lane ((List.range 16).map SbWhy.probe)
  have tables : LinkWork lane (laneWrites lane [0x40050010, 0x40050014]) s b :=
    (s.set_work (base := 0x40050014) _ 0 rfl (by decide) (by decide)).trans (a.set_work (base := 0x40050010) _ 0 rfl (by decide) (by decide))
  have state : b.laneState lane = s.laneState lane :=
    tables.get (F.LANE_STATE_state lane) (not_laneWrites hl (by decide) (by decide) (by decide))
  have ne : b.laneState lane ≠ 4 := by rw [state, delay]; decide
  have enter : LinkWork lane (laneWrites lane [0x40050004, 0x4005001C]) b c := by
    refine (b.laneEnter_work (new := 4) (err := 0) hl (by decide) (by decide)).mono fun x => laneWrites_of_enter ?_ ?_
    all_goals rw [state, delay]; decide
  have shown := State.laneEnter_shows (s := b) (new := 4) (err := 0) hl ne (by decide) (by decide)
  rw [state] at shown
  have tiles {P : Nat → Prop} : LinkWork lane P c d := LinkWork.foldl _ c fun p _ w => w.setTile_work lane P _ _
  have probes {P : Nat → Prop} : LinkWork lane P d e := d.sbPush_work lane P _
  have asks {P : Nat → Prop} : LinkWork lane P e t := LinkWork.foldl _ e fun p _ w => w.mgSend_work lane P lane p 0 0 2 [] .identity
  have later {P : Nat → Prop} : LinkWork lane P c t := (tiles.trans probes).trans asks
  have entered : (c.lane lane) = { s.lane lane with out := (s.lane lane).out ++ trainingMarks 4 } :=
    State.laneEnter_lane (s := b) ne (by rw [state, delay]; decide) (by rw [state, delay]; decide) ne 0
  have reset : d.lane lane = c.lane lane := List.foldlRecOn (motive := fun w : State => w.lane lane = c.lane lane) _ _ rfl fun _ hw _ _ => hw
  refine ⟨shown.after (P := fun _ => False) later id, ?_, ?_, ?_, fun p hp here => ?_⟩
  · exact ((tables.mono (laneWrites.mono (by simp))).trans (enter.mono (laneWrites.mono (by simp)))).trans later
  · have cleared : a.get (F.LANE_EXCL_excl lane) = 0 := s.get_set_fits (by decide) (by decide) (by decide)
    have kept : b.get (F.LANE_EXCL_excl lane) = a.get (F.LANE_EXCL_excl lane) :=
      a.get_set_ne 0 (lane_reg_ne (a := 0x40050014) (b := 0x40050010) (by decide))
    rw [(later (P := fun _ => False)).get _ id,
      enter.get _ (not_laneWrites (base := 0x40050014) hl (by decide) (by decide) (by decide)), kept, cleared]
  · have asked : (t.lane lane).sbq = (e.lane lane).sbq :=
      List.foldlRecOn (motive := fun w : State => (w.lane lane).sbq = (e.lane lane).sbq) _ _ rfl fun w hw p _ => (w.mgSend_sbq lane p _ _ _ _ _).trans hw
    rw [asked, d.sbPush_lane, reset, entered]
  · have opened : e.laneState lane ≠ 7 := by
      have same : e.laneState lane = 4 :=
        ((tiles.trans probes : LinkWork lane (fun _ => False) c e).get (F.LANE_STATE_state lane) id).trans shown.1.1
      rw [same]
      decide
    obtain ⟨r, hr, pos, op, addr, count, -, why⟩ := State.mgSends_wait (Or.inl opened) 0 2 [] .identity hp here
    exact ⟨r, hr, pos, op, addr, count, why⟩

end Sys2Proof.Machine
end

section
/-! SUPPORT. The end of the delay measurement and the loss of lock (R216, R218, R235), and the statement on the states of a lane. -/

namespace Sys2Proof.Machine

/-! ### DELAY_DONE (R216, R218) -/

section
variable {s : State} {lane : Fin 24}

/-- The state with a delay measurement in LANEn_RINGL. -/
def State.delayMeasured (s : State) (lane : Nat) (units : List Nat) : State :=
  let field := if spreadOf units < 256 then spreadOf units else s.drawn.freeN % 256
  s.drawn.drawn.wr (R.LANE_RINGL lane) (w32 (field * 2 ^ 24 + s.meanLoop units % 2 ^ 24))

theorem State.delayMeasured_work (s : State) (lane : Nat) (units : List Nat) :
    LinkWork lane (laneWrites lane [0x4005000C]) s (s.delayMeasured lane units) :=
  ((s.drawn_work lane _).trans (s.drawn.drawn_work lane _)).trans
    (State.wr_work (base := 0x4005000C) _ [0x4005000C] _ (by decide) (by decide))

theorem State.delayMeasured_state (s : State) {n : Nat} (hn : n < 24) (units : List Nat) :
    (s.delayMeasured n units).laneState n = s.laneState n :=
  (s.delayMeasured_work n units).get (F.LANE_STATE_state n) (not_laneWrites hn (by decide) (by decide) (by decide))

/-- The fields of LANEn_RINGL hold a spread and a loop time that fit them. -/
theorem State.delayMeasured_fields (s : State) (n : Nat) {units : List Nat} (spread : spreadOf units < 256) (loop : s.meanLoop units < 2 ^ 24) :
    (s.delayMeasured n units).get (F.LANE_RINGL_spread n) = spreadOf units ∧
      (s.delayMeasured n units).get (F.LANE_RINGL_loop n) = s.meanLoop units := by
  have word : (s.delayMeasured n units).rd (R.LANE_RINGL n) = w32 (spreadOf units * 2 ^ 24 + s.meanLoop units) := by
    unfold State.delayMeasured
    rw [if_pos spread, Nat.mod_eq_of_lt loop]
    exact State.rd_wr_same _ _ _
  refine ⟨?_, ?_⟩
  · show bitsOf ((s.delayMeasured n units).rd (R.LANE_RINGL n)) 31 24 = _
    rw [word, bitsOf, w32, BitVec.toNat_ofNat]
    omega
  · show bitsOf ((s.delayMeasured n units).rd (R.LANE_RINGL n)) 23 0 = _
    rw [word, bitsOf, w32, BitVec.toNat_ofNat]
    omega

/-- DELAY_DONE in DELAY stores the measurement; then training fails of too wide a spread, or CONFIG begins. -/
theorem State.delayDone_eq (s : State) (lane : Nat) (units : List Nat) (delay : s.laneState lane = 3) : s.delayDone lane units =
    if 2000000 < spreadOf units * 82500 then (s.delayMeasured lane units).trainFail lane 5
    else (s.delayMeasured lane units).configStart lane := by
  unfold State.delayDone
  rw [delay]
  exact if_neg Bool.false_ne_true

/-- A spread above 2 ns ends training. -/
theorem State.delayDone_fails {units : List Nat} (delay : s.laneState lane = 3) (wide : 2000000 < spreadOf units * 82500) :
    TrainingFails lane 5 s (s.delayDone lane units) := by
  have state : (s.delayMeasured lane units).laneState lane = s.laneState lane := s.delayMeasured_state lane.isLt units
  rw [s.delayDone_eq lane units delay, if_pos wide]
  exact (State.trainFail_fails lane.isLt (by rw [state, delay]; decide) (by rw [state, delay]; decide) (by decide)).of_before state rfl rfl

/-- A spread of at most 2 ns: the loop time and the spread are in LANEn_RINGL, and CONFIG begins. -/
theorem exec_delayDone {first : BitVec 17} {rest : List (BitVec 17)} (delay : s.laneState lane = 3)
    (narrow : spreadOf ((first :: rest).map (fun x => x.toNat)) * 82500 ≤ 2000000) :
    let u := (first :: rest).map (fun x => x.toNat)
    Completes (.delayDone lane first rest) s (fun t => Shows lane (s.laneState lane) 4 0 s t ∧
      20 * u.length * t.get (F.LANE_RINGL_loop lane) ≤ 1650 * u.sum + 10 * u.length ∧
      1650 * u.sum ≤ 20 * u.length * t.get (F.LANE_RINGL_loop lane) + 10 * u.length ∧
      t.get (F.LANE_RINGL_spread lane) = spreadOf u ∧ t.get (F.LANE_EXCL_excl lane) = 0 ∧
      (t.lane lane).sbq = (s.lane lane).sbq ++ (List.range 16).map SbWhy.probe ∧
      ∀ p < 16, natBit (s.get (F.LANE_PRES_link lane)) p = true →
        ∃ r ∈ (t.lane lane).mgmt, r.pos = p ∧ r.op = 0 ∧ r.addr = 0 ∧ r.count = 2 ∧ r.why = .identity) := by
  intro u
  have hl := lane.isLt
  let m := s.delayMeasured lane u
  have some : u ≠ [] := List.cons_ne_nil _ _
  have fits : ∀ x ∈ u, x ≤ 131071 := by
    intro x hx
    obtain ⟨b, -, rfl⟩ := List.mem_map.mp hx
    exact Nat.le_of_lt_succ b.isLt
  have run : s.delayDone lane u = m.configStart lane := by rw [s.delayDone_eq lane u delay, if_neg (Nat.not_lt.mpr narrow)]
  have state : m.laneState lane = s.laneState lane := s.delayMeasured_state hl u
  have small : spreadOf u < 256 := by
    have bound : spreadOf u * 82500 ≤ 2000000 := narrow
    omega
  obtain ⟨spread, loop⟩ := s.delayMeasured_fields lane small (s.meanLoop_lt some fits)
  obtain ⟨shown, work, excl, probes, asks⟩ := State.configStart_spec (s := m) hl (state.trans delay)
  have ringl (f : Field) (addr : f.addr = R.LANE_RINGL lane) : (m.configStart lane).get f = m.get f :=
    work.get f (by rw [addr]; exact not_laneWrites (base := 0x4005000C) hl (by decide) (by decide) (by decide))
  have present : m.get (F.LANE_PRES_link lane) = s.get (F.LANE_PRES_link lane) :=
    (s.delayMeasured_work lane u).get _ (not_laneWrites (base := 0x40050010) hl (by decide) (by decide) (by decide))
  obtain ⟨below, above⟩ := s.meanLoop_close some
  rw [state] at shown
  refine ⟨_, congrArg Host.Outcome.next run, shown, ?_, ?_, (ringl _ rfl).trans spread, excl, probes, fun p hp here => ?_⟩
  · rwa [ringl _ rfl, loop]
  · rwa [ringl _ rfl, loop]
  · exact asks p hp (by rwa [present])

end

/-! ### BLOCK_LOCK_LOSS (R235) -/

/-- What the loss of lock does before the lane retrains or its ring breaks: errors counted, LOCK_LOSS flagged, the tiles closed. -/
def State.lockLost (s : State) (lane : Nat) : State :=
  ((s.lockErrors lane).laneFlag lane 1 0).laneFault lane (s.present lane) .lockLoss true

section
variable {s : State} {lane : Nat}

theorem State.lockLost_work (s : State) (hl : lane < 24) : LinkWork lane (laneWrites lane [0x4005001C, 0x40050200]) s (s.lockLost lane) := by
  have counted : LinkWork lane (laneWrites lane [0x4005001C, 0x40050200]) s (s.lockErrors lane) :=
    (s.drawn_work lane _).trans (s.drawn.set_work (base := 0x40050200) _ _ rfl (by decide) (by decide))
  have flagged : LinkWork lane (laneWrites lane [0x4005001C, 0x40050200]) _ ((s.lockErrors lane).laneFlag lane 1 0) :=
    State.laneFlag_work _ hl (by decide) (by decide) 0
  exact (counted.trans flagged).trans ((State.laneFault_faultWork _ hl _ _ _).work.mono (laneWrites.mono (by simp)))

theorem State.lockLost_lane (s : State) (hl : lane < 24) (n : Nat) : (s.lockLost lane).lane n = s.lane n := by
  refine ((State.laneFault_faultWork _ hl _ _ _).lanes n).trans ?_
  rw [State.laneFlag_lane]
  rfl

/-- The flag is set and every tile on the lane is held closed. -/
theorem State.lockLost_shows (s : State) (hl : lane < 24) : (s.lockLost lane).bit (F.LANE_LSTAT_flags lane) 1 = true ∧
    ∀ p < 16, natBit (s.present lane) p = true → natBit ((s.lockLost lane).tile (lane * 16 + p)).faults 4 = true :=
  ⟨(State.laneFault_faultWork _ hl _ _ _).work.flags 1 (State.laneFlag_set _ hl (by decide) 0),
    fun _ hp here => State.laneFault_bit _ lane hp here .lockLoss true⟩

/-- Loss of lock in UP: the lane retrains, or its ring is broken. -/
theorem State.blockLockLoss_spec (hl : lane < 24) (up : s.laneState lane = 5) :
    let auto := s.flag (F.LANE_CTL_auto lane) && decide (s.recentRetrains lane < 3)
    let t := s.blockLockLoss lane
    t.laneState lane = (if auto then 1 else 6) ∧ t.bit (F.LANE_LSTAT_flags lane) 1 = true ∧ (t.lane lane).auto = auto ∧
      (auto = false → t.bit (F.LANE_LSTAT_flags lane) 2 = true) ∧
      ∀ p < 16, natBit (s.present lane) p = true → natBit (t.tile (lane * 16 + p)).faults 4 = true := by
  intro auto t
  let u := s.lockLost lane
  let v := u.setLane lane { u.lane lane with retrains := s.uptime :: (u.lane lane).retrains.take 2 }
  have lost := s.lockLost_work hl
  obtain ⟨flagged, closed⟩ := s.lockLost_shows hl
  have state : u.laneState lane = 5 :=
    (lost.get (F.LANE_STATE_state lane) (not_laneWrites hl (by decide) (by decide) (by decide))).trans up
  have present : u.present lane = s.present lane :=
    lost.get (F.LANE_PRES_link lane) (not_laneWrites (base := 0x40050010) hl (by decide) (by decide) (by decide))
  have run : t = if auto then v.laneTrain lane true else u.ringBreak lane (if s.flag (F.LANE_CTL_auto lane) then 8 else 0) := by
    show s.blockLockLoss lane = _
    unfold State.blockLockLoss
    rw [up]
    exact if_neg Bool.false_ne_true
  rw [run]
  cases auto with
  | true =>
    rw [if_pos rfl, if_pos rfl]
    obtain ⟨work, shown, -, manual, faults, -⟩ := State.laneTrain_spec (s := v) hl (by rw [show v.laneState lane = 5 from state]; decide) true
    refine ⟨shown.1.1, work.flags 1 flagged, manual, fun no => absurd no Bool.true_eq_false_eq_False, fun p hp here => ?_⟩
    rw [faults]
    exact closed p hp here
  | false =>
    rw [if_neg Bool.false_ne_true, if_neg Bool.false_ne_true]
    have code : (if s.flag (F.LANE_CTL_auto lane) then 8 else 0) < 256 := by split <;> decide
    obtain ⟨work, entered, broken, manual, -, held⟩ := State.ringBreak_spec (s := u) hl (by rw [state]; decide) code
    exact ⟨entered.1, work.flags 1 flagged, manual, fun _ => broken, fun p hp here => held p hp (by rwa [present])⟩

end

/-! ### The statement -/

/-- The negation of what lets a tile fire in OPEN, spelt out (R236). -/
theorem State.not_mayFireOpen_eq_false (s : State) (lane p : Nat) : (!s.mayFireOpen lane p) = false ↔
    natBit (s.get (F.LANE_OPEN_mask lane)) p = true ∧ natBit (s.get (F.LANE_SBSTALE_stale lane)) p = false ∧
      natBit (s.tile (lane * 16 + p)).sbStatus 0 = true ∧ max 1 (s.get (F.LANE_SBCFG_per_ms lane)) ≤ 10 := by
  simp only [State.mayFireOpen, State.bit, Bool.not_eq_false', Bool.and_eq_true, Bool.not_eq_true', decide_eq_true_eq, and_assoc]
  rfl

/-- Settles O50: writes of LANEn_CTL by the branch they take, the steps of training each as a change of state or a failure of training,
and the loss of lock as a retrain or a broken ring. -/
theorem laneTrainingResults : Obligations.LaneTrainingResults := by
  unfold Obligations.LaneTrainingResults
  intro s lane on st flag enters shows' fails down
  refine ⟨fun v => ⟨fun change up c hc => ?_, fun opens refused c hc => ?_, fun closed is => ?_, fun closed legacy => ?_,
    fun enables closed legacy trained => exec_laneRetrain on enables closed legacy trained, fun enables trains legacy broken polled => ?_,
    fun disables closed is => exec_legacyWrite_down on disables closed is⟩, fun lock => ⟨exec_blockLock lock, ?_⟩,
    fun other => ⟨congrArg Host.Outcome.next (if_neg other), congrArg Host.Outcome.next (if_neg other)⟩, fun mask order => ?_,
    fun other => ?_, fun enum => ⟨fun early => exec_enumTimeout_again enum early, fun late => ?_⟩, fun first rest => ⟨fun other => ?_, fun delay wide => ?_,
    fun delay narrow => exec_delayDone delay narrow⟩, fun other => ?_, fun up => ⟨_, rfl, State.blockLockLoss_spec lane.isLt up⟩⟩
  · exact exec_ctl_legacy_refused on (by rwa [← bitsOf_extract]) up hc
  · exact exec_ctl_open_refused on (bitsOf_of_bit opens) refused hc
  · exact exec_laneEnable_down on closed is
  · exact exec_laneDisable on closed legacy
  · obtain ⟨t, run, shown, opened, held⟩ := exec_laneOpen on enables trains legacy broken polled
    refine ⟨t, run, shown, opened, fun p hp here => ?_⟩
    obtain ⟨unbroken, refreshed⟩ := held p hp here
    exact ⟨unbroken, by rw [refreshed]; exact s.not_mayFireOpen_eq_false lane p⟩
  · obtain ⟨t, run, failed⟩ := exec_lockTimeout lock
    exact completes_trainingFails run failed
  · refine ⟨fun other => ?_, fun enum bad => ?_, fun enum good wrong => ?_, fun enum good right => ?_⟩
    · exact congrArg Host.Outcome.next (if_pos (bne_iff_ne.mpr other))
    · exact completes_trainingFails rfl ((State.enumReturn_fails enum).1 bad)
    · exact completes_trainingFails rfl ((State.enumReturn_fails enum).2 good wrong)
    · rw [good]
      exact exec_enumReturn enum right
  · exact congrArg Host.Outcome.next (if_pos (bne_iff_ne.mpr other))
  · obtain ⟨t, run, failed⟩ := exec_enumTimeout_fails enum late
    exact completes_trainingFails run failed
  · exact congrArg Host.Outcome.next (if_pos (bne_iff_ne.mpr other))
  · exact completes_trainingFails rfl (State.delayDone_fails delay wide)
  · exact congrArg Host.Outcome.next (if_pos (bne_iff_ne.mpr other))

end Sys2Proof.Machine
end

section
/-! SUPPORT. Grants, replies, retransmission and the returns of strobes and cancels (R209, R210, R214, R215, R220, R224). -/

namespace Sys2Proof.Machine

/-! ### Counters of a lane -/

/-- A counter of a whole register after it is raised by one. -/
theorem State.get_bump_whole (s : State) (a : Nat) : (s.bump ⟨a, 31, 0⟩).get ⟨a, 31, 0⟩ = min (s.get ⟨a, 31, 0⟩ + 1) 0xFFFFFFFF :=
  s.get_bumpBy_whole a 1

theorem State.bump_work (s : State) {f : Field} {lane base : Nat} (bases : List Nat) (addr : f.addr = base + lane * 0x800)
    (ne : base ≠ 0x4005001C) (named : base ∈ bases) : LinkWork lane (laneWrites lane bases) s (s.bump f) :=
  s.set_work bases _ addr ne named

/-! ### Grants (R214, R215) -/

/-- The grant of a kind for a position, from what is kept of its lane (R210, R214, R215). -/
def Lane.grantFor (l : Lane) (kind pos : Nat) : Grant :=
  ⟨kind, pos, if kind = 0 then 1 else if kind = 1 then 9 else if kind = 2 then 33
    else ((l.mgmt.filter (fun r => r.pos == pos)).getLast?).elim 1 (fun r => 1 + r.responseBlocks)⟩

/-- The lane with a grant sent. -/
def Lane.granted (x : Lane) (g : Grant) : Lane := { x with grants := x.grants ++ [g], out := x.out ++ [.set (grantBlock g)] }

/-- The lane with the lines in flight to a position noted (R215, R226). -/
def Lane.linesNoted (l : Lane) (pos : Nat) : Lane :=
  { l with grantLines := tabPut l.grantLines pos ((l.queue.filter (fun e => natBit e.sent pos && !natBit e.passed pos)).map (fun e => e.tag)) }

section
variable {s t : State} {lane kind pos : Nat}

theorem State.grantLength_eq (s : State) (lane kind pos : Nat) :
    s.grantLength lane kind pos = ((s.lane lane).grantFor kind pos).len := by
  unfold State.grantLength Lane.grantFor
  dsimp only
  cases ((s.lane lane).mgmt.filter (fun r => r.pos == pos)).getLast? <;> rfl

/-- In UP every grant leaves; in CONFIG those of MGMT responses do. -/
theorem State.sendGrant_sends (h : s.laneState lane = 5 ∨ (s.laneState lane = 4 ∧ kind = 3)) :
    s.sendGrant lane kind pos = s.setLane lane ((s.lane lane).granted ((s.lane lane).grantFor kind pos)) := by
  have sends : (s.laneState lane == 5 || (s.laneState lane == 4 && kind == 3)) = true := by
    simpa only [Bool.or_eq_true, Bool.and_eq_true, beq_iff_eq] using h
  unfold State.sendGrant
  dsimp only
  rw [if_pos sends, s.grantLength_eq]
  rfl

theorem State.sendGrant_stays (h : ¬(s.laneState lane = 5 ∨ (s.laneState lane = 4 ∧ kind = 3))) : s.sendGrant lane kind pos = s := by
  have stays : ¬ (s.laneState lane == 5 || (s.laneState lane == 4 && kind == 3)) = true := by
    simpa only [Bool.or_eq_true, Bool.and_eq_true, beq_iff_eq] using h
  unfold State.sendGrant
  dsimp only
  rw [if_neg stays]

theorem State.runs_iff (s : State) (lane pos : Nat) : s.runs lane pos = true ↔
    natBit (s.get (F.LANE_PRES_link lane)) pos = true ∧ natBit (s.get (F.LANE_EXCL_excl lane)) pos = false := by
  rw [State.runs, Bool.and_eq_true, Bool.not_eq_true']
  rfl

/-- The grant has come back: the lane without it, and nothing else. -/
theorem State.grantBack_lane (s : State) (lane kind pos : Nat) : (s.grantBack lane kind pos).lane lane =
    { s.lane lane with grants := (s.lane lane).grants.eraseP (fun g => g.kind == kind && g.pos == pos) } :=
  s.lane_setLane_same lane _

end

section
variable {s : State} {lane : Fin 24} {p : Fin 16}

/-- REPLY_GRANT in UP, for a DATA or WAVE whose answer is still due. -/
theorem exec_replyGrant (up : s.laneState lane = 5) (due : s.grantsOut lane 0 p < ((s.lane lane).txs.filter (fun x => x.pos == p.val && !x.full)).length) :
    exec (.replyGrant lane p) s = .next (s.setLane lane ((s.lane lane).granted ((s.lane lane).grantFor 0 p))) :=
  congrArg Host.Outcome.next ((if_pos due).trans (State.sendGrant_sends (Or.inl up)))

theorem exec_replyGrant_idle (idle : ¬(s.laneState lane = 5 ∨ s.laneState lane = 4) ∨
    ¬ s.grantsOut lane 0 p < ((s.lane lane).txs.filter (fun x => x.pos == p.val && !x.full)).length) :
    exec (.replyGrant lane p) s = .next s := by
  by_cases due : s.grantsOut lane 0 p < ((s.lane lane).txs.filter (fun x => x.pos == p.val && !x.full)).length
  · have off := idle.resolve_right (not_not.mpr due)
    exact congrArg Host.Outcome.next ((if_pos due).trans (State.sendGrant_stays fun h => off (h.imp_right And.left)))
  · exact congrArg Host.Outcome.next (if_neg due)

/-- STAT_GRANT leaves for running tiles of a lane in UP alone. -/
theorem exec_statGrant_idle (idle : ¬(s.laneState lane = 5 ∧ s.runs lane p = true)) : exec (.statGrant lane p) s = .next s :=
  congrArg Host.Outcome.next (if_neg (by rwa [Bool.and_eq_true, decide_eq_true_eq]))

theorem exec_statGrant (up : s.laneState lane = 5) (runs : s.runs lane p = true) :
    let l := (s.lane lane).linesNoted p
    exec (.statGrant lane p) s = .next (s.setLane lane (l.granted (l.grantFor 1 p))) := by
  intro l
  have grants : (s.setLane lane l).sendGrant lane 1 p = s.setLane lane (l.granted (l.grantFor 1 p)) := by
    rw [State.sendGrant_sends (s := s.setLane lane l) (Or.inl up), State.lane_setLane_same, State.setLane_setLane]
  exact congrArg Host.Outcome.next ((if_pos (by rw [Bool.and_eq_true, decide_eq_true_eq]; exact ⟨up, runs⟩)).trans grants)

/-- When an ECHO_GRANT leaves: in UP, for an ended echo window of a classified tile. -/
theorem echoGrant_due {up : Prop} [Decidable up] {classified : Bool} {due : Nat} :
    (decide up && classified && due != 0) = true ↔ up ∧ classified = true ∧ due ≠ 0 := by
  simp only [Bool.and_eq_true, decide_eq_true_eq, bne_iff_ne, and_assoc]

theorem exec_echoGrant_idle (idle : ¬(s.laneState lane = 5 ∧ s.classified (lane * 16 + p) = true ∧ (s.tile (lane * 16 + p)).echoDue ≠ 0)) :
    exec (.echoGrant lane p) s = .next s :=
  congrArg Host.Outcome.next (if_neg fun h => idle (echoGrant_due.mp h))

theorem exec_echoGrant (up : s.laneState lane = 5) (due : s.classified (lane * 16 + p) = true ∧ (s.tile (lane * 16 + p)).echoDue ≠ 0) :
    Completes (.echoGrant lane p) s (fun t => t.regs = s.regs ∧ t.lane lane = (s.lane lane).granted ((s.lane lane).grantFor 2 p) ∧
      (t.tile (lane * 16 + p)).echoDue = (s.tile (lane * 16 + p)).echoDue - 1) := by
  let u := s.setTile (lane * 16 + p) { s.tile (lane * 16 + p) with echoDue := (s.tile (lane * 16 + p)).echoDue - 1 }
  have run : exec (.echoGrant lane p) s = .next (u.sendGrant lane 2 p) :=
    congrArg Host.Outcome.next (if_pos (echoGrant_due.mpr ⟨up, due⟩))
  rw [State.sendGrant_sends (s := u) (Or.inl up)] at run
  refine ⟨_, run, rfl, State.lane_setLane_same _ _ _, ?_⟩
  show (u.tile (lane * 16 + p)).echoDue = _
  rw [State.tile_setTile_same]

/-- MGMT_GRANT leaves for a position with a request. -/
theorem exec_mgmtGrant_idle (idle : ¬ ∃ r ∈ (s.lane lane).mgmt, r.pos = p.val) : exec (.mgmtGrant lane p) s = .next s :=
  congrArg Host.Outcome.next (if_neg (by simpa only [List.any_eq_true, beq_iff_eq] using idle))

theorem exec_mgmtGrant (due : ∃ r ∈ (s.lane lane).mgmt, r.pos = p.val) (runs : s.laneState lane = 4 ∨ s.laneState lane = 5) :
    exec (.mgmtGrant lane p) s = .next (s.setLane lane ((s.lane lane).granted ((s.lane lane).grantFor 3 p))) :=
  congrArg Host.Outcome.next ((if_pos (by simpa only [List.any_eq_true, beq_iff_eq] using due)).trans
    (State.sendGrant_sends (runs.symm.imp_right fun config => ⟨config, rfl⟩)))

end

/-! ### Retransmission (R220, R249) -/

section
variable {s t : State} {lane pos : Nat}

theorem State.dropTx_lane (s : State) (lane : Nat) (x : Tx) :
    (s.dropTx lane x).lane lane = { s.lane lane with txs := (s.lane lane).txs.erase x } := s.lane_setLane_same lane _

/-- Registers that a retransmission may write. -/
def againBases : List Nat := [0x40050204, 0x40050488]

/-- The transom is sent again: it is the newest of those unanswered, has left once more, and is counted. -/
theorem State.retransmit_sends {x : Tx} (left : x.tries < s.get (F.LANE_CTL_retry_max lane)) :
    let t := s.retransmit lane x
    LinkWork lane (laneWrites lane againBases) s t ∧
      t.lane lane = { s.lane lane with txs := { x with tries := x.tries + 1 } :: (s.lane lane).txs.erase x, out := (s.lane lane).out ++ [x.out] } ∧
      t.get (F.LANE_RETX_count lane) = min (s.get (F.LANE_RETX_count lane) + 1) 0xFFFFFFFF := by
  let u := s.dropTx lane x
  let v := u.bump (F.LANE_RETX_count lane)
  let l := v.lane lane
  have kept : l = { s.lane lane with txs := (s.lane lane).txs.erase x } := s.dropTx_lane lane x
  have run : s.retransmit lane x = v.setLane lane { l with txs := { x with tries := x.tries + 1 } :: l.txs, out := l.out ++ [x.out] } := if_pos left
  dsimp only
  rw [run]
  refine ⟨((s.setLane_work lane _ lane _).trans (u.bump_work (base := 0x40050204) againBases rfl (by decide) (by decide))).trans
    (v.setLane_work lane _ lane _), ?_, u.get_bump_whole _⟩
  rw [State.lane_setLane_same, kept]

/-- A bit of a field, written. -/
theorem State.natBit_setBit_field (s : State) {a hi lo i : Nat} (b : Bool) (h1 : lo ≤ hi) (h2 : hi < 32) (h3 : i < hi + 1 - lo) :
    natBit ((s.setBit ⟨a, hi, lo⟩ i b).get ⟨a, hi, lo⟩) i = b := s.setBit_natBit ⟨a, hi, lo⟩ i b h1 h2 h3

theorem State.waveFail_work (s : State) (hl : lane < 24) {bases : List Nat} (named : 0x40050488 ∈ bases) (cause index : Nat) :
    LinkWork lane (laneWrites lane bases) s (s.waveFail lane pos cause index) :=
  (s.set_work (base := 0x40050488) bases _ rfl (by decide) named).trans (State.laneEvent_work _ hl bases _ _)

theorem State.waveFail_lane (s : State) (lane pos cause index n : Nat) : (s.waveFail lane pos cause index).lane n = s.lane n :=
  (State.laneEvent_quiet _ _ _ _).lane n

/-- A failed waveform shows in LANEn_WVSTAT. -/
theorem State.waveFail_bit (s : State) (hl : lane < 24) (hp : pos < 16) (cause index : Nat) :
    natBit ((s.waveFail lane pos cause index).get (F.LANE_WVSTAT_fail lane)) pos = true := by
  have posted := State.laneEvent_quiet (s.setBit (F.LANE_WVSTAT_fail lane) pos true) lane 0x3A0 (cause * 2 ^ 20 + index * 2 ^ 16 + 2 ^ pos)
  have field : (s.waveFail lane pos cause index).get (F.LANE_WVSTAT_fail lane) =
      (s.setBit (F.LANE_WVSTAT_fail lane) pos true).get (F.LANE_WVSTAT_fail lane) :=
    posted.get (F.LANE_WVSTAT_fail lane) (not_postReg_lane (base := 0x40050488) hl (by decide) (by decide))
  rw [field]
  exact s.natBit_setBit_field true (by decide) (by decide) (by omega)

/-- The transom is given up after its last repeat. -/
theorem State.retransmit_ends (hl : lane < 24) {x : Tx} (hx : x.pos < 16) (last : s.get (F.LANE_CTL_retry_max lane) ≤ x.tries) :
    let t := s.retransmit lane x
    LinkWork lane (laneWrites lane againBases) s t ∧ t.lane lane = { s.lane lane with txs := (s.lane lane).txs.erase x } ∧
      (x.wave = true → natBit (t.get (F.LANE_WVSTAT_fail lane)) x.pos = true) := by
  let u := s.dropTx lane x
  have run : s.retransmit lane x = if x.wave then u.waveFail lane x.pos 1 (s.uploadIndex lane) else u := if_neg (Nat.not_lt.mpr last)
  have dropped : LinkWork lane (laneWrites lane againBases) s u := s.setLane_work lane _ lane _
  dsimp only
  rw [run]
  cases x.wave with
  | true =>
    rw [if_pos rfl]
    exact ⟨dropped.trans (u.waveFail_work hl (by decide) _ _), (u.waveFail_lane _ _ _ _ _).trans (s.dropTx_lane lane x),
      fun _ => u.waveFail_bit hl hx _ _⟩
  | false =>
    rw [if_neg Bool.false_ne_true]
    exact ⟨dropped, s.dropTx_lane lane x, fun no => absurd no Bool.false_ne_true⟩

/-- What follows where nothing answered a REPLY grant: the oldest unanswered transom of the position is sent again, or given up (R220). -/
structure SentAgain (lane pos : Nat) (s t : State) : Prop where
  work : LinkWork lane (laneWrites lane againBases) s t
  kept : t.lane lane = { s.lane lane with txs := (t.lane lane).txs, out := (t.lane lane).out }
  sends : ∀ x, s.oldestTx lane pos = some x → x.tries < s.get (F.LANE_CTL_retry_max lane) →
    (t.lane lane).txs = { x with tries := x.tries + 1 } :: (s.lane lane).txs.erase x ∧ (t.lane lane).out = (s.lane lane).out ++ [x.out] ∧
      t.get (F.LANE_RETX_count lane) = min (s.get (F.LANE_RETX_count lane) + 1) 0xFFFFFFFF
  ends : ∀ x, s.oldestTx lane pos = some x → s.get (F.LANE_CTL_retry_max lane) ≤ x.tries →
    (t.lane lane).txs = (s.lane lane).txs.erase x ∧ (x.wave = true → natBit (t.get (F.LANE_WVSTAT_fail lane)) pos = true)

theorem State.noReply_again (s : State) (hl : lane < 24) (hp : pos < 16) : SentAgain lane pos s (s.noReply lane pos) := by
  unfold State.noReply
  split
  · next x oldest =>
    have here : x.pos = pos := by
      have matched := List.find?_some oldest
      rw [Bool.and_eq_true, beq_iff_eq] at matched
      exact matched.1
    by_cases left : x.tries < s.get (F.LANE_CTL_retry_max lane)
    · obtain ⟨work, kept, counted⟩ := State.retransmit_sends left
      refine ⟨work, by rw [kept], fun y hy _ => ?_, fun y hy last => ?_⟩
      · obtain rfl := Option.some.inj (hy.symm.trans oldest)
        rw [kept]
        exact ⟨rfl, rfl, counted⟩
      · obtain rfl := Option.some.inj (hy.symm.trans oldest)
        omega
    · obtain ⟨work, kept, failed⟩ := State.retransmit_ends (s := s) hl (x := x) (by rwa [here]) (Nat.le_of_not_lt left)
      refine ⟨work, by rw [kept], fun y hy some => ?_, fun y hy _ => ?_⟩
      · obtain rfl := Option.some.inj (hy.symm.trans oldest)
        omega
      · obtain rfl := Option.some.inj (hy.symm.trans oldest)
        rw [kept]
        exact ⟨rfl, fun wave => here ▸ failed wave⟩
  · next none =>
    exact ⟨LinkWork.refl lane _ s, rfl, fun x hx => absurd (hx.symm.trans none) nofun, fun x hx => absurd (hx.symm.trans none) nofun⟩

end

/-! ### What a REPLY grant brings back (R209, R215, R220) -/

section
variable {s t u : State} {lane : Fin 24} {p : Fin 16} {c : Instr}

/-- A REPLY grant has come back without an answer, in the words of the statement. -/
def RepliesAgain (c : Instr) (lane : Fin 24) (p : Fin 16) (s : State) : Prop :=
  Completes c s (fun t => (t.lane lane).grants = (s.lane lane).grants.eraseP (fun g => g.kind == 0 && g.pos == p.val) ∧
    (t.lane lane).queue = (s.lane lane).queue) ∧
  ∀ x, (s.lane lane).txs.find? (fun x => x.pos == p.val && !x.full) = some x →
    (x.tries < s.get (F.LANE_CTL_retry_max lane) → Completes c s (fun t => (t.lane lane).txs = { x with tries := x.tries + 1 } :: (s.lane lane).txs.erase x ∧
      (t.lane lane).out = (s.lane lane).out ++ [x.out] ∧ t.get (F.LANE_RETX_count lane) = min (s.get (F.LANE_RETX_count lane) + 1) 0xFFFFFFFF)) ∧
    (s.get (F.LANE_CTL_retry_max lane) ≤ x.tries → Completes c s (fun t => (t.lane lane).txs = (s.lane lane).txs.erase x ∧
      (x.wave = true → natBit (t.get (F.LANE_WVSTAT_fail lane)) p = true)))

/-- A command that takes the grant back, counts at most in a register other than those read, and then has no reply. -/
theorem repliesAgain_of_noReply (run : exec c s = .next (u.noReply lane p)) (back : u.lane lane = (s.grantBack lane 0 p).lane lane)
    (limit : u.get (F.LANE_CTL_retry_max lane) = s.get (F.LANE_CTL_retry_max lane))
    (count : u.get (F.LANE_RETX_count lane) = s.get (F.LANE_RETX_count lane)) : RepliesAgain c lane p s := by
  obtain ⟨-, kept, sends, ends⟩ := u.noReply_again lane.isLt p.isLt
  rw [State.grantBack_lane] at back
  have oldest : u.oldestTx lane p = (s.lane lane).txs.find? (fun x => x.pos == p.val && !x.full) := by rw [State.oldestTx, back]
  rw [oldest, limit, back, count] at sends
  rw [oldest, limit, back] at ends
  rw [back] at kept
  refine ⟨⟨_, run, by rw [kept], by rw [kept]⟩, fun x hx => ⟨fun left => ⟨_, run, sends x hx left⟩, fun last => ⟨_, run, ends x hx last⟩⟩⟩

/-- A counter of the lane raised is no register that a retransmission reads. -/
theorem repliesAgain_of_counted {base : Nat} (other : 0x40050208 ≤ base ∨ base = 0x40050200)
    (run : exec c s = .next (((s.grantBack lane 0 p).bump ⟨base + lane * 0x800, 31, 0⟩).noReply lane p)) : RepliesAgain c lane p s := by
  refine repliesAgain_of_noReply run rfl ?_ ?_
  · exact State.get_set_ne _ _ (lane_reg_ne (a := 0x40050000) (b := base) (by omega))
  · exact State.get_set_ne _ _ (lane_reg_ne (a := 0x40050204) (b := base) (by omega))

/-- The counter after a retransmission. -/
theorem get_counted_noReply {base : Nat} (low : 0x40050208 ≤ base ∨ base = 0x40050200) (high : base < 0x40050400) :
    (((s.grantBack lane 0 p).bump ⟨base + lane * 0x800, 31, 0⟩).noReply lane p).get ⟨base + lane * 0x800, 31, 0⟩ =
      min (s.get ⟨base + lane * 0x800, 31, 0⟩ + 1) 0xFFFFFFFF := by
  have again := ((s.grantBack lane 0 p).bump ⟨base + lane * 0x800, 31, 0⟩).noReply_again lane.isLt p.isLt
  have off : base ∉ againBases := by
    simp only [againBases, List.mem_cons, List.not_mem_nil, or_false]
    omega
  rw [again.work.get _ (not_laneWrites lane.isLt (by omega) (by omega) off)]
  exact State.get_bump_whole _ _

/-- GRANT_UNFILLED without such a grant on the ring. -/
theorem exec_grantUnfilled_none {kind : Fin 4} (none : ∀ g ∈ (s.lane lane).grants, (g.kind == kind.val && g.pos == p.val) = false) :
    exec (.grantUnfilled lane kind p) s = .next s := by
  have empty : s.grantsOut lane kind p = 0 := by
    rw [State.grantsOut, List.length_eq_zero_iff, List.filter_eq_nil_iff]
    exact fun g hg => by rw [none g hg]; exact Bool.false_ne_true
  exact congrArg Host.Outcome.next (if_pos empty)

/-- GRANT_UNFILLED of a grant on the ring: it has come back and is counted; of a REPLY grant the transom is sent again. -/
theorem exec_grantUnfilled {kind : Fin 4} (some : ∃ g ∈ (s.lane lane).grants, (g.kind == kind.val && g.pos == p.val) = true) :
    exec (.grantUnfilled lane kind p) s = .next (let t := (s.grantBack lane kind p).bump (F.LANE_NOFILL_count lane)
      if kind.val = 0 then t.noReply lane p else t) := by
  have out : s.grantsOut lane kind p ≠ 0 := by
    rw [State.grantsOut, ne_eq, List.length_eq_zero_iff, List.filter_eq_nil_iff]
    obtain ⟨g, hg, is⟩ := some
    exact fun no => no g hg is
  exact congrArg Host.Outcome.next (if_neg out)

/-- REPLY_RECEIVE of a block that fails its CRC-8, of none of the known types, or of another type. -/
theorem exec_replyReceive_bad {block : W64} :
    (answerOf block = .badCheck → exec (.replyReceive lane p block) s =
      .next (((s.grantBack lane 0 p).bump (F.LANE_UPERR_count lane)).noReply lane p)) ∧
    (answerOf block = .unknown → exec (.replyReceive lane p block) s =
      .next (((s.grantBack lane 0 p).bump (F.LANE_BLKERR_count lane)).noReply lane p)) ∧
    (answerOf block = .other → exec (.replyReceive lane p block) s = .next ((s.grantBack lane 0 p).noReply lane p)) := by
  refine ⟨fun is => ?_, fun is => ?_, fun is => ?_⟩
  all_goals
    refine congrArg Host.Outcome.next ?_
    unfold State.replyReceive
    rw [is]

/-- REPLY_RECEIVE of a REPLY that answers a DATA transom. -/
theorem exec_replyReceive_data {block : W64} {y : Reply} (reply : answerOf block = .reply y) (here : y.pos = p.val) (data : y.type = 1) {x : Tx}
    (found : (s.lane lane).txs.find? (fun x => x.pos == p.val && !x.wave && x.tag == y.tag && !x.full) = some x) :
    exec (.replyReceive lane p block) s = .next ((s.grantBack lane 0 p).replyTo lane x y.code) := by
  have same : (fun x : Tx => x.pos == p.val && y.pos == p.val && x.wave == (y.type == 2) && (y.type == 2 || y.type == 1) && x.tag == y.tag && !x.full) =
      (fun x : Tx => x.pos == p.val && !x.wave && x.tag == y.tag && !x.full) := by
    funext x
    simp [here, data]
  refine congrArg Host.Outcome.next ?_
  unfold State.replyReceive
  rw [reply]
  dsimp only
  rw [same, State.grantBack_lane]
  dsimp only
  rw [found]

/-- A DATA transom acknowledged, waiting for a strobe, or refused for good (R145, R220). -/
theorem State.replyTo_data (s : State) (lane : Nat) {x : Tx} (wave : x.wave = false) :
    ((s.replyTo lane x 0).regs = s.regs ∧ ((s.replyTo lane x 0).lane lane).txs = (s.lane lane).txs.erase x ∧
      ((s.replyTo lane x 0).lane lane).queue = (s.lane lane).queue.map (fun e =>
        if e.tag == x.tag && natBit e.sent x.pos then { e with acked := natSetBit e.acked x.pos true } else e)) ∧
    ((s.replyTo lane x 2).regs = s.regs ∧ ((s.replyTo lane x 2).lane lane).txs = { x with full := true } :: (s.lane lane).txs.erase x) ∧
    ((s.replyTo lane x 3).regs = s.regs ∧ ((s.replyTo lane x 3).lane lane).txs = (s.lane lane).txs.erase x) := by
  have acked : s.replyTo lane x 0 = (s.dropTx lane x).ackData lane x.pos x.tag := if_neg (by rw [wave]; exact Bool.false_ne_true)
  have refused : s.replyTo lane x 3 = s.dropTx lane x := if_neg (by rw [wave]; exact Bool.false_ne_true)
  rw [acked, refused]
  refine ⟨⟨rfl, ?_, ?_⟩, ⟨rfl, ?_⟩, rfl, by rw [State.dropTx_lane]⟩
  · rw [State.ackData, State.lane_setLane_same, State.dropTx_lane]
  · rw [State.ackData, State.lane_setLane_same, State.dropTx_lane]
  · show (((s.dropTx lane x).setLane lane _).lane lane).txs = _
    rw [State.lane_setLane_same, State.dropTx_lane]

end

/-! ### Returns of strobes and cancels (R224) -/

section
variable {s : State} {lane : Nat}

theorem State.present_of_work {P : Nat → Prop} {s t : State} (work : LinkWork lane P s t) (clear : ¬ P (R.LANE_PRES lane)) :
    t.present lane = s.present lane := work.get (F.LANE_PRES_link lane) clear

/-- The lane's last strobe check failed within 1 ms of a time. -/
def Lane.failedSoon (l : Lane) (now : Nat) : Bool :=
  match l.checkFail with
  | some w => decide (now ≤ w + cyclesPerMs)
  | none => false

theorem Lane.failedSoon_of {l : Lane} {now w : Nat} (before : l.checkFail = some w) (soon : now ≤ w + 390625) : l.failedSoon now = true := by
  unfold Lane.failedSoon
  rw [before]
  exact decide_eq_true soon

/-- A failed strobe check is counted, flagged and noted; the second within 1 ms holds every tile on the lane closed. -/
theorem State.strobeFails_spec (s : State) (hl : lane < 24) (x : StrobeSet) (missing : Bool) :
    let t := s.strobeFails lane x missing
    (t.lane lane).sets = (s.lane lane).sets ∧ t.bit (F.LANE_LSTAT_flags lane) 3 = true ∧ (t.lane lane).checkFail = some s.uptime ∧
      t.get (F.LANE_SCERR_count lane) = min (s.get (F.LANE_SCERR_count lane) + 1) 0xFFFFFFFF ∧
      ∀ w, (s.lane lane).checkFail = some w → s.uptime ≤ w + 390625 → ∀ i < 16, natBit (s.present lane) i = true →
        natBit (t.tile (lane * 16 + i)).faults 2 = true := by
  intro t
  let a := s.bump (F.LANE_SCERR_count lane)
  let b := a.laneFlag lane 3 ((if missing then 2 ^ 31 else 0) + x.tag * 2 ^ 16 + x.mask)
  let u := b.setLane lane { b.lane lane with checkFail := some s.uptime }
  have counted : LinkWork lane (laneWrites lane [0x4005001C, 0x40050208]) s a :=
    s.bump_work (base := 0x40050208) _ rfl (by decide) (by decide)
  have flagged : LinkWork lane (laneWrites lane [0x4005001C]) a b := a.laneFlag_work hl (by decide) (by decide) _
  have same : b.lane lane = s.lane lane := a.laneFlag_lane lane _ _ lane
  have noted : u.lane lane = { s.lane lane with checkFail := some s.uptime } := (b.lane_setLane_same lane _).trans (by rw [same])
  have flag : u.bit (F.LANE_LSTAT_flags lane) 3 = true := a.laneFlag_set hl (by decide) _
  have count : u.get (F.LANE_SCERR_count lane) = min (s.get (F.LANE_SCERR_count lane) + 1) 0xFFFFFFFF :=
    (flagged.get (F.LANE_SCERR_count lane) (not_laneWrites (base := 0x40050208) hl (by decide) (by decide) (by decide))).trans (s.get_bump_whole _)
  have fault := u.laneFault_faultWork hl (u.present lane) .strobeCheck true
  have run : t = if (b.lane lane).failedSoon s.uptime then u.laneFault lane (u.present lane) .strobeCheck true else u := rfl
  rw [same] at run
  have kept : (t.lane lane) = u.lane lane ∧ t.bit (F.LANE_LSTAT_flags lane) 3 = true ∧
      t.get (F.LANE_SCERR_count lane) = u.get (F.LANE_SCERR_count lane) := by
    rw [run]
    split
    · exact ⟨fault.lanes lane, fault.work.flags 3 flag,
        fault.work.get (F.LANE_SCERR_count lane) (not_laneWrites (base := 0x40050208) hl (by decide) (by decide) List.not_mem_nil)⟩
    · exact ⟨rfl, flag, rfl⟩
  obtain ⟨lanes, flag', count'⟩ := kept
  refine ⟨by rw [lanes, noted], flag', by rw [lanes, noted], count'.trans count, fun w before soon i hi here => ?_⟩
  have present : u.present lane = s.present lane := by
    have first := State.present_of_work counted (not_laneWrites (base := 0x40050010) hl (by decide) (by decide) (by decide))
    have second := State.present_of_work flagged (not_laneWrites (base := 0x40050010) hl (by decide) (by decide) (by decide))
    exact second.trans first
  rw [Lane.failedSoon_of before soon, if_pos rfl] at run
  rw [run]
  exact u.laneFault_bit lane hi (by rwa [present]) .strobeCheck true

/-- A CANCEL that leaves writes no register, and is kept in UP until it returns. -/
theorem State.sendSet_sets (s : State) (lane : Nat) (x : SentSet) : (s.sendSet lane x).regs = s.regs ∧
    ((s.sendSet lane x).lane lane).sets = (s.lane lane).sets ++ (if s.laneState lane = 5 then [x] else []) := by
  by_cases up : s.laneState lane = 5
  · unfold State.sendSet
    rw [if_pos (State.laneRuns_of_up up), if_pos up]
    refine ⟨rfl, ?_⟩
    rw [State.lane_setLane_same, if_pos up]
  · rw [if_neg up, List.append_nil]
    unfold State.sendSet
    split
    · refine ⟨rfl, ?_⟩
      rw [State.lane_setLane_same]
    · exact ⟨rfl, rfl⟩

/-- The oldest set has come back as it left. -/
theorem State.setReturned_same {x : SentSet} {rest : List SentSet} (sets : (s.lane lane).sets = x :: rest) (missing : Bool) :
    s.setReturned lane true missing = s.setLane lane { s.lane lane with sets := rest } := by
  unfold State.setReturned
  rw [sets]
  rfl

/-- The oldest set has not come back as it left: a strobe check fails, and a cancel is sent again up to three times. -/
theorem State.setReturned_other (hl : lane < 24) {x : SentSet} {rest : List SentSet} (sets : (s.lane lane).sets = x :: rest) (missing : Bool) :
    let t := s.setReturned lane false missing
    (x.cancelOf = none → (t.lane lane).sets = rest ∧ t.bit (F.LANE_LSTAT_flags lane) 3 = true ∧ (t.lane lane).checkFail = some s.uptime ∧
      t.get (F.LANE_SCERR_count lane) = min (s.get (F.LANE_SCERR_count lane) + 1) 0xFFFFFFFF ∧
      ∀ w, (s.lane lane).checkFail = some w → s.uptime ≤ w + 390625 → ∀ i < 16, natBit (s.present lane) i = true →
        natBit (t.tile (lane * 16 + i)).faults 2 = true) ∧
    ∀ y, x.cancelOf = some y → t.regs = s.regs ∧
      (t.lane lane).sets = rest ++ (if y.2.2 < 3 ∧ s.laneState lane = 5 then [.cancel y.1 y.2.1 (y.2.2 + 1)] else []) := by
  intro t
  let u := s.setLane lane { s.lane lane with sets := rest }
  have left : u.lane lane = { s.lane lane with sets := rest } := s.lane_setLane_same lane _
  cases x with
  | strobe y =>
    have failed := u.strobeFails_spec hl y missing
    rw [left] at failed
    have run : t = u.strobeFails lane y missing := by
      show s.setReturned lane false missing = _
      unfold State.setReturned
      rw [sets]
      rfl
    rw [run]
    exact ⟨fun _ => failed, fun y no => absurd no (by simp [SentSet.cancelOf])⟩
  | cancel m tag tries =>
    refine ⟨fun no => absurd no (by simp [SentSet.cancelOf]), fun y is => ?_⟩
    obtain rfl : (m, tag, tries) = y := Option.some.inj is
    have run : t = if tries < 3 then u.sendSet lane (.cancel m tag (tries + 1)) else u := by
      show s.setReturned lane false missing = _
      unfold State.setReturned
      rw [sets]
      rfl
    rw [run]
    dsimp only
    by_cases again : tries < 3
    · obtain ⟨regs, kept⟩ := u.sendSet_sets lane (.cancel m tag (tries + 1))
      have kept' : (if u.laneState lane = 5 then [SentSet.cancel m tag (tries + 1)] else []) =
          if tries < 3 ∧ s.laneState lane = 5 then [SentSet.cancel m tag (tries + 1)] else [] :=
        if_congr ⟨fun up => ⟨again, up⟩, And.right⟩ rfl rfl
      rw [kept', left] at kept
      rw [if_pos again]
      exact ⟨regs, kept⟩
    · rw [if_neg again, if_neg fun h => again h.1, List.append_nil]
      exact ⟨rfl, by rw [left]⟩

end

end Sys2Proof.Machine
end

section
/-! SUPPORT. Temperatures and their limits, STAT and its silence, and the push of limits (R226, R227, R269 to R271). -/

namespace Sys2Proof.Machine

/-! ### Temperatures (R270, R271) -/

section
variable {s t : State} {lane pos : Nat}

/-- A register of the lane that stands once per position is written by no work that names only registers of the lane itself. -/
theorem not_laneWrites_pos {base step : Nat} {bases : List Nat} (hl : lane < 24) (hp : pos < 16) (low : 0x40050000 ≤ base)
    (high : base + 15 * step < 0x40050800) (aside : ∀ b ∈ bases, b < base ∨ base + 15 * step < b) :
    ¬ laneWrites lane bases (base + lane * 0x800 + pos * step) := by
  have bound : pos * step ≤ 15 * step := Nat.mul_le_mul_right step (by omega)
  refine not_laneWrites_at hl low (by omega) fun named => ?_
  have := aside _ named
  omega

/-- The effective temperature rests on the position's registers. -/
theorem State.effTemp_congr {P : Nat → Prop} (work : LinkWork lane P s t) (temp : ¬ P (R.LANE_TEMP lane pos)) (excl : ¬ P (R.LANE_EXCL lane))
    (stale : ¬ P (R.LANE_SBSTALE lane)) : t.effTemp lane pos = s.effTemp lane pos := by
  rw [State.effTemp, State.effTemp, work.get (F.LANE_TEMP_link lane pos) temp, work.get (F.LANE_TEMP_sb lane pos) temp,
    work.bit (F.LANE_EXCL_mism lane) excl, work.bit (F.LANE_SBSTALE_stale lane) stale]

/-- A temperature at or above a limit, or not below it by the hysteresis since it was; without a temperature it stays as it was (R270). -/
def State.aboveLimit (s : State) (lane pos : Nat) (limit : Int) (was : Bool) : Bool :=
  (s.effTemp lane pos).elim was
    (fun x => decide (limit ≤ x) || (was && !decide (x < limit - (s.get (F.LANE_THYS_hyst lane pos) : Int))))

/-- What LANEn_THOT.hot of a position becomes (R270). -/
def State.hotNext (s : State) (lane pos : Nat) : Bool :=
  natBit (s.tile (lane * 16 + pos)).flags 3 ||
    s.aboveLimit lane pos (s.getInt (F.LANE_TLIM_hard lane pos)) (s.bit (F.LANE_THOT_hot lane) pos)

/-- What LANEn_THOT.warm of a position becomes (R271). -/
def State.warmNext (s : State) (lane pos : Nat) : Bool :=
  natBit (s.tile (lane * 16 + pos)).flags 2 ||
    s.aboveLimit lane pos (s.getInt (F.LANE_TLIM_soft lane pos)) (s.bit (F.LANE_THOT_warm lane) pos)

theorem State.tempCheck_eq (s : State) (lane pos : Nat) : s.tempCheck lane pos =
    (let s1 := (s.setBit (F.LANE_THOT_hot lane) pos (s.hotNext lane pos)).setCond (.tile (lane * 16 + pos)) causeHeadTemp (s.hotNext lane pos)
     let s2 := if s.hotNext lane pos && !natBit (s.latchOf (.tile (lane * 16 + pos))) causeHeadTemp then s1.mgSend lane pos 0 0x26 1 [] .cutTag else s1
     let s3 := s2.setBit (F.LANE_THOT_warm lane) pos (s.warmNext lane pos)
     let s4 := if s.warmNext lane pos && !s.bit (F.LANE_THOT_warm lane) pos then
       s3.drawn.laneEvent lane 0x3C3 (pos * 2 ^ 28 + s3.wholeDegrees (s.effTemp lane pos)) else s3
     s4) := by
  unfold State.tempCheck State.hotNext State.warmNext State.aboveLimit
  cases s.effTemp lane pos <;> rfl

/-- From `s` to `t` the limits of a lane's tiles were checked: its LANEn_THOT may change, and requests may leave. -/
structure LimitWork (lane : Nat) (s t : State) : Prop where
  work : LinkWork lane (laneWrites lane [0x40050580]) s t
  tile : ∀ k, t.tile k = s.tile k
  lane : (t.lane lane).sets = (s.lane lane).sets

theorem LimitWork.refl (lane : Nat) (s : State) : LimitWork lane s s := ⟨LinkWork.refl lane _ s, fun _ => rfl, rfl⟩

theorem LimitWork.trans {u : State} (h : LimitWork lane s t) (k : LimitWork lane t u) : LimitWork lane s u :=
  ⟨h.work.trans k.work, fun n => (k.tile n).trans (h.tile n), k.lane.trans h.lane⟩

theorem not_shutter_thot {k : Nat} (hl : lane < 24) (hk : k < 384) : ¬ (R.LANE_THOT lane = R.SHUT_T k ∨ postReg (R.LANE_THOT lane)) := by
  rintro (shutter | posted)
  · unfold R.LANE_THOT R.SHUT_T at shutter
    omega
  · exact not_postReg_lane (base := 0x40050580) hl (by decide) (by decide) posted

/-- The check of a position's limits sets both bits of LANEn_THOT to what they become. -/
theorem State.tempCheck_spec (s : State) (hl : lane < 24) (hp : pos < 16) :
    LimitWork lane s (s.tempCheck lane pos) ∧
      natBit ((s.tempCheck lane pos).get (F.LANE_THOT_hot lane)) pos = s.hotNext lane pos ∧
      natBit ((s.tempCheck lane pos).get (F.LANE_THOT_warm lane)) pos = s.warmNext lane pos := by
  rw [s.tempCheck_eq]
  generalize s.hotNext lane pos = hot
  generalize s.warmNext lane pos = warm
  extract_lets s1 s2 s3 s4
  let s0 := s.setBit (F.LANE_THOT_hot lane) pos hot
  have bits : LimitWork lane s s0 := ⟨s.set_work (base := 0x40050580) _ _ rfl (by decide) (by decide), fun _ => rfl, rfl⟩
  have closes := s0.setCond_tile (lane * 16 + pos) causeHeadTemp hot
  have shut : LimitWork lane s0 s1 :=
    ⟨s0.setCond_tile_work hl (tile_lt hl hp) _ _ _, closes.tile, by rw [closes.lane]⟩
  have asked : LimitWork lane s1 s2 ∧ s2.regs = s1.regs := by
    unfold s2
    split
    · refine ⟨⟨s1.mgSend_work lane _ lane pos 0 0x26 1 [] .cutTag, fun _ => rfl, ?_⟩, rfl⟩
      rw [State.mgSend, State.lane_setLane_same]
    · exact ⟨LimitWork.refl lane s1, rfl⟩
  have warmed : LimitWork lane s2 s3 := ⟨s2.set_work (base := 0x40050580) _ _ rfl (by decide) (by decide), fun _ => rfl, rfl⟩
  have told : LimitWork lane s3 s4 ∧ s4.rd (R.LANE_THOT lane) = s3.rd (R.LANE_THOT lane) := by
    unfold s4
    split
    · have posted := s3.drawn.laneEvent_quiet lane 0x3C3 (pos * 2 ^ 28 + s3.wholeDegrees (s.effTemp lane pos))
      exact ⟨⟨(s3.drawn_work lane _).trans (s3.drawn.laneEvent_work hl _ _ _), posted.tile, by rw [posted.lane]; rfl⟩,
        posted.rd _ (not_postReg_lane (base := 0x40050580) hl (by decide) (by decide))⟩
    · exact ⟨LimitWork.refl lane s3, rfl⟩
  obtain ⟨last, same⟩ := told
  refine ⟨(((bits.trans shut).trans asked.1).trans warmed).trans last, ?_, ?_⟩
  · have first : natBit (s0.get (F.LANE_THOT_hot lane)) pos = hot := s.natBit_setBit_field hot (by decide) (by decide) (by omega)
    have kept : s1.get (F.LANE_THOT_hot lane) = s0.get (F.LANE_THOT_hot lane) :=
      closes.get (F.LANE_THOT_hot lane) (not_shutter_thot hl (tile_lt hl hp))
    have apart : s3.get (F.LANE_THOT_hot lane) = s2.get (F.LANE_THOT_hot lane) := s2.get_set_beside _ (by decide) (by decide) (by decide)
    have asks : s2.get (F.LANE_THOT_hot lane) = s1.get (F.LANE_THOT_hot lane) := by rw [State.get, State.get, State.rd, State.rd, asked.2]
    have told' : s4.get (F.LANE_THOT_hot lane) = s3.get (F.LANE_THOT_hot lane) := congrArg (bitsOf · 15 0) same
    rw [told', apart, asks, kept, first]
  · have told' : s4.get (F.LANE_THOT_warm lane) = s3.get (F.LANE_THOT_warm lane) := congrArg (bitsOf · 31 16) same
    rw [told']
    exact s2.natBit_setBit_field warm (by decide) (by decide) (by omega)

end

/-! ### STAT (R226, R227) -/

/-- The STAT ends a silence and gives the temperature of the link. -/
def State.statHeard (s : State) (lane pos code : Nat) : State :=
  let k := lane * 16 + pos
  ((s.drawn.setTile k { s.tile k with silent := false }).linkFault k .silence false).set (F.LANE_TEMP_link lane pos) (s.thermistor k code)

/-- The fire count of the STAT is taken over; one that differs is flagged. -/
def State.fireCounted (s : State) (lane pos : Nat) (count : W32) : State :=
  let k := lane * 16 + pos
  if count = (s.tile k).fireCount then s
  else (s.setTile k { s.tile k with fireCount := count }).laneFlag lane 8 (pos * 2 ^ 28 + 2 ^ 24)

/-- Staged lines that are not in flight are cancelled, and each is flagged. -/
def State.strayCancelled (s : State) (lane pos : Nat) (tags : List Nat) : State :=
  tags.foldl (fun t g => (t.sendSet lane (.cancel (2 ^ pos) g 0)).laneFlag lane 8 (pos * 2 ^ 28 + g)) s

/-- The flags of the STAT are taken over; an error newly in them is flagged. -/
def State.statFlagged (s : State) (lane pos new : Nat) : State :=
  let k := lane * 16 + pos
  let old := (s.tile k).flags
  let t := s.setTile k { s.tile k with flags := new }
  if (natBit new 4 && !natBit old 4) || (natBit new 5 && !natBit old 5) then t.laneFlag lane 9 (pos * 2 ^ 28 + new) else t

section
variable {s t : State} {lane pos : Nat}

/-- A valid STAT, step by step (R226). -/
theorem State.statProcess_eq (s : State) (lane pos : Nat) (m : StatMsg) : s.statProcess lane pos m =
    ((((s.statHeard lane pos m.code.toNat).fireCounted lane pos m.count).strayCancelled lane pos
      ((stagedTags m).filter (fun g => !(tabGet [] (s.lane lane).grantLines pos).contains g))).statFlagged lane pos m.flags.toNat).tempCheck lane pos := rfl

/-- The lane's registers that a STAT of a position may write, its limits apart. -/
def statBases (pos : Nat) : List Nat := [0x4005001C, 0x40050080 + pos * 4]

theorem State.setTemp_work (s : State) (lane pos v : Nat) :
    LinkWork lane (laneWrites lane (statBases pos)) s (s.set (F.LANE_TEMP_link lane pos) v) :=
  s.set_work (base := 0x40050080 + pos * 4) _ v (Nat.add_right_comm _ _ _) (by omega) (by simp [statBases])

theorem State.statHeard_spec (s : State) (hl : lane < 24) (hp : pos < 16) (code : Nat) :
    let t := s.statHeard lane pos code
    LinkWork lane (laneWrites lane (statBases pos)) s t ∧
      t.tile (lane * 16 + pos) = { s.tile (lane * 16 + pos) with
        silent := false, faults := natSetBit (s.tile (lane * 16 + pos)).faults 3 false } ∧
      t.lane lane = s.lane lane ∧ ((s.tile (lane * 16 + pos)).therm = [] → t.get (F.LANE_TEMP_link lane pos) = 0x8000) := by
  intro t
  let a := s.drawn.setTile (lane * 16 + pos) { s.tile (lane * 16 + pos) with silent := false }
  let b := a.linkFault (lane * 16 + pos) .silence false
  refine ⟨(((s.drawn_work lane _).trans (s.drawn.setTile_work lane _ _ _)).trans (a.linkFault_work hl (tile_lt hl hp) _ _ _)).trans
    (b.setTemp_work lane pos _), ?_, a.linkFault_lane _ _ _ lane, fun none => ?_⟩
  · show b.tile (lane * 16 + pos) = _
    rw [a.linkFault_tile, if_pos rfl, State.tile_setTile_same]
    rfl
  · have code' : s.thermistor (lane * 16 + pos) code = 0x8000 := by
      rw [State.thermistor, none]
      rfl
    show (b.set (F.LANE_TEMP_link lane pos) (s.thermistor (lane * 16 + pos) code)).get (F.LANE_TEMP_link lane pos) = _
    rw [code']
    exact b.get_set_fits (by decide) (by decide) (by decide)

theorem State.fireCounted_spec (s : State) (hl : lane < 24) (count : W32) :
    let t := s.fireCounted lane pos count
    LinkWork lane (laneWrites lane [0x4005001C]) s t ∧
      t.tile (lane * 16 + pos) = { s.tile (lane * 16 + pos) with fireCount := count } ∧ t.lane lane = s.lane lane ∧
      (count ≠ (s.tile (lane * 16 + pos)).fireCount → t.bit (F.LANE_LSTAT_flags lane) 8 = true) := by
  intro t
  let u := s.setTile (lane * 16 + pos) { s.tile (lane * 16 + pos) with fireCount := count }
  have run : t = if count = (s.tile (lane * 16 + pos)).fireCount then s else u.laneFlag lane 8 (pos * 2 ^ 28 + 2 ^ 24) := rfl
  rw [run]
  split
  · next same =>
    refine ⟨LinkWork.refl lane _ s, ?_, rfl, fun ne => absurd same ne⟩
    rw [same]
  · refine ⟨(s.setTile_work lane _ _ _).trans (State.laneFlag_work _ hl (by decide) (by decide) _), ?_, ?_,
      fun _ => State.laneFlag_set _ hl (by decide) _⟩
    · rw [State.laneFlag_tile, State.tile_setTile_same]
    · exact u.laneFlag_lane _ _ _ _

theorem State.sendSet_eq (s : State) (lane : Nat) (x : SentSet) : s.sendSet lane x = { s with lanes := (s.sendSet lane x).lanes } := by
  unfold State.sendSet
  split
  · rfl
  · rfl

theorem State.sendSet_work (s : State) (lane n : Nat) (P : Nat → Prop) (x : SentSet) : LinkWork n P s (s.sendSet lane x) := by
  rw [s.sendSet_eq]
  exact LinkWork.of_regs rfl rfl rfl

/-- What one of the turns of a fold brings about, and every turn keeps. -/
theorem foldl_of_mem {σ α : Type} {f : σ → α → σ} {before after : σ → Prop} : ∀ (l : List α) (s : σ) {x : α}, x ∈ l → before s →
    (∀ y ∈ l, ∀ t, before t → before (f t y)) → (∀ t, before t → after (f t x)) → (∀ y ∈ l, ∀ t, after t → after (f t y)) →
    after (l.foldl f s)
  | [], _, _, hx, _, _, _, _ => absurd hx List.not_mem_nil
  | y :: l, s, x, hx, ready, waits, does, stays => by
    rw [List.foldl_cons]
    obtain rfl | later := List.mem_cons.mp hx
    · exact List.foldlRecOn (motive := after) l f (does s ready) fun t ht z hz => stays z (List.mem_cons_of_mem x hz) t ht
    · exact foldl_of_mem l (f s y) later (waits y List.mem_cons_self s ready) (fun z hz => waits z (List.mem_cons_of_mem y hz)) does
        fun z hz => stays z (List.mem_cons_of_mem y hz)

theorem State.strayCancelled_spec (s : State) (hl : lane < 24) (tags : List Nat) :
    let t := s.strayCancelled lane pos tags
    LinkWork lane (laneWrites lane [0x4005001C]) s t ∧ t.tile (lane * 16 + pos) = s.tile (lane * 16 + pos) ∧
      (s.laneState lane = 5 → ∀ g ∈ tags, .cancel (2 ^ pos) g 0 ∈ (t.lane lane).sets) := by
  have turn (t : State) (g : Nat) : LinkWork lane (laneWrites lane [0x4005001C]) t
      ((t.sendSet lane (.cancel (2 ^ pos) g 0)).laneFlag lane 8 (pos * 2 ^ 28 + g)) :=
    (t.sendSet_work lane lane _ _).trans (State.laneFlag_work _ hl (by decide) (by decide) _)
  refine ⟨LinkWork.foldl tags s fun g _ t => turn t g, ?_, fun up g hg => ?_⟩
  · refine List.foldlRecOn (motive := fun t : State => t.tile (lane * 16 + pos) = s.tile (lane * 16 + pos)) tags _ rfl fun t ht g _ => ?_
    rw [State.laneFlag_tile, State.sendSet_eq]
    exact ht
  · refine foldl_of_mem (before := fun t : State => t.laneState lane = 5)
      (after := fun t : State => .cancel (2 ^ pos) g 0 ∈ (t.lane lane).sets) tags s hg up (fun h _ t up => ?_) (fun t up => ?_) (fun h _ t held => ?_)
    · exact ((turn t h).get (F.LANE_STATE_state lane) (not_laneWrites hl (by decide) (by decide) (by decide))).trans up
    · rw [State.laneFlag_lane, (t.sendSet_sets lane _).2, if_pos up]
      exact List.mem_append_right _ List.mem_cons_self
    · rw [State.laneFlag_lane, (t.sendSet_sets lane _).2]
      exact List.mem_append_left _ held

theorem State.statFlagged_spec (s : State) (hl : lane < 24) (new : Nat) :
    let t := s.statFlagged lane pos new
    let old := (s.tile (lane * 16 + pos)).flags
    LinkWork lane (laneWrites lane [0x4005001C]) s t ∧ t.tile (lane * 16 + pos) = { s.tile (lane * 16 + pos) with flags := new } ∧
      t.lane lane = s.lane lane ∧
      (natBit new 4 = true ∧ natBit old 4 = false ∨ natBit new 5 = true ∧ natBit old 5 = false → t.bit (F.LANE_LSTAT_flags lane) 9 = true) := by
  intro t old
  let u := s.setTile (lane * 16 + pos) { s.tile (lane * 16 + pos) with flags := new }
  have stored : LinkWork lane (laneWrites lane [0x4005001C]) s u := s.setTile_work lane _ _ _
  have run : t = if (natBit new 4 && !natBit old 4) || (natBit new 5 && !natBit old 5) then u.laneFlag lane 9 (pos * 2 ^ 28 + new) else u := rfl
  rw [run]
  split
  · refine ⟨stored.trans (u.laneFlag_work hl (by decide) (by decide) _), ?_, u.laneFlag_lane _ _ _ _,
      fun _ => u.laneFlag_set hl (by decide) _⟩
    rw [State.laneFlag_tile, State.tile_setTile_same]
  · next quiet =>
    refine ⟨stored, s.tile_setTile_same _ _, rfl, fun rises => absurd ?_ quiet⟩
    simpa only [Bool.or_eq_true, Bool.and_eq_true, Bool.not_eq_true'] using rises

/-- The tags of staged lines as the statement reads them. -/
theorem mem_stagedTags {m : StatMsg} {i : Nat} (hi : i < min 4 m.staged.toNat) : m.tags.toNat / 256 ^ i % 256 ∈ stagedTags m := by
  refine List.mem_map.mpr ⟨i, List.mem_range.mpr hi, ?_⟩
  have width : 8 * i + 7 + 1 - 8 * i = 8 := by omega
  rw [bitsOf, width, Nat.pow_mul]
  rfl

/-- A valid STAT of a position, taken over. -/
theorem State.statProcess_spec (s : State) (hl : lane < 24) (hp : pos < 16) (m : StatMsg) :
    let t := s.statProcess lane pos m
    let k := lane * 16 + pos
    (t.tile k).silent = false ∧ natBit (t.tile k).faults 3 = false ∧ (t.tile k).flags = m.flags.toNat ∧ (t.tile k).fireCount = m.count ∧
      ((s.tile k).therm = [] → t.get (F.LANE_TEMP_link lane pos) = 0x8000) ∧
      (m.count ≠ (s.tile k).fireCount → t.bit (F.LANE_LSTAT_flags lane) 8 = true) ∧
      (natBit m.flags.toNat 4 = true ∧ natBit (s.tile k).flags 4 = false ∨ natBit m.flags.toNat 5 = true ∧ natBit (s.tile k).flags 5 = false →
        t.bit (F.LANE_LSTAT_flags lane) 9 = true) ∧
      natBit (t.get (F.LANE_THOT_hot lane)) pos = (natBit m.flags.toNat 3 || (t.effTemp lane pos).elim (s.bit (F.LANE_THOT_hot lane) pos)
        (fun x => decide (s.getInt (F.LANE_TLIM_hard lane pos) ≤ x) || (s.bit (F.LANE_THOT_hot lane) pos &&
          !decide (x < s.getInt (F.LANE_TLIM_hard lane pos) - (s.get (F.LANE_THYS_hyst lane pos) : Int))))) ∧
      natBit (t.get (F.LANE_THOT_warm lane)) pos = (natBit m.flags.toNat 2 || (t.effTemp lane pos).elim (s.bit (F.LANE_THOT_warm lane) pos)
        (fun x => decide (s.getInt (F.LANE_TLIM_soft lane pos) ≤ x) || (s.bit (F.LANE_THOT_warm lane) pos &&
          !decide (x < s.getInt (F.LANE_TLIM_soft lane pos) - (s.get (F.LANE_THYS_hyst lane pos) : Int))))) ∧
      (s.laneState lane = 5 → ∀ i < min 4 m.staged.toNat, m.tags.toNat / 256 ^ i % 256 ∉ tabGet [] (s.lane lane).grantLines pos →
        .cancel (2 ^ pos) (m.tags.toNat / 256 ^ i % 256) 0 ∈ (t.lane lane).sets) := by
  intro t
  dsimp only
  have run : t = _ := s.statProcess_eq lane pos m
  obtain ⟨workA, tileA, laneA, tempA⟩ := s.statHeard_spec hl hp m.code.toNat
  generalize s.statHeard lane pos m.code.toNat = a at *
  obtain ⟨workB, tileB, laneB, flagB⟩ := a.fireCounted_spec (pos := pos) hl m.count
  generalize a.fireCounted lane pos m.count = b at *
  obtain ⟨workC, tileC, setsC⟩ := b.strayCancelled_spec (pos := pos) hl
    ((stagedTags m).filter (fun g => !(tabGet [] (s.lane lane).grantLines pos).contains g))
  generalize b.strayCancelled lane pos _ = c at *
  obtain ⟨workD, tileD, laneD, flagD⟩ := c.statFlagged_spec (pos := pos) hl m.flags.toNat
  generalize c.statFlagged lane pos m.flags.toNat = d at *
  obtain ⟨limits, hot, warm⟩ := d.tempCheck_spec hl hp
  have wider {x y : State} (work : LinkWork lane (laneWrites lane [0x4005001C]) x y) : LinkWork lane (laneWrites lane (statBases pos)) x y :=
    work.mono (laneWrites.mono (by simp [statBases]))
  have workAB := workA.trans (wider workB)
  have workBD := (workB.trans workC).trans workD
  have workAD : LinkWork lane (laneWrites lane (statBases pos)) s d := workA.trans (wider workBD)
  have laneReg {base : Nat} (low : 0x40050000 ≤ base) (high : base < 0x40050800) (lstat : base ≠ 0x4005001C)
      (temp : base < 0x40050080 ∨ 0x400500C0 ≤ base) : ¬ laneWrites lane (statBases pos) (base + lane * 0x800) := by
    refine not_laneWrites hl low high ?_
    simp only [statBases, List.mem_cons, List.not_mem_nil, or_false]
    omega
  have posReg {base : Nat} (low : 0x40050500 ≤ base) (high : base < 0x40050508) :
      ¬ laneWrites lane (statBases pos) (base + lane * 0x800 + pos * 8) := by
    refine not_laneWrites_at hl (by omega) (by omega) ?_
    simp only [statBases, List.mem_cons, List.not_mem_nil, or_false]
    omega
  have tempReg : ¬ laneWrites lane [0x40050580] (R.LANE_TEMP lane pos) :=
    not_laneWrites_pos (base := 0x40050080) (step := 4) hl hp (by decide) (by decide) (by decide)
  have tile : t.tile (lane * 16 + pos) = { s.tile (lane * 16 + pos) with
      silent := false, faults := natSetBit (s.tile (lane * 16 + pos)).faults 3 false, fireCount := m.count, flags := m.flags.toNat } := by
    rw [run, limits.tile, tileD, tileC, tileB, tileA]
  have count : (a.tile (lane * 16 + pos)).fireCount = (s.tile (lane * 16 + pos)).fireCount := by rw [tileA]
  have flags : (c.tile (lane * 16 + pos)).flags = (s.tile (lane * 16 + pos)).flags := by rw [tileC, tileB, tileA]
  have effective : t.effTemp lane pos = d.effTemp lane pos := by
    rw [run]
    exact State.effTemp_congr limits.work tempReg (not_laneWrites (base := 0x40050014) hl (by decide) (by decide) (by decide))
      (not_laneWrites (base := 0x40050028) hl (by decide) (by decide) (by decide))
  have thotReg : ¬ laneWrites lane (statBases pos) (R.LANE_THOT lane) := laneReg (by decide) (by decide) (by decide) (by decide)
  have tlimReg : ¬ laneWrites lane (statBases pos) (R.LANE_TLIM lane pos) := posReg (by decide) (by decide)
  have thysReg : ¬ laneWrites lane (statBases pos) (R.LANE_THYS lane pos) := posReg (by decide) (by decide)
  have stat : (d.tile (lane * 16 + pos)).flags = m.flags.toNat := by rw [tileD]
  have limit (f : Field) (clear : ¬ laneWrites lane (statBases pos) f.addr) : d.getInt f = s.getInt f := by
    rw [State.getInt, State.getInt, workAD.get f clear]
  refine ⟨by rw [tile], ?_, by rw [tile], by rw [tile], fun none => ?_, fun ne => ?_, fun rises => ?_, ?_, ?_, fun up i hi stray => ?_⟩
  · rw [tile, natBit_setBit, if_pos rfl]
  · have later : t.get (F.LANE_TEMP_link lane pos) = d.get (F.LANE_TEMP_link lane pos) := by
      rw [run]
      exact limits.work.get _ tempReg
    rw [later, workBD.get _ (not_laneWrites_pos (base := 0x40050080) (step := 4) hl hp (by decide) (by decide) (by decide)), tempA none]
  · rw [run]
    exact limits.work.flags 8 (workD.flags 8 (workC.flags 8 (flagB (by rwa [count]))))
  · rw [run]
    exact limits.work.flags 9 (flagD (by rwa [flags]))
  · rw [effective, run, hot, State.hotNext, State.aboveLimit, stat, limit _ tlimReg, workAD.bit _ thotReg, workAD.get _ thysReg]
  · rw [effective, run, warm, State.warmNext, State.aboveLimit, stat, limit _ tlimReg, workAD.bit _ thotReg, workAD.get _ thysReg]
  · rw [run, limits.lane, laneD]
    refine setsC ((workAB.get (F.LANE_STATE_state lane) (laneReg (by decide) (by decide) (by decide) (by decide))).trans up) _ ?_
    exact List.mem_filter.mpr ⟨mem_stagedTags hi, by simpa using stray⟩

end

end Sys2Proof.Machine
end

section
/-! SUPPORT. The silence of a tile and the push of limits (R227, R269, R270), and the statement on the traffic of a link. -/

namespace Sys2Proof.Machine

section
variable {s : State} {lane : Fin 24} {p : Fin 16}

/-! ### STAT received, or missing (R212, R226, R227) -/

/-- What is no sound STAT is discarded and counted; its grant has come back. -/
theorem exec_statReceive_bad {blocks : List LinkBlock} (bad : statOf blocks = none) : Completes (.statReceive lane p blocks) s (fun t =>
    (t.lane lane).grants = (s.lane lane).grants.eraseP (fun g => g.kind == 1 && g.pos == p.val) ∧
      t.get (F.LANE_UPERR_count lane) = min (s.get (F.LANE_UPERR_count lane) + 1) 0xFFFFFFFF) := by
  have run : s.statReceive lane p blocks = (s.grantBack lane 1 p).bump (F.LANE_UPERR_count lane) := by
    unfold State.statReceive
    rw [bad]
  refine ⟨_, congrArg Host.Outcome.next run, ?_, State.get_bump_whole _ _⟩
  show ((s.grantBack lane 1 p).lane lane).grants = _
  rw [State.grantBack_lane]

/-- A sound STAT is that of its sender, whatever position was granted. -/
theorem exec_statReceive {granted : Fin 16} {blocks : List LinkBlock} {pos : Nat} {m : StatMsg} (sound : statOf blocks = some (pos, m)) :
    exec (.statReceive lane granted blocks) s = .next ((s.grantBack lane 1 granted).statProcess lane pos m) := by
  refine congrArg Host.Outcome.next ?_
  unfold State.statReceive
  rw [sound]

theorem exec_statTimeout_idle (idle : ¬(s.laneState lane = 5 ∧ s.runs lane p = true) ∨ (s.tile (lane * 16 + p)).silent = true) :
    exec (.statTimeout lane p) s = .next s := by
  refine congrArg Host.Outcome.next (if_pos ?_)
  simp only [Bool.or_eq_true, bne_iff_ne, Bool.not_eq_true']
  refine idle.imp_left fun stopped => ?_
  rwa [not_and_or, Bool.not_eq_true] at stopped

/-- No STAT of a running tile: it is silent, held closed, flagged and counted, and the link gives no temperature (R227). -/
theorem exec_statTimeout (up : s.laneState lane = 5) (runs : s.runs lane p = true) (heard : (s.tile (lane * 16 + p)).silent = false) :
    Completes (.statTimeout lane p) s (fun t => (t.tile (lane * 16 + p)).silent = true ∧ natBit (t.tile (lane * 16 + p)).faults 3 = true ∧
      t.bit (F.LANE_LSTAT_flags lane) 4 = true ∧ t.get (F.LANE_STATTO_count lane) = min (s.get (F.LANE_STATTO_count lane) + 1) 0xFFFFFFFF ∧
      t.get (F.LANE_TEMP_link lane p) = 0x8000) := by
  have hl := lane.isLt
  have hp := p.isLt
  let a := s.setTile (lane * 16 + p) { s.tile (lane * 16 + p) with silent := true }
  let b := a.bump (F.LANE_STATTO_count lane)
  let c := b.laneFlag lane 4 (p * 2 ^ 28)
  let d := c.linkFault (lane * 16 + p) .silence true
  let t := d.set (F.LANE_TEMP_link lane p) 0x8000
  have run : exec (.statTimeout lane p) s = .next t := by
    refine congrArg Host.Outcome.next (if_neg ?_)
    simp [up, runs, heard]
  have later : LinkWork lane (laneWrites lane (statBases p)) c t :=
    (c.linkFault_work hl (tile_lt hl hp) _ .silence true).trans (d.setTemp_work lane p 0x8000)
  have flagged : LinkWork lane (laneWrites lane [0x4005001C]) b c := b.laneFlag_work hl (by decide) (by decide) _
  have tile : t.tile (lane * 16 + p) =
      { s.tile (lane * 16 + p) with silent := true, faults := natSetBit (s.tile (lane * 16 + p)).faults 3 true } := by
    show d.tile (lane * 16 + p) = _
    rw [c.linkFault_tile, if_pos rfl, b.laneFlag_tile]
    show { a.tile (lane * 16 + p) with faults := natSetBit (a.tile (lane * 16 + p)).faults 3 true } = _
    rw [State.tile_setTile_same]
  have apart : ¬ laneWrites lane (statBases p) (R.LANE_STATTO lane) := by
    refine not_laneWrites (base := 0x40050214) hl (by decide) (by decide) ?_
    simp only [statBases, List.mem_cons, List.not_mem_nil, or_false]
    omega
  refine ⟨t, run, by rw [tile], ?_, later.flags 4 (b.laneFlag_set hl (by decide) _), ?_, d.get_set_fits (by decide) (by decide) (by decide)⟩
  · rw [tile, natBit_setBit, if_pos rfl]
  · rw [later.get (F.LANE_STATTO_count lane) apart,
      flagged.get (F.LANE_STATTO_count lane) (not_laneWrites (base := 0x40050214) hl (by decide) (by decide) (by decide))]
    exact a.get_bump_whole _

/-! ### The push of limits (R269, R270) -/

theorem exec_tlimPush (due : natBit (s.lane lane).limitsDue p = true) : Completes (.tlimPush lane p) s (fun t => t.regs = s.regs ∧
    natBit (t.lane lane).limitsDue p = false ∧ (s.laneState lane = 5 → ∃ r ∈ (t.lane lane).mgmt, r.pos = p ∧ r.op = 1 ∧ r.addr = 0x24 ∧
      r.data = [s.rd (R.LANE_TLIM lane p), s.rd (R.LANE_THYS lane p)])) := by
  let u := s.setLane lane { s.lane lane with limitsDue := natSetBit (s.lane lane).limitsDue p false }
  have run : exec (.tlimPush lane p) s = .next (if u.laneRuns lane then
      u.mgWrite lane p 0x24 [u.rd (R.LANE_TLIM lane p), u.rd (R.LANE_THYS lane p)] .limits else u) :=
    congrArg Host.Outcome.next (if_pos due)
  have cleared : natBit (u.lane lane).limitsDue p = false := by
    rw [State.lane_setLane_same, natBit_setBit, if_pos rfl]
  refine ⟨_, run, ?_⟩
  split
  · refine ⟨rfl, ?_, fun up => ?_⟩
    · rw [State.mgWrite, State.mgSend, State.lane_setLane_same]
      exact cleared
    · have kept : u.laneState lane ≠ 7 := by
        rw [show u.laneState lane = 5 from up]
        decide
      exact ⟨_, State.mgSend_waits (s := u) (Or.inl kept) p 0x24 _ _ .limits, rfl, rfl, rfl, rfl⟩
  · next stopped =>
    exact ⟨rfl, cleared, fun up => absurd (State.laneRuns_of_up (s := u) up) stopped⟩

end

/-! ### The statement -/

/-- Settles O51: grants by the state in which they leave, a REPLY grant without an answer by what is sent again, and returned strobes, STAT
and limits each by what they leave of the lane, its tile and its registers. -/
theorem linkTrafficResults : Obligations.LinkTrafficResults := by
  unfold Obligations.LinkTrafficResults
  intro s lane p l k st runs flag mine back sent
  have running : s.runs lane p = true ↔ runs := s.runs_iff lane p
  refine ⟨⟨fun ⟨up, due⟩ => exec_replyGrant up due, exec_replyGrant_idle⟩, fun idle => exec_statGrant_idle (by rwa [running]),
    fun up here => exec_statGrant up (running.mpr here), ⟨exec_echoGrant_idle, exec_echoGrant⟩, ⟨exec_mgmtGrant_idle, exec_mgmtGrant⟩,
    fun kind => ⟨exec_grantUnfilled_none, fun some reply => ?_⟩, ⟨?_, fun some => ?_, fun block => ?_⟩,
    fun block y reply here data x found => ?_, fun none => ?_, fun x rest sets => ?_, fun blocks => exec_statReceive_bad,
    fun granted blocks m sound => ⟨_, exec_statReceive sound, ?_⟩, fun idle => exec_statTimeout_idle (by rwa [running]),
    fun up here => exec_statTimeout up (running.mpr here), fun idle => ?_, exec_tlimPush⟩
  · refine ⟨_, exec_grantUnfilled some, ?_⟩
    dsimp only
    rw [if_neg reply]
    refine ⟨?_, State.get_bump_whole _ _⟩
    show ((s.grantBack lane kind p).lane lane).grants = _
    rw [State.grantBack_lane]
  · exact repliesAgain_of_noReply rfl rfl rfl rfl
  · exact repliesAgain_of_counted (base := 0x40050210) (by decide) (exec_grantUnfilled some)
  · obtain ⟨badCheck, unknown, other⟩ := exec_replyReceive_bad (s := s) (lane := lane) (p := p) (block := block)
    refine ⟨fun is => ?_, fun is => ⟨_, badCheck is, get_counted_noReply (base := 0x4005020C) (by decide) (by decide)⟩,
      fun is => ⟨_, unknown is, get_counted_noReply (base := 0x40050200) (by decide) (by decide)⟩⟩
    rcases is with is | is | is
    · exact repliesAgain_of_counted (base := 0x4005020C) (by decide) (badCheck is)
    · exact repliesAgain_of_counted (base := 0x40050200) (by decide) (unknown is)
    · exact repliesAgain_of_noReply (other is) rfl rfl rfl
  · have run := exec_replyReceive_data reply here data found
    have wave : x.wave = false := by
      have matched := List.find?_some found
      simp only [Bool.and_eq_true, Bool.not_eq_true'] at matched
      exact matched.1.1.2
    obtain ⟨acked, full, refused⟩ := (s.grantBack lane 0 p).replyTo_data lane wave
    rw [State.grantBack_lane] at acked full refused
    refine ⟨fun code => ?_, fun code => ?_, fun code => ?_⟩
    all_goals rw [code] at run
    · exact ⟨_, run, acked⟩
    · exact ⟨_, run, full⟩
    · exact ⟨_, run, refused⟩
  · have nothing (same missing : Bool) : s.setReturned lane same missing = s := by
      unfold State.setReturned
      rw [show (s.lane lane).sets = [] from none]
    exact ⟨congrArg Host.Outcome.next (nothing _ _), congrArg Host.Outcome.next (nothing _ _), congrArg Host.Outcome.next (nothing _ _)⟩
  · refine ⟨congrArg Host.Outcome.next (State.setReturned_same sets false), fun c hc => ?_⟩
    simp only [List.mem_cons, List.not_mem_nil, or_false] at hc
    rcases hc with rfl | rfl
    · obtain ⟨strobe, cancel⟩ := State.setReturned_other lane.isLt sets false
      exact ⟨fun is => ⟨_, rfl, strobe is⟩, fun y is => ⟨_, rfl, cancel y is⟩⟩
    · obtain ⟨strobe, cancel⟩ := State.setReturned_other lane.isLt sets true
      exact ⟨fun is => ⟨_, rfl, strobe is⟩, fun y is => ⟨_, rfl, cancel y is⟩⟩
  · have taken := (s.grantBack lane 1 granted).statProcess_spec lane.isLt p.isLt m
    rw [State.grantBack_lane] at taken
    exact taken
  · exact congrArg Host.Outcome.next (if_neg (by rw [show natBit (s.lane lane).limitsDue p = false from idle]; exact Bool.false_ne_true))

end Sys2Proof.Machine
end

section
/-! SUPPORT. Writes of registers by their field rules, and MGMT requests, responses and repeats of firmware (R10, R229, R236). -/

namespace Sys2Proof.Machine

/-! ### Writes by the field rules (R10) -/

section
variable {a m c hi lo : Nat}

/-- A register whose card has RW bits `m`, W1C bits `c` and no W1S bits, written by the field rules. -/
theorem State.plainWrite_word (card : (cardAt a).map (fun c => (c.1.rw, c.1.w1c, c.1.w1s)) = some (m, c, 0)) (s : State) (v : W32) :
    s.plainWrite a v = s.wr a (((s.rd a &&& ~~~w32 m) ||| (v &&& w32 m)) &&& ~~~(v &&& w32 c)) := by
  rw [State.plainWrite]
  split
  · next d i j found =>
    rw [found] at card
    simp only [Option.map_some, Option.some.injEq, Prod.mk.injEq] at card
    obtain ⟨rw_, w1c, w1s⟩ := card
    rw [Card.written, rw_, w1c, w1s, show w32 0 = 0#32 from rfl, BitVec.and_zero, BitVec.or_zero]
  · next absent =>
    rw [absent] at card
    cases card

/-- The bits of a mask in a field that it passes whole, and in one that it blocks. -/
theorem bit_of_full {w : W32} (full : bitsOf w hi lo = 2 ^ (hi + 1 - lo) - 1) {k : Nat} (hk : k < hi + 1 - lo) : w.toNat.testBit (k + lo) = true := by
  have bit := congrArg (·.testBit k) full
  simpa only [bitsOf_testBit, Nat.testBit_two_pow_sub_one, hk, decide_true, Bool.true_and] using bit

theorem bit_of_empty {w : W32} (empty : bitsOf w hi lo = 0) {k : Nat} (hk : k < hi + 1 - lo) : w.toNat.testBit (k + lo) = false := by
  have bit := congrArg (·.testBit k) empty
  simpa only [bitsOf_testBit, Nat.zero_testBit, hk, decide_true, Bool.true_and] using bit

/-- Each bit of such a register after the write: within the word, as written where RW, and clear where a 1 is written to W1C. -/
theorem written_testBit (old v : W32) (m c : W32) {k : Nat} (hk : k < 32) :
    (((old &&& ~~~m) ||| (v &&& m)) &&& ~~~(v &&& c)).toNat.testBit k =
      (((old.toNat.testBit k && !m.toNat.testBit k) || (v.toNat.testBit k && m.toNat.testBit k)) && !(v.toNat.testBit k && c.toNat.testBit k)) := by
  simp only [BitVec.testBit_toNat, BitVec.getLsbD_and, BitVec.getLsbD_or, BitVec.getLsbD_not, hk, decide_true, Bool.true_and]

/-- A field of RW bits holds what is written. -/
theorem State.get_plainWrite_stored (card : (cardAt a).map (fun c => (c.1.rw, c.1.w1c, c.1.w1s)) = some (m, c, 0)) (s : State) (v : W32)
    (h : hi < 32) (full : bitsOf (w32 m) hi lo = 2 ^ (hi + 1 - lo) - 1) (plain : bitsOf (w32 c) hi lo = 0) :
    (s.plainWrite a v).get ⟨a, hi, lo⟩ = bitsOf v hi lo := by
  rw [State.plainWrite_word card, State.get, State.rd_wr_same]
  refine Nat.eq_of_testBit_eq fun k => ?_
  rw [bitsOf_testBit, bitsOf_testBit]
  by_cases hk : k < hi + 1 - lo
  · rw [written_testBit _ _ _ _ (show k + lo < 32 by omega), bit_of_full full hk, bit_of_empty plain hk]
    simp
  · simp only [hk, decide_false, Bool.false_and]

/-- A field that the write does not reach. -/
theorem State.get_plainWrite_kept (card : (cardAt a).map (fun c => (c.1.rw, c.1.w1c, c.1.w1s)) = some (m, c, 0)) (s : State) (v : W32)
    (h : hi < 32) (readOnly : bitsOf (w32 m) hi lo = 0) (plain : bitsOf (w32 c) hi lo = 0) :
    (s.plainWrite a v).get ⟨a, hi, lo⟩ = s.get ⟨a, hi, lo⟩ := by
  rw [State.plainWrite_word card, State.get, State.get, State.rd_wr_same]
  refine Nat.eq_of_testBit_eq fun k => ?_
  rw [bitsOf_testBit, bitsOf_testBit]
  by_cases hk : k < hi + 1 - lo
  · rw [written_testBit _ _ _ _ (show k + lo < 32 by omega), bit_of_empty readOnly hk, bit_of_empty plain hk]
    simp
  · simp only [hk, decide_false, Bool.false_and]

theorem State.plainWrite_lanes (s : State) (a : Nat) (v : W32) : (s.plainWrite a v).lanes = s.lanes := by
  unfold State.plainWrite
  split <;> rfl

theorem State.plainWrite_lane (s : State) (a : Nat) (v : W32) (n : Nat) : (s.plainWrite a v).lane n = s.lane n := by
  rw [State.lane, s.plainWrite_lanes]
  rfl

theorem State.plainWrite_work (s : State) {lane base : Nat} (bases : List Nat) (v : W32) (ne : base ≠ 0x4005001C) (named : base ∈ bases) :
    LinkWork lane (laneWrites lane bases) s (s.plainWrite (base + lane * 0x800) v) := by
  unfold State.plainWrite
  split
  · exact s.wr_work bases _ ne named
  · exact LinkWork.refl lane _ s

theorem State.flag_of_one {s : State} {f : Field} (h : s.get f = 1) : s.flag f = true := by
  rw [State.flag, h]
  rfl

theorem State.flag_of_zero {s : State} {f : Field} (h : s.get f = 0) : s.flag f = false := by
  rw [State.flag, h]
  rfl

theorem State.get_of_flag_off {s : State} {f : Field} (h : s.flag f = false) : s.get f = 0 := by
  simpa only [State.flag, bne_eq_false_iff_eq] using h

theorem State.flag_congr {s t : State} {f : Field} (h : t.get f = s.get f) : t.flag f = s.flag f := by rw [State.flag, State.flag, h]

end

/-! ### MGMT requests as they leave (R229, R236) -/

section
variable {s : State} {lane : Nat} {r : MgReq}

/-- What of a request leaves in each state. -/
theorem State.mgOut_eq (s : State) (lane : Nat) (r : MgReq) : s.mgOut lane r =
    if s.laneState lane = 7 ∧ r.op = 1 then [r.out, r.out]
    else if s.laneState lane = 4 ∨ s.laneState lane = 5 ∨ s.laneState lane = 7 then [r.out] else [] := by
  have runs : (s.laneRuns lane || s.laneState lane == 4) = true ↔ s.laneState lane = 4 ∨ s.laneState lane = 5 ∨ s.laneState lane = 7 := by
    simp only [State.laneRuns, Bool.or_eq_true, beq_iff_eq]
    exact or_comm
  have twice : (decide (s.laneState lane = 7) && r.op == 1) = true ↔ s.laneState lane = 7 ∧ r.op = 1 := by
    simp only [Bool.and_eq_true, decide_eq_true_eq, beq_iff_eq]
  unfold State.mgOut
  exact if_congr twice rfl (if_congr runs rfl rfl)

theorem State.mgSend_out (s : State) (lane pos op addr count : Nat) (data : List W32) (why : MgWhy) :
    ((s.mgSend lane pos op addr count data why).lane lane).out =
      (s.lane lane).out ++ s.mgOut lane ⟨pos, (s.lane lane).mgSeq, op, addr, count, data, why, 0⟩ := by
  rw [State.mgSend, State.lane_setLane_same]

end

/-! ### Writes of LANEn_MGCMD (R11, R229, R236) -/

/-- The card of LANEn_MGCMD: op, addr and pos are stored, busy and status belong to the device. -/
theorem cardAt_mgcmd : ∀ n : Fin 24, (cardAt (R.LANE_MGCMD n)).map (fun c => (c.1.rw, c.1.w1c, c.1.w1s)) = some (0xF3FFFF, 0, 0) := by decide

section
variable {s : State} {lane : Fin 24} {v : W32}

/-- The request that a go of LANEn_MGCMD sends. -/
def State.firmwareRequest (s : State) (lane : Nat) (v : W32) : MgReq :=
  ⟨(v.extractLsb' 20 4).toNat, (s.lane lane).mgSeq, (v.extractLsb' 16 2).toNat, (v.extractLsb' 0 16).toNat, s.get (F.LANE_MGLEN_count lane),
    if (v.extractLsb' 16 2).toNat = 1 then (List.range (min (s.get (F.LANE_MGLEN_count lane)) 16)).map (fun k => s.rd (R.LANE_MGDATA lane k)) else [],
    .firmware, 0⟩

/-- A field of a word beside the bit that is set in it. -/
theorem bitsOf_go (v : W32) {k hi lo : Nat} (hk : k < 32) (apart : hi < k ∨ k < lo) :
    bitsOf (putBits v k k 1) hi lo = (v.extractLsb' lo (hi + 1 - lo)).toNat := by
  rw [bitsOf_extract]
  exact bitsOf_putBits_disjoint v k k 1 hi lo (Nat.le_refl k) hk apart

/-- The state with LANEn_MGCMD written, before its go has effect. -/
def State.mgcmdStored (s : State) (lane : Nat) (v : W32) : State := s.plainWrite (R.LANE_MGCMD lane) (putBits v 27 27 1)

/-- A go of LANEn_MGCMD, by its outcome. -/
theorem exec_mgmtRequest (on : natBit s.lanesOff lane = false) (v : W32) :
    let t := s.mgcmdStored lane v
    let r := s.firmwareRequest lane v
    let u := t.mgSend lane r.pos r.op r.addr r.count r.data r.why
    exec (.mgmtRequest lane v) s = .next (if r.op = 3 then s else if s.flag (F.LANE_MGCMD_busy lane) then t
      else if !s.laneRuns lane then t.set (F.LANE_MGCMD_status lane) 2
      else if s.laneState lane = 7 ∧ r.op = 1 then u.set (F.LANE_MGCMD_status lane) 0 else u.set (F.LANE_MGCMD_busy lane) 1) := by
  intro t r u
  refine (next_of_lane_on on _).trans (congrArg Host.Outcome.next ?_)
  have go : bitsOf (putBits v 27 27 1) 27 27 = 1 := bitsOf_putBits_bit v (by decide) (by decide)
  have op : bitsOf (putBits v 27 27 1) 17 16 = r.op := bitsOf_go v (by decide) (by decide)
  have pos : bitsOf (putBits v 27 27 1) 23 20 = r.pos := bitsOf_go v (by decide) (by decide)
  have addr : bitsOf (putBits v 27 27 1) 15 0 = r.addr := bitsOf_go v (by decide) (by decide)
  unfold State.mgcmdWrite
  dsimp only
  rw [op, pos, addr, go]
  refine if_congr Iff.rfl rfl (if_congr ?_ rfl (if_congr Iff.rfl rfl (if_congr ?_ rfl rfl)))
  · rw [Bool.or_eq_true]
    exact or_iff_right (by decide)
  · rw [Bool.and_eq_true, decide_eq_true_eq, beq_iff_eq]

theorem State.mgcmdStored_work (s : State) (n : Nat) (v : W32) : LinkWork n (laneWrites n [0x400501A0]) s (s.mgcmdStored n v) :=
  s.plainWrite_work (base := 0x400501A0) _ _ (by decide) (by decide)

theorem State.mgcmdStored_state (s : State) (lane : Fin 24) (v : W32) : (s.mgcmdStored lane v).laneState lane = s.laneState lane :=
  (s.mgcmdStored_work lane v).get (F.LANE_STATE_state lane) (not_laneWrites lane.isLt (by decide) (by decide) (by decide))

/-- A write does not reach busy, and stores pos. -/
theorem State.mgcmdStored_busy (s : State) (lane : Fin 24) (v : W32) :
    (s.mgcmdStored lane v).get (F.LANE_MGCMD_busy lane) = s.get (F.LANE_MGCMD_busy lane) :=
  State.get_plainWrite_kept (cardAt_mgcmd lane) s _ (by decide) (by decide) (by decide)

theorem State.mgcmdStored_pos (s : State) (lane : Fin 24) (v : W32) :
    (s.mgcmdStored lane v).get (F.LANE_MGCMD_pos lane) = (s.firmwareRequest lane v).pos :=
  (State.get_plainWrite_stored (cardAt_mgcmd lane) s _ (by decide) (by decide) (by decide)).trans (bitsOf_go v (by decide) (by decide))

theorem exec_mgmtRequest_reserved (on : natBit s.lanesOff lane = false) (op : (v.extractLsb' 16 2).toNat = 3) :
    exec (.mgmtRequest lane v) s = .next s := by
  rw [exec_mgmtRequest on]
  exact congrArg Host.Outcome.next (if_pos op)

theorem exec_mgmtRequest_busy (on : natBit s.lanesOff lane = false) (op : (v.extractLsb' 16 2).toNat ≠ 3)
    (busy : s.flag (F.LANE_MGCMD_busy lane) = true) : Completes (.mgmtRequest lane v) s (fun t => t.lanes = s.lanes ∧
      t.flag (F.LANE_MGCMD_busy lane) = true) := by
  refine ⟨_, (exec_mgmtRequest on v).trans (congrArg Host.Outcome.next ((if_neg op).trans (if_pos busy))), s.plainWrite_lanes _ _, ?_⟩
  rwa [State.flag_congr (s.mgcmdStored_busy lane v)]

theorem exec_mgmtRequest_stopped (on : natBit s.lanesOff lane = false) (op : (v.extractLsb' 16 2).toNat ≠ 3)
    (idle : s.flag (F.LANE_MGCMD_busy lane) = false) (up : s.laneState lane ≠ 5) (opened : s.laneState lane ≠ 7) :
    Completes (.mgmtRequest lane v) s (fun t => t.lanes = s.lanes ∧ t.get (F.LANE_MGCMD_status lane) = 2 ∧
      t.flag (F.LANE_MGCMD_busy lane) = false) := by
  have stopped : (!s.laneRuns lane) = true := by simp [State.laneRuns, up, opened]
  refine ⟨_, (exec_mgmtRequest on v).trans (congrArg Host.Outcome.next ((if_neg op).trans ((if_neg (by rw [idle]; exact Bool.false_ne_true)).trans
    (if_pos stopped)))), s.plainWrite_lanes _ _, State.get_set_fits _ (by decide) (by decide) (by decide), ?_⟩
  have beside : ((s.mgcmdStored lane v).set (F.LANE_MGCMD_status lane) 2).get (F.LANE_MGCMD_busy lane) =
      (s.mgcmdStored lane v).get (F.LANE_MGCMD_busy lane) := State.get_set_beside _ 2 (by decide) (by decide) (by decide)
  rwa [State.flag_congr (beside.trans (s.mgcmdStored_busy lane v))]

/-- In UP and OPEN the request leaves; only a WRITE in OPEN is done at once. -/
theorem exec_mgmtRequest_sent (on : natBit s.lanesOff lane = false) (op : (v.extractLsb' 16 2).toNat ≠ 3)
    (idle : s.flag (F.LANE_MGCMD_busy lane) = false) (runs : s.laneRuns lane = true) :
    let r := s.firmwareRequest lane v
    Completes (.mgmtRequest lane v) s (fun t => (t.lane lane).out = (s.lane lane).out ++ s.mgOut lane r ∧
      (s.laneState lane = 7 ∧ r.op = 1 → t.get (F.LANE_MGCMD_status lane) = 0 ∧ (t.lane lane).mgmt = (s.lane lane).mgmt) ∧
      (¬(s.laneState lane = 7 ∧ r.op = 1) → t.flag (F.LANE_MGCMD_busy lane) = true ∧ t.get (F.LANE_MGCMD_pos lane) = r.pos ∧
        (t.lane lane).mgmt = (s.lane lane).mgmt ++ [r])) := by
  intro r
  let t := s.mgcmdStored lane v
  let u := t.mgSend lane r.pos r.op r.addr r.count r.data r.why
  have kept : t.lane lane = s.lane lane := s.plainWrite_lane _ _ _
  have state : t.laneState lane = s.laneState lane := s.mgcmdStored_state lane v
  have mgmt : (u.lane lane).mgmt = if s.laneState lane = 7 ∧ r.op = 1 then (s.lane lane).mgmt else (s.lane lane).mgmt ++ [r] := by
    rw [State.mgSend_mgmt, state, kept]
    rfl
  have out : (u.lane lane).out = (s.lane lane).out ++ s.mgOut lane r := by
    rw [State.mgSend_out, kept, State.mgOut_eq, State.mgOut_eq, state]
    rfl
  have run : exec (.mgmtRequest lane v) s = .next (if s.laneState lane = 7 ∧ r.op = 1 then u.set (F.LANE_MGCMD_status lane) 0
      else u.set (F.LANE_MGCMD_busy lane) 1) := by
    refine (exec_mgmtRequest on v).trans (congrArg Host.Outcome.next ((if_neg op).trans ((if_neg ?_).trans (if_neg ?_))))
    · rw [idle]
      exact Bool.false_ne_true
    · rw [runs]
      decide
  refine ⟨_, run, ?_⟩
  by_cases done : s.laneState lane = 7 ∧ r.op = 1
  · rw [if_pos done] at mgmt ⊢
    exact ⟨out, fun _ => ⟨u.get_set_fits (by decide) (by decide) (by decide), mgmt⟩, fun no => absurd done no⟩
  · rw [if_neg done] at mgmt ⊢
    refine ⟨out, fun is => absurd is done, fun _ => ⟨State.flag_of_one (u.get_set_fits (by decide) (by decide) (by decide)), ?_, mgmt⟩⟩
    have beside : (u.set (F.LANE_MGCMD_busy lane) 1).get (F.LANE_MGCMD_pos lane) = u.get (F.LANE_MGCMD_pos lane) :=
      u.get_set_beside 1 (by decide) (by decide) (by decide)
    exact beside.trans (s.mgcmdStored_pos lane v)

end

/-! ### Answers and repeats of firmware requests (R212, R229) -/

section
variable {s : State} {lane : Nat}

theorem State.mgDrop_lane (s : State) (lane : Nat) (r : MgReq) :
    (s.mgDrop lane r).lane lane = { s.lane lane with mgmt := (s.lane lane).mgmt.erase r } := s.lane_setLane_same lane _

/-- A firmware request ends with a status. -/
theorem State.mgFirmware_spec (s : State) (lane : Nat) {status : Nat} (h : status < 8) :
    (s.mgFirmware lane status).lanes = s.lanes ∧ (s.mgFirmware lane status).get (F.LANE_MGCMD_busy lane) = 0 ∧
      (s.mgFirmware lane status).get (F.LANE_MGCMD_status lane) = status ∧
      ∀ a, a ≠ R.LANE_MGCMD lane → (s.mgFirmware lane status).rd a = s.rd a := by
  let t := s.set (F.LANE_MGCMD_status lane) status
  have stored : t.get (F.LANE_MGCMD_status lane) = status := s.get_set_fits (by decide) (by decide) h
  refine ⟨rfl, t.get_set_fits (by decide) (by decide) (by decide), ?_, fun a ne => ?_⟩
  · exact (t.get_set_beside 0 (by decide) (by decide) (by decide)).trans stored
  · exact (t.rd_set_ne 0 ne).trans (s.rd_set_ne status ne)

/-- Words laid out in registers, the first `n` of them. -/
theorem foldl_wr_rd {reg : Nat → Nat} (inj : ∀ i j, reg i = reg j → i = j) : ∀ (n : Nat) (l : List W32) (start : Nat) (s : State) {i : Nat},
    i < n → (hi : i < l.length) → (((l.zipIdx start).take n).foldl (fun t e => t.wr (reg e.2) e.1) s).rd (reg (start + i)) = l[i]
  | 0, _, _, _, _, few, _ => absurd few (Nat.not_lt_zero _)
  | _ + 1, [], _, _, _, _, hi => absurd hi (Nat.not_lt_zero _)
  | n + 1, w :: l, start, s, 0, _, _ => by
    rw [List.zipIdx_cons, List.take_succ_cons, List.foldl_cons]
    refine List.foldlRecOn (motive := fun t : State => t.rd (reg (start + 0)) = w) _ _ (State.rd_wr_same s _ w) fun t ht e he => ?_
    have later := List.le_snd_of_mem_zipIdx (List.mem_of_mem_take he)
    exact (t.rd_wr_ne e.1 fun same => by have := inj _ _ same; omega).trans ht
  | n + 1, w :: l, start, s, i + 1, few, hi => by
    rw [List.zipIdx_cons, List.take_succ_cons, List.foldl_cons, show start + (i + 1) = start + 1 + i by omega]
    exact foldl_wr_rd inj n l (start + 1) _ (Nat.lt_of_succ_lt_succ few) (Nat.lt_of_succ_lt_succ hi)

/-- The words of a response stand in LANEn_MGDATAk, as many as there are registers. -/
theorem State.mgData_rd (s : State) (lane : Nat) {data : List W32} {i : Nat} (hi : i < 16) (short : i < data.length) :
    (s.mgData lane data).rd (R.LANE_MGDATA lane i) = data.getD i 0 := by
  have inj (i j : Nat) (same : R.LANE_MGDATA lane i = R.LANE_MGDATA lane j) : i = j := by
    unfold R.LANE_MGDATA at same
    omega
  have stored := foldl_wr_rd inj 16 data 0 s hi short
  rw [Nat.zero_add] at stored
  rw [State.mgData, List.getD_eq_getElem _ _ short]
  exact stored

theorem State.mgData_lanes (s : State) (lane : Nat) (data : List W32) : (s.mgData lane data).lanes = s.lanes :=
  List.foldlRecOn (motive := fun t : State => t.lanes = s.lanes) _ _ rfl fun _ ht _ _ => ht

theorem State.lane_of_lanes {s t : State} (h : t.lanes = s.lanes) (n : Nat) : t.lane n = s.lane n := by rw [State.lane, State.lane, h]

/-- A sound response that no request waits for: its grant has come back, and nothing else. -/
theorem State.mgReceive_unmatched {pos : Nat} {blocks : List LinkBlock} {m : MgResponse} (sound : responseOf blocks = some m)
    (missing : (s.lane lane).mgmt.find? (fun r => r.pos == m.pos && r.seq == m.seq) = none) :
    s.mgReceive lane pos blocks = s.grantBack lane 3 pos := by
  unfold State.mgReceive
  rw [sound]
  dsimp only
  rw [State.grantBack_lane]
  dsimp only
  rw [missing]

/-- A sound response to a request: the request fails, or is done, or the answer does not fit it. -/
theorem State.mgReceive_matched {pos : Nat} {blocks : List LinkBlock} {m : MgResponse} {r : MgReq} (sound : responseOf blocks = some m)
    (found : (s.lane lane).mgmt.find? (fun r => r.pos == m.pos && r.seq == m.seq) = some r) :
    s.mgReceive lane pos blocks = (let t := s.grantBack lane 3 pos
      if m.status ≠ 0 then (t.mgDrop lane r).mgFails lane r (mgStatus m.status)
      else if m.data.length = 2 * r.responseBlocks then
        (t.mgDrop lane r).mgDone lane r (m.data.take (if r.op = 0 then r.count else m.data.length))
      else t.bump (F.LANE_UPERR_count lane)) := by
  unfold State.mgReceive
  rw [sound]
  dsimp only
  rw [State.grantBack_lane]
  dsimp only
  rw [found]
  exact if_congr bne_iff_ne rfl rfl

theorem mgStatus_eq (n : Nat) : mgStatus n = if n ≤ 1 then n else 3 := by
  unfold mgStatus
  split
  · next zero => rw [zero]; rfl
  · split
    · next one => rw [one]; rfl
    · rw [if_neg (by omega)]

end

section
variable {s : State} {lane : Fin 24} {granted : Fin 16} {blocks : List LinkBlock}

/-- What is no sound response, or an answer of done that does not fit its request, is discarded and counted; the grant has come back. -/
def ResponseDropped (lane : Fin 24) (granted : Fin 16) (s t : State) : Prop :=
  (t.lane lane).mgmt = (s.lane lane).mgmt ∧ (t.lane lane).grants = (s.lane lane).grants.eraseP (fun g => g.kind == 3 && g.pos == granted.val) ∧
    t.get (F.LANE_UPERR_count lane) = min (s.get (F.LANE_UPERR_count lane) + 1) 0xFFFFFFFF

theorem responseDropped (s : State) (lane : Fin 24) (granted : Fin 16) :
    ResponseDropped lane granted s ((s.grantBack lane 3 granted).bump (F.LANE_UPERR_count lane)) := by
  have back := s.grantBack_lane lane 3 granted
  refine ⟨?_, ?_, State.get_bump_whole _ _⟩
  · show ((s.grantBack lane 3 granted).lane lane).mgmt = _
    rw [back]
  · show ((s.grantBack lane 3 granted).lane lane).grants = _
    rw [back]

/-- A response to a request of firmware: the request has left the list, and LANEn_MGCMD and LANEn_MGDATAk hold the answer. -/
theorem exec_mgmtResponse_firmware {m : MgResponse} {r : MgReq} (sound : responseOf blocks = some m)
    (found : (s.lane lane).mgmt.find? (fun r => r.pos == m.pos && r.seq == m.seq) = some r) (firmware : r.why = .firmware)
    (fits : m.status ≠ 0 ∨ m.data.length = 2 * r.responseBlocks) :
    Completes (.mgmtResponseReceive lane ⟨granted, blocks⟩) s (fun t => (t.lane lane).mgmt = (s.lane lane).mgmt.erase r ∧
      t.get (F.LANE_MGCMD_busy lane) = 0 ∧ t.get (F.LANE_MGCMD_status lane) = (if m.status ≤ 1 then m.status else 3) ∧
      (m.status = 0 → r.op ≠ 1 → ∀ i < 16, i < m.data.length → r.op ≠ 0 ∨ i < r.count → t.rd (R.LANE_MGDATA lane i) = m.data.getD i 0)) := by
  let t := (s.grantBack lane 3 granted).mgDrop lane r
  have dropped : (t.lane lane).mgmt = (s.lane lane).mgmt.erase r := by
    rw [State.mgDrop_lane, State.grantBack_lane]
  have received := State.mgReceive_matched (pos := granted) sound found
  by_cases done : m.status = 0
  · let data := m.data.take (if r.op = 0 then r.count else m.data.length)
    let u := if r.op == 1 then t else t.mgData lane data
    have run : s.mgReceive lane granted blocks = u.mgFirmware lane 0 := by
      rw [received]
      dsimp only
      rw [if_neg (not_not.mpr done), if_pos (fits.resolve_left (not_not.mpr done)), State.mgDone, firmware]
    have lanes : u.lanes = t.lanes := by
      unfold u
      split
      · rfl
      · exact t.mgData_lanes lane data
    obtain ⟨same, busy, status, others⟩ := u.mgFirmware_spec lane (status := 0) (by decide)
    refine ⟨_, congrArg Host.Outcome.next run, ?_, busy, ?_, fun _ read i hi short whole => ?_⟩
    · rw [State.lane_of_lanes (same.trans lanes), dropped]
    · rw [status, done]
      rfl
    · have off : R.LANE_MGDATA lane i ≠ R.LANE_MGCMD lane := by
        unfold R.LANE_MGDATA R.LANE_MGCMD
        omega
      have inside : i < data.length := by
        rw [List.length_take]
        split <;> omega
      have stored : u = t.mgData lane data := if_neg (by simpa using read)
      have word : data.getD i 0 = m.data.getD i 0 := by
        rw [List.getD_eq_getElem _ _ inside, List.getD_eq_getElem _ _ short, List.getElem_take]
      rw [others _ off, stored, t.mgData_rd lane hi inside, word]
  · have run : s.mgReceive lane granted blocks = t.mgFirmware lane (mgStatus m.status) := by
      rw [received]
      dsimp only
      rw [if_pos done, State.mgFails, firmware]
    have code : mgStatus m.status < 8 := by
      rw [mgStatus_eq]
      split <;> omega
    obtain ⟨same, busy, status, -⟩ := t.mgFirmware_spec lane code
    refine ⟨_, congrArg Host.Outcome.next run, ?_, busy, ?_, fun zero => absurd zero done⟩
    · rw [State.lane_of_lanes same, dropped]
    · rw [status, mgStatus_eq]

/-- The remaining outcomes of a response: not sound, matched by no request, or an answer of done that does not fit. -/
theorem exec_mgmtResponse_unsound (bad : responseOf blocks = none) :
    Completes (.mgmtResponseReceive lane ⟨granted, blocks⟩) s (ResponseDropped lane granted s) := by
  have run : s.mgReceive lane granted blocks = (s.grantBack lane 3 granted).bump (F.LANE_UPERR_count lane) := by
    unfold State.mgReceive
    rw [bad]
  exact ⟨_, congrArg Host.Outcome.next run, responseDropped s lane granted⟩

theorem exec_mgmtResponse_unmatched {m : MgResponse} (sound : responseOf blocks = some m)
    (missing : (s.lane lane).mgmt.find? (fun r => r.pos == m.pos && r.seq == m.seq) = none) :
    Completes (.mgmtResponseReceive lane ⟨granted, blocks⟩) s (fun t => t.regs = s.regs ∧ (t.lane lane).mgmt = (s.lane lane).mgmt) := by
  refine ⟨_, congrArg Host.Outcome.next (State.mgReceive_unmatched (pos := granted) sound missing), rfl, ?_⟩
  show ((s.grantBack lane 3 granted).lane lane).mgmt = _
  rw [State.grantBack_lane]

theorem exec_mgmtResponse_unfit {m : MgResponse} {r : MgReq} (sound : responseOf blocks = some m)
    (found : (s.lane lane).mgmt.find? (fun r => r.pos == m.pos && r.seq == m.seq) = some r) (done : m.status = 0)
    (unfit : m.data.length ≠ 2 * r.responseBlocks) :
    Completes (.mgmtResponseReceive lane ⟨granted, blocks⟩) s (ResponseDropped lane granted s) := by
  have run := State.mgReceive_matched (pos := granted) sound found
  dsimp only at run
  rw [if_neg (not_not.mpr done), if_neg unfit] at run
  exact ⟨_, congrArg Host.Outcome.next run, responseDropped s lane granted⟩

/-- A request of firmware that nothing has answered: repeated three times, then ended with no response. -/
theorem exec_mgmtRetry_firmware {p : Fin 16} {seq : W8} {r : MgReq}
    (found : (s.lane lane).mgmt.find? (fun r => r.pos == p.val && r.seq == seq.toNat) = some r) (firmware : r.why = .firmware) :
    (r.tries < 3 → exec (.mgmtRetryTimeout lane p seq) s = .next (s.setLane lane { s.lane lane with
      mgmt := (s.lane lane).mgmt.map (fun x => if x == r then { x with tries := x.tries + 1 } else x),
      out := (s.lane lane).out ++ s.mgOut lane r })) ∧
    (3 ≤ r.tries → Completes (.mgmtRetryTimeout lane p seq) s (fun t => (t.lane lane).mgmt = (s.lane lane).mgmt.erase r ∧
      t.get (F.LANE_MGCMD_busy lane) = 0 ∧ t.get (F.LANE_MGCMD_status lane) = 2)) := by
  have repeats : r.why.repeats = 3 := by rw [firmware]; rfl
  have run : s.mgRetry lane p seq.toNat = if r.tries < 3 then s.setLane lane { s.lane lane with
      mgmt := (s.lane lane).mgmt.map (fun x => if x == r then { x with tries := x.tries + 1 } else x),
      out := (s.lane lane).out ++ s.mgOut lane r } else (s.mgDrop lane r).mgFirmware lane 2 := by
    unfold State.mgRetry
    rw [found]
    dsimp only
    rw [repeats, State.mgFails, firmware]
  refine ⟨fun early => congrArg Host.Outcome.next (run.trans (if_pos early)), fun late => ?_⟩
  obtain ⟨same, busy, status, -⟩ := (s.mgDrop lane r).mgFirmware_spec lane (status := 2) (by decide)
  refine ⟨_, congrArg Host.Outcome.next (run.trans (if_neg (by omega))), ?_, busy, status⟩
  rw [State.lane_of_lanes same, State.mgDrop_lane]

theorem exec_mgmtRetry_none {p : Fin 16} {seq : W8}
    (missing : (s.lane lane).mgmt.find? (fun r => r.pos == p.val && r.seq == seq.toNat) = none) :
    exec (.mgmtRetryTimeout lane p seq) s = .next s := by
  refine congrArg Host.Outcome.next ?_
  unfold State.mgRetry
  rw [missing]

end

end Sys2Proof.Machine
end

section
/-! SUPPORT. Sideband transactions of firmware (R231). -/

namespace Sys2Proof.Machine

/-! ### LANEn_SBDATAk by bytes -/

section
variable {s : State} {lane : Nat}

/-- A byte of LANEn_SBDATAk, as the statement reads it. -/
theorem State.sbByte_eq (s : State) (lane i : Nat) : (s.rd (R.LANE_SBDATA lane (i / 4))).extractLsb' (8 * (i % 4)) 8 = s.sbByte lane i := by
  have width : 8 * (i % 4) + 7 + 1 - 8 * (i % 4) = 8 := by omega
  refine BitVec.eq_of_toNat_eq ?_
  rw [State.sbByte, BitVec.extractLsb'_toNat, BitVec.toNat_ofNat, bitsOf, width, Nat.shiftRight_eq_div_pow, Nat.mod_mod]

/-- A byte put into LANEn_SBDATAk. -/
def State.sbBytePut (s : State) (lane i : Nat) (b : W8) : State :=
  s.wr (R.LANE_SBDATA lane (i / 4)) (putBits (s.rd (R.LANE_SBDATA lane (i / 4))) (8 * (i % 4) + 7) (8 * (i % 4)) b.toNat)

theorem State.sbByte_put_same (s : State) (lane i : Nat) (b : W8) : (s.sbBytePut lane i b).sbByte lane i = b := by
  have width : 8 * (i % 4) + 7 + 1 - 8 * (i % 4) = 8 := by omega
  rw [State.sbByte, State.sbBytePut, State.rd_wr_same, bitsOf_putBits _ _ _ _ (by omega) (by omega), width,
    Nat.mod_eq_of_lt b.isLt, BitVec.ofNat_toNat]
  exact BitVec.setWidth_eq b

theorem State.sbByte_put_ne (s : State) (lane : Nat) {i k : Nat} (b : W8) (h : k ≠ i) : (s.sbBytePut lane i b).sbByte lane k = s.sbByte lane k := by
  rw [State.sbByte, State.sbByte, State.sbBytePut]
  by_cases same : k / 4 = i / 4
  · rw [same, State.rd_wr_same, bitsOf_putBits_disjoint _ _ _ _ _ _ (by omega) (by omega) (by omega)]
  · rw [State.rd_wr_ne _ _ (by unfold R.LANE_SBDATA; omega)]

theorem State.sbData_cons (s : State) (lane : Nat) (b : W8) (i : Nat) (l : List (W8 × Nat)) :
    s.sbData lane ((b, i) :: l) = (s.sbBytePut lane i b).sbData lane l := rfl

/-- Bytes laid elsewhere leave a byte as it is. -/
theorem State.sbByte_sbData_ne {k : Nat} : ∀ (l : List (W8 × Nat)) (s : State), (∀ e ∈ l, e.2 ≠ k) →
    (s.sbData lane l).sbByte lane k = s.sbByte lane k
  | [], _, _ => rfl
  | (b, i) :: l, s, h => by
    rw [State.sbData_cons, State.sbByte_sbData_ne l _ fun e he => h e (List.mem_cons_of_mem _ he)]
    exact s.sbByte_put_ne lane b (h (b, i) List.mem_cons_self).symm

/-- The bytes of a read are laid in order. -/
theorem State.sbByte_sbData : ∀ (n : Nat) (l : List W8) (start : Nat) (s : State) {i : Nat}, i < n → (hi : i < l.length) →
    (s.sbData lane ((l.zipIdx start).take n)).sbByte lane (start + i) = l[i]
  | 0, _, _, _, _, few, _ => absurd few (Nat.not_lt_zero _)
  | _ + 1, [], _, _, _, _, hi => absurd hi (Nat.not_lt_zero _)
  | n + 1, b :: l, start, s, 0, _, _ => by
    rw [List.zipIdx_cons, List.take_succ_cons, State.sbData_cons, State.sbByte_sbData_ne]
    · exact s.sbByte_put_same lane start b
    · intro e he
      have later := List.le_snd_of_mem_zipIdx (List.mem_of_mem_take he)
      omega
  | n + 1, b :: l, start, s, i + 1, few, hi => by
    rw [List.zipIdx_cons, List.take_succ_cons, State.sbData_cons, show start + (i + 1) = start + 1 + i by omega]
    exact State.sbByte_sbData n l (start + 1) _ (Nat.lt_of_succ_lt_succ few) (Nat.lt_of_succ_lt_succ hi)

/-- Laying bytes changes neither lanes nor other registers. -/
theorem State.sbData_kept : ∀ (l : List (W8 × Nat)) (s : State), (s.sbData lane l).lanes = s.lanes ∧
    (s.sbData lane l).rd (R.LANE_SBCMD lane) = s.rd (R.LANE_SBCMD lane)
  | [], _ => ⟨rfl, rfl⟩
  | (b, i) :: l, s => by
    obtain ⟨lanes, word⟩ := State.sbData_kept l (s.sbBytePut lane i b)
    rw [State.sbData_cons]
    exact ⟨lanes, word.trans (s.rd_wr_ne _ (by unfold R.LANE_SBDATA R.LANE_SBCMD; omega))⟩

end

/-! ### Transactions start and end -/

section
variable {s : State} {lane : Nat}

theorem State.sbPush_busy (h : (s.lane lane).sbq ≠ []) (ws : List SbWhy) :
    s.sbPush lane ws = s.setLane lane { s.lane lane with sbq := (s.lane lane).sbq ++ ws } :=
  if_neg (by simpa only [List.isEmpty_iff] using h)

theorem State.sbPush_idle (h : (s.lane lane).sbq = []) (ws : List SbWhy) :
    s.sbPush lane ws = (s.setLane lane { s.lane lane with sbq := ws }).sbStart lane := by
  refine (if_pos (by rw [h]; rfl)).trans ?_
  rw [h]
  rfl

/-- What a firmware transaction shows on the bus as it starts. -/
def State.sbCommanded (s : State) (lane : Nat) : SbOut :=
  .start (s.get (F.LANE_SBCMD_addr lane)) (s.get (F.LANE_SBCMD_offset lane))
    (if s.flag (F.LANE_SBCMD_rd lane) then [] else (List.range (s.get (F.LANE_SBCMD_count lane) + 1)).map (s.sbByte lane))
    (s.flag (F.LANE_SBCFG_fm lane))

theorem State.sbStart_firmware {rest : List SbWhy} (h : (s.lane lane).sbq = .firmware :: rest) :
    (s.sbStart lane).lane lane = { s.lane lane with sbOut := (s.lane lane).sbOut ++ [s.sbCommanded lane] } := by
  unfold State.sbStart
  rw [h]
  exact s.sbLog_lane lane _ _ _

/-- What was on the bus before a transaction starts stays in the record. -/
theorem State.sbStart_sbOut {x : SbOut} (h : x ∈ (s.lane lane).sbOut) : x ∈ ((s.sbStart lane).lane lane).sbOut := by
  unfold State.sbStart
  split
  · exact h
  all_goals
    rw [State.sbLog_lane]
    exact List.mem_append_left _ h

/-- The state in which a finished transaction has left the list and the next one has started. -/
def State.sbNext (s : State) (lane : Nat) : State := (s.setLane lane { s.lane lane with sbq := (s.lane lane).sbq.tail }).sbStart lane

theorem State.sbNext_regs (s : State) (lane : Nat) : (s.sbNext lane).regs = s.regs := by
  unfold State.sbNext
  rw [State.sbStart_eq]
  rfl

theorem State.sbNext_sbq (s : State) (lane : Nat) : ((s.sbNext lane).lane lane).sbq = (s.lane lane).sbq.tail := by
  rw [State.sbNext, State.sbStart_lane, State.lane_setLane_same]

theorem State.sbDone_firmware (h : (s.lane lane).sbq.head? = some .firmware) (res : SbResult) :
    s.sbDone lane res = (s.sbNext lane).sbFirmware lane res := by
  obtain ⟨rest, list⟩ : ∃ rest, (s.lane lane).sbq = .firmware :: rest := List.head?_eq_some_iff.mp h
  unfold State.sbDone State.sbNext
  rw [list]
  rfl

theorem State.sbDone_none (h : (s.lane lane).sbq = []) (res : SbResult) : s.sbDone lane res = s := by
  unfold State.sbDone
  rw [h]

/-- The end of a firmware transaction: LANEn_SBCMD is idle and says how it ended, and bytes that were read stand in LANEn_SBDATAk. -/
theorem State.sbFirmware_spec (s : State) (lane : Nat) (res : SbResult) :
    let t := s.sbFirmware lane res
    t.lanes = s.lanes ∧ t.get (F.LANE_SBCMD_busy lane) = 0 ∧ (res = .nack → t.get (F.LANE_SBCMD_nack lane) = 1) ∧
      (res = .timeout → t.get (F.LANE_SBCMD_tout lane) = 1) ∧
      ∀ bs, res = .data bs → s.flag (F.LANE_SBCMD_rd lane) = true → ∀ i, i ≤ s.get (F.LANE_SBCMD_count lane) → i < bs.length →
        t.sbByte lane i = bs.getD i 0 := by
  let a := s.set (F.LANE_SBCMD_busy lane) 0
  have idle : a.get (F.LANE_SBCMD_busy lane) = 0 := s.get_set_fits (by decide) (by decide) (by decide)
  cases res with
  | data bs =>
    have run : s.sbFirmware lane (.data bs) =
      if s.flag (F.LANE_SBCMD_rd lane) then a.sbData lane (bs.zipIdx.take (s.get (F.LANE_SBCMD_count lane) + 1)) else a := rfl
    rw [run]
    obtain ⟨lanes, word⟩ := State.sbData_kept (lane := lane) (bs.zipIdx.take (s.get (F.LANE_SBCMD_count lane) + 1)) a
    have idle' : (a.sbData lane (bs.zipIdx.take (s.get (F.LANE_SBCMD_count lane) + 1))).get (F.LANE_SBCMD_busy lane) = 0 :=
      (congrArg (bitsOf · 31 31) word).trans idle
    refine ⟨?_, ?_, nofun, nofun, fun bs' same read i hi short => ?_⟩
    · split
      · exact lanes
      · rfl
    · split
      · exact idle'
      · exact idle
    · obtain rfl := SbResult.data.inj same
      have stored := State.sbByte_sbData (lane := lane) (s.get (F.LANE_SBCMD_count lane) + 1) bs 0 a (Nat.lt_succ_of_le hi) short
      rw [Nat.zero_add] at stored
      rw [if_pos read, List.getD_eq_getElem _ _ short]
      exact stored
  | nack =>
    exact ⟨rfl, (a.get_set_beside 1 (by decide) (by decide) (by decide)).trans idle,
      fun _ => a.get_set_fits (by decide) (by decide) (by decide), nofun, nofun⟩
  | timeout =>
    exact ⟨rfl, (a.get_set_beside 1 (by decide) (by decide) (by decide)).trans idle, nofun,
      fun _ => a.get_set_fits (by decide) (by decide) (by decide), nofun⟩
  | busLow =>
    exact ⟨rfl, (a.get_set_beside 1 (by decide) (by decide) (by decide)).trans idle, nofun, nofun, nofun⟩

/-- The end of a firmware transaction at the front of the list: it has left the list, and what was on the bus stays in the record. -/
theorem State.sbDone_spec (h : (s.lane lane).sbq.head? = some .firmware) (res : SbResult) :
    let t := s.sbDone lane res
    (t.lane lane).sbq = (s.lane lane).sbq.tail ∧ t.get (F.LANE_SBCMD_busy lane) = 0 ∧ (res = .nack → t.get (F.LANE_SBCMD_nack lane) = 1) ∧
      (res = .timeout → t.get (F.LANE_SBCMD_tout lane) = 1) ∧
      (∀ bs, res = .data bs → s.flag (F.LANE_SBCMD_rd lane) = true → ∀ i, i ≤ s.get (F.LANE_SBCMD_count lane) → i < bs.length →
        t.sbByte lane i = bs.getD i 0) ∧
      ∀ x ∈ (s.lane lane).sbOut, x ∈ (t.lane lane).sbOut := by
  have same (f : Field) : (s.sbNext lane).get f = s.get f := by rw [State.get, State.get, State.rd, State.rd, s.sbNext_regs]
  obtain ⟨lanes, idle, nack, timeout, data⟩ := (s.sbNext lane).sbFirmware_spec lane res
  rw [State.flag, same, same] at data
  dsimp only
  rw [State.sbDone_firmware h, State.lane_of_lanes lanes]
  refine ⟨s.sbNext_sbq lane, idle, nack, timeout, data, fun x hx => State.sbStart_sbOut ?_⟩
  rwa [State.lane_setLane_same]

end

/-! ### Writes of LANEn_SBCMD -/

/-- The card of LANEn_SBCMD: addr, offset, rd and count are stored, nack and tout clear, busy belongs to the device. -/
theorem cardAt_sbcmd : ∀ n : Fin 24,
    (cardAt (R.LANE_SBCMD n)).map (fun c => (c.1.rw, c.1.w1c, c.1.w1s)) = some (0x0F80FF7F, 0x60000000, 0) := by decide

section
variable {s : State} {lane : Fin 24} {v : W32}

theorem State.rd_plainWrite_ne (s : State) {a b : Nat} (v : W32) (h : b ≠ a) : (s.plainWrite a v).rd b = s.rd b := by
  obtain ⟨-, -, others⟩ := s.plainWrite_withReg a v
  exact others b h

/-- A go of LANEn_SBCMD, by whether a transaction of firmware runs. -/
theorem exec_sbCommand (on : natBit s.lanesOff lane = false) (v : W32) :
    let t := s.plainWrite (R.LANE_SBCMD lane) (putBits v 28 28 1)
    exec (.sbCommand lane v) s = .next (if s.flag (F.LANE_SBCMD_busy lane) then t
      else (t.sbPush lane [.firmware]).set (F.LANE_SBCMD_busy lane) 1) := by
  have go : bitsOf (putBits v 28 28 1) 28 28 = 1 := bitsOf_putBits_bit v (by decide) (by decide)
  refine (next_of_lane_on on _).trans (congrArg Host.Outcome.next ?_)
  unfold State.sbcmdWrite
  rw [go]
  refine if_congr ?_ rfl rfl
  rw [Bool.or_eq_true]
  exact or_iff_right (by decide)

theorem exec_sbCommand_busy (on : natBit s.lanesOff lane = false) (busy : s.flag (F.LANE_SBCMD_busy lane) = true) :
    Completes (.sbCommand lane v) s (fun t => t.lanes = s.lanes) :=
  ⟨_, (exec_sbCommand on v).trans (congrArg Host.Outcome.next (if_pos busy)), s.plainWrite_lanes _ _⟩

/-- A go that is heard: the transaction joins the list, and starts on an idle bus. -/
theorem exec_sbCommand_idle (on : natBit s.lanesOff lane = false) (idle : s.flag (F.LANE_SBCMD_busy lane) = false) :
    Completes (.sbCommand lane v) s (fun t => t.flag (F.LANE_SBCMD_busy lane) = true ∧
      (t.lane lane).sbq = (s.lane lane).sbq ++ [.firmware] ∧ t.get (F.LANE_SBCMD_addr lane) = (v.extractLsb' 0 7).toNat ∧
      t.get (F.LANE_SBCMD_count lane) = (v.extractLsb' 24 4).toNat ∧
      ((s.lane lane).sbq = [] → ∃ bs ∈ (t.lane lane).sbOut.getLast?, bs = .start (v.extractLsb' 0 7).toNat (t.get (F.LANE_SBCMD_offset lane))
        (if t.flag (F.LANE_SBCMD_rd lane) then [] else (List.range (t.get (F.LANE_SBCMD_count lane) + 1)).map (s.sbByte lane))
        (s.flag (F.LANE_SBCFG_fm lane))) ∧
      ((s.lane lane).sbq ≠ [] → (t.lane lane).sbOut = (s.lane lane).sbOut)) := by
  let a := s.plainWrite (R.LANE_SBCMD lane) (putBits v 28 28 1)
  let b := a.sbPush lane [.firmware]
  let t := b.set (F.LANE_SBCMD_busy lane) 1
  have run : exec (.sbCommand lane v) s = .next t :=
    (exec_sbCommand on v).trans (congrArg Host.Outcome.next (if_neg (by rw [idle]; exact Bool.false_ne_true)))
  have kept : a.lane lane = s.lane lane := s.plainWrite_lane _ _ _
  have regs : b.regs = a.regs := by
    unfold b
    rw [State.sbPush_eq]
  have field {hi lo : Nat} (below : hi < 31) : t.get ⟨R.LANE_SBCMD lane, hi, lo⟩ = a.get ⟨R.LANE_SBCMD lane, hi, lo⟩ := by
    have beside : t.get ⟨R.LANE_SBCMD lane, hi, lo⟩ = b.get ⟨R.LANE_SBCMD lane, hi, lo⟩ :=
      b.get_set_beside 1 (by decide) (by decide) (Or.inl below)
    rw [beside, State.get, State.get, State.rd, State.rd, regs]
  have stored {hi lo : Nat} (below : hi < 28) (full : bitsOf (w32 0x0F80FF7F) hi lo = 2 ^ (hi + 1 - lo) - 1)
      (plain : bitsOf (w32 0x60000000) hi lo = 0) : a.get ⟨R.LANE_SBCMD lane, hi, lo⟩ = (v.extractLsb' lo (hi + 1 - lo)).toNat :=
    (State.get_plainWrite_stored (cardAt_sbcmd lane) s _ (by omega) full plain).trans (bitsOf_go v (by decide) (Or.inl below))
  have addr : a.get (F.LANE_SBCMD_addr lane) = (v.extractLsb' 0 7).toNat := stored (by decide) (by decide) (by decide)
  refine ⟨t, run, State.flag_of_one (b.get_set_fits (by decide) (by decide) (by decide)), ?_, (field (by decide)).trans addr,
    (field (by decide)).trans (stored (by decide) (by decide) (by decide)), fun free => ?_, fun queued => ?_⟩
  · show (b.lane lane).sbq = _
    rw [a.sbPush_lane, kept]
  · let c := a.setLane lane { a.lane lane with sbq := [.firmware] }
    have list : (c.lane lane).sbq = [.firmware] := by rw [State.lane_setLane_same]
    have begun : b.lane lane = { c.lane lane with sbOut := (c.lane lane).sbOut ++ [c.sbCommanded lane] } := by
      unfold b
      rw [State.sbPush_idle (by rw [kept]; exact free)]
      exact State.sbStart_firmware list
    have bytes : c.sbByte lane = s.sbByte lane := by
      funext i
      have word : c.rd (R.LANE_SBDATA lane (i / 4)) = s.rd (R.LANE_SBDATA lane (i / 4)) :=
        s.rd_plainWrite_ne _ (by unfold R.LANE_SBDATA R.LANE_SBCMD; omega)
      rw [State.sbByte, State.sbByte, word]
    have rate : c.flag (F.LANE_SBCFG_fm lane) = s.flag (F.LANE_SBCFG_fm lane) := by
      have word : c.rd (R.LANE_SBCFG lane) = s.rd (R.LANE_SBCFG lane) :=
        s.rd_plainWrite_ne _ (lane_reg_ne (a := 0x40050024) (b := 0x40050180) (by decide))
      exact State.flag_congr (congrArg (bitsOf · 0 0) word)
    have read : t.flag (F.LANE_SBCMD_rd lane) = c.flag (F.LANE_SBCMD_rd lane) := State.flag_congr (field (by decide))
    refine ⟨c.sbCommanded lane, ?_, ?_⟩
    · show c.sbCommanded lane ∈ (b.lane lane).sbOut.getLast?
      rw [begun, List.getLast?_concat]
      rfl
    · rw [State.sbCommanded, bytes, rate, read, show t.get (F.LANE_SBCMD_offset lane) = a.get (F.LANE_SBCMD_offset lane) from field (by decide),
        show t.get (F.LANE_SBCMD_count lane) = a.get (F.LANE_SBCMD_count lane) from field (by decide),
        show c.get (F.LANE_SBCMD_addr lane) = _ from addr]
      rfl
  · show (b.lane lane).sbOut = _
    have busy : b = a.setLane lane { a.lane lane with sbq := (a.lane lane).sbq ++ [.firmware] } :=
      State.sbPush_busy (by rw [kept]; exact queued) _
    rw [busy, State.lane_setLane_same, kept]

/-- SB_STRETCH_TIMEOUT of a running transaction of firmware: it ends with a timeout, and the bus is released. -/
theorem exec_sbStretchTimeout (front : (s.lane lane).sbq.head? = some .firmware) : Completes (.sbStretchTimeout lane) s (fun t =>
    (t.lane lane).sbq = (s.lane lane).sbq.tail ∧ t.get (F.LANE_SBCMD_busy lane) = 0 ∧ t.get (F.LANE_SBCMD_tout lane) = 1 ∧
      SbOut.release ∈ (t.lane lane).sbOut) := by
  let u := s.setLane lane { s.lane lane with sbOut := (s.lane lane).sbOut ++ [.release] }
  have released : u.lane lane = { s.lane lane with sbOut := (s.lane lane).sbOut ++ [.release] } := s.lane_setLane_same lane _
  have some : (s.lane lane).sbq.isEmpty = false := by
    obtain ⟨rest, list⟩ := List.head?_eq_some_iff.mp front
    rw [list]
    rfl
  have run : exec (.sbStretchTimeout lane) s = .next (u.sbDone lane .timeout) :=
    congrArg (fun t : State => Host.Outcome.next (t.sbDone lane .timeout)) (if_neg (by rw [some]; exact Bool.false_ne_true))
  obtain ⟨list, idle, -, timeout, -, record⟩ := State.sbDone_spec (s := u) (lane := lane) (by rw [released]; exact front) .timeout
  rw [released] at list record
  exact ⟨_, run, list, idle, timeout rfl, record _ (List.mem_append_right _ List.mem_cons_self)⟩

theorem exec_sbStretchTimeout_none (none : (s.lane lane).sbq = []) : exec (.sbStretchTimeout lane) s = .next s := by
  have run : exec (.sbStretchTimeout lane) s = .next (s.sbDone lane .timeout) :=
    congrArg (fun t : State => Host.Outcome.next (t.sbDone lane .timeout)) (if_pos (by rw [none]; rfl))
  rw [run, State.sbDone_none none]

end

end Sys2Proof.Machine
end

section
/-! SUPPORT. Polls of the sideband: what a poll leaves of each tile that it reads, and what follows in OPEN (R233, R234, R236). -/

namespace Sys2Proof.Machine

/-! ### Positions paired with readings -/

theorem nodup_map_fst_zip {α β : Type} : ∀ (xs : List α) (ys : List β), xs.Nodup → ((xs.zip ys).map Prod.fst).Nodup
  | [], _, _ => List.nodup_nil
  | _ :: _, [], _ => List.nodup_nil
  | x :: xs, y :: ys, nodup => by
    obtain ⟨fresh, rest⟩ := List.nodup_cons.mp nodup
    refine List.nodup_cons.mpr ⟨fun again => ?_, nodup_map_fst_zip xs ys rest⟩
    obtain ⟨e, he, same⟩ := List.mem_map.mp again
    have known : e.1 ∈ xs := (List.of_mem_zip he).1
    rw [same] at known
    exact fresh known

/-- Another bit of a field, after one of its bits is written. -/
theorem State.natBit_setBit_field_ne (s : State) {a hi lo i j : Nat} (b : Bool) (h1 : lo ≤ hi) (h2 : hi < 32) (h3 : j < hi + 1 - lo) (ne : j ≠ i) :
    natBit ((s.setBit ⟨a, hi, lo⟩ i b).get ⟨a, hi, lo⟩) j = natBit (s.get ⟨a, hi, lo⟩) j := by
  rw [State.setBit, State.get_set_same _ _ _ h1 h2, natBit_eq, Nat.testBit_mod_two_pow, ← natBit_eq, natBit_setBit, if_neg ne,
    decide_eq_true h3, Bool.true_and]

/-! ### What stays of a tile's sideband sample -/

/-- From `s` to `t` the sideband sample of a position stays, and the flags of the lane. -/
structure SideKept (lane pos : Nat) (s t : State) : Prop where
  sbOk : (t.tile (lane * 16 + pos)).sbOk = (s.tile (lane * 16 + pos)).sbOk
  sbStatus : (t.tile (lane * 16 + pos)).sbStatus = (s.tile (lane * 16 + pos)).sbStatus
  sbSeq : (t.tile (lane * 16 + pos)).sbSeq = (s.tile (lane * 16 + pos)).sbSeq
  sbSince : (t.tile (lane * 16 + pos)).sbSince = (s.tile (lane * 16 + pos)).sbSince
  temp : t.get (F.LANE_TEMP_sb lane pos) = s.get (F.LANE_TEMP_sb lane pos)
  stale : natBit (t.get (F.LANE_SBSTALE_stale lane)) pos = natBit (s.get (F.LANE_SBSTALE_stale lane)) pos
  flags : ∀ b, s.bit (F.LANE_LSTAT_flags lane) b = true → t.bit (F.LANE_LSTAT_flags lane) b = true

section
variable {s t u : State} {lane pos : Nat}

theorem SideKept.trans (h : SideKept lane pos s t) (k : SideKept lane pos t u) : SideKept lane pos s u :=
  ⟨k.sbOk.trans h.sbOk, k.sbStatus.trans h.sbStatus, k.sbSeq.trans h.sbSeq, k.sbSince.trans h.sbSince, k.temp.trans h.temp,
    k.stale.trans h.stale, fun b set => k.flags b (h.flags b set)⟩

/-- Work that names neither the temperatures nor the stale bits, and keeps a tile's sample. -/
theorem SideKept.of_work {bases : List Nat} (hl : lane < 24) (hp : pos < 16) (work : LinkWork lane (laneWrites lane bases) s t)
    (aside : ∀ b ∈ bases, b ≠ 0x40050028 ∧ (b < 0x40050080 ∨ 0x400500BC < b))
    (ok : (t.tile (lane * 16 + pos)).sbOk = (s.tile (lane * 16 + pos)).sbOk)
    (status : (t.tile (lane * 16 + pos)).sbStatus = (s.tile (lane * 16 + pos)).sbStatus)
    (seq : (t.tile (lane * 16 + pos)).sbSeq = (s.tile (lane * 16 + pos)).sbSeq)
    (since : (t.tile (lane * 16 + pos)).sbSince = (s.tile (lane * 16 + pos)).sbSince) : SideKept lane pos s t := by
  refine ⟨ok, status, seq, since, ?_, ?_, work.flags⟩
  · exact work.get (F.LANE_TEMP_sb lane pos) (not_laneWrites_pos (base := 0x40050080) (step := 4) hl hp (by decide) (by decide)
      fun b hb => (aside b hb).2)
  · rw [work.get (F.LANE_SBSTALE_stale lane) (not_laneWrites (base := 0x40050028) hl (by decide) (by decide) fun hb => (aside _ hb).1 rfl)]

/-! ### One reading (R233) -/

/-- The registers of the lane that a poll's readings may write, at lane 0. -/
def polledBases : List Nat := 0x4005001C :: 0x40050028 :: (List.range 16).map (0x40050080 + 4 * ·)

/-- What the statement says of a position that was read, from the state before the poll. -/
def Polled (lane : Nat) (s : State) (e : Nat × SbReading) (t : State) : Prop :=
  let x := s.tile (lane * 16 + e.1)
  let y := t.tile (lane * 16 + e.1)
  (e.2 ∈ [SbReading.nack, .timeout, .busLow] → y.sbOk = false ∧ y.sbStatus = x.sbStatus ∧ t.bit (F.LANE_LSTAT_flags lane) 10 = true) ∧
  (e.2 ∉ [SbReading.nack, .timeout, .busLow] → y.sbOk = true ∧
    e.2 = .sample (readingCode e.2) (BitVec.ofNat 8 y.sbStatus) (BitVec.ofNat 8 (y.sbSeq.getD 0)) ∧
    y.sbSince = (if y.sbSeq = x.sbSeq then x.sbSince else s.uptime) ∧ (x.therm = [] → t.get (F.LANE_TEMP_sb lane e.1) = 0x8000)) ∧
  natBit (t.get (F.LANE_SBSTALE_stale lane)) e.1 =
    decide (y.sbSince + max 10 (2 * max 1 (s.get (F.LANE_SBCFG_per_ms lane))) * 390625 ≤ s.uptime)

/-- Work after the reading that keeps the sample. -/
theorem Polled.after {e : Nat × SbReading} (h : Polled lane s e t) (k : SideKept lane e.1 t u) : Polled lane s e u := by
  obtain ⟨fails, answers, stale⟩ := h
  refine ⟨fun bad => ?_, fun good => ?_, ?_⟩
  · obtain ⟨ok, status, flag⟩ := fails bad
    exact ⟨k.sbOk.trans ok, k.sbStatus.trans status, k.flags 10 flag⟩
  · obtain ⟨ok, sample, since, temp⟩ := answers good
    rw [k.sbStatus, k.sbSeq, k.sbSince]
    exact ⟨k.sbOk.trans ok, sample, since, fun none => k.temp.trans (temp none)⟩
  · rw [k.stale, k.sbSince]
    exact stale

/-- The tile with a sample of its telemetry (R233). -/
def Tile.sampled (t : Tile) (now : Nat) (st sq : W8) : Tile :=
  { t with sbStatus := st.toNat, sbOk := true, sbSeq := some sq.toNat, sbSince := if t.sbSeq != some sq.toNat then now else t.sbSince }

/-- A sample counts as new when its sequence is. -/
theorem Tile.sampled_sbSince (t : Tile) (now : Nat) (st sq : W8) :
    (t.sampled now st sq).sbSince = if (t.sampled now st sq).sbSeq = t.sbSeq then t.sbSince else now := by
  show (if t.sbSeq != some sq.toNat then now else t.sbSince) = if some sq.toNat = t.sbSeq then t.sbSince else now
  by_cases same : some sq.toNat = t.sbSeq
  · rw [if_pos same, same, if_neg (by rw [bne_self_eq_false]; exact Bool.false_ne_true)]
  · rw [if_neg same, if_pos (bne_iff_ne.mpr (Ne.symm same))]

/-- A read of a position's telemetry that failed, before its stale bit is decided. -/
def State.readFailed (s : State) (lane pos code : Nat) : State :=
  (s.setTile (lane * 16 + pos) { s.tile (lane * 16 + pos) with sbOk := false }).laneFlag lane 10 (pos * 2 ^ 28 + code)

/-- The state with a position's reading taken over, before its stale bit is decided. -/
def State.readingTaken (s0 : State) (lane pos : Nat) (r : SbReading) : State :=
  let s := s0.sbLog lane (0x60 + pos) 0 []
  match r with
  | .sample code st sq =>
    (s.drawn.setTile (lane * 16 + pos) ((s.tile (lane * 16 + pos)).sampled s.uptime st sq)).set (F.LANE_TEMP_sb lane pos)
      (s.thermistor (lane * 16 + pos) code.toNat)
  | .nack => s.readFailed lane pos 1
  | .timeout => s.readFailed lane pos 2
  | .busLow => s.readFailed lane pos 3

theorem State.pollTile_eq (s : State) (lane pos : Nat) (r : SbReading) :
    s.pollTile lane pos r = (s.readingTaken lane pos r).staleCheck lane pos := by
  cases r <;> rfl

theorem State.sbLog_work (s : State) (lane n : Nat) (P : Nat → Prop) (address offset : Nat) (written : List W8) :
    LinkWork n P s (s.sbLog lane address offset written) := s.setLane_work n P lane _

theorem State.readFailed_work (s : State) (hl : lane < 24) (pos code : Nat) :
    LinkWork lane (laneWrites lane (statBases pos)) s (s.readFailed lane pos code) :=
  (s.setTile_work lane _ _ _).trans (State.laneFlag_work _ hl (by decide) (by simp [statBases]) _)

/-- A reading writes at most the lane's flags and the position's temperature. -/
theorem State.readingTaken_work (s : State) (hl : lane < 24) (pos : Nat) (r : SbReading) :
    LinkWork lane (laneWrites lane (statBases pos)) s (s.readingTaken lane pos r) := by
  let a := s.sbLog lane (0x60 + pos) 0 []
  have logged : LinkWork lane (laneWrites lane (statBases pos)) s a := s.sbLog_work lane lane _ _ _ _
  cases r with
  | sample code st sq =>
    exact ((logged.trans (a.drawn_work lane _)).trans (a.drawn.setTile_work lane _ _ _)).trans
      (State.set_work (base := 0x40050080 + pos * 4) _ _ _ (Nat.add_right_comm _ _ _) (by omega) (by simp [statBases]))
  | nack => exact logged.trans (a.readFailed_work hl pos 1)
  | timeout => exact logged.trans (a.readFailed_work hl pos 2)
  | busLow => exact logged.trans (a.readFailed_work hl pos 3)

theorem statBases_polled {pos : Nat} (hp : pos < 16) : statBases pos ⊆ polledBases := by
  refine List.cons_subset.mpr ⟨List.mem_cons_self, List.cons_subset.mpr ⟨?_, List.nil_subset _⟩⟩
  exact List.mem_cons_of_mem _ (List.mem_cons_of_mem _ (List.mem_map.mpr ⟨pos, List.mem_range.mpr hp, by omega⟩))

theorem State.staleCheck_work (s : State) (lane pos : Nat) : LinkWork lane (laneWrites lane [0x40050028]) s (s.staleCheck lane pos) :=
  s.set_work (base := 0x40050028) _ _ rfl (by decide) (by decide)

theorem State.pollTile_work (s : State) (hl : lane < 24) (hp : pos < 16) (r : SbReading) :
    LinkWork lane (laneWrites lane polledBases) s (s.pollTile lane pos r) := by
  rw [s.pollTile_eq]
  exact ((s.readingTaken_work hl pos r).mono (laneWrites.mono (statBases_polled hp))).trans
    ((State.staleCheck_work _ lane pos).mono (laneWrites.mono (by decide)))

/-- A reading changes the tile read alone. -/
theorem State.readingTaken_tile_ne (s : State) {k : Nat} (h : k ≠ lane * 16 + pos) (r : SbReading) :
    (s.readingTaken lane pos r).tile k = s.tile k := by
  have failed (code : Nat) : ((s.sbLog lane (0x60 + pos) 0 []).readFailed lane pos code).tile k = s.tile k := by
    rw [State.readFailed, State.laneFlag_tile, State.tile_setTile_ne _ _ h]
    rfl
  cases r with
  | sample code st sq => exact State.tile_setTile_ne _ _ h
  | nack => exact failed 1
  | timeout => exact failed 2
  | busLow => exact failed 3

/-- The stale bits are no register of a reading. -/
theorem not_statBases_stale (hl : lane < 24) (pos : Nat) : ¬ laneWrites lane (statBases pos) (R.LANE_SBSTALE lane) := by
  refine not_laneWrites (base := 0x40050028) hl (by decide) (by decide) ?_
  simp only [statBases, List.mem_cons, List.not_mem_nil, or_false]
  omega

/-- The reading of one position keeps the sample of another. -/
theorem State.pollTile_sideKept (s : State) {q : Nat} (hl : lane < 24) (hp : pos < 16) (hq : q < 16) (ne : pos ≠ q) (r : SbReading) :
    SideKept lane pos s (s.pollTile lane q r) := by
  have work := s.pollTile_work hl hq r
  have read := s.readingTaken_work hl q r
  have tile : (s.pollTile lane q r).tile (lane * 16 + pos) = s.tile (lane * 16 + pos) := by
    rw [s.pollTile_eq]
    exact s.readingTaken_tile_ne (by omega) r
  have temp : (s.pollTile lane q r).get (F.LANE_TEMP_sb lane pos) = s.get (F.LANE_TEMP_sb lane pos) := by
    have other : 0x40050080 + pos * 4 ∉ statBases q := by
      simp only [statBases, List.mem_cons, List.not_mem_nil, or_false]
      omega
    rw [s.pollTile_eq, (State.staleCheck_work _ lane q).get (F.LANE_TEMP_sb lane pos)
      (not_laneWrites_pos (base := 0x40050080) (step := 4) hl hp (by decide) (by decide) (by decide))]
    exact read.get _ (not_laneWrites_at hl (by decide) (by omega) other)
  have stale : natBit ((s.pollTile lane q r).get (F.LANE_SBSTALE_stale lane)) pos = natBit (s.get (F.LANE_SBSTALE_stale lane)) pos := by
    rw [s.pollTile_eq, State.staleCheck]
    refine (State.natBit_setBit_field_ne _ _ (by decide) (by decide) (by omega) ne).trans ?_
    exact congrArg (natBit · pos) (read.get (F.LANE_SBSTALE_stale lane) (not_statBases_stale hl q))
  exact ⟨by rw [tile], by rw [tile], by rw [tile], by rw [tile], temp, stale, work.flags⟩

/-- The reading of a position decides its sample and its stale bit. -/
theorem State.pollTile_polled {q : Nat} {r : SbReading} (hl : lane < 24) (hq : q < 16) (work : LinkWork lane (laneWrites lane polledBases) s t)
    (tile : t.tile (lane * 16 + q) = s.tile (lane * 16 + q)) : Polled lane s (q, r) (t.pollTile lane q r) := by
  let a := t.sbLog lane (0x60 + q) 0 []
  let b := t.readingTaken lane q r
  let u := b.staleCheck lane q
  have period : b.get (F.LANE_SBCFG_per_ms lane) = s.get (F.LANE_SBCFG_per_ms lane) := by
    have apart : 0x40050024 ∉ statBases q := by
      simp only [statBases, List.mem_cons, List.not_mem_nil, or_false]
      omega
    rw [(t.readingTaken_work hl q r).get (F.LANE_SBCFG_per_ms lane) (not_laneWrites (base := 0x40050024) hl (by decide) (by decide) apart)]
    exact work.get _ (not_laneWrites (base := 0x40050024) hl (by decide) (by decide) (by decide))
  have clock : b.uptime = s.uptime := (t.readingTaken_work hl q r).uptime.trans work.uptime
  have time : b.staleTime lane = max 10 (2 * max 1 (s.get (F.LANE_SBCFG_per_ms lane))) * 390625 := by
    rw [State.staleTime, State.pollPeriod, period, cyclesPerMs]
  have stale : natBit (u.get (F.LANE_SBSTALE_stale lane)) q =
      decide ((u.tile (lane * 16 + q)).sbSince + max 10 (2 * max 1 (s.get (F.LANE_SBCFG_per_ms lane))) * 390625 ≤ s.uptime) := by
    have since : (u.tile (lane * 16 + q)).sbSince = (b.tile (lane * 16 + q)).sbSince := rfl
    rw [since, ← time, ← clock]
    exact b.natBit_setBit_field _ (by decide) (by decide) (by omega)
  have decided : LinkWork lane (laneWrites lane [0x40050028]) b u := b.staleCheck_work lane q
  have failed {code : Nat} (is : b = a.readFailed lane q code) : (u.tile (lane * 16 + q)).sbOk = false ∧
      (u.tile (lane * 16 + q)).sbStatus = (s.tile (lane * 16 + q)).sbStatus ∧ u.bit (F.LANE_LSTAT_flags lane) 10 = true := by
    have now : u.tile (lane * 16 + q) = { s.tile (lane * 16 + q) with sbOk := false } := by
      show b.tile (lane * 16 + q) = _
      rw [is, State.readFailed, State.laneFlag_tile, State.tile_setTile_same, ← tile]
      rfl
    refine ⟨by rw [now], by rw [now], decided.flags 10 ?_⟩
    rw [is]
    exact State.laneFlag_set _ hl (by decide) _
  rw [t.pollTile_eq]
  cases r with
  | sample code st sq =>
    have now : u.tile (lane * 16 + q) = (s.tile (lane * 16 + q)).sampled s.uptime st sq := by
      rw [← work.uptime, ← tile]
      exact State.tile_setTile_same _ _ _
    refine ⟨fun bad => absurd bad (by simp), fun _ => ⟨?_, ?_, ?_, fun none => ?_⟩, stale⟩
    · show (u.tile (lane * 16 + q)).sbOk = true
      rw [now]
      rfl
    · show SbReading.sample code st sq = .sample code (BitVec.ofNat 8 (u.tile (lane * 16 + q)).sbStatus)
        (BitVec.ofNat 8 ((u.tile (lane * 16 + q)).sbSeq.getD 0))
      rw [now]
      simp [Tile.sampled]
    · show (u.tile (lane * 16 + q)).sbSince = if (u.tile (lane * 16 + q)).sbSeq = (s.tile (lane * 16 + q)).sbSeq then _ else _
      rw [now]
      exact Tile.sampled_sbSince _ _ st sq
    · have code' : a.thermistor (lane * 16 + q) code.toNat = 0x8000 := by
        have table : (a.tile (lane * 16 + q)).therm = [] := (congrArg Tile.therm tile).trans none
        rw [State.thermistor, table]
        rfl
      have stored : b.get (F.LANE_TEMP_sb lane q) = 0x8000 := by
        show (State.set _ (F.LANE_TEMP_sb lane q) (a.thermistor (lane * 16 + q) code.toNat)).get (F.LANE_TEMP_sb lane q) = _
        rw [code']
        exact State.get_set_fits _ (by decide) (by decide) (by decide)
      exact (decided.get (F.LANE_TEMP_sb lane q) (not_laneWrites_pos (base := 0x40050080) (step := 4) hl hq (by decide) (by decide) (by decide))).trans stored
  | nack => exact ⟨fun _ => failed rfl, fun good => absurd (by simp) good, stale⟩
  | timeout => exact ⟨fun _ => failed rfl, fun good => absurd (by simp) good, stale⟩
  | busLow => exact ⟨fun _ => failed rfl, fun good => absurd (by simp) good, stale⟩

/-- The readings of a poll, in order. -/
theorem State.pollTiles_spec (s : State) (hl : lane < 24) (mask : Nat) (rs : List SbReading) :
    let t := ((positions mask).zip rs).foldl (fun u e => u.pollTile lane e.1 e.2) s
    LinkWork lane (laneWrites lane polledBases) s t ∧ ∀ e ∈ (positions mask).zip rs, Polled lane s e t := by
  have keys := nodup_map_fst_zip (positions mask) rs (positions_nodup mask)
  have small (e : Nat × SbReading) (he : e ∈ (positions mask).zip rs) : e.1 < 16 := (mem_positions.mp (List.of_mem_zip he).1).1
  have apart (x : Nat × SbReading) (hx : x ∈ (positions mask).zip rs) (y : Nat × SbReading) (hy : y ∈ (positions mask).zip rs) (ne : x ≠ y) :
      y.1 ≠ x.1 := fun same => ne (List.inj_on_of_nodup_map keys hx hy same.symm)
  refine ⟨LinkWork.foldl _ s fun e he u => u.pollTile_work hl (small e he) e.2, ?_⟩
  refine foldl_each (before := fun e u => LinkWork lane (laneWrites lane polledBases) s u ∧ u.tile (lane * 16 + e.1) = s.tile (lane * 16 + e.1))
    (after := Polled lane s) _ s (List.Nodup.of_map _ keys) (fun x hx y hy u ne ready => ?_) (fun x hx u ready => ?_)
    (fun x hx y hy u ne polled => ?_) fun _ _ => ⟨LinkWork.refl lane _ s, rfl⟩
  · obtain ⟨work, tile⟩ := ready
    have other : lane * 16 + y.1 ≠ lane * 16 + x.1 := fun same => apart x hx y hy ne (Nat.add_left_cancel same)
    refine ⟨work.trans (u.pollTile_work hl (small x hx) x.2), ?_⟩
    rw [u.pollTile_eq]
    exact (u.readingTaken_tile_ne other x.2).trans tile
  · exact State.pollTile_polled hl (small x hx) ready.1 ready.2
  · exact polled.after (u.pollTile_sideKept hl (small y hy) (small x hx) (apart x hx y hy ne) x.2)

end

end Sys2Proof.Machine
end

section
/-! SUPPORT. What the comparison of a tile's two views leaves, a whole poll, and writes of LANEn_SBCFG (R233, R234, R236, R270). -/

namespace Sys2Proof.Machine

/-! ### The comparison of views (R234) -/

/-- From `s` to `t` the views of a lane's tiles were compared: of a tile only what is in force of its mismatches may change. -/
structure ViewWork (lane : Nat) (s t : State) : Prop where
  work : LinkWork lane (laneWrites lane [0x40050014, 0x4005001C]) s t
  tile : ∀ k, t.tile k = { s.tile k with mism := (t.tile k).mism, runDiff := (t.tile k).runDiff }

section
variable {s t u : State} {lane pos : Nat}

theorem ViewWork.refl (lane : Nat) (s : State) : ViewWork lane s s := ⟨LinkWork.refl lane _ s, fun _ => rfl⟩

theorem ViewWork.trans (h : ViewWork lane s t) (k : ViewWork lane t u) : ViewWork lane s u := by
  refine ⟨h.work.trans k.work, fun n => ?_⟩
  have later := k.tile n
  rwa [h.tile n] at later

theorem ViewWork.foldl {α : Type} {f : State → α → State} : ∀ (l : List α) (s : State),
    (∀ x ∈ l, ∀ t, ViewWork lane t (f t x)) → ViewWork lane s (l.foldl f s)
  | [], s, _ => ViewWork.refl lane s
  | x :: l, s, h => (h x List.mem_cons_self s).trans (ViewWork.foldl l (f s x) fun y hy => h y (List.mem_cons_of_mem x hy))

/-- A tile's mismatches written. -/
theorem State.setMism_view (s : State) (lane k m : Nat) : ViewWork lane s (s.setTile k { s.tile k with mism := m }) := by
  refine ⟨s.setTile_work lane _ k _, fun n => ?_⟩
  by_cases same : n = k
  · rw [same, State.tile_setTile_same]
  · rw [State.tile_setTile_ne _ _ same]

/-- A tile's count of differing polls written. -/
theorem State.setRunDiff_view (s : State) (lane k n : Nat) : ViewWork lane s (s.setTile k { s.tile k with runDiff := n }) := by
  refine ⟨s.setTile_work lane _ k _, fun j => ?_⟩
  by_cases same : j = k
  · rw [same, State.tile_setTile_same]
  · rw [State.tile_setTile_ne _ _ same]

/-- Work that leaves every tile. -/
theorem ViewWork.of_tile (work : LinkWork lane (laneWrites lane [0x40050014, 0x4005001C]) s t) (tile : ∀ k, t.tile k = s.tile k) :
    ViewWork lane s t := ⟨work, fun k => by rw [tile]⟩

theorem State.mismatch_view (s : State) (hl : lane < 24) (hp : pos < 16) (item : Nat) (b : Bool) (link sb : Nat) :
    ViewWork lane s (s.mismatch lane pos item b link sb) := by
  unfold State.mismatch
  extract_lets k x m v
  split
  · exact ViewWork.refl lane s
  · let a := s.setTile k { x with mism := m }
    let c := a.setBit (F.LANE_EXCL_mism lane) pos (m != 0)
    have shut := c.setCond_tile k causeMismatch (m != 0)
    have stored : ViewWork lane s c := (s.setMism_view lane k m).trans
      (ViewWork.of_tile (a.set_work (base := 0x40050014) _ _ rfl (by decide) (by decide)) fun _ => rfl)
    have closed : ViewWork lane s v := stored.trans (ViewWork.of_tile (c.setCond_tile_work hl (tile_lt hl hp) _ _ _) shut.tile)
    split
    · exact closed.trans (ViewWork.of_tile (v.laneFlag_work hl (by decide) (by decide) _) (v.laneFlag_tile lane 5 _))
    · exact closed

theorem State.compareViews_view (s : State) (hl : lane < 24) (hp : pos < 16) (polled : Bool) :
    ViewWork lane s (s.compareViews lane polled pos) := by
  unfold State.compareViews
  extract_lets k x link sb byp differ runDiff s1 s2 s3 s4
  have items : ViewWork lane s s4 := (((s.setRunDiff_view lane k runDiff).trans (s1.mismatch_view hl hp _ _ _ _)).trans
    (s2.mismatch_view hl hp _ _ _ _)).trans (s3.mismatch_view hl hp _ _ _ _)
  split
  · split
    · exact items
    · exact items.trans (s4.mismatch_view hl hp _ _ _ _)
  · exact items

theorem State.compareLane_view (s : State) (hl : lane < 24) (polled : Bool) : ViewWork lane s (s.compareLane lane polled) :=
  ViewWork.foldl _ s fun _ hp t => t.compareViews_view hl (List.mem_range.mp hp) polled

/-- The comparison keeps a position's sideband sample. -/
theorem ViewWork.sideKept (h : ViewWork lane s t) (hl : lane < 24) (hp : pos < 16) : SideKept lane pos s t := by
  have tile := h.tile (lane * 16 + pos)
  exact SideKept.of_work hl hp h.work (by decide) (by rw [tile]) (by rw [tile]) (by rw [tile]) (by rw [tile])

theorem LimitWork.sideKept (h : LimitWork lane s t) (hl : lane < 24) (hp : pos < 16) : SideKept lane pos s t := by
  have tile := h.tile (lane * 16 + pos)
  exact SideKept.of_work hl hp h.work (by decide) (by rw [tile]) (by rw [tile]) (by rw [tile]) (by rw [tile])

theorem FaultWork.sideKept {r : LinkReason} (h : FaultWork lane r s t) (hl : lane < 24) (hp : pos < 16) : SideKept lane pos s t := by
  have tile := h.tile (lane * 16 + pos)
  exact SideKept.of_work hl hp h.work (by decide) (by rw [tile]) (by rw [tile]) (by rw [tile]) (by rw [tile])

theorem LimitWork.foldl {α : Type} {f : State → α → State} : ∀ (l : List α) (s : State),
    (∀ x ∈ l, ∀ t, LimitWork lane t (f t x)) → LimitWork lane s (l.foldl f s)
  | [], s, _ => LimitWork.refl lane s
  | x :: l, s, h => (h x List.mem_cons_self s).trans (LimitWork.foldl l (f s x) fun y hy => h y (List.mem_cons_of_mem x hy))

/-- What the statement says of which tiles may fire in OPEN. -/
theorem State.openRefresh_fires {s : State} {p : Nat} (hl : lane < 24) (opened : s.laneState lane = 7) (hp : p < 16)
    (here : natBit (s.present lane) p = true) : natBit ((s.openRefresh lane).tile (lane * 16 + p)).faults 5 = !(s.openRefresh lane).mayFireOpen lane p := by
  rw [(s.openRefresh_faultWork hl).mayFireOpen hl]
  exact State.openRefresh_bit hl opened hp here

end

/-! ### A poll (R233, R236) -/

section
variable {s : State} {lane : Fin 24}

theorem exec_sbPoll (on : s.flag (F.LANE_SBCFG_poll lane) = true) (rs : List SbReading) : Completes (.sbPoll lane rs) s (fun t =>
    (∀ e ∈ (positions (s.get (F.LANE_PRES_sb lane))).zip rs, Polled lane s e t) ∧
    (s.laneState lane = 7 → ∀ p < 16, natBit (s.present lane) p = true →
      natBit (t.tile (lane * 16 + p)).faults 5 = !t.mayFireOpen lane p)) := by
  have hl := lane.isLt
  let ps := positions (s.get (F.LANE_PRES_sb lane))
  let a := (ps.zip rs).foldl (fun u e => u.pollTile lane e.1 e.2) s
  let b := a.compareLane lane true
  let c := ps.foldl (fun u p => u.tempCheck lane p) b
  have run : exec (.sbPoll lane rs) s = .next (c.openRefresh lane) := congrArg Host.Outcome.next (if_pos on)
  obtain ⟨read, polled⟩ := s.pollTiles_spec hl (s.get (F.LANE_PRES_sb lane)) rs
  have viewed : ViewWork lane a b := a.compareLane_view hl true
  have checked : LimitWork lane b c := LimitWork.foldl ps b fun p hp u => (u.tempCheck_spec hl (mem_positions.mp hp).1).1
  have refreshed := c.openRefresh_faultWork hl
  refine ⟨_, run, fun e he => ?_, fun opened p hp here => ?_⟩
  · have hp : e.1 < 16 := (mem_positions.mp (List.of_mem_zip he).1).1
    exact (polled e he).after (((viewed.sideKept hl hp).trans (checked.sideKept hl hp)).trans (refreshed.sideKept hl hp))
  · have kept {base hi lo : Nat} (low : 0x40050000 ≤ base) (high : base < 0x40050014) :
        c.get ⟨base + lane * 0x800, hi, lo⟩ = s.get ⟨base + lane * 0x800, hi, lo⟩ := by
      have clear {bases : List Nat} (above : ∀ x ∈ bases, 0x40050014 ≤ x) : ¬ laneWrites lane bases (base + lane * 0x800) :=
        not_laneWrites hl low (by omega) fun named => by have := above _ named; omega
      rw [checked.work.get _ (clear (by decide)), viewed.work.get _ (clear (by decide)), read.get _ (clear (by decide))]
    have state : c.laneState lane = 7 := (kept (base := 0x40050004) (by decide) (by decide)).trans opened
    have present : c.present lane = s.present lane := kept (base := 0x40050010) (by decide) (by decide)
    exact State.openRefresh_fires hl state hp (by rwa [present])

/-! ### Writes of LANEn_SBCFG (R233, R236) -/

/-- The card of LANEn_SBCFG: every field is stored. -/
theorem cardAt_sbcfg : ∀ n : Fin 24, (cardAt (R.LANE_SBCFG n)).map (fun c => (c.1.rw, c.1.w1c, c.1.w1s)) = some (0x8FFF0001, 0, 0) := by decide

theorem flag_of_bitsOf {t : State} {f : Field} {v : W32} {i : Nat} (h : t.get f = bitsOf v i i) : t.flag f = v.getLsbD i := by
  have bit : bitsOf v i i < 2 := by
    have bound := bitsOf_lt v i i
    rwa [show i + 1 - i = 1 by omega] at bound
  rw [State.flag, h, ← bitsOf_bit]
  generalize bitsOf v i i = n at *
  have two : n = 0 ∨ n = 1 := by omega
  rcases two with rfl | rfl <;> rfl

section
variable {v : W32}

/-- The state with LANEn_SBCFG written, before anything follows. -/
def State.sbcfgStored (s : State) (lane : Nat) (v : W32) : State := s.plainWrite (R.LANE_SBCFG lane) v

theorem State.sbcfgStored_kept (s : State) (lane : Fin 24) (v : W32) {base hi lo : Nat} (low : 0x40050000 ≤ base) (high : base < 0x40050800)
    (ne : base ≠ 0x40050024) : (s.sbcfgStored lane v).get ⟨base + lane * 0x800, hi, lo⟩ = s.get ⟨base + lane * 0x800, hi, lo⟩ :=
  (s.plainWrite_work (base := 0x40050024) [0x40050024] v (by decide) (by decide)).get _
    (not_laneWrites lane.isLt low high (by simpa using ne))

theorem exec_sbPollWrite (on : natBit s.lanesOff lane = false) (v : W32) :
    let t := s.sbcfgStored lane v
    exec (.sbPollWrite lane v) s = .next (if s.laneState lane = 7 ∧ v.getLsbD 31 = false then t.ringBreak lane 0 else t.openRefresh lane) := by
  refine (next_of_lane_on on _).trans (congrArg Host.Outcome.next ?_)
  unfold State.sbcfgWrite
  refine if_congr ?_ rfl rfl
  rw [Bool.and_eq_true, decide_eq_true_eq, beq_iff_eq]
  refine and_congr_right fun _ => ⟨fun zero => ?_, fun off => ?_⟩
  · rw [← bitsOf_bit, zero]
    rfl
  · have small := bitsOf_lt v 31 31
    have ne := bitsOf_of_not_bit off
    omega

/-- A write that ends polling in OPEN breaks the ring. -/
theorem exec_sbPollWrite_breaks (on : natBit s.lanesOff lane = false) (opened : s.laneState lane = 7) (off : v.getLsbD 31 = false) :
    Completes (.sbPollWrite lane v) s (fun t => t.get (F.LANE_STATE_state lane) = 6 ∧ t.flag (F.LANE_CTL_open lane) = false ∧
      t.bit (F.LANE_LSTAT_flags lane) 2 = true ∧
      ∀ p < 16, natBit (s.present lane) p = true → natBit (t.tile (lane * 16 + p)).faults 4 = true) := by
  have state : (s.sbcfgStored lane v).laneState lane = 7 :=
    (s.sbcfgStored_kept lane v (base := 0x40050004) (by decide) (by decide) (by decide)).trans opened
  have present : (s.sbcfgStored lane v).present lane = s.present lane :=
    s.sbcfgStored_kept lane v (base := 0x40050010) (by decide) (by decide) (by decide)
  obtain ⟨-, entered, flag, -, closed, held⟩ :=
    State.ringBreak_spec (s := s.sbcfgStored lane v) (err := 0) lane.isLt (by rw [state]; decide) (by decide)
  exact ⟨_, (exec_sbPollWrite on v).trans (congrArg Host.Outcome.next (if_pos ⟨opened, off⟩)), entered.1, closed state, flag,
    fun p hp here => held p hp (by rwa [present])⟩

/-- Any other write stores the configuration, and decides in OPEN again which tiles may fire. -/
theorem exec_sbPollWrite_stores (on : natBit s.lanesOff lane = false) (keeps : ¬(s.laneState lane = 7 ∧ v.getLsbD 31 = false)) :
    Completes (.sbPollWrite lane v) s (fun t => t.flag (F.LANE_SBCFG_poll lane) = v.getLsbD 31 ∧
      t.get (F.LANE_SBCFG_per_ms lane) = (v.extractLsb' 24 4).toNat ∧ t.get (F.LANE_SBCFG_tdiff lane) = (v.extractLsb' 16 8).toNat ∧
      t.get (F.LANE_STATE_state lane) = s.laneState lane ∧
      (s.laneState lane = 7 → ∀ p < 16, natBit (s.present lane) p = true → natBit (t.tile (lane * 16 + p)).faults 5 = !t.mayFireOpen lane p)) := by
  have hl := lane.isLt
  have refreshed := (s.sbcfgStored lane v).openRefresh_faultWork hl
  have kept {base hi lo : Nat} (low : 0x40050000 ≤ base) (high : base < 0x40050800) :
      ((s.sbcfgStored lane v).openRefresh lane).get ⟨base + lane * 0x800, hi, lo⟩ = (s.sbcfgStored lane v).get ⟨base + lane * 0x800, hi, lo⟩ :=
    refreshed.work.get _ (not_laneWrites hl low high List.not_mem_nil)
  have stored {hi lo : Nat} (h : hi < 32) (full : bitsOf (w32 0x8FFF0001) hi lo = 2 ^ (hi + 1 - lo) - 1) (plain : bitsOf (w32 0) hi lo = 0) :
      ((s.sbcfgStored lane v).openRefresh lane).get ⟨R.LANE_SBCFG lane, hi, lo⟩ = bitsOf v hi lo :=
    (kept (base := 0x40050024) (by decide) (by decide)).trans (State.get_plainWrite_stored (cardAt_sbcfg lane) s v h full plain)
  have state : (s.sbcfgStored lane v).laneState lane = s.laneState lane :=
    s.sbcfgStored_kept lane v (base := 0x40050004) (by decide) (by decide) (by decide)
  have present : (s.sbcfgStored lane v).present lane = s.present lane :=
    s.sbcfgStored_kept lane v (base := 0x40050010) (by decide) (by decide) (by decide)
  refine ⟨_, (exec_sbPollWrite on v).trans (congrArg Host.Outcome.next (if_neg keeps)),
    flag_of_bitsOf (stored (by decide) (by decide) (by decide)),
    (stored (by decide) (by decide) (by decide)).trans (bitsOf_extract v 27 24).symm,
    (stored (by decide) (by decide) (by decide)).trans (bitsOf_extract v 23 16).symm,
    (kept (base := 0x40050004) (by decide) (by decide)).trans state, fun opened p hp here => ?_⟩
  exact State.openRefresh_fires hl (state.trans opened) hp (by rwa [present])

end

end

end Sys2Proof.Machine
end

section
/-! SUPPORT. Waveform uploads and their commits (R248, R249). -/

namespace Sys2Proof.Machine

/-! ### Writes of LANEn_WVCMD (R248) -/

/-- The card of LANEn_WVCMD: busy belongs to the device. -/
theorem cardAt_wvcmd : ∀ n : Fin 24,
    (cardAt (R.LANE_WVCMD n)).map (fun c => (c.1.rw, c.1.w1c, c.1.w1s)) = some (0x2700FFFF, 0x10000000, 0) := by decide

/-- A mask that is within another has no bit that the other lacks. -/
theorem and_ne_self_iff {mask other : Nat} (h : mask < 65536) :
    mask &&& other ≠ mask ↔ ∃ p < 16, natBit mask p = true ∧ natBit other p = false := by
  constructor
  · intro ne
    by_contra none
    refine ne (Nat.eq_of_testBit_eq fun p => ?_)
    rw [Nat.testBit_and]
    by_cases hp : p < 16
    · cases hm : mask.testBit p with
      | false => rfl
      | true =>
        by_contra lacks
        refine none ⟨p, hp, by rw [natBit_eq, hm], ?_⟩
        rw [natBit_eq]
        simpa using lacks
    · have high : mask < 2 ^ p := Nat.lt_of_lt_of_le h (Nat.pow_le_pow_right (by decide) (Nat.le_of_not_lt hp) : 2 ^ 16 ≤ 2 ^ p)
      rw [Nat.testBit_lt_two_pow high, Bool.false_and]
  · rintro ⟨p, -, has, lacks⟩ same
    have bit := congrArg (·.testBit p) same
    rw [natBit_eq] at has lacks
    simp only [Nat.testBit_and, has, lacks, Bool.and_false] at bit
    exact absurd bit Bool.false_ne_true

section
variable {s : State} {lane : Fin 24} {v : W32}

/-- When an upload is refused: busy, a source outside SRAM, or a position that is not present (R248). -/
theorem State.uploadRefused_iff (s : State) (lane : Nat) {mask : Nat} (h : mask < 65536) : s.uploadRefused lane mask = true ↔
    s.flag (F.LANE_WVCMD_busy lane) = true ∨ 0x06000000 ≤ (s.rd (R.LANE_WVSRC lane)).toNat + 127 ∨
      ∃ p < 16, natBit mask p = true ∧ natBit (s.get (F.LANE_PRES_link lane)) p = false := by
  have inside : ((!isSram (s.rd (R.LANE_WVSRC lane)).toNat) = true ∨ (!isSram ((s.rd (R.LANE_WVSRC lane)).toNat + 127)) = true) ↔
      0x06000000 ≤ (s.rd (R.LANE_WVSRC lane)).toNat + 127 := by
    simp only [isSram, Bool.not_eq_true', decide_eq_false_iff_not]
    omega
  unfold State.uploadRefused
  simp only [Bool.or_eq_true, bne_iff_ne, or_assoc]
  refine or_congr Iff.rfl ?_
  rw [← or_assoc, inside]
  exact or_congr Iff.rfl (and_ne_self_iff h)

/-- The words of a byte range are the words of memory there. -/
theorem wordsOf_rdBytes (s : State) : ∀ (n a : Nat), wordsOf (s.rdBytes a (4 * n)) = (List.range n).map (fun j => s.wordAt (a + 4 * j))
  | 0, _ => rfl
  | n + 1, a => by
    have bytes (b m : Nat) : s.rdBytes b (m + 4) = s.rdByte b :: s.rdByte (b + 1) :: s.rdByte (b + 2) :: s.rdByte (b + 3) :: s.rdBytes (b + 4) m := by
      rw [show m + 4 = m + 3 + 1 from rfl, State.rdBytes_succ, show m + 3 = m + 2 + 1 from rfl, State.rdBytes_succ,
        show m + 2 = m + 1 + 1 from rfl, State.rdBytes_succ, State.rdBytes_succ]
    have word : w32 (leNat [s.rdByte a, s.rdByte (a + 1), s.rdByte (a + 2), s.rdByte (a + 3)]) = s.wordAt a := s.word_rdBytes a
    rw [show 4 * (n + 1) = 4 * n + 4 by omega, bytes, wordsOf, word, wordsOf_rdBytes s n (a + 4), List.range_succ_eq_map, List.map_cons, List.map_map]
    refine congrArg (s.wordAt a :: ·) (List.map_congr_left fun j _ => ?_)
    show s.wordAt (a + 4 + 4 * j) = s.wordAt (a + 4 * (j + 1))
    congr 1
    omega

/-- One WAVE to each position of a mask: it is unanswered, and nothing else that is kept of the upload changes. -/
theorem State.sendWaves_spec (s : State) (lane mask index : Nat) (bytes : List W8) :
    (s.sendWaves lane mask index bytes).regs = s.regs ∧ ((s.sendWaves lane mask index bytes).lane lane).upload = (s.lane lane).upload ∧
      ∀ p < 16, natBit mask p = true → ∃ x ∈ ((s.sendWaves lane mask index bytes).lane lane).txs, x.pos = p ∧ x.wave = true ∧ x.tries = 0 ∧
        x.full = false := by
  refine ⟨List.foldlRecOn (motive := fun t : State => t.regs = s.regs) _ _ rfl fun _ ht _ _ => ht,
    List.foldlRecOn (motive := fun t : State => (t.lane lane).upload = (s.lane lane).upload) _ _ rfl fun t ht p _ => ?_, fun p hp named => ?_⟩
  · rw [State.lane_setLane_same]
    exact ht
  · refine foldl_each (before := fun _ _ => True)
      (after := fun q t => ∃ x ∈ (t.lane lane).txs, x.pos = q ∧ x.wave = true ∧ x.tries = 0 ∧ x.full = false) (positions mask) s
      (positions_nodup mask) (fun _ _ _ _ _ _ _ => trivial) (fun q _ t _ => ?_) (fun y _ q _ t _ held => ?_) (fun _ _ => trivial) p
      (mem_positions.mpr ⟨hp, named⟩)
    · refine ⟨⟨q, true, (t.lane lane).waveSeq, 0, false, transomOut 2 q (t.lane lane).waveSeq index bytes⟩, ?_, rfl, rfl, rfl, rfl⟩
      rw [State.lane_setLane_same]
      exact List.mem_append_right _ List.mem_cons_self
    · obtain ⟨x, hx, fields⟩ := held
      refine ⟨x, ?_, fields⟩
      rw [State.lane_setLane_same]
      exact List.mem_append_left _ hx

theorem wvcmd_mask (v : W32) : bitsOf (putBits v 30 30 1) 15 0 = v.toNat % 65536 := by
  rw [bitsOf_putBits_disjoint v 30 30 1 15 0 (by decide) (by decide) (by decide), bitsOf, Nat.pow_zero, Nat.div_one]
  rfl

theorem exec_waveUpload_refused (on : natBit s.lanesOff lane = false) (refused : s.uploadRefused lane (v.toNat % 65536) = true) :
    exec (.waveUpload lane v) s = .next (s.set (F.LANE_WVCMD_err lane) 1) := by
  have go : bitsOf (putBits v 30 30 1) 30 30 = 1 := bitsOf_putBits_bit v (by decide) (by decide)
  refine (next_of_lane_on on _).trans (congrArg Host.Outcome.next ?_)
  unfold State.wvcmdWrite
  rw [if_neg (by rw [go]; decide), wvcmd_mask, if_pos refused]

/-- An upload that is not refused, of a source without an erroneous cell. -/
theorem exec_waveUpload (on : natBit s.lanesOff lane = false) (accepted : s.uploadRefused lane (v.toNat % 65536) ≠ true)
    (sound : s.sound (s.rd (R.LANE_WVSRC lane)).toNat 128) : Completes (.waveUpload lane v) s (fun t => t.flag (F.LANE_WVCMD_busy lane) = true ∧
      (t.lane lane).upload = some ⟨(v.extractLsb' 24 3).toNat, v.getLsbD 29,
        (List.range 32).map (fun j => s.wordAt ((s.rd (R.LANE_WVSRC lane)).toNat + 4 * j)), 0⟩ ∧
      ∀ p < 16, natBit (v.toNat % 65536) p = true → ∃ x ∈ (t.lane lane).txs, x.pos = p ∧ x.wave = true ∧ x.tries = 0 ∧ x.full = false) := by
  let w := putBits v 30 30 1
  let a := (s.rd (R.LANE_WVSRC lane)).toNat
  let u := s.plainWrite (R.LANE_WVCMD lane) w
  let bs := u.rdBytes a 128
  let t := (u.setLane lane { u.lane lane with upload := some ⟨bitsOf w 26 24, bitsOf w 29 29 == 1, wordsOf bs, 0⟩ }).set (F.LANE_WVCMD_busy lane) 1
  have go : bitsOf w 30 30 = 1 := bitsOf_putBits_bit v (by decide) (by decide)
  have cells : u.cells = s.cells := by
    unfold u State.plainWrite
    split <;> rfl
  have read : u.engineRead a 128 = (some bs, u) := State.dataRead_of_sound (by rw [State.sound, cells]; exact sound) 0xFF
  have run : exec (.waveUpload lane v) s = .next (t.sendWaves lane (bitsOf w 15 0) (bitsOf w 26 24) bs) := by
    refine (next_of_lane_on on _).trans (congrArg Host.Outcome.next ?_)
    unfold State.wvcmdWrite
    rw [if_neg (by rw [go]; decide), wvcmd_mask, if_neg accepted]
    dsimp only
    rw [read]
  have words : wordsOf bs = (List.range 32).map (fun j => s.wordAt (a + 4 * j)) := by
    refine (wordsOf_rdBytes u 32 a).trans (List.map_congr_left fun j _ => ?_)
    exact State.wordAt_congr (s.plainWrite_rdByte (R.LANE_WVCMD lane) w) _
  have index : bitsOf w 26 24 = (v.extractLsb' 24 3).toNat := bitsOf_go v (by decide) (by decide)
  have commit : (bitsOf w 29 29 == 1) = v.getLsbD 29 := by
    rw [show bitsOf w 29 29 = bitsOf v 29 29 from bitsOf_putBits_other v (by decide) (by decide), bitsOf_bit]
  obtain ⟨regs, upload, sent⟩ := t.sendWaves_spec lane (bitsOf w 15 0) (bitsOf w 26 24) bs
  refine ⟨_, run, ?_, ?_, fun p hp named => sent p hp (by rwa [wvcmd_mask])⟩
  · have busy : t.get (F.LANE_WVCMD_busy lane) = 1 := State.get_set_fits _ (by decide) (by decide) (by decide)
    refine State.flag_of_one ?_
    rw [State.get, State.rd, regs]
    exact busy
  · rw [upload, show t.lane lane = _ from State.lane_setLane_same _ _ _, ← words, ← index, ← commit]

end

/-! ### The end of an upload (R248, R249) -/

section
variable {s : State} {lane : Fin 24} {u : Upload}

theorem exec_waveUploadDone_none (none : (s.lane lane).upload = none) : exec (.waveUploadDone lane) s = .next s := by
  refine congrArg Host.Outcome.next ?_
  unfold State.uploadDone
  rw [none]

theorem State.uploadDone_eq (some : (s.lane lane).upload = some u) : s.uploadDone lane =
    (if (s.lane lane).txs.any (fun x => x.wave) then s
     else
       let t := (s.setLane lane { s.lane lane with upload := none }).set (F.LANE_WVCMD_busy lane) 0
       if u.commit then (positions u.acked).foldl (fun w p => w.mgSend lane p 1 0x1F 1 [1] (.waveCommit u.index)) t else t) := by
  unfold State.uploadDone
  rw [some]
  rfl

/-- Requests leave the registers, and of the lane all but its requests and what has left. -/
theorem State.mgSend_lane (s : State) (lane pos op addr count : Nat) (data : List W32) (why : MgWhy) :
    (s.mgSend lane pos op addr count data why).lane lane = { s.lane lane with
      mgmt := ((s.mgSend lane pos op addr count data why).lane lane).mgmt, out := ((s.mgSend lane pos op addr count data why).lane lane).out,
      mgSeq := ((s.mgSend lane pos op addr count data why).lane lane).mgSeq } := by
  rw [State.mgSend, State.lane_setLane_same]

/-- Every WAVE is answered or given up: the upload is over, and its tiles are committed (R248). -/
theorem exec_waveUploadDone (some : (s.lane lane).upload = some u) (answered : (s.lane lane).txs.any (fun x => x.wave) = false) :
    Completes (.waveUploadDone lane) s (fun t => (t.lane lane).upload = none ∧ t.get (F.LANE_WVCMD_busy lane) = 0 ∧
      (u.commit = false → (t.lane lane).mgmt = (s.lane lane).mgmt) ∧
      (u.commit = true → s.laneState lane ≠ 7 → ∀ p < 16, natBit u.acked p = true →
        ∃ r ∈ (t.lane lane).mgmt, r.pos = p ∧ r.op = 1 ∧ r.addr = 0x1F ∧ r.data = [1])) := by
  let a := s.setLane lane { s.lane lane with upload := none }
  let t := a.set (F.LANE_WVCMD_busy lane) 0
  have run := State.uploadDone_eq some
  rw [answered, if_neg Bool.false_ne_true] at run
  dsimp only at run
  have ended : t.lane lane = { s.lane lane with upload := none } := s.lane_setLane_same lane _
  have idle : t.get (F.LANE_WVCMD_busy lane) = 0 := a.get_set_fits (by decide) (by decide) (by decide)
  have state : t.laneState lane = s.laneState lane := a.get_set_ne 0 (lane_reg_ne (a := 0x40050004) (b := 0x40050480) (by decide))
  cases hc : u.commit with
  | false =>
    rw [hc, if_neg Bool.false_ne_true] at run
    refine ⟨t, congrArg Host.Outcome.next run, by rw [ended], idle, fun _ => by rw [ended], fun no => absurd no Bool.false_ne_true⟩
  | true =>
    rw [hc, if_pos rfl] at run
    refine ⟨_, congrArg Host.Outcome.next run, ?_, ?_, fun no => absurd no.symm Bool.false_ne_true, fun _ opened p hp named => ?_⟩
    · refine List.foldlRecOn (motive := fun w : State => (w.lane lane).upload = none) _ _ (by rw [ended]) fun w hw p _ => ?_
      rw [State.mgSend_lane]
      exact hw
    · exact List.foldlRecOn (motive := fun w : State => w.get (F.LANE_WVCMD_busy lane) = 0) _ _ idle fun _ hw _ _ => hw
    · obtain ⟨r, hr, pos, op, addr, -, data, -⟩ :=
        State.mgSends_wait (s := t) (Or.inl (by rwa [state])) 0x1F 1 [1] (.waveCommit u.index) hp named
      exact ⟨r, hr, pos, op, addr, data⟩

end

end Sys2Proof.Machine
end

section
/-! SUPPORT. The tick of amplitude scaling and the push of breeze settings (R251, R253, R258), and the statement on the management of a
link. -/

namespace Sys2Proof.Machine

/-! ### Amplitude scaling (R251, R253) -/

section
variable {s t : State} {lane pos : Nat}

/-- Without a bar's curve s is the factor of the tile's rank. -/
theorem State.scaleOf_free {k : Nat} (free : s.flag (F.FIRE_TILE_CFG_en k) = false) (x : Int) :
    s.scaleOf k x = s.get (F.FIRE_RANK_f (s.tile k).rank) := by
  unfold State.scaleOf
  rw [free]
  simp only [Bool.false_and, Bool.false_eq_true, if_false]
  omega

theorem tempValue_eq_none {v : Nat} : tempValue v = none ↔ v = 0x8000 := by
  unfold tempValue
  split <;> simp [*]

/-- What stays of a position's scaling at the turn of another: whether it is stale and limited, and the requests. -/
structure ScaleKept (lane pos : Nat) (s t : State) : Prop where
  stale : natBit (t.get (F.LANE_WVSTAT_stale lane)) pos = natBit (s.get (F.LANE_WVSTAT_stale lane)) pos
  limited : natBit (t.lane lane).limited pos = natBit (s.lane lane).limited pos
  mgmt : ∀ r ∈ (s.lane lane).mgmt, r ∈ (t.lane lane).mgmt

theorem ScaleKept.trans {u : State} (h : ScaleKept lane pos s t) (k : ScaleKept lane pos t u) : ScaleKept lane pos s u :=
  ⟨k.stale.trans h.stale, k.limited.trans h.limited, fun r hr => k.mgmt r (h.mgmt r hr)⟩

/-- An event leaves all of it. -/
theorem State.laneEvent_scaleKept (s : State) (hl : lane < 24) (pos kind detail : Nat) : ScaleKept lane pos s (s.laneEvent lane kind detail) := by
  have posted := s.laneEvent_quiet lane kind detail
  have same := posted.lane lane
  refine ⟨?_, by rw [same], fun r hr => by rwa [same]⟩
  rw [posted.get (F.LANE_WVSTAT_stale lane) (not_postReg_lane (base := 0x40050488) hl (by decide) (by decide))]

theorem State.setStale_scaleKept (s : State) {q : Nat} (hp : pos < 16) (ne : pos ≠ q) (b : Bool) :
    ScaleKept lane pos s (s.setBit (F.LANE_WVSTAT_stale lane) q b) :=
  ⟨s.natBit_setBit_field_ne b (by decide) (by decide) (by omega) ne, rfl, fun _ hr => hr⟩

theorem State.setStale_work (s : State) (lane q : Nat) (b : Bool) :
    LinkWork lane (laneWrites lane [0x40050488]) s (s.setBit (F.LANE_WVSTAT_stale lane) q b) :=
  s.set_work (base := 0x40050488) _ _ rfl (by decide) (by decide)

/-- The clamp of a tile noted, and reported where it starts to apply. -/
def State.scaleLimited (s : State) (lane pos : Nat) (x : Nat) : State :=
  let above := decide (s.get F.FIRE_WVCFG_smax < x)
  let t := s.setLane lane { s.lane lane with limited := natSetBit (s.lane lane).limited pos above }
  if above && !natBit (s.lane lane).limited pos then t.laneEvent lane 0x3A1 (pos * 2 ^ 28 + min x 0xFFFF) else t

theorem State.scaleTile_eq (s : State) (lane pos : Nat) (x : Int) : s.scaleTile lane pos x =
    (let n := s.scaleOf (lane * 16 + pos) x
     let v := min n (s.get F.FIRE_WVCFG_smax)
     if v != s.get (F.LANE_SCALE_s lane pos) && s.laneRuns lane then
       (s.scaleLimited lane pos n).mgSend lane pos 1 0x11 1 [w32 v] (.scale v) else s.scaleLimited lane pos n) := rfl

/-- The note of the clamp changes the lane's record, and after it only an event can follow. -/
theorem State.scaleLimited_cases (s : State) (lane pos x : Nat) :
    let l := { s.lane lane with limited := natSetBit (s.lane lane).limited pos (decide (s.get F.FIRE_WVCFG_smax < x)) }
    s.scaleLimited lane pos x = s.setLane lane l ∨
      s.scaleLimited lane pos x = (s.setLane lane l).laneEvent lane 0x3A1 (pos * 2 ^ 28 + min x 0xFFFF) := by
  intro l
  by_cases starts : (decide (s.get F.FIRE_WVCFG_smax < x) && !natBit (s.lane lane).limited pos) = true
  · exact Or.inr (if_pos starts)
  · exact Or.inl (if_neg starts)

theorem State.scaleLimited_work (s : State) (hl : lane < 24) (bases : List Nat) (pos x : Nat) :
    LinkWork lane (laneWrites lane bases) s (s.scaleLimited lane pos x) := by
  rcases s.scaleLimited_cases lane pos x with run | run <;> rw [run]
  · exact s.setLane_work lane _ lane _
  · exact (s.setLane_work lane _ lane _).trans (State.laneEvent_work _ hl _ _ _)

theorem State.scaleLimited_tile (s : State) (lane pos x k : Nat) : (s.scaleLimited lane pos x).tile k = s.tile k := by
  rcases s.scaleLimited_cases lane pos x with run | run <;> rw [run]
  · rfl
  · exact (State.laneEvent_quiet _ _ _ _).tile k

/-- The clamp of a position is its own. -/
theorem State.scaleLimited_lane (s : State) (lane pos x : Nat) : (s.scaleLimited lane pos x).lane lane =
    { s.lane lane with limited := natSetBit (s.lane lane).limited pos (decide (s.get F.FIRE_WVCFG_smax < x)) } := by
  rcases s.scaleLimited_cases lane pos x with run | run <;> rw [run]
  · exact s.lane_setLane_same lane _
  · rw [(State.laneEvent_quiet _ _ _ _).lane]
    exact s.lane_setLane_same lane _

theorem State.mgSend_scaleKept (s : State) (lane pos q op addr count : Nat) (data : List W32) (why : MgWhy) :
    ScaleKept lane pos s (s.mgSend lane q op addr count data why) := by
  refine ⟨rfl, ?_, fun r hr => State.mgSend_keeps_request hr _ _ _ _ _ _⟩
  rw [State.mgSend_lane]

/-- A turn of the tick writes only the lane's stale bits, and leaves every tile. -/
theorem State.scaleStep_work (s : State) (hl : lane < 24) (q : Nat) :
    LinkWork lane (laneWrites lane [0x40050488]) s (s.scaleStep lane q) ∧ ∀ k, (s.scaleStep lane q).tile k = s.tile k := by
  unfold State.scaleStep
  split
  · split
    · exact ⟨LinkWork.refl lane _ s, fun _ => rfl⟩
    · exact ⟨(s.setStale_work lane q true).trans (State.laneEvent_work _ hl _ _ _), (State.laneEvent_quiet _ _ _ _).tile⟩
  · next x _ =>
    let u := s.setBit (F.LANE_WVSTAT_stale lane) q false
    have limits := u.scaleLimited_work hl [0x40050488] q (u.scaleOf (lane * 16 + q) x)
    have tiles := u.scaleLimited_tile lane q (u.scaleOf (lane * 16 + q) x)
    rw [State.scaleTile_eq]
    dsimp only
    split
    · exact ⟨((s.setStale_work lane q false).trans limits).trans (State.mgSend_work _ lane _ lane q _ _ _ _ _), tiles⟩
    · exact ⟨(s.setStale_work lane q false).trans limits, tiles⟩

/-- The turn of one position leaves the scaling of another. -/
theorem State.scaleStep_kept (s : State) {q : Nat} (hl : lane < 24) (hp : pos < 16) (ne : pos ≠ q) : ScaleKept lane pos s (s.scaleStep lane q) := by
  unfold State.scaleStep
  split
  · split
    · exact ⟨rfl, rfl, fun _ hr => hr⟩
    · exact (s.setStale_scaleKept hp ne true).trans (State.laneEvent_scaleKept _ hl pos _ _)
  · next x _ =>
    let u := s.setBit (F.LANE_WVSTAT_stale lane) q false
    let n := u.scaleOf (lane * 16 + q) x
    have limits : ScaleKept lane pos u (u.scaleLimited lane q n) := by
      have same := u.scaleLimited_lane lane q n
      refine ⟨?_, ?_, fun r hr => by rwa [same]⟩
      · rw [(u.scaleLimited_work hl [] q n).get (F.LANE_WVSTAT_stale lane)
          (not_laneWrites (base := 0x40050488) hl (by decide) (by decide) List.not_mem_nil)]
      · rw [same, natBit_setBit, if_neg ne]
    have first := (s.setStale_scaleKept (lane := lane) hp ne false).trans limits
    rw [State.scaleTile_eq]
    dsimp only
    split
    · exact first.trans (State.mgSend_scaleKept _ lane pos q _ _ _ _ _)
    · exact first

/-- What the statement says of a position after the tick, from the state before it. -/
def Scaled (lane : Nat) (s : State) (p : Nat) (t : State) : Prop :=
  let k := lane * 16 + p
  let x := s.get (F.FIRE_RANK_f (s.tile k).rank)
  let scale := min x (s.get F.FIRE_WVCFG_smax)
  let none_ := s.get (F.LANE_TEMP_link lane p) = 0x8000
  (none_ ↔ natBit (t.get (F.LANE_WVSTAT_stale lane)) p = true) ∧
  (¬none_ → s.flag (F.FIRE_TILE_CFG_en k) = false → (s.tile k).rank < 16 → natBit (t.lane lane).limited p = decide (s.get F.FIRE_WVCFG_smax < x) ∧
    (s.laneState lane = 5 → scale ≠ s.get (F.LANE_SCALE_s lane p) → ∃ r ∈ (t.lane lane).mgmt, r.pos = p ∧ r.op = 1 ∧ r.addr = 0x11 ∧
      r.data = [BitVec.ofNat 32 scale] ∧ r.why = .scale scale))

theorem Scaled.after {u : State} (h : Scaled lane s pos t) (k : ScaleKept lane pos t u) : Scaled lane s pos u := by
  obtain ⟨stale, scaled⟩ := h
  refine ⟨by rwa [k.stale], fun temp free rank => ?_⟩
  obtain ⟨limited, sent⟩ := scaled temp free rank
  refine ⟨k.limited.trans limited, fun up differs => ?_⟩
  obtain ⟨r, hr, fields⟩ := sent up differs
  exact ⟨r, k.mgmt r hr, fields⟩

/-- A register of fire scheduling past those of the shutters' bars, or before them, is none that an engine's work writes. -/
theorem not_laneWrites_fire {a : Nat} {bases : List Nat} (page : ∀ b ∈ bases, 0x40050000 ≤ b)
    (range : (0x40040000 ≤ a ∧ a < 0x40042800) ∨ (0x40042E00 ≤ a ∧ a < 0x40050000)) : ¬ laneWrites lane bases a := by
  rintro (⟨b, hb, same⟩ | shutter | posted)
  · have := page b hb
    omega
  · omega
  · unfold postReg R.SUP_DROP at posted
    omega

/-- The tick at a position without a temperature: its S is held (R253). -/
theorem State.scaleStep_none (hl : lane < 24) (hp : pos < 16) (none : t.get (F.LANE_TEMP_link lane pos) = 0x8000) :
    natBit ((t.scaleStep lane pos).get (F.LANE_WVSTAT_stale lane)) pos = true := by
  have run : t.scaleStep lane pos = if t.bit (F.LANE_WVSTAT_stale lane) pos then t
      else (t.setBit (F.LANE_WVSTAT_stale lane) pos true).laneEvent lane 0x3A2 (pos * 2 ^ 28) := by
    unfold State.scaleStep
    rw [none]
    rfl
  rw [run]
  split
  · next stale => exact stale
  · rw [(State.laneEvent_scaleKept _ hl pos _ _).stale]
    exact t.natBit_setBit_field true (by decide) (by decide) (by omega)

/-- The tick at a position with a temperature: its clamp is noted, and an S that differs from the last acknowledged one leaves (R253). -/
theorem State.scaleStep_some (hl : lane < 24) (hp : pos < 16) {x : Int} (temp : tempValue (t.get (F.LANE_TEMP_link lane pos)) = some x) :
    let u := t.setBit (F.LANE_WVSTAT_stale lane) pos false
    let n := u.scaleOf (lane * 16 + pos) x
    let v := min n (t.get F.FIRE_WVCFG_smax)
    natBit ((t.scaleStep lane pos).get (F.LANE_WVSTAT_stale lane)) pos = false ∧
      natBit ((t.scaleStep lane pos).lane lane).limited pos = decide (t.get F.FIRE_WVCFG_smax < n) ∧
      (t.laneState lane = 5 → v ≠ t.get (F.LANE_SCALE_s lane pos) → ∃ r ∈ ((t.scaleStep lane pos).lane lane).mgmt, r.pos = pos ∧ r.op = 1 ∧
        r.addr = 0x11 ∧ r.data = [BitVec.ofNat 32 v] ∧ r.why = .scale v) := by
  intro u n v
  let w := u.scaleLimited lane pos n
  have stored : LinkWork lane (laneWrites lane [0x40050488]) t u := t.setStale_work lane pos false
  have smax : u.get F.FIRE_WVCFG_smax = t.get F.FIRE_WVCFG_smax :=
    stored.get _ (not_laneWrites_fire (by decide) (by decide))
  have scale : u.get (F.LANE_SCALE_s lane pos) = t.get (F.LANE_SCALE_s lane pos) :=
    stored.get _ (not_laneWrites_pos (base := 0x400504C0) (step := 4) hl hp (by decide) (by decide) (by decide))
  have state : u.laneState lane = t.laneState lane :=
    stored.get (F.LANE_STATE_state lane) (not_laneWrites hl (by decide) (by decide) (by decide))
  have run : t.scaleStep lane pos = if v != t.get (F.LANE_SCALE_s lane pos) && u.laneRuns lane then
      w.mgSend lane pos 1 0x11 1 [w32 v] (.scale v) else w := by
    unfold State.scaleStep
    rw [temp]
    dsimp only
    rw [State.scaleTile_eq]
    dsimp only
    rw [smax, scale]
  have limits := u.scaleLimited_work hl [] pos n
  have noted : w.lane lane = { u.lane lane with limited := natSetBit (u.lane lane).limited pos (decide (u.get F.FIRE_WVCFG_smax < n)) } :=
    u.scaleLimited_lane lane pos n
  have fresh : natBit (w.get (F.LANE_WVSTAT_stale lane)) pos = false := by
    rw [limits.get (F.LANE_WVSTAT_stale lane) (not_laneWrites (base := 0x40050488) hl (by decide) (by decide) List.not_mem_nil)]
    exact t.natBit_setBit_field false (by decide) (by decide) (by omega)
  have limited : natBit (w.lane lane).limited pos = decide (t.get F.FIRE_WVCFG_smax < n) := by
    rw [noted, natBit_setBit, if_pos rfl, smax]
  rw [run]
  split
  · have kept := w.mgSend_scaleKept lane pos pos 1 0x11 1 [w32 v] (.scale v)
    refine ⟨kept.stale.trans fresh, kept.limited.trans limited, fun up _ => ?_⟩
    have same : w.laneState lane = 5 :=
      ((limits.get (F.LANE_STATE_state lane) (not_laneWrites hl (by decide) (by decide) List.not_mem_nil)).trans state).trans up
    exact ⟨_, State.mgSend_waits (Or.inl (by rw [same]; decide)) pos 0x11 1 [w32 v] (.scale v), rfl, rfl, rfl, rfl, rfl⟩
  · next held =>
    refine ⟨fresh, limited, fun up differs => absurd ?_ held⟩
    rw [State.laneRuns_of_up (state.trans up), Bool.and_true]
    exact bne_iff_ne.mpr differs

/-- What a tick that began in `s` has done when the turn of the next position comes. -/
def ScaleReady (lane : Nat) (s t : State) : Prop :=
  LinkWork lane (laneWrites lane [0x40050488]) s t ∧ ∀ k, t.tile k = s.tile k

theorem ScaleReady.step (ready : ScaleReady lane s t) (hl : lane < 24) (q : Nat) :
    ScaleReady lane s (t.scaleStep lane q) := by
  obtain ⟨work, tile⟩ := ready
  obtain ⟨turn, same⟩ := t.scaleStep_work hl q
  exact ⟨work.trans turn, fun k => (same k).trans (tile k)⟩

/-- The turn of a position, from work that began in `s`. -/
theorem State.scaleStep_scaled (hl : lane < 24) (hp : pos < 16) (ready : ScaleReady lane s t) :
    Scaled lane s pos (t.scaleStep lane pos) := by
  obtain ⟨work, tile⟩ := ready
  have fire (f : Field) (range : (0x40040000 ≤ f.addr ∧ f.addr < 0x40042800) ∨ (0x40042E00 ≤ f.addr ∧ f.addr < 0x40050000)) : t.get f = s.get f :=
    work.get f (not_laneWrites_fire (by decide) range)
  have temperature : t.get (F.LANE_TEMP_link lane pos) = s.get (F.LANE_TEMP_link lane pos) :=
    work.get _ (not_laneWrites_pos (base := 0x40050080) (step := 4) hl hp (by decide) (by decide) (by decide))
  have smax : t.get F.FIRE_WVCFG_smax = s.get F.FIRE_WVCFG_smax := fire _ (by decide)
  have acked : t.get (F.LANE_SCALE_s lane pos) = s.get (F.LANE_SCALE_s lane pos) :=
    work.get _ (not_laneWrites_pos (base := 0x400504C0) (step := 4) hl hp (by decide) (by decide) (by decide))
  have state : t.laneState lane = s.laneState lane :=
    work.get (F.LANE_STATE_state lane) (not_laneWrites hl (by decide) (by decide) (by decide))
  cases temp : tempValue (t.get (F.LANE_TEMP_link lane pos)) with
  | none =>
    have none : s.get (F.LANE_TEMP_link lane pos) = 0x8000 := temperature.symm.trans (tempValue_eq_none.mp temp)
    exact ⟨⟨fun _ => State.scaleStep_none hl hp (temperature.trans none), fun _ => none⟩, fun no => absurd none no⟩
  | some x =>
    have some : s.get (F.LANE_TEMP_link lane pos) ≠ 0x8000 := by
      intro none
      rw [temperature, tempValue_eq_none.mpr none] at temp
      exact absurd temp.symm (Option.some_ne_none x)
    obtain ⟨fresh, limited, sent⟩ := State.scaleStep_some hl hp temp
    refine ⟨⟨fun none => absurd none some, fun stale => absurd (fresh.symm.trans stale) Bool.false_ne_true⟩, fun _ free rank => ?_⟩
    let u := t.setBit (F.LANE_WVSTAT_stale lane) pos false
    have factor : u.scaleOf (lane * 16 + pos) x = s.get (F.FIRE_RANK_f (s.tile (lane * 16 + pos)).rank) := by
      have stored : LinkWork lane (laneWrites lane [0x40050488]) s u := work.trans (t.setStale_work lane pos false)
      have free' : u.flag (F.FIRE_TILE_CFG_en (lane * 16 + pos)) = false := by
        rw [stored.flag (F.FIRE_TILE_CFG_en (lane * 16 + pos)) (not_laneWrites_fire (by decide) ?_)]
        · exact free
        · have addr : (F.FIRE_TILE_CFG_en (lane * 16 + pos)).addr = 0x40044000 + (lane * 16 + pos) * 0x10 := rfl
          omega
      have same : u.tile (lane * 16 + pos) = s.tile (lane * 16 + pos) := tile _
      rw [State.scaleOf_free free', same, stored.get (F.FIRE_RANK_f (s.tile (lane * 16 + pos)).rank) (not_laneWrites_fire (by decide) ?_)]
      have addr : (F.FIRE_RANK_f (s.tile (lane * 16 + pos)).rank).addr = 0x40040C00 + (s.tile (lane * 16 + pos)).rank * 0x4 := rfl
      omega
    rw [factor, smax] at limited sent
    rw [state, acked] at sent
    exact ⟨limited, sent⟩

end

section
variable {s : State} {lane : Fin 24}

/-- Every present position has its turn, and no later turn undoes it. -/
theorem State.scaleSteps_scaled (s : State) {lane : Nat} (hl : lane < 24) {p : Nat} (hp : p ∈ positions (s.present lane)) :
    Scaled lane s p ((positions (s.present lane)).foldl (fun t q => t.scaleStep lane q) s) := by
  have small {q : Nat} (hq : q ∈ positions (s.present lane)) : q < 16 := (mem_positions.mp hq).1
  have waits : ∀ q ∈ positions (s.present lane), ∀ y ∈ positions (s.present lane), ∀ t : State, q ≠ y → ScaleReady lane s t →
      ScaleReady lane s (t.scaleStep lane q) := fun q _ _ _ t _ ready => ready.step hl q
  have does : ∀ q ∈ positions (s.present lane), ∀ t : State, ScaleReady lane s t → Scaled lane s q (t.scaleStep lane q) :=
    fun q hq t ready => State.scaleStep_scaled hl (small hq) ready
  have stays : ∀ q ∈ positions (s.present lane), ∀ y ∈ positions (s.present lane), ∀ t : State, q ≠ y → Scaled lane s y t →
      Scaled lane s y (t.scaleStep lane q) := fun q _ y hy t ne scaled => scaled.after (t.scaleStep_kept hl (small hy) ne.symm)
  have each := foldl_each (positions (s.present lane)) s (positions_nodup _) waits does stays fun _ _ => ⟨LinkWork.refl _ _ s, fun _ => rfl⟩
  exact each p hp

theorem exec_scaleTick (on : s.flag F.FIRE_WVCFG_en = true) : Completes (.scaleTick lane) s (fun t =>
    ∀ p < 16, natBit (s.present lane) p = true → Scaled lane s p t) := by
  let t := (positions (s.present lane)).foldl (fun t q => t.scaleStep lane q) s
  have run : exec (.scaleTick lane) s = .next t := congrArg Host.Outcome.next (if_pos on)
  exact ⟨t, run, fun p hp here => s.scaleSteps_scaled lane.isLt (mem_positions.mpr ⟨hp, here⟩)⟩

/-! ### Breeze settings (R258) -/

/-- A breeze setting due leaves for a running position. -/
def State.breezeTo (t : State) (lane p : Nat) : State :=
  if t.runs lane p then t.mgWrite lane p 0x12 [t.breezeWord (lane * 16 + p)] .breeze else t

theorem State.breezeTo_kept (t : State) (lane p : Nat) : (t.breezeTo lane p).regs = t.regs ∧
    ((t.breezeTo lane p).lane lane).breezeDue = (t.lane lane).breezeDue ∧ ∀ r ∈ (t.lane lane).mgmt, r ∈ ((t.breezeTo lane p).lane lane).mgmt := by
  unfold State.breezeTo
  split
  · refine ⟨rfl, ?_, fun r hr => State.mgSend_keeps_request hr _ _ _ _ _ _⟩
    rw [State.mgWrite, State.mgSend_lane]
  · exact ⟨rfl, rfl, fun _ hr => hr⟩

theorem State.get_congr_regs {s t : State} (h : t.regs = s.regs) (f : Field) : t.get f = s.get f := by rw [State.get, State.get, State.rd, State.rd, h]

theorem State.breezeWord_congr {s t : State} (h : t.regs = s.regs) (k : Nat) : t.breezeWord k = s.breezeWord k := by
  have same := State.get_congr_regs h
  simp only [State.breezeWord, State.flag, same]
  rfl

theorem State.runs_congr {s t : State} (h : t.regs = s.regs) (lane p : Nat) : t.runs lane p = s.runs lane p := by
  have same := State.get_congr_regs h
  simp only [State.runs, State.present, State.excluded, State.bit, same]

theorem exec_breezePush_stopped (up : s.laneState lane ≠ 5) (opened : s.laneState lane ≠ 7) : exec (.breezePush lane) s = .next s :=
  congrArg Host.Outcome.next (if_neg (by simp [State.laneRuns, up, opened]))

/-- BREEZE_PUSH in UP or OPEN: nothing is due any more, and in UP the settings of running tiles wait for their answers. -/
theorem exec_breezePush (runs : s.laneState lane = 5 ∨ s.laneState lane = 7) : Completes (.breezePush lane) s (fun t => t.regs = s.regs ∧
    (t.lane lane).breezeDue = 0 ∧ (s.laneState lane = 5 → ∀ p < 16, natBit (s.lane lane).breezeDue p = true → s.runs lane p = true →
      ∃ r ∈ (t.lane lane).mgmt, r.pos = p ∧ r.op = 1 ∧ r.addr = 0x12 ∧ r.data = [s.breezeWord (lane * 16 + p)])) := by
  let a := s.setLane lane { s.lane lane with breezeDue := 0 }
  have run : exec (.breezePush lane) s = .next ((positions (s.lane lane).breezeDue).foldl (fun t p => t.breezeTo lane p) a) :=
    congrArg Host.Outcome.next (if_pos (by simpa only [State.laneRuns, Bool.or_eq_true, beq_iff_eq] using runs))
  refine ⟨_, run, ?_, ?_, fun up p hp due here => ?_⟩
  · exact List.foldlRecOn (motive := fun t : State => t.regs = s.regs) _ _ rfl fun t ht p _ => (t.breezeTo_kept lane p).1.trans ht
  · refine List.foldlRecOn (motive := fun t : State => (t.lane lane).breezeDue = 0) _ _ ?_ fun t ht p _ => ?_
    · rw [State.lane_setLane_same]
    · obtain ⟨-, same, -⟩ := t.breezeTo_kept lane p
      exact same.trans ht
  · refine foldl_each (f := fun t p => t.breezeTo lane p) (before := fun q t => t.regs = s.regs ∧ s.runs lane p = true)
      (after := fun q t => s.runs lane q = true → ∃ r ∈ (t.lane lane).mgmt, r.pos = q ∧ r.op = 1 ∧ r.addr = 0x12 ∧
        r.data = [s.breezeWord (lane * 16 + q)]) (positions (s.lane lane).breezeDue) a (positions_nodup _)
      (fun q _ _ _ t _ ready => ?_) (fun q _ t ready running => ?_) (fun q _ y _ t _ waits running => ?_) (fun _ _ => ⟨rfl, here⟩) p
      (mem_positions.mpr ⟨hp, due⟩) here
    · exact ⟨(t.breezeTo_kept lane q).1.trans ready.1, ready.2⟩
    · have state : t.laneState lane = 5 := (State.get_congr_regs ready.1 (F.LANE_STATE_state lane)).trans up
      have sent : t.breezeTo lane q = t.mgSend lane q 1 0x12 1 [s.breezeWord (lane * 16 + q)] .breeze := by
        rw [← State.breezeWord_congr ready.1]
        exact if_pos ((State.runs_congr ready.1 lane q).trans running)
      rw [sent]
      exact ⟨_, State.mgSend_waits (Or.inl (by rw [state]; decide)) q 0x12 1 _ .breeze, rfl, rfl, rfl, rfl⟩
    · obtain ⟨r, hr, fields⟩ := waits running
      exact ⟨r, (t.breezeTo_kept lane q).2.2 r hr, fields⟩

end

/-! ### The statement -/

/-- Settles O52: a firmware request, its answer and its repeats by the outcome of each; sideband transactions by the front of their list; a poll
by what every reading decides and every later step keeps; uploads, the scale tick and the breeze push by what each turn of their folds sends. -/
theorem linkManagementResults : Obligations.LinkManagementResults := by
  unfold Obligations.LinkManagementResults
  intro s lane on l st
  refine ⟨fun v => ⟨exec_mgmtRequest_reserved on, exec_mgmtRequest_busy on, exec_mgmtRequest_stopped on, fun op idle up => ?_, fun op idle opened => ?_⟩,
    fun granted blocks => ⟨exec_mgmtResponse_unsound, fun m sound => ⟨exec_mgmtResponse_unmatched sound,
      fun r found => exec_mgmtResponse_unfit sound found, fun r found => exec_mgmtResponse_firmware sound found⟩⟩,
    fun p seq => ⟨exec_mgmtRetry_none, fun r found firmware => ?_⟩,
    fun v => ⟨exec_sbCommand_busy on, exec_sbCommand_idle on⟩,
    fun none => ⟨exec_sbStretchTimeout_none none, fun r => congrArg Host.Outcome.next (State.sbDone_none none r)⟩, fun front => ?_,
    ⟨fun rs off => ?_, fun rs polls => exec_sbPoll polls rs, fun v => ⟨fun opened off => exec_sbPollWrite_breaks on opened off, exec_sbPollWrite_stores on⟩⟩,
    fun v => ⟨fun refused => ?_, fun accepted sound => ?_⟩, exec_waveUploadDone_none, fun u some waits => ?_,
    fun u some answered => exec_waveUploadDone some answered, fun off => ?_, exec_scaleTick, exec_breezePush_stopped, exec_breezePush⟩
  · obtain ⟨t, run, out, -, sent⟩ := exec_mgmtRequest_sent (v := v) on op idle (State.laneRuns_of_up up)
    obtain ⟨busy, pos, mgmt⟩ := sent (by rw [show s.laneState lane = 5 from up]; omega)
    refine ⟨t, run, busy, pos, mgmt, ?_⟩
    rw [out, State.mgOut_eq, show s.laneState lane = 5 from up]
    rfl
  · have runs : s.laneRuns lane = true := by
      rw [State.laneRuns, show s.laneState lane = 7 from opened]
      rfl
    obtain ⟨t, run, out, done, sent⟩ := exec_mgmtRequest_sent (v := v) on op idle runs
    rw [State.mgOut_eq] at out
    refine ⟨t, run, fun write => ?_, fun other => ?_⟩
    · obtain ⟨status, mgmt⟩ := done ⟨opened, write⟩
      rw [if_pos ⟨opened, write⟩] at out
      exact ⟨status, mgmt, out⟩
    · obtain ⟨busy, -, mgmt⟩ := sent fun both => other both.2
      rw [if_neg fun both => other both.2, if_pos (Or.inr (Or.inr (show s.laneState lane = 7 from opened)))] at out
      exact ⟨busy, mgmt, out⟩
  · obtain ⟨early, late⟩ := exec_mgmtRetry_firmware found firmware
    rw [State.mgOut_eq] at early
    exact ⟨early, late⟩
  · refine ⟨fun bs => ?_, ?_, fun c hc => ?_⟩
    · obtain ⟨list, idle, -, -, data, -⟩ := State.sbDone_spec front (.data bs)
      refine ⟨_, rfl, list, idle, fun read i _ within short => ?_⟩
      rw [State.sbByte_eq]
      exact data bs rfl read i within short
    · obtain ⟨list, idle, nack, -, -, -⟩ := State.sbDone_spec front .nack
      exact ⟨_, rfl, list, idle, nack rfl⟩
    · simp only [List.mem_cons, List.not_mem_nil, or_false] at hc
      rcases hc with rfl | rfl
      · obtain ⟨list, idle, -, timeout, -, -⟩ := State.sbDone_spec front .timeout
        exact ⟨_, rfl, list, idle, timeout rfl, fun other => absurd other (by simp)⟩
      · obtain ⟨t, run, list, idle, timeout, released⟩ := exec_sbStretchTimeout front
        exact ⟨t, run, list, idle, timeout, fun _ => released⟩
  · exact congrArg Host.Outcome.next (if_neg (by rw [off]; exact Bool.false_ne_true))
  · exact exec_waveUpload_refused on ((s.uploadRefused_iff lane (Nat.mod_lt _ (by decide))).mpr refused)
  · exact exec_waveUpload on (fun no => accepted ((s.uploadRefused_iff lane (Nat.mod_lt _ (by decide))).mp no)) sound
  · exact congrArg Host.Outcome.next ((State.uploadDone_eq some).trans (if_pos waits))
  · exact congrArg Host.Outcome.next (if_neg (by rw [off]; exact Bool.false_ne_true))

end Sys2Proof.Machine
end
